-- ==== Sys2Proof/Word.lean ====
section
/-! DEFINITION. The machine's words and the one container of the model: a table, a list of keyed entries in rising key order. -/

namespace Sys2Proof

/-- A 64-bit register, address or management register (spec 06 R138, 01 R6). -/
abbrev Word := BitVec 64

/-- A location of memory is one byte (spec 13 R285). -/
abbrev Byte := BitVec 8

/-- A 32-bit parcel, f register or tile word (spec 05 R118, 06 R138, 11 R249). -/
abbrev W32 := BitVec 32

/-- A vector or mask register, 1,024 bits (spec 09 R201). -/
abbrev VReg := BitVec 1024

/-- The number of a register of 32. -/
abbrev Reg := BitVec 5

/-- A sparse table: entries with strictly rising keys. -/
abbrev Tab (α : Type) := List (Nat × α)

end Sys2Proof
end

