-- ==== Sys2Proof/Machine/Table.lean ====
section
/-! DEFINITION. Operations on tables (lists of keyed entries in rising key order) and small list helpers. -/

namespace Sys2Proof

/-- The entry with key `k`, if any. -/
def Tab.find {α : Type} : Tab α → Nat → Option α
  | [], _ => none
  | (k', v) :: t, k => if k = k' then some v else Tab.find t k

/-- Insert or replace the entry with key `k`, keeping keys in rising order. -/
def Tab.put {α : Type} : Tab α → Nat → α → Tab α
  | [], k, v => [(k, v)]
  | (k', v') :: t, k, v =>
    if k < k' then (k, v) :: (k', v') :: t
    else if k = k' then (k, v) :: t
    else (k', v') :: Tab.put t k v

/-- Remove the entry with key `k`. -/
def Tab.del {α : Type} : Tab α → Nat → Tab α
  | [], _ => []
  | (k', v') :: t, k => if k = k' then t else (k', v') :: Tab.del t k

/-- The value at `k`, or the default where nothing is listed. -/
def Tab.getD {α : Type} (t : Tab α) (k : Nat) (d : α) : α := (Tab.find t k).getD d

/-- Set the value at `k` in a table whose unlisted entries hold `d`: a value equal to `d` is not listed. -/
def Tab.setD {α : Type} [DecidableEq α] (t : Tab α) (k : Nat) (d v : α) : Tab α :=
  if v = d then Tab.del t k else Tab.put t k v

/-- Change the entry with key `k`, if there is one. -/
def Tab.adjust {α : Type} (t : Tab α) (k : Nat) (f : α → α) : Tab α :=
  match Tab.find t k with
  | some v => Tab.put t k (f v)
  | none => t

/-- Change every entry. -/
def Tab.mapV {α β : Type} (t : Tab α) (f : α → β) : Tab β := t.map fun e => (e.1, f e.2)

/-- The keys rise strictly. -/
def Tab.sorted {α : Type} : Tab α → Bool
  | [] => true
  | [_] => true
  | a :: b :: t => decide (a.1 < b.1) && Tab.sorted (b :: t)

/-- The canonical form of a table with default `d`: keys rise strictly and no entry equals `d`. -/
def Tab.wf {α : Type} [DecidableEq α] (d : α) (t : Tab α) : Bool :=
  Tab.sorted t && t.all fun e => decide (e.2 ≠ d)

/-- Insert a number into a strictly rising list of numbers. -/
def insertNat : List Nat → Nat → List Nat
  | [], k => [k]
  | k' :: t, k => if k < k' then k :: k' :: t else if k = k' then k' :: t else k' :: insertNat t k

/-- Remove a number from a list. -/
def removeNat (l : List Nat) (k : Nat) : List Nat := l.filter fun x => x != k

/-- The numbers `a`, `a+1`, … of a range of length `n`. -/
def range (a n : Nat) : List Nat := (List.range n).map (· + a)

/-- Replace the element at position `i`. -/
def setAt {α : Type} (l : List α) (i : Nat) (v : α) : List α := l.set i v

/-- Remove the element at position `i`. -/
def dropAt {α : Type} (l : List α) (i : Nat) : List α := l.eraseIdx i

/-- `n` bytes of `v`, least significant first: every multi-byte value is little-endian (spec 05 R121, 02 R42). -/
def leBytes (v : Nat) : Nat → List Byte
  | 0 => []
  | n + 1 => BitVec.ofNat 8 v :: leBytes (v / 256) n

/-- The number a little-endian list of bytes stands for. -/
def leNat : List Byte → Nat
  | [] => 0
  | b :: t => b.toNat + 256 * leNat t

/-- Bits `[hi:lo]` of a number. -/
def bits (v hi lo : Nat) : Nat := (v / 2 ^ lo) % 2 ^ (hi + 1 - lo)

/-- Bit `i` of a number. -/
def bit (v i : Nat) : Bool := (v / 2 ^ i) % 2 == 1

/-- A flag as a number. -/
def b2n (b : Bool) : Nat := if b then 1 else 0

/-- A number read as a signed `w`-bit value. -/
def signedOf (w v : Nat) : Int := if 2 * (v % 2 ^ w) < 2 ^ w then (v % 2 ^ w : Nat) else (v % 2 ^ w : Nat) - (2 ^ w : Nat)

/-- The low `w` bits of an integer. -/
def wrapInt (w : Nat) (v : Int) : Nat := (v % (2 ^ w : Nat)).toNat

/-- An integer held to a range. -/
def clampInt (lo hi v : Int) : Int := if v < lo then lo else if v > hi then hi else v

/-- Round a number up to a multiple of `a`. -/
def roundUp (v a : Nat) : Nat := (v + a - 1) / a * a

/-- Apply `f` to the numbers `0 … n-1` in rising order, threading a value. -/
def foldN {α : Type} (n : Nat) (f : α → Nat → α) (a : α) : α := (List.range n).foldl f a

/-- The number of set bits among the lowest `n`. -/
def popcount (v n : Nat) : Nat := foldN n (fun a i => a + b2n (bit v i)) 0

end Sys2Proof
end

