-- ==== Sys2Proof/Syntax.lean ====
section
/-! DEFINITION. The instruction type: one constructor per row of the opcode table, the cell's instructions and the device's
steps alike (spec 95: "each whole and indivisible"). -/

namespace Sys2Proof

/-- The number of a mask register, m0–m7 (spec 09 R201). -/
abbrev MReg := BitVec 3

/-- The number of an accumulator tile, acc0–acc3 (spec 11 R249). -/
abbrev Tile := BitVec 2

/-- The mask of an instruction: `k = 0` none, else m(k), complemented when `n` (spec 05 R121, 02 R31). -/
structure Pred where
  k : BitVec 3
  n : Bool
deriving DecidableEq, Repr, Inhabited

/-- Element types, in the order of their codes (spec 05 R124). -/
inductive Ty where
  | f32 | bf16 | f16 | e4m3 | e5m2 | e2m1 | i8 | ui8 | i16 | ui16 | i32 | ui32 | e3m5
deriving DecidableEq, Repr, Inhabited

/-- Format pairs of the matrix unit, in the order of their codes 0x01 to 0x0D (spec 05 R126). -/
inductive Pair where
  | bf16bf16 | f16f16 | e4m3e4m3 | e4m3e5m2 | e5m2e4m3 | e5m2e5m2 | e4m3e2m1 | e5m2e2m1 | bf16e2m1 | e2m1e2m1
  | i8i8 | ui8i8 | f32f32
deriving DecidableEq, Repr, Inhabited

/-- Scopes, in the order of their codes (spec 05 R127). -/
inductive Scope where
  | cell | gang | hive | die | pkg | pod
deriving DecidableEq, Repr, Inhabited

/-- Conditions of SWAIT and WAITSIG, in the order of their codes (spec 14 R314, 03 R65). -/
inductive Cond where
  | eq | ne | lt | le | gt | ge
deriving DecidableEq, Repr, Inhabited

/-- Levels of BAR (spec 14 R317). -/
inductive BarLevel where
  | gang | hive | die | pkg
deriving DecidableEq, Repr, Inhabited

/-- The row or column index of MROW: an immediate, or an x register (spec 11 R275). -/
inductive RowIx where
  | imm (i : BitVec 6)
  | reg (x : Reg)
deriving DecidableEq, Repr, Inhabited

/-- The fields the three MDRAIN functions share (spec 11 R272). -/
structure Drain where
  d : Tile
  a : Reg
  b : Reg
  t : Ty
  p : Pred
  si : Bool
  tm : Bool
  msat : MReg
  nrm1 : BitVec 4
  fr : BitVec 6
deriving DecidableEq, Repr, Inhabited

/-- The completion action of TCOPY: the tile-side register `c` where there is one, the completion operand `d` and the
completion release's scope (spec 10 R233). -/
inductive CopyAct where
  | none (c : Reg)
  | signal (c d : Reg) (sc : Scope)
  | waggle (c d : Reg) (sc : Scope)
  | frame (d : Reg) (sc : Scope)
deriving DecidableEq, Repr, Inhabited

/-- A firmware image as the hub reads it: body, hash, security version and signature (spec 01 R9). -/
structure FwImage where
  body : List Byte
  hash : List Byte
  version : Nat
  signature : List Byte
deriving DecidableEq, Repr, Inhabited

/-- Failed vector lane groups of a core found in the MEM stage (spec 01 R10). -/
structure LaneFault where
  core : Nat
  groups : Nat
deriving DecidableEq, Repr, Inhabited

/-- What ended a checkpoint run with an error (spec 01 R26): a refused line, a PCIe error or timeout, or a UALink error response, or timeout, of a
station. -/
inductive CkErr where
  | refusedLine (pa : Nat)
  | pcie
  | ualink (station : Nat) (late : Bool)
deriving DecidableEq, Repr, Inhabited

/-- Whom a pager wake names: a cell and its SEQ (spec 07 R171), an engine's copy (10 R241), a host access (03 R57), or a
completion write of a launch or packet (03 R75). -/
inductive WakeTarget where
  | cell (cellid seq : Nat)
  | copy (core seq : Nat)
  | host (id : Nat)
  | completion (id : Nat)
deriving DecidableEq, Repr, Inhabited

/-- The pager's verdicts (spec 07 R171, 20 R413). -/
inductive Verdict where
  | retry | fatal | gone
deriving DecidableEq, Repr, Inhabited

/-- Why a copy fails after issue (spec 10 R240, 18 R389): a refusal or a denial at an EA, a failed host or peer access, with the station of a
UALink error response, or a refused HBM line. -/
inductive CopyFail where
  | refused (ea : Word)
  | denied (ea : Word)
  | fabric (dva : Word) (station : Nat)
  | line (pa : Nat)
deriving DecidableEq, Repr, Inhabited

/-- Who rereads its signal word (spec 14 R316, 09 R207, 03 R68). -/
inductive RereadTarget where
  | cell (cellid : Nat)
  | queue (part q : Nat)
deriving DecidableEq, Repr, Inhabited

/-- Where an uncorrectable error is found: STRUCT, SUB and INDEX of R379 and the owner (spec 18 R379, R388). -/
inductive HwError where
  | cellState (cellid struct index : Nat)
  | ls (core off : Nat)
  | hsp (hive off reader : Nat)
  | tile (core t row col : Nat)
  | hbm (line : Nat)
  | hbmRead (line cellid : Nat)
  | context (gang index : Nat)
  | dieTable (die index : Nat) (gangs : List Nat)
deriving DecidableEq, Repr, Inhabited

/-- Why a UCIe module retrains (spec 14 R328). -/
inductive RetrainCause where
  | nak (seq : Nat)
  | lock
deriving DecidableEq, Repr, Inhabited

/-- How a retraining ends (spec 14 R328). -/
inductive LaneOutcome where
  | full | half | off
deriving DecidableEq, Repr, Inhabited

/-- A request to host or peer memory that gets no answer: a cell's, a copy's, or an update of the dispatch or brood unit
(spec 14 R329, 07 R176, 03 R66). -/
inductive FabricReq where
  | cell (cellid : Nat) (dva : Word) (station : Nat)
  | copy (core i : Nat) (dva : Word) (station : Nat)
  | unit (die : Nat) (dva : Word) (station : Nat)
deriving DecidableEq, Repr, Inhabited

/-- The request of a fabric peer to this device's memory (spec 01 R25, 00 R2: loads, stores, atomics and tile copies). -/
inductive PeerOp where
  | load (pa n : Nat)
  | store (pa : Nat) (data : List Byte)
  | atomic (op pa n : Nat) (operand expected : Word)
  | copyRead (pa n : Nat)
  | copyWrite (pa : Nat) (data : List Byte)
deriving DecidableEq, Repr, Inhabited

/-- A PCIe configuration request (spec 01 R8, 03 R56, R59, R419): a register by its offset, or a field of a capability by its name. -/
inductive CfgReq where
  | read (off : Nat)
  | write (off : Nat) (v : Nat)
  | setVfEnable (en : Bool)
  | readTotalVfs
  | setNumVfs (n : Nat)
  | setMsix (on mask : Bool)
deriving DecidableEq, Repr, Inhabited

/-- The instructions of a cell and the steps of the device, in the order of the opcode table. -/
inductive Instr where
  /-- R7: Power-good starts the start-up sequence at the ROM stage, in which the hub boot ROM verifies the hub firmware image. -/
  | powerGood
  /-- R7: A PCIe fundamental reset leaves FAIL and restarts start-up from the ROM stage. -/
  | pcieFundamentalReset
  /-- R7: A start-up stage finishes its work: image checks are applied, DEVSTAT advances to the next stage, and the device reaches READY after MEM. -/
  | stageDone (images : List FwImage) (eccDie : Option Nat) (lanes : List LaneFault)
  /-- R7: A start-up stage exceeds its time limit; DEVSTAT enters FAIL and names the late die or the hub. -/
  | stageTimeout (die : Option Nat)
  /-- R12: An SPDM GET_VERSION request over Data Object Exchange on physical function 0 is answered. -/
  | getVersion (func : Nat)
  /-- R12: An SPDM GET_CAPABILITIES request is answered. -/
  | getCapabilities (func : Nat)
  /-- R12: An SPDM NEGOTIATE_ALGORITHMS request succeeds only with SM2-P256 and SM3-256. -/
  | negotiateAlgorithms (func : Nat) (sm2 sm3 : Bool)
  /-- R12: An SPDM GET_DIGESTS request returns the certificate-chain digests. -/
  | getDigests (func : Nat)
  /-- R12: An SPDM GET_CERTIFICATE request returns the four-certificate chain. -/
  | getCertificate (func : Nat)
  /-- R12: An SPDM CHALLENGE request is answered with a signature by the identity key. -/
  | challenge (func : Nat) (nonce : List Byte)
  /-- R12: An SPDM GET_MEASUREMENTS request returns measurement blocks 1 to 4, including the partition-table hash. -/
  | getMeasurements (func : Nat)
  /-- R6: A write to a management-block or BAR2 register that has no behaviour of its own is checked, stored, or rejected with MERR, FERR or WERR set. -/
  | registerWrite (func off size : Nat) (v : Word)
  /-- R6: Any write to MERR clears it. -/
  | merrClear (v : Word)
  /-- R419: Writing 1 to FERR.V clears V and OFF. -/
  | ferrClear (func : Nat)
  /-- R14: A PARTn write with V = 1 validates or updates a partition after the range, ownership and queue checks, and resets its hive rotors when V goes from 0 to 1. -/
  | partSetValid (n : Nat) (v : Word)
  /-- R19: A PARTn write clearing V is accepted only when the partition is idle; its hives are then scrubbed and become unassigned. -/
  | partClearValid (n : Nat) (v : Word)
  /-- R16: Writing HMOVE.GO with FREE = 0 moves a hive to partition DST: placement stops, gangs are pre-empted and the hive is scrubbed, or the move is refused. -/
  | hmoveMove (v : Word)
  /-- R19: Writing HMOVE.GO with FREE = 1 moves a hive out of its partition and leaves it unassigned. -/
  | hmoveFree (v : Word)
  /-- R16: Once the pre-empted gangs have landed and been saved, the hive is invalidated and scrubbed, its PHIVE bit moves, GO reads 0, and the gangs become placeable. -/
  | hmoveComplete
  /-- R21: Each 1 µs port budget period begins: class budgets refill and changed budget registers take effect. -/
  | budgetPeriod
  /-- R23: Writing CKPT.GO stops dispatch for the named partitions and pre-empts their gangs. -/
  | ckptQuiesce (v : Word)
  /-- R23: When the saves, tile copies and atomics have completed and the brood clocks have stopped, QDONE is set and BUSY is cleared. -/
  | quiesceDone
  /-- R24: Writing CKPT.RESUME restarts dispatch and brood clocks for the named quiesced partitions and clears their CKQ bits. -/
  | ckptResume (v : Word)
  /-- R26: Writing CKCTL.GO starts the checkpoint engine copying an HBM range to or from the safe tier in 64 KiB pieces. -/
  | ckptEngineGo (v : Word)
  /-- R26: A checkpoint run finishes or fails; RES and CKDONE are set and the optional MSI-X vector is raised. -/
  | ckptRunEnd (err : Option CkErr) (done : Nat)
  /-- R27: After an uncorrectable fault the die supervisor quiesces the affected partition and posts a fault report. -/
  | faultQuiesce (part : Nat)
  /-- R28: A PWRCAP write sets the module power cap, and the compute-die clock is lowered within 1 ms to meet it. -/
  | powerCapWrite (v : Word)
  /-- R63: A 64-bit doorbell write of a new write index makes packets available, or is ignored and sets DBERR. -/
  | doorbell (func q : Nat) (w : Word)
  /-- R63: A BAR0 read, or a write of another offset or width, completes with Unsupported Request and has no effect. -/
  | bar0UnsupportedAccess (func off size : Nat) (write : Bool)
  /-- R57: A host read through BAR4 is translated with the partition's ASIDB and returns data, or completes with Completer Abort or Unsupported Request. -/
  | hostBar4Read (func off n : Nat)
  /-- R57: A host write through BAR4 is translated and performed, waits for the pager, or is dropped. -/
  | hostBar4Write (func off : Nat) (data : List Byte)
  /-- R57: A BAR4 access still unresolved after 1 ms completes with Completer Abort, or its write is dropped. -/
  | bar4PagerTimeout (id : Nat)
  /-- R58: A Function Level Reset disables the function's queues, kills its partition's launches, writes their records, and clears the queue registers and WINBASE. -/
  | functionLevelReset (func : Nat)
  /-- R59: A reset of physical function 0 resets every virtual function, clears FRCTL.EN, stops the checkpoint engine and clears the CKPT state. -/
  | pf0FunctionLevelReset
  /-- R61: Setting QCTL.EN zeroes QRD and QWR and sets the queue running. -/
  | queueEnable (func q : Nat) (v : Word)
  /-- R61: Clearing QCTL.EN is accepted only when QRD = QWR, and disables the queue. -/
  | queueDisable (func q : Nat) (v : Word)
  /-- R69: Writing QCTL.RESUME restarts a halted queue by retaking the packet at QRD. -/
  | queueResume (func q : Nat) (v : Word)
  /-- R69: Writing RESUME together with SKIP counts the halting packet as taken, with no effect and no PSIG decrement. -/
  | queueResumeSkip (func q : Nat) (v : Word)
  /-- R67: The dispatch unit takes a LAUNCH packet, reads its header, and either fails the launch with LAUNCH_SHAPE or assigns its die and hive groups. -/
  | launchPacket (part q : Nat)
  /-- R68: The dispatch unit takes a WAITSIG packet and tests its signal-word condition as an acquire. -/
  | waitsig (part q : Nat)
  /-- R68: A reread finds the WAITSIG condition true; the packet completes and the queue goes on. -/
  | waitsigSatisfied (part q : Nat)
  /-- R68: The WAITSIG limit passes with the condition false, and the queue halts with WAITEXP. -/
  | waitsigLimit (part q : Nat)
  /-- R67: The dispatch unit takes a SETSIG packet and stores or adds to the signal word as a package-scope release. -/
  | setsig (part q : Nat)
  /-- R70: A LOAD packet loads and relocates a Cerjo image or adds a reference, drops stale cache lines, and writes the load record. -/
  | loadPacket (part q : Nat)
  /-- R412: Once the earlier launches of its queue have completed, an UNLOAD drops one reference and withdraws the object when the count reaches zero. -/
  | unload (part q : Nat)
  /-- R67: A FENCE packet completes once every earlier packet of its queue has completed. -/
  | fencePacket (part q : Nat)
  /-- R75: When all gangs and heirs have ended, the launch's writes are performed, the completion record is written and CSIG is decremented. -/
  | launchComplete (launch : Nat)
  /-- R93: A die's dispatch unit makes one placement of a hive group, COR launch or pre-empted gang, chosen by partition round-robin and priority share. -/
  | placement (die : Nat)
  /-- R93: A 100 µs placement period begins: the per-priority counts restart and changed PSHARE values take effect. -/
  | placementPeriod (die : Nat)
  /-- R110: An instruction-cache line arrives and the cell parked on the miss becomes waiting. -/
  | icacheFillDone (cell : Nat)
  /-- R135: A variable-latency result is written, its register becomes full, and cells parked on it become waiting. -/
  | feWriteback (cell i : Nat)
  /-- R171: A pager wake names a cell and a SEQ, and gives a RETRY, FATAL or GONE verdict. -/
  | pagerWake (w : WakeTarget) (verdict : Verdict)
  /-- R173: The port's copy of a pool page finishes; the leaf is rewritten, the old entry is shot down, and the parked writers are woken. -/
  | cowCopyDone (i : Nat)
  /-- R174: The pager makes a page's entry not present, shoots it down, copies the page and maps the new home. -/
  | pageMigration (asid dva pa : Nat)
  /-- R164: A remote LS or HSP request arrives at the target port and is performed under the windows, or refused with a negative acknowledgement. -/
  | remoteAccessArrival (id : Nat)
  /-- R165: A reply or refusal returns to the requesting cell, which completes or traps, or records a pending asynchronous refusal. -/
  | remoteReply (id : Nat)
  /-- R373: At a tlev-0 turn the oldest pending asynchronous trap is taken instead of issuing. -/
  | asyncTrapDelivery (cell : Nat)
  /-- R245: The tile copy engine starts a queued copy moving bytes when fewer than eight are running. -/
  | copyStart (core i : Nat)
  /-- R243: A frame copy waiting in the engine reserves slot RSVIX when FREE becomes positive. -/
  | frameSlotReserve (core i : Nat)
  /-- R239: Every byte of a copy has landed and its completion action is performed as a release: signal decrement, waggle or frame fill. -/
  | copyComplete (core i : Nat)
  /-- R239: A copy's waggle that waited for a full mailbox is placed when an entry frees. -/
  | copyWaggleDelivered (core i : Nat)
  /-- R240: A copy fails after issue; no action is performed, an asynchronous trap or a K_FABRIC kill follows, and a frame slot is returned. -/
  | copyFailure (core i : Nat) (why : CopyFail)
  /-- R252: A gang acquires the free matrix lease: the previous occupant's dirty tiles are evicted and its own are loaded or zeroed. -/
  | leaseAcquire (core : Nat)
  /-- R253: QLEFT reaches 0 with a non-empty wait list and no holder instruction in the unit, so the holder loses the lease. -/
  | leaseQuantumExpiry (core : Nat)
  /-- R268: The last operand byte of a MOPA is read, and with OCS the mocsig word is decremented as a package release. -/
  | mopaOperandsConsumed (core : Nat)
  /-- R228: A vector lane group fails its check; the spare replaces it and in-flight instructions are repeated. -/
  | laneFailure (core i group : Nat)
  /-- R390: A second failed lane group retires the core: the failing gang is killed, the other gangs are forced to land, and the tiles are evicted. -/
  | coreRetire (core i group : Nat)
  /-- R316: A waiting SWAIT, VSETVLW or WAITSIG rereads its signal word on a write or after 10 µs. -/
  | waitReread (w : RereadTarget)
  /-- R316: An swait limit passes with the condition false and the cell traps WAIT_LIMIT. -/
  | swaitLimit (cell : Nat)
  /-- R207: A vsetvlw limit passes without a grant and the cell traps WAIT_LIMIT. -/
  | vsetvlwLimit (cell : Nat)
  /-- R244: A frmwait limit passes with FILLED = 0 and the cell traps WAIT_LIMIT. -/
  | frmwaitLimit (cell : Nat)
  /-- R323: An ldfe limit passes; the home decides between satisfying the request and withdrawing it, and a withdrawal traps WAIT_LIMIT. -/
  | ldfeLimit (cell : Nat)
  /-- R319: A barrier limit passes before the episode completes; the arrival is withdrawn and the cell traps WAIT_LIMIT. -/
  | barLimit (cell : Nat)
  /-- R325: A wgsend waiting for mailbox room reaches its limit; the send is withdrawn and traps WAIT_LIMIT. -/
  | wgsendLimit (cell : Nat)
  /-- R326: A wgrecv on an empty mailbox reaches its limit and traps WAIT_LIMIT. -/
  | wgrecvLimit (cell : Nat)
  /-- R355: A brood's resident time reaches DEADLINE; pending siblings are cancelled with TIMEOUT and the brood completes. -/
  | broodDeadline (handle : Nat)
  /-- R382: A cell reaches 4,096 turns after a pre-emption order without landing and is forced to land, with its vector and matrix records taken. -/
  | forcedLanding (cell : Nat) (stops : List Nat) (step : Nat)
  /-- R383: All cells have landed and the context block is written; the gang is SAVED and its capacity is freed. -/
  | gangSaveDone (gang : Nat)
  /-- R388: A correctable error is corrected in place and counted in CECNT. -/
  | correctableError (die cls : Nat)
  /-- R388: An uncorrectable error kills the owning gang, refuses the HBM line, or raises a die fault. -/
  | uncorrectableError (e : HwError)
  /-- R389: The die supervisors patrol HBM and rewrite lines with corrected errors. -/
  | patrolScrub (die lines : Nat)
  /-- R327: A UCIe flit is accepted when its CRC and sequence number are good, and otherwise discarded with a negative acknowledgement. -/
  | flitReceive (fin seq : Nat) (crcGood : Bool)
  /-- R327: A negative acknowledgement makes the transmitter resend every flit after the named sequence number. -/
  | ucieReplay (fin last : Nat)
  /-- R328: Eight NAKs for one number, or a loss of lock, start a retraining of the UCIe module. -/
  | linkRetrain (fin : Nat) (why : RetrainCause)
  /-- R328: Retraining ends on 64 or 32 lanes, or disables the module, and traffic is replayed or moved to another module. -/
  | retrainDone (fin : Nat) (lanes : LaneOutcome)
  /-- R391: A die or the hub becomes unreachable; gangs with accesses outstanding to it are killed with K_FABRIC, and the partition is quiesced. -/
  | dieUnreachable (die : Option Nat)
  /-- R329: A request to a peer has no response within UACTO, and the gang is killed with K_FABRIC. -/
  | ualinkTimeout (r : FabricReq)
  /-- R329: A UALink station is lost and its traffic moves to the peer's other stations. -/
  | ualinkStationLoss (station : Nat)
  /-- R176: A reply from host or peer memory completes a parked load or atomic, or traps ACCESS_FAULT on an error. -/
  | fabricReply (cell station : Nat) (ok : Bool) (data : Word)
  /-- R405: After in-flight work completes and is performed at SCOPE, the heir's state is formed, the rest is scrubbed, and the cells start at the heir's ENTRY. -/
  | heirHandover (gang : Nat)
  /-- R413: When no launch with LGEN < UGEN remains, a retired object's DVA ranges are released and PEND drops. -/
  | objectRangeRelease (handle : Nat)
  /-- R414: In generation mode, when no older launch remains, the object's leaves are made not present and shot down, and its pages are reused. -/
  | generationUnmap (handle : Nat)
  /-- R138 lui: Load upper immediate. -/
  | lui (rd : Reg) (imm : BitVec 20)
  /-- R138 auipc: Add upper immediate to pc. -/
  | auipc (rd : Reg) (imm : BitVec 20)
  /-- R106 jal: Jump and link; a target with bit 1 set traps MISALIGNED. -/
  | jal (rd : Reg) (imm : BitVec 20)
  /-- R106 jalr: Jump and link register. -/
  | jalr (rd rs1 : Reg) (imm : BitVec 12)
  /-- R106 beq: Branch if equal. -/
  | beq (rs1 rs2 : Reg) (imm : BitVec 12)
  /-- R106 bne: Branch if not equal. -/
  | bne (rs1 rs2 : Reg) (imm : BitVec 12)
  /-- R106 blt: Branch if less than, signed. -/
  | blt (rs1 rs2 : Reg) (imm : BitVec 12)
  /-- R106 bge: Branch if greater or equal, signed. -/
  | bge (rs1 rs2 : Reg) (imm : BitVec 12)
  /-- R106 bltu: Branch if less than, unsigned. -/
  | bltu (rs1 rs2 : Reg) (imm : BitVec 12)
  /-- R106 bgeu: Branch if greater or equal, unsigned. -/
  | bgeu (rs1 rs2 : Reg) (imm : BitVec 12)
  /-- R139 lb: Load a signed byte through a segment. -/
  | lb (rd rs1 : Reg) (imm : BitVec 12)
  /-- R139 lh: Load a signed halfword. -/
  | lh (rd rs1 : Reg) (imm : BitVec 12)
  /-- R139 lw: Load a signed word. -/
  | lw (rd rs1 : Reg) (imm : BitVec 12)
  /-- R139 ld: Load a doubleword. -/
  | ld (rd rs1 : Reg) (imm : BitVec 12)
  /-- R139 lbu: Load an unsigned byte. -/
  | lbu (rd rs1 : Reg) (imm : BitVec 12)
  /-- R139 lhu: Load an unsigned halfword. -/
  | lhu (rd rs1 : Reg) (imm : BitVec 12)
  /-- R139 lwu: Load an unsigned word. -/
  | lwu (rd rs1 : Reg) (imm : BitVec 12)
  /-- R139 sb: Store a byte. -/
  | sb (rs1 rs2 : Reg) (imm : BitVec 12)
  /-- R139 sh: Store a halfword. -/
  | sh (rs1 rs2 : Reg) (imm : BitVec 12)
  /-- R139 sw: Store a word. -/
  | sw (rs1 rs2 : Reg) (imm : BitVec 12)
  /-- R139 sd: Store a doubleword. -/
  | sd (rs1 rs2 : Reg) (imm : BitVec 12)
  /-- R138 addi: Add immediate. -/
  | addi (rd rs1 : Reg) (imm : BitVec 12)
  /-- R138 slti: Set if less than immediate, signed. -/
  | slti (rd rs1 : Reg) (imm : BitVec 12)
  /-- R138 sltiu: Set if less than immediate, unsigned. -/
  | sltiu (rd rs1 : Reg) (imm : BitVec 12)
  /-- R138 xori: Exclusive-or immediate. -/
  | xori (rd rs1 : Reg) (imm : BitVec 12)
  /-- R138 ori: Or immediate. -/
  | ori (rd rs1 : Reg) (imm : BitVec 12)
  /-- R138 andi: And immediate. -/
  | andi (rd rs1 : Reg) (imm : BitVec 12)
  /-- R138 slli: Shift left logical immediate. -/
  | slli (rd rs1 : Reg) (sh : BitVec 6)
  /-- R138 srli: Shift right logical immediate. -/
  | srli (rd rs1 : Reg) (sh : BitVec 6)
  /-- R138 srai: Shift right arithmetic immediate. -/
  | srai (rd rs1 : Reg) (sh : BitVec 6)
  /-- R138 add: Add. -/
  | add (rd rs1 rs2 : Reg)
  /-- R138 sub: Subtract. -/
  | sub (rd rs1 rs2 : Reg)
  /-- R138 sll: Shift left logical. -/
  | sll (rd rs1 rs2 : Reg)
  /-- R138 slt: Set if less than, signed. -/
  | slt (rd rs1 rs2 : Reg)
  /-- R138 sltu: Set if less than, unsigned. -/
  | sltu (rd rs1 rs2 : Reg)
  /-- R138 xor: Exclusive or. -/
  | xor (rd rs1 rs2 : Reg)
  /-- R138 srl: Shift right logical. -/
  | srl (rd rs1 rs2 : Reg)
  /-- R138 sra: Shift right arithmetic. -/
  | sra (rd rs1 rs2 : Reg)
  /-- R138 or: Or. -/
  | or (rd rs1 rs2 : Reg)
  /-- R138 and: And. -/
  | and (rd rs1 rs2 : Reg)
  /-- R138 addiw: Add immediate on a word. -/
  | addiw (rd rs1 : Reg) (imm : BitVec 12)
  /-- R138 slliw: Shift left logical immediate on a word. -/
  | slliw (rd rs1 : Reg) (sh : BitVec 5)
  /-- R138 srliw: Shift right logical immediate on a word. -/
  | srliw (rd rs1 : Reg) (sh : BitVec 5)
  /-- R138 sraiw: Shift right arithmetic immediate on a word. -/
  | sraiw (rd rs1 : Reg) (sh : BitVec 5)
  /-- R138 addw: Add words. -/
  | addw (rd rs1 rs2 : Reg)
  /-- R138 subw: Subtract words. -/
  | subw (rd rs1 rs2 : Reg)
  /-- R138 sllw: Shift a word left logical. -/
  | sllw (rd rs1 rs2 : Reg)
  /-- R138 srlw: Shift a word right logical. -/
  | srlw (rd rs1 rs2 : Reg)
  /-- R138 sraw: Shift a word right arithmetic. -/
  | sraw (rd rs1 rs2 : Reg)
  /-- R138 mul: Multiply, low 64 bits. -/
  | mul (rd rs1 rs2 : Reg)
  /-- R138 mulh: Multiply high, signed by signed. -/
  | mulh (rd rs1 rs2 : Reg)
  /-- R138 mulhsu: Multiply high, signed by unsigned. -/
  | mulhsu (rd rs1 rs2 : Reg)
  /-- R138 mulhu: Multiply high, unsigned by unsigned. -/
  | mulhu (rd rs1 rs2 : Reg)
  /-- R140 div: Divide, signed; a zero divisor traps INT_DIVZERO when DZE is set. -/
  | div (rd rs1 rs2 : Reg)
  /-- R140 divu: Divide, unsigned. -/
  | divu (rd rs1 rs2 : Reg)
  /-- R140 rem: Remainder, signed. -/
  | rem (rd rs1 rs2 : Reg)
  /-- R140 remu: Remainder, unsigned. -/
  | remu (rd rs1 rs2 : Reg)
  /-- R138 mulw: Multiply words. -/
  | mulw (rd rs1 rs2 : Reg)
  /-- R140 divw: Divide words, signed. -/
  | divw (rd rs1 rs2 : Reg)
  /-- R140 divuw: Divide words, unsigned. -/
  | divuw (rd rs1 rs2 : Reg)
  /-- R140 remw: Word remainder, signed. -/
  | remw (rd rs1 rs2 : Reg)
  /-- R140 remuw: Word remainder, unsigned. -/
  | remuw (rd rs1 rs2 : Reg)
  /-- R141 fence: Order the cell's own loads and stores at package scope by the predecessor and successor sets. -/
  | fence (fm pred succ : BitVec 4) (rs1 rd : Reg)
  /-- R141 fence.tso: A FENCE with fm = 1000, acting as fence rw,rw. -/
  | fenceTso (pred succ : BitVec 4) (rs1 rd : Reg)
  /-- R141 pause: A hint that orders nothing. -/
  | pause
  /-- R112 fence.i: Drain the cell's stores at hive scope, then invalidate the core instruction cache. -/
  | fenceI (rd rs1 : Reg) (imm : BitVec 12)
  /-- R145 ecall: Trap ECALL. -/
  | ecall
  /-- R145 ebreak: Trap EBREAK. -/
  | ebreak
  /-- R145 csrrw: Atomically read and write a CSR. -/
  | csrrw (rd rs1 : Reg) (csr : BitVec 12)
  /-- R145 csrrs: Atomically read a CSR and set bits. -/
  | csrrs (rd rs1 : Reg) (csr : BitVec 12)
  /-- R145 csrrc: Atomically read a CSR and clear bits. -/
  | csrrc (rd rs1 : Reg) (csr : BitVec 12)
  /-- R145 csrrwi: Read a CSR and write an immediate. -/
  | csrrwi (rd uimm : Reg) (csr : BitVec 12)
  /-- R145 csrrsi: Read a CSR and set immediate bits. -/
  | csrrsi (rd uimm : Reg) (csr : BitVec 12)
  /-- R145 csrrci: Read a CSR and clear immediate bits. -/
  | csrrci (rd uimm : Reg) (csr : BitVec 12)
  /-- R142 lr.w: Load-reserved word on a 64-byte granule. -/
  | lrW (rd rs1 : Reg) (aq rl : Bool)
  /-- R142 sc.w: Store-conditional word. -/
  | scW (rd rs1 rs2 : Reg) (aq rl : Bool)
  /-- R142 lr.d: Load-reserved doubleword. -/
  | lrD (rd rs1 : Reg) (aq rl : Bool)
  /-- R142 sc.d: Store-conditional doubleword. -/
  | scD (rd rs1 rs2 : Reg) (aq rl : Bool)
  /-- R142 amoswap.w: Atomic swap of a word at its home. -/
  | amoswapW (rd rs1 rs2 : Reg) (aq rl : Bool)
  /-- R142 amoadd.w: Atomic add to a word. -/
  | amoaddW (rd rs1 rs2 : Reg) (aq rl : Bool)
  /-- R142 amoxor.w: Atomic xor on a word. -/
  | amoxorW (rd rs1 rs2 : Reg) (aq rl : Bool)
  /-- R142 amoand.w: Atomic and on a word. -/
  | amoandW (rd rs1 rs2 : Reg) (aq rl : Bool)
  /-- R142 amoor.w: Atomic or on a word. -/
  | amoorW (rd rs1 rs2 : Reg) (aq rl : Bool)
  /-- R142 amomin.w: Atomic signed minimum on a word. -/
  | amominW (rd rs1 rs2 : Reg) (aq rl : Bool)
  /-- R142 amomax.w: Atomic signed maximum on a word. -/
  | amomaxW (rd rs1 rs2 : Reg) (aq rl : Bool)
  /-- R142 amominu.w: Atomic unsigned minimum on a word. -/
  | amominuW (rd rs1 rs2 : Reg) (aq rl : Bool)
  /-- R142 amomaxu.w: Atomic unsigned maximum on a word. -/
  | amomaxuW (rd rs1 rs2 : Reg) (aq rl : Bool)
  /-- R142 amoswap.d: Atomic swap of a doubleword. -/
  | amoswapD (rd rs1 rs2 : Reg) (aq rl : Bool)
  /-- R142 amoadd.d: Atomic add to a doubleword. -/
  | amoaddD (rd rs1 rs2 : Reg) (aq rl : Bool)
  /-- R142 amoxor.d: Atomic xor on a doubleword. -/
  | amoxorD (rd rs1 rs2 : Reg) (aq rl : Bool)
  /-- R142 amoand.d: Atomic and on a doubleword. -/
  | amoandD (rd rs1 rs2 : Reg) (aq rl : Bool)
  /-- R142 amoor.d: Atomic or on a doubleword. -/
  | amoorD (rd rs1 rs2 : Reg) (aq rl : Bool)
  /-- R142 amomin.d: Atomic signed minimum on a doubleword. -/
  | amominD (rd rs1 rs2 : Reg) (aq rl : Bool)
  /-- R142 amomax.d: Atomic signed maximum on a doubleword. -/
  | amomaxD (rd rs1 rs2 : Reg) (aq rl : Bool)
  /-- R142 amominu.d: Atomic unsigned minimum on a doubleword. -/
  | amominuD (rd rs1 rs2 : Reg) (aq rl : Bool)
  /-- R142 amomaxu.d: Atomic unsigned maximum on a doubleword. -/
  | amomaxuD (rd rs1 rs2 : Reg) (aq rl : Bool)
  /-- R139 flw: Load an FP32 value into an f register. -/
  | flw (rd rs1 : Reg) (imm : BitVec 12)
  /-- R144 flh: Load a 16-bit value into an f register, NaN-boxed. -/
  | flh (rd rs1 : Reg) (imm : BitVec 12)
  /-- R139 fsw: Store an FP32 value. -/
  | fsw (rs1 rs2 : Reg) (imm : BitVec 12)
  /-- R139 fsh: Store a 16-bit value. -/
  | fsh (rs1 rs2 : Reg) (imm : BitVec 12)
  /-- R143 fmadd.s: Fused multiply-add in single precision. -/
  | fmaddS (rd rs1 rs2 rs3 : Reg) (rm : BitVec 3)
  /-- R143 fmsub.s: Fused multiply-subtract. -/
  | fmsubS (rd rs1 rs2 rs3 : Reg) (rm : BitVec 3)
  /-- R143 fnmsub.s: Negated fused multiply-subtract. -/
  | fnmsubS (rd rs1 rs2 rs3 : Reg) (rm : BitVec 3)
  /-- R143 fnmadd.s: Negated fused multiply-add. -/
  | fnmaddS (rd rs1 rs2 rs3 : Reg) (rm : BitVec 3)
  /-- R143 fadd.s: Add in single precision. -/
  | faddS (rd rs1 rs2 : Reg) (rm : BitVec 3)
  /-- R143 fsub.s: Subtract in single precision. -/
  | fsubS (rd rs1 rs2 : Reg) (rm : BitVec 3)
  /-- R143 fmul.s: Multiply in single precision. -/
  | fmulS (rd rs1 rs2 : Reg) (rm : BitVec 3)
  /-- R143 fdiv.s: Correctly rounded divide; enabled exceptions trap at issue. -/
  | fdivS (rd rs1 rs2 : Reg) (rm : BitVec 3)
  /-- R143 fsqrt.s: Correctly rounded square root. -/
  | fsqrtS (rd rs1 : Reg) (rm : BitVec 3)
  /-- R138 fsgnj.s: Sign injection. -/
  | fsgnjS (rd rs1 rs2 : Reg)
  /-- R138 fsgnjn.s: Negated sign injection. -/
  | fsgnjnS (rd rs1 rs2 : Reg)
  /-- R138 fsgnjx.s: Xor sign injection. -/
  | fsgnjxS (rd rs1 rs2 : Reg)
  /-- R138 fmin.s: Single-precision minimum. -/
  | fminS (rd rs1 rs2 : Reg)
  /-- R138 fmax.s: Single-precision maximum. -/
  | fmaxS (rd rs1 rs2 : Reg)
  /-- R138 fcvt.w.s: Convert FP32 to a signed word. -/
  | fcvtWS (rd rs1 : Reg) (rm : BitVec 3)
  /-- R138 fcvt.wu.s: Convert FP32 to an unsigned word. -/
  | fcvtWuS (rd rs1 : Reg) (rm : BitVec 3)
  /-- R138 fcvt.l.s: Convert FP32 to a signed doubleword. -/
  | fcvtLS (rd rs1 : Reg) (rm : BitVec 3)
  /-- R138 fcvt.lu.s: Convert FP32 to an unsigned doubleword. -/
  | fcvtLuS (rd rs1 : Reg) (rm : BitVec 3)
  /-- R138 fcvt.s.w: Convert a signed word to FP32. -/
  | fcvtSW (rd rs1 : Reg) (rm : BitVec 3)
  /-- R138 fcvt.s.wu: Convert an unsigned word to FP32. -/
  | fcvtSWu (rd rs1 : Reg) (rm : BitVec 3)
  /-- R138 fcvt.s.l: Convert a signed doubleword to FP32. -/
  | fcvtSL (rd rs1 : Reg) (rm : BitVec 3)
  /-- R138 fcvt.s.lu: Convert an unsigned doubleword to FP32. -/
  | fcvtSLu (rd rs1 : Reg) (rm : BitVec 3)
  /-- R138 fmv.x.w: Move FP32 bits to an x register. -/
  | fmvXW (rd rs1 : Reg)
  /-- R138 fclass.s: Classify an FP32 value. -/
  | fclassS (rd rs1 : Reg)
  /-- R138 fmv.w.x: Move x-register bits to an f register. -/
  | fmvWX (rd rs1 : Reg)
  /-- R138 feq.s: Compare equal. -/
  | feqS (rd rs1 rs2 : Reg)
  /-- R138 flt.s: Compare less than. -/
  | fltS (rd rs1 rs2 : Reg)
  /-- R138 fle.s: Compare less or equal. -/
  | fleS (rd rs1 rs2 : Reg)
  /-- R144 fcvt.s.bf16: Convert BF16 exactly to FP32. -/
  | fcvtSBf16 (rd rs1 : Reg) (rm : BitVec 3)
  /-- R144 fcvt.bf16.s: Round FP32 to BF16 by rm. -/
  | fcvtBf16S (rd rs1 : Reg) (rm : BitVec 3)
  /-- R138 fmv.x.h: Move 16-bit f-register bits to an x register. -/
  | fmvXH (rd rs1 : Reg)
  /-- R144 fmv.h.x: Move 16 bits into an f register, NaN-boxed. -/
  | fmvHX (rd rs1 : Reg)
  /-- R147 loop: Push a hardware loop with its count from a register. -/
  | loop (rs1 : Reg) (imm : BitVec 12)
  /-- R147 loopi: Push a hardware loop with an immediate count. -/
  | loopi (cntm1 : BitVec 10) (imm : BitVec 12)
  /-- R147 lbrk: Leave n loops, unconditionally or when xs is nonzero. -/
  | lbrk (rs1 : Reg) (n : BitVec 12)
  /-- R150 yield: A landing point when a pre-emption is ordered; otherwise no effect. -/
  | yield
  /-- R151 widf: Read the value of a WID field. -/
  | widf (rd : Reg) (i : BitVec 3)
  /-- R151 widf.ext: Read the extent of a WID field. -/
  | widfExt (rd : Reg) (i : BitVec 3)
  /-- R151 widf.lvl: Read the level of a WID field after folding. -/
  | widfLvl (rd : Reg) (i : BitVec 3)
  /-- R209 vadd: Integer vector add, modulo 2^w. -/
  | vintVadd (d a b : Reg) (xs : Bool) (p : Pred) (t : Ty)
  /-- R209 vsub: Integer vector subtract. -/
  | vintVsub (d a b : Reg) (xs : Bool) (p : Pred) (t : Ty)
  /-- R209 vmul: Integer vector multiply, low bits. -/
  | vintVmul (d a b : Reg) (xs : Bool) (p : Pred) (t : Ty)
  /-- R209 vmulh: Integer vector multiply, high bits. -/
  | vmulh (d a b : Reg) (xs : Bool) (p : Pred) (t : Ty)
  /-- R209 vmin: Signed vector minimum. -/
  | vintVmin (d a b : Reg) (xs : Bool) (p : Pred) (t : Ty)
  /-- R209 vmax: Signed vector maximum. -/
  | vintVmax (d a b : Reg) (xs : Bool) (p : Pred) (t : Ty)
  /-- R209 vminu: Unsigned vector minimum. -/
  | vminu (d a b : Reg) (xs : Bool) (p : Pred) (t : Ty)
  /-- R209 vmaxu: Unsigned vector maximum. -/
  | vmaxu (d a b : Reg) (xs : Bool) (p : Pred) (t : Ty)
  /-- R209 vand: Bitwise vector and. -/
  | vand (d a b : Reg) (xs : Bool) (p : Pred) (t : Ty)
  /-- R209 vor: Bitwise vector or. -/
  | vor (d a b : Reg) (xs : Bool) (p : Pred) (t : Ty)
  /-- R209 vxor: Bitwise vector xor. -/
  | vxor (d a b : Reg) (xs : Bool) (p : Pred) (t : Ty)
  /-- R209 vsll: Vector shift left. -/
  | vsll (d a b : Reg) (xs : Bool) (p : Pred) (t : Ty)
  /-- R209 vsrl: Vector shift right logical. -/
  | vsrl (d a b : Reg) (xs : Bool) (p : Pred) (t : Ty)
  /-- R209 vsra: Vector shift right arithmetic. -/
  | vsra (d a b : Reg) (xs : Bool) (p : Pred) (t : Ty)
  /-- R209 vabs: Integer vector absolute value. -/
  | vintVabs (d a : Reg) (p : Pred) (t : Ty)
  /-- R209 vneg: Integer vector negate. -/
  | vintVneg (d a : Reg) (p : Pred) (t : Ty)
  /-- R209 vsadd: Saturating signed vector add, setting SAT. -/
  | vsadd (d a b : Reg) (xs : Bool) (p : Pred) (t : Ty)
  /-- R209 vssub: Saturating signed vector subtract. -/
  | vssub (d a b : Reg) (xs : Bool) (p : Pred) (t : Ty)
  /-- R210 vadd: Floating-point vector add, rounded by frm. -/
  | vfltVadd (d a b : Reg) (xs : Bool) (p : Pred) (t : Ty)
  /-- R210 vsub: Floating-point vector subtract. -/
  | vfltVsub (d a b : Reg) (xs : Bool) (p : Pred) (t : Ty)
  /-- R210 vmul: Floating-point vector multiply. -/
  | vfltVmul (d a b : Reg) (xs : Bool) (p : Pred) (t : Ty)
  /-- R210 vfma: Fused vector a × b + c. -/
  | vfma (d a b c : Reg) (xs : Bool) (p : Pred) (t : Ty)
  /-- R210 vfms: Fused vector a × b − c. -/
  | vfms (d a b c : Reg) (xs : Bool) (p : Pred) (t : Ty)
  /-- R210 vfnma: Fused vector −(a × b) + c. -/
  | vfnma (d a b c : Reg) (xs : Bool) (p : Pred) (t : Ty)
  /-- R210 vmin: Floating-point vector minimum. -/
  | vfltVmin (d a b : Reg) (xs : Bool) (p : Pred) (t : Ty)
  /-- R210 vmax: Floating-point vector maximum. -/
  | vfltVmax (d a b : Reg) (xs : Bool) (p : Pred) (t : Ty)
  /-- R210 vabs: Clear the sign bit. -/
  | vfltVabs (d a : Reg) (p : Pred) (t : Ty)
  /-- R210 vneg: Invert the sign bit. -/
  | vfltVneg (d a : Reg) (p : Pred) (t : Ty)
  /-- R200 vdiv: Correctly rounded vector divide. -/
  | vdiv (d a b : Reg) (xs : Bool) (p : Pred) (t : Ty)
  /-- R200 vsqrt: Correctly rounded vector square root. -/
  | vsqrt (d a : Reg) (p : Pred) (t : Ty)
  /-- R200 vrcp: Correctly rounded reciprocal. -/
  | vrcp (d a : Reg) (p : Pred) (t : Ty)
  /-- R200 vrsqrt: Correctly rounded reciprocal square root. -/
  | vrsqrt (d a : Reg) (p : Pred) (t : Ty)
  /-- R200 vexp2: Correctly rounded 2^x. -/
  | vexp2 (d a : Reg) (p : Pred) (t : Ty)
  /-- R200 vlog2: Correctly rounded log2. -/
  | vlog2 (d a : Reg) (p : Pred) (t : Ty)
  /-- R210 vsgnj: Copy the sign from b. -/
  | vsgnj (d a b : Reg) (xs : Bool) (p : Pred) (t : Ty)
  /-- R212 vcmpeq: Vector compare equal into a mask. -/
  | vcmpeq (d : MReg) (a b : Reg) (xs : Bool) (p : Pred) (t : Ty)
  /-- R212 vcmpne: Vector compare not equal. -/
  | vcmpne (d : MReg) (a b : Reg) (xs : Bool) (p : Pred) (t : Ty)
  /-- R212 vcmplt: Vector compare less than. -/
  | vcmplt (d : MReg) (a b : Reg) (xs : Bool) (p : Pred) (t : Ty)
  /-- R212 vcmple: Vector compare less or equal. -/
  | vcmple (d : MReg) (a b : Reg) (xs : Bool) (p : Pred) (t : Ty)
  /-- R212 vcmpgt: Vector compare greater than. -/
  | vcmpgt (d : MReg) (a b : Reg) (xs : Bool) (p : Pred) (t : Ty)
  /-- R212 vcmpge: Vector compare greater or equal. -/
  | vcmpge (d : MReg) (a b : Reg) (xs : Bool) (p : Pred) (t : Ty)
  /-- R213 mand: Mask and. -/
  | mand (d a b : MReg) (all : Bool) (p : Pred)
  /-- R213 mor: Mask or. -/
  | mor (d a b : MReg) (all : Bool) (p : Pred)
  /-- R213 mxor: Mask xor. -/
  | mxor (d a b : MReg) (all : Bool) (p : Pred)
  /-- R213 mandn: Mask and-not. -/
  | mandn (d a b : MReg) (all : Bool) (p : Pred)
  /-- R213 mnot: Mask not. -/
  | mnot (d a : MReg) (all : Bool) (p : Pred)
  /-- R213 mpop: Count the set mask bits in the positions. -/
  | mpop (d : Reg) (a : MReg) (all : Bool) (p : Pred)
  /-- R213 mfirst: Index of the lowest set mask bit, or −1. -/
  | mfirst (d : Reg) (a : MReg) (all : Bool) (p : Pred)
  /-- R213 mset: Set the mask bits in the positions. -/
  | mset (d : MReg) (all : Bool) (p : Pred)
  /-- R213 mclr: Clear the mask bits in the positions. -/
  | mclr (d : MReg) (all : Bool) (p : Pred)
  /-- R214 vslideup: Slide elements up by x[b]. -/
  | vslideup (d a b : Reg) (p : Pred) (t : Ty)
  /-- R214 vslidedn: Slide elements down by x[b]. -/
  | vslidedn (d a b : Reg) (p : Pred) (t : Ty)
  /-- R214 vbcast: Broadcast a scalar to the elements. -/
  | vbcast (d a : Reg) (p : Pred) (t : Ty)
  /-- R214 vperm: Permute elements by index. -/
  | vperm (d a b : Reg) (p : Pred) (t : Ty)
  /-- R214 vmv.xv: Move one vector element to an x register. -/
  | vmvXv (d a : Reg) (ix : BitVec 10) (t : Ty)
  /-- R214 vmv.vx: Move an x register into one vector element. -/
  | vmvVx (d a : Reg) (ix : BitVec 10) (t : Ty)
  /-- R214 vmv.fv: Move one vector element to an f register. -/
  | vmvFv (d a : Reg) (ix : BitVec 10) (t : Ty)
  /-- R214 vmv.vf: Move an f register into one vector element. -/
  | vmvVf (d a : Reg) (ix : BitVec 10) (t : Ty)
  /-- R214 vsel: Select elements by mask. -/
  | vsel (d a b : Reg) (p : Pred) (t : Ty)
  /-- R214 vcompress: Pack the active elements to the front. -/
  | vcompress (d a : Reg) (p : Pred) (t : Ty)
  /-- R215 vredsum: Pairwise-tree sum reduction. -/
  | vredsum (d a : Reg) (ix : BitVec 4) (p : Pred) (t : Ty)
  /-- R215 vredmax: Maximum reduction. -/
  | vredmax (d a : Reg) (ix : BitVec 4) (p : Pred) (t : Ty)
  /-- R215 vredmin: Minimum reduction. -/
  | vredmin (d a : Reg) (ix : BitVec 4) (p : Pred) (t : Ty)
  /-- R215 vredamax: Maximum-magnitude reduction, optionally updating tmax. -/
  | vredamax (d a : Reg) (tm : Bool) (ix : BitVec 4) (p : Pred) (t : Ty)
  /-- R216 vcvt: Convert elements between types, saturating narrow floats into a mask. -/
  | vcvt (d a : Reg) (c : MReg) (p : Pred) (dst src : Ty)
  /-- R217 vsrnd: Stochastically round elements with random fields from vb. -/
  | vsrnd (d a b : Reg) (c : MReg) (w : BitVec 6) (p : Pred) (dst src : Ty)
  /-- R218 vqnt: Quantise 64 elements to one FP4 block-vector with block scales. -/
  | vqnt (d a : Reg) (scale : Option Reg) (c : MReg) (src : Ty)
  /-- R220 vld: Unit-stride vector load. -/
  | vld (d a : Reg) (imm : BitVec 16) (p : Pred) (t : Ty)
  /-- R220 vlds: Strided vector load. -/
  | vlds (d a b : Reg) (imm : BitVec 16) (p : Pred) (t : Ty)
  /-- R219 vld2d: Two-dimensional vector load. -/
  | vld2d (d a b : Reg) (n1m1 : BitVec 10) (p : Pred) (t : Ty)
  /-- R219 vldx: Indexed vector gather. -/
  | vldx (d a b : Reg) (p : Pred) (t : Ty)
  /-- R220 vst: Unit-stride vector store. -/
  | vst (c a : Reg) (imm : BitVec 16) (p : Pred) (t : Ty)
  /-- R220 vsts: Strided vector store. -/
  | vsts (c a b : Reg) (imm : BitVec 16) (p : Pred) (t : Ty)
  /-- R222 vstx: Indexed vector scatter with an optional duplicate mask. -/
  | vstx (c a b : Reg) (dup : Option MReg) (p : Pred) (t : Ty)
  /-- R207 vsetvl: Set vl and SEW from an application vector length. -/
  | vsetvl (d a : Reg) (t : Ty)
  /-- R207 vsetvlw: Set vl bounded by a producer's watermark word, waiting as needed. -/
  | vsetvlw (d a b c : Reg) (limit : BitVec 15) (full : Bool) (t : Ty)
  /-- R208 vgrp: Drain the vector unit and change the grouping, clearing vl. -/
  | vgrp (g : BitVec 2)
  /-- R265 mop1: One rank-one update from vector registers into a tile. -/
  | mop1 (d : Tile) (a b c : Reg) (p : Pred) (pair : Pair)
  /-- R267 mopa: Up to 4,096 rank-one updates from LS or HSP operands into a tile. -/
  | mopa (d : Tile) (a b c : Reg) (km1 : BitVec 12) (ocs : Bool) (p : Pred) (pair : Pair)
  /-- R271 mzero: Zero the active elements of a tile. -/
  | mzero (d : Tile) (p : Pred)
  /-- R271 mrel: Release the matrix lease, staying occupant. -/
  | mrel
  /-- R271 mrel.discard: Release the lease and discard the gang's tile values and images. -/
  | mrelDiscard
  /-- R273 mdrain: Drain tile rows to a narrow type in LS. -/
  | mdrain (f : Drain)
  /-- R273 mdrain.row: Drain tile rows with per-row exponents. -/
  | mdrainRow (f : Drain) (c : Reg)
  /-- R273 mdrain.dly: Drain tile rows with a delayed scale, counting saturations and underflows. -/
  | mdrainDly (f : Drain) (c : Reg)
  /-- R275 mrow.rd: Move a tile row or column to vector registers. -/
  | mrowRd (d : Reg) (a : Tile) (ix : RowIx) (col : Bool) (p : Pred) (t : Ty)
  /-- R275 mrow.wr: Move vector registers into a tile row or column. -/
  | mrowWr (d : Tile) (a : Reg) (ix : RowIx) (col : Bool) (p : Pred) (t : Ty)
  /-- R276 amxrd: Read a tmax register. -/
  | amxrd (d : Reg) (i : BitVec 4)
  /-- R276 amxswp: Read a tmax register and reset it to +0 atomically. -/
  | amxswp (d : Reg) (i : BitVec 4)
  /-- R276 amxmax: Update a tmax register with |f[a]|. -/
  | amxmax (a : Reg) (i : BitVec 4)
  /-- R235 tcopy: Queue a tensor-to-tile copy, with an optional signal, waggle or frame action. -/
  | tcopy (a b : Reg) (act : CopyAct) (ord : Bool)
  /-- R237 tcopy.st: Queue a tile-to-tensor copy. -/
  | tcopySt (a b : Reg) (act : CopyAct) (ord : Bool)
  /-- R238 tcopy.mc: Queue a copy multicast to the LS of several cores of the hive. -/
  | tcopyMc (a b c d : Reg) (sig : Option Scope) (ord : Bool)
  /-- R244 frminit: Initialise a frame header once no copy holds a slot of it. -/
  | frminit (a b : Reg)
  /-- R244 frmwait: Take the next filled frame slot, waiting while none is filled. -/
  | frmwait (d a : Reg) (limit : BitVec 15)
  /-- R244 frmfree: Return a frame slot to the free count as a gang release. -/
  | frmfree (a : Reg)
  /-- R310 qfence: Order the named classes of the cell's accesses at a scope. -/
  | qfence (r w e : Bool) (sc : Scope)
  /-- R312 qamoadd: Atomic add at the home. -/
  | qamoadd (d a b : Reg) (word : Bool) (acq rel : Bool) (sc : Scope)
  /-- R312 qamoand: Atomic and at the home. -/
  | qamoand (d a b : Reg) (word : Bool) (acq rel : Bool) (sc : Scope)
  /-- R312 qamoor: Atomic or at the home. -/
  | qamoor (d a b : Reg) (word : Bool) (acq rel : Bool) (sc : Scope)
  /-- R312 qamoxor: Atomic xor at the home. -/
  | qamoxor (d a b : Reg) (word : Bool) (acq rel : Bool) (sc : Scope)
  /-- R312 qamomin: Atomic signed minimum. -/
  | qamomin (d a b : Reg) (word : Bool) (acq rel : Bool) (sc : Scope)
  /-- R312 qamomax: Atomic signed maximum. -/
  | qamomax (d a b : Reg) (word : Bool) (acq rel : Bool) (sc : Scope)
  /-- R312 qamominu: Atomic unsigned minimum. -/
  | qamominu (d a b : Reg) (word : Bool) (acq rel : Bool) (sc : Scope)
  /-- R312 qamomaxu: Atomic unsigned maximum. -/
  | qamomaxu (d a b : Reg) (word : Bool) (acq rel : Bool) (sc : Scope)
  /-- R312 qamoswap: Atomic swap. -/
  | qamoswap (d a b : Reg) (word : Bool) (acq rel : Bool) (sc : Scope)
  /-- R312 qamocas: Atomic compare-and-swap. -/
  | qamocas (d a b c : Reg) (word : Bool) (acq rel : Bool) (sc : Scope)
  /-- R315 ssig: Add to a signal word as a release. -/
  | ssig (a b : Reg) (sc : Scope)
  /-- R315 sset: Store into a signal word as a release. -/
  | sset (a b : Reg) (sc : Scope)
  /-- R316 swait: Wait until a signal word meets a condition, as an acquire. -/
  | swait (d a b c : Reg) (cond : Cond) (sc : Scope)
  /-- R318 bar: Arrive at a gang, hive, die or package barrier and wait for the episode. -/
  | bar (level : BarLevel) (limit : BitVec 13)
  /-- R322 ldfe: Wait for a tagged word to be full, read it and set it empty. -/
  | ldfe (d a c : Reg) (off : BitVec 12)
  /-- R322 ldfe.k: Wait for a tagged word to be full and read it, leaving it full. -/
  | ldfeK (d a c : Reg) (off : BitVec 12)
  /-- R322 stfe: Write an empty tagged word and set it full; a full word refuses. -/
  | stfe (a b : Reg) (off : BitVec 12)
  /-- R322 stfe.f: Write a tagged word and set it full, whatever its tag. -/
  | stfeF (a b : Reg) (off : BitVec 12)
  /-- R322 feprobe: Read a tagged word's tag. -/
  | feprobe (d a : Reg) (off : BitVec 12)
  /-- R322 feset.e: Set a tagged word empty, keeping its value. -/
  | fesetE (a : Reg) (off : BitVec 12)
  /-- R322 feset.f: Set a tagged word full, keeping its value. -/
  | fesetF (a : Reg) (off : BitVec 12)
  /-- R325 wgsend: Send a waggle to a cell's mailbox. -/
  | wgsend (a b c : Reg) (limit : BitVec 15)
  /-- R326 wgrecv: Take the oldest waggle, waiting on an empty mailbox. -/
  | wgrecv (d : Reg) (limit : BitVec 15)
  /-- R326 wgpeek: Count the waiting waggles. -/
  | wgpeek (d : Reg)
  /-- R78 launch: Append a LAUNCH packet to a device-produced queue, waiting while it is full. -/
  | launch (d a b : Reg)
  /-- R78 launch.nb: Append a LAUNCH packet, or return all ones at once when the queue is full. -/
  | launchNb (d a b : Reg)
  /-- R399 retire: End the item: restart for the next SERIAL value, or end the cell. -/
  | retire
  /-- R401 retire.h: End the item and name an heir descriptor, starting the hand-over at the last cell. -/
  | retireH (a : Reg)
  /-- R341 bfork: Create a brood, write its copy-on-write view leaves, and start G sibling launches. -/
  | bfork (d a : Reg)
  /-- R349 bjoin: Deposit a reward and go on. -/
  | bjoin (a : Reg)
  /-- R349 bjoin.w: Deposit a reward and wait for the advantage. -/
  | bjoinW (d a : Reg)
  /-- R349 bjoin.ab: Abstain and go on. -/
  | bjoinAb
  /-- R349 bjoin.ab.w: Abstain and wait for brood completion. -/
  | bjoinAbW (d : Reg)
  /-- R352 bkill: Cancel one pending sibling of a brood. -/
  | bkill (d a b : Reg)
  /-- R352 bkill.all: Cancel every pending sibling of a brood. -/
  | bkillAll (d a : Reg)
  /-- R353 bstat: Read the brood summary. -/
  | bstat (d a : Reg)
  /-- R353 bstat.sib: Read one sibling's status word. -/
  | bstatSib (d a b : Reg)
  /-- R376 tret: Return from the current trap level to tepc. -/
  | tret
  /-- R376 traise: Raise a TRAISE trap with tval := x[a]. -/
  | traise (a : Reg)
  /-- R377 msave: Store a whole tile to LS or HSP. -/
  | msave (d : Tile) (a : Reg)
  /-- R377 mrstr: Load a whole tile from LS or HSP. -/
  | mrstr (d : Tile) (a : Reg)
  /-- R114 icinv: Drop a code range from every instruction cache of the partition, parking until all hives acknowledge. -/
  | icinv (a b : Reg)
  /-- R118: A cell's turn fetches an encoding that names no instruction (a 16-, 48- or 80-bit length, an unlisted major or fn, a reserved field value), and it traps ILLEGAL. -/
  | illegalInstruction (len : Nat) (w : Word)
  /-- R131: The barrel ends a rotation, drops parked or halted members, and admits waiting cells to the next set under the 8-cycle test. -/
  | rotationBoundary (core : Nat)
  /-- R134: A cell's turn falls while its vector unit, matrix unit or copy-engine queue cannot accept its instruction, so the turn is spent without an issue but still counts. -/
  | turnSpentWithoutIssue (cell : Nat)
  /-- R253: A matrix instruction leaves the unit: QLEFT is decremented, the tile becomes ready, a drain's stores and tmax update complete, and a held cell may issue again. -/
  | matrixInstructionComplete (core : Nat)
  /-- R208: An in-flight vector instruction finishes its last element group, freeing an in-flight slot and releasing a parked VGRP or trap entry. -/
  | vectorInstructionComplete (core i : Nat)
  /-- R288: A posted store, atomic or signal update to translated memory reaches its home memory controller and is performed there in coherence order. -/
  | accessPerformedAtHome (cell i : Nat)
  /-- R114: The last hive of the partition acknowledges dropping an ICINV range, and the parked cell completes the ICINV. -/
  | icinvAcknowledged (cell : Nat)
  /-- R176: A load or LR/SC to host memory gets no PCIe completion within the completion timeout, and the gang is killed with K_FABRIC. -/
  | pcieCompletionTimeout (r : FabricReq)
  /-- R176: A cell's posted store to host or peer memory cannot be delivered, and the gang is killed with K_FABRIC. -/
  | postedWriteUndeliverable (cell : Nat) (dva : Word)
  /-- R329: A UALink station performs a link-level replay of a flit, counted in UARPL, with no effect above the link. -/
  | ualinkReplay (station : Nat)
  /-- R25: A fabric peer's UALink load, store, atomic or copy request to this device's memory arrives and is performed, or answered with an error response on a refused line. -/
  | fabricPeerAccess (op : PeerOp)
  /-- R169: The pager or runtime changes or removes a present page-table entry and shoots it down in every TLB of the partition before reporting the change. -/
  | tlbShootdown (asid dva : Nat) (entry : Word)
  /-- R28: Average module power exceeds or falls under the cap, and the compute-die clock is lowered or raised on all dies together. -/
  | powerCapClockChange (lower : Bool)
  /-- R8: A PCIe configuration read or write reaches the endpoint, for example one that sets SR-IOV VF Enable, and is answered from the HUB stage onward. -/
  | configurationRequest (func : Nat) (req : CfgReq)
deriving DecidableEq, Repr

end Sys2Proof
end

