-- ==== Sys2Proof/WellFormed.lean ====
section
/-! DEFINITION. Which instructions have an encoding: the limits on fields that the instruction type itself does not hold
(spec 05 R122 to R126 and the entry of each instruction). -/

namespace Sys2Proof

/-- A mask operand with `n` set names a mask (spec 05 R122). -/
def Pred.ok (p : Pred) : Bool := !(p.k == 0 && p.n)

/-- No mask. -/
def Pred.all : Pred := ⟨0, false⟩

def Ty.isInt : Ty → Bool
  | .i8 | .ui8 | .i16 | .ui16 | .i32 | .ui32 => true
  | _ => false

/-- f32, bf16 or f16: the types of VFLT (spec 05 R123). -/
def Ty.isWide : Ty → Bool
  | .f32 | .bf16 | .f16 => true
  | _ => false

/-- i8, i16 or i32: the types of VINT (spec 05 R123). -/
def Ty.isSigned : Ty → Bool
  | .i8 | .i16 | .i32 => true
  | _ => false

/-- Any code of 8, 16 or 32 bits: 0x01–0x05, 0x08–0x0D (spec 05 R123). -/
def Ty.isMove : Ty → Bool
  | .e2m1 | .e3m5 => false
  | _ => true

/-- The types of VCMP, and of vredmax and vredmin (spec 05 R123). -/
def Ty.isCmp (t : Ty) : Bool := t.isWide || t.isInt

/-- The types of vredsum and vredamax (spec 05 R123). -/
def Ty.isSum (t : Ty) : Bool := t.isWide || t.isSigned

/-- The pairs VCVT accepts: any two distinct types of 8, 16 or 32 bits (spec 05 R125). -/
def cvtOk (dst src : Ty) : Bool := dst.isMove && src.isMove && !(dst == src)

/-- The pairs VSRND accepts (spec 05 R125). -/
def srndOk (dst src : Ty) : Bool :=
  match src with
  | .f32 => dst == .bf16 || dst == .f16 || dst == .e4m3 || dst == .e5m2
  | .bf16 | .f16 => dst == .e4m3 || dst == .e5m2
  | _ => false

/-- Element width in bits (spec 05 R124). -/
def Ty.width : Ty → Nat
  | .f32 | .i32 | .ui32 => 32
  | .bf16 | .f16 | .i16 | .ui16 => 16
  | .e2m1 => 4
  | _ => 8

/-- e4m3 and e5m2, the destinations that need a saturation mask (spec 09 R216). -/
def Ty.isNarrow : Ty → Bool
  | .e4m3 | .e5m2 => true
  | _ => false

/-- Pairs 0x07–0x0A take a band scale from f[c]; in every other pair `c` is 0 (spec 11 R258). -/
def Pair.banded : Pair → Bool
  | .e4m3e2m1 | .e5m2e2m1 | .bf16e2m1 | .e2m1e2m1 => true
  | _ => false

/-- A register number that names an even register. -/
def even (r : Reg) : Bool := r.toNat % 2 == 0

/-- The register pair of a MOPA side: even, 2 to 30 (spec 11 R260). -/
def pairReg (r : Reg) : Bool := even r && r != 0

/-- The destination types of MDRAIN; a saturation mask only for the narrow ones; rows within the tile (spec 11 R272). -/
def Drain.ok (f : Drain) : Bool :=
  f.p.ok && (f.t == .f32 || f.t == .bf16 || f.t == .e4m3 || f.t == .e5m2 || f.t == .i8)
  && ((f.t == .e4m3 || f.t == .e5m2 || f.t == .i8) || f.msat == 0)
  && decide (f.fr.toNat + f.nrm1.toNat + 1 ≤ 64)


/-- An instruction that has an encoding. Events of the device have none and no limits here. A FENCE with fm 1000 is FENCE.TSO, and
the one word of PAUSE is PAUSE (spec 06 R141). -/
def wellFormed : Instr → Bool
  | .fence fm pr su rs1 rd => fm != 8 && !(fm == 0 && pr == 1 && su == 0 && rs1 == 0 && rd == 0)
  | .widf _ i => decide (i.toNat < 6)
  | .widfExt _ i => decide (i.toNat < 6)
  | .widfLvl _ i => decide (i.toNat < 6)
  | .vintVadd _ _ _ _ p t => p.ok && t.isSigned
  | .vintVsub _ _ _ _ p t => p.ok && t.isSigned
  | .vintVmul _ _ _ _ p t => p.ok && t.isSigned
  | .vmulh _ _ _ _ p t => p.ok && t.isSigned
  | .vintVmin _ _ _ _ p t => p.ok && t.isSigned
  | .vintVmax _ _ _ _ p t => p.ok && t.isSigned
  | .vminu _ _ _ _ p t => p.ok && t.isSigned
  | .vmaxu _ _ _ _ p t => p.ok && t.isSigned
  | .vand _ _ _ _ p t => p.ok && t.isSigned
  | .vor _ _ _ _ p t => p.ok && t.isSigned
  | .vxor _ _ _ _ p t => p.ok && t.isSigned
  | .vsll _ _ _ _ p t => p.ok && t.isSigned
  | .vsrl _ _ _ _ p t => p.ok && t.isSigned
  | .vsra _ _ _ _ p t => p.ok && t.isSigned
  | .vintVabs _ _ p t => p.ok && t.isSigned
  | .vintVneg _ _ p t => p.ok && t.isSigned
  | .vsadd _ _ _ _ p t => p.ok && t.isSigned
  | .vssub _ _ _ _ p t => p.ok && t.isSigned
  | .vfltVadd _ _ _ _ p t => p.ok && t.isWide
  | .vfltVsub _ _ _ _ p t => p.ok && t.isWide
  | .vfltVmul _ _ _ _ p t => p.ok && t.isWide
  | .vfma _ _ _ _ _ p t => p.ok && t.isWide
  | .vfms _ _ _ _ _ p t => p.ok && t.isWide
  | .vfnma _ _ _ _ _ p t => p.ok && t.isWide
  | .vfltVmin _ _ _ _ p t => p.ok && t.isWide
  | .vfltVmax _ _ _ _ p t => p.ok && t.isWide
  | .vfltVabs _ _ p t => p.ok && t.isWide
  | .vfltVneg _ _ p t => p.ok && t.isWide
  | .vdiv _ _ _ _ p t => p.ok && t.isWide
  | .vsqrt _ _ p t => p.ok && t.isWide
  | .vrcp _ _ p t => p.ok && t.isWide
  | .vrsqrt _ _ p t => p.ok && t.isWide
  | .vexp2 _ _ p t => p.ok && t.isWide
  | .vlog2 _ _ p t => p.ok && t.isWide
  | .vsgnj _ _ _ _ p t => p.ok && t.isWide
  | .vcmpeq _ _ _ _ p t => p.ok && t.isCmp
  | .vcmpne _ _ _ _ p t => p.ok && t.isCmp
  | .vcmplt _ _ _ _ p t => p.ok && t.isCmp
  | .vcmple _ _ _ _ p t => p.ok && t.isCmp
  | .vcmpgt _ _ _ _ p t => p.ok && t.isCmp
  | .vcmpge _ _ _ _ p t => p.ok && t.isCmp
  | .mand _ _ _ all p => p.ok && (!all || p == Pred.all)
  | .mor _ _ _ all p => p.ok && (!all || p == Pred.all)
  | .mxor _ _ _ all p => p.ok && (!all || p == Pred.all)
  | .mandn _ _ _ all p => p.ok && (!all || p == Pred.all)
  | .mnot _ _ all p => p.ok && (!all || p == Pred.all)
  | .mpop _ _ all p => p.ok && (!all || p == Pred.all)
  | .mfirst _ _ all p => p.ok && (!all || p == Pred.all)
  | .mset _ all p => p.ok && (!all || p == Pred.all)
  | .mclr _ all p => p.ok && (!all || p == Pred.all)
  | .vslideup _ _ _ p t => p.ok && t.isMove
  | .vslidedn _ _ _ p t => p.ok && t.isMove
  | .vbcast _ _ p t => p.ok && t.isMove
  | .vperm _ _ _ p t => p.ok && t.isMove
  | .vmvXv _ _ _ t => t.isSigned
  | .vmvVx _ _ _ t => t.isSigned
  | .vmvFv _ _ _ t => t.isWide
  | .vmvVf _ _ _ t => t.isWide
  | .vsel _ _ _ p t => p.k != 0 && t.isMove
  | .vcompress _ _ p t => p.ok && t.isMove
  | .vredsum _ _ _ p t => p.ok && t.isSum
  | .vredmax _ _ _ p t => p.ok && t.isCmp
  | .vredmin _ _ _ p t => p.ok && t.isCmp
  | .vredamax _ _ tm _ p t => p.ok && t.isSum && (!tm || t.isWide)
  | .vcvt _ _ c p dst src => p.ok && cvtOk dst src && (dst.isNarrow || c == 0)
  | .vsrnd _ _ _ _ w p dst src => p.ok && srndOk dst src && decide (w.toNat ≤ src.width)
  | .vqnt _ _ _ _ src => src.isWide
  | .vld _ _ _ p t => p.ok && t.isMove
  | .vlds _ _ _ _ p t => p.ok && t.isMove
  | .vld2d _ _ _ _ p t => p.ok && t.isMove
  | .vldx _ _ _ p t => p.ok && t.isMove
  | .vst _ _ _ p t => p.ok && t.isMove
  | .vsts _ _ _ _ p t => p.ok && t.isMove
  | .vstx _ _ _ _ p t => p.ok && t.isMove
  | .vsetvl _ _ t => t.isMove
  | .vsetvlw _ _ _ _ _ _ t => t.isMove
  | .mop1 _ a b c p pair => p.ok && (pair.banded || c == 0) && (pair != .f32f32 || (even a && even b))
  | .mopa _ a b c _ _ p pair => p.ok && (pair.banded || c == 0) && pairReg a && pairReg b
  | .mzero _ p => p.ok
  | .mdrain f => f.ok
  | .mdrainRow f _ => f.ok
  | .mdrainDly f _ => f.ok
  | .mrowRd d _ _ _ p t => p.ok && even d && (t == .f32 || t == .i32)
  | .mrowWr _ a _ _ p t => p.ok && even a && (t == .f32 || t == .i32)
  | .tcopyMc _ _ _ d _ _ => d != 0 && d != 31
  | .qfence r w _ _ => r || w
  | .wgrecv d _ => even d && d != 0
  | _ => true

end Sys2Proof
end

