-- ==== Sys2Proof/Decode.lean ====
section
/-! DEFINITION. Decoding and encoding. A word is read into its fields, the fields name one candidate instruction, and the
candidate stands only if it is well formed and its own encoding is the word: so every field an instruction does not use must
be zero and every fixed field must hold its value (spec 05 R118 to R126). -/

namespace Sys2Proof

/-- Why a word names no instruction (spec 05 R118, R119, R122, R123). -/
inductive Reject where
  | length16 | length48 | length80 | opcode32 | opcodeQ64
deriving DecidableEq, Repr, Inhabited

/-- What the parcels at pc decode to: an instruction and its length in bytes, or an illegal word with the length and bits that
its trap reports (spec 05 R118). -/
inductive Decoded where
  | instr (i : Instr) (len : Nat)
  | illegal (why : Reject) (len : Nat) (bits : Word)
deriving DecidableEq, Repr

/-- The length, in bytes, that the low bits of the first parcel decide; 10 stands for 80 bits or more (spec 05 R118, 18 R369). -/
def parcelLength (p : W32) : Nat :=
  let w := p.toNat
  if w % 4 != 3 then 2
  else if w / 4 % 8 != 7 then 4
  else if w % 64 == 31 then 6
  else if w % 128 == 63 then 8
  else 10

/-! ### Codes -/

/-- The code of a type (spec 05 R124). -/
def Ty.code : Ty → BitVec 5
  | .f32 => 0x01 | .bf16 => 0x02 | .f16 => 0x03 | .e4m3 => 0x04 | .e5m2 => 0x05 | .e2m1 => 0x06
  | .i8 => 0x08 | .ui8 => 0x09 | .i16 => 0x0A | .ui16 => 0x0B | .i32 => 0x0C | .ui32 => 0x0D | .e3m5 => 0x0F

/-- The type a code names (spec 05 R124). -/
def Ty.ofCode (c : BitVec 5) : Option Ty :=
  match c.toNat with
  | 0x01 => some .f32 | 0x02 => some .bf16 | 0x03 => some .f16 | 0x04 => some .e4m3 | 0x05 => some .e5m2 | 0x06 => some .e2m1
  | 0x08 => some .i8 | 0x09 => some .ui8 | 0x0A => some .i16 | 0x0B => some .ui16 | 0x0C => some .i32 | 0x0D => some .ui32
  | 0x0F => some .e3m5
  | _ => none

/-- The code of a format pair (spec 05 R126). -/
def Pair.code : Pair → BitVec 5
  | .bf16bf16 => 0x01 | .f16f16 => 0x02 | .e4m3e4m3 => 0x03 | .e4m3e5m2 => 0x04 | .e5m2e4m3 => 0x05 | .e5m2e5m2 => 0x06
  | .e4m3e2m1 => 0x07 | .e5m2e2m1 => 0x08 | .bf16e2m1 => 0x09 | .e2m1e2m1 => 0x0A | .i8i8 => 0x0B | .ui8i8 => 0x0C
  | .f32f32 => 0x0D

/-- The format pair a code names (spec 05 R126). -/
def Pair.ofCode (c : BitVec 5) : Option Pair :=
  match c.toNat with
  | 0x01 => some .bf16bf16 | 0x02 => some .f16f16 | 0x03 => some .e4m3e4m3 | 0x04 => some .e4m3e5m2 | 0x05 => some .e5m2e4m3
  | 0x06 => some .e5m2e5m2 | 0x07 => some .e4m3e2m1 | 0x08 => some .e5m2e2m1 | 0x09 => some .bf16e2m1 | 0x0A => some .e2m1e2m1
  | 0x0B => some .i8i8 | 0x0C => some .ui8i8 | 0x0D => some .f32f32
  | _ => none

/-- The code of a scope (spec 05 R127). -/
def Scope.code : Scope → BitVec 3
  | .cell => 0 | .gang => 1 | .hive => 2 | .die => 3 | .pkg => 4 | .pod => 5

/-- The scope a code names; 6 and 7 name none (spec 05 R127). -/
def Scope.ofCode (c : BitVec 3) : Option Scope :=
  match c.toNat with
  | 0 => some .cell | 1 => some .gang | 2 => some .hive | 3 => some .die | 4 => some .pkg | 5 => some .pod
  | _ => none

/-- The code of a condition (spec 14 R314). -/
def Cond.code : Cond → BitVec 3
  | .eq => 0 | .ne => 1 | .lt => 2 | .le => 3 | .gt => 4 | .ge => 5

/-- The condition a code names (spec 14 R314). -/
def Cond.ofCode (c : BitVec 3) : Option Cond :=
  match c.toNat with
  | 0 => some .eq | 1 => some .ne | 2 => some .lt | 3 => some .le | 4 => some .gt | 5 => some .ge
  | _ => none

/-- The code of a barrier level (spec 14 R317). -/
def BarLevel.code : BarLevel → BitVec 3
  | .gang => 1 | .hive => 2 | .die => 3 | .pkg => 4

/-- The level a code names (spec 14 R317). -/
def BarLevel.ofCode (c : BitVec 3) : Option BarLevel :=
  match c.toNat with
  | 1 => some .gang | 2 => some .hive | 3 => some .die | 4 => some .pkg
  | _ => none

/-- One bit. -/
def bit1 (b : Bool) : BitVec 1 := if b then 1 else 0

/-! ### 32-bit formats (RISC-V unprivileged; spec 06 R138, R146) -/

/-- The fields of a 32-bit parcel, each at the place every format gives it. -/
structure F32 where
  op : BitVec 7
  rd : Reg
  f3 : BitVec 3
  rs1 : Reg
  rs2 : Reg
  f7 : BitVec 7
deriving DecidableEq, Repr

/-- Put the fields together. -/
def F32.pack (f : F32) : W32 := f.f7 ++ f.rs2 ++ f.rs1 ++ f.f3 ++ f.rd ++ f.op

/-- Take the fields apart. -/
def F32.unpack (w : W32) : F32 :=
  { op := w.extractLsb' 0 7, rd := w.extractLsb' 7 5, f3 := w.extractLsb' 12 3, rs1 := w.extractLsb' 15 5,
    rs2 := w.extractLsb' 20 5, f7 := w.extractLsb' 25 7 }

/-- R format. -/
def encR (op : BitVec 7) (f3 : BitVec 3) (f7 : BitVec 7) (rd rs1 rs2 : Reg) : F32 := ⟨op, rd, f3, rs1, rs2, f7⟩

/-- I format: imm[11:0] in [31:20]. -/
def encI (op : BitVec 7) (f3 : BitVec 3) (rd rs1 : Reg) (imm : BitVec 12) : F32 :=
  ⟨op, rd, f3, rs1, imm.extractLsb' 0 5, imm.extractLsb' 5 7⟩

/-- S format: imm[11:5] in [31:25], imm[4:0] in [11:7]. -/
def encS (op : BitVec 7) (f3 : BitVec 3) (rs1 rs2 : Reg) (imm : BitVec 12) : F32 :=
  ⟨op, imm.extractLsb' 0 5, f3, rs1, rs2, imm.extractLsb' 5 7⟩

/-- B format; `imm` is offset[12:1]: offset[12|10:5] in [31:25], offset[4:1|11] in [11:7]. -/
def encB (f3 : BitVec 3) (rs1 rs2 : Reg) (imm : BitVec 12) : F32 :=
  ⟨0x63, imm.extractLsb' 0 4 ++ imm.extractLsb' 10 1, f3, rs1, rs2, imm.extractLsb' 11 1 ++ imm.extractLsb' 4 6⟩

/-- U format: imm[31:12] in [31:12]. -/
def encU (op : BitVec 7) (rd : Reg) (imm : BitVec 20) : F32 :=
  ⟨op, rd, imm.extractLsb' 0 3, imm.extractLsb' 3 5, imm.extractLsb' 8 5, imm.extractLsb' 13 7⟩

/-- J format; `imm` is offset[20:1]: offset[20|10:1|11|19:12] in [31:12]. -/
def encJ (rd : Reg) (imm : BitVec 20) : F32 :=
  encU 0x6F rd (imm.extractLsb' 19 1 ++ imm.extractLsb' 0 10 ++ imm.extractLsb' 10 1 ++ imm.extractLsb' 11 8)

/-- I-format immediate. -/
def F32.immI (f : F32) : BitVec 12 := f.f7 ++ f.rs2

/-- S-format immediate. -/
def F32.immS (f : F32) : BitVec 12 := f.f7 ++ f.rd

/-- B-format offset[12:1]. -/
def F32.immB (f : F32) : BitVec 12 :=
  f.f7.extractLsb' 6 1 ++ f.rd.extractLsb' 0 1 ++ f.f7.extractLsb' 0 6 ++ f.rd.extractLsb' 1 4

/-- U-format immediate. -/
def F32.immU (f : F32) : BitVec 20 := f.f7 ++ f.rs2 ++ f.rs1 ++ f.f3

/-- J-format offset[20:1]. -/
def F32.immJ (f : F32) : BitVec 20 :=
  let u := f.immU
  u.extractLsb' 19 1 ++ u.extractLsb' 0 8 ++ u.extractLsb' 8 1 ++ u.extractLsb' 9 10

/-- Bit 0 of funct7: rl. -/
def F32.rl (f : F32) : Bool := f.f7.getLsbD 0

/-- Bit 1 of funct7: aq. -/
def F32.aq (f : F32) : Bool := f.f7.getLsbD 1

/-- funct5 with aq and rl. -/
def amoF7 (f5 : BitVec 5) (aq rl : Bool) : BitVec 7 := f5 ++ bit1 aq ++ bit1 rl

/-- The fields of a 32-bit instruction (spec 06 R138, R141, R146, R150, R151; 05 R120). -/
def encode32 : Instr → Option F32
  | .lui rd imm => some (encU 0x37 rd imm)
  | .auipc rd imm => some (encU 0x17 rd imm)
  | .jal rd imm => some (encJ rd imm)
  | .jalr rd rs1 imm => some (encI 0x67 0 rd rs1 imm)
  | .beq rs1 rs2 imm => some (encB 0 rs1 rs2 imm)
  | .bne rs1 rs2 imm => some (encB 1 rs1 rs2 imm)
  | .blt rs1 rs2 imm => some (encB 4 rs1 rs2 imm)
  | .bge rs1 rs2 imm => some (encB 5 rs1 rs2 imm)
  | .bltu rs1 rs2 imm => some (encB 6 rs1 rs2 imm)
  | .bgeu rs1 rs2 imm => some (encB 7 rs1 rs2 imm)
  | .lb rd rs1 imm => some (encI 0x03 0 rd rs1 imm)
  | .lh rd rs1 imm => some (encI 0x03 1 rd rs1 imm)
  | .lw rd rs1 imm => some (encI 0x03 2 rd rs1 imm)
  | .ld rd rs1 imm => some (encI 0x03 3 rd rs1 imm)
  | .lbu rd rs1 imm => some (encI 0x03 4 rd rs1 imm)
  | .lhu rd rs1 imm => some (encI 0x03 5 rd rs1 imm)
  | .lwu rd rs1 imm => some (encI 0x03 6 rd rs1 imm)
  | .sb rs1 rs2 imm => some (encS 0x23 0 rs1 rs2 imm)
  | .sh rs1 rs2 imm => some (encS 0x23 1 rs1 rs2 imm)
  | .sw rs1 rs2 imm => some (encS 0x23 2 rs1 rs2 imm)
  | .sd rs1 rs2 imm => some (encS 0x23 3 rs1 rs2 imm)
  | .addi rd rs1 imm => some (encI 0x13 0 rd rs1 imm)
  | .slti rd rs1 imm => some (encI 0x13 2 rd rs1 imm)
  | .sltiu rd rs1 imm => some (encI 0x13 3 rd rs1 imm)
  | .xori rd rs1 imm => some (encI 0x13 4 rd rs1 imm)
  | .ori rd rs1 imm => some (encI 0x13 6 rd rs1 imm)
  | .andi rd rs1 imm => some (encI 0x13 7 rd rs1 imm)
  | .slli rd rs1 sh => some (encI 0x13 1 rd rs1 ((0 : BitVec 6) ++ sh))
  | .srli rd rs1 sh => some (encI 0x13 5 rd rs1 ((0 : BitVec 6) ++ sh))
  | .srai rd rs1 sh => some (encI 0x13 5 rd rs1 ((16 : BitVec 6) ++ sh))
  | .add rd rs1 rs2 => some (encR 0x33 0 0x00 rd rs1 rs2)
  | .sub rd rs1 rs2 => some (encR 0x33 0 0x20 rd rs1 rs2)
  | .sll rd rs1 rs2 => some (encR 0x33 1 0x00 rd rs1 rs2)
  | .slt rd rs1 rs2 => some (encR 0x33 2 0x00 rd rs1 rs2)
  | .sltu rd rs1 rs2 => some (encR 0x33 3 0x00 rd rs1 rs2)
  | .xor rd rs1 rs2 => some (encR 0x33 4 0x00 rd rs1 rs2)
  | .srl rd rs1 rs2 => some (encR 0x33 5 0x00 rd rs1 rs2)
  | .sra rd rs1 rs2 => some (encR 0x33 5 0x20 rd rs1 rs2)
  | .or rd rs1 rs2 => some (encR 0x33 6 0x00 rd rs1 rs2)
  | .and rd rs1 rs2 => some (encR 0x33 7 0x00 rd rs1 rs2)
  | .mul rd rs1 rs2 => some (encR 0x33 0 0x01 rd rs1 rs2)
  | .mulh rd rs1 rs2 => some (encR 0x33 1 0x01 rd rs1 rs2)
  | .mulhsu rd rs1 rs2 => some (encR 0x33 2 0x01 rd rs1 rs2)
  | .mulhu rd rs1 rs2 => some (encR 0x33 3 0x01 rd rs1 rs2)
  | .div rd rs1 rs2 => some (encR 0x33 4 0x01 rd rs1 rs2)
  | .divu rd rs1 rs2 => some (encR 0x33 5 0x01 rd rs1 rs2)
  | .rem rd rs1 rs2 => some (encR 0x33 6 0x01 rd rs1 rs2)
  | .remu rd rs1 rs2 => some (encR 0x33 7 0x01 rd rs1 rs2)
  | .addiw rd rs1 imm => some (encI 0x1b 0 rd rs1 imm)
  | .slliw rd rs1 sh => some (encR 0x1b 1 0x00 rd rs1 sh)
  | .srliw rd rs1 sh => some (encR 0x1b 5 0x00 rd rs1 sh)
  | .sraiw rd rs1 sh => some (encR 0x1b 5 0x20 rd rs1 sh)
  | .addw rd rs1 rs2 => some (encR 0x3b 0 0x00 rd rs1 rs2)
  | .subw rd rs1 rs2 => some (encR 0x3b 0 0x20 rd rs1 rs2)
  | .sllw rd rs1 rs2 => some (encR 0x3b 1 0x00 rd rs1 rs2)
  | .srlw rd rs1 rs2 => some (encR 0x3b 5 0x00 rd rs1 rs2)
  | .sraw rd rs1 rs2 => some (encR 0x3b 5 0x20 rd rs1 rs2)
  | .mulw rd rs1 rs2 => some (encR 0x3b 0 0x01 rd rs1 rs2)
  | .divw rd rs1 rs2 => some (encR 0x3b 4 0x01 rd rs1 rs2)
  | .divuw rd rs1 rs2 => some (encR 0x3b 5 0x01 rd rs1 rs2)
  | .remw rd rs1 rs2 => some (encR 0x3b 6 0x01 rd rs1 rs2)
  | .remuw rd rs1 rs2 => some (encR 0x3b 7 0x01 rd rs1 rs2)
  | .fence fm pr su rs1 rd => some (encI 0x0f 0 rd rs1 (fm ++ pr ++ su))
  | .fenceTso pr su rs1 rd => some (encI 0x0f 0 rd rs1 ((8 : BitVec 4) ++ pr ++ su))
  | .pause => some (encI 0x0f 0 0 0 0x010)
  | .fenceI rd rs1 imm => some (encI 0x0f 1 rd rs1 imm)
  | .ecall => some (encI 0x73 0 0 0 0)
  | .ebreak => some (encI 0x73 0 0 0 1)
  | .csrrw rd rs1 imm => some (encI 0x73 1 rd rs1 imm)
  | .csrrs rd rs1 imm => some (encI 0x73 2 rd rs1 imm)
  | .csrrc rd rs1 imm => some (encI 0x73 3 rd rs1 imm)
  | .csrrwi rd rs1 imm => some (encI 0x73 5 rd rs1 imm)
  | .csrrsi rd rs1 imm => some (encI 0x73 6 rd rs1 imm)
  | .csrrci rd rs1 imm => some (encI 0x73 7 rd rs1 imm)
  | .lrW rd rs1 aq rl => some (encR 0x2f 2 (amoF7 2 aq rl) rd rs1 0)
  | .scW rd rs1 rs2 aq rl => some (encR 0x2f 2 (amoF7 3 aq rl) rd rs1 rs2)
  | .amoswapW rd rs1 rs2 aq rl => some (encR 0x2f 2 (amoF7 1 aq rl) rd rs1 rs2)
  | .amoaddW rd rs1 rs2 aq rl => some (encR 0x2f 2 (amoF7 0 aq rl) rd rs1 rs2)
  | .amoxorW rd rs1 rs2 aq rl => some (encR 0x2f 2 (amoF7 4 aq rl) rd rs1 rs2)
  | .amoandW rd rs1 rs2 aq rl => some (encR 0x2f 2 (amoF7 12 aq rl) rd rs1 rs2)
  | .amoorW rd rs1 rs2 aq rl => some (encR 0x2f 2 (amoF7 8 aq rl) rd rs1 rs2)
  | .amominW rd rs1 rs2 aq rl => some (encR 0x2f 2 (amoF7 16 aq rl) rd rs1 rs2)
  | .amomaxW rd rs1 rs2 aq rl => some (encR 0x2f 2 (amoF7 20 aq rl) rd rs1 rs2)
  | .amominuW rd rs1 rs2 aq rl => some (encR 0x2f 2 (amoF7 24 aq rl) rd rs1 rs2)
  | .amomaxuW rd rs1 rs2 aq rl => some (encR 0x2f 2 (amoF7 28 aq rl) rd rs1 rs2)
  | .lrD rd rs1 aq rl => some (encR 0x2f 3 (amoF7 2 aq rl) rd rs1 0)
  | .scD rd rs1 rs2 aq rl => some (encR 0x2f 3 (amoF7 3 aq rl) rd rs1 rs2)
  | .amoswapD rd rs1 rs2 aq rl => some (encR 0x2f 3 (amoF7 1 aq rl) rd rs1 rs2)
  | .amoaddD rd rs1 rs2 aq rl => some (encR 0x2f 3 (amoF7 0 aq rl) rd rs1 rs2)
  | .amoxorD rd rs1 rs2 aq rl => some (encR 0x2f 3 (amoF7 4 aq rl) rd rs1 rs2)
  | .amoandD rd rs1 rs2 aq rl => some (encR 0x2f 3 (amoF7 12 aq rl) rd rs1 rs2)
  | .amoorD rd rs1 rs2 aq rl => some (encR 0x2f 3 (amoF7 8 aq rl) rd rs1 rs2)
  | .amominD rd rs1 rs2 aq rl => some (encR 0x2f 3 (amoF7 16 aq rl) rd rs1 rs2)
  | .amomaxD rd rs1 rs2 aq rl => some (encR 0x2f 3 (amoF7 20 aq rl) rd rs1 rs2)
  | .amominuD rd rs1 rs2 aq rl => some (encR 0x2f 3 (amoF7 24 aq rl) rd rs1 rs2)
  | .amomaxuD rd rs1 rs2 aq rl => some (encR 0x2f 3 (amoF7 28 aq rl) rd rs1 rs2)
  | .flw rd rs1 imm => some (encI 0x07 2 rd rs1 imm)
  | .flh rd rs1 imm => some (encI 0x07 1 rd rs1 imm)
  | .fsw rs1 rs2 imm => some (encS 0x27 2 rs1 rs2 imm)
  | .fsh rs1 rs2 imm => some (encS 0x27 1 rs1 rs2 imm)
  | .fmaddS rd rs1 rs2 rs3 rm => some ⟨0x43, rd, rm, rs1, rs2, rs3 ++ (0 : BitVec 2)⟩
  | .fmsubS rd rs1 rs2 rs3 rm => some ⟨0x47, rd, rm, rs1, rs2, rs3 ++ (0 : BitVec 2)⟩
  | .fnmsubS rd rs1 rs2 rs3 rm => some ⟨0x4b, rd, rm, rs1, rs2, rs3 ++ (0 : BitVec 2)⟩
  | .fnmaddS rd rs1 rs2 rs3 rm => some ⟨0x4f, rd, rm, rs1, rs2, rs3 ++ (0 : BitVec 2)⟩
  | .faddS rd rs1 rs2 rm => some ⟨0x53, rd, rm, rs1, rs2, 0x00⟩
  | .fsubS rd rs1 rs2 rm => some ⟨0x53, rd, rm, rs1, rs2, 0x04⟩
  | .fmulS rd rs1 rs2 rm => some ⟨0x53, rd, rm, rs1, rs2, 0x08⟩
  | .fdivS rd rs1 rs2 rm => some ⟨0x53, rd, rm, rs1, rs2, 0x0c⟩
  | .fsqrtS rd rs1 rm => some ⟨0x53, rd, rm, rs1, 0, 0x2c⟩
  | .fsgnjS rd rs1 rs2 => some ⟨0x53, rd, 0, rs1, rs2, 0x10⟩
  | .fsgnjnS rd rs1 rs2 => some ⟨0x53, rd, 1, rs1, rs2, 0x10⟩
  | .fsgnjxS rd rs1 rs2 => some ⟨0x53, rd, 2, rs1, rs2, 0x10⟩
  | .fminS rd rs1 rs2 => some ⟨0x53, rd, 0, rs1, rs2, 0x14⟩
  | .fmaxS rd rs1 rs2 => some ⟨0x53, rd, 1, rs1, rs2, 0x14⟩
  | .fcvtWS rd rs1 rm => some ⟨0x53, rd, rm, rs1, 0, 0x60⟩
  | .fcvtWuS rd rs1 rm => some ⟨0x53, rd, rm, rs1, 1, 0x60⟩
  | .fcvtLS rd rs1 rm => some ⟨0x53, rd, rm, rs1, 2, 0x60⟩
  | .fcvtLuS rd rs1 rm => some ⟨0x53, rd, rm, rs1, 3, 0x60⟩
  | .fcvtSW rd rs1 rm => some ⟨0x53, rd, rm, rs1, 0, 0x68⟩
  | .fcvtSWu rd rs1 rm => some ⟨0x53, rd, rm, rs1, 1, 0x68⟩
  | .fcvtSL rd rs1 rm => some ⟨0x53, rd, rm, rs1, 2, 0x68⟩
  | .fcvtSLu rd rs1 rm => some ⟨0x53, rd, rm, rs1, 3, 0x68⟩
  | .fmvXW rd rs1 => some ⟨0x53, rd, 0, rs1, 0, 0x70⟩
  | .fclassS rd rs1 => some ⟨0x53, rd, 1, rs1, 0, 0x70⟩
  | .fmvWX rd rs1 => some ⟨0x53, rd, 0, rs1, 0, 0x78⟩
  | .feqS rd rs1 rs2 => some ⟨0x53, rd, 2, rs1, rs2, 0x50⟩
  | .fltS rd rs1 rs2 => some ⟨0x53, rd, 1, rs1, rs2, 0x50⟩
  | .fleS rd rs1 rs2 => some ⟨0x53, rd, 0, rs1, rs2, 0x50⟩
  | .fcvtSBf16 rd rs1 rm => some ⟨0x53, rd, rm, rs1, 6, 0x20⟩
  | .fcvtBf16S rd rs1 rm => some ⟨0x53, rd, rm, rs1, 8, 0x22⟩
  | .fmvXH rd rs1 => some ⟨0x53, rd, 0, rs1, 0, 0x72⟩
  | .fmvHX rd rs1 => some ⟨0x53, rd, 0, rs1, 0, 0x7a⟩
  | .loop rs1 imm => some (encI 0x0b 0 0 rs1 imm)
  | .loopi c imm => some (encI 0x0b 1 (c.extractLsb' 0 5) (c.extractLsb' 5 5) imm)
  | .lbrk rs1 n => some (encI 0x0b 2 0 rs1 n)
  | .yield => some (encI 0x0b 3 0 0 0)
  | .widf rd i => some (encI 0x0b 4 rd 0 ((0 : BitVec 9) ++ i))
  | .widfExt rd i => some (encI 0x0b 4 rd 0 ((1 : BitVec 9) ++ i))
  | .widfLvl rd i => some (encI 0x0b 4 rd 0 ((2 : BitVec 9) ++ i))
  | _ => none

/-- The candidate of major 0x63 (spec 05 R119, 06 R138). -/
def candBranch (f : F32) : Option Instr :=
  match f.f3.toNat with
  | 0 => some (.beq f.rs1 f.rs2 f.immB)
  | 1 => some (.bne f.rs1 f.rs2 f.immB)
  | 4 => some (.blt f.rs1 f.rs2 f.immB)
  | 5 => some (.bge f.rs1 f.rs2 f.immB)
  | 6 => some (.bltu f.rs1 f.rs2 f.immB)
  | 7 => some (.bgeu f.rs1 f.rs2 f.immB)
  | _ => none

/-- The candidate of major 0x03 (spec 05 R119, 06 R138). -/
def candLoad (f : F32) : Option Instr :=
  match f.f3.toNat with
  | 0 => some (.lb f.rd f.rs1 f.immI)
  | 1 => some (.lh f.rd f.rs1 f.immI)
  | 2 => some (.lw f.rd f.rs1 f.immI)
  | 3 => some (.ld f.rd f.rs1 f.immI)
  | 4 => some (.lbu f.rd f.rs1 f.immI)
  | 5 => some (.lhu f.rd f.rs1 f.immI)
  | 6 => some (.lwu f.rd f.rs1 f.immI)
  | _ => none

/-- The candidate of major 0x23 (spec 05 R119, 06 R138). -/
def candStore (f : F32) : Option Instr :=
  match f.f3.toNat with
  | 0 => some (.sb f.rs1 f.rs2 f.immS)
  | 1 => some (.sh f.rs1 f.rs2 f.immS)
  | 2 => some (.sw f.rs1 f.rs2 f.immS)
  | 3 => some (.sd f.rs1 f.rs2 f.immS)
  | _ => none

/-- The candidate of major 0x13 (spec 05 R119, 06 R138). -/
def candOpImm (f : F32) : Option Instr :=
  match f.f3.toNat with
  | 0 => some (.addi f.rd f.rs1 f.immI)
  | 2 => some (.slti f.rd f.rs1 f.immI)
  | 3 => some (.sltiu f.rd f.rs1 f.immI)
  | 4 => some (.xori f.rd f.rs1 f.immI)
  | 6 => some (.ori f.rd f.rs1 f.immI)
  | 7 => some (.andi f.rd f.rs1 f.immI)
  | 1 => some (.slli f.rd f.rs1 (f.immI.extractLsb' 0 6))
  | 5 => some (if f.f7.getLsbD 5 then .srai f.rd f.rs1 (f.immI.extractLsb' 0 6) else .srli f.rd f.rs1 (f.immI.extractLsb' 0 6))
  | _ => none

/-- The candidate of major 0x33 (spec 05 R119, 06 R138). -/
def candOp (f : F32) : Option Instr :=
  match f.f7.toNat, f.f3.toNat with
  | 0x00, 0 => some (.add f.rd f.rs1 f.rs2)
  | 0x20, 0 => some (.sub f.rd f.rs1 f.rs2)
  | 0x00, 1 => some (.sll f.rd f.rs1 f.rs2)
  | 0x00, 2 => some (.slt f.rd f.rs1 f.rs2)
  | 0x00, 3 => some (.sltu f.rd f.rs1 f.rs2)
  | 0x00, 4 => some (.xor f.rd f.rs1 f.rs2)
  | 0x00, 5 => some (.srl f.rd f.rs1 f.rs2)
  | 0x20, 5 => some (.sra f.rd f.rs1 f.rs2)
  | 0x00, 6 => some (.or f.rd f.rs1 f.rs2)
  | 0x00, 7 => some (.and f.rd f.rs1 f.rs2)
  | 0x01, 0 => some (.mul f.rd f.rs1 f.rs2)
  | 0x01, 1 => some (.mulh f.rd f.rs1 f.rs2)
  | 0x01, 2 => some (.mulhsu f.rd f.rs1 f.rs2)
  | 0x01, 3 => some (.mulhu f.rd f.rs1 f.rs2)
  | 0x01, 4 => some (.div f.rd f.rs1 f.rs2)
  | 0x01, 5 => some (.divu f.rd f.rs1 f.rs2)
  | 0x01, 6 => some (.rem f.rd f.rs1 f.rs2)
  | 0x01, 7 => some (.remu f.rd f.rs1 f.rs2)
  | _, _ => none

/-- The candidate of major 0x1b (spec 05 R119, 06 R138). -/
def candOpImm32 (f : F32) : Option Instr :=
  match f.f3.toNat with
  | 0 => some (.addiw f.rd f.rs1 f.immI)
  | 1 => some (.slliw f.rd f.rs1 f.rs2)
  | 5 => some (if f.f7.getLsbD 5 then .sraiw f.rd f.rs1 f.rs2 else .srliw f.rd f.rs1 f.rs2)
  | _ => none

/-- The candidate of major 0x3b (spec 05 R119, 06 R138). -/
def candOp32 (f : F32) : Option Instr :=
  match f.f7.toNat, f.f3.toNat with
  | 0x00, 0 => some (.addw f.rd f.rs1 f.rs2)
  | 0x20, 0 => some (.subw f.rd f.rs1 f.rs2)
  | 0x00, 1 => some (.sllw f.rd f.rs1 f.rs2)
  | 0x00, 5 => some (.srlw f.rd f.rs1 f.rs2)
  | 0x20, 5 => some (.sraw f.rd f.rs1 f.rs2)
  | 0x01, 0 => some (.mulw f.rd f.rs1 f.rs2)
  | 0x01, 4 => some (.divw f.rd f.rs1 f.rs2)
  | 0x01, 5 => some (.divuw f.rd f.rs1 f.rs2)
  | 0x01, 6 => some (.remw f.rd f.rs1 f.rs2)
  | 0x01, 7 => some (.remuw f.rd f.rs1 f.rs2)
  | _, _ => none

/-- The candidate of major 0x0f (spec 05 R119, 06 R138). -/
def candMiscMem (f : F32) : Option Instr :=
  match f.f3.toNat with
  | 0 => some (if f.pack = 0x0100000F then .pause else if f.f7.extractLsb' 3 4 = 8 then .fenceTso (f.immI.extractLsb' 4 4) (f.immI.extractLsb' 0 4) f.rs1 f.rd else .fence (f.f7.extractLsb' 3 4) (f.immI.extractLsb' 4 4) (f.immI.extractLsb' 0 4) f.rs1 f.rd)
  | 1 => some (.fenceI f.rd f.rs1 f.immI)
  | _ => none

/-- The candidate of major 0x73 (spec 05 R119, 06 R138). -/
def candSystem (f : F32) : Option Instr :=
  match f.f3.toNat with
  | 0 => some (if f.immI = 1 then .ebreak else .ecall)
  | 1 => some (.csrrw f.rd f.rs1 f.immI)
  | 2 => some (.csrrs f.rd f.rs1 f.immI)
  | 3 => some (.csrrc f.rd f.rs1 f.immI)
  | 5 => some (.csrrwi f.rd f.rs1 f.immI)
  | 6 => some (.csrrsi f.rd f.rs1 f.immI)
  | 7 => some (.csrrci f.rd f.rs1 f.immI)
  | _ => none

/-- The candidate of major 0x2f (spec 05 R119, 06 R138). -/
def candAmo (f : F32) : Option Instr :=
  match (f.f7.extractLsb' 2 5).toNat, f.f3.toNat with
  | 2, 2 => some (.lrW f.rd f.rs1 f.aq f.rl)
  | 3, 2 => some (.scW f.rd f.rs1 f.rs2 f.aq f.rl)
  | 1, 2 => some (.amoswapW f.rd f.rs1 f.rs2 f.aq f.rl)
  | 0, 2 => some (.amoaddW f.rd f.rs1 f.rs2 f.aq f.rl)
  | 4, 2 => some (.amoxorW f.rd f.rs1 f.rs2 f.aq f.rl)
  | 12, 2 => some (.amoandW f.rd f.rs1 f.rs2 f.aq f.rl)
  | 8, 2 => some (.amoorW f.rd f.rs1 f.rs2 f.aq f.rl)
  | 16, 2 => some (.amominW f.rd f.rs1 f.rs2 f.aq f.rl)
  | 20, 2 => some (.amomaxW f.rd f.rs1 f.rs2 f.aq f.rl)
  | 24, 2 => some (.amominuW f.rd f.rs1 f.rs2 f.aq f.rl)
  | 28, 2 => some (.amomaxuW f.rd f.rs1 f.rs2 f.aq f.rl)
  | 2, 3 => some (.lrD f.rd f.rs1 f.aq f.rl)
  | 3, 3 => some (.scD f.rd f.rs1 f.rs2 f.aq f.rl)
  | 1, 3 => some (.amoswapD f.rd f.rs1 f.rs2 f.aq f.rl)
  | 0, 3 => some (.amoaddD f.rd f.rs1 f.rs2 f.aq f.rl)
  | 4, 3 => some (.amoxorD f.rd f.rs1 f.rs2 f.aq f.rl)
  | 12, 3 => some (.amoandD f.rd f.rs1 f.rs2 f.aq f.rl)
  | 8, 3 => some (.amoorD f.rd f.rs1 f.rs2 f.aq f.rl)
  | 16, 3 => some (.amominD f.rd f.rs1 f.rs2 f.aq f.rl)
  | 20, 3 => some (.amomaxD f.rd f.rs1 f.rs2 f.aq f.rl)
  | 24, 3 => some (.amominuD f.rd f.rs1 f.rs2 f.aq f.rl)
  | 28, 3 => some (.amomaxuD f.rd f.rs1 f.rs2 f.aq f.rl)
  | _, _ => none

/-- The candidate of major 0x07 (spec 05 R119, 06 R138). -/
def candLoadFp (f : F32) : Option Instr :=
  match f.f3.toNat with
  | 2 => some (.flw f.rd f.rs1 f.immI)
  | 1 => some (.flh f.rd f.rs1 f.immI)
  | _ => none

/-- The candidate of major 0x27 (spec 05 R119, 06 R138). -/
def candStoreFp (f : F32) : Option Instr :=
  match f.f3.toNat with
  | 2 => some (.fsw f.rs1 f.rs2 f.immS)
  | 1 => some (.fsh f.rs1 f.rs2 f.immS)
  | _ => none

/-- The candidate of major 0x53 (spec 05 R119, 06 R138). -/
def candOpFp (f : F32) : Option Instr :=
  match f.f7.toNat with
  | 0x00 => some (.faddS f.rd f.rs1 f.rs2 f.f3)
  | 0x04 => some (.fsubS f.rd f.rs1 f.rs2 f.f3)
  | 0x08 => some (.fmulS f.rd f.rs1 f.rs2 f.f3)
  | 0x0c => some (.fdivS f.rd f.rs1 f.rs2 f.f3)
  | 0x2c => some (.fsqrtS f.rd f.rs1 f.f3)
  | 0x10 =>
    match f.f3.toNat with
    | 0 => some (.fsgnjS f.rd f.rs1 f.rs2)
    | 1 => some (.fsgnjnS f.rd f.rs1 f.rs2)
    | 2 => some (.fsgnjxS f.rd f.rs1 f.rs2)
    | _ => none
  | 0x14 =>
    match f.f3.toNat with
    | 0 => some (.fminS f.rd f.rs1 f.rs2)
    | 1 => some (.fmaxS f.rd f.rs1 f.rs2)
    | _ => none
  | 0x60 =>
    match f.rs2.toNat with
    | 0 => some (.fcvtWS f.rd f.rs1 f.f3)
    | 1 => some (.fcvtWuS f.rd f.rs1 f.f3)
    | 2 => some (.fcvtLS f.rd f.rs1 f.f3)
    | 3 => some (.fcvtLuS f.rd f.rs1 f.f3)
    | _ => none
  | 0x68 =>
    match f.rs2.toNat with
    | 0 => some (.fcvtSW f.rd f.rs1 f.f3)
    | 1 => some (.fcvtSWu f.rd f.rs1 f.f3)
    | 2 => some (.fcvtSL f.rd f.rs1 f.f3)
    | 3 => some (.fcvtSLu f.rd f.rs1 f.f3)
    | _ => none
  | 0x70 =>
    match f.f3.toNat with
    | 0 => some (.fmvXW f.rd f.rs1)
    | 1 => some (.fclassS f.rd f.rs1)
    | _ => none
  | 0x78 => some (.fmvWX f.rd f.rs1)
  | 0x50 =>
    match f.f3.toNat with
    | 2 => some (.feqS f.rd f.rs1 f.rs2)
    | 1 => some (.fltS f.rd f.rs1 f.rs2)
    | 0 => some (.fleS f.rd f.rs1 f.rs2)
    | _ => none
  | 0x20 => some (.fcvtSBf16 f.rd f.rs1 f.f3)
  | 0x22 => some (.fcvtBf16S f.rd f.rs1 f.f3)
  | 0x72 => some (.fmvXH f.rd f.rs1)
  | 0x7a => some (.fmvHX f.rd f.rs1)
  | _ => none

/-- The candidate of major 0x0b (spec 05 R119, 06 R138). -/
def candCustom0 (f : F32) : Option Instr :=
  match f.f3.toNat with
  | 0 => some (.loop f.rs1 f.immI)
  | 1 => some (.loopi (f.rs1 ++ f.rd) f.immI)
  | 2 => some (.lbrk f.rs1 f.immI)
  | 3 => some (.yield)
  | 4 => some (if f.immI.extractLsb' 3 2 = 0 then .widf f.rd (f.immI.extractLsb' 0 3) else if f.immI.extractLsb' 3 2 = 1 then .widfExt f.rd (f.immI.extractLsb' 0 3) else .widfLvl f.rd (f.immI.extractLsb' 0 3))
  | _ => none

/-- The one instruction a 32-bit parcel can be, by its major opcode (spec 05 R119). -/
def cand32 (f : F32) : Option Instr :=
  match f.op.toNat with
  | 0x37 => some (.lui f.rd f.immU)
  | 0x17 => some (.auipc f.rd f.immU)
  | 0x6f => some (.jal f.rd f.immJ)
  | 0x67 => some (.jalr f.rd f.rs1 f.immI)
  | 0x63 => candBranch f
  | 0x03 => candLoad f
  | 0x23 => candStore f
  | 0x13 => candOpImm f
  | 0x33 => candOp f
  | 0x1b => candOpImm32 f
  | 0x3b => candOp32 f
  | 0x0f => candMiscMem f
  | 0x73 => candSystem f
  | 0x2f => candAmo f
  | 0x07 => candLoadFp f
  | 0x27 => candStoreFp f
  | 0x43 => some (.fmaddS f.rd f.rs1 f.rs2 (f.f7.extractLsb' 2 5) f.f3)
  | 0x47 => some (.fmsubS f.rd f.rs1 f.rs2 (f.f7.extractLsb' 2 5) f.f3)
  | 0x4b => some (.fnmsubS f.rd f.rs1 f.rs2 (f.f7.extractLsb' 2 5) f.f3)
  | 0x4f => some (.fnmaddS f.rd f.rs1 f.rs2 (f.f7.extractLsb' 2 5) f.f3)
  | 0x53 => candOpFp f
  | 0x0b => candCustom0 f
  | _ => none

/-! ### Q64 (spec 05 R121) -/

/-- The fields of a Q64 instruction, without its length code (spec 05 R121). -/
structure Q64 where
  imm : BitVec 16 := 0
  fn : BitVec 6 := 0
  t : BitVec 5 := 0
  n : Bool := false
  k : BitVec 3 := 0
  c : Reg := 0
  b : Reg := 0
  a : Reg := 0
  d : Reg := 0
  major : BitVec 6
deriving DecidableEq, Repr

/-- Put the fields together: bits [31:0] are the parcel at pc (spec 05 R121). -/
def Q64.pack (q : Q64) : Word :=
  q.imm ++ q.fn ++ q.t ++ bit1 q.n ++ q.k ++ q.c ++ q.b ++ q.a ++ q.d ++ q.major ++ (0x3F : BitVec 7)

/-- Take the fields apart. -/
def Q64.unpack (w : Word) : Q64 :=
  { imm := w.extractLsb' 48 16, fn := w.extractLsb' 42 6, t := w.extractLsb' 37 5, n := w.getLsbD 36, k := w.extractLsb' 33 3,
    c := w.extractLsb' 28 5, b := w.extractLsb' 23 5, a := w.extractLsb' 18 5, d := w.extractLsb' 13 5, major := w.extractLsb' 7 6 }

/-- A mask register in a register field. -/
def mreg (m : MReg) : Reg := (0 : BitVec 2) ++ m

/-- A tile in a register field. -/
def treg (t : Tile) : Reg := (0 : BitVec 3) ++ t

/-- The mask register a register field names. -/
def Q64.mOf (r : Reg) : MReg := r.extractLsb' 0 3

/-- The tile a register field names. -/
def Q64.tOf (r : Reg) : Tile := r.extractLsb' 0 2

/-- The predicate fields. -/
def Q64.p (q : Q64) : Pred := ⟨q.k, q.n⟩

/-- Bit `i` of the immediate. -/
def Q64.ib (q : Q64) (i : Nat) : Bool := q.imm.getLsbD i

/-- A one-bit immediate. -/
def immBit (b : Bool) : BitVec 16 := (0 : BitVec 15) ++ bit1 b

/-- A vector or mask operation's fields. -/
def qv (major fn : BitVec 6) (t : BitVec 5) (p : Pred) (d a b c : Reg) (imm : BitVec 16) : Q64 :=
  { imm, fn, t, n := p.n, k := p.k, c, b, a, d, major }

/-- A synchronisation or system operation's fields: no type, no mask. -/
def qs (major fn : BitVec 6) (d a b c : Reg) (imm : BitVec 16) : Q64 := { imm, fn, c, b, a, d, major }

/-- MDRAIN's immediate: [14] SI, [13] TM, [12:10] msat, [9:6] NR − 1, [5:0] FR (spec 11 R272). -/
def Drain.imm (f : Drain) : BitVec 16 := (0 : BitVec 1) ++ bit1 f.si ++ bit1 f.tm ++ f.msat ++ f.nrm1 ++ f.fr

/-- MDRAIN's fields. -/
def Drain.q (fn : BitVec 6) (f : Drain) (c : Reg) : Q64 := qv 0x13 fn f.t.code f.p (treg f.d) f.a f.b c f.imm

/-- MROW's immediate: [5:0] index, [6] XR, [7] COL (spec 11 R275). -/
def rowImm (ix : RowIx) (col : Bool) : BitVec 16 :=
  match ix with
  | .imm i => (0 : BitVec 8) ++ bit1 col ++ (0 : BitVec 1) ++ i
  | .reg _ => (0 : BitVec 8) ++ bit1 col ++ (1 : BitVec 1) ++ (0 : BitVec 6)

/-- MROW's index register field. -/
def rowReg : RowIx → Reg
  | .imm _ => 0
  | .reg x => x

/-- TCOPY's immediate: [6:4] SCOPE, [3] ORD, [2] DIR, [1:0] ACT (spec 10 R233). -/
def copyImm (sc : BitVec 3) (ord dir : Bool) (act : BitVec 2) : BitVec 16 :=
  (0 : BitVec 9) ++ sc ++ bit1 ord ++ bit1 dir ++ act

/-- TCOPY's fields by its action (spec 10 R233). -/
def copyQ (a b : Reg) (act : CopyAct) (ord dir : Bool) : Q64 :=
  match act with
  | .none c => qs 0x18 0 0 a b c (copyImm 0 ord dir 0)
  | .signal c d sc => qs 0x18 0 d a b c (copyImm sc.code ord dir 1)
  | .waggle c d sc => qs 0x18 0 d a b c (copyImm sc.code ord dir 2)
  | .frame d sc => qs 0x18 0 d a b 0 (copyImm sc.code ord dir 3)

/-- QAMO's fields (spec 14 R311). -/
def amoQ (fn : BitVec 6) (d a b c : Reg) (word acq rel : Bool) (sc : Scope) : Q64 :=
  { imm := (0 : BitVec 11) ++ bit1 rel ++ bit1 acq ++ sc.code, fn, t := if word then 0x0C else 0, c, b, a, d, major := 0x21 }

/-- FEW's fields (spec 14 R320). -/
def fewQ (fn : BitVec 6) (d a b c : Reg) (flag : Bool) (off : BitVec 12) : Q64 :=
  qs 0x24 fn d a b c ((0 : BitVec 3) ++ bit1 flag ++ off)

/-- The action the fields of a TCOPY name (spec 10 R233). -/
def Q64.copyAct (q : Q64) : Option CopyAct := do
  match (q.imm.extractLsb' 0 2).toNat with
  | 0 => some (.none q.c)
  | 1 => some (.signal q.c q.d (← Scope.ofCode (q.imm.extractLsb' 4 3)))
  | 2 => some (.waggle q.c q.d (← Scope.ofCode (q.imm.extractLsb' 4 3)))
  | _ => some (.frame q.d (← Scope.ofCode (q.imm.extractLsb' 4 3)))

/-- The fields of a Q64 instruction (spec 05 R121 to R126 and each instruction's entry). -/
def encodeQ : Instr → Option Q64
  | .vintVadd d a b xs p t => some (qv 0x01 0x00 t.code p d a b 0 (immBit xs))
  | .vintVsub d a b xs p t => some (qv 0x01 0x01 t.code p d a b 0 (immBit xs))
  | .vintVmul d a b xs p t => some (qv 0x01 0x02 t.code p d a b 0 (immBit xs))
  | .vmulh d a b xs p t => some (qv 0x01 0x03 t.code p d a b 0 (immBit xs))
  | .vintVmin d a b xs p t => some (qv 0x01 0x04 t.code p d a b 0 (immBit xs))
  | .vintVmax d a b xs p t => some (qv 0x01 0x05 t.code p d a b 0 (immBit xs))
  | .vminu d a b xs p t => some (qv 0x01 0x06 t.code p d a b 0 (immBit xs))
  | .vmaxu d a b xs p t => some (qv 0x01 0x07 t.code p d a b 0 (immBit xs))
  | .vand d a b xs p t => some (qv 0x01 0x08 t.code p d a b 0 (immBit xs))
  | .vor d a b xs p t => some (qv 0x01 0x09 t.code p d a b 0 (immBit xs))
  | .vxor d a b xs p t => some (qv 0x01 0x0a t.code p d a b 0 (immBit xs))
  | .vsll d a b xs p t => some (qv 0x01 0x0b t.code p d a b 0 (immBit xs))
  | .vsrl d a b xs p t => some (qv 0x01 0x0c t.code p d a b 0 (immBit xs))
  | .vsra d a b xs p t => some (qv 0x01 0x0d t.code p d a b 0 (immBit xs))
  | .vintVabs d a p t => some (qv 0x01 0x0e t.code p d a 0 0 0)
  | .vintVneg d a p t => some (qv 0x01 0x0f t.code p d a 0 0 0)
  | .vsadd d a b xs p t => some (qv 0x01 0x10 t.code p d a b 0 (immBit xs))
  | .vssub d a b xs p t => some (qv 0x01 0x11 t.code p d a b 0 (immBit xs))
  | .vfltVadd d a b xs p t => some (qv 0x02 0x00 t.code p d a b 0 (immBit xs))
  | .vfltVsub d a b xs p t => some (qv 0x02 0x01 t.code p d a b 0 (immBit xs))
  | .vfltVmul d a b xs p t => some (qv 0x02 0x02 t.code p d a b 0 (immBit xs))
  | .vfltVmin d a b xs p t => some (qv 0x02 0x06 t.code p d a b 0 (immBit xs))
  | .vfltVmax d a b xs p t => some (qv 0x02 0x07 t.code p d a b 0 (immBit xs))
  | .vdiv d a b xs p t => some (qv 0x02 0x0a t.code p d a b 0 (immBit xs))
  | .vsgnj d a b xs p t => some (qv 0x02 0x10 t.code p d a b 0 (immBit xs))
  | .vfma d a b c xs p t => some (qv 0x02 0x03 t.code p d a b c (immBit xs))
  | .vfms d a b c xs p t => some (qv 0x02 0x04 t.code p d a b c (immBit xs))
  | .vfnma d a b c xs p t => some (qv 0x02 0x05 t.code p d a b c (immBit xs))
  | .vfltVabs d a p t => some (qv 0x02 0x08 t.code p d a 0 0 0)
  | .vfltVneg d a p t => some (qv 0x02 0x09 t.code p d a 0 0 0)
  | .vsqrt d a p t => some (qv 0x02 0x0b t.code p d a 0 0 0)
  | .vrcp d a p t => some (qv 0x02 0x0c t.code p d a 0 0 0)
  | .vrsqrt d a p t => some (qv 0x02 0x0d t.code p d a 0 0 0)
  | .vexp2 d a p t => some (qv 0x02 0x0e t.code p d a 0 0 0)
  | .vlog2 d a p t => some (qv 0x02 0x0f t.code p d a 0 0 0)
  | .vcmpeq d a b xs p t => some (qv 0x03 0x00 t.code p (mreg d) a b 0 (immBit xs))
  | .vcmpne d a b xs p t => some (qv 0x03 0x01 t.code p (mreg d) a b 0 (immBit xs))
  | .vcmplt d a b xs p t => some (qv 0x03 0x02 t.code p (mreg d) a b 0 (immBit xs))
  | .vcmple d a b xs p t => some (qv 0x03 0x03 t.code p (mreg d) a b 0 (immBit xs))
  | .vcmpgt d a b xs p t => some (qv 0x03 0x04 t.code p (mreg d) a b 0 (immBit xs))
  | .vcmpge d a b xs p t => some (qv 0x03 0x05 t.code p (mreg d) a b 0 (immBit xs))
  | .mand d a b all p => some (qv 0x04 0x00 0 p (mreg d) (mreg a) (mreg b) 0 (immBit all))
  | .mor d a b all p => some (qv 0x04 0x01 0 p (mreg d) (mreg a) (mreg b) 0 (immBit all))
  | .mxor d a b all p => some (qv 0x04 0x02 0 p (mreg d) (mreg a) (mreg b) 0 (immBit all))
  | .mandn d a b all p => some (qv 0x04 0x03 0 p (mreg d) (mreg a) (mreg b) 0 (immBit all))
  | .mnot d a all p => some (qv 0x04 0x04 0 p (mreg d) (mreg a) 0 0 (immBit all))
  | .mpop d a all p => some (qv 0x04 0x05 0 p d (mreg a) 0 0 (immBit all))
  | .mfirst d a all p => some (qv 0x04 0x06 0 p d (mreg a) 0 0 (immBit all))
  | .mset d all p => some (qv 0x04 0x07 0 p (mreg d) 0 0 0 (immBit all))
  | .mclr d all p => some (qv 0x04 0x08 0 p (mreg d) 0 0 0 (immBit all))
  | .vslideup d a b p t => some (qv 0x05 0x00 t.code p d a b 0 0)
  | .vslidedn d a b p t => some (qv 0x05 0x01 t.code p d a b 0 0)
  | .vperm d a b p t => some (qv 0x05 0x03 t.code p d a b 0 0)
  | .vsel d a b p t => some (qv 0x05 0x08 t.code p d a b 0 0)
  | .vbcast d a p t => some (qv 0x05 0x02 t.code p d a 0 0 0)
  | .vcompress d a p t => some (qv 0x05 0x09 t.code p d a 0 0 0)
  | .vmvXv d a ix t => some (qv 0x05 0x04 t.code Pred.all d a 0 0 ((0 : BitVec 6) ++ ix))
  | .vmvVx d a ix t => some (qv 0x05 0x05 t.code Pred.all d a 0 0 ((0 : BitVec 6) ++ ix))
  | .vmvFv d a ix t => some (qv 0x05 0x06 t.code Pred.all d a 0 0 ((0 : BitVec 6) ++ ix))
  | .vmvVf d a ix t => some (qv 0x05 0x07 t.code Pred.all d a 0 0 ((0 : BitVec 6) ++ ix))
  | .vredsum d a ix p t => some (qv 0x06 0x00 t.code p d a 0 0 ((0 : BitVec 12) ++ ix))
  | .vredmax d a ix p t => some (qv 0x06 0x01 t.code p d a 0 0 ((0 : BitVec 12) ++ ix))
  | .vredmin d a ix p t => some (qv 0x06 0x02 t.code p d a 0 0 ((0 : BitVec 12) ++ ix))
  | .vredamax d a tm ix p t => some (qv 0x06 0x03 t.code p d a 0 0 ((0 : BitVec 10) ++ BitVec.ofBool tm ++ (0 : BitVec 1) ++ ix))
  | .vcvt d a c p dst src => some (qv 0x07 0x00 dst.code p d a 0 (mreg c) ((0 : BitVec 11) ++ src.code))
  | .vsrnd d a b c w p dst src => some (qv 0x07 0x01 dst.code p d a b (mreg c) ((0 : BitVec 5) ++ w ++ src.code))
  | .vqnt d a none c src => some (qv 0x07 0x02 Ty.e2m1.code Pred.all d a 0 (mreg c) ((0 : BitVec 4) ++ (1 : BitVec 1) ++ (0 : BitVec 6) ++ src.code))
  | .vqnt d a (some b) c src => some (qv 0x07 0x02 Ty.e2m1.code Pred.all d a b (mreg c) ((0 : BitVec 11) ++ src.code))
  | .vld d a imm p t => some (qv 0x08 0x00 t.code p d a 0 0 imm)
  | .vlds d a b imm p t => some (qv 0x08 0x01 t.code p d a b 0 imm)
  | .vld2d d a b n p t => some (qv 0x08 0x02 t.code p d a b 0 ((0 : BitVec 6) ++ n))
  | .vldx d a b p t => some (qv 0x08 0x03 t.code p d a b 0 0)
  | .vst c a imm p t => some (qv 0x09 0x00 t.code p 0 a 0 c imm)
  | .vsts c a b imm p t => some (qv 0x09 0x01 t.code p 0 a b c imm)
  | .vstx c a b none p t => some (qv 0x09 0x02 t.code p 0 a b c 0)
  | .vstx c a b (some m) p t => some (qv 0x09 0x02 t.code p (mreg m) a b c 1)
  | .vsetvl d a t => some (qv 0x0A 0x00 t.code Pred.all d a 0 0 0)
  | .vsetvlw d a b c limit full t => some (qv 0x0A 0x01 t.code Pred.all d a b c (bit1 full ++ limit))
  | .vgrp g => some (qv 0x0A 0x02 0 Pred.all 0 0 0 0 ((0 : BitVec 14) ++ g))
  | .mop1 d a b c p pair => some (qv 0x10 0 pair.code p (treg d) a b c 0)
  | .mopa d a b c km1 ocs p pair => some (qv 0x11 0 pair.code p (treg d) a b c ((0 : BitVec 3) ++ bit1 ocs ++ km1))
  | .mzero d p => some (qv 0x12 0x00 0 p (treg d) 0 0 0 0)
  | .mrel => some (qs 0x12 0x01 0 0 0 0 0)
  | .mrelDiscard => some (qs 0x12 0x01 0 0 0 0 1)
  | .mdrain f => some (f.q 0x00 0)
  | .mdrainRow f c => some (f.q 0x01 c)
  | .mdrainDly f c => some (f.q 0x02 c)
  | .mrowRd d a ix col p t => some (qv 0x14 0x00 t.code p d (treg a) (rowReg ix) 0 (rowImm ix col))
  | .mrowWr d a ix col p t => some (qv 0x14 0x01 t.code p (treg d) a (rowReg ix) 0 (rowImm ix col))
  | .amxrd d i => some (qs 0x15 0x00 d 0 0 0 ((0 : BitVec 12) ++ i))
  | .amxswp d i => some (qs 0x15 0x01 d 0 0 0 ((0 : BitVec 12) ++ i))
  | .amxmax a i => some (qs 0x15 0x02 0 a 0 0 ((0 : BitVec 12) ++ i))
  | .tcopy a b act ord => some (copyQ a b act ord false)
  | .tcopySt a b act ord => some (copyQ a b act ord true)
  | .tcopyMc a b c d none ord => some (qs 0x18 1 d a b c (copyImm 0 ord false 0))
  | .tcopyMc a b c d (some sc) ord => some (qs 0x18 1 d a b c (copyImm sc.code ord false 1))
  | .frminit a b => some (qs 0x19 0x00 0 a b 0 0)
  | .frmwait d a limit => some (qs 0x19 0x01 d a 0 0 ((0 : BitVec 1) ++ limit))
  | .frmfree a => some (qs 0x19 0x02 0 a 0 0 0)
  | .qfence r w e sc => some (qs 0x20 0 0 0 0 0 ((0 : BitVec 10) ++ bit1 e ++ bit1 w ++ bit1 r ++ sc.code))
  | .qamoadd d a b word acq rel sc => some (amoQ 0x00 d a b 0 word acq rel sc)
  | .qamoand d a b word acq rel sc => some (amoQ 0x01 d a b 0 word acq rel sc)
  | .qamoor d a b word acq rel sc => some (amoQ 0x02 d a b 0 word acq rel sc)
  | .qamoxor d a b word acq rel sc => some (amoQ 0x03 d a b 0 word acq rel sc)
  | .qamomin d a b word acq rel sc => some (amoQ 0x04 d a b 0 word acq rel sc)
  | .qamomax d a b word acq rel sc => some (amoQ 0x05 d a b 0 word acq rel sc)
  | .qamominu d a b word acq rel sc => some (amoQ 0x06 d a b 0 word acq rel sc)
  | .qamomaxu d a b word acq rel sc => some (amoQ 0x07 d a b 0 word acq rel sc)
  | .qamoswap d a b word acq rel sc => some (amoQ 0x08 d a b 0 word acq rel sc)
  | .qamocas d a b c word acq rel sc => some (amoQ 0x09 d a b c word acq rel sc)
  | .ssig a b sc => some (qs 0x22 0x00 0 a b 0 ((0 : BitVec 13) ++ sc.code))
  | .sset a b sc => some (qs 0x22 0x01 0 a b 0 ((0 : BitVec 13) ++ sc.code))
  | .swait d a b c cond sc => some (qs 0x22 0x02 d a b c ((0 : BitVec 10) ++ cond.code ++ sc.code))
  | .bar level limit => some (qs 0x23 0 0 0 0 0 (limit ++ level.code))
  | .ldfe d a c off => some (fewQ 0x00 d a 0 c false off)
  | .ldfeK d a c off => some (fewQ 0x00 d a 0 c true off)
  | .stfe a b off => some (fewQ 0x01 0 a b 0 false off)
  | .stfeF a b off => some (fewQ 0x01 0 a b 0 true off)
  | .feprobe d a off => some (fewQ 0x02 d a 0 0 false off)
  | .fesetE a off => some (fewQ 0x03 0 a 0 0 false off)
  | .fesetF a off => some (fewQ 0x03 0 a 0 0 true off)
  | .wgsend a b c limit => some (qs 0x25 0x00 0 a b c ((0 : BitVec 1) ++ limit))
  | .wgrecv d limit => some (qs 0x25 0x01 d 0 0 0 ((0 : BitVec 1) ++ limit))
  | .wgpeek d => some (qs 0x25 0x02 d 0 0 0 0)
  | .launch d a b => some (qs 0x28 0 d a b 0 0)
  | .launchNb d a b => some (qs 0x28 0 d a b 0 1)
  | .retire => some (qs 0x29 0x00 0 0 0 0 0)
  | .retireH a => some (qs 0x29 0x01 0 a 0 0 0)
  | .bfork d a => some (qs 0x2B 0x00 d a 0 0 0)
  | .bjoin a => some (qs 0x2B 0x01 0 a 0 0 0)
  | .bjoinW d a => some (qs 0x2B 0x01 d a 0 0 1)
  | .bjoinAb => some (qs 0x2B 0x01 0 0 0 0 2)
  | .bjoinAbW d => some (qs 0x2B 0x01 d 0 0 0 3)
  | .bkill d a b => some (qs 0x2B 0x02 d a b 0 0)
  | .bkillAll d a => some (qs 0x2B 0x02 d a 0 0 1)
  | .bstat d a => some (qs 0x2B 0x03 d a 0 0 0)
  | .bstatSib d a b => some (qs 0x2B 0x03 d a b 0 1)
  | .tret => some (qs 0x30 0x00 0 0 0 0 0)
  | .traise a => some (qs 0x30 0x01 0 a 0 0 0)
  | .msave d a => some (qs 0x30 0x02 (treg d) a 0 0 0)
  | .mrstr d a => some (qs 0x30 0x03 (treg d) a 0 0 0)
  | .icinv a b => some (qs 0x30 0x04 0 a b 0 0)
  | _ => none

/-! From here on the definitions build instructions past the 245th constructor, which the compiler cannot lay out (a limit of
its runtime on constructor numbers, not of the kernel): they are marked noncomputable and evaluate in the kernel. -/

noncomputable section

/-- The candidate of major 0x01, group VINT (spec 05 R123). -/
def candVint (q : Q64) : Option Instr := do
  match q.fn.toNat with
  | 0x00 => some (.vintVadd q.d q.a q.b (q.ib 0) q.p (← Ty.ofCode q.t))
  | 0x01 => some (.vintVsub q.d q.a q.b (q.ib 0) q.p (← Ty.ofCode q.t))
  | 0x02 => some (.vintVmul q.d q.a q.b (q.ib 0) q.p (← Ty.ofCode q.t))
  | 0x03 => some (.vmulh q.d q.a q.b (q.ib 0) q.p (← Ty.ofCode q.t))
  | 0x04 => some (.vintVmin q.d q.a q.b (q.ib 0) q.p (← Ty.ofCode q.t))
  | 0x05 => some (.vintVmax q.d q.a q.b (q.ib 0) q.p (← Ty.ofCode q.t))
  | 0x06 => some (.vminu q.d q.a q.b (q.ib 0) q.p (← Ty.ofCode q.t))
  | 0x07 => some (.vmaxu q.d q.a q.b (q.ib 0) q.p (← Ty.ofCode q.t))
  | 0x08 => some (.vand q.d q.a q.b (q.ib 0) q.p (← Ty.ofCode q.t))
  | 0x09 => some (.vor q.d q.a q.b (q.ib 0) q.p (← Ty.ofCode q.t))
  | 0x0a => some (.vxor q.d q.a q.b (q.ib 0) q.p (← Ty.ofCode q.t))
  | 0x0b => some (.vsll q.d q.a q.b (q.ib 0) q.p (← Ty.ofCode q.t))
  | 0x0c => some (.vsrl q.d q.a q.b (q.ib 0) q.p (← Ty.ofCode q.t))
  | 0x0d => some (.vsra q.d q.a q.b (q.ib 0) q.p (← Ty.ofCode q.t))
  | 0x0e => some (.vintVabs q.d q.a q.p (← Ty.ofCode q.t))
  | 0x0f => some (.vintVneg q.d q.a q.p (← Ty.ofCode q.t))
  | 0x10 => some (.vsadd q.d q.a q.b (q.ib 0) q.p (← Ty.ofCode q.t))
  | 0x11 => some (.vssub q.d q.a q.b (q.ib 0) q.p (← Ty.ofCode q.t))
  | _ => none

/-- The candidate of major 0x02, group VFLT (spec 05 R123). -/
def candVflt (q : Q64) : Option Instr := do
  match q.fn.toNat with
  | 0x00 => some (.vfltVadd q.d q.a q.b (q.ib 0) q.p (← Ty.ofCode q.t))
  | 0x01 => some (.vfltVsub q.d q.a q.b (q.ib 0) q.p (← Ty.ofCode q.t))
  | 0x02 => some (.vfltVmul q.d q.a q.b (q.ib 0) q.p (← Ty.ofCode q.t))
  | 0x06 => some (.vfltVmin q.d q.a q.b (q.ib 0) q.p (← Ty.ofCode q.t))
  | 0x07 => some (.vfltVmax q.d q.a q.b (q.ib 0) q.p (← Ty.ofCode q.t))
  | 0x0a => some (.vdiv q.d q.a q.b (q.ib 0) q.p (← Ty.ofCode q.t))
  | 0x10 => some (.vsgnj q.d q.a q.b (q.ib 0) q.p (← Ty.ofCode q.t))
  | 0x03 => some (.vfma q.d q.a q.b q.c (q.ib 0) q.p (← Ty.ofCode q.t))
  | 0x04 => some (.vfms q.d q.a q.b q.c (q.ib 0) q.p (← Ty.ofCode q.t))
  | 0x05 => some (.vfnma q.d q.a q.b q.c (q.ib 0) q.p (← Ty.ofCode q.t))
  | 0x08 => some (.vfltVabs q.d q.a q.p (← Ty.ofCode q.t))
  | 0x09 => some (.vfltVneg q.d q.a q.p (← Ty.ofCode q.t))
  | 0x0b => some (.vsqrt q.d q.a q.p (← Ty.ofCode q.t))
  | 0x0c => some (.vrcp q.d q.a q.p (← Ty.ofCode q.t))
  | 0x0d => some (.vrsqrt q.d q.a q.p (← Ty.ofCode q.t))
  | 0x0e => some (.vexp2 q.d q.a q.p (← Ty.ofCode q.t))
  | 0x0f => some (.vlog2 q.d q.a q.p (← Ty.ofCode q.t))
  | _ => none

/-- The candidate of major 0x03, group VCMP (spec 05 R123). -/
def candVcmp (q : Q64) : Option Instr := do
  match q.fn.toNat with
  | 0x00 => some (.vcmpeq (Q64.mOf q.d) q.a q.b (q.ib 0) q.p (← Ty.ofCode q.t))
  | 0x01 => some (.vcmpne (Q64.mOf q.d) q.a q.b (q.ib 0) q.p (← Ty.ofCode q.t))
  | 0x02 => some (.vcmplt (Q64.mOf q.d) q.a q.b (q.ib 0) q.p (← Ty.ofCode q.t))
  | 0x03 => some (.vcmple (Q64.mOf q.d) q.a q.b (q.ib 0) q.p (← Ty.ofCode q.t))
  | 0x04 => some (.vcmpgt (Q64.mOf q.d) q.a q.b (q.ib 0) q.p (← Ty.ofCode q.t))
  | 0x05 => some (.vcmpge (Q64.mOf q.d) q.a q.b (q.ib 0) q.p (← Ty.ofCode q.t))
  | _ => none

/-- The candidate of major 0x04, group VMSK (spec 05 R123). -/
def candVmsk (q : Q64) : Option Instr := do
  match q.fn.toNat with
  | 0x00 => some (.mand (Q64.mOf q.d) (Q64.mOf q.a) (Q64.mOf q.b) (q.ib 0) q.p)
  | 0x01 => some (.mor (Q64.mOf q.d) (Q64.mOf q.a) (Q64.mOf q.b) (q.ib 0) q.p)
  | 0x02 => some (.mxor (Q64.mOf q.d) (Q64.mOf q.a) (Q64.mOf q.b) (q.ib 0) q.p)
  | 0x03 => some (.mandn (Q64.mOf q.d) (Q64.mOf q.a) (Q64.mOf q.b) (q.ib 0) q.p)
  | 0x04 => some (.mnot (Q64.mOf q.d) (Q64.mOf q.a) (q.ib 0) q.p)
  | 0x05 => some (.mpop q.d (Q64.mOf q.a) (q.ib 0) q.p)
  | 0x06 => some (.mfirst q.d (Q64.mOf q.a) (q.ib 0) q.p)
  | 0x07 => some (.mset (Q64.mOf q.d) (q.ib 0) q.p)
  | 0x08 => some (.mclr (Q64.mOf q.d) (q.ib 0) q.p)
  | _ => none

/-- The candidate of major 0x05, group VPRM (spec 05 R123). -/
def candVprm (q : Q64) : Option Instr := do
  match q.fn.toNat with
  | 0x00 => some (.vslideup q.d q.a q.b q.p (← Ty.ofCode q.t))
  | 0x01 => some (.vslidedn q.d q.a q.b q.p (← Ty.ofCode q.t))
  | 0x03 => some (.vperm q.d q.a q.b q.p (← Ty.ofCode q.t))
  | 0x08 => some (.vsel q.d q.a q.b q.p (← Ty.ofCode q.t))
  | 0x02 => some (.vbcast q.d q.a q.p (← Ty.ofCode q.t))
  | 0x09 => some (.vcompress q.d q.a q.p (← Ty.ofCode q.t))
  | 0x04 => some (.vmvXv q.d q.a (q.imm.extractLsb' 0 10) (← Ty.ofCode q.t))
  | 0x05 => some (.vmvVx q.d q.a (q.imm.extractLsb' 0 10) (← Ty.ofCode q.t))
  | 0x06 => some (.vmvFv q.d q.a (q.imm.extractLsb' 0 10) (← Ty.ofCode q.t))
  | 0x07 => some (.vmvVf q.d q.a (q.imm.extractLsb' 0 10) (← Ty.ofCode q.t))
  | _ => none

/-- The candidate of major 0x06, group VRED (spec 05 R123). imm[3:0], the tmax index, is accepted and ignored where no tmax register is updated:
in the other three reductions and with TM clear (DEDUCED, log 52). -/
def candVred (q : Q64) : Option Instr := do
  match q.fn.toNat with
  | 0x00 => some (.vredsum q.d q.a (q.imm.extractLsb' 0 4) q.p (← Ty.ofCode q.t))
  | 0x01 => some (.vredmax q.d q.a (q.imm.extractLsb' 0 4) q.p (← Ty.ofCode q.t))
  | 0x02 => some (.vredmin q.d q.a (q.imm.extractLsb' 0 4) q.p (← Ty.ofCode q.t))
  | 0x03 => some (.vredamax q.d q.a (q.ib 5) (q.imm.extractLsb' 0 4) q.p (← Ty.ofCode q.t))
  | _ => none

/-- The candidate of major 0x07, group VCVT (spec 05 R123). -/
def candVcvt (q : Q64) : Option Instr := do
  match q.fn.toNat with
  | 0x00 => some (.vcvt q.d q.a (Q64.mOf q.c) q.p (← Ty.ofCode q.t) (← Ty.ofCode (q.imm.extractLsb' 0 5)))
  | 0x01 => some (.vsrnd q.d q.a q.b (Q64.mOf q.c) (q.imm.extractLsb' 5 6) q.p (← Ty.ofCode q.t) (← Ty.ofCode (q.imm.extractLsb' 0 5)))
  | 0x02 => some (.vqnt q.d q.a (if q.ib 11 then none else some q.b) (Q64.mOf q.c) (← Ty.ofCode (q.imm.extractLsb' 0 5)))
  | _ => none

/-- The candidate of major 0x08, group VLD (spec 05 R123). -/
def candVld (q : Q64) : Option Instr := do
  match q.fn.toNat with
  | 0x00 => some (.vld q.d q.a q.imm q.p (← Ty.ofCode q.t))
  | 0x01 => some (.vlds q.d q.a q.b q.imm q.p (← Ty.ofCode q.t))
  | 0x02 => some (.vld2d q.d q.a q.b (q.imm.extractLsb' 0 10) q.p (← Ty.ofCode q.t))
  | 0x03 => some (.vldx q.d q.a q.b q.p (← Ty.ofCode q.t))
  | _ => none

/-- The candidate of major 0x09, group VST (spec 05 R123). -/
def candVst (q : Q64) : Option Instr := do
  match q.fn.toNat with
  | 0x00 => some (.vst q.c q.a q.imm q.p (← Ty.ofCode q.t))
  | 0x01 => some (.vsts q.c q.a q.b q.imm q.p (← Ty.ofCode q.t))
  | 0x02 => some (.vstx q.c q.a q.b (if q.ib 0 then some (Q64.mOf q.d) else none) q.p (← Ty.ofCode q.t))
  | _ => none

/-- The candidate of major 0x0a, group VCFG (spec 05 R123). -/
def candVcfg (q : Q64) : Option Instr := do
  match q.fn.toNat with
  | 0x00 => some (.vsetvl q.d q.a (← Ty.ofCode q.t))
  | 0x01 => some (.vsetvlw q.d q.a q.b q.c (q.imm.extractLsb' 0 15) (q.ib 15) (← Ty.ofCode q.t))
  | 0x02 => some ((.vgrp (q.imm.extractLsb' 0 2)))
  | _ => none

/-- The candidate of major 0x10, group MOP1 (spec 05 R123). -/
def candMop1 (q : Q64) : Option Instr := do
  match q.fn.toNat with
  | 0x00 => some (.mop1 (Q64.tOf q.d) q.a q.b q.c q.p (← Pair.ofCode q.t))
  | _ => none

/-- The candidate of major 0x11, group MOPA (spec 05 R123). -/
def candMopa (q : Q64) : Option Instr := do
  match q.fn.toNat with
  | 0x00 => some (.mopa (Q64.tOf q.d) q.a q.b q.c (q.imm.extractLsb' 0 12) (q.ib 12) q.p (← Pair.ofCode q.t))
  | _ => none

/-- The candidate of major 0x12, group MCTL (spec 05 R123). -/
def candMctl (q : Q64) : Option Instr := do
  match q.fn.toNat with
  | 0x00 => some (.mzero (Q64.tOf q.d) q.p)
  | 0x01 => if q.ib 0 then some <| .mrelDiscard else some <| .mrel
  | _ => none

/-- The candidate of major 0x13, group MDRAIN (spec 05 R123). -/
def candMdrain (q : Q64) : Option Instr := do
  match q.fn.toNat with
  | 0x00 => some (.mdrain ⟨Q64.tOf q.d, q.a, q.b, (← Ty.ofCode q.t), q.p, q.ib 14, q.ib 13, q.imm.extractLsb' 10 3, q.imm.extractLsb' 6 4, q.imm.extractLsb' 0 6⟩)
  | 0x01 => some (.mdrainRow ⟨Q64.tOf q.d, q.a, q.b, (← Ty.ofCode q.t), q.p, q.ib 14, q.ib 13, q.imm.extractLsb' 10 3, q.imm.extractLsb' 6 4, q.imm.extractLsb' 0 6⟩ q.c)
  | 0x02 => some (.mdrainDly ⟨Q64.tOf q.d, q.a, q.b, (← Ty.ofCode q.t), q.p, q.ib 14, q.ib 13, q.imm.extractLsb' 10 3, q.imm.extractLsb' 6 4, q.imm.extractLsb' 0 6⟩ q.c)
  | _ => none

/-- The candidate of major 0x14, group MROW (spec 05 R123). -/
def candMrow (q : Q64) : Option Instr := do
  match q.fn.toNat with
  | 0x00 => some (.mrowRd q.d (Q64.tOf q.a) (if q.ib 6 then .reg q.b else .imm (q.imm.extractLsb' 0 6)) (q.ib 7) q.p (← Ty.ofCode q.t))
  | 0x01 => some (.mrowWr (Q64.tOf q.d) q.a (if q.ib 6 then .reg q.b else .imm (q.imm.extractLsb' 0 6)) (q.ib 7) q.p (← Ty.ofCode q.t))
  | _ => none

/-- The candidate of major 0x15, group AMX (spec 05 R123). -/
def candAmx (q : Q64) : Option Instr := do
  match q.fn.toNat with
  | 0x00 => some (.amxrd q.d (q.imm.extractLsb' 0 4))
  | 0x01 => some (.amxswp q.d (q.imm.extractLsb' 0 4))
  | 0x02 => some (.amxmax q.a (q.imm.extractLsb' 0 4))
  | _ => none

/-- The candidate of major 0x18, group TCOPY (spec 05 R123). -/
def candTcopy (q : Q64) : Option Instr := do
  match q.fn.toNat with
  | 0x00 => if q.ib 2 then some <| .tcopySt q.a q.b (← q.copyAct) (q.ib 3) else some <| .tcopy q.a q.b (← q.copyAct) (q.ib 3)
  | 0x01 => if q.ib 0 then some <| .tcopyMc q.a q.b q.c q.d (some (← Scope.ofCode (q.imm.extractLsb' 4 3))) (q.ib 3) else some <| .tcopyMc q.a q.b q.c q.d none (q.ib 3)
  | _ => none

/-- The candidate of major 0x19, group FRM (spec 05 R123). -/
def candFrm (q : Q64) : Option Instr := do
  match q.fn.toNat with
  | 0x00 => some (.frminit q.a q.b)
  | 0x01 => some (.frmwait q.d q.a (q.imm.extractLsb' 0 15))
  | 0x02 => some (.frmfree q.a)
  | _ => none

/-- The candidate of major 0x20, group QFENCE (spec 05 R123). -/
def candQfence (q : Q64) : Option Instr := do
  match q.fn.toNat with
  | 0x00 => some (.qfence (q.ib 3) (q.ib 4) (q.ib 5) (← Scope.ofCode (q.imm.extractLsb' 0 3)))
  | _ => none

/-- The candidate of major 0x21, group QAMO (spec 05 R123). -/
def candQamo (q : Q64) : Option Instr := do
  match q.fn.toNat with
  | 0x00 => some (.qamoadd q.d q.a q.b (q.t == 0x0C) (q.ib 3) (q.ib 4) (← Scope.ofCode (q.imm.extractLsb' 0 3)))
  | 0x01 => some (.qamoand q.d q.a q.b (q.t == 0x0C) (q.ib 3) (q.ib 4) (← Scope.ofCode (q.imm.extractLsb' 0 3)))
  | 0x02 => some (.qamoor q.d q.a q.b (q.t == 0x0C) (q.ib 3) (q.ib 4) (← Scope.ofCode (q.imm.extractLsb' 0 3)))
  | 0x03 => some (.qamoxor q.d q.a q.b (q.t == 0x0C) (q.ib 3) (q.ib 4) (← Scope.ofCode (q.imm.extractLsb' 0 3)))
  | 0x04 => some (.qamomin q.d q.a q.b (q.t == 0x0C) (q.ib 3) (q.ib 4) (← Scope.ofCode (q.imm.extractLsb' 0 3)))
  | 0x05 => some (.qamomax q.d q.a q.b (q.t == 0x0C) (q.ib 3) (q.ib 4) (← Scope.ofCode (q.imm.extractLsb' 0 3)))
  | 0x06 => some (.qamominu q.d q.a q.b (q.t == 0x0C) (q.ib 3) (q.ib 4) (← Scope.ofCode (q.imm.extractLsb' 0 3)))
  | 0x07 => some (.qamomaxu q.d q.a q.b (q.t == 0x0C) (q.ib 3) (q.ib 4) (← Scope.ofCode (q.imm.extractLsb' 0 3)))
  | 0x08 => some (.qamoswap q.d q.a q.b (q.t == 0x0C) (q.ib 3) (q.ib 4) (← Scope.ofCode (q.imm.extractLsb' 0 3)))
  | 0x09 => some (.qamocas q.d q.a q.b q.c (q.t == 0x0C) (q.ib 3) (q.ib 4) (← Scope.ofCode (q.imm.extractLsb' 0 3)))
  | _ => none

/-- The candidate of major 0x22, group SIG (spec 05 R123). -/
def candSig (q : Q64) : Option Instr := do
  match q.fn.toNat with
  | 0x00 => some (.ssig q.a q.b (← Scope.ofCode (q.imm.extractLsb' 0 3)))
  | 0x01 => some (.sset q.a q.b (← Scope.ofCode (q.imm.extractLsb' 0 3)))
  | 0x02 => some (.swait q.d q.a q.b q.c (← Cond.ofCode (q.imm.extractLsb' 3 3)) (← Scope.ofCode (q.imm.extractLsb' 0 3)))
  | _ => none

/-- The candidate of major 0x23, group BAR (spec 05 R123). -/
def candBar (q : Q64) : Option Instr := do
  match q.fn.toNat with
  | 0x00 => some (.bar (← BarLevel.ofCode (q.imm.extractLsb' 0 3)) (q.imm.extractLsb' 3 13))
  | _ => none

/-- The candidate of major 0x24, group FEW (spec 05 R123). -/
def candFew (q : Q64) : Option Instr := do
  match q.fn.toNat with
  | 0x00 => if q.ib 12 then some <| .ldfeK q.d q.a q.c (q.imm.extractLsb' 0 12) else some <| .ldfe q.d q.a q.c (q.imm.extractLsb' 0 12)
  | 0x01 => if q.ib 12 then some <| .stfeF q.a q.b (q.imm.extractLsb' 0 12) else some <| .stfe q.a q.b (q.imm.extractLsb' 0 12)
  | 0x02 => some (.feprobe q.d q.a (q.imm.extractLsb' 0 12))
  | 0x03 => if q.ib 12 then some <| .fesetF q.a (q.imm.extractLsb' 0 12) else some <| .fesetE q.a (q.imm.extractLsb' 0 12)
  | _ => none

/-- The candidate of major 0x25, group WGL (spec 05 R123). -/
def candWgl (q : Q64) : Option Instr := do
  match q.fn.toNat with
  | 0x00 => some (.wgsend q.a q.b q.c (q.imm.extractLsb' 0 15))
  | 0x01 => some (.wgrecv q.d (q.imm.extractLsb' 0 15))
  | 0x02 => some (.wgpeek q.d)
  | _ => none

/-- The candidate of major 0x28, group LAUNCH (spec 05 R123). -/
def candLaunch (q : Q64) : Option Instr := do
  match q.fn.toNat with
  | 0x00 => if q.ib 0 then some <| .launchNb q.d q.a q.b else some <| .launch q.d q.a q.b
  | _ => none

/-- The candidate of major 0x29, group RETIRE (spec 05 R123). -/
def candRetire (q : Q64) : Option Instr := do
  match q.fn.toNat with
  | 0x00 => some (.retire)
  | 0x01 => some (.retireH q.a)
  | _ => none

/-- The candidate of major 0x2b, group BROOD (spec 05 R123). -/
def candBrood (q : Q64) : Option Instr := do
  match q.fn.toNat with
  | 0x00 => some (.bfork q.d q.a)
  | 0x01 => some (if q.ib 1 then (if q.ib 0 then .bjoinAbW q.d else .bjoinAb) else if q.ib 0 then .bjoinW q.d q.a else .bjoin q.a)
  | 0x02 => if q.ib 0 then some <| .bkillAll q.d q.a else some <| .bkill q.d q.a q.b
  | 0x03 => if q.ib 0 then some <| .bstatSib q.d q.a q.b else some <| .bstat q.d q.a
  | _ => none

/-- The candidate of major 0x30, group SYS (spec 05 R123). -/
def candSys (q : Q64) : Option Instr := do
  match q.fn.toNat with
  | 0x00 => some (.tret)
  | 0x01 => some (.traise q.a)
  | 0x02 => some (.msave (Q64.tOf q.d) q.a)
  | 0x03 => some (.mrstr (Q64.tOf q.d) q.a)
  | 0x04 => some (.icinv q.a q.b)
  | _ => none

/-- The one instruction a Q64 word can be, by its major (spec 05 R123). -/
def candQ (q : Q64) : Option Instr :=
  match q.major.toNat with
  | 0x01 => candVint q
  | 0x02 => candVflt q
  | 0x03 => candVcmp q
  | 0x04 => candVmsk q
  | 0x05 => candVprm q
  | 0x06 => candVred q
  | 0x07 => candVcvt q
  | 0x08 => candVld q
  | 0x09 => candVst q
  | 0x0a => candVcfg q
  | 0x10 => candMop1 q
  | 0x11 => candMopa q
  | 0x12 => candMctl q
  | 0x13 => candMdrain q
  | 0x14 => candMrow q
  | 0x15 => candAmx q
  | 0x18 => candTcopy q
  | 0x19 => candFrm q
  | 0x20 => candQfence q
  | 0x21 => candQamo q
  | 0x22 => candSig q
  | 0x23 => candBar q
  | 0x24 => candFew q
  | 0x25 => candWgl q
  | 0x28 => candLaunch q
  | 0x29 => candRetire q
  | 0x2b => candBrood q
  | 0x30 => candSys q
  | _ => none

/-- The instruction of a 32-bit parcel, if it names one. -/
def decode32 (p : W32) : Option Instr :=
  match cand32 (F32.unpack p) with
  | some i => if wellFormed i && encode32 i == some (F32.unpack p) then some i else none
  | none => none

/-- The instruction of a Q64 word, if it names one. -/
def decodeQ (w : Word) : Option Instr :=
  match candQ (Q64.unpack w) with
  | some i => if wellFormed i && encodeQ i == some (Q64.unpack w) then some i else none
  | none => none

/-- Decode the parcel at pc and, for a 64-bit length, the parcel after it: total, with every other word rejected by name
(spec 05 R118 to R123). -/
def decode (p hi : W32) : Decoded :=
  match parcelLength p with
  | 4 =>
    match decode32 p with
    | some i => .instr i 4
    | none => .illegal .opcode32 4 (p.setWidth 64)
  | 8 =>
    match decodeQ (hi ++ p) with
    | some i => .instr i 8
    | none => .illegal .opcodeQ64 8 (hi ++ p)
  | 2 => .illegal .length16 2 (p.setWidth 64)
  | 6 => .illegal .length48 6 (p.setWidth 64)
  | _ => .illegal .length80 10 (p.setWidth 64)

/-- The length in bytes of a cell instruction; 0 for a step of the device. -/
def Instr.len (i : Instr) : Nat :=
  if (encode32 i).isSome then 4 else if (encodeQ i).isSome then 8 else 0

/-- The words of a cell instruction: one number with the first parcel lowest. -/
def encode (i : Instr) : Option Word :=
  match encode32 i with
  | some f => some (f.pack.setWidth 64)
  | none => (encodeQ i).map Q64.pack

/-- The parcels a list of bytes begins with, missing bytes reading zero (spec 05: little-endian parcels). -/
def parcelsOf (l : List Byte) : W32 × W32 :=
  (BitVec.ofNat 32 (leNat (l.take 4)), BitVec.ofNat 32 (leNat ((l.drop 4).take 4)))

/-- What the decoder reads from bytes laid out as the hardware stores them. -/
def decodeBytes (l : List Byte) : Decoded := decode (parcelsOf l).1 (parcelsOf l).2

/-- The instruction the decoder reads from a row's word, numbered as the opcode table numbers it. -/
def decodeTableWord (nbits w : Nat) : Option Instr :=
  match decodeBytes (leBytes (w % 2 ^ nbits) 8) with
  | .instr i _ => some i
  | .illegal _ _ _ => none

end

end Sys2Proof
end

