-- ==== Sys2Proof/Machine/Flags.lean ====
section
/-! DEFINITION. The exception flags an operation raises and their place in qfcsr (spec 06 R155, 08 R186). -/

namespace Sys2Proof.Machine

/-- The flags one operation, or one instruction over its active elements, raises. -/
structure Fl where
  nv : Bool := false
  dz : Bool := false
  of : Bool := false
  uf : Bool := false
  nx : Bool := false
  sat : Bool := false
deriving DecidableEq, Repr, Inhabited

/-- No flag. -/
def Fl.none : Fl := {}

/-- The flags of two operations together: flags are sticky (spec 08 R186). -/
def Fl.or (a b : Fl) : Fl :=
  { nv := a.nv || b.nv, dz := a.dz || b.dz, of := a.of || b.of, uf := a.uf || b.uf, nx := a.nx || b.nx, sat := a.sat || b.sat }

/-- The flags as bits of qfcsr: [8] SAT, [4] NV, [3] DZ, [2] OF, [1] UF, [0] NX (spec 06 R155). -/
def Fl.toWord (f : Fl) : Word :=
  BitVec.ofNat 64 (b2n f.nx + 2 * b2n f.uf + 4 * b2n f.of + 8 * b2n f.dz + 16 * b2n f.nv + 256 * b2n f.sat)

/-- Accumulate flags in qfcsr. -/
def orFlags (qfcsr : Word) (f : Fl) : Word := qfcsr ||| f.toWord

end Sys2Proof.Machine
end

