-- ==== Sys2Proof/Config.lean ====
section
/-! DEFINITION. What the implementation fixes and the free values: constants with no body, so that nothing can be proved of their value. -/

namespace Sys2Proof.Config

/-- The value of each bit of `v0`–`v31` after VGRP changes the grouping (spec 09 R208): for the `n`-th draw, which of
the cell's register bits (or zero, at 0) bit `b` of register `r` takes. Free; log 9. -/
opaque vgrpBit : Nat → Nat → Nat → Nat

/-- Whether a fixed-latency result read before its turn reads new (`true`) or old (`false`) (spec 06 R133). Free; log 8. -/
opaque earlyReadNew : Nat → Nat → Bool

/-- Device nanoseconds that pass between two readings of the time, for the `n`-th draw (spec 06 R154 qtime). Free; log 6. -/
opaque elapsed : Nat → Nat

/-- Whether a fetched parcel whose memory has changed since its line was filled reads new, for the `n`-th draw and the address (spec 05 R111).
Free; log 72. -/
opaque fetchNew : Nat → Nat → Bool

/-- Whether a trap on an instruction's first parcel records ILEN 8: its length is not known (spec 18 R369). Free; log 71. -/
opaque fetchTrapLen : Nat → Bool

/-- Which line or entry of a full set is dropped (spec 05 R109, 07 R169: no replacement rule is given). Free; log 12. -/
opaque victim : Nat → Nat

/-- Where in the HBM of its die the runtime has reserved the context block of the `n`-th gang (spec 18 R383). Free; log 15. -/
opaque contextAt : Nat → Nat

/-- At which moment since a matrix instruction's issue an element that a write has touched since is read: an operand of a MOPA (spec 11 R269) or a
word that MRSTR loads (18 R377), for the `n`-th draw and the element. Free; log 10, log 36. -/
opaque operandTime : Nat → Nat → Nat

/-- Whether an issued access of a killed gang is still performed (spec 18 R380). Free; log 11. -/
opaque killedStorePerformed : Nat → Nat → Bool

/-- Whether a vector fused multiply-add of zero and infinity with a quiet NaN signals invalid: IEEE 754-2019, which decides NV there, leaves
it open (spec 09 R210). Free; log 13. -/
opaque fmaQuietInvalid : Bool

/-- Which of the values that nothing orders away a read returns: for the `n`-th draw and the address read, how many writes after the
reader's last ordered one it has seen (spec 13 R289, R293). Free; log 7. -/
opaque readView : Nat → Nat → Nat

/-- How many reads that could return an older write a cell makes at most before it sees one write more: every write is seen eventually
(spec 13 R308). Free; log 7. -/
opaque readPatience : Nat

/-- Whether an SM2-P256 signature over a message verifies under the key whose hash is given (spec 01 R9). The curve and key
are the standard's and the fuse's; free; log 14. -/
opaque sm2Verifies : List Byte → List Byte → List Byte → Bool

/-- The SM2-P256 signature the identity key makes over a message (spec 01 R11, R12). The key never leaves the hub; log 14. -/
opaque sm2Sign : List Byte → List Byte

/-- The hash of the firmware root's public key, fused in the hub die (spec 01 R9). -/
opaque rootKeyHash : List Byte

/-- The fused anti-rollback counter (spec 01 R9). -/
opaque antiRollback : Nat

/-- Bytes of the first three certificates of the chain: root, model authority, device identity (spec 01 R11). -/
opaque certificate : Nat → List Byte

/-- The boot ROM's version, measurement block 1 (spec 01 R12). -/
opaque romVersion : List Byte

/-- The DVA at which the die supervisor maps the `n`-th loaded object's text: 64 KiB aligned in the partition's code region,
which the runtime sets up (spec 03 R70, 02 R41). The region is not given; free; log 17. -/
opaque codeBase : Nat → Nat

/-- The physical 64 KiB page, by number, that holds page `i` of the `n`-th loaded object (spec 03 R70). Free; log 17. -/
opaque codePage : Nat → Nat → Nat

/-- A byte that host or peer memory gives an engine of the device: outside memory is not part of the machine. Free; log 21. -/
opaque outsideByte : Nat → Nat → Byte

/-- At which of the moments that nothing orders away a word that a copy reads is read (spec 10 R247, 13 R298): for the `n`-th draw and the
word. Free; log 22. -/
opaque copyWordTime : Nat → Nat → Nat

/-- At which moment since its packet was produced an aligned 8-byte word of a launch header is read (spec 02 R44): for the `n`-th draw and the
word. Free; log 78. -/
opaque headerWordTime : Nat → Nat → Nat

/-- Whether the partition's code region has room for the `n`-th object (spec 03 R70 NOSPACE; the region is not given). Free; log 17. -/
opaque codeSpace : Nat → Bool

/-- A byte of a failed load's record that no rule gives (spec 03 R70). Free; log 27. -/
opaque loadRecordByte : Nat → Nat → Byte

/-- Whether a failed checkpoint run performed a 64-byte line of its range (spec 01 R26). Free; log 28. -/
opaque ckptLineDone : Nat → Nat → Bool

/-- The reset value of a byte of a function's configuration space, which PCIe and the maker's identifiers give. Free; log 29. -/
opaque cfgReset : Nat → Nat → Nat

/-- A byte that the pager's copy of a page leaves where the page's line was refused (spec 07 R174, 18 R388). Free; log 32. -/
opaque refusedByte : Nat → Nat → Byte

end Sys2Proof.Config
end

