-- ==== Sys2Proof/Machine/State.lean ====
section
/-! DEFINITION. The state of the machine as plain data, the reasons a step could stop, and the state after reset. -/

namespace Sys2Proof.Machine

/-- What stops the machine with a fault. No meaning of this model ends in one: the hardware reports every wrong access by a
trap, a kill, a halt or an error response, and those are next states. -/
inductive Fault where
  /-- Raised by no meaning; safe. It keeps the type inhabited for the host's interface. -/
  | stuck
deriving DecidableEq, Repr

/-- Why an instruction has no meaning. -/
inductive Refusal where
  /-- Raised by an arm of exec whose instruction has no meaning yet; safe. -/
  | notModelled (mnemonic : String)
deriving DecidableEq, Repr

/-! ### The cell -/

/-- Where a variable-latency result goes (spec 06 R135, R153): a register, or the reserved entry of a hand-off queue. -/
inductive Dst where
  | none
  | x (r : Reg)
  | f (r : Reg)
  | v (r : Reg)
  | m (r : MReg)
  | hoq (q id : Nat)
deriving DecidableEq, Repr, Inhabited

/-- A result that is on its way to an empty register (spec 06 R133, R135). -/
structure PendW where
  dst : Dst
  val : Nat
deriving DecidableEq, Repr, Inhabited

/-- One entry of the loop stack (spec 06 R146, R147). -/
structure Loop where
  start : Word
  stop : Word
  cnt : Word
  idx : Word
  lev : Nat
deriving DecidableEq, Repr, Inhabited

/-- The CSRs that a cell holds (spec 06 R154; the read-only views are formed when read). -/
structure Csrs where
  qfcsr : Word := 0
  fetrap : Word := 0
  fetrapv : Word := 0
  fetrapf : Word := 0
  hoqen : Word := 0
  qsatcnt : Word := 0
  qufcnt : Word := 0
  mocsig : Word := 0
  leaseq : Word := 256
  ttvec : Word := 0
  tsave : Word := 0
  tcause1 : Word := 0
  tepc1 : Word := 0
  tval1 : Word := 0
  tstat1 : Word := 0
  tcause2 : Word := 0
  tepc2 : Word := 0
  tval2 : Word := 0
  tstat2 : Word := 0
  mstate : Word := 0
  vinflt : Word := 0
  vstart0 : Word := 0
  vstart1 : Word := 0
  vstart2 : Word := 0
  vstart3 : Word := 0
deriving DecidableEq, Repr, Inhabited

/-- The kind of an access, as a fault record names it (spec 07 R170). -/
inductive Kind where
  | load | store | atomic | fetch | vload | vstore | copyRead | copyWrite | host | cow
deriving DecidableEq, Repr, Inhabited

/-- Where a translated access is performed: HBM of the package, host memory, or a peer accelerator by its identifier (spec 07 R167,
R175; 13 R285). -/
inductive Home where
  | hbm
  | host
  | peer (acc : Nat)
deriving DecidableEq, Repr, Inhabited

/-- What a parked cell waits for (spec 06 R129, 18 R381). -/
inductive Wait where
  /-- Registers that must become full (06 R136). -/
  | regs (rs : List Dst)
  /-- A hand-off queue's entry, room, or buffers (06 R152, R153). -/
  | hoq
  /-- An instruction-cache line (05 R110). -/
  | icache (line : Nat)
  /-- A page: the fault's DVA, its sequence number, the tval of a fatal reply, and the element a vector access reached
  (07 R170, R171). -/
  | page (dva : Nat) (seq : Nat) (tval : Word) (idx : Option Nat)
  /-- A copy-on-write copy of a page of an ASID (07 R173). -/
  | cow (dva : Nat) (asid : Nat) (tval : Word) (idx : Option Nat)
  /-- Earlier accesses to be performed (06 R141, 13 R291, 14 R310). -/
  | performed
  /-- A signal word, by SWAIT or by VSETVLW (14 R316, 09 R207). -/
  | signal (key : Nat) (vset : Bool)
  /-- A frame slot, or the copies of a frame (10 R244). -/
  | frame (key : Nat)
  /-- The matrix lease (11 R252). -/
  | lease
  /-- A reply of a remote LS or HSP, or of an acquiring atomic (07 R165, 14 R313). -/
  | remote (id : Nat)
  /-- A reply from host or peer memory, to an acquire or not (07 R176, 14 R313). -/
  | fabric (home : Home) (pa : Nat) (ea : Word) (size : Nat) (acq : Option Scope)
  /-- A tagged word at its home (14 R323). -/
  | word (key : Nat)
  /-- A barrier episode; the limit in µs (14 R318). -/
  | bar (level : BarLevel) (limit : Nat)
  /-- Room in another cell's mailbox (14 R325). -/
  | wgsend (target : Nat)
  /-- A waggle (14 R326). -/
  | wgrecv
  /-- Room in a queue (03 R78). -/
  | queue (key : Nat)
  /-- Acknowledgements of an ICINV (05 R114). -/
  | icinv (first last : Nat)
  /-- A brood's completion (16 R349). -/
  | bjoin (handle : Nat) (d : Reg)
  /-- The cell's vector instructions (18 R370, 09 R208). -/
  | vector
  /-- The cell's copies and registers (20 R398). -/
  | copies
  /-- The cell's held or resumed matrix instruction (11 R263, R270). -/
  | matrix
deriving DecidableEq, Repr, Inhabited

/-- Whether a cell takes turns (spec 06 R129, 18 R381). -/
inductive Run where
  | ready
  | parked (w : Wait)
  | landed
  | done
deriving DecidableEq, Repr, Inhabited

/-- A pending asynchronous trap (spec 18 R373). -/
structure Async where
  cause : Nat
  tval : Word
deriving DecidableEq, Repr, Inhabited

/-- An agent (spec 13 R284): a cell; the copy engine or the matrix unit while it acts for a cell (R286); a unit of a die, which is its
brood unit, its dispatch unit or its supervisor; a hive's memory port; the host; a fabric peer. -/
inductive Agent where
  | cell (c : Nat)
  | engine (c : Nat)
  | die (d : Nat)
  | port (h : Nat)
  | host
  | peer
deriving DecidableEq, Repr, Inhabited

/-- Writes that come before a cell's next access, or that a release covers: those of an agent, or of the agents within a scope of it, whose
numbers in `State.hist` are above `start` and up to `n` (spec 13 R293). Of an agent in `miss`, those above the first and up to the second
number are not among them (13 R289, R302). -/
structure Known where
  who : Agent
  near : Option Scope := none
  start : Nat := 0
  n : Nat := 0
  miss : List (Agent × Nat × Nat) := []
deriving DecidableEq, Repr, Inhabited

/-- A hand-over behind an heir's cell (spec 13 R302): its SCOPE; the predecessor's cells, whose writes up to number `upto` happen before the
heir for agents within that scope only; and the number up to which writes happen before it for the others. -/
structure Handover where
  scope : Nat
  cells : List Nat
  upto : Nat
  start : Nat
deriving DecidableEq, Repr, Inhabited

/-- A release in the release sequence that stands at a word: who made it, its scope, and what it covers (spec 13 R292). -/
structure Rel where
  key : Nat
  size : Nat
  who : Agent
  scope : Scope
  /-- The number of `State.hist` at the release. -/
  n : Nat := 0
  /-- What happens before it: every write up to `floor`, those of `known`, and what its agent has read newer (13 R291, R293). -/
  floor : Nat := 0
  known : List Known := []
  saw : Tab Nat := []
  /-- The hand-overs behind an heir: outside their scopes its release carries less (13 R302). -/
  outer : List Handover := []
deriving DecidableEq, Repr, Inhabited

/-- A waggle (spec 14 R325): tag and sender in bytes 0–7, value in bytes 8–15. -/
structure Waggle where
  lo : Word
  value : Word
  /-- MODEL: the release it was posted by, where its scope holds the receiver (13 R292, R294). -/
  sync : Option Rel := none
deriving DecidableEq, Repr, Inhabited

/-- What a vector instruction in flight may still give back, or take again: `count` elements of a destination from element `first` on, of
`width` bits each, at bit `at_`, and the destination's bits before or after them. -/
structure Held where
  dst : Dst
  at_ : Nat := 0
  first : Nat := 0
  width : Nat
  count : Nat
  val : Nat
deriving DecidableEq, Repr, Inhabited

/-- An element that a vector store has issued: its access's number, or 0 where it has been performed, with its address and bytes. -/
structure VStore where
  elem : Nat
  post : Nat
  ea : Word
  data : List Byte
deriving DecidableEq, Repr, Inhabited

/-- A recorded vector instruction (spec 09 R225, R226; 18 R384). -/
structure VRec where
  enc : Word
  pc : Word
  idx : Nat
  count : Nat
  xa : Word
  xb : Word
  xc : Word
  /-- MODEL: the values that the elements not done will take, and the elements of a store that are not issued. -/
  rest : List Held := []
  stores : List VStore := []
  /-- MODEL: it is an access that had parked at an element, and executes again from there (09 R226). -/
  again : Bool := false
deriving DecidableEq, Repr, Inhabited

/-- A trap that waits for the cell's older vector instructions (spec 18 R370). -/
structure TrapInfo where
  cause : Nat
  tval : Word
  epc : Word
  ilen : Nat
  async : Bool
  vrec : Option Nat
  mrec : Bool
deriving DecidableEq, Repr, Inhabited

/-- A cell that is resident, or whose image is saved (spec 02 R51, 06 R154, 18 R384). -/
structure Cell where
  gang : Nat := 0
  j : Nat := 0
  pc : Word := 0
  x : Vector Word 32 := Vector.replicate 32 0
  f : Vector W32 32 := Vector.replicate 32 0
  v : Vector VReg 32 := Vector.replicate 32 0
  m : Vector VReg 8 := Vector.replicate 8 0
  /-- Bit i set: x(i) is empty (06 R135). -/
  xe : BitVec 32 := 0
  fe : BitVec 32 := 0
  ve : BitVec 32 := 0
  pend : List PendW := []
  csr : Csrs := {}
  tlev : Nat := 0
  vl : Nat := 0
  /-- Element width in bits, from SEW (09 R202). -/
  sew : Nat := 32
  /-- Grouping code: groups of 2^g registers (09 R202). -/
  g : Nat := 0
  wid : Word := 0
  /-- Innermost entry first. -/
  loops : List Loop := []
  resv : Option Nat := none
  /-- MODEL: the DVA of the granule reserved, which follows its page (06 R142). -/
  resvDva : Nat := 0
  mbox : List Waggle := []
  asyncs : List Async := []
  /-- A refusal was discarded; the next trap delivered says so (07 R165). -/
  povf : Bool := false
  run : Run := .ready
  /-- The cell's fault sequence number, its last faulting DVA, and how often it refaulted (07 R170, R172). -/
  faultSeq : Nat := 0
  faultDva : Option Nat := none
  refaults : Nat := 0
  /-- Turns since a pre-emption order (18 R382). -/
  turns : Nat := 0
  vrecs : List VRec := []
  /-- MODEL: the vector load or store in progress, with the elements it has issued (09 R220, R226). -/
  access : Option VRec := none
  /-- A barrier that was pending at the landing: level and limit (18 R384). None in a saved cell once its episode has completed. -/
  barp : Option (BarLevel × Nat) := none
  /-- MODEL: when the instruction in progress first issued, for its limit. -/
  since : Option Nat := none
  /-- MODEL: the limit of the wait the cell is parked in, in ns from its first issue, and the tval of its trap. -/
  limit : Option (Nat × Word) := none
  /-- MODEL: hand-off values the instruction in progress has popped (06 R153). -/
  latch : List (Nat × Word) := []
  /-- MODEL: the entries that it has reserved, by queue (06 R153). -/
  pushed : Tab Nat := []
  /-- MODEL: fixed-latency results that may still read old: register, old value, turns left (06 R133). -/
  early : List (Dst × Nat × Nat) := []
  /-- MODEL: the same for results of the vector unit, which chains its own instructions and so hides them from these (09 R223). -/
  earlyV : List (Dst × Nat × Nat) := []
  /-- MODEL: the part of a parked instruction that has already taken effect (an arrival at BAR, a deposit, a request). -/
  stage : Nat := 0
  /-- MODEL: when its last request to host or peer memory was sent (14 R329). -/
  asked : Nat := 0
  /-- MODEL: the value a reply brought to the parked instruction. -/
  reply : Option Word := none
  /-- MODEL: the words a read of several words over a link has brought so far. -/
  got : List Word := []
  /-- MODEL: length of the instruction in progress. -/
  ilen : Nat := 4
  /-- The parcels of a fetched instruction that has not completed: it completes as fetched (05 R115). -/
  parcels : Option (W32 × W32) := none
  /-- MODEL: the writes that happen before the cell's next access, as a number of `State.hist`: what came later may still be unseen
  (13 R293). `start` is the number at the cell's start, and `saw` the bytes that it has read newer than `floor`, each with the number of the
  write that the read gave (13 R288). -/
  floor : Nat := 0
  start : Nat := 0
  saw : Tab Nat := []
  /-- MODEL: what its acquires and fences order besides (13 R293, R295, R296). -/
  known : List Known := []
  /-- MODEL: what a fence of class r adds to it: all writes up to the newest that its reads have given (13 R296); `sent`, the number at its
  last write performed by the host or a peer. -/
  sight : List Known := []
  sent : Nat := 0
  /-- MODEL: how many of its reads could have returned an older write (13 R308). -/
  looks : Nat := 0
  /-- MODEL: its writes up to these numbers are performed, by scope, before any later one of it (13 R295). -/
  base : Tab Nat := []
  /-- The hand-overs behind an heir's cell, newest first (13 R302). -/
  outer : List Handover := []
  /-- A QFENCE with class e stands before its next copy (10 R247, 13 R298). -/
  copyFenced : Bool := false
  trapPend : Option TrapInfo := none
deriving DecidableEq, Repr

/-! ### Work -/

/-- A launch header in force (spec 02 R42). -/
structure Hdr where
  ctl0 : Word := 0
  entry : Word := 0
  fmt0 : Word := 0
  fmt1 : Word := 0
  ctl1 : Word := 0
  tvec : Word := 0
  crec : Word := 0
  csig : Word := 0
  args : List Word := []
  seg : List (Word × Word) := []
deriving DecidableEq, Repr, Inhabited

/-- States of a gang (spec 04 R100). -/
inductive GState where
  | running | handover | landing | saved | retired | killed
deriving DecidableEq, Repr, Inhabited

/-- An entry of a hand-off queue: reserved until its value comes (spec 06 R153). -/
structure HoqEntry where
  id : Nat
  by_ : Nat
  val : Option Word
deriving DecidableEq, Repr, Inhabited

/-- A copy of a tile copy engine, with its operands and descriptor as read at issue (spec 10 R245, 18 R385). -/
structure Copy where
  id : Nat
  cell : Nat
  gang : Nat
  enc : Word
  xa : Word
  xb : Word
  xc : Word
  xd : Word
  xd1 : Word
  desc : List Byte
  asid : Nat
  launch : Nat
  /-- 0 queued, 1 running, 2 waits for a frame slot, 3 landed and waits for mailbox room, 4 waits for the pager. -/
  st : Nat := 0
  /-- The frame slot reserved, if any (10 R243). -/
  slot : Option Nat := none
  /-- Tile rows read so far, as they stood then (10 R247). -/
  data : List (List Byte) := []
  /-- Tile rows that stand at their destination. -/
  wrote : Nat := 0
  /-- Its reads follow, by ORD or a fence, the cell's accesses numbered below `hold` (10 R247). -/
  held : Bool := false
  hold : Nat := 0
  seq : Nat := 0
  /-- MODEL: what its reads may not miss, as numbers of `State.hist`: the writes up to `floor`, its cell's own up to `mark`, and those of
  `known` (10 R247, 13 R298). -/
  floor : Nat := 0
  mark : Nat := 0
  known : List Known := []
  /-- MODEL: when its completion action was made, for a waggle that waits for room (10 R239). -/
  acted : Nat := 0
  /-- Its last faulting DVA and how often it refaulted (07 R170, R172). -/
  faultDva : Option Nat := none
  refaults : Nat := 0
deriving DecidableEq, Repr, Inhabited

/-- A MOPA in the unit or recorded (spec 11 R268, R270; 18 R385). -/
structure MatRec where
  enc : Word
  pc : Word
  xa : Word
  xa1 : Word
  xb : Word
  xb1 : Word
  mocsig : Word
  mask : Nat
  fc : W32
  step : Nat
  held : Bool
  cell : Nat
deriving DecidableEq, Repr, Inhabited

/-- What a saved gang keeps besides its record and its context block (spec 18 R383): of its cells and copies, what the block does not hold. -/
structure Saved where
  cells : List Cell
  copies : List Copy
  /-- MODEL: the cellids that the cells had, which what they have posted to peers still bears. -/
  ids : List Nat := []
deriving DecidableEq, Repr

/-- A gang (spec 04 R87, R100; 11 R251; 20 R401). -/
structure Gang where
  launch : Nat
  group : Nat
  idx : Nat
  st : GState
  core : Nat
  cells : List Nat
  lsBase : Nat
  hdr : Hdr
  win : List Word := [0, 0, 0, 0]
  tmax : List W32 := List.replicate 16 0
  /-- Hand-off queues by number, once bound (06 R152). -/
  hoq : Option (Tab (List HoqEntry)) := none
  /-- What its queues hold while it resumes on a core that has too few buffers free (06 R152). -/
  hoqSaved : Tab (List HoqEntry) := []
  imgv : BitVec 4 := 0
  dirty : BitVec 4 := 0
  /-- Where its context block lies, once it has been written (18 R383). -/
  block : Option Nat := none
  /-- A matrix record that a forced landing took, or that waits to be completed (11 R270). -/
  mrec : Option MatRec := none
  claim : Option Word := none
  /-- A cell of the gang has ended by a plain RETIRE (20 R401). -/
  plain : Bool := false
  /-- Rises with each placement. -/
  placed : Nat := 0
  /-- The item for which the gang is pre-empted (04 R95). -/
  victim : Option Nat := none
  saved : Option Saved := none
  /-- MODEL: the heir's descriptor and header as read when R403 passed, until the hand-over is done (20 R405). -/
  heir : Option (List Byte × Hdr) := none
  /-- The segments an heir has from its predecessor, by number; its header keeps its own slots (02 R53, 20 R406). -/
  segs : Tab (Word × Word) := []
  /-- MODEL: a pre-emption was ordered during the hand-over (20 R409). -/
  ordered : Bool := false
deriving DecidableEq, Repr

/-- States of a hive group (spec 04 R99). -/
inductive GrpState where
  | waiting | placed | done
deriving DecidableEq, Repr, Inhabited

/-- A hive group (spec 02 R48, 04 R90). -/
structure Group where
  launch : Nat
  /-- Its place in the launch's hive-group order, and its die group. -/
  num : Nat
  dieGroup : Nat
  hive : Nat
  st : GrpState
deriving DecidableEq, Repr, Inhabited

/-- States of a launch (spec 04 R98). -/
inductive LState where
  | assigned | running | complete
deriving DecidableEq, Repr, Inhabited

/-- The first kill of a launch (spec 03 R73). -/
structure Kill where
  code : Nat
  cell : Nat
  val : Word
deriving DecidableEq, Repr, Inhabited

/-- A launch (spec 03 R73, 04 R98, 20 R411). -/
structure Launch where
  st : LState
  part : Nat
  queue : Nat
  asid : Nat
  seq : Nat
  hdr : Hdr
  /-- The packet's PSIG, IRQ and VEC; none for a sibling. -/
  psig : Word := 0
  irq : Option Nat := none
  lgen : Nat := 0
  refs : List Nat := []
  items : Nat := 0
  gangs : Nat := 0
  killed : Nat := 0
  heirs : Nat := 0
  preempts : Nat := 0
  start : Option Nat := none
  first : Option Kill := none
  /-- Some gang was killed with a code other than K_CANCELLED; some with K_CANCELLED or discarded; ended by HEIR_SHAPE. -/
  hard : Bool := false
  cancelled : Bool := false
  heirShape : Option Word := none
  /-- Brood handle and sibling index of a sibling launch. -/
  sib : Option (Nat × Nat) := none
  /-- R45 failed: the launch is FAILED and only its completion is left (04 R98). -/
  failed : Bool := false
deriving DecidableEq, Repr, Inhabited

/-- A write that has been performed: its number, the bytes it replaced, and the agent that made it (spec 13 R288). The agent's writes up to
the numbers of `base` were performed before it, by scope (13 R291, R295). -/
structure OldBytes where
  n : Nat
  key : Nat
  data : List Byte
  who : Agent
  base : Tab Nat := []
deriving DecidableEq, Repr, Inhabited

/-- A packet that holds its queue (spec 03 R67). -/
inductive QBusy where
  | none
  | waitsig (since : Nat)
  | waits
  /-- A read for the packet waits for the pager; when a WAITSIG was taken. -/
  | fault (id : Nat) (since : Option Nat)
  /-- The packet's completion waits for its writes. -/
  | completing
deriving DecidableEq, Repr, Inhabited

/-- A queue (spec 03 R60). -/
structure Queue where
  qbase : Word := 0
  qctl : Word := 0
  state : Nat := 0
  hcode : Nat := 0
  werr : Bool := false
  dberr : Bool := false
  qrd : Nat := 0
  qwr : Nat := 0
  qgrant : Word := 0
  busy : QBusy := .none
  /-- The packet that was taken and holds the queue, as it was read (03 R67). -/
  pkt : List Byte := []
  /-- MODEL: what happens before the take of its next packet, as a number of `State.hist`: a header is read as it stood then or later
  (02 R44). -/
  floor : Nat := 0
deriving DecidableEq, Repr, Inhabited

/-- A loaded code object, or the retired ranges of one (spec 03 R70, 20 R411 to R414). -/
structure Obj where
  part : Nat
  asid : Nat
  text : Nat
  textSz : Nat
  rd : Nat
  rdSz : Nat
  data : Nat
  dataSz : Nat
  ktab : Nat
  rev : Nat
  nkern : Nat
  refs : Nat
  gen : Bool
  /-- The generation at which its count reached zero; its handle then names nothing. -/
  ugen : Option Nat := none
  unmapped : Bool := false
  /-- The physical pages, by number, that hold it until it is unmapped (20 R412). -/
  pages : List Nat := []
deriving DecidableEq, Repr, Inhabited

/-- Statuses of a sibling (spec 16 R354): PENDING, JOINED and the codes 2 to 8. -/
structure Sib where
  status : Nat := 0
  reward : W32 := 0
  adv : W32 := 0
  launch : Option Nat := none
deriving DecidableEq, Repr, Inhabited

/-- States of a brood (spec 16 R360). -/
inductive BState where
  | running | preempted | complete
deriving DecidableEq, Repr, Inhabited

/-- A wgsend that waits for room in a mailbox (spec 14 R325). -/
structure WgWait where
  target : Nat
  cell : Nat
  gang : Nat
  wag : Waggle
deriving DecidableEq, Repr, Inhabited

/-- A brood's table entry in use (spec 16 R337, R360). -/
structure Brood where
  handle : Nat
  part : Nat
  asid : Nat
  st : BState
  desc : List Byte
  sibs : List Sib
  /-- Pool entries owned, by entry, with the sibling; pool entries marked bad. -/
  owned : Tab Nat := []
  bad : List Nat := []
  /-- Leaves that a sibling's copies rewrote: leaf address, sibling, the prompt mapping (16 R346). -/
  copied : List (Nat × Nat × Word) := []
  werr : Bool := false
  /-- Resident nanoseconds counted so far, and when the clock last ran from. -/
  time : Nat := 0
  clock : Option Nat := none
deriving DecidableEq, Repr, Inhabited

/-! ### Cores, hives, dies -/

/-- A vector instruction in flight: what it changed, so that a forced landing can take back the elements it did not reach
(spec 09 R223, R225). -/
structure VFlight where
  cell : Nat
  gang : Nat
  enc : Word
  pc : Word
  count : Nat
  /-- Elements in one element group. -/
  step : Nat
  old : List Held := []
  xa : Word
  xb : Word
  xc : Word
  /-- The elements of a store; the registers that a load fills. -/
  stores : List VStore := []
  waits : List Dst := []
deriving DecidableEq, Repr, Inhabited

/-- The instruction in a core's matrix unit (spec 11 R253, R268). -/
structure MUnit where
  cell : Nat
  gang : Nat
  /-- It needs the lease, so its completion counts in QLEFT. -/
  counts : Bool := true
  /-- The MOPA, and the first row of its next step. -/
  mopa : Option MatRec := none
  row : Nat := 0
  consumed : Bool := false
  /-- The word that OCS decrements, by key. -/
  ocs : Option Nat := none
  /-- MODEL: its place among the accesses of its cell, and the number of `State.hist` at its issue: an operand that a later write touched is
  read as it stood at any moment since (11 R268, R269). -/
  mark : Nat := 0
  stamp : Nat := 0
  /-- The tile that an MRSTR loads, and the key it loads it from (18 R377). -/
  load : Option (Nat × Nat) := none
deriving DecidableEq, Repr, Inhabited

/-- A barrel (spec 06 R129 to R132). -/
structure Barrel where
  /-- The set of the rotation: slot numbers. -/
  set : List Nat := []
  /-- Members kept from the rotation before. -/
  kept : List Nat := []
  /-- The next slot to consider in this rotation. -/
  pos : Nat := 0
  cycle : Nat := 0
  /-- Each slot's last turn. -/
  last : Tab Nat := []
deriving DecidableEq, Repr, Inhabited

/-- A line of an instruction cache (spec 05 R109): the physical line serves the hive cache's coherence. -/
structure ILine where
  asid : Nat
  line : Nat
  pa : Nat
  data : List Byte
deriving DecidableEq, Repr, Inhabited

/-- An entry of a TLB (spec 07 R169): page base, the log of its size, and the leaf. -/
structure TlbEntry where
  asid : Nat
  base : Nat
  size : Nat
  leaf : Word
  /-- Where the leaf lies. -/
  at_ : Nat
deriving DecidableEq, Repr, Inhabited

/-- Capacity of a core that came free and is reserved to waiting items: a gang, a hive group or a COR launch, by its number (spec
04 R91, R95). -/
structure Rsv where
  /-- Each item, and whether it is a COR launch that waits: otherwise the capacity was freed by a pre-emption for it, which comes first. -/
  items : List (Nat × Bool)
  slots : List Nat
  units : List Nat
  tiles : Nat
deriving DecidableEq, Repr, Inhabited

/-- A core (spec 04 R87, 06 R129, 10 R245, 11 R249). -/
structure Core where
  barrel : Barrel := {}
  icache : List ILine := []
  holder : Option Nat := none
  occupant : Option Nat := none
  qleft : Nat := 0
  /-- Gangs that wait for the lease, in order. -/
  leaseQ : List Nat := []
  unit : Option MUnit := none
  /-- The array: nonzero words by tile × 4,096 + row × 64 + column (11 R249). -/
  tiles : Tab W32 := []
  vec : List VFlight := []
  copies : List Copy := []
  /-- The engine's own fault sequence number (10 R241). -/
  copySeq : Nat := 0
  laneFails : List Nat := []
  rsv : List Rsv := []
deriving DecidableEq, Repr, Inhabited

/-- A hive's caches (spec 05 R109, 07 R169). -/
structure Hive where
  icache : List ILine := []
  tlb : List TlbEntry := []
  /-- Placement has stopped for a move (01 R16). -/
  moving : Bool := false
deriving DecidableEq, Repr, Inhabited

/-- A die's dispatch unit and last-level TLB (spec 04 R93, 07 R169). -/
structure Die where
  /-- Hive rotor of each partition (04 R90). -/
  rotor : Tab Nat := []
  /-- Placements of the period by partition × 4 + priority, and in all. -/
  counts : Tab Nat := []
  total : Nat := 0
  rr : Nat := 0
  qrr : Nat := 0
  lltlb : List TlbEntry := []
deriving DecidableEq, Repr, Inhabited

/-! ### Accesses under way -/

/-- The read-modify-write operations (spec 06 R142, 14 R312). -/
inductive AmoOp where
  | add | and | or | xor | min | max | minu | maxu | swap | cas
deriving DecidableEq, Repr, Inhabited

/-- What a posted access does at its home (spec 13 R288, R306). -/
inductive PostOp where
  | write (data : List Byte)
  | amo (op : AmoOp) (size : Nat) (src cmp : Word) (dst : Dst)
deriving DecidableEq, Repr, Inhabited

/-- An access to translated memory that its cell has issued and its home has not yet performed. A signal word of a peer that the
dispatch or brood unit updates is one too, with no cell. -/
structure Post where
  /-- MODEL: its number, which orders it against the copies and matrix instructions of its cell. -/
  id : Nat := 0
  home : Home := .hbm
  cell : Nat
  gang : Nat
  launch : Nat
  pa : Nat
  /-- Its DVA, which the report of a lost link names (18 R378). -/
  dva : Nat := 0
  op : PostOp
  /-- An acquire: its cell is parked until it is performed (14 R313). -/
  acq : Bool := false
  /-- A release; the scope of either (13 R294). -/
  rel : Bool := false
  sc : Scope := .pkg
  /-- It is the cell's copy engine's or matrix unit's (13 R284). -/
  eng : Bool := false
  /-- When it was issued, for the completion timeout (14 R329). -/
  time : Nat := 0
deriving DecidableEq, Repr, Inhabited

/-- An operation at an LS or HSP port (spec 07 R164, 14 R322). -/
inductive PortOp where
  | load (n : Nat)
  | lr (n : Nat)
  | store (data : List Byte)
  | sc (data : List Byte)
  | amo (op : AmoOp) (size : Nat) (src cmp : Word)
  | ldfe (keep : Bool)
  | stfe (v : Word) (force : Bool)
  | feprobe
  | feset (full : Bool)
deriving DecidableEq, Repr, Inhabited

/-- A request to a remote LS or another hive's HSP, and its reply once made (spec 07 R165). -/
structure Remote where
  cell : Nat
  gang : Nat
  key : Nat
  ea : Word
  op : PortOp
  posted : Bool
  arrived : Bool := false
  /-- An acquire, a release, and the scope (13 R294). -/
  acq : Bool := false
  rel : Bool := false
  sc : Scope := .pkg
  /-- It is the cell's matrix unit's (13 R284). -/
  eng : Bool := false
  /-- Reply: allowed, and the value. -/
  reply : Option (Bool × Word) := none
deriving DecidableEq, Repr, Inhabited

/-- An ldfe queued at its word (spec 14 R323). -/
structure FeWait where
  key : Nat
  keep : Bool
  cell : Nat
  gang : Nat
  /-- The remote request it came by, if any. -/
  remote : Option Nat
deriving DecidableEq, Repr, Inhabited

/-- Who faulted (spec 07 R170). -/
inductive Faulter where
  | cell (cellid seq : Nat)
  | copy (core id seq : Nat)
  | host (id : Nat)
  | completion (id : Nat)
deriving DecidableEq, Repr, Inhabited

/-- A 32-byte fault record at the pager (spec 07 R170). -/
structure FaultRec where
  who : Faulter
  dva : Nat
  asid : Nat
  kind : Kind
  flags : Nat
  refaults : Nat
  seq : Nat
  remain : Word
  stride : Word
deriving DecidableEq, Repr, Inhabited

/-- A copy-on-write copy in progress at a port (spec 07 R173). -/
structure Cow where
  /-- The hive whose memory port copies. -/
  hive : Nat
  asid : Nat
  dva : Nat
  leafAt : Nat
  page : Nat
  brood : Nat
  sib : Nat
deriving DecidableEq, Repr, Inhabited

/-- A barrier episode: its group (level code, and the gang, group, die group or launch), the cells arrived (gang and index)
(spec 14 R318). -/
structure Episode where
  level : BarLevel
  key : Nat
  arrived : List (Nat × Nat)
deriving DecidableEq, Repr, Inhabited

/-- A host access that waits for the pager, or a later access or doorbell that waits behind a write of the host (spec 03 R57, R64;
13 R300). -/
structure HostAcc where
  id : Nat
  func : Nat
  asid : Nat
  dva : Nat
  n : Nat
  data : Option (List Byte)
  /-- A write with Relaxed Ordering, which later ones may overtake. -/
  relaxed : Bool := false
  /-- It has not been tried: an earlier write waits. -/
  held : Bool := false
  /-- Its last faulting DVA, and how often it refaulted (07 R172). -/
  faultDva : Option Nat := none
  refaults : Nat := 0
  /-- A doorbell: queue and write index. -/
  bell : Option (Nat × Word) := none
deriving DecidableEq, Repr, Inhabited

/-- A completion write (spec 03 R73, R75; 16 R358, R359): bytes, the completion record of a launch, which is formed when it is written, or one
less at a signal word. -/
inductive CompWord where
  | bytes (d : List Byte)
  | record
  | less
deriving DecidableEq, Repr, Inhabited

/-- The completion writes that are left of a launch, packet or brood whose next one waits for the pager (spec 03 R75, 16 R359):
each write with its DVA. -/
structure CompWrite where
  id : Nat
  asid : Nat
  part : Nat
  crec : Word
  /-- The die whose dispatch or brood unit writes. -/
  die : Nat
  writes : List (Nat × CompWord)
  /-- What follows the writes: an MSI-X vector, the packet of a queue or the launch they complete, or the brood. -/
  irq : Option Nat := none
  queue : Option Nat := none
  launch : Option Nat := none
  brood : Option Nat := none
  /-- STAMP and BCSIG of the brood follow (16 R358). -/
  stamps : Bool := false
deriving DecidableEq, Repr, Inhabited

/-- One end of a UCIe module (spec 14 R327, R330). -/
structure LinkEnd where
  /-- Trained, in the HUB stage of start-up (01 R7). -/
  up : Bool := false
  off : Bool := false
  deg : Bool := false
  crcerr : Nat := 0
  flits : Nat := 0
  epis : Nat := 0
  degs : Nat := 0
  trains : Nat := 0
  /-- Next sequence number expected, last sent, and unacknowledged numbers kept for replay. -/
  rxNext : Nat := 1
  txNext : Nat := 1
  replay : List Nat := []
  /-- A negative acknowledgement has been sent for this number in this episode; how many for it. -/
  nak : Option Nat := none
  naks : Nat := 0
  /-- The other end has sent again what follows the number named; flits it had sent before that are still arriving. -/
  again : Bool := false
  retraining : Bool := false
  /-- The module that took over its traffic (14 R328). -/
  moved : Option Nat := none
deriving DecidableEq, Repr, Inhabited

/-- A UALink station (spec 14 R331). -/
structure Station where
  up : Bool := true
  rpl : Nat := 0
  tmo : Nat := 0
  err : Nat := 0
deriving DecidableEq, Repr, Inhabited

/-- A PCIe function's own registers (spec 03 R56, R57, R419). -/
structure Func where
  winbase : Word := 0
  ferr : Word := 0
  /-- MSI-X table and pending words by offset from 0x1_2000. -/
  msix : Tab Word := []
  /-- MSI-X Enable and Function Mask of the function's MSI-X capability (PCIe). -/
  msixOn : Bool := false
  msixMask : Bool := false
deriving DecidableEq, Repr, Inhabited

/-- SPDM over Data Object Exchange (spec 01 R12). -/
structure Spdm where
  version : Bool := false
  caps : Bool := false
  negotiated : Bool := false
  /-- The messages so far up to the algorithms, and those of the certificates since: what the signature of a CHALLENGE covers (SPDM 1.3). -/
  vca : List Byte := []
  certs : List Byte := []
deriving DecidableEq, Repr, Inhabited

/-- A fault report as posted (spec 18 R393). -/
structure Report where
  kind : Nat
  code : Nat
  part : Nat
  cell : Nat
  kval : Word
  time : Nat
  crec : Word
  cause : Word
  tepc1 : Word
  tepc2 : Word
  seq : Nat
deriving DecidableEq, Repr, Inhabited

/-- What a request to host or peer memory asks for (spec 07 R175, 06 R142, 14 R312). -/
inductive FabOp where
  | load
  | lr
  | sc (v : Word)
  | amo (op : AmoOp) (src cmp : Word)
deriving DecidableEq, Repr, Inhabited

/-- What the device sends out. -/
inductive Out where
  | msix (func vec : Nat)
  | report (addr : Nat) (r : Report)
  | data (func : Nat) (d : List Byte)
  | completerAbort (func : Nat)
  | unsupported (func : Nat)
  | hostWrite (addr : Nat) (d : List Byte)
  | peerWrite (acc addr : Nat) (d : List Byte)
  | peerAtomic (acc addr : Nat) (op : AmoOp) (size : Nat) (src cmp : Word)
  | request (cell : Nat) (home : Home) (addr n : Nat) (op : FabOp)
  | spdm (func code : Nat) (d : List Byte)
  | ack (fin : Nat) (seq : Nat) (ok : Bool)
  | peerReply (ok : Bool) (d : List Byte)
  | heat (region die count : Nat)
deriving DecidableEq, Repr, Inhabited

/-- MODEL: which agent moves next: a step of the device, or a turn of a core's barrel (log 1). The opcode table has no row for a
host's read of a register, for its BAR4 write with Relaxed Ordering, and for the pager's reads and clears of the heat counters; these
are acts too (spec 01 R6, R8; 03 R60, R64, R419; 07 R174). -/
inductive Act where
  | event (i : Instr)
  | turn (core : Nat)
  | registerRead (func off size : Nat)
  | relaxedWrite (func off : Nat) (data : List Byte)
  | heatRead (region die : Nat)
  | heatClear (region die : Nat)
deriving DecidableEq, Repr

/-! ### The machine -/

/-- All the state the spec gives the machine, and the model's own fields (agenda, cur, freeCtr, nextId, out). -/
structure State where
  agenda : List Act := []
  /-- The cell whose turn it is. -/
  cur : Nat := 0
  freeCtr : Nat := 0
  nextId : Nat := 1
  /-- Device nanoseconds (06 R154). -/
  qtime : Nat := 0
  /-- Resident cells by cellid (04 R85). -/
  cells : Tab Cell := []
  /-- Fault sequence numbers of slots that no cell occupies now, by cellid (07 R170, R171). -/
  slotSeq : Tab Nat := []
  gangs : Tab Gang := []
  groups : Tab Group := []
  launches : Tab Launch := []
  queues : Tab Queue := []
  objects : Tab Obj := []
  /-- PGEN by partition (20 R412). -/
  pgen : Tab Nat := []
  /-- Broods in use by die × 4,096 + entry; generations of entries (16 R337). -/
  broods : Tab Brood := []
  bgen : Tab Nat := []
  /-- Bytes that are not zero: HBM by physical address, LS at 2^40 + core × 2^19 + offset, HSP at 2^41 + hive × 2^23 +
  offset (07 R159, R161, R167). -/
  mem : List Host.Cell := []
  /-- MODEL: how many writes have been performed, and the bytes that they replaced, newest first: what a read that nothing orders
  after them may still return (13 R288, R289, R293). -/
  stamp : Nat := 0
  hist : List OldBytes := []
  /-- The release sequences that stand at words (13 R292). -/
  rels : List Rel := []
  /-- Keys of the words of LS and HSP that are empty, rising (07 R159, R161). -/
  empties : List Nat := []
  /-- Rotation tags that are not zero, by core × 68 + unit (10 R232). -/
  rot : Tab Nat := []
  /-- HBM lines that are refused, rising (18 R388). -/
  refused : List Nat := []
  feq : List FeWait := []
  /-- Sends that wait for room, in order of arrival (14 R325). -/
  wgq : List WgWait := []
  /-- Heat counters that are not zero, by region × 4 + requesting die (07 R174). -/
  heat : Tab Nat := []
  cores : Tab Core := []
  hives : Tab Hive := []
  dies : Tab Die := []
  /-- Root table of each ASID (07 R166). -/
  roots : Tab Nat := []
  posted : List Post := []
  remotes : Tab Remote := []
  faults : List FaultRec := []
  cows : List Cow := []
  bars : List Episode := []
  hostAccs : List HostAcc := []
  comps : List CompWrite := []
  /-- Management-block registers that differ from their reset values, by offset (01 R6). -/
  mgmt : Tab Word := []
  /-- Port budgets in force that differ from their reset values, by hive × 8 + class (01 R21). -/
  budget : Tab Word := []
  /-- MODEL: the hive move that runs, with its target partition or none for FREE (01 R16). -/
  move : Option (Nat × Option Nat) := none
  /-- Shares in force by partition (04 R94). -/
  share : Tab Word := []
  /-- The compute-die clock is held down (01 R28). -/
  slow : Bool := false
  /-- Partitions whose quiesce is in progress. -/
  quiescing : List Nat := []
  /-- Partitions whose quiesce followed an uncorrectable fault (01 R27). -/
  faultQ : List Nat := []
  funcs : Tab Func := []
  vfEnable : Bool := false
  /-- NumVFs of the SR-IOV capability. -/
  numVfs : Nat := 0
  /-- Configuration registers written, by function × 4,096 + offset (01 R8). -/
  cfg : Tab Nat := []
  spdm : Spdm := {}
  /-- Measurements of the hub and die images (01 R11, R12). -/
  hubHash : List Byte := []
  dieHash : List Byte := []
  alias_ : List Byte := []
  links : Tab LinkEnd := []
  stations : Tab Station := []
  /-- Dies that are unreachable (18 R391). -/
  lost : List Nat := []
  out : List Out := []
deriving DecidableEq, Repr

/-- The machine at power-good: start-up stands at the ROM stage (spec 01 R7), no partition is valid, no cell is resident
(01 R19), every register at its reset value, memory with nothing listed. The fields whose value no rule gives stand at the
values of logs 3, 4, 5, 6, 12 and 16. -/
def State.reset : State := {}

end Sys2Proof.Machine
end

