-- ==== Sys2Proof/Machine/Mem.lean ====
section
/-! DEFINITION. Accessors of the state's tables, and memory: bytes, tags, refused lines, what a write at a home does, and what a read may return (spec 13). -/

namespace Sys2Proof.Machine

/-! ### Numbers of cells, cores, hives and dies (spec 04 R85) -/

/-- The package-wide core of a cell. -/
def coreOf (cell : Nat) : Nat := cell / 8

/-- The package-wide hive (PHIVE bit number) of a core. -/
def hiveOf (core : Nat) : Nat := core / 16

/-- The die of a core. -/
def dieOf (core : Nat) : Nat := core / 256

/-- The hive of a cell. -/
def hiveOfCell (cell : Nat) : Nat := cell / 128

/-- The die of a cell. -/
def dieOfCell (cell : Nat) : Nat := cell / 2048

/-! ### Accessors -/

def State.cell (s : State) (c : Nat) : Cell := Tab.getD s.cells c {}

def State.setCell (s : State) (c : Nat) (v : Cell) : State := { s with cells := Tab.put s.cells c v }

/-- Change a resident cell; nothing where no cell is resident. -/
def State.modCell (s : State) (c : Nat) (f : Cell → Cell) : State := { s with cells := Tab.adjust s.cells c f }

/-- The cell whose turn it is. -/
def State.me (s : State) : Cell := s.cell s.cur

def State.modMe (s : State) (f : Cell → Cell) : State := s.modCell s.cur f

def Gang.empty : Gang :=
  { launch := 0, group := 0, idx := 0, st := .retired, core := 0, cells := [], lsBase := 0, hdr := {} }

def State.gang (s : State) (g : Nat) : Gang := Tab.getD s.gangs g Gang.empty

def State.modGang (s : State) (g : Nat) (f : Gang → Gang) : State := { s with gangs := Tab.adjust s.gangs g f }

/-- The gang of a cell. -/
def State.gangOf (s : State) (c : Nat) : Gang := s.gang (s.cell c).gang

def State.myGang (s : State) : Gang := s.gang s.me.gang

def State.launch (s : State) (l : Nat) : Launch := (Tab.find s.launches l).getD default

def State.modLaunch (s : State) (l : Nat) (f : Launch → Launch) : State := { s with launches := Tab.adjust s.launches l f }

/-- The launch of a cell. -/
def State.launchOf (s : State) (c : Nat) : Launch := s.launch (s.gangOf c).launch

def State.myLaunch (s : State) : Launch := s.launchOf s.cur

def State.core (s : State) (k : Nat) : Core := Tab.getD s.cores k {}

def State.modCore (s : State) (k : Nat) (f : Core → Core) : State := { s with cores := Tab.setD s.cores k {} (f (s.core k)) }

def State.hive (s : State) (h : Nat) : Hive := Tab.getD s.hives h {}

def State.modHive (s : State) (h : Nat) (f : Hive → Hive) : State := { s with hives := Tab.setD s.hives h {} (f (s.hive h)) }

def State.die (s : State) (d : Nat) : Die := Tab.getD s.dies d {}

def State.modDie (s : State) (d : Nat) (f : Die → Die) : State := { s with dies := Tab.setD s.dies d {} (f (s.die d)) }

/-- The key of queue `q` of partition `p`. -/
def queueKey (p q : Nat) : Nat := p * 64 + q

def State.queue (s : State) (k : Nat) : Queue := Tab.getD s.queues k {}

def State.modQueue (s : State) (k : Nat) (f : Queue → Queue) : State :=
  { s with queues := Tab.setD s.queues k {} (f (s.queue k)) }

def State.func (s : State) (f : Nat) : Func := Tab.getD s.funcs f {}

def State.modFunc (s : State) (k : Nat) (f : Func → Func) : State := { s with funcs := Tab.setD s.funcs k {} (f (s.func k)) }

def State.link (s : State) (i : Nat) : LinkEnd := Tab.getD s.links i {}

def State.modLink (s : State) (k : Nat) (f : LinkEnd → LinkEnd) : State :=
  { s with links := Tab.setD s.links k {} (f (s.link k)) }

def State.station (s : State) (i : Nat) : Station := Tab.getD s.stations i {}

def State.modStation (s : State) (k : Nat) (f : Station → Station) : State :=
  { s with stations := Tab.setD s.stations k {} (f (s.station k)) }

/-- Fields of QCTL (spec 03 R60). -/
def Queue.en (q : Queue) : Bool := bit q.qctl.toNat 63
def Queue.asid (q : Queue) : Nat := bits q.qctl.toNat 43 32
def Queue.prod (q : Queue) : Bool := bit q.qctl.toNat 8
def Queue.die (q : Queue) : Nat := bits q.qctl.toNat 5 4
def Queue.ring (q : Queue) : Nat := 2 ^ (bits q.qctl.toNat 3 0 + 4)

/-- The address of the packet of an index. -/
def Queue.slot (q : Queue) (i : Nat) : Nat := q.qbase.toNat + 128 * (i % q.ring)

/-- Send something out of the device. -/
def State.emit (s : State) (o : Out) : State := { s with out := s.out ++ [o] }

/-- Read the device time: it passes by a free amount between two readings and never decreases (spec 06 R154; log 6). -/
def State.tick (s : State) : State :=
  { s with qtime := s.qtime + Config.elapsed s.freeCtr, freeCtr := s.freeCtr + 1 }

/-- Let device time reach at least `t` (an event that a limit fires; log 6). -/
def State.timeTo (s : State) (t : Nat) : State := { s with qtime := max s.qtime t }

/-! ### The management block's storage (spec 01 R6) -/

/-- The reset value of a management-block register, by offset. -/
def mgmtReset (off : Nat) : Word :=
  if off = 0 then 1
  else if off = 0x400 then 2000
  else if 0x500 ≤ off ∧ off < 0x580 then 0x050A1428
  else if 0x600 ≤ off ∧ off < 0x680 then BitVec.allOnes 64
  else if 0x1000 ≤ off ∧ off < 0x2000 then
    match off % 64 / 8 with
    | 0 => BitVec.ofNat 64 (10000 * 65536 + 4000)
    | 1 => BitVec.ofNat 64 (8000 * 65536 + 2000)
    | 2 => BitVec.ofNat 64 (4000 * 65536 + 500)
    | 3 => BitVec.ofNat 64 (10000 * 65536)
    | 4 => BitVec.ofNat 64 (6000 * 65536 + 1000)
    | _ => 0
  else if 0x3000 ≤ off ∧ off < 0x5000 then 16
  else if off = 0x5A00 then 10000
  else 0

def State.mreg (s : State) (off : Nat) : Word := Tab.getD s.mgmt off (mgmtReset off)

def State.setMreg (s : State) (off : Nat) (v : Word) : State := { s with mgmt := Tab.setD s.mgmt off (mgmtReset off) v }

/-- PARTn (spec 01 R13). -/
def State.partReg (s : State) (n : Nat) : Nat := (s.mreg (0x100 + 8 * n)).toNat

/-- PHIVEn (spec 01 R13). -/
def State.phive (s : State) (n : Nat) : Nat := (s.mreg (0x180 + 8 * n)).toNat

def State.partValid (s : State) (n : Nat) : Bool := decide (n < 16) && bit (s.partReg n) 63

/-- QN of a valid partition, else 0. -/
def State.qn (s : State) (n : Nat) : Nat := if s.partValid n then bits (s.partReg n) 7 0 else 0

/-- The partition that holds a hive (spec 01 R13, R19). -/
def State.partOfHive (s : State) (h : Nat) : Option Nat :=
  (List.range 16).find? fun n => s.partValid n && bit (s.phive n) h

/-- The hives of a partition, ascending. -/
def State.hivesOf (s : State) (n : Nat) : List Nat :=
  if s.partValid n then (List.range 64).filter fun h => bit (s.phive n) h else []

/-- The partition a function reaches (spec 03 R56). -/
def State.partOfFunc (s : State) (f : Nat) : Option Nat :=
  if f < 16 then (List.range 16).find? fun n => s.partValid n && (bits (s.partReg n) 59 56 == f) else none

/-- A core that placement may use (spec 04 R86). -/
def State.live (s : State) (core : Nat) : Bool := bit (s.mreg (0x600 + 8 * (core / 64))).toNat (core % 64)

/-- A function does not send a vector now: MSI-X is not enabled, the function is masked, or the vector's mask bit is set, as PCIe gives
(spec 03 R419; log 18: the reset values are PCIe's too). -/
def Func.masked (f : Func) (vec : Nat) : Bool :=
  !f.msixOn || f.msixMask || bit (Tab.getD f.msix (16 * vec + 8) (BitVec.ofNat 64 (2 ^ 32))).toNat 32

/-- Raise an MSI-X vector of a function (spec 03 R67): sent, or held in the pending bit while it is masked (03 R419). -/
def State.msix (s : State) (f vec : Nat) : State :=
  if (s.func f).masked vec then
    s.modFunc f fun r => { r with msix := Tab.setD r.msix 0x1000 0 (Tab.getD r.msix 0x1000 0 ||| BitVec.ofNat 64 (2 ^ vec)) }
  else s.emit (.msix f vec)

/-! ### Memory -/

/-- Key of an LS byte. -/
def lsKey (core off : Nat) : Nat := 2 ^ 40 + core * 2 ^ 19 + off

/-- Key of an HSP byte. -/
def hspKey (hive off : Nat) : Nat := 2 ^ 41 + hive * 2 ^ 23 + off

/-- A key of HBM (spec 07 R167: 512 GiB). -/
def isHbm (key : Nat) : Bool := decide (key < 2 ^ 39)

/-- A key of LS. -/
def isLs (key : Nat) : Bool := decide (2 ^ 40 ≤ key) && decide (key < 2 ^ 40 + 1024 * 2 ^ 19)

/-- A key of HSP. -/
def isHsp (key : Nat) : Bool := decide (2 ^ 41 ≤ key) && decide (key < 2 ^ 41 + 64 * 2 ^ 23)

/-- The core of an LS key. -/
def lsCore (key : Nat) : Nat := (key - 2 ^ 40) / 2 ^ 19

/-- The LS offset of an LS key. -/
def lsOff (key : Nat) : Nat := (key - 2 ^ 40) % 2 ^ 19

/-- What a byte that is not listed reads as (log 3; LS and HSP are scrubbed, 01 R16). -/
def memDefault : Byte := 0

/-- The canonical form of memory: addresses strictly rising, no entry equal to what an unlisted address reads as. -/
def Memory.wf (m : List Host.Cell) : Bool := Tab.wf memDefault m

/-- Read one byte. -/
def State.byte (s : State) (key : Nat) : Byte := Tab.getD s.mem key memDefault

/-- Read `n` bytes. -/
def State.read (s : State) (key n : Nat) : List Byte := (range key n).map s.byte

/-- `n` bytes from key `k` on of a memory whose keys below `k` are gone. -/
def denseBytes : List Host.Cell → Nat → Nat → List Byte
  | _, _, 0 => []
  | [], k, n + 1 => memDefault :: denseBytes [] (k + 1) n
  | (k', b) :: t, k, n + 1 => if k' = k then b :: denseBytes t (k + 1) n else memDefault :: denseBytes ((k', b) :: t) (k + 1) n

/-- The bytes of a long range. -/
def State.span (s : State) (key n : Nat) : List Byte := denseBytes (s.mem.filter fun e => decide (key ≤ e.1)) key n

/-- Read a little-endian number of `n` bytes. -/
def State.readNat (s : State) (key n : Nat) : Nat := leNat (s.read key n)

/-- The entries that list bytes from a key upward. -/
def memRun (key : Nat) : List Byte → List Host.Cell
  | [] => []
  | b :: t => if b = memDefault then memRun (key + 1) t else (key, b) :: memRun (key + 1) t

/-- Store bytes from a key upward. -/
def memPut (m : List Host.Cell) (key : Nat) (d : List Byte) : List Host.Cell :=
  let hi := key + d.length
  (m.filter fun e => decide (e.1 < key)) ++ memRun key d ++ m.filter fun e => decide (hi ≤ e.1)

/-- Store bytes, with no other effect. -/
def State.poke (s : State) (key : Nat) (d : List Byte) : State := { s with mem := memPut s.mem key d }

/-- Two byte ranges share a byte. -/
def overlap (a n b m : Nat) : Bool := decide (a < b + m) && decide (b < a + n) && decide (0 < n) && decide (0 < m)

/-- The line of a hive instruction cache after a write that passed its port (spec 05 R109: coherent). -/
def ILine.refresh (s : State) (key n : Nat) (l : ILine) : ILine :=
  if overlap l.pa 64 key n then { l with data := s.read l.pa 64 } else l

/-- Lines of refused HBM that a write replaces whole (spec 18 R388). -/
def clearRefused (l : List Nat) (key n : Nat) : List Nat :=
  l.filter fun pa => !(decide (key ≤ pa) && decide (pa + 64 ≤ key + n))

/-- Wake the cells that wait on a signal word of the range: it is reread whenever it is written (spec 14 R316). -/
def wakeSignal (key n : Nat) (c : Cell) : Cell :=
  match c.run with
  | .parked (.signal k _) => if overlap k 8 key n then { c with run := .ready } else c
  | _ => c

/-- The effect of a write on one cell: the waiters of the word wake, and another agent's write breaks the reservation on its
granule (spec 06 R142). -/
def writeSeen (who : Agent) (key n : Nat) (c : Nat) (v : Cell) : Cell :=
  let v := wakeSignal key n v
  match v.resv with
  | some g => if who != .cell c && overlap g 64 key n then { v with resv := none } else v
  | none => v

/-- What is performed before an agent's next write, of its own writes: what the fences of a cell have ordered (spec 13 R295). -/
def State.baseOf (s : State) : Agent → Tab Nat
  | .cell c => (s.cell c).base
  | _ => []

/-- A write performed at its home: the bytes, the place in coherence order (spec 13 R288), the caches it passes, reservations and
waiters. `who` is the agent; `hive` the port it passed. A plain write ends the release sequence that stood at its bytes (13 R292). -/
def State.write (s : State) (who : Agent) (hive : Option Nat) (key : Nat) (d : List Byte) : State :=
  let s1 := { s.poke key d with
    stamp := s.stamp + 1
    hist := { n := s.stamp + 1, key, data := s.read key d.length, who, base := s.baseOf who } :: s.hist
    rels := s.rels.filter fun r => !overlap r.key r.size key d.length
    refused := clearRefused s.refused key d.length
    cells := s.cells.map fun e => (e.1, writeSeen who key d.length e.1 e.2) }
  match hive with
  | some h => s1.modHive h fun v => { v with icache := v.icache.map fun l => l.refresh s1 key d.length }
  | none => s1

/-- A write of a context block, in memory that no ASID maps (spec 18 R383): no cell reads its bytes or waits on its words. -/
def State.writeBlock (s : State) (key : Nat) (d : List Byte) : State := { s.poke key d with refused := clearRefused s.refused key d.length }

/-- The pieces of a range of `n` bytes at `a` that lie in one aligned unit of `u` bytes each: offset and length. -/
def chunks (u a n : Nat) : List (Nat × Nat) :=
  ((List.range (n / u + 2)).map fun j =>
    let lo := max a ((a / u + j) * u)
    let hi := min (a + n) ((a / u + j + 1) * u)
    (lo - a, hi - lo)).filter fun p => p.2 != 0 && decide (p.1 < n)

/-- The least unit of a list of pieces, and how many units it spans. -/
def unitSpan (u : Nat) (ps : List (Nat × List Byte)) : Nat × Nat :=
  match (ps.map fun p => p.1 / u).min?, (ps.map fun p => (p.1 + p.2.length - 1) / u).max? with
  | some lo, some hi => (lo, hi + 1 - lo)
  | _, _ => (0, 0)

/-- A write of pieces whose aligned units of `u` bytes take their places in coherence order one by one, whichever pieces a unit's bytes come
from, and from a unit chosen by `turn` on (spec 10 R237, R247; 13 R287). -/
def State.writeUnits (s : State) (who : Agent) (hive : Option Nat) (u : Nat) (ps : List (Nat × List Byte)) (turn : Nat) : State :=
  let (lo, n) := unitSpan u ps
  { ps.foldl (fun s p => s.write who hive p.1 p.2) s with
    stamp := s.stamp + n
    hist := (ps.flatMap fun p => (chunks u p.1 p.2.length).map fun q =>
      { n := s.stamp + 1 + ((p.1 + q.1) / u - lo + turn) % n, key := p.1 + q.1, data := s.read (p.1 + q.1) q.2, who, base := s.baseOf who : OldBytes })
      ++ s.hist }

/-- A write of any length at places that lie one after the other: each aligned piece of eight bytes takes its place in coherence order on its
own, from one of them on by a free choice (spec 13 R287; log 22). -/
def State.writeLong (s : State) (who : Agent) (hive : Option Nat) (key : Nat) (d : List Byte) : State :=
  s.writeUnits who hive 8 [(key, d)] (Config.copyWordTime s.freeCtr key)

/-! ### What a read may return (spec 13 R286 to R293) -/

/-- A scope's place in the order of R286. -/
def Scope.rank : Scope → Nat
  | .cell => 0
  | .gang => 1
  | .hive => 2
  | .die => 3
  | .pkg => 4
  | .pod => 5

/-- The cell that an agent is, or acts for. -/
def Agent.cell? : Agent → Option Nat
  | .cell c | .engine c => some c
  | _ => none

/-- The pair scope of a cell and an agent (spec 13 R284, R286). -/
def State.pairRank (s : State) (c : Nat) : Agent → Nat
  | .cell e | .engine e =>
    if c = e then 0
    else if (s.cell c).gang = (s.cell e).gang && (Tab.find s.cells e).isSome then 1
    else if hiveOfCell c = hiveOfCell e then 2
    else if dieOfCell c = dieOfCell e then 3
    else 4
  | .port h => if hiveOfCell c = h then 2 else if dieOfCell c = h / 16 then 3 else 4
  | .die d => if dieOfCell c = d then 3 else 4
  | .host => 4
  | .peer => 5

/-- Put back the bytes that a write replaced, in `d` read at `key`. -/
def OldBytes.undo (key : Nat) (d : List Byte) (o : OldBytes) : List Byte :=
  d.zipIdx.map fun e => if o.key ≤ key + e.2 then (o.data[key + e.2 - o.key]?).getD e.1 else e.1

/-- The writes to a byte range after number `t`, newest first. -/
def State.writesAfter (s : State) (t key n : Nat) : List OldBytes := s.hist.filter fun o => decide (t < o.n) && overlap o.key o.data.length key n

/-- `n` bytes as they stood after write number `t`. -/
def State.readAt (s : State) (t key n : Nat) : List Byte := (s.writesAfter t key n).foldl (OldBytes.undo key) (s.read key n)

/-- What is known covers a write. -/
def Known.covers (s : State) (k : Known) (o : OldBytes) : Bool :=
  decide (k.start < o.n) && decide (o.n ≤ k.n)
  && (o.who == k.who || (match k.who.cell?, k.near with | some c, some sc => decide (s.pairRank c o.who ≤ Scope.rank sc) | _, _ => false))
  && !k.miss.any fun m => m.1 == o.who && decide (m.2.1 < o.n) && decide (o.n ≤ m.2.2)

/-- Add what is known, one entry for each agent, scope, start, and agents missed. -/
def Known.add (l : List Known) (k : Known) : List Known :=
  let same (x : Known) : Bool := x.who == k.who && x.near == k.near && x.start == k.start && x.miss.map (·.1) == k.miss.map (·.1)
  match l.find? same with
  | some x => if x.n < k.n then k :: l.filter (fun y => !same y) else l
  | none => k :: l

/-- The greatest of the numbers of some writes, and of `a`. -/
def newest (a : Nat) (l : List OldBytes) : Nat := l.foldl (fun a o => max a o.n) a

/-- The last write of a byte range that a read by the cell may not miss: what happens before it, its own writes, what its fences and acquires
order, what it has read, and in the end every write (spec 13 R288, R293, R295, R308). -/
def State.orderedTo (s : State) (c key n : Nat) : Nat :=
  let v := s.cell c
  let must := (s.writesAfter v.floor key n).filter fun o => o.who == .cell c || v.known.any fun k => k.covers s o
  let saw := v.saw.filter fun e => decide (key ≤ e.1) && decide (e.1 < key + n)
  saw.foldl (fun a e => max a e.2) (newest (max v.floor (min s.stamp (v.start + v.looks / (Config.readPatience + 1)))) must)

/-- A read of `n` bytes by a cell from number `lo` on: the bytes as they stand, or where writes to them are not ordered before it, as they
stood after one of these, by a free choice (spec 13 R289, R293; log 7). The number read at is the second component. -/
def State.pickView (s : State) (lo key n : Nat) : List Byte × Nat :=
  if (s.writesAfter lo key n).isEmpty then (s.read key n, s.stamp)
  else
    let t := lo + Config.readView s.freeCtr key % (s.stamp + 1 - lo)
    (s.readAt t key n, t)

/-- A cell lies in the instance of a hand-over's SCOPE around a cell's core: core, hive, die or package (spec 02 R52, 13 R302). -/
def handScope (code c w : Nat) : Bool :=
  match code with
  | 0 => coreOf c == coreOf w
  | 1 => hiveOfCell c == hiveOfCell w
  | 2 => dieOfCell c == dieOfCell w
  | _ => true

/-- The hand-overs of a list, newest first, from the first whose scope leaves a cell out (spec 13 R302). -/
def pastGone (c w : Nat) (l : List Handover) : List Handover := l.dropWhile fun h => handScope h.scope c w

/-- The writes of predecessors, for what an observer outside a hand-over's scope learns (spec 13 R302). -/
def pastMiss (l : List Handover) : List (Agent × Nat × Nat) :=
  l.flatMap fun h => h.cells.flatMap fun d => [(.cell d, 0, h.upto), (.engine d, 0, h.upto)]

/-- A write that a cell's read has given, as what a fence or an acquire then orders (spec 13 R296): every write up to it, but of its own
agent's only those performed before it at a scope that holds the reader, and none of the predecessors of an heir outside the hand-over's
scope. The host's writes are performed in their order (R300). -/
def State.given (s : State) (c : Nat) (o : OldBytes) : Known :=
  let rank := s.pairRank c o.who
  let lo := (o.base.filter fun e => decide (rank ≤ e.1)).foldl (fun a e => max a e.2) 0
  let past := match o.who.cell? with
    | some w => pastMiss (pastGone c w ((s.cell w).outer.filter fun h => decide (h.upto < o.n)))
    | none => []
  { who := .cell c, n := o.n, miss := if o.who = .cell c || o.who = .host then [] else (if lo < o.n then [(o.who, lo, o.n)] else []) ++ past }

/-- The writes that a cell's read of `n` bytes at number `t` gives, where they do not happen before it: by byte. -/
def State.gives (s : State) (c t key n : Nat) : List (Nat × OldBytes) :=
  let l := (s.writesAfter (s.cell c).floor key n).filter fun o => decide (o.n ≤ t)
  (range key n).filterMap fun b => (l.find? fun o => overlap o.key o.data.length b 1).map fun o => (b, o)

/-- A cell has read bytes as they stood at number `t`: it may not read an older write of them again (spec 13 R288). -/
def State.noteRead (s : State) (c t key n : Nat) : State :=
  let l := s.gives c t key n
  if l.isEmpty then s
  else s.modCell c fun v =>
    { v with saw := l.foldl (fun a e => Tab.put a e.1 e.2.n) v.saw, sight := (l.map fun e => s.given c e.2).foldl Known.add v.sight }

/-- A plain read by a cell: what it sees, and what it may then no longer miss (spec 13 R288). -/
def State.readBy (s : State) (c key n : Nat) : State × List Byte :=
  let lo := s.orderedTo c key n
  let (d, t) := s.pickView lo key n
  let s1 := s.noteRead c t key n
  (if (s.writesAfter lo key n).isEmpty then s1 else s1.modCell c fun v => { v with looks := v.looks + 1 }, d)

/-- What has been performed up to number `n` happens before the cell's later accesses. -/
def Cell.orderAll (n : Nat) (v : Cell) : Cell :=
  { v with floor := max v.floor n, saw := v.saw.filter fun e => decide (n < e.2)
           known := v.known.filter fun k => decide (n < k.n), sight := v.sight.filter fun k => decide (n < k.n) }

/-- A cell starts its work, or starts again after a landing: what has been performed up to number `n` happens before it (spec 13 R300, R302,
R307). -/
def Cell.fromNow (n : Nat) (v : Cell) : Cell :=
  { v with floor := n, start := n, saw := [], known := [], sight := [], sent := 0, looks := 0, base := [(Scope.rank .pkg, n)], outer := [] }

/-- What a cell may no longer miss, and its copies with it, kept from the item before (spec 02 R51: the program order of the cell goes on). -/
def Cell.keepView (old v : Cell) : Cell :=
  { v with floor := old.floor, start := old.start, saw := old.saw, known := old.known, sight := old.sight, sent := old.sent, looks := old.looks
           base := old.base, outer := old.outer, copyFenced := old.copyFenced }

/-- A cell's later reads come after what is known, for writes of agents within a scope (spec 13 R295, R296). -/
def State.orderAfter (s : State) (c : Nat) (sc : Scope) (l : List Known) : State :=
  s.modCell c fun v => { v with known := (l.map fun k => { k with near := some sc }).foldl Known.add v.known }

/-- All that has been performed so far, as what an order takes in. -/
def State.upToNow (s : State) (c : Nat) : Known := { who := .cell c, n := s.stamp }

/-- A fence of the cell, or an acquire outside the device, at a scope: reads after it come after its reads before it, with class r, and after
its writes before it, with class w (spec 13 R295, R296). -/
def State.orderReads (s : State) (c : Nat) (r w : Bool) (sc : Scope) : State :=
  let v := s.cell c
  let own := newest v.sent (s.hist.filter fun o => o.who == .cell c)
  s.orderAfter c sc ((if r then v.sight else []) ++ if w && decide (v.floor < own) then [{ who := .cell c, n := own }] else [])

/-- A fence of the cell with class w: its later writes come after those before it, for agents within a scope (spec 13 R295). -/
def State.orderWrites (s : State) (c : Nat) (sc : Scope) : State := s.modCell c fun v => { v with base := Tab.put v.base (Scope.rank sc) s.stamp }

/-- What a cell learns by synchronising with a release: what happens before it, and what its agent had read newer; outside the scope of an
heir's hand-over, nothing that its predecessor did (spec 13 R291, R293, R302). -/
def Cell.learn (v : Cell) (c : Nat) (r : Rel) : Cell :=
  let gone := pastGone c (r.who.cell?.getD 0) r.outer
  let (more, floor) := match gone with
    | [] => (r.known, r.floor)
    | h :: _ =>
      (if gone.length = r.outer.length then r.known else { who := .cell c, near := some .pod, n := r.floor, miss := pastMiss gone } :: r.known, h.start)
  let saw := r.saw.foldl (fun (t : Tab Nat) (e : Nat × Nat) => Tab.put t e.1 (max e.2 (Tab.getD t e.1 0))) v.saw
  { v with known := more.foldl Known.add v.known, saw }.orderAll floor

/-- An acquire of `n` bytes at a key, which reads them as they stand (spec 13 R291, R292): it synchronises with the releases whose sequence
stands there, where both scopes hold the pair, and orders the reads after it after the write that it read, where its scope holds the writer
(R296); where it does not, it is a plain read. -/
def State.acquire (s : State) (c key n : Nat) (sc : Scope) : State :=
  let meets := s.rels.filter fun r => overlap r.key r.size key n && decide (s.pairRank c r.who ≤ Scope.rank r.scope)
    && decide (s.pairRank c r.who ≤ Scope.rank sc)
  let near := (s.gives c s.stamp key n).filter fun e => decide (s.pairRank c e.2.who ≤ Scope.rank sc)
  ((s.noteRead c s.stamp key n).modCell c fun v => meets.foldl (fun v r => v.learn c r) v).orderAfter c sc (near.map fun e => s.given c e.2)

/-- The release of `n` bytes that an agent makes at a key now: for a cell, or an engine acting for one, what happens before the cell's next
access and what both have written; for a unit, the host or a peer, all that has been performed (spec 13 R291, R298, R300). -/
def State.releaseOf (s : State) (who : Agent) (key n : Nat) (sc : Scope) : Rel :=
  let r : Rel := { key, size := n, who, scope := sc, n := s.stamp, floor := s.stamp }
  match who.cell?.bind fun c => (Tab.find s.cells c).map fun v => (c, v) with
  | none => r
  | some (c, v) =>
    let own (a : Agent) : Known := { who := a, start := if v.outer.isEmpty then 0 else v.start, n := s.stamp }
    { r with floor := v.floor, saw := v.saw, outer := v.outer
             known := [own who, own (.cell c)].foldl Known.add (v.known.filter fun k => k.near.isNone) }

/-- A release has taken effect by the newest write at a key, after everything it covers (spec 13 R291, R292). -/
def State.released (s : State) (who : Agent) (key n : Nat) (sc : Scope) : State :=
  { s with rels := s.releaseOf who key n sc :: s.rels
           hist := s.hist.modifyHead fun o => { o with base := Tab.put o.base (Scope.rank sc) o.n } }

/-- A word's full/empty tag: full (spec 07 R159, R161). -/
def State.full (s : State) (key : Nat) : Bool := !(s.empties.contains (key / 8 * 8))

/-- Set a word's tag. -/
def State.setFull (s : State) (key : Nat) (full : Bool) : State :=
  let k := key / 8 * 8
  { s with empties := if full then removeNat s.empties k else insertNat s.empties k }

/-- A write of a word's tag, which is a part of that word (spec 13 R285, R303): the tag, and what a write of the word does to
other cells' waits and reservations (spec 06 R142; log 64). -/
def State.writeTag (s : State) (who : Agent) (key : Nat) (full : Bool) : State :=
  { s.setFull key full with cells := s.cells.map fun e => (e.1, writeSeen who (key / 8 * 8) 8 e.1 e.2) }

/-- A refused HBM line that a range touches (spec 18 R388). -/
def State.refusedIn (s : State) (key n : Nat) : Option Nat := s.refused.find? fun pa => overlap pa 64 key n

/-- Zero bytes. -/
def zeros (n : Nat) : List Byte := List.replicate n 0

/-- Remove every listed byte of a range. -/
def wipe (m : List Host.Cell) (key n : Nat) : List Host.Cell := m.filter fun e => !(decide (key ≤ e.1) && decide (e.1 < key + n))

/-- Scrub a range to zero with every tag full (spec 01 R16, 20 R406; log 4); no read sees behind it. -/
def State.scrub (s : State) (key n : Nat) : State :=
  { s with mem := wipe s.mem key n, hist := s.hist.filter fun o => !overlap o.key o.data.length key n
           rels := s.rels.filter fun r => !overlap r.key r.size key n
           empties := s.empties.filter fun k => !(decide (key ≤ k) && decide (k < key + n)) }

end Sys2Proof.Machine
end

