-- ==== Sys2Proof/Machine/Trans.lean ====
section
/-! DEFINITION. Reaching memory: header fields, segments, apertures, page tables and TLBs (spec 07). -/

namespace Sys2Proof.Machine

/-! ### Header fields (spec 02 R42) -/

def Hdr.lsu (h : Hdr) : Nat := bits h.ctl0.toNat 55 48
def Hdr.accm (h : Hdr) : Nat := bits h.ctl0.toNat 43 40
def Hdr.hoq (h : Hdr) : Nat := bits h.ctl0.toNat 35 32
def Hdr.cells (h : Hdr) : Nat := bits h.ctl0.toNat 27 24
def Hdr.vgrp (h : Hdr) : Nat := bits h.ctl0.toNat 17 16
def Hdr.prio (h : Hdr) : Nat := bits h.ctl0.toNat 7 6
def Hdr.cor (h : Hdr) : Bool := bit h.ctl0.toNat 3
def Hdr.mig (h : Hdr) : Bool := bit h.ctl0.toNat 2
def Hdr.sib (h : Hdr) : Bool := bit h.ctl0.toNat 1
def Hdr.bhandle (h : Hdr) : Nat := bits h.ctl1.toNat 63 32
def Hdr.leaseq (h : Hdr) : Nat := bits h.ctl1.toNat 31 16
def Hdr.bclass (h : Hdr) : Nat := bits h.ctl1.toNat 9 8

/-- LEASEQ, 0 standing for 256. -/
def Hdr.quantum (h : Hdr) : Nat := if h.leaseq = 0 then 256 else h.leaseq

/-! ### Segments (spec 02 R43, 07 R157, R158) -/

/-- The DVA of byte `off` of a core's LS (spec 07 R162). -/
def lsDva (core off : Nat) : Nat := 2 ^ 56 + dieOf core * 2 ^ 48 + (hiveOf core % 16) * 2 ^ 44 + (core % 16) * 2 ^ 40 + off

/-- The DVA of byte `off` of a hive's HSP. -/
def hspDva (hive off : Nat) : Nat := 2 ^ 56 + 2 ^ 52 + (hive / 16) * 2 ^ 48 + (hive % 16) * 2 ^ 44 + off

/-- segbase and seglim of segment `n` of a gang (spec 02 R43). -/
def Gang.segment (g : Gang) (n : Nat) : Word × Word :=
  if n = 7 then (BitVec.ofNat 64 (lsDva g.core (g.lsBase * 4096)), BitVec.ofNat 64 (g.hdr.lsu * 4096 + 15))
  else if n = 6 then (BitVec.ofNat 64 (hspDva (hiveOf g.core) 0), BitVec.ofNat 64 (8 * 2 ^ 20 + 15))
  else (Tab.find g.segs n).getD ((g.hdr.seg[n]?).getD (0, 0))

/-- The LS units that a gang holds from its base on, and the tiles: in HANDOVER, those of the larger of it and its heir (spec 04 R87, R100; 20
R403). -/
def Gang.units (g : Gang) : Nat := max g.hdr.lsu ((g.heir.map fun e => e.2.lsu).getD 0)
def Gang.tileCount (g : Gang) : Nat := max (popcount g.hdr.accm 4) ((g.heir.map fun e => popcount e.2.accm 4).getD 0)

/-- Rights of a segment (spec 02 R43). -/
def rRead : Nat := 1
def rWrite : Nat := 2
def rAtomic : Nat := 4
def rCopy : Nat := 8

/-- Cause codes (spec 18 R374). -/
def cILLEGAL : Nat := 0x01
def cMISALIGNED : Nat := 0x02
def cSEG_LIMIT : Nat := 0x03
def cSEG_RIGHTS : Nat := 0x04
def cACCESS_FAULT : Nat := 0x05
def cINT_DIVZERO : Nat := 0x06
def cFP_INVALID : Nat := 0x07
def cFP_DIVZERO : Nat := 0x08
def cFP_OVERFLOW : Nat := 0x09
def cWAIT_LIMIT : Nat := 0x0A
def cFE_EMPTY : Nat := 0x0B
def cREMOTE_NACK : Nat := 0x0C
def cREMOTE_NACK_ASYNC : Nat := 0x0D
def cCOPY_RANGE : Nat := 0x0E
def cSWZ_MISMATCH : Nat := 0x0F
def cHEIR_SHAPE : Nat := 0x10
def cBROOD_STATE : Nat := 0x11
def cBAR_SCOPE : Nat := 0x12
def cECALL : Nat := 0x13
def cEBREAK : Nat := 0x14
def cTRAISE : Nat := 0x15
def cLOOP_DEPTH : Nat := 0x16
def cVGRP_ALIGN : Nat := 0x17
def cMATRIX_SHAPE : Nat := 0x18

/-- The segment check of an access of `n` bytes with the rights `need`: the DVA, or a trap's cause and tval (spec 07 R157). -/
def segCheck (g : Gang) (ea : Word) (n need : Nat) : Except (Nat × Word) Nat :=
  let e := ea.toNat
  let (base, lim) := g.segment (bits e 63 61)
  let o := bits e 60 0
  let dva := (base.toNat + o) % 2 ^ 64
  if o + n > lim.toNat / 16 * 16 then .error (cSEG_LIMIT, ea)
  else if (lim.toNat % 16) &&& need != need then .error (cSEG_RIGHTS, ea)
  else if dva / 2 ^ 57 != 0 then .error (cACCESS_FAULT, ea)
  else .ok dva

/-- The DVA of an effective address, with no check. -/
def eaDva (g : Gang) (ea : Word) : Nat := ((g.segment (bits ea.toNat 63 61)).1.toNat + bits ea.toNat 60 0) % 2 ^ 64

/-- The pieces of a range that lie in one page each: offset and length. -/
def pagePieces (dva n : Nat) : List (Nat × Nat) := chunks 65536 dva n

/-! ### Page tables (spec 07 R166, R167) -/

/-- A page-table entry's address field. -/
def pteAddr (w : Nat) : Nat := bits w 43 12 * 4096

def pteTgt (w : Nat) : Nat := bits w 11 10
def pteCow (w : Nat) : Bool := bit w 9
def pteLeaf (w : Nat) : Bool := bit w 6
def pteAt (w : Nat) : Bool := bit w 5
def pteX (w : Nat) : Bool := bit w 4
def pteW (w : Nat) : Bool := bit w 3
def pteR (w : Nat) : Bool := bit w 2
def pteV (w : Nat) : Bool := bit w 0

/-- A malformed entry at a level whose pages have `2^shift` bytes (spec 07 R167). -/
def malformed (level shift w : Nat) : Bool :=
  if pteLeaf w then
    bit w 1 || level < 2 || pteAddr w % 2 ^ shift != 0 || pteTgt w == 3 || (pteTgt w == 0 && bits w 43 39 != 0)
    || (pteTgt w != 2 && bits w 63 44 != 0) || (pteCow w && pteW w) || (pteCow w && shift > 16) || (pteX w && pteTgt w != 0)
  else bit w 1 || level == 4 || bits w 63 44 != 0 || bits w 43 39 != 0 || bits w 11 9 != 0 || bits w 5 2 != 0

/-- What a walk finds: a leaf with its place and the log of its page's size, no present entry, or a refused line. -/
inductive Walk where
  | leaf (w at_ size : Nat)
  | absent (malformed : Bool)
  | bad (pa : Nat)
deriving DecidableEq, Repr

/-- The levels of a walk: number, page size and index width (spec 07 R166). -/
def walkLevels : List (Nat × Nat × Nat) := [(0, 48, 9), (1, 39, 9), (2, 30, 9), (3, 21, 9), (4, 16, 5)]

/-- Walk from a table through the levels given. -/
def walkFrom (s : State) (dva : Nat) : Nat → List (Nat × Nat × Nat) → Walk
  | _, [] => .absent true
  | table, (lvl, shift, width) :: rest =>
    let at_ := table + 8 * (dva / 2 ^ shift % 2 ^ width)
    match s.refusedIn at_ 8 with
    | some pa => .bad pa
    | none =>
      let w := s.readNat at_ 8
      if !pteV w then .absent false
      else if malformed lvl shift w then .absent true
      else if pteLeaf w then .leaf w at_ shift
      else walkFrom s dva (pteAddr w) rest

/-- The walk of a DVA in an ASID. -/
def walk (s : State) (asid dva : Nat) : Walk :=
  match Tab.find s.roots asid with
  | some root => walkFrom s dva root walkLevels
  | none => .absent false

/-- The entry of a TLB that holds a DVA. -/
def tlbFind (t : List TlbEntry) (asid dva : Nat) : Option TlbEntry :=
  t.find? fun e => e.asid == asid && dva / 2 ^ e.size == e.base / 2 ^ e.size

/-- Add an entry to a TLB of `cap` entries, dropping a free choice when it is full (spec 07 R169; log 12). -/
def tlbAdd (cap pick : Nat) (t : List TlbEntry) (e : TlbEntry) : List TlbEntry :=
  if t.length < cap then e :: t else e :: dropAt t (Config.victim pick % cap)

/-- Translate through a die's last-level TLB and the tables (spec 07 R169). -/
def translateDie (s : State) (die asid dva : Nat) : Walk :=
  match tlbFind (s.die die).lltlb asid dva with
  | some e => .leaf e.leaf.toNat e.at_ e.size
  | none => walk s asid dva

/-- Translate through the port's TLB, the die's last-level TLB, and the tables (spec 07 R169). -/
def translate (s : State) (hive asid dva : Nat) : Walk :=
  match tlbFind (s.hive hive).tlb asid dva with
  | some e => .leaf e.leaf.toNat e.at_ e.size
  | none => translateDie s (hive / 16) asid dva

/-- One more of a counter of 16 bits that saturates (spec 07 R174). -/
def heatUp (s : State) (region die : Nat) : State :=
  let k := region * 4 + die
  { s with heat := Tab.setD s.heat k 0 (min 65535 (Tab.getD s.heat k 0 + 1)) }

/-- What a translation leaves behind on a die: where its last-level TLB missed and the walk ended in a leaf, an entry there and heat at the
page's home (spec 07 R169, R174). -/
def noteDie (s : State) (die asid dva : Nat) : State :=
  match tlbFind (s.die die).lltlb asid dva with
  | some _ => s
  | none =>
    match walk s asid dva with
    | .leaf w at_ size =>
      let e : TlbEntry := { asid, base := dva / 2 ^ size * 2 ^ size, size, leaf := BitVec.ofNat 64 w, at_ }
      let s1 := ({ s with freeCtr := s.freeCtr + 1 }).modDie die fun v => { v with lltlb := tlbAdd 16384 s.freeCtr v.lltlb e }
      if pteTgt w = 0 then heatUp s1 ((pteAddr w + dva % 2 ^ size) / 2 ^ 21) die else s1
    | _ => s

/-- What a translation at a hive's port leaves behind: an entry in its TLB too. An aperture address (bit 56 set) is not translated (spec 07
R162, R166, R169). -/
def noteTlb (s : State) (hive asid dva : Nat) : State :=
  if bit dva 56 then s
  else match tlbFind (s.hive hive).tlb asid dva with
  | some _ => s
  | none =>
    let s1 := noteDie s (hive / 16) asid dva
    match tlbFind (s1.die (hive / 16)).lltlb asid dva with
    | some e => ({ s1 with freeCtr := s1.freeCtr + 1 }).modHive hive fun h => { h with tlb := tlbAdd 2048 s1.freeCtr h.tlb e }
    | none => s1

/-- Drop the TLB entries of a page, everywhere in the partition, and with them its instruction-cache lines (spec 07 R169, 05 R117). A line
is dropped whatever the entry becomes, so that no line outlives the translation it was filled by (05 R105, R109). -/
def shootdown (s : State) (asid dva size : Nat) : State :=
  let keep (e : TlbEntry) : Bool := !(e.asid == asid && overlap e.base (2 ^ e.size) dva size)
  let stays (l : ILine) : Bool := !(l.asid == asid && overlap l.line 64 dva size)
  { s with hives := Tab.mapV s.hives fun h => { h with tlb := h.tlb.filter keep, icache := h.icache.filter stays }
           dies := Tab.mapV s.dies fun d => { d with lltlb := d.lltlb.filter keep }
           cores := Tab.mapV s.cores fun k => { k with icache := k.icache.filter stays } }

/-- Drop instruction-cache lines of a range under the ASIDs given, on the hives given (spec 05 R114, R117). -/
def dropLines (s : State) (asids : Nat → Bool) (inHive : Nat → Bool) (first last : Nat) : State :=
  let keep (l : ILine) : Bool := !(asids l.asid && decide (first ≤ l.line) && decide (l.line ≤ last))
  { s with
    hives := s.hives.map fun e => (e.1, if inHive e.1 then { e.2 with icache := e.2.icache.filter keep } else e.2)
    cores := s.cores.map fun e => (e.1, if inHive (hiveOf e.1) then { e.2 with icache := e.2.icache.filter keep } else e.2) }

/-! ### Targets of an access (spec 07 R162 to R168) -/

/-- What an access finds at its DVA. -/
inductive Look where
  /-- HBM, or own LS or HSP, by key. -/
  | key (k : Nat)
  /-- Remote LS or another hive's HSP. -/
  | remote (k : Nat)
  /-- A window register of the cell's own gang. -/
  | window (w : Nat)
  | host (pa : Nat)
  | peer (acc pa : Nat)
  | denied
  | absent (malformed : Bool)
  | cow (leafAt : Nat)
  | bad (pa : Nat)
deriving DecidableEq, Repr

/-- The die that holds a key. -/
def dieOfKey (key : Nat) : Nat :=
  if isHbm key then key / 2 ^ 37 else if isLs key then lsCore key / 256 else (key - 2 ^ 41) / 2 ^ 23 / 16

/-- An access of a die goes to one that has become unreachable: another compute die, or the hub, 4, to the host (spec 18 R391). -/
def State.cutOff (s : State) (die : Nat) (t : Look) : Bool :=
  match t with
  | .key k | .remote k => dieOfKey k != die && s.lost.contains (dieOfKey k)
  | .host _ => s.lost.contains 4
  | _ => false

/-- The gang whose LS allocation holds an offset of a core (spec 07 R163). -/
def lsOwner (s : State) (core off : Nat) : Option Nat :=
  (s.gangs.find? fun e => e.2.core == core && (e.2.st == .running || e.2.st == .landing || e.2.st == .handover)
    && decide (e.2.lsBase * 4096 ≤ off) && decide (off < (e.2.lsBase + e.2.hdr.lsu) * 4096)).map (·.1)

/-- An aperture access of a gang's cell or engine (spec 07 R162 to R164). -/
def aperture (s : State) (gid : Nat) (kind : Kind) (dva n : Nat) : Look :=
  let g := s.gang gid
  let die := bits dva 49 48
  let hive := die * 16 + bits dva 47 44
  let core := hive * 16 + bits dva 43 40
  let off := bits dva 39 0
  if bits dva 55 52 > 1 || bits dva 51 50 != 0 then .denied
  else if s.partOfHive hive != some (s.launch g.launch).part then .denied
  else if bits dva 55 52 = 1 then
    if bits dva 43 40 != 0 || off + n > 8 * 2 ^ 20 then .denied
    else if hive = hiveOf g.core then .key (hspKey hive off) else .remote (hspKey hive off)
  else if overlap off n 0xFFFFFFFF00 32 then
    if core = g.core && n = 8 && off % 8 = 0 && (kind == .load || kind == .store) then .window ((off - 0xFFFFFFFF00) / 8) else .denied
  else if off + n > 278528 then .denied
  else if core = g.core && lsOwner s core off == some gid && decide (off + n ≤ (g.lsBase + g.hdr.lsu) * 4096) then
    .key (lsKey core off)
  else .remote (lsKey core off)

/-- The rights a kind of access needs of a leaf (spec 07 R168). -/
def leafOk (kind : Kind) (w : Nat) : Bool :=
  match kind with
  | .load | .vload | .copyRead => pteR w
  | .store | .vstore | .copyWrite => pteW w
  | .atomic => pteR w && pteW w && pteAt w && pteTgt w != 1
  | .fetch => pteX w && pteTgt w == 0
  | .host | .cow => pteR w

/-- A kind of access that writes. -/
def Kind.writes : Kind → Bool
  | .store | .vstore | .copyWrite | .atomic => true
  | _ => false

/-- What a leaf gives an access (spec 07 R168, R173, R175). -/
def leafLook (kind : Kind) (dva w at_ size : Nat) : Look :=
  let pa := pteAddr w + dva % 2 ^ size
  if kind.writes && pteCow w && (kind != .atomic || (pteR w && pteAt w)) then .cow at_
  else if !leafOk kind w then .denied
  else if pteTgt w = 1 then .host pa
  else if pteTgt w = 2 then .peer (bits w 63 44) pa
  else .key pa

/-- What a gang's access of `n` bytes at a DVA finds. -/
def look (s : State) (gid : Nat) (kind : Kind) (dva n : Nat) : Look :=
  if bit dva 56 then aperture s gid kind dva n
  else
    let g := s.gang gid
    match translate s (hiveOf g.core) (s.launch g.launch).asid dva with
    | .leaf w at_ size => leafLook kind dva w at_ size
    | .absent m => .absent m
    | .bad pa => .bad pa

end Sys2Proof.Machine
end

