-- ==== Sys2Proof/Machine/Gangs.lean ====
section
/-! DEFINITION. What happens to a gang as a whole: the end of an instruction, landings, barriers, kills, retirement, fault
reports (spec 06 R148; 14 R318; 18 R380, R381, R393; 20 R400). -/

namespace Sys2Proof.Machine

/-! ### Fault reports (spec 18 R393) -/

/-- Post a fault report, or count it as lost. -/
def postReport (s : State) (kind code part cell : Nat) (kval crec cause tepc1 tepc2 : Word) : State :=
  let ctl := (s.mreg 0x708).toNat
  let wr := (s.mreg 0x710).toNat
  let rd := (s.mreg 0x718).toNat
  let size := 2 ^ (bits ctl 3 0 + 6)
  if bit ctl 63 && (wr + 2 ^ 64 - rd) % 2 ^ 64 < size then
    let r : Report := { kind, code, part, cell, kval, time := s.qtime, crec, cause, tepc1, tepc2, seq := wr }
    ((s.emit (.report ((s.mreg 0x700).toNat + 64 * (wr % size)) r)).setMreg 0x710 (BitVec.ofNat 64 (wr + 1))).msix 0 (bits ctl 21 16)
  else s.setMreg 0x720 (s.mreg 0x720 + 1)

/-- No cell in a report or record. -/
def noCell : Nat := 0xFFFFFFFF

/-- A refused line met by an agent other than a cell: a report of KIND 2 with STRUCT 8 and the line (spec 18 R389, R393; log 63). -/
def refusalReport (s : State) (part pa : Nat) (crec : Word := 0) : State := postReport s 2 8 part noCell (BitVec.ofNat 64 pa) crec 0 0 0

/-! ### The end of an instruction -/

/-- The loop-back test on the next pc: the stack, the pc, and whether this is an iteration boundary (spec 06 R148). -/
def loopBack (tlev : Nat) : List Loop → Word → List Loop × Word × Bool
  | [], npc => ([], npc, false)
  | l :: t, npc =>
    if l.lev = tlev ∧ npc = l.stop then
      if (l.cnt - l.idx).toNat > 1 then ({ l with idx := l.idx + 1 } :: t, l.start, true)
      else loopBack tlev t npc
    else (l :: t, npc, false)

/-- One turn passes over the early-read hazards of a cell (spec 06 R133). -/
def tickEarly (l : List (Dst × Nat × Nat)) : List (Dst × Nat × Nat) :=
  (l.map fun e => (e.1, e.2.1, e.2.2 - 1)).filter fun e => e.2.2 != 0

/-- A turn of a cell passes: its results with a fixed latency come nearer. -/
def Cell.tick (c : Cell) : Cell := { c with early := tickEarly c.early, earlyV := tickEarly c.earlyV }

/-- The cell after its instruction: no trace of the instruction in progress is left. -/
def Cell.clearInstr (c : Cell) : Cell :=
  { c with since := none, latch := [], pushed := [], stage := 0, reply := none, got := [], limit := none, parcels := none, access := none }

/-- An instruction of cell `c` completes with next pc `npc`: the loop-back test, and a landing at an iteration boundary when
one is ordered (spec 06 R148, R149; 18 R381). -/
def finishCell (s : State) (c : Nat) (npc : Word) : State :=
  let landing := (s.gangOf c).st == .landing
  let s1 := s.modCell c fun v =>
    let (loops, pc, boundary) := loopBack v.tlev v.loops npc
    { v.clearInstr.tick with loops, pc, run := if landing && boundary then .landed else .ready }
  { s1 with freeCtr := s.freeCtr + 1 }

/-- The pc of what a cell is executing: a vector record's, while elements of its store are left, or its own (spec 18 R386). -/
def Cell.excPc (c : Cell) : Word := match c.vrecs.find? fun r => !r.stores.isEmpty with | some r => r.pc | none => c.pc

/-- A cell whose record's store traps leaves what was issued after it, to execute again (log 20). -/
def Cell.leaveRecords (c : Cell) : Cell := if c.vrecs.any fun r => !r.stores.isEmpty then { c with vrecs := [], barp := none } else c

/-- Put one entry at the front of a gang's hand-off queue. -/
def pushFront (s : State) (g c q : Nat) (v : Word) : State :=
  let e : HoqEntry := { id := s.nextId, by_ := c, val := some v }
  let s1 := s.modGang g fun r => { r with hoq := r.hoq.map fun t => Tab.put t q (e :: Tab.getD t q []) }
  { s1 with nextId := s.nextId + 1 }

/-- Wake the cells whose wait satisfies `p`. -/
def wakeWhere (s : State) (p : Nat → Wait → Bool) : State :=
  { s with cells := s.cells.map fun e =>
      (e.1, match e.2.run with | .parked w => if p e.1 w then { e.2 with run := .ready } else e.2 | _ => e.2) }

/-- An instruction of a cell gives back the entries that it had reserved, and their room. -/
def unreserve (s : State) (c : Nat) : State :=
  let v := s.cell c
  if v.pushed.isEmpty then s
  else
    let drop (t : Tab (List HoqEntry)) (e : Nat × Nat) : Tab (List HoqEntry) := Tab.put t e.1 ((Tab.getD t e.1 []).filter fun x => x.id != e.2)
    let s1 := s.modGang v.gang fun g => { g with hoq := g.hoq.map fun t => v.pushed.foldl drop t }
    wakeWhere (s1.modCell c fun v => { v with pushed := [] }) fun k w => w == .hoq && (s.cell k).gang == v.gang

/-- Put the hand-off values a cell has popped for an instruction that did not issue back at the front of their queues, and give back what it
had reserved (spec 06 R137, R153). -/
def unlatch (s : State) (c : Nat) : State :=
  let v := s.cell c
  unreserve ((v.latch.foldl (fun s e => pushFront s v.gang c e.1 e.2) s).modCell c fun v => { v with latch := [] }) c

/-- The waits in which a cell that is ordered to land does so at once (spec 18 R381, 20 R398). -/
def Wait.landsNow : Wait → Bool
  | .regs _ | .remote _ | .fabric .. | .vector | .matrix => false
  | _ => true

/-- Drop the records of a cell at the pager (spec 07 R171). -/
def abandonFaults (s : State) (c : Nat) : State :=
  { s with faults := s.faults.filter fun r => match r.who with | .cell k _ => k != c | _ => true }

/-- The element at which a wait interrupted a vector access. -/
def Wait.elem : Wait → Option Nat
  | .page _ _ _ i => i
  | .cow _ _ _ i => i
  | _ => none

/-- The landing of a vector access parked at an element, which executes again from there (spec 09 R226, 18 R372; log 20): it is recorded,
or, where a trap's record is outstanding, the cell keeps its place. -/
def vecRecord (c : Cell) (w : Wait) : Cell :=
  match w.elem, c.access with
  | some i, some r =>
    if c.csr.vinflt = 0 then
      { c.clearInstr with
        csr := { c.csr with vinflt := 1, vstart0 := BitVec.ofNat 64 (2 ^ 63 + bits c.pc.toNat 17 2 * 2 ^ 32 + i) }
        vrecs := [{ r with idx := i, stores := [], again := true }] }
    else { c.clearInstr with stage := i + 2 }
  | _, _ => c.clearInstr

/-- A cell that is parked while a pre-emption is ordered lands as the table of R381 says; one that waits while its gang's matrix record waits for
the lease lands as one that waits for the lease. -/
def landParked (s : State) (c : Nat) : State :=
  let v := s.cell c
  match v.run with
  | .parked (.bar level limit) =>
    s.modCell c fun v => { v.clearInstr with run := .landed, pc := v.pc + 8, barp := some (level, limit) }
  | .parked w =>
    if w.landsNow || (w == .matrix && (s.gang v.gang).mrec.isSome) then
      let s1 := { abandonFaults (unlatch s c) c with feq := s.feq.filter fun e => !(e.cell == c && e.gang == v.gang), wgq := s.wgq.filter fun e => e.cell != c }
      s1.modCell c fun v => { vecRecord v w with run := .landed, resv := none }
    else s
  | _ => s

/-- The instruction of a cell parked in this wait has issued: a wait for registers, a queue, a line or a page comes before its issue (spec
06 R135, R137, R152; 05 R110; 07 R170, R173). -/
def Wait.issued : Wait → Bool
  | .regs _ | .hoq | .icache _ | .page .. | .cow .. => false
  | _ => true

/-- Park the cell whose turn it is; a pre-emption that is ordered lands it at once where R381 says so. A limit counts from the first
issue (spec 14 R316, R323; 09 R207), and an instruction that has been fetched completes as fetched (05 R115). -/
def parkCell (s : State) (c : Nat) (w : Wait) : State :=
  let s1 := s.modCell c fun v =>
    if w.issued then { v with run := .parked w, since := some (v.since.getD s.qtime) } else { v with run := .parked w }
  if (s1.gangOf c).st == .landing then landParked s1 c else s1

/-! ### Pre-emption orders (spec 18 R381, 04 R95) -/

/-- A gang holds its cells and no pre-emption of it is ordered: it runs, or an heir is being started in it. -/
def Gang.active (g : Gang) : Bool := g.st == .running || (g.st == .handover && !g.ordered)

/-- Order the pre-emption of one running gang; a hand-over completes first (spec 20 R409). PREEMPTS of the launch counts the order, also where the
gang ends before it is SAVED (DESIGN CHOICE, log 81). -/
def orderGang (s : State) (gid : Nat) : State :=
  if (s.gang gid).st == .handover && !(s.gang gid).ordered then
    (s.modGang gid fun g => { g with ordered := true }).modLaunch (s.gang gid).launch fun l => { l with preempts := l.preempts + 1 }
  else if (s.gang gid).st == .running then
    let s1 := s.modGang gid fun g => { g with st := .landing }
    let s2 := (s.gang gid).cells.foldl (fun s c => landParked (s.modCell c fun v => { v with turns := 0 }) c) s1
    s2.modLaunch (s.gang gid).launch fun l => { l with preempts := l.preempts + 1 }
  else s

/-- The clock of a brood stops, counting the time it ran (spec 16 R355). -/
def Brood.stopClock (b : Brood) (now : Nat) : Brood :=
  match b.clock with
  | some t => { b with time := b.time + (now - t), clock := none }
  | none => b

/-- The die of a brood's unit (spec 16 R337). -/
def broodDie (h : Nat) : Nat := bits h 31 30

/-- The table key of a brood handle (spec 16 R337). -/
def broodKey (h : Nat) : Nat := broodDie h * 4096 + bits h 11 0

def State.brood (s : State) (h : Nat) : Option Brood :=
  match Tab.find s.broods (broodKey h) with
  | some b => if b.handle = h then some b else none
  | none => none

def State.modBrood (s : State) (h : Nat) (f : Brood → Brood) : State := { s with broods := Tab.adjust s.broods (broodKey h) f }

/-- The gangs that a pre-emption of `gid` takes with it: every resident gang of a brood's sibling launches (spec 16 R362), or of its COR
launch (04 R95). -/
def preemptSet (s : State) (gid : Nat) : List Nat :=
  let lid := (s.gang gid).launch
  let l := s.launch lid
  match l.sib with
  | some (h, _) =>
    (s.gangs.filter fun e => e.2.active && (match (s.launch e.2.launch).sib with | some (h', _) => h' == h | none => false)).map (·.1)
  | none =>
    if l.hdr.cor then (s.gangs.filter fun e => e.2.active && e.2.launch == lid).map (·.1) else [gid]

/-- Order the pre-emption of a gang with what goes with it; a brood becomes PREEMPTED and its clock stops (spec 16 R360, R362). -/
def orderPreempt (s : State) (gid : Nat) : State :=
  let s1 := (preemptSet s gid).foldl orderGang s
  match (s.launch (s.gang gid).launch).sib with
  | some (h, _) => s1.modBrood h fun b => if b.st == .running then { b.stopClock s.qtime with st := .preempted } else b
  | none => s1

/-! ### Partitions whose dispatch stops (spec 01 R23, R27) -/

/-- The partition of a gang. -/
def partOfGang (s : State) (gid : Nat) : Nat := (s.launch (s.gang gid).launch).part

/-- CKQ. -/
def State.ckq (s : State) : Nat := (s.mreg 0x308).toNat

/-- The partition's dispatch has stopped. -/
def State.quiet (s : State) (p : Nat) : Bool := bit s.ckq p || s.quiescing.contains p || s.faultQ.contains p

/-- Order the pre-emption of every gang that satisfies `p`. -/
def orderAll (s : State) (p : Nat → Gang → Bool) : State :=
  ((s.gangs.filter fun e => e.2.active && p e.1 e.2).map (·.1)).foldl orderPreempt s

/-- Order the pre-emption of a partition's gangs. -/
def orderPart (s : State) (n : Nat) : State := orderAll s fun _ g => (s.launch g.launch).part == n

/-- Quiesce a partition after an uncorrectable fault, one that a checkpoint quiesces too: its report of KIND 6 follows all the same (spec
01 R27). -/
def quiesceFor (s : State) (p : Nat) : State :=
  if s.partValid p && !s.faultQ.contains p then orderPart { s with faultQ := s.faultQ ++ [p] } p else s

/-- Quiesce the partitions of a list. -/
def quiesceOf (s : State) (parts : List Nat) : State := parts.foldl quiesceFor s

/-! ### Barriers (spec 14 R317, R318) -/

/-- The code of a level. -/
def BarLevel.num : BarLevel → Nat
  | .gang => 1
  | .hive => 2
  | .die => 3
  | .pkg => 4

/-- What names a level's group: the gang, the hive group, the launch with its die group, or the launch. -/
def barKey (s : State) (level : BarLevel) (gid : Nat) : Nat :=
  let g := s.gang gid
  match level with
  | .gang => gid
  | .hive => g.group
  | .die => g.launch * 4 + ((Tab.find s.groups g.group).map (·.dieGroup)).getD 0
  | .pkg => g.launch

/-- The cells of a gang, resident or saved. -/
def cellsOfGang (s : State) (g : Gang) : List Cell :=
  match g.saved with
  | some v => v.cells
  | none => g.cells.map s.cell

/-- The participants of a barrier: gang and index of every cell of the group that has not ended; a cell that ended under an heir
claim keeps its place for the heir (spec 20 R401, R406). -/
def participants (s : State) (level : BarLevel) (key : Nat) : List (Nat × Nat) :=
  (s.gangs.filter fun e => (e.2.st == .running || e.2.st == .landing || e.2.st == .handover || e.2.st == .saved)
    && barKey s level e.1 == key).flatMap fun e =>
      ((cellsOfGang s e.2).filter fun c => c.run != .done || e.2.claim.isSome).map fun c => (e.1, c.j)

/-- Release a cell from a barrier: a parked one completes its BAR, a landed one need no longer wait, and a saved one will not when it resumes. What every participant did
before it happens before what follows (spec 13 R305). -/
def barRelease (s : State) (gj : Nat × Nat) (level : BarLevel) : State :=
  let g := s.gang gj.1
  let drop (v : Cell) : Cell :=
    match v.barp with
    | some (l, _) =>
      if l == level then
        { v.orderAll s.stamp with barp := none, loops := (loopBack v.tlev v.loops v.pc).1, pc := (loopBack v.tlev v.loops v.pc).2.1 }
      else v
    | none => v
  match g.saved with
  | some sv => s.modGang gj.1 fun g =>
    { g with saved := some { sv with cells := sv.cells.map fun v => if v.j = gj.2 && v.barp.any (·.1 == level) then { v with barp := none } else v } }
  | none =>
    match g.cells[gj.2]? with
    | some c =>
      match (s.cell c).run with
      | .parked (.bar l _) => if l == level then (finishCell s c ((s.cell c).pc + 8)).modCell c (Cell.orderAll s.stamp) else s.modCell c drop
      | _ => s.modCell c drop
    | none => s

/-- Complete an episode when every participant has arrived. -/
def barCheck (s : State) (level : BarLevel) (key : Nat) : State :=
  match s.bars.find? fun e => e.level == level && e.key == key with
  | some e =>
    if (participants s level key).all fun p => e.arrived.contains p then
      e.arrived.foldl (fun s p => barRelease s p level)
        { s with bars := s.bars.filter fun e => !(e.level == level && e.key == key) }
    else s
  | none => s

/-- Count an arrival. -/
def barArrive (s : State) (level : BarLevel) (key : Nat) (gj : Nat × Nat) : State :=
  match s.bars.find? fun e => e.level == level && e.key == key with
  | some _ => { s with bars := s.bars.map fun e => if e.level == level && e.key == key then { e with arrived := gj :: e.arrived } else e }
  | none => { s with bars := { level, key, arrived := [gj] } :: s.bars }

/-- Withdraw an arrival (spec 14 R319). -/
def barWithdraw (s : State) (gj : Nat × Nat) : State :=
  { s with bars := s.bars.map fun e => { e with arrived := e.arrived.filter fun p => p != gj } }

/-- Withdraw the arrivals of a gang that ends (spec 14 R318). -/
def barLeave (s : State) (gid : Nat) : State :=
  { s with bars := s.bars.map fun e => { e with arrived := e.arrived.filter fun p => p.1 != gid } }

/-- All levels' episodes of a gang may complete after a departure. -/
def barDepart (s : State) (gid : Nat) : State :=
  [BarLevel.gang, .hive, .die, .pkg].foldl (fun s l => barCheck s l (barKey s l gid)) s

/-! ### The lease (spec 11 R253) -/

/-- Clear every word of a tile in a table of tile words. -/
def clearTile (t : Tab W32) (tile : Nat) : Tab W32 := t.filter fun e => e.1 / 4096 != tile

/-- A gang loses the lease and its place in the wait list; its tiles and image are discarded. With `goes`, a MOPA still in the unit goes on to
its decrement (spec 20 R400, 11 R268). -/
def dropLease (s : State) (gid : Nat) (goes : Bool) : State :=
  let g := s.gang gid
  let s1 := s.modCore g.core fun k =>
    { k with holder := if k.holder == some gid then none else k.holder
             leaseQ := removeNat k.leaseQ gid
             tiles := if k.occupant == some gid then [] else k.tiles
             occupant := if k.occupant == some gid then none else k.occupant
             unit := match k.unit with | some u => if u.gang == gid && !(goes && u.ocs.isSome && !u.consumed) then none else some u | none => none }
  s1.modGang gid fun g => { g with imgv := 0, dirty := 0 }

/-! ### The end of a gang -/

/-- A hive group is done when all its gangs have retired or been killed (spec 04 R99). -/
def groupCheck (s : State) (grp : Nat) : State :=
  if (s.gangs.filter fun e => e.2.group == grp).all fun e => e.2.st == .retired || e.2.st == .killed then
    { s with groups := Tab.adjust s.groups grp fun r => if r.st == .placed then { r with st := .done } else r }
  else s

/-- A gang holds capacity on its core (spec 04 R100). -/
def Gang.resident (g : Gang) : Bool := g.st == .running || g.st == .landing || g.st == .handover

/-- The launches with COR that wait for capacity on a hive (spec 04 R91). -/
def corWaiting (s : State) (hive but : Nat) : List Nat :=
  (s.launches.filter fun e => e.1 != but && e.2.hdr.cor && s.groups.any fun r => r.2.launch == e.1 && r.2.st == GrpState.waiting && r.2.hive == hive).map (·.1)

/-- The gangs of a hive group that have not ended. -/
def liveGangs (s : State) (grp : Nat) : List (Nat × Gang) := s.gangs.filter fun e => e.2.group == grp && e.2.st != .retired && e.2.st != .killed

/-- Capacity of a gang comes free: it is reserved to the item the gang makes way for, and what that leaves to the COR launches that wait for
it. -/
def freedPart (s : State) (gid : Nat) (slots units : List Nat) (tiles : Nat) : State :=
  let g := s.gang gid
  let items := (g.victim.map fun i => (i, false)).toList ++ (corWaiting s (hiveOf g.core) g.launch).map fun l => (l, true)
  if items.isEmpty || (slots.isEmpty && units.isEmpty && tiles = 0) then s
  else s.modCore g.core fun k => { k with rsv := k.rsv ++ [{ items, slots, units, tiles }] }

/-- All the capacity of a gang comes free. -/
def freed (s : State) (gid : Nat) : State :=
  let g := s.gang gid
  if g.resident then freedPart s gid (g.cells.map (· % 8)) (range g.lsBase g.units) g.tileCount else s

/-- Remove a gang's cells from their slots and from the barrel; its capacity comes free. -/
def freeCells (s : State) (gid : Nat) : State :=
  let s := freed s gid
  let g := s.gang gid
  let s0 := g.cells.foldl (fun s c => { abandonFaults s c with
    cells := Tab.del s.cells c, slotSeq := Tab.setD s.slotSeq c 0 (s.cell c).faultSeq }) s
  let s1 : State := { wakeWhere s0 (fun _ w => match w with | .wgsend t => g.cells.contains t | _ => false) with
    wgq := s0.wgq.filter fun e => !(g.cells.contains e.target) && !(g.cells.contains e.cell) }
  s1.modCore g.core fun k => { k with barrel := { k.barrel with
    set := k.barrel.set.filter fun sl => !(g.cells.contains (g.core * 8 + sl)) } }

/-- The issued accesses of a killed gang: each is performed or not, by a free choice (spec 18 R380, 13 R307; log 11). -/
def settlePosts (s : State) (gid : Nat) : State :=
  let keep := (s.posted.zipIdx).filter fun e => e.1.gang != gid || Config.killedStorePerformed s.freeCtr e.2
  { s with posted := keep.map (·.1), freeCtr := s.freeCtr + 1
           remotes := s.remotes.filter fun e => e.2.gang != gid || (e.2.posted && Config.killedStorePerformed s.freeCtr (e.1 + 4096))
           feq := s.feq.filter fun e => e.gang != gid, wgq := s.wgq.filter fun e => e.gang != gid }

/-- The kill sequence (spec 18 R380): the gang of a cell is killed with a code and a value; the report's trap bytes are given. -/
def killGang (s : State) (gid code : Nat) (val : Word) (cell : Nat) (cause tepc1 tepc2 : Word) : State :=
  let g := s.gang gid
  if g.st == .retired || g.st == .killed then s
  else
    let l := s.launch g.launch
    let s1 := settlePosts (dropLease (freeCells s gid) gid false) gid
    let s2 := s1.modCore g.core fun k =>
      { k with copies := k.copies.filter fun c => c.gang != gid, vec := k.vec.filter fun v => v.gang != gid }
    let s4 := (barLeave s2 gid).modGang gid fun g => { g with st := .killed, cells := [], saved := none, hoq := none, hoqSaved := [], mrec := none, claim := none, win := [0, 0, 0, 0] }
    let s5 := s4.modLaunch g.launch fun l =>
      { l with killed := l.killed + 1
               hard := l.hard || code != 0x83
               cancelled := l.cancelled || code == 0x83
               first := match l.first with | some k => some k | none => some { code, cell, val } }
    postReport (wakeWhere (groupCheck (barDepart s5 gid) g.group) fun _ w => w == .hoq) 1 code l.part cell val l.hdr.crec cause tepc1 tepc2

/-- A kill that no trap caused. -/
def killPlain (s : State) (gid code : Nat) (val : Word) (cell : Nat) : State := killGang s gid code val cell 0 0 0

/-- A gang retires (spec 20 R400), or ends by an HEIR_SHAPE trap with no handler (03 R74). -/
def retireGang (s : State) (gid : Nat) : State :=
  let g := s.gang gid
  let s0 := dropLease (freeCells s gid) gid true
  let s1 := s0.modCore g.core fun k => { k with vec := k.vec.filter fun v => v.gang != gid }
  let s2 := s1.modGang gid fun g => { g with st := .retired, cells := [], hoq := none, hoqSaved := [], claim := none, win := [0, 0, 0, 0] }
  let s3 : State := { barLeave s2 gid with feq := s2.feq.filter fun e => e.gang != gid }
  wakeWhere (groupCheck (barDepart s3 gid) g.group) fun _ w => w == .hoq

end Sys2Proof.Machine
end

