-- ==== Sys2Proof/Machine/Ops.lean ====
section
/-! DEFINITION. The operations every meaning is built from: registers and hand-off queues, what ends an instruction's turn,
taking a trap and returning from one, and accesses to memory (spec 06, 07, 18). -/

namespace Sys2Proof.Machine

/-- How an instruction's turn ends. -/
inductive Res where
  /-- It completes; the next pc is sequential. -/
  | ok (s : State)
  /-- It completes with this next pc, before the loop-back test. -/
  | jump (s : State) (npc : Word)
  /-- It traps: cause, tval, the element a vector access reached, and whether mstate was set. -/
  | trap (s : State) (cause : Nat) (tval : Word) (vrec : Option Nat := none) (mrec : Bool := false)
  /-- It does not complete at this turn; the cell parks and executes it again when woken. -/
  | park (s : State) (w : Wait)
  /-- Its unit cannot accept it: the turn is spent (06 R134). -/
  | spent (s : State)
  /-- Its gang is killed. -/
  | kill (s : State) (code : Nat) (val : Word)
  /-- The state is final. -/
  | fin (s : State)

/-- A computation of an instruction that may end its turn early. -/
abbrev Op (α : Type) := Except Res α

/-- The result of a computation that ends in a result either way. -/
def Op.res : Op Res → Res
  | .ok r => r
  | .error r => r

/-! ### Traps (spec 18 R368 to R376) -/

/-- The mask a trap register keeps of a written value (spec 18 R369, R370, R372). -/
def tstatMask : Word := 0xFFF1F

/-- tstat of a trap (spec 18 R369). -/
def tstatOf (plev ldepth : Nat) (t : TrapInfo) : Word :=
  BitVec.ofNat 64 (plev + 4 * b2n t.async + 8 * b2n t.vrec.isSome + 16 * b2n t.mrec + 256 * (if t.async then 0 else t.ilen) + 65536 * ldepth)

/-- Write the next level's bank and go to the handler: the last lines of R370, with the record of a vector access (R372). -/
def enterTrap (c : Cell) (t : TrapInfo) : Cell :=
  let st := tstatOf c.tlev c.loops.length t
  let cause := BitVec.ofNat 64 t.cause
  let csr := if c.tlev = 0 then { c.csr with tcause1 := cause, tepc1 := t.epc, tval1 := t.tval, tstat1 := st }
             else { c.csr with tcause2 := cause, tepc2 := t.epc, tval2 := t.tval, tstat2 := st }
  let csr := match t.vrec with
    | some i => { csr with vinflt := 1, vstart0 := BitVec.ofNat 64 (2 ^ 63 + bits t.epc.toNat 17 2 * 2 ^ 32 + i) }
    | none => csr
  { c.clearInstr.tick with csr, tlev := c.tlev + 1, pc := c.csr.ttvec, resv := none, run := .ready, trapPend := none }

/-- A cell has vector instructions in flight (spec 18 R370). -/
def vecBusy (s : State) (c : Nat) : Bool := (s.core (coreOf c)).vec.any fun v => v.cell == c

/-- The trap bytes of a kill report (spec 18 R393). -/
def trapBytes (c : Cell) (cause : Nat) : Word :=
  if c.tlev = 0 then BitVec.ofNat 64 cause
  else if c.tlev = 1 then BitVec.ofNat 64 (c.csr.tcause1.toNat % 256 + 256 * cause)
  else BitVec.ofNat 64 (c.csr.tcause1.toNat % 256 + 256 * (c.csr.tcause2.toNat % 256) + 65536 * cause)

/-- Take a trap in a cell (spec 18 R370, R371): the third level kills the gang, a cell with no handler ends it, and the entry
waits for the cell's older vector instructions. -/
def takeTrap (s : State) (cid : Nat) (t : TrapInfo) : State :=
  let c := s.cell cid
  let te1 := if c.tlev = 0 then t.epc else c.csr.tepc1
  let te2 := if c.tlev = 0 then 0 else if c.tlev = 1 then t.epc else c.csr.tepc2
  if c.tlev ≥ 2 then killGang s c.gang 0x80 t.tval cid (trapBytes c t.cause) te1 te2
  else if c.csr.ttvec = 0 then
    if t.cause = cHEIR_SHAPE then
      retireGang (s.modLaunch (s.gang c.gang).launch fun l => { l with heirShape := some (l.heirShape.getD t.tval) }) c.gang
    else killGang s c.gang t.cause t.tval cid (trapBytes c t.cause) te1 te2
  else if vecBusy s cid then s.modCell cid fun c => { c with run := .parked .vector, trapPend := some t }
  else { s.modCell cid fun c => enterTrap c t with freeCtr := s.freeCtr + 1 }

/-- Return from the current trap level (spec 18 R376): the level's loops are discarded and no loop-back test is applied. -/
def trapReturn (c : Cell) : Cell :=
  let pc := (if c.tlev = 1 then c.csr.tepc1 else c.csr.tepc2) &&& ~~~3
  { c.clearInstr.tick with loops := c.loops.filter fun l => l.lev != c.tlev, tlev := c.tlev - 1, pc }

/-- A refusal or failure becomes pending at the cell, up to four (spec 07 R165, 18 R373); a cell parked at level 0 in a wait
that lands before its instruction becomes waiting. -/
def pendAsync (s : State) (cid : Nat) (a : Async) : State :=
  s.modCell cid fun c =>
    let c := if c.asyncs.length < 4 then { c with asyncs := c.asyncs ++ [a] }
             else if a.cause = cREMOTE_NACK_ASYNC then { c with povf := true } else c
    match c.run with
    | .parked w => if c.tlev = 0 && w.landsNow && (match w with | .bar .. | .word _ | .wgsend _ => false | _ => true) then
        { c with run := .ready } else c
    | _ => c

/-! ### Registers (spec 06 R135, R136, R153) -/

/-- `x(r)` names a hand-off queue of the cell. -/
def mapped (c : Cell) (r : Reg) : Bool := decide (28 ≤ r.toNat) && bit c.csr.hoqen.toNat (r.toNat - 28)

/-- The queue that `x(r)` names. -/
def hoqOf (r : Reg) : Nat := r.toNat - 28

/-- A register's value where a fixed-latency result may still read old: old or new by a free choice (spec 06 R133; log 8). -/
def hazard (s : State) (d : Dst) (new : Nat) : Nat :=
  match s.me.early.find? fun e => e.1 == d with
  | some (_, old, k) => if Config.earlyReadNew s.freeCtr k then new else old
  | none => new

/-- Read x(r): zero for x0, the popped value for a queue. -/
def getX (s : State) (r : Reg) : Word :=
  let c := s.me
  if r = 0 then 0
  else if mapped c r then (Tab.find c.latch (hoqOf r)).getD 0
  else BitVec.ofNat 64 (hazard s (.x r) (c.x[r.toNat]'r.isLt).toNat)

/-- Read f(r). -/
def getF (s : State) (r : Reg) : W32 := BitVec.ofNat 32 (hazard s (.f r) (s.me.f[r.toNat]'r.isLt).toNat)

/-- Read v(r). -/
def getV (s : State) (r : Reg) : VReg := BitVec.ofNat 1024 (hazard s (.v r) (s.me.v[r.toNat]'r.isLt).toNat)

/-- Read m(r). -/
def getM (s : State) (r : MReg) : VReg := s.me.m[r.toNat]'r.isLt

/-- No early-read hazard is left on a register. -/
def noEarly (d : Dst) (c : Cell) : Cell := { c with early := c.early.filter fun e => e.1 != d }

/-- Reserve the next entry of a hand-off queue (spec 06 R153). -/
def hoqPush (s : State) (q : Nat) (v : Option Word) : State :=
  let e : HoqEntry := { id := s.nextId, by_ := s.cur, val := v }
  let s1 := s.modGang s.me.gang fun g => { g with hoq := g.hoq.map fun t => Tab.put t q (Tab.getD t q [] ++ [e]) }
  wakeWhere { s1 with nextId := s.nextId + 1 } fun c w => w == .hoq && (s.cell c).gang == s.me.gang

/-- A hand-off queue's reserved entry takes its value. -/
def fillEntry (s : State) (gid q id v : Nat) : State :=
  let fill (e : HoqEntry) : HoqEntry := if e.id = id then { e with val := some (BitVec.ofNat 64 v) } else e
  s.modGang gid fun g => { g with hoq := g.hoq.map fun t => Tab.put t q ((Tab.getD t q []).map fill) }

/-- The entry of a queue that the current cell's instruction pushes: the one it had reserved when it issued, or the next one. -/
def pushEntry (s : State) (q : Nat) : State × Nat :=
  match Tab.find s.me.pushed q with
  | some id => (s.modMe fun c => { c with pushed := Tab.del c.pushed q }, id)
  | none => (hoqPush s q none, s.nextId)

/-- Reserve the entries of an instruction that has issued and waits (spec 06 R153). -/
def reserveAll (s : State) (qs : List Nat) : State :=
  (qs.filter fun q => (Tab.find s.me.pushed q).isNone).foldl (fun s q =>
    (hoqPush s q none).modMe fun c => { c with pushed := Tab.put c.pushed q s.nextId }) s

/-- Push a value: into the entry that the current cell's instruction had reserved when it issued, or a new one. -/
def pushValue (s : State) (q : Nat) (v : Word) : State :=
  match Tab.find s.me.pushed q with
  | some id => fillEntry (s.modMe fun c => { c with pushed := Tab.del c.pushed q }) s.me.gang q id v.toNat
  | none => hoqPush s q (some v)

/-- Write x(r): nothing for x0, a push for a queue. -/
def setX (s : State) (r : Reg) (v : Word) : State :=
  if r = 0 then s
  else if mapped s.me r then pushValue s (hoqOf r) v
  else s.modMe fun c => noEarly (.x r) { c with x := c.x.set r.toNat v r.isLt }

/-- Write f(r). -/
def setF (s : State) (r : Reg) (v : W32) : State := s.modMe fun c => noEarly (.f r) { c with f := c.f.set r.toNat v r.isLt }

/-- Write v(r). -/
def setV (s : State) (r : Reg) (v : VReg) : State := s.modMe fun c => noEarly (.v r) { c with v := c.v.set r.toNat v r.isLt }

/-- Write m(r). -/
def setM (s : State) (r : MReg) (v : VReg) : State := s.modMe fun c => { c with m := c.m.set r.toNat v r.isLt }

/-- Write x(r) with a fixed latency of `turns`: a read before then may find the old value (spec 06 R133; log 8). -/
def setXLate (s : State) (r : Reg) (v : Word) (turns : Nat) : State :=
  if r = 0 || mapped s.me r then setX s r v
  else
    let old := (getX s r).toNat
    (setX s r v).modMe fun c => { c with early := (.x r, old, turns) :: c.early }

/-- Write f(r) with a fixed latency of `turns`. -/
def setFLate (s : State) (r : Reg) (v : W32) (turns : Nat) : State :=
  let old := (getF s r).toNat
  (setF s r v).modMe fun c => { c with early := (.f r, old, turns) :: c.early }

/-- Write v(r) with a fixed latency of `turns`. -/
def setVLate (s : State) (r : Reg) (v : VReg) (turns : Nat) : State :=
  let old := (getV s r).toNat
  (setV s r v).modMe fun c => { c with early := (.v r, old, turns) :: c.early }

/-- One bit of a 32-bit set. -/
def setBit32 (b : BitVec 32) (r : Reg) (v : Bool) : BitVec 32 :=
  if v then b ||| (1#32 <<< r.toNat) else b &&& ~~~(1#32 <<< r.toNat)

/-- An empty register (spec 06 R135): x0 is always full. -/
def isEmpty (c : Cell) : Dst → Bool
  | .x r => r != 0 && !mapped c r && c.xe.getLsbD r.toNat
  | .f r => c.fe.getLsbD r.toNat
  | .v r => c.ve.getLsbD r.toNat
  | _ => false

/-- Mark a register empty or full. -/
def markEmpty (c : Cell) (d : Dst) (e : Bool) : Cell :=
  match d with
  | .x r => { c with xe := setBit32 c.xe r e }
  | .f r => { c with fe := setBit32 c.fe r e }
  | .v r => { c with ve := setBit32 c.ve r e }
  | _ => c

/-- A variable-latency result: the destination is marked empty, or its queue entry reserved, and the value follows by
FE_WRITEBACK (spec 06 R133, R135, R153). -/
def defer (s : State) (d : Dst) (v : Nat) : State :=
  match d with
  | .none => s
  | .x r =>
    if r = 0 then s
    else if mapped s.me r then
      let (s1, id) := pushEntry s (hoqOf r)
      s1.modMe fun c => { c with pend := c.pend ++ [{ dst := .hoq (hoqOf r) id, val := v }] }
    else s.modMe fun c => { markEmpty c d true with pend := c.pend ++ [{ dst := d, val := v }] }
  | _ => s.modMe fun c => { markEmpty c d true with pend := c.pend ++ [{ dst := d, val := v }] }

/-- Mark a destination empty, or reserve its entry, for a result that a home will bring: the destination to write. -/
def reserve (s : State) (d : Dst) : State × Dst :=
  match d with
  | .x r =>
    if r = 0 then (s, .none)
    else if mapped s.me r then (let (s1, id) := pushEntry s (hoqOf r); (s1, .hoq (hoqOf r) id))
    else (s.modMe fun c => markEmpty c d true, d)
  | .none => (s, .none)
  | _ => (s.modMe fun c => markEmpty c d true, d)

/-- A result arrives for a cell: it is on its way to its register. -/
def bringTo (s : State) (cid : Nat) (d : Dst) (v : Nat) : State :=
  if d == .none then s else s.modCell cid fun c => { c with pend := c.pend ++ [{ dst := d, val := v }] }

/-! ### Class 4: sources and destinations (spec 06 R136, R152, R153) -/

/-- The trap bit of a register (spec 06 R136). -/
def trapBit (c : Cell) : Dst → Bool
  | .x r => bit c.csr.fetrap.toNat r.toNat
  | .f r => bit c.csr.fetrapf.toNat r.toNat
  | .v r => bit c.csr.fetrapv.toNat r.toNat
  | _ => false

/-- FE_EMPTY's tval. -/
def feVal : Dst → Word
  | .x r => BitVec.ofNat 64 r.toNat
  | .f r => BitVec.ofNat 64 (32 + r.toNat)
  | .v r => BitVec.ofNat 64 (64 + r.toNat)
  | _ => 0

/-- The queues that the registers name, each once. -/
def queuesOf (c : Cell) (ds : List Dst) : List Nat :=
  (ds.filterMap fun d => match d with | .x r => if mapped c r then some (hoqOf r) else none | _ => none).eraseDups

/-- The entries of a queue of the cell's gang, those that wait for buffers too. -/
def hoqEntries (s : State) (q : Nat) : List HoqEntry := Tab.getD (s.myGang.hoq.getD s.myGang.hoqSaved) q []

/-- Buffers that the gangs of a core have bound (spec 06 R152). -/
def boundBuffers (s : State) (core : Nat) : Nat :=
  (s.gangs.filter fun e => e.2.core == core && e.2.hoq.isSome && (e.2.st == .running || e.2.st == .landing || e.2.st == .handover)).foldl
    (fun n e => n + popcount e.2.hdr.hoq 4) 0

/-- Pop the oldest entry of a queue into the cell's latch. -/
def hoqPop (s : State) (q : Nat) : State :=
  match hoqEntries s q with
  | e :: rest =>
    let s1 := s.modGang s.me.gang fun g => { g with hoq := g.hoq.map fun t => Tab.put t q rest }
    wakeWhere (s1.modMe fun c => { c with latch := Tab.put c.latch q (e.val.getD 0) }) fun c w =>
      w == .hoq && (s.cell c).gang == s.me.gang
  | [] => s

/-- The checks and waits of class 4: go on in the state with the hand-off values popped, trap, or park. -/
def operands (s : State) (srcs dsts : List Dst) : Op State :=
  let c := s.me
  let popq := (queuesOf c srcs).filter fun q => (Tab.find c.latch q).isNone
  let pushq := (queuesOf c dsts).filter fun q => (Tab.find c.pushed q).isNone
  let empty (d : Dst) : Bool := isEmpty c d ||
    (match d with | .x r => mapped c r && popq.contains (hoqOf r) && (hoqEntries s (hoqOf r)).isEmpty | _ => false)
  match srcs.find? fun d => empty d && trapBit c d with
  | some d => .error (.trap s cFE_EMPTY (feVal d))
  | none =>
    let waits := (srcs ++ dsts).filter (isEmpty c)
    if !waits.isEmpty then .error (.park s (.regs waits))
    else if popq.isEmpty && pushq.isEmpty then .ok s
    else
      let g := s.myGang
      if g.hoq.isNone && boundBuffers s g.core + popcount g.hdr.hoq 4 > 4 then .error (.park s .hoq)
      else
        let s1 := if g.hoq.isNone then s.modGang c.gang fun g => { g with hoq := some g.hoqSaved, hoqSaved := [] } else s
        if popq.any fun q => match hoqEntries s1 q with | e :: _ => e.val.isNone | [] => true then .error (.park s1 .hoq)
        else if pushq.any fun q => decide ((hoqEntries s1 q).length ≥ 16 + b2n (popq.contains q)) then .error (.park s1 .hoq)
        else .ok (popq.foldl hoqPop s1)

/-! ### A turn of an instruction -/

/-- The cell whose turn it is can execute: it is resident and ready. -/
def canIssue (s : State) : Bool :=
  match Tab.find s.cells s.cur with
  | some c => c.run == .ready
  | none => false

/-- A turn of the current cell passes without an issue (spec 06 R134); the instruction completes as fetched (05 R115). -/
def turnPassed (s : State) : State :=
  { (unlatch s s.cur).modMe Cell.tick with freeCtr := s.freeCtr + 1 }

/-- A kill that no trap caused. One for lost or refused data is an uncorrectable fault, so the gang's partition is quiesced (spec 18 R388,
01 R27; log 59). -/
def killFor (s : State) (gid code : Nat) (val : Word) (cell : Nat) : State :=
  let s1 := killPlain s gid code val cell
  if code = 0x81 then quiesceFor s1 (partOfGang s gid) else s1

/-- The state after an instruction's turn. An instruction that parks before it issues gives back what it popped (spec 06 R137, R153). -/
def commit (len : Nat) : Res → State
  | .ok s => finishCell s s.cur (s.me.pc + BitVec.ofNat 64 len)
  | .jump s npc => finishCell s s.cur npc
  | .trap s cause tval vrec mrec =>
    let s1 := unlatch s s.cur
    takeTrap s1 s1.cur { cause, tval, epc := s1.me.pc, ilen := len, async := false, vrec, mrec }
  | .park s w =>
    let s := if w.issued then s else unlatch s s.cur
    parkCell (s.modMe Cell.tick) s.cur w
  | .spent s => turnPassed s
  | .kill s code val => killFor s s.me.gang code val s.cur
  | .fin s => s

/-- A class 2 or 3 check: a trap, or nothing. -/
abbrev Early := State → Option (Nat × Word)

/-- No check of class 2 or 3. -/
def noEarlyCheck : Early := fun _ => none

/-- An instruction that parks once it has issued reserves the entries of the queues that it pushes. -/
def Res.holding (dsts : List Dst) : Res → Res
  | .park s w => .park (if w.issued then reserveAll s (queuesOf s.me dsts) else s) w
  | r => r

/-- Execute an instruction of `len` bytes at the turn of the current cell, in the order of R128: the checks of classes 2 and 3,
the operands of class 4, then the body, which makes the checks of classes 5 to 7. Where the current cell cannot execute, nothing
happens (log 2). -/
def issue (len : Nat) (early : Early) (srcs dsts : List Dst) (body : State → Res) (s : State) :
    Host.Outcome State Fault Refusal :=
  if canIssue s then
    let s := s.modMe fun c => { c with ilen := len }
    match early s with
    | some (cause, tval) => .next (commit len (.trap s cause tval))
    | none =>
      match operands s srcs dsts with
      | .error r => .next (commit len r)
      | .ok s1 => .next (commit len ((body s1).holding dsts))
  else .next s

/-! ### Limits of waits -/

/-- A limit in µs as its field gives it: 0 is none. -/
def limitUs (us : Nat) : Option Nat := if us = 0 then none else some (1000 * us)

/-- The cell parks with a limit in ns from its first issue; when it passes, WAIT_LIMIT has this tval. -/
def setLimit (s : State) (ns : Option Nat) (tval : Word) : State := s.modMe fun c => { c with limit := ns.map fun n => (n, tval) }

/-- The limit of a wait has passed since its first issue. -/
def limitOver (s : State) (ns : Option Nat) : Bool :=
  match ns with
  | some n => decide (n ≤ s.qtime - s.me.since.getD s.qtime)
  | none => false

/-! ### Faults of translation (spec 07 R170 to R173) -/

/-- K_DATA_ERR's KVAL (spec 18 R379). -/
def dataErr (struct sub index : Nat) : Word := BitVec.ofNat 64 (struct * 2 ^ 56 + sub * 2 ^ 48 + index % 2 ^ 48)

/-- A record of a cell's fault on a page of an ASID goes to the pager (spec 07 R170, R172): its sequence number comes back. -/
def postFault (s : State) (cid asid : Nat) (kind : Kind) (dva flags : Nat) (stride : Word) : State × Nat :=
  let c := s.cell cid
  let refaults := if c.faultDva = some dva then min 255 (c.refaults + 1) else 0
  let seq := (c.faultSeq + 1) % 256
  let remain := match c.loops.find? fun l => l.lev == c.tlev with | some l => l.cnt - l.idx | none => 0
  let rec_ : FaultRec := { who := .cell cid seq, dva, asid, kind, flags := flags + (if refaults ≥ 8 then 2 else 0),
                           refaults, seq, remain, stride }
  let s1 := s.modCell cid fun c => { c with faultDva := some dva, refaults, faultSeq := seq }
  ({ s1 with faults := s1.faults ++ [rec_] }, seq)

/-- Park on a page of an ASID, with a record at the pager. -/
def pageFault (s : State) (asid : Nat) (kind : Kind) (dva flags : Nat) (tval : Word) (idx : Option Nat) (stride : Word) : Res :=
  let (s1, seq) := postFault s s.cur asid kind dva flags stride
  .park s1 (.page dva seq tval idx)

/-- The page's DVA that a pool entry names, as the port reads it: none where it cannot, or the refused line that it meets (spec 16 R345, 18
R389). -/
def poolAddr (s : State) (hive asid at_ : Nat) : Except (Option Nat) Nat :=
  match translate s hive asid at_ with
  | .bad pa => .error (some pa)
  | .absent _ => .error none
  | .leaf w _ size =>
    let pa := pteAddr w + at_ % 2 ^ size
    if pteTgt w != 0 || !pteR w then .error none
    else match s.refusedIn pa 8 with
    | some line => .error (some line)
    | none =>
      let v := s.readNat pa 8
      if v % 65536 != 0 || v ≥ 2 ^ 56 then .error none else .ok v

/-- The physical page at a pool page's DVA, where it is usable. -/
def poolPage (s : State) (hive asid v : Nat) : Except (Option Nat) Nat :=
  match translate s hive asid v with
  | .leaf w _ size => if pteTgt w = 0 && pteR w && pteW w && !pteCow w then .ok (pteAddr w + v % 2 ^ size) else .error none
  | .bad line => .error (some line)
  | .absent _ => .error none

/-- What a pool entry gives, with what the port's walks leave behind (spec 07 R169, R174). -/
def poolEntry (s : State) (hive asid at_ : Nat) : State × Except (Option Nat) Nat :=
  let s1 := noteTlb s hive asid at_
  match poolAddr s1 hive asid at_ with
  | .error e => (s1, .error e)
  | .ok v => (noteTlb s1 hive asid v, poolPage s1 hive asid v)

/-- The usable pool entries of a brood from `j` on, `n` tried: the page taken, with the entries found bad; a refused line is reported (spec 16
R345, 18 R393). -/
def poolTake (s : State) (hive : Nat) (b : Brood) : Nat → Nat → List Nat → State × Option (Nat × Nat) × List Nat
  | _, 0, bad => (s, none, bad)
  | j, n + 1, bad =>
    if (Tab.find b.owned j).isSome || b.bad.contains j then poolTake s hive b (j + 1) n bad
    else
      match poolEntry s hive b.asid (leNat ((b.desc.drop 0x28).take 8) + 8 * j) with
      | (s1, .ok page) => (s1, some (j, page), bad)
      | (s1, .error none) => poolTake s1 hive b (j + 1) n (j :: bad)
      | (s1, .error (some line)) => poolTake (refusalReport s1 b.part line) hive b (j + 1) n (j :: bad)

/-- A write meets a copy-on-write leaf: the port copies the page, or the pager is asked (spec 07 R173). The first component is
whether the port copies. -/
def cowBegin (s : State) (gid asid dva leafAt : Nat) : State × Bool × Nat :=
  let g := s.gang gid
  let l := s.launch g.launch
  let page := dva / 65536 * 65536
  if s.cows.any fun c => c.asid == asid && c.dva == page then (s, true, 0)
  else
    match l.sib with
    | none => (s, false, 0)
    | some (h, i) =>
      match s.brood h with
      | none => (s, false, 4)
      | some b =>
        let n := leNat ((b.desc.drop 0x30).take 4)
        let (s0, got, bad) := poolTake s (hiveOf g.core) b 0 n b.bad
        match got with
        | some (j, pa) =>
          let s1 := s0.modBrood h fun b =>
            { b with owned := Tab.put b.owned j i, bad
                     copied := (leafAt, i, BitVec.ofNat 64 (s.readNat leafAt 8)) :: b.copied }
          ({ s1 with cows := s1.cows ++ [{ hive := hiveOf g.core, asid, dva := page, leafAt, page := pa, brood := h, sib := i }] }, true, 0)
        | none => (s0.modBrood h fun b => { b with bad }, false, 4)

/-- The writer to a page of an ASID parks on the copy or on the pager. -/
def cowPark (s : State) (asid dva leafAt : Nat) (tval : Word) (idx : Option Nat) (stride : Word) : Res :=
  match cowBegin s s.me.gang asid dva leafAt with
  | (s1, true, _) => .park s1 (.cow dva asid tval idx)
  | (s1, false, flags) => pageFault s1 asid .cow dva flags tval idx stride

/-! ### Resolving an access (classes 5 and 6 of R128) -/

/-- What a passed access reaches. -/
inductive Target where
  | key (k : Nat)
  | remote (k : Nat)
  | window (w : Nat)
  | host (pa : Nat)
  | peer (acc pa : Nat)
deriving DecidableEq, Repr

/-- What a cell's translation leaves behind (spec 07 R169, R174). -/
def translated (s : State) (dva : Nat) : State := noteTlb s (hiveOf (s.gang s.me.gang).core) s.myLaunch.asid dva

/-- A cell's instruction has translated a DVA: its refaults start again at 0 (spec 07 R172). -/
def faultPastOf (s : State) (cid dva : Nat) : State :=
  if (s.cell cid).faultDva = some dva then s.modCell cid fun c => { c with faultDva := none, refaults := 0 } else s

/-- The current cell's instruction has. -/
def faultPast (s : State) (dva : Nat) : State := faultPastOf s s.cur dva

/-- A walk that meets a refused line kills the gang, and is reported as a refusal to the walker (spec 18 R389, R393). -/
def walkRefused (s : State) (pa : Nat) : Res := .kill (refusalReport s s.myLaunch.part pa) 0x81 (dataErr 8 0 pa)

/-- An access of the current cell to a die or a hub that has become unreachable: its gang is killed with K_FABRIC, and its partition quiesced (spec
18 R391, 01 R27). -/
def cutKill (s : State) (val : Word) : Res :=
  .fin (quiesceFor (killPlain s s.me.gang 0x84 val s.cur) (partOfGang s s.me.gang))

/-- Translation and access outcomes at a DVA that the segment checks passed. -/
def resolveDva (s : State) (kind : Kind) (ea : Word) (dva n : Nat) (idx : Option Nat) (stride : Word) : Op (State × Target) :=
  let gid := s.me.gang
  match look s gid kind dva n with
  | .denied => .error (.trap (if bit dva 56 then s else faultPast (translated s dva) dva) cACCESS_FAULT ea idx)
  | .absent m => .error (pageFault s s.myLaunch.asid kind dva (b2n m) ea idx stride)
  | .cow leafAt => .error (cowPark (translated s dva) s.myLaunch.asid dva leafAt ea idx stride)
  | .bad pa => .error (walkRefused s pa)
  | .window w => .ok (s, .window w)
  | found =>
    if s.cutOff (dieOfCell s.cur) found then .error (cutKill s (BitVec.ofNat 64 dva))
    else
    let s2 := faultPast (translated s dva) dva
    match found with
    | .remote k => .ok (s, .remote k)
    | .host pa => .ok (s2, .host pa)
    | .peer acc pa => .ok (s2, .peer acc pa)
    | .key k =>
      match s.refusedIn k n with
      | some pa => if isHbm k && (!kind.writes || kind == .atomic) then .error (.kill s 0x81 (dataErr 8 0 pa)) else .ok (s2, .key k)
      | none => .ok (s2, .key k)
    | _ => .error (.fin s)

/-- The checks of an access: segment, alignment, then translation and access outcomes. -/
def resolve (s : State) (kind : Kind) (ea : Word) (n need align : Nat) (idx : Option Nat := none) (stride : Word := 0) : Op (State × Target) :=
  match segCheck s.myGang ea n need with
  | .error (cause, tval) => .error (.trap s cause tval idx)
  | .ok dva =>
    if ea.toNat % align != 0 then .error (.trap s cMISALIGNED ea idx) else resolveDva s kind ea dva n idx stride

/-! ### Performing accesses -/

/-- A read-modify-write: the new value, and whether it is written (spec 06 R142, 14 R312). -/
def amoApply (op : AmoOp) (size : Nat) (old src cmp : Nat) : Nat × Bool :=
  let w := 8 * size
  let so := signedOf w old
  let ss := signedOf w src
  match op with
  | .add => ((old + src) % 2 ^ w, true)
  | .and => (old &&& src, true)
  | .or => (old ||| src, true)
  | .xor => (old ^^^ src, true)
  | .min => (if ss < so then src else old, true)
  | .max => (if ss > so then src else old, true)
  | .minu => (min old src, true)
  | .maxu => (max old src, true)
  | .swap => (src, true)
  | .cas => if old = cmp then (src, true) else (old, false)

/-- A value sign-extended from `size` bytes. -/
def sextW (size v : Nat) : Word := BitVec.ofInt 64 (signedOf (8 * size) v)

/-- A read-modify-write at its home: the state and the old value. -/
def amoAt (s : State) (who : Agent) (hive : Option Nat) (key : Nat) (op : AmoOp) (size : Nat) (src cmp : Word) : State × Nat :=
  let old := s.readNat key size
  let (new, wr) := amoApply op size old (src.toNat % 2 ^ (8 * size)) (cmp.toNat % 2 ^ (8 * size))
  (if wr then { s.write who hive key (leBytes new size) with rels := s.rels } else s, old)

/-- A read-modify-write with its acquire and its release (spec 13 R291, R292): it continues the release sequence of its word, and a cell's
reads the word (R288). A cas that fails has no write to release by (14 R312). -/
def amoSync (s : State) (who : Agent) (hive : Option Nat) (key : Nat) (op : AmoOp) (size : Nat) (src cmp : Word) (acq rel : Bool) (sc : Scope) :
    State × Nat :=
  let s0 := match who with
    | .cell c => if acq then s.acquire c key size sc else s.noteRead c s.stamp key size
    | _ => s
  let (s1, old) := amoAt s0 who hive key op size src cmp
  (if rel && decide (s1.stamp ≠ s0.stamp) then s1.released who key size sc else s1, old)

/-- A wait at this scope covers the access: one to a peer is covered at pod scope only (spec 13 R306). -/
def Post.covered (p : Post) (pod : Bool) : Bool :=
  match p.home with
  | .peer _ => pod
  | _ => true

/-- A cell has issued accesses, numbered below `upTo` where that is given, that are not performed (spec 13 R290, R306). -/
def outstandingTo (s : State) (cid gid : Nat) (pod : Bool) (upTo : Option Nat) : Bool :=
  let before (n : Nat) : Bool := match upTo with | some m => decide (n < m) | none => true
  (s.posted.any fun p => p.cell == cid && p.gang == gid && p.covered pod && before p.id)
  || s.remotes.any fun e => e.2.cell == cid && e.2.gang == gid && e.2.posted && before e.1

/-- A cell has issued accesses that are not performed at package scope. -/
def outstanding (s : State) (cid gid : Nat) : Bool := outstandingTo s cid gid false none

/-- The cell itself has, at package or at pod scope. -/
def busy (s : State) (pod : Bool := false) : Bool := outstandingTo s s.cur s.me.gang pod none

/-- Wake a cell that waits for its accesses; it looks again at what is left. -/
def wakePerformed (s : State) (cid : Nat) : State :=
  match (s.cell cid).run with
  | .parked .performed => s.modCell cid fun c => { c with run := .ready }
  | _ => s

/-- The agent of an access: a cell, or an engine that acts for it. -/
def agentOf (eng : Bool) (c : Nat) : Agent := if eng then .engine c else .cell c

/-- The cell that issued an access still holds it: its gang is the same. -/
def Post.mine (s : State) (p : Post) : Bool := (s.cell p.cell).gang == p.gang && (Tab.find s.cells p.cell).isSome

/-- A posted access leaves for the host or a peer; what the cell's fences of class w then order includes it (spec 13 R295, R306). -/
def sendPost (s : State) (p : Post) (o : Out) : State :=
  let s1 := s.emit o
  if p.mine s && !p.eng then s1.modCell p.cell fun c => { c with sent := s.stamp } else s1

/-- Perform one posted access at its home: in HBM, or by the host or a peer, which accept it (spec 13 R288, R306). -/
def performPost (s : State) (p : Post) : State :=
  let hive := some (hiveOfCell p.cell)
  let mine := p.mine s
  match p.home, p.op with
  | .host, .write d => sendPost s p (.hostWrite p.pa d)
  | .host, .amo .. => s
  | .peer acc, .write d => sendPost s p (.peerWrite acc p.pa d)
  | .peer acc, .amo op size src cmp _ => sendPost s p (.peerAtomic acc p.pa op size src cmp)
  | .hbm, .write d =>
    let s1 := s.write (.cell p.cell) hive p.pa d
    if p.rel then s1.released (.cell p.cell) p.pa d.length p.sc else s1
  | .hbm, .amo op size src cmp dst =>
    let (s1, old) := amoSync s (agentOf p.eng p.cell) hive p.pa op size src cmp (p.acq && mine) p.rel p.sc
    if !mine then s1
    else if p.acq then s1.modCell p.cell fun c => { c with reply := some (sextW size old), run := .ready }
    else bringTo s1 p.cell dst (sextW size old).toNat

/-- The bytes a posted access writes. -/
def Post.size (p : Post) : Nat :=
  match p.op with
  | .write d => d.length
  | .amo _ size _ _ _ => size

/-- Perform the posted accesses of a list, in order. -/
def performAll (s : State) (ps : List Post) : State := ps.foldl performPost s

/-- Before a cell reads bytes it has stored to, its earlier accesses are performed in their order (spec 09 R224: it sees its own
writes). -/
def drainOwn (s : State) (key n : Nat) : State :=
  let mine := s.posted.filter fun p => p.cell == s.cur && p.gang == s.me.gang
  if mine.any fun p => p.home == .hbm && overlap p.pa p.size key n then
    performAll { s with posted := s.posted.filter fun p => !(p.cell == s.cur && p.gang == s.me.gang) } mine
  else s

/-- How an access takes part in synchronisation: acquire, release, and its scope (spec 13 R294). -/
structure Sync where
  acq : Bool := false
  rel : Bool := false
  sc : Scope := .pkg
deriving DecidableEq, Repr, Inhabited

/-- Post an access to translated memory at its home. -/
def postTo (s : State) (home : Home) (pa : Nat) (ea : Word) (op : PostOp) (y : Sync := {}) : State :=
  let c := s.me
  { s with
    posted := s.posted ++ [{ id := s.nextId, home, cell := s.cur, gang := c.gang, launch := (s.gang c.gang).launch, pa
                             dva := eaDva (s.gang c.gang) ea, op, acq := y.acq, rel := y.rel, sc := y.sc, time := s.qtime }]
    nextId := s.nextId + 1 }

/-- Post an access to HBM. -/
def post (s : State) (pa : Nat) (ea : Word) (op : PostOp) (y : Sync := {}) : State := postTo s .hbm pa ea op y

/-- Send a request to a remote LS or another hive's HSP (spec 07 R165). -/
def sendRemote (s : State) (key : Nat) (ea : Word) (op : PortOp) (posted : Bool) (y : Sync := {}) : State × Nat :=
  let id := s.nextId
  ({ s with remotes := Tab.put s.remotes id { cell := s.cur, gang := s.me.gang, key, ea, op, posted, acq := y.acq, rel := y.rel, sc := y.sc }
            nextId := id + 1 }, id)

/-- A request that the cell waits for. -/
def waitRemote (s : State) (key : Nat) (ea : Word) (op : PortOp) (y : Sync := {}) : Res :=
  let (s1, id) := sendRemote s key ea op false y
  .park (s1.modMe fun c => { c with stage := 1 }) (.remote id)

/-- The cell's posted writes to host memory or to a peer go before its next request there, in program order (spec 07 R176). -/
def drainTo (s : State) (home : Home) : State :=
  let mine (p : Post) : Bool := p.cell == s.cur && p.gang == s.me.gang && p.home == home
  performAll { s with posted := s.posted.filter fun p => !mine p } (s.posted.filter mine)

/-- A load, LR, SC or atomic to host or peer memory waits for its reply (spec 07 R175, R176). -/
def waitFabric (s : State) (home : Home) (pa n : Nat) (ea : Word) (op : FabOp) (acq : Option Scope := none) : Res :=
  .park (((drainTo s home).emit (.request s.cur home pa n op)).modMe fun c => { c with stage := 1, asked := s.qtime }) (.fabric home pa ea n acq)

/-- The bits a window register keeps (spec 07 R164). -/
def winMask : Word := BitVec.ofNat 64 (15 * 2 ^ 60 + 3 * 2 ^ 48 + 8191 * 2 ^ 32 + 8191)

/-- A plain read of `n` bytes by the current cell, as a number: its own earlier accesses come first, and what nothing orders before it may
be unseen (spec 09 R224, 13 R289). -/
def readSeen (s : State) (k n : Nat) : State × Nat :=
  let (s1, d) := (drainOwn s k n).readBy s.cur k n
  (s1, leNat d)

/-- Load `n` bytes at an effective address, in the order of R128: the value, zero-extended, once it is known. -/
def loadVal (s : State) (ea : Word) (n : Nat) : Op (State × Nat) :=
  match s.me.reply with
  | some v => .ok (s, v.toNat % 2 ^ (8 * n))
  | none => do
    let (s, t) ← resolve s .load ea n rRead n
    match t with
    | .key k => .ok (readSeen s k n)
    | .window w => .ok (s, ((s.myGang.win[w]?).getD 0).toNat)
    | .remote k => .error (waitRemote s k ea (.load n))
    | .host pa => .error (waitFabric s .host pa n ea .load)
    | .peer acc pa => .error (waitFabric s (.peer acc) pa n ea .load)

/-- The current cell reads the words of `n` bytes at a key, each as a plain read, and they join the words its instruction has got. -/
def getWords (s : State) (key n : Nat) : State :=
  (List.range (n / 8)).foldl (fun s i =>
    let (s1, d) := s.readBy s.cur (key + 8 * i) 8
    s1.modMe fun c => { c with got := c.got ++ [BitVec.ofNat 64 (leNat d)] }) s

/-- Bring the pieces of a block, page by page, to the words that the instruction has got from place `skip` on: at once where they are on
chip or in HBM, or eight bytes at a time over a link. -/
def bringPieces (ea : Word) (dva skip : Nat) : List (Nat × Nat) → State → Op State
  | [], s => .ok s
  | p :: rest, s =>
    let have_ := 8 * (s.me.got.length - skip)
    if p.1 + p.2 ≤ have_ then bringPieces ea dva skip rest s
    else do
      let (s, t) ← resolveDva s .load ea (dva + p.1) p.2 none 0
      let k := have_ - p.1
      match t with
      | .key key =>
        bringPieces ea dva skip rest (getWords (drainOwn s key p.2) (key + k) (p.2 - k))
      | .remote key => .error (waitRemote s (key + k) (ea + BitVec.ofNat 64 (p.1 + k)) (.load 8))
      | .host pa => .error (waitFabric s .host (pa + k) 8 ea .load)
      | .peer acc pa => .error (waitFabric s (.peer acc) (pa + k) 8 ea .load)
      | .window _ => .error (.trap s cACCESS_FAULT ea)

/-- Read `n` bytes, a multiple of 8, at an 8-byte aligned DVA that passed its segment check; each page is translated (spec 07 R166). `skip`
words of what the instruction has got belong to its earlier reads; the new number is the third component. -/
def loadBlock (s : State) (ea : Word) (dva n skip : Nat) : Op (State × List Byte × Nat) := do
  let s := match s.me.reply with
    | some v => s.modMe fun c => { c with got := c.got ++ [v], reply := none }
    | none => s
  let s ← bringPieces ea dva skip (pagePieces dva n) s
  .ok (s, ((s.me.got.drop skip).flatMap fun v => leBytes v.toNat 8).take n, skip + n / 8)

/-- Store bytes to a target: at once in own LS or HSP, posted elsewhere (spec 07 R165, R176; 13 R288). -/
def storeTo (s : State) (t : Target) (ea : Word) (d : List Byte) : State :=
  match t with
  | .key k => if isHbm k then post s k ea (.write d) else s.write (.cell s.cur) none k d
  | .window w => s.modGang s.me.gang fun g => { g with win := setAt g.win w (BitVec.ofNat 64 (leNat d) &&& winMask) }
  | .remote k => (sendRemote s k ea (.store d) true).1
  | .host pa => postTo s .host pa ea (.write d)
  | .peer acc pa => postTo s (.peer acc) pa ea (.write d)

/-- Store `n` bytes of a value at an effective address (spec 06 R139). -/
def storeVal (s : State) (ea : Word) (n v : Nat) : Op State := do
  let (s, t) ← resolve s .store ea n rWrite n
  .ok (storeTo s t ea (leBytes v n))

/-- A release by the cell waits until its earlier accesses are performed, those to peers at pod scope only (spec 13 R291, R306; log 7). -/
def release (s : State) (sc : Scope := .pkg) : Op Unit := if busy s (sc == .pod) then .error (.park s .performed) else .ok ()

end Sys2Proof.Machine
end

