-- ==== Sys2Proof/Machine/Int.lean ====
section
/-! DEFINITION. The integer instructions: constants, jumps and branches, arithmetic, multiplication and division
(spec 05 R106, 06 R138, R140). -/

namespace Sys2Proof.Machine

/-- A result with no effect but its register and the sequential pc, from two registers (spec 06 R138). -/
def aluRR (f : Word → Word → Word) (rd rs1 rs2 : Reg) : State → Host.Outcome State Fault Refusal :=
  issue 4 noEarlyCheck [.x rs1, .x rs2] [.x rd] fun s => .ok (setX s rd (f (getX s rs1) (getX s rs2)))

/-- The same from a register and a sign-extended immediate. -/
def aluRI (f : Word → Word → Word) (rd rs1 : Reg) (imm : BitVec 12) : State → Host.Outcome State Fault Refusal :=
  issue 4 noEarlyCheck [.x rs1] [.x rd] fun s => .ok (setX s rd (f (getX s rs1) (imm.signExtend 64)))

/-- The same from a register and a shift amount. -/
def aluSh (f : Word → Nat → Word) (rd rs1 : Reg) (n : Nat) : State → Host.Outcome State Fault Refusal :=
  issue 4 noEarlyCheck [.x rs1] [.x rd] fun s => .ok (setX s rd (f (getX s rs1) n))

/-- A 32-bit result, sign-extended. -/
def sx32 (v : W32) : Word := v.signExtend 64

/-- The low word of a register. -/
def lo32 (v : Word) : W32 := v.setWidth 32

/-- A flag as a word. -/
def wordOf (b : Bool) : Word := if b then 1 else 0

def opAdd (a b : Word) : Word := a + b
def opSub (a b : Word) : Word := a - b
def opAnd (a b : Word) : Word := a &&& b
def opOr (a b : Word) : Word := a ||| b
def opXor (a b : Word) : Word := a ^^^ b
def opSlt (a b : Word) : Word := wordOf (a.slt b)
def opSltu (a b : Word) : Word := wordOf (a.ult b)
def shSll (a : Word) (n : Nat) : Word := a <<< n
def shSrl (a : Word) (n : Nat) : Word := a >>> n
def shSra (a : Word) (n : Nat) : Word := a.sshiftRight n
def opSll (a b : Word) : Word := a <<< (b.toNat % 64)
def opSrl (a b : Word) : Word := a >>> (b.toNat % 64)
def opSra (a b : Word) : Word := a.sshiftRight (b.toNat % 64)
def opAddw (a b : Word) : Word := sx32 (lo32 a + lo32 b)
def opSubw (a b : Word) : Word := sx32 (lo32 a - lo32 b)
def opSllw (a b : Word) : Word := sx32 (lo32 a <<< (b.toNat % 32))
def opSrlw (a b : Word) : Word := sx32 (lo32 a >>> (b.toNat % 32))
def opSraw (a b : Word) : Word := sx32 ((lo32 a).sshiftRight (b.toNat % 32))
def shSllw (a : Word) (n : Nat) : Word := sx32 (lo32 a <<< n)
def shSrlw (a : Word) (n : Nat) : Word := sx32 (lo32 a >>> n)
def shSraw (a : Word) (n : Nat) : Word := sx32 ((lo32 a).sshiftRight n)
def opMul (a b : Word) : Word := a * b
def opMulh (a b : Word) : Word := BitVec.ofInt 64 (a.toInt * b.toInt / (2 ^ 64 : Int))
def opMulhsu (a b : Word) : Word := BitVec.ofInt 64 (a.toInt * (b.toNat : Int) / (2 ^ 64 : Int))
def opMulhu (a b : Word) : Word := BitVec.ofNat 64 (a.toNat * b.toNat / 2 ^ 64)
def opMulw (a b : Word) : Word := sx32 (lo32 a * lo32 b)

/-- Quotients and remainders of `w` bits as RISC-V gives them: zero divisors and signed overflow included (spec 06 R140). -/
def divS {w : Nat} (a b : BitVec w) : BitVec w := if b = 0 then BitVec.allOnes w else BitVec.ofInt w (a.toInt.tdiv b.toInt)
def divU {w : Nat} (a b : BitVec w) : BitVec w := if b = 0 then BitVec.allOnes w else BitVec.ofNat w (a.toNat / b.toNat)
def remS {w : Nat} (a b : BitVec w) : BitVec w := if b = 0 then a else BitVec.ofInt w (a.toInt.tmod b.toInt)
def remU {w : Nat} (a b : BitVec w) : BitVec w := if b = 0 then a else BitVec.ofNat w (a.toNat % b.toNat)
def opDiv (a b : Word) : Word := divS a b
def opDivu (a b : Word) : Word := divU a b
def opRem (a b : Word) : Word := remS a b
def opRemu (a b : Word) : Word := remU a b
def opDivw (a b : Word) : Word := sx32 (divS (lo32 a) (lo32 b))
def opDivuw (a b : Word) : Word := sx32 (divU (lo32 a) (lo32 b))
def opRemw (a b : Word) : Word := sx32 (remS (lo32 a) (lo32 b))
def opRemuw (a b : Word) : Word := sx32 (remU (lo32 a) (lo32 b))

/-- A division: with DZE set a zero divisor traps and writes nothing, else the result follows as F/E (spec 06 R133, R140). -/
def divide (f : Word → Word → Word) (word : Bool) (rd rs1 rs2 : Reg) : State → Host.Outcome State Fault Refusal :=
  issue 4 noEarlyCheck [.x rs1, .x rs2] [.x rd] fun s =>
    let a := getX s rs1
    let b := getX s rs2
    let zero : Bool := if word then lo32 b == 0 else b == 0
    if zero && bit s.me.csr.qfcsr.toNat 20 then .trap s cINT_DIVZERO a
    else .ok (defer s (.x rd) (f a b).toNat)

/-- A taken branch or jump: a target with bit 1 set traps at the branch (spec 05 R106). -/
def goTo (s s1 : State) (target : Word) : Res :=
  if target.getLsbD 1 then .trap s cMISALIGNED target else .jump s1 target

/-- A conditional branch (spec 05 R106); `imm` is offset[12:1]. -/
def branch (cond : Word → Word → Bool) (rs1 rs2 : Reg) (imm : BitVec 12) : State → Host.Outcome State Fault Refusal :=
  issue 4 noEarlyCheck [.x rs1, .x rs2] [] fun s =>
    if cond (getX s rs1) (getX s rs2) then goTo s s (s.me.pc + (imm ++ 0#1).signExtend 64) else .ok s

def brEq (a b : Word) : Bool := a == b
def brNe (a b : Word) : Bool := a != b
def brLt (a b : Word) : Bool := a.slt b
def brGe (a b : Word) : Bool := !a.slt b
def brLtu (a b : Word) : Bool := a.ult b
def brGeu (a b : Word) : Bool := !a.ult b

/-- LUI. -/
def execLui (rd : Reg) (imm : BitVec 20) (s : State) : Host.Outcome State Fault Refusal :=
  issue 4 noEarlyCheck [] [.x rd] (fun s => .ok (setX s rd (sx32 (imm ++ 0#12)))) s

/-- AUIPC. -/
def execAuipc (rd : Reg) (imm : BitVec 20) (s : State) : Host.Outcome State Fault Refusal :=
  issue 4 noEarlyCheck [] [.x rd] (fun s => .ok (setX s rd (s.me.pc + sx32 (imm ++ 0#12)))) s

/-- JAL; `imm` is offset[20:1]. -/
def execJal (rd : Reg) (imm : BitVec 20) (s : State) : Host.Outcome State Fault Refusal :=
  issue 4 noEarlyCheck [] [.x rd] (fun s => goTo s (setX s rd (s.me.pc + 4)) (s.me.pc + (imm ++ 0#1).signExtend 64)) s

/-- JALR: bit 0 of the target is cleared. -/
def execJalr (rd rs1 : Reg) (imm : BitVec 12) (s : State) : Host.Outcome State Fault Refusal :=
  issue 4 noEarlyCheck [.x rs1] [.x rd]
    (fun s => goTo s (setX s rd (s.me.pc + 4)) ((getX s rs1 + imm.signExtend 64) &&& ~~~1#64)) s

/-- BEQ (spec 06 R138). -/
def execBeq (rs1 rs2 : Reg) (imm : BitVec 12) (s : State) : Host.Outcome State Fault Refusal := branch brEq rs1 rs2 imm s

/-- BNE (spec 06 R138). -/
def execBne (rs1 rs2 : Reg) (imm : BitVec 12) (s : State) : Host.Outcome State Fault Refusal := branch brNe rs1 rs2 imm s

/-- BLT (spec 06 R138). -/
def execBlt (rs1 rs2 : Reg) (imm : BitVec 12) (s : State) : Host.Outcome State Fault Refusal := branch brLt rs1 rs2 imm s

/-- BGE (spec 06 R138). -/
def execBge (rs1 rs2 : Reg) (imm : BitVec 12) (s : State) : Host.Outcome State Fault Refusal := branch brGe rs1 rs2 imm s

/-- BLTU (spec 06 R138). -/
def execBltu (rs1 rs2 : Reg) (imm : BitVec 12) (s : State) : Host.Outcome State Fault Refusal := branch brLtu rs1 rs2 imm s

/-- BGEU (spec 06 R138). -/
def execBgeu (rs1 rs2 : Reg) (imm : BitVec 12) (s : State) : Host.Outcome State Fault Refusal := branch brGeu rs1 rs2 imm s

/-- ADD (spec 06 R138). -/
def execAdd (rd rs1 rs2 : Reg) (s : State) : Host.Outcome State Fault Refusal := aluRR opAdd rd rs1 rs2 s

/-- SUB (spec 06 R138). -/
def execSub (rd rs1 rs2 : Reg) (s : State) : Host.Outcome State Fault Refusal := aluRR opSub rd rs1 rs2 s

/-- SLL (spec 06 R138). -/
def execSll (rd rs1 rs2 : Reg) (s : State) : Host.Outcome State Fault Refusal := aluRR opSll rd rs1 rs2 s

/-- SLT (spec 06 R138). -/
def execSlt (rd rs1 rs2 : Reg) (s : State) : Host.Outcome State Fault Refusal := aluRR opSlt rd rs1 rs2 s

/-- SLTU (spec 06 R138). -/
def execSltu (rd rs1 rs2 : Reg) (s : State) : Host.Outcome State Fault Refusal := aluRR opSltu rd rs1 rs2 s

/-- XOR (spec 06 R138). -/
def execXor (rd rs1 rs2 : Reg) (s : State) : Host.Outcome State Fault Refusal := aluRR opXor rd rs1 rs2 s

/-- SRL (spec 06 R138). -/
def execSrl (rd rs1 rs2 : Reg) (s : State) : Host.Outcome State Fault Refusal := aluRR opSrl rd rs1 rs2 s

/-- SRA (spec 06 R138). -/
def execSra (rd rs1 rs2 : Reg) (s : State) : Host.Outcome State Fault Refusal := aluRR opSra rd rs1 rs2 s

/-- OR (spec 06 R138). -/
def execOr (rd rs1 rs2 : Reg) (s : State) : Host.Outcome State Fault Refusal := aluRR opOr rd rs1 rs2 s

/-- AND (spec 06 R138). -/
def execAnd (rd rs1 rs2 : Reg) (s : State) : Host.Outcome State Fault Refusal := aluRR opAnd rd rs1 rs2 s

/-- ADDW (spec 06 R138). -/
def execAddw (rd rs1 rs2 : Reg) (s : State) : Host.Outcome State Fault Refusal := aluRR opAddw rd rs1 rs2 s

/-- SUBW (spec 06 R138). -/
def execSubw (rd rs1 rs2 : Reg) (s : State) : Host.Outcome State Fault Refusal := aluRR opSubw rd rs1 rs2 s

/-- SLLW (spec 06 R138). -/
def execSllw (rd rs1 rs2 : Reg) (s : State) : Host.Outcome State Fault Refusal := aluRR opSllw rd rs1 rs2 s

/-- SRLW (spec 06 R138). -/
def execSrlw (rd rs1 rs2 : Reg) (s : State) : Host.Outcome State Fault Refusal := aluRR opSrlw rd rs1 rs2 s

/-- SRAW (spec 06 R138). -/
def execSraw (rd rs1 rs2 : Reg) (s : State) : Host.Outcome State Fault Refusal := aluRR opSraw rd rs1 rs2 s

/-- MUL (spec 06 R138). -/
def execMul (rd rs1 rs2 : Reg) (s : State) : Host.Outcome State Fault Refusal := aluRR opMul rd rs1 rs2 s

/-- MULH (spec 06 R138). -/
def execMulh (rd rs1 rs2 : Reg) (s : State) : Host.Outcome State Fault Refusal := aluRR opMulh rd rs1 rs2 s

/-- MULHSU (spec 06 R138). -/
def execMulhsu (rd rs1 rs2 : Reg) (s : State) : Host.Outcome State Fault Refusal := aluRR opMulhsu rd rs1 rs2 s

/-- MULHU (spec 06 R138). -/
def execMulhu (rd rs1 rs2 : Reg) (s : State) : Host.Outcome State Fault Refusal := aluRR opMulhu rd rs1 rs2 s

/-- MULW (spec 06 R138). -/
def execMulw (rd rs1 rs2 : Reg) (s : State) : Host.Outcome State Fault Refusal := aluRR opMulw rd rs1 rs2 s

/-- ADDI (spec 06 R138). -/
def execAddi (rd rs1 : Reg) (imm : BitVec 12) (s : State) : Host.Outcome State Fault Refusal := aluRI opAdd rd rs1 imm s

/-- SLTI (spec 06 R138). -/
def execSlti (rd rs1 : Reg) (imm : BitVec 12) (s : State) : Host.Outcome State Fault Refusal := aluRI opSlt rd rs1 imm s

/-- SLTIU (spec 06 R138). -/
def execSltiu (rd rs1 : Reg) (imm : BitVec 12) (s : State) : Host.Outcome State Fault Refusal := aluRI opSltu rd rs1 imm s

/-- XORI (spec 06 R138). -/
def execXori (rd rs1 : Reg) (imm : BitVec 12) (s : State) : Host.Outcome State Fault Refusal := aluRI opXor rd rs1 imm s

/-- ORI (spec 06 R138). -/
def execOri (rd rs1 : Reg) (imm : BitVec 12) (s : State) : Host.Outcome State Fault Refusal := aluRI opOr rd rs1 imm s

/-- ANDI (spec 06 R138). -/
def execAndi (rd rs1 : Reg) (imm : BitVec 12) (s : State) : Host.Outcome State Fault Refusal := aluRI opAnd rd rs1 imm s

/-- ADDIW (spec 06 R138). -/
def execAddiw (rd rs1 : Reg) (imm : BitVec 12) (s : State) : Host.Outcome State Fault Refusal := aluRI opAddw rd rs1 imm s

/-- SLLI (spec 06 R138). -/
def execSlli (rd rs1 : Reg) (sh : BitVec 6) (s : State) : Host.Outcome State Fault Refusal := aluSh shSll rd rs1 sh.toNat s

/-- SRLI (spec 06 R138). -/
def execSrli (rd rs1 : Reg) (sh : BitVec 6) (s : State) : Host.Outcome State Fault Refusal := aluSh shSrl rd rs1 sh.toNat s

/-- SRAI (spec 06 R138). -/
def execSrai (rd rs1 : Reg) (sh : BitVec 6) (s : State) : Host.Outcome State Fault Refusal := aluSh shSra rd rs1 sh.toNat s

/-- SLLIW (spec 06 R138). -/
def execSlliw (rd rs1 : Reg) (sh : BitVec 5) (s : State) : Host.Outcome State Fault Refusal := aluSh shSllw rd rs1 sh.toNat s

/-- SRLIW (spec 06 R138). -/
def execSrliw (rd rs1 : Reg) (sh : BitVec 5) (s : State) : Host.Outcome State Fault Refusal := aluSh shSrlw rd rs1 sh.toNat s

/-- SRAIW (spec 06 R138). -/
def execSraiw (rd rs1 : Reg) (sh : BitVec 5) (s : State) : Host.Outcome State Fault Refusal := aluSh shSraw rd rs1 sh.toNat s

/-- DIV (spec 06 R138). -/
def execDiv (rd rs1 rs2 : Reg) (s : State) : Host.Outcome State Fault Refusal := divide opDiv false rd rs1 rs2 s

/-- DIVU (spec 06 R138). -/
def execDivu (rd rs1 rs2 : Reg) (s : State) : Host.Outcome State Fault Refusal := divide opDivu false rd rs1 rs2 s

/-- REM (spec 06 R138). -/
def execRem (rd rs1 rs2 : Reg) (s : State) : Host.Outcome State Fault Refusal := divide opRem false rd rs1 rs2 s

/-- REMU (spec 06 R138). -/
def execRemu (rd rs1 rs2 : Reg) (s : State) : Host.Outcome State Fault Refusal := divide opRemu false rd rs1 rs2 s

/-- DIVW (spec 06 R138). -/
def execDivw (rd rs1 rs2 : Reg) (s : State) : Host.Outcome State Fault Refusal := divide opDivw true rd rs1 rs2 s

/-- DIVUW (spec 06 R138). -/
def execDivuw (rd rs1 rs2 : Reg) (s : State) : Host.Outcome State Fault Refusal := divide opDivuw true rd rs1 rs2 s

/-- REMW (spec 06 R138). -/
def execRemw (rd rs1 rs2 : Reg) (s : State) : Host.Outcome State Fault Refusal := divide opRemw true rd rs1 rs2 s

/-- REMUW (spec 06 R138). -/
def execRemuw (rd rs1 rs2 : Reg) (s : State) : Host.Outcome State Fault Refusal := divide opRemuw true rd rs1 rs2 s

end Sys2Proof.Machine
end

