-- ==== Sys2Proof/Machine/Access.lean ====
section
/-! DEFINITION. Scalar loads and stores, fences, LR and SC, and the RISC-V AMOs (spec 05 R112, 06 R139, R141, R142). -/

namespace Sys2Proof.Machine

/-- The effective address of a load or store. -/
def eaOf (s : State) (rs1 : Reg) (imm : BitVec 12) : Word := getX s rs1 + imm.signExtend 64

/-- A load of `n` bytes; `ext` forms the register's value (spec 06 R133, R139). -/
def loadInto (d : Dst) (n : Nat) (ext : Nat → Nat) (rs1 : Reg) (imm : BitVec 12) : State → Host.Outcome State Fault Refusal :=
  issue 4 noEarlyCheck [.x rs1] [d] fun s => Op.res do
    let (s, v) ← loadVal s (eaOf s rs1 imm) n
    .ok (.ok (defer s d (ext v)))

/-- A sign-extended load. -/
def extS (n v : Nat) : Nat := (sextW n v).toNat

/-- A 16-bit value boxed in an f register (spec 06 R144). -/
def boxH (v : Nat) : Nat := 0xFFFF0000 + v % 65536

/-- A store of the low `n` bytes of x[rs2] (spec 06 R139). -/
def storeX (n : Nat) (rs1 rs2 : Reg) (imm : BitVec 12) : State → Host.Outcome State Fault Refusal :=
  issue 4 noEarlyCheck [.x rs1, .x rs2] [] fun s => Op.res do
    .ok (.ok (← storeVal s (eaOf s rs1 imm) n (getX s rs2).toNat))

/-- A store of the low `n` bytes of f[rs2]. -/
def storeF (n : Nat) (rs1 rs2 : Reg) (imm : BitVec 12) : State → Host.Outcome State Fault Refusal :=
  issue 4 noEarlyCheck [.x rs1, .f rs2] [] fun s => Op.res do
    .ok (.ok (← storeVal s (eaOf s rs1 imm) n (getF s rs2).toNat))

/-- LB. -/
def execLb (rd rs1 : Reg) (imm : BitVec 12) (s : State) : Host.Outcome State Fault Refusal := loadInto (.x rd) 1 (extS 1) rs1 imm s
/-- LH. -/
def execLh (rd rs1 : Reg) (imm : BitVec 12) (s : State) : Host.Outcome State Fault Refusal := loadInto (.x rd) 2 (extS 2) rs1 imm s
/-- LW. -/
def execLw (rd rs1 : Reg) (imm : BitVec 12) (s : State) : Host.Outcome State Fault Refusal := loadInto (.x rd) 4 (extS 4) rs1 imm s
/-- LD. -/
def execLd (rd rs1 : Reg) (imm : BitVec 12) (s : State) : Host.Outcome State Fault Refusal := loadInto (.x rd) 8 id rs1 imm s
/-- LBU. -/
def execLbu (rd rs1 : Reg) (imm : BitVec 12) (s : State) : Host.Outcome State Fault Refusal := loadInto (.x rd) 1 id rs1 imm s
/-- LHU. -/
def execLhu (rd rs1 : Reg) (imm : BitVec 12) (s : State) : Host.Outcome State Fault Refusal := loadInto (.x rd) 2 id rs1 imm s
/-- LWU. -/
def execLwu (rd rs1 : Reg) (imm : BitVec 12) (s : State) : Host.Outcome State Fault Refusal := loadInto (.x rd) 4 id rs1 imm s
/-- FLW. -/
def execFlw (rd rs1 : Reg) (imm : BitVec 12) (s : State) : Host.Outcome State Fault Refusal := loadInto (.f rd) 4 id rs1 imm s
/-- FLH: bits [31:16] are set to ones. -/
def execFlh (rd rs1 : Reg) (imm : BitVec 12) (s : State) : Host.Outcome State Fault Refusal := loadInto (.f rd) 2 boxH rs1 imm s
/-- SB. -/
def execSb (rs1 rs2 : Reg) (imm : BitVec 12) (s : State) : Host.Outcome State Fault Refusal := storeX 1 rs1 rs2 imm s
/-- SH. -/
def execSh (rs1 rs2 : Reg) (imm : BitVec 12) (s : State) : Host.Outcome State Fault Refusal := storeX 2 rs1 rs2 imm s
/-- SW. -/
def execSw (rs1 rs2 : Reg) (imm : BitVec 12) (s : State) : Host.Outcome State Fault Refusal := storeX 4 rs1 rs2 imm s
/-- SD. -/
def execSd (rs1 rs2 : Reg) (imm : BitVec 12) (s : State) : Host.Outcome State Fault Refusal := storeX 8 rs1 rs2 imm s
/-- FSW. -/
def execFsw (rs1 rs2 : Reg) (imm : BitVec 12) (s : State) : Host.Outcome State Fault Refusal := storeF 4 rs1 rs2 imm s
/-- FSH. -/
def execFsh (rs1 rs2 : Reg) (imm : BitVec 12) (s : State) : Host.Outcome State Fault Refusal := storeF 2 rs1 rs2 imm s

/-! ### Fences (spec 05 R112, 06 R141) -/

/-- An issued atomic of the cell has not been performed: a reading access still open (spec 13 R295). -/
def busyReads (s : State) : Bool :=
  s.posted.any fun p => p.cell == s.cur && p.gang == s.me.gang && (match p.op with | .amo .. => true | .write _ => false)

/-- Wait until the cell's earlier accesses of the classes are performed; writes to peers count at pod scope (spec 13 R306). -/
def fenceWait (s : State) (r w : Bool) (pod : Bool := false) : Op Unit :=
  if (w && busy s pod) || (r && busyReads s) then .error (.park s .performed) else .ok ()

/-- What a fence of the current cell orders at a scope: after its accesses of the classes `r` and `w`, its later reads and, with class w, its
later writes, where `nr` and `nw` name them (spec 13 R295). -/
def fenceOrders (r w nr nw : Bool) (sc : Scope) (s : State) : State :=
  let s1 := if nr then s.orderReads s.cur r w sc else s
  if w && nw then s1.orderWrites s.cur sc else s1

/-- A fence: the accesses of the classes `r` and `w` are waited for, and those of `nr` and `nw` after it are ordered, at package scope. -/
def fenceOf (r w nr nw : Bool) : State → Host.Outcome State Fault Refusal :=
  issue 4 noEarlyCheck [] [] fun s => Op.res do
    fenceWait s r w
    .ok (.ok (fenceOrders r w nr nw .pkg s))

/-- A set names loads when it holds R or I. -/
def setReads (v : BitVec 4) : Bool := v.getLsbD 1 || v.getLsbD 3

/-- A set names stores when it holds W or O. -/
def setWrites (v : BitVec 4) : Bool := v.getLsbD 0 || v.getLsbD 2

/-- FENCE: an empty set orders nothing; rs1, rd and other values of fm are as RISC-V reserves them. -/
def execFence (_fm pred succ : BitVec 4) (_rs1 _rd : Reg) (s : State) : Host.Outcome State Fault Refusal :=
  if pred = 0 ∨ succ = 0 then fenceOf false false false false s else fenceOf (setReads pred) (setWrites pred) (setReads succ) (setWrites succ) s

/-- FENCE.TSO acts as FENCE rw,rw. -/
def execFenceTso (_pred _succ : BitVec 4) (_rs1 _rd : Reg) (s : State) : Host.Outcome State Fault Refusal := fenceOf true true true true s

/-- PAUSE orders nothing. -/
def execPause (s : State) : Host.Outcome State Fault Refusal := fenceOf false false false false s

/-- FENCE.I: the cell's stores and atomics are performed, then every line of the core's cache goes; imm, rs1 and rd are ignored. -/
def execFenceI (_rd _rs1 : Reg) (_imm : BitVec 12) (s : State) : Host.Outcome State Fault Refusal :=
  issue 4 noEarlyCheck [] [] (fun s => Op.res do
    fenceWait s true true
    .ok (.ok (s.modCore (coreOf s.cur) fun k => { k with icache := [] }))) s

/-! ### Atomics (spec 06 R142, 14 R312, R313) -/

/-- A read-modify-write at its home. `d` receives the old value, sign-extended; an acquire parks the cell until the reply. -/
def atomic (s : State) (ea : Word) (size : Nat) (op : AmoOp) (src cmp : Word) (d : Dst) (acq rel : Bool) (sc : Scope := .pkg) : Op State :=
  match s.me.reply with
  | some v => .ok (defer s d (sextW size v.toNat).toNat)
  | none => do
    let (s, t) ← resolve s .atomic ea size rAtomic size
    if rel then release s sc
    match t with
    | .key k =>
      if isHbm k then
        if acq then .error (.park (post s k ea (.amo op size src cmp .none) { acq, rel, sc }) (.remote 0))
        else
          let (s1, d') := reserve s d
          .ok (post s1 k ea (.amo op size src cmp d') { rel, sc })
      else
        let (s1, old) := amoSync s (.cell s.cur) none k op size src cmp acq rel sc
        .ok (defer s1 d (sextW size old).toNat)
    | .remote k => .error (waitRemote s k ea (.amo op size src cmp) { acq, rel, sc })
    | .peer acc pa => .error (waitFabric s (.peer acc) pa size ea (.amo op src cmp) (if acq then some sc else none))
    | .host _ => .error (.trap s cACCESS_FAULT ea)
    | .window _ => .error (.trap s cACCESS_FAULT ea)

/-- An AMO of the RISC-V A extension, at package scope. -/
def amoRv (op : AmoOp) (size : Nat) (rd rs1 rs2 : Reg) (aq rl : Bool) : State → Host.Outcome State Fault Refusal :=
  issue 4 noEarlyCheck [.x rs1, .x rs2] [.x rd] fun s => Op.res do
    .ok (.ok (← atomic s (getX s rs1) size op (getX s rs2) 0 (.x rd) aq rl))

/-- The 64-byte granule of a key. -/
def granule (key : Nat) : Nat := key / 64 * 64

/-- The key a peer's location is known by in a reservation. -/
def peerKey (acc pa : Nat) : Nat := 2 ^ 64 + acc * 2 ^ 44 + pa

/-- A cell holds a reservation on a granule, named with its DVA (spec 06 R142). -/
def holdGranule (s : State) (c key dva : Nat) : State := s.modCell c fun v => { v with resv := some (granule key), resvDva := granule dva }

/-- A cell's LR reads `n` bytes as they stand at their home, with an acquire where it asks for one (spec 06 R138: as RISC-V gives it, at
package scope; 13 R288). -/
def lrRead (s : State) (c : Nat) (aq : Bool) (key n : Nat) (sc : Scope := .pkg) : State :=
  if aq then s.acquire c key n sc else s.noteRead c s.stamp key n

/-- The acquire of an SC that has written: the cell's later accesses follow its write (spec 06 R138: as RISC-V gives it, at package scope). -/
def scAcquire (s : State) (c : Nat) (aq : Bool) : State := if aq then s.orderAfter c .pkg [s.upToNow c] else s

/-- LR: the value as it stands at its home, and a reservation on the granule (spec 06 R142). The window block takes no LR (07 R164). -/
def loadReserved (size : Nat) (rd rs1 : Reg) (aq rl : Bool) : State → Host.Outcome State Fault Refusal :=
  issue 4 noEarlyCheck [.x rs1] [.x rd] fun s => Op.res do
    let ea := getX s rs1
    match s.me.reply with
    | some v => .ok (.ok (defer s (.x rd) (sextW size v.toNat).toNat))
    | none =>
      let (s, t) ← resolve s .load ea size rRead size
      if rl then release s
      let dva := eaDva s.myGang ea
      match t with
      | .key k =>
        let s := lrRead (drainOwn s k size) s.cur aq k size
        .ok (.ok (defer (holdGranule s s.cur k dva) (.x rd) (sextW size (s.readNat k size)).toNat))
      | .remote k => .error (waitRemote (s.modMe fun c => { c with resv := none }) k ea (.lr size) { acq := aq })
      | .peer acc pa => .error (waitFabric (holdGranule s s.cur (peerKey acc pa) dva) (.peer acc) pa size ea .lr (if aq then some .pkg else none))
      | .host _ => .error (.trap s cACCESS_FAULT ea)
      | .window _ => .error (.trap s cACCESS_FAULT ea)

/-- SC: it writes and gives 0 exactly when the reservation stands on the granule; any SC clears it (spec 06 R142). -/
def storeConditional (size : Nat) (rd rs1 rs2 : Reg) (aq rl : Bool) : State → Host.Outcome State Fault Refusal :=
  issue 4 noEarlyCheck [.x rs1, .x rs2] [.x rd] fun s => Op.res do
    let ea := getX s rs1
    let clear (s : State) : State := s.modMe fun c => { c with resv := none }
    match s.me.reply with
    | some v => .ok (.ok (defer (clear s) (.x rd) v.toNat))
    | none =>
      let (s, t) ← resolve s .atomic ea size rAtomic size
      if rl then release s
      let d := leBytes (getX s rs2).toNat size
      match t with
      | .key k =>
        if s.me.resv = some (granule k) then
          let s1 := (drainOwn s k size).write (.cell s.cur) (some (hiveOfCell s.cur)) k d
          .ok (.ok (defer (clear (scAcquire (if rl then s1.released (.cell s.cur) k size .pkg else s1) s.cur aq)) (.x rd) 0))
        else .ok (.ok (defer (clear s) (.x rd) 1))
      | .remote k => .error (waitRemote s k ea (.sc d) { acq := aq, rel := rl })
      | .peer acc pa =>
        if s.me.resv = some (granule (peerKey acc pa)) then .error (waitFabric (clear s) (.peer acc) pa size ea (.sc (getX s rs2)) (if aq then some .pkg else none))
        else .ok (.ok (defer (clear s) (.x rd) 1))
      | .host _ => .error (.trap s cACCESS_FAULT ea)
      | .window _ => .error (.trap s cACCESS_FAULT ea)

/-- LR.W. -/
def execLrW (rd rs1 : Reg) (aq rl : Bool) (s : State) : Host.Outcome State Fault Refusal := loadReserved 4 rd rs1 aq rl s
/-- LR.D. -/
def execLrD (rd rs1 : Reg) (aq rl : Bool) (s : State) : Host.Outcome State Fault Refusal := loadReserved 8 rd rs1 aq rl s
/-- SC.W. -/
def execScW (rd rs1 rs2 : Reg) (aq rl : Bool) (s : State) : Host.Outcome State Fault Refusal := storeConditional 4 rd rs1 rs2 aq rl s
/-- SC.D. -/
def execScD (rd rs1 rs2 : Reg) (aq rl : Bool) (s : State) : Host.Outcome State Fault Refusal := storeConditional 8 rd rs1 rs2 aq rl s
/-- AMOADD.W. -/
def execAmoaddW (rd rs1 rs2 : Reg) (aq rl : Bool) (s : State) : Host.Outcome State Fault Refusal :=
  amoRv .add 4 rd rs1 rs2 aq rl s
/-- AMOADD.D. -/
def execAmoaddD (rd rs1 rs2 : Reg) (aq rl : Bool) (s : State) : Host.Outcome State Fault Refusal :=
  amoRv .add 8 rd rs1 rs2 aq rl s
/-- AMOSWAP.W. -/
def execAmoswapW (rd rs1 rs2 : Reg) (aq rl : Bool) (s : State) : Host.Outcome State Fault Refusal :=
  amoRv .swap 4 rd rs1 rs2 aq rl s
/-- AMOSWAP.D. -/
def execAmoswapD (rd rs1 rs2 : Reg) (aq rl : Bool) (s : State) : Host.Outcome State Fault Refusal :=
  amoRv .swap 8 rd rs1 rs2 aq rl s
/-- AMOXOR.W. -/
def execAmoxorW (rd rs1 rs2 : Reg) (aq rl : Bool) (s : State) : Host.Outcome State Fault Refusal :=
  amoRv .xor 4 rd rs1 rs2 aq rl s
/-- AMOXOR.D. -/
def execAmoxorD (rd rs1 rs2 : Reg) (aq rl : Bool) (s : State) : Host.Outcome State Fault Refusal :=
  amoRv .xor 8 rd rs1 rs2 aq rl s
/-- AMOAND.W. -/
def execAmoandW (rd rs1 rs2 : Reg) (aq rl : Bool) (s : State) : Host.Outcome State Fault Refusal :=
  amoRv .and 4 rd rs1 rs2 aq rl s
/-- AMOAND.D. -/
def execAmoandD (rd rs1 rs2 : Reg) (aq rl : Bool) (s : State) : Host.Outcome State Fault Refusal :=
  amoRv .and 8 rd rs1 rs2 aq rl s
/-- AMOOR.W. -/
def execAmoorW (rd rs1 rs2 : Reg) (aq rl : Bool) (s : State) : Host.Outcome State Fault Refusal :=
  amoRv .or 4 rd rs1 rs2 aq rl s
/-- AMOOR.D. -/
def execAmoorD (rd rs1 rs2 : Reg) (aq rl : Bool) (s : State) : Host.Outcome State Fault Refusal :=
  amoRv .or 8 rd rs1 rs2 aq rl s
/-- AMOMIN.W. -/
def execAmominW (rd rs1 rs2 : Reg) (aq rl : Bool) (s : State) : Host.Outcome State Fault Refusal :=
  amoRv .min 4 rd rs1 rs2 aq rl s
/-- AMOMIN.D. -/
def execAmominD (rd rs1 rs2 : Reg) (aq rl : Bool) (s : State) : Host.Outcome State Fault Refusal :=
  amoRv .min 8 rd rs1 rs2 aq rl s
/-- AMOMAX.W. -/
def execAmomaxW (rd rs1 rs2 : Reg) (aq rl : Bool) (s : State) : Host.Outcome State Fault Refusal :=
  amoRv .max 4 rd rs1 rs2 aq rl s
/-- AMOMAX.D. -/
def execAmomaxD (rd rs1 rs2 : Reg) (aq rl : Bool) (s : State) : Host.Outcome State Fault Refusal :=
  amoRv .max 8 rd rs1 rs2 aq rl s
/-- AMOMINU.W. -/
def execAmominuW (rd rs1 rs2 : Reg) (aq rl : Bool) (s : State) : Host.Outcome State Fault Refusal :=
  amoRv .minu 4 rd rs1 rs2 aq rl s
/-- AMOMINU.D. -/
def execAmominuD (rd rs1 rs2 : Reg) (aq rl : Bool) (s : State) : Host.Outcome State Fault Refusal :=
  amoRv .minu 8 rd rs1 rs2 aq rl s
/-- AMOMAXU.W. -/
def execAmomaxuW (rd rs1 rs2 : Reg) (aq rl : Bool) (s : State) : Host.Outcome State Fault Refusal :=
  amoRv .maxu 4 rd rs1 rs2 aq rl s
/-- AMOMAXU.D. -/
def execAmomaxuD (rd rs1 rs2 : Reg) (aq rl : Bool) (s : State) : Host.Outcome State Fault Refusal :=
  amoRv .maxu 8 rd rs1 rs2 aq rl s

end Sys2Proof.Machine
end

