-- ==== Sys2Proof/Machine/Remote.lean ====
section
/-! DEFINITION. Remote accesses: the window check at the target, the operations at an LS or HSP port, tagged words and their
waiters, replies and refusals (spec 07 R163 to R165, R176; 14 R321 to R323). -/

namespace Sys2Proof.Machine

/-! ### Windows (spec 07 R163, R164) -/

/-- The right a remote access needs of a window. -/
inductive WinRight where
  | rd | wr | at_
deriving DecidableEq, Repr

/-- A window grants an access of `n` bytes at offset `off` of its gang's allocation. -/
def windowGrants (w lsu off n from_ to_ : Nat) (r : WinRight) : Bool :=
  let start := bits w 12 0
  let len := bits w 44 32
  bit w 63 && decide (start + len ≤ lsu * 64) && decide (start * 64 ≤ off) && decide (off + n ≤ (start + len) * 64)
  && (match bits w 49 48 with
      | 0 => hiveOf from_ == hiveOf to_
      | 1 => dieOf from_ == dieOf to_
      | 2 => true
      | _ => false)
  && (match r with | .rd => bit w 62 | .wr => bit w 61 | .at_ => bit w 60)

/-- A request of a gang on core `from_` may be performed at an LS or HSP key of the gang's partition. -/
def remoteAllowed (s : State) (gid key n : Nat) (r : WinRight) : Bool :=
  let g := s.gang gid
  let part := (s.launch g.launch).part
  if isHsp key then s.partOfHive ((key - 2 ^ 41) / 2 ^ 23) == some part
  else
    let core := lsCore key
    let off := lsOff key
    s.partOfHive (hiveOf core) == some part &&
    match lsOwner s core off with
    | none => false
    | some o =>
      let og := s.gang o
      (o == gid && decide (off + n ≤ (og.lsBase + og.hdr.lsu) * 4096))
      || ((s.launch og.launch).part == part && og.win.any fun w => windowGrants w.toNat og.hdr.lsu (off - og.lsBase * 4096) n g.core core r)

/-- The right a port operation needs. -/
def PortOp.right : PortOp → WinRight
  | .load _ | .lr _ | .ldfe _ | .feprobe => .rd
  | .store _ | .stfe .. | .feset _ => .wr
  | .sc _ | .amo .. => .at_

/-- The bytes a port operation covers. -/
def PortOp.size : PortOp → Nat
  | .load n | .lr n => n
  | .store d | .sc d => d.length
  | .amo _ size _ _ => size
  | .ldfe _ | .stfe .. | .feprobe | .feset _ => 8

/-! ### Tagged words (spec 14 R321 to R323) -/

/-- The scope of an stfe or ldfe: the pair scope of the cell and its word's home (spec 13 R294, R303). -/
def homeScope (c key : Nat) : Scope :=
  let h := if isHsp key then (key - 2 ^ 41) / 2 ^ 23 else hiveOf (lsCore key)
  if hiveOfCell c = h then .hive else if dieOfCell c = h / 16 then .die else .pkg

/-- Serve a word's queue after an operation filled it: the head is satisfied, and after an `ldfe.k` the next is tried. -/
def feServe (s : State) (key : Nat) : Nat → State
  | 0 => s
  | fuel + 1 =>
    if s.full key then
      match s.feq.find? fun e => e.key == key with
      | some e =>
        let v := BitVec.ofNat 64 (s.readNat key 8)
        let s1 : State := { s with feq := s.feq.erase e }.acquire e.cell key 8 (homeScope e.cell key)
        let s2 := if e.keep then s1 else s1.writeTag (.cell e.cell) key false
        feServe (s2.modCell e.cell fun c => { c with reply := some v, run := .ready }) key fuel
      | none => s
    else s

/-- Satisfy the waiters of a word. -/
def feSatisfy (s : State) (key : Nat) : State := feServe s key s.feq.length

/-- An stfe at its home: refused on a full word. It is a release (spec 13 R294). -/
def stfeAt (s : State) (who : Nat) (key : Nat) (v : Word) (force : Bool) : State × Bool :=
  if s.full key && !force then (s, false)
  else (feSatisfy (((s.write (.cell who) none key (leBytes v.toNat 8)).released (.cell who) key 8 (homeScope who key)).setFull key true) key, true)

/-- An ldfe of a full word at its home: an acquire (spec 13 R294). -/
def ldfeAt (s : State) (who : Nat) (key : Nat) (keep : Bool) : State × Word :=
  let s1 := s.acquire who key 8 (homeScope who key)
  (if keep then s1 else s1.writeTag (.cell who) key false, BitVec.ofNat 64 (s.readNat key 8))

/-- A feset at its home. -/
def fesetAt (s : State) (who : Agent) (key : Nat) (full : Bool) : State :=
  if full then feSatisfy (s.writeTag who key true) key else s.writeTag who key false

/-! ### At the target port -/

/-- The cell that made a request still holds it: its gang is the same. -/
def Remote.mine (s : State) (r : Remote) : Bool := (s.cell r.cell).gang == r.gang && (Tab.find s.cells r.cell).isSome

/-- Perform a request that its target allows: the state, whether it was done, and the value of its reply; none while an ldfe
waits at the home. -/
def portPerform (s : State) (r : Remote) : State × Option (Bool × Word) :=
  let who := Agent.cell r.cell
  let mine := r.mine s
  let stored (d : List Byte) : State :=
    let s1 := s.write who none r.key d
    if r.rel then s1.released who r.key d.length r.sc else s1
  match r.op with
  | .load n =>
    let (s1, d) := s.readBy r.cell r.key n
    if r.acq && mine then (s.acquire r.cell r.key n r.sc, some (true, BitVec.ofNat 64 (s.readNat r.key n)))
    else (if mine then s1 else s, some (true, BitVec.ofNat 64 (leNat d)))
  | .lr n =>
    let s1 := if mine then holdGranule (lrRead s r.cell r.acq r.key n r.sc) r.cell r.key (eaDva (s.gang r.gang) r.ea) else s
    (s1, some (true, BitVec.ofNat 64 (s.readNat r.key n)))
  | .store d => (stored d, some (true, 0))
  | .sc d => if mine && (s.cell r.cell).resv = some (granule r.key) then (scAcquire (stored d) r.cell r.acq, some (true, 0)) else (s, some (true, 1))
  | .amo op size src cmp =>
    let (s1, old) := amoSync s (agentOf r.eng r.cell) none r.key op size src cmp (r.acq && mine) r.rel r.sc
    (s1, some (true, BitVec.ofNat 64 old))
  | .ldfe keep =>
    if s.full r.key then let (s1, v) := ldfeAt s r.cell r.key keep; (s1, some (true, v)) else (s, none)
  | .stfe v force => let (s1, ok) := stfeAt s r.cell r.key v force; (s1, some (ok, 0))
  | .feprobe => (s, some (true, BitVec.ofNat 64 (b2n (s.full r.key))))
  | .feset full => (fesetAt s who r.key full, some (true, 0))

/-- No earlier request of the same cell to the same target satisfies `p`: requests arrive in order, and so do their replies (spec 13
R304). -/
def streamOrder (s : State) (id : Nat) (r : Remote) (p : Remote → Bool) : Bool :=
  s.remotes.all fun e => !(decide (e.1 < id) && e.2.cell == r.cell && e.2.gang == r.gang && p e.2 &&
    (if isHsp r.key then isHsp e.2.key && (e.2.key - 2 ^ 41) / 2 ^ 23 == (r.key - 2 ^ 41) / 2 ^ 23
     else isLs e.2.key && lsCore e.2.key == lsCore r.key))

/-- REMOTE_ACCESS_ARRIVAL (spec 07 R164): the request is checked under the windows that stand when it arrives, and performed or
refused. An ldfe of an empty word then waits at the home. -/
def execRemoteAccessArrival (id : Nat) (s : State) : Host.Outcome State Fault Refusal :=
  .next <| match Tab.find s.remotes id with
  | none => s
  | some r =>
    if r.arrived || !streamOrder s id r (fun e => !e.arrived) then s
    else if !remoteAllowed s r.gang r.key r.op.size r.op.right then
      { s with remotes := Tab.put s.remotes id { r with arrived := true, reply := some (false, 0) } }
    else
      match portPerform s r with
      | (s1, some v) => { s1 with remotes := Tab.put s1.remotes id { r with arrived := true, reply := some v } }
      | (s1, none) =>
        let keep := match r.op with | .ldfe k => k | _ => false
        let s2 : State := { s1 with remotes := Tab.del s1.remotes id
                                    feq := s1.feq ++ [{ key := r.key, keep, cell := r.cell, gang := r.gang, remote := none }] }
        let s3 := s2.modCell r.cell fun c => { c with run := .parked (.word r.key) }
        if (s3.gang r.gang).st == .landing then landParked s3 r.cell else s3

/-- A trap of a parked instruction: REMOTE_NACK and the errors of a link, precise at its pc. -/
def trapParked (s : State) (cid cause : Nat) (tval : Word) : State :=
  let c := s.cell cid
  let idx := if c.stage ≥ 2 then some (c.stage - 2) else none
  takeTrap (unlatch s cid) cid { cause, tval, epc := c.pc, ilen := c.ilen, async := false, vrec := idx, mrec := false }

/-- The limit of a parked wait passes: the cell traps WAIT_LIMIT precisely (spec 14 R316, R319, R323 to R326). -/
def limitTrap (s : State) (cid : Nat) : State :=
  let c := s.cell cid
  match c.limit with
  | some (ns, tval) => trapParked (s.timeTo (c.since.getD s.qtime + ns)) cid cWAIT_LIMIT tval
  | none => s

/-- FRMWAIT_LIMIT, SWAIT_LIMIT and their like: the cell's wait must be one that `p` names. -/
def limitIn (s : State) (cid : Nat) (p : Wait → Bool) : State :=
  match (Tab.find s.cells cid).map Cell.run with
  | some (.parked w) => if p w then limitTrap s cid else s
  | _ => s

/-- REMOTE_REPLY (spec 07 R165): a parked instruction goes on with the value or traps REMOTE_NACK; a posted one is done, or its
refusal becomes pending. -/
def execRemoteReply (id : Nat) (s : State) : Host.Outcome State Fault Refusal :=
  .next <| match Tab.find s.remotes id with
  | none => s
  | some r =>
    match r.reply with
    | none => s
    | some (ok, v) =>
      let s1 : State := { s with remotes := Tab.del s.remotes id }
      if !streamOrder s id r (fun _ => true) then s
      else if !r.mine s then s1
      else if r.posted then
        wakePerformed (if ok then s1 else pendAsync s1 r.cell { cause := cREMOTE_NACK_ASYNC, tval := r.ea }) r.cell
      else if (s1.cell r.cell).run != .parked (.remote id) then s1
      else if ok then s1.modCell r.cell fun c => { c with reply := some v, run := .ready }
      else trapParked s1 r.cell cREMOTE_NACK r.ea

/-- An error response of a peer, counted at its station (spec 14 R331). -/
def stationError (s : State) (station : Nat) : State :=
  if station < 32 then s.modStation station fun r => { r with err := min (2 ^ 32 - 1) (r.err + 1) } else s

/-- A request that its station gave up, counted there (spec 14 R331). -/
def stationTimeout (s : State) (station : Nat) : State :=
  if station < 32 then s.modStation station fun r => { r with tmo := min (2 ^ 32 - 1) (r.tmo + 1) } else s

/-- A cell's posted write to host memory or to a peer at a DVA that has not been accepted. -/
def postedOut (s : State) (cell : Nat) (dva : Word) : Option Post :=
  s.posted.find? fun p => p.cell == cell && p.home != .hbm && BitVec.ofNat 64 p.dva == dva

/-- A peer answers a posted write or update with an error, counted at its station (spec 14 R331): it is undeliverable, so its gang is killed
with K_FABRIC; an update by the dispatch or brood unit is named by a report of KIND 5 (spec 07 R176; 18 R391, R393; log 34). -/
def postedError (s : State) (cell station : Nat) (dva : Word) : State :=
  match postedOut s cell dva with
  | some p =>
    let s1 := match p.home with | .peer _ => stationError s station | _ => s
    let s2 : State := { s1 with posted := s1.posted.erase p }
    if cell = noCell then postReport s2 5 station 0 noCell dva 0 0 0 0 else killPlain s2 p.gang 0x84 dva cell
  | none => s

/-- FABRIC_REPLY (spec 07 R176): a reply of host or peer memory, or an error. A UALink error response is counted (14 R331). To a cell that waits
for no reply, an error is that of its posted write at the DVA in `data`. -/
def execFabricReply (cell station : Nat) (ok : Bool) (data : Word) (s : State) : Host.Outcome State Fault Refusal :=
  .next <| match (Tab.find s.cells cell).map Cell.run with
  | some (.parked (.fabric home _ ea _ acq)) =>
    if ok then
      let s1 := match acq with
        | some sc => s.orderAfter cell sc [s.upToNow cell]
        | none => s.modCell cell fun c => { c with sight := Known.add c.sight (s.upToNow cell) }
      s1.modCell cell fun c => { c with reply := some data, run := .ready }
    else trapParked (match home with | .peer _ => stationError s station | _ => s) cell cACCESS_FAULT ea
  | _ => if ok then s else postedError s cell station data

/-- POSTED_WRITE_UNDELIVERABLE (spec 07 R176): the gang that issued it is killed. -/
def execPostedWriteUndeliverable (cell : Nat) (dva : Word) (s : State) : Host.Outcome State Fault Refusal :=
  .next <| match postedOut s cell dva with
  | some p => killPlain { s with posted := s.posted.erase p } p.gang 0x84 dva cell
  | none => s

/-- ACCESS_PERFORMED_AT_HOME (spec 13 R288): the cell's `i`-th posted access is performed; accesses of one cell to one location, or to one
target outside the package, keep their order (07 R176). -/
def execAccessPerformedAtHome (cell i : Nat) (s : State) : Host.Outcome State Fault Refusal :=
  .next <|
    let mine := s.posted.zipIdx.filter fun e => e.1.cell == cell
    match mine[i]? with
    | none => s
    | some (p, at_) =>
      if (mine.take i).any fun e => e.1.home == p.home && (p.home != .hbm || overlap e.1.pa e.1.size p.pa p.size) then s
      else wakePerformed (performPost { s with posted := dropAt s.posted at_ } p) cell

/-- A decrement of a signal word at its home by an engine for a cell, as a release (spec 03 R66, 10 R239, 11 R268). A remote LS or HSP, and a
peer, answer at their ports. -/
def decrementAt (s : State) (cid gid : Nat) (ea : Word) (key : Nat) (sc : Scope) : State :=
  let g := s.gang gid
  let minus : Word := BitVec.allOnes 64
  let here (hive : Option Nat) : State := (amoSync s (.engine cid) hive key .add 8 minus 0 false true sc).1
  if isHbm key then here (some (hiveOf g.core))
  else if (isLs key && lsCore key == g.core) || (isHsp key && (key - 2 ^ 41) / 2 ^ 23 == hiveOf g.core) then here none
  else if isLs key || isHsp key then
    { s with remotes := Tab.put s.remotes s.nextId { cell := cid, gang := gid, key, ea, op := .amo .add 8 minus 0, posted := true, rel := true, sc
                                                     eng := true }
             nextId := s.nextId + 1 }
  else
    { s with
      posted := s.posted ++ [{ id := s.nextId, home := .peer ((key - 2 ^ 64) / 2 ^ 44), cell := cid, gang := gid, launch := g.launch, pa := key % 2 ^ 44
                               dva := eaDva g ea, op := .amo .add 8 minus 0 .none, rel := true, sc, eng := true, time := s.qtime }]
      nextId := s.nextId + 1 }

end Sys2Proof.Machine
end

