-- ==== Sys2Proof/Machine/Copies.lean ====
section
/-! DEFINITION. Tile copies: the tensor descriptor, the checks of TCOPY, the engine's moves and completion actions, and frames
(spec 10). -/

namespace Sys2Proof.Machine

/-! ### The tensor descriptor (spec 10 R229 to R231, R234) -/

/-- A tensor descriptor, with its start coordinates. -/
structure Tdesc where
  base : Nat
  ty : Nat
  rank : Nat
  swz : Nat
  zero : Nat
  fill : Nat
  ext : List Nat
  /-- Strides of dimensions 1 to 3. -/
  str : List Int
  box : List Nat
  co : List Int
deriving DecidableEq, Repr

/-- Element width in bytes by type code; 0 for a code no copy takes (spec 10 R230). -/
def copyWidth (ty : Nat) : Nat :=
  match ty with
  | 1 | 8 | 9 => if ty = 1 then 4 else 1
  | 2 | 3 => 2
  | 4 | 5 | 15 => 1
  | 10 | 11 => 2
  | 12 | 13 => 4
  | _ => 0

/-- Read a descriptor of 64 bytes with the coordinates of x[b]. -/
def tdescOf (d : List Byte) (xb : Word) : Tdesc :=
  let u (o n : Nat) : Nat := leNat ((d.drop o).take n)
  { base := u 0 8, ty := u 8 1, rank := u 9 1, swz := u 10 1, zero := u 11 1, fill := u 12 4
    ext := (List.range 4).map fun i => u (0x10 + 4 * i) 4
    str := (List.range 3).map fun i => signedOf 64 (u (0x20 + 8 * i) 8)
    box := (List.range 4).map fun i => u (0x38 + 2 * i) 2
    co := (List.range 4).map fun i => signedOf 16 (bits xb.toNat (16 * i + 15) (16 * i)) }

def Tdesc.w (d : Tdesc) : Nat := copyWidth d.ty
def Tdesc.extAt (d : Tdesc) (i : Nat) : Nat := (d.ext[i]?).getD 1
def Tdesc.boxAt (d : Tdesc) (i : Nat) : Nat := (d.box[i]?).getD 1
def Tdesc.coAt (d : Tdesc) (i : Nat) : Int := (d.co[i]?).getD 0

/-- Byte stride of a dimension; dimension 0 has stride w. -/
def Tdesc.strAt (d : Tdesc) (i : Nat) : Int := if i = 0 then d.w else (d.str[i - 1]?).getD 0

/-- Rows of the tile, and the row pitch P. -/
def Tdesc.rows (d : Tdesc) : Nat := d.boxAt 1 * d.boxAt 2 * d.boxAt 3
def Tdesc.pitch (d : Tdesc) : Nat := d.boxAt 0 * d.w

/-- The tile size T. -/
def Tdesc.size (d : Tdesc) : Nat := d.rows * d.pitch

/-- A valid descriptor, whose coordinates keep R234. -/
def Tdesc.ok (d : Tdesc) : Bool :=
  d.w != 0 && decide (1 ≤ d.rank) && decide (d.rank ≤ 4)
  && ((List.range 4).all fun i => decide (1 ≤ d.extAt i) && decide (1 ≤ d.boxAt i)
      && (decide (i < d.rank) || (d.extAt i == 1 && d.boxAt i == 1 && d.coAt i == 0)))
  && (d.str.zipIdx.all fun e => decide (-(2 ^ 59) ≤ e.1) && decide (e.1 < 2 ^ 59) && (decide (e.2 + 1 < d.rank) || e.1 == 0))
  && decide (d.size ≤ 262144) && (d.swz % 16 == 0 || d.pitch % 64 == 0) && d.zero == 0 && decide (d.swz < 16)

/-- The box indices of a dimension that are in bounds: first, and one past the last. -/
def Tdesc.span (d : Tdesc) (i : Nat) : Nat × Nat :=
  let lo := max 0 (-(d.coAt i))
  let hi := min (d.boxAt i : Int) (d.extAt i - d.coAt i)
  if lo < hi then (lo.toNat, hi.toNat) else (0, 0)

/-- Some element is in bounds. -/
def Tdesc.any (d : Tdesc) : Bool := (List.range 4).all fun i => (d.span i).1 != (d.span i).2

/-- The least off(e) over in-bounds elements, and the greatest plus w (spec 10 R235): exact. -/
def Tdesc.reach (d : Tdesc) : Int × Int :=
  (List.range 4).foldl (fun p i =>
    let x := (d.coAt i + (d.span i).1) * d.strAt i
    let y := (d.coAt i + (d.span i).2 - 1) * d.strAt i
    (p.1 + min x y, p.2 + max x y)) ((bits d.base 60 0 : Int), (bits d.base 60 0 : Int) + d.w)

/-- What tile row `k` takes from the tensor: the EA of its first in-bounds element, and the elements' first and last-plus-one
indices in the row; none where the row has no element in bounds. -/
def Tdesc.rowAt (d : Tdesc) (k : Nat) : Option (Word × Nat × Nat) :=
  let i1 := k % d.boxAt 1
  let i2 := k / d.boxAt 1 % d.boxAt 2
  let i3 := k / (d.boxAt 1 * d.boxAt 2)
  let inside (dim i : Nat) : Bool := decide ((d.span dim).1 ≤ i) && decide (i < (d.span dim).2)
  let (lo, hi) := d.span 0
  if lo < hi && inside 1 i1 && inside 2 i2 && inside 3 i3 then
    let off := (bits d.base 60 0 : Int) + (d.coAt 0 + lo) * d.w + (d.coAt 1 + i1) * d.strAt 1 + (d.coAt 2 + i2) * d.strAt 2
      + (d.coAt 3 + i3) * d.strAt 3
    some (BitVec.ofNat 64 (bits d.base 63 61 * 2 ^ 61 + off.toNat), lo, hi)
  else none

/-- The place of byte `b` of tile row `k` (spec 10 R231). -/
def Tdesc.place (d : Tdesc) (k b : Nat) : Nat :=
  let p := d.pitch
  let c := d.swz % 16
  if c = 0 then k * p + b else k * p + 64 * ((b / 64 + k * c) % (p / 64)) + b % 64

/-- One row of fill elements. -/
def Tdesc.fillRow (d : Tdesc) : List Byte := (List.replicate (d.boxAt 0) (leBytes d.fill d.w)).flatten

/-! ### A copy in the engine -/

def Copy.q (c : Copy) : Q64 := Q64.unpack c.enc
def Copy.act (c : Copy) : Nat := (c.q.imm.extractLsb' 0 2).toNat
/-- Tile to tensor. -/
def Copy.out (c : Copy) : Bool := c.q.imm.getLsbD 2
def Copy.mc (c : Copy) : Bool := c.q.fn == 1
def Copy.td (c : Copy) : Tdesc := tdescOf c.desc c.xb
/-- The scope of its completion action. -/
def Copy.sc (c : Copy) : Scope := (Scope.ofCode (c.q.imm.extractLsb' 4 3)).getD .pkg

/-- The key of byte `off` of segment 7 of a gang. -/
def ls7Key (g : Gang) (ea : Word) : Nat := lsKey g.core (g.lsBase * 4096 + bits ea.toNat 60 0)

/-- A halfword of a frame header. -/
def frGet (s : State) (key off : Nat) : Nat := s.readNat (key + off) 2

/-- The frame a copy fills, by the key of its header. -/
def Copy.frame (s : State) (c : Copy) : Option Nat := if c.act = 3 then some (ls7Key (s.gang c.gang) c.xd) else none

/-- The slot a frame copy fills: the one reserved for it, or the one that comes to it in its turn (spec 10 R243). -/
def Copy.slotIx (s : State) (c : Copy) : Nat :=
  match c.slot, c.frame s with
  | some i, _ => i
  | none, some key =>
    let ahead := ((s.core (s.gang c.gang).core).copies.takeWhile fun x => x.id != c.id).filter fun x =>
      x.st == 2 && x.gang == c.gang && x.frame s == some key
    (frGet s key 8 + ahead.length) % frGet s key 0
  | none, none => 0

/-- The tile side's EA: x[c], or the frame slot. -/
def Copy.tileEa (s : State) (c : Copy) : Word :=
  match c.frame s with
  | some key => c.xd + BitVec.ofNat 64 (64 + c.slotIx s * frGet s key 2 * 64)
  | none => c.xc

/-- Why a copy stops before it is done: it waits for a page (or for a copy-on-write copy), or it fails. -/
inductive CopyStop where
  | wait (kind : Kind) (dva flags : Nat) (cow : Option Nat)
  | fail (why : CopyFail)
deriving DecidableEq, Repr

/-- The last write of a word that a copy's read may not miss (spec 10 R247, 13 R298). -/
def Copy.low (s : State) (c : Copy) (key n : Nat) : Nat :=
  newest c.floor ((s.writesAfter c.floor key n).filter fun o =>
    (o.who == .cell c.cell && decide (o.n ≤ c.mark)) || c.known.any fun k => k.covers s o)

/-- `n` bytes as a copy reads them: each aligned 32-bit word as it stood at any moment that nothing orders away, by a free choice, the same
for every byte of the word (spec 10 R247; log 22). -/
def copyRead (s : State) (c : Copy) (key n : Nat) : List Byte :=
  if (s.writesAfter c.floor key n).isEmpty then s.read key n
  else (chunks 4 key n).flatMap fun p =>
    let a := key + p.1
    let lo := c.low s (a / 4 * 4) 4
    s.readAt (lo + Config.copyWordTime s.freeCtr (a / 4) % (s.stamp + 1 - lo)) a p.2

/-- Before its first read, a copy whose reads are ordered takes in what its cell has written (spec 10 R247). -/
def Copy.ready (s : State) (c : Copy) : Copy := if c.held && c.data.isEmpty then { c with mark := s.stamp } else c

/-- Read a piece for a copy. -/
def copyGet (s : State) (c : Copy) (ea : Word) (n : Nat) : Except CopyStop (List Byte) :=
  let dva := eaDva (s.gang c.gang) ea
  let t := look s c.gang .copyRead dva n
  if s.cutOff (dieOf (s.gang c.gang).core) t then .error (.fail (.fabric (BitVec.ofNat 64 dva) 0))
  else match t with
  | .key k =>
    match (if isHbm k then s.refusedIn k n else none) with
    | some pa => .error (.fail (.line pa))
    | none => .ok (copyRead s c k n)
  | .remote k => if remoteAllowed s c.gang k n .rd then .ok (copyRead s c k n) else .error (.fail (.refused ea))
  | .host _ | .peer .. => .ok ((List.range n).map fun i => Config.outsideByte (s.freeCtr + c.id) (ea.toNat + i))
  | .absent m => .error (.wait .copyRead dva (b2n m) none)
  | .cow _ => .ok []
  | .bad pa => .error (.fail (.line pa))
  | .denied | .window _ => .error (.fail (.denied ea))

/-- A place in memory: the device (0), the host (1), a peer (2 and its identifier), or where there is no page yet its DVA in the copy's
ASID; address and length. -/
abbrev Span := Nat × Nat × Nat

/-- Bytes on their way to a place: which, the address there, and the bytes. -/
abbrev Piece := Nat × Nat × List Byte

/-- Where a piece of a copy's destination goes. -/
def copyPut (s : State) (c : Copy) (ea : Word) (d : List Byte) : Except CopyStop Piece :=
  let dva := eaDva (s.gang c.gang) ea
  let t := look s c.gang .copyWrite dva d.length
  if s.cutOff (dieOf (s.gang c.gang).core) t then .error (.fail (.fabric (BitVec.ofNat 64 dva) 0))
  else match t with
  | .key k => .ok (0, k, d)
  | .remote k => if remoteAllowed s c.gang k d.length .wr then .ok (0, k, d) else .error (.fail (.refused ea))
  | .host pa => .ok (1, pa, d)
  | .peer acc pa => .ok (2 + acc, pa, d)
  | .absent m => .error (.wait .copyWrite dva (b2n m) none)
  | .cow leafAt => .error (.wait .cow dva 0 (some leafAt))
  | .bad pa => .error (.fail (.line pa))
  | .denied | .window _ => .error (.fail (.denied ea))

/-- Read a range page by page. -/
def copyGetAll (s : State) (c : Copy) (ea : Word) (n : Nat) : Except CopyStop (List Byte) :=
  (pagePieces (eaDva (s.gang c.gang) ea) n).foldlM (fun a p => do
    .ok (a ++ (← copyGet s c (ea + BitVec.ofNat 64 p.1) p.2))) []

/-- Where a range goes, page by page. -/
def copyPutAll (s : State) (c : Copy) (ea : Word) (d : List Byte) : Except CopyStop (List Piece) :=
  (pagePieces (eaDva (s.gang c.gang) ea) d.length).mapM fun p => copyPut s c (ea + BitVec.ofNat 64 p.1) ((d.drop p.1).take p.2)

/-- The keys of the tile side: the issuing core's, or every target's of a multicast; the base of the tile in each. -/
def copyTargets (s : State) (c : Copy) : List Word :=
  let te := c.tileEa s
  if c.mc then
    let g := s.gang c.gang
    let off := bits (eaDva g te) 39 0
    ((List.range 16).filter fun i => bit c.xd.toNat i).map fun i => BitVec.ofNat 64 (lsDva (hiveOf g.core * 16 + i) off)
  else [te]

/-- Granule-wise pieces of a tile row: position in the row, and length; whole where nothing is rotated. -/
def rowPieces (d : Tdesc) : List (Nat × Nat) :=
  if d.swz % 16 = 0 then [(0, d.pitch)] else (List.range (d.pitch / 64)).map fun j => (64 * j, 64)

/-- Rotation tags of the units that a write of LS touches (spec 10 R232). -/
def tagUnits (s : State) (key n tag : Nat) : State :=
  if isLs key then
    let core := lsCore key
    let first := lsOff key / 4096
    let last := (lsOff key + n - 1) / 4096
    (List.range (last + 1 - first)).foldl (fun s i => { s with rot := Tab.setD s.rot (core * 68 + first + i) 0 tag }) s
  else s

/-- The key of an aperture DVA. -/
def apKey (dva : Nat) : Nat :=
  let hive := bits dva 49 44
  if bits dva 55 52 = 1 then hspKey hive (bits dva 39 0) else lsKey (hive * 16 + bits dva 43 40) (bits dva 39 0)

/-- A multicast's target takes the tile: the issuing core by the local check, every other by its windows (spec 07 R163, 10 R238). -/
def targetTakes (s : State) (c : Copy) (dva : Nat) : Bool :=
  match aperture s c.gang .copyWrite dva c.td.size with
  | .key _ => true
  | .remote k => remoteAllowed s c.gang k c.td.size .wr
  | _ => false

/-- Where a tile row goes at the tile side. A multicast goes to each core that takes it, at the same LS offset (spec 10 R238). -/
def putTileRow (s : State) (c : Copy) (k : Nat) (row : List Byte) : Except CopyStop (List Piece) :=
  let d := c.td
  if c.mc then
    .ok <| ((copyTargets s c).filter fun w => targetTakes s c w.toNat).flatMap fun w =>
      (rowPieces d).map fun p => (0, apKey w.toNat + d.place k p.1, (row.drop p.1).take p.2)
  else (rowPieces d).mapM fun p => copyPut s c (c.tileEa s + BitVec.ofNat 64 (d.place k p.1)) ((row.drop p.1).take p.2)

/-- Read a tile row's bytes `lo` to `hi` at the tile side, and no others (spec 10 R237). -/
def getTileRow (s : State) (c : Copy) (k lo hi : Nat) : Except CopyStop (List Byte) :=
  let d := c.td
  (rowPieces d).foldlM (fun a p =>
    let b := max lo p.1
    let e := min hi (p.1 + p.2)
    if b < e then do .ok (a ++ (← copyGet s c (c.tileEa s + BitVec.ofNat 64 (d.place k b)) (e - b))) else .ok a) ([] : List Byte)

/-- Read row `k` of the source. -/
def readRow (s : State) (c : Copy) (k : Nat) : Except CopyStop (List Byte) := do
  let d := c.td
  match d.rowAt k with
  | none => .ok (if c.out then [] else d.fillRow)
  | some (ea, lo, hi) =>
    if c.out then getTileRow s c k (lo * d.w) (hi * d.w)
    else
      let mid ← copyGetAll s c ea ((hi - lo) * d.w)
      .ok (d.fillRow.take (lo * d.w) ++ mid ++ d.fillRow.drop (hi * d.w))

/-- Where row `k` goes at the destination. -/
def writeRow (s : State) (c : Copy) (k : Nat) (row : List Byte) : Except CopyStop (List Piece) :=
  if c.out then
    match c.td.rowAt k with
    | none => .ok []
    | some (ea, _, _) => copyPutAll s c ea row
  else putTileRow s c k row

/-- Pieces that follow one another, as one. -/
def joinPieces (l : List Piece) : List Piece :=
  (l.foldl (fun acc (p : Piece) => match acc with
    | (h, a, d) :: t => if h = p.1 ∧ a + d.length = p.2.1 then (h, a, d ++ p.2.2) :: t else p :: acc
    | [] => [p]) []).reverse

/-- Write pieces of a copy: at each home an aligned 32-bit word at once, whichever rows its bytes come from, and the words in a free order;
LS units that the tile side writes take the rotation tag (spec 10 R232, R237). -/
def landPieces (s : State) (c : Copy) (l : List Piece) : State :=
  let home (key : Nat) : Nat := if isLs key then lsCore key + 1 else 0
  let at_ := (l.filter fun p => p.1 == 0).map fun p => p.2
  let s1 := ((at_.map fun p => home p.1).eraseDups).foldl (fun s h =>
    let mine := at_.filter fun p => home p.1 == h
    let s2 := s.writeUnits (.engine c.cell) (some (hiveOf (s.gang c.gang).core)) 4 mine (Config.copyWordTime s.freeCtr (2 ^ 64 + (mine.map (·.1)).sum))
    if c.out then s2 else mine.foldl (fun s p => tagUnits s p.1 p.2.length (c.td.swz % 16)) s2) s
  (joinPieces (l.filter fun p => p.1 != 0)).foldl (fun s p =>
    s.emit (if p.1 = 1 then .hostWrite p.2.1 p.2.2 else .peerWrite (p.1 - 2) p.2.1 p.2.2)) s1

/-- Some aligned 32-bit word of a copy's source or destination may hold bytes of two rows. -/
def Copy.ragged (s : State) (c : Copy) : Bool :=
  let d := c.td
  decide (d.w < 4) && ((c.tileEa s).toNat % 4 != 0 || d.pitch % 4 != 0 || (List.range d.rows).any fun k => match d.rowAt k with
    | some (ea, lo, hi) => ea.toNat % 4 != 0 || (hi - lo) * d.w % 4 != 0
    | none => false)

/-- Read the rows that are left, as far as it goes. -/
def fetchRows (s : State) (c : Copy) : List Nat → Copy × Option CopyStop
  | [] => (c, none)
  | k :: rest =>
    match readRow s c k with
    | .ok r => fetchRows s { c with data := c.data ++ [r], faultDva := none, refaults := 0 } rest
    | .error e => (c, some e)

/-- Write the groups of rows that are left, as far as it goes; a word of the source may be read as late as this (spec 10 R247). -/
def landRows (s : State) (c : Copy) : List (List Nat) → State × Copy × Option CopyStop
  | [] => (s, c, none)
  | g :: rest =>
    match g.mapM fun k => writeRow s c k (match readRow s c k with | .ok new => new | .error _ => (c.data[k]?).getD []) with
    | .ok l => landRows (landPieces s c l.flatten) { c with wrote := c.wrote + g.length, faultDva := none, refaults := 0 } rest
    | .error e => (s, c, some e)

/-- The rows of a copy that have not landed, in the groups that land at once: row by row, or all where a word may hold bytes of two. -/
def Copy.toLand (s : State) (c : Copy) : List (List Nat) :=
  let l := range c.wrote (c.td.rows - c.wrote)
  if c.ragged s && !l.isEmpty then [l] else l.map fun k => [k]

/-- Where a copy stopped, as a DVA. -/
def CopyStop.dva (g : Gang) : CopyStop → Nat
  | .wait _ dva _ _ => dva
  | .fail (.refused ea) | .fail (.denied ea) => eaDva g ea
  | .fail (.fabric dva _) => dva.toNat
  | .fail (.line _) => 0

/-- What the walks of a copy's tensor rows leave behind: rows `lo` up to `hi`, and of row `hi` the pages up to where it stopped (spec 07
R169, R174). -/
def noteRows (s : State) (c : Copy) (lo hi : Nat) (stop : Option CopyStop) : State :=
  let g := s.gang c.gang
  let pages (k : Nat) : List Nat := match c.td.rowAt k with
    | some (ea, a, b) => (pagePieces (eaDva g ea) ((b - a) * c.td.w)).map fun p => eaDva g ea + p.1
    | none => []
  let last := match stop with
    | some e => (pages hi).filter fun a => decide (a ≤ e.dva g)
    | none => []
  ((range lo (hi - lo)).flatMap pages ++ last).foldl (fun s a => noteTlb s (hiveOf g.core) c.asid a) s

/-- Move a copy as far as it goes: read what is left, then write what is left. -/
def moveCopy (s : State) (c : Copy) : State × Copy × Option CopyStop :=
  let c := c.ready s
  let n := c.td.rows
  match fetchRows s c (range c.data.length (n - c.data.length)) with
  | (c1, some e) => (if c.out then s else noteRows s c1 c.data.length c1.data.length (some e), c1, some e)
  | (c1, none) =>
    let s0 := if c.out then s else noteRows s c1 c.data.length c1.data.length none
    match landRows s0 c1 (c1.toLand s0) with
    | (s1, c2, some e) => (if c.out then noteRows s1 c2 c.wrote c2.wrote (some e) else s1, c2, some e)
    | (s1, c2, none) =>
      let s2 := if c.out then noteRows s1 c2 c.wrote c2.wrote none else s1
      if c2.mc && !((copyTargets s2 c2).all fun w => targetTakes s2 c2 w.toNat) then (s2, c2, some (.fail (.refused c2.xc)))
      else (s2, c2, none)

/-! ### The engine's queue (spec 10 R245) -/

/-- Replace a copy of a core by its number. -/
def setCopy (s : State) (core : Nat) (c : Copy) : State :=
  s.modCore core fun k => { k with copies := k.copies.map fun x => if x.id = c.id then c else x }

/-- Cells of a gang that wait for copies look again (spec 10 R244, 20 R398). -/
def wakeCopyWaiters (s : State) (gid : Nat) : State :=
  wakeWhere s fun c w => (s.cell c).gang == gid && (match w with | .copies | .frame _ => true | _ => false)

/-- A copy leaves the engine. -/
def dropCopy (s : State) (core : Nat) (c : Copy) : State :=
  wakeCopyWaiters (s.modCore core fun k => { k with copies := k.copies.filter fun x => x.id != c.id }) c.gang

/-- Park a copy on a page: a record at the pager, or a copy-on-write copy (spec 10 R241, 07 R172). -/
def parkCopy (s : State) (core : Nat) (c : Copy) (kind : Kind) (dva flags : Nat) (cow : Option Nat) : State :=
  let (s1, byPort, fl) := match cow with
    | some leafAt => cowBegin s c.gang c.asid dva leafAt
    | none => (s, false, flags)
  let seq := (s1.core core).copySeq
  let d := c.td
  let cell := s1.cell c.cell
  let remain := match cell.loops.find? fun l => l.lev == cell.tlev with | some l => l.cnt - l.idx | none => 0
  let refaults := if c.faultDva = some dva then min 255 (c.refaults + 1) else 0
  if byPort then (setCopy s1 core { c with st := 4, seq }).modCore core fun k => { k with copySeq := (seq + 1) % 256 }
  else
    let s2 := (setCopy s1 core { c with st := 4, seq, faultDva := some dva, refaults }).modCore core fun k => { k with copySeq := (seq + 1) % 256 }
    { s2 with faults := s2.faults ++ [{ who := .copy core c.id seq, dva, asid := c.asid, kind, flags := fl + (if refaults ≥ 8 then 2 else 0)
                                        refaults, seq, remain
                                        stride := BitVec.ofInt 64 (if d.rank = 1 then d.w else d.strAt 1) }] }

/-! ### Frames (spec 10 R242, R243) -/

/-- Change a halfword of a frame header: an atomic update at the LS port, which ends no release sequence (spec 10 R242, 13 R292). -/
def frSet (s : State) (who : Agent) (key off v : Nat) : State := { s.write who none (key + off) (leBytes v 2) with rels := s.rels }

/-- Reserve slot RSVIX. -/
def reserveSlot (s : State) (core key : Nat) (c : Copy) : State :=
  let ix := frGet s key 8
  let n := frGet s key 0
  let s1 := frSet (frSet s (.engine c.cell) key 4 (frGet s key 4 - 1)) (.engine c.cell) key 8 (if n = 0 then 0 else (ix + 1) % n)
  setCopy s1 core { c with slot := some ix, st := if c.st = 2 then 0 else c.st }

/-- An earlier copy of the same gang fills the same frame. -/
def earlierFill (s : State) (k : Core) (c : Copy) (p : Copy → Bool) : Bool :=
  (k.copies.takeWhile fun x => x.id != c.id).any fun x => x.gang == c.gang && (x.frame s).isSome && x.frame s == c.frame s && p x

/-- A frame copy enters: it reserves at once where a slot is free and no earlier one waits. -/
def enterFrame (s : State) (core : Nat) (c : Copy) : State :=
  match c.frame s with
  | none => s
  | some key =>
    if frGet s key 4 > 0 && !earlierFill s (s.core core) c (fun x => x.st == 2) then reserveSlot s core key c
    else setCopy s core { c with st := 2 }

/-- The slot of a copy that failed goes back, and ERRS counts it (spec 10 R240). -/
def returnSlot (s : State) (c : Copy) : State :=
  match c.frame s, c.slot with
  | some key, some _ => frSet (frSet s (.engine c.cell) key 4 (frGet s key 4 + 1)) (.engine c.cell) key 0xC (frGet s key 0xC + 1)
  | _, _ => s

/-! ### Completion actions (spec 10 R239) -/

/-- Put a waggle into a cell's mailbox. -/
def deliverWaggle (s : State) (target : Nat) (w : Waggle) : State :=
  s.modCell target fun c =>
    { c with mbox := c.mbox ++ [w]
             run := match c.run with | .parked .wgrecv => .ready | r => r }

/-- What a release by an agent at a scope covers for a receiver that its scope holds (spec 13 R292, R294). -/
def State.syncFor (s : State) (target : Nat) (who : Agent) (sc : Scope) : Option Rel :=
  if s.pairRank target who ≤ Scope.rank sc then some (s.releaseOf who 0 0 sc) else none

/-- The waggle of a copy. -/
def Copy.waggle (s : State) (c : Copy) : Waggle :=
  { lo := BitVec.ofNat 64 (bits c.xd.toNat 63 32 + (c.cell + 2 ^ 31) * 2 ^ 32), value := c.xb
    sync := s.syncFor (bits c.xd.toNat 12 0) (.engine c.cell) c.sc }

/-- A waggle of an earlier completion action of the same cell waits for the same mailbox (spec 10 R239, 13 R304). -/
def behindWaggle (k : Core) (c : Copy) : Bool :=
  k.copies.any fun x => x.id != c.id && x.st == 3 && x.cell == c.cell && x.gang == c.gang && bits x.xd.toNat 12 0 == bits c.xd.toNat 12 0
    && (c.st != 3 || decide (x.acted < c.acted))

/-- What the walk of a copy's signal word leaves behind (spec 07 R169, R174). -/
def noteAction (s : State) (core : Nat) (c : Copy) : State :=
  if c.act = 1 then noteTlb s (hiveOf core) c.asid (eaDva (s.gang c.gang) (if c.mc then c.xd1 else c.xd)) else s

/-- Perform the completion action: the state, and whether the copy has left (a waggle may wait for room). -/
def completeAction (s : State) (core : Nat) (c : Copy) : Except CopyStop State :=
  let ea := if c.mc then c.xd1 else c.xd
  match c.act with
  | 0 => .ok (dropCopy s core c)
  | 1 =>
    let g := s.gang c.gang
    let dva := eaDva g ea
    let minus := BitVec.allOnes 64
    let t := look s c.gang .atomic dva 8
    if s.cutOff (dieOf core) t then .error (.fail (.fabric (BitVec.ofNat 64 dva) 0))
    else match t with
    | .key k =>
      match (if isHbm k then s.refusedIn k 8 else none) with
      | some pa => .error (.fail (.line pa))
      | none => .ok (dropCopy (decrementAt s c.cell c.gang ea k c.sc) core c)
    | .remote k =>
      if remoteAllowed s c.gang k 8 .at_ then .ok (dropCopy (amoSync s (.engine c.cell) none k .add 8 minus 0 false true c.sc).1 core c)
      else .error (.fail (.refused ea))
    | .peer acc pa => .ok (dropCopy (decrementAt s c.cell c.gang ea (peerKey acc pa) c.sc) core c)
    | .absent m => .error (.wait .store dva (b2n m) none)
    | .cow leafAt => .error (.wait .cow dva 0 (some leafAt))
    | .bad pa => .error (.fail (.line pa))
    | .host _ | .denied | .window _ => .error (.fail (.denied ea))
  | 2 =>
    let target := bits c.xd.toNat 12 0
    match Tab.find s.cells target with
    | none => .error (.fail (.refused c.xd))
    | some t =>
      if t.mbox.length < 16 && !behindWaggle (s.core core) c then .ok (dropCopy (deliverWaggle s target (c.waggle s)) core c)
      else if c.st = 3 then .ok s
      else .ok { setCopy s core { c with st := 3, acted := s.nextId } with nextId := s.nextId + 1 }
  | _ =>
    match c.frame s with
    | some key => .ok (dropCopy ((frSet s (.engine c.cell) key 6 (frGet s key 6 + 1)).released (.engine c.cell) key 64 c.sc) core c)
    | none => .ok (dropCopy s core c)

/-- A copy fails (spec 10 R240, 18 R389, R391): no action, the report to its cell, and the slot returned; where it goes to a die that has become
unreachable, its partition is quiesced too. -/
def failCopy (s : State) (core : Nat) (c : Copy) (why : CopyFail) : State :=
  let s1 := dropCopy (returnSlot s c) core c
  match why with
  | .refused ea => pendAsync s1 c.cell { cause := cREMOTE_NACK_ASYNC, tval := ea }
  | .denied ea => pendAsync s1 c.cell { cause := cACCESS_FAULT, tval := ea }
  | .fabric dva _ =>
    let s2 := killPlain s1 c.gang 0x84 dva c.cell
    let cut := s.cutOff (dieOf core) (look s c.gang (if c.out then .copyWrite else .copyRead) dva.toNat 1)
    if cut then quiesceFor s2 (partOfGang s c.gang) else s2
  | .line pa =>
    let l := s1.launch c.launch
    killFor (refusalReport s1 l.part pa l.hdr.crec) c.gang 0x81 (dataErr 8 0 pa) c.cell

/-! ### Steps of the engine -/

/-- A copy that ORD or a fence holds waits for its cell's accesses before that (spec 10 R247, 13 R295). -/
def heldBack (s : State) (c : Copy) : Bool := c.held && outstandingTo s c.cell c.gang false (some c.hold)

/-- Every byte of a copy stands at its destination. -/
def Copy.moved (c : Copy) : Bool := decide (c.td.rows ≤ c.wrote)

/-- A copy is one of the eight that run: it has started, and does not wait for an earlier fill or for mailbox room (spec 10 R239, R243,
R245). -/
def Copy.runs (s : State) (k : Core) (c : Copy) : Bool :=
  (c.st == 1 || c.st == 4) && !(c.moved && earlierFill s k c fun _ => true)

/-- COPY_START (spec 10 R245): the first queued copy begins while fewer than eight run. -/
def execCopyStart (core i : Nat) (s : State) : Host.Outcome State Fault Refusal :=
  .next <|
    let k := s.core core
    match k.copies[i]? with
    | none => s
    | some c =>
      if c.st != 0 || (k.copies.take i).any (fun x => x.st == 0) || (k.copies.filter fun x => x.runs s k).length ≥ 8 then s
      else if heldBack s c then setCopy s core { c with st := 1 }
      else
        match fetchRows s (({ c with st := 1 } : Copy).ready s) (List.range c.td.rows) with
        | (c1, e) =>
          let s1 := if c.out then s else noteRows s c1 0 c1.data.length e
          match e with
          | some (.wait kind dva flags cow) => parkCopy { s1 with freeCtr := s1.freeCtr + 1 } core c1 kind dva flags cow
          | _ => { setCopy s1 core c1 with freeCtr := s1.freeCtr + 1 }

/-- The pieces of a copy's tensor side, one page each: DVA, length, and what it finds there. -/
def tensorPieces (s : State) (c : Copy) : List (Nat × Nat × Look) :=
  let g := s.gang c.gang
  (List.range c.td.rows).flatMap fun k => match c.td.rowAt k with
    | some (ea, lo, hi) =>
      (pagePieces (eaDva g ea) ((hi - lo) * c.td.w)).map fun p =>
        (eaDva g ea + p.1, p.2, look s c.gang (if c.out then .copyWrite else .copyRead) (eaDva g ea + p.1) p.2)
    | none => []

/-- The place of a posted access. -/
def Post.span (p : Post) : Span := ((match p.home with | .hbm => 0 | .host => 1 | .peer acc => 2 + acc), p.pa, p.size)

/-- The places a copy writes. -/
def copyDest (s : State) (c : Copy) : List Span :=
  if c.out then (tensorPieces s c).map fun (dva, n, t) => match t with
    | .key k | .remote k => (0, k, n)
    | .host pa => (1, pa, n)
    | .peer acc pa => (2 + acc, pa, n)
    | _ => (2 ^ 32 + c.asid, dva, n)
  else (copyTargets s c).map fun w => (0, apKey (if c.mc then w.toNat else eaDva (s.gang c.gang) w), c.td.size)

/-- Two places share a byte. -/
def Span.meets (a b : Span) : Bool := a.1 == b.1 && overlap a.2.1 a.2.2 b.2.1 b.2.2

/-- A store or update that the cell issued before the copy to a byte the copy writes is still on its way: the copy's write follows it (spec
13 R293, R298; log 66). -/
def behindStores (s : State) (c : Copy) : Bool :=
  let dest := copyDest s c
  (s.posted.any fun p => p.cell == c.cell && p.gang == c.gang && decide (p.id < c.id) && dest.any fun a => Span.meets a p.span)
    || s.remotes.any fun e => decide (e.1 < c.id) && e.2.cell == c.cell && e.2.gang == c.gang && e.2.posted && !e.2.arrived
        && dest.any fun a => Span.meets a (0, e.2.key, e.2.op.size)

/-- A store of the same cell, or an earlier copy of it, has not yet written a byte that the copy writes (spec 10 R245). -/
def behindEarlier (s : State) (k : Core) (c : Copy) : Bool :=
  behindStores s c || (k.copies.takeWhile fun x => x.id != c.id).any fun x => x.cell == c.cell && !x.moved &&
    (copyDest s x).any fun a => (copyDest s c).any fun b => Span.meets a b

/-- A copy's completion action, a release, waits for the accesses of its cell before it (spec 10 R239; 13 R291, R298), and a fill for the
earlier fills of its frame (10 R243). -/
def behindAction (s : State) (k : Core) (c : Copy) : Bool :=
  earlierFill s k c (fun _ => true) || (c.act != 0 && outstandingTo s c.cell c.gang (c.sc == .pod) (some c.id))

/-- COPY_COMPLETE (spec 10 R237, R239): the bytes that are left move, and the completion action is performed as a release. -/
def execCopyComplete (core i : Nat) (s : State) : Host.Outcome State Fault Refusal :=
  .next <|
    let k := s.core core
    match k.copies[i]? with
    | none => s
    | some c =>
      if c.st != 1 || heldBack s c || behindEarlier s k c then s
      else
        match moveCopy s c with
        | (s1, c1, some (.wait kind dva flags cow)) => parkCopy { s1 with freeCtr := s1.freeCtr + 1 } core c1 kind dva flags cow
        | (_, _, some (.fail _)) => s
        | (s1, c1, none) =>
          let s2 := { setCopy s1 core c1 with freeCtr := s1.freeCtr + 1 }
          if behindAction s2 (s2.core core) c1 then s2
          else
            let s2 := noteAction s2 core c1
            match completeAction s2 core c1 with
            | .ok s3 => s3
            | .error (.wait kind dva flags cow) => parkCopy s2 core c1 kind dva flags cow
            | .error (.fail _) => s

/-- COPY_WAGGLE_DELIVERED (spec 10 R239): room has come for a copy's waggle, and no earlier one of its cell waits. -/
def execCopyWaggleDelivered (core i : Nat) (s : State) : Host.Outcome State Fault Refusal :=
  .next <| match (s.core core).copies[i]? with
    | some c => if c.st = 3 then (match completeAction s core c with | .ok s1 => s1 | .error _ => s) else s
    | none => s

/-- FRAME_SLOT_RESERVE (spec 10 R243): the frame's first waiting copy takes a slot that came free. -/
def execFrameSlotReserve (core i : Nat) (s : State) : Host.Outcome State Fault Refusal :=
  .next <|
    let k := s.core core
    match k.copies[i]? with
    | some c =>
      match c.frame s with
      | some key => if c.st = 2 && frGet s key 4 > 0 && !earlierFill s k c (fun x => x.st == 2) then reserveSlot s core key c else s
      | none => s
    | none => s

/-- The host or peer memory that a copy reaches at a DVA of its tensor side. -/
def fabricAt (s : State) (c : Copy) (dva : Word) : Option Home :=
  (tensorPieces s c).findSome? fun (a, n, t) =>
    if overlap a n dva.toNat 1 then (match t with | .host _ => some .host | .peer acc _ => some (.peer acc) | _ => none) else none

/-- A copy has begun to move, and its engine may have an access under way. -/
def Copy.moving (s : State) (c : Copy) : Bool := c.st == 1 && !heldBack s c && !c.moved

/-- A copy that its engine can let go on fails, where what it meets next refuses it in this way. -/
def stopCopy (s : State) (core : Nat) (c : Copy) (why : CopyFail) : State :=
  if behindEarlier s (s.core core) c then s
  else match moveCopy s c with
  | (s1, c1, some (.fail w)) => if w = why then failCopy (setCopy s1 core c1) core c1 why else s
  | (s1, c1, none) =>
    if behindAction s1 (s1.core core) c1 then s
    else
      let s2 := noteAction (setCopy s1 core c1) core c1
      (match completeAction s2 core c1 with
      | .error (.fail w) => if w = why then failCopy s2 core c1 why else s
      | _ => s)
  | _ => s

/-- COPY_FAILURE (spec 10 R240, 18 R389, R391): what the copy meets next refuses it, or its link fails. A UALink error response is counted (14
R331). -/
def execCopyFailure (core i : Nat) (why : CopyFail) (s : State) : Host.Outcome State Fault Refusal :=
  .next <|
    match (s.core core).copies[i]? with
    | none => s
    | some c =>
      if (c.st != 1 && c.st != 3) || heldBack s c then s
      else match why with
        | .fabric dva station =>
          match (if c.moving s then fabricAt s c dva else none) with
          | some (.peer _) => failCopy (stationError s station) core c why
          | some _ => failCopy s core c why
          | none => stopCopy s core c why
        | _ => stopCopy s core c why

/-- What refuses a copy where it stands, if anything does. -/
def copyRefusal (s : State) (core : Nat) (c : Copy) : Option CopyFail :=
  if (c.st != 1 && c.st != 3) || heldBack s c || behindEarlier s (s.core core) c then none
  else match moveCopy s c with
  | (_, _, some (.fail w)) => some w
  | (s1, c1, none) =>
    if behindAction s1 (s1.core core) c1 then none
    else (match completeAction (setCopy s1 core c1) core c1 with
      | .error (.fail w) => some w
      | _ => none)
  | _ => none

/-! ### TCOPY (spec 10 R233 to R239, R243, R245) -/

/-- The checks of the tile side over `n` bytes at `te` (spec 10 R236). -/
def tileSide (s : State) (te : Word) (n need : Nat) (d : Tdesc) : Op Unit :=
  match segCheck s.myGang te n need with
  | .error (cause, tval) => .error (.trap s cause tval)
  | .ok dva =>
    if te.toNat % (if d.swz = 0 then d.w else 64) != 0 then .error (.trap s cMISALIGNED te)
    else if !bit dva 56 then .error (.trap s cACCESS_FAULT te)
    else match aperture s s.me.gang .copyRead dva n with
      | .denied => .error (.trap s cACCESS_FAULT te)
      | _ => .ok ()

/-- The first two checks of a frame header, and its key (spec 10 R243). -/
def frameHeader (s : State) (ea : Word) : Op Nat :=
  if ea.toNat % 64 != 0 then .error (.trap s cMISALIGNED ea)
  else if bits ea.toNat 63 61 != 7 || bits ea.toNat 60 0 + 64 > s.myGang.hdr.lsu * 4096 then .error (.trap s cACCESS_FAULT ea)
  else .ok (ls7Key s.myGang ea)

/-- A header whose NSLOT or SLOTU is out of range. -/
def frameBad (s : State) (key : Nat) : Bool :=
  frGet s key 0 == 0 || decide (frGet s key 0 > 256) || frGet s key 2 == 0 || decide (frGet s key 2 > 4096)

/-- The checks of the tensor side (spec 10 R235). -/
def tensorSide (s : State) (d : Tdesc) (need : Nat) : Op Unit :=
  let base := BitVec.ofNat 64 d.base
  let (segb, lim) := s.myGang.segment (bits d.base 63 61)
  if (lim.toNat % 16) &&& need != need then .error (.trap s cSEG_RIGHTS base)
  else if d.base % d.w != 0 || d.str.any (fun x => x % (d.w : Int) != 0) then .error (.trap s cMISALIGNED base)
  else if d.any && (decide (d.reach.1 < 0) || decide (d.reach.2 > (lim.toNat / 16 * 16 : Nat)) || decide ((segb.toNat : Int) + d.reach.2 > 2 ^ 57)) then
    .error (.trap s cCOPY_RANGE base)
  else .ok ()

/-- The checks of a signal operand. -/
def signalOperand (s : State) (ea : Word) : Op Unit :=
  match segCheck s.myGang ea 8 rAtomic with
  | .error (cause, tval) => .error (.trap s cause tval)
  | .ok _ => if ea.toNat % 8 != 0 then .error (.trap s cMISALIGNED ea) else .ok ()

/-- The checks of a waggle operand. -/
def waggleOperand (s : State) (x : Word) : Op Unit :=
  if bits x.toNat 31 13 != 0 || s.partOfHive (hiveOfCell (bits x.toNat 12 0)) != some s.myLaunch.part then .error (.trap s cACCESS_FAULT x)
  else .ok ()

/-- The checks of a multicast (spec 10 R238). -/
def multicastOperand (s : State) (te mask : Word) : Op Unit :=
  let g := s.myGang
  let dva := eaDva g te
  if bits dva 63 40 != bits (lsDva g.core 0) 63 40 then .error (.trap s cACCESS_FAULT te)
  else if bits mask.toNat 63 16 != 0 || mask = 0 then .error (.trap s cACCESS_FAULT mask)
  else .ok ()

/-- TCOPY at issue: the descriptor, the checks in the order of R235, then the copy enters the engine's queue, or the turn is spent
where the queue or the cell's share of it is full (spec 10 R245). -/
def copyIssue (q : Q64) (s : State) : Res := Op.res do
  let ea := getX s q.a
  let xd := getX s q.d
  let xd1 := getX s (q.d + 1)
  let ord := q.imm.getLsbD 3 || s.me.copyFenced
  let c0 : Copy := { id := s.nextId, cell := s.cur, gang := s.me.gang, enc := q.pack, xa := ea, xb := getX s q.b, xc := getX s q.c, xd, xd1, desc := []
                     asid := s.myLaunch.asid, launch := s.myGang.launch
                     held := ord, hold := s.nextId, floor := if ord then s.me.floor else s.me.start, known := if ord then s.me.known else [] }
  match segCheck s.myGang ea 64 rRead with
  | .error (cause, tval) => .error (.trap s cause tval)
  | .ok dva =>
    if ea.toNat % 64 != 0 then .error (.trap s cMISALIGNED ea)
    else
      let (s, bytes, _) ← loadBlock s ea dva 64 0
      let c := { c0 with desc := bytes }
      let d := c.td
      if !d.ok then .error (.trap s cCOPY_RANGE ea)
      else
        tensorSide s d (if c.out then rWrite + rCopy else rRead + rCopy)
        let tileNeed := if c.out then rRead + rCopy else rWrite + rCopy
        if c.act = 3 then
          let key ← frameHeader s xd
          if frameBad s key || d.size > frGet s key 2 * 64 then .error (.trap s cCOPY_RANGE xd)
          else tileSide s (xd + 64) (frGet s key 0 * frGet s key 2 * 64) tileNeed d
        else
          tileSide s c.xc d.size tileNeed d
          if c.mc then
            multicastOperand s c.xc xd
            if c.act = 1 then signalOperand s xd1
          else if c.act = 1 then signalOperand s xd
          else if c.act = 2 then waggleOperand s xd
        let core := coreOf s.cur
        let mine := (s.core core).copies.filter fun x => x.cell == s.cur && x.gang == s.me.gang
        if (s.core core).copies.length ≥ 32 || mine.length ≥ 16 then .error (.spent s)
        else
          let s1 := { s.modCore core fun k => { k with copies := k.copies ++ [c] } with nextId := s.nextId + 1 }
          .ok (.ok (enterFrame s1 core c))

/-- The registers a copy's action reads. -/
def CopyAct.srcs : CopyAct → List Dst
  | .none c => [.x c]
  | .signal c d _ => [.x c, .x d]
  | .waggle c d _ => [.x c, .x d]
  | .frame d _ => [.x d]

/-- TCOPY. -/
def execTcopy (a b : Reg) (act : CopyAct) (ord : Bool) (s : State) : Host.Outcome State Fault Refusal :=
  issue 8 noEarlyCheck ([.x a, .x b] ++ CopyAct.srcs act) [] (copyIssue (copyQ a b act ord false)) s

/-- TCOPY.ST. -/
def execTcopySt (a b : Reg) (act : CopyAct) (ord : Bool) (s : State) : Host.Outcome State Fault Refusal :=
  issue 8 noEarlyCheck ([.x a, .x b] ++ CopyAct.srcs act) [] (copyIssue (copyQ a b act ord true)) s

/-- TCOPY.MC (spec 10 R238). -/
def execTcopyMc (a b c d : Reg) (sig : Option Scope) (ord : Bool) (s : State) : Host.Outcome State Fault Refusal :=
  let imm := match sig with | some sc => copyImm sc.code ord false 1 | none => copyImm 0 ord false 0
  issue 8 noEarlyCheck ([.x a, .x b, .x c, .x d] ++ (if sig.isSome then [.x (d + 1)] else [])) [] (copyIssue (qs 0x18 1 d a b c imm)) s

/-! ### The FRM group (spec 10 R244) -/

/-- FRMINIT: parks while a copy of the gang holds or awaits a slot of the frame. -/
def execFrminit (a b : Reg) (s : State) : Host.Outcome State Fault Refusal :=
  issue 8 noEarlyCheck [.x a, .x b] [] (fun s => Op.res do
    let ea := getX s a
    let xb := (getX s b).toNat
    let key ← frameHeader s ea
    let n := bits xb 15 0
    let u := bits xb 31 16
    if bits xb 63 32 != 0 || n == 0 || n > 256 || u == 0 || u > 4096 then .error (.trap s cCOPY_RANGE ea)
    else match segCheck s.myGang ea (64 + n * u * 64) rWrite with
      | .error (cause, tval) => .error (.trap s cause tval)
      | .ok _ =>
        if (s.core (coreOf s.cur)).copies.any fun c => c.gang == s.me.gang && c.frame s == some key then .error (.park s (.frame key))
        else .ok (.ok (s.write (.cell s.cur) none key (leBytes n 2 ++ leBytes u 2 ++ leBytes n 2 ++ zeros 58)))) s

/-- FRMWAIT: the next filled slot, or parked. -/
def execFrmwait (d a : Reg) (limit : BitVec 15) (s : State) : Host.Outcome State Fault Refusal :=
  issue 8 noEarlyCheck [.x a] [.x d] (fun s => Op.res do
    let ea := getX s a
    let key ← frameHeader s ea
    if frameBad s key then .error (.trap s cCOPY_RANGE ea)
    else if frGet s key 6 = 0 then .error (.park (setLimit s (limitUs limit.toNat) ea) (.frame key))
    else
      let ix := frGet s key 0xA
      let me := Agent.cell s.cur
      let s1 := frSet (frSet (s.acquire s.cur key 64 .gang) me key 6 (frGet s key 6 - 1)) me key 0xA ((ix + 1) % frGet s key 0)
      .ok (.ok (defer s1 (.x d) (ea + BitVec.ofNat 64 (64 + ix * frGet s key 2 * 64)).toNat))) s

/-- FRMFREE: a release, then one more free slot unless every slot is accounted for. -/
def execFrmfree (a : Reg) (s : State) : Host.Outcome State Fault Refusal :=
  issue 8 noEarlyCheck [.x a] [] (fun s => Op.res do
    let ea := getX s a
    let key ← frameHeader s ea
    if frameBad s key then .error (.trap s cCOPY_RANGE ea)
    else
      release s .gang
      if frGet s key 4 + frGet s key 6 < frGet s key 0 then .ok (.ok ((frSet s (.cell s.cur) key 4 (frGet s key 4 + 1)).released (.cell s.cur) key 64 .gang))
      else .ok (.ok s)) s

end Sys2Proof.Machine
end

