-- ==== Sys2Proof/Machine/Fp.lean ====
section
/-! DEFINITION. Number formats, exact values and the one rounding of every result (spec 08 R178 to R200). -/

namespace Sys2Proof.Machine

/-- Rounding modes of frm and rm (spec 06 R155, 08 R186). -/
inductive Rm where
  | rne | rtz | rdn | rup | rmm
deriving DecidableEq, Repr, Inhabited

/-- The mode a code names; 101 to 111 name none (spec 05 R119). -/
def rmOfCode : Nat → Option Rm
  | 0 => some .rne
  | 1 => some .rtz
  | 2 => some .rdn
  | 3 => some .rup
  | 4 => some .rmm
  | _ => none

/-- The shape of a binary format: exponent bits, mantissa bits, bias (spec 08 R178). -/
structure Fmt where
  eb : Nat
  mb : Nat
  bias : Nat
deriving DecidableEq, Repr, Inhabited

def fmt32 : Fmt := ⟨8, 23, 127⟩
def fmt16 : Fmt := ⟨5, 10, 15⟩
def fmtBf : Fmt := ⟨8, 7, 127⟩
def fmt64 : Fmt := ⟨11, 52, 1023⟩
def fmtE4M3 : Fmt := ⟨4, 3, 7⟩
def fmtE5M2 : Fmt := ⟨5, 2, 15⟩
def fmtE2M1 : Fmt := ⟨2, 1, 1⟩
def fmtE3M5 : Fmt := ⟨3, 5, 4⟩

/-- Width of a signed format in bits. -/
def Fmt.width (f : Fmt) : Nat := 1 + f.eb + f.mb

/-- A finite magnitude `m * 2^e`, with `st` set when the exact value lies strictly between it and `(m+1) * 2^e`. -/
structure Mag where
  m : Nat
  e : Int
  st : Bool := false
deriving DecidableEq, Repr, Inhabited

/-- The value a code holds, or the exact result of an operation. -/
inductive Fv where
  | nan (signalling : Bool)
  | inf (neg : Bool)
  | num (neg : Bool) (mag : Mag)
deriving DecidableEq, Repr, Inhabited

/-- Positive zero. -/
def Fv.zero : Fv := .num false ⟨0, 0, false⟩

def Fv.isNan : Fv → Bool
  | .nan _ => true
  | _ => false

def Fv.isSnan : Fv → Bool
  | .nan s => s
  | _ => false

def Fv.isInf : Fv → Bool
  | .inf _ => true
  | _ => false

/-- Zero of either sign. -/
def Fv.isZero : Fv → Bool
  | .num _ g => g.m == 0 && !g.st
  | _ => false

/-- The sign; a NaN counts as positive. -/
def Fv.neg : Fv → Bool
  | .nan _ => false
  | .inf n => n
  | .num n _ => n

/-- The value with its sign inverted. -/
def Fv.flip : Fv → Fv
  | .nan s => .nan s
  | .inf n => .inf (!n)
  | .num n g => .num (!n) g

/-- The magnitude of a value. -/
def Fv.abs : Fv → Fv
  | .nan s => .nan s
  | .inf _ => .inf false
  | .num _ g => .num false g

/-- A finite code's magnitude: subnormals are kept everywhere (spec 08 R178, R179). -/
def decodeMag (f : Fmt) (ef mf : Nat) : Mag :=
  if ef = 0 then ⟨mf, 1 - (f.bias : Int) - f.mb, false⟩
  else ⟨2 ^ f.mb + mf, (ef : Int) - f.bias - f.mb, false⟩

/-- Decode a code of FP32, FP16, BF16 or FP64, with IEEE infinities and NaNs (spec 08 R178). -/
def decodeIeee (f : Fmt) (c : Nat) : Fv :=
  let neg := bit c (f.eb + f.mb)
  let ef := bits c (f.eb + f.mb - 1) f.mb
  let mf := c % 2 ^ f.mb
  if ef = 2 ^ f.eb - 1 then
    if mf = 0 then .inf neg else .nan (!(bit mf (f.mb - 1)))
  else .num neg (decodeMag f ef mf)

/-- Decode E4M3: only 0x7F and 0xFF are NaN, and they are quiet (spec 08 R178, R179). -/
def decodeE4M3 (c : Nat) : Fv :=
  if c % 128 = 127 then .nan false else .num (bit c 7) (decodeMag fmtE4M3 (bits c 6 3) (c % 8))

/-- Decode E5M2: its NaNs are always quiet (spec 08 R178, R179). -/
def decodeE5M2 (c : Nat) : Fv :=
  match decodeIeee fmtE5M2 (c % 256) with
  | .nan _ => .nan false
  | v => v

/-- Decode E2M1, which has neither infinity nor NaN (spec 08 R180). -/
def decodeE2M1 (c : Nat) : Fv := .num (bit c 3) (decodeMag fmtE2M1 (bits c 2 1) (c % 2))

/-- Decode E3M5, which has no sign: `2^(e-4) * (1 + m/32)`, or `2^-3 * m/32` when `e = 0` (spec 08 R181). -/
def decodeE3M5 (c : Nat) : Fv := .num false (decodeMag fmtE3M5 (bits c 7 5) (c % 32))

/-- The canonical quiet NaN of a format (spec 08 R179). -/
def canonNan (f : Fmt) : Nat := (2 ^ f.eb - 1) * 2 ^ f.mb + 2 ^ (f.mb - 1)

/-- The code of an infinity. -/
def infCode (f : Fmt) (neg : Bool) : Nat := b2n neg * 2 ^ (f.eb + f.mb) + (2 ^ f.eb - 1) * 2 ^ f.mb

/-- The largest finite code of an IEEE format. -/
def maxCode (f : Fmt) (neg : Bool) : Nat := infCode f neg - 1

/-- `q` is rounded up by mode `rm`, given the remainder's place: `gt` above half, `eq` exactly half, `nz` not zero. -/
def roundsUp (rm : Rm) (neg odd gt eq nz : Bool) : Bool :=
  match rm with
  | .rne => gt || (eq && odd)
  | .rtz => false
  | .rdn => neg && nz
  | .rup => !neg && nz
  | .rmm => gt || eq

/-- A magnitude rounded to a multiple of `2^l`: the multiple and whether it is inexact. -/
def roundAt (rm : Rm) (neg : Bool) (g : Mag) (l : Int) : Nat × Bool :=
  if l ≤ g.e then
    let q := g.m * 2 ^ (g.e - l).toNat
    (if roundsUp rm neg (q % 2 == 1) false false g.st then q + 1 else q, g.st)
  else
    let sh := (l - g.e).toNat
    let q := g.m / 2 ^ sh
    let r := g.m % 2 ^ sh
    let half := 2 ^ (sh - 1)
    let nz := r != 0 || g.st
    (if roundsUp rm neg (q % 2 == 1) (decide (r > half) || (r == half && g.st)) (r == half && !g.st) nz then q + 1 else q, nz)

/-- The exponent of a magnitude's leading bit. -/
def Mag.top (g : Mag) : Int := (Nat.log2 g.m : Int) + g.e

/-- Round a nonzero magnitude to a code of an IEEE format, without its sign: overflow by mode, tininess after rounding
(spec 08 R185, R186). -/
def roundMag (f : Fmt) (rm : Rm) (neg : Bool) (g : Mag) : Nat × Fl :=
  let emin : Int := 1 - (f.bias : Int)
  let free := roundAt rm neg g (g.top - f.mb)
  let l := max (emin - f.mb) (g.top - f.mb)
  let r := roundAt rm neg g l
  let code := if r.1 < 2 ^ f.mb then r.1 else ((l - (emin - f.mb)).toNat + 1) * 2 ^ f.mb + (r.1 - 2 ^ f.mb)
  if code ≥ infCode f false then
    let toInf := match rm with
      | .rtz => false
      | .rdn => neg
      | .rup => !neg
      | _ => true
    (if toInf then infCode f false else maxCode f false, { of := true, nx := true })
  else
    let tiny := decide ((Nat.log2 free.1 : Int) + (g.top - f.mb) < emin)
    (code, { nx := r.2, uf := tiny && r.2 })

/-- A magnitude with a sticky part but no whole part, widened so that it has a leading bit. -/
def Mag.lift (g : Mag) : Mag := if g.m = 0 && g.st then ⟨1, g.e - 4096, true⟩ else g

/-- Round an exact value to a code of an IEEE format; a NaN becomes canonical (spec 08 R179, R186). -/
def roundFv (f : Fmt) (rm : Rm) (v : Fv) : Nat × Fl :=
  match v with
  | .nan s => (canonNan f, { nv := s })
  | .inf n => (infCode f n, .none)
  | .num n g =>
    let sgn := b2n n * 2 ^ (f.eb + f.mb)
    if g.m = 0 && !g.st then (sgn, .none)
    else
      let r := roundMag f rm n g.lift
      (sgn + r.1, r.2)

/-- Compare two exact magnitudes without sticky parts. -/
def Mag.cmp (a b : Mag) : Ordering :=
  let e := min a.e b.e
  let x := a.m * 2 ^ (a.e - e).toNat
  let y := b.m * 2 ^ (b.e - e).toNat
  if x < y then .lt else if x > y then .gt else if a.st && !b.st then .gt else if b.st && !a.st then .lt else .eq

/-- The signed integer `m * 2^(e - base)` of an exact value, for a common exponent `base` not above its own. -/
def Mag.scaled (neg : Bool) (g : Mag) (base : Int) : Int :=
  let v : Int := (g.m * 2 ^ (g.e - base).toNat : Nat)
  if neg then -v else v

/-- The exact value `v * 2^e` of an integer. -/
def Fv.ofInt (v : Int) (e : Int) : Fv := .num (decide (v < 0)) ⟨v.natAbs, e, false⟩

/-- Exact product; `inv` is set for zero times infinity (spec 08 R185). -/
def Fv.mul (a b : Fv) : Fv × Fl :=
  let sn := a.isSnan || b.isSnan
  if a.isNan || b.isNan then (.nan false, { nv := sn })
  else if (a.isInf && b.isZero) || (a.isZero && b.isInf) then (.nan false, { nv := true })
  else
    let n := a.neg != b.neg
    match a, b with
    | .num _ x, .num _ y => (.num n ⟨x.m * y.m, x.e + y.e, false⟩, .none)
    | _, _ => (.inf n, .none)

/-- Exact sum of two exact values. An exact zero sum is +0, except −0 + −0, and −0 toward −∞ (IEEE 754-2019, spec 08 R185). -/
def Fv.add (rm : Rm) (a b : Fv) : Fv × Fl :=
  let sn := a.isSnan || b.isSnan
  if a.isNan || b.isNan then (.nan false, { nv := sn })
  else
    match a, b with
    | .inf x, .inf y => if x == y then (.inf x, .none) else (.nan false, { nv := true })
    | .inf x, _ => (.inf x, .none)
    | _, .inf y => (.inf y, .none)
    | .num x g, .num y h =>
      let e := min g.e h.e
      let s := Mag.scaled x g e + Mag.scaled y h e
      if s = 0 then (.num (if x == y then x else decide (rm = .rdn)) ⟨0, 0, false⟩, .none)
      else (Fv.ofInt s e, .none)
    | _, _ => (.nan false, .none)

/-- Exact fused `a * b + c`. `quietInv` says whether zero times infinity signals invalid when `c` is a quiet NaN. -/
def Fv.fma (quietInv : Bool) (rm : Rm) (a b c : Fv) : Fv × Fl :=
  let p := Fv.mul a b
  let inv := !(a.isNan || b.isNan) && p.1.isNan
  if c.isNan then (.nan false, { nv := a.isSnan || b.isSnan || c.isSnan || (inv && quietInv) })
  else if p.1.isNan then (.nan false, p.2)
  else Fv.add rm p.1 c

/-- `floor(sqrt n)` by bits, from bit `k` downward. -/
def isqrtAux (n : Nat) : Nat → Nat → Nat
  | 0, r => if (r + 1) * (r + 1) ≤ n then r + 1 else r
  | k + 1, r =>
    let c := r + 2 ^ (k + 1)
    isqrtAux n k (if c * c ≤ n then c else r)

/-- `floor(sqrt n)`. -/
def isqrt (n : Nat) : Nat := isqrtAux n (Nat.log2 n / 2 + 1) 0

/-- The quotient of two nonzero magnitudes, to 160 bits and a sticky bit. -/
def Mag.div (a b : Mag) : Mag :=
  let sh := 160 + Nat.log2 b.m
  let n := a.m * 2 ^ sh
  ⟨n / b.m, a.e - b.e - sh, n % b.m != 0⟩

/-- IEEE division (spec 06 R143, 08 R200). -/
def Fv.div (a b : Fv) : Fv × Fl :=
  let sn := a.isSnan || b.isSnan
  let n := a.neg != b.neg
  if a.isNan || b.isNan then (.nan false, { nv := sn })
  else
    match a, b with
    | .inf _, .inf _ => (.nan false, { nv := true })
    | .inf _, _ => (.inf n, .none)
    | _, .inf _ => (.num n ⟨0, 0, false⟩, .none)
    | .num _ x, .num _ y =>
      if y.m = 0 then (if x.m = 0 then (.nan false, { nv := true }) else (.inf n, { dz := true }))
      else if x.m = 0 then (.num n ⟨0, 0, false⟩, .none)
      else (.num n (Mag.div x y), .none)
    | _, _ => (.nan false, .none)

/-- The square root of a nonzero magnitude, to at least 130 bits and a sticky bit. -/
def Mag.sqrt (g : Mag) : Mag :=
  let m := if g.e % 2 = 0 then g.m else 2 * g.m
  let e := if g.e % 2 = 0 then g.e else g.e - 1
  let n := m * 2 ^ 260
  let r := isqrt n
  ⟨r, e / 2 - 130, r * r != n⟩

/-- IEEE square root (spec 06 R143, 08 R200). -/
def Fv.sqrt (a : Fv) : Fv × Fl :=
  match a with
  | .nan s => (.nan false, { nv := s })
  | .inf n => if n then (.nan false, { nv := true }) else (.inf false, .none)
  | .num n g =>
    if g.m = 0 then (.num n ⟨0, 0, false⟩, .none)
    else if n then (.nan false, { nv := true })
    else (.num false (Mag.sqrt g), .none)

/-- VRCP, 1/x (spec 08 R200). -/
def Fv.rcp (a : Fv) : Fv × Fl := Fv.div (.num false ⟨1, 0, false⟩) a

/-- VRSQRT, 1/√x (spec 08 R200): ±0 gives ±∞ with DZ. -/
def Fv.rsqrt (a : Fv) : Fv × Fl :=
  match a with
  | .nan s => (.nan false, { nv := s })
  | .inf n => if n then (.nan false, { nv := true }) else (.num false ⟨0, 0, false⟩, .none)
  | .num n g =>
    if g.m = 0 then (.inf n, { dz := true })
    else if n then (.nan false, { nv := true })
    else
      let m := if g.e % 2 = 0 then g.m else 2 * g.m
      let e := if g.e % 2 = 0 then g.e else g.e - 1
      let p := 2 ^ (2 * (160 + Nat.log2 m))
      let r := isqrt (p / m)
      (.num false ⟨r, -(e / 2) - (160 + Nat.log2 m), m * r * r != p⟩, .none)

/-- The bits of fixed-point fractions of VEXP2 and VLOG2. -/
def fracBits : Nat := 512

/-- `2^(k / 2^j)` in fixed point for `k < 2^j`: a chain of square roots of 2, one for each bit of `k` from the top. -/
def exp2Frac (k : Nat) : Nat → Nat → Nat → Nat
  | 0, _, acc => acc
  | j + 1, r, acc =>
    let acc := if bit k j then acc * r / 2 ^ fracBits else acc
    exp2Frac k j (isqrt (r * 2 ^ fracBits)) acc

/-- VEXP2, 2^x (spec 08 R200): exact for integers, else truncated with a sticky bit for the one rounding. -/
def Fv.exp2 (a : Fv) : Fv × Fl :=
  match a with
  | .nan s => (.nan false, { nv := s })
  | .inf n => (if n then .zero else .inf false, .none)
  | .num n g =>
    if g.m = 0 then (.num false ⟨1, 0, false⟩, .none)
    else if g.top ≥ 12 then (.num false ⟨1, if n then -8192 else 8192, true⟩, .none)
    else if g.e ≥ 0 then
      let v : Int := (g.m * 2 ^ g.e.toNat : Nat)
      (.num false ⟨1, if n then -v else v, false⟩, .none)
    else
      let j := (-g.e).toNat
      let v : Int := if n then -(g.m : Int) else g.m
      let i := v / (2 ^ j : Nat)
      let k := (v % (2 ^ j : Nat)).toNat
      if k = 0 then (.num false ⟨1, i, false⟩, .none)
      else (.num false ⟨exp2Frac k j (isqrt (2 * 2 ^ (2 * fracBits))) (2 ^ fracBits), i - fracBits, true⟩, .none)

/-- `n` binary digits of `log2 y` for `y` in [1, 2), in fixed point: square, and take the bit that reaches 2. -/
def log2Frac : Nat → Nat → Nat → Nat
  | 0, _, acc => acc
  | n + 1, y, acc =>
    let y2 := y * y / 2 ^ fracBits
    if y2 ≥ 2 ^ (fracBits + 1) then log2Frac n (y2 / 2) (2 * acc + 1) else log2Frac n y2 (2 * acc)

/-- VLOG2 (spec 08 R200): exact for powers of two. -/
def Fv.log2 (a : Fv) : Fv × Fl :=
  match a with
  | .nan s => (.nan false, { nv := s })
  | .inf n => if n then (.nan false, { nv := true }) else (.inf false, .none)
  | .num n g =>
    if g.m = 0 then (.inf true, { dz := true })
    else if n then (.nan false, { nv := true })
    else
      let t := g.top
      let y := g.m * 2 ^ fracBits / 2 ^ (Nat.log2 g.m)
      if g.m = 2 ^ (Nat.log2 g.m) then (Fv.ofInt t 0, .none)
      else
        let fr := log2Frac 192 y 0
        let v : Int := t * (2 ^ 192 : Nat) + fr
        if v < 0 then (.num true ⟨(-v - 1).toNat, -192, true⟩, .none)
        else (.num false ⟨v.toNat, -192, true⟩, .none)

/-- Whether `a < b` for values that are not NaN; −0 equals +0. -/
def Fv.lt (a b : Fv) : Bool :=
  match a, b with
  | .inf x, .inf y => x && !y
  | .inf x, _ => x
  | _, .inf y => !y
  | .num x g, .num y h =>
    let e := min g.e h.e
    decide (Mag.scaled x g e < Mag.scaled y h e)
  | _, _ => false

/-- Whether two values that are not NaN are equal; −0 equals +0. -/
def Fv.eqv (a b : Fv) : Bool := !(a.isNan || b.isNan) && !(Fv.lt a b) && !(Fv.lt b a)

/-- FMIN.S and FMAX.S in any IEEE format, on codes: a NaN is ignored unless both are, −0 is below +0, a signalling NaN sets NV
(spec 09 R210, RISC-V F). -/
def minmaxCode (f : Fmt) (isMax : Bool) (a b : Nat) : Nat × Fl :=
  let x := decodeIeee f a
  let y := decodeIeee f b
  let fl : Fl := { nv := x.isSnan || y.isSnan }
  if x.isNan && y.isNan then (canonNan f, fl)
  else if x.isNan then (b, fl)
  else if y.isNan then (a, fl)
  else
    let less := Fv.lt x y || (Fv.eqv x y && x.neg && !y.neg)
    (if less == isMax then b else a, fl)

/-- Round a value to an integer, then hold it to `[lo, hi]`: out of range gives the extreme and NV, a NaN the largest value and NV,
an inexact result NX (spec 08 R187, RISC-V F). -/
def toIntegral (rm : Rm) (lo hi : Int) (v : Fv) : Int × Fl :=
  match v with
  | .nan _ => (hi, { nv := true })
  | .inf n => (if n then lo else hi, { nv := true })
  | .num n g =>
    let r := roundAt rm n g 0
    let q : Int := if n then -(r.1 : Int) else r.1
    if q < lo then (lo, { nv := true })
    else if q > hi then (hi, { nv := true })
    else (q, { nx := r.2 })

/-- The narrow formats of a saturating narrowing (spec 08 R188). -/
inductive Narrow where
  | e4m3 | e5m2 | e2m1 | e3m5
deriving DecidableEq, Repr, Inhabited

def Narrow.fmt : Narrow → Fmt
  | .e4m3 => fmtE4M3
  | .e5m2 => fmtE5M2
  | .e2m1 => fmtE2M1
  | .e3m5 => fmtE3M5

/-- The code of the largest finite value (spec 08 R178). -/
def Narrow.maxCode : Narrow → Nat
  | .e4m3 => 0x7E
  | .e5m2 => 0x7B
  | .e2m1 => 0x7
  | .e3m5 => 0xFF

def Narrow.signBit : Narrow → Nat
  | .e4m3 => 0x80
  | .e5m2 => 0x80
  | .e2m1 => 0x8
  | .e3m5 => 0

/-- The value a code of a narrow format holds. -/
def Narrow.value : Narrow → Nat → Fv
  | .e4m3, c => decodeE4M3 c
  | .e5m2, c => decodeE5M2 c
  | .e2m1, c => decodeE2M1 c
  | .e3m5, c => decodeE3M5 c

/-- The largest finite magnitude of a narrow format. -/
def Narrow.maxMag (t : Narrow) : Mag :=
  match Narrow.value t (Narrow.maxCode t) with
  | .num _ g => g
  | _ => ⟨0, 0, false⟩

/-- SATN: the saturating narrowing, its code, its saturation bit and its flags (spec 08 R188). -/
def satn (t : Narrow) (v : Fv) : Nat × Bool × Fl :=
  match v with
  | .nan _ => (0, true, { nv := true })
  | .inf n => if t = .e3m5 && n then (0, true, { nx := true }) else (b2n n * t.signBit + t.maxCode, true, { nx := true })
  | .num n g =>
    if t = .e3m5 && n && !(g.m = 0 && !g.st) then (0, true, { nx := true })
    else if Mag.cmp g t.maxMag = .gt then (b2n n * t.signBit + t.maxCode, true, { nx := true })
    else if g.m = 0 && !g.st then (b2n n * t.signBit, false, .none)
    else
      let f := t.fmt
      let h := g.lift
      let emin : Int := 1 - (f.bias : Int)
      let l := max (emin - f.mb) (h.top - f.mb)
      let r := roundAt .rne n h l
      let code := if r.1 < 2 ^ f.mb then r.1 else ((l - (emin - f.mb)).toNat + 1) * 2 ^ f.mb + (r.1 - 2 ^ f.mb)
      (b2n n * t.signBit + code, false, { nx := r.2 })

/-- The exponent of one unit in the last place of a format at a magnitude, the subnormal spacing below its smallest normal
(spec 08 R191). -/
def ulpExp (f : Fmt) (g : Mag) : Int := max (1 - (f.bias : Int) - f.mb) (g.top - f.mb)

/-- The destination formats of VSRND (spec 05 R125). -/
inductive SrDest where
  | bf16 | f16 | e4m3 | e5m2
deriving DecidableEq, Repr, Inhabited

def SrDest.fmt : SrDest → Fmt
  | .bf16 => fmtBf
  | .f16 => fmt16
  | .e4m3 => fmtE4M3
  | .e5m2 => fmtE5M2

def SrDest.maxCode : SrDest → Nat
  | .bf16 => 0x7F7F
  | .f16 => 0x7BFF
  | .e4m3 => 0x7E
  | .e5m2 => 0x7B

/-- Stochastic rounding of one element: code, mask bit, flags (spec 08 R191). `src` is the source format, `r` the random field,
`w` its width. -/
def srnd (d : SrDest) (src : Fmt) (v : Fv) (r w : Nat) : Nat × Bool × Fl :=
  let f := d.fmt
  let narrow := d = .e4m3 || d = .e5m2
  match v with
  | .nan s => if narrow then (0, true, { nv := true }) else (canonNan f, false, { nv := s })
  | .inf n =>
    if narrow then (b2n n * 2 ^ (f.eb + f.mb) + d.maxCode, true, { nx := true })
    else (infCode f n, false, .none)
  | .num n g =>
    let sgn := b2n n * 2 ^ (f.eb + f.mb)
    let top := decodeMag f (bits d.maxCode (f.eb + f.mb - 1) f.mb) (d.maxCode % 2 ^ f.mb)
    if Mag.cmp g top = .gt then (sgn + d.maxCode, true, if narrow then { nx := true } else { of := true, nx := true })
    else if g.m = 0 then (sgn, false, .none)
    else
      let u := ulpExp f g
      let sp := ulpExp src g
      let dd := (u - sp).toNat
      -- |x| in units of the source spacing, exactly an integer
      let x := g.m * 2 ^ (g.e - min g.e sp).toNat / 2 ^ (sp - min g.e sp).toNat
      let q := if u ≥ sp then x / 2 ^ dd else x * 2 ^ (sp - u).toNat
      let rem := if u ≥ sp then x % 2 ^ dd else 0
      let up := if w ≥ dd then decide (rem + r % 2 ^ dd ≥ 2 ^ dd)
        else decide (rem / 2 ^ (dd - w) + r % 2 ^ w ≥ 2 ^ w)
      let q' := if up then q + 1 else q
      let emin : Int := 1 - (f.bias : Int)
      let code := if q' < 2 ^ f.mb then q' else ((u - (emin - f.mb)).toNat + 1) * 2 ^ f.mb + (q' - 2 ^ f.mb)
      (sgn + code, false, { nx := rem != 0 })

/-- FCLASS.S (RISC-V F): one of ten bits. -/
def fclass (f : Fmt) (c : Nat) : Nat :=
  let sub := bits c (f.eb + f.mb - 1) f.mb = 0
  match decodeIeee f c with
  | .nan s => if s then 2 ^ 8 else 2 ^ 9
  | .inf n => if n then 2 ^ 0 else 2 ^ 7
  | .num n g =>
    if g.m = 0 then (if n then 2 ^ 3 else 2 ^ 4)
    else if sub then (if n then 2 ^ 2 else 2 ^ 5)
    else (if n then 2 ^ 1 else 2 ^ 6)

end Sys2Proof.Machine
end

