-- ==== Sys2Proof/Machine/Fpu.lean ====
section
/-! DEFINITION. The F and Zfbfmin instructions (spec 06 R138, R143, R144). -/

namespace Sys2Proof.Machine

/-- The rounding mode that rm, or frm for rm = 111, selects; other codes name none (spec 05 R119, 08 R186). -/
def rmSelect (s : State) (rm : BitVec 3) : Option Rm :=
  rmOfCode (if rm = 7 then bits s.me.csr.qfcsr.toNat 7 5 else rm.toNat)

/-- A rounding field, or frm where it is used, that names no mode is an illegal instruction. -/
def rmCheck (rm : BitVec 3) (w : W32) : Early := fun s =>
  match rmSelect s rm with
  | some _ => none
  | none => some (cILLEGAL, w.setWidth 64)

/-- The mode of an instruction whose check passed. -/
def rmOf (s : State) (rm : BitVec 3) : Rm := (rmSelect s rm).getD .rne

/-- The enabled exception that traps, the first in the order NV, DZ, OF (spec 06 R143). -/
def fpTrap (qfcsr : Word) (fl : Fl) : Option Nat :=
  if fl.nv && qfcsr.getLsbD 16 then some cFP_INVALID
  else if fl.dz && qfcsr.getLsbD 17 then some cFP_DIVZERO
  else if fl.of && qfcsr.getLsbD 18 then some cFP_OVERFLOW
  else none

/-- Accumulate flags in the cell's qfcsr. -/
def raiseFlags (s : State) (fl : Fl) : State := s.modMe fun c => { c with csr := { c.csr with qfcsr := orFlags c.csr.qfcsr fl } }

/-- The end of an F instruction: its flags are set, then it traps, or writes its result. -/
def fpEnd (s : State) (fl : Fl) (write : State → State) : Res :=
  match fpTrap s.me.csr.qfcsr fl with
  | some cause => .trap (raiseFlags s fl) cause 0
  | none => .ok (write (raiseFlags s fl))

/-- The value of an FP32 code. -/
def val32 (w : W32) : Fv := decodeIeee fmt32 w.toNat

/-- Round an exact value to FP32, with the flags of the operation before it. -/
def round32 (rm : Rm) (v : Fv × Fl) : W32 × Fl :=
  let r := roundFv fmt32 rm v.1
  (BitVec.ofNat 32 r.1, Fl.or v.2 r.2)

/-- An instruction on two f registers with a rounding field. -/
def fpRR (f7 : BitVec 7) (f : Rm → Fv → Fv → Fv × Fl) (rd rs1 rs2 : Reg) (rm : BitVec 3) :
    State → Host.Outcome State Fault Refusal :=
  issue 4 (rmCheck rm (F32.pack ⟨0x53, rd, rm, rs1, rs2, f7⟩)) [.f rs1, .f rs2] [.f rd] fun s =>
    let m := rmOf s rm
    let r := round32 m (f m (val32 (getF s rs1)) (val32 (getF s rs2)))
    fpEnd s r.2 fun s => setF s rd r.1

/-- A fused multiply-add: the product's and the addend's signs inverted as named. Zero times infinity sets NV whatever the addend (spec 06
R138: as RISC-V F gives it). -/
def fpFma (op : BitVec 7) (negP negC : Bool) (rd rs1 rs2 rs3 : Reg) (rm : BitVec 3) : State → Host.Outcome State Fault Refusal :=
  issue 4 (rmCheck rm (F32.pack ⟨op, rd, rm, rs1, rs2, rs3 ++ (0 : BitVec 2)⟩)) [.f rs1, .f rs2, .f rs3] [.f rd] fun s =>
    let m := rmOf s rm
    let a := val32 (getF s rs1)
    let c := val32 (getF s rs3)
    let r := round32 m (Fv.fma true m (if negP then a.flip else a) (val32 (getF s rs2)) (if negC then c.flip else c))
    fpEnd s r.2 fun s => setF s rd r.1

/-- An F/E instruction: the result follows, the trap is taken at issue. -/
def fpSlow (f7 : BitVec 7) (srcs : List Reg) (f : State → Fv × Fl) (rd rs1 rs2 : Reg) (rm : BitVec 3) :
    State → Host.Outcome State Fault Refusal :=
  issue 4 (rmCheck rm (F32.pack ⟨0x53, rd, rm, rs1, rs2, f7⟩)) (srcs.map .f) [.f rd] fun s =>
    let r := round32 (rmOf s rm) (f s)
    fpEnd s r.2 fun s => defer s (.f rd) r.1.toNat

/-- A comparison; `loud` sets NV for every NaN (RISC-V F). -/
def fpCmp (loud : Bool) (f : Fv → Fv → Bool) (rd rs1 rs2 : Reg) : State → Host.Outcome State Fault Refusal :=
  issue 4 noEarlyCheck [.f rs1, .f rs2] [.x rd] fun s =>
    let a := val32 (getF s rs1)
    let b := val32 (getF s rs2)
    let nan := a.isNan || b.isNan
    fpEnd s { nv := a.isSnan || b.isSnan || (loud && nan) } fun s => setX s rd (if !nan && f a b then 1 else 0)

/-- Sign injection: the sign bit is formed from both operands' bits. -/
def fpSgn (f : W32 → W32 → W32) (rd rs1 rs2 : Reg) : State → Host.Outcome State Fault Refusal :=
  issue 4 noEarlyCheck [.f rs1, .f rs2] [.f rd] fun s =>
    let a := getF s rs1
    .ok (setF s rd ((a &&& 0x7FFFFFFF) ||| (f a (getF s rs2) &&& 0x80000000)))

/-- FMIN.S and FMAX.S. -/
def fpMinMax (isMax : Bool) (rd rs1 rs2 : Reg) : State → Host.Outcome State Fault Refusal :=
  issue 4 noEarlyCheck [.f rs1, .f rs2] [.f rd] fun s =>
    let r := minmaxCode fmt32 isMax (getF s rs1).toNat (getF s rs2).toNat
    fpEnd s r.2 fun s => setF s rd (BitVec.ofNat 32 r.1)

/-- FP32 to an integer of `w` bits held to `[lo, hi]`, sign-extended to the register (RISC-V F). -/
def fpToInt (code : Reg) (w : Nat) (lo hi : Int) (rd rs1 : Reg) (rm : BitVec 3) : State → Host.Outcome State Fault Refusal :=
  issue 4 (rmCheck rm (F32.pack ⟨0x53, rd, rm, rs1, code, 0x60⟩)) [.f rs1] [.x rd] fun s =>
    let r := toIntegral (rmOf s rm) lo hi (val32 (getF s rs1))
    fpEnd s r.2 fun s => setX s rd (sextW (w / 8) (wrapInt w r.1))

/-- An integer to FP32. -/
def fpOfInt (code : Reg) (f : Word → Int) (rd rs1 : Reg) (rm : BitVec 3) : State → Host.Outcome State Fault Refusal :=
  issue 4 (rmCheck rm (F32.pack ⟨0x53, rd, rm, rs1, code, 0x68⟩)) [.x rs1] [.f rd] fun s =>
    let r := round32 (rmOf s rm) (Fv.ofInt (f (getX s rs1)) 0, .none)
    fpEnd s r.2 fun s => setF s rd r.1

/-- A move or classification of f bits into an x register. -/
def fpToX (f : W32 → Word) (rd rs1 : Reg) : State → Host.Outcome State Fault Refusal :=
  issue 4 noEarlyCheck [.f rs1] [.x rd] fun s => .ok (setX s rd (f (getF s rs1)))

/-- A move of x bits into an f register. -/
def fpOfX (f : Word → W32) (rd rs1 : Reg) : State → Host.Outcome State Fault Refusal :=
  issue 4 noEarlyCheck [.x rs1] [.f rd] fun s => .ok (setF s rd (f (getX s rs1)))

/-- The BF16 value of an f register: the canonical NaN where it is not boxed (spec 06 R144, 08 R183). -/
def unboxBf (w : W32) : Nat := if w.toNat / 65536 = 0xFFFF then w.toNat % 65536 else canonNan fmtBf

/-- FMADD.S. -/
def execFmaddS (rd rs1 rs2 rs3 : Reg) (rm : BitVec 3) (s : State) : Host.Outcome State Fault Refusal :=
  fpFma 0x43 false false rd rs1 rs2 rs3 rm s

/-- FMSUB.S. -/
def execFmsubS (rd rs1 rs2 rs3 : Reg) (rm : BitVec 3) (s : State) : Host.Outcome State Fault Refusal :=
  fpFma 0x47 false true rd rs1 rs2 rs3 rm s

/-- FNMSUB.S. -/
def execFnmsubS (rd rs1 rs2 rs3 : Reg) (rm : BitVec 3) (s : State) : Host.Outcome State Fault Refusal :=
  fpFma 0x4B true false rd rs1 rs2 rs3 rm s

/-- FNMADD.S. -/
def execFnmaddS (rd rs1 rs2 rs3 : Reg) (rm : BitVec 3) (s : State) : Host.Outcome State Fault Refusal :=
  fpFma 0x4F true true rd rs1 rs2 rs3 rm s

/-- FADD.S. -/
def execFaddS (rd rs1 rs2 : Reg) (rm : BitVec 3) (s : State) : Host.Outcome State Fault Refusal :=
  fpRR 0x00 (fun m a b => Fv.add m a b) rd rs1 rs2 rm s

/-- FSUB.S. -/
def execFsubS (rd rs1 rs2 : Reg) (rm : BitVec 3) (s : State) : Host.Outcome State Fault Refusal :=
  fpRR 0x04 (fun m a b => Fv.add m a b.flip) rd rs1 rs2 rm s

/-- FMUL.S. -/
def execFmulS (rd rs1 rs2 : Reg) (rm : BitVec 3) (s : State) : Host.Outcome State Fault Refusal :=
  fpRR 0x08 (fun _ a b => Fv.mul a b) rd rs1 rs2 rm s

/-- FDIV.S. -/
def execFdivS (rd rs1 rs2 : Reg) (rm : BitVec 3) (s : State) : Host.Outcome State Fault Refusal :=
  fpSlow 0x0C [rs1, rs2] (fun s => Fv.div (val32 (getF s rs1)) (val32 (getF s rs2))) rd rs1 rs2 rm s

/-- FSQRT.S. -/
def execFsqrtS (rd rs1 : Reg) (rm : BitVec 3) (s : State) : Host.Outcome State Fault Refusal :=
  fpSlow 0x2C [rs1] (fun s => Fv.sqrt (val32 (getF s rs1))) rd rs1 0 rm s

/-- FSGNJ.S. -/
def execFsgnjS (rd rs1 rs2 : Reg) (s : State) : Host.Outcome State Fault Refusal :=
  fpSgn (fun _ b => b) rd rs1 rs2 s

/-- FSGNJN.S. -/
def execFsgnjnS (rd rs1 rs2 : Reg) (s : State) : Host.Outcome State Fault Refusal :=
  fpSgn (fun _ b => ~~~b) rd rs1 rs2 s

/-- FSGNJX.S. -/
def execFsgnjxS (rd rs1 rs2 : Reg) (s : State) : Host.Outcome State Fault Refusal :=
  fpSgn (fun a b => a ^^^ b) rd rs1 rs2 s

/-- FMIN.S. -/
def execFminS (rd rs1 rs2 : Reg) (s : State) : Host.Outcome State Fault Refusal :=
  fpMinMax false rd rs1 rs2 s

/-- FMAX.S. -/
def execFmaxS (rd rs1 rs2 : Reg) (s : State) : Host.Outcome State Fault Refusal :=
  fpMinMax true rd rs1 rs2 s

/-- FCVT.W.S. -/
def execFcvtWS (rd rs1 : Reg) (rm : BitVec 3) (s : State) : Host.Outcome State Fault Refusal :=
  fpToInt 0 32 (-2 ^ 31) (2 ^ 31 - 1) rd rs1 rm s

/-- FCVT.WU.S. -/
def execFcvtWuS (rd rs1 : Reg) (rm : BitVec 3) (s : State) : Host.Outcome State Fault Refusal :=
  fpToInt 1 32 0 (2 ^ 32 - 1) rd rs1 rm s

/-- FCVT.L.S. -/
def execFcvtLS (rd rs1 : Reg) (rm : BitVec 3) (s : State) : Host.Outcome State Fault Refusal :=
  fpToInt 2 64 (-2 ^ 63) (2 ^ 63 - 1) rd rs1 rm s

/-- FCVT.LU.S. -/
def execFcvtLuS (rd rs1 : Reg) (rm : BitVec 3) (s : State) : Host.Outcome State Fault Refusal :=
  fpToInt 3 64 0 (2 ^ 64 - 1) rd rs1 rm s

/-- FCVT.S.W. -/
def execFcvtSW (rd rs1 : Reg) (rm : BitVec 3) (s : State) : Host.Outcome State Fault Refusal :=
  fpOfInt 0 (fun v => (lo32 v).toInt) rd rs1 rm s

/-- FCVT.S.WU. -/
def execFcvtSWu (rd rs1 : Reg) (rm : BitVec 3) (s : State) : Host.Outcome State Fault Refusal :=
  fpOfInt 1 (fun v => ((lo32 v).toNat : Int)) rd rs1 rm s

/-- FCVT.S.L. -/
def execFcvtSL (rd rs1 : Reg) (rm : BitVec 3) (s : State) : Host.Outcome State Fault Refusal :=
  fpOfInt 2 (fun v => v.toInt) rd rs1 rm s

/-- FCVT.S.LU. -/
def execFcvtSLu (rd rs1 : Reg) (rm : BitVec 3) (s : State) : Host.Outcome State Fault Refusal :=
  fpOfInt 3 (fun v => (v.toNat : Int)) rd rs1 rm s

/-- FMV.X.W. -/
def execFmvXW (rd rs1 : Reg) (s : State) : Host.Outcome State Fault Refusal :=
  fpToX sx32 rd rs1 s

/-- FCLASS.S. -/
def execFclassS (rd rs1 : Reg) (s : State) : Host.Outcome State Fault Refusal :=
  fpToX (fun v => BitVec.ofNat 64 (fclass fmt32 v.toNat)) rd rs1 s

/-- FMV.W.X. -/
def execFmvWX (rd rs1 : Reg) (s : State) : Host.Outcome State Fault Refusal :=
  fpOfX lo32 rd rs1 s

/-- FEQ.S: quiet. -/
def execFeqS (rd rs1 rs2 : Reg) (s : State) : Host.Outcome State Fault Refusal :=
  fpCmp false Fv.eqv rd rs1 rs2 s

/-- FLT.S. -/
def execFltS (rd rs1 rs2 : Reg) (s : State) : Host.Outcome State Fault Refusal :=
  fpCmp true Fv.lt rd rs1 rs2 s

/-- FLE.S. -/
def execFleS (rd rs1 rs2 : Reg) (s : State) : Host.Outcome State Fault Refusal :=
  fpCmp true (fun a b => !Fv.lt b a) rd rs1 rs2 s

/-- FCVT.S.BF16: exact; an operand that is not boxed is the canonical NaN. -/
def execFcvtSBf16 (rd rs1 : Reg) (rm : BitVec 3) (s : State) : Host.Outcome State Fault Refusal :=
  issue 4 (rmCheck rm (F32.pack ⟨0x53, rd, rm, rs1, 6, 0x20⟩)) [.f rs1] [.f rd] (fun s =>
    let r := round32 (rmOf s rm) (decodeIeee fmtBf (unboxBf (getF s rs1)), .none)
    fpEnd s r.2 fun s => setF s rd r.1) s

/-- FCVT.BF16.S: rounded by rm, boxed. -/
def execFcvtBf16S (rd rs1 : Reg) (rm : BitVec 3) (s : State) : Host.Outcome State Fault Refusal :=
  issue 4 (rmCheck rm (F32.pack ⟨0x53, rd, rm, rs1, 8, 0x22⟩)) [.f rs1] [.f rd] (fun s =>
    let r := roundFv fmtBf (rmOf s rm) (val32 (getF s rs1))
    fpEnd s r.2 fun s => setF s rd (BitVec.ofNat 32 (boxH r.1))) s

/-- FMV.X.H: bits [15:0], sign-extended. -/
def execFmvXH (rd rs1 : Reg) (s : State) : Host.Outcome State Fault Refusal :=
  fpToX (fun v => sextW 2 (v.toNat % 65536)) rd rs1 s

/-- FMV.H.X: boxed. -/
def execFmvHX (rd rs1 : Reg) (s : State) : Host.Outcome State Fault Refusal :=
  fpOfX (fun v => BitVec.ofNat 32 (boxH v.toNat)) rd rs1 s

end Sys2Proof.Machine
end

