-- ==== Sys2Proof/Machine/Wid.lean ====
section
/-! DEFINITION. Work identifiers, the validity of a header, and a cell at item start (spec 02 R45 to R51). -/

namespace Sys2Proof.Machine

/-! ### Fields (spec 02 R46) -/

def widWidth (fmt0 i : Nat) : Nat := bits fmt0 (10 * i + 9) (10 * i + 4) + 1
def widLevel (fmt0 i : Nat) : Nat := bits fmt0 (10 * i + 3) (10 * i + 1)
def widFold (fmt0 i : Nat) : Bool := bit fmt0 (10 * i)

/-- A field is present. -/
def widHas (fmt0 i : Nat) : Bool := decide (i < 6) && widLevel fmt0 i != 0

/-- P(i): the widths of the fields below. -/
def widPos (fmt0 i : Nat) : Nat := foldN i (fun n j => if widHas fmt0 j then n + widWidth fmt0 j else n) 0

/-- The extent of a field; 1 for an absent one (spec 06 R151). -/
def widExtent (fmt0 fmt1 i : Nat) : Nat :=
  if widHas fmt0 i then bits fmt1 (widPos fmt0 i + widWidth fmt0 i - 1) (widPos fmt0 i) + 1 else 1

/-- The value of a field; 0 for an absent one (spec 06 R151). -/
def widValue (fmt0 wid i : Nat) : Nat :=
  if widHas fmt0 i then bits wid (widPos fmt0 i + widWidth fmt0 i - 1) (widPos fmt0 i) else 0

/-- The fields at a level, lowest first. -/
def widAt (fmt0 level : Nat) : List Nat := (List.range 6).filter fun i => widLevel fmt0 i == level

/-- The product of a level's extents. -/
def widProduct (fmt0 fmt1 level : Nat) : Nat := (widAt fmt0 level).foldl (fun n i => n * widExtent fmt0 fmt1 i) 1

/-- Spread a mixed-radix value over fields, the first fastest: the bits of a WID. -/
def widSpread (fmt0 fmt1 : Nat) : List Nat → Nat → Nat
  | [], _ => 0
  | i :: rest, v =>
    let e := widExtent fmt0 fmt1 i
    v % e * 2 ^ widPos fmt0 i + widSpread fmt0 fmt1 rest (v / e)

/-- The mixed-radix value of fields of a WID; a sibling's SIBF field, of extent 1, counts nothing (spec 02 R55). -/
def widIndex (fmt0 fmt1 wid : Nat) : List Nat → Nat
  | [] => 0
  | i :: rest => widValue fmt0 wid i % widExtent fmt0 fmt1 i + widExtent fmt0 fmt1 i * widIndex fmt0 fmt1 wid rest

/-- The WID whose SERIAL fields step to the next value, lowest-numbered fastest; none after the last (spec 02 R48, 20 R399). -/
def widNext (fmt0 fmt1 wid : Nat) : Option Nat :=
  let fs := widAt fmt0 5
  let v := widIndex fmt0 fmt1 wid fs + 1
  if v ≥ widProduct fmt0 fmt1 5 then none
  else some (wid - widSpread fmt0 fmt1 fs (v - 1) + widSpread fmt0 fmt1 fs v)

/-- The items of a launch. -/
def widItems (fmt0 fmt1 : Nat) : Nat := (List.range 6).foldl (fun n i => n * widExtent fmt0 fmt1 i) 1

/-- A WID format is valid (spec 02 R46, R47). -/
def widValid (fmt0 fmt1 : Nat) : Bool :=
  let lv := widLevel fmt0
  let hard := ((List.range 6).filter fun i => lv i != 0 && lv i != 5).map lv
  bits fmt0 63 60 == 0
  && ((List.range 6).all fun i => lv i ≤ 5
      && (lv i != 0 || (widWidth fmt0 i == 1 && !widFold fmt0 i && (List.range 6).all fun j => decide (j ≤ i) || lv j == 0))
      && !(lv i == 1 && widFold fmt0 i))
  && decide (widPos fmt0 6 ≤ 64)
  && fmt1 / 2 ^ widPos fmt0 6 == 0
  && (hard.zip (hard.drop 1)).all (fun p => decide (p.1 ≤ p.2))
  && decide (widProduct fmt0 fmt1 1 ≤ 8)

/-- Set a field's level to SERIAL (spec 02 R50). -/
def widToSerial (fmt0 i : Nat) : Nat := fmt0 - widLevel fmt0 i * 2 ^ (10 * i + 1) + 5 * 2 ^ (10 * i + 1)

/-- Fold a level's foldable fields, highest first, until the test passes; none where it still fails (spec 02 R50). -/
def foldUntil (test : Nat → Bool) : List Nat → Nat → Option Nat
  | [], fmt0 => if test fmt0 then some fmt0 else none
  | i :: rest, fmt0 => if test fmt0 then some fmt0 else foldUntil test rest (widToSerial fmt0 i)

/-- The foldable fields of a level, highest first. -/
def foldable (fmt0 level : Nat) : List Nat := ((widAt fmt0 level).filter (widFold fmt0)).reverse

/-- Gangs that one core holds when empty (spec 02 R49). -/
def gangsPerCore (h : Hdr) : Nat :=
  let a := popcount h.accm 4
  min (8 / h.cells) (min (if h.lsu = 0 then 8 else 68 / h.lsu) (if a = 0 then 8 else 4 / a))

/-! ### Headers -/

/-- Read a header from 256 bytes (spec 02 R42). -/
def hdrOf (d : List Byte) : Hdr :=
  let w (o : Nat) : Word := BitVec.ofNat 64 (leNat ((d.drop o).take 8))
  { ctl0 := w 0x00, entry := w 0x08, fmt0 := w 0x10, fmt1 := w 0x18, ctl1 := w 0x20, tvec := w 0x28, crec := w 0x30, csig := w 0x38
    args := (List.range 8).map fun i => w (0x40 + 8 * i)
    seg := (List.range 8).map fun i => (w (0x80 + 16 * i), w (0x88 + 16 * i)) }

/-- The reserved bits of CTL0 and CTL1. -/
def ctl0Reserved : Nat := 2 ^ 48 - 2 ^ 44 + (2 ^ 40 - 2 ^ 36) + (2 ^ 32 - 2 ^ 28) + (2 ^ 24 - 2 ^ 18) + (2 ^ 16 - 2 ^ 8) + (2 ^ 6 - 2 ^ 4) + 1
def ctl1Reserved : Nat := 2 ^ 16 - 2 ^ 10 + 255

/-- The checks of R45 on a header alone; `sib` allows SIB and BHANDLE. -/
def hdrOk (sib : Bool) (h : Hdr) : Bool :=
  let f0 := h.fmt0.toNat
  let f1 := h.fmt1.toNat
  bits h.ctl0.toNat 63 56 == 1
  && (h.ctl0.toNat &&& ctl0Reserved) == 0 && (h.ctl1.toNat &&& ctl1Reserved) == 0
  && (h.seg.drop 6).all (fun p => p == (0, 0))
  && decide (h.lsu ≤ 68)
  && decide (1 ≤ h.cells) && decide (h.cells ≤ 8) && h.cells == widProduct f0 f1 1
  && (sib || (!h.sib && h.bhandle == 0))
  && decide (h.bclass ≤ 1)
  && h.entry.toNat % 4 == 0 && h.tvec.toNat % 4 == 0 && h.crec.toNat % 64 == 0 && h.csig.toNat % 8 == 0
  && h.seg.all (fun p => decide (p.1.toNat < 2 ^ 57))
  && (h.tvec == 0 || decide (h.cells ≤ h.lsu * 4))
  && widValid f0 f1

/-! ### A cell at item start (spec 02 R51) -/

/-- tsave of gang cell `j`. -/
def tsaveOf (h : Hdr) (j : Nat) : Word :=
  if h.tvec = 0 then 0 else BitVec.ofNat 64 (7 * 2 ^ 61 + h.lsu * 4096 + 2 ^ 64 - 1024 * (h.cells - j))

/-- The CSRs at item start. -/
def csrsAt (h : Hdr) (j : Nat) : Csrs :=
  { hoqen := BitVec.ofNat 64 h.hoq, leaseq := BitVec.ofNat 64 h.quantum, ttvec := h.tvec, tsave := tsaveOf h j }

/-- x registers at item start. -/
def xAt (h : Hdr) : Vector Word 32 := Vector.ofFn fun i => if 10 ≤ i.val ∧ i.val < 18 then (h.args[i.val - 10]?).getD 0 else 0

/-- A cell of a gang at the start of an item. -/
def cellAt (gid j : Nat) (h : Hdr) (wid : Word) : Cell :=
  { gang := gid, j, pc := h.entry, x := xAt h, csr := csrsAt h j, g := h.vgrp, wid }

/-- The WID of item `c` of gang number `gang`, hive group `hg` of die group `dg`, SERIAL fields zero (spec 02 R48). -/
def widOf (h : Hdr) (dg hg gang c : Nat) : Word :=
  let f0 := h.fmt0.toNat
  let f1 := h.fmt1.toNat
  BitVec.ofNat 64 (widSpread f0 f1 (widAt f0 4) dg + widSpread f0 f1 (widAt f0 3) hg + widSpread f0 f1 (widAt f0 2) gang
    + widSpread f0 f1 (widAt f0 1) c)

end Sys2Proof.Machine
end

