-- ==== Sys2Proof/Machine/Control.lean ====
section
/-! DEFINITION. Environment calls, CSRs, hardware loops, YIELD, WIDF and the illegal encoding (spec 05 R118, R119; 06 R145 to
R151, R154 to R156). -/

namespace Sys2Proof.Machine

/-! ### ECALL, EBREAK, illegal encodings -/

/-- ECALL. -/
def execEcall (s : State) : Host.Outcome State Fault Refusal := issue 4 noEarlyCheck [] [] (fun s => .trap s cECALL 0) s

/-- EBREAK. -/
def execEbreak (s : State) : Host.Outcome State Fault Refusal := issue 4 noEarlyCheck [] [] (fun s => .trap s cEBREAK 0) s

/-- An encoding that names no instruction traps ILLEGAL, with the bits its length reports (spec 05 R118). -/
def execIllegalInstruction (len : Nat) (w : Word) (s : State) : Host.Outcome State Fault Refusal :=
  issue len (fun _ => some (cILLEGAL, w)) [] [] (fun s => .ok s) s

/-! ### CSRs (spec 06 R154 to R156) -/

/-- A CSR the core implements. -/
def csrExists (a : Nat) : Bool :=
  (decide (1 ≤ a) && decide (a ≤ 3)) || a == 0x800 || (decide (0x802 ≤ a) && decide (a ≤ 0x809)) || (decide (0x810 ≤ a) && decide (a ≤ 0x812))
  || (decide (0x814 ≤ a) && decide (a ≤ 0x81B)) || (decide (0x820 ≤ a) && decide (a ≤ 0x825)) || (decide (0xCC0 ≤ a) && decide (a ≤ 0xCC8))
  || (decide (0xCD0 ≤ a) && decide (a ≤ 0xCE6)) || a == 0xCE8

/-- A trap register: written only at a trap level. -/
def csrTrap (a : Nat) : Bool := decide (0x810 ≤ a) && decide (a ≤ 0x825)

/-- A write the cell may make at its level (spec 06 R145). -/
def csrWritable (tlev a : Nat) : Bool := decide (a < 0xC00) && a != 0x812 && (!csrTrap a || decide (tlev > 0))

/-- The SEW code of vgrp (spec 09 R202). -/
def sewCode (sew : Nat) : Nat := if sew = 8 then 0 else if sew = 16 then 1 else 2

/-- VLMAX of a cell (spec 09 R202). -/
def vlmax (c : Cell) : Nat := 2 ^ c.g * 1024 / c.sew

/-- leasest as a cell's gang sees it (spec 11 R256). -/
def leasestOf (s : State) (c : Cell) : Nat :=
  let g := s.gang c.gang
  let k := s.core g.core
  let holder := k.holder == some c.gang
  (if holder then k.qleft * 2 ^ 16 + b2n (!k.leaseQ.isEmpty) * 4 + 1 else if k.occupant == some c.gang then 2 else 0)
    + g.imgv.toNat * 2 ^ 12 + g.dirty.toNat * 2 ^ 8

/-- Read a CSR that exists, qtime apart. -/
def csrGet (s : State) (a : Nat) : Word :=
  let c := s.me
  let r := c.csr
  let h := s.myGang.hdr
  match a with
  | 0x001 => BitVec.ofNat 64 (bits r.qfcsr.toNat 4 0)
  | 0x002 => BitVec.ofNat 64 (bits r.qfcsr.toNat 7 5)
  | 0x003 => BitVec.ofNat 64 (bits r.qfcsr.toNat 7 0)
  | 0x800 => r.qfcsr
  | 0x802 => r.fetrap
  | 0x803 => r.fetrapv
  | 0x804 => r.fetrapf
  | 0x805 => r.hoqen
  | 0x806 => r.qsatcnt
  | 0x807 => r.qufcnt
  | 0x808 => r.mocsig
  | 0x809 => r.leaseq
  | 0x810 => r.ttvec
  | 0x811 => r.tsave
  | 0x812 => BitVec.ofNat 64 c.tlev
  | 0x814 => r.tcause1
  | 0x815 => r.tepc1
  | 0x816 => r.tval1
  | 0x817 => r.tstat1
  | 0x818 => r.tcause2
  | 0x819 => r.tepc2
  | 0x81A => r.tval2
  | 0x81B => r.tstat2
  | 0x820 => r.mstate
  | 0x821 => r.vinflt
  | 0x822 => r.vstart0
  | 0x823 => r.vstart1
  | 0x824 => r.vstart2
  | 0x825 => r.vstart3
  | 0xCC0 => BitVec.ofNat 64 c.vl
  | 0xCC1 => BitVec.ofNat 64 (sewCode c.sew * 4 + c.g)
  | 0xCC2 => BitVec.ofNat 64 (vlmax c)
  | 0xCC3 => BitVec.ofNat 64 s.qtime
  | 0xCC4 => BitVec.ofNat 64 s.cur
  | 0xCC5 => c.wid
  | 0xCC6 => h.fmt0
  | 0xCC7 => h.fmt1
  | 0xCC8 => 0x20
  | 0xCE6 => BitVec.ofNat 64 c.loops.length
  | 0xCE8 => BitVec.ofNat 64 (leasestOf s c)
  | a =>
    if 0xCD0 ≤ a ∧ a < 0xCD8 then (s.myGang.segment (a - 0xCD0)).1
    else if 0xCD8 ≤ a ∧ a < 0xCE0 then (s.myGang.segment (a - 0xCD8)).2
    else if 0xCE0 ≤ a ∧ a < 0xCE6 then (match c.loops.reverse[a - 0xCE0]? with | some l => l.idx | none => 0)
    else 0

/-- A write to a CSR keeps the bits its map names. -/
def csrPut (hoq : Nat) (a : Nat) (v : Word) (r : Csrs) : Csrs :=
  match a with
  | 0x001 => { r with qfcsr := (r.qfcsr &&& ~~~31#64) ||| (v &&& 31) }
  | 0x002 => { r with qfcsr := (r.qfcsr &&& ~~~0xE0#64) ||| ((v &&& 7) <<< 5) }
  | 0x003 => { r with qfcsr := (r.qfcsr &&& ~~~0xFF#64) ||| (v &&& 0xFF) }
  | 0x800 => { r with qfcsr := v &&& 0x3701FF }
  | 0x802 => { r with fetrap := v &&& 0xFFFFFFFE }
  | 0x803 => { r with fetrapv := v &&& 0xFFFFFFFF }
  | 0x804 => { r with fetrapf := v &&& 0xFFFFFFFF }
  | 0x805 => { r with hoqen := v &&& BitVec.ofNat 64 hoq }
  | 0x806 => { r with qsatcnt := v }
  | 0x807 => { r with qufcnt := v }
  | 0x808 => { r with mocsig := v }
  | 0x809 => { r with leaseq := if v &&& 0xFFFF = 0 then 256 else v &&& 0xFFFF }
  | 0x810 => { r with ttvec := v &&& ~~~3#64 }
  | 0x811 => { r with tsave := v }
  | 0x814 => { r with tcause1 := v &&& 0xFF }
  | 0x815 => { r with tepc1 := v }
  | 0x816 => { r with tval1 := v }
  | 0x817 => { r with tstat1 := v &&& tstatMask }
  | 0x818 => { r with tcause2 := v &&& 0xFF }
  | 0x819 => { r with tepc2 := v }
  | 0x81A => { r with tval2 := v }
  | 0x81B => { r with tstat2 := v &&& tstatMask }
  | 0x820 => { r with mstate := v &&& 0x8000FFFF0FFF003F }
  | 0x821 => { r with vinflt := if v &&& 7 > 4 then 4 else v &&& 7 }
  | 0x822 => { r with vstart0 := v &&& 0x8000FFFF000007FF }
  | 0x823 => { r with vstart1 := v &&& 0x8000FFFF000007FF }
  | 0x824 => { r with vstart2 := v &&& 0x8000FFFF000007FF }
  | 0x825 => { r with vstart3 := v &&& 0x8000FFFF000007FF }
  | _ => r

/-- A CSR instruction: `upd` forms the new value from the old and the operand; one that does not write only reads. -/
def csrOp (f3 : BitVec 3) (upd : Word → Word → Word) (writes : Bool) (rd rs1 : Reg) (srcs : List Dst) (operand : State → Word) (csr : BitVec 12) :
    State → Host.Outcome State Fault Refusal :=
  let a := csr.toNat
  let w : W32 := (encI 0x73 f3 rd rs1 csr).pack
  issue 4 (fun s => if csrExists a && (!writes || csrWritable s.me.tlev a) then none else some (cILLEGAL, w.setWidth 64)) srcs [.x rd] fun s =>
    let s := if a = 0xCC3 then s.tick else s
    let old := csrGet s a
    let v := operand s
    let s1 := setX s rd old
    .ok (if writes then s1.modMe fun c => { c with csr := csrPut s.myGang.hdr.hoq a (upd old v) c.csr } else s1)

def updSwap (_ v : Word) : Word := v
def updSet (old v : Word) : Word := old ||| v
def updClear (old v : Word) : Word := old &&& ~~~v

/-- CSRRW always writes. -/
def execCsrrw (rd rs1 : Reg) (csr : BitVec 12) (s : State) : Host.Outcome State Fault Refusal :=
  csrOp 1 updSwap true rd rs1 [.x rs1] (fun s => getX s rs1) csr s

/-- CSRRS writes unless rs1 is x0. -/
def execCsrrs (rd rs1 : Reg) (csr : BitVec 12) (s : State) : Host.Outcome State Fault Refusal :=
  csrOp 2 updSet (rs1 != 0) rd rs1 [.x rs1] (fun s => getX s rs1) csr s

/-- CSRRC writes unless rs1 is x0. -/
def execCsrrc (rd rs1 : Reg) (csr : BitVec 12) (s : State) : Host.Outcome State Fault Refusal :=
  csrOp 3 updClear (rs1 != 0) rd rs1 [.x rs1] (fun s => getX s rs1) csr s

/-- CSRRWI always writes. -/
def execCsrrwi (rd uimm : Reg) (csr : BitVec 12) (s : State) : Host.Outcome State Fault Refusal :=
  csrOp 5 updSwap true rd uimm [] (fun _ => uimm.setWidth 64) csr s

/-- CSRRSI writes unless the immediate is 0. -/
def execCsrrsi (rd uimm : Reg) (csr : BitVec 12) (s : State) : Host.Outcome State Fault Refusal :=
  csrOp 6 updSet (uimm != 0) rd uimm [] (fun _ => uimm.setWidth 64) csr s

/-- CSRRCI writes unless the immediate is 0. -/
def execCsrrci (rd uimm : Reg) (csr : BitVec 12) (s : State) : Host.Outcome State Fault Refusal :=
  csrOp 7 updClear (uimm != 0) rd uimm [] (fun _ => uimm.setWidth 64) csr s

/-! ### Hardware loops (spec 06 R146, R147) -/

/-- The range check of an end offset, then room on the stack (spec 05 R128: before any register is waited for). -/
def loopCheck (imm : BitVec 12) (w : W32) : Early := fun s =>
  if imm.toNat < 2 then some (cILLEGAL, w.setWidth 64) else if s.me.loops.length = 6 then some (cLOOP_DEPTH, 0) else none

/-- Push a loop of `cnt` iterations that ends `imm` parcels after pc. -/
def pushLoop (s : State) (cnt : Word) (imm : BitVec 12) : Res :=
  let c := s.me
  let stop := c.pc + BitVec.ofNat 64 (4 * imm.toNat)
  if cnt = 0 then .jump s stop
  else .ok (s.modMe fun c => { c with loops := { start := c.pc + 4, stop, cnt, idx := 0, lev := c.tlev } :: c.loops })

/-- LOOP. -/
def execLoop (rs1 : Reg) (imm : BitVec 12) (s : State) : Host.Outcome State Fault Refusal :=
  issue 4 (loopCheck imm (encI 0x0B 0 0 rs1 imm).pack) [.x rs1] [] (fun s => pushLoop s (getX s rs1) imm) s

/-- LOOPI: its count is the field plus one. -/
def execLoopi (cntm1 : BitVec 10) (imm : BitVec 12) (s : State) : Host.Outcome State Fault Refusal :=
  issue 4 (loopCheck imm (encI 0x0B 1 (cntm1.extractLsb' 0 5) (cntm1.extractLsb' 5 5) imm).pack) [] []
    (fun s => pushLoop s (BitVec.ofNat 64 (cntm1.toNat + 1)) imm) s

/-- LBRK's number of loops, then that the level has so many. -/
def lbrkCheck (rs1 : Reg) (n : BitVec 12) : Early := fun s =>
  if n = 0 ∨ n.toNat > 6 then some (cILLEGAL, (encI 0x0B 2 0 rs1 n).pack.setWidth 64)
  else if n.toNat > (s.me.loops.filter fun l => l.lev == s.me.tlev).length then some (cLOOP_DEPTH, 0) else none

/-- LBRK. -/
def execLbrk (rs1 : Reg) (n : BitVec 12) (s : State) : Host.Outcome State Fault Refusal :=
  issue 4 (lbrkCheck rs1 n) [.x rs1] []
    (fun s =>
      let c := s.me
      if rs1 != 0 && getX s rs1 == 0 then .ok s
      else match c.loops[n.toNat - 1]? with
        | some e => .jump (s.modMe fun c => { c with loops := c.loops.drop n.toNat }) e.stop
        | none => .ok s) s

/-! ### YIELD and WIDF (spec 06 R150, R151) -/

/-- YIELD: where a pre-emption of the gang is ordered, the cell lands after it. -/
def execYield (s : State) : Host.Outcome State Fault Refusal :=
  issue 4 noEarlyCheck [] [] (fun s =>
    if s.myGang.st == .landing then
      .fin ((finishCell s s.cur (s.me.pc + 4)).modMe fun c => { c with run := .landed, resv := none })
    else .ok s) s

/-- A number about field `i` of the work identifier. -/
def widRead (f : Hdr → Cell → Nat) (rd : Reg) : State → Host.Outcome State Fault Refusal :=
  issue 4 noEarlyCheck [] [.x rd] fun s => .ok (setX s rd (BitVec.ofNat 64 (f s.myGang.hdr s.me)))

/-- WIDF: the field's value. -/
def execWidf (rd : Reg) (j : BitVec 3) (s : State) : Host.Outcome State Fault Refusal :=
  widRead (fun h c => widValue h.fmt0.toNat c.wid.toNat j.toNat) rd s

/-- WIDF.EXT: its extent. -/
def execWidfExt (rd : Reg) (j : BitVec 3) (s : State) : Host.Outcome State Fault Refusal :=
  widRead (fun h _ => widExtent h.fmt0.toNat h.fmt1.toNat j.toNat) rd s

/-- WIDF.LVL: its level after folding. -/
def execWidfLvl (rd : Reg) (j : BitVec 3) (s : State) : Host.Outcome State Fault Refusal :=
  widRead (fun h _ => widLevel h.fmt0.toNat j.toNat) rd s

end Sys2Proof.Machine
end

