-- ==== Sys2Proof/Machine/Vec.lean ====
section
/-! DEFINITION. The vector unit's shared operations: groups, elements, active elements, instructions in flight, and the element
functions of arithmetic, comparison, reduction and conversion (spec 08 R187 to R200, 09 R201 to R218). -/

namespace Sys2Proof.Machine

/-! ### Groups and elements (spec 09 R201) -/

/-- The registers of the group that `r` names under grouping code `g`. -/
def groupRegs (g : Nat) (r : Reg) : List Reg := (List.range (2 ^ g)).map fun i => BitVec.ofNat 5 (r.toNat + i)

/-- The bits of a group, its first register lowest. -/
def getGroup (s : State) (g : Nat) (r : Reg) : Nat := (groupRegs g r).foldr (fun q v => (getV s q).toNat + 2 ^ 1024 * v) 0

/-- Write a group. -/
def setGroup (s : State) (g : Nat) (r : Reg) (v : Nat) : State :=
  foldN (2 ^ g) (fun s i => setV s (BitVec.ofNat 5 (r.toNat + i)) (BitVec.ofNat 1024 (v / 2 ^ (1024 * i)))) s

/-- Element `i` of width `w`. -/
def elem (v w i : Nat) : Nat := v / 2 ^ (w * i) % 2 ^ w

/-- Replace element `i` of width `w`. -/
def putElem (v w i x : Nat) : Nat := v - elem v w i * 2 ^ (w * i) + x % 2 ^ w * 2 ^ (w * i)

/-- VLMAX of a width (spec 09 R201). -/
def vlmaxOf (c : Cell) (w : Nat) : Nat := 2 ^ c.g * 1024 / w

/-- The element count N of an instruction whose widest vector operand has width `w` (spec 09 R203). -/
def vcount (c : Cell) (w : Nat) : Nat := min c.vl (vlmaxOf c w)

/-- The predicate selects element `i` (spec 09 R203). -/
def selected (s : State) (p : Pred) (i : Nat) : Bool := p.k == 0 || (getM s p.k).getLsbD i != p.n

/-- Elements 0 to N − 1 of a destination: an active one takes `f`, an inactive one keeps its bits; those above are undisturbed
(spec 09 R204). -/
def mapElems (old w n : Nat) (act : Nat → Bool) (f : Nat → Nat × Fl) : Nat × Fl :=
  let r := (List.range n).foldr (fun i (acc : Nat × Fl) =>
    let e := if act i then f i else (elem old w i, .none)
    (acc.1 * 2 ^ w + e.1 % 2 ^ w, Fl.or e.2 acc.2)) (0, .none)
  (old / 2 ^ (w * n) * 2 ^ (w * n) + r.1, r.2)

/-- The same for the bits of a mask. -/
def mapMask (old n : Nat) (act : Nat → Bool) (f : Nat → Bool) : Nat :=
  old / 2 ^ n * 2 ^ n + (List.range n).foldr (fun i acc => acc * 2 + b2n (if act i then f i else bit old i)) 0

/-! ### Checks and the unit -/

/-- VGRP_ALIGN: the first vector operand field, in the order d, a, b, c, whose number is not a multiple of g (spec 09 R205). -/
def alignCheck (fields : List (Nat × Reg)) : Early := fun s =>
  match fields.find? fun f => f.2.toNat % 2 ^ s.me.g != 0 with
  | some f => some (cVGRP_ALIGN, BitVec.ofNat 64 (f.2.toNat + 32 * f.1))
  | none => none

/-- frm names a rounding mode, for an instruction that uses it (spec 08 R186). -/
def frmCheck (q : Q64) : Early := fun s =>
  match rmSelect s 7 with
  | some _ => none
  | none => some (cILLEGAL, q.pack)

/-- The mode in frm. -/
def frmOf (s : State) : Rm := rmOf s 7

/-- A vector operand stands for its whole group. -/
def groupDst (g : Nat) : Dst → List Dst
  | .v r => (groupRegs g r).map .v
  | d => [d]

/-- A vector instruction: its class 2 check, VGRP_ALIGN, its operands, its body. -/
def vecIssue (early : Early) (fields : List (Nat × Reg)) (srcs dsts : List Dst) (body : State → Op Res) (s : State) :
    Host.Outcome State Fault Refusal :=
  let g := s.me.g
  issue 8 (fun s => match early s with | some t => some t | none => alignCheck fields s) (srcs.flatMap (groupDst g)) (dsts.flatMap (groupDst g))
    (fun s => Op.res (body s)) s

/-- The unit accepts an instruction while it holds fewer than four (spec 06 R134, 09 R227). -/
def vecRoom (s : State) : Op Unit := if (s.core (coreOf s.cur)).vec.length ≥ 4 then .error (.spent s) else .ok ()

/-- Turns of a fixed latency by grouping (spec 06 R133, 09 R227). -/
def turnsOf (c : Cell) (small big : Nat) : Nat := if c.g = 3 then big else small

/-- Turns until a vector instruction's result is written (spec 06 R133, 09 R227). -/
def vecTurns (c : Cell) (q : Q64) : Nat :=
  if q.major = 0x02 ∧ 0x0A ≤ q.fn.toNat then (if q.fn = 0x10 then turnsOf c 2 3 else turnsOf c 6 10)
  else if q.major = 0x04 then 2
  else if q.major = 0x05 then (if 4 ≤ q.fn.toNat ∧ q.fn.toNat ≤ 7 then 2 else turnsOf c 3 4)
  else if q.major = 0x06 then turnsOf c 4 5
  else if q.major = 0x07 ∧ q.fn = 0x02 then 3
  else turnsOf c 2 3

/-- Put an instruction in flight into the unit. -/
def flyWith (s : State) (v : VFlight) : State := s.modCore (coreOf s.cur) fun k => { k with vec := k.vec ++ [v] }

/-- Record an instruction in flight: what it may still take back of its destinations, elements in each element group, and the
scalar operands it read (spec 09 R223, R225). The unit's own instructions chain; the matrix unit may read its result early (06 R133). -/
def fly (s : State) (q : Q64) (n w : Nat) (old : List Held) (xa xb xc : Word) : State :=
  let c := s.me
  let late := old.filterMap fun h => match h.dst with | .v r => some (Dst.v r, h.val, vecTurns c q) | _ => none
  flyWith (s.modMe fun c => { c with earlyV := late ++ c.earlyV })
    { cell := s.cur, gang := c.gang, enc := q.pack, pc := c.pc, count := n, step := 1024 / w, old, xa, xb, xc }

/-- The registers of a destination group with the values they hold, in elements of width `w`. -/
def heldGroup (s : State) (g w : Nat) (r : Reg) : List Held :=
  (groupRegs g r).zipIdx.map fun e =>
    { dst := .v e.1, first := e.2 * (1024 / w), width := w, count := 1024 / w, val := (getV s e.1).toNat }

/-- A mask destination with the value it holds. -/
def heldMask (s : State) (r : MReg) : List Held := [{ dst := .m r, width := 1, count := 1024, val := (getM s r).toNat }]

/-- A scalar destination of an instruction of `n` elements, which is written when the last is done; none where nothing can be given
back. -/
def heldScalar (s : State) (d : Dst) (n : Nat) : List Held :=
  match d with
  | .x r => if r = 0 || mapped s.me r then [] else [{ dst := d, first := n - 1, width := 64, count := 1, val := (s.me.x[r.toNat]'r.isLt).toNat }]
  | .f r => [{ dst := d, first := n - 1, width := 32, count := 1, val := (s.me.f[r.toNat]'r.isLt).toNat }]
  | _ => []

/-- The scalar operand at a place of the source list, as a record keeps it. -/
def rawAt (s : State) (srcs : List Dst) (i : Nat) : Word :=
  match srcs[i]? with
  | some (.x r) => getX s r
  | _ => 0

/-! ### Types -/

/-- The format of a wide float type. -/
def fmtOf : Ty → Fmt
  | .f32 => fmt32
  | .bf16 => fmtBf
  | .f16 => fmt16
  | .e4m3 => fmtE4M3
  | .e5m2 => fmtE5M2
  | .e2m1 => fmtE2M1
  | _ => fmtE3M5


/-- The integer an element of an integer type holds. -/
def intOf (t : Ty) (x : Nat) : Int := if t.isSigned then signedOf t.width x else (x % 2 ^ t.width : Nat)

/-- The range of an integer type (spec 08 R184). -/
def intLo (t : Ty) : Int := if t.isSigned then -(2 ^ (t.width - 1) : Nat) else 0
def intHi (t : Ty) : Int := if t.isSigned then (2 ^ (t.width - 1) : Nat) - 1 else (2 ^ t.width : Nat) - 1

/-- The value an element of any type holds. -/
def valOf (t : Ty) (x : Nat) : Fv :=
  match t with
  | .e4m3 => decodeE4M3 x
  | .e5m2 => decodeE5M2 x
  | .e2m1 => decodeE2M1 x
  | .e3m5 => decodeE3M5 x
  | t => if t.isInt then Fv.ofInt (intOf t x) 0 else decodeIeee (fmtOf t) x

/-- The element an f register supplies: its low half when boxed, else the canonical NaN (spec 06 R144, 09 R210). -/
def unboxTo (t : Ty) (w : W32) : Nat :=
  if t = .f32 then w.toNat else if w.toNat / 65536 = 0xFFFF then w.toNat % 65536 else canonNan (fmtOf t)

/-- A result of a float type as an f register holds it. -/
def boxFrom (t : Ty) (x : Nat) : W32 := BitVec.ofNat 32 (if t = .f32 then x else boxH x)

/-- Round an exact result to a type. -/
def roundTo (t : Ty) (rm : Rm) (r : Fv × Fl) : Nat × Fl :=
  let v := roundFv (fmtOf t) rm r.1
  (v.1, Fl.or r.2 v.2)

/-! ### Element-wise instructions (spec 09 R209, R210) -/

/-- An element-wise instruction of `arity` vector or scalar operands of one type: `xs` is the register of a scalar b, `scalar` its
value, and `f` the element function. -/
def vecMap (q : Q64) (early : Early) (w arity : Nat) (xs : Option Dst) (scalar : State → Nat) (raw : State → Word)
    (f : State → Nat → Nat → Nat → Nat × Fl) : State → Host.Outcome State Fault Refusal :=
  let bv := decide (arity ≥ 2) && xs.isNone
  vecIssue early
    ([(0, q.d), (1, q.a)] ++ (if bv then [(2, q.b)] else []) ++ (if arity = 3 then [(3, q.c)] else []))
    ([.v q.a] ++ (match xs with | some d => [d] | none => if bv then [.v q.b] else []) ++ (if arity = 3 then [.v q.c] else []))
    [.v q.d] fun s => do
    vecRoom s
    let g := s.me.g
    let n := vcount s.me w
    let a := getGroup s g q.a
    let b := if bv then getGroup s g q.b else 0
    let c := if arity = 3 then getGroup s g q.c else 0
    let sc := scalar s
    let h := f s
    let r := mapElems (getGroup s g q.d) w n (selected s q.p) fun i => h (elem a w i) (if bv then elem b w i else sc) (elem c w i)
    .ok (.ok (raiseFlags (setGroup (fly s q n w (heldGroup s g w q.d) 0 (raw s) 0) g q.d r.1) r.2))

/-- VINT: b is a group, or x[b] with its low bits used. -/
def vint (fn : BitVec 6) (t : Ty) (p : Pred) (d a b : Reg) (xs : Bool) (f : Nat → Nat → Nat → Nat × Fl) : State → Host.Outcome State Fault Refusal :=
  vecMap (qv 0x01 fn t.code p d a b 0 (immBit xs)) noEarlyCheck t.width 2 (if xs then some (.x b) else none) (fun s => (getX s b).toNat % 2 ^ t.width)
    (fun s => if xs then getX s b else 0) fun _ x y _ => f t.width x y

/-- A unary VINT. -/
def vintUn (fn : BitVec 6) (t : Ty) (p : Pred) (d a : Reg) (f : Nat → Nat → Nat) : State → Host.Outcome State Fault Refusal :=
  vecMap (qv 0x01 fn t.code p d a 0 0 0) noEarlyCheck t.width 1 none (fun _ => 0) (fun _ => 0) fun _ x _ _ => (f t.width x, .none)

/-- A result without flags. -/
def plain (f : Nat → Nat → Nat → Nat) (w x y : Nat) : Nat × Fl := (f w x y, .none)

/-- A signed result held to the width, with SAT when it is clamped (spec 09 R209). -/
def sat (f : Int → Int → Int) (w x y : Nat) : Nat × Fl :=
  let v := f (signedOf w x) (signedOf w y)
  let lo : Int := -(2 ^ (w - 1) : Nat)
  let hi : Int := (2 ^ (w - 1) : Nat) - 1
  let r := clampInt lo hi v
  (wrapInt w r, { sat := r != v })

def eAdd (_ x y : Nat) : Nat := x + y
def eSub (w x y : Nat) : Nat := wrapInt w ((x : Int) - y)
def eMul (_ x y : Nat) : Nat := x * y
def eMulh (w x y : Nat) : Nat := wrapInt w (signedOf w x * signedOf w y / (2 ^ w : Nat))
def eMin (w x y : Nat) : Nat := if signedOf w x < signedOf w y then x else y
def eMax (w x y : Nat) : Nat := if signedOf w x < signedOf w y then y else x
def eMinu (_ x y : Nat) : Nat := min x y
def eMaxu (_ x y : Nat) : Nat := max x y
def eAnd (_ x y : Nat) : Nat := x &&& y
def eOr (_ x y : Nat) : Nat := x ||| y
def eXor (_ x y : Nat) : Nat := x ^^^ y
def eSll (w x y : Nat) : Nat := x * 2 ^ (y % w)
def eSrl (w x y : Nat) : Nat := x / 2 ^ (y % w)
def eSra (w x y : Nat) : Nat := wrapInt w (signedOf w x / (2 ^ (y % w) : Nat))
def eAbs (w x : Nat) : Nat := (signedOf w x).natAbs
def eNeg (w x : Nat) : Nat := wrapInt w (-(signedOf w x))

/-- VFLT: b is a group, or f[b]; `uses` says whether frm is used. -/
def vflt (fn : BitVec 6) (t : Ty) (p : Pred) (d a b c : Reg) (arity : Nat) (xs uses : Bool) (f : Rm → Nat → Nat → Nat → Nat × Fl) :
    State → Host.Outcome State Fault Refusal :=
  let q := qv 0x02 fn t.code p d a b c (immBit xs)
  vecMap q (if uses then frmCheck q else noEarlyCheck) t.width arity (if xs then some (.f b) else none) (fun s => unboxTo t (getF s b))
    (fun s => if xs then (getF s b).setWidth 64 else 0) fun s => f (frmOf s)

/-- A rounded operation on two values. -/
def fl2 (t : Ty) (f : Rm → Fv → Fv → Fv × Fl) (rm : Rm) (x y _ : Nat) : Nat × Fl := roundTo t rm (f rm (valOf t x) (valOf t y))

/-- A rounded operation on one value. -/
def fl1 (t : Ty) (f : Fv → Fv × Fl) (rm : Rm) (x _ _ : Nat) : Nat × Fl := roundTo t rm (f (valOf t x))

/-- A fused operation, the product's or the addend's sign inverted. -/
def fl3 (t : Ty) (negP negC : Bool) (rm : Rm) (x y z : Nat) : Nat × Fl :=
  let a := valOf t x
  let c := valOf t z
  roundTo t rm (Fv.fma Config.fmaQuietInvalid rm (if negP then a.flip else a) (valOf t y) (if negC then c.flip else c))

/-- A minimum or maximum. -/
def flMin (t : Ty) (isMax : Bool) (_ : Rm) (x y _ : Nat) : Nat × Fl := minmaxCode (fmtOf t) isMax x y

/-- The sign bit formed from the codes of a and b. -/
def flSign (t : Ty) (f : Bool → Bool → Bool) (_ : Rm) (x y _ : Nat) : Nat × Fl :=
  let w := t.width
  (x % 2 ^ (w - 1) + b2n (f (bit x (w - 1)) (bit y (w - 1))) * 2 ^ (w - 1), .none)

/-! ### Comparisons and masks (spec 09 R212, R213) -/

/-- VCMP: `rel` on integers, `frel` on values that are not NaN, `onNan` the result for a NaN, `loud` whether any NaN sets NV. -/
def vcmp (fn : BitVec 6) (d : MReg) (a b : Reg) (xs : Bool) (p : Pred) (t : Ty) (rel : Int → Int → Bool) (frel : Fv → Fv → Bool)
    (onNan loud : Bool) : State → Host.Outcome State Fault Refusal :=
  let q := qv 0x03 fn t.code p (mreg d) a b 0 (immBit xs)
  let sd : Dst := if t.isInt then .x b else .f b
  vecIssue noEarlyCheck ([(1, a)] ++ if xs then [] else [(2, b)]) ([.v a] ++ if xs then [sd] else [.v b]) [] fun s => do
    vecRoom s
    let w := t.width
    let g := s.me.g
    let n := vcount s.me w
    let x := getGroup s g a
    let y := getGroup s g b
    let sc := if t.isInt then (getX s b).toNat % 2 ^ w else unboxTo t (getF s b)
    let ex (i : Nat) : Nat := elem x w i
    let ey (i : Nat) : Nat := if xs then sc else elem y w i
    let nan (i : Nat) : Bool := (valOf t (ex i)).isNan || (valOf t (ey i)).isNan
    let snan (i : Nat) : Bool := (valOf t (ex i)).isSnan || (valOf t (ey i)).isSnan
    let r (i : Nat) : Bool :=
      if t.isInt then rel (intOf t (ex i)) (intOf t (ey i)) else if nan i then onNan else frel (valOf t (ex i)) (valOf t (ey i))
    let act := selected s p
    let nv := !t.isInt && (List.range n).any fun i => act i && (snan i || (loud && nan i))
    let m := mapMask (getM s d).toNat n act r
    let raw : Word := if xs then (if t.isInt then getX s b else (getF s b).setWidth 64) else 0
    .ok (.ok (raiseFlags (setM (fly s q n w (heldMask s d) 0 raw 0) d (BitVec.ofNat 1024 m)) { nv }))

/-- The positions of VMSK: every one with ALL, else those below vl that the predicate selects. -/
def vmskCount (s : State) (all : Bool) : Nat := if all then 1024 else s.me.vl
def vmskAct (s : State) (all : Bool) (p : Pred) (i : Nat) : Bool := all || selected s p i

/-- A mask operation on the masks a and b. -/
def vmsk (q : Q64) (d : MReg) (all : Bool) (p : Pred) (f : State → Nat → Bool) : State → Host.Outcome State Fault Refusal :=
  vecIssue noEarlyCheck [] [] [] fun s => do
    vecRoom s
    let n := vmskCount s all
    let m := mapMask (getM s d).toNat n (vmskAct s all p) (f s)
    .ok (.ok (setM (fly s q n 1 (heldMask s d) 0 0 0) d (BitVec.ofNat 1024 m)))

/-- A mask operation with a scalar result. -/
def vmskX (q : Q64) (d : Reg) (all : Bool) (p : Pred) (a : MReg) (f : List Nat → Word) : State → Host.Outcome State Fault Refusal :=
  vecIssue noEarlyCheck [] [] [.x d] fun s => do
    vecRoom s
    let hits := (List.range (vmskCount s all)).filter fun i => vmskAct s all p i && (getM s a).getLsbD i
    let n := vmskCount s all
    .ok (.ok (setXLate (fly s q n 1 (heldScalar s (.x d) n) 0 0 0) d (f hits) 2))

/-! ### Reductions (spec 08 R198, R199; 09 R215) -/

/-- One level of the tree: a node with one absent child passes the other. -/
def pairUp {α : Type} (f : α → α → α) : List (Option α) → List (Option α)
  | x :: y :: t => (match x, y with | some a, some b => some (f a b) | some a, none => some a | none, y => y) :: pairUp f t
  | l => l

/-- The root after `n` levels. -/
def treeRoot {α : Type} (f : α → α → α) : Nat → List (Option α) → Option α
  | 0, l => l.head?.getD none
  | n + 1, l => treeRoot f n (pairUp f l)

/-- A reduction: positions of va, absent where not active. -/
def reduce {α : Type} (s : State) (a : Reg) (p : Pred) (w : Nat) (leaf : Nat → Option α) (f : α → α → α) : Option α :=
  let c := s.me
  let v := getGroup s c.g a
  let n := vcount c w
  let vm := vlmaxOf c w
  treeRoot f (Nat.log2 vm) ((List.range vm).map fun i => if i < n && selected s p i then leaf (elem v w i) else none)

/-- Signalling NaNs among the active elements. -/
def anySnan (s : State) (a : Reg) (p : Pred) (t : Ty) : Bool :=
  let c := s.me
  let v := getGroup s c.g a
  (List.range (vcount c t.width)).any fun i => selected s p i && (valOf t (elem v t.width i)).isSnan

/-- A reduction instruction: `r` gives the register's value and the flags. -/
def vred (q : Q64) (early : Early) (a d : Reg) (t : Ty) (isF : Bool) (r : State → Nat × Fl) (after : Nat → State → State) :
    State → Host.Outcome State Fault Refusal :=
  vecIssue early [(1, a)] [.v a] [if isF then .f d else .x d] fun s => do
    vecRoom s
    let v := r s
    let turns := turnsOf s.me 4 5
    let n := vcount s.me t.width
    let s1 := after v.1 (raiseFlags (fly s q n t.width (heldScalar s (if isF then .f d else .x d) n) 0 0 0) v.2)
    .ok (.ok (if isF then setFLate s1 d (BitVec.ofNat 32 v.1) turns else setXLate s1 d (BitVec.ofNat 64 v.1) turns))

/-- An element converted exactly to FP32. -/
def toF32 (t : Ty) (x : Nat) : Nat := if t = .f32 then x else (roundFv fmt32 .rne (valOf t x)).1

/-- VREDSUM on floats: FP32 additions rounded at every node. -/
def sumFloat (s : State) (a : Reg) (p : Pred) (t : Ty) : Nat × Fl :=
  let rm := frmOf s
  let add (x y : Nat × Fl) : Nat × Fl :=
    let r := roundTo .f32 rm (Fv.add rm (decodeIeee fmt32 x.1) (decodeIeee fmt32 y.1))
    (r.1, Fl.or (Fl.or x.2 y.2) r.2)
  let root := (reduce s a p t.width (fun x => some (toF32 t x, Fl.none)) add).getD (0, .none)
  (root.1, Fl.or root.2 { nv := anySnan s a p t })

/-- VREDSUM on integers: the exact sum. -/
def sumInt (s : State) (a : Reg) (p : Pred) (t : Ty) : Nat :=
  wrapInt 64 ((reduce s a p t.width (fun x => some (intOf t x)) (· + ·)).getD 0)

/-- VREDMAX and VREDMIN on floats. -/
def extFloat (isMax : Bool) (s : State) (a : Reg) (p : Pred) (t : Ty) : Nat × Fl :=
  let root := (reduce s a p t.width some fun x y => (minmaxCode (fmtOf t) isMax x y).1).getD (infCode (fmtOf t) isMax)
  ((boxFrom t root).toNat, { nv := anySnan s a p t })

/-- VREDMAX and VREDMIN on integers. -/
def extInt (isMax : Bool) (s : State) (a : Reg) (p : Pred) (t : Ty) : Nat :=
  wrapInt 64 ((reduce s a p t.width (fun x => some (intOf t x)) fun x y => if isMax then max x y else min x y).getD
    (if isMax then intLo t else intHi t))

/-- The magnitude of VREDAMAX on floats, a code of the type: NaN elements are absent, and codes without sign order by value. -/
def magFloat (s : State) (a : Reg) (p : Pred) (t : Ty) : Nat :=
  (reduce s a p t.width (fun x => if (valOf t x).isNan then none else some (x % 2 ^ (t.width - 1))) max).getD 0

/-- VREDAMAX on integers. -/
def magInt (s : State) (a : Reg) (p : Pred) (t : Ty) : Nat :=
  (reduce s a p t.width (fun x => some (intOf t x).natAbs) max).getD 0

/-- Update a tmax register with a non-negative FP32 value (spec 08 R196). -/
def tmaxUp (s : State) (gid i : Nat) (v : W32) : State :=
  s.modGang gid fun g => { g with tmax := setAt g.tmax i (if ((g.tmax[i]?).getD 0).ult v then v else (g.tmax[i]?).getD 0) }

/-! ### Conversions (spec 08 R187 to R191; 09 R216 to R218) -/

/-- Convert one element: code, mask bit, flags. -/
def convElem (dst src : Ty) (rm : Rm) (x : Nat) : Nat × Bool × Fl :=
  match dst with
  | .e4m3 => satn .e4m3 (valOf src x)
  | .e5m2 => satn .e5m2 (valOf src x)
  | _ =>
    if dst.isInt then
      if src.isInt then
        let v := intOf src x
        let r := clampInt (intLo dst) (intHi dst) v
        (wrapInt dst.width r, false, { sat := r != v })
      else
        let r := toIntegral rm (intLo dst) (intHi dst) (valOf src x)
        (wrapInt dst.width r.1, false, r.2)
    else
      let r := roundFv (fmtOf dst) rm (valOf src x)
      (r.1, false, r.2)

/-- A conversion: elements of width `wd` from elements of width `ws`, and the mask bits it sets. -/
def vconv (q : Q64) (early : Early) (ws wd wide : Nat) (bv : Bool) (c : MReg) (f : State → Nat → Nat → Nat × Bool × Fl) :
    State → Host.Outcome State Fault Refusal :=
  vecIssue early ([(0, q.d), (1, q.a)] ++ if bv then [(2, q.b)] else []) ([.v q.a] ++ if bv then [.v q.b] else []) [.v q.d] fun s => do
    vecRoom s
    let g := s.me.g
    let n := vcount s.me wide
    let a := getGroup s g q.a
    let b := getGroup s g q.b
    let act := selected s q.p
    let h := f s
    let e (i : Nat) : Nat × Bool × Fl := h (elem a ws i) (elem b 32 i)
    let r := mapElems (getGroup s g q.d) wd n act fun i => ((e i).1, (e i).2.2)
    let m := mapMask (getM s c).toNat n act fun i => (e i).2.1 || (getM s c).getLsbD i
    .ok (.ok (raiseFlags (setM (setGroup (fly s q n wide (heldGroup s g wd q.d ++ heldMask s c) 0 0 0) g q.d r.1) c (BitVec.ofNat 1024 m)) r.2))

/-- The least E3M5 code whose value is at least M / 6, or 0xFF (spec 09 R218). -/
def autoScale (m : Mag) : Nat :=
  if m.m = 0 then 0
  else
    ((List.range 256).find? fun c =>
      match decodeE3M5 c with
      | .num _ g => Mag.cmp { g with m := 6 * g.m } m != .lt
      | _ => false).getD 0xFF

/-- The largest finite magnitude of a list of values. -/
def maxMagOf (l : List Fv) : Mag :=
  l.foldl (fun m v => match v with | .num _ g => if Mag.cmp g m = .gt then g else m | _ => m) ⟨0, 0, false⟩

/-- The quotient of a value by a positive scale, exact with a sticky bit. -/
def overScale (v : Fv) (d : Mag) : Fv :=
  match v with
  | .num n g => if g.m = 0 then v else .num n (Mag.div g d)
  | v => v

/-- One element of VQNT under scale code `sc`: code, mask bit, flags. -/
def quantElem (sc : Nat) (v : Fv) : Nat × Bool × Fl :=
  if sc = 0 then
    match v with
    | .nan _ => (0, true, { nv := true })
    | .inf _ => (0, true, { nx := true })
    | .num _ g => (0, false, { nx := g.m != 0 })
  else
    match decodeE3M5 sc with
    | .num _ d => satn .e2m1 (overScale v d)
    | _ => (0, false, .none)

end Sys2Proof.Machine
end

