-- ==== Sys2Proof/Machine/Vector.lean ====
section
/-! DEFINITION. The vector instructions that do not reach memory: arithmetic, compares, masks, permutes, moves, reductions,
conversions (spec 09 R209 to R218). -/

namespace Sys2Proof.Machine

/-! ### VINT -/

/-- vadd, modulo 2^w. -/
def execVintVadd (d a b : Reg) (xs : Bool) (p : Pred) (t : Ty) (s : State) : Host.Outcome State Fault Refusal :=
  vint 0x00 t p d a b xs (plain eAdd) s

/-- vsub. -/
def execVintVsub (d a b : Reg) (xs : Bool) (p : Pred) (t : Ty) (s : State) : Host.Outcome State Fault Refusal :=
  vint 0x01 t p d a b xs (plain eSub) s

/-- vmul, low bits. -/
def execVintVmul (d a b : Reg) (xs : Bool) (p : Pred) (t : Ty) (s : State) : Host.Outcome State Fault Refusal :=
  vint 0x02 t p d a b xs (plain eMul) s

/-- vmulh: high bits of the signed product. -/
def execVmulh (d a b : Reg) (xs : Bool) (p : Pred) (t : Ty) (s : State) : Host.Outcome State Fault Refusal :=
  vint 0x03 t p d a b xs (plain eMulh) s

/-- vmin, signed. -/
def execVintVmin (d a b : Reg) (xs : Bool) (p : Pred) (t : Ty) (s : State) : Host.Outcome State Fault Refusal :=
  vint 0x04 t p d a b xs (plain eMin) s

/-- vmax, signed. -/
def execVintVmax (d a b : Reg) (xs : Bool) (p : Pred) (t : Ty) (s : State) : Host.Outcome State Fault Refusal :=
  vint 0x05 t p d a b xs (plain eMax) s

/-- vminu. -/
def execVminu (d a b : Reg) (xs : Bool) (p : Pred) (t : Ty) (s : State) : Host.Outcome State Fault Refusal :=
  vint 0x06 t p d a b xs (plain eMinu) s

/-- vmaxu. -/
def execVmaxu (d a b : Reg) (xs : Bool) (p : Pred) (t : Ty) (s : State) : Host.Outcome State Fault Refusal :=
  vint 0x07 t p d a b xs (plain eMaxu) s

/-- vand. -/
def execVand (d a b : Reg) (xs : Bool) (p : Pred) (t : Ty) (s : State) : Host.Outcome State Fault Refusal :=
  vint 0x08 t p d a b xs (plain eAnd) s

/-- vor. -/
def execVor (d a b : Reg) (xs : Bool) (p : Pred) (t : Ty) (s : State) : Host.Outcome State Fault Refusal :=
  vint 0x09 t p d a b xs (plain eOr) s

/-- vxor. -/
def execVxor (d a b : Reg) (xs : Bool) (p : Pred) (t : Ty) (s : State) : Host.Outcome State Fault Refusal :=
  vint 0x0A t p d a b xs (plain eXor) s

/-- vsll, by b mod w. -/
def execVsll (d a b : Reg) (xs : Bool) (p : Pred) (t : Ty) (s : State) : Host.Outcome State Fault Refusal :=
  vint 0x0B t p d a b xs (plain eSll) s

/-- vsrl. -/
def execVsrl (d a b : Reg) (xs : Bool) (p : Pred) (t : Ty) (s : State) : Host.Outcome State Fault Refusal :=
  vint 0x0C t p d a b xs (plain eSrl) s

/-- vsra. -/
def execVsra (d a b : Reg) (xs : Bool) (p : Pred) (t : Ty) (s : State) : Host.Outcome State Fault Refusal :=
  vint 0x0D t p d a b xs (plain eSra) s

/-- vsadd, clamped with SAT. -/
def execVsadd (d a b : Reg) (xs : Bool) (p : Pred) (t : Ty) (s : State) : Host.Outcome State Fault Refusal :=
  vint 0x10 t p d a b xs (sat (· + ·)) s

/-- vssub. -/
def execVssub (d a b : Reg) (xs : Bool) (p : Pred) (t : Ty) (s : State) : Host.Outcome State Fault Refusal :=
  vint 0x11 t p d a b xs (sat (· - ·)) s

/-- vabs: the most negative value gives itself. -/
def execVintVabs (d a : Reg) (p : Pred) (t : Ty) (s : State) : Host.Outcome State Fault Refusal :=
  vintUn 0x0E t p d a eAbs s

/-- vneg. -/
def execVintVneg (d a : Reg) (p : Pred) (t : Ty) (s : State) : Host.Outcome State Fault Refusal :=
  vintUn 0x0F t p d a eNeg s

/-! ### VFLT -/

/-- vadd. -/
def execVfltVadd (d a b : Reg) (xs : Bool) (p : Pred) (t : Ty) (s : State) : Host.Outcome State Fault Refusal :=
  vflt 0x00 t p d a b 0 2 xs true (fl2 t fun rm x y => Fv.add rm x y) s

/-- vsub. -/
def execVfltVsub (d a b : Reg) (xs : Bool) (p : Pred) (t : Ty) (s : State) : Host.Outcome State Fault Refusal :=
  vflt 0x01 t p d a b 0 2 xs true (fl2 t fun rm x y => Fv.add rm x y.flip) s

/-- vmul. -/
def execVfltVmul (d a b : Reg) (xs : Bool) (p : Pred) (t : Ty) (s : State) : Host.Outcome State Fault Refusal :=
  vflt 0x02 t p d a b 0 2 xs true (fl2 t fun _ x y => Fv.mul x y) s

/-- vmin. -/
def execVfltVmin (d a b : Reg) (xs : Bool) (p : Pred) (t : Ty) (s : State) : Host.Outcome State Fault Refusal :=
  vflt 0x06 t p d a b 0 2 xs false (flMin t false) s

/-- vmax. -/
def execVfltVmax (d a b : Reg) (xs : Bool) (p : Pred) (t : Ty) (s : State) : Host.Outcome State Fault Refusal :=
  vflt 0x07 t p d a b 0 2 xs false (flMin t true) s

/-- vdiv. -/
def execVdiv (d a b : Reg) (xs : Bool) (p : Pred) (t : Ty) (s : State) : Host.Outcome State Fault Refusal :=
  vflt 0x0A t p d a b 0 2 xs true (fl2 t fun _ x y => Fv.div x y) s

/-- vsgnj. -/
def execVsgnj (d a b : Reg) (xs : Bool) (p : Pred) (t : Ty) (s : State) : Host.Outcome State Fault Refusal :=
  vflt 0x10 t p d a b 0 2 xs false (flSign t fun _ y => y) s

/-- vfma: a × b + c. -/
def execVfma (d a b c : Reg) (xs : Bool) (p : Pred) (t : Ty) (s : State) : Host.Outcome State Fault Refusal :=
  vflt 0x03 t p d a b c 3 xs true (fl3 t false false) s

/-- vfms: a × b − c. -/
def execVfms (d a b c : Reg) (xs : Bool) (p : Pred) (t : Ty) (s : State) : Host.Outcome State Fault Refusal :=
  vflt 0x04 t p d a b c 3 xs true (fl3 t false true) s

/-- vfnma: −(a × b) + c. -/
def execVfnma (d a b c : Reg) (xs : Bool) (p : Pred) (t : Ty) (s : State) : Host.Outcome State Fault Refusal :=
  vflt 0x05 t p d a b c 3 xs true (fl3 t true false) s

/-- vabs. -/
def execVfltVabs (d a : Reg) (p : Pred) (t : Ty) (s : State) : Host.Outcome State Fault Refusal :=
  vflt 0x08 t p d a 0 0 1 false false (flSign t fun _ _ => false) s

/-- vneg. -/
def execVfltVneg (d a : Reg) (p : Pred) (t : Ty) (s : State) : Host.Outcome State Fault Refusal :=
  vflt 0x09 t p d a 0 0 1 false false (flSign t fun x _ => !x) s

/-- vsqrt. -/
def execVsqrt (d a : Reg) (p : Pred) (t : Ty) (s : State) : Host.Outcome State Fault Refusal :=
  vflt 0x0B t p d a 0 0 1 false true (fl1 t Fv.sqrt) s

/-- vrcp. -/
def execVrcp (d a : Reg) (p : Pred) (t : Ty) (s : State) : Host.Outcome State Fault Refusal :=
  vflt 0x0C t p d a 0 0 1 false true (fl1 t Fv.rcp) s

/-- vrsqrt. -/
def execVrsqrt (d a : Reg) (p : Pred) (t : Ty) (s : State) : Host.Outcome State Fault Refusal :=
  vflt 0x0D t p d a 0 0 1 false true (fl1 t Fv.rsqrt) s

/-- vexp2. -/
def execVexp2 (d a : Reg) (p : Pred) (t : Ty) (s : State) : Host.Outcome State Fault Refusal :=
  vflt 0x0E t p d a 0 0 1 false true (fl1 t Fv.exp2) s

/-- vlog2. -/
def execVlog2 (d a : Reg) (p : Pred) (t : Ty) (s : State) : Host.Outcome State Fault Refusal :=
  vflt 0x0F t p d a 0 0 1 false true (fl1 t Fv.log2) s

/-! ### VCMP and VMSK -/

/-- vcmpeq. -/
def execVcmpeq (d : MReg) (a b : Reg) (xs : Bool) (p : Pred) (t : Ty) (s : State) : Host.Outcome State Fault Refusal :=
  vcmp 0 d a b xs p t (fun x y => x == y) (fun x y => Fv.eqv x y) false false s

/-- vcmpne. -/
def execVcmpne (d : MReg) (a b : Reg) (xs : Bool) (p : Pred) (t : Ty) (s : State) : Host.Outcome State Fault Refusal :=
  vcmp 1 d a b xs p t (fun x y => x != y) (fun x y => !Fv.eqv x y) true false s

/-- vcmplt. -/
def execVcmplt (d : MReg) (a b : Reg) (xs : Bool) (p : Pred) (t : Ty) (s : State) : Host.Outcome State Fault Refusal :=
  vcmp 2 d a b xs p t (fun x y => decide (x < y)) (fun x y => Fv.lt x y) false true s

/-- vcmple. -/
def execVcmple (d : MReg) (a b : Reg) (xs : Bool) (p : Pred) (t : Ty) (s : State) : Host.Outcome State Fault Refusal :=
  vcmp 3 d a b xs p t (fun x y => decide (x ≤ y)) (fun x y => !Fv.lt y x) false true s

/-- vcmpgt. -/
def execVcmpgt (d : MReg) (a b : Reg) (xs : Bool) (p : Pred) (t : Ty) (s : State) : Host.Outcome State Fault Refusal :=
  vcmp 4 d a b xs p t (fun x y => decide (y < x)) (fun x y => Fv.lt y x) false true s

/-- vcmpge. -/
def execVcmpge (d : MReg) (a b : Reg) (xs : Bool) (p : Pred) (t : Ty) (s : State) : Host.Outcome State Fault Refusal :=
  vcmp 5 d a b xs p t (fun x y => decide (y ≤ x)) (fun x y => !Fv.lt x y) false true s

/-- mand. -/
def execMand (d a b : MReg) (all : Bool) (p : Pred) (s : State) : Host.Outcome State Fault Refusal :=
  vmsk (qv 0x04 0x00 0 p (mreg d) (mreg a) (mreg b) 0 (immBit all)) d all p
    (fun s i => let x := (getM s a).getLsbD i; let y := (getM s b).getLsbD i; x && y) s

/-- mor. -/
def execMor (d a b : MReg) (all : Bool) (p : Pred) (s : State) : Host.Outcome State Fault Refusal :=
  vmsk (qv 0x04 0x01 0 p (mreg d) (mreg a) (mreg b) 0 (immBit all)) d all p
    (fun s i => let x := (getM s a).getLsbD i; let y := (getM s b).getLsbD i; x || y) s

/-- mxor. -/
def execMxor (d a b : MReg) (all : Bool) (p : Pred) (s : State) : Host.Outcome State Fault Refusal :=
  vmsk (qv 0x04 0x02 0 p (mreg d) (mreg a) (mreg b) 0 (immBit all)) d all p
    (fun s i => let x := (getM s a).getLsbD i; let y := (getM s b).getLsbD i; x != y) s

/-- mandn. -/
def execMandn (d a b : MReg) (all : Bool) (p : Pred) (s : State) : Host.Outcome State Fault Refusal :=
  vmsk (qv 0x04 0x03 0 p (mreg d) (mreg a) (mreg b) 0 (immBit all)) d all p
    (fun s i => let x := (getM s a).getLsbD i; let y := (getM s b).getLsbD i; x && !y) s

/-- mnot. -/
def execMnot (d a : MReg) (all : Bool) (p : Pred) (s : State) : Host.Outcome State Fault Refusal :=
  vmsk (qv 0x04 0x04 0 p (mreg d) (mreg a) 0 0 (immBit all)) d all p (fun s i => !(getM s a).getLsbD i) s

/-- mset. -/
def execMset (d : MReg) (all : Bool) (p : Pred) (s : State) : Host.Outcome State Fault Refusal :=
  vmsk (qv 0x04 0x07 0 p (mreg d) 0 0 0 (immBit all)) d all p (fun _ _ => true) s

/-- mclr. -/
def execMclr (d : MReg) (all : Bool) (p : Pred) (s : State) : Host.Outcome State Fault Refusal :=
  vmsk (qv 0x04 0x08 0 p (mreg d) 0 0 0 (immBit all)) d all p (fun _ _ => false) s

/-- mpop. -/
def execMpop (d : Reg) (a : MReg) (all : Bool) (p : Pred) (s : State) : Host.Outcome State Fault Refusal :=
  vmskX (qv 0x04 0x05 0 p d (mreg a) 0 0 (immBit all)) d all p a (fun l => BitVec.ofNat 64 l.length) s

/-- mfirst: −1 when there is none. -/
def execMfirst (d : Reg) (a : MReg) (all : Bool) (p : Pred) (s : State) : Host.Outcome State Fault Refusal :=
  vmskX (qv 0x04 0x06 0 p d (mreg a) 0 0 (immBit all)) d all p a
    (fun l => match l with | i :: _ => BitVec.ofNat 64 i | [] => BitVec.allOnes 64) s

/-! ### VPRM (spec 09 R214) -/

/-- A permute: element `i` of the destination is `f` of the sources as they all stood before, or undisturbed. -/
def permute (q : Q64) (t : Ty) (srcs : List Dst) (fields : List (Nat × Reg)) (f : State → Nat → Nat → Option Nat) : State → Host.Outcome State Fault Refusal :=
  vecIssue noEarlyCheck ((0, q.d) :: fields) srcs [.v q.d] fun s => do
    vecRoom s
    let w := t.width
    let g := s.me.g
    let n := vcount s.me w
    let old := getGroup s g q.d
    let h := f s
    let r := mapElems old w n (fun _ => true) fun i => ((h n i).getD (elem old w i), .none)
    .ok (.ok (setGroup (fly s q n w (heldGroup s g w q.d) (rawAt s srcs 0) (rawAt s srcs 1) 0) g q.d r.1))

/-- vslideup: a[i − s], undisturbed below s. -/
def execVslideup (d a b : Reg) (p : Pred) (t : Ty) (s : State) : Host.Outcome State Fault Refusal :=
  permute (qv 0x05 0x00 t.code p d a b 0 0) t [.v a, .x b] [(1, a)] (fun s =>
    let v := getGroup s s.me.g a
    let k := (getX s b).toNat
    fun _ i => if selected s p i && decide (k ≤ i) then some (elem v t.width (i - k)) else none) s

/-- vslidedn: a[i + s], 0 from VLMAX on. -/
def execVslidedn (d a b : Reg) (p : Pred) (t : Ty) (s : State) : Host.Outcome State Fault Refusal :=
  permute (qv 0x05 0x01 t.code p d a b 0 0) t [.v a, .x b] [(1, a)] (fun s =>
    let v := getGroup s s.me.g a
    let k := (getX s b).toNat
    let m := vlmaxOf s.me t.width
    fun _ i => if selected s p i then some (if i + k < m then elem v t.width (i + k) else 0) else none) s

/-- vbcast: the low bits of x[a]. -/
def execVbcast (d a : Reg) (p : Pred) (t : Ty) (s : State) : Host.Outcome State Fault Refusal :=
  permute (qv 0x05 0x02 t.code p d a 0 0 0) t [.x a] [] (fun s =>
    let v := (getX s a).toNat
    fun _ i => if selected s p i then some v else none) s

/-- vperm: a[b[i]], 0 for an index from VLMAX on. -/
def execVperm (d a b : Reg) (p : Pred) (t : Ty) (s : State) : Host.Outcome State Fault Refusal :=
  permute (qv 0x05 0x03 t.code p d a b 0 0) t [.v a, .v b] [(1, a), (2, b)] (fun s =>
    let v := getGroup s s.me.g a
    let y := getGroup s s.me.g b
    let m := vlmaxOf s.me t.width
    fun _ i => if selected s p i then some (let j := elem y t.width i; if j < m then elem v t.width j else 0) else none) s

/-- vsel: a[i] where the mask selects, else b[i]; no element is inactive. -/
def execVsel (d a b : Reg) (p : Pred) (t : Ty) (s : State) : Host.Outcome State Fault Refusal :=
  permute (qv 0x05 0x08 t.code p d a b 0 0) t [.v a, .v b] [(1, a), (2, b)] (fun s =>
    let v := getGroup s s.me.g a
    let y := getGroup s s.me.g b
    fun _ i => some (if selected s p i then elem v t.width i else elem y t.width i)) s

/-- vcompress: the active elements in ascending order; those from their count on are undisturbed. -/
def execVcompress (d a : Reg) (p : Pred) (t : Ty) (s : State) : Host.Outcome State Fault Refusal :=
  permute (qv 0x05 0x09 t.code p d a 0 0 0) t [.v a] [(1, a)] (fun s =>
    let v := getGroup s s.me.g a
    let on := (List.range (vcount s.me t.width)).filter (selected s p)
    fun _ i => (on[i]?).map (elem v t.width)) s

/-- vmv.xv: an element, sign-extended; 0 beyond VLMAX. -/
def execVmvXv (d a : Reg) (ix : BitVec 10) (t : Ty) (s : State) : Host.Outcome State Fault Refusal :=
  let q := qv 0x05 0x04 t.code Pred.all d a 0 0 ((0 : BitVec 6) ++ ix)
  vecIssue noEarlyCheck [(1, a)] [.v a] [.x d] (fun s => do
    vecRoom s
    let v := getGroup s s.me.g a
    let r := if ix.toNat < vlmaxOf s.me t.width then wrapInt 64 (signedOf t.width (elem v t.width ix.toNat)) else 0
    .ok (.ok (setXLate (fly s q 1 t.width (heldScalar s (.x d) 1) 0 0 0) d (BitVec.ofNat 64 r) 2))) s

/-- vmv.fv: an element, boxed when it has 16 bits; 0 beyond VLMAX. -/
def execVmvFv (d a : Reg) (ix : BitVec 10) (t : Ty) (s : State) : Host.Outcome State Fault Refusal :=
  let q := qv 0x05 0x06 t.code Pred.all d a 0 0 ((0 : BitVec 6) ++ ix)
  vecIssue noEarlyCheck [(1, a)] [.v a] [.f d] (fun s => do
    vecRoom s
    let v := getGroup s s.me.g a
    let r : W32 := if ix.toNat < vlmaxOf s.me t.width then boxFrom t (elem v t.width ix.toNat) else 0
    .ok (.ok (setFLate (fly s q 1 t.width (heldScalar s (.f d) 1) 0 0 0) d r 2))) s

/-- A move into one element. -/
def moveIn (q : Q64) (src : Dst) (t : Ty) (ix : Nat) (f : State → Nat) (raw : State → Word) : State → Host.Outcome State Fault Refusal :=
  vecIssue noEarlyCheck [(0, q.d)] [src] [.v q.d] fun s => do
    vecRoom s
    let g := s.me.g
    let s1 := fly s q 1 t.width (heldGroup s g t.width q.d) (raw s) 0 0
    .ok (.ok (if ix < vlmaxOf s.me t.width then setGroup s1 g q.d (putElem (getGroup s g q.d) t.width ix (f s)) else s1))

/-- vmv.vx. -/
def execVmvVx (d a : Reg) (ix : BitVec 10) (t : Ty) (s : State) : Host.Outcome State Fault Refusal :=
  moveIn (qv 0x05 0x05 t.code Pred.all d a 0 0 ((0 : BitVec 6) ++ ix)) (.x a) t ix.toNat (fun s => (getX s a).toNat) (fun s => getX s a) s

/-- vmv.vf. -/
def execVmvVf (d a : Reg) (ix : BitVec 10) (t : Ty) (s : State) : Host.Outcome State Fault Refusal :=
  moveIn (qv 0x05 0x07 t.code Pred.all d a 0 0 ((0 : BitVec 6) ++ ix)) (.f a) t ix.toNat (fun s => unboxTo t (getF s a))
    (fun s => (getF s a).setWidth 64) s

/-! ### VRED (spec 09 R215) -/

/-- vredsum. -/
def execVredsum (d a : Reg) (ix : BitVec 4) (p : Pred) (t : Ty) (s : State) : Host.Outcome State Fault Refusal :=
  let q := qv 0x06 0x00 t.code p d a 0 0 ((0 : BitVec 12) ++ ix)
  if t.isInt then vred q noEarlyCheck a d t false (fun s => (sumInt s a p t, .none)) (fun _ s => s) s
  else vred q (frmCheck q) a d t true (fun s => sumFloat s a p t) (fun _ s => s) s

/-- vredmax. -/
def execVredmax (d a : Reg) (ix : BitVec 4) (p : Pred) (t : Ty) (s : State) : Host.Outcome State Fault Refusal :=
  let q := qv 0x06 0x01 t.code p d a 0 0 ((0 : BitVec 12) ++ ix)
  if t.isInt then vred q noEarlyCheck a d t false (fun s => (extInt true s a p t, .none)) (fun _ s => s) s
  else vred q noEarlyCheck a d t true (fun s => extFloat true s a p t) (fun _ s => s) s

/-- vredmin. -/
def execVredmin (d a : Reg) (ix : BitVec 4) (p : Pred) (t : Ty) (s : State) : Host.Outcome State Fault Refusal :=
  let q := qv 0x06 0x02 t.code p d a 0 0 ((0 : BitVec 12) ++ ix)
  if t.isInt then vred q noEarlyCheck a d t false (fun s => (extInt false s a p t, .none)) (fun _ s => s) s
  else vred q noEarlyCheck a d t true (fun s => extFloat false s a p t) (fun _ s => s) s

/-- vredamax; with TM, a tmax register of the gang takes the FP32 value of its result. -/
def execVredamax (d a : Reg) (tm : Bool) (ix : BitVec 4) (p : Pred) (t : Ty) (s : State) : Host.Outcome State Fault Refusal :=
  let q := qv 0x06 0x03 t.code p d a 0 0 ((0 : BitVec 10) ++ BitVec.ofBool tm ++ (0 : BitVec 1) ++ ix)
  if t.isInt then vred q noEarlyCheck a d t false (fun s => (magInt s a p t, .none)) (fun _ s => s) s
  else vred q noEarlyCheck a d t true (fun s => ((boxFrom t (magFloat s a p t)).toNat, { nv := anySnan s a p t }))
    (fun v s => if tm then tmaxUp s s.me.gang ix.toNat (BitVec.ofNat 32 (toF32 t (if t = .f32 then v else v % 65536))) else s) s

/-! ### VCVT (spec 09 R216 to R218) -/

/-- vcvt. -/
def execVcvt (d a : Reg) (c : MReg) (p : Pred) (dst src : Ty) (s : State) : Host.Outcome State Fault Refusal :=
  let q := qv 0x07 0x00 dst.code p d a 0 (mreg c) ((0 : BitVec 11) ++ src.code)
  vconv q (if dst.isNarrow then noEarlyCheck else frmCheck q) src.width dst.width (max src.width dst.width) false c
    (fun s x _ => convElem dst src (frmOf s) x) s

/-- The destination of a stochastic rounding. -/
def srDest : Ty → SrDest
  | .bf16 => .bf16
  | .f16 => .f16
  | .e4m3 => .e4m3
  | _ => .e5m2

/-- vsrnd: the random field is the element of vb, a group of 32-bit elements. -/
def execVsrnd (d a b : Reg) (c : MReg) (w : BitVec 6) (p : Pred) (dst src : Ty) (s : State) : Host.Outcome State Fault Refusal :=
  let q := qv 0x07 0x01 dst.code p d a b (mreg c) ((0 : BitVec 5) ++ w ++ src.code)
  vconv q noEarlyCheck src.width dst.width 32 true c (fun _ x r => srnd (srDest dst) (fmtOf src) (valOf src x) r w.toNat) s

/-- vqnt: one FP4 block-vector in v(d) alone; elements the source group lacks count as +0. -/
def execVqnt (d a : Reg) (scale : Option Reg) (c : MReg) (src : Ty) (s : State) : Host.Outcome State Fault Refusal :=
  let q := match scale with
    | none => qv 0x07 0x02 Ty.e2m1.code Pred.all d a 0 (mreg c) ((0 : BitVec 4) ++ (1 : BitVec 1) ++ (0 : BitVec 6) ++ src.code)
    | some b => qv 0x07 0x02 Ty.e2m1.code Pred.all d a b (mreg c) ((0 : BitVec 11) ++ src.code)
  let fields := match scale with | none => [(0, d), (1, a)] | some b => [(0, d), (1, a), (2, b)]
  let srcs := match scale with | none => [Dst.v a] | some b => [Dst.v a, .v b]
  vecIssue noEarlyCheck fields srcs [.v d] (fun s => do
    vecRoom s
    let v := getGroup s s.me.g a
    let m := vlmaxOf s.me src.width
    let x (i : Nat) : Fv := if i < m then valOf src (elem v src.width i) else .zero
    let sc := (List.range 8).map fun j =>
      match scale with
      | none => autoScale (maxMagOf ((List.range 8).map fun e => x (8 * j + e)))
      | some b => elem (getV s b).toNat 8 j
    let rs := (List.range 64).map fun i => quantElem ((sc[i / 8]?).getD 0) (x i)
    let data := rs.foldr (fun r acc => acc * 16 + r.1) 0
    let scales := sc.foldr (fun b acc => acc * 256 + b) 0
    let mask := rs.foldr (fun r acc => acc * 2 + b2n r.2.1) 0
    let fl := rs.foldl (fun f r => Fl.or f r.2.2) Fl.none
    let old : List Held := [{ dst := .v d, width := 4, count := 64, val := (getV s d).toNat }, { dst := .v d, at_ := 256, width := 1, count := 64, val := (getV s d).toNat }]
    let s1 := setV (fly s q 64 src.width (old ++ heldMask s c) 0 0 0) d (BitVec.ofNat 1024 (data + scales * 2 ^ 256))
    .ok (.ok (raiseFlags (setM s1 c (getM s c ||| BitVec.ofNat 1024 mask)) fl))) s

end Sys2Proof.Machine
end

