-- ==== Sys2Proof/Machine/VecMem.lean ====
section
/-! DEFINITION. Vector loads and stores and the vector configuration (spec 09 R207, R208, R219 to R226; 18 R372). -/

namespace Sys2Proof.Machine

/-! ### Elements in memory (spec 09 R219, R220) -/

/-- The element at which an access starts: where a page or reply interrupted it, where a trap's record says, or 0; the record is
then cleared (spec 09 R220, 18 R372). -/
def startElem (s : State) : State × Nat :=
  let c := s.me
  if c.stage ≥ 2 then (s.modMe fun c => { c with vrecs := [] }, c.stage - 2)
  else
    let v := c.csr.vstart0.toNat
    if c.csr.vinflt = 1 && bit v 63 && bits v 47 32 == bits c.pc.toNat 17 2 then
      (s.modMe fun c => { c with vrecs := [], csr := { c.csr with vinflt := 0, vstart0 := 0 } }, bits v 10 0)
    else (s, 0)

/-- Where an element access ends the turn, the element it reached is kept for the next one. -/
def atElem {α : Type} (i : Nat) : Op α → Op α
  | .error (.park s w) => .error (.park (s.modMe fun c => { c with stage := i + 2 }) w)
  | r => r

/-- The reply that element `i` waited for. -/
def elemReply (s : State) (i : Nat) : Option Word := if s.me.stage = i + 2 then s.me.reply else none

/-- Load element `i`. -/
def loadElem (s : State) (ea : Word) (w i : Nat) (stride : Word) : Op (State × Nat) :=
  match elemReply s i with
  | some v => .ok (s.modMe fun c => { c with reply := none }, v.toNat)
  | none => atElem i do
    let (s, t) ← resolve s .vload ea w rRead w (some i) stride
    match t with
    | .key k => .ok (readSeen s k w)
    | .remote k => .error (waitRemote s k ea (.load w))
    | .host pa => .error (waitFabric s .host pa w ea .load)
    | .peer acc pa => .error (waitFabric s (.peer acc) pa w ea .load)
    | .window _ => .error (.trap s cACCESS_FAULT ea (some i))

/-- Store element `i`. -/
def storeElem (s : State) (ea : Word) (w i v : Nat) (stride : Word) : Op State := atElem i do
  let (s, t) ← resolve s .vstore ea w rWrite w (some i) stride
  .ok (storeTo s t ea (leBytes v w))

/-- Visit elements in ascending order. -/
def overElems (f : State → Nat → Op State) : List Nat → State → Op State
  | [], s => .ok s
  | i :: rest, s =>
    match f s i with
    | .ok s1 => overElems f rest s1
    | .error r => .error r

/-- The active elements from where the access starts. -/
def elemsFrom (s : State) (p : Pred) (n start : Nat) : List Nat := (List.range n).filter fun i => decide (start ≤ i) && selected s p i

/-- Element `i` of a load goes into its register of the group. -/
def vloadElem (d : Reg) (w : Nat) (ea : State → Nat → Word) (stride : State → Word) (s : State) (i : Nat) : Op State := do
  let (s, v) ← loadElem s (ea s i) (w / 8) i (stride s)
  let r : Reg := BitVec.ofNat 5 (d.toNat + i * w / 1024)
  .ok (setV s r (BitVec.ofNat 1024 (putElem (getV s r).toNat w (i % (1024 / w)) v)))

/-- Element `i` of a store, from the bits of its group; what it issued is noted. -/
def vstoreElem (data w : Nat) (ea : State → Nat → Word) (stride : State → Word) (s : State) (i : Nat) : Op State := do
  let a := ea s i
  let v := elem data w i
  let s1 ← storeElem s a (w / 8) i v (stride s)
  let e : VStore := { elem := i, post := if s1.nextId = s.nextId then 0 else s.nextId, ea := a, data := leBytes v (w / 8) }
  .ok (s1.modMe fun c => { c with access := c.access.map fun r => { r with stores := r.stores ++ [e] } })

/-- The cell begins a vector access of `n` elements, or goes on with it. -/
def beginAccess (s : State) (q : Q64) (n : Nat) (xa xb : Word) : State :=
  s.modMe fun c => { c with access := some (c.access.getD { enc := q.pack, pc := c.pc, idx := 0, count := n, xa, xb, xc := 0 }) }

/-- Its elements have all passed: it is in flight until the registers `waits` are full, or its elements performed (spec 09 R223, R225). -/
def flyAccess (s : State) (w : Nat) (waits : List Dst) : State :=
  match s.me.access with
  | some r =>
    flyWith s { cell := s.cur, gang := s.me.gang, enc := r.enc, pc := r.pc, count := r.count, step := 1024 / w, xa := r.xa, xb := r.xb, xc := 0
                stores := r.stores, waits }
  | none => s

/-- The registers of a group that hold one of the elements. -/
def groupTouched (g : Nat) (d : Reg) (w : Nat) (els : List Nat) : List Reg :=
  ((List.range (2 ^ g)).filter fun j => els.any fun i => i * w / 1024 == j).map fun j => BitVec.ofNat 5 (d.toNat + j)

/-- The registers of a group that hold one of the elements are empty until the result is written (spec 09 R221), and the load is in flight
until then. -/
def fillGroup (s : State) (g : Nat) (d : Reg) (w : Nat) (els : List Nat) : State :=
  let rs := groupTouched g d w els
  flyAccess (rs.foldl (fun s r => defer s (.v r) (getV s r).toNat) s) w (rs.map .v)

/-- A load writes its elements as it reaches them; once all have passed, each register of the group that holds one is empty until
the result is written (spec 09 R220, R221). -/
def vecLoad (q : Q64) (t : Ty) (srcs : List Dst) (fields : List (Nat × Reg)) (ea : State → Nat → Word) (stride : State → Word) :
    State → Host.Outcome State Fault Refusal :=
  vecIssue noEarlyCheck ((0, q.d) :: fields) srcs [.v q.d] fun s => do
    vecRoom s
    let w := t.width
    let n := vcount s.me w
    let (s, start) := startElem s
    let s := beginAccess s q n (rawAt s srcs 0) (rawAt s srcs 1)
    let s1 ← overElems (vloadElem q.d w ea stride) (elemsFrom s q.p n start) s
    .ok (.ok (fillGroup s1 s.me.g q.d w (elemsFrom s q.p n 0)))

/-- A store reads each element of vs when it reaches it (spec 09 R221). -/
def vecStore (q : Q64) (t : Ty) (srcs : List Dst) (fields : List (Nat × Reg)) (ea : State → Nat → Word) (stride : State → Word)
    (after : State → State) : State → Host.Outcome State Fault Refusal :=
  vecIssue noEarlyCheck (fields ++ [(3, q.c)]) (srcs ++ [.v q.c]) [] fun s => do
    vecRoom s
    let w := t.width
    let n := vcount s.me w
    let data := getGroup s s.me.g q.c
    let (s, start) := startElem s
    let s := beginAccess s q n (rawAt s srcs 0) (rawAt s srcs 1)
    let s1 ← overElems (vstoreElem data w ea stride) (elemsFrom s q.p n start) s
    .ok (.ok (after (flyAccess s1 w [])))

/-- EA of a unit-stride element. -/
def eaUnit (a : Reg) (imm : BitVec 16) (t : Ty) (s : State) (i : Nat) : Word :=
  getX s a + imm.signExtend 64 + BitVec.ofNat 64 (i * (t.width / 8))

/-- EA of a strided element. -/
def eaStride (a b : Reg) (imm : BitVec 16) (s : State) (i : Nat) : Word := getX s a + imm.signExtend 64 + BitVec.ofNat 64 i * getX s b

/-- EA of an element of rows of `n1`. -/
def ea2d (a b : Reg) (n1 : Nat) (s : State) (i : Nat) : Word :=
  let st := getX s b
  getX s a + BitVec.ofNat 64 (i % n1) * (st.extractLsb' 0 32).signExtend 64 + BitVec.ofNat 64 (i / n1) * (st.extractLsb' 32 32).signExtend 64

/-- EA of an indexed element. -/
def eaIndex (a b : Reg) (t : Ty) (s : State) (i : Nat) : Word :=
  getX s a + BitVec.ofNat 64 (elem (getGroup s s.me.g b) t.width i * (t.width / 8))

/-- The stride a fault record carries for a unit-stride access (spec 07 R170). -/
def unitStride (t : Ty) (_ : State) : Word := BitVec.ofNat 64 (t.width / 8)

/-- No stride to report. -/
def noStride (_ : State) : Word := 0

/-- vld. -/
def execVld (d a : Reg) (imm : BitVec 16) (p : Pred) (t : Ty) (s : State) : Host.Outcome State Fault Refusal :=
  vecLoad (qv 0x08 0x00 t.code p d a 0 0 imm) t [.x a] [] (eaUnit a imm t) (unitStride t) s

/-- vlds. -/
def execVlds (d a b : Reg) (imm : BitVec 16) (p : Pred) (t : Ty) (s : State) : Host.Outcome State Fault Refusal :=
  vecLoad (qv 0x08 0x01 t.code p d a b 0 imm) t [.x a, .x b] [] (eaStride a b imm) (fun s => getX s b) s

/-- vld2d. -/
def execVld2d (d a b : Reg) (n1m1 : BitVec 10) (p : Pred) (t : Ty) (s : State) : Host.Outcome State Fault Refusal :=
  vecLoad (qv 0x08 0x02 t.code p d a b 0 ((0 : BitVec 6) ++ n1m1)) t [.x a, .x b] [] (ea2d a b (n1m1.toNat + 1))
    (fun s => ((getX s b).extractLsb' 0 32).signExtend 64) s

/-- vldx. -/
def execVldx (d a b : Reg) (p : Pred) (t : Ty) (s : State) : Host.Outcome State Fault Refusal :=
  vecLoad (qv 0x08 0x03 t.code p d a b 0 0) t [.x a, .v b] [(2, b)] (eaIndex a b t) noStride s

/-- vst. -/
def execVst (c a : Reg) (imm : BitVec 16) (p : Pred) (t : Ty) (s : State) : Host.Outcome State Fault Refusal :=
  vecStore (qv 0x09 0x00 t.code p 0 a 0 c imm) t [.x a] [] (eaUnit a imm t) (unitStride t) id s

/-- vsts. -/
def execVsts (c a b : Reg) (imm : BitVec 16) (p : Pred) (t : Ty) (s : State) : Host.Outcome State Fault Refusal :=
  vecStore (qv 0x09 0x01 t.code p 0 a b c imm) t [.x a, .x b] [] (eaStride a b imm) (fun s => getX s b) id s

/-- The duplicate mask of a scatter: some higher active element has the same index (spec 09 R222). -/
def dupMask (s : State) (m : MReg) (b : Reg) (p : Pred) (t : Ty) : State :=
  let n := vcount s.me t.width
  let ix := getGroup s s.me.g b
  let act := selected s p
  let dup (i : Nat) : Bool := (List.range n).any fun j => decide (i < j) && act j && elem ix t.width j == elem ix t.width i
  setM s m (BitVec.ofNat 1024 (mapMask (getM s m).toNat n act dup))

/-- vstx: with equal indices the higher element is written last. -/
def execVstx (c a b : Reg) (dup : Option MReg) (p : Pred) (t : Ty) (s : State) : Host.Outcome State Fault Refusal :=
  let q := match dup with
    | none => qv 0x09 0x02 t.code p 0 a b c 0
    | some m => qv 0x09 0x02 t.code p (mreg m) a b c 1
  vecStore q t [.x a, .v b] [(2, b)] (eaIndex a b t) noStride
    (fun s => match dup with | some m => dupMask s m b p t | none => s) s

/-! ### Configuration (spec 09 R207, R208) -/

/-- Set the length and width. -/
def setLen (s : State) (t : Ty) (n : Nat) : State := s.modMe fun c => { c with sew := t.width, vl := n }

/-- vsetvl. -/
def execVsetvl (d a : Reg) (t : Ty) (s : State) : Host.Outcome State Fault Refusal :=
  issue 8 noEarlyCheck [.x a] [.x d] (fun s =>
    let n := min (getX s a).toNat (vlmaxOf s.me t.width)
    .ok (setX (setLen s t n) d (BitVec.ofNat 64 n))) s

/-- Read a signal word with acquire: its value and the key its waiters are known by (spec 09 R207, 14 R316). The window block takes no such
read (07 R164). -/
def signalRead (s : State) (ea : Word) (sc : Scope) : Op (State × Nat × Nat) := do
  let (s, t) ← resolve s .load ea 8 rRead 8
  let got := s.me.reply
  let s1 := s.modMe fun c => { c with reply := none, stage := 0 }
  match t with
  | .key k => let s := (drainOwn s1 k 8).acquire s.cur k 8 sc; .ok (s, s.readNat k 8, k)
  | .window _ => .error (.trap s cACCESS_FAULT ea)
  | .remote k =>
    match got with
    | some v => .ok (s1, v.toNat, k)
    | none => .error (waitRemote s1 k ea (.load 8) { acq := true, sc })
  | .host pa =>
    match got with
    | some v => .ok (s1, v.toNat, 2 ^ 62 + pa)
    | none => .error (waitFabric s1 .host pa 8 ea .load (some sc))
  | .peer acc pa =>
    match got with
    | some v => .ok (s1, v.toNat, peerKey acc pa)
    | none => .error (waitFabric s1 (.peer acc) pa 8 ea .load (some sc))

/-- vsetvlw. -/
def execVsetvlw (d a b c : Reg) (limit : BitVec 15) (full : Bool) (t : Ty) (s : State) : Host.Outcome State Fault Refusal :=
  issue 8 noEarlyCheck [.x a, .x b, .x c] [.x d] (fun s =>
    if getX s a = 0 then .ok (setX (setLen s t 0) d 0)
    else Op.res do
      let ea := getX s b
      let want := min (getX s a).toNat (vlmaxOf s.me t.width)
      let (s, w, key) ← signalRead s ea .pkg
      let avail : Int := signedOf 64 w - (getX s c).toInt
      if (if full then avail ≥ want else avail > 0) then
        let n := min want avail.toNat
        .ok (.ok (defer (setLen s t n) (.x d) n))
      else if limitOver s (limitUs limit.toNat) then .error (.trap s cWAIT_LIMIT ea)
      else .error (.park (setLimit s (limitUs limit.toNat) ea) (.signal key true))) s

/-- A file of vector registers whose every bit is zero or some bit the file held, by a free choice (spec 09 R208; log 9). -/
def scramble (draw : Nat) (v : Vector VReg 32) : Vector VReg 32 :=
  let old (n : Nat) : Bool := ((v.toList[n / 1024]?).getD 0).getLsbD (n % 1024)
  let pick (r b : Nat) : Bool := match Config.vgrpBit draw r b with | 0 => false | n + 1 => old (n % 32768)
  Vector.ofFn fun r => BitVec.ofNat 1024 ((List.range 1024).foldr (fun b acc => acc * 2 + b2n (pick r.val b)) 0)

/-- vgrp: it waits for the cell's vector instructions; vl becomes 0, and a new grouping leaves the registers unspecified. -/
def execVgrp (g : BitVec 2) (s : State) : Host.Outcome State Fault Refusal :=
  issue 8 noEarlyCheck [] [] (fun s =>
    if vecBusy s s.cur then .park s .vector
    else if g.toNat = s.me.g then .ok (s.modMe fun c => { c with vl := 0 })
    else .ok (s.modMe fun c => { c with vl := 0, g := g.toNat, v := scramble s.freeCtr c.v })) s

end Sys2Proof.Machine
end

