-- ==== Sys2Proof/Machine/Mat.lean ====
section
/-! DEFINITION. The matrix unit's shared operations: tiles, operands, the arithmetic of a step, the lease and the unit
(spec 08 R182 to R185; 11 R249 to R270). -/

namespace Sys2Proof.Machine

/-! ### Tiles (spec 11 R249) -/

/-- `n` words from key `k` on of a table whose keys below `k` are gone. -/
def denseFrom : Tab W32 → Nat → Nat → List W32
  | _, _, 0 => []
  | [], k, n + 1 => 0 :: denseFrom [] (k + 1) n
  | (k', v) :: t, k, n + 1 => if k' = k then v :: denseFrom t (k + 1) n else 0 :: denseFrom ((k', v) :: t) (k + 1) n

/-- The 4,096 words of a tile, row by row. -/
def tileWords (t : Tab W32) (tile : Nat) : List W32 := denseFrom (t.filter fun e => decide (tile * 4096 ≤ e.1)) (tile * 4096) 4096

/-- The words of a list that are not zero, from a key on. -/
def sparseFrom : Nat → List W32 → Tab W32
  | _, [] => []
  | k, v :: l => if v = 0 then sparseFrom (k + 1) l else (k, v) :: sparseFrom (k + 1) l

/-- Replace a tile's words. -/
def putTile (t : Tab W32) (tile : Nat) (l : List W32) : Tab W32 :=
  (t.filter fun e => decide (e.1 < tile * 4096)) ++ sparseFrom (tile * 4096) (l.take 4096)
    ++ t.filter fun e => decide (tile * 4096 + 4096 ≤ e.1)

/-- A row of a tile's words. -/
def rowOf (l : List W32) (i : Nat) : List W32 := (l.drop (64 * i)).take 64

/-- Rows and columns that a mask of 128 bits selects; without a mask register all (spec 11 R257). -/
def rowOn (k : BitVec 3) (n : Bool) (mask i : Nat) : Bool := k == 0 || bit mask i != n
def colOn (k : BitVec 3) (n : Bool) (mask j : Nat) : Bool := k == 0 || bit mask (64 + j) != n

/-- The 128 mask bits an instruction uses. -/
def maskBits (s : State) (k : BitVec 3) : Nat := if k = 0 then 0 else (getM s k).toNat % 2 ^ 128

/-! ### Operands (spec 05 R126; 08 R182, R183; 11 R258) -/

/-- The types of a pair's A and B sides. -/
def pairTypes : Pair → Ty × Ty
  | .bf16bf16 => (.bf16, .bf16) | .f16f16 => (.f16, .f16) | .e4m3e4m3 => (.e4m3, .e4m3) | .e4m3e5m2 => (.e4m3, .e5m2)
  | .e5m2e4m3 => (.e5m2, .e4m3) | .e5m2e5m2 => (.e5m2, .e5m2) | .e4m3e2m1 => (.e4m3, .e2m1) | .e5m2e2m1 => (.e5m2, .e2m1)
  | .bf16e2m1 => (.bf16, .e2m1) | .e2m1e2m1 => (.e2m1, .e2m1) | .i8i8 => (.i8, .i8) | .ui8i8 => (.ui8, .i8) | .f32f32 => (.f32, .f32)

/-- An integer pair. -/
def pairInt : Pair → Bool
  | .i8i8 | .ui8i8 => true
  | _ => false

/-- Data bytes of a row of one side. -/
def rowBytes (t : Ty) : Nat := 64 * t.width / 8

/-- Scale bytes of a row of one side. -/
def scaleBytes (t : Ty) : Nat := if t = .e2m1 then 8 else 0

/-- An exact product as an operand: one that is invalid acts as a signalling NaN, so that every use sets NV. -/
def scaled (v w : Fv) : Fv :=
  let r := Fv.mul v w
  if r.2.nv then .nan true else r.1

/-- The elements of a row of one side: none for an element of a block whose scale is zero (spec 08 R183). -/
def decodeRow (t : Ty) (d : List Byte) (band : Option Fv) : List (Option Fv) :=
  let v := leNat (d.take (rowBytes t))
  (List.range 64).map fun i =>
    if t = .e2m1 then
      let sc := ((d[32 + i / 8]?).getD 0).toNat
      if sc = 0 then none
      else
        let x := scaled (decodeE2M1 (elem v 4 i)) (decodeE3M5 sc)
        some (match band with | some b => scaled x b | none => x)
    else some (valOf t (elem v t.width i))

/-- The band scale in an f register (spec 08 R183). -/
def bandOf (fc : W32) : Fv := decodeIeee fmtBf (unboxBf fc)

/-! ### A step (spec 08 R185, 11 R262, R263) -/

/-- The accumulation of one product into one word. -/
def accumulate (int : Bool) (a b : Option Fv) (acc : W32) : W32 × Fl :=
  let p := match a, b with
    | some x, some y => Fv.mul x y
    | _, _ => (.zero, .none)
  if int then
    let q : Int := match p.1 with | .num n g => Mag.scaled n g 0 | _ => 0
    let v := acc.toInt + q
    let r := clampInt (-2 ^ 31) (2 ^ 31 - 1) v
    (BitVec.ofInt 32 r, { sat := r != v })
  else
    let sum := Fv.add .rne (val32 acc) p.1
    let r := roundFv fmt32 .rne sum.1
    (BitVec.ofNat 32 r.1, Fl.or (Fl.or p.2 sum.2) r.2)

/-- A row of a step: its new words and flags. -/
def stepRow (int : Bool) (a : Option Fv) (bs : List (Option Fv)) (on : Nat → Bool) (row : List W32) : List W32 × Fl :=
  ((row.zip bs).zipIdx).foldr (fun e acc =>
    if on e.2 then
      let r := accumulate int a e.1.2 e.1.1
      (r.1 :: acc.1, Fl.or r.2 acc.2)
    else (e.1.1 :: acc.1, acc.2)) ([], .none)

/-- The flags that stop a held instruction: NV under NVE, OF under OFE (spec 11 R263). -/
def heldFlags (qfcsr : Word) (f : Fl) : Fl := { nv := f.nv && qfcsr.getLsbD 16, of := f.of && qfcsr.getLsbD 18 }

/-- A held flag is raised. -/
def stops (f : Fl) : Bool := f.nv || f.of

/-- The rows of a step from `i` on, `n` of them: the words so far, the flags of the rows applied, and the offending row with its
flags, if any. -/
def stepRows (int held : Bool) (qfcsr : Word) (as bs : List (Option Fv)) (rows cols : Nat → Bool) :
    Nat → Nat → List W32 → Fl → List W32 × Fl × Option (Nat × Fl)
  | 0, _, l, f => (l, f, none)
  | n + 1, i, l, f =>
    if rows i then
      let r := stepRow int ((as[i]?).getD none) bs cols (rowOf l i)
      let h := heldFlags qfcsr r.2
      if held && stops h then (l, f, some (i, h))
      else stepRows int held qfcsr as bs rows cols n (i + 1) (l.take (64 * i) ++ r.1 ++ l.drop (64 * i + 64)) (Fl.or f r.2)
    else stepRows int held qfcsr as bs rows cols n (i + 1) l f

/-- One step from row `i0`. -/
def applyStep (pair : Pair) (held : Bool) (qfcsr : Word) (k : BitVec 3) (n : Bool) (mask : Nat) (band : Fv) (aRow bRow : List Byte) (i0 : Nat)
    (l : List W32) : List W32 × Fl × Option (Nat × Fl) :=
  let (ta, tb) := pairTypes pair
  let as := decodeRow ta aRow none
  let bs := decodeRow tb bRow (if pair.banded then some band else none)
  stepRows (pairInt pair) held qfcsr as bs (rowOn k n mask) (colOn k n mask) (64 - i0) i0 l .none

/-! ### Shape, the lease and the unit (spec 11 R250 to R253) -/

/-- MATRIX_SHAPE's tval. -/
def shapeVal (code detail : Nat) : Word := BitVec.ofNat 64 (code + 256 * detail)

/-- The tile is declared (spec 11 R250). -/
def tileCheck (t : Tile) : Early := fun s =>
  if bit s.myGang.hdr.accm t.toNat then none else some (cMATRIX_SHAPE, shapeVal 1 t.toNat)

/-- Some tile is declared. -/
def anyTile : Early := fun s => if s.myGang.hdr.accm = 0 then some (cMATRIX_SHAPE, shapeVal 1 0xFF) else none

/-- The unit holds an instruction of a gang. -/
def unitOf (k : Core) (gid : Nat) : Bool :=
  match k.unit with
  | some u => u.gang == gid
  | none => false

/-- The holder loses the lease when QLEFT is 0, the wait list is not empty and the unit holds none of its instructions
(spec 11 R253). -/
def expireLease (k : Core) : Core :=
  match k.holder with
  | some h => if k.qleft = 0 && !k.leaseQ.isEmpty && !unitOf k h then { k with holder := none } else k
  | none => k

/-- Where the context block of a gang lies on its die (spec 18 R383; log 15). -/
def contextKey (g : Gang) (gid : Nat) : Nat := dieOf g.core * 2 ^ 37 + Config.contextAt gid % 2 ^ 37

/-- The context block in use: where it was written last, or else where it lies on the gang's die. -/
def blockKey (g : Gang) (gid : Nat) : Nat := g.block.getD (contextKey g gid)

/-- GSTATE (spec 18 R385). -/
def gstate (g : Gang) : Nat :=
  g.hdr.accm + 16 * g.imgv.toNat + 2 ^ 8 * g.hdr.cells + 2 ^ 12 * g.hdr.hoq + 2 ^ 16 * g.hdr.lsu
    + 2 ^ 24 * (g.saved.map (·.copies.length)).getD 0 + 2 ^ 32 * b2n g.mrec.isSome

/-- Tile images in the block of a gang; the LS follows the fourth. -/
def tileAt (g : Gang) (t : Nat) : Nat := 8192 * (g.hdr.cells + 1) + 16384 * t

/-- The image of a tile's words. -/
def tileImage (l : List W32) : List Byte := l.flatMap fun w => leBytes w.toNat 4

/-- The words of a byte string. -/
def wordsOf : List Byte → List W32
  | a :: b :: c :: d :: t => BitVec.ofNat 32 (leNat [a, b, c, d]) :: wordsOf t
  | _ => []

/-- Write the dirty tiles of an occupant to their images in its context block, with GSTATE where the block is that of a saved gang: it stops
being occupant (spec 11 R252 step 1; 18 R383, R385). -/
def evict (s : State) (core : Nat) : State :=
  let k := s.core core
  match k.occupant with
  | some o =>
    let g := s.gang o
    let key := blockKey g o
    let dirty := (List.range 4).filter fun t => g.dirty.getLsbD t
    let g1 : Gang := { g with imgv := g.imgv ||| g.dirty, dirty := 0, block := if dirty.isEmpty then g.block else some key }
    let s1 := dirty.foldl (fun s t => s.writeBlock (key + tileAt g t) (tileImage (tileWords k.tiles t))) (s.modGang o fun _ => g1)
    let s2 := if g.saved.isSome && !dirty.isEmpty then s1.writeBlock key (leBytes (gstate g1) 8) else s1
    s2.modCore core fun k => { k with occupant := none, tiles := [] }
  | none => s

/-- The tiles that a gang declares and has images of. -/
def imagesOf (g : Gang) : List Nat := (List.range 4).filter fun t => bit g.hdr.accm t && g.imgv.getLsbD t

/-- A refused line in the images that a gang's acquisition loads (spec 18 R389). -/
def imageRefused (s : State) (core gid : Nat) : Option Nat :=
  let g := s.gang gid
  if (s.core core).occupant == some gid then none
  else (imagesOf g).findSome? fun t => s.refusedIn (blockKey g gid + tileAt g t) 16384

/-- A gang becomes occupant: each tile it declares is loaded from its image, or zero (spec 11 R252 step 2). -/
def occupy (s : State) (core gid : Nat) : State :=
  let g := s.gang gid
  let tiles := (imagesOf g).foldl (fun ts t => putTile ts t (wordsOf (s.span (blockKey g gid + tileAt g t) 16384))) []
  s.modCore core fun k => { k with occupant := some gid, tiles }

/-- The restore of a gang's context block meets a refused line (spec 18 R389, R393). -/
def blockRefused (s : State) (gid pa : Nat) : State :=
  let l := s.launch (s.gang gid).launch
  killFor (refusalReport s l.part pa l.hdr.crec) gid 0x81 (dataErr 12 0 pa) noCell

/-- A gang acquires the free lease with a quantum (spec 11 R252 step 3). -/
def acquire (s : State) (core gid quantum : Nat) : State :=
  let s1 := if (s.core core).occupant == some gid then s else occupy (evict s core) core gid
  s1.modCore core fun k => { k with holder := some gid, qleft := quantum, leaseQ := removeNat k.leaseQ gid }

/-- The cells of a gang that were parked on the lease become waiting (spec 11 R252 step 4). -/
def wakeLease (s : State) (gid : Nat) : State := wakeWhere s fun c w => w == .lease && (s.gang gid).cells.contains c

/-- An instruction that needs the lease has passed its checks (spec 11 R252): its gang holds the lease, or acquires it here where no
tile has to move, or the cell parks and its gang joins the wait list. While the gang has a matrix record, which goes before its other
instructions (R270), the cell parks. -/
def needLease (s : State) : Op State :=
  let gid := s.me.gang
  let core := s.myGang.core
  let s := s.modCore core expireLease
  let k := s.core core
  if s.myGang.mrec.isSome then .error (.park s .lease)
  else if k.holder == some gid then .ok s
  else if k.holder.isNone && k.occupant == some gid && (k.leaseQ.isEmpty || k.leaseQ.head? == some gid) then
    .ok (wakeLease (acquire s core gid s.me.csr.leaseq.toNat) gid)
  else
    .error (.park (s.modCore core fun k => if k.leaseQ.contains gid then k else { k with leaseQ := k.leaseQ ++ [gid] }) .lease)

/-- The unit is free, or the turn is spent (spec 06 R134, 11 R279). -/
def matRoom (s : State) : Op Unit := if (s.core s.myGang.core).unit.isSome then .error (.spent s) else .ok ()

/-- The unit takes an instruction that has had its effect. -/
def useUnit (s : State) (counts : Bool) : State :=
  s.modCore s.myGang.core fun k => { k with unit := some { cell := s.cur, gang := s.me.gang, counts, consumed := true } }

/-- The unit takes an MRSTR, which has read its words as they stand now (spec 18 R377). -/
def loadUnit (s : State) (tile key : Nat) : State :=
  s.modCore s.myGang.core fun k =>
    { k with unit := some { cell := s.cur, gang := s.me.gang, consumed := true, stamp := s.stamp, load := some (tile, key) } }

/-- The words of a tile of the occupant. -/
def readTile (s : State) (core tile : Nat) : List W32 := tileWords (s.core core).tiles tile

/-- Write a tile of the gang that occupies a core, setting its DIRTY bit. -/
def writeTile (s : State) (core gid tile : Nat) (l : List W32) : State :=
  (s.modCore core fun k => { k with tiles := putTile k.tiles tile l }).modGang gid fun g => { g with dirty := g.dirty ||| BitVec.ofNat 4 (2 ^ tile) }

/-! ### Resume points (spec 11 R264) -/

/-- The resume point of a matrix instruction of `steps` steps, and whether mstate names one. -/
def resumePoint (s : State) (steps : Nat) : Op (Nat × Nat × Bool) :=
  let c := s.me
  let m := c.csr.mstate.toNat
  if bit m 63 && bits m 47 32 == bits c.pc.toNat 17 2 then
    if bits m 27 16 ≥ steps then .error (.trap s cMATRIX_SHAPE (shapeVal 3 0)) else .ok (bits m 27 16, bits m 5 0, true)
  else .ok (0, 0, false)

/-- Clear mstate.V. -/
def clearResume (s : State) (hit : Bool) : State :=
  if hit then s.modMe fun c => { c with csr := { c.csr with mstate := c.csr.mstate &&& ~~~(1#64 <<< 63) } } else s

/-- mstate of an offending row. -/
def stopPoint (pc : Word) (step row : Nat) : Word := BitVec.ofNat 64 (2 ^ 63 + bits pc.toNat 17 2 * 2 ^ 32 + step * 65536 + row)

/-- Set flags in a cell's qfcsr. -/
def flagCell (s : State) (cid : Nat) (f : Fl) : State := s.modCell cid fun c => { c with csr := { c.csr with qfcsr := orFlags c.csr.qfcsr f } }

/-- The cell's matrix instructions are held (spec 11 R263). -/
def isHeld (c : Cell) : Bool := c.csr.qfcsr.getLsbD 16 || c.csr.qfcsr.getLsbD 18

/-- The cause of a stop. -/
def stopCause (f : Fl) : Nat := if f.nv then cFP_INVALID else cFP_OVERFLOW

/-! ### MOPA's operands in memory (spec 11 R260, R261) -/

/-- SOFF, TP, ROT and RP of an operand register. -/
def opSoff (w : Word) : Nat := bits w.toNat 63 44
def opTp (w : Word) : Nat := bits w.toNat 43 20
def opRot (w : Word) : Nat := bits w.toNat 19 16
def opRp (w : Word) : Nat := bits w.toNat 15 0

/-- The contiguous pieces of step `k`'s row, in data order: effective address and length. -/
def sideRowPieces (base desc : Word) (len k : Nat) : List (Word × Nat) :=
  let ea := base + BitVec.ofNat 64 (k / 64 * opTp desc + k % 64 * opRp desc)
  let g := opRp desc / 64
  let n := (len + 63) / 64
  if opRot desc = 0 || g < n then [(ea, len)]
  else (List.range n).map fun j => (ea + BitVec.ofNat 64 (64 * ((j + k * opRot desc) % g)), min 64 (len - 64 * j))

/-- The effective address of step `k`'s scales. -/
def scaleEa (base desc : Word) (k : Nat) : Word := base + BitVec.ofNat 64 (opSoff desc * 64 + 8 * k)

/-- Every byte of a piece passes the segment check, or the first that fails traps. -/
def checkPiece (s : State) (ea : Word) (n need : Nat) : Op Unit :=
  match segCheck s.myGang ea n need with
  | .ok _ => .ok ()
  | .error _ =>
    match (List.range n).findSome? fun i =>
      (match segCheck s.myGang (ea + BitVec.ofNat 64 i) 1 need with | .error t => some t | .ok _ => none) with
    | some t => .error (.trap s t.1 t.2)
    | none => .ok ()

/-- Check a list of pieces in order. -/
def checkPieces (s : State) (need : Nat) : List (Word × Nat) → Op Unit
  | [] => .ok ()
  | p :: rest =>
    match checkPiece s p.1 p.2 need with
    | .ok _ => checkPieces s need rest
    | .error r => .error r

/-- The pieces a side reads over its steps: data, then scales. -/
def sidePieces (t : Ty) (base desc : Word) (steps : Nat) : List (Word × Nat) :=
  (List.range steps).flatMap (sideRowPieces base desc (rowBytes t))
    ++ if t = .e2m1 then (List.range steps).map fun k => (scaleEa base desc k, 8) else []

/-- The key of an effective address in seg6 or seg7 of a gang (spec 18 R387). -/
def ownKey (g : Gang) (ea : Word) : Nat :=
  let o := bits ea.toNat 60 0
  if bits ea.toNat 63 61 = 7 then lsKey g.core (g.lsBase * 4096 + o) else hspKey (hiveOf g.core) o

/-- Bytes of one operand element: an e2m1 element's byte, or one scale byte (spec 11 R269). -/
def elemBytes (t : Ty) : Nat := max 1 (t.width / 8)

/-- Operand bytes of step `k` as the unit reads them: where a write has touched them since number `since`, each element of `size` bytes is
read as it stood at some moment since then, by a free choice of its own (spec 11 R269; log 10). -/
def operandBytes (s : State) (draw since k size key n : Nat) : List Byte :=
  if (s.writesAfter since key n).isEmpty then s.read key n
  else (List.range (n / size)).flatMap fun i =>
    let a := key + i * size
    s.readAt (since + Config.operandTime draw (a * 4096 + k) % (s.stamp + 1 - since)) a size

/-- The bytes of one step's row of one side: data, then scales. -/
def sideRow (s : State) (draw since : Nat) (g : Gang) (t : Ty) (base desc : Word) (k : Nat) : List Byte :=
  (sideRowPieces base desc (rowBytes t) k).flatMap (fun p => operandBytes s draw since k (elemBytes t) (ownKey g p.1) p.2)
    ++ if t = .e2m1 then operandBytes s draw since k 1 (ownKey g (scaleEa base desc k)) 8 else []

/-- The rows of steps `from_` to `steps - 1`. -/
def readRows (s : State) (draw since : Nat) (g : Gang) (t : Ty) (base desc : Word) (from_ steps : Nat) : List Byte :=
  (range from_ (steps - from_)).flatMap (sideRow s draw since g t base desc)

/-- The steps of a MOPA from `k` on, `n` of them: tile words, flags, and the stop with its step, row and flags. -/
def mopaSteps (pair : Pair) (held : Bool) (qfcsr : Word) (m : BitVec 3) (neg : Bool) (mask : Nat) (band : Fv) (la lb : Nat) :
    Nat → Nat → Nat → List Byte → List Byte → List W32 → Fl → List W32 × Fl × Option (Nat × Nat × Fl)
  | 0, _, _, _, _, l, f => (l, f, none)
  | n + 1, k, i0, a, b, l, f =>
    match applyStep pair held qfcsr m neg mask band (a.take la) (b.take lb) i0 l with
    | (l1, f1, some (i, h)) => (l1, Fl.or f f1, some (k, i, h))
    | (l1, f1, none) => mopaSteps pair held qfcsr m neg mask band la lb n (k + 1) 0 (a.drop la) (b.drop lb) l1 (Fl.or f f1)

/-- The pair, tile and step count that a MOPA's encoding holds. -/
def mopaPair (q : Q64) : Pair := (Pair.ofCode q.t).getD .f32f32
def mopaTile (q : Q64) : Nat := (Q64.tOf q.d).toNat
def mopaCount (q : Q64) : Nat := q.imm.toNat % 4096 + 1

/-- Apply the steps of the MOPA in a core's unit up to `upto`: the state, and a stop with its step, row and flags. -/
def runMopa (s : State) (core upto : Nat) (u : MUnit) (r : MatRec) : State × Option (Nat × Nat × Fl) :=
  let q := Q64.unpack r.enc
  let pair := mopaPair q
  let (ta, tb) := pairTypes pair
  let g := s.gang u.gang
  let n := min upto (mopaCount q) - r.step
  let a := readRows s (2 * s.freeCtr) u.stamp g ta r.xa r.xa1 r.step (r.step + n)
  let b := readRows s (2 * s.freeCtr + 1) u.stamp g tb r.xb r.xb1 r.step (r.step + n)
  let t := mopaTile q
  let res := mopaSteps pair r.held (s.cell u.cell).csr.qfcsr q.k q.n r.mask (bandOf r.fc) (rowBytes ta + scaleBytes ta)
    (rowBytes tb + scaleBytes tb) n r.step u.row a b (readTile s core t) .none
  (flagCell (writeTile { s with freeCtr := s.freeCtr + 1 } core u.gang t res.1) u.cell res.2.1, res.2.2)

/-- Put a MOPA into the unit. -/
def startMopa (s : State) (core : Nat) (cid gid : Nat) (r : MatRec) (row : Nat) (ocs : Option Nat) : State :=
  let s1 := s.modCore core fun c => { c with unit := some { cell := cid, gang := gid, mopa := some r, row, ocs, mark := s.nextId, stamp := s.stamp } }
  { s1 with nextId := s.nextId + 1 }

/-- A matrix instruction stops at a step and row with a cause: mstate names the place, and it traps (spec 11 R263). -/
def matrixTrap (s : State) (cid cause : Nat) (pc : Word) (step row : Nat) (tval : Word) : State :=
  let s1 := s.modCell cid fun c => { c with csr := { c.csr with mstate := stopPoint pc step row } }
  takeTrap s1 cid { cause, tval, epc := pc, ilen := 8, async := false, vrec := none, mrec := true }

/-- Take a held instruction's stop: its row's enabled flags and mstate are set, and it traps (spec 11 R263). -/
def heldTrap (s : State) (cid : Nat) (pc : Word) (step row : Nat) (f : Fl) : State :=
  matrixTrap (flagCell s cid f) cid (stopCause f) pc step row (stopPoint pc step row &&& 0xFFFFFFFF)

end Sys2Proof.Machine
end

