-- ==== Sys2Proof/Machine/Matrix.lean ====
section
/-! DEFINITION. The matrix instructions, MSAVE and MRSTR, and the steps of the matrix unit and its lease (spec 08 R193 to R197; 11
R252, R253, R265 to R276; 18 R377). -/

namespace Sys2Proof.Machine

/-! ### MOP1 (spec 11 R259, R265) -/

/-- A vector register as the matrix unit reads it at issue: until the latency of the vector instruction that writes it has passed, each word is
old or new, by a free choice (spec 06 R133; log 8). -/
def mixV (s : State) (r : Reg) : VReg :=
  let pick (new old : Nat) : Nat :=
    (List.range 32).foldr (fun i acc => acc * 2 ^ 32 + (if Config.earlyReadNew s.freeCtr i then elem new 32 i else elem old 32 i)) 0
  BitVec.ofNat 1024 ((s.me.earlyV.filter fun e => e.1 == .v r).foldr (fun e v => pick v e.2.1) (getV s r).toNat)

/-- The registers of one side. -/
def sideRegs (t : Ty) (r : Reg) : List Reg := if t = .f32 then [r, r + 1] else [r]

/-- The bytes of one side: data, then scales. -/
def sideBytes (s : State) (t : Ty) (r : Reg) : List Byte :=
  let d := leBytes ((sideRegs t r).foldr (fun q v => (mixV s q).toNat + 2 ^ 1024 * v) 0) (128 * (sideRegs t r).length)
  d.take (rowBytes t) ++ if t = .e2m1 then (d.drop 32).take 8 else []

/-- mop1: one step, its operands read at issue; a held one keeps its cell until it completes (R263). -/
def execMop1 (d : Tile) (a b c : Reg) (p : Pred) (pair : Pair) (s : State) : Host.Outcome State Fault Refusal :=
  let (ta, tb) := pairTypes pair
  issue 8 (fun s => match tileCheck d s with | some t => some t | none => alignCheck [(1, a), (2, b)] s)
    ((sideRegs ta a ++ sideRegs tb b).map .v ++ if pair.banded then [.f c] else []) [] (fun s => Op.res do
      let (_, i0, hit) ← resumePoint s 1
      let s ← needLease s
      matRoom s
      let held := isHeld s.me
      let core := s.myGang.core
      let gid := s.me.gang
      let band := if pair.banded then bandOf (getF s c) else .zero
      let r := applyStep pair held s.me.csr.qfcsr p.k p.n (maskBits s p.k) band (sideBytes s ta a) (sideBytes s tb b) i0
        (readTile s core d.toNat)
      let s1 := flagCell (writeTile (clearResume s hit) core gid d.toNat r.1) s.cur r.2.1
      match r.2.2 with
      | none => if held then .error (.park ((useUnit s1 true).modMe fun c => { c with stage := 1 }) .matrix) else .ok (.ok (useUnit s1 true))
      | some (i, h) =>
        let m := stopPoint s.me.pc 0 i
        .ok (.trap ((flagCell s1 s.cur h).modMe fun c => { c with csr := { c.csr with mstate := m } }) (stopCause h) (m &&& 0xFFFFFFFF) none true)) s

/-! ### MOPA (spec 11 R260, R261, R267) -/

/-- The class 6 checks of a side. -/
def sideAlign (s : State) (base desc : Word) : Op Unit :=
  let al := if opRot desc = 0 then 32 else 64
  if base.toNat % al != 0 || opRp desc % al != 0 || opTp desc % al != 0 then .error (.trap s cMISALIGNED base)
  else if bits base.toNat 63 61 < 6 then .error (.trap s cACCESS_FAULT base)
  else .ok ()

/-- The class 7 check of a side: room for its granules. -/
def sideShape (s : State) (t : Ty) (desc : Word) (side : Nat) : Op Unit :=
  if opRot desc != 0 && decide (opRp desc / 64 < (rowBytes t + 63) / 64) then .error (.trap s cMATRIX_SHAPE (shapeVal 2 side)) else .ok ()

/-- The pieces of a list cut at 4 KiB units: unit and effective address of the first byte in it. -/
def unitStarts (g : Gang) (l : List (Word × Nat)) : List (Nat × Word) :=
  l.flatMap fun p =>
    let o := g.lsBase * 4096 + bits p.1.toNat 60 0
    (range (o / 4096) ((o + p.2 - 1) / 4096 + 1 - o / 4096)).map fun u => (u, p.1 + BitVec.ofNat 64 (u * 4096 - o))

/-- The rotation tag of a unit of a core's LS (spec 10 R232). -/
def State.rotTag (s : State) (core unit : Nat) : Nat := Tab.getD s.rot (core * 68 + unit) 0

/-- OPCHK on a side in LS: the first unit, ascending, whose tag differs from ROT. -/
def sideTags (s : State) (t : Ty) (base desc : Word) (steps : Nat) : Op Unit :=
  let g := s.myGang
  if bits base.toNat 63 61 != 7 then .ok ()
  else
    let us := unitStarts g ((List.range steps).flatMap (sideRowPieces base desc (rowBytes t)))
    let bad := (List.range 68).find? fun u => us.any (fun e => e.1 == u) && s.rotTag g.core u != opRot desc
    match bad with
    | some u =>
      let eas := (us.filter fun e => e.1 == u).map (·.2)
      .error (.trap s cSWZ_MISMATCH (eas.foldl (fun m e => if e.ult m then e else m) (BitVec.allOnes 64)))
    | none => .ok ()

/-- The target of the OCS signal, by key (class 6). -/
def ocsTarget (s : State) (ocs : Bool) : Op (State × Option Nat) :=
  if ocs then do
    let ea := s.me.csr.mocsig
    if ea.toNat % 8 != 0 then .error (.trap s cMISALIGNED ea)
    let (s, t) ← resolveDva s .atomic ea (eaDva s.myGang ea) 8 none 0
    match t with
    | .key k => .ok (s, some k)
    | .remote k => .ok (s, some k)
    | .peer acc pa => .ok (s, some (peerKey acc pa))
    | _ => .error (.trap s cACCESS_FAULT ea)
  else .ok (s, none)

/-- mopa: its checks, then the unit runs it; a held one keeps its cell until it completes or traps. -/
def execMopa (d : Tile) (a b c : Reg) (km1 : BitVec 12) (ocs : Bool) (p : Pred) (pair : Pair) (s : State) : Host.Outcome State Fault Refusal :=
  let (ta, tb) := pairTypes pair
  let q := qv 0x11 0 pair.code p (treg d) a b c ((0 : BitVec 3) ++ bit1 ocs ++ km1)
  issue 8 (tileCheck d) ([.x a, .x (a + 1), .x b, .x (b + 1)] ++ if pair.banded then [.f c] else []) [] (fun s => Op.res do
    let steps := km1.toNat + 1
    let xa := getX s a
    let xa1 := getX s (a + 1)
    let xb := getX s b
    let xb1 := getX s (b + 1)
    checkPieces s rRead (sidePieces ta xa xa1 steps)
    checkPieces s rRead (sidePieces tb xb xb1 steps)
    if ocs then
      match segCheck s.myGang s.me.csr.mocsig 8 rAtomic with
      | .error t => .error (.trap s t.1 t.2)
      | .ok _ => .ok ()
    sideAlign s xa xa1
    sideAlign s xb xb1
    let (s, key) ← ocsTarget s ocs
    sideShape s ta xa1 0
    sideShape s tb xb1 1
    if s.me.csr.qfcsr.getLsbD 21 then
      sideTags s ta xa xa1 steps
      sideTags s tb xb xb1 steps
    let (k0, i0, hit) ← resumePoint s steps
    let s ← needLease s
    matRoom s
    let held := isHeld s.me
    let r : MatRec := { enc := q.pack, pc := s.me.pc, xa, xa1, xb, xb1, mocsig := s.me.csr.mocsig, mask := maskBits s p.k
                        fc := if pair.banded then getF s c else 0, step := k0, held, cell := s.me.j }
    let s1 := startMopa (clearResume s hit) s.myGang.core s.cur s.me.gang r i0 key
    if held then .error (.park (s1.modMe fun c => { c with stage := 1 }) .matrix) else .ok (.ok s1)) s

/-! ### The steps of the unit and the lease -/

/-- The cell that a matrix instruction kept goes on: past the instruction, or at its resume pc. -/
def freeHeld (s : State) (cid : Nat) : State :=
  let c := s.cell cid
  if c.run == .parked .matrix then
    if c.stage = 1 then finishCell s cid (c.pc + 8) else s.modCell cid fun c => { c with run := .ready }
  else s

/-- The other cells of a gang that waited for its matrix record go on (spec 18 R386). -/
def freeGang (s : State) (gid but : Nat) : State :=
  (s.gang gid).cells.foldl (fun s c => if c = but then s else freeHeld s c) s

/-- The last operand byte has been read: OCS decrements, as a release of what the cell did before (spec 11 R268; 13 R291, R294). -/
def mopaConsumed (s : State) (core : Nat) (u : MUnit) (r : MatRec) : State :=
  let s1 := s.modCore core fun c => { c with unit := some { u with consumed := true } }
  match u.ocs with
  | some key => decrementAt s1 u.cell u.gang r.mocsig key .pkg
  | none => s1

/-- The operands-consumed point of the MOPA in a core's unit: its steps are applied, and OCS decrements (spec 11 R268), once the accesses of
its cell before it are performed (13 R291); a held one may trap at a row. Of a gang that has retired only the decrement is left (20 R400). -/
def execMopaOperandsConsumed (core : Nat) (s : State) : Host.Outcome State Fault Refusal :=
  match (s.core core).unit with
  | some u =>
    match u.mopa, u.consumed with
    | some r, false =>
      if u.ocs.isSome && outstandingTo s u.cell u.gang false (some u.mark) then .next s
      else if (s.gang u.gang).st == .retired then .next (mopaConsumed s core u r)
      else
        match runMopa s core 4096 u r with
        | (s1, some (k, i, h)) =>
          .next (heldTrap (freeGang (s1.modCore core fun c => { c with unit := none }) u.gang u.cell) u.cell r.pc k i h)
        | (s1, none) => .next (mopaConsumed s1 core u r)
    | _, _ => .next s
  | none => .next s

/-- A word that an MRSTR loads and other agents have written since its issue: as it was then, or as one of those writes left it, by a free choice;
not what its cell has written since (spec 18 R377; log 36). -/
def reloadWord (core : Nat) (u : MUnit) (tile key : Nat) (s : State) (i : Nat) : State :=
  let a := key + 4 * i
  let since := s.writesAfter u.stamp a 4
  let own := since.filter fun o => o.who == .cell u.cell
  let hi := own.foldl (fun m o => min m (o.n - 1)) s.stamp
  let seen := since.filter fun o => decide (o.n ≤ hi)
  match ([u.stamp] ++ seen.map (·.n))[Config.operandTime s.freeCtr a % (seen.length + 1)]? with
  | some t =>
    if t = u.stamp then s
    else (s.noteRead u.cell t a 4).modCore core fun k => { k with tiles := Tab.setD k.tiles (tile * 4096 + i) 0 (BitVec.ofNat 32 (leNat (s.readAt t a 4))) }
  | none => s

/-- The end of an MRSTR's reads. -/
def endLoad (s : State) (core : Nat) (u : MUnit) : State :=
  match u.load with
  | some (tile, key) =>
    if (s.writesAfter u.stamp key 16384).isEmpty then s
    else { (List.range 4096).foldl (reloadWord core u tile key) s with freeCtr := s.freeCtr + 1 }
  | none => s

/-- A matrix instruction leaves the unit: QLEFT counts it, and a held cell may issue again (spec 11 R253). -/
def execMatrixInstructionComplete (core : Nat) (s : State) : Host.Outcome State Fault Refusal :=
  match (s.core core).unit with
  | some u =>
    if u.consumed then
      let s1 := (endLoad s core u).modCore core fun k =>
        { k with unit := none, qleft := if u.counts && k.holder == some u.gang then k.qleft - 1 else k.qleft }
      let mine := (s.cell u.cell).gang == u.gang
      .next (if u.mopa.isSome then (let s2 := freeGang s1 u.gang u.cell; if mine then freeHeld s2 u.cell else s2)
             else if mine && (s.cell u.cell).stage == 1 then freeHeld s1 u.cell else s1)
    else .next s
  | none => .next s

/-- A gang's recorded MOPA cannot go on, because its signal word is denied: the trap is taken at the record's next step (DESIGN CHOICE; log
68). -/
def recordDenied (s : State) (gid cid : Nat) (r : MatRec) : State :=
  matrixTrap (freeGang (s.modGang gid fun g => { g with mrec := none }) gid cid) cid cACCESS_FAULT r.pc r.step 0 r.mocsig

/-- What a gang's recorded MOPA needs before it goes on: the word of its signal, formed again (spec 18 R387), or none while it waits for it
or has failed; with what the access leaves behind. A page that is not present is asked for under the issuing cell's name, and the pager's
FATAL is a denial (DESIGN CHOICE; log 68). -/
def recordKey (s : State) (gid cid : Nat) (r : MatRec) : State × Option (Option Nat) :=
  if !(Q64.unpack r.enc).ib 12 then (s, some none)
  else
    let g := s.gang gid
    let l := s.launch g.launch
    let dva := eaDva g r.mocsig
    if s.faults.any fun f => (match f.who with | .cell c _ => c == cid | _ => false) then (s, none)
    else
      let s1 := noteTlb s (hiveOf g.core) l.asid dva
      match look s gid .atomic dva 8 with
      | .key k =>
        match (if isHbm k then s.refusedIn k 8 else none) with
        | some pa => (killFor s1 gid 0x81 (dataErr 8 0 pa) cid, none)
        | none => (faultPastOf s1 cid dva, some (some k))
      | .remote k => (s1, some (some k))
      | .peer acc pa => (faultPastOf s1 cid dva, some (some (peerKey acc pa)))
      | .absent m => ((postFault s1 cid l.asid .atomic dva (b2n m) 0).1, none)
      | .cow leafAt =>
        match cowBegin s1 gid l.asid dva leafAt with
        | (s2, true, _) => (s2, none)
        | (s2, false, flags) => ((postFault s2 cid l.asid .cow dva flags 0).1, none)
      | .bad pa => (killFor (refusalReport s1 l.part pa) gid 0x81 (dataErr 8 0 pa) cid, none)
      | .denied | .window _ | .host _ => (recordDenied (faultPastOf s1 cid dva) gid cid r, none)

/-- The gang at the head of the wait list acquires the free lease (spec 11 R252); a gang with a matrix record puts it into the unit
(R270). QLEFT becomes the leaseq of the cell whose instruction acquires: the gang's first cell that waits on the lease (log 23). A refused
line in an image that it loads kills the gang (18 R389). -/
def execLeaseAcquire (core : Nat) (s : State) : Host.Outcome State Fault Refusal :=
  let k := s.core core
  match k.leaseQ with
  | gid :: _ =>
    if k.holder.isNone && k.unit.isNone then
      let g := s.gang gid
      let waits := g.cells.filter fun c => (s.cell c).run == .parked .lease
      let by_ : Option Nat := match g.mrec with | some r => g.cells[r.cell]? | none => waits.head?
      let quantum := match by_ with | some c => (s.cell c).csr.leaseq.toNat | none => g.hdr.quantum
      match imageRefused s core gid with
      | some pa => .next (blockRefused s gid pa)
      | none =>
      match g.mrec with
      | some r =>
        let cid := (g.cells[r.cell]?).getD 0
        match recordKey s gid cid r with
        | (s1, some key) => .next (wakeLease ((startMopa (acquire s1 core gid quantum) core cid gid r 0 key).modGang gid fun g => { g with mrec := none }) gid)
        | (s1, none) => .next s1
      | none => .next (wakeLease (acquire s core gid quantum) gid)
    else .next s
  | [] => .next s

/-- The holder's quantum is used up while another gang waits (spec 11 R253). -/
def execLeaseQuantumExpiry (core : Nat) (s : State) : Host.Outcome State Fault Refusal := .next (s.modCore core expireLease)

/-! ### MZERO and MREL (spec 11 R271) -/

/-- mzero. -/
def execMzero (d : Tile) (p : Pred) (s : State) : Host.Outcome State Fault Refusal :=
  issue 8 (tileCheck d) [] [] (fun s => Op.res do
    let s ← needLease s
    matRoom s
    let core := s.myGang.core
    let m := maskBits s p.k
    let l := (readTile s core d.toNat).zipIdx.map fun e =>
      if rowOn p.k p.n m (e.2 / 64) && colOn p.k p.n m (e.2 % 64) then 0 else e.1
    .ok (.ok (useUnit (writeTile s core s.me.gang d.toNat l) true))) s

/-- Release the lease; with `discard`, the gang's tiles and images are given up too. -/
def releaseLease (s : State) (discard : Bool) : State :=
  let gid := s.me.gang
  let core := s.myGang.core
  let s1 := s.modCore core fun k => { k with holder := if k.holder == some gid then none else k.holder }
  if discard then
    (s1.modCore core fun k => if k.occupant == some gid then { k with occupant := none, tiles := [] } else k).modGang gid
      fun g => { g with dirty := 0, imgv := 0 }
  else s1

/-- mrel: the gang stays occupant. -/
def execMrel (s : State) : Host.Outcome State Fault Refusal :=
  issue 8 anyTile [] [] (fun s => Op.res do
    matRoom s
    .ok (.ok (useUnit (releaseLease s false) false))) s

/-- mrel.discard. -/
def execMrelDiscard (s : State) : Host.Outcome State Fault Refusal :=
  issue 8 anyTile [] [] (fun s => Op.res do
    matRoom s
    .ok (.ok (useUnit (releaseLease s true) false))) s

/-! ### MDRAIN (spec 08 R193 to R196, 11 R272 to R274) -/

/-- The value an element of a tile has for a drain. -/
def drainVal (si : Bool) (w : W32) : Fv := if si then Fv.ofInt w.toInt 0 else val32 w

/-- Convert one drained value: code, mask bit, flags. -/
def drainConv (t : Ty) (v : Fv) : Nat × Bool × Fl :=
  match t with
  | .e4m3 => satn .e4m3 v
  | .e5m2 => satn .e5m2 v
  | .i8 =>
    match v with
    | .nan _ => (0, true, { sat := true })
    | v =>
      let r := toIntegral .rne (-128) 127 v
      (wrapInt 8 r.1, r.2.nv, { sat := r.2.nv })
  | t =>
    let r := roundFv (fmtOf t) .rne v
    (r.1, false, r.2)

/-- The largest finite magnitude of a destination type: 127 for i8 (spec 08 R193). -/
def drainMax (t : Ty) : Mag :=
  match t with
  | .e4m3 => Narrow.maxMag .e4m3
  | .e5m2 => Narrow.maxMag .e5m2
  | .i8 => ⟨127, 0, false⟩
  | t => match decodeIeee (fmtOf t) (maxCode (fmtOf t) false) with | .num _ g => g | _ => ⟨0, 0, false⟩

/-- The smallest normal of a destination format. -/
def drainMin (t : Ty) : Mag := ⟨1, 1 - ((fmtOf t).bias : Int), false⟩

/-- A delayed scale that is a positive normal number (spec 08 R194). -/
def goodScale (w : W32) : Option Mag :=
  if w.toNat / 2 ^ 31 = 0 && bits w.toNat 30 23 != 0 then
    match val32 w with
    | .num _ g => some g
    | _ => none
  else none

/-- The magnitude counts as underflowed (spec 08 R193). -/
def drainUnder (t : Ty) (v : Fv) (code : Nat) : Bool :=
  match v with
  | .num _ g => g.m != 0 && (if t = .i8 then code == 0 else Mag.cmp g (drainMin t) == .lt)
  | _ => false

/-- The magnitude counts as saturated. -/
def drainOver (t : Ty) (v : Fv) : Bool :=
  match v with
  | .num _ g => Mag.cmp g (drainMax t) == .gt
  | _ => false

/-- The result of one element of a delayed-scale drain, and what it adds to qsatcnt and qufcnt. -/
def drainDelayed (t : Ty) (scale : W32) (v : Fv) : (Nat × Bool × Fl) × Nat × Nat :=
  match goodScale scale with
  | none =>
    let r := drainConv t (.nan false)
    ((r.1, r.2.1, Fl.or r.2.2 { nv := true }), 0, 0)
  | some d =>
    let x := overScale v d
    let r := drainConv t x
    (r, b2n (drainOver t x), b2n (drainUnder t x r.1))

/-- The exponent of a row: the smallest e with M at most T times 2^e, held to −128 to 127 (spec 08 R195). -/
def rowExp (t : Ty) (m : Mag) : Int :=
  if m.m = 0 then 0
  else
    let top := drainMax t
    let e0 := m.top - top.top - 1
    let fits (e : Int) : Bool := Mag.cmp m { top with e := top.e + e } != .gt
    clampInt (-128) 127 (if fits e0 then e0 else if fits (e0 + 1) then e0 + 1 else e0 + 2)

/-- A value times 2^(−e). -/
def unscale (e : Int) : Fv → Fv
  | .num n g => .num n { g with e := g.e - e }
  | v => v

/-- A kind of drain: plain, per-row exponents at an address, or a delayed scale. -/
inductive DrainBy where
  | plain
  | row (ea : Word)
  | delayed (scale : W32)

/-- What a drain has produced so far: memory, mask bits, flags, counts, and the largest magnitude seen as an FP32 code. -/
structure Drained where
  s : State
  mask : Nat
  fl : Fl
  sat : Nat
  under : Nat
  top : Nat

/-- The FP32 code of |x| that a tmax update counts; none for a NaN (spec 08 R196, 11 R274). -/
def drainMag (v : Fv) : Nat :=
  match v with
  | .nan _ => 0
  | v => (roundFv fmt32 .rne v.abs).1

/-- Drain one element into `key`. -/
def drainElem (f : Drain) (by_ : DrainBy) (e : Int) (r j key : Nat) (w : W32) (a : Drained) : Drained :=
  let v := drainVal f.si w
  let ((code, sat, fl), ns, nu) := match by_ with
    | .plain => (if f.t == Ty.f32 && !f.si then (w.toNat, false, Fl.none) else drainConv f.t v, 0, 0)
    | .row _ => (drainConv f.t (unscale e v), 0, 0)
    | .delayed sc => drainDelayed f.t sc v
  let n := f.t.width / 8
  { s := a.s.write (.cell a.s.cur) none (key + j * n) (leBytes code n), mask := if sat then a.mask ||| 2 ^ (r * 64 + j) else a.mask
    fl := Fl.or a.fl fl, sat := a.sat + ns, under := a.under + nu, top := max a.top (drainMag v) }

/-- Drain one row, the `r`-th of the drain. -/
def drainRow (g : Gang) (f : Drain) (by_ : DrainBy) (m : Nat) (tile : List W32) (base : Word) (pitch : Nat) (a : Drained) (r : Nat) : Drained :=
  let i := f.fr.toNat + r
  if rowOn f.p.k f.p.n m i then
    let row := rowOf tile i
    let key := ownKey g (base + BitVec.ofNat 64 (r * pitch))
    let e := rowExp f.t (maxMagOf ((row.zipIdx.filter fun e => colOn f.p.k f.p.n m e.2).map fun e => drainVal f.si e.1))
    let a1 := row.zipIdx.foldl (fun a w => if colOn f.p.k f.p.n m w.2 then drainElem f by_ e r w.2 key w.1 a else a) a
    match by_ with
    | .row ea => { a1 with s := a1.s.write (.cell a1.s.cur) none (ownKey g (ea + BitVec.ofNat 64 r)) (leBytes (wrapInt 8 e) 1) }
    | _ => a1
  else a

/-- Add to a counter that stops at all ones (spec 06 R154). -/
def countUp (w : Word) (n : Nat) : Word := BitVec.ofNat 64 (min (w.toNat + n) (2 ^ 64 - 1))

/-- Each destination selects seg7. -/
def drainSeg (s : State) : List Word → Op Unit
  | [] => .ok ()
  | ea :: rest => if bits ea.toNat 63 61 = 7 then drainSeg s rest else .error (.trap s cACCESS_FAULT ea)

/-- The drains: checks, the lease, the rows in ascending order, then flags, mask, counts and tmax. -/
def drainOp (f : Drain) (src : List Dst) (by_ : State → DrainBy) : State → Host.Outcome State Fault Refusal :=
  issue 8 (tileCheck f.d) ([.x f.a, .x f.b] ++ src) [] fun s => Op.res do
    let base := getX s f.a
    let xb := getX s f.b
    let pitch := bits xb.toNat 15 0
    let nr := f.nrm1.toNat + 1
    let rows := (List.range nr).map fun r => base + BitVec.ofNat 64 (r * pitch)
    let kind := by_ s
    for ea in rows do
      match segCheck s.myGang ea (rowBytes f.t) rWrite with
      | .error t => .error (.trap s t.1 t.2)
      | .ok _ => .ok ()
    let exps : List Word := match kind with | .row ea => [ea] | _ => []
    for ea in exps do
      match segCheck s.myGang ea nr rWrite with
      | .error t => .error (.trap s t.1 t.2)
      | .ok _ => .ok ()
    if base.toNat % 64 != 0 || pitch % 64 != 0 then .error (.trap s cMISALIGNED base)
    drainSeg s (rows ++ exps)
    if xb.toNat / 2 ^ 20 != 0 then .error (.trap s cMATRIX_SHAPE (shapeVal 4 f.b.toNat))
    let s ← needLease s
    matRoom s
    let g := s.myGang
    let a0 : Drained := { s, mask := 0, fl := .none, sat := 0, under := 0, top := 0 }
    let a := (List.range nr).foldl (drainRow g f kind (maskBits s f.p.k) (readTile s g.core f.d.toNat) base pitch) a0
    let s1 := raiseFlags a.s a.fl
    let s2 := if f.t == .e4m3 || f.t == .e5m2 || f.t == .i8 then setM s1 f.msat (getM s1 f.msat ||| BitVec.ofNat 1024 a.mask) else s1
    let s3 := s2.modMe fun c => { c with csr := { c.csr with qsatcnt := countUp c.csr.qsatcnt a.sat, qufcnt := countUp c.csr.qufcnt a.under } }
    let s4 := if f.tm then tmaxUp s3 s3.me.gang (bits xb.toNat 19 16) (BitVec.ofNat 32 a.top) else s3
    .ok (.ok (useUnit s4 true))

/-- mdrain. -/
def execMdrain (f : Drain) (s : State) : Host.Outcome State Fault Refusal := drainOp f [] (fun _ => .plain) s

/-- mdrain.row. -/
def execMdrainRow (f : Drain) (c : Reg) (s : State) : Host.Outcome State Fault Refusal := drainOp f [.x c] (fun s => .row (getX s c)) s

/-- mdrain.dly. -/
def execMdrainDly (f : Drain) (c : Reg) (s : State) : Host.Outcome State Fault Refusal := drainOp f [.f c] (fun s => .delayed (getF s c)) s

/-! ### MROW (spec 11 R275) -/

/-- The index of a row or column. -/
def rowIndex (s : State) (ix : RowIx) : Op Nat :=
  match ix with
  | .imm i => .ok i.toNat
  | .reg x =>
    let v := (getX s x).toNat
    if v / 64 != 0 then .error (.trap s cMATRIX_SHAPE (shapeVal 4 x.toNat)) else .ok v

/-- The register operand of an index. -/
def rowSrc : RowIx → List Dst
  | .imm _ => []
  | .reg x => [.x x]

/-- Element `e` of a row or column is active. -/
def rowActive (col : Bool) (p : Pred) (m e : Nat) : Bool := if col then rowOn p.k p.n m e else colOn p.k p.n m e

/-- The place of element `e` of row or column `i` among a tile's words. -/
def rowPlace (col : Bool) (i e : Nat) : Nat := if col then e * 64 + i else i * 64 + e

/-- mrow.rd: inactive elements stay as the instructions before it leave them (spec 06 R136). -/
def execMrowRd (d : Reg) (a : Tile) (ix : RowIx) (col : Bool) (p : Pred) (_t : Ty) (s : State) : Host.Outcome State Fault Refusal :=
  issue 8 (fun s => match tileCheck a s with | some t => some t | none => alignCheck [(0, d)] s) (rowSrc ix) [.v d, .v (d + 1)]
    (fun s => Op.res do
      let i ← rowIndex s ix
      let s ← needLease s
      matRoom s
      let m := maskBits s p.k
      let l := readTile s s.myGang.core a.toNat
      let new (r : Reg) (e0 : Nat) : VReg := BitVec.ofNat 1024 (mapElems (s.me.v[r.toNat]'r.isLt).toNat 32 32 (fun e => rowActive col p m (e0 + e))
        fun e => (((l[rowPlace col i (e0 + e)]?).getD 0).toNat, .none)).1
      .ok (.ok (setVLate (setVLate (useUnit s true) d (new d 0) 3) (d + 1) (new (d + 1) 32) 3))) s

/-- mrow.wr. -/
def execMrowWr (d : Tile) (a : Reg) (ix : RowIx) (col : Bool) (p : Pred) (_t : Ty) (s : State) : Host.Outcome State Fault Refusal :=
  issue 8 (fun s => match tileCheck d s with | some t => some t | none => alignCheck [(1, a)] s) ([.v a, .v (a + 1)] ++ rowSrc ix) []
    (fun s => Op.res do
      let i ← rowIndex s ix
      let s ← needLease s
      matRoom s
      let m := maskBits s p.k
      let v := (mixV s a).toNat + 2 ^ 1024 * (mixV s (a + 1)).toNat
      let core := s.myGang.core
      let l := (readTile s core d.toNat).zipIdx.map fun w =>
        let e := if col then w.2 / 64 else w.2 % 64
        if rowPlace col i e = w.2 && rowActive col p m e then BitVec.ofNat 32 (elem v 32 e) else w.1
      .ok (.ok (useUnit (writeTile s core s.me.gang d.toNat l) true))) s

/-! ### AMX (spec 08 R196, R197; 11 R276) -/

/-- A tmax register of the cell's gang. -/
def tmaxOf (s : State) (i : BitVec 4) : W32 := (s.myGang.tmax[i.toNat]?).getD 0

/-- amxrd. -/
def execAmxrd (d : Reg) (i : BitVec 4) (s : State) : Host.Outcome State Fault Refusal :=
  issue 8 noEarlyCheck [] [.f d] (fun s => .ok (setFLate s d (tmaxOf s i) 2)) s

/-- amxswp: read and reset to +0 as one operation. -/
def execAmxswp (d : Reg) (i : BitVec 4) (s : State) : Host.Outcome State Fault Refusal :=
  issue 8 noEarlyCheck [] [.f d]
    (fun s => .ok ((setFLate s d (tmaxOf s i) 2).modGang s.me.gang fun g => { g with tmax := setAt g.tmax i.toNat 0 })) s

/-- amxmax: a NaN is ignored. -/
def execAmxmax (a : Reg) (i : BitVec 4) (s : State) : Host.Outcome State Fault Refusal :=
  issue 8 noEarlyCheck [.f a] []
    (fun s =>
      let v := getF s a &&& 0x7FFFFFFF
      .ok (if (val32 v).isNan then s else tmaxUp s s.me.gang i.toNat v)) s

/-! ### MSAVE and MRSTR (spec 18 R377) -/

/-- The checks of a tile move. -/
def tileMove (s : State) (ea : Word) (need : Nat) : Op Unit :=
  match segCheck s.myGang ea 16384 need with
  | .error t => .error (.trap s t.1 t.2)
  | .ok _ =>
    if ea.toNat % 64 != 0 then .error (.trap s cMISALIGNED ea)
    else if bits ea.toNat 63 61 < 6 then .error (.trap s cACCESS_FAULT ea)
    else .ok ()

/-- msave: a tile to memory, row i at 256 i, as stores of the cell, one for each word. -/
def execMsave (d : Tile) (a : Reg) (s : State) : Host.Outcome State Fault Refusal :=
  issue 8 (tileCheck d) [.x a] [] (fun s => Op.res do
    let ea := getX s a
    tileMove s ea rWrite
    let s ← needLease s
    matRoom s
    let g := s.myGang
    let bytes := (readTile s g.core d.toNat).flatMap fun w => leBytes w.toNat 4
    .ok (.ok (useUnit (s.writeUnits (.cell s.cur) none 4 [(ownKey g ea, bytes)] 0) true))) s

/-- The words of a tile in memory as the cell's plain loads read them now (spec 13 R289). -/
def loadTile (s : State) (key : Nat) : State × List W32 :=
  if (s.writesAfter s.me.floor key 16384).isEmpty then (s, wordsOf (s.span key 16384))
  else
    let r := (List.range 4096).foldl (fun (a : State × List W32) i =>
      let (s1, d) := a.1.readBy a.1.cur (key + 4 * i) 4
      (s1, BitVec.ofNat 32 (leNat d) :: a.2)) (s, [])
    (r.1, r.2.reverse)

/-- mrstr: memory to a tile. It reads on until its unit frees (see `endLoad`). -/
def execMrstr (d : Tile) (a : Reg) (s : State) : Host.Outcome State Fault Refusal :=
  issue 8 (tileCheck d) [.x a] [] (fun s => Op.res do
    let ea := getX s a
    tileMove s ea rRead
    let s ← needLease s
    matRoom s
    let g := s.myGang
    let (s1, l) := loadTile s (ownKey g ea)
    .ok (.ok (loadUnit (writeTile s1 g.core s1.me.gang d.toNat l) d.toNat (ownKey g ea)))) s

end Sys2Proof.Machine
end

