-- ==== Sys2Proof/Machine/Sync.lean ====
section
/-! DEFINITION. Synchronisation: QFENCE, QAMO, signal words, barriers, tagged words and waggles, with the limits of their waits
(spec 14). -/

namespace Sys2Proof.Machine

/-! ### QFENCE (spec 14 R309, R310) -/

/-- A fence of class e: the reads of the cell's later copies follow their issue (spec 10 R247, 13 R298). -/
def holdCopies (s : State) : State := s.modMe fun c => { c with copyFenced := true }

/-- QFENCE: parks until the earlier accesses of its classes are performed, and its later reads come after what agents within its scope have
written. At cell scope it completes at its first turn, and its later copies wait. -/
def execQfence (r w e : Bool) (sc : Scope) (s : State) : Host.Outcome State Fault Refusal :=
  issue 8 noEarlyCheck [] [] (fun s => Op.res do
    let s1 := if e then holdCopies s else s
    if sc == .cell then .ok (.ok s1)
    else
      fenceWait s r w (sc == .pod)
      .ok (.ok (fenceOrders r w r w sc s1))) s

/-! ### QAMO (spec 14 R311 to R313) -/

/-- A QAMO of the operation. -/
def qamo (op : AmoOp) (d a b c : Reg) (word acq rel : Bool) (sc : Scope) : State → Host.Outcome State Fault Refusal :=
  issue 8 noEarlyCheck ([.x a, .x b] ++ (if op == .cas then [.x c] else [])) [.x d] fun s => Op.res do
    .ok (.ok (← atomic s (getX s a) (if word then 4 else 8) op (getX s b) (getX s c) (.x d) acq rel sc))

/-- QAMOADD. -/
def execQamoadd (d a b : Reg) (word acq rel : Bool) (sc : Scope) (s : State) : Host.Outcome State Fault Refusal :=
  qamo .add d a b 0 word acq rel sc s
/-- QAMOAND. -/
def execQamoand (d a b : Reg) (word acq rel : Bool) (sc : Scope) (s : State) : Host.Outcome State Fault Refusal :=
  qamo .and d a b 0 word acq rel sc s
/-- QAMOOR. -/
def execQamoor (d a b : Reg) (word acq rel : Bool) (sc : Scope) (s : State) : Host.Outcome State Fault Refusal :=
  qamo .or d a b 0 word acq rel sc s
/-- QAMOXOR. -/
def execQamoxor (d a b : Reg) (word acq rel : Bool) (sc : Scope) (s : State) : Host.Outcome State Fault Refusal :=
  qamo .xor d a b 0 word acq rel sc s
/-- QAMOMIN. -/
def execQamomin (d a b : Reg) (word acq rel : Bool) (sc : Scope) (s : State) : Host.Outcome State Fault Refusal :=
  qamo .min d a b 0 word acq rel sc s
/-- QAMOMAX. -/
def execQamomax (d a b : Reg) (word acq rel : Bool) (sc : Scope) (s : State) : Host.Outcome State Fault Refusal :=
  qamo .max d a b 0 word acq rel sc s
/-- QAMOMINU. -/
def execQamominu (d a b : Reg) (word acq rel : Bool) (sc : Scope) (s : State) : Host.Outcome State Fault Refusal :=
  qamo .minu d a b 0 word acq rel sc s
/-- QAMOMAXU. -/
def execQamomaxu (d a b : Reg) (word acq rel : Bool) (sc : Scope) (s : State) : Host.Outcome State Fault Refusal :=
  qamo .maxu d a b 0 word acq rel sc s
/-- QAMOSWAP. -/
def execQamoswap (d a b : Reg) (word acq rel : Bool) (sc : Scope) (s : State) : Host.Outcome State Fault Refusal :=
  qamo .swap d a b 0 word acq rel sc s
/-- QAMOCAS: x[c] is the expected value, x[b] the new one. -/
def execQamocas (d a b c : Reg) (word acq rel : Bool) (sc : Scope) (s : State) : Host.Outcome State Fault Refusal :=
  qamo .cas d a b c word acq rel sc s

/-! ### Signal words (spec 14 R314 to R316) -/

/-- An update of a signal word as a release, posted once translated (spec 14 R315). -/
def signalUpdate (op : AmoOp) (a b : Reg) (sc : Scope) : State → Host.Outcome State Fault Refusal :=
  issue 8 noEarlyCheck [.x a, .x b] [] fun s => Op.res do
    let ea := getX s a
    let v := getX s b
    match s.me.reply with
    | some _ => .ok (.ok s)
    | none =>
      let (s, t) ← resolve s .atomic ea 8 rAtomic 8
      release s sc
      match t with
      | .key k =>
        .ok (.ok (if isHbm k then post s k ea (.amo op 8 v 0 .none) { rel := true, sc } else (amoSync s (.cell s.cur) none k op 8 v 0 false true sc).1))
      | .remote k => .error (waitRemote s k ea (.amo op 8 v 0) { rel := true, sc })
      | .peer acc pa => .ok (.ok (postTo s (.peer acc) pa ea (.amo op 8 v 0 .none) { rel := true, sc }))
      | .host _ | .window _ => .error (.trap s cACCESS_FAULT ea)

/-- SSIG: add x[b]. -/
def execSsig (a b : Reg) (sc : Scope) (s : State) : Host.Outcome State Fault Refusal := signalUpdate .add a b sc s

/-- SSET: store x[b]. -/
def execSset (a b : Reg) (sc : Scope) (s : State) : Host.Outcome State Fault Refusal := signalUpdate .swap a b sc s

/-- A condition on a signal word: signed (spec 14 R314). -/
def condHolds (c : Cond) (w v : Word) : Bool :=
  match c with
  | .eq => w == v
  | .ne => w != v
  | .lt => w.slt v
  | .le => w.sle v
  | .gt => v.slt w
  | .ge => v.sle w

/-- SWAIT: x[c] is a limit in ns, with c = 0 for none. -/
def execSwait (d a b c : Reg) (cond : Cond) (sc : Scope) (s : State) : Host.Outcome State Fault Refusal :=
  issue 8 noEarlyCheck [.x a, .x b, .x c] [.x d] (fun s => Op.res do
    let ea := getX s a
    let limit := if c = 0 then none else some (getX s c).toNat
    let (s, w, key) ← signalRead s ea sc
    if condHolds cond (BitVec.ofNat 64 w) (getX s b) then .ok (.ok (defer s (.x d) w))
    else if limitOver s limit then .error (.trap s cWAIT_LIMIT ea)
    else .error (.park (setLimit s limit ea) (.signal key false))) s

/-! ### Barriers (spec 14 R317 to R319) -/

/-- The scope of a level (spec 14 R317). -/
def barScope : BarLevel → Scope
  | .gang => .gang
  | .hive => .hive
  | .die => .die
  | .pkg => .pkg

/-- BAR: the release, the arrival, and the wait for the episode. Its levels of die and package are those of a launch with COR, whatever an
heir's header says. -/
def execBar (level : BarLevel) (limit : BitVec 13) (s : State) : Host.Outcome State Fault Refusal :=
  issue 8 noEarlyCheck [] [] (fun s => Op.res do
    if !s.myLaunch.hdr.cor && (level == .die || level == .pkg) then .error (.trap s cBAR_SCOPE (BitVec.ofNat 64 (BarLevel.num level)))
    else
      release s (barScope level)
      let gid := s.me.gang
      let key := barKey s level gid
      let s1 := barArrive s level key (gid, s.me.j)
      let s2 := parkCell (setLimit s1 (limitUs limit.toNat) 0) s.cur (.bar level limit.toNat)
      .ok (.fin (barCheck s2 level key))) s

/-- BAR_LIMIT (spec 14 R319): the arrival is withdrawn and the cell traps at its BAR. -/
def execBarLimit (cell : Nat) (s : State) : Host.Outcome State Fault Refusal :=
  .next <| match Tab.find s.cells cell with
  | some c =>
    match c.run, c.limit with
    | .parked (.bar ..), some _ => limitTrap (barWithdraw s (c.gang, c.j)) cell
    | _, _ => s
  | none => s

/-! ### Tagged words (spec 14 R320 to R323) -/

/-- The checks of a tagged-word function: the word's key in own LS or HSP, or at a remote port (spec 14 R321). -/
def taggedWord (s : State) (ea : Word) (need : Nat) : Op Target :=
  match segCheck s.myGang ea 8 need with
  | .error (cause, tval) => .error (.trap s cause tval)
  | .ok dva =>
    if ea.toNat % 8 != 0 then .error (.trap s cMISALIGNED ea)
    else if !bit dva 56 then .error (.trap s cACCESS_FAULT ea)
    else match aperture s s.me.gang .vload dva 8 with
      | .key k => .ok (.key k)
      | .remote k => .ok (.remote k)
      | _ => .error (.trap s cACCESS_FAULT ea)

/-- The address of a tagged word: x[a] + sext(off). -/
def feEa (s : State) (a : Reg) (off : BitVec 12) : Word := getX s a + off.signExtend 64

/-- LDFE and LDFE.K. -/
def ldfeOp (keep : Bool) (d a c : Reg) (off : BitVec 12) : State → Host.Outcome State Fault Refusal :=
  issue 8 noEarlyCheck [.x a, .x c] [.x d] fun s => Op.res do
    let ea := feEa s a off
    let limit := if c = 0 then none else some (getX s c).toNat
    match s.me.reply with
    | some v => .ok (.ok (defer s (.x d) v.toNat))
    | none =>
      match ← taggedWord s ea rRead with
      | .key k =>
        if s.full k then
          let (s1, v) := ldfeAt s s.cur k keep
          .ok (.ok (defer s1 (.x d) v.toNat))
        else
          let s1 := setLimit s limit ea
          .error (.park { s1 with feq := s1.feq ++ [{ key := k, keep, cell := s.cur, gang := s.me.gang, remote := none }] } (.word k))
      | .remote k => .error (waitRemote (setLimit s limit ea) k ea (.ldfe keep))
      | _ => .error (.trap s cACCESS_FAULT ea)

/-- LDFE. -/
def execLdfe (d a c : Reg) (off : BitVec 12) (s : State) : Host.Outcome State Fault Refusal := ldfeOp false d a c off s
/-- LDFE.K. -/
def execLdfeK (d a c : Reg) (off : BitVec 12) (s : State) : Host.Outcome State Fault Refusal := ldfeOp true d a c off s

/-- STFE and STFE.F: a release; a refused one is reported as a refused posted store. -/
def stfeOp (force : Bool) (a b : Reg) (off : BitVec 12) : State → Host.Outcome State Fault Refusal :=
  issue 8 noEarlyCheck [.x a, .x b] [] fun s => Op.res do
    let ea := feEa s a off
    let v := getX s b
    let t ← taggedWord s ea rWrite
    release s
    match t with
    | .key k =>
      let (s1, done) := stfeAt s s.cur k v force
      .ok (.ok (if done then s1 else pendAsync s1 s.cur { cause := cREMOTE_NACK_ASYNC, tval := ea }))
    | .remote k => .ok (.ok (sendRemote s k ea (.stfe v force) true).1)
    | _ => .error (.trap s cACCESS_FAULT ea)

/-- STFE. -/
def execStfe (a b : Reg) (off : BitVec 12) (s : State) : Host.Outcome State Fault Refusal := stfeOp false a b off s
/-- STFE.F. -/
def execStfeF (a b : Reg) (off : BitVec 12) (s : State) : Host.Outcome State Fault Refusal := stfeOp true a b off s

/-- FEPROBE. -/
def execFeprobe (d a : Reg) (off : BitVec 12) (s : State) : Host.Outcome State Fault Refusal :=
  issue 8 noEarlyCheck [.x a] [.x d] (fun s => Op.res do
    let ea := feEa s a off
    match s.me.reply with
    | some v => .ok (.ok (defer s (.x d) v.toNat))
    | none =>
      match ← taggedWord s ea rRead with
      | .key k => .ok (.ok (defer s (.x d) (b2n (s.full k))))
      | .remote k => .error (waitRemote s k ea .feprobe)
      | _ => .error (.trap s cACCESS_FAULT ea)) s

/-- FESET. -/
def fesetOp (full : Bool) (a : Reg) (off : BitVec 12) : State → Host.Outcome State Fault Refusal :=
  issue 8 noEarlyCheck [.x a] [] fun s => Op.res do
    let ea := feEa s a off
    match ← taggedWord s ea rWrite with
    | .key k => .ok (.ok (fesetAt s (.cell s.cur) k full))
    | .remote k => .ok (.ok (sendRemote s k ea (.feset full) true).1)
    | _ => .error (.trap s cACCESS_FAULT ea)

/-- FESET.E. -/
def execFesetE (a : Reg) (off : BitVec 12) (s : State) : Host.Outcome State Fault Refusal := fesetOp false a off s
/-- FESET.F. -/
def execFesetF (a : Reg) (off : BitVec 12) (s : State) : Host.Outcome State Fault Refusal := fesetOp true a off s

/-- LDFE_LIMIT (spec 14 R323): a request still queued at its home is withdrawn and traps; one satisfied already returns. -/
def execLdfeLimit (cell : Nat) (s : State) : Host.Outcome State Fault Refusal :=
  .next <| match Tab.find s.cells cell with
  | some c =>
    match c.run, c.limit with
    | .parked (.word _), some _ => limitTrap { s with feq := s.feq.filter fun e => !(e.cell == cell && e.gang == c.gang) } cell
    | _, _ => s
  | none => s

/-! ### Waggles (spec 14 R324 to R326) -/

/-- Room has come in a mailbox: the first waiting sender's waggle is placed, and its WGSEND completes. -/
def wgServe (s : State) (target : Nat) : State :=
  match s.wgq.find? fun e => e.target == target with
  | some e =>
    if (s.cell target).mbox.length < 16 then
      finishCell { deliverWaggle s target e.wag with wgq := s.wgq.erase e } e.cell ((s.cell e.cell).pc + 8)
    else s
  | none => s

/-- WGSEND. -/
def execWgsend (a b c : Reg) (limit : BitVec 15) (s : State) : Host.Outcome State Fault Refusal :=
  issue 8 noEarlyCheck [.x a, .x b, .x c] [] (fun s => Op.res do
    let xa := getX s a
    if bits xa.toNat 63 13 != 0 then .error (.trap s cACCESS_FAULT xa)
    else
      release s
      let target := xa.toNat
      let w : Waggle := { lo := BitVec.ofNat 64 (bits (getX s b).toNat 31 0 + s.cur * 2 ^ 32), value := getX s c, sync := s.syncFor xa.toNat (.cell s.cur) .pkg }
      match Tab.find s.cells target with
      | none => .error (.trap s cREMOTE_NACK xa)
      | some t =>
        if (s.launch (s.gang t.gang).launch).part != s.myLaunch.part then .error (.trap s cREMOTE_NACK xa)
        else if dieOfCell target != dieOfCell s.cur && s.lost.contains (dieOfCell target) then .error (cutKill s xa)
        else if t.mbox.length < 16 && !(s.wgq.any fun e => e.target == target) then .ok (.ok (deliverWaggle s target w))
        else
          let s1 := setLimit s (limitUs limit.toNat) xa
          .error (.park { s1 with wgq := s1.wgq ++ [{ target, cell := s.cur, gang := s.me.gang, wag := w }] } (.wgsend target))) s

/-- The acquire of a waggle: it pairs with the send or copy action that posted it (spec 14 R326). -/
def Waggle.acquire (cid : Nat) (w : Waggle) (c : Cell) : Cell :=
  match w.sync with
  | some r => c.learn cid r
  | none => c

/-- WGRECV. -/
def execWgrecv (d : Reg) (limit : BitVec 15) (s : State) : Host.Outcome State Fault Refusal :=
  issue 8 noEarlyCheck [] [.x d, .x (d + 1)] (fun s =>
    match s.me.mbox with
    | [] => .park (setLimit s (limitUs limit.toNat) 0) .wgrecv
    | w :: rest =>
      let s1 := s.modMe fun c => w.acquire s.cur { c with mbox := rest }
      .ok (wgServe (defer (defer s1 (.x d) w.lo.toNat) (.x (d + 1)) w.value.toNat) s.cur)) s

/-- WGPEEK. -/
def execWgpeek (d : Reg) (s : State) : Host.Outcome State Fault Refusal :=
  issue 8 noEarlyCheck [] [.x d] (fun s => .ok (setXLate s d (BitVec.ofNat 64 s.me.mbox.length) 1)) s

/-! ### Limits (spec 14 R316, R325, R326; 09 R207; 10 R244) -/

/-- SWAIT_LIMIT. -/
def execSwaitLimit (cell : Nat) (s : State) : Host.Outcome State Fault Refusal :=
  .next (limitIn s cell fun w => match w with | .signal _ v => !v | _ => false)

/-- VSETVLW_LIMIT. -/
def execVsetvlwLimit (cell : Nat) (s : State) : Host.Outcome State Fault Refusal :=
  .next (limitIn s cell fun w => match w with | .signal _ v => v | _ => false)

/-- FRMWAIT_LIMIT. -/
def execFrmwaitLimit (cell : Nat) (s : State) : Host.Outcome State Fault Refusal :=
  .next (limitIn s cell fun w => match w with | .frame _ => true | _ => false)

/-- WGSEND_LIMIT: the send is withdrawn. -/
def execWgsendLimit (cell : Nat) (s : State) : Host.Outcome State Fault Refusal :=
  .next <| match (Tab.find s.cells cell).map Cell.run, (s.cell cell).limit with
  | some (.parked (.wgsend _)), some _ => limitTrap { s with wgq := s.wgq.filter fun e => e.cell != cell } cell
  | _, _ => s

/-- WGRECV_LIMIT. -/
def execWgrecvLimit (cell : Nat) (s : State) : Host.Outcome State Fault Refusal :=
  .next (limitIn s cell fun w => match w with | .wgrecv => true | _ => false)

end Sys2Proof.Machine
end

