-- ==== Sys2Proof/Machine/Unit.lean ====
section
/-! DEFINITION. Accesses of the dispatch and brood units: translated reads and writes that wait for the pager, completion writes in
their order, and references on loaded objects (spec 03 R62, R66, R71, R75; 16 R359; 20 R411 to R414). -/

namespace Sys2Proof.Machine

/-- Why an access of a unit stops. -/
inductive UStop where
  | wait (kind : Kind) (dva : Nat) (malformed : Bool)
  | cow (dva leafAt : Nat)
  | denied
  | bad (pa : Nat)
deriving DecidableEq, Repr

/-- Where a unit's access of a kind goes. Apertures are never reached; a write does not pass a copy-on-write leaf (spec 07 R173). -/
def unitAt (s : State) (die asid dva : Nat) (kind : Kind) : Except UStop Target :=
  if dva / 2 ^ 56 != 0 then .error .denied
  else match translateDie s die asid dva with
    | .absent m => .error (.wait kind dva m)
    | .bad pa => .error (.bad pa)
    | .leaf w at_ size =>
      match leafLook kind dva w at_ size with
      | .key k => .ok (.key k)
      | .host pa => .ok (.host pa)
      | .peer acc pa => .ok (.peer acc pa)
      | .cow leafAt => .error (.cow dva leafAt)
      | _ => .error .denied

/-- What a unit's translations of a range leave behind on its die: those of its pages up to the first that stops it (spec 07 R169, R174). -/
def noteUnit (s : State) (die asid dva n : Nat) (kind : Kind) : State :=
  let passes (p : Nat × Nat) : Bool := match unitAt s die asid (dva + p.1) kind with | .ok _ => true | .error _ => false
  let ps := pagePieces dva n
  if dva / 2 ^ 56 != 0 then s
  else (ps.takeWhile passes ++ (ps.dropWhile passes).take 1).foldl (fun s p => noteDie s die asid (dva + p.1)) s

/-- The record of a unit's access that waits for the pager (spec 07 R170, R173); none where it does not wait. -/
def UStop.record (id asid : Nat) (e : UStop) : Option FaultRec :=
  let r (dva : Nat) (kind : Kind) (flags : Nat) : FaultRec :=
    { who := .completion id, dva, asid, kind, flags, refaults := 0, seq := 0, remain := 0, stride := 0 }
  match e with
  | .wait kind dva m => some (r dva kind (b2n m))
  | .cow dva _ => some (r dva .cow 0)
  | _ => none

/-- Read `n` bytes: as they stand, or with `from_` each aligned 8-byte word as it stood at a moment since that write, by a free choice (spec 02
R44; log 78). -/
def unitRead (s : State) (die asid dva n : Nat) (from_ : Option Nat := none) : Except UStop (List Byte) :=
  (pagePieces dva n).foldlM (fun a p => do
    match ← unitAt s die asid (dva + p.1) .load with
    | .key k =>
      match s.refusedIn k p.2, from_ with
      | some pa, _ => .error (.bad pa)
      | none, some lo =>
        .ok (a ++ (chunks 8 k p.2).flatMap fun q =>
          s.readAt (lo + Config.headerWordTime s.freeCtr ((k + q.1) / 8) % (s.stamp + 1 - lo)) (k + q.1) q.2)
      | none, none => .ok (a ++ s.read k p.2)
    | _ => .ok (a ++ (List.range p.2).map fun i => Config.outsideByte s.freeCtr (dva + p.1 + i))) []

/-- Write bytes, as the units of a die. -/
def unitWrite (s : State) (die asid dva : Nat) (d : List Byte) : Except UStop State :=
  (pagePieces dva d.length).foldlM (fun s p => do
    let piece := (d.drop p.1).take p.2
    match ← unitAt s die asid (dva + p.1) .store with
    | .key k =>
      match s.refusedIn k p.2 with
      | some pa => .error (.bad pa)
      | none => .ok (s.writeLong (.die die) none k piece)
    | .host pa => .ok (s.emit (.hostWrite pa piece))
    | .peer acc pa => .ok (s.emit (.peerWrite acc pa piece))
    | _ => .error .denied) s

/-- Update a signal word at its home, once, as a release at package scope: add a value, or store it (spec 03 R66, R67, R75). A peer answers
at its own time. -/
def unitSignal (s : State) (die asid dva : Nat) (add : Bool) (v : Word) : Except UStop State := do
  let t ← unitAt s die asid dva .atomic
  let op := if add then AmoOp.add else .swap
  match t with
  | .key k =>
    match s.refusedIn k 8 with
    | some pa => .error (.bad pa)
    | none => .ok (amoSync s (.die die) none k op 8 v 0 false true .pkg).1
  | .peer acc pa =>
    .ok { s with posted := s.posted ++ [{ id := s.nextId, home := .peer acc, cell := noCell, gang := 0, launch := 0, pa, dva, op := .amo op 8 v 0 .none
                                          rel := true, time := s.qtime }]
                 nextId := s.nextId + 1 }
  | _ => .error .denied

/-! ### Completion writes -/

/-- A dropped completion write: a report of KIND 8, or WERR for a brood; a refused line is reported too (spec 03 R75, 16 R359, 18
R389, R393). -/
def dropWrite (s : State) (c : CompWrite) (dva : Nat) (e : UStop) : State :=
  let s1 := match e with
    | .bad pa => refusalReport s c.part pa c.crec
    | _ => s
  match c.brood with
  | some h => s1.modBrood h fun b => { b with werr := true }
  | none => postReport s1 8 0 c.part noCell (BitVec.ofNat 64 dva) c.crec 0 0 0

/-- The completion record, as it is written at a time (spec 03 R73). -/
def launchRecord (l : Launch) (now : Nat) : List Byte :=
  let status := if l.failed then 2 else if l.hard then 1 else if l.heirShape.isSome then 3 else if l.cancelled then 4 else 0
  let kill := l.first.getD { code := 0, cell := noCell, val := 0 }
  let kval := if l.hard then kill.val else match l.heirShape with | some v => v | none => kill.val
  leBytes status 1 ++ leBytes kill.code 1 ++ zeros 2 ++ leBytes kill.cell 4 ++ leBytes l.items 8 ++ leBytes l.gangs 4 ++ leBytes l.killed 4
    ++ leBytes (l.start.getD now) 8 ++ leBytes now 8 ++ leBytes l.heirs 4 ++ leBytes l.preempts 4 ++ leBytes kval.toNat 8 ++ leBytes l.seq 8

/-- One completion write: what stays of it where it waits for the pager. -/
def oneWrite (s : State) (c : CompWrite) (w : Nat × CompWord) : State × Except UStop State :=
  match w.2 with
  | .bytes d => let s1 := noteUnit s c.die c.asid w.1 d.length .store; (s1, unitWrite s1 c.die c.asid w.1 d)
  | .record =>
    let s1 := noteUnit s.tick c.die c.asid w.1 64 .store
    (s1, unitWrite s1 c.die c.asid w.1 (launchRecord (s1.launch (c.launch.getD 0)) s1.qtime))
  | .less => let s1 := noteUnit s c.die c.asid w.1 8 .atomic; (s1, unitSignal s1 c.die c.asid w.1 true (BitVec.allOnes 64))

/-- Do the writes of a completion in order: the state, and the writes left where one waits for the pager. -/
def compWrites (s : State) (c : CompWrite) : List (Nat × CompWord) → State × List (Nat × CompWord)
  | [] => (s, [])
  | w :: rest =>
    match oneWrite s c w with
    | (_, .ok s1) => compWrites s1 c rest
    | (s1, .error e) =>
      match e.record c.id c.asid with
      | some r => ({ s1 with faults := s1.faults ++ [r] }, w :: rest)
      | none => compWrites (dropWrite s1 c w.1 e) c rest

/-- Start or go on with a completion: `done` says what follows the last write. -/
def compRun (done : State → CompWrite → State) (s : State) (c : CompWrite) : State :=
  match compWrites { s with comps := s.comps.filter fun x => x.id != c.id } c c.writes with
  | (s1, []) => done s1 c
  | (s1, left) => { s1 with comps := s1.comps ++ [{ c with writes := left }] }

/-! ### References (spec 20 R411, R412) -/

/-- A die supervisor writes a page-table entry: the supervisor of the die that holds it, where no rule names one (DESIGN CHOICE, log 79). -/
def State.writeEntry (s : State) (at_ : Nat) (w : Word) : State := s.write (.die (at_ / 2 ^ 37)) none at_ (leBytes w.toNat 8)

/-- Make the leaves of the pages of a DVA range not present, shoot them down, and drop the pages' lines (spec 20 R412, 05 R117). -/
def unmapRange (s : State) (asid base n : Nat) : State :=
  let pages := (n + 65535) / 65536
  let s1 := (List.range pages).foldl (fun s i =>
    match walk s asid (base + i * 65536) with
    | .leaf w at_ _ => s.writeEntry at_ (BitVec.ofNat 64 (w / 2 * 2))
    | _ => s) s
  shootdown s1 asid base (pages * 65536)

/-- The DVA ranges of an object: its sections, and its kernel table (spec 02 R41). -/
def Obj.ranges (o : Obj) : List (Nat × Nat) := [(o.text, o.textSz), (o.rd, o.rdSz), (o.data, o.dataSz), (o.ktab, 320 * o.nkern)]

/-- Withdraw what an object mapped; its pages may then be used again (spec 20 R412). -/
def unmapObject (s : State) (o : Obj) : State := o.ranges.foldl (fun s r => unmapRange s o.asid r.1 r.2) s

def State.modObj (s : State) (h : Nat) (f : Obj → Obj) : State := { s with objects := Tab.adjust s.objects h f }

/-- PGEN of a partition. -/
def State.pgenOf (s : State) (p : Nat) : Nat := Tab.getD s.pgen p 0

/-- The count of an object has reached zero (spec 20 R412). -/
def retireObject (s : State) (h : Nat) : State :=
  match Tab.find s.objects h with
  | none => s
  | some o =>
    let u := s.pgenOf o.part + 1
    let s1 := { s with pgen := Tab.setD s.pgen o.part 0 u }
    if o.gen then s1.modObj h fun o => { o with ugen := some u }
    else (unmapObject s1 o).modObj h fun o => { o with ugen := some u, unmapped := true }

/-- Drop one reference. -/
def dropRef (s : State) (h : Nat) : State :=
  match Tab.find s.objects h with
  | none => s
  | some o =>
    let s1 := s.modObj h fun o => { o with refs := o.refs - 1 }
    if o.refs ≤ 1 && o.ugen.isNone then retireObject s1 h else s1

/-- The object whose text holds an address (spec 03 R71). -/
def objectAt (s : State) (part asid a : Nat) : Option Nat :=
  (s.objects.find? fun e => e.2.part == part && e.2.asid == asid && e.2.ugen.isNone && decide (e.2.text ≤ a) && decide (a < e.2.text + e.2.textSz)).map (·.1)

/-- A launch takes a reference on the object that holds an entry. -/
def takeRef (s : State) (lid : Nat) (entry : Word) : State :=
  let l := s.launch lid
  match objectAt s l.part l.asid entry.toNat with
  | some h => (s.modObj h fun o => { o with refs := o.refs + 1 }).modLaunch lid fun l => { l with refs := l.refs ++ [h] }
  | none => s

end Sys2Proof.Machine
end

