-- ==== Sys2Proof/Machine/Assign.lean ====
section
/-! DEFINITION. Taking a launch: its shape, folding, and the dealing of its pieces to dies and hives (spec 02 R45, R49, R50; 04 R86
to R91, R98). -/

namespace Sys2Proof.Machine

/-- The live capacity of a hive for a header (spec 04 R88). -/
def hiveCapacity (s : State) (h : Hdr) (hive : Nat) : Nat :=
  ((List.range 16).filter fun c => s.live (hive * 16 + c)).length * gangsPerCore h

/-- A hive group whose gangs its hive's live capacity cannot hold, or whose hive has left its partition: it waits in SAVED (spec 04 R103,
R104). -/
def homeless (s : State) (grp : Nat) : Bool :=
  match Tab.find s.groups grp with
  | some r =>
    let l := s.launch r.launch
    r.st == GrpState.placed && (s.partOfHive r.hive != some l.part || decide (hiveCapacity s l.hdr r.hive < (liveGangs s grp).length))
  | none => false

/-- The dies that hold hives of a partition, in the dealing order from a die on (spec 04 R90). -/
def dealDies (s : State) (part die : Nat) : List Nat :=
  ((List.range 4).map fun i => (die + i) % 4).filter fun d => (s.hivesOf part).any fun h => h / 16 == d

/-- The hives of a partition on a die, ascending. -/
def hivesOnDie (s : State) (part die : Nat) : List Nat := (s.hivesOf part).filter fun h => h / 16 == die

/-- Fold a header's format until each level fits; none where one still fails (spec 02 R49, R50). -/
def foldHdr (s : State) (part die : Nat) (h : Hdr) : Option Hdr := do
  let f1 := h.fmt1.toNat
  let cap := (s.hivesOf part).foldl (fun m hv => max m (hiveCapacity s h hv)) 0
  let dies := dealDies s part die
  let f0 ← foldUntil (fun f => decide (widProduct f f1 2 ≤ cap)) (foldable h.fmt0.toNat 2) h.fmt0.toNat
  if !h.cor then return { h with fmt0 := BitVec.ofNat 64 f0 }
  let hiveOk (f : Nat) : Bool :=
    (dies.take (widProduct f f1 4)).all fun d => decide (widProduct f f1 3 ≤ (hivesOnDie s part d).length)
  let f0 ← foldUntil hiveOk (foldable f0 3) f0
  let f0 ← foldUntil (fun f => decide (widProduct f f1 4 ≤ dies.length)) (foldable f0 4) f0
  return { h with fmt0 := BitVec.ofNat 64 f0 }

/-- A hive is free for a hive group of a COR launch: no other group of the launch is on it, and none of another die group on its die (spec 04
R91). -/
def corFree (s : State) (lid dieGroup : Nat) (hive : Nat) : Bool :=
  s.groups.all fun e => e.2.launch != lid || e.2.st == .done || (e.2.hive != hive && (e.2.dieGroup == dieGroup || e.2.hive / 16 != hive / 16))

/-- The next hive of a die for a group of gangs that needs `need` of live capacity: at or above the rotor, wrapping; hives that cannot hold it
are passed over (spec 04 R90), and where some are `free`, those that are not. Where no hive can hold it, the first at the rotor takes it, and it
waits there (DESIGN CHOICE, log 70). -/
def dealHive (s : State) (part die need : Nat) (h : Hdr) (free : Nat → Bool) : Option Nat :=
  let rotor := Tab.getD (s.die die).rotor part 0
  let all := ((List.range 16).map fun i => die * 16 + (rotor + i) % 16).filter fun hv => s.partOfHive hv == some part
  let order := if all.any free then all.filter free else all
  match order.find? fun hv => decide (need ≤ hiveCapacity s h hv) with
  | some hv => some hv
  | none => order.head?

/-- Deal one hive group to a hive of a die, and step the rotor. -/
def dealGroup (s : State) (lid part die num dieGroup : Nat) (h : Hdr) : State :=
  match dealHive s part die (widProduct h.fmt0.toNat h.fmt1.toNat 2) h fun hv => !h.cor || corFree s lid dieGroup hv with
  | none => s
  | some hv =>
    let s1 := s.modDie die fun d => { d with rotor := Tab.setD d.rotor part 0 ((hv % 16 + 1) % 16) }
    { s1 with groups := Tab.put s1.groups s1.nextId { launch := lid, num, dieGroup, hive := hv, st := .waiting }, nextId := s1.nextId + 1 }

/-- Deal all hive groups of a launch. -/
def dealAll (s : State) (lid part die : Nat) (h : Hdr) : State :=
  let f0 := h.fmt0.toNat
  let f1 := h.fmt1.toNat
  let dies := dealDies s part die
  let n := widProduct f0 f1 4
  let m := widProduct f0 f1 3
  (List.range n).foldl (fun s dg =>
    (List.range m).foldl (fun s hg => dealGroup s lid part ((dies[dg % max 1 dies.length]?).getD 0) (dg * m + hg) dg h) s) s

/-- A launch is taken: it takes its reference, and is assigned or fails (spec 04 R98). The launch's number is the second part. -/
def takeLaunch (s : State) (part queue asid seq : Nat) (h : Hdr) (psig : Word) (irq : Option Nat) (sib : Option (Nat × Nat)) : State × Nat :=
  let lid := s.nextId
  let die := bits (s.queue queue).qctl.toNat 5 4
  let shape := if hdrOk sib.isSome h then foldHdr s part die h else none
  let l : Launch := { (default : Launch) with st := .assigned, part, queue, asid, seq, hdr := shape.getD h, psig, irq, lgen := s.pgenOf part, sib, failed := shape.isNone }
  let s1 := takeRef { s with launches := Tab.put s.launches lid l, nextId := lid + 1 } lid h.entry
  match shape with
  | some h' => (dealAll s1 lid part die h', lid)
  | none => (s1, lid)

end Sys2Proof.Machine
end

