-- ==== Sys2Proof/Machine/BroodUnit.lean ====
section
/-! DEFINITION. The brood unit: descriptors, statistics, completion, cancellation (spec 02 R54, R55; 16 R345 to R361), and the
completion of launches (03 R73 to R75). -/

namespace Sys2Proof.Machine

/-! ### Descriptor fields (spec 02 R54) -/

def Brood.u (b : Brood) (o n : Nat) : Nat := leNat ((b.desc.drop o).take n)
def Brood.mode (b : Brood) : Nat := b.u 1 1
def Brood.g (b : Brood) : Nat := b.u 2 2
def Brood.q (b : Brood) : Nat := b.u 4 2
def Brood.sibf (b : Brood) : Nat := b.u 6 1

/-- The sibling `i`. -/
def Brood.sibAt (b : Brood) (i : Nat) : Sib := (b.sibs[i]?).getD {}

/-- Every sibling is final. -/
def Brood.final (b : Brood) : Bool := b.sibs.all fun x => x.status != 0

/-- Siblings of the statuses given. -/
def Brood.count (b : Brood) (p : Nat → Bool) : Nat := (b.sibs.filter fun x => p x.status).length

/-! ### Statistics (spec 16 R356) -/

/-- RN64 of an exact value, as a value. -/
def r64 (v : Fv) : Fv := decodeIeee fmt64 (roundFv fmt64 .rne v).1

/-- RN32 of a value, never −0. -/
def adv32 (v : Fv) : W32 :=
  let c := (roundFv fmt32 .rne v).1
  if c = 2 ^ 31 then 0 else BitVec.ofNat 32 c

def val32F (r : W32) : Fv := decodeIeee fmt32 r.toNat

/-- The difference of two values, rounded to FP64. -/
def diff64 (a b : Fv) : Fv := r64 (Fv.add .rne a b.flip).1

/-- The mean, and σ of the rewards of the set J. -/
def broodStats (unbiased : Bool) (rs : List W32) : Fv × Fv :=
  let n := rs.length
  let sum := rs.foldl (fun a r => r64 (Fv.add .rne a (val32F r)).1) .zero
  let mu := r64 (Fv.div sum (Fv.ofInt n 0)).1
  let v := rs.foldl (fun a r => let d := diff64 (val32F r) mu; r64 (Fv.add .rne a (r64 (Fv.mul d d).1)).1) .zero
  let var := r64 (Fv.div v (Fv.ofInt (if unbiased && n > 1 then n - 1 else n : Nat) 0)).1
  (mu, r64 (Fv.sqrt var).1)

/-- Statuses and advantages at completion. -/
def broodJudge (b : Brood) : Brood :=
  let rs := (b.sibs.filter fun x => x.status == 1).map (·.reward)
  let set (st : Nat) (f : W32 → W32) : Brood :=
    { b with sibs := b.sibs.map fun x => if x.status = 1 then { x with status := st, adv := f x.reward } else { x with adv := 0 } }
  if rs.length < b.q then set 3 fun _ => 0
  else
    let (mu, sigma) := broodStats (bit b.mode 0) rs
    if sigma.isZero then set 2 fun _ => 0
    else set 1 fun r =>
      let d := diff64 (val32F r) mu
      if bit b.mode 1 then adv32 d
      else adv32 (r64 (Fv.div d (r64 (Fv.add .rne sigma (val32F (BitVec.ofNat 32 (b.u 0x34 4)))).1)).1)

/-! ### Completion (spec 16 R358, R359) -/

/-- Free the entry once the brood is complete and its sibling launches are gone (spec 16 R338). -/
def broodRelease (s : State) (h : Nat) : State :=
  match s.brood h with
  | some b =>
    if b.st == .complete && b.sibs.all (fun x => match x.launch with | some l => (Tab.find s.launches l).isNone | none => true) then
      let key := broodKey h
      let gen := bits h 29 12
      { s with broods := Tab.del s.broods key, bgen := Tab.setD s.bgen key 1 (if gen = 2 ^ 18 - 1 then 1 else gen + 1) }
    else s
  | none => s

/-- Step 5: COMPLETE, and the waiting BJOINs go on. -/
def broodDone (s : State) (h : Nat) : State :=
  let s1 := s.modBrood h fun b => { b.stopClock s.qtime with st := .complete }
  broodRelease (wakeWhere s1 fun _ w => match w with | .bjoin h' _ => h' == h | _ => false) h

/-- Word `i` of an array of `n` words at `base`; an array whose address is 0 is skipped. -/
def arrayWrites (base : Nat) (ws : List W32) : List (Nat × CompWord) :=
  if base = 0 then [] else ws.zipIdx.map fun e => (base + 4 * e.2, .bytes (leBytes e.1.toNat 4))

/-- The reward word of a sibling (spec 16 R357). -/
def Sib.rewardWord (x : Sib) : W32 := if x.status = 1 ∨ x.status = 2 ∨ x.status = 3 ∨ x.status = 5 then x.reward else 0

/-- Steps 3 to 5: the time to STAMP as it is then, the decrement, and the waiters. -/
def broodStamp (s : State) (h : Nat) : State :=
  match s.brood h with
  | none => s
  | some b =>
    let s1 := s.tick
    let writes := (if b.u 0x60 8 = 0 then [] else [(b.u 0x60 8, .bytes (leBytes s1.qtime 8))]) ++ (if b.u 0x58 8 = 0 then [] else [(b.u 0x58 8, .less)])
    compRun (fun s _ => broodDone s h) { s1 with nextId := s1.nextId + 1 } { id := s1.nextId, asid := b.asid, part := b.part, crec := 0, die := broodDie h, writes, brood := some h }

/-- A brood whose siblings are all final completes: the statistics, the arrays in order, and what follows. -/
def broodComplete (s : State) (h : Nat) : State :=
  match s.brood h with
  | none => s
  | some b =>
    if b.st == .complete || !b.final || s.comps.any (fun c => c.brood == some h) then s
    else
      let b1 := broodJudge b
      let s2 := s.modBrood h fun b => { b with sibs := b1.sibs }
      let writes := arrayWrites (b.u 0x40 8) (b1.sibs.map Sib.rewardWord) ++ arrayWrites (b.u 0x48 8) (b1.sibs.map (·.adv))
        ++ arrayWrites (b.u 0x50 8) (b1.sibs.map fun x => BitVec.ofNat 32 x.status)
      let c : CompWrite := { id := s2.nextId, asid := b.asid, part := b.part, crec := 0, die := broodDie h, writes, brood := some h, stamps := true }
      compRun (fun s _ => broodStamp s h) { s2 with nextId := s2.nextId + 1 } c

/-! ### Cancellation (spec 16 R346, R352) -/

/-- A sibling's copied leaves go back to their prompt mapping, and its pool entries are free (spec 16 R346). -/
def returnPages (s : State) (h i : Nat) : State :=
  match s.brood h with
  | none => s
  | some b =>
    let mine := b.copied.filter fun e => e.2.1 == i
    let s1 := mine.foldl (fun s e => s.write (.die (broodDie h)) none e.1 (leBytes e.2.2.toNat 8)) s
    let s2 := shootdown s1 b.asid (b.u 0x18 8 + i * b.u 0x20 8) (b.u 0x10 8)
    { s2.modBrood h fun b => { b with copied := b.copied.filter fun e => e.2.1 != i, owned := b.owned.filter fun e => e.2 != i } with
      cows := s2.cows.filter fun c => !(c.brood == h && c.sib == i) }

/-- Unplaced work of a launch is discarded (spec 03 R74). -/
def discardUnplaced (s : State) (lid h : Nat) : State :=
  if s.groups.any fun e => e.2.launch == lid && e.2.st == GrpState.waiting then
    ({ s with groups := Tab.mapV s.groups fun g => if g.launch = lid && g.st == GrpState.waiting then { g with st := .done } else g }).modLaunch lid
      fun l => { l with cancelled := true, first := match l.first with | some k => some k | none => some { code := 0x83, cell := noCell, val := BitVec.ofNat 64 h } }
  else s

/-- Kill every gang of a launch. -/
def killLaunch (s : State) (lid code : Nat) (val : Word) : State :=
  (s.gangs.filter fun e => e.2.launch == lid).foldl (fun s e => killPlain s e.1 code val ((e.2.cells.head?).getD noCell)) s

/-- Cancel a sibling that is PENDING. -/
def cancelSib (s : State) (h i status : Nat) : State :=
  match s.brood h with
  | none => s
  | some b =>
    let s1 := s.modBrood h fun b => { b with sibs := b.sibs.modify i fun x => { x with status } }
    match (b.sibAt i).launch with
    | some lid => returnPages (killLaunch (discardUnplaced s1 lid h) lid 0x83 (BitVec.ofNat 64 h)) h i
    | none => s1

/-- Cancel the PENDING siblings among those given: the state, and how many. -/
def cancelAll (s : State) (h status : Nat) (which : List Nat) : State × Nat :=
  match s.brood h with
  | none => (s, 0)
  | some b =>
    if b.st == .complete then (s, 0)
    else
      let l := which.filter fun i => (b.sibAt i).status == 0 && decide (i < b.sibs.length)
      (broodComplete (l.foldl (fun s i => cancelSib s h i status) s) h, l.length)

/-! ### The completion of a launch (spec 03 R73 to R75) -/

/-- The die whose unit completes a launch: its queue's, or its brood's. -/
def Launch.die (s : State) (l : Launch) : Nat :=
  match l.sib with
  | some (h, _) => broodDie h
  | none => (s.queue l.queue).die

/-- What follows the last completion write of a launch: its references go, a PENDING sibling is NOJOIN, and it is gone. -/
def launchGone (s : State) (lid : Nat) : State :=
  match Tab.find s.launches lid with
  | none => s
  | some l =>
    let s1 : State := { s with launches := Tab.del s.launches lid
                               groups := s.groups.filter fun e => e.2.launch != lid
                               gangs := s.gangs.filter fun e => e.2.launch != lid }
    let s2 := l.refs.foldl dropRef s1
    match l.sib with
    | none => s2
    | some (h, i) =>
      let s3 := s2.modBrood h fun b => if (b.sibAt i).status = 0 && b.st != .complete then { b with sibs := b.sibs.modify i fun x => { x with status := 6 } } else b
      broodRelease (broodComplete s3 h) h

/-- The end of a chain of completion writes: the MSI-X vector, and what was completed. -/
def compDone (s : State) (c : CompWrite) : State :=
  let s1 := match c.irq with
    | some v => s.msix (bits (s.partReg c.part) 59 56) v
    | none => s
  let s2 := match c.queue with
    | some q => s1.modQueue q fun x => { x with busy := .none, floor := s1.stamp }
    | none => s1
  let s3 := match c.launch with
    | some l => launchGone s2 l
    | none => s2
  match c.brood with
  | some h => if c.stamps then broodStamp s3 h else broodDone s3 h
  | none => s3

/-- Every gang of a launch has ended and no hive group is left. -/
def launchEnded (s : State) (lid : Nat) : Bool :=
  (s.groups.all fun e => e.2.launch != lid || e.2.st == .done) && s.gangs.all fun e => e.2.launch != lid || e.2.st == .retired || e.2.st == .killed

/-- The accesses of a launch that are not yet performed. -/
def launchRemotes (s : State) (lid : Nat) : Bool := s.remotes.any fun e => e.2.posted && !e.2.arrived && (s.gang e.2.gang).launch == lid

/-- A MOPA of a launch whose gang has retired has its decrement still to perform (spec 20 R400, 13 R307). -/
def launchMopas (s : State) (lid : Nat) : Bool :=
  s.cores.any fun e => match e.2.unit with | some u => u.ocs.isSome && !u.consumed && (s.gang u.gang).launch == lid | none => false

/-- Complete a launch whose work has ended: its accesses are performed, then its record, CSIG, PSIG and vector follow in order. -/
def completeLaunch (s : State) (lid : Nat) : State :=
  match Tab.find s.launches lid with
  | none => s
  | some l =>
    if l.st == .complete || !launchEnded s lid || launchRemotes s lid || launchMopas s lid then s
    else
      let mine := s.posted.filter fun p => p.launch == lid
      let s1 := performAll { s with posted := s.posted.filter fun p => p.launch != lid } mine
      let s2 := s1.modLaunch lid fun l => { l with st := .complete }
      let word (d : Nat) (b : CompWord) : List (Nat × CompWord) := if d = 0 then [] else [(d, b)]
      let writes := word l.hdr.crec.toNat .record ++ word l.hdr.csig.toNat .less ++ word l.psig.toNat .less
      let c : CompWrite :=
        { id := s2.nextId, asid := l.asid, part := l.part, crec := l.hdr.crec, die := l.die s, writes, irq := l.irq, launch := some lid }
      compRun compDone { s2 with nextId := s2.nextId + 1 } c

/-- LAUNCH_COMPLETE (spec 03 R75). -/
def execLaunchComplete (launch : Nat) (s : State) : Host.Outcome State Fault Refusal := .next (completeLaunch s launch)

end Sys2Proof.Machine
end

