-- ==== Sys2Proof/Machine/Retire.lean ====
section
/-! DEFINITION. RETIRE and RETIRE.H, the hand-over to an heir, and the release of unloaded objects (spec 20). -/

namespace Sys2Proof.Machine

/-! ### Pending asynchronous traps (spec 18 R373) -/

/-- Take the oldest pending asynchronous trap at the cell's level; a refusal that was discarded shows in tval[63] (spec 07 R165). -/
def takeAsync (s : State) (cid : Nat) : State :=
  let c := s.cell cid
  match c.asyncs with
  | [] => s
  | a :: rest =>
    let s1 := s.modCell cid fun c => { c with asyncs := rest, povf := false }
    takeTrap s1 cid { cause := a.cause, tval := a.tval ||| BitVec.ofNat 64 (b2n c.povf * 2 ^ 63), epc := c.pc, ilen := 0, async := true, vrec := none, mrec := false }

/-! ### RETIRE (spec 20 R398 to R400) -/

/-- Every register of the cell is full, and every hand-off entry it reserved has its value (spec 18 R137, 06 R153). -/
def allFull (s : State) (cid : Nat) : Bool :=
  let c := s.cell cid
  c.xe == 0 && c.fe == 0 && c.ve == 0 && c.pend.isEmpty
    && ((s.gang c.gang).hoq.getD []).all fun q => q.2.all fun e => e.by_ != cid || e.val.isSome

/-- A cell has copies that have not completed. -/
def copiesLeft (s : State) (cid : Nat) : Bool :=
  (s.core (coreOf cid)).copies.any fun c => c.cell == cid && c.gang == (s.cell cid).gang

/-- What RETIRE and RETIRE.H do first. -/
def retireWaits (s : State) : Op Unit :=
  if copiesLeft s s.cur || !allFull s s.cur then .error (.park s .copies)
  else if !s.me.asyncs.isEmpty then
    let s1 := unlatch s s.cur
    .error (.fin (takeAsync s1 s1.cur))
  else .ok ()

/-- One more item of the cell's launch. -/
def countItem (s : State) : State := s.modLaunch s.myGang.launch fun l => { l with items := l.items + 1 }

/-- The next WID of the current cell's item, if it has SERIAL values left. -/
def nextWid (s : State) : Option Nat := widNext s.myGang.hdr.fmt0.toNat s.myGang.hdr.fmt1.toNat s.me.wid.toNat

/-- The current cell starts its next item: the state of R51 for the new WID, with its mailbox kept; no loop-back test. -/
def restart (s : State) (wid : Nat) : State :=
  let c := s.me
  let s1 := s.modCore (coreOf s.cur) fun k => { k with vec := k.vec.filter fun v => v.cell != s.cur }
  s1.setCell s.cur (c.keepView { cellAt c.gang c.j s.myGang.hdr (BitVec.ofNat 64 wid) with mbox := c.mbox, faultSeq := c.faultSeq, turns := c.turns })

/-- The current cell halts with DONE. -/
def haltCell (s : State) : State := s.modMe fun c => { c.clearInstr with run := .done, resv := none }

/-- Every cell of a gang has ended. -/
def allEnded (s : State) (gid : Nat) : Bool := (s.gang gid).cells.all fun c => (s.cell c).run == .done

/-- The turn of an instruction whose state is final is counted. -/
def ended (s : State) : Res := .fin { s with freeCtr := s.freeCtr + 1 }

/-- RETIRE. -/
def execRetire (s : State) : Host.Outcome State Fault Refusal :=
  issue 8 noEarlyCheck [] [] (fun s => Op.res do
    retireWaits s
    let s := countItem s
    match nextWid s with
    | some w => .ok (ended (restart s w))
    | none =>
      let gid := s.me.gang
      let s1 := (haltCell s).modGang gid fun g => { g with claim := none, plain := true }
      .ok (ended (if allEnded s1 gid then retireGang s1 gid else barDepart s1 gid))) s

/-! ### The heir's descriptor and header (spec 02 R52, R53; 20 R402, R403) -/

/-- HEIR_SHAPE's tval. -/
def heirVal (code detail : Nat) : Word := BitVec.ofNat 64 (code + 256 * (detail % 256))

/-- A field of a descriptor. -/
def dsc (d : List Byte) (o n : Nat) : Nat := leNat ((d.drop o).take n)

/-- The first entry of a list of checks that fails. -/
def firstOf (l : List (Bool × Nat)) : Option Nat := (l.find? fun e => e.1).map (·.2)

/-- The first bad field of an heir descriptor, by its offset. -/
def heirBad (d : List Byte) : Option Nat :=
  let full := dsc d 1 1 = 0
  let dlsu := dsc d 0x28 1
  let dacc := dsc d 0x29 1
  let dvg := dsc d 0x2A 1
  firstOf [
    (dsc d 0 1 != 1, 0), (dsc d 1 1 > 1, 1), (dsc d 2 1 > 3, 2), (dsc d 4 1 / 16 != 0, 4), (dsc d 5 1 / 64 != 0, 5), (dsc d 6 2 != 0, 6),
    (bit (dsc d 8 4) 0, 8), (dsc d 0x14 4 != 0, 0x14), (dsc d 0x18 8 % (if full then 64 else 4) != 0, 0x18),
    (if full then dlsu != 0xFF else decide (68 < dlsu) && dlsu != 0xFF, 0x28),
    (if full || !bit dacc 7 then dacc != 0 else bits dacc 6 4 != 0, 0x29),
    (if full || !bit dvg 7 then dvg != 0 else bits dvg 6 2 != 0, 0x2A),
    (dsc d 0x2B 5 != 0, 0x2B), (full && dsc d 0x40 64 != 0, 0x40)]

/-- Replace a bit field of a word. -/
def setField (w : Word) (hi lo v : Nat) : Word :=
  BitVec.ofNat 64 (w.toNat - bits w.toNat hi lo * 2 ^ lo + v % 2 ^ (hi + 1 - lo) * 2 ^ lo)

/-- The heir's header in DELTA form. -/
def deltaHdr (h : Hdr) (d : List Byte) : Hdr :=
  let c := if dsc d 0x28 1 = 0xFF then h.ctl0 else setField h.ctl0 55 48 (dsc d 0x28 1)
  let c := if bit (dsc d 0x29 1) 7 then setField c 43 40 (dsc d 0x29 1) else c
  let c := if bit (dsc d 0x2A 1) 7 then setField c 17 16 (dsc d 0x2A 1) else c
  { h with ctl0 := c, entry := BitVec.ofNat 64 (dsc d 0x18 8)
           args := (List.range 8).map fun i => BitVec.ofNat 64 (dsc d (0x40 + 8 * i) 8) }

/-- SIB and BHANDLE of a sibling pass to its heir (spec 20 R410). -/
def heirHdr (pred h : Hdr) : Hdr :=
  { h with ctl0 := setField h.ctl0 1 1 (b2n pred.sib), ctl1 := setField h.ctl1 63 32 pred.bhandle }

/-- The WID of an heir's cell. -/
def heirWid (h : Hdr) (d : List Byte) (wid : Word) : Nat :=
  let f0 := h.fmt0.toNat
  let v := (wid.toNat &&& dsc d 0x30 8) ||| dsc d 0x38 8
  (widAt f0 5).foldl (fun v i => v - widValue f0 v i * 2 ^ widPos f0 i) v

/-- Code 7's detail for one cell's WID. -/
def widBad (h : Hdr) (wid j : Nat) : Option Nat :=
  let f0 := h.fmt0.toNat
  let f1 := h.fmt1.toNat
  match (List.range 6).find? fun i => decide (widExtent f0 f1 i ≤ widValue f0 wid i) with
  | some i => some i
  | none => if wid / 2 ^ widPos f0 6 != 0 then some 0xFE else if widIndex f0 f1 wid (widAt f0 1) != j then some 0xFF else none

/-- The first byte of a FULL header that breaks R45, folding apart, or that carries SIB or BHANDLE. -/
def hdrBadAt (h : Hdr) : Option Nat :=
  let c := h.ctl0.toNat
  let f0 := h.fmt0.toNat
  let f1 := h.fmt1.toNat
  firstOf ([
    (h.sib || bits c 5 4 != 0 || bit c 0, 0), (bits c 15 8 != 0, 1), (bits c 23 18 != 0, 2),
    (bits c 31 28 != 0 || h.cells == 0 || decide (8 < h.cells) || h.cells != widProduct f0 f1 1, 3),
    (bits c 39 36 != 0, 4), (bits c 47 44 != 0, 5), (decide (68 < h.lsu) || (h.tvec != 0 && decide (h.lsu * 4 < h.cells)), 6), (bits c 63 56 != 1, 7),
    (h.entry.toNat % 4 != 0, 8), (!widValid f0 (f1 % 2 ^ widPos f0 6), 0x10), (f1 / 2 ^ widPos f0 6 != 0, 0x18),
    (bits h.ctl1.toNat 7 0 != 0, 0x20), (bits h.ctl1.toNat 15 10 != 0 || decide (1 < h.bclass), 0x21), (h.bhandle != 0, 0x24),
    (h.tvec.toNat % 4 != 0, 0x28), (h.crec.toNat % 64 != 0, 0x30), (h.csig.toNat % 8 != 0, 0x38)]
    ++ h.seg.zipIdx.map fun e => (decide (2 ^ 57 ≤ e.1.1.toNat) || (decide (6 ≤ e.2) && e.1 != (0, 0)), 0x80 + 16 * e.2))

/-- Gangs that hold capacity on a core (spec 04 R87, R100). -/
def residentOn (s : State) (core : Nat) : List (Nat × Gang) :=
  s.gangs.filter fun e => e.2.core == core && (e.2.st == .running || e.2.st == .landing || e.2.st == .handover)

/-- LS units `a` to `a + n - 1` of a core are held by no gang but `gid`, and reserved to no waiting item (spec 04 R91, R95). -/
def unitsFree (s : State) (core gid a n : Nat) : Bool :=
  decide (a + n ≤ 68) && ((residentOn s core).all fun e => e.1 == gid || !(overlap e.2.lsBase e.2.units a n))
    && (s.core core).rsv.all fun r => r.units.all fun u => !(decide (a ≤ u) && decide (u < a + n))

/-- The tiles of a core that other gangs hold, or that are reserved to waiting items. -/
def tilesTaken (s : State) (core gid : Nat) : Nat :=
  (s.core core).rsv.foldl (fun n r => n + r.tiles) (((residentOn s core).filter fun e => e.1 != gid).foldl (fun n e => n + e.2.tileCount) 0)

/-- Code 10's detail: whether the core can hold the heir in the place of its predecessor. -/
def heirFits (s : State) (gid : Nat) (h : Hdr) : Option Nat :=
  let g := s.gang gid
  if !unitsFree s g.core gid g.lsBase h.lsu then some 0
  else if popcount g.hdr.accm 4 < popcount h.accm 4 && decide (4 < tilesTaken s g.core gid + popcount h.accm 4) then some 1
  else none

/-- The codes 3 to 7, 9 and 10, in their order. -/
def heirTest (s : State) (gid : Nat) (d : List Byte) (h : Hdr) : Option (Nat × Nat) :=
  let g := s.gang gid
  let p := g.hdr
  let acc := dsc d 4 1
  if h.cells != p.cells then some (3, h.cells)
  else match (List.range 4).find? fun j => dsc d (0x21 + 2 * j) 1 != 0 && decide (min p.lsu h.lsu < dsc d (0x20 + 2 * j) 1 + dsc d (0x21 + 2 * j) 1) with
  | some j => some (4, j)
  | none =>
  match (List.range 4).find? fun t => bit acc t && !(bit p.accm t && bit h.accm t) with
  | some t => some (5, t)
  | none =>
  if dsc d 0x10 4 != 0 && h.vgrp != s.me.g then some (6, h.vgrp)
  else match (g.cells.zipIdx.filterMap fun e => widBad h (heirWid h d (s.cell e.1).wid) e.2).head? with
  | some x => some (7, x)
  | none =>
  match (if dsc d 1 1 = 0 then hdrBadAt h else none) with
  | some o => some (9, o)
  | none => (heirFits s gid h).map fun x => (10, x)

/-- Read the descriptor and the header it names. No rule says what follows an HDRP above the DVA space, or a leaf that denies the read: both
trap ACCESS_FAULT with tval := HDRP (DESIGN CHOICE, log 69). -/
def readHeir (s : State) (ea : Word) (dva : Nat) : Op (State × List Byte × Hdr) := do
  let (s, d, skip) ← loadBlock s ea dva 128 0
  if dsc d 1 1 = 0 then
    let p := dsc d 0x18 8
    if p / 2 ^ 57 != 0 then .error (.trap s cACCESS_FAULT (BitVec.ofNat 64 p))
    else
      let (s, b, _) ← loadBlock s (BitVec.ofNat 64 p) p 256 skip
      .ok (s, d, hdrOf b)
  else .ok (s, d, deltaHdr s.myGang.hdr d)

/-- A test of R403 failed: the claim goes, and the ends under it were plain ones (spec 20 R404). -/
def heirFail (s : State) (code detail : Nat) : Res :=
  let gid := s.me.gang
  let s1 := s.modGang gid fun g => { g with claim := none, plain := g.plain || decide (1 < g.cells.length) }
  .trap (barDepart s1 gid) cHEIR_SHAPE (heirVal code detail)

/-- RETIRE.H. -/
def execRetireH (a : Reg) (s : State) : Host.Outcome State Fault Refusal :=
  issue 8 noEarlyCheck [.x a] [] (fun s => Op.res do
    retireWaits s
    let ea := getX s a
    match segCheck s.myGang ea 128 rRead with
    | .error (cause, tval) => .error (.trap s cause tval)
    | .ok dva =>
      if ea.toNat % 64 != 0 then .error (.trap s cMISALIGNED ea)
      else if (nextWid s).isSome then .error (.trap s cHEIR_SHAPE (heirVal 8 0))
      else
        let gid := s.me.gang
        let g := s.myGang
        let w := BitVec.ofNat 64 dva
        if (g.claim.isNone && g.plain) || (g.claim.isSome && g.claim != some w) then .error (.trap s cHEIR_SHAPE (heirVal 2 0))
        else
          let s := s.modGang gid fun g => { g with claim := some w }
          if g.cells.any fun c => c != s.cur && (s.cell c).run != .done then .ok (ended (haltCell (countItem s)))
          else
            let (s, d, h) ← readHeir s ea dva
            match heirBad d with
            | some o => .error (heirFail s 1 o)
            | none =>
              match heirTest s gid d h with
              | some (code, x) => .error (heirFail s code x)
              | none =>
                let s1 := (haltCell (countItem s)).modGang gid fun g =>
                  { g with ordered := g.st == .landing, st := .handover, heir := some (d, heirHdr g.hdr h) }
                .ok (ended s1)) s

/-! ### The hand-over (spec 20 R405 to R410) -/

/-- The heir's registers of one kind: the predecessor's where the mask names them. -/
def passed {n w : Nat} (mask : Nat) (old : Vector (BitVec w) n) (new : Vector (BitVec w) n) : Vector (BitVec w) n :=
  Vector.ofFn fun i => if bit mask i.val then old[i] else new[i]

/-- A cell of the heir. -/
def heirCell (gid : Nat) (d : List Byte) (h : Hdr) (c : Cell) : Cell :=
  let n := cellAt gid c.j h (BitVec.ofNat 64 (heirWid h d c.wid))
  { n with
    x := passed (dsc d 8 4) c.x n.x
    f := passed (dsc d 0xC 4) c.f n.f
    v := passed (dsc d 0x10 4) c.v n.v
    m := passed (dsc d 3 1) c.m n.m
    mbox := c.mbox
    faultSeq := c.faultSeq }

/-- An LS unit is in one of the descriptor's ranges. -/
def inLsr (d : List Byte) (u : Nat) : Bool :=
  (List.range 4).any fun j => decide (dsc d (0x20 + 2 * j) 1 ≤ u) && decide (u < dsc d (0x20 + 2 * j) 1 + dsc d (0x21 + 2 * j) 1)

/-- Scrub one LS unit of a core, with its tags. -/
def scrubUnit (s : State) (core u : Nat) : State :=
  let s1 := s.scrub (lsKey core (u * 4096)) 4096
  { s1 with rot := Tab.del s1.rot (core * 68 + u) }

/-- The tiles at a hand-over (spec 20 R407). -/
def heirTiles (s : State) (gid : Nat) (d : List Byte) (h : Hdr) : State :=
  let g := s.gang gid
  let keep := dsc d 4 1
  let lost (t : Nat) : Bool := !bit keep t
  let s1 := if (s.core g.core).occupant = some gid then
      s.modCore g.core fun k => { k with tiles := k.tiles.filter fun e => !lost (e.1 / 4096) }
    else s
  let s2 := s1.modGang gid fun g => { g with imgv := g.imgv &&& BitVec.ofNat 4 keep, dirty := g.dirty &&& BitVec.ofNat 4 keep }
  if (s.core g.core).holder = some gid then s2.modCore g.core fun k => { k with qleft := h.quantum } else s2

/-- The segments an heir has from its predecessor; seg5 of a sibling always (spec 20 R406, R410). -/
def heirSegs (g : Gang) (mask : Nat) : Tab (Word × Word) :=
  ((List.range 6).filter fun n => bit mask n || (n == 5 && g.hdr.sib)).map fun n => (n, g.segment n)

/-- What of the predecessor's work is still on its way; a refusal of it must reach the predecessor's cell (spec 20 R406). -/
def handoverBusy (s : State) (gid : Nat) : Bool :=
  let k := s.core (s.gang gid).core
  (k.vec.any fun v => v.gang == gid) || (match k.unit with | some u => u.gang == gid | none => false)
    || s.remotes.any fun e => e.2.gang == gid && e.2.posted

/-- The steps of R405 after the predecessor's work has been performed. -/
def handOver (s : State) (gid : Nat) (d : List Byte) (h : Hdr) : State :=
  let g := s.gang gid
  let mine := s.posted.filter fun p => p.gang == gid
  let s1 := performAll { s with posted := s.posted.filter fun p => p.gang != gid } mine
  let s2 := (List.range (max g.hdr.lsu h.lsu)).foldl (fun s u => if inLsr d u then s else scrubUnit s g.core (g.lsBase + u)) s1
  let s3 := freedPart (heirTiles s2 gid d h) gid [] (range (g.lsBase + h.lsu) (g.hdr.lsu - h.lsu)) (popcount g.hdr.accm 4 - popcount h.accm 4)
  let s4 := s3.modGang gid fun g =>
    { g with segs := heirSegs g (dsc d 5 1), st := if g.ordered then .landing else .running, hdr := h, win := [0, 0, 0, 0], tmax := List.replicate 16 0, hoq := none, hoqSaved := []
             claim := none, plain := false, heir := none, ordered := false, mrec := none }
  let s5 := g.cells.foldl (fun s c => s.modCell c fun v =>
    { (heirCell gid d h v).fromNow s1.stamp with
      run := if g.ordered then .landed else .ready
      outer := { scope := dsc d 2 1, cells := g.cells, upto := s1.stamp, start := (v.outer.head?.map (·.start)).getD v.start } :: v.outer }) s4
  let s6 := (takeRef s5 g.launch h.entry).modLaunch g.launch fun l => { l with heirs := l.heirs + 1 }
  wakeWhere { s6 with feq := s6.feq.filter fun e => e.gang != gid } fun _ w => w == .hoq

/-- HEIR_HANDOVER. -/
def execHeirHandover (gang : Nat) (s : State) : Host.Outcome State Fault Refusal :=
  .next <|
    let g := s.gang gang
    match g.heir with
    | some (d, h) => if g.st == .handover && !handoverBusy s gang then handOver s gang d h else s
    | none => s

/-! ### Unloaded objects (spec 20 R412 to R414) -/

/-- No launch of the object's partition is older than its UGEN. -/
def noOlder (s : State) (o : Obj) (u : Nat) : Bool := s.launches.all fun e => e.2.part != o.part || decide (u ≤ e.2.lgen)

/-- OBJECT_RANGE_RELEASE: the retired ranges of a withdrawn object are released. -/
def execObjectRangeRelease (handle : Nat) (s : State) : Host.Outcome State Fault Refusal :=
  .next <| match Tab.find s.objects handle with
  | some o =>
    match o.ugen with
    | some u => if o.unmapped && noOlder s o u then { s with objects := Tab.del s.objects handle } else s
    | none => s
  | none => s

/-- GENERATION_UNMAP: in generation mode the object's pages are withdrawn once no older launch remains. -/
def execGenerationUnmap (handle : Nat) (s : State) : Host.Outcome State Fault Refusal :=
  .next <| match Tab.find s.objects handle with
  | some o =>
    match o.ugen with
    | some u => if o.gen && !o.unmapped && noOlder s o u then (unmapObject s o).modObj handle fun o => { o with unmapped := true } else s
    | none => s
  | none => s

end Sys2Proof.Machine
end

