-- ==== Sys2Proof/Machine/Landing.lean ====
section
/-! DEFINITION. Landings of a pre-emption: forced landings, the save of a gang and its context block, and its resumption (spec 09
R225, R226; 10 R246; 11 R270; 18 R381 to R387). -/

namespace Sys2Proof.Machine

/-! ### Forced landings (spec 18 R382) -/

/-- The element group that element `n` begins, rounded up (spec 09 R225). -/
def groupUp (step n : Nat) : Nat := (n + step - 1) / step * step

/-- An element of a store may still be taken back: its access waits at the cell's port or on its way, and no younger access of the cell to its
bytes stands behind it (spec 09 R224). -/
def VStore.open_ (s : State) (cid gid : Nat) (e : VStore) : Bool :=
  s.posted.any (fun p => p.id == e.post && p.cell == cid && p.gang == gid
      && !s.posted.any fun q => q.cell == cid && q.gang == gid && decide (e.post < q.id) && q.home == p.home && overlap q.pa q.size p.pa p.size)
  || match Tab.find s.remotes e.post with
    | some r => r.cell == cid && r.gang == gid && !r.arrived
        && !s.remotes.any fun q => q.2.cell == cid && q.2.gang == gid && decide (e.post < q.1) && overlap q.2.key q.2.op.size r.key r.op.size
    | none => false

/-- The elements of a flight that are done for good: a load's all are, a store's up to the last one performed, and all of one that has
nothing to give back. -/
def VFlight.done (s : State) (v : VFlight) : Nat :=
  if !v.waits.isEmpty || (v.stores.isEmpty && v.old.isEmpty) then v.count
  else groupUp v.step (v.stores.foldl (fun m e => if e.open_ s v.cell v.gang then m else max m (e.elem + 1)) 0)

/-- The registers that an encoding's operands name, under a grouping code: vector groups and mask registers (spec 09 R198 to R222). -/
def vecReads (q : Q64) (g : Nat) : List Dst :=
  let v (r : Reg) : List Dst := (groupRegs g r).map .v
  let b := if q.ib 0 then [] else v q.b
  let fn := q.fn.toNat
  (if q.k = 0 then [] else [.m q.k]) ++ match q.major.toNat with
  | 1 => v q.a ++ if fn = 0x0E ∨ fn = 0x0F then [] else b
  | 2 => v q.a ++ (if fn ≤ 7 ∨ fn = 0x0A ∨ fn = 0x10 then b else []) ++ if 3 ≤ fn ∧ fn ≤ 5 then v q.c else []
  | 3 => v q.a ++ b
  | 4 => if fn ≤ 3 then [.m (Q64.mOf q.a), .m (Q64.mOf q.b)] else if fn ≤ 6 then [.m (Q64.mOf q.a)] else []
  | 5 => (if fn = 5 ∨ fn = 7 then [] else v q.a) ++ if fn = 3 ∨ fn = 8 then v q.b else []
  | 6 => v q.a
  | 7 => v q.a ++ if fn = 1 then v q.b else []
  | 8 => if fn = 3 then v q.b else []
  | 9 => v q.c ++ if fn = 2 then v q.b else []
  | _ => []

/-- An instruction that waits for its whole source group (spec 09 R227). -/
def VFlight.whole (v : VFlight) : Bool :=
  let q := Q64.unpack v.enc
  q.major == 5 && !(decide (4 ≤ q.fn.toNat) && decide (q.fn.toNat ≤ 7))

/-- The registers that a flight writes. -/
def VFlight.dsts (v : VFlight) : List Dst := v.old.map Held.dst ++ v.waits

/-- A younger flight `y` depends on `v`: it reads or writes what `v` writes, or writes what `v` reads (spec 09 R223). -/
def VFlight.dependsOn (g : Nat) (y v : VFlight) : Bool :=
  (v.dsts.any fun d => y.dsts.contains d || (vecReads (Q64.unpack y.enc) g).contains d)
  || y.dsts.any fun d => (vecReads (Q64.unpack v.enc) g).contains d

/-- Where the flights of a cell stop, oldest first: at element-group boundaries, none before what it has done, and none before a younger one that
depends on it, or before its end where that one needs a whole group (spec 09 R223, R225; log 20). -/
def stopsOf (s : State) : List VFlight → List Nat → List (VFlight × Nat)
  | [], _ => []
  | v :: rest, stops =>
    let later := stopsOf s rest stops.tail
    let least := (later.filter fun e => e.1.dependsOn (s.cell v.cell).g v).foldl (fun m e =>
      max m (if e.2 = 0 then 0 else if e.1.whole || v.whole then v.count else groupUp v.step e.2)) (v.done s)
    let mine := match stops with | n :: _ => n / v.step * v.step | [] => 0
    (v, min v.count (max mine least)) :: later

/-- The value of a register destination of a cell. -/
def dstVal (c : Cell) : Dst → Nat
  | .v r => (c.v[r.toNat]'r.isLt).toNat
  | .f r => (c.f[r.toNat]'r.isLt).toNat
  | .x r => (c.x[r.toNat]'r.isLt).toNat
  | .m r => (c.m[r.toNat]'r.isLt).toNat
  | _ => 0

/-- Write a register destination of a cell. -/
def dstPut (c : Cell) (d : Dst) (v : Nat) : Cell :=
  match d with
  | .v r => { c with v := c.v.set r.toNat (BitVec.ofNat 1024 v) r.isLt }
  | .f r => { c with f := c.f.set r.toNat (BitVec.ofNat 32 v) r.isLt }
  | .x r => { c with x := c.x.set r.toNat (BitVec.ofNat 64 v) r.isLt }
  | .m r => { c with m := c.m.set r.toNat (BitVec.ofNat 1024 v) r.isLt }
  | _ => c

/-- Put the elements from `n` on of a destination as they are held. -/
def Held.put (n : Nat) (c : Cell) (h : Held) : Cell :=
  let lo := h.at_ + min h.count (n - h.first) * h.width
  let hi := h.at_ + h.count * h.width
  let now := dstVal c h.dst
  dstPut c h.dst (now % 2 ^ lo + h.val % 2 ^ hi / 2 ^ lo * 2 ^ lo + now / 2 ^ hi * 2 ^ hi)

/-- Take back the elements of a flight from `n` on, and record it. -/
def undo (s : State) (v : VFlight) (n : Nat) : State :=
  let back := v.stores.filter fun e => decide (n ≤ e.elem)
  let c := s.cell v.cell
  let r : VRec := { enc := v.enc, pc := v.pc, idx := n, count := v.count, xa := v.xa, xb := v.xb, xc := v.xc
                    rest := v.old.map fun h => { h with val := dstVal c h.dst }, stores := back }
  { s with posted := s.posted.filter fun p => !back.any fun e => e.post == p.id
           remotes := s.remotes.filter fun p => !back.any fun e => e.post == p.1 }.modCell v.cell fun c =>
    { v.old.foldl (Held.put n) c with vrecs := r :: c.vrecs }

/-- vstart of a record: V, PCLO and IDX (spec 18 R372). -/
def vstartOf (r : VRec) : Word := BitVec.ofNat 64 (2 ^ 63 + bits r.pc.toNat 17 2 * 2 ^ 32 + r.idx)

/-- vinflt and vstart0 to vstart3 from the records. -/
def vstarts (c : Cell) : Cell :=
  if c.vrecs.isEmpty then c
  else
    let w (i : Nat) : Word := ((c.vrecs[i]?).map vstartOf).getD 0
    { c with csr := { c.csr with vinflt := BitVec.ofNat 64 c.vrecs.length, vstart0 := w 0, vstart1 := w 1, vstart2 := w 2, vstart3 := w 3 } }

/-- Stop the vector instructions of a cell: recorded, or completed where a trap record is outstanding. -/
def stopVec (s : State) (cid : Nat) (stops : List Nat) : State :=
  let core := coreOf cid
  let mine := (s.core core).vec.filter fun v => v.cell == cid
  let c := s.cell cid
  let keep := c.csr.vinflt != 0 && c.csr.vstart0.getLsbD 63
  let s1 := s.modCore core fun k => { k with vec := k.vec.filter fun v => v.cell != cid }
  if keep then s1
  else (((stopsOf s mine stops).reverse.filter fun e => decide (e.2 < e.1.count)).foldl (fun s e => undo s e.1 e.2) s1).modCell cid vstarts

/-- Stop the MOPA of a gang in its core's unit between steps: the steps before `upto` stay applied, and it is recorded (spec 11
R270), none of a step that a resumed one has begun (R263). The cell whose held MOPA it is lands past it. -/
def stopMopa (s : State) (gid upto : Nat) : State :=
  let core := (s.gang gid).core
  match (s.core core).unit with
  | some u =>
    match u.mopa with
    | some r =>
      let n := max upto (r.step + b2n (decide (0 < u.row)))
      if u.gang != gid || u.consumed || n ≥ mopaCount (Q64.unpack r.enc) then s
      else
        match runMopa s core n u r with
        | (s1, some (k, i, h)) => heldTrap (s1.modCore core fun c => { c with unit := none }) u.cell r.pc k i h
        | (s1, none) =>
          let s2 := (s1.modCore core fun c => { c with unit := none }).modGang gid fun g => { g with mrec := some { r with step := n, cell := (s.cell u.cell).j } }
          if (s.cell u.cell).run == .parked .matrix then (freeHeld s2 u.cell).modCell u.cell fun c => { c with run := .landed, resv := none } else s2
    | none => s
  | none => s

/-- Force a cell to land without issuing. -/
def forceCell (s : State) (cid : Nat) (stops : List Nat) (step : Nat) : State :=
  let s1 := unlatch (stopMopa (stopVec s cid stops) (s.cell cid).gang step) cid
  s1.modCell cid fun c => { c.clearInstr with run := .landed, resv := none }

/-- FORCED_LANDING: a cell that has had its 4,096 turns. -/
def execForcedLanding (cell : Nat) (stops : List Nat) (step : Nat) (s : State) : Host.Outcome State Fault Refusal :=
  .next <| match Tab.find s.cells cell with
  | some c => if c.run == .ready && (s.gang c.gang).st == .landing && decide (4096 ≤ c.turns) && c.reply.isNone then forceCell s cell stops step else s
  | none => s

/-! ### The context block (spec 18 R383 to R385) -/

/-- Bytes of a list of words. -/
def words8 (l : List Word) : List Byte := l.flatMap fun w => leBytes w.toNat 8

/-- Fill with zeros to a size. -/
def padTo (n : Nat) (l : List Byte) : List Byte := l ++ zeros (n - l.length)

/-- FLAGS of a cell image. -/
def imageFlags (c : Cell) : Nat :=
  let barl := match c.barp with | some (l, _) => BarLevel.num l | none => 0
  let blim := match c.barp with | some (_, n) => n | none => 0
  c.tlev + 4 * b2n c.barp.isSome + 8 * barl + 64 * b2n (c.run == .done) + 2 ^ 8 * c.loops.length + 2 ^ 11 * c.asyncs.length
    + 2 ^ 14 * b2n c.povf + 2 ^ 15 * c.mbox.length + 2 ^ 20 * blim

/-- The cell image. -/
def cellImage (c : Cell) : List Byte :=
  let r := c.csr
  let vgrp := (if c.sew = 8 then 0 else if c.sew = 16 then 1 else 2) * 4 + c.g
  let loop (l : Loop) : List Byte := words8 [l.start ||| BitVec.ofNat 64 l.lev, l.stop, l.cnt, l.idx]
  let vrec (v : VRec) : List Byte := words8 [v.enc, v.pc, BitVec.ofNat 64 v.idx, BitVec.ofNat 64 v.count, v.xa, v.xb, v.xc, 0]
  padTo 0x100 (words8 c.x.toList) ++ padTo 0x80 (c.f.toList.flatMap fun w => leBytes w.toNat 4)
    ++ words8 [c.pc, BitVec.ofNat 64 (imageFlags c), c.wid] ++ zeros 104
    ++ (c.m.toList.flatMap fun w => leBytes w.toNat 128) ++ (c.v.toList.flatMap fun w => leBytes w.toNat 128)
    ++ words8 [r.qfcsr, r.fetrap, r.fetrapv, r.fetrapf, r.hoqen, r.qsatcnt, r.qufcnt, r.mocsig, r.leaseq, r.ttvec, r.tsave, r.tcause1, r.tepc1,
        r.tval1, r.tstat1, r.tcause2, r.tepc2, r.tval2, r.tstat2, r.mstate, r.vinflt, r.vstart0, r.vstart1, r.vstart2, r.vstart3,
        BitVec.ofNat 64 c.vl, BitVec.ofNat 64 vgrp] ++ zeros 40
    ++ padTo 192 (c.loops.reverse.flatMap loop)
    ++ padTo 64 (c.asyncs.flatMap fun a => words8 [a.tval, BitVec.ofNat 64 a.cause])
    ++ padTo 256 (c.vrecs.flatMap vrec)
    ++ padTo 256 (c.mbox.flatMap fun w => words8 [w.lo, w.value]) ++ zeros 1536

/-- The matrix record of a gang header. -/
def matImage (r : MatRec) : List Byte :=
  words8 [r.enc, r.pc, r.xa, r.xa1, r.xb, r.xb1, r.mocsig] ++ leBytes r.mask 16 ++ leBytes r.fc.toNat 4 ++ leBytes r.step 2
    ++ leBytes (b2n r.held) 1 ++ leBytes r.cell 1

/-- The gang header. -/
def gangImage (g : Gang) (v : Saved) : List Byte :=
  let queue (q : Nat) : List Byte :=
    let l := Tab.getD (g.hoq.getD g.hoqSaved) q []
    padTo 256 (leBytes l.length 8 ++ words8 (l.map fun e => e.val.getD 0))
  let copy (c : Copy) : List Byte := words8 [c.enc, BitVec.ofNat 64 c.cell, c.xa, c.xb, c.xc, c.xd, c.xd1] ++ padTo 64 c.desc ++ zeros 8
  leBytes (gstate { g with saved := some v }) 8 ++ zeros 8 ++ words8 g.win ++ (g.tmax.flatMap fun w => leBytes w.toNat 4)
    ++ padTo 128 (match g.mrec with | some r => matImage r | none => []) ++ zeros 16
    ++ (List.range 4).flatMap queue ++ padTo 4096 (v.copies.flatMap copy) ++ zeros 2816

/-- The full/empty bits and the rotation tag of an LS unit of a core. -/
def unitImage (s : State) (core u : Nat) : List Byte :=
  let base := lsKey core (u * 4096)
  let l := s.empties.filter fun k => decide (base ≤ k) && decide (k < base + 4096)
  leBytes (l.foldl (fun a k => a - 2 ^ ((k - base) / 8)) (2 ^ 512 - 1)) 64 ++ leBytes (s.rotTag core u) 1 ++ zeros 63

/-- The LS of a gang that has landed, and its tags. -/
def lsImage (s : State) (g : Gang) : List Byte :=
  s.span (lsKey g.core (g.lsBase * 4096)) (g.hdr.lsu * 4096) ++ (range g.lsBase g.hdr.lsu).flatMap (unitImage s g.core)

/-- The images that a gang has in the block in use go with it to the block of the die where it lands. -/
def moveImages (s : State) (g : Gang) (key : Nat) : State :=
  match g.block with
  | some old =>
    if old = key then s
    else (imagesOf g).foldl (fun s t => s.writeBlock (key + tileAt g t) (s.span (old + tileAt g t) 16384)) s
  | none => s

/-- The landing writes the block into HBM of the die, but for its tiles, which follow when they leave the array (spec 11 R252, R254; 18 R383;
log 15). -/
def writeContext (s : State) (gid : Nat) (v : Saved) : State :=
  let g := s.gang gid
  let key := contextKey g gid
  ((moveImages s g key).writeBlock key (gangImage g v ++ v.cells.flatMap cellImage)).writeBlock (key + tileAt g 4) (lsImage s g)

/-! ### The save (spec 18 R381, R383) -/

/-- Every cell of a gang has landed or ended. -/
def allLanded (s : State) (g : Gang) : Bool :=
  g.cells.all fun c => (s.cell c).run == .landed || (s.cell c).run == .done

/-- A copy has begun to move bytes (spec 10 R246). -/
def Copy.begun (c : Copy) : Bool := (c.st == 1 || c.st == 4) && (!c.data.isEmpty || decide (0 < c.wrote))

/-- What a landing waits for: full registers, accesses performed, the matrix instruction, copies that have begun. -/
def landingBusy (s : State) (gid : Nat) : Bool :=
  let g := s.gang gid
  let k := s.core g.core
  (g.cells.any fun c => !allFull s c || outstanding s c gid)
  || (match k.unit with | some u => u.gang == gid | none => false)
  || (k.vec.any fun v => v.gang == gid)
  || k.copies.any fun c => c.gang == gid && c.begun

/-- The cells of a gang as they landed, and the copies that have not begun or wait for a slot or for mailbox room, in queue order. A saved copy
names its cell by gang index. -/
def savedOf (s : State) (gid : Nat) : Saved :=
  let g := s.gang gid
  { ids := g.cells
    cells := g.cells.map fun c => { s.cell c with resv := none, early := [], earlyV := [] }
    copies := ((s.core g.core).copies.filter fun c => c.gang == gid).map fun c =>
      { c with cell := (s.cell c.cell).j, st := if c.st = 2 || c.st = 3 then c.st else 0 } }

/-- A refused line in the images that a landing on another die takes along (spec 18 R389). -/
def moveRefused (s : State) (gid : Nat) : Option Nat :=
  let g := s.gang gid
  match g.block with
  | some old => if old = contextKey g gid then none else (imagesOf g).findSome? fun t => s.refusedIn (old + tileAt g t) 16384
  | none => none

/-- A gang that has landed is saved: its context block is written, it loses the lease and its place in the wait list, and its capacity comes
free. -/
def saveGang (s : State) (gid : Nat) : State :=
  let g := s.gang gid
  let v := savedOf s gid
  let mine : List Nat := ((s.core g.core).copies.filter fun c => c.gang == gid).map (·.id)
  let s0 : State := { writeContext s gid v with
    faults := s.faults.filter fun r => match r.who with | .copy k i _ => !(k == g.core && mine.contains i) | _ => true }
  let s1 := s0.modCore g.core fun k =>
    { k with holder := if k.holder == some gid then none else k.holder, leaseQ := removeNat k.leaseQ gid, copies := k.copies.filter fun c => c.gang != gid }
  let s2 := (freeCells s1 gid).modGang gid fun g =>
    { g with st := .saved, cells := [], saved := some v, victim := none, block := some (contextKey g gid) }
  wakeWhere s2 fun _ w => w == .hoq

/-- GANG_SAVE_DONE. -/
def execGangSaveDone (gang : Nat) (s : State) : Host.Outcome State Fault Refusal :=
  .next <|
    let g := s.gang gang
    if g.st == .landing && allLanded s g && !landingBusy s gang then
      (match moveRefused s gang with | some pa => blockRefused s gang pa | none => saveGang s gang)
    else s

/-! ### The resumption (spec 18 R386) -/

/-- A byte string's vector registers: `n` of 128 bytes from an offset on. -/
def vregsAt (n : Nat) (b : List Byte) (o : Nat) : Vector VReg n := Vector.ofFn fun i => BitVec.ofNat 1024 (dsc b (o + 128 * i.val) 128)

/-- The loop stack of a cell image, innermost entry first. -/
def loopsAt (b : List Byte) (n : Nat) : List Loop :=
  ((List.range (min n 6)).map fun i =>
    let w (o : Nat) : Word := BitVec.ofNat 64 (dsc b (0x1700 + 32 * i + o) 8)
    { start := w 0 &&& ~~~3, stop := w 8, cnt := w 16, idx := w 24, lev := (w 0).toNat % 4 }).reverse

/-- The vector records of a cell image; what a record will still write, and the store elements it has left, are kept by place. -/
def vrecsAt (b : List Byte) (old : List VRec) : List VRec :=
  (List.range 4).filterMap fun i =>
    let w (k : Nat) : Word := BitVec.ofNat 64 (dsc b (0x1800 + 64 * i + 8 * k) 8)
    let r : VRec := (old[i]?).getD default
    if w 0 = 0 then none else some { r with enc := w 0, pc := w 1, idx := (w 2).toNat, count := (w 3).toNat, xa := w 4, xb := w 5, xc := w 6 }

/-- The waggles of a cell image; the release that one was posted by is kept with it. -/
def mboxAt (b : List Byte) (n : Nat) (old : List Waggle) : List Waggle :=
  (List.range (min n 16)).map fun i =>
    let w : Waggle := { lo := BitVec.ofNat 64 (dsc b (0x1900 + 16 * i) 8), value := BitVec.ofNat 64 (dsc b (0x1908 + 16 * i) 8) }
    match old[i]? with
    | some x => if x.lo = w.lo ∧ x.value = w.value then x else w
    | none => w

/-- The CSRs of a cell image. -/
def imageCsrs (b : List Byte) : Csrs :=
  let w (i : Nat) : Word := BitVec.ofNat 64 (dsc b (0x1600 + 8 * i) 8)
  { qfcsr := w 0, fetrap := w 1, fetrapv := w 2, fetrapf := w 3, hoqen := w 4, qsatcnt := w 5, qufcnt := w 6, mocsig := w 7, leaseq := w 8, ttvec := w 9
    tsave := w 10, tcause1 := w 11, tepc1 := w 12, tval1 := w 13, tstat1 := w 14, tcause2 := w 15, tepc2 := w 16, tval2 := w 17, tstat2 := w 18
    mstate := w 19, vinflt := w 20, vstart0 := w 21, vstart1 := w 22, vstart2 := w 23, vstart3 := w 24 }

/-- A cell as its image in the context block gives it (spec 18 R384), with what only the model holds taken from the cell that landed. Where the
episode of its pending BAR has completed meanwhile, that BAR completes (14 R319). -/
def loadCell (b : List Byte) (c : Cell) : Cell :=
  let w (o : Nat) : Word := BitVec.ofNat 64 (dsc b o 8)
  let fl := dsc b 0x188 8
  let vgrp := dsc b 0x16D0 8
  let barp := if bit fl 2 then (BarLevel.ofCode (BitVec.ofNat 3 (bits fl 5 3))).map fun l => (l, bits fl 32 20) else none
  let v : Cell := { c with
    x := Vector.ofFn fun i => if i.val = 0 then 0 else w (8 * i.val)
    f := Vector.ofFn fun i => BitVec.ofNat 32 (dsc b (0x100 + 4 * i.val) 4)
    m := vregsAt 8 b 0x200, v := vregsAt 32 b 0x600
    xe := 0, fe := 0, ve := 0
    pc := w 0x180 &&& ~~~3, wid := w 0x190, csr := imageCsrs b, vl := dsc b 0x16C8 8
    sew := match bits vgrp 3 2 with | 0 => 8 | 1 => 16 | _ => 32
    g := bits vgrp 1 0
    tlev := min 2 (bits fl 1 0), loops := loopsAt b (bits fl 10 8), povf := bit fl 14
    asyncs := (List.range (min 4 (bits fl 13 11))).map fun i => { cause := dsc b (0x17C8 + 16 * i) 1, tval := w (0x17C0 + 16 * i) }
    vrecs := vrecsAt b c.vrecs, mbox := mboxAt b (bits fl 19 15) c.mbox
    run := if bit fl 6 then .done else .landed, barp }
  if barp.isSome && c.barp.isNone then
    { v with barp := none, loops := (loopBack v.tlev v.loops v.pc).1, pc := (loopBack v.tlev v.loops v.pc).2.1 }
  else v

/-- The matrix record of a gang header. -/
def matRecAt (b : List Byte) : MatRec :=
  let w (i : Nat) : Word := BitVec.ofNat 64 (dsc b (0x70 + 8 * i) 8)
  { enc := w 0, pc := w 1, xa := w 2, xa1 := w 3, xb := w 4, xb1 := w 5, mocsig := w 6, mask := dsc b 0xA8 16
    fc := BitVec.ofNat 32 (dsc b 0xB8 4), step := dsc b 0xBC 2, held := bit (dsc b 0xBE 1) 0, cell := dsc b 0xBF 1 }

/-- The entries of a queue of a gang header. -/
def queueAt (b : List Byte) (q : Nat) (old : List HoqEntry) : List HoqEntry :=
  (List.range (min 16 (dsc b (0x100 + 256 * q) 8))).map fun i =>
    { (old[i]?).getD default with val := some (BitVec.ofNat 64 (dsc b (0x108 + 256 * q + 8 * i) 8)) }

/-- A gang as the header of its context block gives it (spec 18 R385). -/
def loadGang (b : List Byte) (g : Gang) : Gang :=
  let st := dsc b 0 8
  let old := g.hoq.getD g.hoqSaved
  let queues : Tab (List HoqEntry) := (List.range 4).foldl (fun t q =>
    let l := queueAt b q (Tab.getD old q [])
    if l.isEmpty && (Tab.find old q).isNone then t else Tab.put t q l) old
  { g with
    imgv := BitVec.ofNat 4 (bits st 7 4)
    win := (List.range 4).map fun i => BitVec.ofNat 64 (dsc b (0x10 + 8 * i) 8)
    tmax := (List.range 16).map fun i => BitVec.ofNat 32 (dsc b (0x30 + 4 * i) 4)
    mrec := if bit st 32 then some (matRecAt b) else none
    hoq := g.hoq.map fun _ => queues
    hoqSaved := if g.hoq.isSome then g.hoqSaved else queues }

/-- A saved copy as the header of the context block gives it. -/
def loadCopy (b : List Byte) (i : Nat) (c : Copy) : Copy :=
  let o := 0x500 + 128 * i
  let w (k : Nat) : Word := BitVec.ofNat 64 (dsc b (o + 8 * k) 8)
  { c with enc := w 0, cell := (w 1).toNat, xa := w 2, xb := w 3, xc := w 4, xd := w 5, xd1 := w 6, desc := (b.drop (o + 56)).take 64 }

/-- The words that the tags of an LS unit call empty, by offset in it. -/
def emptiesAt (b : List Byte) (o : Nat) : List Nat :=
  let v := dsc b o 64
  (List.range 512).filterMap fun w => if bit v w then none else some (8 * w)

/-- Complete the elements that a cell's vector records hold the values of, under R223 oldest first (spec 09 R226). What is left is elements of
stores; an access that had parked at an element keeps its record, and executes again from there. -/
def finishVrecs (c : Cell) : Cell :=
  { c.vrecs.foldl (fun c r => r.rest.foldl (Held.put r.idx) c) c with vrecs := c.vrecs.map fun r => { r with rest := [] } }

/-- The vector records of a cell are complete. -/
def Cell.noRecords (c : Cell) : Cell :=
  { c with vrecs := [], csr := { c.csr with vinflt := 0, vstart0 := 0, vstart1 := 0, vstart2 := 0, vstart3 := 0 } }

/-- Issue the store elements that a cell's records have left, oldest first: their addresses are formed again, and the limit checks are not
repeated (spec 18 R387). -/
def issueElems : List VStore → State → Op State
  | [], s => .ok s
  | e :: rest, s => do
    let (s, t) ← resolveDva s .vstore e.ea (eaDva s.myGang e.ea) e.data.length (some e.elem) 0
    issueElems rest ((storeTo s t e.ea e.data).modMe fun c => { c with vrecs := c.vrecs.map fun r => { r with stores := r.stores.filter (· != e) } })

/-- A cell waits for the barrier that was pending at its landing; the limit starts with its full value (spec 18 R386 step 5). -/
def enterBar (now : Nat) (c : Cell) : Cell :=
  match c.barp with
  | some (level, limit) =>
    { c with barp := none, pc := c.pc - 8, run := .parked (.bar level limit), stage := 1, since := some now, ilen := 8
             limit := (limitUs limit).map fun n => (n, 0) }
  | none => c

/-- A store of a record traps where it resumes: precise at the store, so that what was issued after it, and a barrier's arrival, executes
again (DESIGN CHOICE: the spec gives no trap there; log 20). -/
def recordTrap (s : State) (cause : Nat) (tval : Word) (vrec : Option Nat) : State :=
  let epc := s.me.excPc
  takeTrap (s.modMe Cell.leaveRecords) s.cur { cause, tval, epc, ilen := 8, async := false, vrec, mrec := false }

/-- Before a resumed cell's first turn (spec 18 R386 steps 4 and 5): its records are completed, and it waits for its barrier. The state where
this ends the turn; nothing where there is nothing left of the landing. -/
def resumeStep (s : State) : Option State :=
  let c := s.me
  let left := c.vrecs.flatMap VRec.stores
  if !left.isEmpty then
    match issueElems left (s.modMe fun c => { c with ilen := 8 }) with
    | .ok s1 => some (s1.modMe fun c => enterBar s1.qtime c.noRecords)
    | .error (.park s1 w) => some (parkCell s1 s1.cur w)
    | .error (.trap s1 cause tval vrec _) => some (recordTrap s1 cause tval vrec)
    | .error (.kill s1 code val) => some (killFor s1 s1.me.gang code val s1.cur)
    | .error _ => some s
  else if c.barp.isSome then some (let s1 := s.modMe (enterBar s.qtime); if (s.gang c.gang).st == .landing then landParked s1 s.cur else s1)
  else none

/-- A cell as it resumes in a slot: done, waiting for the gang's matrix record or for its barrier, or waiting for its turn. -/
def resumeCell (now stamp seq : Nat) (mrec : Bool) (c : Cell) : Cell :=
  let c := { c.fromNow stamp with faultSeq := seq, faultDva := none, refaults := 0 }
  if c.run == .done then c
  else
    let c1 := { finishVrecs c with turns := 0 }
    let left : Bool := c1.vrecs.any fun r => !r.stores.isEmpty
    let c2 : Cell := if c.vrecs.isEmpty || left || c.vrecs.any (·.again) then c1 else c1.noRecords
    let c3 : Cell := { c2 with run := if mrec then .parked .matrix else .ready }
    if mrec || left then c3 else enterBar now c3

/-- The queues of a gang that resumes on a core: bound at once where the core has the buffers, else kept until it has (spec 06 R152, 18
R386). -/
def resumeHoq (s : State) (core : Nat) (g : Gang) : Gang :=
  match g.hoq with
  | some t => if boundBuffers s core + popcount g.hdr.hoq 4 ≤ 4 then g else { g with hoq := none, hoqSaved := t }
  | none => if g.hoqSaved.isEmpty || boundBuffers s core + popcount g.hdr.hoq 4 > 4 then g else { g with hoq := some g.hoqSaved, hoqSaved := [] }

/-- The LS of a saved gang and its tags go back from its context block, to a core from an LS unit on (spec 18 R386 step 1). -/
def restoreLs (s : State) (g : Gang) (key core unit : Nat) : State :=
  let base := lsKey core (unit * 4096)
  let n := g.hdr.lsu * 4096
  let ls := key + tileAt g 4
  let tags := s.span (ls + n) (g.hdr.lsu * 128)
  let s1 := (s.scrub base n).poke base (s.span ls n)
  (List.range g.hdr.lsu).foldl (fun s u =>
    { s with empties := (emptiesAt tags (128 * u)).foldl (fun l k => insertNat l (base + u * 4096 + k)) s.empties
             rot := Tab.setD s.rot (core * 68 + unit + u) 0 (dsc tags (128 * u + 64) 1) }) s1

/-- A refused line that the resumption of a saved gang meets in its context block: in its header, its cell images, its LS or the tags (spec 18
R389). -/
def restoreRefused (s : State) (g : Gang) (key : Nat) : Option Nat :=
  (s.refusedIn key (tileAt g 0)).or (s.refusedIn (key + tileAt g 4) (g.hdr.lsu * 4224))

/-- Where a cell of a saved gang stands now: the ids held before the landing and the cells of the new placement, in the gang's order. -/
def newPlace (ids cells : List Nat) (c : Nat) : Nat :=
  match (ids.zip cells).find? fun (e : Nat × Nat) => e.1 == c with
  | some e => e.2
  | none => c

/-- A saved gang is placed on a core, in slots, at an LS unit: it resumes from its context block (spec 18 R386; log 15). -/
def resumeGang (s : State) (gid core : Nat) (slots : List Nat) (unit : Nat) : State :=
  match (s.gang gid).saved with
  | none => s
  | some v =>
    let s0 := if core != (s.gang gid).core && (s.core (s.gang gid).core).occupant == some gid then evict s (s.gang gid).core else s
    let key := blockKey (s0.gang gid) gid
    match restoreRefused s0 (s0.gang gid) key with
    | some pa => blockRefused s0 gid pa
    | none =>
      let head := s0.span key 8192
      let g := loadGang head (s0.gang gid)
      let cells := slots.map fun x => core * 8 + x
      let s1 := restoreLs s0 g key core unit
      let back (e : Nat × Cell) : Cell :=
        resumeCell s.qtime s1.stamp (Tab.getD s.slotSeq e.1 0) g.mrec.isSome (loadCell (s0.span (key + 8192 * (e.2.j + 1)) 8192) e.2)
      let s2 := { s1 with
        cells := (cells.zip v.cells).foldl (fun (t : Tab Cell) (e : Nat × Cell) => Tab.put t e.1 (back e)) s1.cells
        slotSeq := cells.foldl Tab.del s1.slotSeq
        posted := s1.posted.map fun (p : Post) =>
          if p.gang = gid then { p with cell := newPlace v.ids cells p.cell } else p }
      let s3 := s2.modGang gid fun _ => { resumeHoq s core g with st := .running, core, cells, lsBase := unit, saved := none, placed := s.nextId }
      let copies := v.copies.zipIdx.map fun e =>
        let c := loadCopy head e.2 e.1
        { c with cell := (cells[c.cell]?).getD 0, floor := s1.stamp, mark := s1.stamp, faultDva := none, refaults := 0 }
      { s3.modCore core fun k =>
          { k with copies := k.copies ++ copies, leaseQ := if g.mrec.isSome then k.leaseQ ++ [gid] else k.leaseQ } with nextId := s.nextId + 1 }

end Sys2Proof.Machine
end

