-- ==== Sys2Proof/Machine/Barrel.lean ====
section
/-! DEFINITION. Turns: the barrel, the instruction caches, and the steps by which results, lines, traps and vector completions
reach a cell (spec 05 R105 to R110; 06 R129 to R137; 09 R208; 18 R373). -/

namespace Sys2Proof.Machine

/-! ### The barrel (spec 06 R129 to R132) -/

/-- The cell of a slot is resident and neither parked nor halted. -/
def slotReady (s : State) (core slot : Nat) : Bool :=
  match Tab.find s.cells (core * 8 + slot) with
  | some c => c.run == .ready
  | none => false

/-- The earliest cycle of a slot's next turn, after cycle `t` (spec 06 R130). -/
def turnCycle (last : Tab Nat) (t slot : Nat) : Nat :=
  match Tab.find last slot with
  | some l => max (t + 1) (l + 4)
  | none => t + 1

/-- The schedule of R130 gives every kept member of the slots its next turn at most 8 cycles after its previous one. -/
def scheduleOk (last : Tab Nat) (kept : List Nat) : Nat → List Nat → Bool
  | _, [] => true
  | t, sl :: rest =>
    let at_ := turnCycle last t sl
    let ok := if kept.contains sl then (match Tab.find last sl with | some l => decide (at_ ≤ l + 8) | none => true) else true
    ok && scheduleOk last kept at_ rest

/-- Admit waiting slots in ascending order until one fails the test (spec 06 R131). -/
def admitAll (last : Tab Nat) (t : Nat) (kept : List Nat) : List Nat → List Nat → List Nat
  | set, [] => set
  | set, sl :: rest =>
    let set' := insertNat set sl
    if scheduleOk last kept t set' then admitAll last t kept set' rest else set

/-- The rotation ends: members that parked or halted leave, waiting cells are admitted (spec 06 R131). -/
def rotate (s : State) (core : Nat) : State :=
  let b := (s.core core).barrel
  let kept := b.set.filter (slotReady s core)
  let waiting := (List.range 8).filter fun sl => slotReady s core sl && !b.set.contains sl
  let set := admitAll b.last b.cycle kept kept waiting
  s.modCore core fun k => { k with barrel := { b with set, kept, pos := 0, cycle := if set.isEmpty then b.cycle + 1 else b.cycle } }

/-- The next ready member of the rotation. -/
def nextSlot (s : State) (core : Nat) : Option Nat :=
  let b := (s.core core).barrel
  b.set.find? fun sl => decide (b.pos ≤ sl) && slotReady s core sl

/-- Give a slot its turn: the cycle it takes, and the place in the rotation. -/
def takeTurn (s : State) (core slot : Nat) : State :=
  let s1 := s.modCore core fun k =>
    let t := turnCycle k.barrel.last k.barrel.cycle slot
    { k with barrel := { k.barrel with pos := slot + 1, cycle := t, last := Tab.put k.barrel.last slot t } }
  { s1 with cur := core * 8 + slot }

/-! ### Fetch (spec 05 R105 to R110) -/

/-- The line of an address. -/
def lineOf (dva : Nat) : Nat := dva / 64 * 64

/-- A line in an instruction cache. -/
def iFind (l : List ILine) (asid line : Nat) : Option ILine := l.find? fun e => e.asid == asid && e.line == line

/-- Add a line to a cache of `sets` sets and `ways` ways: the set is chosen by the low bits of the line's number, and a full set
drops a free choice (spec 05 R109; log 12). -/
def iAdd (sets ways pick : Nat) (l : List ILine) (e : ILine) : List ILine :=
  let set (x : ILine) : Nat := x.line / 64 % sets
  let rest := l.filter fun x => !(x.asid == e.asid && x.line == e.line)
  let mine := rest.filter fun x => set x == set e
  if mine.length < ways then e :: rest
  else match mine[Config.victim pick % ways]? with
    | some v => e :: rest.filter fun x => !(x.asid == v.asid && x.line == v.line)
    | none => e :: rest

/-- What fetching a parcel gives. -/
inductive Parcel where
  | got (w : W32)
  | stop (r : Res)

/-- An address lies in an object of generation mode that was retired before the launch was taken (spec 20 R413, R414). -/
def codeGone (s : State) (l : Launch) (a : Nat) : Bool :=
  s.objects.any fun e =>
    let o := e.2
    o.part == l.part && o.asid == l.asid && o.gen && !o.unmapped && decide (o.text ≤ a) && decide (a < o.text + o.textSz)
    && (match o.ugen with | some u => decide (u ≤ l.lgen) | none => false)

/-- A parcel of a cached line: where memory has changed since the fill, its value as cached or as it stands now, by a free choice (spec 05
R111; log 72). -/
def cachedParcel (s : State) (l : ILine) (a : Nat) : W32 :=
  let old := (l.data.drop (a % 64)).take 4
  let now := s.read (l.pa + a % 64 / 4 * 4) 4
  BitVec.ofNat 32 (leNat (if old != now && (s.refusedIn (l.pa + a % 64) 4).isNone && Config.fetchNew s.freeCtr a then now else old))

/-- Fetch the parcel at an address (spec 05 R105, R107, R110). A hit asks for no translation: what the pager changes it shoots down, and the
lines with it (R117). -/
def fetchParcel (s : State) (p : Word) : Parcel :=
  let a := p.toNat
  let g := s.myGang
  let asid := s.myLaunch.asid
  if a / 2 ^ 56 != 0 then .stop (.trap s cACCESS_FAULT p)
  else if codeGone s s.myLaunch a then .stop (.kill s 0x82 s.me.pc)
  else
    match iFind (s.core (coreOf s.cur)).icache asid (lineOf a) with
    | some l => .got (cachedParcel s l a)
    | none =>
      match translate s (hiveOf g.core) asid a with
      | .leaf w _ _ =>
        if leafOk .fetch w then .stop (.park (faultPast s a) (.icache (lineOf a))) else .stop (.trap (faultPast (translated s a) a) cACCESS_FAULT p)
      | .absent m => .stop (pageFault s s.myLaunch.asid .fetch a (b2n m) p none 0)
      | .bad pa => .stop (walkRefused s pa)

/-- What a cell's turn fetches, and the length that a trap or a wait of it records. -/
inductive Fetched where
  | got (p hi : W32)
  | stop (r : Res) (len : Nat)

/-- Fetch an instruction, unless it has issued and completes as fetched (spec 05 R115). Both parcels are fetched before any field beyond the
length code is decoded (R108); where the first is not fetched, the length is not known (log 71). -/
def fetch (s : State) : Fetched :=
  match s.me.parcels with
  | some p => .got p.1 p.2
  | none =>
    let pc := s.me.pc
    let len := if Config.fetchTrapLen s.freeCtr then 8 else 4
    match fetchParcel (s.modMe fun c => { c with ilen := len }) pc with
    | .stop r => .stop r len
    | .got p =>
      if parcelLength p = 8 then
        match fetchParcel (s.modMe fun c => { c with ilen := 8 }) (pc + 4) with
        | .stop r => .stop r 8
        | .got hi => .got p hi
      else .got p 0

/-- The line of a fill: from the hive cache, or from HBM through the port (spec 05 R109). -/
def fillLine (s : State) (cell line : Nat) : Option (State × ILine) :=
  let core := coreOf cell
  let h := hiveOf core
  let asid := (s.launchOf cell).asid
  match iFind (s.hive h).icache asid line with
  | some l => some (s, l)
  | none =>
    match translate s h asid line with
    | .leaf w _ size =>
      if leafOk .fetch w then
        let pa := pteAddr w + line % 2 ^ size
        let l : ILine := { asid, line, pa, data := s.read pa 64 }
        let s1 := noteTlb s h asid line
        some ({ s1.modHive h fun v => { v with icache := iAdd 512 16 s1.freeCtr v.icache l } with freeCtr := s1.freeCtr + 1 }, l)
      else none
    | _ => none

/-- A fill of a cell's line would read a die that has become unreachable: its DVA (spec 18 R391). -/
def fillCut (s : State) (cell line : Nat) : Option Nat :=
  let h := hiveOfCell cell
  let asid := (s.launchOf cell).asid
  if (iFind (s.hive h).icache asid line).isSome then none
  else match translate s h asid line with
  | .leaf w _ size => if s.cutOff (h / 16) (.key (pteAddr w + line % 2 ^ size)) then some line else none
  | _ => none

/-! ### The steps -/

/-- ICACHE_FILL_DONE (spec 05 R109, R110): the line arrives at the core, and the cells parked on it become waiting. A line that
meets a refused line of HBM kills the gang that reads it. -/
def execIcacheFillDone (cell : Nat) (s : State) : Host.Outcome State Fault Refusal :=
  .next <| match (Tab.find s.cells cell).map Cell.run with
  | some (.parked (.icache line)) =>
    let core := coreOf cell
    (if (fillCut s cell line).isSome then
      quiesceFor (killPlain s (s.cell cell).gang 0x84 (BitVec.ofNat 64 line) cell) (partOfGang s (s.cell cell).gang)
    else match fillLine s cell line with
    | none => s.modCell cell fun c => { c with run := .ready }
    | some (s1, l) =>
      match s.refusedIn l.pa 64 with
      | some pa => killFor s (s.cell cell).gang 0x81 (dataErr 8 0 pa) cell
      | none =>
        let s2 := { s1.modCore core fun k => { k with icache := iAdd 64 8 s1.freeCtr k.icache l } with freeCtr := s1.freeCtr + 1 }
        wakeWhere s2 fun c w => coreOf c == core && w == .icache line && (s2.launchOf c).asid == l.asid)
  | _ => s

/-- Write one pending result: its register becomes full, or its queue entry is filled. -/
def writeBack (s : State) (cell : Nat) (p : PendW) : State :=
  match p.dst with
  | .x r => s.modCell cell fun c => markEmpty { c with x := c.x.set r.toNat (BitVec.ofNat 64 p.val) r.isLt } (.x r) false
  | .f r => s.modCell cell fun c => markEmpty { c with f := c.f.set r.toNat (BitVec.ofNat 32 p.val) r.isLt } (.f r) false
  | .v r => s.modCell cell fun c => markEmpty { c with v := c.v.set r.toNat (BitVec.ofNat 1024 p.val) r.isLt } (.v r) false
  | .hoq q id => fillEntry s (s.cell cell).gang q id p.val
  | .m _ | .none => s

/-- A cell that waits for registers which are now full becomes waiting, and so do the waiters of its gang's hand-off queues and a
RETIRE that waits for its registers (spec 06 R131, R153; 20 R398). -/
def wakeFull (s : State) (cell : Nat) : State :=
  wakeWhere s fun c w => match w with
    | .regs rs => c == cell && !rs.any (isEmpty (s.cell c))
    | .hoq => (s.cell c).gang == (s.cell cell).gang
    | .copies => c == cell
    | _ => false

/-- FE_WRITEBACK (spec 06 R133, R135). -/
def execFeWriteback (cell i : Nat) (s : State) : Host.Outcome State Fault Refusal :=
  .next <| match (Tab.find s.cells cell).bind fun c => c.pend[i]? with
  | some p => wakeFull (writeBack (s.modCell cell fun c => { c with pend := dropAt c.pend i }) cell p) cell
  | none => s

/-- ASYNC_TRAP_DELIVERY (spec 18 R373): the oldest pending trap is taken instead of the instruction of the cell's turn. One whose access has
been performed, so that only its reply is left, has issued, and completes first. -/
def execAsyncTrapDelivery (cell : Nat) (s : State) : Host.Outcome State Fault Refusal :=
  .next <| match Tab.find s.cells cell with
  | some c => if c.run == .ready && c.tlev == 0 && !c.asyncs.isEmpty && c.reply.isNone then takeAsync (unlatch s cell) cell else s
  | none => s

/-- ROTATION_BOUNDARY (spec 06 R131): when no member of the set has a turn left. -/
def execRotationBoundary (core : Nat) (s : State) : Host.Outcome State Fault Refusal :=
  .next (if (nextSlot s core).isNone then rotate s core else s)

/-- A turn of a cell whose gang is ordered to land is counted (spec 18 R382). -/
def countTurn (s : State) : State := if s.myGang.st == .landing then s.modMe fun c => { c with turns := c.turns + 1 } else s

/-- What comes before the instruction of the cell's turn: a forced landing, or a pending trap (spec 18 R373, R382). -/
def turnForced (s : State) : Bool := s.myGang.st == .landing && decide (4096 ≤ s.me.turns) && s.me.reply.isNone
def turnTraps (s : State) : Bool := s.me.tlev == 0 && !s.me.asyncs.isEmpty && s.me.reply.isNone

/-- The unit that an instruction needs is busy with others (spec 06 R134; 05 R123): the vector unit, the matrix unit, or a full queue of
copies. How long the vector unit is busy with each is a matter of cycles (log 53). -/
def unitBusy (s : State) (p hi : W32) : Bool :=
  let k := s.core (coreOf s.cur)
  let major := bits p.toNat 12 7
  let fn := bits hi.toNat 15 10
  parcelLength p = 8
  && ((decide (1 ≤ major) && decide (major ≤ 9) && !k.vec.isEmpty)
    || (((decide (0x10 ≤ major) && decide (major ≤ 0x14)) || (major == 0x30 && (fn == 2 || fn == 3))) && k.unit.isSome)
    || (major == 0x18 && (decide (32 ≤ k.copies.length) || decide (16 ≤ (k.copies.filter fun c => c.cell == s.cur).length))))

/-- TURN_SPENT_WITHOUT_ISSUE (spec 06 R134): the next cell of the rotation has its turn, and its instruction does not issue, because its unit
cannot accept it. -/
def execTurnSpentWithoutIssue (cell : Nat) (s : State) : Host.Outcome State Fault Refusal :=
  let core := coreOf cell
  .next <|
    if nextSlot s core != some (cell % 8) then s
    else
      let s1 := takeTurn s core (cell % 8)
      if turnForced s1 || turnTraps s1 || (resumeStep s1).isSome then s
      else match fetch s1 with
        | .got p hi => if unitBusy s1 p hi then turnPassed ((countTurn s1).modMe fun c => { c with parcels := some (p, hi) }) else s
        | .stop .. => s

/-- A cell whose last vector instruction has finished goes on: with the trap that waited, or again with its instruction. -/
def vecReleased (s : State) (cell : Nat) : State :=
  if vecBusy s cell then s
  else
    match (s.cell cell).run, (s.cell cell).trapPend with
    | .parked .vector, some t => { s.modCell cell fun c => enterTrap c t with freeCtr := s.freeCtr + 1 }
    | .parked .vector, none => s.modCell cell fun c => { c with run := .ready }
    | _, _ => s

/-- VECTOR_INSTRUCTION_COMPLETE (spec 09 R208, R221, R223): the core's `i`-th vector instruction in flight has finished, and with it every
older one of its cell; the registers that a load fills are full. -/
def execVectorInstructionComplete (core i : Nat) (s : State) : Host.Outcome State Fault Refusal :=
  .next <| match (s.core core).vec[i]? with
  | none => s
  | some v =>
    if ((s.core core).vec.take (i + 1)).any fun x => x.cell == v.cell && x.waits.any (isEmpty (s.cell v.cell)) then s
    else vecReleased (s.modCore core fun k => { k with vec := (k.vec.zipIdx.filter fun e => decide (i < e.2) || e.1.cell != v.cell).map (·.1) }) v.cell

end Sys2Proof.Machine
end

