-- ==== Sys2Proof/Machine/Broods.lean ====
section
/-! DEFINITION. BFORK, BJOIN, BKILL, BSTAT and the deadline (spec 16). -/

namespace Sys2Proof.Machine

/-! ### BFORK (spec 16 R339 to R344) -/

/-- tval of BROOD_STATE (spec 16 R340). -/
def broodVal (code detail handle : Nat) : Word := BitVec.ofNat 64 (code + detail * 256 + handle * 2 ^ 32)

/-- The first offset of a list of checks that fails. -/
def firstBad (l : List (Bool × Nat)) : Option Nat := (l.find? fun e => e.1).map (·.2)

/-- The first invalid field of a brood descriptor, by its byte offset (spec 02 R54, 16 R341). -/
def broodBad (d : List Byte) : Option Nat :=
  let u (o n : Nat) : Nat := leNat ((d.drop o).take n)
  let g := u 2 2
  let page (v : Nat) : Bool := v % 65536 != 0
  let dva (o a : Nat) : Bool × Nat := (u o 8 % a != 0 || u o 8 / 2 ^ 56 != 0, o)
  let eps := u 0x34 4
  firstBad [
    (u 0 1 != 1, 0), (u 1 1 > 3, 1), (decide (g < 2) || g > 256, 2), (u 4 2 == 0 || u 4 2 > g, 4), (u 6 1 > 5, 6), (u 7 1 > 5, 7),
    (page (u 8 8), 8), (u 0x10 8 == 0 || page (u 0x10 8), 0x10),
    (page (u 0x18 8) || u 0x18 8 / 2 ^ 56 != 0 || u 0x18 8 + g * u 0x20 8 > 2 ^ 56, 0x18),
    (page (u 0x20 8) || decide (u 0x20 8 < u 0x10 8), 0x20),
    (u 0x28 8 % 8 != 0 || u 0x28 8 / 2 ^ 56 != 0 || (u 0x28 8 == 0 && u 0x30 4 != 0), 0x28), (u 0x30 4 > 4096, 0x30),
    (bits eps 30 23 == 255 || (bit eps 31 && bits eps 30 0 != 0), 0x34),
    dva 0x40 4, dva 0x48 4, dva 0x50 4, dva 0x58 8, dva 0x60 8,
    (u 0x68 8 == 0 || u 0x68 8 % 64 != 0 || u 0x68 8 / 2 ^ 56 != 0, 0x68), ((d.drop 0x70).any fun b => b != 0, 0x70)]

/-- The first invalid field of a template, by its byte offset (spec 02 R55, 16 R341). -/
def templateBad (g sibf : Nat) (h : Hdr) : Option Nat :=
  let f0 := h.fmt0.toNat
  let pos := foldN sibf (fun n j => n + widWidth f0 j) 0
  firstBad [
    (h.sib, 0),
    (widLevel f0 sibf == 0 || widLevel f0 sibf == 1 || decide (2 ^ widWidth f0 sibf < g), 0x10),
    (bits h.fmt1.toNat (pos + widWidth f0 sibf - 1) pos != 0, 0x18),
    (h.bhandle != 0, 0x24)]

/-- The address of the level-4 entry of a DVA, where present table entries lead to it. -/
def level4At (s : State) (asid dva : Nat) : Option Nat :=
  match Tab.find s.roots asid with
  | none => none
  | some root =>
    (walkLevels.take 4).foldl (fun t l =>
      match t with
      | none => none
      | some table =>
        let w := s.readNat (table + 8 * (dva / 2 ^ l.2.1 % 2 ^ l.2.2)) 8
        if pteV w && !malformed l.1 l.2.1 w && !pteLeaf w then some (pteAddr w) else none) (some root)
      |>.map fun t => t + 8 * (dva / 65536 % 32)

/-- The physical pages of the copy-on-write region, piece by piece; a piece that is not present parks the cell, and one that leaves the
segment's 2^61 bytes fails its segment check. -/
def cowPieces (s : State) (seg off : Nat) : List Nat → Op (State × List Nat)
  | [] => .ok (s, [])
  | p :: rest =>
    let o := off + p * 65536
    let ea := BitVec.ofNat 64 (seg * 2 ^ 61 + o)
    let code3 : Op (State × List Nat) := .error (.trap s cBROOD_STATE (broodVal 3 0 0))
    match (if o < 2 ^ 61 then segCheck s.myGang ea 65536 rRead else .error (0, 0)) with
    | .error _ => code3
    | .ok dva =>
      if bit dva 56 then code3
      else match translate s (hiveOfCell s.cur) s.myLaunch.asid dva with
        | .absent m => .error (pageFault s s.myLaunch.asid .load dva (b2n m) ea none 0)
        | .bad pa => .error (walkRefused s pa)
        | .leaf w _ size =>
          if !pteR w || pteTgt w != 0 then .error (.trap (faultPast (translated s dva) dva) cBROOD_STATE (broodVal 3 0 0))
          else match cowPieces (faultPast (translated s dva) dva) seg off rest with
            | .ok (s1, l) => .ok (s1, (pteAddr w + dva % 2 ^ size) :: l)
            | .error e => .error e

/-- The header of sibling `i` (spec 16 R343, 03 R82). -/
def sibHdr (t : Hdr) (handle i viewb vstride cowlen : Nat) : Hdr :=
  { t with
    ctl0 := t.ctl0 ||| 2
    ctl1 := t.ctl1 ||| BitVec.ofNat 64 (handle * 2 ^ 32)
    crec := if t.crec = 0 then 0 else t.crec + BitVec.ofNat 64 (64 * i)
    seg := setAt t.seg 5 (BitVec.ofNat 64 (viewb + i * vstride), BitVec.ofNat 64 (cowlen + 11)) }

/-- The lowest free entry of a die's brood table. -/
def freeEntry (s : State) (die : Nat) : Option Nat := (List.range 4096).find? fun i => (Tab.find s.broods (die * 4096 + i)).isNone

/-- The brood unit writes the view leaves of every sibling (spec 16 R342). -/
def writeViews (s : State) (hive : Nat) (views : List (Nat × Nat)) : State :=
  views.foldl (fun s v => s.write (.die (hive / 16)) (some hive) v.1 (leBytes (v.2 + 0x245) 8)) s

/-- The template's address keeps R54, so that it can be read. -/
def templateNamed (d : List Byte) : Bool :=
  let tmpl := leNat ((d.drop 0x68).take 8)
  tmpl != 0 && tmpl % 64 == 0 && tmpl / 2 ^ 56 == 0

/-- BFORK. The descriptor and the template are read before any check of them. A template whose address itself breaks R54 is not read, and one
whose leaf denies the read traps ACCESS_FAULT with tval := TMPL: no rule says either (DESIGN CHOICE, log 69). -/
def execBfork (d a : Reg) (s : State) : Host.Outcome State Fault Refusal :=
  issue 8 noEarlyCheck [.x a] [.x d] (fun s => Op.res do
    let ea := getX s a
    match segCheck s.myGang ea 256 rRead with
    | .error (cause, tval) => .error (.trap s cause tval)
    | .ok dva =>
      if ea.toNat % 64 != 0 then .error (.trap s cMISALIGNED ea)
      else
        let (s, dsc, skip) ← loadBlock s ea dva 256 0
        let u (o n : Nat) : Nat := leNat ((dsc.drop o).take n)
        let tmpl := u 0x68 8
        let (s, tm, _) ← if templateNamed dsc then loadBlock s (BitVec.ofNat 64 tmpl) tmpl 256 skip else .ok (s, [], skip)
        match broodBad dsc with
        | some o => .error (.trap s cBROOD_STATE (broodVal 1 o 0))
        | none =>
          let t := hdrOf tm
          match templateBad (u 2 2) (u 6 1) t with
          | some o => .error (.trap s cBROOD_STATE (broodVal 2 o 0))
          | none =>
            let g := u 2 2
            let (viewb, vstride, cowlen) := (u 0x18 8, u 0x20 8, u 0x10 8)
            let asid := s.myLaunch.asid
            if ((s.myGang.segment (u 7 1)).1.toNat + u 8 8) % 65536 != 0 then .error (.trap s cBROOD_STATE (broodVal 3 0 0))
            else
              let n := cowlen / 65536
              let (s, phys) ← cowPieces s (u 7 1) (u 8 8) (List.range n)
              let slots := (List.range g).flatMap fun i => phys.zipIdx.map fun p => (level4At s asid (viewb + i * vstride + 65536 * p.2), p.1)
              if slots.any fun v => match v.1 with | some at_ => pteV (s.readNat at_ 8) | none => true then
                .error (.trap s cBROOD_STATE (broodVal 4 0 0))
              else match freeEntry s (dieOfCell s.cur) with
                | none => .error (.trap s cBROOD_STATE (broodVal 5 0 0))
                | some e =>
                  release s
                  let die := dieOfCell s.cur
                  let key := die * 4096 + e
                  let h := die * 2 ^ 30 + Tab.getD s.bgen key 1 * 4096 + e
                  let s1 := writeViews s (hiveOfCell s.cur) (slots.map fun v => (v.1.getD 0, v.2))
                  let l := s1.myLaunch
                  let s2 := s1.tick
                  let b : Brood := { handle := h, part := l.part, asid, st := .running, desc := dsc, sibs := [], clock := some s2.qtime }
                  let s3 := { s2 with broods := Tab.put s2.broods key b }
                  let s4 := (List.range g).foldl (fun s i =>
                    let (s', lid) := takeLaunch s l.part l.queue asid i (sibHdr t h i viewb vstride cowlen) 0 none (some (h, i))
                    s'.modBrood h fun b => { b with sibs := b.sibs ++ [{ launch := some lid }] }) s3
                  .ok (.ok (defer s4 (.x d) h))) s

/-! ### BJOIN (spec 16 R348 to R350) -/

/-- Deposit for sibling `i`: a reward's bits, or an abstention; only the first while PENDING counts. -/
def deposit (s : State) (h i : Nat) (r : Option W32) : State :=
  match s.brood h with
  | none => s
  | some b =>
    if (b.sibAt i).status != 0 || b.st == .complete then s
    else
      let sib (x : Sib) : Sib := match r with
        | none => { x with status := 4 }
        | some v => { x with status := if bits v.toNat 30 23 = 255 then 5 else 1, reward := v }
      broodComplete (s.modBrood h fun b => { b with sibs := b.sibs.modify i sib }) h

/-- BJOIN in its four forms. -/
def joinOp (r : Option Reg) (wait : Option Reg) : State → Host.Outcome State Fault Refusal :=
  issue 8 noEarlyCheck (match r with | some a => [.f a] | none => []) (match wait with | some d => [.f d] | none => []) fun s => Op.res do
    match s.myLaunch.sib with
    | none => .error (.trap s cBROOD_STATE (broodVal 7 0 0))
    | some (h, i) =>
      release s
      let s1 := deposit s h i (r.map (getF s))
      match wait with
      | none => .ok (.ok s1)
      | some d =>
        match s1.brood h with
        | none => .ok (.ok (defer s1 (.f d) 0))
        | some b =>
          if b.st == .complete then .ok (.ok (defer (s1.modMe (Cell.orderAll s1.stamp)) (.f d) (b.sibAt i).adv.toNat)) else .error (.park s1 (.bjoin h d))

/-- BJOIN. -/
def execBjoin (a : Reg) (s : State) : Host.Outcome State Fault Refusal := joinOp (some a) none s
/-- BJOIN.W. -/
def execBjoinW (d a : Reg) (s : State) : Host.Outcome State Fault Refusal := joinOp (some a) (some d) s
/-- BJOIN.AB. -/
def execBjoinAb (s : State) : Host.Outcome State Fault Refusal := joinOp none none s
/-- BJOIN.AB.W. -/
def execBjoinAbW (d : Reg) (s : State) : Host.Outcome State Fault Refusal := joinOp none (some d) s

/-! ### BKILL and BSTAT (spec 16 R351 to R353) -/

/-- The brood that a handle register names: none where the handle is stale. -/
def namedBrood (s : State) (x : Word) : Op (Nat × Option Brood) :=
  if x.toNat / 2 ^ 32 != 0 then .error (.trap s cBROOD_STATE (broodVal 6 0 0))
  else
    let live (h : Nat) : Option Brood := match s.brood h with
      | some b => if b.part = s.myLaunch.part then some b else none
      | none => none
    if x = 0 then
      match s.myLaunch.sib with
      | none => .error (.trap s cBROOD_STATE (broodVal 7 0 0))
      | some (h, _) => .ok (h, live h)
    else .ok (x.toNat, live x.toNat)

/-- BKILL of one sibling or of all. -/
def killOp (d a : Reg) (b : Option Reg) : State → Host.Outcome State Fault Refusal :=
  issue 8 noEarlyCheck ([.x a] ++ (match b with | some r => [.x r] | none => [])) [.x d] fun s => Op.res do
    let (h, br) ← namedBrood s (getX s a)
    match br with
    | none => .error (.trap s cBROOD_STATE (broodVal 6 0 h))
    | some r =>
      match b with
      | none =>
        let (s1, n) := cancelAll s h 7 (List.range r.sibs.length)
        .ok (.ok (defer s1 (.x d) n))
      | some ix =>
        let i := (getX s ix).toNat
        if i ≥ r.g then .error (.trap s cBROOD_STATE (broodVal 8 0 h))
        else
          let (s1, n) := cancelAll s h 7 [i]
          .ok (.ok (defer s1 (.x d) n))

/-- BKILL. -/
def execBkill (d a b : Reg) (s : State) : Host.Outcome State Fault Refusal := killOp d a (some b) s
/-- BKILL.ALL. -/
def execBkillAll (d a : Reg) (s : State) : Host.Outcome State Fault Refusal := killOp d a none s

/-- The summary (spec 16 R353). -/
def broodSummary (b : Brood) : Nat :=
  (match b.st with | .running => 1 | .preempted => 2 | .complete => 3) * 2 ^ 61 + b2n b.werr * 2 ^ 60
    + b.count (fun x => x == 1 || x == 2 || x == 3) * 2 ^ 45 + b.count (fun x => x == 4 || x == 5) * 2 ^ 36
    + b.count (fun x => x == 7 || x == 8) * 2 ^ 27 + b.count (fun x => x == 6) * 2 ^ 18 + b.count (fun x => x == 0) * 2 ^ 9 + b.g

/-- A cell of a launch is parked in a waiting BJOIN. -/
def joinWaiting (s : State) (launch : Option Nat) : Bool :=
  s.cells.any fun e => some (s.gang e.2.gang).launch == launch && (match e.2.run with | .parked (.bjoin ..) => true | _ => false)

/-- The sibling word (spec 16 R353). -/
def sibWord (s : State) (x : Sib) : Nat :=
  (if x.status = 1 ∨ x.status = 2 ∨ x.status = 3 ∨ x.status = 5 then x.reward.toNat else 0) * 2 ^ 32 + b2n (joinWaiting s x.launch) * 256 + x.status

/-- BSTAT: an acquire at package scope of what the brood's joins released. -/
def execBstat (d a : Reg) (s : State) : Host.Outcome State Fault Refusal :=
  issue 8 noEarlyCheck [.x a] [.x d] (fun s => Op.res do
    let (_, br) ← namedBrood s (getX s a)
    .ok (.ok (match br with
      | some b => defer (s.modMe (Cell.orderAll s.stamp)) (.x d) (broodSummary b)
      | none => defer s (.x d) 0))) s

/-- BSTAT.SIB. -/
def execBstatSib (d a b : Reg) (s : State) : Host.Outcome State Fault Refusal :=
  issue 8 noEarlyCheck [.x a, .x b] [.x d] (fun s => Op.res do
    let (h, br) ← namedBrood s (getX s a)
    match br with
    | none => .ok (.ok (defer s (.x d) 0))
    | some r =>
      let i := (getX s b).toNat
      if i ≥ r.g then .error (.trap s cBROOD_STATE (broodVal 8 0 h)) else .ok (.ok (defer s (.x d) (sibWord s (r.sibAt i))))) s

/-- BROOD_DEADLINE (spec 16 R355): the resident time reaches DEADLINE; the PENDING siblings are cancelled with TIMEOUT. -/
def execBroodDeadline (handle : Nat) (s : State) : Host.Outcome State Fault Refusal :=
  .next <| match s.brood handle with
  | none => s
  | some b =>
    let deadline := b.u 0x38 8
    match b.clock with
    | some t =>
      if deadline = 0 || b.st != .running then s
      else (cancelAll (s.timeTo (t + (deadline - b.time))) handle 8 (List.range b.sibs.length)).1
    | none => s

end Sys2Proof.Machine
end

