-- ==== Sys2Proof/Machine/Sys.lean ====
section
/-! DEFINITION. TRET, TRAISE, ICINV and LAUNCH (spec 18 R376; 05 R113 to R116; 03 R76 to R81). -/

namespace Sys2Proof.Machine

/-- TRET. -/
def execTret (s : State) : Host.Outcome State Fault Refusal :=
  issue 8 (fun s => if s.me.tlev = 0 then some (cILLEGAL, (qs 0x30 0 0 0 0 0 0).pack) else none) [] []
    (fun s => .fin { s.modMe trapReturn with freeCtr := s.freeCtr + 1 }) s

/-- TRAISE. -/
def execTraise (a : Reg) (s : State) : Host.Outcome State Fault Refusal :=
  issue 8 noEarlyCheck [.x a] [] (fun s => .trap s cTRAISE (getX s a)) s

/-! ### ICINV -/

/-- An ASID of a partition (spec 01 R13). -/
def asidOf (s : State) (part a : Nat) : Bool :=
  let r := s.partReg part
  decide (bits r 43 32 ≤ a) && decide (a < bits r 43 32 + bits r 28 16)

/-- ICINV: the lines are dropped on every hive of the partition, and the cell waits for the acknowledgements. -/
def execIcinv (a b : Reg) (s : State) : Host.Outcome State Fault Refusal :=
  issue 8 noEarlyCheck [.x a, .x b] [] (fun s => Op.res do
    let start := (getX s a).toNat
    let len := (getX s b).toNat
    if bits start 63 56 != 0 || (len != 0 && decide (2 ^ 57 < start + len)) then
      .error (.trap s cACCESS_FAULT (getX s a))
    else
      release s
      if len = 0 then .ok (.ok s)
      else
        let first := start / 64 * 64
        let last := (start + len - 1) / 64 * 64
        let part := s.myLaunch.part
        let s1 := dropLines s (asidOf s part) (fun h => s.partOfHive h == some part) first last
        .ok (.park s1 (.icinv first last))) s

/-- ICINV_ACKNOWLEDGED: the last hive has acknowledged, and the parked cell completes its ICINV. -/
def execIcinvAcknowledged (cell : Nat) (s : State) : Host.Outcome State Fault Refusal :=
  .next <| match (s.cell cell).run with
  | .parked (.icinv ..) => finishCell s cell ((s.cell cell).pc + 8)
  | _ => s

/-! ### LAUNCH -/

/-- A LAUNCH packet as an append writes it (spec 03 R78). -/
def launchPacketOf (dva : Nat) : List Byte := leBytes 1 16 ++ leBytes dva 8 ++ zeros 104

/-- The queue that a selector names. -/
def selectedQueue (s : State) (sel : Word) : Nat :=
  queueKey (if bit sel.toNat 12 then bits sel.toNat 11 8 else s.myLaunch.part) (bits sel.toNat 7 0)

/-- The queue that a selector names, where the cell may append to it. -/
def launchTarget (s : State) (sel : Word) : Option Nat :=
  let v := sel.toNat
  let own := s.myLaunch.part
  let p := if bit v 12 then bits v 11 8 else own
  let q := bits v 7 0
  let r := s.queue (queueKey p q)
  if bits v 63 13 != 0 || !s.partValid p || decide (s.qn p ≤ q) || !r.en || !r.prod || (p != own && !bit r.qgrant.toNat own) then none
  else some (selectedQueue s sel)

/-- The cell writes the packet of an append to its slot, in the queue's address space (spec 03 R78). A page that is not present or a
copy-on-write leaf parks it as a store of its own does (07 R170, R173), and a leaf that denies the write traps ACCESS_FAULT with the selector (log
25). The packet replaces two lines whole, so that a refused one is repaired (18 R388). -/
def appendSlot (s : State) (q : Queue) (sel : Word) (d : List Byte) : Op State :=
  let dva := q.slot q.qwr
  let die := dieOfCell s.cur
  let s := noteUnit s die q.asid dva d.length .store
  match unitAt s die q.asid dva .store with
  | .error (.wait kind at_ m) => .error (pageFault s q.asid kind at_ (b2n m) sel none 0)
  | .error (.cow at_ leafAt) => .error (cowPark s q.asid at_ leafAt sel none 0)
  | .error .denied => .error (.trap (faultPast s dva) cACCESS_FAULT sel)
  | .error (.bad pa) => .error (walkRefused s pa)
  | .ok t =>
    let s := faultPast s dva
    .ok (match t with
      | .host pa => s.emit (.hostWrite pa d)
      | .peer acc pa => s.emit (.peerWrite acc pa d)
      | .key k => s.writeLong (.cell s.cur) (some (hiveOfCell s.cur)) k d
      | _ => s)

/-- The loop of LAUNCH, its checks passed: it parks while the queue is full, or appends. -/
def launchLoop (nb : Bool) (d : Reg) (sel : Word) (key dva : Nat) (s : State) : Op Res :=
  let q := s.queue key
  if q.qwr - q.qrd ≥ q.ring then
    if nb then .ok (.ok (defer s (.x d) (2 ^ 64 - 1))) else .error (.park s (.queue key))
  else do
    let s1 ← appendSlot s q sel (launchPacketOf dva)
    .ok (.ok (defer (s1.modQueue key fun q => { q with qwr := q.qwr + 1, floor := s1.stamp }) (.x d) q.qwr))

/-- LAUNCH and LAUNCH.NB. Its checks are made once: one that has waited goes on with its release and its loop (spec 03 R78). -/
def launchOp (nb : Bool) (d a b : Reg) : State → Host.Outcome State Fault Refusal :=
  issue 8 noEarlyCheck [.x a, .x b] [.x d] fun s => Op.res do
    let sel := getX s b
    let ea := getX s a
    let past (s : State) (key dva : Nat) : Op Res := do
      let s := s.modMe fun c => { c with stage := 1 }
      release s
      launchLoop nb d sel key dva s
    if s.me.stage = 1 then past s (selectedQueue s sel) (eaDva s.myGang ea)
    else match launchTarget s sel with
    | none => .error (.trap s cACCESS_FAULT sel)
    | some key =>
      match segCheck s.myGang ea 256 rRead with
      | .error (cause, tval) => .error (.trap s cause tval)
      | .ok dva =>
        if dva % 64 != 0 then .error (.trap s cMISALIGNED ea)
        else if bit dva 56 then .error (.trap s cACCESS_FAULT ea)
        else past s key dva

/-- LAUNCH. -/
def execLaunch (d a b : Reg) (s : State) : Host.Outcome State Fault Refusal := launchOp false d a b s
/-- LAUNCH.NB. -/
def execLaunchNb (d a b : Reg) (s : State) : Host.Outcome State Fault Refusal := launchOp true d a b s

end Sys2Proof.Machine
end

