-- ==== Sys2Proof/Machine/Mgmt.lean ====
section
/-! DEFINITION. The management block: its registers, partitions, hive moves, checkpoint, power (spec 01; 04 R94; 14 R330, R331; 18
R392, R393). -/

namespace Sys2Proof.Machine

/-! ### The rules of R6 -/

/-- A rejected write: MERR holds the register's offset. -/
def rejectM (s : State) (off : Nat) : State := s.setMreg 8 (BitVec.ofNat 64 (off % 65536))

/-- A mask of fields, each given by its highest and lowest bit. -/
def maskOf (fs : List (Nat × Nat)) : Nat := fs.foldl (fun m f => m + (2 ^ (f.1 + 1) - 2 ^ f.2)) 0

/-- A write sets a bit outside the named fields. -/
def setsReserved (v : Word) (fs : List (Nat × Nat)) : Bool := !(v &&& ~~~BitVec.ofNat 64 (maskOf fs) == 0)

/-- Keep the named read-only fields of the old value, and take the rest from the new one. -/
def keepRo (old v : Word) (ro : List (Nat × Nat)) : Word :=
  let m := BitVec.ofNat 64 (maskOf ro)
  (old &&& m) ||| (v &&& ~~~m)

/-! ### Partitions (spec 01 R13, R14, R19) -/

/-- Fields of a PARTn value. -/
def partFields : List (Nat × Nat) := [(63, 63), (59, 56), (43, 32), (28, 16), (7, 0)]
def pVf (v : Nat) : Nat := bits v 59 56
def pAsidB (v : Nat) : Nat := bits v 43 32
def pAsidN (v : Nat) : Nat := bits v 28 16
def pQn (v : Nat) : Nat := bits v 7 0

/-- Some queue of a partition satisfies `p`. -/
def someQueue (s : State) (n : Nat) (p : Nat → Queue → Bool) : Bool :=
  s.queues.any fun e => e.1 / 64 == n && p (e.1 % 64) e.2

/-- A launch of a partition is TAKEN, ASSIGNED or RUNNING; one that is FAILED is none of these (spec 04 R98). -/
def partBusy (s : State) (n : Nat) : Bool := s.launches.any fun e => e.2.part == n && e.2.st != .complete && !e.2.failed

/-- The conditions of V = 1 for partition `n`, against the other valid partitions. -/
def partOk (s : State) (n v : Nat) : Bool :=
  let others := (List.range 16).filter fun m => m != n && s.partValid m
  decide (1 ≤ pAsidN v) && decide (pAsidN v ≤ 4096) && decide (1 ≤ pQn v) && decide (pQn v ≤ 64)
  && decide (pAsidB v + pAsidN v ≤ 4096)
  && (others.all fun m => !(overlap (pAsidB v) (pAsidN v) (pAsidB (s.partReg m)) (pAsidN (s.partReg m))) && pVf (s.partReg m) != pVf v
      && (s.phive m &&& s.phive n) == 0)
  && s.phive n != 0
  && decide (others.foldl (fun a m => a + pQn (s.partReg m)) (pQn v) ≤ 256)

/-- What a valid partition may not change. -/
def partKeep (s : State) (n v : Nat) : Bool :=
  let old := s.partReg n
  ((pVf old == pVf v && pAsidB old == pAsidB v && pAsidN old == pAsidN v) || !(someQueue s n (fun _ q => q.en) || partBusy s n))
  && !(someQueue s n fun i q => q.en && decide (pQn v ≤ i))

/-- Step 3 of R16: a hive's TLB entries and caches are invalidated for a partition's ASIDs, and its LS, HSP and accumulators are
scrubbed. -/
def cleanHive (s : State) (hive : Nat) (asids : Nat → Bool) : State :=
  let s1 := s.modHive hive fun h => { h with tlb := h.tlb.filter fun e => !asids e.asid, icache := h.icache.filter fun l => !asids l.asid }
  let s2 := (range (hive * 16) 16).foldl (fun s c =>
    let s1 := s.scrub (lsKey c 0) 278528
    { s1.modCore c fun k => { k with icache := k.icache.filter fun l => !asids l.asid, tiles := [], occupant := none, holder := none, leaseQ := [], qleft := 0, rsv := [] } with
      rot := s1.rot.filter fun e => e.1 / 68 != c }) s1
  s2.scrub (hspKey hive 0) (8 * 2 ^ 20)

/-- A write of PARTn with V = 1. -/
def partSet (s : State) (n : Nat) (v : Word) : State :=
  let off := 0x100 + 8 * n
  if setsReserved v partFields || !partOk s n v.toNat || (s.partValid n && !partKeep s n v.toNat) then rejectM s off
  else
    let s1 := if s.partValid n then s else
      (List.range 4).foldl (fun s d => s.modDie d fun x => { x with rotor := Tab.del x.rotor n }) s
    s1.setMreg off v

/-- A write of PARTn with V = 0 to a valid partition. -/
def partClear (s : State) (n : Nat) (v : Word) : State :=
  let off := 0x100 + 8 * n
  if setsReserved v partFields || (someQueue s n fun _ q => q.en) || partBusy s n || (s.broods.any fun e => e.2.part == n) then rejectM s off
  else ((s.hivesOf n).foldl (fun s h => cleanHive s h (asidOf s n)) s).setMreg off v

/-- A write of PARTn. -/
def partWrite (s : State) (n : Nat) (v : Word) : State :=
  if v.getLsbD 63 then partSet s n v
  else if s.partValid n then partClear s n v
  else if setsReserved v partFields then rejectM s (0x100 + 8 * n)
  else s.setMreg (0x100 + 8 * n) v

/-- PART_SET_VALID. -/
def execPartSetValid (n : Nat) (v : Word) (s : State) : Host.Outcome State Fault Refusal :=
  .next (if v.getLsbD 63 && decide (n < 16) then partSet s n v else s)

/-- PART_CLEAR_VALID. -/
def execPartClearValid (n : Nat) (v : Word) (s : State) : Host.Outcome State Fault Refusal :=
  .next (if !v.getLsbD 63 && s.partValid n then partClear s n v else s)

/-! ### HMOVE (spec 01 R15 to R19; 04 R103) -/

def hmoveFields : List (Nat × Nat) := [(63, 63), (62, 61), (14, 14), (13, 10), (5, 0)]

/-- HMOVE with GO and the result bits replaced. -/
def hmoveReg (v : Word) (go res : Nat) : Word := setField (setField v 63 63 go) 62 61 res

/-- The target partition that a value names, or none for FREE. -/
def hmoveDst (v : Word) : Option Nat := if v.getLsbD 14 then none else some (bits v.toNat 13 10)

/-- A move that R17 refuses. -/
def hmoveRefused (s : State) (hive : Nat) (dst : Option Nat) : Bool :=
  (match s.partOfHive hive with
   | some p => (s.hivesOf p).length == 1 || dst == some p
   | none => dst.isNone)
  || (match dst with | some d => !s.partValid d | none => false)

/-- A write with GO set. -/
def hmoveGo (s : State) (v : Word) : State :=
  let old := s.mreg 0x200
  if setsReserved v hmoveFields || old.getLsbD 63 then rejectM s 0x200
  else
    let hive := bits v.toNat 5 0
    if hmoveRefused s hive (hmoveDst v) then s.setMreg 0x200 (hmoveReg v 0 1)
    else
      let s1 := ({ s with move := some (hive, hmoveDst v) }.setMreg 0x200 (hmoveReg v 1 (bits old.toNat 62 61))).modHive hive fun h => { h with moving := true }
      orderAll s1 fun _ g => hiveOf g.core == hive

/-- A write of HMOVE. -/
def hmoveWrite (s : State) (v : Word) : State :=
  if v.getLsbD 63 then hmoveGo s v
  else if setsReserved v hmoveFields then rejectM s 0x200
  else s.setMreg 0x200 (keepRo (s.mreg 0x200) v [(63, 63), (62, 61)])

/-- HMOVE_MOVE. -/
def execHmoveMove (v : Word) (s : State) : Host.Outcome State Fault Refusal :=
  .next (if v.getLsbD 63 && !v.getLsbD 14 then hmoveGo s v else s)

/-- HMOVE_FREE. -/
def execHmoveFree (v : Word) (s : State) : Host.Outcome State Fault Refusal :=
  .next (if v.getLsbD 63 && v.getLsbD 14 then hmoveGo s v else s)

/-- The dies over which the `k`-th hive group of a removed hive is dealt again: its own where hives of the partition remain there, and the
others round-robin, where none remain or, for a started group, where no hive of its own can hold it (spec 04 R103; log 70). -/
def regroupDies (s : State) (part die k : Nat) (started : Bool) : List Nat :=
  let here := (hivesOnDie s part die).length
  let others := (dealDies s part (die + 1)).filter (· != die)
  (if here = 0 then [] else [die]) ++ if here = 0 || started then others.rotateLeft (k % max 1 others.length) else []

/-- A hive group of a removed hive is dealt again: a waiting one as R90 deals, a started one to a hive that can hold all its gangs that have
not ended; where none can, it waits (spec 04 R103, R104). A started one too goes to the first such hive at the rotor, which then moves on (DESIGN
CHOICE, log 70). -/
def regroupHive (s : State) (grp k : Nat) : State :=
  match Tab.find s.groups grp with
  | none => s
  | some g =>
    let l := s.launch g.launch
    let started := g.st == GrpState.placed
    let need := if started then (liveGangs s grp).length else widProduct l.hdr.fmt0.toNat l.hdr.fmt1.toNat 2
    let free (hv : Nat) : Bool := !l.hdr.cor || corFree s g.launch g.dieGroup hv
    let deal (d : Nat) : Option Nat := dealHive s l.part d need l.hdr free
    let dies := regroupDies s l.part (g.hive / 16) k started
    let fits (d : Nat) : Option Nat := (deal d).filter fun hv => decide (need ≤ hiveCapacity s l.hdr hv)
    match (dies.findSome? fits).or (if started then none else dies.findSome? deal) with
    | none => s
    | some hv =>
      let s1 := s.modDie (hv / 16) fun d => { d with rotor := Tab.setD d.rotor l.part 0 ((hv % 16 + 1) % 16) }
      { s1 with groups := Tab.adjust s1.groups grp fun g => { g with hive := hv } }

/-- The hive groups of a hive that are not done. -/
def groupsOn (s : State) (hive : Nat) : List Nat := (s.groups.filter fun e => e.2.hive == hive && e.2.st != .done).map (·.1)

/-- A gang holds capacity on a hive. -/
def hiveHeld (s : State) (hive : Nat) : Bool :=
  s.gangs.any fun e => hiveOf e.2.core == hive && (e.2.st == .running || e.2.st == .landing || e.2.st == .handover)

/-- Steps 3 to 5 of R16. -/
def hmoveFinish (s : State) (hive : Nat) (dst : Option Nat) : State :=
  let src := s.partOfHive hive
  let s0 := (range (hive * 16) 16).foldl evict s
  let s1 := cleanHive s0 hive (match src with | some p => asidOf s p | none => fun _ => false)
  let flip (s : State) (p : Nat) : State := s.setMreg (0x180 + 8 * p) (s.mreg (0x180 + 8 * p) ^^^ BitVec.ofNat 64 (2 ^ hive))
  let s2 := match src with | some p => flip s1 p | none => s1
  let s3 := match dst with | some d => flip s2 d | none => s2
  let s4 := (({ s3 with move := none }).modHive hive fun h => { h with moving := false }).setMreg 0x200 (hmoveReg (s3.mreg 0x200) 0 0)
  (groupsOn s hive).zipIdx.foldl (fun s e => regroupHive s e.1 e.2) s4

/-- HMOVE_COMPLETE. -/
def execHmoveComplete (s : State) : Host.Outcome State Fault Refusal :=
  .next <| match s.move with
  | some (hive, dst) => if hiveHeld s hive then s else hmoveFinish s hive dst
  | none => s

/-! ### Port budgets (spec 01 R20, R21) -/

/-- BUDGET_PERIOD: the budget registers take effect. -/
def execBudgetPeriod (s : State) : Host.Outcome State Fault Refusal :=
  .next { s.tick with budget := (s.mgmt.filter fun e => decide (0x1000 ≤ e.1) && decide (e.1 < 0x2000)).map fun e => (((e.1 - 0x1000) / 64) * 8 + e.1 % 64 / 8, e.2) }

/-! ### Checkpoint (spec 01 R23 to R27) -/

def ckptFields : List (Nat × Nat) := [(63, 63), (62, 62), (61, 61), (60, 60), (15, 0)]

/-- The partitions that a value names. -/
def ckptNames (v : Word) : List Nat := (List.range 16).filter fun n => v.getLsbD n

/-- CKPT with its status bits replaced. -/
def ckptReg (v : Word) (qdone busy : Nat) : Word := setField (setField (setField (setField v 63 63 0) 61 61 0) 62 62 qdone) 60 60 busy

/-- The clocks of a partition's broods stop. -/
def stopClocks (s : State) (n : Nat) : State :=
  { s with broods := Tab.mapV s.broods fun b => if b.part = n then b.stopClock s.qtime else b }

/-- A write of CKPT that R23 rejects. -/
def ckptBad (s : State) (v : Word) : Bool :=
  setsReserved v ckptFields || (v.getLsbD 63 && v.getLsbD 61) || ((v.getLsbD 63 || v.getLsbD 61) && (s.mreg 0x300).getLsbD 60)
  || (v.getLsbD 63 && (ckptNames v).any fun n => !s.partValid n)

/-- A write with GO: dispatch stops and the gangs are pre-empted. -/
def ckptGo (s : State) (v : Word) : State :=
  if ckptBad s v then rejectM s 0x300
  else
    let ns := (ckptNames v).filter fun n => !bit s.ckq n
    ns.foldl orderPart ({ s.tick with quiescing := ns }.setMreg 0x300 (ckptReg v 0 1))

/-- A partition resumes. -/
def resumePart (s : State) (n : Nat) : State :=
  if bit s.ckq n then
    { s.setMreg 0x308 (s.mreg 0x308 ^^^ BitVec.ofNat 64 (2 ^ n)) with
      broods := Tab.mapV s.broods fun b => if b.part = n && b.st == .running && b.clock.isNone then { b with clock := some s.qtime } else b }
  else s

/-- A write with RESUME. -/
def ckptRes (s : State) (v : Word) : State :=
  if ckptBad s v then rejectM s 0x300 else (ckptNames v).foldl resumePart (s.tick.setMreg 0x300 (ckptReg v 0 0))

/-- A write of CKPT. -/
def ckptWrite (s : State) (v : Word) : State :=
  if v.getLsbD 63 then ckptGo s v
  else if v.getLsbD 61 then ckptRes s v
  else if ckptBad s v then rejectM s 0x300
  else s.setMreg 0x300 (keepRo (s.mreg 0x300) v [(63, 60)])

/-- CKPT_QUIESCE. -/
def execCkptQuiesce (v : Word) (s : State) : Host.Outcome State Fault Refusal := .next (if v.getLsbD 63 then ckptGo s v else s)

/-- CKPT_RESUME. -/
def execCkptResume (v : Word) (s : State) : Host.Outcome State Fault Refusal :=
  .next (if v.getLsbD 61 && !v.getLsbD 63 then ckptRes s v else s)

/-- A partition's gangs are saved, and its tile copies and atomics have completed. -/
def partStill (s : State) (n : Nat) : Bool :=
  let mine (g : Nat) : Bool := (s.launch (s.gang g).launch).part == n
  (s.gangs.all fun e => !mine e.1 || e.2.st == .saved || e.2.st == .retired || e.2.st == .killed)
  && (s.cores.all fun e => e.2.copies.all fun c => !mine c.gang)
  && (s.posted.all fun p => (s.launch p.launch).part != n) && s.remotes.all fun e => !(e.2.posted && mine e.2.gang)

/-- A partition becomes quiesced. -/
def setCkq (s : State) (n : Nat) : State := (stopClocks s n).setMreg 0x308 (s.mreg 0x308 ||| BitVec.ofNat 64 (2 ^ n))

/-- The end of a quiesce that followed a fault, with its report of KIND 6. -/
def faultQuiesced (s : State) (n : Nat) : State :=
  postReport { setCkq s n with faultQ := removeNat s.faultQ n } 6 0 n noCell 0 0 0 0 0

/-- A partition's quiesce has ended. -/
def quiesceEnds (s : State) : Bool := s.faultQ.any (partStill s) || ((s.mreg 0x300).getLsbD 60 && s.quiescing.all (partStill s))

/-- QUIESCE_DONE. -/
def execQuiesceDone (s : State) : Host.Outcome State Fault Refusal :=
  .next <|
    let s0 := s.tick
    if !quiesceEnds s0 then s else
    let s1 := (s0.faultQ.filter (partStill s0)).foldl faultQuiesced s0
    if (s1.mreg 0x300).getLsbD 60 && s1.quiescing.all (partStill s1) then
      { s1.quiescing.foldl setCkq s1 with quiescing := [] }.setMreg 0x300 (ckptReg (s1.mreg 0x300) 1 0)
    else s1

/-- FAULT_QUIESCE: the die supervisor quiesces the affected partition. CKPT's BUSY tells of a quiesce or resume that CKPT ordered, and
stays as it is (DESIGN CHOICE: no rule says whether this one counts; log 67). -/
def execFaultQuiesce (part : Nat) (s : State) : Host.Outcome State Fault Refusal := .next (quiesceFor s.tick part)

/-! ### The checkpoint engine (spec 01 R26) -/

def ckctlFields : List (Nat × Nat) := [(63, 63), (62, 61), (42, 42), (41, 36), (34, 34), (33, 32), (19, 0)]

/-- CKCTL with GO and RES replaced. -/
def ckctlReg (v : Word) (go res : Nat) : Word := setField (setField v 63 63 go) 62 61 res

/-- A run is under way. -/
def State.ckRuns (s : State) : Bool := (s.mreg 0x328).getLsbD 63

/-- A write of CKCTL with GO. -/
def ckctlGo (s : State) (v : Word) : State :=
  let src := (s.mreg 0x310).toNat
  let len := (s.mreg 0x318).toNat
  let tgt := bits v.toNat 33 32
  if s.ckRuns || setsReserved v ckctlFields || len == 0 || len % 65536 != 0 || decide (2 ^ 39 < src + len) || tgt == 0 || tgt == 3 then rejectM s 0x328
  else (s.setMreg 0x328 (ckctlReg v 1 (bits (s.mreg 0x328).toNat 62 61))).setMreg 0x330 0

/-- A write of CKCTL. -/
def ckctlWrite (s : State) (v : Word) : State :=
  if v.getLsbD 63 then ckctlGo s v
  else if s.ckRuns || setsReserved v ckctlFields then rejectM s 0x328
  else s.setMreg 0x328 (keepRo (s.mreg 0x328) v [(62, 61)])

/-- CKPT_ENGINE_GO. -/
def execCkptEngineGo (v : Word) (s : State) : Host.Outcome State Fault Refusal := .next (if v.getLsbD 63 then ckctlGo s v else s)

/-- The hub, as an agent: its checkpoint engine belongs to no compute die (spec 01 R26). -/
def hubDie : Nat := 4

/-- The run's copy of one 64-byte line. -/
def ckptLine (v : Word) (src dst : Nat) (s : State) (i : Nat) : State :=
  let pa := src + 64 * i
  let at_ := dst + 64 * i
  if v.getLsbD 34 then s.writeLong (.die hubDie) none pa ((range at_ 64).map (Config.outsideByte s.freeCtr))
  else if bits v.toNat 33 32 = 1 then s.emit (.hostWrite at_ (s.read pa 64))
  else s.emit (.peerWrite (bits v.toNat 19 0) at_ (s.read pa 64))

/-- A run performs lines of its range, and CKDONE counts their bytes. -/
def ckptLines (s : State) (lines : List Nat) : State :=
  { lines.foldl (ckptLine (s.mreg 0x328) (s.mreg 0x310).toNat (s.mreg 0x320).toNat) s with freeCtr := s.freeCtr + 1 }.setMreg 0x330
    (BitVec.ofNat 64 (64 * lines.length))

/-- The lines that a failed run has performed: of those that are not refused, any, by a free choice, up to `done` bytes (spec 01 R26; log 28). -/
def ckptDone (s : State) (done : Nat) : List Nat :=
  let src := (s.mreg 0x310).toNat
  (((List.range ((s.mreg 0x318).toNat / 64)).filter fun i =>
    ((s.mreg 0x328).getLsbD 34 || (s.refusedIn (src + 64 * i) 64).isNone) && Config.ckptLineDone s.freeCtr i)).take (done / 64)

/-- The engine stops with a result; the vector is raised where IRQ asks. -/
def ckptEnd (s : State) (res : Nat) : State :=
  let v := s.mreg 0x328
  let s1 := s.setMreg 0x328 (ckctlReg v 0 res)
  if v.getLsbD 42 then s1.msix 0 (bits v.toNat 41 36) else s1

/-- CKPT_RUN_END. The whole range is copied at the end of a run, and CKDONE stays 0 until then (DESIGN CHOICE: pieces may be copied in any
order and at once, and no rule says when one becomes visible; log 74). The report of a PCIe error carries 0 for the link's end and its value
(DESIGN CHOICE: R393 gives both for UCIe and UALink alone; log 74). -/
def execCkptRunEnd (err : Option CkErr) (done : Nat) (s : State) : Host.Outcome State Fault Refusal :=
  .next <|
    if !s.ckRuns then s
    else
      let len := (s.mreg 0x318).toNat
      let bad := if (s.mreg 0x328).getLsbD 34 then none else s.refusedIn (s.mreg 0x310).toNat len
      let err := err.or (bad.map .refusedLine)
      match err with
      | none => ckptEnd (ckptLines s (List.range (len / 64))) 0
      | some e =>
        let s1 := ckptLines s (ckptDone s done)
        let s2 := match e with
          | .refusedLine pa => refusalReport s1 0 pa
          | .pcie => postReport s1 5 0 0 noCell 0 0 0 0 0
          | .ualink st late => postReport (if late then stationTimeout s1 st else stationError s1 st) 5 st 0 noCell 0 0 0 0 0
        ckptEnd s2 1

/-! ### Power (spec 01 R28) -/

/-- A write of PWRCAP. -/
def pwrcapWrite (s : State) (v : Word) : State :=
  if setsReserved v [(11, 0)] || decide (v.toNat < 500) || decide (2000 < v.toNat) then rejectM s 0x400 else s.setMreg 0x400 v

/-- POWER_CAP_WRITE. -/
def execPowerCapWrite (v : Word) (s : State) : Host.Outcome State Fault Refusal := .next (pwrcapWrite s v)

/-- POWER_CAP_CLOCK_CHANGE: the clock of all compute dies is lowered or raised. -/
def execPowerCapClockChange (lower : Bool) (s : State) : Host.Outcome State Fault Refusal := .next { s with slow := lower }

/-! ### All registers -/

/-- A register that keeps what is written where the check passes. -/
def plainReg (s : State) (off : Nat) (v : Word) (ok : Bool) : State := if ok then s.setMreg off v else rejectM s off

/-- A counter that a write of 0 clears. -/
def clearReg (s : State) (off : Nat) (v : Word) (clear : State → State) : State := if v = 0 then clear s else rejectM s off

/-- A write of a budget register (spec 01 R21). -/
def hbudOk (s : State) (off : Nat) (v : Word) : Bool :=
  let mn (w : Word) : Nat := bits w.toNat 15 0
  let base := off / 64 * 64
  let sum := (List.range 5).foldl (fun a c => a + mn (if base + 8 * c = off then v else s.mreg (base + 8 * c))) 0
  !setsReserved v [(31, 0)] && decide (mn v ≤ bits v.toNat 31 16) && decide (bits v.toNat 31 16 ≤ 10000) && decide (sum ≤ 10000)

/-- A write of PSHAREn (spec 04 R94). -/
def pshareOk (v : Word) : Bool :=
  !setsReserved v [(31, 0)] && decide (bits v.toNat 7 0 + bits v.toNat 15 8 + bits v.toNat 23 16 + bits v.toNat 31 24 ≤ 100)

/-- The other end of a module: compute dies face each other across a row or a column under the same number, and their last two
modules face the hub (log 33). -/
def farEnd (e : Nat) : Nat :=
  if e < 32 then
    let d := e / 8
    let m := e % 8
    if m < 3 then (d ^^^ 1) * 8 + m else if m < 6 then (d ^^^ 2) * 8 + m else 32 + 2 * d + (m - 6)
  else (e - 32) / 2 * 8 + 6 + (e - 32) % 2

/-- The die at the far end of a module: 0 to 3, or 4 for the hub. -/
def peerDie (e : Nat) : Nat := if farEnd e < 32 then farEnd e / 8 else 4

/-- A UCIe link register as it is read (spec 14 R330): ULSTATi, ULCRCi, ULRPLi, ULTRNi. -/
def linkRead (s : State) (i r : Nat) : Word :=
  let l := s.link i
  BitVec.ofNat 64 <| match r with
  | 0 => 2 ^ 8 * peerDie i + 4 * b2n l.off + 2 * b2n l.deg + b2n (l.up && !l.off && !l.retraining)
  | 8 => l.crcerr
  | 16 => 2 ^ 32 * l.flits + l.epis
  | 24 => 2 ^ 16 * l.degs + l.trains
  | _ => 0

/-- A UALink station register as it is read (spec 14 R331): UASTATs, UARPLs, UATMOs, UAERRs. -/
def stationRead (s : State) (i r : Nat) : Word :=
  let l := s.station i
  BitVec.ofNat 64 <| match r with
  | 0 => b2n l.up
  | 8 => l.rpl
  | 16 => l.tmo
  | 24 => l.err
  | _ => 0

/-- CODEGENn: PEND and PGEN (spec 20 R415). -/
def codegenRead (s : State) (n : Nat) : Word :=
  let pend := (s.objects.filter fun e => e.2.part == n && e.2.ugen.isSome).length
  BitVec.ofNat 64 (2 ^ 32 * (pend % 2 ^ 16) + s.pgenOf n % 2 ^ 32)

/-- A read of 64 bits at an aligned offset of the management block (spec 01 R6): an offset that no register occupies reads zero. -/
def mgmtRead (s : State) (off : Nat) : Word :=
  if 0x900 ≤ off ∧ off < 0x980 then codegenRead s ((off - 0x900) / 8)
  else if 0x5000 ≤ off ∧ off < 0x5500 then linkRead s ((off - 0x5000) / 32) (off % 32)
  else if 0x5600 ≤ off ∧ off < 0x5A00 then stationRead s ((off - 0x5600) / 32) (off % 32)
  else s.mreg off

/-- A write of a UCIe link register (spec 14 R330). -/
def linkWrite (s : State) (off : Nat) (v : Word) : State :=
  let i := (off - 0x5000) / 32
  match off % 32 with
  | 8 => clearReg s off v fun s => s.modLink i fun e => { e with crcerr := 0 }
  | 16 => clearReg s off v fun s => s.modLink i fun e => { e with flits := 0, epis := 0 }
  | 24 => clearReg s off v fun s => s.modLink i fun e => { e with degs := 0, trains := 0 }
  | _ => rejectM s off

/-- A write of a UALink station register (spec 14 R331). -/
def stationWrite (s : State) (off : Nat) (v : Word) : State :=
  let i := (off - 0x5600) / 32
  match off % 32 with
  | 8 => clearReg s off v fun s => s.modStation i fun e => { e with rpl := 0 }
  | 16 => clearReg s off v fun s => s.modStation i fun e => { e with tmo := 0 }
  | 24 => clearReg s off v fun s => s.modStation i fun e => { e with err := 0 }
  | _ => rejectM s off

/-- A write of 64 bits at an aligned offset of the management block. -/
def mgmtWrite (s : State) (off : Nat) (v : Word) : State :=
  if off = 8 then s.setMreg 8 0
  else if 0x100 ≤ off ∧ off < 0x180 then partWrite s ((off - 0x100) / 8) v
  else if 0x180 ≤ off ∧ off < 0x200 then plainReg s off v (!s.partValid ((off - 0x180) / 8))
  else if off = 0x200 then hmoveWrite s v
  else if off = 0x300 then ckptWrite s v
  else if off = 0x310 then plainReg s off v (!s.ckRuns && !setsReserved v [(43, 16)])
  else if off = 0x318 then plainReg s off v (!s.ckRuns)
  else if off = 0x320 then plainReg s off v (!s.ckRuns && !setsReserved v [(63, 16)])
  else if off = 0x328 then ckctlWrite s v
  else if off = 0x400 then pwrcapWrite s v
  else if 0x500 ≤ off ∧ off < 0x580 then plainReg s off v (pshareOk v)
  else if off = 0x700 then plainReg s off v (!setsReserved v [(63, 12)])
  else if off = 0x708 then plainReg s off v (!setsReserved v [(63, 63), (21, 16), (3, 0)] && decide (bits v.toNat 3 0 ≤ 10))
  else if off = 0x718 then s.setMreg off v
  else if off = 0x720 then clearReg s off v fun s => s.setMreg off 0
  else if 0x800 ≤ off ∧ off < 0x900 then clearReg s off v fun s => s.setMreg off 0
  else if 0x1000 ≤ off ∧ off < 0x2000 ∧ off % 64 < 40 then plainReg s off v (hbudOk s off v)
  else if 0x3000 ≤ off ∧ off < 0x5000 then plainReg s off v (!setsReserved v [(5, 0)] && v != 0)
  else if 0x5000 ≤ off ∧ off < 0x5500 then linkWrite s off v
  else if 0x5600 ≤ off ∧ off < 0x5A00 then stationWrite s off v
  else if off = 0x5A00 then plainReg s off v (!setsReserved v [(19, 0)] && decide (100 ≤ v.toNat) && decide (v.toNat ≤ 1000000))
  else rejectM s off

/-- MERR_CLEAR: any write to MERR clears it. -/
def execMerrClear (_v : Word) (s : State) : Host.Outcome State Fault Refusal := .next (s.setMreg 8 0)

end Sys2Proof.Machine
end

