-- ==== Sys2Proof/Machine/Sm3.lean ====
section
/-! DEFINITION. SM3-256 (GB/T 32905-2016), the hash that spec 01 R9, R12 and 02 R37 name. -/

namespace Sys2Proof.Machine

/-- Rotate left. -/
def rotl (x : W32) (n : Nat) : W32 := x.rotateLeft n

def sm3P0 (x : W32) : W32 := x ^^^ rotl x 9 ^^^ rotl x 17
def sm3P1 (x : W32) : W32 := x ^^^ rotl x 15 ^^^ rotl x 23

/-- A big-endian number. -/
def beNat (l : List Byte) : Nat := l.foldl (fun a b => a * 256 + b.toNat) 0

/-- `n` bytes, most significant first. -/
def beBytes (v n : Nat) : List Byte := (leBytes v n).reverse

/-- The message of `n` bytes padded to whole blocks of 64 bytes. -/
def sm3Pad (m : List Byte) : List Byte :=
  m ++ [0x80] ++ List.replicate ((119 - m.length % 64) % 64) 0 ++ beBytes (8 * m.length) 8

/-- The message words W(0) to W(67) of a block. -/
def sm3Expand (b : List Byte) : List W32 :=
  let w0 := (List.range 16).map fun i => BitVec.ofNat 32 (beNat ((b.drop (4 * i)).take 4))
  (List.range 52).foldl (fun w i =>
    let j := i + 16
    let g (k : Nat) : W32 := (w[k]?).getD 0
    w ++ [sm3P1 (g (j - 16) ^^^ g (j - 9) ^^^ rotl (g (j - 3)) 15) ^^^ rotl (g (j - 13)) 7 ^^^ g (j - 6)]) w0

/-- One block of the compression function over the eight registers. -/
def sm3Block (v : List W32) (b : List Byte) : List W32 :=
  let w := sm3Expand b
  let g (k : Nat) : W32 := (w[k]?).getD 0
  let out := (List.range 64).foldl (fun r j =>
    match r with
    | [a, b, c, d, e, f, gg, h] =>
      let t : W32 := if j < 16 then 0x79CC4519 else 0x7A879D8A
      let ss1 := rotl (rotl a 12 + e + rotl t (j % 32)) 7
      let ss2 := ss1 ^^^ rotl a 12
      let ff := if j < 16 then a ^^^ b ^^^ c else (a &&& b) ||| (a &&& c) ||| (b &&& c)
      let fg := if j < 16 then e ^^^ f ^^^ gg else (e &&& f) ||| (~~~e &&& gg)
      let tt1 := ff + d + ss2 + (g j ^^^ g (j + 4))
      let tt2 := fg + h + ss1 + g j
      [tt1, a, rotl b 9, c, sm3P0 tt2, e, rotl f 19, gg]
    | r => r) v
  (v.zip out).map fun p => p.1 ^^^ p.2

/-- The blocks of a padded message. -/
def sm3Blocks : Nat → List Byte → List W32 → List W32
  | 0, _, v => v
  | n + 1, m, v => sm3Blocks n (m.drop 64) (sm3Block v (m.take 64))

/-- The 32-byte hash of a message. -/
def sm3 (m : List Byte) : List Byte :=
  let p := sm3Pad m
  (sm3Blocks (p.length / 64) p
    [0x7380166F, 0x4914B2B9, 0x172442D7, 0xDA8A0600, 0xA96F30BC, 0x163138AA, 0xE38DEE4D, 0xB0FB0E4E]).flatMap fun w => beBytes w.toNat 4

end Sys2Proof.Machine
end

