-- ==== Sys2Proof/Machine/Host.lean ====
section
/-! DEFINITION. The endpoint as the host sees it: start-up, attestation, configuration, BAR0, BAR2 and BAR4, and function resets
(spec 01 R6 to R12; 03 R56 to R63, R69, R419; 01 R25). -/

namespace Sys2Proof.Machine

/-! ### Start-up (spec 01 R7 to R10) -/

/-- DEVSTAT's stage. -/
def State.stage (s : State) : Nat := bits (s.mreg 0).toNat 3 0

/-- READY. -/
def State.ready (s : State) : Bool := s.stage == 8

/-- Enter FAIL, naming a die or the hub. -/
def failAt (s : State) (die : Nat) : State := s.setMreg 0 (BitVec.ofNat 64 (15 + 16 * die))

/-- Start-up begins at the ROM stage with every register at its reset value. What the device has sent, the time, and the model's
counters go on. -/
def startOver (s : State) : State :=
  { State.reset with freeCtr := s.freeCtr + 1, nextId := s.nextId, qtime := s.qtime, out := s.out, agenda := s.agenda }

/-- POWER_GOOD. -/
def execPowerGood (s : State) : Host.Outcome State Fault Refusal := .next (startOver s)

/-- PCIE_FUNDAMENTAL_RESET. -/
def execPcieFundamentalReset (s : State) : Host.Outcome State Fault Refusal := .next (startOver s)

/-- An image is accepted (spec 01 R9). The message that is signed is the hash, then the version in four bytes, least significant first (DESIGN
CHOICE: the rule gives no layout; log 73). -/
def imageOk (i : FwImage) : Bool :=
  i.hash == sm3 i.body && decide (Config.antiRollback ≤ i.version) && Config.sm2Verifies Config.rootKeyHash (i.hash ++ leBytes i.version 4) i.signature

/-- A core whose lane groups failed in the MEM stage: the spare takes one group, and a second failure retires the core (spec 01
R10, 09 R228, 04 R86). -/
def memLanes (s : State) (f : LaneFault) : State :=
  let groups := (List.range 9).filter fun g => bit f.groups g
  let die := dieOf f.core
  if groups.isEmpty then s
  else
    let cnt := 0x800 + 64 * die + 56
    let s1 := (s.modCore f.core fun k => { k with laneFails := groups }).setMreg cnt (s.mreg cnt + 1)
    if groups.length = 1 then postReport s1 3 0 0 noCell 0 0 0 0 0
    else
      let cl := 0x600 + 8 * (f.core / 64)
      postReport (s1.setMreg cl (s.mreg cl &&& ~~~BitVec.ofNat 64 (2 ^ (f.core % 64)))) 4 0 0 noCell 0 0 0 0 0

/-- The UCIe modules are trained (spec 01 R7, 14 R330). -/
def linksUp (s : State) : State := (List.range 40).foldl (fun s e => s.modLink e fun l => { l with up := true }) s

/-- STAGE_DONE: the stage's checks, then the next stage. A die-supervisor image that is not accepted names its die (DESIGN CHOICE: R9 says that
start-up enters FAIL, and R7 names a die only for late work; log 73). -/
def execStageDone (images : List FwImage) (eccDie : Option Nat) (lanes : List LaneFault) (s : State) : Host.Outcome State Fault Refusal :=
  .next <| match s.stage with
  | 1 =>
    match images with
    | [i] => if imageOk i then { s with hubHash := i.hash }.setMreg 0 2 else failAt s 15
    | _ => failAt s 15
  | 2 => (linksUp s).setMreg 0 3
  | 3 =>
    match (List.range 4).find? fun d => match images[d]? with | some i => !imageOk i | none => true with
    | some d => failAt s d
    | none =>
      let h := (images.take 4).flatMap (·.hash)
      { s with dieHash := h, alias_ := s.hubHash ++ h ++ Config.sm2Sign (s.hubHash ++ h) }.setMreg 0 4
  | 4 =>
    match eccDie with
    | some d => failAt s d
    | none => (lanes.foldl memLanes s).setMreg 0 8
  | _ => s

/-- STAGE_TIMEOUT: the ROM and HUB stages name the hub. -/
def execStageTimeout (die : Option Nat) (s : State) : Host.Outcome State Fault Refusal :=
  .next <| match s.stage with
  | 1 | 2 => failAt s 15
  | 3 | 4 => failAt s (match die with | some d => d % 4 | none => 15)
  | _ => s

/-! ### Attestation (spec 01 R12) -/

/-- The requester reaches the responder: physical function 0, from the HUB stage on and not in FAIL (DESIGN CHOICE: R12 names no stage; log
73). -/
def spdmLive (s : State) (func : Nat) : Bool := func == 0 && decide (2 ≤ s.stage) && s.stage != 15

/-- A request and its answer, as the transcript of the session holds them: the codes and the contents (log 30). -/
def spdmPair (req : Nat) (ask : List Byte) (code : Nat) (d : List Byte) : List Byte := leBytes req 1 ++ ask ++ leBytes code 1 ++ d

/-- Answer a request, or its error response where the session has not come so far; `f` takes the pair into the transcript (log 30). -/
def spdmAnswer (s : State) (func : Nat) (ok : Bool) (req : Nat) (ask : List Byte) (code : Nat) (d : List Byte) (f : Spdm → List Byte → Spdm) : State :=
  if !spdmLive s func then s
  else if ok then { s with spdm := f s.spdm (spdmPair req ask code d) }.emit (.spdm func code d)
  else s.emit (.spdm func 0x7F [])

/-- The certificate chain, entry by entry. -/
def certChain (s : State) : List (List Byte) := (List.range 3).map Config.certificate ++ [s.alias_]

/-- The partition table as measured: PARTn and PHIVEn in ascending offset order. -/
def partTable (s : State) : List Byte := (List.range 32).flatMap fun i => leBytes (s.mreg (0x100 + 8 * i)).toNat 8

/-- Measurement blocks 1 to 4. -/
def measurements (s : State) : List (List Byte) := [Config.romVersion, s.hubHash, s.dieHash, sm3 (partTable s)]

/-- GET_VERSION: a session starts over. -/
def execGetVersion (func : Nat) (s : State) : Host.Outcome State Fault Refusal :=
  .next (spdmAnswer s func true 0x84 [] 0x04 [0x13] fun _ m => { version := true, vca := m })

/-- GET_CAPABILITIES. -/
def execGetCapabilities (func : Nat) (s : State) : Host.Outcome State Fault Refusal :=
  .next (spdmAnswer s func s.spdm.version 0xE1 [] 0x61 [] fun p m => { p with caps := true, vca := p.vca ++ m })

/-- NEGOTIATE_ALGORITHMS: only SM2-P256 with SM3-256. -/
def execNegotiateAlgorithms (func : Nat) (sm2 sm3 : Bool) (s : State) : Host.Outcome State Fault Refusal :=
  .next (spdmAnswer s func (s.spdm.caps && sm2 && sm3) 0xE3 [] 0x63 [] fun p m => { p with negotiated := true, vca := p.vca ++ m })

/-- A message about the certificates joins the transcript. -/
def Spdm.cert (p : Spdm) (m : List Byte) : Spdm := { p with certs := p.certs ++ m }

/-- GET_DIGESTS: the hash of the certificate chain, as SPDM 1.3 gives it (PRESUMED, log 30). -/
def execGetDigests (func : Nat) (s : State) : Host.Outcome State Fault Refusal :=
  .next (spdmAnswer s func s.spdm.negotiated 0x81 [] 0x01 (sm3 (certChain s).flatten) Spdm.cert)

/-- GET_CERTIFICATE. -/
def execGetCertificate (func : Nat) (s : State) : Host.Outcome State Fault Refusal :=
  .next (spdmAnswer s func s.spdm.negotiated 0x82 [] 0x02 (certChain s).flatten Spdm.cert)

/-- What a CHALLENGE signs: the hash of the session's transcript, up to the algorithms and since then about the certificates, with the request
and the answer before its signature (PRESUMED: SPDM 1.3; log 30). -/
def challengeHash (s : State) (nonce : List Byte) : List Byte :=
  sm3 (s.spdm.vca ++ s.spdm.certs ++ spdmPair 0x83 nonce 0x03 (sm3 (certChain s).flatten))

/-- CHALLENGE: the hash of the certificate chain, and a signature by the identity key over the transcript, which then starts again. -/
def execChallenge (func : Nat) (nonce : List Byte) (s : State) : Host.Outcome State Fault Refusal :=
  .next (spdmAnswer s func s.spdm.negotiated 0x83 nonce 0x03 (sm3 (certChain s).flatten ++ Config.sm2Sign (challengeHash s nonce)) fun p _ => { p with certs := [] })

/-- GET_MEASUREMENTS. -/
def execGetMeasurements (func : Nat) (s : State) : Host.Outcome State Fault Refusal :=
  .next (spdmAnswer s func s.spdm.negotiated 0xE0 [] 0x60 (measurements s).flatten fun p _ => { p with certs := [] })

/-! ### Functions (spec 03 R56) -/

/-- A function answers: physical function 0, or while VF Enable is set a virtual function of the NumVFs that SR-IOV brings up, of TotalVFs 16
(spec 03 R56; log 29). -/
def funcLive (s : State) (f : Nat) : Bool := f == 0 || (s.vfEnable && decide (f ≤ min 16 s.numVfs))

/-- The partition that a function reaches. -/
def reach (s : State) (f : Nat) : Option Nat := if funcLive s f then s.partOfFunc f else none

/-! ### Queue control (spec 03 R60, R61, R69) -/

def qctlFields : List (Nat × Nat) := [(63, 63), (62, 62), (61, 61), (43, 32), (22, 22), (21, 16), (8, 8), (5, 4), (3, 0)]

/-- A rejected write to a queue's registers. -/
def rejectQ (s : State) (key : Nat) : State := s.modQueue key fun q => { q with werr := true }

/-- A queue's ring has room: cells that wait to append look again (spec 03 R78). -/
def wakeQueue (s : State) (key : Nat) : State := wakeWhere s fun _ w => w == .queue key

/-- QCTL differs from an enabled queue's in PROD, DIE, SZ or ASID. -/
def qctlMoves (q : Queue) (v : Word) : Bool :=
  !((q.qctl ^^^ v) &&& BitVec.ofNat 64 (maskOf [(43, 32), (8, 8), (5, 4), (3, 0)]) == 0)

/-- A write of QCTL that R61 rejects. -/
def qctlBad (s : State) (part : Nat) (q : Queue) (v : Word) : Bool :=
  setsReserved v qctlFields || decide (8 < bits v.toNat 3 0) || !asidOf s part (bits v.toNat 43 32)
  || (q.en && qctlMoves q v) || (q.en && !v.getLsbD 63 && q.qrd != q.qwr)

/-- QCTL as it is kept: the two commands read 0. -/
def qctlKept (v : Word) : Word := setField v 62 61 0

/-- The effect of an accepted write. -/
def qctlDo (q : Queue) (v : Word) : Queue :=
  let q1 := { q with qctl := qctlKept v }
  if !q.en && v.getLsbD 63 then { q1 with qrd := 0, qwr := 0, state := 1, busy := .none }
  else if q.en && !v.getLsbD 63 then { q1 with state := 0, busy := .none }
  else if q.state = 2 && v.getLsbD 62 then { q1 with state := 1, qrd := if v.getLsbD 61 then q.qrd + 1 else q.qrd }
  else q1

/-- A write of QCTL of a queue. -/
def qctlWrite (s : State) (part q : Nat) (v : Word) : State :=
  let key := queueKey part q
  if qctlBad s part (s.queue key) v then rejectQ s key else wakeQueue (s.modQueue key fun r => qctlDo r v) key

/-- A write of a register of a queue's block. -/
def queueWrite (s : State) (part q r : Nat) (v : Word) : State :=
  let key := queueKey part q
  let x := s.queue key
  match r with
  | 0x00 => if setsReserved v [(56, 12)] || (x.en && v != x.qbase) then rejectQ s key else s.modQueue key fun q => { q with qbase := v }
  | 0x08 => qctlWrite s part q v
  | 0x10 =>
    if setsReserved v [(63, 62), (15, 8), (1, 0)] then rejectQ s key
    else s.modQueue key fun q => { q with werr := q.werr && !v.getLsbD 1, dberr := q.dberr && !v.getLsbD 0 }
  | 0x28 => if setsReserved v [(15, 0)] then rejectQ s key else s.modQueue key fun q => { q with qgrant := v }
  | _ => rejectQ s key

/-- The queue of a function, where its registers exist. -/
def queueOf (s : State) (func q : Nat) : Option Nat := (reach s func).bind fun p => if q < s.qn p then some p else none

/-- FERR records a rejected write (spec 03 R419). -/
def rejectF (s : State) (func off : Nat) : State := s.modFunc func fun f => { f with ferr := BitVec.ofNat 64 (2 ^ 63 + off % 2 ^ 17) }

/-- A write of QCTL through a function, where the value is of the kind given. -/
def qctlOf (s : State) (func q : Nat) (v : Word) (kind : Queue → Bool) : State :=
  if !s.ready then s
  else match queueOf s func q with
    | some p => if kind (s.queue (queueKey p q)) then qctlWrite s p q v else s
    | none => if funcLive s func then rejectF s func (0x10008 + 64 * q) else s

/-- QUEUE_ENABLE. -/
def execQueueEnable (func q : Nat) (v : Word) (s : State) : Host.Outcome State Fault Refusal :=
  .next (qctlOf s func q v fun x => !x.en && v.getLsbD 63)

/-- QUEUE_DISABLE. -/
def execQueueDisable (func q : Nat) (v : Word) (s : State) : Host.Outcome State Fault Refusal :=
  .next (qctlOf s func q v fun x => x.en && !v.getLsbD 63)

/-- QUEUE_RESUME. -/
def execQueueResume (func q : Nat) (v : Word) (s : State) : Host.Outcome State Fault Refusal :=
  .next (qctlOf s func q v fun x => x.en && v.getLsbD 63 && v.getLsbD 62 && !v.getLsbD 61)

/-- QUEUE_RESUME_SKIP. -/
def execQueueResumeSkip (func q : Nat) (v : Word) (s : State) : Host.Outcome State Fault Refusal :=
  .next (qctlOf s func q v fun x => x.en && v.getLsbD 63 && v.getLsbD 62 && v.getLsbD 61)

/-! ### BAR2 (spec 03 R56, R419) -/

/-- A pending vector that is not masked is sent, as PCIe gives MSI-X. -/
def msixFlush (s : State) (func vec : Nat) : State :=
  let f := s.func func
  let pba := Tab.getD f.msix 0x1000 0
  if pba.getLsbD vec && !f.masked vec then
    (s.modFunc func fun r => { r with msix := Tab.setD r.msix 0x1000 0 (pba &&& ~~~BitVec.ofNat 64 (2 ^ vec)) }).emit (.msix func vec)
  else s

/-- MSI-X Enable and Function Mask of a function's capability. -/
def msixControl (s : State) (func : Nat) (on mask : Bool) : State :=
  (List.range 64).foldl (fun s v => msixFlush s func v) (s.modFunc func fun f => { f with msixOn := on, msixMask := mask })

/-- An access of the MSI-X structures: 4 or 8 bytes, aligned (PCIe; log 18). -/
def msixAccess (off size : Nat) : Bool :=
  (size == 4 || size == 8) && off % size == 0 && ((decide (0x12000 ≤ off) && decide (off < 0x12400)) || (decide (0x13000 ≤ off) && decide (off < 0x13008)))

/-- What an unwritten word of the MSI-X structures holds, by its offset from 0x1_2000: every vector is masked. -/
def msixReset (key : Nat) : Word := if key < 0x400 ∧ key % 16 = 8 then BitVec.ofNat 64 (2 ^ 32) else 0

/-- A word of the MSI-X structures. -/
def msixWord (s : State) (func key : Nat) : Word := Tab.getD (s.func func).msix key (msixReset key)

/-- A write to the MSI-X structures: the pending bits are not written. -/
def msixWrite (s : State) (func off size : Nat) (v : Word) : State :=
  let o := off - 0x12000
  let key := o / 8 * 8
  let new := if size = 8 then v else setField (msixWord s func key) (8 * (o % 8) + 31) (8 * (o % 8)) (v.toNat % 2 ^ 32)
  if 0x1000 ≤ o then s else msixFlush (s.modFunc func fun r => { r with msix := Tab.setD r.msix key (msixReset key) new }) func (o / 16)

/-- A read of the MSI-X structures. -/
def msixRead (s : State) (func off : Nat) : Word :=
  let o := off - 0x12000
  msixWord s func (o / 8 * 8) >>> (8 * (o % 8))

/-- A write of FERR. -/
def ferrWrite (s : State) (func : Nat) (v : Word) : State :=
  if setsReserved v [(63, 63), (16, 0)] then rejectF s func 0x11008
  else if v.getLsbD 63 then s.modFunc func fun f => { f with ferr := 0 }
  else s

/-- A write to BAR2 of a function. -/
def bar2Write (s : State) (func off size : Nat) (v : Word) : State :=
  if !funcLive s func || decide (0x20000 ≤ off) then s.emit (.unsupported func)
  else if msixAccess off size then msixWrite s func off size v
  else if size != 8 || off % 8 != 0 then s.emit (.unsupported func)
  else if off < 0x10000 then (if func = 0 then mgmtWrite s off v else s.emit (.unsupported func))
  else if !s.ready then s
  else if off < 0x11000 then
    match queueOf s func ((off - 0x10000) / 64) with
    | some p => queueWrite s p ((off - 0x10000) / 64) (off % 64) v
    | none => rejectF s func off
  else if off = 0x11000 then
    if setsReserved v [(56, 40)] then rejectF s func off else s.modFunc func fun f => { f with winbase := v }
  else if off = 0x11008 then ferrWrite s func v
  else rejectF s func off

/-- A register of a queue's block as it is read (spec 03 R60). -/
def queueRead (q : Queue) (r : Nat) : Word :=
  match r with
  | 0x00 => q.qbase
  | 0x08 => q.qctl
  | 0x10 => BitVec.ofNat 64 (2 ^ 62 * q.state + 2 ^ 8 * q.hcode + 2 * b2n q.werr + b2n q.dberr)
  | 0x18 => BitVec.ofNat 64 q.qrd
  | 0x20 => BitVec.ofNat 64 q.qwr
  | 0x28 => q.qgrant
  | _ => 0

/-- A register of a function outside the management block (spec 03 R56, R57, R60, R419): the registers of a queue that the function does not
reach, and offsets that no register occupies, read zero. -/
def funcRead (s : State) (func off : Nat) : Word :=
  if off < 0x11000 then
    let q := (off - 0x10000) / 64
    match queueOf s func q with
    | some p => queueRead (s.queue (queueKey p q)) (off % 64)
    | none => 0
  else if off = 0x11000 then (s.func func).winbase
  else if off = 0x11008 then (s.func func).ferr
  else 0

/-- A read of BAR2 of a function: its value, or none for Unsupported Request (spec 01 R6, R8; 03 R56, R419). Before READY only the management
block and the MSI-X structures answer (log 73). -/
def bar2Read (s : State) (func off size : Nat) : Option Word :=
  if !funcLive s func || decide (0x20000 ≤ off) then none
  else if off < 0x10000 then if size = 8 ∧ off % 8 = 0 ∧ func = 0 then some (mgmtRead s off) else none
  else if msixAccess off size then some (msixRead s func off)
  else if !s.ready then none
  else if size = 8 ∧ off % 8 = 0 then some (funcRead s func off)
  else none

/-- The host reads a register. -/
def readRegister (func off size : Nat) (s : State) : State :=
  match bar2Read s func off size with
  | some v => s.emit (.data func (leBytes v.toNat size))
  | none => s.emit (.unsupported func)

/-- REGISTER_WRITE. -/
def execRegisterWrite (func off size : Nat) (v : Word) (s : State) : Host.Outcome State Fault Refusal := .next (bar2Write s func off size v)

/-- FERR_CLEAR: 1 is written to FERR.V. -/
def execFerrClear (func : Nat) (s : State) : Host.Outcome State Fault Refusal :=
  .next (if funcLive s func then ferrWrite s func (BitVec.ofNat 64 (2 ^ 63)) else s)

/-! ### BAR0 (spec 03 R63, 01 R8) -/

/-- A doorbell that no earlier write of the host holds back. -/
def ringBell (s : State) (func q : Nat) (w : Word) : State :=
  if !s.ready then s
  else match queueOf s func q with
    | none => s
    | some p =>
      s.modQueue (queueKey p q) fun x =>
        if x.en && !x.prod && decide (x.qwr < w.toNat) && decide (w.toNat ≤ x.qrd + x.ring) then { x with qwr := w.toNat, floor := s.stamp }
        else { x with dberr := true }

/-- An earlier access of the host that a later one may not pass, in PCIe order: a read passes no write, a write or doorbell only one with
Relaxed Ordering, and a write with Relaxed Ordering passes any (spec 03 R64; 13 R300; log 77). -/
def hostBehind (s : State) (a : HostAcc) : Bool :=
  s.hostAccs.any fun e => decide (e.id < a.id) && e.data.isSome && (if a.bell.isNone && a.data.isNone then true else !e.relaxed && !a.relaxed)

/-- BAR0_UNSUPPORTED_ACCESS: anything but a doorbell write. -/
def execBar0UnsupportedAccess (func off size : Nat) (write : Bool) (s : State) : Host.Outcome State Fault Refusal :=
  .next (if write && size == 8 && off % 4096 == 0 && decide (off < 0x40000) then s else s.emit (.unsupported func))

/-! ### BAR4 (spec 03 R57, 01 R25) -/

/-- What a host access finds: a key, a page that the pager is asked for, a refused line, or no right. -/
inductive HostLook where
  | key (k : Nat)
  | wait (dva : Nat) (malformed : Bool)
  | refused (pa : Nat)
  | denied

/-- One piece of a host access. -/
def hostAt (s : State) (asid dva : Nat) (writes : Bool) : HostLook :=
  match walk s asid dva with
  | .absent m => .wait dva m
  | .bad pa => .refused pa
  | .leaf w _ size =>
    if writes && pteTgt w == 0 && pteCow w then .wait dva false
    else if pteTgt w != 0 || !(if writes then pteW w else pteR w) then .denied
    else .key (pteAddr w + dva % 2 ^ size)

/-- The keys of a host access, or what stops it first. -/
def hostKeys (s : State) (asid dva n : Nat) (writes : Bool) : Except HostLook (List (Nat × Nat × Nat)) :=
  (pagePieces dva n).mapM fun p =>
    match hostAt s asid (dva + p.1) writes with
    | .key k => .ok (p.1, k, p.2)
    | e => .error e

/-- A host access ends without success: Completer Abort for a read, nothing for a write. -/
def hostFail (s : State) (func : Nat) (data : Option (List Byte)) : State :=
  match data with
  | none => s.emit (.completerAbort func)
  | some _ => s

/-- Do a host access, or leave it to the pager, whose record names the page that is missing. -/
def hostDo (s : State) (a : HostAcc) : State :=
  let part := (s.partOfFunc a.func).getD 0
  match hostKeys s a.asid a.dva a.n a.data.isSome with
  | .error (.wait dva m) =>
    let refaults := if a.faultDva = some dva then min 255 (a.refaults + 1) else 0
    { s with hostAccs := s.hostAccs ++ [{ a with held := false, faultDva := some dva, refaults }]
             faults := s.faults ++ [{ who := .host a.id, dva, asid := a.asid, kind := .host, flags := b2n m + (if refaults ≥ 8 then 2 else 0)
                                      refaults, seq := 0, remain := 0, stride := 0 }] }
  | .error (.refused pa) => refusalReport (hostFail s a.func a.data) part pa
  | .error _ => hostFail s a.func a.data
  | .ok keys =>
    match a.data with
    | some d => keys.foldl (fun s p => s.writeLong .host none p.2.1 ((d.drop p.1).take p.2.2)) s
    | none =>
      match keys.findSome? fun p => s.refusedIn p.2.1 p.2.2 with
      | some pa => refusalReport (hostFail s a.func a.data) part pa
      | none => s.emit (.data a.func (keys.flatMap fun p => s.read p.2.1 p.2.2))

/-- An access of the host takes its turn. -/
def hostStart (s : State) (a : HostAcc) : State :=
  match a.bell with
  | some (q, w) => ringBell s a.func q w
  | none => hostDo s a

/-- An access of the host arrives: it waits where an earlier one holds it back. -/
def hostArrive (s : State) (a : HostAcc) : State :=
  if hostBehind s a then { s with hostAccs := s.hostAccs ++ [{ a with held := true }], nextId := s.nextId + 1 } else hostStart s a

/-- A host access is no longer with the pager. -/
def dropHost (s : State) (id : Nat) : State :=
  { s with hostAccs := s.hostAccs.filter fun a => a.id != id, faults := s.faults.filter fun r => r.who != .host id }

/-- What waited behind an access of the host takes its turn, in order. -/
def hostRelease (s : State) : State :=
  (s.hostAccs.filter (·.held)).foldl (fun s a => if hostBehind s a then s else hostStart (dropHost s a.id) a) s

/-- DOORBELL. -/
def execDoorbell (func q : Nat) (w : Word) (s : State) : Host.Outcome State Fault Refusal :=
  .next (hostArrive s { id := s.nextId, func, asid := 0, dva := 0, n := 0, data := none, bell := some (q, w) })

/-- A host access at an offset of BAR4. -/
def bar4 (s : State) (func off n : Nat) (data : Option (List Byte)) (relaxed : Bool) : State :=
  match (if s.ready then reach s func else none) with
  | none => s.emit (.unsupported func)
  | some p =>
    let dva := (s.func func).winbase.toNat + off
    if dva / 2 ^ 56 != 0 then s.emit (.unsupported func)
    else hostArrive { s with nextId := s.nextId + 1 } { id := s.nextId, func, asid := pAsidB (s.partReg p), dva, n, data, relaxed }

/-- HOST_BAR4_READ. -/
def execHostBar4Read (func off n : Nat) (s : State) : Host.Outcome State Fault Refusal := .next (bar4 s func off n none false)

/-- HOST_BAR4_WRITE: a write without Relaxed Ordering. -/
def execHostBar4Write (func off : Nat) (data : List Byte) (s : State) : Host.Outcome State Fault Refusal :=
  .next (bar4 s func off data.length (some data) false)

/-- A write of the host through BAR4 that carries Relaxed Ordering (spec 03 R64). -/
def relaxedWrite (func off : Nat) (data : List Byte) (s : State) : State := bar4 s func off data.length (some data) true

/-- The pager's answer to a host access: try again, or fail. What waited behind it then goes on. -/
def hostWake (s : State) (id : Nat) (retry : Bool) : State :=
  match s.hostAccs.find? fun a => a.id == id && !a.held with
  | none => s
  | some a =>
    let s1 := dropHost s id
    hostRelease (if retry then hostDo s1 a else hostFail s1 a.func a.data)

/-- BAR4_PAGER_TIMEOUT: 1 ms has passed. -/
def execBar4PagerTimeout (id : Nat) (s : State) : Host.Outcome State Fault Refusal := .next (hostWake s id false)

/-! ### Function resets (spec 03 R58, R59) -/

/-- K_PARTITION ends a launch's work, unplaced work included. -/
def partitionKill (s : State) (lid func : Nat) : State :=
  let v := BitVec.ofNat 64 func
  let unplaced := s.groups.any fun e => e.2.launch == lid && e.2.st == GrpState.waiting
  let s1 := killLaunch { s with groups := Tab.mapV s.groups fun g => if g.launch = lid && g.st == GrpState.waiting then { g with st := .done } else g } lid 0x85 v
  let s2 := if unplaced then s1.modLaunch lid fun l =>
      { l with hard := true, first := match l.first with | some k => some k | none => some { code := 0x85, cell := noCell, val := v } }
    else s1
  completeLaunch s2 lid

/-- A partition's queues take no more packets. -/
def stopQueues (s : State) (p : Nat) : State :=
  { s with queues := s.queues.map fun e => (e.1, if e.1 / 64 = p then { e.2 with state := 0, busy := .none } else e.2) }

/-- The reset of one function. -/
def resetFunc (s : State) (func : Nat) : State :=
  let s0 : State := { s with funcs := Tab.del s.funcs func, cfg := s.cfg.filter fun e => e.1 / 4096 != func
                             hostAccs := s.hostAccs.filter fun a => a.func != func
                             faults := s.faults.filter fun r => match r.who with
                               | .host id => !(s.hostAccs.any fun a => a.id == id && a.func == func)
                               | _ => true }
  hostRelease <| match s.partOfFunc func with
  | none => s0
  | some p =>
    let s1 := stopQueues s0 p
    let s2 := ((s.launches.filter fun e => e.2.part == p).map (·.1)).foldl (fun s l => partitionKill s l func) s1
    wakeWhere { s2 with queues := s2.queues.filter fun e => e.1 / 64 != p } fun _ w => match w with | .queue k => k / 64 == p | _ => false

/-- FUNCTION_LEVEL_RESET of a virtual function. -/
def execFunctionLevelReset (func : Nat) (s : State) : Host.Outcome State Fault Refusal :=
  .next (if funcLive s func && func != 0 then resetFunc s func else s)

/-- VF Enable clears: every virtual function is reset. -/
def resetVfs (s : State) : State := { (range 1 16).foldl resetFunc s with vfEnable := false }

/-- PF0_FUNCTION_LEVEL_RESET. A run of the checkpoint engine that it stops has performed no line, and no vector is raised for its end (DESIGN
CHOICE: R59 gives the result code alone; log 74). -/
def execPf0FunctionLevelReset (s : State) : Host.Outcome State Fault Refusal :=
  .next <|
    let s1 := resetFunc (resetVfs s) 0
    let s2 := s1.setMreg 0x708 (setField (s1.mreg 0x708) 63 63 0)
    let s3 := if s2.ckRuns then s2.setMreg 0x328 (ckctlReg (s2.mreg 0x328) 0 2) else s2
    { (s3.setMreg 0x300 (ckptReg (s3.mreg 0x300) (bits (s3.mreg 0x300).toNat 62 62) 0)).setMreg 0x308 0 with quiescing := [], numVfs := 0 }

/-! ### Configuration (spec 01 R8) -/

/-- CONFIGURATION_REQUEST. -/
def execConfigurationRequest (func : Nat) (req : CfgReq) (s : State) : Host.Outcome State Fault Refusal :=
  .next <|
    if s.stage < 2 || !funcLive s func then s
    else match req with
      | .read off => s.emit (.data func ((range off 4).map fun o => BitVec.ofNat 8 (Tab.getD s.cfg (func * 4096 + o) (Config.cfgReset func o))))
      | .write off v => { s with cfg := (List.range 4).foldl (fun t i => Tab.put t (func * 4096 + (off + i) % 4096) (v / 256 ^ i % 256)) s.cfg }
      | .readTotalVfs => if func = 0 then s.emit (.data func (leBytes 16 2)) else s
      | .setMsix on mask => msixControl s func on mask
      | .setNumVfs n => if func = 0 && !s.vfEnable && decide (n ≤ 16) then { s with numVfs := n } else s
      | .setVfEnable en => if func != 0 then s else if en then { s with vfEnable := true } else if s.vfEnable then resetVfs s else s

end Sys2Proof.Machine
end

