-- ==== Sys2Proof/Machine/Load.lean ====
section
/-! DEFINITION. Cerjo objects and the LOAD packet's work (spec 02 R37 to R41; 03 R70; 05 R117). -/

namespace Sys2Proof.Machine

/-- A little-endian number in a file. -/
def fileNat (d : List Byte) (o n : Nat) : Nat := leNat ((d.drop o).take n)

/-- The results of a LOAD (spec 03 R70). -/
def lOK : Nat := 0
def lNOIMAGE : Nat := 1
def lBADHASH : Nat := 2
def lNOSPACE : Nat := 3
def lBADOBJ : Nat := 4

/-- The file header and the image table keep R37. -/
def fileOk (d : List Byte) : Bool :=
  let n := fileNat d 6 2
  let itab := fileNat d 8 8
  decide (64 ≤ d.length) && fileNat d 0 4 == 0x004F4A43 && fileNat d 4 2 == 1 && decide (1 ≤ n) && decide (n ≤ 16)
  && decide (itab + 32 * n ≤ d.length) && fileNat d 0x30 16 == 0
  && (List.range n).all fun i => fileNat d (itab + 32 * i + 1) 7 == 0

/-- An entry of the image table: its revision and features, and where its image lies. -/
def imageEntry (d : List Byte) (i : Nat) : Nat × Nat × Nat × Nat :=
  let o := fileNat d 8 8 + 32 * i
  (fileNat d o 1, fileNat d (o + 8) 8, fileNat d (o + 16) 8, fileNat d (o + 24) 8)

/-- The image that the loader selects on C0, which has no feature bits: the highest eligible revision, lowest index first (spec 02
R38, R39). -/
def pickImage (d : List Byte) : Option Nat :=
  (List.range (fileNat d 6 2)).foldl (fun best i =>
    let e := imageEntry d i
    if e.1 > 0x20 || e.2.1 != 0 then best
    else match best with
      | none => some i
      | some b => if (imageEntry d b).1 < e.1 then some i else best) none

/-- An image's header (spec 02 R37). -/
structure Image where
  text : Nat × Nat
  rd : Nat × Nat
  data : Nat × Nat
  rdDist : Nat
  dDist : Nat
  kt : Nat
  nkern : Nat
  nrel : Nat
  rel : Nat
deriving DecidableEq, Repr

def imageOf (d : List Byte) : Image :=
  let u (o n : Nat) : Nat := fileNat d o n
  { text := (u 0 8, u 8 8), rd := (u 0x10 8, u 0x18 8), data := (u 0x20 8, u 0x28 8), rdDist := u 0x30 8, dDist := u 0x38 8, kt := u 0x40 8
    nkern := u 0x48 4, nrel := u 0x4C 4, rel := u 0x50 8 }

/-- No two of the parts share a byte. -/
def apart : List (Nat × Nat) → Bool
  | [] => true
  | p :: t => (t.all fun q => !(overlap p.1 p.2 q.1 q.2)) && apart t

/-- The word that a relocation names, and the section whose base is added: valid (spec 02 R37, R41). -/
def relOk (m : Image) (d : List Byte) (k : Nat) : Bool :=
  let o := m.rel + 16 * k
  let off := fileNat d o 8
  let sec := fileNat d (o + 8) 1
  let size := if sec = 1 then m.rd.2 else if sec = 2 then m.data.2 else 320 * m.nkern
  decide (1 ≤ sec) && decide (sec ≤ 3) && decide (fileNat d (o + 9) 1 ≤ 2) && fileNat d (o + 10) 6 == 0 && decide (off + 8 ≤ size)
  && (sec != 3 || (let r := off % 320
                   r == 0x28 || r == 0x48 || (decide (0xA0 ≤ r) && decide (r < 0x120) && r % 8 == 0)))

/-- An image keeps R37. Among what R37 states, nonzero reserved bytes of a kernel record and relocation entries out of range make it malformed,
and the padding of a kernel's name does not (DEDUCED, log 17). -/
def imageFits (d : List Byte) : Bool :=
  let m := imageOf d
  let parts := [(0, 96), m.text, m.rd, m.data, (m.kt, 320 * m.nkern), (m.rel, 16 * m.nrel)]
  decide (96 ≤ d.length) && fileNat d 0x58 8 == 0 && m.text.2 % 4 == 0
  && m.rdDist % 65536 == 0 && decide (roundUp m.text.2 65536 ≤ m.rdDist)
  && m.dDist % 65536 == 0 && decide (m.rdDist + roundUp m.rd.2 65536 ≤ m.dDist)
  && apart parts && (parts.all fun p => decide (p.1 + p.2 ≤ d.length))
  && ((List.range m.nkern).all fun k => fileNat d (m.kt + 320 * k + 288) 32 == 0)
  && (List.range m.nrel).all (relOk m d)

/-- Replace bytes of a list. -/
def overlay (d : List Byte) (o : Nat) (b : List Byte) : List Byte := d.take o ++ b ++ d.drop (o + b.length)

/-- Apply the relocations of one section. -/
def relocate (m : Image) (d : List Byte) (base sec : Nat) (b : List Byte) : List Byte :=
  (List.range m.nrel).foldl (fun b k =>
    let o := m.rel + 16 * k
    if fileNat d (o + 8) 1 = sec then
      let off := fileNat d o 8
      let add := match fileNat d (o + 9) 1 with | 0 => base | 1 => base + m.rdDist | _ => base + m.dDist
      overlay b off (leBytes (fileNat b off 8 + add) 8)
    else b) b

/-- A piece of a file. -/
def piece (d : List Byte) (p : Nat × Nat) : List Byte := (d.drop p.1).take p.2

/-- The sections as they are mapped: base, bytes, and the permission bits of their leaves (spec 02 R41, 07 R167). No rule says where in the code
region the relocated kernel table lies, nor what fills the rest of a section's last page: it follows the data, read-only, and zeros do (DESIGN
CHOICE, log 17). -/
def sectionsOf (m : Image) (d : List Byte) (base : Nat) : List (Nat × List Byte × Nat) :=
  let kt := base + m.dDist + roundUp m.data.2 65536
  [(base, piece d m.text, 0x14), (base + m.rdDist, relocate m d base 1 (piece d m.rd), 0x04),
   (base + m.dDist, relocate m d base 2 (piece d m.data), 0x0C), (kt, relocate m d base 3 (piece d (m.kt, 320 * m.nkern)), 0x04)]

/-- Map one 64 KiB page of an object where the page tables lead to its entry. Where the runtime has set up no table for it the load fails with
NOSPACE, which no rule says (DESIGN CHOICE, log 17). -/
def mapPage (s : State) (asid dva pa perm : Nat) (b : List Byte) : Option State := do
  let table ← (walkLevels.take 4).foldl (fun t l =>
    t.bind fun table =>
      let w := s.readNat (table + 8 * (dva / 2 ^ l.2.1 % 2 ^ l.2.2)) 8
      if pteV w && !malformed l.1 l.2.1 w && !pteLeaf w then some (pteAddr w) else none) (Tab.find s.roots asid)
  let s1 := s.write (.die (pa / 2 ^ 37)) none pa (b ++ zeros (65536 - b.length))
  return s1.writeEntry (table + 8 * (dva / 65536 % 32)) (BitVec.ofNat 64 (pa + 0x41 + perm))

/-- The first page number from one on that is not in use (spec 20 R412: no page is reused before its object is unmapped). -/
def freePage (used : List Nat) (from_ : Nat) : Option Nat :=
  ((List.range (used.length + 1)).map fun k => (from_ + k) % 2 ^ 23).find? fun p => !used.contains p

/-- Map the sections of the `n`-th object, page after page, on pages that no mapped object holds: the state, and the pages. -/
def mapSections (s : State) (asid n : Nat) (secs : List (Nat × List Byte × Nat)) : Option (State × List Nat) :=
  let pages := secs.flatMap fun e =>
    (List.range ((e.2.1.length + 65535) / 65536)).map fun i => (e.1 + 65536 * i, (e.2.1.drop (65536 * i)).take 65536, e.2.2)
  let held := (s.objects.filter fun e => !e.2.unmapped).flatMap fun e => e.2.pages
  pages.zipIdx.foldl (fun r e => do
    let (s, mine) ← r
    let p ← freePage (held ++ mine) (Config.codePage n e.2)
    let s1 ← mapPage s asid e.1.1 (p * 65536) e.1.2.2 e.1.2.1
    return (s1, mine ++ [p])) (some (s, []))

/-- The base of the `n`-th object, which takes `size` bytes: a free choice of the region's places where no object of the ASID lies and no
retired range is kept (spec 20 R413; log 17). -/
def placeObject (s : State) (asid n size : Nat) : Option Nat :=
  let kept := (s.objects.filter fun e => e.2.asid == asid).flatMap fun e => e.2.ranges
  ((List.range 64).map fun k => Config.codeBase (64 * n + k) % 2 ^ 40 * 65536).find? fun b => kept.all fun r => !overlap b size r.1 (roundUp r.2 65536)

/-- What a LOAD with HREF 0 gives: a result, and the object. -/
def loadObject (s : State) (part asid : Nat) (gen : Bool) (d : List Byte) : State × Nat × Option (Nat × Obj) :=
  if !fileOk d then (s, lBADOBJ, none)
  else if (d.drop 0x10).take 32 != sm3 (d.drop 0x40) then (s, lBADHASH, none)
  else match pickImage d with
    | none => (s, lNOIMAGE, none)
    | some i =>
      let e := imageEntry d i
      if e.2.2.1 + e.2.2.2 > d.length || !imageFits (piece d e.2.2) then (s, lBADOBJ, none)
      else
        let im := piece d e.2.2
        let m := imageOf im
        let h := s.nextId
        let ktab := m.dDist + roundUp m.data.2 65536
        match (if Config.codeSpace h then placeObject s asid h (ktab + roundUp (320 * m.nkern) 65536) else none) with
        | none => (s, lNOSPACE, none)
        | some base =>
          match mapSections { s with nextId := h + 1 } asid h (sectionsOf m im base) with
          | none => (s, lNOSPACE, none)
          | some (s1, pages) =>
            let o : Obj := { part, asid, text := base, textSz := m.text.2, rd := base + m.rdDist, rdSz := m.rd.2, data := base + m.dDist
                             dataSz := m.data.2, ktab := base + ktab, rev := e.1, nkern := m.nkern, refs := 1, gen, pages }
            let s2 := dropLines s1 (asidOf s1 part) (fun hv => s1.partOfHive hv == some part) base (o.ktab + 320 * m.nkern)
            ({ s2 with objects := Tab.put s2.objects h o }, lOK, some (h, o))

/-- The load record of an object. -/
def loadRecord (h : Nat) (o : Obj) : List Byte :=
  leBytes lOK 4 ++ leBytes h 4 ++ leBytes o.rev 1 ++ zeros 3 ++ leBytes o.nkern 4 ++ leBytes o.text 8 ++ leBytes o.rd 8 ++ leBytes o.data 8
    ++ leBytes o.ktab 8 ++ leBytes o.refs 4 ++ zeros 12

/-- The load record of a failed load: no rule gives the fields of the object (log 27). -/
def failRecord (s : State) (stat : Nat) : List Byte :=
  let free (o n : Nat) : List Byte := (range o n).map (Config.loadRecordByte s.freeCtr)
  leBytes stat 4 ++ zeros 4 ++ free 8 1 ++ zeros 3 ++ free 0x0C 40 ++ zeros 12

end Sys2Proof.Machine
end

