-- ==== Sys2Proof/Machine/Packets.lean ====
section
/-! DEFINITION. The dispatch unit takes packets: LAUNCH, WAITSIG, SETSIG, LOAD, UNLOAD and FENCE (spec 03 R62 to R71; 20 R412). -/

namespace Sys2Proof.Machine

/-! ### A packet (spec 03 R65, R69) -/

/-- A field of a packet. -/
def pkt (d : List Byte) (o n : Nat) : Nat := leNat ((d.drop o).take n)

/-- The bytes of a packet that may be nonzero, by its type. -/
def pktFields (ty : Nat) : List (Nat × Nat) :=
  [(0, 3), (8, 8)] ++ match ty with
    | 1 => [(0x10, 8)]
    | 2 => [(0x10, 8), (0x18, 1), (0x20, 8), (0x28, 8)]
    | 3 => [(0x10, 8), (0x18, 1), (0x20, 8)]
    | 4 => [(0x10, 8), (0x18, 8), (0x20, 8), (0x28, 4), (0x2C, 1)]
    | 5 => [(0x10, 4)]
    | _ => []

/-- BADPKT. A set bit of LFLG but [0] is one (DESIGN CHOICE: R65 names that bit alone; log 75). -/
def badPacket (d : List Byte) : Bool :=
  let ty := pkt d 0 1
  ty == 0 || decide (6 < ty) || decide (1 < pkt d 1 1) || decide (63 < pkt d 2 1) || pkt d 8 8 % 8 != 0
  || (d.zipIdx.any fun e => e.1 != 0 && !((pktFields ty).any fun f => decide (f.1 ≤ e.2) && decide (e.2 < f.1 + f.2)))
  || (ty == 1 && pkt d 0x10 8 % 64 != 0)
  || ((ty == 2 || ty == 3) && pkt d 0x10 8 % 8 != 0)
  || (ty == 2 && decide (5 < pkt d 0x18 1)) || (ty == 3 && decide (1 < pkt d 0x18 1))
  || (ty == 4 && (pkt d 0x20 8 % 64 != 0 || decide (1 < pkt d 0x2C 1)
      || (pkt d 0x28 4 != 0 && (pkt d 0x10 8 != 0 || pkt d 0x18 8 != 0 || pkt d 0x2C 1 != 0))))

/-! ### Halts and faults (spec 03 R69) -/

def hBADPKT : Nat := 1
def hBADHANDLE : Nat := 2
def hWAITEXP : Nat := 3
def hPKTFAULT : Nat := 4

/-- The queue halts. -/
def haltQueue (s : State) (key code : Nat) : State :=
  let q := s.queue key
  let s1 := s.modQueue key fun q => { q with state := 2, hcode := code, busy := .none, pkt := [] }
  if bit q.qctl.toNat 22 then s1.msix (pVf (s.partReg (key / 64))) (bits q.qctl.toNat 21 16) else s1

/-- A read or update for a packet stops: it waits for the pager, or the queue halts with PKTFAULT. -/
def packetStop (s : State) (key : Nat) (since : Option Nat) (e : UStop) : State :=
  match e.record s.nextId (s.queue key).asid, e with
  | some f, _ => ({ s with nextId := s.nextId + 1, faults := s.faults ++ [f] }).modQueue key fun q => { q with busy := .fault s.nextId since }
  | none, .bad pa => haltQueue (refusalReport s (key / 64) pa) key hPKTFAULT
  | none, _ => haltQueue s key hPKTFAULT

/-! ### Taking (spec 03 R67; 04 R93) -/

/-- The dispatch unit may take a packet of a queue now. -/
def takeable (s : State) (key : Nat) : Bool :=
  let q := s.queue key
  s.ready && decide (key % 64 < s.qn (key / 64)) && !s.quiet (key / 64) && q.en && q.state == 1 && q.busy == .none && decide (q.qrd < q.qwr)

/-- The queue whose turn it is on a die: the first takeable one after the last served, round-robin. -/
def dueQueue (s : State) (die : Nat) : Option Nat :=
  let ks := (s.queues.filter fun e => e.2.die == die && takeable s e.1).map (·.1)
  let last := (s.die die).qrr
  (ks.find? fun k => decide (last < k + 1)).or ks.head?

/-- Read the packet at QRD. -/
def readPacket (s : State) (key : Nat) : Except UStop (List Byte) :=
  let q := s.queue key
  unitRead s q.die q.asid (q.slot q.qrd) 128

/-- What the dispatch unit's translations of a range for a queue leave behind (spec 07 R169). -/
def noteQueue (s : State) (key dva n : Nat) (kind : Kind := .load) : State := noteUnit s (s.queue key).die (s.queue key).asid dva n kind

/-- Take the packet of the queue whose turn it is, where it is of type `ty`; one that cannot be read or breaks R65 halts the
queue. -/
def takePacket (ty : Nat) (s : State) (part q : Nat) (f : State → Nat → List Byte → State) : State :=
  let key := queueKey part q
  let die := (s.queue key).die
  if 64 ≤ q || !takeable s key || dueQueue s die != some key then s
  else
    let served (s : State) : State := noteQueue (s.modDie die fun d => { d with qrr := key + 1 }) key ((s.queue key).slot (s.queue key).qrd) 128
    match readPacket s key with
    | .error e => packetStop (served s) key none e
    | .ok d =>
      if badPacket d then haltQueue (served s) key hBADPKT
      else if pkt d 0 1 = ty then f ((served s).modQueue key fun q => { q with pkt := d }) key d else s

/-- The packet at QRD has been taken and is past. -/
def pastPacket (s : State) (key : Nat) : State := wakeQueue (s.modQueue key fun q => { q with qrd := q.qrd + 1, pkt := [] }) key

/-- A packet completes: other writes first, then PSIG, then its vector (spec 03 R67, R75). -/
def packetDone (s : State) (key : Nat) (d : List Byte) (blocks : Bool) (writes : List (Nat × CompWord)) : State :=
  let psig := pkt d 8 8
  let c : CompWrite := { id := s.nextId, asid := (s.queue key).asid, part := key / 64, crec := 0, die := (s.queue key).die
                         writes := writes ++ (if psig = 0 then [] else [(psig, .less)])
                         irq := if pkt d 1 1 = 1 then some (pkt d 2 1) else none
                         queue := if blocks then some key else none }
  let s1 := (pastPacket s key).modQueue key fun q => { q with busy := if blocks then .completing else .none }
  compRun compDone { s1 with nextId := s1.nextId + 1 } c

/-! ### The packets -/

/-- LAUNCH_PACKET: the header is read, each word of it as it stood at some moment since the packet was produced, and the launch is taken (spec
02 R44; log 78). -/
def execLaunchPacket (part q : Nat) (s : State) : Host.Outcome State Fault Refusal :=
  .next (takePacket 1 s part q fun s key d =>
    let x := s.queue key
    let s := noteQueue s key (pkt d 0x10 8) 256
    match unitRead s x.die x.asid (pkt d 0x10 8) 256 (some x.floor) with
    | .error e => packetStop s key none e
    | .ok h =>
      (takeLaunch (pastPacket { s with freeCtr := s.freeCtr + 1 } key) part key x.asid x.qrd (hdrOf h) (BitVec.ofNat 64 (pkt d 8 8))
        (if pkt d 1 1 = 1 then some (pkt d 2 1) else none) none).1)

/-- The condition of a WAITSIG packet. -/
def sigCond (c : Nat) (a b : Int) : Bool :=
  match c with
  | 0 => decide (a = b)
  | 1 => decide (a ≠ b)
  | 2 => decide (a < b)
  | 3 => decide (a ≤ b)
  | 4 => decide (a > b)
  | _ => decide (a ≥ b)

/-- Test a WAITSIG packet that was taken at `since`. -/
def testWait (s : State) (key since : Nat) (d : List Byte) : State :=
  let x := s.queue key
  let s := noteQueue s key (pkt d 0x10 8) 8
  match unitRead s x.die x.asid (pkt d 0x10 8) 8 with
  | .error e => packetStop s key (some since) e
  | .ok w =>
    if sigCond (pkt d 0x18 1) (signedOf 64 (leNat w)) (signedOf 64 (pkt d 0x20 8)) then packetDone s key d true []
    else s.modQueue key fun q => { q with busy := .waitsig since }

/-- WAITSIG. -/
def execWaitsig (part q : Nat) (s : State) : Host.Outcome State Fault Refusal :=
  .next (takePacket 2 s part q fun s key d => let s := s.tick; testWait s key s.qtime d)

/-- Reread the word of the WAITSIG packet that was taken and waits (spec 03 R68). -/
def rereadQueue (s : State) (key : Nat) : State :=
  match (s.queue key).busy with
  | .waitsig since => testWait s key since (s.queue key).pkt
  | _ => s

/-- WAITSIG_SATISFIED. -/
def execWaitsigSatisfied (part q : Nat) (s : State) : Host.Outcome State Fault Refusal := .next (rereadQueue s (queueKey part q))

/-- WAITSIG_LIMIT: the limit passes with the condition false. -/
def execWaitsigLimit (part q : Nat) (s : State) : Host.Outcome State Fault Refusal :=
  let key := queueKey part q
  .next <| match (s.queue key).busy with
  | .waitsig since =>
    let limit := pkt (s.queue key).pkt 0x28 8
    let s1 := rereadQueue s key
    if limit != 0 && (s1.queue key).busy == .waitsig since then haltQueue (s1.timeTo (since + limit)) key hWAITEXP else s1
  | _ => s

/-- WAIT_REREAD: a waiting SWAIT or VSETVLW, or a WAITSIG, looks at its word again. -/
def execWaitReread (w : RereadTarget) (s : State) : Host.Outcome State Fault Refusal :=
  .next <| match w with
  | .queue part q => rereadQueue s (queueKey part q)
  | .cell c =>
    match (s.cell c).run with
    | .parked (.signal ..) => s.modCell c fun v => { v with run := .ready }
    | _ => s

/-- SETSIG. -/
def execSetsig (part q : Nat) (s : State) : Host.Outcome State Fault Refusal :=
  .next (takePacket 3 s part q fun s key d =>
    let x := s.queue key
    let s := noteQueue s key (pkt d 0x10 8) 8 .atomic
    match unitSignal s x.die x.asid (pkt d 0x10 8) (pkt d 0x18 1 == 1) (BitVec.ofNat 64 (pkt d 0x20 8)) with
    | .error e => packetStop s key none e
    | .ok s1 => packetDone s1 key d false [])

/-- The object that a handle names in a partition. -/
def heldObject (s : State) (part h : Nat) : Option Obj :=
  match Tab.find s.objects h with
  | some o => if o.part = part && o.ugen.isNone then some o else none
  | none => none

/-- LOAD_PACKET. -/
def execLoadPacket (part q : Nat) (s : State) : Host.Outcome State Fault Refusal :=
  .next (takePacket 4 s part q fun s key d =>
    let x := s.queue key
    let href := pkt d 0x28 4
    let lrec := pkt d 0x20 8
    if href != 0 then
      match heldObject s part href with
      | none => haltQueue s key hBADHANDLE
      | some o => packetDone (s.modObj href fun o => { o with refs := o.refs + 1 }) key d true [(lrec, .bytes (loadRecord href { o with refs := o.refs + 1 }))]
    else
      let s := noteQueue s key (pkt d 0x10 8) (pkt d 0x18 8)
      match unitRead s x.die x.asid (pkt d 0x10 8) (pkt d 0x18 8) with
      | .error e => packetStop s key none e
      | .ok file =>
        match loadObject s part x.asid (pkt d 0x2C 1 == 1) file with
        | (s1, _, some (h, o)) => packetDone s1 key d true [(lrec, .bytes (loadRecord h o))]
        | (s1, stat, none) => packetDone { s1 with freeCtr := s1.freeCtr + 1 } key d true [(lrec, .bytes (failRecord s1 stat))])

/-- Some launch of a queue has not completed (spec 03 R67, R82). -/
def launchesLeft (s : State) (key : Nat) : Bool := s.launches.any fun e => e.2.queue == key

/-- A packet that waits for the earlier launches of its queue: it is taken, and goes on when they have completed (spec 03 R67). -/
def waitLaunches (ty : Nat) (s : State) (part q : Nat) (f : State → Nat → List Byte → State) : State :=
  let key := queueKey part q
  let go (s : State) (key : Nat) (d : List Byte) : State :=
    if launchesLeft s key then s.modQueue key fun q => { q with busy := .waits } else f s key d
  if (s.queue key).busy == .waits then
    if pkt (s.queue key).pkt 0 1 = ty then go s key (s.queue key).pkt else s
  else takePacket ty s part q go

/-- UNLOAD. -/
def execUnload (part q : Nat) (s : State) : Host.Outcome State Fault Refusal :=
  .next (waitLaunches 5 s part q fun s key d =>
    match heldObject s part (pkt d 0x10 4) with
    | none => haltQueue s key hBADHANDLE
    | some _ => packetDone (dropRef s (pkt d 0x10 4)) key d true [])

/-- FENCE_PACKET. -/
def execFencePacket (part q : Nat) (s : State) : Host.Outcome State Fault Refusal :=
  .next (waitLaunches 6 s part q fun s key d => packetDone s key d true [])

end Sys2Proof.Machine
end

