-- ==== Sys2Proof/Machine/Pager.lean ====
section
/-! DEFINITION. The pager and what it does for cells, copies, host accesses and the units: wakes and verdicts, changed entries,
copy-on-write copies and migration (spec 07 R169 to R174; 20 R413). -/

namespace Sys2Proof.Machine

/-! ### Page-table entries (spec 07 R166, R169) -/

/-- Where the entry lies that decides a walk: its address and the log of the bytes it maps. -/
def slotFrom (s : State) (dva : Nat) : Nat → List (Nat × Nat × Nat) → Option (Nat × Nat)
  | _, [] => none
  | table, (lvl, shift, width) :: rest =>
    let at_ := table + 8 * (dva / 2 ^ shift % 2 ^ width)
    let w := s.readNat at_ 8
    if pteV w && !malformed lvl shift w && !pteLeaf w then slotFrom s dva (pteAddr w) rest else some (at_, shift)

/-- The entry that decides the walk of a DVA in an ASID. -/
def walkSlot (s : State) (asid dva : Nat) : Option (Nat × Nat) :=
  match Tab.find s.roots asid with
  | some root => slotFrom s dva root walkLevels
  | none => none

/-- Write an entry, and drop the old one from every TLB of its partition. -/
def setEntry (s : State) (asid dva at_ size : Nat) (w : Word) : State :=
  shootdown (s.writeEntry at_ w) asid (dva / 2 ^ size * 2 ^ size) (2 ^ size)

/-- TLB_SHOOTDOWN (spec 07 R169): the pager or the runtime changes, removes or writes the entry that decides a DVA's walk. -/
def execTlbShootdown (asid dva : Nat) (entry : Word) (s : State) : Host.Outcome State Fault Refusal :=
  .next <| match walkSlot s asid dva with
  | some (at_, size) => setEntry s asid dva at_ size entry
  | none => s

/-! ### Copies of pages (spec 07 R173, R174) -/

/-- The posted accesses to a physical range are performed. -/
def performRange (s : State) (key n : Nat) : State :=
  let mine (p : Post) : Bool := p.home == .hbm && overlap p.pa p.size key n
  let s1 := performAll { s with posted := s.posted.filter fun p => !mine p } (s.posted.filter mine)
  (s.posted.filter mine).foldl (fun s p => wakePerformed s p.cell) s1

/-- A key in a range of `n` bytes that has been copied. -/
def movedKey (src dst n key : Nat) : Nat := if src ≤ key ∧ key < src + n then key - src + dst else key

/-- What has been read of a page follows the copy of it. -/
def sawMoved (src dst n : Nat) (t : Tab Nat) : Tab Nat :=
  t.foldl (fun t e => if src ≤ e.1 ∧ e.1 < src + n then Tab.put t (e.1 - src + dst) e.2 else t)
    (t.filter fun e => !(decide (dst ≤ e.1) && decide (e.1 < dst + n)))

/-- What a cell holds of a page follows the copy of it: what it has read there, and its reservation, where it was made through this page; a
waiter of a signal word of the page looks again (spec 06 R142; 13 R288; 14 R316). -/
def cellMoved (mine : Bool) (page size src dst n : Nat) (c : Cell) : Cell :=
  let c := wakeSignal src n c
  let stale := match c.resv with | some g => overlap g 64 dst n | none => false
  { c with
    saw := sawMoved src dst n c.saw
    resv := if stale then none else if mine && overlap (c.resvDva / 64 * 64) 64 page size then c.resv.map (movedKey src dst n) else c.resv }

/-- Move the bytes of a page of `n` bytes at `page` in an ASID from one physical range to another, which is no write (spec 06 R142): what stands
in a refused line of it reads as a free value (log 32). What was issued to the target before, by gangs that have ended, is behind the copy
(13 R301); what reads may still return, and the releases that stand there, follow it. -/
def copyRange (s : State) (asid page src dst n : Nat) : State :=
  let s := performRange s dst n
  let lines := s.refused.filter fun pa => overlap pa 64 src n
  let s0 := lines.foldl (fun s pa => s.poke pa ((List.range 64).map (Config.refusedByte (s.freeCtr + pa)))) s
  let from_ := s0.mem.filter fun e => decide (src ≤ e.1) && decide (e.1 < src + n)
  let inside (key m : Nat) : Bool := decide (src ≤ key) && decide (key + m ≤ src + n)
  { s with
    mem := from_.foldl (fun (m : List Host.Cell) e => Tab.setD m (e.1 - src + dst) memDefault e.2) (wipe s.mem dst n)
    hist := (s.hist.filter fun o => !overlap o.key o.data.length dst n).flatMap fun o =>
      if inside o.key o.data.length then [{ o with key := movedKey src dst n o.key }, o] else [o]
    rels := (s.rels.filter fun r => !overlap r.key r.size dst n).flatMap fun r =>
      let r := { r with saw := sawMoved src dst n r.saw }
      if inside r.key r.size then [{ r with key := movedKey src dst n r.key }, r] else [r]
    refused := clearRefused s.refused dst n
    cells := s.cells.map fun e => (e.1, cellMoved ((s.launchOf e.1).asid == asid) page n src dst n e.2)
    freeCtr := s.freeCtr + 1 }

/-- The leaf of a page with another page address, W set and COW clear; every other field is kept. -/
def cowLeaf (w page : Nat) : Word := BitVec.ofNat 64 (setField (setField (setField (BitVec.ofNat 64 w) 43 12 (page / 4096)) 3 3 1) 9 9 0).toNat

/-- Wake the writers that wait for the copy of a page: cells and copies of its ASID. -/
def cowWake (s : State) (asid dva : Nat) : State :=
  let s1 := wakeWhere s fun _ w => match w with
    | .cow d a _ _ => d / 65536 * 65536 == dva && a == asid
    | _ => false
  let unrecorded (core : Nat) (c : Copy) : Bool := !(s.faults.any fun f => match f.who with | .copy k id _ => k == core && id == c.id | _ => false)
  { s1 with cores := s1.cores.map fun e => (e.1, { e.2 with
      copies := e.2.copies.map fun c => if c.st = 4 && c.asid == asid && unrecorded e.1 c then { c with st := 1 } else c }) }

/-- COW_COPY_DONE (spec 07 R173): the `i`-th copy in progress finishes. Where the old page holds a refused line, the port's read is reported,
and the gangs of the cells that wait are killed as its readers (18 R389, R393). -/
def execCowCopyDone (i : Nat) (s : State) : Host.Outcome State Fault Refusal :=
  .next <| match s.cows[i]? with
  | none => s
  | some c =>
    let s0 : State := { s with cows := dropAt s.cows i }
    let w := s.readNat c.leafAt 8
    match s.refusedIn (pteAddr w) 65536 with
    | some pa =>
      let writers := s.cells.filter fun e => match e.2.run with
        | .parked (.cow d a _ _) => d / 65536 * 65536 == c.dva && a == c.asid
        | _ => false
      cowWake (writers.foldl (fun s e => killFor s e.2.gang 0x81 (dataErr 8 0 pa) e.1)
        (refusalReport s0 ((s.brood c.brood).map Brood.part |>.getD 0) pa)) c.asid c.dva
    | none => cowWake (shootdown ((copyRange s0 c.asid c.dva (pteAddr w) c.page 65536).write (.port c.hive) none c.leafAt (leBytes (cowLeaf w c.page).toNat 8))
      c.asid c.dva 65536) c.asid c.dva

/-- The physical pages of the objects of an ASID follow a range of `n` bytes that has moved (spec 20 R412). -/
def movePages (asid src dst n : Nat) (o : Obj) : Obj :=
  if o.asid = asid then { o with pages := o.pages.map fun p => movedKey src dst n (p * 65536) / 65536 } else o

/-- PAGE_MIGRATION (spec 07 R174): the entry is made not present and shot down, the page is copied, and the new entry is written; no
access sees a mixture, and none is lost. -/
def execPageMigration (asid dva pa : Nat) (s : State) : Host.Outcome State Fault Refusal :=
  .next <| match walk s asid dva with
  | .leaf w at_ size =>
    let n := 2 ^ size
    let page := dva / n * n
    let old := pteAddr w
    if pteTgt w != 0 || pa % n != 0 || decide (2 ^ 39 < pa + n) || overlap old n pa n || s.cows.any (fun c => c.asid == asid && overlap c.dva 65536 page n) then s
    else
      let s1 := copyRange (performRange s old n) asid page old pa n
      setEntry { s1 with objects := Tab.mapV s1.objects (movePages asid old pa n) } asid page at_ size (setField (BitVec.ofNat 64 w) 43 12 (pa / 4096))
  | _ => s

/-! ### Heat counters (spec 07 R174): only the pager reads and clears them -/

/-- The pager reads the counter of a region for a requesting die. -/
def heatRead (region die : Nat) (s : State) : State := s.emit (.heat region die (Tab.getD s.heat (region * 4 + die) 0))

/-- The pager clears it. -/
def heatClear (region die : Nat) (s : State) : State := { s with heat := Tab.del s.heat (region * 4 + die) }

/-! ### Wakes (spec 07 R171; 10 R241; 03 R57, R68, R75) -/

/-- The pager's answer to a cell's fault: it executes again, traps, or its gang is killed; a wake of another sequence number is
discarded. A record of a resumed MOPA's signal word is answered while the cell waits for that instruction (11 R270; log 68). -/
def wakeCell (s : State) (cid seq : Nat) (v : Verdict) : State :=
  match (Tab.find s.cells cid).map Cell.run with
  | some (.parked (.page _ n tval idx)) =>
    if n != seq then s
    else
      let c := s.cell cid
      let s1 := abandonFaults s cid
      match v with
      | .retry => s1.modCell cid fun c => { c with run := .ready }
      | .fatal =>
        takeTrap ((unlatch s1 cid).modCell cid Cell.leaveRecords) cid { cause := cACCESS_FAULT, tval, epc := c.excPc, ilen := c.ilen, async := false, vrec := idx, mrec := false }
      | .gone => killPlain s1 c.gang 0x82 c.pc cid
  | some (.parked .matrix) =>
    let gid := (s.cell cid).gang
    match (s.gang gid).mrec with
    | some r =>
      if !(s.faults.any fun f => f.who == .cell cid seq) then s
      else if v == .retry then abandonFaults s cid
      else recordDenied (abandonFaults s cid) gid cid r
    | none => s
  | _ => s

/-- The EA of a copy's fault: its signal word, or its tensor side, since the other side is never translated (spec 10 R240, R241). -/
def faultEa (s : State) (c : Copy) (f : FaultRec) : Word :=
  let g := s.gang c.gang
  let sig := if c.mc then c.xd1 else c.xd
  if c.act = 1 && f.kind != .copyRead && f.kind != .copyWrite && f.dva == eaDva g sig then sig
  else
    let sel := bits c.td.base 63 61
    BitVec.ofNat 64 (sel * 2 ^ 61 + (f.dva + 2 ^ 64 - (g.segment sel).1.toNat) % 2 ^ 61)

/-- The pager's answer to an engine's fault: the copy goes on at the access that faulted, or fails. -/
def wakeCopy (s : State) (core seq : Nat) (v : Verdict) : State :=
  match s.faults.find? fun f => match f.who with | .copy k _ n => k == core && n == seq | _ => false with
  | none => s
  | some f =>
    let s1 : State := { s with faults := s.faults.erase f }
    match f.who with
    | .copy _ id _ =>
      (match (s1.core core).copies.find? fun c => c.id == id && c.st == 4 with
      | none => s1
      | some c =>
        if v == .retry then setCopy s1 core { c with st := 1 }
        else failCopy s1 core c (.denied (faultEa s1 c f)))
    | _ => s1

/-- The pager's answer to an access of the dispatch or brood unit. -/
def wakeUnit (s : State) (id : Nat) (v : Verdict) : State :=
  let s1 : State := { s with faults := s.faults.filter fun f => f.who != .completion id }
  match s.comps.find? fun c => c.id == id with
  | some c =>
    if v == .retry then compRun compDone s1 c
    else
      match c.writes with
      | w :: rest => compRun compDone (dropWrite s1 c w.1 .denied) { c with writes := rest }
      | [] => s1
  | none =>
    match s1.queues.find? fun e => match e.2.busy with | .fault n _ => n == id | _ => false with
    | some (key, q) =>
      if v == .retry then
        s1.modQueue key fun x => { x with busy := match q.busy with | .fault _ (some t) => .waitsig t | _ => .none }
      else haltQueue s1 key hPKTFAULT
    | none => s1

/-- A DVA lies in a retired range (spec 20 R413). -/
def retiredAt (s : State) (asid dva : Nat) : Bool :=
  s.objects.any fun e => e.2.asid == asid && e.2.ugen.isSome && e.2.ranges.any fun r => decide (r.1 ≤ dva) && decide (dva < r.1 + roundUp r.2 65536)

/-- The record that a wake answers. -/
def wakeRecord (s : State) (w : WakeTarget) : Option FaultRec :=
  s.faults.find? fun f => match w, f.who with
    | .cell c n, .cell c' n' => c == c' && n == n'
    | .copy k n, .copy k' _ n' => k == k' && n == n'
    | .host i, .host i' => i == i'
    | .completion i, .completion i' => i == i'
    | _, _ => false

/-- The verdicts that the pager may give (spec 07 R171, 20 R413): in a retired range GONE to a fetch and FATAL to any other access, elsewhere
RETRY or FATAL. -/
def pagerMay (s : State) (w : WakeTarget) (v : Verdict) : Bool :=
  match wakeRecord s w with
  | some f => if retiredAt s f.asid f.dva then v == (if f.kind == .fetch then .gone else .fatal) else v != .gone
  | none => true

/-- PAGER_WAKE. -/
def execPagerWake (w : WakeTarget) (verdict : Verdict) (s : State) : Host.Outcome State Fault Refusal :=
  .next <| if !pagerMay s w verdict then s else match w with
  | .cell cid seq => wakeCell s cid seq verdict
  | .copy core seq => wakeCopy s core seq verdict
  | .host id => hostWake s id (verdict == .retry)
  | .completion id => wakeUnit s id verdict

end Sys2Proof.Machine
end

