-- ==== Sys2Proof/Machine/Links.lean ====
section
/-! DEFINITION. The links: UCIe flits, replays, retraining, dies that become unreachable, UALink stations, requests without an
answer, and the accesses of fabric peers (spec 01 R25; 07 R176; 14 R327 to R331; 18 R391). -/

namespace Sys2Proof.Machine

/-! ### UCIe modules (spec 14 R327, R328, R330) -/

/-- One more of a counter of `w` bits that saturates. -/
def satInc (w n : Nat) : Nat := min (2 ^ w - 1) (n + 1)

/-- `k` more of one. -/
def satAdd (w n k : Nat) : Nat := min (2 ^ w - 1) (n + k)

/-- The ends that join the same two dies on this end's side. -/
def sameSide (e : Nat) : List Nat :=
  if e < 32 then
    let b := e / 8 * 8
    if e % 8 < 3 then [b, b + 1, b + 2] else if e % 8 < 6 then [b + 3, b + 4, b + 5] else [b + 6, b + 7]
  else [(e - 32) / 2 * 2 + 32, (e - 32) / 2 * 2 + 33]

/-- Ends of the package's modules: four compute dies with eight each, and the hub's eight. -/
def isEnd (e : Nat) : Bool := decide (e < 40)

/-- The transmitter has sent every flit up to `seq`, and keeps what is not acknowledged. -/
def sentUpTo (l : LinkEnd) (seq : Nat) : LinkEnd :=
  { l with txNext := max l.txNext (seq + 1), replay := l.replay ++ range l.txNext (seq + 1 - l.txNext) }

/-- A flit that arrives out of sequence while the other end sends again had been sent before, and is sent again with the others. -/
def sentAgain (l : LinkEnd) (seq : Nat) : LinkEnd := { sentUpTo l seq with flits := satAdd 32 l.flits (seq + 1 - l.txNext) }

/-- FLIT_RECEIVE (spec 14 R327): end `fin` receives flit `seq`; the other end keeps at most 128 flits that are not acknowledged. A negative
acknowledgement answers the first flit of an episode that is discarded, not those that were already on their way when the other end sent
again. -/
def execFlitReceive (fin seq : Nat) (crcGood : Bool) (s : State) : Host.Outcome State Fault Refusal :=
  let me := s.link fin
  let far := farEnd fin
  .next <| if !isEnd fin || me.off || me.retraining || decide (me.rxNext + 128 ≤ seq) then s
  else
    let late := me.again && seq != me.rxNext
    let s1 := s.modLink far fun l => if late then sentAgain l seq else sentUpTo l seq
    if crcGood && seq == me.rxNext then
      ((s1.modLink fin fun l => { l with rxNext := seq + 1, nak := none, naks := 0, again := false }).modLink far fun l =>
        { l with replay := l.replay.filter fun n => decide (seq < n) }).emit (.ack fin seq true)
    else
      let s2 := if crcGood then s1 else s1.modLink fin fun l => { l with crcerr := satInc 32 l.crcerr }
      if me.nak.isNone && !late then
        (s2.modLink fin fun l => { l with nak := some l.rxNext, naks := l.naks + 1, again := false }).emit (.ack fin (me.rxNext - 1) false)
      else s2

/-- Replay: the transmitter resends what is not acknowledged, as one episode (spec 14 R327, R330). -/
def resend (l : LinkEnd) : LinkEnd :=
  if l.replay.isEmpty then l else { l with epis := satInc 32 l.epis, flits := satAdd 32 l.flits l.replay.length }

/-- UCIE_REPLAY (spec 14 R327): a negative acknowledgement reaches end `fin` and names the last flit accepted; every later one is
sent again, and the receiver's episode is over. -/
def execUcieReplay (fin last : Nat) (s : State) : Host.Outcome State Fault Refusal :=
  let far := farEnd fin
  .next <| if isEnd fin && !(s.link fin).off && (s.link far).nak == some (last + 1) then
    ((s.modLink fin fun l => resend { l with replay := l.replay.filter fun n => decide (last < n) }).modLink far fun l => { l with nak := none, again := true })
  else s

/-- One end retrains. -/
def retrainEnd (l : LinkEnd) : LinkEnd := { l with retraining := true, trains := satInc 16 l.trains }

/-- LINK_RETRAIN (spec 14 R328): eight negative acknowledgements for one number, or a loss of lock; both ends retrain. -/
def execLinkRetrain (fin : Nat) (why : RetrainCause) (s : State) : Host.Outcome State Fault Refusal :=
  let far := farEnd fin
  let due := match why with
    | .nak seq => decide (8 ≤ (s.link far).naks) && (s.link far).rxNext == seq
    | .lock => true
  .next <| if isEnd fin && due && !(s.link fin).off && !(s.link fin).retraining then (s.modLink fin retrainEnd).modLink far retrainEnd else s

/-- One end after a retraining: what the other end has accepted is known, and only later flits are sent again. -/
def trainedEnd (half : Bool) (seen : Nat) (l : LinkEnd) : LinkEnd :=
  resend { l with retraining := false, deg := half, degs := if half then satInc 16 l.degs else l.degs, nak := none, naks := 0, again := false
                  replay := l.replay.filter fun n => decide (seen ≤ n) }

/-- The module that takes over at a disabled end. -/
def heirEnd (s : State) (e : Nat) : Option Nat := (sameSide e).find? fun x => x != e && !(s.link x).off

/-- A module's end is disabled: its flits move, in order, to another module of the same pair, before any new flit. -/
def disableEnd (s : State) (e : Nat) : State :=
  let l := s.link e
  let next := heirEnd s e
  let s1 := s.modLink e fun l => { l with retraining := false, off := true, replay := [], nak := none, naks := 0, moved := next }
  match next with
  | some t => s1.modLink t fun r => { r with replay := r.replay ++ range r.txNext l.replay.length, txNext := r.txNext + l.replay.length }
  | none => s1

/-- RETRAIN_DONE (spec 14 R328): 64 lanes, 32 lanes, or the module is disabled; the latter two are reported (18 R393). -/
def execRetrainDone (fin : Nat) (lanes : LaneOutcome) (s : State) : Host.Outcome State Fault Refusal :=
  let far := farEnd fin
  .next <| if !isEnd fin || !(s.link fin).retraining then s
  else
    let up (half : Bool) : State := (s.modLink fin (trainedEnd half (s.link far).rxNext)).modLink far (trainedEnd half (s.link fin).rxNext)
    let report (s : State) : State := postReport s 5 fin 0 noCell 0 0 0 0 0
    match lanes with
    | .full => up false
    | .half => report (up true)
    | .off => report (disableEnd (disableEnd s fin) far)

/-! ### A die or the hub out of reach (spec 14 R328, 18 R391, 01 R27) -/

/-- What copies that move have outstanding: gang, cell and DVA of the tensor pieces, and of the tile side, that satisfy `p`. -/
def copiesTo (s : State) (p : Nat → Look → Bool) : List (Nat × Nat × Word) :=
  s.cores.flatMap fun e => (e.2.copies.filter (Copy.moving s)).flatMap fun c =>
    ((tensorPieces s c).filter fun t => p (dieOf e.1) t.2.2).map (fun t => (c.gang, c.cell, BitVec.ofNat 64 t.1))
    ++ ((copyTargets s c).filter fun w => p (dieOf e.1) (.remote (apKey (if c.mc then w.toNat else eaDva (s.gang c.gang) w)))).map fun w =>
      (c.gang, c.cell, if c.mc then w else BitVec.ofNat 64 (eaDva (s.gang c.gang) w))

/-- The accesses that gangs have outstanding to a die, or to the host through the hub: gang, cell and DVA. -/
def outTo (s : State) (die : Option Nat) : List (Nat × Nat × Word) :=
  match die with
  | some d =>
    ((s.posted.filter fun p => p.home == .hbm && dieOfKey p.pa == d && dieOfCell p.cell != d).map fun p => (p.gang, p.cell, BitVec.ofNat 64 p.dva))
    ++ copiesTo s (fun die t => die != d && match t with | .key k | .remote k => dieOfKey k == d | _ => false)
    ++ ((s.remotes.filter fun e => dieOfKey e.2.key == d && dieOfCell e.2.cell != d).map fun e =>
      (e.2.gang, e.2.cell, BitVec.ofNat 64 (eaDva (s.gang e.2.gang) e.2.ea)))
    ++ (s.cells.filterMap fun e => match e.2.run with
      | .parked (.icache line) => if (fillCut { s with lost := [d] } e.1 line).isSome then some (e.2.gang, e.1, BitVec.ofNat 64 line) else none
      | .parked (.wgsend c) => if dieOfCell c == d && dieOfCell e.1 != d then some (e.2.gang, e.1, BitVec.ofNat 64 c) else none
      | _ => none)
    ++ ((s.feq.filter fun e => dieOfKey e.key == d && dieOfCell e.cell != d).map fun e =>
      (e.gang, e.cell, BitVec.ofNat 64 (if isLs e.key then lsDva (lsCore e.key) (lsOff e.key) else hspDva ((e.key - 2 ^ 41) / 2 ^ 23) ((e.key - 2 ^ 41) % 2 ^ 23))))
  | none =>
    (s.cells.filterMap fun e => match e.2.run with
      | .parked (.fabric .host _ ea ..) => some (e.2.gang, e.1, BitVec.ofNat 64 (eaDva (s.gang e.2.gang) ea))
      | _ => none)
    ++ ((s.posted.filter fun p => p.home == .host).map fun p => (p.gang, p.cell, BitVec.ofNat 64 p.dva))
    ++ copiesTo s (fun _ t => match t with | .host _ => true | _ => false)

/-- DIE_UNREACHABLE: a compute die, or the hub. -/
def execDieUnreachable (die : Option Nat) (s : State) : Host.Outcome State Fault Refusal :=
  let d := die.getD 4
  .next <| if 4 < d || s.lost.contains d then s
  else
    let hit := outTo s die
    let s1 := hit.foldl (fun s e => killPlain s e.1 0x84 e.2.2 e.2.1) { s with lost := insertNat s.lost d }
    quiesceOf s1 ((hit.map fun e => partOfGang s e.1).eraseDups)

/-! ### UALink and PCIe (spec 07 R176; 14 R329, R331; 03 R66) -/

/-- Host memory, or a peer. -/
def Home.isHost : Home → Bool
  | .host => true
  | _ => false

def Home.isPeer : Home → Bool
  | .peer _ => true
  | _ => false

/-- A cell that waits for host or peer memory, as `p` says, at a DVA. -/
def fabricWait (s : State) (cellid : Nat) (dva : Word) (p : Home → Bool) : Bool :=
  match (Tab.find s.cells cellid).map Cell.run with
  | some (.parked (.fabric home _ ea ..)) => p home && decide (BitVec.ofNat 64 (eaDva (s.gangOf cellid) ea) = dva)
  | _ => false

/-- A write or update that has been sent to a peer for a cell, or for a unit, at a DVA and is not acknowledged. -/
def peerPost (s : State) (cellid : Nat) (dva : Word) : Option Post :=
  s.posted.find? fun p => p.cell == cellid && p.home.isPeer && BitVec.ofNat 64 p.dva == dva

/-- Whether a write or update without an acknowledgement was performed is not known (spec 14 R329). -/
def forgetPost (s : State) (p : Post) : State :=
  let s1 : State := { s with posted := s.posted.erase p, freeCtr := s.freeCtr + 1 }
  if Config.killedStorePerformed s.freeCtr p.id then performPost s1 p else s1

/-- A request to host or peer memory, as `p` says, ends without an answer: its gang is killed with K_FABRIC; an update by the dispatch or
brood unit is named by a report of KIND 5, with the station as its code (log 34). Nothing where no such request is under way. -/
def noAnswer (s : State) (p : Home → Bool) : FabricReq → Option State
  | .cell cellid dva _ =>
    if fabricWait s cellid dva p then some (killPlain s (s.cell cellid).gang 0x84 dva cellid)
    else match peerPost s cellid dva with
      | some w => if cellid != noCell && p w.home then some (killPlain (forgetPost s w) w.gang 0x84 dva cellid) else none
      | none => none
  | .copy core i dva station =>
    match (s.core core).copies[i]? with
    | some c =>
      (match (if c.moving s then fabricAt s c dva else none) with
      | some h => if p h then some (failCopy s core c (.fabric dva station)) else none
      | none => none)
    | none => none
  | .unit _ dva station =>
    match peerPost s noCell dva with
    | some w => if p w.home then some (postReport (forgetPost s w) 5 station 0 noCell dva 0 0 0 0) else none
    | none => none

/-- The station of a request. -/
def stationOf : FabricReq → Nat
  | .cell _ _ n | .copy _ _ _ n | .unit _ _ n => n

/-- When a request was sent, where the model knows. -/
def sentAt (s : State) : FabricReq → Nat
  | .cell cellid dva _ => if fabricWait s cellid dva Home.isPeer then (s.cell cellid).asked else ((peerPost s cellid dva).map Post.time).getD s.qtime
  | .copy .. => s.qtime
  | .unit _ dva _ => ((peerPost s noCell dva).map Post.time).getD s.qtime

/-- UALINK_TIMEOUT: no response within UACTO microseconds; counted at the station (spec 14 R331). -/
def execUalinkTimeout (r : FabricReq) (s : State) : Host.Outcome State Fault Refusal :=
  .next <| if stationOf r < 32 then
    let late := (s.timeTo (sentAt s r + 1000 * (s.mreg 0x5A00).toNat)).modStation (stationOf r) fun x => { x with tmo := satInc 32 x.tmo }
    (noAnswer late Home.isPeer r).getD s
  else s

/-- PCIE_COMPLETION_TIMEOUT: a cell's or a copy's request to host memory; the units hold no signal word there (spec 03 R66). -/
def execPcieCompletionTimeout (r : FabricReq) (s : State) : Host.Outcome State Fault Refusal :=
  .next ((noAnswer s Home.isHost r).getD s)

/-- UALINK_STATION_LOSS: its traffic moves to the peer's other stations (spec 14 R329). -/
def execUalinkStationLoss (station : Nat) (s : State) : Host.Outcome State Fault Refusal :=
  .next (if station < 32 then s.modStation station fun x => { x with up := false } else s)

/-- UALINK_REPLAY: a link-level replay, with no effect above the link (spec 14 R331). -/
def execUalinkReplay (station : Nat) (s : State) : Host.Outcome State Fault Refusal :=
  .next (if station < 32 then s.modStation station fun x => { x with rpl := satInc 32 x.rpl } else s)

/-! ### Fabric peers (spec 00 R2, 01 R25, 18 R389) -/

/-- The atomic operations by number, in the order of the Q64 atomics (spec 14 R312). -/
def peerAmo (op : Nat) : Option AmoOp :=
  [AmoOp.add, .and, .or, .xor, .min, .max, .minu, .maxu, .swap, .cas][op]?

/-- A peer's request to a physical range of HBM: an error response where it leaves HBM, or meets a refused line, which is reported (spec 18
R389, R393; log 63). -/
def peerAt (s : State) (pa n : Nat) (reads : Bool) (f : State → State × List Byte) : State :=
  if !s.ready || decide (2 ^ 39 < pa + n) then s.emit (.peerReply false [])
  else match (if reads then s.refusedIn pa n else none) with
    | some line => (refusalReport s 0 line).emit (.peerReply false [])
    | none => let (s1, d) := f s; s1.emit (.peerReply true d)

/-- FABRIC_PEER_ACCESS: a load, store, atomic or tile copy of a peer. -/
def execFabricPeerAccess (op : PeerOp) (s : State) : Host.Outcome State Fault Refusal :=
  .next <| match op with
  | .load pa n | .copyRead pa n => peerAt s pa n true fun s => (s, s.read pa n)
  | .store pa d | .copyWrite pa d => peerAt s pa d.length false fun s => (s.writeLong .peer none pa d, [])
  | .atomic op pa n operand expected =>
    match peerAmo op with
    | some o =>
      if (n = 4 || n = 8) && pa % n = 0 then
        peerAt s pa n true fun s => let (s1, old) := amoAt s .peer none pa o n operand expected; (s1, leBytes old n)
      else s.emit (.peerReply false [])
    | none => s.emit (.peerReply false [])

end Sys2Proof.Machine
end

