-- ==== Sys2Proof/Machine/Errors.lean ====
section
/-! DEFINITION. Errors of the hardware: lane failures and core retirement, corrected and uncorrectable errors, the patrol (spec 09
R228; 18 R388 to R393; 01 R27). -/

namespace Sys2Proof.Machine

/-- Count events of a class of a die (spec 18 R392). -/
def countErr (s : State) (die cls k : Nat) : State :=
  let off := 0x800 + 64 * die + 8 * cls
  s.setMreg off (BitVec.ofNat 64 (satAdd 32 (s.mreg off).toNat k))

/-! ### Vector lanes (spec 09 R228, 18 R390) -/

/-- LANE_FAILURE: the first failed lane group of a core; the spare serves, the instructions in flight run again with the same
results, and a report of KIND 3 follows. -/
def execLaneFailure (core i group : Nat) (s : State) : Host.Outcome State Fault Refusal :=
  let k := s.core core
  .next <| match k.vec[i]? with
  | some v =>
    if k.laneFails.isEmpty && decide (group < 9) then
      let s1 := countErr (s.modCore core fun k => { k with laneFails := [group] }) (dieOf core) 7 1
      postReport s1 3 0 (partOfGang s v.gang) v.cell 0 0 0 0 0
    else s
  | none => s

/-- Force the cells of a gang to land because their core is retired: the flights before the failure are done, the later ones have not
begun. A cell whose access is at another port, or that waits for its reply, lands when that has arrived. -/
def retireLand (s : State) (gid : Nat) (done : List (Nat × Nat)) : State :=
  (s.gang gid).cells.foldl (fun s c =>
    let v := s.cell c
    let waits := v.reply.isSome || (match v.run with | .parked (.remote _) | .parked (.fabric ..) => true | _ => false)
    if waits then s.modCell c fun v => { v with turns := 4096 }
    else if v.run == .done || v.run == .landed then s
    else forceCell s c ((done.filter fun e => e.1 == c).map (·.2)) 0) (orderPreempt s gid)

/-- Pre-empt the gangs of hive groups that their hives can no longer hold (spec 04 R104). -/
def orderHomeless (s : State) : State :=
  let gs := (s.groups.map (·.1)).filter (homeless s)
  orderAll s fun _ g => gs.contains g.group

/-- CORE_RETIRE: the second failed lane group of a core. The gang that showed it is killed; the core's others land at once, and what goes with
their pre-emption lands too (spec 04 R104; 16 R362; 18 R390). -/
def execCoreRetire (core i group : Nat) (s : State) : Host.Outcome State Fault Refusal :=
  let k := s.core core
  .next <| match k.vec[i]? with
  | some v =>
    if k.laneFails.isEmpty || k.laneFails.contains group || decide (9 ≤ group) then s
    else
      let done := k.vec.zipIdx.map fun e => (e.1.cell, if e.2 < i then e.1.count else 0)
      let s1 := s.modCore core fun k => { k with laneFails := k.laneFails ++ [group] }
      let off := 0x600 + 8 * (core / 64)
      let s2 := s1.setMreg off (s1.mreg off &&& ~~~BitVec.ofNat 64 (2 ^ (core % 64)))
      let s3 := killPlain s2 v.gang 0x81 (dataErr 11 group 0) v.cell
      let gs := (s3.gangs.filter fun e => e.2.core == core && e.2.resident).map (·.1)
      let s4 := orderHomeless (evict (gs.foldl (fun s g => retireLand s g done) s3) core)
      quiesceFor (postReport s4 4 0 (partOfGang s v.gang) v.cell 0 0 0 0 0) (partOfGang s v.gang)
  | none => s

/-! ### Storage (spec 18 R388, R389, R392) -/

/-- Leave out a free choice of a list. -/
def dropOne {α : Type} (pick : Nat) (l : List α) : List α := dropAt l (Config.victim pick % max 1 l.length)

/-- A parity error drops a line of an instruction cache or an entry of a TLB of a die, which is filled again when it is next used; which one is
a free choice (spec 18 R388). -/
def parityDrop (s : State) (die : Nat) : State :=
  let n := Config.victim s.freeCtr
  let pick := s.freeCtr + 1
  let hive := die * 16 + n / 4 % 16
  let s1 : State := { s with freeCtr := s.freeCtr + 2 }
  match n % 4 with
  | 0 => s1.modCore (die * 256 + n / 4 % 256) fun k => { k with icache := dropOne pick k.icache }
  | 1 => s1.modHive hive fun h => { h with icache := dropOne pick h.icache }
  | 2 => s1.modHive hive fun h => { h with tlb := dropOne pick h.tlb }
  | _ => s1.modDie die fun d => { d with lltlb := dropOne pick d.lltlb }

/-- CORRECTABLE_ERROR: corrected in place and counted, or for a cache line or TLB entry dropped; lane repairs are counted by LANE_FAILURE. -/
def execCorrectableError (die cls : Nat) (s : State) : Host.Outcome State Fault Refusal :=
  .next (if die < 4 ∧ cls < 7 then (let s1 := countErr s die cls 1; if cls = 5 then parityDrop s1 die else s1) else s)

/-- Kill the gang that lost state to an error, and quiesce its partition (spec 01 R27). -/
def errKill (s : State) (gid cell : Nat) (val : Word) : State :=
  match (s.gang gid).st with
  | .retired | .killed => s
  | _ => killFor s gid 0x81 val cell

/-- The first cell of a gang, where it is resident. -/
def firstCell (s : State) (gid : Nat) : Nat := ((s.gang gid).cells.head?).getD noCell

/-- UNCORRECTABLE_ERROR (spec 18 R379, R388). -/
def execUncorrectableError (e : HwError) (s : State) : Host.Outcome State Fault Refusal :=
  .next <| match e with
  | .cellState cellid struct index =>
    if [1, 2, 3, 4, 9, 10].contains struct && (Tab.find s.cells cellid).isSome then
      errKill s (s.cell cellid).gang cellid (dataErr struct (cellid % 8) index)
    else s
  | .ls core off =>
    match lsOwner s core off with
    | some g => errKill s g (firstCell s g) (dataErr 5 (core % 256) (off / 8 * 8))
    | none => s
  | .hsp hive off reader =>
    if (Tab.find s.cells reader).isSome && decide (hive < 64) then errKill s (s.cell reader).gang reader (dataErr 6 0 (off / 8 * 8)) else s
  | .tile core t row col =>
    match (s.core core).occupant with
    | some g => if t < 4 ∧ row < 64 ∧ col < 64 then errKill s g (firstCell s g) (dataErr 7 t (row * 64 + col)) else s
    | none => s
  | .hbm line => if line < 2 ^ 39 then { s with refused := insertNat s.refused (line / 64 * 64) } else s
  | .hbmRead line cellid =>
    if line < 2 ^ 39 ∧ (Tab.find s.cells cellid).isSome then
      errKill { s with refused := insertNat s.refused (line / 64 * 64) } (s.cell cellid).gang cellid (dataErr 8 0 (line / 64 * 64))
    else s
  | .context gang index =>
    if (s.gang gang).st == .saved then blockRefused s gang index else s
  | .dieTable die index gangs =>
    if die < 4 then
      let parts := (gangs.map (partOfGang s)).eraseDups
      let s1 := postReport s 7 13 (parts.head?.getD 0) noCell (dataErr 13 0 index) 0 0 0 0
      quiesceOf (gangs.foldl (fun s g => errKill s g (firstCell s g) (dataErr 13 0 index)) s1) parts
    else s

/-- PATROL_SCRUB (spec 18 R389): the lines with corrected errors are rewritten with what they hold, and counted. -/
def execPatrolScrub (die lines : Nat) (s : State) : Host.Outcome State Fault Refusal :=
  .next (if die < 4 then countErr s die 4 lines else s)

end Sys2Proof.Machine
end

