-- ==== Sys2Proof/Machine/Place.lean ====
section
/-! DEFINITION. Placement: capacity, reservations, pending lists, shares, priority pre-emption and robbing (spec 04 R87 to R97, R101 to
R104). -/

namespace Sys2Proof.Machine

/-! ### Pending items (spec 04 R92, R93) -/

/-- What a placement places: a pre-empted gang, a hive group, or a COR launch as a whole. -/
inductive Item where
  | gang (g : Nat)
  | group (g : Nat)
  | cor (l : Nat)
deriving DecidableEq, Repr

/-- An item's number. -/
def Item.num : Item → Nat
  | .gang g => g
  | .group g => g
  | .cor l => l

/-- An item's launch. -/
def itemLaunch (s : State) : Item → Nat
  | .gang g => (s.gang g).launch
  | .group g => ((Tab.find s.groups g).map (·.launch)).getD 0
  | .cor l => l

/-- The hive groups of a launch that wait. -/
def waitingGroups (s : State) (lid : Nat) : List (Nat × Group) := s.groups.filter fun e => e.2.launch == lid && e.2.st == GrpState.waiting

/-- The hive of a hive group. -/
def groupHive (s : State) (g : Nat) : Nat := ((Tab.find s.groups g).map (·.hive)).getD 0

/-- The hives that an item needs. -/
def itemHives (s : State) : Item → List Nat
  | .gang g => [groupHive s (s.gang g).group]
  | .group g => [groupHive s g]
  | .cor l => (waitingGroups s l).map fun e => e.2.hive

/-- The place of an item in its pending list: priority, then pre-empted gangs, then the order in which launches were taken, then
hive-group order. -/
def itemKey (s : State) (i : Item) : List Nat :=
  let l := itemLaunch s i
  let prio := (s.launch l).hdr.prio
  match i with
  | .gang g => [prio, 0, l, ((Tab.find s.groups (s.gang g).group).map (·.num)).getD 0, (s.gang g).idx]
  | .group g => [prio, 1, l, ((Tab.find s.groups g).map (·.num)).getD 0, 0]
  | .cor _ => [prio, 1, l, 0, 0]

/-- Lexicographic order. -/
def lexLt : List Nat → List Nat → Bool
  | a :: s, b :: t => decide (a < b) || (a == b && lexLt s t)
  | [], _ :: _ => true
  | _, [] => false

/-- Insert an item where its key puts it. -/
def insertItem (s : State) (i : Item) : List Item → List Item
  | [] => [i]
  | j :: t => if lexLt (itemKey s i) (itemKey s j) then i :: j :: t else j :: insertItem s i t

/-- The pending items of partitions whose dispatch goes on, in pending-list order. -/
def pending (s : State) : List Item :=
  let gangs := (s.gangs.filter fun e => e.2.st == .saved && !homeless s e.2.group).map fun e => Item.gang e.1
  let groups := (s.groups.filter fun e => e.2.st == GrpState.waiting && !(s.launch e.2.launch).hdr.cor).map fun e => Item.group e.1
  let cors := (s.launches.filter fun e => e.2.hdr.cor && !(waitingGroups s e.1).isEmpty).map fun e => Item.cor e.1
  let ok (i : Item) : Bool := !s.quiet (s.launch (itemLaunch s i)).part
  ((gangs ++ groups ++ cors).filter ok).foldl (fun l i => insertItem s i l) []

/-! ### Capacity (spec 04 R87, R91, R95) -/

/-- Free capacity of a core: slots and LS units, rising, and accumulator units. -/
structure Room where
  slots : List Nat
  units : List Nat
  tiles : Nat
deriving DecidableEq, Repr

/-- A reservation stands against an item: it was freed for another pending item, or else it belongs to a COR launch that was taken before the
item's and has no lower a priority (spec 04 R91, R95). -/
def withheld (s : State) (pend : List Item) (i : Item) (r : Rsv) : Bool :=
  let waits (e : Nat × Bool) : Option Item := pend.find? fun j => j.num == e.1
  match r.items.find? fun e => !e.2 && (waits e).isSome with
  | some e => e.1 != i.num
  | none =>
    !(r.items.any fun e => e.1 == i.num) && r.items.any fun e =>
      match waits e with
      | none => false
      | some j =>
        let li := itemLaunch s i
        let lj := itemLaunch s j
        decide (lj < li) && decide ((s.launch lj).hdr.prio ≤ (s.launch li).hdr.prio)

/-- What a core has free for an item, with the gangs of `gone` counted as gone: what no gang holds and no reservation withholds. -/
def roomOf (s : State) (pend : List Item) (i : Item) (gone : List Nat) (core : Nat) : Room :=
  let here := s.gangs.filter fun e => e.2.core == core && e.2.resident && !gone.contains e.1
  let rs := (s.core core).rsv.filter (withheld s pend i)
  let usedSlot (n : Nat) : Bool := here.any (fun e => e.2.cells.contains (core * 8 + n)) || rs.any fun r => r.slots.contains n
  let usedUnit (n : Nat) : Bool :=
    here.any (fun e => decide (e.2.lsBase ≤ n) && decide (n < e.2.lsBase + e.2.units)) || rs.any fun r => r.units.contains n
  { slots := (List.range 8).filter fun n => !usedSlot n
    units := (List.range 68).filter fun n => !usedUnit n
    tiles := 4 - here.foldl (fun a e => a + e.2.tileCount) 0 - rs.foldl (fun a r => a + r.tiles) 0 }

/-- Take a gang's needs from a core's room: its slots and its LS unit (spec 04 R87). -/
def takeRoom (r : Room) (c l a : Nat) : Option (List Nat × Nat × Room) :=
  if r.slots.length < c || r.tiles < a then none
  else
    match (List.range 69).find? fun u => decide (u + l ≤ 68) && (range u l).all fun x => r.units.contains x with
    | none => none
    | some u => some (r.slots.take c, u, { slots := r.slots.drop c, units := r.units.filter fun x => !(decide (u ≤ x) && decide (x < u + l)), tiles := r.tiles - a })

/-- A gang put on a core. -/
structure Spot where
  core : Nat
  slots : List Nat
  unit : Nat
deriving DecidableEq, Repr

/-- Put a gang on the first core of a list on which it fits, with the rooms as they stand. -/
def fitOne (rooms : Tab Room) (c l a : Nat) : List Nat → Option (Spot × Tab Room)
  | [] => none
  | k :: rest =>
    match (Tab.find rooms k).bind fun r => takeRoom r c l a with
    | some (slots, unit, r) => some ({ core := k, slots, unit }, Tab.put rooms k r)
    | none => fitOne rooms c l a rest

/-- Put gangs one after the other. -/
def fitAll : Tab Room → List (List Nat × Hdr) → Option (List Spot)
  | _, [] => some []
  | rooms, (cores, h) :: rest =>
    match fitOne rooms h.cells h.lsu (popcount h.accm 4) cores with
    | none => none
    | some (sp, rooms) => (fitAll rooms rest).map fun l => sp :: l

/-- The cores of a hive on which a partition's work may be placed now. -/
def placeCores (s : State) (part hive : Nat) : List Nat :=
  if s.partOfHive hive == some part && !(s.hive hive).moving then (range (hive * 16) 16).filter s.live else []

/-- The gangs that an item needs to place, in order: the cores to try, and the header. -/
def itemNeeds (s : State) : Item → List (List Nat × Hdr)
  | .gang g =>
    let r := s.gang g
    let cores := placeCores s (s.launch r.launch).part (groupHive s r.group)
    [((if cores.contains r.core then r.core :: cores else cores), r.hdr)]
  | .group g =>
    let l := s.launch (itemLaunch s (.group g))
    List.replicate (widProduct l.hdr.fmt0.toNat l.hdr.fmt1.toNat 2) (placeCores s l.part (groupHive s g), l.hdr)
  | .cor lid =>
    let l := s.launch lid
    (waitingGroups s lid).flatMap fun e => List.replicate (widProduct l.hdr.fmt0.toNat l.hdr.fmt1.toNat 2) (placeCores s l.part e.2.hive, l.hdr)

/-- Whether and where gangs fit, with some gangs counted as gone. -/
def fitNeeds (s : State) (pend : List Item) (i : Item) (gone : List Nat) (needs : List (List Nat × Hdr)) : Option (List Spot) :=
  let rooms : Tab Room := (needs.flatMap (·.1)).eraseDups.foldl (fun t k => Tab.put t k (roomOf s pend i gone k)) []
  fitAll rooms needs

/-- Where an item's gangs go. -/
def planItem (s : State) (pend : List Item) (i : Item) (gone : List Nat) : Option (List Spot) := fitNeeds s pend i gone (itemNeeds s i)

/-! ### Victims (spec 04 R95, R102) -/

/-- Gangs on a hive that already make way, and not for another item. -/
def leaving (s : State) (i : Item) : List Nat :=
  (s.gangs.filter fun e => e.2.st == .landing && (itemHives s i).contains (hiveOf e.2.core) && (e.2.victim == none || e.2.victim == some i.num)).map (·.1)

/-- Resident gangs that an item may pre-empt, in the order of R95. -/
def victimKey (s : State) (g : Gang) : List Nat :=
  let l := s.launch g.launch
  [3 - l.hdr.prio, b2n (l.sib.isSome || l.hdr.cor)]

def insertVictim (s : State) (e : Nat × Gang) : List (Nat × Gang) → List (Nat × Gang)
  | [] => [e]
  | x :: t =>
    let ke := victimKey s e.2
    let kx := victimKey s x.2
    if lexLt ke kx || (ke == kx && decide (x.2.placed < e.2.placed)) then e :: x :: t else x :: insertVictim s e t

def victimsFor (s : State) (i : Item) : List (Nat × Gang) :=
  let p := (s.launch (itemLaunch s i)).hdr.prio
  (s.gangs.filter fun e => e.2.active && (itemHives s i).contains (hiveOf e.2.core) && decide (p < (s.launch e.2.launch).hdr.prio)).foldl
    (fun l e => insertVictim s e l) []

/-- Choose victims one at a time until the item fits: the gangs to order, with those that go with them counted as gone. -/
def chooseVictims (s : State) (pend : List Item) (i : Item) : List (Nat × Gang) → List Nat → List Nat → Option (List Nat)
  | [], _, _ => none
  | (g, _) :: rest, gone, chosen =>
    if gone.contains g then chooseVictims s pend i rest gone chosen
    else
      let gone' := gone ++ preemptSet s g
      if (planItem s pend i gone').isSome then some (chosen ++ [g]) else chooseVictims s pend i rest gone' (chosen ++ [g])

/-- What can be done for a candidate: place it, pre-empt for it, or wait until gangs that already make way have landed. -/
inductive Cand where
  | fits (l : List Spot)
  | preempt (gs : List Nat)
  | waits

/-- A pending item is a candidate: it fits, or would fit once a pre-emption has landed (spec 04 R93). -/
def candidate (s : State) (pend : List Item) (i : Item) : Option Cand :=
  match planItem s pend i [] with
  | some l => some (.fits l)
  | none =>
    if (planItem s pend i (leaving s i)).isSome then some .waits
    else (chooseVictims s pend i (victimsFor s i) (leaving s i) []).map .preempt

/-- Something can be done for the candidate now. -/
def Cand.now : Cand → Bool
  | .waits => false
  | _ => true

/-! ### Committing a placement -/

/-- The WID bits of a sibling's field SIBF (spec 02 R55). -/
def sibBits (s : State) (l : Launch) : Nat :=
  match l.sib with
  | some (h, i) => (match s.brood h with | some b => i * 2 ^ widPos l.hdr.fmt0.toNat b.sibf | none => 0)
  | none => 0

/-- A brood whose sibling is placed while it is PREEMPTED runs again (spec 16 R360). -/
def broodRuns (s : State) (lid : Nat) : State :=
  match (s.launch lid).sib with
  | some (h, _) => s.modBrood h fun b => if b.st == .preempted then { b with st := .running, clock := some s.qtime } else b
  | none => s

/-- Tags of a freshly allocated run of LS units: every word full, rotation tag 0 (spec 02 R51, 10 R232). The bytes stay (log 31). -/
def freshTags (s : State) (core unit n : Nat) : State :=
  let base := lsKey core (unit * 4096)
  { s with empties := s.empties.filter fun k => !(decide (base ≤ k) && decide (k < base + n * 4096))
           rot := s.rot.filter fun e => !(decide (core * 68 + unit ≤ e.1) && decide (e.1 < core * 68 + unit + n)) }

/-- Start one gang of a hive group (spec 02 R48, R51; 04 R90). -/
def startGang (s : State) (grp : Nat) (r : Group) (idx : Nat) (sp : Spot) : State :=
  let l := s.launch r.launch
  let h := l.hdr
  let m := max 1 (widProduct h.fmt0.toNat h.fmt1.toNat 3)
  let gid := s.nextId
  let cells := sp.slots.map fun x => sp.core * 8 + x
  let g : Gang := { launch := r.launch, group := grp, idx, st := .running, core := sp.core, cells, lsBase := sp.unit, hdr := h, placed := gid }
  let s1 := freshTags s sp.core sp.unit h.lsu
  { s1 with
    nextId := gid + 1
    gangs := Tab.put s1.gangs gid g
    cells := cells.zipIdx.foldl (fun t e =>
      let c := cellAt gid e.2 h (widOf h r.dieGroup (r.num % m) idx e.2 + BitVec.ofNat 64 (sibBits s l))
      Tab.put t e.1 { c.fromNow s.stamp with faultSeq := Tab.getD s.slotSeq e.1 0 }) s1.cells
    slotSeq := cells.foldl Tab.del s1.slotSeq }

/-- Place a hive group's gangs on their spots. -/
def startGroup (s : State) (grp : Nat) (spots : List Spot) : State :=
  match Tab.find s.groups grp with
  | none => s
  | some r =>
    let s1 := spots.zipIdx.foldl (fun s e => startGang s grp r e.2 e.1) s
    ({ s1 with groups := Tab.adjust s1.groups grp fun g => { g with st := .placed } }).modLaunch r.launch fun l => { l with gangs := l.gangs + spots.length }

/-- Hive groups of a launch take their spots in order. -/
def startGroups (n : Nat) : State → List Nat → List Spot → State
  | s, [], _ => s
  | s, g :: rest, spots => startGroups n (startGroup s g (spots.take n)) rest (spots.drop n)

/-- Reserved capacity of a core after an item's placement: the item's own reservations end, and what is in use is no longer reserved. -/
def settleRsv (s : State) (i : Item) (core : Nat) (l : List Rsv) : List Rsv :=
  let here := s.gangs.filter fun e => e.2.core == core && e.2.resident
  let trim (a : List Rsv × Nat) (r : Rsv) : List Rsv × Nat :=
    let r' : Rsv :=
      { items := r.items.filter fun x => x.1 != i.num
        slots := r.slots.filter fun n => !here.any fun e => e.2.cells.contains (core * 8 + n)
        units := r.units.filter fun n => !here.any fun e => decide (e.2.lsBase ≤ n) && decide (n < e.2.lsBase + e.2.units)
        tiles := min r.tiles a.2 }
    (if r'.items.isEmpty then a.1 else a.1 ++ [r'], a.2 - (if r'.items.isEmpty then 0 else r'.tiles))
  (l.foldl trim ([], 4 - here.foldl (fun n e => n + e.2.tileCount) 0)).1

/-- Place an item. -/
def commitItem (s : State) (i : Item) (spots : List Spot) : State :=
  let lid := itemLaunch s i
  let h := (s.launch lid).hdr
  let s0 := s.tick
  let s1 : State := match i with
    | .gang g => (match spots with | sp :: _ => resumeGang s0 g sp.core sp.slots sp.unit | [] => s0)
    | .group g => startGroup s0 g spots
    | .cor l => startGroups (widProduct h.fmt0.toNat h.fmt1.toNat 2) s0 ((waitingGroups s l).map (·.1)) spots
  let s2 : State := s1.modLaunch lid fun (l : Launch) => { l with st := if l.st == LState.assigned then LState.running else l.st, start := some (l.start.getD s1.qtime) }
  let s3 := broodRuns s2 lid
  { s3 with cores := s3.cores.map fun e => (e.1, { e.2 with rsv := settleRsv s3 i e.1 e.2.rsv })
            gangs := Tab.mapV s3.gangs fun g => if g.victim = some i.num then { g with victim := none } else g }

/-- Pre-empt gangs for an item; the capacity that they free is reserved to it. -/
def preemptFor (s : State) (i : Item) (gs : List Nat) : State :=
  let s1 := gs.foldl orderPreempt s
  { s1 with gangs := s1.gangs.map fun e =>
      (e.1, if e.2.victim.isNone && (e.2.st == .landing || e.2.ordered) && (itemHives s i).contains (hiveOf e.2.core) then { e.2 with victim := some i.num } else e.2) }

/-! ### Choosing (spec 04 R93, R94, R101) -/

/-- MINp of the shares in force. -/
def minShare (s : State) (part p : Nat) : Nat :=
  bits (Tab.getD s.share part (mgmtReset 0x500)).toNat (8 * p + 7) (8 * p)

/-- The die whose dispatch unit places an item: of a COR launch whose groups lie on several, the die of its first waiting group's hive (DESIGN
CHOICE, log 80). -/
def itemDie (s : State) (i : Item) : Nat := ((itemHives s i).head?.getD 0) / 16

/-- The candidates of a partition in pending-list order, with what can be done for each. -/
def candidates (s : State) (pend : List Item) (part : Nat) : List (Item × Cand) :=
  (pend.filter fun i => (s.launch (itemLaunch s i)).part == part).filterMap fun i => (candidate s pend i).map fun c => (i, c)

/-- The candidate that a die serves at a level: of those that head the list of each hive they need, the oldest launch's. One that waits for a
landing keeps its place at the head, and those of other hives go on (log 65). -/
def headOf (s : State) (die : Nat) (l : List (Item × Cand)) (p : Nat) : Option (Item × Cand) :=
  let lvl := l.filter fun e => (s.launch (itemLaunch s e.1)).hdr.prio == p
  let heads (e : Item × Cand) : Bool := (itemHives s e.1).all fun hv =>
    ((lvl.find? fun f => (itemHives s f.1).contains hv).map fun f => f.1.num) == some e.1.num
  (lvl.filter fun e => itemDie s e.1 == die && heads e && e.2.now).foldl (fun b e => match b with
    | none => some e
    | some x => if itemLaunch s e.1 < itemLaunch s x.1 then some e else some x) none

/-- The choice within a partition: the lowest level under its minimum, else the lowest level. -/
def chooseIn (s : State) (die part : Nat) (l : List (Item × Cand)) : Option (Item × Cand) :=
  let made (p : Nat) : Nat := Tab.getD (s.die die).counts (part * 4 + p) 0
  let under := (List.range 4).filter fun p => decide (made p < minShare s part p * 40)
  ((under.filterMap (headOf s die l)).head?).or (((List.range 4).filterMap (headOf s die l)).head?)

/-- The partitions, from the one after the last served. -/
def partOrder (s : State) (die : Nat) : List Nat := (List.range 16).map fun i => ((s.die die).rr + i) % 16

/-- Count a placement of a level. -/
def countPlacement (s : State) (die part prio : Nat) : State :=
  s.modDie die fun d => { d with counts := Tab.setD d.counts (part * 4 + prio) 0 (Tab.getD d.counts (part * 4 + prio) 0 + 1), total := d.total + 1, rr := (part + 1) % 16 }

/-! ### Robbing (spec 04 R96, R97) -/

/-- UCIe hops between dies (spec 04 R84). -/
def hops (a b : Nat) : Nat := if a = b then 0 else if a + b = 3 then 2 else 1

/-- Unstarted groups of a hive: all its WAITING groups. -/
def unstarted (s : State) (hive : Nat) : Nat := (s.groups.filter fun e => e.2.hive == hive && e.2.st == GrpState.waiting).length

/-- Where a group would go on another hive. -/
def robPlan (s : State) (pend : List Item) (g hive : Nat) : Option (List Spot) :=
  let l := s.launch (itemLaunch s (.group g))
  fitNeeds s pend (.group g) [] (List.replicate (widProduct l.hdr.fmt0.toNat l.hdr.fmt1.toNat 2) (placeCores s l.part hive, l.hdr))

/-- The first group that a hive can rob from another. -/
def robFrom (s : State) (pend : List Item) (hive part : Nat) (mig : Bool) (src : Nat) : Option (Nat × List Spot) :=
  pend.findSome? fun i => match i with
    | .group g =>
      let l := s.launch (itemLaunch s i)
      if groupHive s g = src && l.part = part && (!mig || l.hdr.mig) then (robPlan s pend g hive).map fun p => (g, p) else none
    | _ => none

/-- What a hive robs from a die: from the hive with the most unstarted groups, the lower number first. -/
def robDie (s : State) (pend : List Item) (hive part : Nat) (mig : Bool) (die : Nat) : Option (Nat × List Spot) :=
  let srcs := ((range (die * 16) 16).filter fun h => h != hive).filterMap fun h => (robFrom s pend hive part mig h).map fun r => (unstarted s h, r)
  (srcs.foldl (fun b e => match b with
    | none => some e
    | some x => if x.1 < e.1 then some e else some x) none).map (·.2)

/-- What a hive robs: on its own die, else from the nearest die that holds a group of a MIG launch for it. -/
def robFor (s : State) (pend : List Item) (hive part : Nat) : Option (Nat × List Spot) :=
  let die := hive / 16
  let far := [1, 2].flatMap fun n => (List.range 4).filter fun d => hops die d == n
  (robDie s pend hive part false die).or (far.findSome? (robDie s pend hive part true))

/-- A hive's pending list holds no candidate (spec 04 R96). -/
def hiveIdle (s : State) (pend : List Item) (hive : Nat) : Bool :=
  pend.all fun i => !(itemHives s i).contains hive || (candidate s pend i).isNone

/-- A hive of a die robs a group, which is placed there at once: of several that could, the lowest-numbered (DESIGN CHOICE, log 80). -/
def robOn (s : State) (pend : List Item) (die : Nat) : State :=
  let pick := (range (die * 16) 16).findSome? fun h =>
    match s.partOfHive h with
    | some p => if hiveIdle s pend h && !s.quiet p then (robFor s pend h p).map fun r => (h, p, r) else none
    | none => none
  match pick with
  | none => s
  | some (h, p, g, spots) =>
    let s1 := { s with groups := Tab.adjust s.groups g fun r => { r with hive := h } }
    countPlacement (commitItem s1 (.group g) spots) die p (s.launch (itemLaunch s (.group g))).hdr.prio

/-! ### Groups that their hive can no longer hold (spec 04 R104) -/

/-- The hives to which a group may go: its die's, and the other dies' where its launch has MIG or its hive has left the partition. Of a COR
launch, those that no other group of it has (spec 04 R91, R103, R104). -/
def otherHives (s : State) (r : Group) : List Nat :=
  let l := s.launch r.launch
  (s.hivesOf l.part).filter fun h => h != r.hive && (h / 16 == r.hive / 16 || l.hdr.mig || s.partOfHive r.hive != some l.part)
    && (!l.hdr.cor || corFree s r.launch r.dieGroup h)

/-- Move a homeless group whose gangs are all saved to a hive that can hold it all: of several, the lowest-numbered of its own die before those
of other dies (DESIGN CHOICE, log 70). -/
def rehome (s : State) (grp : Nat) : State :=
  match Tab.find s.groups grp with
  | none => s
  | some r =>
    let gs := liveGangs s grp
    let l := s.launch r.launch
    if !homeless s grp || gs.isEmpty || gs.any (fun e => e.2.st != .saved) || s.quiet l.part then s
    else
      let hives := otherHives s r
      match (hives.filter (fun h => h / 16 == r.hive / 16) ++ hives.filter fun h => h / 16 != r.hive / 16).find? fun h => (fitNeeds s (pending s) (.group grp) [] (gs.map fun e => (placeCores s l.part h, e.2.hdr))).isSome with
      | some h => { s with groups := Tab.adjust s.groups grp fun g => { g with hive := h } }
      | none => s

/-! ### PLACEMENT -/

/-- One placement of a die's dispatch unit. An order of pre-emption serves its partition and is no placement, and hives rob where no partition
has a candidate that can be served now (DESIGN CHOICE, log 80). -/
def placeOne (s : State) (die : Nat) : State :=
  if bits (s.mreg 0).toNat 3 0 != 8 || (s.die die).total ≥ 4000 then s
  else
    let s := (s.groups.map (·.1)).foldl rehome s
    let pend := pending s
    match (partOrder s die).findSome? fun p => (chooseIn s die p (candidates s pend p)).map fun e => (p, e) with
    | some (p, i, .fits spots) => countPlacement (commitItem s i spots) die p (s.launch (itemLaunch s i)).hdr.prio
    | some (p, i, .preempt gs) => (preemptFor s i gs).modDie die fun d => { d with rr := (p + 1) % 16 }
    | some (_, _, .waits) | none => robOn s pend die

/-- PLACEMENT. -/
def execPlacement (die : Nat) (s : State) : Host.Outcome State Fault Refusal := .next (placeOne s die)

/-- PLACEMENT_PERIOD: the counts restart, and changed shares take effect. -/
def execPlacementPeriod (die : Nat) (s : State) : Host.Outcome State Fault Refusal :=
  .next { (s.tick.modDie die fun d => { d with counts := [], total := 0 }) with
    share := (s.mgmt.filter fun e => decide (0x500 ≤ e.1) && decide (e.1 < 0x580)).map fun e => ((e.1 - 0x500) / 8, e.2) }

end Sys2Proof.Machine
end

