-- ==== Sys2Proof/Machine/Dispatch.lean ====
section
/-! DEFINITION. The dispatch: one arm per constructor, each the direct call of its meaning. -/

namespace Sys2Proof.Machine

/-- The meaning of each instruction and of each step of the device. -/
def exec (i : Instr) (s : State) : Host.Outcome State Fault Refusal :=
  match i with
  | .powerGood => Sys2Proof.Machine.execPowerGood s
  | .pcieFundamentalReset => Sys2Proof.Machine.execPcieFundamentalReset s
  | .stageDone images eccDie lanes => Sys2Proof.Machine.execStageDone images eccDie lanes s
  | .stageTimeout die => Sys2Proof.Machine.execStageTimeout die s
  | .getVersion func => Sys2Proof.Machine.execGetVersion func s
  | .getCapabilities func => Sys2Proof.Machine.execGetCapabilities func s
  | .negotiateAlgorithms func sm2 sm3 => Sys2Proof.Machine.execNegotiateAlgorithms func sm2 sm3 s
  | .getDigests func => Sys2Proof.Machine.execGetDigests func s
  | .getCertificate func => Sys2Proof.Machine.execGetCertificate func s
  | .challenge func nonce => Sys2Proof.Machine.execChallenge func nonce s
  | .getMeasurements func => Sys2Proof.Machine.execGetMeasurements func s
  | .registerWrite func off size v => Sys2Proof.Machine.execRegisterWrite func off size v s
  | .merrClear v => Sys2Proof.Machine.execMerrClear v s
  | .ferrClear func => Sys2Proof.Machine.execFerrClear func s
  | .partSetValid n v => Sys2Proof.Machine.execPartSetValid n v s
  | .partClearValid n v => Sys2Proof.Machine.execPartClearValid n v s
  | .hmoveMove v => Sys2Proof.Machine.execHmoveMove v s
  | .hmoveFree v => Sys2Proof.Machine.execHmoveFree v s
  | .hmoveComplete => Sys2Proof.Machine.execHmoveComplete s
  | .budgetPeriod => Sys2Proof.Machine.execBudgetPeriod s
  | .ckptQuiesce v => Sys2Proof.Machine.execCkptQuiesce v s
  | .quiesceDone => Sys2Proof.Machine.execQuiesceDone s
  | .ckptResume v => Sys2Proof.Machine.execCkptResume v s
  | .ckptEngineGo v => Sys2Proof.Machine.execCkptEngineGo v s
  | .ckptRunEnd err done => Sys2Proof.Machine.execCkptRunEnd err done s
  | .faultQuiesce part => Sys2Proof.Machine.execFaultQuiesce part s
  | .powerCapWrite v => Sys2Proof.Machine.execPowerCapWrite v s
  | .doorbell func q w => Sys2Proof.Machine.execDoorbell func q w s
  | .bar0UnsupportedAccess func off size write => Sys2Proof.Machine.execBar0UnsupportedAccess func off size write s
  | .hostBar4Read func off n => Sys2Proof.Machine.execHostBar4Read func off n s
  | .hostBar4Write func off data => Sys2Proof.Machine.execHostBar4Write func off data s
  | .bar4PagerTimeout id => Sys2Proof.Machine.execBar4PagerTimeout id s
  | .functionLevelReset func => Sys2Proof.Machine.execFunctionLevelReset func s
  | .pf0FunctionLevelReset => Sys2Proof.Machine.execPf0FunctionLevelReset s
  | .queueEnable func q v => Sys2Proof.Machine.execQueueEnable func q v s
  | .queueDisable func q v => Sys2Proof.Machine.execQueueDisable func q v s
  | .queueResume func q v => Sys2Proof.Machine.execQueueResume func q v s
  | .queueResumeSkip func q v => Sys2Proof.Machine.execQueueResumeSkip func q v s
  | .launchPacket part q => Sys2Proof.Machine.execLaunchPacket part q s
  | .waitsig part q => Sys2Proof.Machine.execWaitsig part q s
  | .waitsigSatisfied part q => Sys2Proof.Machine.execWaitsigSatisfied part q s
  | .waitsigLimit part q => Sys2Proof.Machine.execWaitsigLimit part q s
  | .setsig part q => Sys2Proof.Machine.execSetsig part q s
  | .loadPacket part q => Sys2Proof.Machine.execLoadPacket part q s
  | .unload part q => Sys2Proof.Machine.execUnload part q s
  | .fencePacket part q => Sys2Proof.Machine.execFencePacket part q s
  | .launchComplete launch => Sys2Proof.Machine.execLaunchComplete launch s
  | .placement die => Sys2Proof.Machine.execPlacement die s
  | .placementPeriod die => Sys2Proof.Machine.execPlacementPeriod die s
  | .icacheFillDone cell => Sys2Proof.Machine.execIcacheFillDone cell s
  | .feWriteback cell j => Sys2Proof.Machine.execFeWriteback cell j s
  | .pagerWake w verdict => Sys2Proof.Machine.execPagerWake w verdict s
  | .cowCopyDone j => Sys2Proof.Machine.execCowCopyDone j s
  | .pageMigration asid dva pa => Sys2Proof.Machine.execPageMigration asid dva pa s
  | .remoteAccessArrival id => Sys2Proof.Machine.execRemoteAccessArrival id s
  | .remoteReply id => Sys2Proof.Machine.execRemoteReply id s
  | .asyncTrapDelivery cell => Sys2Proof.Machine.execAsyncTrapDelivery cell s
  | .copyStart core j => Sys2Proof.Machine.execCopyStart core j s
  | .frameSlotReserve core j => Sys2Proof.Machine.execFrameSlotReserve core j s
  | .copyComplete core j => Sys2Proof.Machine.execCopyComplete core j s
  | .copyWaggleDelivered core j => Sys2Proof.Machine.execCopyWaggleDelivered core j s
  | .copyFailure core j why => Sys2Proof.Machine.execCopyFailure core j why s
  | .leaseAcquire core => Sys2Proof.Machine.execLeaseAcquire core s
  | .leaseQuantumExpiry core => Sys2Proof.Machine.execLeaseQuantumExpiry core s
  | .mopaOperandsConsumed core => Sys2Proof.Machine.execMopaOperandsConsumed core s
  | .laneFailure core j group => Sys2Proof.Machine.execLaneFailure core j group s
  | .coreRetire core j group => Sys2Proof.Machine.execCoreRetire core j group s
  | .waitReread w => Sys2Proof.Machine.execWaitReread w s
  | .swaitLimit cell => Sys2Proof.Machine.execSwaitLimit cell s
  | .vsetvlwLimit cell => Sys2Proof.Machine.execVsetvlwLimit cell s
  | .frmwaitLimit cell => Sys2Proof.Machine.execFrmwaitLimit cell s
  | .ldfeLimit cell => Sys2Proof.Machine.execLdfeLimit cell s
  | .barLimit cell => Sys2Proof.Machine.execBarLimit cell s
  | .wgsendLimit cell => Sys2Proof.Machine.execWgsendLimit cell s
  | .wgrecvLimit cell => Sys2Proof.Machine.execWgrecvLimit cell s
  | .broodDeadline handle => Sys2Proof.Machine.execBroodDeadline handle s
  | .forcedLanding cell stops step => Sys2Proof.Machine.execForcedLanding cell stops step s
  | .gangSaveDone gang => Sys2Proof.Machine.execGangSaveDone gang s
  | .correctableError die cls => Sys2Proof.Machine.execCorrectableError die cls s
  | .uncorrectableError e => Sys2Proof.Machine.execUncorrectableError e s
  | .patrolScrub die lines => Sys2Proof.Machine.execPatrolScrub die lines s
  | .flitReceive fin seq crcGood => Sys2Proof.Machine.execFlitReceive fin seq crcGood s
  | .ucieReplay fin last => Sys2Proof.Machine.execUcieReplay fin last s
  | .linkRetrain fin why => Sys2Proof.Machine.execLinkRetrain fin why s
  | .retrainDone fin lanes => Sys2Proof.Machine.execRetrainDone fin lanes s
  | .dieUnreachable die => Sys2Proof.Machine.execDieUnreachable die s
  | .ualinkTimeout r => Sys2Proof.Machine.execUalinkTimeout r s
  | .ualinkStationLoss station => Sys2Proof.Machine.execUalinkStationLoss station s
  | .fabricReply cell station ok data => Sys2Proof.Machine.execFabricReply cell station ok data s
  | .heirHandover gang => Sys2Proof.Machine.execHeirHandover gang s
  | .objectRangeRelease handle => Sys2Proof.Machine.execObjectRangeRelease handle s
  | .generationUnmap handle => Sys2Proof.Machine.execGenerationUnmap handle s
  | .lui rd imm => Sys2Proof.Machine.execLui rd imm s
  | .auipc rd imm => Sys2Proof.Machine.execAuipc rd imm s
  | .jal rd imm => Sys2Proof.Machine.execJal rd imm s
  | .jalr rd rs1 imm => Sys2Proof.Machine.execJalr rd rs1 imm s
  | .beq rs1 rs2 imm => Sys2Proof.Machine.execBeq rs1 rs2 imm s
  | .bne rs1 rs2 imm => Sys2Proof.Machine.execBne rs1 rs2 imm s
  | .blt rs1 rs2 imm => Sys2Proof.Machine.execBlt rs1 rs2 imm s
  | .bge rs1 rs2 imm => Sys2Proof.Machine.execBge rs1 rs2 imm s
  | .bltu rs1 rs2 imm => Sys2Proof.Machine.execBltu rs1 rs2 imm s
  | .bgeu rs1 rs2 imm => Sys2Proof.Machine.execBgeu rs1 rs2 imm s
  | .lb rd rs1 imm => Sys2Proof.Machine.execLb rd rs1 imm s
  | .lh rd rs1 imm => Sys2Proof.Machine.execLh rd rs1 imm s
  | .lw rd rs1 imm => Sys2Proof.Machine.execLw rd rs1 imm s
  | .ld rd rs1 imm => Sys2Proof.Machine.execLd rd rs1 imm s
  | .lbu rd rs1 imm => Sys2Proof.Machine.execLbu rd rs1 imm s
  | .lhu rd rs1 imm => Sys2Proof.Machine.execLhu rd rs1 imm s
  | .lwu rd rs1 imm => Sys2Proof.Machine.execLwu rd rs1 imm s
  | .sb rs1 rs2 imm => Sys2Proof.Machine.execSb rs1 rs2 imm s
  | .sh rs1 rs2 imm => Sys2Proof.Machine.execSh rs1 rs2 imm s
  | .sw rs1 rs2 imm => Sys2Proof.Machine.execSw rs1 rs2 imm s
  | .sd rs1 rs2 imm => Sys2Proof.Machine.execSd rs1 rs2 imm s
  | .addi rd rs1 imm => Sys2Proof.Machine.execAddi rd rs1 imm s
  | .slti rd rs1 imm => Sys2Proof.Machine.execSlti rd rs1 imm s
  | .sltiu rd rs1 imm => Sys2Proof.Machine.execSltiu rd rs1 imm s
  | .xori rd rs1 imm => Sys2Proof.Machine.execXori rd rs1 imm s
  | .ori rd rs1 imm => Sys2Proof.Machine.execOri rd rs1 imm s
  | .andi rd rs1 imm => Sys2Proof.Machine.execAndi rd rs1 imm s
  | .slli rd rs1 sh => Sys2Proof.Machine.execSlli rd rs1 sh s
  | .srli rd rs1 sh => Sys2Proof.Machine.execSrli rd rs1 sh s
  | .srai rd rs1 sh => Sys2Proof.Machine.execSrai rd rs1 sh s
  | .add rd rs1 rs2 => Sys2Proof.Machine.execAdd rd rs1 rs2 s
  | .sub rd rs1 rs2 => Sys2Proof.Machine.execSub rd rs1 rs2 s
  | .sll rd rs1 rs2 => Sys2Proof.Machine.execSll rd rs1 rs2 s
  | .slt rd rs1 rs2 => Sys2Proof.Machine.execSlt rd rs1 rs2 s
  | .sltu rd rs1 rs2 => Sys2Proof.Machine.execSltu rd rs1 rs2 s
  | .xor rd rs1 rs2 => Sys2Proof.Machine.execXor rd rs1 rs2 s
  | .srl rd rs1 rs2 => Sys2Proof.Machine.execSrl rd rs1 rs2 s
  | .sra rd rs1 rs2 => Sys2Proof.Machine.execSra rd rs1 rs2 s
  | .or rd rs1 rs2 => Sys2Proof.Machine.execOr rd rs1 rs2 s
  | .and rd rs1 rs2 => Sys2Proof.Machine.execAnd rd rs1 rs2 s
  | .addiw rd rs1 imm => Sys2Proof.Machine.execAddiw rd rs1 imm s
  | .slliw rd rs1 sh => Sys2Proof.Machine.execSlliw rd rs1 sh s
  | .srliw rd rs1 sh => Sys2Proof.Machine.execSrliw rd rs1 sh s
  | .sraiw rd rs1 sh => Sys2Proof.Machine.execSraiw rd rs1 sh s
  | .addw rd rs1 rs2 => Sys2Proof.Machine.execAddw rd rs1 rs2 s
  | .subw rd rs1 rs2 => Sys2Proof.Machine.execSubw rd rs1 rs2 s
  | .sllw rd rs1 rs2 => Sys2Proof.Machine.execSllw rd rs1 rs2 s
  | .srlw rd rs1 rs2 => Sys2Proof.Machine.execSrlw rd rs1 rs2 s
  | .sraw rd rs1 rs2 => Sys2Proof.Machine.execSraw rd rs1 rs2 s
  | .mul rd rs1 rs2 => Sys2Proof.Machine.execMul rd rs1 rs2 s
  | .mulh rd rs1 rs2 => Sys2Proof.Machine.execMulh rd rs1 rs2 s
  | .mulhsu rd rs1 rs2 => Sys2Proof.Machine.execMulhsu rd rs1 rs2 s
  | .mulhu rd rs1 rs2 => Sys2Proof.Machine.execMulhu rd rs1 rs2 s
  | .div rd rs1 rs2 => Sys2Proof.Machine.execDiv rd rs1 rs2 s
  | .divu rd rs1 rs2 => Sys2Proof.Machine.execDivu rd rs1 rs2 s
  | .rem rd rs1 rs2 => Sys2Proof.Machine.execRem rd rs1 rs2 s
  | .remu rd rs1 rs2 => Sys2Proof.Machine.execRemu rd rs1 rs2 s
  | .mulw rd rs1 rs2 => Sys2Proof.Machine.execMulw rd rs1 rs2 s
  | .divw rd rs1 rs2 => Sys2Proof.Machine.execDivw rd rs1 rs2 s
  | .divuw rd rs1 rs2 => Sys2Proof.Machine.execDivuw rd rs1 rs2 s
  | .remw rd rs1 rs2 => Sys2Proof.Machine.execRemw rd rs1 rs2 s
  | .remuw rd rs1 rs2 => Sys2Proof.Machine.execRemuw rd rs1 rs2 s
  | .fence fm pred succ rs1 rd => Sys2Proof.Machine.execFence fm pred succ rs1 rd s
  | .fenceTso pred succ rs1 rd => Sys2Proof.Machine.execFenceTso pred succ rs1 rd s
  | .pause => Sys2Proof.Machine.execPause s
  | .fenceI rd rs1 imm => Sys2Proof.Machine.execFenceI rd rs1 imm s
  | .ecall => Sys2Proof.Machine.execEcall s
  | .ebreak => Sys2Proof.Machine.execEbreak s
  | .csrrw rd rs1 csr => Sys2Proof.Machine.execCsrrw rd rs1 csr s
  | .csrrs rd rs1 csr => Sys2Proof.Machine.execCsrrs rd rs1 csr s
  | .csrrc rd rs1 csr => Sys2Proof.Machine.execCsrrc rd rs1 csr s
  | .csrrwi rd uimm csr => Sys2Proof.Machine.execCsrrwi rd uimm csr s
  | .csrrsi rd uimm csr => Sys2Proof.Machine.execCsrrsi rd uimm csr s
  | .csrrci rd uimm csr => Sys2Proof.Machine.execCsrrci rd uimm csr s
  | .lrW rd rs1 aq rl => Sys2Proof.Machine.execLrW rd rs1 aq rl s
  | .scW rd rs1 rs2 aq rl => Sys2Proof.Machine.execScW rd rs1 rs2 aq rl s
  | .lrD rd rs1 aq rl => Sys2Proof.Machine.execLrD rd rs1 aq rl s
  | .scD rd rs1 rs2 aq rl => Sys2Proof.Machine.execScD rd rs1 rs2 aq rl s
  | .amoswapW rd rs1 rs2 aq rl => Sys2Proof.Machine.execAmoswapW rd rs1 rs2 aq rl s
  | .amoaddW rd rs1 rs2 aq rl => Sys2Proof.Machine.execAmoaddW rd rs1 rs2 aq rl s
  | .amoxorW rd rs1 rs2 aq rl => Sys2Proof.Machine.execAmoxorW rd rs1 rs2 aq rl s
  | .amoandW rd rs1 rs2 aq rl => Sys2Proof.Machine.execAmoandW rd rs1 rs2 aq rl s
  | .amoorW rd rs1 rs2 aq rl => Sys2Proof.Machine.execAmoorW rd rs1 rs2 aq rl s
  | .amominW rd rs1 rs2 aq rl => Sys2Proof.Machine.execAmominW rd rs1 rs2 aq rl s
  | .amomaxW rd rs1 rs2 aq rl => Sys2Proof.Machine.execAmomaxW rd rs1 rs2 aq rl s
  | .amominuW rd rs1 rs2 aq rl => Sys2Proof.Machine.execAmominuW rd rs1 rs2 aq rl s
  | .amomaxuW rd rs1 rs2 aq rl => Sys2Proof.Machine.execAmomaxuW rd rs1 rs2 aq rl s
  | .amoswapD rd rs1 rs2 aq rl => Sys2Proof.Machine.execAmoswapD rd rs1 rs2 aq rl s
  | .amoaddD rd rs1 rs2 aq rl => Sys2Proof.Machine.execAmoaddD rd rs1 rs2 aq rl s
  | .amoxorD rd rs1 rs2 aq rl => Sys2Proof.Machine.execAmoxorD rd rs1 rs2 aq rl s
  | .amoandD rd rs1 rs2 aq rl => Sys2Proof.Machine.execAmoandD rd rs1 rs2 aq rl s
  | .amoorD rd rs1 rs2 aq rl => Sys2Proof.Machine.execAmoorD rd rs1 rs2 aq rl s
  | .amominD rd rs1 rs2 aq rl => Sys2Proof.Machine.execAmominD rd rs1 rs2 aq rl s
  | .amomaxD rd rs1 rs2 aq rl => Sys2Proof.Machine.execAmomaxD rd rs1 rs2 aq rl s
  | .amominuD rd rs1 rs2 aq rl => Sys2Proof.Machine.execAmominuD rd rs1 rs2 aq rl s
  | .amomaxuD rd rs1 rs2 aq rl => Sys2Proof.Machine.execAmomaxuD rd rs1 rs2 aq rl s
  | .flw rd rs1 imm => Sys2Proof.Machine.execFlw rd rs1 imm s
  | .flh rd rs1 imm => Sys2Proof.Machine.execFlh rd rs1 imm s
  | .fsw rs1 rs2 imm => Sys2Proof.Machine.execFsw rs1 rs2 imm s
  | .fsh rs1 rs2 imm => Sys2Proof.Machine.execFsh rs1 rs2 imm s
  | .fmaddS rd rs1 rs2 rs3 rm => Sys2Proof.Machine.execFmaddS rd rs1 rs2 rs3 rm s
  | .fmsubS rd rs1 rs2 rs3 rm => Sys2Proof.Machine.execFmsubS rd rs1 rs2 rs3 rm s
  | .fnmsubS rd rs1 rs2 rs3 rm => Sys2Proof.Machine.execFnmsubS rd rs1 rs2 rs3 rm s
  | .fnmaddS rd rs1 rs2 rs3 rm => Sys2Proof.Machine.execFnmaddS rd rs1 rs2 rs3 rm s
  | .faddS rd rs1 rs2 rm => Sys2Proof.Machine.execFaddS rd rs1 rs2 rm s
  | .fsubS rd rs1 rs2 rm => Sys2Proof.Machine.execFsubS rd rs1 rs2 rm s
  | .fmulS rd rs1 rs2 rm => Sys2Proof.Machine.execFmulS rd rs1 rs2 rm s
  | .fdivS rd rs1 rs2 rm => Sys2Proof.Machine.execFdivS rd rs1 rs2 rm s
  | .fsqrtS rd rs1 rm => Sys2Proof.Machine.execFsqrtS rd rs1 rm s
  | .fsgnjS rd rs1 rs2 => Sys2Proof.Machine.execFsgnjS rd rs1 rs2 s
  | .fsgnjnS rd rs1 rs2 => Sys2Proof.Machine.execFsgnjnS rd rs1 rs2 s
  | .fsgnjxS rd rs1 rs2 => Sys2Proof.Machine.execFsgnjxS rd rs1 rs2 s
  | .fminS rd rs1 rs2 => Sys2Proof.Machine.execFminS rd rs1 rs2 s
  | .fmaxS rd rs1 rs2 => Sys2Proof.Machine.execFmaxS rd rs1 rs2 s
  | .fcvtWS rd rs1 rm => Sys2Proof.Machine.execFcvtWS rd rs1 rm s
  | .fcvtWuS rd rs1 rm => Sys2Proof.Machine.execFcvtWuS rd rs1 rm s
  | .fcvtLS rd rs1 rm => Sys2Proof.Machine.execFcvtLS rd rs1 rm s
  | .fcvtLuS rd rs1 rm => Sys2Proof.Machine.execFcvtLuS rd rs1 rm s
  | .fcvtSW rd rs1 rm => Sys2Proof.Machine.execFcvtSW rd rs1 rm s
  | .fcvtSWu rd rs1 rm => Sys2Proof.Machine.execFcvtSWu rd rs1 rm s
  | .fcvtSL rd rs1 rm => Sys2Proof.Machine.execFcvtSL rd rs1 rm s
  | .fcvtSLu rd rs1 rm => Sys2Proof.Machine.execFcvtSLu rd rs1 rm s
  | .fmvXW rd rs1 => Sys2Proof.Machine.execFmvXW rd rs1 s
  | .fclassS rd rs1 => Sys2Proof.Machine.execFclassS rd rs1 s
  | .fmvWX rd rs1 => Sys2Proof.Machine.execFmvWX rd rs1 s
  | .feqS rd rs1 rs2 => Sys2Proof.Machine.execFeqS rd rs1 rs2 s
  | .fltS rd rs1 rs2 => Sys2Proof.Machine.execFltS rd rs1 rs2 s
  | .fleS rd rs1 rs2 => Sys2Proof.Machine.execFleS rd rs1 rs2 s
  | .fcvtSBf16 rd rs1 rm => Sys2Proof.Machine.execFcvtSBf16 rd rs1 rm s
  | .fcvtBf16S rd rs1 rm => Sys2Proof.Machine.execFcvtBf16S rd rs1 rm s
  | .fmvXH rd rs1 => Sys2Proof.Machine.execFmvXH rd rs1 s
  | .fmvHX rd rs1 => Sys2Proof.Machine.execFmvHX rd rs1 s
  | .loop rs1 imm => Sys2Proof.Machine.execLoop rs1 imm s
  | .loopi cntm1 imm => Sys2Proof.Machine.execLoopi cntm1 imm s
  | .lbrk rs1 n => Sys2Proof.Machine.execLbrk rs1 n s
  | .yield => Sys2Proof.Machine.execYield s
  | .widf rd j => Sys2Proof.Machine.execWidf rd j s
  | .widfExt rd j => Sys2Proof.Machine.execWidfExt rd j s
  | .widfLvl rd j => Sys2Proof.Machine.execWidfLvl rd j s
  | .vintVadd d a b xs p t => Sys2Proof.Machine.execVintVadd d a b xs p t s
  | .vintVsub d a b xs p t => Sys2Proof.Machine.execVintVsub d a b xs p t s
  | .vintVmul d a b xs p t => Sys2Proof.Machine.execVintVmul d a b xs p t s
  | .vmulh d a b xs p t => Sys2Proof.Machine.execVmulh d a b xs p t s
  | .vintVmin d a b xs p t => Sys2Proof.Machine.execVintVmin d a b xs p t s
  | .vintVmax d a b xs p t => Sys2Proof.Machine.execVintVmax d a b xs p t s
  | .vminu d a b xs p t => Sys2Proof.Machine.execVminu d a b xs p t s
  | .vmaxu d a b xs p t => Sys2Proof.Machine.execVmaxu d a b xs p t s
  | .vand d a b xs p t => Sys2Proof.Machine.execVand d a b xs p t s
  | .vor d a b xs p t => Sys2Proof.Machine.execVor d a b xs p t s
  | .vxor d a b xs p t => Sys2Proof.Machine.execVxor d a b xs p t s
  | .vsll d a b xs p t => Sys2Proof.Machine.execVsll d a b xs p t s
  | .vsrl d a b xs p t => Sys2Proof.Machine.execVsrl d a b xs p t s
  | .vsra d a b xs p t => Sys2Proof.Machine.execVsra d a b xs p t s
  | .vintVabs d a p t => Sys2Proof.Machine.execVintVabs d a p t s
  | .vintVneg d a p t => Sys2Proof.Machine.execVintVneg d a p t s
  | .vsadd d a b xs p t => Sys2Proof.Machine.execVsadd d a b xs p t s
  | .vssub d a b xs p t => Sys2Proof.Machine.execVssub d a b xs p t s
  | .vfltVadd d a b xs p t => Sys2Proof.Machine.execVfltVadd d a b xs p t s
  | .vfltVsub d a b xs p t => Sys2Proof.Machine.execVfltVsub d a b xs p t s
  | .vfltVmul d a b xs p t => Sys2Proof.Machine.execVfltVmul d a b xs p t s
  | .vfma d a b c xs p t => Sys2Proof.Machine.execVfma d a b c xs p t s
  | .vfms d a b c xs p t => Sys2Proof.Machine.execVfms d a b c xs p t s
  | .vfnma d a b c xs p t => Sys2Proof.Machine.execVfnma d a b c xs p t s
  | .vfltVmin d a b xs p t => Sys2Proof.Machine.execVfltVmin d a b xs p t s
  | .vfltVmax d a b xs p t => Sys2Proof.Machine.execVfltVmax d a b xs p t s
  | .vfltVabs d a p t => Sys2Proof.Machine.execVfltVabs d a p t s
  | .vfltVneg d a p t => Sys2Proof.Machine.execVfltVneg d a p t s
  | .vdiv d a b xs p t => Sys2Proof.Machine.execVdiv d a b xs p t s
  | .vsqrt d a p t => Sys2Proof.Machine.execVsqrt d a p t s
  | .vrcp d a p t => Sys2Proof.Machine.execVrcp d a p t s
  | .vrsqrt d a p t => Sys2Proof.Machine.execVrsqrt d a p t s
  | .vexp2 d a p t => Sys2Proof.Machine.execVexp2 d a p t s
  | .vlog2 d a p t => Sys2Proof.Machine.execVlog2 d a p t s
  | .vsgnj d a b xs p t => Sys2Proof.Machine.execVsgnj d a b xs p t s
  | .vcmpeq d a b xs p t => Sys2Proof.Machine.execVcmpeq d a b xs p t s
  | .vcmpne d a b xs p t => Sys2Proof.Machine.execVcmpne d a b xs p t s
  | .vcmplt d a b xs p t => Sys2Proof.Machine.execVcmplt d a b xs p t s
  | .vcmple d a b xs p t => Sys2Proof.Machine.execVcmple d a b xs p t s
  | .vcmpgt d a b xs p t => Sys2Proof.Machine.execVcmpgt d a b xs p t s
  | .vcmpge d a b xs p t => Sys2Proof.Machine.execVcmpge d a b xs p t s
  | .mand d a b all p => Sys2Proof.Machine.execMand d a b all p s
  | .mor d a b all p => Sys2Proof.Machine.execMor d a b all p s
  | .mxor d a b all p => Sys2Proof.Machine.execMxor d a b all p s
  | .mandn d a b all p => Sys2Proof.Machine.execMandn d a b all p s
  | .mnot d a all p => Sys2Proof.Machine.execMnot d a all p s
  | .mpop d a all p => Sys2Proof.Machine.execMpop d a all p s
  | .mfirst d a all p => Sys2Proof.Machine.execMfirst d a all p s
  | .mset d all p => Sys2Proof.Machine.execMset d all p s
  | .mclr d all p => Sys2Proof.Machine.execMclr d all p s
  | .vslideup d a b p t => Sys2Proof.Machine.execVslideup d a b p t s
  | .vslidedn d a b p t => Sys2Proof.Machine.execVslidedn d a b p t s
  | .vbcast d a p t => Sys2Proof.Machine.execVbcast d a p t s
  | .vperm d a b p t => Sys2Proof.Machine.execVperm d a b p t s
  | .vmvXv d a ix t => Sys2Proof.Machine.execVmvXv d a ix t s
  | .vmvVx d a ix t => Sys2Proof.Machine.execVmvVx d a ix t s
  | .vmvFv d a ix t => Sys2Proof.Machine.execVmvFv d a ix t s
  | .vmvVf d a ix t => Sys2Proof.Machine.execVmvVf d a ix t s
  | .vsel d a b p t => Sys2Proof.Machine.execVsel d a b p t s
  | .vcompress d a p t => Sys2Proof.Machine.execVcompress d a p t s
  | .vredsum d a ix p t => Sys2Proof.Machine.execVredsum d a ix p t s
  | .vredmax d a ix p t => Sys2Proof.Machine.execVredmax d a ix p t s
  | .vredmin d a ix p t => Sys2Proof.Machine.execVredmin d a ix p t s
  | .vredamax d a tm ix p t => Sys2Proof.Machine.execVredamax d a tm ix p t s
  | .vcvt d a c p dst src => Sys2Proof.Machine.execVcvt d a c p dst src s
  | .vsrnd d a b c w p dst src => Sys2Proof.Machine.execVsrnd d a b c w p dst src s
  | .vqnt d a scale c src => Sys2Proof.Machine.execVqnt d a scale c src s
  | .vld d a imm p t => Sys2Proof.Machine.execVld d a imm p t s
  | .vlds d a b imm p t => Sys2Proof.Machine.execVlds d a b imm p t s
  | .vld2d d a b n1m1 p t => Sys2Proof.Machine.execVld2d d a b n1m1 p t s
  | .vldx d a b p t => Sys2Proof.Machine.execVldx d a b p t s
  | .vst c a imm p t => Sys2Proof.Machine.execVst c a imm p t s
  | .vsts c a b imm p t => Sys2Proof.Machine.execVsts c a b imm p t s
  | .vstx c a b dup p t => Sys2Proof.Machine.execVstx c a b dup p t s
  | .vsetvl d a t => Sys2Proof.Machine.execVsetvl d a t s
  | .vsetvlw d a b c limit full t => Sys2Proof.Machine.execVsetvlw d a b c limit full t s
  | .vgrp g => Sys2Proof.Machine.execVgrp g s
  | .mop1 d a b c p pair => Sys2Proof.Machine.execMop1 d a b c p pair s
  | .mopa d a b c km1 ocs p pair => Sys2Proof.Machine.execMopa d a b c km1 ocs p pair s
  | .mzero d p => Sys2Proof.Machine.execMzero d p s
  | .mrel => Sys2Proof.Machine.execMrel s
  | .mrelDiscard => Sys2Proof.Machine.execMrelDiscard s
  | .mdrain f => Sys2Proof.Machine.execMdrain f s
  | .mdrainRow f c => Sys2Proof.Machine.execMdrainRow f c s
  | .mdrainDly f c => Sys2Proof.Machine.execMdrainDly f c s
  | .mrowRd d a ix col p t => Sys2Proof.Machine.execMrowRd d a ix col p t s
  | .mrowWr d a ix col p t => Sys2Proof.Machine.execMrowWr d a ix col p t s
  | .amxrd d j => Sys2Proof.Machine.execAmxrd d j s
  | .amxswp d j => Sys2Proof.Machine.execAmxswp d j s
  | .amxmax a j => Sys2Proof.Machine.execAmxmax a j s
  | .tcopy a b act ord => Sys2Proof.Machine.execTcopy a b act ord s
  | .tcopySt a b act ord => Sys2Proof.Machine.execTcopySt a b act ord s
  | .tcopyMc a b c d sig ord => Sys2Proof.Machine.execTcopyMc a b c d sig ord s
  | .frminit a b => Sys2Proof.Machine.execFrminit a b s
  | .frmwait d a limit => Sys2Proof.Machine.execFrmwait d a limit s
  | .frmfree a => Sys2Proof.Machine.execFrmfree a s
  | .qfence r w e sc => Sys2Proof.Machine.execQfence r w e sc s
  | .qamoadd d a b word acq rel sc => Sys2Proof.Machine.execQamoadd d a b word acq rel sc s
  | .qamoand d a b word acq rel sc => Sys2Proof.Machine.execQamoand d a b word acq rel sc s
  | .qamoor d a b word acq rel sc => Sys2Proof.Machine.execQamoor d a b word acq rel sc s
  | .qamoxor d a b word acq rel sc => Sys2Proof.Machine.execQamoxor d a b word acq rel sc s
  | .qamomin d a b word acq rel sc => Sys2Proof.Machine.execQamomin d a b word acq rel sc s
  | .qamomax d a b word acq rel sc => Sys2Proof.Machine.execQamomax d a b word acq rel sc s
  | .qamominu d a b word acq rel sc => Sys2Proof.Machine.execQamominu d a b word acq rel sc s
  | .qamomaxu d a b word acq rel sc => Sys2Proof.Machine.execQamomaxu d a b word acq rel sc s
  | .qamoswap d a b word acq rel sc => Sys2Proof.Machine.execQamoswap d a b word acq rel sc s
  | .qamocas d a b c word acq rel sc => Sys2Proof.Machine.execQamocas d a b c word acq rel sc s
  | .ssig a b sc => Sys2Proof.Machine.execSsig a b sc s
  | .sset a b sc => Sys2Proof.Machine.execSset a b sc s
  | .swait d a b c cond sc => Sys2Proof.Machine.execSwait d a b c cond sc s
  | .bar level limit => Sys2Proof.Machine.execBar level limit s
  | .ldfe d a c off => Sys2Proof.Machine.execLdfe d a c off s
  | .ldfeK d a c off => Sys2Proof.Machine.execLdfeK d a c off s
  | .stfe a b off => Sys2Proof.Machine.execStfe a b off s
  | .stfeF a b off => Sys2Proof.Machine.execStfeF a b off s
  | .feprobe d a off => Sys2Proof.Machine.execFeprobe d a off s
  | .fesetE a off => Sys2Proof.Machine.execFesetE a off s
  | .fesetF a off => Sys2Proof.Machine.execFesetF a off s
  | .wgsend a b c limit => Sys2Proof.Machine.execWgsend a b c limit s
  | .wgrecv d limit => Sys2Proof.Machine.execWgrecv d limit s
  | .wgpeek d => Sys2Proof.Machine.execWgpeek d s
  | .launch d a b => Sys2Proof.Machine.execLaunch d a b s
  | .launchNb d a b => Sys2Proof.Machine.execLaunchNb d a b s
  | .retire => Sys2Proof.Machine.execRetire s
  | .retireH a => Sys2Proof.Machine.execRetireH a s
  | .bfork d a => Sys2Proof.Machine.execBfork d a s
  | .bjoin a => Sys2Proof.Machine.execBjoin a s
  | .bjoinW d a => Sys2Proof.Machine.execBjoinW d a s
  | .bjoinAb => Sys2Proof.Machine.execBjoinAb s
  | .bjoinAbW d => Sys2Proof.Machine.execBjoinAbW d s
  | .bkill d a b => Sys2Proof.Machine.execBkill d a b s
  | .bkillAll d a => Sys2Proof.Machine.execBkillAll d a s
  | .bstat d a => Sys2Proof.Machine.execBstat d a s
  | .bstatSib d a b => Sys2Proof.Machine.execBstatSib d a b s
  | .tret => Sys2Proof.Machine.execTret s
  | .traise a => Sys2Proof.Machine.execTraise a s
  | .msave d a => Sys2Proof.Machine.execMsave d a s
  | .mrstr d a => Sys2Proof.Machine.execMrstr d a s
  | .icinv a b => Sys2Proof.Machine.execIcinv a b s
  | .illegalInstruction len w => Sys2Proof.Machine.execIllegalInstruction len w s
  | .rotationBoundary core => Sys2Proof.Machine.execRotationBoundary core s
  | .turnSpentWithoutIssue cell => Sys2Proof.Machine.execTurnSpentWithoutIssue cell s
  | .matrixInstructionComplete core => Sys2Proof.Machine.execMatrixInstructionComplete core s
  | .vectorInstructionComplete core j => Sys2Proof.Machine.execVectorInstructionComplete core j s
  | .accessPerformedAtHome cell j => Sys2Proof.Machine.execAccessPerformedAtHome cell j s
  | .icinvAcknowledged cell => Sys2Proof.Machine.execIcinvAcknowledged cell s
  | .pcieCompletionTimeout r => Sys2Proof.Machine.execPcieCompletionTimeout r s
  | .postedWriteUndeliverable cell dva => Sys2Proof.Machine.execPostedWriteUndeliverable cell dva s
  | .ualinkReplay station => Sys2Proof.Machine.execUalinkReplay station s
  | .fabricPeerAccess op => Sys2Proof.Machine.execFabricPeerAccess op s
  | .tlbShootdown asid dva entry => Sys2Proof.Machine.execTlbShootdown asid dva entry s
  | .powerCapClockChange lower => Sys2Proof.Machine.execPowerCapClockChange lower s
  | .configurationRequest func req => Sys2Proof.Machine.execConfigurationRequest func req s

end Sys2Proof.Machine
end

