-- ==== Sys2Proof/Machine/Turn.lean ====
section
/-! DEFINITION. The plan of one step, and a program placed from outside (spec 05 R108; 18 R373, R382; log 1, log 19). -/

namespace Sys2Proof.Machine

noncomputable section

/-! ### The plan of a step (log 1) -/

/-- What a step does: run an instruction or a step of the device in a state, or be at its end. -/
inductive Plan where
  | run (i : Instr) (s : State)
  | idle (s : State)

/-- The turn of the current cell: a forced landing, what is left of an earlier landing, a pending asynchronous trap, or fetch and decode; what is
fetched stays with the instruction once it has issued (spec 05 R115; 18 R373, R382, R386). -/
def planCell (s : State) : Plan :=
  let s1 := countTurn s
  if turnForced s then .run (.forcedLanding s.cur [] 0) s1
  else match resumeStep s1 with
  | some t => .idle t
  | none =>
    if turnTraps s1 then .run (.asyncTrapDelivery s.cur) s1
    else match fetch s1 with
      | .got p hi =>
        let s2 := s1.modMe fun c => { c with parcels := some (p, hi) }
        (match decode p hi with
        | .instr i _ => .run i s2
        | .illegal _ len w => .run (.illegalInstruction len w) s2)
      | .stop r len => .idle (commit len r)

/-- The turn of a core: its rotation's next ready member, after a rotation boundary where the rotation is over. -/
def planTurn (s : State) (core : Nat) : Plan :=
  match nextSlot s core with
  | some sl => planCell (takeTurn s core sl)
  | none =>
    let s1 := rotate s core
    match nextSlot s1 core with
    | some sl => planCell (takeTurn s1 core sl)
    | none => .idle s1

/-- What the dispatch unit may do for a queue: take its next packet, or look again at the one that waits (spec 03 R67, R68; 13 R308). -/
def queueDue (s : State) (key : Nat) : List Instr :=
  let part := key / 64
  let q := key % 64
  match (s.queue key).busy with
  | .waitsig _ => [.waitsigSatisfied part q]
  | .waits => [.unload part q, .fencePacket part q]
  | .none => if takeable s key then [.launchPacket part q, .waitsig part q, .setsig part q, .loadPacket part q, .unload part q, .fencePacket part q] else []
  | _ => []

/-- A cell that waits on the word of a peer, which nothing but a reread can see change (spec 13 R308; 14 R316). -/
def rereadDue (c : Nat) (v : Cell) : List Instr :=
  match v.run with
  | .parked (.signal k _) => if 2 ^ 62 ≤ k then [.waitReread (.cell c)] else []
  | _ => []

/-- What may be due for the copies of a core's engine. -/
def copyDue (s : State) (core : Nat) (k : Core) : List Instr :=
  k.copies.zipIdx.flatMap fun e =>
    [.frameSlotReserve core e.2, .copyWaggleDelivered core e.2, .copyComplete core e.2, .copyStart core e.2]
    ++ ((copyRefusal s core e.1).map (Instr.copyFailure core e.2)).toList

/-- Steps of the device that may be due: results, lines, requests and replies, accesses at their homes, the units of the cores, saves,
hand-overs, completions, moves and quiesces that can end, unloaded objects, packets and placement (log 1). -/
def due (s : State) : List Instr :=
  let cells := s.cells.map (·.1)
  let gangs := s.gangs.map (·.1)
  let cores := s.cores.map (·.1)
  (cells.map fun c => Instr.feWriteback c 0) ++ (cells.map Instr.icacheFillDone)
  ++ (s.remotes.map fun e => Instr.remoteAccessArrival e.1) ++ (s.remotes.map fun e => Instr.remoteReply e.1)
  ++ (s.posted.map fun p => Instr.accessPerformedAtHome p.cell 0)
  ++ (cores.map fun k => Instr.vectorInstructionComplete k 0) ++ (cores.map Instr.mopaOperandsConsumed)
  ++ (cores.map Instr.matrixInstructionComplete)
  ++ (cores.map Instr.leaseQuantumExpiry) ++ (cores.map Instr.leaseAcquire)
  ++ (s.cores.flatMap fun e => copyDue s e.1 e.2)
  ++ (if s.cows.isEmpty then [] else [Instr.cowCopyDone 0])
  ++ (cells.map Instr.icinvAcknowledged) ++ (gangs.map Instr.gangSaveDone) ++ (gangs.map Instr.heirHandover)
  ++ (s.launches.map fun e => Instr.launchComplete e.1)
  ++ (if s.move.isSome then [Instr.hmoveComplete] else []) ++ [Instr.quiesceDone]
  ++ (s.objects.flatMap fun e => [Instr.generationUnmap e.1, Instr.objectRangeRelease e.1])
  ++ (s.cells.flatMap fun e => rereadDue e.1 e.2) ++ (s.queues.flatMap fun e => queueDue s e.1)
  ++ (if s.gangs.isEmpty && s.groups.isEmpty then [] else (List.range 4).map Instr.placement)

/-- A step of the device changes the state. -/
def moves (s : State) (i : Instr) : Bool :=
  match exec i s with
  | .next t => decide (t ≠ s)
  | _ => false

/-- The core that has a turn where the agenda names none: the current cell's, or the first with a ready cell. -/
def turnCore (s : State) : Nat :=
  let k := coreOf s.cur
  if (List.range 8).any (slotReady s k) then k
  else ((s.cells.find? fun e => e.2.run == .ready).map fun e => coreOf e.1).getD k

/-- The next act: the agenda's; where the agenda is empty, a step of the device that is due, or a turn. -/
def plan (s : State) : Plan :=
  match s.agenda with
  | .event i :: rest => .run i { s with agenda := rest }
  | .turn core :: rest => planTurn { s with agenda := rest } core
  | .registerRead func off size :: rest => .idle (readRegister func off size { s with agenda := rest })
  | .relaxedWrite func off data :: rest => .idle (relaxedWrite func off data { s with agenda := rest })
  | .heatRead region die :: rest => .idle (heatRead region die { s with agenda := rest })
  | .heatClear region die :: rest => .idle (heatClear region die { s with agenda := rest })
  | [] =>
    match (due s).find? (moves s) with
    | some i => .run i s
    | none => planTurn s (turnCore s)

end

/-! ### A program placed from outside (log 19) -/

/-- The header of the fixture: one cell, 17 units of LS, all four tiles, no hand-off queue, grouping 1, flat seg0. -/
def fixtureHdr : Hdr :=
  { ctl0 := BitVec.ofNat 64 (2 ^ 56 + 17 * 2 ^ 48 + 15 * 2 ^ 40 + 2 ^ 24 + 2 * 64), entry := 0x10000, fmt0 := 0, fmt1 := 0
    args := List.replicate 8 0
    seg := (0, BitVec.ofNat 64 (2 ^ 57 + 15)) :: List.replicate 5 (0, 0) }

/-- One launch of partition 0 with one gang of one cell on core 0, its low gigabyte mapped one to one. -/
def fixture (s : State) : State :=
  let s1 := ((s.setMreg 0x100 (BitVec.ofNat 64 (2 ^ 63 + 2 ^ 16 + 1))).setMreg 0x180 1).setMreg 0 8
  let s2 := ((s1.poke 0x1000 (leBytes (0x2000 + 1) 8)).poke 0x2000 (leBytes (0x3000 + 1) 8)).poke 0x3000 (leBytes 0x7D 8)
  { s2 with
    roots := Tab.put s2.roots 0 0x1000
    launches := Tab.put s2.launches 1 { (default : Launch) with st := .running, part := 0, hdr := fixtureHdr, gangs := 1, start := some 0 }
    groups := Tab.put s2.groups 2 { launch := 1, num := 0, dieGroup := 0, hive := 0, st := .placed }
    gangs := Tab.put s2.gangs 3 { Gang.empty with launch := 1, group := 2, st := .running, cells := [0], hdr := fixtureHdr }
    cells := Tab.put s2.cells 0 { gang := 3, pc := 0x10000 }
    cur := 0, nextId := max s2.nextId 4 }

/-- Where a byte of code that the current cell fetches lies: its translation, or its own address where there is none. -/
def codeAt (s : State) (a : Nat) : Nat :=
  match translate s (hiveOf s.myGang.core) s.myLaunch.asid a with
  | .leaf w _ size => pteAddr w + a % 2 ^ size
  | _ => a % 2 ^ 39

/-- Place bytes at an address in memory, and in the line of the core's instruction cache that holds them. -/
def placeBytes (s : State) (a : Nat) (d : List Byte) : State :=
  let line := lineOf a
  let pa := codeAt s line
  let s1 := s.poke (pa + a % 64) d
  s1.modCore (coreOf s.cur) fun k => { k with icache := iAdd 64 8 0 k.icache { asid := s.myLaunch.asid, line, pa, data := s1.read pa 64 } }

/-- Place bytes where the current cell fetches: in memory, and in the lines of its core's instruction cache. -/
def placeFetch (s : State) (d : List Byte) : State :=
  let core := coreOf s.cur
  let pc := s.me.pc.toNat % 2 ^ 56 / 4 * 4
  let s1 := s.modMe fun c => { c with run := .ready, asyncs := [], turns := 0, pc := BitVec.ofNat 64 pc, parcels := none, reply := none, vrecs := [], barp := none }
  let s2 := placeBytes (placeBytes s1 pc (d.take 4)) (pc + 4) (d.drop 4)
  let s3 := s2.modCore core fun k => { k with barrel := { k.barrel with set := insertNat k.barrel.set (s.cur % 8), pos := s.cur % 8 } }
  { s3 with agenda := [.turn core] }

end Sys2Proof.Machine
end

