-- ==== Sys2Proof/Machine/Step.lean ====
section
/-! DEFINITION. One step of the machine, and a program placed where it fetches. -/

namespace Sys2Proof.Machine

noncomputable section

/-- One step: the agenda's next act, or a turn of the current cell's core; what a turn fetches and decodes is executed. -/
def step (s : State) : Host.Outcome State Fault Refusal :=
  match plan s with
  | .run i s1 => exec i s1
  | .idle s1 => .next s1

end

/-- The state in which the next step fetches and runs the instruction of these bits: a resident current cell is kept, else the
launch of log 19 is placed (it stands for the load of a program from outside). -/
def State.withFetchWord (s : State) (nbits w : Nat) : State :=
  placeFetch (if (Tab.find s.cells s.cur).isSome then s else fixture s) (leBytes (w % 2 ^ nbits) 8)

end Sys2Proof.Machine
end

