-- ==== Sys2Proof/Laws/State.lean ====
section
/-! SUPPORT. One lemma per field per update of the state: a field that an update does not name is what it was. -/

namespace Sys2Proof.Machine

@[simp] theorem State.setCell_agenda (s : State) (c : Nat) (v : Cell) : (s.setCell c v).agenda = s.agenda := rfl
@[simp] theorem State.setCell_cur (s : State) (c : Nat) (v : Cell) : (s.setCell c v).cur = s.cur := rfl
@[simp] theorem State.setCell_freeCtr (s : State) (c : Nat) (v : Cell) : (s.setCell c v).freeCtr = s.freeCtr := rfl
@[simp] theorem State.setCell_nextId (s : State) (c : Nat) (v : Cell) : (s.setCell c v).nextId = s.nextId := rfl
@[simp] theorem State.setCell_qtime (s : State) (c : Nat) (v : Cell) : (s.setCell c v).qtime = s.qtime := rfl
@[simp] theorem State.setCell_gangs (s : State) (c : Nat) (v : Cell) : (s.setCell c v).gangs = s.gangs := rfl
@[simp] theorem State.setCell_groups (s : State) (c : Nat) (v : Cell) : (s.setCell c v).groups = s.groups := rfl
@[simp] theorem State.setCell_launches (s : State) (c : Nat) (v : Cell) : (s.setCell c v).launches = s.launches := rfl
@[simp] theorem State.setCell_queues (s : State) (c : Nat) (v : Cell) : (s.setCell c v).queues = s.queues := rfl
@[simp] theorem State.setCell_objects (s : State) (c : Nat) (v : Cell) : (s.setCell c v).objects = s.objects := rfl
@[simp] theorem State.setCell_pgen (s : State) (c : Nat) (v : Cell) : (s.setCell c v).pgen = s.pgen := rfl
@[simp] theorem State.setCell_broods (s : State) (c : Nat) (v : Cell) : (s.setCell c v).broods = s.broods := rfl
@[simp] theorem State.setCell_bgen (s : State) (c : Nat) (v : Cell) : (s.setCell c v).bgen = s.bgen := rfl
@[simp] theorem State.setCell_mem (s : State) (c : Nat) (v : Cell) : (s.setCell c v).mem = s.mem := rfl
@[simp] theorem State.setCell_empties (s : State) (c : Nat) (v : Cell) : (s.setCell c v).empties = s.empties := rfl
@[simp] theorem State.setCell_rot (s : State) (c : Nat) (v : Cell) : (s.setCell c v).rot = s.rot := rfl
@[simp] theorem State.setCell_refused (s : State) (c : Nat) (v : Cell) : (s.setCell c v).refused = s.refused := rfl
@[simp] theorem State.setCell_feq (s : State) (c : Nat) (v : Cell) : (s.setCell c v).feq = s.feq := rfl
@[simp] theorem State.setCell_wgq (s : State) (c : Nat) (v : Cell) : (s.setCell c v).wgq = s.wgq := rfl
@[simp] theorem State.setCell_heat (s : State) (c : Nat) (v : Cell) : (s.setCell c v).heat = s.heat := rfl
@[simp] theorem State.setCell_cores (s : State) (c : Nat) (v : Cell) : (s.setCell c v).cores = s.cores := rfl
@[simp] theorem State.setCell_hives (s : State) (c : Nat) (v : Cell) : (s.setCell c v).hives = s.hives := rfl
@[simp] theorem State.setCell_dies (s : State) (c : Nat) (v : Cell) : (s.setCell c v).dies = s.dies := rfl
@[simp] theorem State.setCell_roots (s : State) (c : Nat) (v : Cell) : (s.setCell c v).roots = s.roots := rfl
@[simp] theorem State.setCell_posted (s : State) (c : Nat) (v : Cell) : (s.setCell c v).posted = s.posted := rfl
@[simp] theorem State.setCell_remotes (s : State) (c : Nat) (v : Cell) : (s.setCell c v).remotes = s.remotes := rfl
@[simp] theorem State.setCell_faults (s : State) (c : Nat) (v : Cell) : (s.setCell c v).faults = s.faults := rfl
@[simp] theorem State.setCell_cows (s : State) (c : Nat) (v : Cell) : (s.setCell c v).cows = s.cows := rfl
@[simp] theorem State.setCell_bars (s : State) (c : Nat) (v : Cell) : (s.setCell c v).bars = s.bars := rfl
@[simp] theorem State.setCell_hostAccs (s : State) (c : Nat) (v : Cell) : (s.setCell c v).hostAccs = s.hostAccs := rfl
@[simp] theorem State.setCell_comps (s : State) (c : Nat) (v : Cell) : (s.setCell c v).comps = s.comps := rfl
@[simp] theorem State.setCell_mgmt (s : State) (c : Nat) (v : Cell) : (s.setCell c v).mgmt = s.mgmt := rfl
@[simp] theorem State.setCell_budget (s : State) (c : Nat) (v : Cell) : (s.setCell c v).budget = s.budget := rfl
@[simp] theorem State.setCell_move (s : State) (c : Nat) (v : Cell) : (s.setCell c v).move = s.move := rfl
@[simp] theorem State.setCell_share (s : State) (c : Nat) (v : Cell) : (s.setCell c v).share = s.share := rfl
@[simp] theorem State.setCell_slow (s : State) (c : Nat) (v : Cell) : (s.setCell c v).slow = s.slow := rfl
@[simp] theorem State.setCell_quiescing (s : State) (c : Nat) (v : Cell) : (s.setCell c v).quiescing = s.quiescing := rfl
@[simp] theorem State.setCell_faultQ (s : State) (c : Nat) (v : Cell) : (s.setCell c v).faultQ = s.faultQ := rfl
@[simp] theorem State.setCell_funcs (s : State) (c : Nat) (v : Cell) : (s.setCell c v).funcs = s.funcs := rfl
@[simp] theorem State.setCell_vfEnable (s : State) (c : Nat) (v : Cell) : (s.setCell c v).vfEnable = s.vfEnable := rfl
@[simp] theorem State.setCell_numVfs (s : State) (c : Nat) (v : Cell) : (s.setCell c v).numVfs = s.numVfs := rfl
@[simp] theorem State.setCell_cfg (s : State) (c : Nat) (v : Cell) : (s.setCell c v).cfg = s.cfg := rfl
@[simp] theorem State.setCell_spdm (s : State) (c : Nat) (v : Cell) : (s.setCell c v).spdm = s.spdm := rfl
@[simp] theorem State.setCell_hubHash (s : State) (c : Nat) (v : Cell) : (s.setCell c v).hubHash = s.hubHash := rfl
@[simp] theorem State.setCell_dieHash (s : State) (c : Nat) (v : Cell) : (s.setCell c v).dieHash = s.dieHash := rfl
@[simp] theorem State.setCell_alias_ (s : State) (c : Nat) (v : Cell) : (s.setCell c v).alias_ = s.alias_ := rfl
@[simp] theorem State.setCell_links (s : State) (c : Nat) (v : Cell) : (s.setCell c v).links = s.links := rfl
@[simp] theorem State.setCell_stations (s : State) (c : Nat) (v : Cell) : (s.setCell c v).stations = s.stations := rfl
@[simp] theorem State.setCell_lost (s : State) (c : Nat) (v : Cell) : (s.setCell c v).lost = s.lost := rfl
@[simp] theorem State.setCell_out (s : State) (c : Nat) (v : Cell) : (s.setCell c v).out = s.out := rfl
@[simp] theorem State.setCell_slotSeq (s : State) (c : Nat) (v : Cell) : (s.setCell c v).slotSeq = s.slotSeq := rfl
@[simp] theorem State.setCell_stamp (s : State) (c : Nat) (v : Cell) : (s.setCell c v).stamp = s.stamp := rfl
@[simp] theorem State.setCell_hist (s : State) (c : Nat) (v : Cell) : (s.setCell c v).hist = s.hist := rfl
@[simp] theorem State.setCell_rels (s : State) (c : Nat) (v : Cell) : (s.setCell c v).rels = s.rels := rfl

@[simp] theorem State.modCell_agenda (s : State) (c : Nat) (f : Cell → Cell) : (s.modCell c f).agenda = s.agenda := rfl
@[simp] theorem State.modCell_cur (s : State) (c : Nat) (f : Cell → Cell) : (s.modCell c f).cur = s.cur := rfl
@[simp] theorem State.modCell_freeCtr (s : State) (c : Nat) (f : Cell → Cell) : (s.modCell c f).freeCtr = s.freeCtr := rfl
@[simp] theorem State.modCell_nextId (s : State) (c : Nat) (f : Cell → Cell) : (s.modCell c f).nextId = s.nextId := rfl
@[simp] theorem State.modCell_qtime (s : State) (c : Nat) (f : Cell → Cell) : (s.modCell c f).qtime = s.qtime := rfl
@[simp] theorem State.modCell_gangs (s : State) (c : Nat) (f : Cell → Cell) : (s.modCell c f).gangs = s.gangs := rfl
@[simp] theorem State.modCell_groups (s : State) (c : Nat) (f : Cell → Cell) : (s.modCell c f).groups = s.groups := rfl
@[simp] theorem State.modCell_launches (s : State) (c : Nat) (f : Cell → Cell) : (s.modCell c f).launches = s.launches := rfl
@[simp] theorem State.modCell_queues (s : State) (c : Nat) (f : Cell → Cell) : (s.modCell c f).queues = s.queues := rfl
@[simp] theorem State.modCell_objects (s : State) (c : Nat) (f : Cell → Cell) : (s.modCell c f).objects = s.objects := rfl
@[simp] theorem State.modCell_pgen (s : State) (c : Nat) (f : Cell → Cell) : (s.modCell c f).pgen = s.pgen := rfl
@[simp] theorem State.modCell_broods (s : State) (c : Nat) (f : Cell → Cell) : (s.modCell c f).broods = s.broods := rfl
@[simp] theorem State.modCell_bgen (s : State) (c : Nat) (f : Cell → Cell) : (s.modCell c f).bgen = s.bgen := rfl
@[simp] theorem State.modCell_mem (s : State) (c : Nat) (f : Cell → Cell) : (s.modCell c f).mem = s.mem := rfl
@[simp] theorem State.modCell_empties (s : State) (c : Nat) (f : Cell → Cell) : (s.modCell c f).empties = s.empties := rfl
@[simp] theorem State.modCell_rot (s : State) (c : Nat) (f : Cell → Cell) : (s.modCell c f).rot = s.rot := rfl
@[simp] theorem State.modCell_refused (s : State) (c : Nat) (f : Cell → Cell) : (s.modCell c f).refused = s.refused := rfl
@[simp] theorem State.modCell_feq (s : State) (c : Nat) (f : Cell → Cell) : (s.modCell c f).feq = s.feq := rfl
@[simp] theorem State.modCell_wgq (s : State) (c : Nat) (f : Cell → Cell) : (s.modCell c f).wgq = s.wgq := rfl
@[simp] theorem State.modCell_heat (s : State) (c : Nat) (f : Cell → Cell) : (s.modCell c f).heat = s.heat := rfl
@[simp] theorem State.modCell_cores (s : State) (c : Nat) (f : Cell → Cell) : (s.modCell c f).cores = s.cores := rfl
@[simp] theorem State.modCell_hives (s : State) (c : Nat) (f : Cell → Cell) : (s.modCell c f).hives = s.hives := rfl
@[simp] theorem State.modCell_dies (s : State) (c : Nat) (f : Cell → Cell) : (s.modCell c f).dies = s.dies := rfl
@[simp] theorem State.modCell_roots (s : State) (c : Nat) (f : Cell → Cell) : (s.modCell c f).roots = s.roots := rfl
@[simp] theorem State.modCell_posted (s : State) (c : Nat) (f : Cell → Cell) : (s.modCell c f).posted = s.posted := rfl
@[simp] theorem State.modCell_remotes (s : State) (c : Nat) (f : Cell → Cell) : (s.modCell c f).remotes = s.remotes := rfl
@[simp] theorem State.modCell_faults (s : State) (c : Nat) (f : Cell → Cell) : (s.modCell c f).faults = s.faults := rfl
@[simp] theorem State.modCell_cows (s : State) (c : Nat) (f : Cell → Cell) : (s.modCell c f).cows = s.cows := rfl
@[simp] theorem State.modCell_bars (s : State) (c : Nat) (f : Cell → Cell) : (s.modCell c f).bars = s.bars := rfl
@[simp] theorem State.modCell_hostAccs (s : State) (c : Nat) (f : Cell → Cell) : (s.modCell c f).hostAccs = s.hostAccs := rfl
@[simp] theorem State.modCell_comps (s : State) (c : Nat) (f : Cell → Cell) : (s.modCell c f).comps = s.comps := rfl
@[simp] theorem State.modCell_mgmt (s : State) (c : Nat) (f : Cell → Cell) : (s.modCell c f).mgmt = s.mgmt := rfl
@[simp] theorem State.modCell_budget (s : State) (c : Nat) (f : Cell → Cell) : (s.modCell c f).budget = s.budget := rfl
@[simp] theorem State.modCell_move (s : State) (c : Nat) (f : Cell → Cell) : (s.modCell c f).move = s.move := rfl
@[simp] theorem State.modCell_share (s : State) (c : Nat) (f : Cell → Cell) : (s.modCell c f).share = s.share := rfl
@[simp] theorem State.modCell_slow (s : State) (c : Nat) (f : Cell → Cell) : (s.modCell c f).slow = s.slow := rfl
@[simp] theorem State.modCell_quiescing (s : State) (c : Nat) (f : Cell → Cell) : (s.modCell c f).quiescing = s.quiescing := rfl
@[simp] theorem State.modCell_faultQ (s : State) (c : Nat) (f : Cell → Cell) : (s.modCell c f).faultQ = s.faultQ := rfl
@[simp] theorem State.modCell_funcs (s : State) (c : Nat) (f : Cell → Cell) : (s.modCell c f).funcs = s.funcs := rfl
@[simp] theorem State.modCell_vfEnable (s : State) (c : Nat) (f : Cell → Cell) : (s.modCell c f).vfEnable = s.vfEnable := rfl
@[simp] theorem State.modCell_numVfs (s : State) (c : Nat) (f : Cell → Cell) : (s.modCell c f).numVfs = s.numVfs := rfl
@[simp] theorem State.modCell_cfg (s : State) (c : Nat) (f : Cell → Cell) : (s.modCell c f).cfg = s.cfg := rfl
@[simp] theorem State.modCell_spdm (s : State) (c : Nat) (f : Cell → Cell) : (s.modCell c f).spdm = s.spdm := rfl
@[simp] theorem State.modCell_hubHash (s : State) (c : Nat) (f : Cell → Cell) : (s.modCell c f).hubHash = s.hubHash := rfl
@[simp] theorem State.modCell_dieHash (s : State) (c : Nat) (f : Cell → Cell) : (s.modCell c f).dieHash = s.dieHash := rfl
@[simp] theorem State.modCell_alias_ (s : State) (c : Nat) (f : Cell → Cell) : (s.modCell c f).alias_ = s.alias_ := rfl
@[simp] theorem State.modCell_links (s : State) (c : Nat) (f : Cell → Cell) : (s.modCell c f).links = s.links := rfl
@[simp] theorem State.modCell_stations (s : State) (c : Nat) (f : Cell → Cell) : (s.modCell c f).stations = s.stations := rfl
@[simp] theorem State.modCell_lost (s : State) (c : Nat) (f : Cell → Cell) : (s.modCell c f).lost = s.lost := rfl
@[simp] theorem State.modCell_out (s : State) (c : Nat) (f : Cell → Cell) : (s.modCell c f).out = s.out := rfl
@[simp] theorem State.modCell_slotSeq (s : State) (c : Nat) (f : Cell → Cell) : (s.modCell c f).slotSeq = s.slotSeq := rfl
@[simp] theorem State.modCell_stamp (s : State) (c : Nat) (f : Cell → Cell) : (s.modCell c f).stamp = s.stamp := rfl
@[simp] theorem State.modCell_hist (s : State) (c : Nat) (f : Cell → Cell) : (s.modCell c f).hist = s.hist := rfl
@[simp] theorem State.modCell_rels (s : State) (c : Nat) (f : Cell → Cell) : (s.modCell c f).rels = s.rels := rfl

@[simp] theorem State.modMe_agenda (s : State) (f : Cell → Cell) : (s.modMe f).agenda = s.agenda := rfl
@[simp] theorem State.modMe_cur (s : State) (f : Cell → Cell) : (s.modMe f).cur = s.cur := rfl
@[simp] theorem State.modMe_freeCtr (s : State) (f : Cell → Cell) : (s.modMe f).freeCtr = s.freeCtr := rfl
@[simp] theorem State.modMe_nextId (s : State) (f : Cell → Cell) : (s.modMe f).nextId = s.nextId := rfl
@[simp] theorem State.modMe_qtime (s : State) (f : Cell → Cell) : (s.modMe f).qtime = s.qtime := rfl
@[simp] theorem State.modMe_gangs (s : State) (f : Cell → Cell) : (s.modMe f).gangs = s.gangs := rfl
@[simp] theorem State.modMe_groups (s : State) (f : Cell → Cell) : (s.modMe f).groups = s.groups := rfl
@[simp] theorem State.modMe_launches (s : State) (f : Cell → Cell) : (s.modMe f).launches = s.launches := rfl
@[simp] theorem State.modMe_queues (s : State) (f : Cell → Cell) : (s.modMe f).queues = s.queues := rfl
@[simp] theorem State.modMe_objects (s : State) (f : Cell → Cell) : (s.modMe f).objects = s.objects := rfl
@[simp] theorem State.modMe_pgen (s : State) (f : Cell → Cell) : (s.modMe f).pgen = s.pgen := rfl
@[simp] theorem State.modMe_broods (s : State) (f : Cell → Cell) : (s.modMe f).broods = s.broods := rfl
@[simp] theorem State.modMe_bgen (s : State) (f : Cell → Cell) : (s.modMe f).bgen = s.bgen := rfl
@[simp] theorem State.modMe_mem (s : State) (f : Cell → Cell) : (s.modMe f).mem = s.mem := rfl
@[simp] theorem State.modMe_empties (s : State) (f : Cell → Cell) : (s.modMe f).empties = s.empties := rfl
@[simp] theorem State.modMe_rot (s : State) (f : Cell → Cell) : (s.modMe f).rot = s.rot := rfl
@[simp] theorem State.modMe_refused (s : State) (f : Cell → Cell) : (s.modMe f).refused = s.refused := rfl
@[simp] theorem State.modMe_feq (s : State) (f : Cell → Cell) : (s.modMe f).feq = s.feq := rfl
@[simp] theorem State.modMe_wgq (s : State) (f : Cell → Cell) : (s.modMe f).wgq = s.wgq := rfl
@[simp] theorem State.modMe_heat (s : State) (f : Cell → Cell) : (s.modMe f).heat = s.heat := rfl
@[simp] theorem State.modMe_cores (s : State) (f : Cell → Cell) : (s.modMe f).cores = s.cores := rfl
@[simp] theorem State.modMe_hives (s : State) (f : Cell → Cell) : (s.modMe f).hives = s.hives := rfl
@[simp] theorem State.modMe_dies (s : State) (f : Cell → Cell) : (s.modMe f).dies = s.dies := rfl
@[simp] theorem State.modMe_roots (s : State) (f : Cell → Cell) : (s.modMe f).roots = s.roots := rfl
@[simp] theorem State.modMe_posted (s : State) (f : Cell → Cell) : (s.modMe f).posted = s.posted := rfl
@[simp] theorem State.modMe_remotes (s : State) (f : Cell → Cell) : (s.modMe f).remotes = s.remotes := rfl
@[simp] theorem State.modMe_faults (s : State) (f : Cell → Cell) : (s.modMe f).faults = s.faults := rfl
@[simp] theorem State.modMe_cows (s : State) (f : Cell → Cell) : (s.modMe f).cows = s.cows := rfl
@[simp] theorem State.modMe_bars (s : State) (f : Cell → Cell) : (s.modMe f).bars = s.bars := rfl
@[simp] theorem State.modMe_hostAccs (s : State) (f : Cell → Cell) : (s.modMe f).hostAccs = s.hostAccs := rfl
@[simp] theorem State.modMe_comps (s : State) (f : Cell → Cell) : (s.modMe f).comps = s.comps := rfl
@[simp] theorem State.modMe_mgmt (s : State) (f : Cell → Cell) : (s.modMe f).mgmt = s.mgmt := rfl
@[simp] theorem State.modMe_budget (s : State) (f : Cell → Cell) : (s.modMe f).budget = s.budget := rfl
@[simp] theorem State.modMe_move (s : State) (f : Cell → Cell) : (s.modMe f).move = s.move := rfl
@[simp] theorem State.modMe_share (s : State) (f : Cell → Cell) : (s.modMe f).share = s.share := rfl
@[simp] theorem State.modMe_slow (s : State) (f : Cell → Cell) : (s.modMe f).slow = s.slow := rfl
@[simp] theorem State.modMe_quiescing (s : State) (f : Cell → Cell) : (s.modMe f).quiescing = s.quiescing := rfl
@[simp] theorem State.modMe_faultQ (s : State) (f : Cell → Cell) : (s.modMe f).faultQ = s.faultQ := rfl
@[simp] theorem State.modMe_funcs (s : State) (f : Cell → Cell) : (s.modMe f).funcs = s.funcs := rfl
@[simp] theorem State.modMe_vfEnable (s : State) (f : Cell → Cell) : (s.modMe f).vfEnable = s.vfEnable := rfl
@[simp] theorem State.modMe_numVfs (s : State) (f : Cell → Cell) : (s.modMe f).numVfs = s.numVfs := rfl
@[simp] theorem State.modMe_cfg (s : State) (f : Cell → Cell) : (s.modMe f).cfg = s.cfg := rfl
@[simp] theorem State.modMe_spdm (s : State) (f : Cell → Cell) : (s.modMe f).spdm = s.spdm := rfl
@[simp] theorem State.modMe_hubHash (s : State) (f : Cell → Cell) : (s.modMe f).hubHash = s.hubHash := rfl
@[simp] theorem State.modMe_dieHash (s : State) (f : Cell → Cell) : (s.modMe f).dieHash = s.dieHash := rfl
@[simp] theorem State.modMe_alias_ (s : State) (f : Cell → Cell) : (s.modMe f).alias_ = s.alias_ := rfl
@[simp] theorem State.modMe_links (s : State) (f : Cell → Cell) : (s.modMe f).links = s.links := rfl
@[simp] theorem State.modMe_stations (s : State) (f : Cell → Cell) : (s.modMe f).stations = s.stations := rfl
@[simp] theorem State.modMe_lost (s : State) (f : Cell → Cell) : (s.modMe f).lost = s.lost := rfl
@[simp] theorem State.modMe_out (s : State) (f : Cell → Cell) : (s.modMe f).out = s.out := rfl
@[simp] theorem State.modMe_slotSeq (s : State) (f : Cell → Cell) : (s.modMe f).slotSeq = s.slotSeq := rfl
@[simp] theorem State.modMe_stamp (s : State) (f : Cell → Cell) : (s.modMe f).stamp = s.stamp := rfl
@[simp] theorem State.modMe_hist (s : State) (f : Cell → Cell) : (s.modMe f).hist = s.hist := rfl
@[simp] theorem State.modMe_rels (s : State) (f : Cell → Cell) : (s.modMe f).rels = s.rels := rfl

@[simp] theorem State.modGang_agenda (s : State) (g : Nat) (f : Gang → Gang) : (s.modGang g f).agenda = s.agenda := rfl
@[simp] theorem State.modGang_cur (s : State) (g : Nat) (f : Gang → Gang) : (s.modGang g f).cur = s.cur := rfl
@[simp] theorem State.modGang_freeCtr (s : State) (g : Nat) (f : Gang → Gang) : (s.modGang g f).freeCtr = s.freeCtr := rfl
@[simp] theorem State.modGang_nextId (s : State) (g : Nat) (f : Gang → Gang) : (s.modGang g f).nextId = s.nextId := rfl
@[simp] theorem State.modGang_qtime (s : State) (g : Nat) (f : Gang → Gang) : (s.modGang g f).qtime = s.qtime := rfl
@[simp] theorem State.modGang_cells (s : State) (g : Nat) (f : Gang → Gang) : (s.modGang g f).cells = s.cells := rfl
@[simp] theorem State.modGang_groups (s : State) (g : Nat) (f : Gang → Gang) : (s.modGang g f).groups = s.groups := rfl
@[simp] theorem State.modGang_launches (s : State) (g : Nat) (f : Gang → Gang) : (s.modGang g f).launches = s.launches := rfl
@[simp] theorem State.modGang_queues (s : State) (g : Nat) (f : Gang → Gang) : (s.modGang g f).queues = s.queues := rfl
@[simp] theorem State.modGang_objects (s : State) (g : Nat) (f : Gang → Gang) : (s.modGang g f).objects = s.objects := rfl
@[simp] theorem State.modGang_pgen (s : State) (g : Nat) (f : Gang → Gang) : (s.modGang g f).pgen = s.pgen := rfl
@[simp] theorem State.modGang_broods (s : State) (g : Nat) (f : Gang → Gang) : (s.modGang g f).broods = s.broods := rfl
@[simp] theorem State.modGang_bgen (s : State) (g : Nat) (f : Gang → Gang) : (s.modGang g f).bgen = s.bgen := rfl
@[simp] theorem State.modGang_mem (s : State) (g : Nat) (f : Gang → Gang) : (s.modGang g f).mem = s.mem := rfl
@[simp] theorem State.modGang_empties (s : State) (g : Nat) (f : Gang → Gang) : (s.modGang g f).empties = s.empties := rfl
@[simp] theorem State.modGang_rot (s : State) (g : Nat) (f : Gang → Gang) : (s.modGang g f).rot = s.rot := rfl
@[simp] theorem State.modGang_refused (s : State) (g : Nat) (f : Gang → Gang) : (s.modGang g f).refused = s.refused := rfl
@[simp] theorem State.modGang_feq (s : State) (g : Nat) (f : Gang → Gang) : (s.modGang g f).feq = s.feq := rfl
@[simp] theorem State.modGang_wgq (s : State) (g : Nat) (f : Gang → Gang) : (s.modGang g f).wgq = s.wgq := rfl
@[simp] theorem State.modGang_heat (s : State) (g : Nat) (f : Gang → Gang) : (s.modGang g f).heat = s.heat := rfl
@[simp] theorem State.modGang_cores (s : State) (g : Nat) (f : Gang → Gang) : (s.modGang g f).cores = s.cores := rfl
@[simp] theorem State.modGang_hives (s : State) (g : Nat) (f : Gang → Gang) : (s.modGang g f).hives = s.hives := rfl
@[simp] theorem State.modGang_dies (s : State) (g : Nat) (f : Gang → Gang) : (s.modGang g f).dies = s.dies := rfl
@[simp] theorem State.modGang_roots (s : State) (g : Nat) (f : Gang → Gang) : (s.modGang g f).roots = s.roots := rfl
@[simp] theorem State.modGang_posted (s : State) (g : Nat) (f : Gang → Gang) : (s.modGang g f).posted = s.posted := rfl
@[simp] theorem State.modGang_remotes (s : State) (g : Nat) (f : Gang → Gang) : (s.modGang g f).remotes = s.remotes := rfl
@[simp] theorem State.modGang_faults (s : State) (g : Nat) (f : Gang → Gang) : (s.modGang g f).faults = s.faults := rfl
@[simp] theorem State.modGang_cows (s : State) (g : Nat) (f : Gang → Gang) : (s.modGang g f).cows = s.cows := rfl
@[simp] theorem State.modGang_bars (s : State) (g : Nat) (f : Gang → Gang) : (s.modGang g f).bars = s.bars := rfl
@[simp] theorem State.modGang_hostAccs (s : State) (g : Nat) (f : Gang → Gang) : (s.modGang g f).hostAccs = s.hostAccs := rfl
@[simp] theorem State.modGang_comps (s : State) (g : Nat) (f : Gang → Gang) : (s.modGang g f).comps = s.comps := rfl
@[simp] theorem State.modGang_mgmt (s : State) (g : Nat) (f : Gang → Gang) : (s.modGang g f).mgmt = s.mgmt := rfl
@[simp] theorem State.modGang_budget (s : State) (g : Nat) (f : Gang → Gang) : (s.modGang g f).budget = s.budget := rfl
@[simp] theorem State.modGang_move (s : State) (g : Nat) (f : Gang → Gang) : (s.modGang g f).move = s.move := rfl
@[simp] theorem State.modGang_share (s : State) (g : Nat) (f : Gang → Gang) : (s.modGang g f).share = s.share := rfl
@[simp] theorem State.modGang_slow (s : State) (g : Nat) (f : Gang → Gang) : (s.modGang g f).slow = s.slow := rfl
@[simp] theorem State.modGang_quiescing (s : State) (g : Nat) (f : Gang → Gang) : (s.modGang g f).quiescing = s.quiescing := rfl
@[simp] theorem State.modGang_faultQ (s : State) (g : Nat) (f : Gang → Gang) : (s.modGang g f).faultQ = s.faultQ := rfl
@[simp] theorem State.modGang_funcs (s : State) (g : Nat) (f : Gang → Gang) : (s.modGang g f).funcs = s.funcs := rfl
@[simp] theorem State.modGang_vfEnable (s : State) (g : Nat) (f : Gang → Gang) : (s.modGang g f).vfEnable = s.vfEnable := rfl
@[simp] theorem State.modGang_numVfs (s : State) (g : Nat) (f : Gang → Gang) : (s.modGang g f).numVfs = s.numVfs := rfl
@[simp] theorem State.modGang_cfg (s : State) (g : Nat) (f : Gang → Gang) : (s.modGang g f).cfg = s.cfg := rfl
@[simp] theorem State.modGang_spdm (s : State) (g : Nat) (f : Gang → Gang) : (s.modGang g f).spdm = s.spdm := rfl
@[simp] theorem State.modGang_hubHash (s : State) (g : Nat) (f : Gang → Gang) : (s.modGang g f).hubHash = s.hubHash := rfl
@[simp] theorem State.modGang_dieHash (s : State) (g : Nat) (f : Gang → Gang) : (s.modGang g f).dieHash = s.dieHash := rfl
@[simp] theorem State.modGang_alias_ (s : State) (g : Nat) (f : Gang → Gang) : (s.modGang g f).alias_ = s.alias_ := rfl
@[simp] theorem State.modGang_links (s : State) (g : Nat) (f : Gang → Gang) : (s.modGang g f).links = s.links := rfl
@[simp] theorem State.modGang_stations (s : State) (g : Nat) (f : Gang → Gang) : (s.modGang g f).stations = s.stations := rfl
@[simp] theorem State.modGang_lost (s : State) (g : Nat) (f : Gang → Gang) : (s.modGang g f).lost = s.lost := rfl
@[simp] theorem State.modGang_out (s : State) (g : Nat) (f : Gang → Gang) : (s.modGang g f).out = s.out := rfl
@[simp] theorem State.modGang_slotSeq (s : State) (g : Nat) (f : Gang → Gang) : (s.modGang g f).slotSeq = s.slotSeq := rfl
@[simp] theorem State.modGang_stamp (s : State) (g : Nat) (f : Gang → Gang) : (s.modGang g f).stamp = s.stamp := rfl
@[simp] theorem State.modGang_hist (s : State) (g : Nat) (f : Gang → Gang) : (s.modGang g f).hist = s.hist := rfl
@[simp] theorem State.modGang_rels (s : State) (g : Nat) (f : Gang → Gang) : (s.modGang g f).rels = s.rels := rfl

@[simp] theorem State.modLaunch_agenda (s : State) (l : Nat) (f : Launch → Launch) : (s.modLaunch l f).agenda = s.agenda := rfl
@[simp] theorem State.modLaunch_cur (s : State) (l : Nat) (f : Launch → Launch) : (s.modLaunch l f).cur = s.cur := rfl
@[simp] theorem State.modLaunch_freeCtr (s : State) (l : Nat) (f : Launch → Launch) : (s.modLaunch l f).freeCtr = s.freeCtr := rfl
@[simp] theorem State.modLaunch_nextId (s : State) (l : Nat) (f : Launch → Launch) : (s.modLaunch l f).nextId = s.nextId := rfl
@[simp] theorem State.modLaunch_qtime (s : State) (l : Nat) (f : Launch → Launch) : (s.modLaunch l f).qtime = s.qtime := rfl
@[simp] theorem State.modLaunch_cells (s : State) (l : Nat) (f : Launch → Launch) : (s.modLaunch l f).cells = s.cells := rfl
@[simp] theorem State.modLaunch_gangs (s : State) (l : Nat) (f : Launch → Launch) : (s.modLaunch l f).gangs = s.gangs := rfl
@[simp] theorem State.modLaunch_groups (s : State) (l : Nat) (f : Launch → Launch) : (s.modLaunch l f).groups = s.groups := rfl
@[simp] theorem State.modLaunch_queues (s : State) (l : Nat) (f : Launch → Launch) : (s.modLaunch l f).queues = s.queues := rfl
@[simp] theorem State.modLaunch_objects (s : State) (l : Nat) (f : Launch → Launch) : (s.modLaunch l f).objects = s.objects := rfl
@[simp] theorem State.modLaunch_pgen (s : State) (l : Nat) (f : Launch → Launch) : (s.modLaunch l f).pgen = s.pgen := rfl
@[simp] theorem State.modLaunch_broods (s : State) (l : Nat) (f : Launch → Launch) : (s.modLaunch l f).broods = s.broods := rfl
@[simp] theorem State.modLaunch_bgen (s : State) (l : Nat) (f : Launch → Launch) : (s.modLaunch l f).bgen = s.bgen := rfl
@[simp] theorem State.modLaunch_mem (s : State) (l : Nat) (f : Launch → Launch) : (s.modLaunch l f).mem = s.mem := rfl
@[simp] theorem State.modLaunch_empties (s : State) (l : Nat) (f : Launch → Launch) : (s.modLaunch l f).empties = s.empties := rfl
@[simp] theorem State.modLaunch_rot (s : State) (l : Nat) (f : Launch → Launch) : (s.modLaunch l f).rot = s.rot := rfl
@[simp] theorem State.modLaunch_refused (s : State) (l : Nat) (f : Launch → Launch) : (s.modLaunch l f).refused = s.refused := rfl
@[simp] theorem State.modLaunch_feq (s : State) (l : Nat) (f : Launch → Launch) : (s.modLaunch l f).feq = s.feq := rfl
@[simp] theorem State.modLaunch_wgq (s : State) (l : Nat) (f : Launch → Launch) : (s.modLaunch l f).wgq = s.wgq := rfl
@[simp] theorem State.modLaunch_heat (s : State) (l : Nat) (f : Launch → Launch) : (s.modLaunch l f).heat = s.heat := rfl
@[simp] theorem State.modLaunch_cores (s : State) (l : Nat) (f : Launch → Launch) : (s.modLaunch l f).cores = s.cores := rfl
@[simp] theorem State.modLaunch_hives (s : State) (l : Nat) (f : Launch → Launch) : (s.modLaunch l f).hives = s.hives := rfl
@[simp] theorem State.modLaunch_dies (s : State) (l : Nat) (f : Launch → Launch) : (s.modLaunch l f).dies = s.dies := rfl
@[simp] theorem State.modLaunch_roots (s : State) (l : Nat) (f : Launch → Launch) : (s.modLaunch l f).roots = s.roots := rfl
@[simp] theorem State.modLaunch_posted (s : State) (l : Nat) (f : Launch → Launch) : (s.modLaunch l f).posted = s.posted := rfl
@[simp] theorem State.modLaunch_remotes (s : State) (l : Nat) (f : Launch → Launch) : (s.modLaunch l f).remotes = s.remotes := rfl
@[simp] theorem State.modLaunch_faults (s : State) (l : Nat) (f : Launch → Launch) : (s.modLaunch l f).faults = s.faults := rfl
@[simp] theorem State.modLaunch_cows (s : State) (l : Nat) (f : Launch → Launch) : (s.modLaunch l f).cows = s.cows := rfl
@[simp] theorem State.modLaunch_bars (s : State) (l : Nat) (f : Launch → Launch) : (s.modLaunch l f).bars = s.bars := rfl
@[simp] theorem State.modLaunch_hostAccs (s : State) (l : Nat) (f : Launch → Launch) : (s.modLaunch l f).hostAccs = s.hostAccs := rfl
@[simp] theorem State.modLaunch_comps (s : State) (l : Nat) (f : Launch → Launch) : (s.modLaunch l f).comps = s.comps := rfl
@[simp] theorem State.modLaunch_mgmt (s : State) (l : Nat) (f : Launch → Launch) : (s.modLaunch l f).mgmt = s.mgmt := rfl
@[simp] theorem State.modLaunch_budget (s : State) (l : Nat) (f : Launch → Launch) : (s.modLaunch l f).budget = s.budget := rfl
@[simp] theorem State.modLaunch_move (s : State) (l : Nat) (f : Launch → Launch) : (s.modLaunch l f).move = s.move := rfl
@[simp] theorem State.modLaunch_share (s : State) (l : Nat) (f : Launch → Launch) : (s.modLaunch l f).share = s.share := rfl
@[simp] theorem State.modLaunch_slow (s : State) (l : Nat) (f : Launch → Launch) : (s.modLaunch l f).slow = s.slow := rfl
@[simp] theorem State.modLaunch_quiescing (s : State) (l : Nat) (f : Launch → Launch) : (s.modLaunch l f).quiescing = s.quiescing := rfl
@[simp] theorem State.modLaunch_faultQ (s : State) (l : Nat) (f : Launch → Launch) : (s.modLaunch l f).faultQ = s.faultQ := rfl
@[simp] theorem State.modLaunch_funcs (s : State) (l : Nat) (f : Launch → Launch) : (s.modLaunch l f).funcs = s.funcs := rfl
@[simp] theorem State.modLaunch_vfEnable (s : State) (l : Nat) (f : Launch → Launch) : (s.modLaunch l f).vfEnable = s.vfEnable := rfl
@[simp] theorem State.modLaunch_numVfs (s : State) (l : Nat) (f : Launch → Launch) : (s.modLaunch l f).numVfs = s.numVfs := rfl
@[simp] theorem State.modLaunch_cfg (s : State) (l : Nat) (f : Launch → Launch) : (s.modLaunch l f).cfg = s.cfg := rfl
@[simp] theorem State.modLaunch_spdm (s : State) (l : Nat) (f : Launch → Launch) : (s.modLaunch l f).spdm = s.spdm := rfl
@[simp] theorem State.modLaunch_hubHash (s : State) (l : Nat) (f : Launch → Launch) : (s.modLaunch l f).hubHash = s.hubHash := rfl
@[simp] theorem State.modLaunch_dieHash (s : State) (l : Nat) (f : Launch → Launch) : (s.modLaunch l f).dieHash = s.dieHash := rfl
@[simp] theorem State.modLaunch_alias_ (s : State) (l : Nat) (f : Launch → Launch) : (s.modLaunch l f).alias_ = s.alias_ := rfl
@[simp] theorem State.modLaunch_links (s : State) (l : Nat) (f : Launch → Launch) : (s.modLaunch l f).links = s.links := rfl
@[simp] theorem State.modLaunch_stations (s : State) (l : Nat) (f : Launch → Launch) : (s.modLaunch l f).stations = s.stations := rfl
@[simp] theorem State.modLaunch_lost (s : State) (l : Nat) (f : Launch → Launch) : (s.modLaunch l f).lost = s.lost := rfl
@[simp] theorem State.modLaunch_out (s : State) (l : Nat) (f : Launch → Launch) : (s.modLaunch l f).out = s.out := rfl
@[simp] theorem State.modLaunch_slotSeq (s : State) (l : Nat) (f : Launch → Launch) : (s.modLaunch l f).slotSeq = s.slotSeq := rfl
@[simp] theorem State.modLaunch_stamp (s : State) (l : Nat) (f : Launch → Launch) : (s.modLaunch l f).stamp = s.stamp := rfl
@[simp] theorem State.modLaunch_hist (s : State) (l : Nat) (f : Launch → Launch) : (s.modLaunch l f).hist = s.hist := rfl
@[simp] theorem State.modLaunch_rels (s : State) (l : Nat) (f : Launch → Launch) : (s.modLaunch l f).rels = s.rels := rfl

@[simp] theorem State.modCore_agenda (s : State) (k : Nat) (f : Core → Core) : (s.modCore k f).agenda = s.agenda := rfl
@[simp] theorem State.modCore_cur (s : State) (k : Nat) (f : Core → Core) : (s.modCore k f).cur = s.cur := rfl
@[simp] theorem State.modCore_freeCtr (s : State) (k : Nat) (f : Core → Core) : (s.modCore k f).freeCtr = s.freeCtr := rfl
@[simp] theorem State.modCore_nextId (s : State) (k : Nat) (f : Core → Core) : (s.modCore k f).nextId = s.nextId := rfl
@[simp] theorem State.modCore_qtime (s : State) (k : Nat) (f : Core → Core) : (s.modCore k f).qtime = s.qtime := rfl
@[simp] theorem State.modCore_cells (s : State) (k : Nat) (f : Core → Core) : (s.modCore k f).cells = s.cells := rfl
@[simp] theorem State.modCore_gangs (s : State) (k : Nat) (f : Core → Core) : (s.modCore k f).gangs = s.gangs := rfl
@[simp] theorem State.modCore_groups (s : State) (k : Nat) (f : Core → Core) : (s.modCore k f).groups = s.groups := rfl
@[simp] theorem State.modCore_launches (s : State) (k : Nat) (f : Core → Core) : (s.modCore k f).launches = s.launches := rfl
@[simp] theorem State.modCore_queues (s : State) (k : Nat) (f : Core → Core) : (s.modCore k f).queues = s.queues := rfl
@[simp] theorem State.modCore_objects (s : State) (k : Nat) (f : Core → Core) : (s.modCore k f).objects = s.objects := rfl
@[simp] theorem State.modCore_pgen (s : State) (k : Nat) (f : Core → Core) : (s.modCore k f).pgen = s.pgen := rfl
@[simp] theorem State.modCore_broods (s : State) (k : Nat) (f : Core → Core) : (s.modCore k f).broods = s.broods := rfl
@[simp] theorem State.modCore_bgen (s : State) (k : Nat) (f : Core → Core) : (s.modCore k f).bgen = s.bgen := rfl
@[simp] theorem State.modCore_mem (s : State) (k : Nat) (f : Core → Core) : (s.modCore k f).mem = s.mem := rfl
@[simp] theorem State.modCore_empties (s : State) (k : Nat) (f : Core → Core) : (s.modCore k f).empties = s.empties := rfl
@[simp] theorem State.modCore_rot (s : State) (k : Nat) (f : Core → Core) : (s.modCore k f).rot = s.rot := rfl
@[simp] theorem State.modCore_refused (s : State) (k : Nat) (f : Core → Core) : (s.modCore k f).refused = s.refused := rfl
@[simp] theorem State.modCore_feq (s : State) (k : Nat) (f : Core → Core) : (s.modCore k f).feq = s.feq := rfl
@[simp] theorem State.modCore_wgq (s : State) (k : Nat) (f : Core → Core) : (s.modCore k f).wgq = s.wgq := rfl
@[simp] theorem State.modCore_heat (s : State) (k : Nat) (f : Core → Core) : (s.modCore k f).heat = s.heat := rfl
@[simp] theorem State.modCore_hives (s : State) (k : Nat) (f : Core → Core) : (s.modCore k f).hives = s.hives := rfl
@[simp] theorem State.modCore_dies (s : State) (k : Nat) (f : Core → Core) : (s.modCore k f).dies = s.dies := rfl
@[simp] theorem State.modCore_roots (s : State) (k : Nat) (f : Core → Core) : (s.modCore k f).roots = s.roots := rfl
@[simp] theorem State.modCore_posted (s : State) (k : Nat) (f : Core → Core) : (s.modCore k f).posted = s.posted := rfl
@[simp] theorem State.modCore_remotes (s : State) (k : Nat) (f : Core → Core) : (s.modCore k f).remotes = s.remotes := rfl
@[simp] theorem State.modCore_faults (s : State) (k : Nat) (f : Core → Core) : (s.modCore k f).faults = s.faults := rfl
@[simp] theorem State.modCore_cows (s : State) (k : Nat) (f : Core → Core) : (s.modCore k f).cows = s.cows := rfl
@[simp] theorem State.modCore_bars (s : State) (k : Nat) (f : Core → Core) : (s.modCore k f).bars = s.bars := rfl
@[simp] theorem State.modCore_hostAccs (s : State) (k : Nat) (f : Core → Core) : (s.modCore k f).hostAccs = s.hostAccs := rfl
@[simp] theorem State.modCore_comps (s : State) (k : Nat) (f : Core → Core) : (s.modCore k f).comps = s.comps := rfl
@[simp] theorem State.modCore_mgmt (s : State) (k : Nat) (f : Core → Core) : (s.modCore k f).mgmt = s.mgmt := rfl
@[simp] theorem State.modCore_budget (s : State) (k : Nat) (f : Core → Core) : (s.modCore k f).budget = s.budget := rfl
@[simp] theorem State.modCore_move (s : State) (k : Nat) (f : Core → Core) : (s.modCore k f).move = s.move := rfl
@[simp] theorem State.modCore_share (s : State) (k : Nat) (f : Core → Core) : (s.modCore k f).share = s.share := rfl
@[simp] theorem State.modCore_slow (s : State) (k : Nat) (f : Core → Core) : (s.modCore k f).slow = s.slow := rfl
@[simp] theorem State.modCore_quiescing (s : State) (k : Nat) (f : Core → Core) : (s.modCore k f).quiescing = s.quiescing := rfl
@[simp] theorem State.modCore_faultQ (s : State) (k : Nat) (f : Core → Core) : (s.modCore k f).faultQ = s.faultQ := rfl
@[simp] theorem State.modCore_funcs (s : State) (k : Nat) (f : Core → Core) : (s.modCore k f).funcs = s.funcs := rfl
@[simp] theorem State.modCore_vfEnable (s : State) (k : Nat) (f : Core → Core) : (s.modCore k f).vfEnable = s.vfEnable := rfl
@[simp] theorem State.modCore_numVfs (s : State) (k : Nat) (f : Core → Core) : (s.modCore k f).numVfs = s.numVfs := rfl
@[simp] theorem State.modCore_cfg (s : State) (k : Nat) (f : Core → Core) : (s.modCore k f).cfg = s.cfg := rfl
@[simp] theorem State.modCore_spdm (s : State) (k : Nat) (f : Core → Core) : (s.modCore k f).spdm = s.spdm := rfl
@[simp] theorem State.modCore_hubHash (s : State) (k : Nat) (f : Core → Core) : (s.modCore k f).hubHash = s.hubHash := rfl
@[simp] theorem State.modCore_dieHash (s : State) (k : Nat) (f : Core → Core) : (s.modCore k f).dieHash = s.dieHash := rfl
@[simp] theorem State.modCore_alias_ (s : State) (k : Nat) (f : Core → Core) : (s.modCore k f).alias_ = s.alias_ := rfl
@[simp] theorem State.modCore_links (s : State) (k : Nat) (f : Core → Core) : (s.modCore k f).links = s.links := rfl
@[simp] theorem State.modCore_stations (s : State) (k : Nat) (f : Core → Core) : (s.modCore k f).stations = s.stations := rfl
@[simp] theorem State.modCore_lost (s : State) (k : Nat) (f : Core → Core) : (s.modCore k f).lost = s.lost := rfl
@[simp] theorem State.modCore_out (s : State) (k : Nat) (f : Core → Core) : (s.modCore k f).out = s.out := rfl
@[simp] theorem State.modCore_slotSeq (s : State) (k : Nat) (f : Core → Core) : (s.modCore k f).slotSeq = s.slotSeq := rfl
@[simp] theorem State.modCore_stamp (s : State) (k : Nat) (f : Core → Core) : (s.modCore k f).stamp = s.stamp := rfl
@[simp] theorem State.modCore_hist (s : State) (k : Nat) (f : Core → Core) : (s.modCore k f).hist = s.hist := rfl
@[simp] theorem State.modCore_rels (s : State) (k : Nat) (f : Core → Core) : (s.modCore k f).rels = s.rels := rfl

@[simp] theorem State.modHive_agenda (s : State) (h : Nat) (f : Hive → Hive) : (s.modHive h f).agenda = s.agenda := rfl
@[simp] theorem State.modHive_cur (s : State) (h : Nat) (f : Hive → Hive) : (s.modHive h f).cur = s.cur := rfl
@[simp] theorem State.modHive_freeCtr (s : State) (h : Nat) (f : Hive → Hive) : (s.modHive h f).freeCtr = s.freeCtr := rfl
@[simp] theorem State.modHive_nextId (s : State) (h : Nat) (f : Hive → Hive) : (s.modHive h f).nextId = s.nextId := rfl
@[simp] theorem State.modHive_qtime (s : State) (h : Nat) (f : Hive → Hive) : (s.modHive h f).qtime = s.qtime := rfl
@[simp] theorem State.modHive_cells (s : State) (h : Nat) (f : Hive → Hive) : (s.modHive h f).cells = s.cells := rfl
@[simp] theorem State.modHive_gangs (s : State) (h : Nat) (f : Hive → Hive) : (s.modHive h f).gangs = s.gangs := rfl
@[simp] theorem State.modHive_groups (s : State) (h : Nat) (f : Hive → Hive) : (s.modHive h f).groups = s.groups := rfl
@[simp] theorem State.modHive_launches (s : State) (h : Nat) (f : Hive → Hive) : (s.modHive h f).launches = s.launches := rfl
@[simp] theorem State.modHive_queues (s : State) (h : Nat) (f : Hive → Hive) : (s.modHive h f).queues = s.queues := rfl
@[simp] theorem State.modHive_objects (s : State) (h : Nat) (f : Hive → Hive) : (s.modHive h f).objects = s.objects := rfl
@[simp] theorem State.modHive_pgen (s : State) (h : Nat) (f : Hive → Hive) : (s.modHive h f).pgen = s.pgen := rfl
@[simp] theorem State.modHive_broods (s : State) (h : Nat) (f : Hive → Hive) : (s.modHive h f).broods = s.broods := rfl
@[simp] theorem State.modHive_bgen (s : State) (h : Nat) (f : Hive → Hive) : (s.modHive h f).bgen = s.bgen := rfl
@[simp] theorem State.modHive_mem (s : State) (h : Nat) (f : Hive → Hive) : (s.modHive h f).mem = s.mem := rfl
@[simp] theorem State.modHive_empties (s : State) (h : Nat) (f : Hive → Hive) : (s.modHive h f).empties = s.empties := rfl
@[simp] theorem State.modHive_rot (s : State) (h : Nat) (f : Hive → Hive) : (s.modHive h f).rot = s.rot := rfl
@[simp] theorem State.modHive_refused (s : State) (h : Nat) (f : Hive → Hive) : (s.modHive h f).refused = s.refused := rfl
@[simp] theorem State.modHive_feq (s : State) (h : Nat) (f : Hive → Hive) : (s.modHive h f).feq = s.feq := rfl
@[simp] theorem State.modHive_wgq (s : State) (h : Nat) (f : Hive → Hive) : (s.modHive h f).wgq = s.wgq := rfl
@[simp] theorem State.modHive_heat (s : State) (h : Nat) (f : Hive → Hive) : (s.modHive h f).heat = s.heat := rfl
@[simp] theorem State.modHive_cores (s : State) (h : Nat) (f : Hive → Hive) : (s.modHive h f).cores = s.cores := rfl
@[simp] theorem State.modHive_dies (s : State) (h : Nat) (f : Hive → Hive) : (s.modHive h f).dies = s.dies := rfl
@[simp] theorem State.modHive_roots (s : State) (h : Nat) (f : Hive → Hive) : (s.modHive h f).roots = s.roots := rfl
@[simp] theorem State.modHive_posted (s : State) (h : Nat) (f : Hive → Hive) : (s.modHive h f).posted = s.posted := rfl
@[simp] theorem State.modHive_remotes (s : State) (h : Nat) (f : Hive → Hive) : (s.modHive h f).remotes = s.remotes := rfl
@[simp] theorem State.modHive_faults (s : State) (h : Nat) (f : Hive → Hive) : (s.modHive h f).faults = s.faults := rfl
@[simp] theorem State.modHive_cows (s : State) (h : Nat) (f : Hive → Hive) : (s.modHive h f).cows = s.cows := rfl
@[simp] theorem State.modHive_bars (s : State) (h : Nat) (f : Hive → Hive) : (s.modHive h f).bars = s.bars := rfl
@[simp] theorem State.modHive_hostAccs (s : State) (h : Nat) (f : Hive → Hive) : (s.modHive h f).hostAccs = s.hostAccs := rfl
@[simp] theorem State.modHive_comps (s : State) (h : Nat) (f : Hive → Hive) : (s.modHive h f).comps = s.comps := rfl
@[simp] theorem State.modHive_mgmt (s : State) (h : Nat) (f : Hive → Hive) : (s.modHive h f).mgmt = s.mgmt := rfl
@[simp] theorem State.modHive_budget (s : State) (h : Nat) (f : Hive → Hive) : (s.modHive h f).budget = s.budget := rfl
@[simp] theorem State.modHive_move (s : State) (h : Nat) (f : Hive → Hive) : (s.modHive h f).move = s.move := rfl
@[simp] theorem State.modHive_share (s : State) (h : Nat) (f : Hive → Hive) : (s.modHive h f).share = s.share := rfl
@[simp] theorem State.modHive_slow (s : State) (h : Nat) (f : Hive → Hive) : (s.modHive h f).slow = s.slow := rfl
@[simp] theorem State.modHive_quiescing (s : State) (h : Nat) (f : Hive → Hive) : (s.modHive h f).quiescing = s.quiescing := rfl
@[simp] theorem State.modHive_faultQ (s : State) (h : Nat) (f : Hive → Hive) : (s.modHive h f).faultQ = s.faultQ := rfl
@[simp] theorem State.modHive_funcs (s : State) (h : Nat) (f : Hive → Hive) : (s.modHive h f).funcs = s.funcs := rfl
@[simp] theorem State.modHive_vfEnable (s : State) (h : Nat) (f : Hive → Hive) : (s.modHive h f).vfEnable = s.vfEnable := rfl
@[simp] theorem State.modHive_numVfs (s : State) (h : Nat) (f : Hive → Hive) : (s.modHive h f).numVfs = s.numVfs := rfl
@[simp] theorem State.modHive_cfg (s : State) (h : Nat) (f : Hive → Hive) : (s.modHive h f).cfg = s.cfg := rfl
@[simp] theorem State.modHive_spdm (s : State) (h : Nat) (f : Hive → Hive) : (s.modHive h f).spdm = s.spdm := rfl
@[simp] theorem State.modHive_hubHash (s : State) (h : Nat) (f : Hive → Hive) : (s.modHive h f).hubHash = s.hubHash := rfl
@[simp] theorem State.modHive_dieHash (s : State) (h : Nat) (f : Hive → Hive) : (s.modHive h f).dieHash = s.dieHash := rfl
@[simp] theorem State.modHive_alias_ (s : State) (h : Nat) (f : Hive → Hive) : (s.modHive h f).alias_ = s.alias_ := rfl
@[simp] theorem State.modHive_links (s : State) (h : Nat) (f : Hive → Hive) : (s.modHive h f).links = s.links := rfl
@[simp] theorem State.modHive_stations (s : State) (h : Nat) (f : Hive → Hive) : (s.modHive h f).stations = s.stations := rfl
@[simp] theorem State.modHive_lost (s : State) (h : Nat) (f : Hive → Hive) : (s.modHive h f).lost = s.lost := rfl
@[simp] theorem State.modHive_out (s : State) (h : Nat) (f : Hive → Hive) : (s.modHive h f).out = s.out := rfl
@[simp] theorem State.modHive_slotSeq (s : State) (h : Nat) (f : Hive → Hive) : (s.modHive h f).slotSeq = s.slotSeq := rfl
@[simp] theorem State.modHive_stamp (s : State) (h : Nat) (f : Hive → Hive) : (s.modHive h f).stamp = s.stamp := rfl
@[simp] theorem State.modHive_hist (s : State) (h : Nat) (f : Hive → Hive) : (s.modHive h f).hist = s.hist := rfl
@[simp] theorem State.modHive_rels (s : State) (h : Nat) (f : Hive → Hive) : (s.modHive h f).rels = s.rels := rfl

@[simp] theorem State.modDie_agenda (s : State) (d : Nat) (f : Die → Die) : (s.modDie d f).agenda = s.agenda := rfl
@[simp] theorem State.modDie_cur (s : State) (d : Nat) (f : Die → Die) : (s.modDie d f).cur = s.cur := rfl
@[simp] theorem State.modDie_freeCtr (s : State) (d : Nat) (f : Die → Die) : (s.modDie d f).freeCtr = s.freeCtr := rfl
@[simp] theorem State.modDie_nextId (s : State) (d : Nat) (f : Die → Die) : (s.modDie d f).nextId = s.nextId := rfl
@[simp] theorem State.modDie_qtime (s : State) (d : Nat) (f : Die → Die) : (s.modDie d f).qtime = s.qtime := rfl
@[simp] theorem State.modDie_cells (s : State) (d : Nat) (f : Die → Die) : (s.modDie d f).cells = s.cells := rfl
@[simp] theorem State.modDie_gangs (s : State) (d : Nat) (f : Die → Die) : (s.modDie d f).gangs = s.gangs := rfl
@[simp] theorem State.modDie_groups (s : State) (d : Nat) (f : Die → Die) : (s.modDie d f).groups = s.groups := rfl
@[simp] theorem State.modDie_launches (s : State) (d : Nat) (f : Die → Die) : (s.modDie d f).launches = s.launches := rfl
@[simp] theorem State.modDie_queues (s : State) (d : Nat) (f : Die → Die) : (s.modDie d f).queues = s.queues := rfl
@[simp] theorem State.modDie_objects (s : State) (d : Nat) (f : Die → Die) : (s.modDie d f).objects = s.objects := rfl
@[simp] theorem State.modDie_pgen (s : State) (d : Nat) (f : Die → Die) : (s.modDie d f).pgen = s.pgen := rfl
@[simp] theorem State.modDie_broods (s : State) (d : Nat) (f : Die → Die) : (s.modDie d f).broods = s.broods := rfl
@[simp] theorem State.modDie_bgen (s : State) (d : Nat) (f : Die → Die) : (s.modDie d f).bgen = s.bgen := rfl
@[simp] theorem State.modDie_mem (s : State) (d : Nat) (f : Die → Die) : (s.modDie d f).mem = s.mem := rfl
@[simp] theorem State.modDie_empties (s : State) (d : Nat) (f : Die → Die) : (s.modDie d f).empties = s.empties := rfl
@[simp] theorem State.modDie_rot (s : State) (d : Nat) (f : Die → Die) : (s.modDie d f).rot = s.rot := rfl
@[simp] theorem State.modDie_refused (s : State) (d : Nat) (f : Die → Die) : (s.modDie d f).refused = s.refused := rfl
@[simp] theorem State.modDie_feq (s : State) (d : Nat) (f : Die → Die) : (s.modDie d f).feq = s.feq := rfl
@[simp] theorem State.modDie_wgq (s : State) (d : Nat) (f : Die → Die) : (s.modDie d f).wgq = s.wgq := rfl
@[simp] theorem State.modDie_heat (s : State) (d : Nat) (f : Die → Die) : (s.modDie d f).heat = s.heat := rfl
@[simp] theorem State.modDie_cores (s : State) (d : Nat) (f : Die → Die) : (s.modDie d f).cores = s.cores := rfl
@[simp] theorem State.modDie_hives (s : State) (d : Nat) (f : Die → Die) : (s.modDie d f).hives = s.hives := rfl
@[simp] theorem State.modDie_roots (s : State) (d : Nat) (f : Die → Die) : (s.modDie d f).roots = s.roots := rfl
@[simp] theorem State.modDie_posted (s : State) (d : Nat) (f : Die → Die) : (s.modDie d f).posted = s.posted := rfl
@[simp] theorem State.modDie_remotes (s : State) (d : Nat) (f : Die → Die) : (s.modDie d f).remotes = s.remotes := rfl
@[simp] theorem State.modDie_faults (s : State) (d : Nat) (f : Die → Die) : (s.modDie d f).faults = s.faults := rfl
@[simp] theorem State.modDie_cows (s : State) (d : Nat) (f : Die → Die) : (s.modDie d f).cows = s.cows := rfl
@[simp] theorem State.modDie_bars (s : State) (d : Nat) (f : Die → Die) : (s.modDie d f).bars = s.bars := rfl
@[simp] theorem State.modDie_hostAccs (s : State) (d : Nat) (f : Die → Die) : (s.modDie d f).hostAccs = s.hostAccs := rfl
@[simp] theorem State.modDie_comps (s : State) (d : Nat) (f : Die → Die) : (s.modDie d f).comps = s.comps := rfl
@[simp] theorem State.modDie_mgmt (s : State) (d : Nat) (f : Die → Die) : (s.modDie d f).mgmt = s.mgmt := rfl
@[simp] theorem State.modDie_budget (s : State) (d : Nat) (f : Die → Die) : (s.modDie d f).budget = s.budget := rfl
@[simp] theorem State.modDie_move (s : State) (d : Nat) (f : Die → Die) : (s.modDie d f).move = s.move := rfl
@[simp] theorem State.modDie_share (s : State) (d : Nat) (f : Die → Die) : (s.modDie d f).share = s.share := rfl
@[simp] theorem State.modDie_slow (s : State) (d : Nat) (f : Die → Die) : (s.modDie d f).slow = s.slow := rfl
@[simp] theorem State.modDie_quiescing (s : State) (d : Nat) (f : Die → Die) : (s.modDie d f).quiescing = s.quiescing := rfl
@[simp] theorem State.modDie_faultQ (s : State) (d : Nat) (f : Die → Die) : (s.modDie d f).faultQ = s.faultQ := rfl
@[simp] theorem State.modDie_funcs (s : State) (d : Nat) (f : Die → Die) : (s.modDie d f).funcs = s.funcs := rfl
@[simp] theorem State.modDie_vfEnable (s : State) (d : Nat) (f : Die → Die) : (s.modDie d f).vfEnable = s.vfEnable := rfl
@[simp] theorem State.modDie_numVfs (s : State) (d : Nat) (f : Die → Die) : (s.modDie d f).numVfs = s.numVfs := rfl
@[simp] theorem State.modDie_cfg (s : State) (d : Nat) (f : Die → Die) : (s.modDie d f).cfg = s.cfg := rfl
@[simp] theorem State.modDie_spdm (s : State) (d : Nat) (f : Die → Die) : (s.modDie d f).spdm = s.spdm := rfl
@[simp] theorem State.modDie_hubHash (s : State) (d : Nat) (f : Die → Die) : (s.modDie d f).hubHash = s.hubHash := rfl
@[simp] theorem State.modDie_dieHash (s : State) (d : Nat) (f : Die → Die) : (s.modDie d f).dieHash = s.dieHash := rfl
@[simp] theorem State.modDie_alias_ (s : State) (d : Nat) (f : Die → Die) : (s.modDie d f).alias_ = s.alias_ := rfl
@[simp] theorem State.modDie_links (s : State) (d : Nat) (f : Die → Die) : (s.modDie d f).links = s.links := rfl
@[simp] theorem State.modDie_stations (s : State) (d : Nat) (f : Die → Die) : (s.modDie d f).stations = s.stations := rfl
@[simp] theorem State.modDie_lost (s : State) (d : Nat) (f : Die → Die) : (s.modDie d f).lost = s.lost := rfl
@[simp] theorem State.modDie_out (s : State) (d : Nat) (f : Die → Die) : (s.modDie d f).out = s.out := rfl
@[simp] theorem State.modDie_slotSeq (s : State) (d : Nat) (f : Die → Die) : (s.modDie d f).slotSeq = s.slotSeq := rfl
@[simp] theorem State.modDie_stamp (s : State) (d : Nat) (f : Die → Die) : (s.modDie d f).stamp = s.stamp := rfl
@[simp] theorem State.modDie_hist (s : State) (d : Nat) (f : Die → Die) : (s.modDie d f).hist = s.hist := rfl
@[simp] theorem State.modDie_rels (s : State) (d : Nat) (f : Die → Die) : (s.modDie d f).rels = s.rels := rfl

@[simp] theorem State.modQueue_agenda (s : State) (k : Nat) (f : Queue → Queue) : (s.modQueue k f).agenda = s.agenda := rfl
@[simp] theorem State.modQueue_cur (s : State) (k : Nat) (f : Queue → Queue) : (s.modQueue k f).cur = s.cur := rfl
@[simp] theorem State.modQueue_freeCtr (s : State) (k : Nat) (f : Queue → Queue) : (s.modQueue k f).freeCtr = s.freeCtr := rfl
@[simp] theorem State.modQueue_nextId (s : State) (k : Nat) (f : Queue → Queue) : (s.modQueue k f).nextId = s.nextId := rfl
@[simp] theorem State.modQueue_qtime (s : State) (k : Nat) (f : Queue → Queue) : (s.modQueue k f).qtime = s.qtime := rfl
@[simp] theorem State.modQueue_cells (s : State) (k : Nat) (f : Queue → Queue) : (s.modQueue k f).cells = s.cells := rfl
@[simp] theorem State.modQueue_gangs (s : State) (k : Nat) (f : Queue → Queue) : (s.modQueue k f).gangs = s.gangs := rfl
@[simp] theorem State.modQueue_groups (s : State) (k : Nat) (f : Queue → Queue) : (s.modQueue k f).groups = s.groups := rfl
@[simp] theorem State.modQueue_launches (s : State) (k : Nat) (f : Queue → Queue) : (s.modQueue k f).launches = s.launches := rfl
@[simp] theorem State.modQueue_objects (s : State) (k : Nat) (f : Queue → Queue) : (s.modQueue k f).objects = s.objects := rfl
@[simp] theorem State.modQueue_pgen (s : State) (k : Nat) (f : Queue → Queue) : (s.modQueue k f).pgen = s.pgen := rfl
@[simp] theorem State.modQueue_broods (s : State) (k : Nat) (f : Queue → Queue) : (s.modQueue k f).broods = s.broods := rfl
@[simp] theorem State.modQueue_bgen (s : State) (k : Nat) (f : Queue → Queue) : (s.modQueue k f).bgen = s.bgen := rfl
@[simp] theorem State.modQueue_mem (s : State) (k : Nat) (f : Queue → Queue) : (s.modQueue k f).mem = s.mem := rfl
@[simp] theorem State.modQueue_empties (s : State) (k : Nat) (f : Queue → Queue) : (s.modQueue k f).empties = s.empties := rfl
@[simp] theorem State.modQueue_rot (s : State) (k : Nat) (f : Queue → Queue) : (s.modQueue k f).rot = s.rot := rfl
@[simp] theorem State.modQueue_refused (s : State) (k : Nat) (f : Queue → Queue) : (s.modQueue k f).refused = s.refused := rfl
@[simp] theorem State.modQueue_feq (s : State) (k : Nat) (f : Queue → Queue) : (s.modQueue k f).feq = s.feq := rfl
@[simp] theorem State.modQueue_wgq (s : State) (k : Nat) (f : Queue → Queue) : (s.modQueue k f).wgq = s.wgq := rfl
@[simp] theorem State.modQueue_heat (s : State) (k : Nat) (f : Queue → Queue) : (s.modQueue k f).heat = s.heat := rfl
@[simp] theorem State.modQueue_cores (s : State) (k : Nat) (f : Queue → Queue) : (s.modQueue k f).cores = s.cores := rfl
@[simp] theorem State.modQueue_hives (s : State) (k : Nat) (f : Queue → Queue) : (s.modQueue k f).hives = s.hives := rfl
@[simp] theorem State.modQueue_dies (s : State) (k : Nat) (f : Queue → Queue) : (s.modQueue k f).dies = s.dies := rfl
@[simp] theorem State.modQueue_roots (s : State) (k : Nat) (f : Queue → Queue) : (s.modQueue k f).roots = s.roots := rfl
@[simp] theorem State.modQueue_posted (s : State) (k : Nat) (f : Queue → Queue) : (s.modQueue k f).posted = s.posted := rfl
@[simp] theorem State.modQueue_remotes (s : State) (k : Nat) (f : Queue → Queue) : (s.modQueue k f).remotes = s.remotes := rfl
@[simp] theorem State.modQueue_faults (s : State) (k : Nat) (f : Queue → Queue) : (s.modQueue k f).faults = s.faults := rfl
@[simp] theorem State.modQueue_cows (s : State) (k : Nat) (f : Queue → Queue) : (s.modQueue k f).cows = s.cows := rfl
@[simp] theorem State.modQueue_bars (s : State) (k : Nat) (f : Queue → Queue) : (s.modQueue k f).bars = s.bars := rfl
@[simp] theorem State.modQueue_hostAccs (s : State) (k : Nat) (f : Queue → Queue) : (s.modQueue k f).hostAccs = s.hostAccs := rfl
@[simp] theorem State.modQueue_comps (s : State) (k : Nat) (f : Queue → Queue) : (s.modQueue k f).comps = s.comps := rfl
@[simp] theorem State.modQueue_mgmt (s : State) (k : Nat) (f : Queue → Queue) : (s.modQueue k f).mgmt = s.mgmt := rfl
@[simp] theorem State.modQueue_budget (s : State) (k : Nat) (f : Queue → Queue) : (s.modQueue k f).budget = s.budget := rfl
@[simp] theorem State.modQueue_move (s : State) (k : Nat) (f : Queue → Queue) : (s.modQueue k f).move = s.move := rfl
@[simp] theorem State.modQueue_share (s : State) (k : Nat) (f : Queue → Queue) : (s.modQueue k f).share = s.share := rfl
@[simp] theorem State.modQueue_slow (s : State) (k : Nat) (f : Queue → Queue) : (s.modQueue k f).slow = s.slow := rfl
@[simp] theorem State.modQueue_quiescing (s : State) (k : Nat) (f : Queue → Queue) : (s.modQueue k f).quiescing = s.quiescing := rfl
@[simp] theorem State.modQueue_faultQ (s : State) (k : Nat) (f : Queue → Queue) : (s.modQueue k f).faultQ = s.faultQ := rfl
@[simp] theorem State.modQueue_funcs (s : State) (k : Nat) (f : Queue → Queue) : (s.modQueue k f).funcs = s.funcs := rfl
@[simp] theorem State.modQueue_vfEnable (s : State) (k : Nat) (f : Queue → Queue) : (s.modQueue k f).vfEnable = s.vfEnable := rfl
@[simp] theorem State.modQueue_numVfs (s : State) (k : Nat) (f : Queue → Queue) : (s.modQueue k f).numVfs = s.numVfs := rfl
@[simp] theorem State.modQueue_cfg (s : State) (k : Nat) (f : Queue → Queue) : (s.modQueue k f).cfg = s.cfg := rfl
@[simp] theorem State.modQueue_spdm (s : State) (k : Nat) (f : Queue → Queue) : (s.modQueue k f).spdm = s.spdm := rfl
@[simp] theorem State.modQueue_hubHash (s : State) (k : Nat) (f : Queue → Queue) : (s.modQueue k f).hubHash = s.hubHash := rfl
@[simp] theorem State.modQueue_dieHash (s : State) (k : Nat) (f : Queue → Queue) : (s.modQueue k f).dieHash = s.dieHash := rfl
@[simp] theorem State.modQueue_alias_ (s : State) (k : Nat) (f : Queue → Queue) : (s.modQueue k f).alias_ = s.alias_ := rfl
@[simp] theorem State.modQueue_links (s : State) (k : Nat) (f : Queue → Queue) : (s.modQueue k f).links = s.links := rfl
@[simp] theorem State.modQueue_stations (s : State) (k : Nat) (f : Queue → Queue) : (s.modQueue k f).stations = s.stations := rfl
@[simp] theorem State.modQueue_lost (s : State) (k : Nat) (f : Queue → Queue) : (s.modQueue k f).lost = s.lost := rfl
@[simp] theorem State.modQueue_out (s : State) (k : Nat) (f : Queue → Queue) : (s.modQueue k f).out = s.out := rfl
@[simp] theorem State.modQueue_slotSeq (s : State) (k : Nat) (f : Queue → Queue) : (s.modQueue k f).slotSeq = s.slotSeq := rfl
@[simp] theorem State.modQueue_stamp (s : State) (k : Nat) (f : Queue → Queue) : (s.modQueue k f).stamp = s.stamp := rfl
@[simp] theorem State.modQueue_hist (s : State) (k : Nat) (f : Queue → Queue) : (s.modQueue k f).hist = s.hist := rfl
@[simp] theorem State.modQueue_rels (s : State) (k : Nat) (f : Queue → Queue) : (s.modQueue k f).rels = s.rels := rfl

@[simp] theorem State.modFunc_agenda (s : State) (k : Nat) (f : Func → Func) : (s.modFunc k f).agenda = s.agenda := rfl
@[simp] theorem State.modFunc_cur (s : State) (k : Nat) (f : Func → Func) : (s.modFunc k f).cur = s.cur := rfl
@[simp] theorem State.modFunc_freeCtr (s : State) (k : Nat) (f : Func → Func) : (s.modFunc k f).freeCtr = s.freeCtr := rfl
@[simp] theorem State.modFunc_nextId (s : State) (k : Nat) (f : Func → Func) : (s.modFunc k f).nextId = s.nextId := rfl
@[simp] theorem State.modFunc_qtime (s : State) (k : Nat) (f : Func → Func) : (s.modFunc k f).qtime = s.qtime := rfl
@[simp] theorem State.modFunc_cells (s : State) (k : Nat) (f : Func → Func) : (s.modFunc k f).cells = s.cells := rfl
@[simp] theorem State.modFunc_gangs (s : State) (k : Nat) (f : Func → Func) : (s.modFunc k f).gangs = s.gangs := rfl
@[simp] theorem State.modFunc_groups (s : State) (k : Nat) (f : Func → Func) : (s.modFunc k f).groups = s.groups := rfl
@[simp] theorem State.modFunc_launches (s : State) (k : Nat) (f : Func → Func) : (s.modFunc k f).launches = s.launches := rfl
@[simp] theorem State.modFunc_queues (s : State) (k : Nat) (f : Func → Func) : (s.modFunc k f).queues = s.queues := rfl
@[simp] theorem State.modFunc_objects (s : State) (k : Nat) (f : Func → Func) : (s.modFunc k f).objects = s.objects := rfl
@[simp] theorem State.modFunc_pgen (s : State) (k : Nat) (f : Func → Func) : (s.modFunc k f).pgen = s.pgen := rfl
@[simp] theorem State.modFunc_broods (s : State) (k : Nat) (f : Func → Func) : (s.modFunc k f).broods = s.broods := rfl
@[simp] theorem State.modFunc_bgen (s : State) (k : Nat) (f : Func → Func) : (s.modFunc k f).bgen = s.bgen := rfl
@[simp] theorem State.modFunc_mem (s : State) (k : Nat) (f : Func → Func) : (s.modFunc k f).mem = s.mem := rfl
@[simp] theorem State.modFunc_empties (s : State) (k : Nat) (f : Func → Func) : (s.modFunc k f).empties = s.empties := rfl
@[simp] theorem State.modFunc_rot (s : State) (k : Nat) (f : Func → Func) : (s.modFunc k f).rot = s.rot := rfl
@[simp] theorem State.modFunc_refused (s : State) (k : Nat) (f : Func → Func) : (s.modFunc k f).refused = s.refused := rfl
@[simp] theorem State.modFunc_feq (s : State) (k : Nat) (f : Func → Func) : (s.modFunc k f).feq = s.feq := rfl
@[simp] theorem State.modFunc_wgq (s : State) (k : Nat) (f : Func → Func) : (s.modFunc k f).wgq = s.wgq := rfl
@[simp] theorem State.modFunc_heat (s : State) (k : Nat) (f : Func → Func) : (s.modFunc k f).heat = s.heat := rfl
@[simp] theorem State.modFunc_cores (s : State) (k : Nat) (f : Func → Func) : (s.modFunc k f).cores = s.cores := rfl
@[simp] theorem State.modFunc_hives (s : State) (k : Nat) (f : Func → Func) : (s.modFunc k f).hives = s.hives := rfl
@[simp] theorem State.modFunc_dies (s : State) (k : Nat) (f : Func → Func) : (s.modFunc k f).dies = s.dies := rfl
@[simp] theorem State.modFunc_roots (s : State) (k : Nat) (f : Func → Func) : (s.modFunc k f).roots = s.roots := rfl
@[simp] theorem State.modFunc_posted (s : State) (k : Nat) (f : Func → Func) : (s.modFunc k f).posted = s.posted := rfl
@[simp] theorem State.modFunc_remotes (s : State) (k : Nat) (f : Func → Func) : (s.modFunc k f).remotes = s.remotes := rfl
@[simp] theorem State.modFunc_faults (s : State) (k : Nat) (f : Func → Func) : (s.modFunc k f).faults = s.faults := rfl
@[simp] theorem State.modFunc_cows (s : State) (k : Nat) (f : Func → Func) : (s.modFunc k f).cows = s.cows := rfl
@[simp] theorem State.modFunc_bars (s : State) (k : Nat) (f : Func → Func) : (s.modFunc k f).bars = s.bars := rfl
@[simp] theorem State.modFunc_hostAccs (s : State) (k : Nat) (f : Func → Func) : (s.modFunc k f).hostAccs = s.hostAccs := rfl
@[simp] theorem State.modFunc_comps (s : State) (k : Nat) (f : Func → Func) : (s.modFunc k f).comps = s.comps := rfl
@[simp] theorem State.modFunc_mgmt (s : State) (k : Nat) (f : Func → Func) : (s.modFunc k f).mgmt = s.mgmt := rfl
@[simp] theorem State.modFunc_budget (s : State) (k : Nat) (f : Func → Func) : (s.modFunc k f).budget = s.budget := rfl
@[simp] theorem State.modFunc_move (s : State) (k : Nat) (f : Func → Func) : (s.modFunc k f).move = s.move := rfl
@[simp] theorem State.modFunc_share (s : State) (k : Nat) (f : Func → Func) : (s.modFunc k f).share = s.share := rfl
@[simp] theorem State.modFunc_slow (s : State) (k : Nat) (f : Func → Func) : (s.modFunc k f).slow = s.slow := rfl
@[simp] theorem State.modFunc_quiescing (s : State) (k : Nat) (f : Func → Func) : (s.modFunc k f).quiescing = s.quiescing := rfl
@[simp] theorem State.modFunc_faultQ (s : State) (k : Nat) (f : Func → Func) : (s.modFunc k f).faultQ = s.faultQ := rfl
@[simp] theorem State.modFunc_vfEnable (s : State) (k : Nat) (f : Func → Func) : (s.modFunc k f).vfEnable = s.vfEnable := rfl
@[simp] theorem State.modFunc_numVfs (s : State) (k : Nat) (f : Func → Func) : (s.modFunc k f).numVfs = s.numVfs := rfl
@[simp] theorem State.modFunc_cfg (s : State) (k : Nat) (f : Func → Func) : (s.modFunc k f).cfg = s.cfg := rfl
@[simp] theorem State.modFunc_spdm (s : State) (k : Nat) (f : Func → Func) : (s.modFunc k f).spdm = s.spdm := rfl
@[simp] theorem State.modFunc_hubHash (s : State) (k : Nat) (f : Func → Func) : (s.modFunc k f).hubHash = s.hubHash := rfl
@[simp] theorem State.modFunc_dieHash (s : State) (k : Nat) (f : Func → Func) : (s.modFunc k f).dieHash = s.dieHash := rfl
@[simp] theorem State.modFunc_alias_ (s : State) (k : Nat) (f : Func → Func) : (s.modFunc k f).alias_ = s.alias_ := rfl
@[simp] theorem State.modFunc_links (s : State) (k : Nat) (f : Func → Func) : (s.modFunc k f).links = s.links := rfl
@[simp] theorem State.modFunc_stations (s : State) (k : Nat) (f : Func → Func) : (s.modFunc k f).stations = s.stations := rfl
@[simp] theorem State.modFunc_lost (s : State) (k : Nat) (f : Func → Func) : (s.modFunc k f).lost = s.lost := rfl
@[simp] theorem State.modFunc_out (s : State) (k : Nat) (f : Func → Func) : (s.modFunc k f).out = s.out := rfl
@[simp] theorem State.modFunc_slotSeq (s : State) (k : Nat) (f : Func → Func) : (s.modFunc k f).slotSeq = s.slotSeq := rfl
@[simp] theorem State.modFunc_stamp (s : State) (k : Nat) (f : Func → Func) : (s.modFunc k f).stamp = s.stamp := rfl
@[simp] theorem State.modFunc_hist (s : State) (k : Nat) (f : Func → Func) : (s.modFunc k f).hist = s.hist := rfl
@[simp] theorem State.modFunc_rels (s : State) (k : Nat) (f : Func → Func) : (s.modFunc k f).rels = s.rels := rfl

@[simp] theorem State.modLink_agenda (s : State) (k : Nat) (f : LinkEnd → LinkEnd) : (s.modLink k f).agenda = s.agenda := rfl
@[simp] theorem State.modLink_cur (s : State) (k : Nat) (f : LinkEnd → LinkEnd) : (s.modLink k f).cur = s.cur := rfl
@[simp] theorem State.modLink_freeCtr (s : State) (k : Nat) (f : LinkEnd → LinkEnd) : (s.modLink k f).freeCtr = s.freeCtr := rfl
@[simp] theorem State.modLink_nextId (s : State) (k : Nat) (f : LinkEnd → LinkEnd) : (s.modLink k f).nextId = s.nextId := rfl
@[simp] theorem State.modLink_qtime (s : State) (k : Nat) (f : LinkEnd → LinkEnd) : (s.modLink k f).qtime = s.qtime := rfl
@[simp] theorem State.modLink_cells (s : State) (k : Nat) (f : LinkEnd → LinkEnd) : (s.modLink k f).cells = s.cells := rfl
@[simp] theorem State.modLink_gangs (s : State) (k : Nat) (f : LinkEnd → LinkEnd) : (s.modLink k f).gangs = s.gangs := rfl
@[simp] theorem State.modLink_groups (s : State) (k : Nat) (f : LinkEnd → LinkEnd) : (s.modLink k f).groups = s.groups := rfl
@[simp] theorem State.modLink_launches (s : State) (k : Nat) (f : LinkEnd → LinkEnd) : (s.modLink k f).launches = s.launches := rfl
@[simp] theorem State.modLink_queues (s : State) (k : Nat) (f : LinkEnd → LinkEnd) : (s.modLink k f).queues = s.queues := rfl
@[simp] theorem State.modLink_objects (s : State) (k : Nat) (f : LinkEnd → LinkEnd) : (s.modLink k f).objects = s.objects := rfl
@[simp] theorem State.modLink_pgen (s : State) (k : Nat) (f : LinkEnd → LinkEnd) : (s.modLink k f).pgen = s.pgen := rfl
@[simp] theorem State.modLink_broods (s : State) (k : Nat) (f : LinkEnd → LinkEnd) : (s.modLink k f).broods = s.broods := rfl
@[simp] theorem State.modLink_bgen (s : State) (k : Nat) (f : LinkEnd → LinkEnd) : (s.modLink k f).bgen = s.bgen := rfl
@[simp] theorem State.modLink_mem (s : State) (k : Nat) (f : LinkEnd → LinkEnd) : (s.modLink k f).mem = s.mem := rfl
@[simp] theorem State.modLink_empties (s : State) (k : Nat) (f : LinkEnd → LinkEnd) : (s.modLink k f).empties = s.empties := rfl
@[simp] theorem State.modLink_rot (s : State) (k : Nat) (f : LinkEnd → LinkEnd) : (s.modLink k f).rot = s.rot := rfl
@[simp] theorem State.modLink_refused (s : State) (k : Nat) (f : LinkEnd → LinkEnd) : (s.modLink k f).refused = s.refused := rfl
@[simp] theorem State.modLink_feq (s : State) (k : Nat) (f : LinkEnd → LinkEnd) : (s.modLink k f).feq = s.feq := rfl
@[simp] theorem State.modLink_wgq (s : State) (k : Nat) (f : LinkEnd → LinkEnd) : (s.modLink k f).wgq = s.wgq := rfl
@[simp] theorem State.modLink_heat (s : State) (k : Nat) (f : LinkEnd → LinkEnd) : (s.modLink k f).heat = s.heat := rfl
@[simp] theorem State.modLink_cores (s : State) (k : Nat) (f : LinkEnd → LinkEnd) : (s.modLink k f).cores = s.cores := rfl
@[simp] theorem State.modLink_hives (s : State) (k : Nat) (f : LinkEnd → LinkEnd) : (s.modLink k f).hives = s.hives := rfl
@[simp] theorem State.modLink_dies (s : State) (k : Nat) (f : LinkEnd → LinkEnd) : (s.modLink k f).dies = s.dies := rfl
@[simp] theorem State.modLink_roots (s : State) (k : Nat) (f : LinkEnd → LinkEnd) : (s.modLink k f).roots = s.roots := rfl
@[simp] theorem State.modLink_posted (s : State) (k : Nat) (f : LinkEnd → LinkEnd) : (s.modLink k f).posted = s.posted := rfl
@[simp] theorem State.modLink_remotes (s : State) (k : Nat) (f : LinkEnd → LinkEnd) : (s.modLink k f).remotes = s.remotes := rfl
@[simp] theorem State.modLink_faults (s : State) (k : Nat) (f : LinkEnd → LinkEnd) : (s.modLink k f).faults = s.faults := rfl
@[simp] theorem State.modLink_cows (s : State) (k : Nat) (f : LinkEnd → LinkEnd) : (s.modLink k f).cows = s.cows := rfl
@[simp] theorem State.modLink_bars (s : State) (k : Nat) (f : LinkEnd → LinkEnd) : (s.modLink k f).bars = s.bars := rfl
@[simp] theorem State.modLink_hostAccs (s : State) (k : Nat) (f : LinkEnd → LinkEnd) : (s.modLink k f).hostAccs = s.hostAccs := rfl
@[simp] theorem State.modLink_comps (s : State) (k : Nat) (f : LinkEnd → LinkEnd) : (s.modLink k f).comps = s.comps := rfl
@[simp] theorem State.modLink_mgmt (s : State) (k : Nat) (f : LinkEnd → LinkEnd) : (s.modLink k f).mgmt = s.mgmt := rfl
@[simp] theorem State.modLink_budget (s : State) (k : Nat) (f : LinkEnd → LinkEnd) : (s.modLink k f).budget = s.budget := rfl
@[simp] theorem State.modLink_move (s : State) (k : Nat) (f : LinkEnd → LinkEnd) : (s.modLink k f).move = s.move := rfl
@[simp] theorem State.modLink_share (s : State) (k : Nat) (f : LinkEnd → LinkEnd) : (s.modLink k f).share = s.share := rfl
@[simp] theorem State.modLink_slow (s : State) (k : Nat) (f : LinkEnd → LinkEnd) : (s.modLink k f).slow = s.slow := rfl
@[simp] theorem State.modLink_quiescing (s : State) (k : Nat) (f : LinkEnd → LinkEnd) : (s.modLink k f).quiescing = s.quiescing := rfl
@[simp] theorem State.modLink_faultQ (s : State) (k : Nat) (f : LinkEnd → LinkEnd) : (s.modLink k f).faultQ = s.faultQ := rfl
@[simp] theorem State.modLink_funcs (s : State) (k : Nat) (f : LinkEnd → LinkEnd) : (s.modLink k f).funcs = s.funcs := rfl
@[simp] theorem State.modLink_vfEnable (s : State) (k : Nat) (f : LinkEnd → LinkEnd) : (s.modLink k f).vfEnable = s.vfEnable := rfl
@[simp] theorem State.modLink_numVfs (s : State) (k : Nat) (f : LinkEnd → LinkEnd) : (s.modLink k f).numVfs = s.numVfs := rfl
@[simp] theorem State.modLink_cfg (s : State) (k : Nat) (f : LinkEnd → LinkEnd) : (s.modLink k f).cfg = s.cfg := rfl
@[simp] theorem State.modLink_spdm (s : State) (k : Nat) (f : LinkEnd → LinkEnd) : (s.modLink k f).spdm = s.spdm := rfl
@[simp] theorem State.modLink_hubHash (s : State) (k : Nat) (f : LinkEnd → LinkEnd) : (s.modLink k f).hubHash = s.hubHash := rfl
@[simp] theorem State.modLink_dieHash (s : State) (k : Nat) (f : LinkEnd → LinkEnd) : (s.modLink k f).dieHash = s.dieHash := rfl
@[simp] theorem State.modLink_alias_ (s : State) (k : Nat) (f : LinkEnd → LinkEnd) : (s.modLink k f).alias_ = s.alias_ := rfl
@[simp] theorem State.modLink_stations (s : State) (k : Nat) (f : LinkEnd → LinkEnd) : (s.modLink k f).stations = s.stations := rfl
@[simp] theorem State.modLink_lost (s : State) (k : Nat) (f : LinkEnd → LinkEnd) : (s.modLink k f).lost = s.lost := rfl
@[simp] theorem State.modLink_out (s : State) (k : Nat) (f : LinkEnd → LinkEnd) : (s.modLink k f).out = s.out := rfl
@[simp] theorem State.modLink_slotSeq (s : State) (k : Nat) (f : LinkEnd → LinkEnd) : (s.modLink k f).slotSeq = s.slotSeq := rfl
@[simp] theorem State.modLink_stamp (s : State) (k : Nat) (f : LinkEnd → LinkEnd) : (s.modLink k f).stamp = s.stamp := rfl
@[simp] theorem State.modLink_hist (s : State) (k : Nat) (f : LinkEnd → LinkEnd) : (s.modLink k f).hist = s.hist := rfl
@[simp] theorem State.modLink_rels (s : State) (k : Nat) (f : LinkEnd → LinkEnd) : (s.modLink k f).rels = s.rels := rfl

@[simp] theorem State.modStation_agenda (s : State) (k : Nat) (f : Station → Station) : (s.modStation k f).agenda = s.agenda := rfl
@[simp] theorem State.modStation_cur (s : State) (k : Nat) (f : Station → Station) : (s.modStation k f).cur = s.cur := rfl
@[simp] theorem State.modStation_freeCtr (s : State) (k : Nat) (f : Station → Station) : (s.modStation k f).freeCtr = s.freeCtr := rfl
@[simp] theorem State.modStation_nextId (s : State) (k : Nat) (f : Station → Station) : (s.modStation k f).nextId = s.nextId := rfl
@[simp] theorem State.modStation_qtime (s : State) (k : Nat) (f : Station → Station) : (s.modStation k f).qtime = s.qtime := rfl
@[simp] theorem State.modStation_cells (s : State) (k : Nat) (f : Station → Station) : (s.modStation k f).cells = s.cells := rfl
@[simp] theorem State.modStation_gangs (s : State) (k : Nat) (f : Station → Station) : (s.modStation k f).gangs = s.gangs := rfl
@[simp] theorem State.modStation_groups (s : State) (k : Nat) (f : Station → Station) : (s.modStation k f).groups = s.groups := rfl
@[simp] theorem State.modStation_launches (s : State) (k : Nat) (f : Station → Station) : (s.modStation k f).launches = s.launches := rfl
@[simp] theorem State.modStation_queues (s : State) (k : Nat) (f : Station → Station) : (s.modStation k f).queues = s.queues := rfl
@[simp] theorem State.modStation_objects (s : State) (k : Nat) (f : Station → Station) : (s.modStation k f).objects = s.objects := rfl
@[simp] theorem State.modStation_pgen (s : State) (k : Nat) (f : Station → Station) : (s.modStation k f).pgen = s.pgen := rfl
@[simp] theorem State.modStation_broods (s : State) (k : Nat) (f : Station → Station) : (s.modStation k f).broods = s.broods := rfl
@[simp] theorem State.modStation_bgen (s : State) (k : Nat) (f : Station → Station) : (s.modStation k f).bgen = s.bgen := rfl
@[simp] theorem State.modStation_mem (s : State) (k : Nat) (f : Station → Station) : (s.modStation k f).mem = s.mem := rfl
@[simp] theorem State.modStation_empties (s : State) (k : Nat) (f : Station → Station) : (s.modStation k f).empties = s.empties := rfl
@[simp] theorem State.modStation_rot (s : State) (k : Nat) (f : Station → Station) : (s.modStation k f).rot = s.rot := rfl
@[simp] theorem State.modStation_refused (s : State) (k : Nat) (f : Station → Station) : (s.modStation k f).refused = s.refused := rfl
@[simp] theorem State.modStation_feq (s : State) (k : Nat) (f : Station → Station) : (s.modStation k f).feq = s.feq := rfl
@[simp] theorem State.modStation_wgq (s : State) (k : Nat) (f : Station → Station) : (s.modStation k f).wgq = s.wgq := rfl
@[simp] theorem State.modStation_heat (s : State) (k : Nat) (f : Station → Station) : (s.modStation k f).heat = s.heat := rfl
@[simp] theorem State.modStation_cores (s : State) (k : Nat) (f : Station → Station) : (s.modStation k f).cores = s.cores := rfl
@[simp] theorem State.modStation_hives (s : State) (k : Nat) (f : Station → Station) : (s.modStation k f).hives = s.hives := rfl
@[simp] theorem State.modStation_dies (s : State) (k : Nat) (f : Station → Station) : (s.modStation k f).dies = s.dies := rfl
@[simp] theorem State.modStation_roots (s : State) (k : Nat) (f : Station → Station) : (s.modStation k f).roots = s.roots := rfl
@[simp] theorem State.modStation_posted (s : State) (k : Nat) (f : Station → Station) : (s.modStation k f).posted = s.posted := rfl
@[simp] theorem State.modStation_remotes (s : State) (k : Nat) (f : Station → Station) : (s.modStation k f).remotes = s.remotes := rfl
@[simp] theorem State.modStation_faults (s : State) (k : Nat) (f : Station → Station) : (s.modStation k f).faults = s.faults := rfl
@[simp] theorem State.modStation_cows (s : State) (k : Nat) (f : Station → Station) : (s.modStation k f).cows = s.cows := rfl
@[simp] theorem State.modStation_bars (s : State) (k : Nat) (f : Station → Station) : (s.modStation k f).bars = s.bars := rfl
@[simp] theorem State.modStation_hostAccs (s : State) (k : Nat) (f : Station → Station) : (s.modStation k f).hostAccs = s.hostAccs := rfl
@[simp] theorem State.modStation_comps (s : State) (k : Nat) (f : Station → Station) : (s.modStation k f).comps = s.comps := rfl
@[simp] theorem State.modStation_mgmt (s : State) (k : Nat) (f : Station → Station) : (s.modStation k f).mgmt = s.mgmt := rfl
@[simp] theorem State.modStation_budget (s : State) (k : Nat) (f : Station → Station) : (s.modStation k f).budget = s.budget := rfl
@[simp] theorem State.modStation_move (s : State) (k : Nat) (f : Station → Station) : (s.modStation k f).move = s.move := rfl
@[simp] theorem State.modStation_share (s : State) (k : Nat) (f : Station → Station) : (s.modStation k f).share = s.share := rfl
@[simp] theorem State.modStation_slow (s : State) (k : Nat) (f : Station → Station) : (s.modStation k f).slow = s.slow := rfl
@[simp] theorem State.modStation_quiescing (s : State) (k : Nat) (f : Station → Station) : (s.modStation k f).quiescing = s.quiescing := rfl
@[simp] theorem State.modStation_faultQ (s : State) (k : Nat) (f : Station → Station) : (s.modStation k f).faultQ = s.faultQ := rfl
@[simp] theorem State.modStation_funcs (s : State) (k : Nat) (f : Station → Station) : (s.modStation k f).funcs = s.funcs := rfl
@[simp] theorem State.modStation_vfEnable (s : State) (k : Nat) (f : Station → Station) : (s.modStation k f).vfEnable = s.vfEnable := rfl
@[simp] theorem State.modStation_numVfs (s : State) (k : Nat) (f : Station → Station) : (s.modStation k f).numVfs = s.numVfs := rfl
@[simp] theorem State.modStation_cfg (s : State) (k : Nat) (f : Station → Station) : (s.modStation k f).cfg = s.cfg := rfl
@[simp] theorem State.modStation_spdm (s : State) (k : Nat) (f : Station → Station) : (s.modStation k f).spdm = s.spdm := rfl
@[simp] theorem State.modStation_hubHash (s : State) (k : Nat) (f : Station → Station) : (s.modStation k f).hubHash = s.hubHash := rfl
@[simp] theorem State.modStation_dieHash (s : State) (k : Nat) (f : Station → Station) : (s.modStation k f).dieHash = s.dieHash := rfl
@[simp] theorem State.modStation_alias_ (s : State) (k : Nat) (f : Station → Station) : (s.modStation k f).alias_ = s.alias_ := rfl
@[simp] theorem State.modStation_links (s : State) (k : Nat) (f : Station → Station) : (s.modStation k f).links = s.links := rfl
@[simp] theorem State.modStation_lost (s : State) (k : Nat) (f : Station → Station) : (s.modStation k f).lost = s.lost := rfl
@[simp] theorem State.modStation_out (s : State) (k : Nat) (f : Station → Station) : (s.modStation k f).out = s.out := rfl
@[simp] theorem State.modStation_slotSeq (s : State) (k : Nat) (f : Station → Station) : (s.modStation k f).slotSeq = s.slotSeq := rfl
@[simp] theorem State.modStation_stamp (s : State) (k : Nat) (f : Station → Station) : (s.modStation k f).stamp = s.stamp := rfl
@[simp] theorem State.modStation_hist (s : State) (k : Nat) (f : Station → Station) : (s.modStation k f).hist = s.hist := rfl
@[simp] theorem State.modStation_rels (s : State) (k : Nat) (f : Station → Station) : (s.modStation k f).rels = s.rels := rfl

@[simp] theorem State.modBrood_agenda (s : State) (h : Nat) (f : Brood → Brood) : (s.modBrood h f).agenda = s.agenda := rfl
@[simp] theorem State.modBrood_cur (s : State) (h : Nat) (f : Brood → Brood) : (s.modBrood h f).cur = s.cur := rfl
@[simp] theorem State.modBrood_freeCtr (s : State) (h : Nat) (f : Brood → Brood) : (s.modBrood h f).freeCtr = s.freeCtr := rfl
@[simp] theorem State.modBrood_nextId (s : State) (h : Nat) (f : Brood → Brood) : (s.modBrood h f).nextId = s.nextId := rfl
@[simp] theorem State.modBrood_qtime (s : State) (h : Nat) (f : Brood → Brood) : (s.modBrood h f).qtime = s.qtime := rfl
@[simp] theorem State.modBrood_cells (s : State) (h : Nat) (f : Brood → Brood) : (s.modBrood h f).cells = s.cells := rfl
@[simp] theorem State.modBrood_gangs (s : State) (h : Nat) (f : Brood → Brood) : (s.modBrood h f).gangs = s.gangs := rfl
@[simp] theorem State.modBrood_groups (s : State) (h : Nat) (f : Brood → Brood) : (s.modBrood h f).groups = s.groups := rfl
@[simp] theorem State.modBrood_launches (s : State) (h : Nat) (f : Brood → Brood) : (s.modBrood h f).launches = s.launches := rfl
@[simp] theorem State.modBrood_queues (s : State) (h : Nat) (f : Brood → Brood) : (s.modBrood h f).queues = s.queues := rfl
@[simp] theorem State.modBrood_objects (s : State) (h : Nat) (f : Brood → Brood) : (s.modBrood h f).objects = s.objects := rfl
@[simp] theorem State.modBrood_pgen (s : State) (h : Nat) (f : Brood → Brood) : (s.modBrood h f).pgen = s.pgen := rfl
@[simp] theorem State.modBrood_bgen (s : State) (h : Nat) (f : Brood → Brood) : (s.modBrood h f).bgen = s.bgen := rfl
@[simp] theorem State.modBrood_mem (s : State) (h : Nat) (f : Brood → Brood) : (s.modBrood h f).mem = s.mem := rfl
@[simp] theorem State.modBrood_empties (s : State) (h : Nat) (f : Brood → Brood) : (s.modBrood h f).empties = s.empties := rfl
@[simp] theorem State.modBrood_rot (s : State) (h : Nat) (f : Brood → Brood) : (s.modBrood h f).rot = s.rot := rfl
@[simp] theorem State.modBrood_refused (s : State) (h : Nat) (f : Brood → Brood) : (s.modBrood h f).refused = s.refused := rfl
@[simp] theorem State.modBrood_feq (s : State) (h : Nat) (f : Brood → Brood) : (s.modBrood h f).feq = s.feq := rfl
@[simp] theorem State.modBrood_wgq (s : State) (h : Nat) (f : Brood → Brood) : (s.modBrood h f).wgq = s.wgq := rfl
@[simp] theorem State.modBrood_heat (s : State) (h : Nat) (f : Brood → Brood) : (s.modBrood h f).heat = s.heat := rfl
@[simp] theorem State.modBrood_cores (s : State) (h : Nat) (f : Brood → Brood) : (s.modBrood h f).cores = s.cores := rfl
@[simp] theorem State.modBrood_hives (s : State) (h : Nat) (f : Brood → Brood) : (s.modBrood h f).hives = s.hives := rfl
@[simp] theorem State.modBrood_dies (s : State) (h : Nat) (f : Brood → Brood) : (s.modBrood h f).dies = s.dies := rfl
@[simp] theorem State.modBrood_roots (s : State) (h : Nat) (f : Brood → Brood) : (s.modBrood h f).roots = s.roots := rfl
@[simp] theorem State.modBrood_posted (s : State) (h : Nat) (f : Brood → Brood) : (s.modBrood h f).posted = s.posted := rfl
@[simp] theorem State.modBrood_remotes (s : State) (h : Nat) (f : Brood → Brood) : (s.modBrood h f).remotes = s.remotes := rfl
@[simp] theorem State.modBrood_faults (s : State) (h : Nat) (f : Brood → Brood) : (s.modBrood h f).faults = s.faults := rfl
@[simp] theorem State.modBrood_cows (s : State) (h : Nat) (f : Brood → Brood) : (s.modBrood h f).cows = s.cows := rfl
@[simp] theorem State.modBrood_bars (s : State) (h : Nat) (f : Brood → Brood) : (s.modBrood h f).bars = s.bars := rfl
@[simp] theorem State.modBrood_hostAccs (s : State) (h : Nat) (f : Brood → Brood) : (s.modBrood h f).hostAccs = s.hostAccs := rfl
@[simp] theorem State.modBrood_comps (s : State) (h : Nat) (f : Brood → Brood) : (s.modBrood h f).comps = s.comps := rfl
@[simp] theorem State.modBrood_mgmt (s : State) (h : Nat) (f : Brood → Brood) : (s.modBrood h f).mgmt = s.mgmt := rfl
@[simp] theorem State.modBrood_budget (s : State) (h : Nat) (f : Brood → Brood) : (s.modBrood h f).budget = s.budget := rfl
@[simp] theorem State.modBrood_move (s : State) (h : Nat) (f : Brood → Brood) : (s.modBrood h f).move = s.move := rfl
@[simp] theorem State.modBrood_share (s : State) (h : Nat) (f : Brood → Brood) : (s.modBrood h f).share = s.share := rfl
@[simp] theorem State.modBrood_slow (s : State) (h : Nat) (f : Brood → Brood) : (s.modBrood h f).slow = s.slow := rfl
@[simp] theorem State.modBrood_quiescing (s : State) (h : Nat) (f : Brood → Brood) : (s.modBrood h f).quiescing = s.quiescing := rfl
@[simp] theorem State.modBrood_faultQ (s : State) (h : Nat) (f : Brood → Brood) : (s.modBrood h f).faultQ = s.faultQ := rfl
@[simp] theorem State.modBrood_funcs (s : State) (h : Nat) (f : Brood → Brood) : (s.modBrood h f).funcs = s.funcs := rfl
@[simp] theorem State.modBrood_vfEnable (s : State) (h : Nat) (f : Brood → Brood) : (s.modBrood h f).vfEnable = s.vfEnable := rfl
@[simp] theorem State.modBrood_numVfs (s : State) (h : Nat) (f : Brood → Brood) : (s.modBrood h f).numVfs = s.numVfs := rfl
@[simp] theorem State.modBrood_cfg (s : State) (h : Nat) (f : Brood → Brood) : (s.modBrood h f).cfg = s.cfg := rfl
@[simp] theorem State.modBrood_spdm (s : State) (h : Nat) (f : Brood → Brood) : (s.modBrood h f).spdm = s.spdm := rfl
@[simp] theorem State.modBrood_hubHash (s : State) (h : Nat) (f : Brood → Brood) : (s.modBrood h f).hubHash = s.hubHash := rfl
@[simp] theorem State.modBrood_dieHash (s : State) (h : Nat) (f : Brood → Brood) : (s.modBrood h f).dieHash = s.dieHash := rfl
@[simp] theorem State.modBrood_alias_ (s : State) (h : Nat) (f : Brood → Brood) : (s.modBrood h f).alias_ = s.alias_ := rfl
@[simp] theorem State.modBrood_links (s : State) (h : Nat) (f : Brood → Brood) : (s.modBrood h f).links = s.links := rfl
@[simp] theorem State.modBrood_stations (s : State) (h : Nat) (f : Brood → Brood) : (s.modBrood h f).stations = s.stations := rfl
@[simp] theorem State.modBrood_lost (s : State) (h : Nat) (f : Brood → Brood) : (s.modBrood h f).lost = s.lost := rfl
@[simp] theorem State.modBrood_out (s : State) (h : Nat) (f : Brood → Brood) : (s.modBrood h f).out = s.out := rfl
@[simp] theorem State.modBrood_slotSeq (s : State) (h : Nat) (f : Brood → Brood) : (s.modBrood h f).slotSeq = s.slotSeq := rfl
@[simp] theorem State.modBrood_stamp (s : State) (h : Nat) (f : Brood → Brood) : (s.modBrood h f).stamp = s.stamp := rfl
@[simp] theorem State.modBrood_hist (s : State) (h : Nat) (f : Brood → Brood) : (s.modBrood h f).hist = s.hist := rfl
@[simp] theorem State.modBrood_rels (s : State) (h : Nat) (f : Brood → Brood) : (s.modBrood h f).rels = s.rels := rfl

@[simp] theorem State.emit_agenda (s : State) (o : Out) : (s.emit o).agenda = s.agenda := rfl
@[simp] theorem State.emit_cur (s : State) (o : Out) : (s.emit o).cur = s.cur := rfl
@[simp] theorem State.emit_freeCtr (s : State) (o : Out) : (s.emit o).freeCtr = s.freeCtr := rfl
@[simp] theorem State.emit_nextId (s : State) (o : Out) : (s.emit o).nextId = s.nextId := rfl
@[simp] theorem State.emit_qtime (s : State) (o : Out) : (s.emit o).qtime = s.qtime := rfl
@[simp] theorem State.emit_cells (s : State) (o : Out) : (s.emit o).cells = s.cells := rfl
@[simp] theorem State.emit_gangs (s : State) (o : Out) : (s.emit o).gangs = s.gangs := rfl
@[simp] theorem State.emit_groups (s : State) (o : Out) : (s.emit o).groups = s.groups := rfl
@[simp] theorem State.emit_launches (s : State) (o : Out) : (s.emit o).launches = s.launches := rfl
@[simp] theorem State.emit_queues (s : State) (o : Out) : (s.emit o).queues = s.queues := rfl
@[simp] theorem State.emit_objects (s : State) (o : Out) : (s.emit o).objects = s.objects := rfl
@[simp] theorem State.emit_pgen (s : State) (o : Out) : (s.emit o).pgen = s.pgen := rfl
@[simp] theorem State.emit_broods (s : State) (o : Out) : (s.emit o).broods = s.broods := rfl
@[simp] theorem State.emit_bgen (s : State) (o : Out) : (s.emit o).bgen = s.bgen := rfl
@[simp] theorem State.emit_mem (s : State) (o : Out) : (s.emit o).mem = s.mem := rfl
@[simp] theorem State.emit_empties (s : State) (o : Out) : (s.emit o).empties = s.empties := rfl
@[simp] theorem State.emit_rot (s : State) (o : Out) : (s.emit o).rot = s.rot := rfl
@[simp] theorem State.emit_refused (s : State) (o : Out) : (s.emit o).refused = s.refused := rfl
@[simp] theorem State.emit_feq (s : State) (o : Out) : (s.emit o).feq = s.feq := rfl
@[simp] theorem State.emit_wgq (s : State) (o : Out) : (s.emit o).wgq = s.wgq := rfl
@[simp] theorem State.emit_heat (s : State) (o : Out) : (s.emit o).heat = s.heat := rfl
@[simp] theorem State.emit_cores (s : State) (o : Out) : (s.emit o).cores = s.cores := rfl
@[simp] theorem State.emit_hives (s : State) (o : Out) : (s.emit o).hives = s.hives := rfl
@[simp] theorem State.emit_dies (s : State) (o : Out) : (s.emit o).dies = s.dies := rfl
@[simp] theorem State.emit_roots (s : State) (o : Out) : (s.emit o).roots = s.roots := rfl
@[simp] theorem State.emit_posted (s : State) (o : Out) : (s.emit o).posted = s.posted := rfl
@[simp] theorem State.emit_remotes (s : State) (o : Out) : (s.emit o).remotes = s.remotes := rfl
@[simp] theorem State.emit_faults (s : State) (o : Out) : (s.emit o).faults = s.faults := rfl
@[simp] theorem State.emit_cows (s : State) (o : Out) : (s.emit o).cows = s.cows := rfl
@[simp] theorem State.emit_bars (s : State) (o : Out) : (s.emit o).bars = s.bars := rfl
@[simp] theorem State.emit_hostAccs (s : State) (o : Out) : (s.emit o).hostAccs = s.hostAccs := rfl
@[simp] theorem State.emit_comps (s : State) (o : Out) : (s.emit o).comps = s.comps := rfl
@[simp] theorem State.emit_mgmt (s : State) (o : Out) : (s.emit o).mgmt = s.mgmt := rfl
@[simp] theorem State.emit_budget (s : State) (o : Out) : (s.emit o).budget = s.budget := rfl
@[simp] theorem State.emit_move (s : State) (o : Out) : (s.emit o).move = s.move := rfl
@[simp] theorem State.emit_share (s : State) (o : Out) : (s.emit o).share = s.share := rfl
@[simp] theorem State.emit_slow (s : State) (o : Out) : (s.emit o).slow = s.slow := rfl
@[simp] theorem State.emit_quiescing (s : State) (o : Out) : (s.emit o).quiescing = s.quiescing := rfl
@[simp] theorem State.emit_faultQ (s : State) (o : Out) : (s.emit o).faultQ = s.faultQ := rfl
@[simp] theorem State.emit_funcs (s : State) (o : Out) : (s.emit o).funcs = s.funcs := rfl
@[simp] theorem State.emit_vfEnable (s : State) (o : Out) : (s.emit o).vfEnable = s.vfEnable := rfl
@[simp] theorem State.emit_numVfs (s : State) (o : Out) : (s.emit o).numVfs = s.numVfs := rfl
@[simp] theorem State.emit_cfg (s : State) (o : Out) : (s.emit o).cfg = s.cfg := rfl
@[simp] theorem State.emit_spdm (s : State) (o : Out) : (s.emit o).spdm = s.spdm := rfl
@[simp] theorem State.emit_hubHash (s : State) (o : Out) : (s.emit o).hubHash = s.hubHash := rfl
@[simp] theorem State.emit_dieHash (s : State) (o : Out) : (s.emit o).dieHash = s.dieHash := rfl
@[simp] theorem State.emit_alias_ (s : State) (o : Out) : (s.emit o).alias_ = s.alias_ := rfl
@[simp] theorem State.emit_links (s : State) (o : Out) : (s.emit o).links = s.links := rfl
@[simp] theorem State.emit_stations (s : State) (o : Out) : (s.emit o).stations = s.stations := rfl
@[simp] theorem State.emit_lost (s : State) (o : Out) : (s.emit o).lost = s.lost := rfl

@[simp] theorem State.tick_agenda (s : State) : (s.tick).agenda = s.agenda := rfl
@[simp] theorem State.tick_cur (s : State) : (s.tick).cur = s.cur := rfl
@[simp] theorem State.tick_nextId (s : State) : (s.tick).nextId = s.nextId := rfl
@[simp] theorem State.tick_cells (s : State) : (s.tick).cells = s.cells := rfl
@[simp] theorem State.tick_gangs (s : State) : (s.tick).gangs = s.gangs := rfl
@[simp] theorem State.tick_groups (s : State) : (s.tick).groups = s.groups := rfl
@[simp] theorem State.tick_launches (s : State) : (s.tick).launches = s.launches := rfl
@[simp] theorem State.tick_queues (s : State) : (s.tick).queues = s.queues := rfl
@[simp] theorem State.tick_objects (s : State) : (s.tick).objects = s.objects := rfl
@[simp] theorem State.tick_pgen (s : State) : (s.tick).pgen = s.pgen := rfl
@[simp] theorem State.tick_broods (s : State) : (s.tick).broods = s.broods := rfl
@[simp] theorem State.tick_bgen (s : State) : (s.tick).bgen = s.bgen := rfl
@[simp] theorem State.tick_mem (s : State) : (s.tick).mem = s.mem := rfl
@[simp] theorem State.tick_empties (s : State) : (s.tick).empties = s.empties := rfl
@[simp] theorem State.tick_rot (s : State) : (s.tick).rot = s.rot := rfl
@[simp] theorem State.tick_refused (s : State) : (s.tick).refused = s.refused := rfl
@[simp] theorem State.tick_feq (s : State) : (s.tick).feq = s.feq := rfl
@[simp] theorem State.tick_wgq (s : State) : (s.tick).wgq = s.wgq := rfl
@[simp] theorem State.tick_heat (s : State) : (s.tick).heat = s.heat := rfl
@[simp] theorem State.tick_cores (s : State) : (s.tick).cores = s.cores := rfl
@[simp] theorem State.tick_hives (s : State) : (s.tick).hives = s.hives := rfl
@[simp] theorem State.tick_dies (s : State) : (s.tick).dies = s.dies := rfl
@[simp] theorem State.tick_roots (s : State) : (s.tick).roots = s.roots := rfl
@[simp] theorem State.tick_posted (s : State) : (s.tick).posted = s.posted := rfl
@[simp] theorem State.tick_remotes (s : State) : (s.tick).remotes = s.remotes := rfl
@[simp] theorem State.tick_faults (s : State) : (s.tick).faults = s.faults := rfl
@[simp] theorem State.tick_cows (s : State) : (s.tick).cows = s.cows := rfl
@[simp] theorem State.tick_bars (s : State) : (s.tick).bars = s.bars := rfl
@[simp] theorem State.tick_hostAccs (s : State) : (s.tick).hostAccs = s.hostAccs := rfl
@[simp] theorem State.tick_comps (s : State) : (s.tick).comps = s.comps := rfl
@[simp] theorem State.tick_mgmt (s : State) : (s.tick).mgmt = s.mgmt := rfl
@[simp] theorem State.tick_budget (s : State) : (s.tick).budget = s.budget := rfl
@[simp] theorem State.tick_move (s : State) : (s.tick).move = s.move := rfl
@[simp] theorem State.tick_share (s : State) : (s.tick).share = s.share := rfl
@[simp] theorem State.tick_slow (s : State) : (s.tick).slow = s.slow := rfl
@[simp] theorem State.tick_quiescing (s : State) : (s.tick).quiescing = s.quiescing := rfl
@[simp] theorem State.tick_faultQ (s : State) : (s.tick).faultQ = s.faultQ := rfl
@[simp] theorem State.tick_funcs (s : State) : (s.tick).funcs = s.funcs := rfl
@[simp] theorem State.tick_vfEnable (s : State) : (s.tick).vfEnable = s.vfEnable := rfl
@[simp] theorem State.tick_numVfs (s : State) : (s.tick).numVfs = s.numVfs := rfl
@[simp] theorem State.tick_cfg (s : State) : (s.tick).cfg = s.cfg := rfl
@[simp] theorem State.tick_spdm (s : State) : (s.tick).spdm = s.spdm := rfl
@[simp] theorem State.tick_hubHash (s : State) : (s.tick).hubHash = s.hubHash := rfl
@[simp] theorem State.tick_dieHash (s : State) : (s.tick).dieHash = s.dieHash := rfl
@[simp] theorem State.tick_alias_ (s : State) : (s.tick).alias_ = s.alias_ := rfl
@[simp] theorem State.tick_links (s : State) : (s.tick).links = s.links := rfl
@[simp] theorem State.tick_stations (s : State) : (s.tick).stations = s.stations := rfl
@[simp] theorem State.tick_lost (s : State) : (s.tick).lost = s.lost := rfl
@[simp] theorem State.tick_out (s : State) : (s.tick).out = s.out := rfl
@[simp] theorem State.tick_slotSeq (s : State) : (s.tick).slotSeq = s.slotSeq := rfl
@[simp] theorem State.tick_stamp (s : State) : (s.tick).stamp = s.stamp := rfl
@[simp] theorem State.tick_hist (s : State) : (s.tick).hist = s.hist := rfl
@[simp] theorem State.tick_rels (s : State) : (s.tick).rels = s.rels := rfl

@[simp] theorem State.timeTo_agenda (s : State) (t : Nat) : (s.timeTo t).agenda = s.agenda := rfl
@[simp] theorem State.timeTo_cur (s : State) (t : Nat) : (s.timeTo t).cur = s.cur := rfl
@[simp] theorem State.timeTo_freeCtr (s : State) (t : Nat) : (s.timeTo t).freeCtr = s.freeCtr := rfl
@[simp] theorem State.timeTo_nextId (s : State) (t : Nat) : (s.timeTo t).nextId = s.nextId := rfl
@[simp] theorem State.timeTo_cells (s : State) (t : Nat) : (s.timeTo t).cells = s.cells := rfl
@[simp] theorem State.timeTo_gangs (s : State) (t : Nat) : (s.timeTo t).gangs = s.gangs := rfl
@[simp] theorem State.timeTo_groups (s : State) (t : Nat) : (s.timeTo t).groups = s.groups := rfl
@[simp] theorem State.timeTo_launches (s : State) (t : Nat) : (s.timeTo t).launches = s.launches := rfl
@[simp] theorem State.timeTo_queues (s : State) (t : Nat) : (s.timeTo t).queues = s.queues := rfl
@[simp] theorem State.timeTo_objects (s : State) (t : Nat) : (s.timeTo t).objects = s.objects := rfl
@[simp] theorem State.timeTo_pgen (s : State) (t : Nat) : (s.timeTo t).pgen = s.pgen := rfl
@[simp] theorem State.timeTo_broods (s : State) (t : Nat) : (s.timeTo t).broods = s.broods := rfl
@[simp] theorem State.timeTo_bgen (s : State) (t : Nat) : (s.timeTo t).bgen = s.bgen := rfl
@[simp] theorem State.timeTo_mem (s : State) (t : Nat) : (s.timeTo t).mem = s.mem := rfl
@[simp] theorem State.timeTo_empties (s : State) (t : Nat) : (s.timeTo t).empties = s.empties := rfl
@[simp] theorem State.timeTo_rot (s : State) (t : Nat) : (s.timeTo t).rot = s.rot := rfl
@[simp] theorem State.timeTo_refused (s : State) (t : Nat) : (s.timeTo t).refused = s.refused := rfl
@[simp] theorem State.timeTo_feq (s : State) (t : Nat) : (s.timeTo t).feq = s.feq := rfl
@[simp] theorem State.timeTo_wgq (s : State) (t : Nat) : (s.timeTo t).wgq = s.wgq := rfl
@[simp] theorem State.timeTo_heat (s : State) (t : Nat) : (s.timeTo t).heat = s.heat := rfl
@[simp] theorem State.timeTo_cores (s : State) (t : Nat) : (s.timeTo t).cores = s.cores := rfl
@[simp] theorem State.timeTo_hives (s : State) (t : Nat) : (s.timeTo t).hives = s.hives := rfl
@[simp] theorem State.timeTo_dies (s : State) (t : Nat) : (s.timeTo t).dies = s.dies := rfl
@[simp] theorem State.timeTo_roots (s : State) (t : Nat) : (s.timeTo t).roots = s.roots := rfl
@[simp] theorem State.timeTo_posted (s : State) (t : Nat) : (s.timeTo t).posted = s.posted := rfl
@[simp] theorem State.timeTo_remotes (s : State) (t : Nat) : (s.timeTo t).remotes = s.remotes := rfl
@[simp] theorem State.timeTo_faults (s : State) (t : Nat) : (s.timeTo t).faults = s.faults := rfl
@[simp] theorem State.timeTo_cows (s : State) (t : Nat) : (s.timeTo t).cows = s.cows := rfl
@[simp] theorem State.timeTo_bars (s : State) (t : Nat) : (s.timeTo t).bars = s.bars := rfl
@[simp] theorem State.timeTo_hostAccs (s : State) (t : Nat) : (s.timeTo t).hostAccs = s.hostAccs := rfl
@[simp] theorem State.timeTo_comps (s : State) (t : Nat) : (s.timeTo t).comps = s.comps := rfl
@[simp] theorem State.timeTo_mgmt (s : State) (t : Nat) : (s.timeTo t).mgmt = s.mgmt := rfl
@[simp] theorem State.timeTo_budget (s : State) (t : Nat) : (s.timeTo t).budget = s.budget := rfl
@[simp] theorem State.timeTo_move (s : State) (t : Nat) : (s.timeTo t).move = s.move := rfl
@[simp] theorem State.timeTo_share (s : State) (t : Nat) : (s.timeTo t).share = s.share := rfl
@[simp] theorem State.timeTo_slow (s : State) (t : Nat) : (s.timeTo t).slow = s.slow := rfl
@[simp] theorem State.timeTo_quiescing (s : State) (t : Nat) : (s.timeTo t).quiescing = s.quiescing := rfl
@[simp] theorem State.timeTo_faultQ (s : State) (t : Nat) : (s.timeTo t).faultQ = s.faultQ := rfl
@[simp] theorem State.timeTo_funcs (s : State) (t : Nat) : (s.timeTo t).funcs = s.funcs := rfl
@[simp] theorem State.timeTo_vfEnable (s : State) (t : Nat) : (s.timeTo t).vfEnable = s.vfEnable := rfl
@[simp] theorem State.timeTo_numVfs (s : State) (t : Nat) : (s.timeTo t).numVfs = s.numVfs := rfl
@[simp] theorem State.timeTo_cfg (s : State) (t : Nat) : (s.timeTo t).cfg = s.cfg := rfl
@[simp] theorem State.timeTo_spdm (s : State) (t : Nat) : (s.timeTo t).spdm = s.spdm := rfl
@[simp] theorem State.timeTo_hubHash (s : State) (t : Nat) : (s.timeTo t).hubHash = s.hubHash := rfl
@[simp] theorem State.timeTo_dieHash (s : State) (t : Nat) : (s.timeTo t).dieHash = s.dieHash := rfl
@[simp] theorem State.timeTo_alias_ (s : State) (t : Nat) : (s.timeTo t).alias_ = s.alias_ := rfl
@[simp] theorem State.timeTo_links (s : State) (t : Nat) : (s.timeTo t).links = s.links := rfl
@[simp] theorem State.timeTo_stations (s : State) (t : Nat) : (s.timeTo t).stations = s.stations := rfl
@[simp] theorem State.timeTo_lost (s : State) (t : Nat) : (s.timeTo t).lost = s.lost := rfl
@[simp] theorem State.timeTo_out (s : State) (t : Nat) : (s.timeTo t).out = s.out := rfl
@[simp] theorem State.timeTo_slotSeq (s : State) (t : Nat) : (s.timeTo t).slotSeq = s.slotSeq := rfl
@[simp] theorem State.timeTo_stamp (s : State) (t : Nat) : (s.timeTo t).stamp = s.stamp := rfl
@[simp] theorem State.timeTo_hist (s : State) (t : Nat) : (s.timeTo t).hist = s.hist := rfl
@[simp] theorem State.timeTo_rels (s : State) (t : Nat) : (s.timeTo t).rels = s.rels := rfl

@[simp] theorem State.setMreg_agenda (s : State) (off : Nat) (v : Word) : (s.setMreg off v).agenda = s.agenda := rfl
@[simp] theorem State.setMreg_cur (s : State) (off : Nat) (v : Word) : (s.setMreg off v).cur = s.cur := rfl
@[simp] theorem State.setMreg_freeCtr (s : State) (off : Nat) (v : Word) : (s.setMreg off v).freeCtr = s.freeCtr := rfl
@[simp] theorem State.setMreg_nextId (s : State) (off : Nat) (v : Word) : (s.setMreg off v).nextId = s.nextId := rfl
@[simp] theorem State.setMreg_qtime (s : State) (off : Nat) (v : Word) : (s.setMreg off v).qtime = s.qtime := rfl
@[simp] theorem State.setMreg_cells (s : State) (off : Nat) (v : Word) : (s.setMreg off v).cells = s.cells := rfl
@[simp] theorem State.setMreg_gangs (s : State) (off : Nat) (v : Word) : (s.setMreg off v).gangs = s.gangs := rfl
@[simp] theorem State.setMreg_groups (s : State) (off : Nat) (v : Word) : (s.setMreg off v).groups = s.groups := rfl
@[simp] theorem State.setMreg_launches (s : State) (off : Nat) (v : Word) : (s.setMreg off v).launches = s.launches := rfl
@[simp] theorem State.setMreg_queues (s : State) (off : Nat) (v : Word) : (s.setMreg off v).queues = s.queues := rfl
@[simp] theorem State.setMreg_objects (s : State) (off : Nat) (v : Word) : (s.setMreg off v).objects = s.objects := rfl
@[simp] theorem State.setMreg_pgen (s : State) (off : Nat) (v : Word) : (s.setMreg off v).pgen = s.pgen := rfl
@[simp] theorem State.setMreg_broods (s : State) (off : Nat) (v : Word) : (s.setMreg off v).broods = s.broods := rfl
@[simp] theorem State.setMreg_bgen (s : State) (off : Nat) (v : Word) : (s.setMreg off v).bgen = s.bgen := rfl
@[simp] theorem State.setMreg_mem (s : State) (off : Nat) (v : Word) : (s.setMreg off v).mem = s.mem := rfl
@[simp] theorem State.setMreg_empties (s : State) (off : Nat) (v : Word) : (s.setMreg off v).empties = s.empties := rfl
@[simp] theorem State.setMreg_rot (s : State) (off : Nat) (v : Word) : (s.setMreg off v).rot = s.rot := rfl
@[simp] theorem State.setMreg_refused (s : State) (off : Nat) (v : Word) : (s.setMreg off v).refused = s.refused := rfl
@[simp] theorem State.setMreg_feq (s : State) (off : Nat) (v : Word) : (s.setMreg off v).feq = s.feq := rfl
@[simp] theorem State.setMreg_wgq (s : State) (off : Nat) (v : Word) : (s.setMreg off v).wgq = s.wgq := rfl
@[simp] theorem State.setMreg_heat (s : State) (off : Nat) (v : Word) : (s.setMreg off v).heat = s.heat := rfl
@[simp] theorem State.setMreg_cores (s : State) (off : Nat) (v : Word) : (s.setMreg off v).cores = s.cores := rfl
@[simp] theorem State.setMreg_hives (s : State) (off : Nat) (v : Word) : (s.setMreg off v).hives = s.hives := rfl
@[simp] theorem State.setMreg_dies (s : State) (off : Nat) (v : Word) : (s.setMreg off v).dies = s.dies := rfl
@[simp] theorem State.setMreg_roots (s : State) (off : Nat) (v : Word) : (s.setMreg off v).roots = s.roots := rfl
@[simp] theorem State.setMreg_posted (s : State) (off : Nat) (v : Word) : (s.setMreg off v).posted = s.posted := rfl
@[simp] theorem State.setMreg_remotes (s : State) (off : Nat) (v : Word) : (s.setMreg off v).remotes = s.remotes := rfl
@[simp] theorem State.setMreg_faults (s : State) (off : Nat) (v : Word) : (s.setMreg off v).faults = s.faults := rfl
@[simp] theorem State.setMreg_cows (s : State) (off : Nat) (v : Word) : (s.setMreg off v).cows = s.cows := rfl
@[simp] theorem State.setMreg_bars (s : State) (off : Nat) (v : Word) : (s.setMreg off v).bars = s.bars := rfl
@[simp] theorem State.setMreg_hostAccs (s : State) (off : Nat) (v : Word) : (s.setMreg off v).hostAccs = s.hostAccs := rfl
@[simp] theorem State.setMreg_comps (s : State) (off : Nat) (v : Word) : (s.setMreg off v).comps = s.comps := rfl
@[simp] theorem State.setMreg_budget (s : State) (off : Nat) (v : Word) : (s.setMreg off v).budget = s.budget := rfl
@[simp] theorem State.setMreg_move (s : State) (off : Nat) (v : Word) : (s.setMreg off v).move = s.move := rfl
@[simp] theorem State.setMreg_share (s : State) (off : Nat) (v : Word) : (s.setMreg off v).share = s.share := rfl
@[simp] theorem State.setMreg_slow (s : State) (off : Nat) (v : Word) : (s.setMreg off v).slow = s.slow := rfl
@[simp] theorem State.setMreg_quiescing (s : State) (off : Nat) (v : Word) : (s.setMreg off v).quiescing = s.quiescing := rfl
@[simp] theorem State.setMreg_faultQ (s : State) (off : Nat) (v : Word) : (s.setMreg off v).faultQ = s.faultQ := rfl
@[simp] theorem State.setMreg_funcs (s : State) (off : Nat) (v : Word) : (s.setMreg off v).funcs = s.funcs := rfl
@[simp] theorem State.setMreg_vfEnable (s : State) (off : Nat) (v : Word) : (s.setMreg off v).vfEnable = s.vfEnable := rfl
@[simp] theorem State.setMreg_numVfs (s : State) (off : Nat) (v : Word) : (s.setMreg off v).numVfs = s.numVfs := rfl
@[simp] theorem State.setMreg_cfg (s : State) (off : Nat) (v : Word) : (s.setMreg off v).cfg = s.cfg := rfl
@[simp] theorem State.setMreg_spdm (s : State) (off : Nat) (v : Word) : (s.setMreg off v).spdm = s.spdm := rfl
@[simp] theorem State.setMreg_hubHash (s : State) (off : Nat) (v : Word) : (s.setMreg off v).hubHash = s.hubHash := rfl
@[simp] theorem State.setMreg_dieHash (s : State) (off : Nat) (v : Word) : (s.setMreg off v).dieHash = s.dieHash := rfl
@[simp] theorem State.setMreg_alias_ (s : State) (off : Nat) (v : Word) : (s.setMreg off v).alias_ = s.alias_ := rfl
@[simp] theorem State.setMreg_links (s : State) (off : Nat) (v : Word) : (s.setMreg off v).links = s.links := rfl
@[simp] theorem State.setMreg_stations (s : State) (off : Nat) (v : Word) : (s.setMreg off v).stations = s.stations := rfl
@[simp] theorem State.setMreg_lost (s : State) (off : Nat) (v : Word) : (s.setMreg off v).lost = s.lost := rfl
@[simp] theorem State.setMreg_out (s : State) (off : Nat) (v : Word) : (s.setMreg off v).out = s.out := rfl
@[simp] theorem State.setMreg_slotSeq (s : State) (off : Nat) (v : Word) : (s.setMreg off v).slotSeq = s.slotSeq := rfl
@[simp] theorem State.setMreg_stamp (s : State) (off : Nat) (v : Word) : (s.setMreg off v).stamp = s.stamp := rfl
@[simp] theorem State.setMreg_hist (s : State) (off : Nat) (v : Word) : (s.setMreg off v).hist = s.hist := rfl
@[simp] theorem State.setMreg_rels (s : State) (off : Nat) (v : Word) : (s.setMreg off v).rels = s.rels := rfl

@[simp] theorem State.poke_agenda (s : State) (k : Nat) (d : List Byte) : (s.poke k d).agenda = s.agenda := rfl
@[simp] theorem State.poke_cur (s : State) (k : Nat) (d : List Byte) : (s.poke k d).cur = s.cur := rfl
@[simp] theorem State.poke_freeCtr (s : State) (k : Nat) (d : List Byte) : (s.poke k d).freeCtr = s.freeCtr := rfl
@[simp] theorem State.poke_nextId (s : State) (k : Nat) (d : List Byte) : (s.poke k d).nextId = s.nextId := rfl
@[simp] theorem State.poke_qtime (s : State) (k : Nat) (d : List Byte) : (s.poke k d).qtime = s.qtime := rfl
@[simp] theorem State.poke_cells (s : State) (k : Nat) (d : List Byte) : (s.poke k d).cells = s.cells := rfl
@[simp] theorem State.poke_gangs (s : State) (k : Nat) (d : List Byte) : (s.poke k d).gangs = s.gangs := rfl
@[simp] theorem State.poke_groups (s : State) (k : Nat) (d : List Byte) : (s.poke k d).groups = s.groups := rfl
@[simp] theorem State.poke_launches (s : State) (k : Nat) (d : List Byte) : (s.poke k d).launches = s.launches := rfl
@[simp] theorem State.poke_queues (s : State) (k : Nat) (d : List Byte) : (s.poke k d).queues = s.queues := rfl
@[simp] theorem State.poke_objects (s : State) (k : Nat) (d : List Byte) : (s.poke k d).objects = s.objects := rfl
@[simp] theorem State.poke_pgen (s : State) (k : Nat) (d : List Byte) : (s.poke k d).pgen = s.pgen := rfl
@[simp] theorem State.poke_broods (s : State) (k : Nat) (d : List Byte) : (s.poke k d).broods = s.broods := rfl
@[simp] theorem State.poke_bgen (s : State) (k : Nat) (d : List Byte) : (s.poke k d).bgen = s.bgen := rfl
@[simp] theorem State.poke_empties (s : State) (k : Nat) (d : List Byte) : (s.poke k d).empties = s.empties := rfl
@[simp] theorem State.poke_rot (s : State) (k : Nat) (d : List Byte) : (s.poke k d).rot = s.rot := rfl
@[simp] theorem State.poke_refused (s : State) (k : Nat) (d : List Byte) : (s.poke k d).refused = s.refused := rfl
@[simp] theorem State.poke_feq (s : State) (k : Nat) (d : List Byte) : (s.poke k d).feq = s.feq := rfl
@[simp] theorem State.poke_wgq (s : State) (k : Nat) (d : List Byte) : (s.poke k d).wgq = s.wgq := rfl
@[simp] theorem State.poke_heat (s : State) (k : Nat) (d : List Byte) : (s.poke k d).heat = s.heat := rfl
@[simp] theorem State.poke_cores (s : State) (k : Nat) (d : List Byte) : (s.poke k d).cores = s.cores := rfl
@[simp] theorem State.poke_hives (s : State) (k : Nat) (d : List Byte) : (s.poke k d).hives = s.hives := rfl
@[simp] theorem State.poke_dies (s : State) (k : Nat) (d : List Byte) : (s.poke k d).dies = s.dies := rfl
@[simp] theorem State.poke_roots (s : State) (k : Nat) (d : List Byte) : (s.poke k d).roots = s.roots := rfl
@[simp] theorem State.poke_posted (s : State) (k : Nat) (d : List Byte) : (s.poke k d).posted = s.posted := rfl
@[simp] theorem State.poke_remotes (s : State) (k : Nat) (d : List Byte) : (s.poke k d).remotes = s.remotes := rfl
@[simp] theorem State.poke_faults (s : State) (k : Nat) (d : List Byte) : (s.poke k d).faults = s.faults := rfl
@[simp] theorem State.poke_cows (s : State) (k : Nat) (d : List Byte) : (s.poke k d).cows = s.cows := rfl
@[simp] theorem State.poke_bars (s : State) (k : Nat) (d : List Byte) : (s.poke k d).bars = s.bars := rfl
@[simp] theorem State.poke_hostAccs (s : State) (k : Nat) (d : List Byte) : (s.poke k d).hostAccs = s.hostAccs := rfl
@[simp] theorem State.poke_comps (s : State) (k : Nat) (d : List Byte) : (s.poke k d).comps = s.comps := rfl
@[simp] theorem State.poke_mgmt (s : State) (k : Nat) (d : List Byte) : (s.poke k d).mgmt = s.mgmt := rfl
@[simp] theorem State.poke_budget (s : State) (k : Nat) (d : List Byte) : (s.poke k d).budget = s.budget := rfl
@[simp] theorem State.poke_move (s : State) (k : Nat) (d : List Byte) : (s.poke k d).move = s.move := rfl
@[simp] theorem State.poke_share (s : State) (k : Nat) (d : List Byte) : (s.poke k d).share = s.share := rfl
@[simp] theorem State.poke_slow (s : State) (k : Nat) (d : List Byte) : (s.poke k d).slow = s.slow := rfl
@[simp] theorem State.poke_quiescing (s : State) (k : Nat) (d : List Byte) : (s.poke k d).quiescing = s.quiescing := rfl
@[simp] theorem State.poke_faultQ (s : State) (k : Nat) (d : List Byte) : (s.poke k d).faultQ = s.faultQ := rfl
@[simp] theorem State.poke_funcs (s : State) (k : Nat) (d : List Byte) : (s.poke k d).funcs = s.funcs := rfl
@[simp] theorem State.poke_vfEnable (s : State) (k : Nat) (d : List Byte) : (s.poke k d).vfEnable = s.vfEnable := rfl
@[simp] theorem State.poke_numVfs (s : State) (k : Nat) (d : List Byte) : (s.poke k d).numVfs = s.numVfs := rfl
@[simp] theorem State.poke_cfg (s : State) (k : Nat) (d : List Byte) : (s.poke k d).cfg = s.cfg := rfl
@[simp] theorem State.poke_spdm (s : State) (k : Nat) (d : List Byte) : (s.poke k d).spdm = s.spdm := rfl
@[simp] theorem State.poke_hubHash (s : State) (k : Nat) (d : List Byte) : (s.poke k d).hubHash = s.hubHash := rfl
@[simp] theorem State.poke_dieHash (s : State) (k : Nat) (d : List Byte) : (s.poke k d).dieHash = s.dieHash := rfl
@[simp] theorem State.poke_alias_ (s : State) (k : Nat) (d : List Byte) : (s.poke k d).alias_ = s.alias_ := rfl
@[simp] theorem State.poke_links (s : State) (k : Nat) (d : List Byte) : (s.poke k d).links = s.links := rfl
@[simp] theorem State.poke_stations (s : State) (k : Nat) (d : List Byte) : (s.poke k d).stations = s.stations := rfl
@[simp] theorem State.poke_lost (s : State) (k : Nat) (d : List Byte) : (s.poke k d).lost = s.lost := rfl
@[simp] theorem State.poke_out (s : State) (k : Nat) (d : List Byte) : (s.poke k d).out = s.out := rfl
@[simp] theorem State.poke_slotSeq (s : State) (k : Nat) (d : List Byte) : (s.poke k d).slotSeq = s.slotSeq := rfl
@[simp] theorem State.poke_stamp (s : State) (k : Nat) (d : List Byte) : (s.poke k d).stamp = s.stamp := rfl
@[simp] theorem State.poke_hist (s : State) (k : Nat) (d : List Byte) : (s.poke k d).hist = s.hist := rfl
@[simp] theorem State.poke_rels (s : State) (k : Nat) (d : List Byte) : (s.poke k d).rels = s.rels := rfl

@[simp] theorem State.setFull_agenda (s : State) (k : Nat) (b : Bool) : (s.setFull k b).agenda = s.agenda := rfl
@[simp] theorem State.setFull_cur (s : State) (k : Nat) (b : Bool) : (s.setFull k b).cur = s.cur := rfl
@[simp] theorem State.setFull_freeCtr (s : State) (k : Nat) (b : Bool) : (s.setFull k b).freeCtr = s.freeCtr := rfl
@[simp] theorem State.setFull_nextId (s : State) (k : Nat) (b : Bool) : (s.setFull k b).nextId = s.nextId := rfl
@[simp] theorem State.setFull_qtime (s : State) (k : Nat) (b : Bool) : (s.setFull k b).qtime = s.qtime := rfl
@[simp] theorem State.setFull_cells (s : State) (k : Nat) (b : Bool) : (s.setFull k b).cells = s.cells := rfl
@[simp] theorem State.setFull_gangs (s : State) (k : Nat) (b : Bool) : (s.setFull k b).gangs = s.gangs := rfl
@[simp] theorem State.setFull_groups (s : State) (k : Nat) (b : Bool) : (s.setFull k b).groups = s.groups := rfl
@[simp] theorem State.setFull_launches (s : State) (k : Nat) (b : Bool) : (s.setFull k b).launches = s.launches := rfl
@[simp] theorem State.setFull_queues (s : State) (k : Nat) (b : Bool) : (s.setFull k b).queues = s.queues := rfl
@[simp] theorem State.setFull_objects (s : State) (k : Nat) (b : Bool) : (s.setFull k b).objects = s.objects := rfl
@[simp] theorem State.setFull_pgen (s : State) (k : Nat) (b : Bool) : (s.setFull k b).pgen = s.pgen := rfl
@[simp] theorem State.setFull_broods (s : State) (k : Nat) (b : Bool) : (s.setFull k b).broods = s.broods := rfl
@[simp] theorem State.setFull_bgen (s : State) (k : Nat) (b : Bool) : (s.setFull k b).bgen = s.bgen := rfl
@[simp] theorem State.setFull_mem (s : State) (k : Nat) (b : Bool) : (s.setFull k b).mem = s.mem := rfl
@[simp] theorem State.setFull_rot (s : State) (k : Nat) (b : Bool) : (s.setFull k b).rot = s.rot := rfl
@[simp] theorem State.setFull_refused (s : State) (k : Nat) (b : Bool) : (s.setFull k b).refused = s.refused := rfl
@[simp] theorem State.setFull_feq (s : State) (k : Nat) (b : Bool) : (s.setFull k b).feq = s.feq := rfl
@[simp] theorem State.setFull_wgq (s : State) (k : Nat) (b : Bool) : (s.setFull k b).wgq = s.wgq := rfl
@[simp] theorem State.setFull_heat (s : State) (k : Nat) (b : Bool) : (s.setFull k b).heat = s.heat := rfl
@[simp] theorem State.setFull_cores (s : State) (k : Nat) (b : Bool) : (s.setFull k b).cores = s.cores := rfl
@[simp] theorem State.setFull_hives (s : State) (k : Nat) (b : Bool) : (s.setFull k b).hives = s.hives := rfl
@[simp] theorem State.setFull_dies (s : State) (k : Nat) (b : Bool) : (s.setFull k b).dies = s.dies := rfl
@[simp] theorem State.setFull_roots (s : State) (k : Nat) (b : Bool) : (s.setFull k b).roots = s.roots := rfl
@[simp] theorem State.setFull_posted (s : State) (k : Nat) (b : Bool) : (s.setFull k b).posted = s.posted := rfl
@[simp] theorem State.setFull_remotes (s : State) (k : Nat) (b : Bool) : (s.setFull k b).remotes = s.remotes := rfl
@[simp] theorem State.setFull_faults (s : State) (k : Nat) (b : Bool) : (s.setFull k b).faults = s.faults := rfl
@[simp] theorem State.setFull_cows (s : State) (k : Nat) (b : Bool) : (s.setFull k b).cows = s.cows := rfl
@[simp] theorem State.setFull_bars (s : State) (k : Nat) (b : Bool) : (s.setFull k b).bars = s.bars := rfl
@[simp] theorem State.setFull_hostAccs (s : State) (k : Nat) (b : Bool) : (s.setFull k b).hostAccs = s.hostAccs := rfl
@[simp] theorem State.setFull_comps (s : State) (k : Nat) (b : Bool) : (s.setFull k b).comps = s.comps := rfl
@[simp] theorem State.setFull_mgmt (s : State) (k : Nat) (b : Bool) : (s.setFull k b).mgmt = s.mgmt := rfl
@[simp] theorem State.setFull_budget (s : State) (k : Nat) (b : Bool) : (s.setFull k b).budget = s.budget := rfl
@[simp] theorem State.setFull_move (s : State) (k : Nat) (b : Bool) : (s.setFull k b).move = s.move := rfl
@[simp] theorem State.setFull_share (s : State) (k : Nat) (b : Bool) : (s.setFull k b).share = s.share := rfl
@[simp] theorem State.setFull_slow (s : State) (k : Nat) (b : Bool) : (s.setFull k b).slow = s.slow := rfl
@[simp] theorem State.setFull_quiescing (s : State) (k : Nat) (b : Bool) : (s.setFull k b).quiescing = s.quiescing := rfl
@[simp] theorem State.setFull_faultQ (s : State) (k : Nat) (b : Bool) : (s.setFull k b).faultQ = s.faultQ := rfl
@[simp] theorem State.setFull_funcs (s : State) (k : Nat) (b : Bool) : (s.setFull k b).funcs = s.funcs := rfl
@[simp] theorem State.setFull_vfEnable (s : State) (k : Nat) (b : Bool) : (s.setFull k b).vfEnable = s.vfEnable := rfl
@[simp] theorem State.setFull_numVfs (s : State) (k : Nat) (b : Bool) : (s.setFull k b).numVfs = s.numVfs := rfl
@[simp] theorem State.setFull_cfg (s : State) (k : Nat) (b : Bool) : (s.setFull k b).cfg = s.cfg := rfl
@[simp] theorem State.setFull_spdm (s : State) (k : Nat) (b : Bool) : (s.setFull k b).spdm = s.spdm := rfl
@[simp] theorem State.setFull_hubHash (s : State) (k : Nat) (b : Bool) : (s.setFull k b).hubHash = s.hubHash := rfl
@[simp] theorem State.setFull_dieHash (s : State) (k : Nat) (b : Bool) : (s.setFull k b).dieHash = s.dieHash := rfl
@[simp] theorem State.setFull_alias_ (s : State) (k : Nat) (b : Bool) : (s.setFull k b).alias_ = s.alias_ := rfl
@[simp] theorem State.setFull_links (s : State) (k : Nat) (b : Bool) : (s.setFull k b).links = s.links := rfl
@[simp] theorem State.setFull_stations (s : State) (k : Nat) (b : Bool) : (s.setFull k b).stations = s.stations := rfl
@[simp] theorem State.setFull_lost (s : State) (k : Nat) (b : Bool) : (s.setFull k b).lost = s.lost := rfl
@[simp] theorem State.setFull_out (s : State) (k : Nat) (b : Bool) : (s.setFull k b).out = s.out := rfl
@[simp] theorem State.setFull_slotSeq (s : State) (k : Nat) (b : Bool) : (s.setFull k b).slotSeq = s.slotSeq := rfl
@[simp] theorem State.setFull_stamp (s : State) (k : Nat) (b : Bool) : (s.setFull k b).stamp = s.stamp := rfl
@[simp] theorem State.setFull_hist (s : State) (k : Nat) (b : Bool) : (s.setFull k b).hist = s.hist := rfl
@[simp] theorem State.setFull_rels (s : State) (k : Nat) (b : Bool) : (s.setFull k b).rels = s.rels := rfl

@[simp] theorem State.writeTag_agenda (s : State) (who : Agent) (k : Nat) (b : Bool) : (s.writeTag who k b).agenda = s.agenda := rfl
@[simp] theorem State.writeTag_cur (s : State) (who : Agent) (k : Nat) (b : Bool) : (s.writeTag who k b).cur = s.cur := rfl
@[simp] theorem State.writeTag_freeCtr (s : State) (who : Agent) (k : Nat) (b : Bool) : (s.writeTag who k b).freeCtr = s.freeCtr := rfl
@[simp] theorem State.writeTag_nextId (s : State) (who : Agent) (k : Nat) (b : Bool) : (s.writeTag who k b).nextId = s.nextId := rfl
@[simp] theorem State.writeTag_qtime (s : State) (who : Agent) (k : Nat) (b : Bool) : (s.writeTag who k b).qtime = s.qtime := rfl
@[simp] theorem State.writeTag_gangs (s : State) (who : Agent) (k : Nat) (b : Bool) : (s.writeTag who k b).gangs = s.gangs := rfl
@[simp] theorem State.writeTag_groups (s : State) (who : Agent) (k : Nat) (b : Bool) : (s.writeTag who k b).groups = s.groups := rfl
@[simp] theorem State.writeTag_launches (s : State) (who : Agent) (k : Nat) (b : Bool) : (s.writeTag who k b).launches = s.launches := rfl
@[simp] theorem State.writeTag_queues (s : State) (who : Agent) (k : Nat) (b : Bool) : (s.writeTag who k b).queues = s.queues := rfl
@[simp] theorem State.writeTag_objects (s : State) (who : Agent) (k : Nat) (b : Bool) : (s.writeTag who k b).objects = s.objects := rfl
@[simp] theorem State.writeTag_pgen (s : State) (who : Agent) (k : Nat) (b : Bool) : (s.writeTag who k b).pgen = s.pgen := rfl
@[simp] theorem State.writeTag_broods (s : State) (who : Agent) (k : Nat) (b : Bool) : (s.writeTag who k b).broods = s.broods := rfl
@[simp] theorem State.writeTag_bgen (s : State) (who : Agent) (k : Nat) (b : Bool) : (s.writeTag who k b).bgen = s.bgen := rfl
@[simp] theorem State.writeTag_mem (s : State) (who : Agent) (k : Nat) (b : Bool) : (s.writeTag who k b).mem = s.mem := rfl
@[simp] theorem State.writeTag_rot (s : State) (who : Agent) (k : Nat) (b : Bool) : (s.writeTag who k b).rot = s.rot := rfl
@[simp] theorem State.writeTag_refused (s : State) (who : Agent) (k : Nat) (b : Bool) : (s.writeTag who k b).refused = s.refused := rfl
@[simp] theorem State.writeTag_feq (s : State) (who : Agent) (k : Nat) (b : Bool) : (s.writeTag who k b).feq = s.feq := rfl
@[simp] theorem State.writeTag_wgq (s : State) (who : Agent) (k : Nat) (b : Bool) : (s.writeTag who k b).wgq = s.wgq := rfl
@[simp] theorem State.writeTag_heat (s : State) (who : Agent) (k : Nat) (b : Bool) : (s.writeTag who k b).heat = s.heat := rfl
@[simp] theorem State.writeTag_cores (s : State) (who : Agent) (k : Nat) (b : Bool) : (s.writeTag who k b).cores = s.cores := rfl
@[simp] theorem State.writeTag_hives (s : State) (who : Agent) (k : Nat) (b : Bool) : (s.writeTag who k b).hives = s.hives := rfl
@[simp] theorem State.writeTag_dies (s : State) (who : Agent) (k : Nat) (b : Bool) : (s.writeTag who k b).dies = s.dies := rfl
@[simp] theorem State.writeTag_roots (s : State) (who : Agent) (k : Nat) (b : Bool) : (s.writeTag who k b).roots = s.roots := rfl
@[simp] theorem State.writeTag_posted (s : State) (who : Agent) (k : Nat) (b : Bool) : (s.writeTag who k b).posted = s.posted := rfl
@[simp] theorem State.writeTag_remotes (s : State) (who : Agent) (k : Nat) (b : Bool) : (s.writeTag who k b).remotes = s.remotes := rfl
@[simp] theorem State.writeTag_faults (s : State) (who : Agent) (k : Nat) (b : Bool) : (s.writeTag who k b).faults = s.faults := rfl
@[simp] theorem State.writeTag_cows (s : State) (who : Agent) (k : Nat) (b : Bool) : (s.writeTag who k b).cows = s.cows := rfl
@[simp] theorem State.writeTag_bars (s : State) (who : Agent) (k : Nat) (b : Bool) : (s.writeTag who k b).bars = s.bars := rfl
@[simp] theorem State.writeTag_hostAccs (s : State) (who : Agent) (k : Nat) (b : Bool) : (s.writeTag who k b).hostAccs = s.hostAccs := rfl
@[simp] theorem State.writeTag_comps (s : State) (who : Agent) (k : Nat) (b : Bool) : (s.writeTag who k b).comps = s.comps := rfl
@[simp] theorem State.writeTag_mgmt (s : State) (who : Agent) (k : Nat) (b : Bool) : (s.writeTag who k b).mgmt = s.mgmt := rfl
@[simp] theorem State.writeTag_budget (s : State) (who : Agent) (k : Nat) (b : Bool) : (s.writeTag who k b).budget = s.budget := rfl
@[simp] theorem State.writeTag_move (s : State) (who : Agent) (k : Nat) (b : Bool) : (s.writeTag who k b).move = s.move := rfl
@[simp] theorem State.writeTag_share (s : State) (who : Agent) (k : Nat) (b : Bool) : (s.writeTag who k b).share = s.share := rfl
@[simp] theorem State.writeTag_slow (s : State) (who : Agent) (k : Nat) (b : Bool) : (s.writeTag who k b).slow = s.slow := rfl
@[simp] theorem State.writeTag_quiescing (s : State) (who : Agent) (k : Nat) (b : Bool) : (s.writeTag who k b).quiescing = s.quiescing := rfl
@[simp] theorem State.writeTag_faultQ (s : State) (who : Agent) (k : Nat) (b : Bool) : (s.writeTag who k b).faultQ = s.faultQ := rfl
@[simp] theorem State.writeTag_funcs (s : State) (who : Agent) (k : Nat) (b : Bool) : (s.writeTag who k b).funcs = s.funcs := rfl
@[simp] theorem State.writeTag_vfEnable (s : State) (who : Agent) (k : Nat) (b : Bool) : (s.writeTag who k b).vfEnable = s.vfEnable := rfl
@[simp] theorem State.writeTag_numVfs (s : State) (who : Agent) (k : Nat) (b : Bool) : (s.writeTag who k b).numVfs = s.numVfs := rfl
@[simp] theorem State.writeTag_cfg (s : State) (who : Agent) (k : Nat) (b : Bool) : (s.writeTag who k b).cfg = s.cfg := rfl
@[simp] theorem State.writeTag_spdm (s : State) (who : Agent) (k : Nat) (b : Bool) : (s.writeTag who k b).spdm = s.spdm := rfl
@[simp] theorem State.writeTag_hubHash (s : State) (who : Agent) (k : Nat) (b : Bool) : (s.writeTag who k b).hubHash = s.hubHash := rfl
@[simp] theorem State.writeTag_dieHash (s : State) (who : Agent) (k : Nat) (b : Bool) : (s.writeTag who k b).dieHash = s.dieHash := rfl
@[simp] theorem State.writeTag_alias_ (s : State) (who : Agent) (k : Nat) (b : Bool) : (s.writeTag who k b).alias_ = s.alias_ := rfl
@[simp] theorem State.writeTag_links (s : State) (who : Agent) (k : Nat) (b : Bool) : (s.writeTag who k b).links = s.links := rfl
@[simp] theorem State.writeTag_stations (s : State) (who : Agent) (k : Nat) (b : Bool) : (s.writeTag who k b).stations = s.stations := rfl
@[simp] theorem State.writeTag_lost (s : State) (who : Agent) (k : Nat) (b : Bool) : (s.writeTag who k b).lost = s.lost := rfl
@[simp] theorem State.writeTag_out (s : State) (who : Agent) (k : Nat) (b : Bool) : (s.writeTag who k b).out = s.out := rfl
@[simp] theorem State.writeTag_slotSeq (s : State) (who : Agent) (k : Nat) (b : Bool) : (s.writeTag who k b).slotSeq = s.slotSeq := rfl
@[simp] theorem State.writeTag_stamp (s : State) (who : Agent) (k : Nat) (b : Bool) : (s.writeTag who k b).stamp = s.stamp := rfl
@[simp] theorem State.writeTag_hist (s : State) (who : Agent) (k : Nat) (b : Bool) : (s.writeTag who k b).hist = s.hist := rfl
@[simp] theorem State.writeTag_rels (s : State) (who : Agent) (k : Nat) (b : Bool) : (s.writeTag who k b).rels = s.rels := rfl
@[simp] theorem State.writeTag_empties (s : State) (who : Agent) (k : Nat) (b : Bool) : (s.writeTag who k b).empties = (s.setFull k b).empties := rfl
@[simp] theorem State.writeTag_cells (s : State) (who : Agent) (k : Nat) (b : Bool) :
    (s.writeTag who k b).cells = s.cells.map fun e => (e.1, writeSeen who (k / 8 * 8) 8 e.1 e.2) := rfl

@[simp] theorem State.scrub_agenda (s : State) (k n : Nat) : (s.scrub k n).agenda = s.agenda := rfl
@[simp] theorem State.scrub_cur (s : State) (k n : Nat) : (s.scrub k n).cur = s.cur := rfl
@[simp] theorem State.scrub_freeCtr (s : State) (k n : Nat) : (s.scrub k n).freeCtr = s.freeCtr := rfl
@[simp] theorem State.scrub_nextId (s : State) (k n : Nat) : (s.scrub k n).nextId = s.nextId := rfl
@[simp] theorem State.scrub_qtime (s : State) (k n : Nat) : (s.scrub k n).qtime = s.qtime := rfl
@[simp] theorem State.scrub_cells (s : State) (k n : Nat) : (s.scrub k n).cells = s.cells := rfl
@[simp] theorem State.scrub_gangs (s : State) (k n : Nat) : (s.scrub k n).gangs = s.gangs := rfl
@[simp] theorem State.scrub_groups (s : State) (k n : Nat) : (s.scrub k n).groups = s.groups := rfl
@[simp] theorem State.scrub_launches (s : State) (k n : Nat) : (s.scrub k n).launches = s.launches := rfl
@[simp] theorem State.scrub_queues (s : State) (k n : Nat) : (s.scrub k n).queues = s.queues := rfl
@[simp] theorem State.scrub_objects (s : State) (k n : Nat) : (s.scrub k n).objects = s.objects := rfl
@[simp] theorem State.scrub_pgen (s : State) (k n : Nat) : (s.scrub k n).pgen = s.pgen := rfl
@[simp] theorem State.scrub_broods (s : State) (k n : Nat) : (s.scrub k n).broods = s.broods := rfl
@[simp] theorem State.scrub_bgen (s : State) (k n : Nat) : (s.scrub k n).bgen = s.bgen := rfl
@[simp] theorem State.scrub_rot (s : State) (k n : Nat) : (s.scrub k n).rot = s.rot := rfl
@[simp] theorem State.scrub_refused (s : State) (k n : Nat) : (s.scrub k n).refused = s.refused := rfl
@[simp] theorem State.scrub_feq (s : State) (k n : Nat) : (s.scrub k n).feq = s.feq := rfl
@[simp] theorem State.scrub_wgq (s : State) (k n : Nat) : (s.scrub k n).wgq = s.wgq := rfl
@[simp] theorem State.scrub_heat (s : State) (k n : Nat) : (s.scrub k n).heat = s.heat := rfl
@[simp] theorem State.scrub_cores (s : State) (k n : Nat) : (s.scrub k n).cores = s.cores := rfl
@[simp] theorem State.scrub_hives (s : State) (k n : Nat) : (s.scrub k n).hives = s.hives := rfl
@[simp] theorem State.scrub_dies (s : State) (k n : Nat) : (s.scrub k n).dies = s.dies := rfl
@[simp] theorem State.scrub_roots (s : State) (k n : Nat) : (s.scrub k n).roots = s.roots := rfl
@[simp] theorem State.scrub_posted (s : State) (k n : Nat) : (s.scrub k n).posted = s.posted := rfl
@[simp] theorem State.scrub_remotes (s : State) (k n : Nat) : (s.scrub k n).remotes = s.remotes := rfl
@[simp] theorem State.scrub_faults (s : State) (k n : Nat) : (s.scrub k n).faults = s.faults := rfl
@[simp] theorem State.scrub_cows (s : State) (k n : Nat) : (s.scrub k n).cows = s.cows := rfl
@[simp] theorem State.scrub_bars (s : State) (k n : Nat) : (s.scrub k n).bars = s.bars := rfl
@[simp] theorem State.scrub_hostAccs (s : State) (k n : Nat) : (s.scrub k n).hostAccs = s.hostAccs := rfl
@[simp] theorem State.scrub_comps (s : State) (k n : Nat) : (s.scrub k n).comps = s.comps := rfl
@[simp] theorem State.scrub_mgmt (s : State) (k n : Nat) : (s.scrub k n).mgmt = s.mgmt := rfl
@[simp] theorem State.scrub_budget (s : State) (k n : Nat) : (s.scrub k n).budget = s.budget := rfl
@[simp] theorem State.scrub_move (s : State) (k n : Nat) : (s.scrub k n).move = s.move := rfl
@[simp] theorem State.scrub_share (s : State) (k n : Nat) : (s.scrub k n).share = s.share := rfl
@[simp] theorem State.scrub_slow (s : State) (k n : Nat) : (s.scrub k n).slow = s.slow := rfl
@[simp] theorem State.scrub_quiescing (s : State) (k n : Nat) : (s.scrub k n).quiescing = s.quiescing := rfl
@[simp] theorem State.scrub_faultQ (s : State) (k n : Nat) : (s.scrub k n).faultQ = s.faultQ := rfl
@[simp] theorem State.scrub_funcs (s : State) (k n : Nat) : (s.scrub k n).funcs = s.funcs := rfl
@[simp] theorem State.scrub_vfEnable (s : State) (k n : Nat) : (s.scrub k n).vfEnable = s.vfEnable := rfl
@[simp] theorem State.scrub_numVfs (s : State) (k n : Nat) : (s.scrub k n).numVfs = s.numVfs := rfl
@[simp] theorem State.scrub_cfg (s : State) (k n : Nat) : (s.scrub k n).cfg = s.cfg := rfl
@[simp] theorem State.scrub_spdm (s : State) (k n : Nat) : (s.scrub k n).spdm = s.spdm := rfl
@[simp] theorem State.scrub_hubHash (s : State) (k n : Nat) : (s.scrub k n).hubHash = s.hubHash := rfl
@[simp] theorem State.scrub_dieHash (s : State) (k n : Nat) : (s.scrub k n).dieHash = s.dieHash := rfl
@[simp] theorem State.scrub_alias_ (s : State) (k n : Nat) : (s.scrub k n).alias_ = s.alias_ := rfl
@[simp] theorem State.scrub_links (s : State) (k n : Nat) : (s.scrub k n).links = s.links := rfl
@[simp] theorem State.scrub_stations (s : State) (k n : Nat) : (s.scrub k n).stations = s.stations := rfl
@[simp] theorem State.scrub_lost (s : State) (k n : Nat) : (s.scrub k n).lost = s.lost := rfl
@[simp] theorem State.scrub_out (s : State) (k n : Nat) : (s.scrub k n).out = s.out := rfl
@[simp] theorem State.scrub_slotSeq (s : State) (k n : Nat) : (s.scrub k n).slotSeq = s.slotSeq := rfl
@[simp] theorem State.scrub_stamp (s : State) (k n : Nat) : (s.scrub k n).stamp = s.stamp := rfl
@[simp] theorem State.scrub_hist (s : State) (k n : Nat) : (s.scrub k n).hist = s.hist.filter fun o => !overlap o.key o.data.length k n := rfl
@[simp] theorem State.scrub_rels (s : State) (k n : Nat) : (s.scrub k n).rels = s.rels.filter fun r => !overlap r.key r.size k n := rfl

@[simp] theorem State.orderReads_agenda (s : State) (c : Nat) (r w : Bool) (sc : Scope) : (s.orderReads c r w sc).agenda = s.agenda := rfl
@[simp] theorem State.orderReads_cur (s : State) (c : Nat) (r w : Bool) (sc : Scope) : (s.orderReads c r w sc).cur = s.cur := rfl
@[simp] theorem State.orderReads_freeCtr (s : State) (c : Nat) (r w : Bool) (sc : Scope) : (s.orderReads c r w sc).freeCtr = s.freeCtr := rfl
@[simp] theorem State.orderReads_nextId (s : State) (c : Nat) (r w : Bool) (sc : Scope) : (s.orderReads c r w sc).nextId = s.nextId := rfl
@[simp] theorem State.orderReads_qtime (s : State) (c : Nat) (r w : Bool) (sc : Scope) : (s.orderReads c r w sc).qtime = s.qtime := rfl
@[simp] theorem State.orderReads_gangs (s : State) (c : Nat) (r w : Bool) (sc : Scope) : (s.orderReads c r w sc).gangs = s.gangs := rfl
@[simp] theorem State.orderReads_groups (s : State) (c : Nat) (r w : Bool) (sc : Scope) : (s.orderReads c r w sc).groups = s.groups := rfl
@[simp] theorem State.orderReads_launches (s : State) (c : Nat) (r w : Bool) (sc : Scope) : (s.orderReads c r w sc).launches = s.launches := rfl
@[simp] theorem State.orderReads_queues (s : State) (c : Nat) (r w : Bool) (sc : Scope) : (s.orderReads c r w sc).queues = s.queues := rfl
@[simp] theorem State.orderReads_objects (s : State) (c : Nat) (r w : Bool) (sc : Scope) : (s.orderReads c r w sc).objects = s.objects := rfl
@[simp] theorem State.orderReads_pgen (s : State) (c : Nat) (r w : Bool) (sc : Scope) : (s.orderReads c r w sc).pgen = s.pgen := rfl
@[simp] theorem State.orderReads_broods (s : State) (c : Nat) (r w : Bool) (sc : Scope) : (s.orderReads c r w sc).broods = s.broods := rfl
@[simp] theorem State.orderReads_bgen (s : State) (c : Nat) (r w : Bool) (sc : Scope) : (s.orderReads c r w sc).bgen = s.bgen := rfl
@[simp] theorem State.orderReads_mem (s : State) (c : Nat) (r w : Bool) (sc : Scope) : (s.orderReads c r w sc).mem = s.mem := rfl
@[simp] theorem State.orderReads_rot (s : State) (c : Nat) (r w : Bool) (sc : Scope) : (s.orderReads c r w sc).rot = s.rot := rfl
@[simp] theorem State.orderReads_refused (s : State) (c : Nat) (r w : Bool) (sc : Scope) : (s.orderReads c r w sc).refused = s.refused := rfl
@[simp] theorem State.orderReads_feq (s : State) (c : Nat) (r w : Bool) (sc : Scope) : (s.orderReads c r w sc).feq = s.feq := rfl
@[simp] theorem State.orderReads_wgq (s : State) (c : Nat) (r w : Bool) (sc : Scope) : (s.orderReads c r w sc).wgq = s.wgq := rfl
@[simp] theorem State.orderReads_heat (s : State) (c : Nat) (r w : Bool) (sc : Scope) : (s.orderReads c r w sc).heat = s.heat := rfl
@[simp] theorem State.orderReads_cores (s : State) (c : Nat) (r w : Bool) (sc : Scope) : (s.orderReads c r w sc).cores = s.cores := rfl
@[simp] theorem State.orderReads_hives (s : State) (c : Nat) (r w : Bool) (sc : Scope) : (s.orderReads c r w sc).hives = s.hives := rfl
@[simp] theorem State.orderReads_dies (s : State) (c : Nat) (r w : Bool) (sc : Scope) : (s.orderReads c r w sc).dies = s.dies := rfl
@[simp] theorem State.orderReads_roots (s : State) (c : Nat) (r w : Bool) (sc : Scope) : (s.orderReads c r w sc).roots = s.roots := rfl
@[simp] theorem State.orderReads_posted (s : State) (c : Nat) (r w : Bool) (sc : Scope) : (s.orderReads c r w sc).posted = s.posted := rfl
@[simp] theorem State.orderReads_remotes (s : State) (c : Nat) (r w : Bool) (sc : Scope) : (s.orderReads c r w sc).remotes = s.remotes := rfl
@[simp] theorem State.orderReads_faults (s : State) (c : Nat) (r w : Bool) (sc : Scope) : (s.orderReads c r w sc).faults = s.faults := rfl
@[simp] theorem State.orderReads_cows (s : State) (c : Nat) (r w : Bool) (sc : Scope) : (s.orderReads c r w sc).cows = s.cows := rfl
@[simp] theorem State.orderReads_bars (s : State) (c : Nat) (r w : Bool) (sc : Scope) : (s.orderReads c r w sc).bars = s.bars := rfl
@[simp] theorem State.orderReads_hostAccs (s : State) (c : Nat) (r w : Bool) (sc : Scope) : (s.orderReads c r w sc).hostAccs = s.hostAccs := rfl
@[simp] theorem State.orderReads_comps (s : State) (c : Nat) (r w : Bool) (sc : Scope) : (s.orderReads c r w sc).comps = s.comps := rfl
@[simp] theorem State.orderReads_mgmt (s : State) (c : Nat) (r w : Bool) (sc : Scope) : (s.orderReads c r w sc).mgmt = s.mgmt := rfl
@[simp] theorem State.orderReads_budget (s : State) (c : Nat) (r w : Bool) (sc : Scope) : (s.orderReads c r w sc).budget = s.budget := rfl
@[simp] theorem State.orderReads_move (s : State) (c : Nat) (r w : Bool) (sc : Scope) : (s.orderReads c r w sc).move = s.move := rfl
@[simp] theorem State.orderReads_share (s : State) (c : Nat) (r w : Bool) (sc : Scope) : (s.orderReads c r w sc).share = s.share := rfl
@[simp] theorem State.orderReads_slow (s : State) (c : Nat) (r w : Bool) (sc : Scope) : (s.orderReads c r w sc).slow = s.slow := rfl
@[simp] theorem State.orderReads_quiescing (s : State) (c : Nat) (r w : Bool) (sc : Scope) : (s.orderReads c r w sc).quiescing = s.quiescing := rfl
@[simp] theorem State.orderReads_faultQ (s : State) (c : Nat) (r w : Bool) (sc : Scope) : (s.orderReads c r w sc).faultQ = s.faultQ := rfl
@[simp] theorem State.orderReads_funcs (s : State) (c : Nat) (r w : Bool) (sc : Scope) : (s.orderReads c r w sc).funcs = s.funcs := rfl
@[simp] theorem State.orderReads_vfEnable (s : State) (c : Nat) (r w : Bool) (sc : Scope) : (s.orderReads c r w sc).vfEnable = s.vfEnable := rfl
@[simp] theorem State.orderReads_numVfs (s : State) (c : Nat) (r w : Bool) (sc : Scope) : (s.orderReads c r w sc).numVfs = s.numVfs := rfl
@[simp] theorem State.orderReads_cfg (s : State) (c : Nat) (r w : Bool) (sc : Scope) : (s.orderReads c r w sc).cfg = s.cfg := rfl
@[simp] theorem State.orderReads_spdm (s : State) (c : Nat) (r w : Bool) (sc : Scope) : (s.orderReads c r w sc).spdm = s.spdm := rfl
@[simp] theorem State.orderReads_hubHash (s : State) (c : Nat) (r w : Bool) (sc : Scope) : (s.orderReads c r w sc).hubHash = s.hubHash := rfl
@[simp] theorem State.orderReads_dieHash (s : State) (c : Nat) (r w : Bool) (sc : Scope) : (s.orderReads c r w sc).dieHash = s.dieHash := rfl
@[simp] theorem State.orderReads_alias_ (s : State) (c : Nat) (r w : Bool) (sc : Scope) : (s.orderReads c r w sc).alias_ = s.alias_ := rfl
@[simp] theorem State.orderReads_links (s : State) (c : Nat) (r w : Bool) (sc : Scope) : (s.orderReads c r w sc).links = s.links := rfl
@[simp] theorem State.orderReads_stations (s : State) (c : Nat) (r w : Bool) (sc : Scope) : (s.orderReads c r w sc).stations = s.stations := rfl
@[simp] theorem State.orderReads_lost (s : State) (c : Nat) (r w : Bool) (sc : Scope) : (s.orderReads c r w sc).lost = s.lost := rfl
@[simp] theorem State.orderReads_out (s : State) (c : Nat) (r w : Bool) (sc : Scope) : (s.orderReads c r w sc).out = s.out := rfl
@[simp] theorem State.orderReads_slotSeq (s : State) (c : Nat) (r w : Bool) (sc : Scope) : (s.orderReads c r w sc).slotSeq = s.slotSeq := rfl
@[simp] theorem State.orderReads_stamp (s : State) (c : Nat) (r w : Bool) (sc : Scope) : (s.orderReads c r w sc).stamp = s.stamp := rfl
@[simp] theorem State.orderReads_hist (s : State) (c : Nat) (r w : Bool) (sc : Scope) : (s.orderReads c r w sc).hist = s.hist := rfl
@[simp] theorem State.orderReads_rels (s : State) (c : Nat) (r w : Bool) (sc : Scope) : (s.orderReads c r w sc).rels = s.rels := rfl
@[simp] theorem State.orderReads_empties (s : State) (c : Nat) (r w : Bool) (sc : Scope) : (s.orderReads c r w sc).empties = s.empties := rfl

@[simp] theorem State.released_agenda (s : State) (who : Agent) (k n : Nat) (sc : Scope) : (s.released who k n sc).agenda = s.agenda := rfl
@[simp] theorem State.released_cur (s : State) (who : Agent) (k n : Nat) (sc : Scope) : (s.released who k n sc).cur = s.cur := rfl
@[simp] theorem State.released_freeCtr (s : State) (who : Agent) (k n : Nat) (sc : Scope) : (s.released who k n sc).freeCtr = s.freeCtr := rfl
@[simp] theorem State.released_nextId (s : State) (who : Agent) (k n : Nat) (sc : Scope) : (s.released who k n sc).nextId = s.nextId := rfl
@[simp] theorem State.released_qtime (s : State) (who : Agent) (k n : Nat) (sc : Scope) : (s.released who k n sc).qtime = s.qtime := rfl
@[simp] theorem State.released_cells (s : State) (who : Agent) (k n : Nat) (sc : Scope) : (s.released who k n sc).cells = s.cells := rfl
@[simp] theorem State.released_gangs (s : State) (who : Agent) (k n : Nat) (sc : Scope) : (s.released who k n sc).gangs = s.gangs := rfl
@[simp] theorem State.released_groups (s : State) (who : Agent) (k n : Nat) (sc : Scope) : (s.released who k n sc).groups = s.groups := rfl
@[simp] theorem State.released_launches (s : State) (who : Agent) (k n : Nat) (sc : Scope) : (s.released who k n sc).launches = s.launches := rfl
@[simp] theorem State.released_queues (s : State) (who : Agent) (k n : Nat) (sc : Scope) : (s.released who k n sc).queues = s.queues := rfl
@[simp] theorem State.released_objects (s : State) (who : Agent) (k n : Nat) (sc : Scope) : (s.released who k n sc).objects = s.objects := rfl
@[simp] theorem State.released_pgen (s : State) (who : Agent) (k n : Nat) (sc : Scope) : (s.released who k n sc).pgen = s.pgen := rfl
@[simp] theorem State.released_broods (s : State) (who : Agent) (k n : Nat) (sc : Scope) : (s.released who k n sc).broods = s.broods := rfl
@[simp] theorem State.released_bgen (s : State) (who : Agent) (k n : Nat) (sc : Scope) : (s.released who k n sc).bgen = s.bgen := rfl
@[simp] theorem State.released_mem (s : State) (who : Agent) (k n : Nat) (sc : Scope) : (s.released who k n sc).mem = s.mem := rfl
@[simp] theorem State.released_rot (s : State) (who : Agent) (k n : Nat) (sc : Scope) : (s.released who k n sc).rot = s.rot := rfl
@[simp] theorem State.released_refused (s : State) (who : Agent) (k n : Nat) (sc : Scope) : (s.released who k n sc).refused = s.refused := rfl
@[simp] theorem State.released_feq (s : State) (who : Agent) (k n : Nat) (sc : Scope) : (s.released who k n sc).feq = s.feq := rfl
@[simp] theorem State.released_wgq (s : State) (who : Agent) (k n : Nat) (sc : Scope) : (s.released who k n sc).wgq = s.wgq := rfl
@[simp] theorem State.released_heat (s : State) (who : Agent) (k n : Nat) (sc : Scope) : (s.released who k n sc).heat = s.heat := rfl
@[simp] theorem State.released_cores (s : State) (who : Agent) (k n : Nat) (sc : Scope) : (s.released who k n sc).cores = s.cores := rfl
@[simp] theorem State.released_hives (s : State) (who : Agent) (k n : Nat) (sc : Scope) : (s.released who k n sc).hives = s.hives := rfl
@[simp] theorem State.released_dies (s : State) (who : Agent) (k n : Nat) (sc : Scope) : (s.released who k n sc).dies = s.dies := rfl
@[simp] theorem State.released_roots (s : State) (who : Agent) (k n : Nat) (sc : Scope) : (s.released who k n sc).roots = s.roots := rfl
@[simp] theorem State.released_posted (s : State) (who : Agent) (k n : Nat) (sc : Scope) : (s.released who k n sc).posted = s.posted := rfl
@[simp] theorem State.released_remotes (s : State) (who : Agent) (k n : Nat) (sc : Scope) : (s.released who k n sc).remotes = s.remotes := rfl
@[simp] theorem State.released_faults (s : State) (who : Agent) (k n : Nat) (sc : Scope) : (s.released who k n sc).faults = s.faults := rfl
@[simp] theorem State.released_cows (s : State) (who : Agent) (k n : Nat) (sc : Scope) : (s.released who k n sc).cows = s.cows := rfl
@[simp] theorem State.released_bars (s : State) (who : Agent) (k n : Nat) (sc : Scope) : (s.released who k n sc).bars = s.bars := rfl
@[simp] theorem State.released_hostAccs (s : State) (who : Agent) (k n : Nat) (sc : Scope) : (s.released who k n sc).hostAccs = s.hostAccs := rfl
@[simp] theorem State.released_comps (s : State) (who : Agent) (k n : Nat) (sc : Scope) : (s.released who k n sc).comps = s.comps := rfl
@[simp] theorem State.released_mgmt (s : State) (who : Agent) (k n : Nat) (sc : Scope) : (s.released who k n sc).mgmt = s.mgmt := rfl
@[simp] theorem State.released_budget (s : State) (who : Agent) (k n : Nat) (sc : Scope) : (s.released who k n sc).budget = s.budget := rfl
@[simp] theorem State.released_move (s : State) (who : Agent) (k n : Nat) (sc : Scope) : (s.released who k n sc).move = s.move := rfl
@[simp] theorem State.released_share (s : State) (who : Agent) (k n : Nat) (sc : Scope) : (s.released who k n sc).share = s.share := rfl
@[simp] theorem State.released_slow (s : State) (who : Agent) (k n : Nat) (sc : Scope) : (s.released who k n sc).slow = s.slow := rfl
@[simp] theorem State.released_quiescing (s : State) (who : Agent) (k n : Nat) (sc : Scope) : (s.released who k n sc).quiescing = s.quiescing := rfl
@[simp] theorem State.released_faultQ (s : State) (who : Agent) (k n : Nat) (sc : Scope) : (s.released who k n sc).faultQ = s.faultQ := rfl
@[simp] theorem State.released_funcs (s : State) (who : Agent) (k n : Nat) (sc : Scope) : (s.released who k n sc).funcs = s.funcs := rfl
@[simp] theorem State.released_vfEnable (s : State) (who : Agent) (k n : Nat) (sc : Scope) : (s.released who k n sc).vfEnable = s.vfEnable := rfl
@[simp] theorem State.released_numVfs (s : State) (who : Agent) (k n : Nat) (sc : Scope) : (s.released who k n sc).numVfs = s.numVfs := rfl
@[simp] theorem State.released_cfg (s : State) (who : Agent) (k n : Nat) (sc : Scope) : (s.released who k n sc).cfg = s.cfg := rfl
@[simp] theorem State.released_spdm (s : State) (who : Agent) (k n : Nat) (sc : Scope) : (s.released who k n sc).spdm = s.spdm := rfl
@[simp] theorem State.released_hubHash (s : State) (who : Agent) (k n : Nat) (sc : Scope) : (s.released who k n sc).hubHash = s.hubHash := rfl
@[simp] theorem State.released_dieHash (s : State) (who : Agent) (k n : Nat) (sc : Scope) : (s.released who k n sc).dieHash = s.dieHash := rfl
@[simp] theorem State.released_alias_ (s : State) (who : Agent) (k n : Nat) (sc : Scope) : (s.released who k n sc).alias_ = s.alias_ := rfl
@[simp] theorem State.released_links (s : State) (who : Agent) (k n : Nat) (sc : Scope) : (s.released who k n sc).links = s.links := rfl
@[simp] theorem State.released_stations (s : State) (who : Agent) (k n : Nat) (sc : Scope) : (s.released who k n sc).stations = s.stations := rfl
@[simp] theorem State.released_lost (s : State) (who : Agent) (k n : Nat) (sc : Scope) : (s.released who k n sc).lost = s.lost := rfl
@[simp] theorem State.released_out (s : State) (who : Agent) (k n : Nat) (sc : Scope) : (s.released who k n sc).out = s.out := rfl
@[simp] theorem State.released_slotSeq (s : State) (who : Agent) (k n : Nat) (sc : Scope) : (s.released who k n sc).slotSeq = s.slotSeq := rfl
@[simp] theorem State.released_stamp (s : State) (who : Agent) (k n : Nat) (sc : Scope) : (s.released who k n sc).stamp = s.stamp := rfl
@[simp] theorem State.released_empties (s : State) (who : Agent) (k n : Nat) (sc : Scope) : (s.released who k n sc).empties = s.empties := rfl
@[simp] theorem State.released_rels (s : State) (who : Agent) (k n : Nat) (sc : Scope) :
    (s.released who k n sc).rels = s.releaseOf who k n sc :: s.rels := rfl

@[simp] theorem State.writeBlock_agenda (s : State) (k : Nat) (d : List Byte) : (s.writeBlock k d).agenda = s.agenda := rfl
@[simp] theorem State.writeBlock_cur (s : State) (k : Nat) (d : List Byte) : (s.writeBlock k d).cur = s.cur := rfl
@[simp] theorem State.writeBlock_freeCtr (s : State) (k : Nat) (d : List Byte) : (s.writeBlock k d).freeCtr = s.freeCtr := rfl
@[simp] theorem State.writeBlock_nextId (s : State) (k : Nat) (d : List Byte) : (s.writeBlock k d).nextId = s.nextId := rfl
@[simp] theorem State.writeBlock_qtime (s : State) (k : Nat) (d : List Byte) : (s.writeBlock k d).qtime = s.qtime := rfl
@[simp] theorem State.writeBlock_cells (s : State) (k : Nat) (d : List Byte) : (s.writeBlock k d).cells = s.cells := rfl
@[simp] theorem State.writeBlock_gangs (s : State) (k : Nat) (d : List Byte) : (s.writeBlock k d).gangs = s.gangs := rfl
@[simp] theorem State.writeBlock_groups (s : State) (k : Nat) (d : List Byte) : (s.writeBlock k d).groups = s.groups := rfl
@[simp] theorem State.writeBlock_launches (s : State) (k : Nat) (d : List Byte) : (s.writeBlock k d).launches = s.launches := rfl
@[simp] theorem State.writeBlock_queues (s : State) (k : Nat) (d : List Byte) : (s.writeBlock k d).queues = s.queues := rfl
@[simp] theorem State.writeBlock_objects (s : State) (k : Nat) (d : List Byte) : (s.writeBlock k d).objects = s.objects := rfl
@[simp] theorem State.writeBlock_pgen (s : State) (k : Nat) (d : List Byte) : (s.writeBlock k d).pgen = s.pgen := rfl
@[simp] theorem State.writeBlock_broods (s : State) (k : Nat) (d : List Byte) : (s.writeBlock k d).broods = s.broods := rfl
@[simp] theorem State.writeBlock_bgen (s : State) (k : Nat) (d : List Byte) : (s.writeBlock k d).bgen = s.bgen := rfl
@[simp] theorem State.writeBlock_empties (s : State) (k : Nat) (d : List Byte) : (s.writeBlock k d).empties = s.empties := rfl
@[simp] theorem State.writeBlock_rot (s : State) (k : Nat) (d : List Byte) : (s.writeBlock k d).rot = s.rot := rfl
@[simp] theorem State.writeBlock_feq (s : State) (k : Nat) (d : List Byte) : (s.writeBlock k d).feq = s.feq := rfl
@[simp] theorem State.writeBlock_wgq (s : State) (k : Nat) (d : List Byte) : (s.writeBlock k d).wgq = s.wgq := rfl
@[simp] theorem State.writeBlock_heat (s : State) (k : Nat) (d : List Byte) : (s.writeBlock k d).heat = s.heat := rfl
@[simp] theorem State.writeBlock_cores (s : State) (k : Nat) (d : List Byte) : (s.writeBlock k d).cores = s.cores := rfl
@[simp] theorem State.writeBlock_hives (s : State) (k : Nat) (d : List Byte) : (s.writeBlock k d).hives = s.hives := rfl
@[simp] theorem State.writeBlock_dies (s : State) (k : Nat) (d : List Byte) : (s.writeBlock k d).dies = s.dies := rfl
@[simp] theorem State.writeBlock_roots (s : State) (k : Nat) (d : List Byte) : (s.writeBlock k d).roots = s.roots := rfl
@[simp] theorem State.writeBlock_posted (s : State) (k : Nat) (d : List Byte) : (s.writeBlock k d).posted = s.posted := rfl
@[simp] theorem State.writeBlock_remotes (s : State) (k : Nat) (d : List Byte) : (s.writeBlock k d).remotes = s.remotes := rfl
@[simp] theorem State.writeBlock_faults (s : State) (k : Nat) (d : List Byte) : (s.writeBlock k d).faults = s.faults := rfl
@[simp] theorem State.writeBlock_cows (s : State) (k : Nat) (d : List Byte) : (s.writeBlock k d).cows = s.cows := rfl
@[simp] theorem State.writeBlock_bars (s : State) (k : Nat) (d : List Byte) : (s.writeBlock k d).bars = s.bars := rfl
@[simp] theorem State.writeBlock_hostAccs (s : State) (k : Nat) (d : List Byte) : (s.writeBlock k d).hostAccs = s.hostAccs := rfl
@[simp] theorem State.writeBlock_comps (s : State) (k : Nat) (d : List Byte) : (s.writeBlock k d).comps = s.comps := rfl
@[simp] theorem State.writeBlock_mgmt (s : State) (k : Nat) (d : List Byte) : (s.writeBlock k d).mgmt = s.mgmt := rfl
@[simp] theorem State.writeBlock_budget (s : State) (k : Nat) (d : List Byte) : (s.writeBlock k d).budget = s.budget := rfl
@[simp] theorem State.writeBlock_move (s : State) (k : Nat) (d : List Byte) : (s.writeBlock k d).move = s.move := rfl
@[simp] theorem State.writeBlock_share (s : State) (k : Nat) (d : List Byte) : (s.writeBlock k d).share = s.share := rfl
@[simp] theorem State.writeBlock_slow (s : State) (k : Nat) (d : List Byte) : (s.writeBlock k d).slow = s.slow := rfl
@[simp] theorem State.writeBlock_quiescing (s : State) (k : Nat) (d : List Byte) : (s.writeBlock k d).quiescing = s.quiescing := rfl
@[simp] theorem State.writeBlock_faultQ (s : State) (k : Nat) (d : List Byte) : (s.writeBlock k d).faultQ = s.faultQ := rfl
@[simp] theorem State.writeBlock_funcs (s : State) (k : Nat) (d : List Byte) : (s.writeBlock k d).funcs = s.funcs := rfl
@[simp] theorem State.writeBlock_vfEnable (s : State) (k : Nat) (d : List Byte) : (s.writeBlock k d).vfEnable = s.vfEnable := rfl
@[simp] theorem State.writeBlock_numVfs (s : State) (k : Nat) (d : List Byte) : (s.writeBlock k d).numVfs = s.numVfs := rfl
@[simp] theorem State.writeBlock_cfg (s : State) (k : Nat) (d : List Byte) : (s.writeBlock k d).cfg = s.cfg := rfl
@[simp] theorem State.writeBlock_spdm (s : State) (k : Nat) (d : List Byte) : (s.writeBlock k d).spdm = s.spdm := rfl
@[simp] theorem State.writeBlock_hubHash (s : State) (k : Nat) (d : List Byte) : (s.writeBlock k d).hubHash = s.hubHash := rfl
@[simp] theorem State.writeBlock_dieHash (s : State) (k : Nat) (d : List Byte) : (s.writeBlock k d).dieHash = s.dieHash := rfl
@[simp] theorem State.writeBlock_alias_ (s : State) (k : Nat) (d : List Byte) : (s.writeBlock k d).alias_ = s.alias_ := rfl
@[simp] theorem State.writeBlock_links (s : State) (k : Nat) (d : List Byte) : (s.writeBlock k d).links = s.links := rfl
@[simp] theorem State.writeBlock_stations (s : State) (k : Nat) (d : List Byte) : (s.writeBlock k d).stations = s.stations := rfl
@[simp] theorem State.writeBlock_lost (s : State) (k : Nat) (d : List Byte) : (s.writeBlock k d).lost = s.lost := rfl
@[simp] theorem State.writeBlock_out (s : State) (k : Nat) (d : List Byte) : (s.writeBlock k d).out = s.out := rfl
@[simp] theorem State.writeBlock_slotSeq (s : State) (k : Nat) (d : List Byte) : (s.writeBlock k d).slotSeq = s.slotSeq := rfl
@[simp] theorem State.writeBlock_stamp (s : State) (k : Nat) (d : List Byte) : (s.writeBlock k d).stamp = s.stamp := rfl
@[simp] theorem State.writeBlock_hist (s : State) (k : Nat) (d : List Byte) : (s.writeBlock k d).hist = s.hist := rfl
@[simp] theorem State.writeBlock_rels (s : State) (k : Nat) (d : List Byte) : (s.writeBlock k d).rels = s.rels := rfl
@[simp] theorem State.writeBlock_mem (s : State) (k : Nat) (d : List Byte) : (s.writeBlock k d).mem = memPut s.mem k d := rfl
@[simp] theorem State.writeBlock_refused (s : State) (k : Nat) (d : List Byte) : (s.writeBlock k d).refused = clearRefused s.refused k d.length := rfl

end Sys2Proof.Machine
end

