-- ==== Sys2Proof/Laws/Table.lean ====
section
/-! SUPPORT. Tables: what is found after an entry is put, removed or changed, and that the canonical form is kept. -/

namespace Sys2Proof

variable {α : Type}

@[simp] theorem Tab.find_put_self (t : Tab α) (k : Nat) (v : α) : Tab.find (Tab.put t k v) k = some v := by
  induction t with
  | nil => simp [Tab.put, Tab.find]
  | cons e t ih =>
    obtain ⟨k', v'⟩ := e
    simp only [Tab.put]
    split
    · simp [Tab.find]
    · split
      · simp [Tab.find]
      · simp [Tab.find, *]

theorem Tab.find_put_ne (t : Tab α) {k k' : Nat} (v : α) (h : k' ≠ k) : Tab.find (Tab.put t k v) k' = Tab.find t k' := by
  induction t with
  | nil => simp [Tab.put, Tab.find, h]
  | cons e t ih =>
    obtain ⟨k0, v0⟩ := e
    simp only [Tab.put]
    split
    · simp [Tab.find, h]
    · split
      · subst_vars; simp [Tab.find, h]
      · simp [Tab.find, ih]

@[simp] theorem Tab.put_put (t : Tab α) (k : Nat) (v w : α) : Tab.put (Tab.put t k v) k w = Tab.put t k w := by
  induction t with
  | nil => simp [Tab.put]
  | cons e t ih =>
    obtain ⟨k0, v0⟩ := e
    by_cases h1 : k < k0
    · simp [Tab.put, h1]
    · by_cases h2 : k = k0
      · simp [Tab.put, h2]
      · simp [Tab.put, h1, h2, ih]

theorem Tab.adjust_of_find {t : Tab α} {k : Nat} {v : α} (h : Tab.find t k = some v) (f : α → α) :
    Tab.adjust t k f = Tab.put t k (f v) := by simp [Tab.adjust, h]

theorem Tab.find_adjust_self (t : Tab α) (k : Nat) (f : α → α) : Tab.find (Tab.adjust t k f) k = (Tab.find t k).map f := by
  unfold Tab.adjust
  split <;> simp [*]

theorem Tab.find_adjust_ne (t : Tab α) {k k' : Nat} (f : α → α) (h : k' ≠ k) : Tab.find (Tab.adjust t k f) k' = Tab.find t k' := by
  unfold Tab.adjust
  split
  · exact Tab.find_put_ne _ _ h
  · rfl

@[simp] theorem Tab.adjust_adjust (t : Tab α) (k : Nat) (f g : α → α) : Tab.adjust (Tab.adjust t k f) k g = Tab.adjust t k (g ∘ f) := by
  cases h : Tab.find t k with
  | none => simp [Tab.adjust, h]
  | some v => simp [Tab.adjust, h]

theorem Tab.find_del_ne (t : Tab α) {k k' : Nat} (h : k' ≠ k) : Tab.find (Tab.del t k) k' = Tab.find t k' := by
  induction t with
  | nil => simp [Tab.del]
  | cons e t ih =>
    obtain ⟨k0, v0⟩ := e
    by_cases hk : k = k0
    · subst hk; simp [Tab.del, Tab.find, h]
    · simp [Tab.del, Tab.find, hk, ih]

/-! ### Order -/

/-- Every key of the table is above `k`. -/
def Tab.above (k : Nat) (t : Tab α) : Prop := ∀ e ∈ t, k < e.1

theorem Tab.sorted_cons {e : Nat × α} {t : Tab α} : Tab.sorted (e :: t) = true ↔ Tab.above e.1 t ∧ Tab.sorted t = true := by
  induction t generalizing e with
  | nil => simp [Tab.sorted, Tab.above]
  | cons a t ih =>
    simp only [Tab.sorted, Bool.and_eq_true, decide_eq_true_eq]
    constructor
    · rintro ⟨h, hs⟩
      refine ⟨?_, hs⟩
      intro x hx
      rcases List.mem_cons.mp hx with rfl | hx
      · exact h
      · exact Nat.lt_trans h ((ih.mp hs).1 x hx)
    · rintro ⟨h, hs⟩
      exact ⟨h a (by simp), hs⟩

/-- A sorted table's keys rise pairwise. -/
theorem Tab.sorted_iff {t : Tab α} : Tab.sorted t = true ↔ t.Pairwise fun a b => a.1 < b.1 := by
  induction t with
  | nil => simp [Tab.sorted]
  | cons e t ih => rw [Tab.sorted_cons, List.pairwise_cons, ih]; rfl

theorem Tab.find_append (t u : Tab α) (k : Nat) : Tab.find (t ++ u) k = (Tab.find t k).or (Tab.find u k) := by
  induction t with
  | nil => rfl
  | cons e t ih =>
    obtain ⟨k0, v0⟩ := e
    simp only [List.cons_append, Tab.find]
    split <;> simp [ih]

theorem Tab.find_filter (t : Tab α) (p : Nat → Bool) (k : Nat) : Tab.find (t.filter fun e => p e.1) k = if p k then Tab.find t k else none := by
  induction t with
  | nil => simp [Tab.find]
  | cons e t ih =>
    obtain ⟨k0, v0⟩ := e
    by_cases h : k = k0
    · subst h; cases hp : p k <;> simp_all [Tab.find]
    · cases hp : p k0 <;> simp_all [Tab.find]

theorem Tab.above_put {k0 k : Nat} {v : α} {t : Tab α} (h : Tab.above k0 t) (hk : k0 < k) : Tab.above k0 (Tab.put t k v) := by
  induction t with
  | nil => intro e he; simp [Tab.put] at he; subst he; exact hk
  | cons a t ih =>
    obtain ⟨k', v'⟩ := a
    have ht : Tab.above k0 t := fun e he => h e (by simp [he])
    have h' : k0 < k' := h (k', v') (by simp)
    simp only [Tab.put]
    intro e he
    split at he
    · simp only [List.mem_cons] at he; rcases he with rfl | rfl | he
      · exact hk
      · exact h'
      · exact ht e he
    · split at he
      · simp only [List.mem_cons] at he; rcases he with rfl | he
        · exact hk
        · exact ht e he
      · simp only [List.mem_cons] at he; rcases he with rfl | he
        · exact h'
        · exact ih ht e he

theorem Tab.sorted_put {t : Tab α} (h : Tab.sorted t = true) (k : Nat) (v : α) : Tab.sorted (Tab.put t k v) = true := by
  induction t with
  | nil => simp [Tab.put, Tab.sorted]
  | cons a t ih =>
    obtain ⟨k', v'⟩ := a
    obtain ⟨ha, hs⟩ := Tab.sorted_cons.mp h
    simp only [Tab.put]
    split
    · rename_i hk
      refine Tab.sorted_cons.mpr ⟨?_, h⟩
      intro e he
      rcases List.mem_cons.mp he with rfl | he
      · exact hk
      · exact Nat.lt_trans hk (ha e he)
    · split
      · subst_vars; exact Tab.sorted_cons.mpr ⟨ha, hs⟩
      · rename_i h1 h2
        exact Tab.sorted_cons.mpr ⟨Tab.above_put ha (by omega), ih hs⟩

theorem Tab.mem_del {t : Tab α} {k : Nat} {e : Nat × α} (h : e ∈ Tab.del t k) : e ∈ t := by
  induction t with
  | nil => simp [Tab.del] at h
  | cons a t ih =>
    obtain ⟨k', v'⟩ := a
    simp only [Tab.del] at h
    split at h
    · simp [h]
    · rcases List.mem_cons.mp h with rfl | h
      · simp
      · simp [ih h]

theorem Tab.sorted_del {t : Tab α} (h : Tab.sorted t = true) (k : Nat) : Tab.sorted (Tab.del t k) = true := by
  induction t with
  | nil => simp [Tab.del, Tab.sorted]
  | cons a t ih =>
    obtain ⟨k', v'⟩ := a
    obtain ⟨ha, hs⟩ := Tab.sorted_cons.mp h
    simp only [Tab.del]
    split
    · exact hs
    · exact Tab.sorted_cons.mpr ⟨fun e he => ha e (Tab.mem_del he), ih hs⟩

theorem Tab.find_above {t : Tab α} {k : Nat} (h : Tab.above k t) : Tab.find t k = none := by
  induction t with
  | nil => rfl
  | cons a t ih =>
    have : k < a.1 := h a (by simp)
    obtain ⟨k', v'⟩ := a
    simp only [Tab.find]
    rw [if_neg (by simp at this; omega)]
    exact ih fun e he => h e (by simp [he])

theorem Tab.find_del_self {t : Tab α} (h : Tab.sorted t = true) (k : Nat) : Tab.find (Tab.del t k) k = none := by
  induction t with
  | nil => rfl
  | cons a t ih =>
    obtain ⟨k', v'⟩ := a
    obtain ⟨ha, hs⟩ := Tab.sorted_cons.mp h
    simp only [Tab.del]
    split
    · subst_vars; exact Tab.find_above ha
    · rename_i hk; simp [Tab.find, hk, ih hs]

theorem Tab.mem_put {t : Tab α} {k : Nat} {v : α} {e : Nat × α} (h : e ∈ Tab.put t k v) : e = (k, v) ∨ e ∈ t := by
  induction t with
  | nil => simp [Tab.put] at h; exact .inl h
  | cons a t ih =>
    obtain ⟨k', v'⟩ := a
    simp only [Tab.put] at h
    split at h
    · rcases List.mem_cons.mp h with rfl | h
      · exact .inl rfl
      · exact .inr h
    · split at h
      · rcases List.mem_cons.mp h with rfl | h
        · exact .inl rfl
        · exact .inr (by simp [h])
      · rcases List.mem_cons.mp h with rfl | h
        · exact .inr (by simp)
        · rcases ih h with h | h
          · exact .inl h
          · exact .inr (by simp [h])

/-! ### Tables with a default -/

variable [DecidableEq α]

theorem Tab.getD_setD_ne (t : Tab α) {k k' : Nat} (d v : α) (h : k' ≠ k) : Tab.getD (Tab.setD t k d v) k' d = Tab.getD t k' d := by
  unfold Tab.getD Tab.setD
  split
  · rw [Tab.find_del_ne _ h]
  · rw [Tab.find_put_ne _ _ h]

theorem Tab.getD_setD_self {t : Tab α} (hs : Tab.sorted t = true) (k : Nat) (d v : α) : Tab.getD (Tab.setD t k d v) k d = v := by
  unfold Tab.getD Tab.setD
  split
  · rw [Tab.find_del_self hs]; simp [*]
  · simp

theorem Tab.wf_sorted {d : α} {t : Tab α} (h : Tab.wf d t = true) : Tab.sorted t = true := by
  simp [Tab.wf] at h; exact h.1

/-- Setting an entry keeps the canonical form. -/
theorem Tab.wf_setD {d : α} {t : Tab α} (h : Tab.wf d t = true) (k : Nat) (v : α) : Tab.wf d (Tab.setD t k d v) = true := by
  simp only [Tab.wf, Bool.and_eq_true, List.all_eq_true, decide_eq_true_eq] at h ⊢
  unfold Tab.setD
  split
  · exact ⟨Tab.sorted_del h.1 k, fun e he => h.2 e (Tab.mem_del he)⟩
  · rename_i hv
    refine ⟨Tab.sorted_put h.1 k v, fun e he => ?_⟩
    rcases Tab.mem_put he with rfl | he
    · exact hv
    · exact h.2 e he

/-- Dropping entries keeps the canonical form. -/
theorem Tab.wf_filter {d : α} {t : Tab α} (h : Tab.wf d t = true) (p : Nat × α → Bool) : Tab.wf d (t.filter p) = true := by
  induction t with
  | nil => exact h
  | cons a t ih =>
    simp only [Tab.wf, Bool.and_eq_true, List.all_eq_true, decide_eq_true_eq] at h ih ⊢
    obtain ⟨ha, hs⟩ := Tab.sorted_cons.mp h.1
    have ht := ih ⟨hs, fun e he => h.2 e (by simp [he])⟩
    rw [List.filter_cons]
    split
    · refine ⟨Tab.sorted_cons.mpr ⟨fun e he => ha e (List.mem_filter.mp he).1, ht.1⟩, fun e he => ?_⟩
      exact h.2 e (by rcases List.mem_cons.mp he with rfl | he <;> simp_all)
    · exact ht

end Sys2Proof
end

