-- ==== Sys2Proof/Safety.lean ====
section
/-! DEFINITION. What the statements speak of: registers as the program sees them, a cell that is ready to issue with nothing
under way, the end of an instruction, and the invariants. -/

namespace Sys2Proof

open Sys2Proof.Machine

/-- Memory keeps its canonical form. -/
def memOk (s : State) : Bool := Memory.wf s.mem

/-! ### Registers of the current cell -/

/-- x(r) of the current cell; x0 reads zero (spec 06 R138). -/
def rdX (s : State) (r : Reg) : Word := if r = 0 then 0 else s.me.x[r.toNat]'r.isLt

/-- f(r) of the current cell. -/
def rdF (s : State) (r : Reg) : W32 := s.me.f[r.toNat]'r.isLt

/-- v(r) of the current cell. -/
def rdV (s : State) (r : Reg) : VReg := s.me.v[r.toNat]'r.isLt

/-- m(r) of the current cell. -/
def rdM (s : State) (r : MReg) : VReg := s.me.m[r.toNat]'r.isLt

/-- x(r) takes a value; a write to x0 is discarded (spec 06 R138). -/
def wrX (s : State) (r : Reg) (v : Word) : State := if r = 0 then s else s.modMe fun c => { c with x := c.x.set r.toNat v r.isLt }

/-- f(r) takes a value. -/
def wrF (s : State) (r : Reg) (v : W32) : State := s.modMe fun c => { c with f := c.f.set r.toNat v r.isLt }

/-- v(r) takes a value. -/
def wrV (s : State) (r : Reg) (v : VReg) : State := s.modMe fun c => { c with v := c.v.set r.toNat v r.isLt }

/-- m(r) takes a value. -/
def wrM (s : State) (r : MReg) (v : VReg) : State := s.modMe fun c => { c with m := c.m.set r.toNat v r.isLt }

/-- A result of variable latency: x(r) is empty until the value arrives; for x0 nothing happens (spec 06 R133, R135). -/
def lateX (s : State) (r : Reg) (v : Word) : State :=
  if r = 0 then s
  else s.modMe fun c => { c with xe := c.xe ||| (1#32 <<< r.toNat), pend := c.pend ++ [{ dst := .x r, val := v.toNat }] }

/-- The same for f(r). -/
def lateF (s : State) (r : Reg) (v : W32) : State :=
  s.modMe fun c => { c with fe := c.fe ||| (1#32 <<< r.toNat), pend := c.pend ++ [{ dst := .f r, val := v.toNat }] }

/-- The control and status registers of the current cell are changed. -/
def wrCsr (s : State) (f : Csrs → Csrs) : State := s.modMe fun c => { c with csr := f c.csr }

/-! ### A turn -/

/-- The current cell is resident and ready, no register of it is empty, no register names a hand-off queue, no early read is
open, and no instruction is under way. -/
def calm (s : State) : Bool :=
  canIssue s && s.me.xe == 0 && s.me.fe == 0 && s.me.ve == 0 && s.me.csr.hoqen == 0 && s.me.early.isEmpty && s.me.latch.isEmpty && s.me.pushed.isEmpty
    && s.me.reply.isNone && s.me.got.isEmpty && s.me.stage == 0

/-- The current cell's turn begins with an instruction of `len` bytes. -/
def begun (s : State) (len : Nat) : State := s.modMe fun c => { c with ilen := len }

/-- A scalar instruction of the current cell's turn has accumulated its flags in qfcsr (spec 06 R143). -/
def flagged (s : State) (fl : Fl) : State := wrCsr (begun s 4) fun c => { c with qfcsr := orFlags c.qfcsr fl }

/-- The cause of the first of NV, DZ and OF that is raised and enabled in qfcsr (spec 06 R143). -/
def fpCause (qfcsr : Word) (fl : Fl) : Option Nat :=
  if fl.nv && qfcsr.getLsbD 16 then some 0x07
  else if fl.dz && qfcsr.getLsbD 17 then some 0x08
  else if fl.of && qfcsr.getLsbD 18 then some 0x09
  else none

/-- The instruction of `len` bytes completes in the state its effect left: the next pc is sequential, before the loop-back test
(spec 06 R148). -/
def after (t : State) (len : Nat) : State := finishCell t t.cur (t.me.pc + BitVec.ofNat 64 len)

/-- It completes with another next pc. -/
def jumped (t : State) (npc : Word) : State := finishCell t t.cur npc

/-- It takes a trap (spec 18 R368 to R371). -/
def trapped (t : State) (len cause : Nat) (tval : Word) : State := commit len (.trap t cause tval)

/-- It does not complete at this turn: the cell parks (spec 06 R129). -/
def waiting (t : State) (w : Wait) : State := commit 0 (.park t w)

/-- A scalar F instruction that raises flags: it completes in `t`, or takes the trap of an exception that is enabled, its flags set and nothing else
changed (spec 06 R143). -/
def flagsEnd (s : State) (i : Instr) (fl : Fl) (t : State) : Prop :=
  (fpCause s.me.csr.qfcsr fl = none → exec i s = .next (after t 4))
  ∧ ∀ cause, fpCause s.me.csr.qfcsr fl = some cause → exec i s = .next (trapped (flagged s fl) 4 cause 0)

/-! ### Vector instructions -/

/-- A calm cell whose core's vector unit has room (spec 09 R227). -/
def vready (s : State) : Bool := calm s && decide ((s.core (coreOf s.cur)).vec.length < 4)

/-- A register number that is a multiple of the grouping (spec 09 R201, R205). -/
def aligned (s : State) (r : Reg) : Bool := r.toNat % 2 ^ s.me.g == 0

/-- A vector instruction (its word, the width of its elements, the scalars it read) has gone into the unit: its active elements below
the element count take `f`, the other elements of its destination group are as before, and its flags are accumulated in qfcsr;
nothing traps (spec 09 R203, R204, R211, R223). -/
def vecTo (s : State) (q : Q64) (act : Nat → Bool) (d : Reg) (w n : Nat) (xa xb : Word) (f : Nat → Nat × Fl) : State :=
  let u := begun s 8
  let g := u.me.g
  let r := mapElems (getGroup u g d) w n act f
  raiseFlags (setGroup (fly u q n w (heldGroup u g w d) xa xb 0) g d r.1) r.2

/-- The same for a mask destination: its active bits below `n` take `f` (spec 09 R204, R212, R213). -/
def maskTo (s : State) (q : Q64) (act : Nat → Bool) (d : MReg) (w n : Nat) (xb : Word) (f : Nat → Bool) : State :=
  let u := begun s 8
  setM (fly u q n w (heldMask u d) 0 xb 0) d (BitVec.ofNat 1024 (mapMask (getM u d).toNat n act f))

/-! ### Matrix instructions -/

/-- The state in which an instruction of the matrix unit acts: its turn begun, and the lease of its core as it stands when the
quantum has been looked at (spec 11 R252, R253). -/
def leased (s : State) : State := (begun s 8).modCore s.myGang.core expireLease

/-- A calm cell whose gang holds the lease of its core, with the unit free, no matrix record left of a landing, and no vector result on its way
to the registers that the unit reads (spec 06 R133; 11 R251, R252; 18 R386). -/
def mready (s : State) : Bool :=
  (calm s && s.myGang.mrec.isNone && s.me.earlyV.isEmpty) && (s.core s.myGang.core).unit.isNone && ((leased s).core s.myGang.core).unit.isNone
    && ((leased s).core s.myGang.core).holder == some s.me.gang

/-- The tile is one that the gang declares (spec 11 R250). -/
def declared (s : State) (t : Tile) : Bool := bit s.myGang.hdr.accm t.toNat

/-- v(r) of the current cell takes a value that a read within a few turns may still find old (spec 06 R133). -/
def soonV (s : State) (r : Reg) (v : VReg) : State := setVLate s r v 3

/-! ### Accesses -/

/-- No access that the current cell has issued is still on its way to its home (spec 13 R290). -/
def quiet (s : State) : Bool := !busy s true

/-- No write of the `n` bytes at `k` is unordered before a read of them by the current cell (spec 13 R289, R293). -/
def settled (s : State) (k n : Nat) : Bool := (s.writesAfter (s.orderedTo s.cur k n) k n).isEmpty

/-- The current cell's instruction has waited, its reply has come, and nothing else is under way. -/
def replied (s : State) (v : Word) : Bool := calm (s.modMe fun c => { c with reply := none }) && s.me.reply == some v

/-- What an access that passed its checks may leave behind: TLB entries, heat counts, a drawn free value, and the cell's note of
its last fault; nothing else changes (spec 07 R169, R170, R174). -/
def seen (s s1 : State) : Prop :=
  ∃ hives dies heat freeCtr, s1 = { s with hives, dies, heat, freeCtr }
    ∨ s1 = { s.modMe (fun c => { c with faultDva := none, refaults := 0 }) with hives, dies, heat, freeCtr }

/-- Bytes `k` to `k + d.length - 1` of `t` hold `d`, and every other byte is as in `s`. -/
def stored (s t : State) (k : Nat) (d : List Byte) : Prop :=
  (∀ (j : Nat) (h : j < d.length), t.byte (k + j) = d[j]) ∧ ∀ a, a < k ∨ k + d.length ≤ a → t.byte a = s.byte a

end Sys2Proof
end

