-- ==== Sys2Proof/Laws/Memory.lean ====
section
/-! SUPPORT. Memory: its canonical form is kept by every operation on it, and what a byte reads as after a write. -/

namespace Sys2Proof.Machine

theorem memRun_mem {k : Nat} {d : List Byte} {e : Host.Cell} (h : e ∈ memRun k d) : k ≤ e.1 ∧ e.1 < k + d.length ∧ e.2 ≠ memDefault := by
  induction d generalizing k with
  | nil => simp [memRun] at h
  | cons b d ih =>
    simp only [List.length_cons]
    simp only [memRun] at h
    split at h
    · obtain ⟨h1, h2, h3⟩ := ih h; exact ⟨by omega, by omega, h3⟩
    · rcases List.mem_cons.mp h with rfl | h
      · exact ⟨Nat.le_refl _, by simp, ‹_›⟩
      · obtain ⟨h1, h2, h3⟩ := ih h; exact ⟨by omega, by omega, h3⟩

theorem memRun_sorted (k : Nat) (d : List Byte) : (memRun k d).Pairwise fun a b => a.1 < b.1 := by
  induction d generalizing k with
  | nil => exact .nil
  | cons b d ih =>
    simp only [memRun]
    split
    · exact ih _
    · exact .cons (fun e h => Nat.lt_of_lt_of_le (Nat.lt_succ_self k) (memRun_mem h).1) (ih _)

theorem memPut_wf {m : List Host.Cell} (h : Memory.wf m = true) (k : Nat) (d : List Byte) : Memory.wf (memPut m k d) = true := by
  simp only [Memory.wf, Tab.wf, Bool.and_eq_true, List.all_eq_true, decide_eq_true_eq] at h ⊢
  obtain ⟨hs, hd⟩ := h
  have hs := Tab.sorted_iff.mp hs
  refine ⟨Tab.sorted_iff.mpr ?_, ?_⟩
  · rw [memPut, List.append_assoc, List.pairwise_append, List.pairwise_append]
    refine ⟨hs.filter _, ⟨memRun_sorted k d, hs.filter _, ?_⟩, ?_⟩
    · intro a ha b hb
      have := memRun_mem ha
      have := (List.mem_filter.mp hb).2
      simp only [decide_eq_true_eq] at this; omega
    · intro a ha b hb
      have ha := (List.mem_filter.mp ha).2
      simp only [decide_eq_true_eq] at ha
      rcases List.mem_append.mp hb with hb | hb
      · have := memRun_mem hb; omega
      · have := (List.mem_filter.mp hb).2
        simp only [decide_eq_true_eq] at this; omega
  · intro e he
    rcases List.mem_append.mp he with he | he
    · rcases List.mem_append.mp he with he | he
      · exact hd e (List.mem_filter.mp he).1
      · exact (memRun_mem he).2.2
    · exact hd e (List.mem_filter.mp he).1

theorem poke_memOk {s : State} (h : memOk s = true) (k : Nat) (d : List Byte) : memOk (s.poke k d) = true := memPut_wf h k d

theorem scrub_memOk {s : State} (h : memOk s = true) (k n : Nat) : memOk (s.scrub k n) = true := Tab.wf_filter h _

theorem write_mem (s : State) (who : Agent) (hive : Option Nat) (k : Nat) (d : List Byte) : (s.write who hive k d).mem = (s.poke k d).mem := by
  unfold State.write; split <;> rfl

theorem write_memOk {s : State} (h : memOk s = true) (who : Agent) (hive : Option Nat) (k : Nat) (d : List Byte) :
    memOk (s.write who hive k d) = true := by
  unfold memOk; rw [write_mem]; exact poke_memOk h k d

theorem writeBlock_memOk {s : State} (h : memOk s = true) (k : Nat) (d : List Byte) : memOk (s.writeBlock k d) = true := memPut_wf h k d

theorem foldl_memOk {α : Type} {f : State → α → State} (hf : ∀ s a, memOk s = true → memOk (f s a) = true) :
    ∀ (l : List α) {s : State}, memOk s = true → memOk (l.foldl f s) = true
  | [], _, h => h
  | a :: l, s, h => foldl_memOk hf l (hf s a h)

theorem writeUnits_memOk {s : State} (h : memOk s = true) (who : Agent) (hive : Option Nat) (u : Nat) (ps : List (Nat × List Byte)) (turn : Nat) :
    memOk (s.writeUnits who hive u ps turn) = true := foldl_memOk (fun _ p h => write_memOk h who hive p.1 p.2) ps h

theorem writeLong_memOk {s : State} (h : memOk s = true) (who : Agent) (hive : Option Nat) (k : Nat) (d : List Byte) :
    memOk (s.writeLong who hive k d) = true := writeUnits_memOk h who hive 8 _ _

@[simp] theorem noteRead_mem (s : State) (c t k n : Nat) : (s.noteRead c t k n).mem = s.mem := by unfold State.noteRead; dsimp only; split <;> rfl

@[simp] theorem acquire_mem (s : State) (c k n : Nat) (sc : Scope) : (s.acquire c k n sc).mem = s.mem := by
  unfold State.acquire State.orderAfter; simp

theorem amoAt_memOk {s : State} (h : memOk s = true) (who : Agent) (hive : Option Nat) (k : Nat) (op : AmoOp) (n : Nat) (src cmp : Word) :
    memOk (amoAt s who hive k op n src cmp).1 = true := by
  unfold amoAt; dsimp only; split
  · exact write_memOk h who hive k _
  · exact h

theorem amoSync_memOk {s : State} (h : memOk s = true) (who : Agent) (hive : Option Nat) (k : Nat) (op : AmoOp) (n : Nat) (src cmp : Word)
    (acq rel : Bool) (sc : Scope) : memOk (amoSync s who hive k op n src cmp acq rel sc).1 = true := by
  have go (t : State) (ht : t.mem = s.mem) (w : Agent) : memOk (let r := amoAt t w hive k op n src cmp
      (if rel && decide (r.1.stamp ≠ t.stamp) then r.1.released w k n sc else r.1, r.2)).1 = true := by
    have h0 : memOk t = true := by unfold memOk at h ⊢; rw [ht]; exact h
    dsimp only; split <;> exact amoAt_memOk h0 w hive k op n src cmp
  unfold amoSync; cases who with
  | cell c =>
    refine go (if acq then s.acquire c k n sc else s.noteRead c s.stamp k n) ?_ (.cell c)
    split
    · exact acquire_mem ..
    · exact noteRead_mem ..
  | _ => exact go s rfl _

/-- A posted access that is performed keeps the form. -/
theorem performPost_memOk {s : State} (h : memOk s = true) (p : Post) : memOk (performPost s p) = true := by
  have send (o : Out) : memOk (sendPost s p o) = true := by unfold sendPost; dsimp only; split <;> exact h
  have amo (op : AmoOp) (n : Nat) (src cmp : Word) (acq : Bool) :=
    amoSync_memOk h (agentOf p.eng p.cell) (some (hiveOfCell p.cell)) p.pa op n src cmp acq p.rel p.sc
  unfold performPost; dsimp only; split
  · exact send _
  · exact h
  · exact send _
  · exact send _
  · split <;> exact write_memOk h (.cell p.cell) _ p.pa _
  · split
    · exact amo ..
    · split
      · exact amo ..
      · unfold bringTo
        repeat' split
        all_goals exact amo ..

theorem performAll_memOk {s : State} (h : memOk s = true) (ps : List Post) : memOk (performAll s ps) = true :=
  foldl_memOk (fun _ p h => performPost_memOk h p) ps h

/-- A page copy keeps the form. -/
theorem copyRange_memOk {s : State} (h : memOk s = true) (asid page src dst n : Nat) : memOk (copyRange s asid page src dst n) = true := by
  have put : ∀ (l : List Host.Cell) (m : List Host.Cell), Memory.wf m = true →
      Memory.wf (l.foldl (fun (m : List Host.Cell) e => Tab.setD m (e.1 - src + dst) memDefault e.2) m) = true := by
    intro l; induction l with
    | nil => exact fun _ h => h
    | cons e l ih => exact fun m h => ih _ (Tab.wf_setD h _ _)
  have h1 : memOk (performRange s dst n) = true := by
    unfold performRange; dsimp only
    refine foldl_memOk (fun s p h => ?_) _ (performAll_memOk ?_ _)
    rotate_left; · exact h
    unfold wakePerformed; split <;> exact h
  exact put _ _ (Tab.wf_filter h1 _)

theorem reset_memOk : memOk State.reset = true := rfl

theorem find_memRun_out {k : Nat} {d : List Byte} {a : Nat} (h : a < k ∨ k + d.length ≤ a) : Tab.find (memRun k d) a = none := by
  induction d generalizing k with
  | nil => rfl
  | cons b d ih =>
    simp only [List.length_cons] at h
    simp only [memRun]
    split
    · exact ih (by omega)
    · simp only [Tab.find]; rw [if_neg (by omega)]; exact ih (by omega)

theorem find_memPut (m : List Host.Cell) (k : Nat) (d : List Byte) (a : Nat) :
    Tab.find (memPut m k d) a =
      if k ≤ a ∧ a < k + d.length then Tab.find (memRun k d) a else Tab.find m a := by
  rw [memPut, Tab.find_append, Tab.find_append, Tab.find_filter m (fun x => decide (x < k)), Tab.find_filter m (fun x => decide (k + d.length ≤ x))]
  by_cases h1 : a < k
  · rw [find_memRun_out (.inl h1), if_neg (show ¬ (k ≤ a ∧ a < k + d.length) by omega)]
    simp [h1, show ¬ k + d.length ≤ a by omega]
  · by_cases h2 : a < k + d.length
    · simp [h1, h2, show k ≤ a by omega, show ¬ k + d.length ≤ a by omega]
    · rw [find_memRun_out (.inr (by omega)), if_neg (show ¬ (k ≤ a ∧ a < k + d.length) by omega)]
      simp [h1, show k + d.length ≤ a by omega]

theorem getD_memPut_out (m : List Host.Cell) (k : Nat) (d : List Byte) {a : Nat} (h : a < k ∨ k + d.length ≤ a) :
    Tab.getD (memPut m k d) a memDefault = Tab.getD m a memDefault := by
  unfold Tab.getD; rw [find_memPut, if_neg (by omega)]

/-- A byte outside the bytes stored reads as before. -/
theorem byte_poke_out (s : State) (k : Nat) (d : List Byte) {a : Nat} (h : a < k ∨ k + d.length ≤ a) :
    (s.poke k d).byte a = s.byte a := getD_memPut_out _ _ _ h

theorem byte_write_out (s : State) (who : Agent) (hive : Option Nat) (k : Nat) (d : List Byte) {a : Nat} (h : a < k ∨ k + d.length ≤ a) :
    (s.write who hive k d).byte a = s.byte a := by
  unfold State.byte; rw [write_mem]; exact getD_memPut_out _ _ _ h

theorem getD_memRun (k : Nat) (d : List Byte) (j : Nat) (h : j < d.length) : Tab.getD (memRun k d) (k + j) memDefault = d[j] := by
  induction d generalizing k j with
  | nil => simp at h
  | cons b d ih =>
    cases j with
    | zero =>
      simp only [memRun, List.getElem_cons_zero, Nat.add_zero]
      split
      · unfold Tab.getD; rw [find_memRun_out (.inl (by omega))]; exact (‹b = memDefault›).symm
      · simp [Tab.getD, Tab.find]
    | succ j =>
      have := ih (k + 1) j (by simpa using h)
      rw [show k + (j + 1) = k + 1 + j by omega]
      simp only [memRun, List.getElem_cons_succ]
      split
      · exact this
      · rw [← this]; simp only [Tab.getD, Tab.find]; rw [if_neg (by omega)]

theorem getD_memPut_in (m : List Host.Cell) (k : Nat) (d : List Byte) (j : Nat) (h : j < d.length) :
    Tab.getD (memPut m k d) (k + j) memDefault = d[j] := by
  rw [← getD_memRun k d j h]; unfold Tab.getD; rw [find_memPut, if_pos (by omega)]

/-- A byte stored reads back. -/
theorem byte_write_in (s : State) (who : Agent) (hive : Option Nat) (k : Nat) (d : List Byte) (j : Nat) (h : j < d.length) :
    (s.write who hive k d).byte (k + j) = d[j] := by
  unfold State.byte; rw [write_mem]; exact getD_memPut_in _ k d j h

end Sys2Proof.Machine
end

