-- ==== Sys2Proof/Laws/Turn.lean ====
section
/-! SUPPORT. The turn of an instruction: what `issue` answers where the cell is ready with nothing under way, and what reading,
writing and completing do there. -/

namespace Sys2Proof.Machine

theorem issue_next (len : Nat) (early : Early) (srcs dsts : List Dst) (body : State → Res) (s : State) :
    ∃ t, issue len early srcs dsts body s = .next t := by
  unfold issue
  split
  · simp only
    split
    · exact ⟨_, rfl⟩
    · split <;> exact ⟨_, rfl⟩
  · exact ⟨_, rfl⟩

theorem canIssue_iff {s : State} : canIssue s = true ↔ ∃ c, Tab.find s.cells s.cur = some c ∧ c.run = .ready := by
  unfold canIssue
  cases h : Tab.find s.cells s.cur with
  | none => simp
  | some c => simp

theorem me_of_find {s : State} {c : Cell} (h : Tab.find s.cells s.cur = some c) : s.me = c := by
  simp [State.me, State.cell, Tab.getD, h]

theorem modMe_me {s : State} {c : Cell} (h : Tab.find s.cells s.cur = some c) (f : Cell → Cell) : (s.modMe f).me = f c := by
  simp [State.me, State.cell, Tab.getD, State.modMe, State.modCell, Tab.find_adjust_self, h]

/-- What `calm` says, with the cell. -/
theorem calm_cell {s : State} (h : calm s = true) : ∃ c, Tab.find s.cells s.cur = some c ∧ s.me = c ∧ c.run = .ready ∧ c.xe = 0 ∧ c.fe = 0
    ∧ c.ve = 0 ∧ c.csr.hoqen = 0 ∧ c.early = [] ∧ c.latch = [] ∧ c.pushed = [] ∧ c.reply = none ∧ c.got = [] ∧ c.stage = 0 := by
  simp only [calm, Bool.and_eq_true, beq_iff_eq, List.isEmpty_iff, Option.isNone_iff_eq_none] at h
  obtain ⟨⟨⟨⟨⟨⟨⟨⟨⟨⟨h1, h2⟩, h3⟩, h4⟩, h5⟩, h6⟩, h7⟩, h8⟩, h9⟩, h10⟩, h11⟩ := h
  obtain ⟨c, hc, hr⟩ := canIssue_iff.mp h1
  have hm := me_of_find hc
  rw [hm] at h2 h3 h4 h5 h6 h7 h8 h9 h10 h11
  exact ⟨c, hc, hm, hr, h2, h3, h4, h5, h6, h7, h8, h9, h10, h11⟩

theorem begun_me {s : State} (h : calm s = true) (len : Nat) : (begun s len).me = { s.me with ilen := len } := by
  obtain ⟨c, hc, hm, _⟩ := calm_cell h
  rw [hm]; exact modMe_me hc _

theorem not_mapped {c : Cell} (h : c.csr.hoqen = 0) (r : Reg) : mapped c r = false := by
  simp [mapped, h, bit]

theorem isEmpty_full {c : Cell} (hx : c.xe = 0) (hf : c.fe = 0) (hv : c.ve = 0) (d : Dst) : isEmpty c d = false := by
  cases d <;> simp [isEmpty, hx, hf, hv]

theorem queuesOf_nil {c : Cell} (h : c.csr.hoqen = 0) (ds : List Dst) : queuesOf c ds = [] := by
  unfold queuesOf
  rw [List.filterMap_eq_nil_iff.mpr]
  · rfl
  · intro d _
    cases d <;> simp [not_mapped h]

/-- The operands of an instruction are there. -/
theorem operands_calm {s : State} (h : calm s = true) (len : Nat) (srcs dsts : List Dst) :
    operands (begun s len) srcs dsts = .ok (begun s len) := by
  obtain ⟨c, hc, hm, -, hx, hf, hv, hq, -⟩ := calm_cell h
  have hb := begun_me h len
  have hxe : (begun s len).me.xe = 0 := by rw [hb, hm]; exact hx
  have hfe : (begun s len).me.fe = 0 := by rw [hb, hm]; exact hf
  have hve : (begun s len).me.ve = 0 := by rw [hb, hm]; exact hv
  have hho : (begun s len).me.csr.hoqen = 0 := by rw [hb, hm]; exact hq
  have he : ∀ d, isEmpty (begun s len).me d = false := isEmpty_full hxe hfe hve
  unfold operands
  simp only [queuesOf_nil hho, List.filter_nil, he, Bool.false_or, not_mapped hho, Bool.false_and]
  rw [List.find?_eq_none.mpr (by intro d _; cases d <;> simp)]
  have hw : (srcs ++ dsts).filter (isEmpty (begun s len).me) = [] := List.filter_eq_nil_iff.mpr fun d _ => by simp [he d]
  simp [hw]

@[simp] theorem holding_ok (ds : List Dst) (t : State) : (Res.ok t).holding ds = .ok t := rfl
@[simp] theorem holding_jump (ds : List Dst) (t : State) (npc : Word) : (Res.jump t npc).holding ds = .jump t npc := rfl
@[simp] theorem holding_trap (ds : List Dst) (t : State) (cause : Nat) (tval : Word) (v : Option Nat) (m : Bool) :
    (Res.trap t cause tval v m).holding ds = .trap t cause tval v m := rfl
@[simp] theorem holding_spent (ds : List Dst) (t : State) : (Res.spent t).holding ds = .spent t := rfl
@[simp] theorem holding_kill (ds : List Dst) (t : State) (code : Nat) (val : Word) : (Res.kill t code val).holding ds = .kill t code val := rfl
@[simp] theorem holding_fin (ds : List Dst) (t : State) : (Res.fin t).holding ds = .fin t := rfl

/-- Where no destination names a queue, an instruction that waits reserves nothing. -/
theorem holding_park {t : State} (ds : List Dst) (w : Wait) (h : queuesOf t.me ds = []) : (Res.park t w).holding ds = .park t w := by
  simp only [Res.holding, h]; split <;> rfl

/-- An instruction with no destination reserves nothing. -/
@[simp] theorem holding_nil (r : Res) : r.holding [] = r := by
  cases r <;> first | rfl | exact holding_park [] _ rfl

/-- An instruction of a calm cell executes its body in the state where its turn has begun. -/
theorem issue_calm {s : State} (h : calm s = true) (len : Nat) (early : Early) (srcs dsts : List Dst) (body : State → Res)
    (he : early (begun s len) = none) : issue len early srcs dsts body s = .next (commit len ((body (begun s len)).holding dsts)) := by
  have hi : canIssue s = true := by simp only [calm, Bool.and_eq_true] at h; exact h.1.1.1.1.1.1.1.1.1.1
  have ho := operands_calm h len srcs dsts
  unfold issue
  rw [if_pos hi]
  show (match early (begun s len) with
    | some (cause, tval) => Host.Outcome.next (commit len (.trap (begun s len) cause tval))
    | none => match operands (begun s len) srcs dsts with
      | .error r => .next (commit len r)
      | .ok s1 => .next (commit len ((body s1).holding dsts))) = _
  rw [he, ho]

/-- A check of class 2 or 3 that fails traps. -/
theorem issue_early {s : State} (h : canIssue s = true) (len : Nat) (early : Early) (srcs dsts : List Dst) (body : State → Res)
    {cause : Nat} {tval : Word} (he : early (begun s len) = some (cause, tval)) :
    issue len early srcs dsts body s = .next (trapped (begun s len) len cause tval) := by
  unfold issue
  rw [if_pos h]
  show (match early (begun s len) with
    | some (cause, tval) => Host.Outcome.next (commit len (.trap (begun s len) cause tval))
    | none => match operands (begun s len) srcs dsts with
      | .error r => .next (commit len r)
      | .ok s1 => .next (commit len ((body s1).holding dsts))) = _
  rw [he]; rfl

theorem calm_issue {s : State} (h : calm s = true) : canIssue s = true := by
  simp only [calm, Bool.and_eq_true] at h; exact h.1.1.1.1.1.1.1.1.1.1

theorem issue_early_ex {s : State} (h : calm s = true) (len : Nat) (early : Early) (srcs dsts : List Dst) (body : State → Res)
    {cause : Nat} (he : ∃ w, early (begun s len) = some (cause, w)) :
    ∃ w, issue len early srcs dsts body s = .next (trapped (begun s len) len cause w) := by
  obtain ⟨w, he⟩ := he
  exact ⟨w, issue_early (calm_issue h) len early srcs dsts body he⟩

/-! ### Registers of a calm cell -/

theorem hazard_calm {s : State} (h : calm s = true) (len : Nat) (d : Dst) (n : Nat) : hazard (begun s len) d n = n := by
  obtain ⟨c, hc, hm, -, -, -, -, -, he, -⟩ := calm_cell h
  unfold hazard; rw [begun_me h, hm, he]; rfl

theorem getX_calm {s : State} (h : calm s = true) (len : Nat) (r : Reg) : getX (begun s len) r = rdX s r := by
  obtain ⟨c, hc, hm, -, -, -, -, hq, -⟩ := calm_cell h
  have hb := begun_me h len
  unfold getX rdX
  split
  · rfl
  · have hq' : (begun s len).me.csr.hoqen = 0 := by rw [hb, hm]; exact hq
    simp only [not_mapped hq', Bool.false_eq_true, if_false, hazard_calm h]
    simp [hb]

theorem getF_calm {s : State} (h : calm s = true) (len : Nat) (r : Reg) : getF (begun s len) r = rdF s r := by
  unfold getF rdF; rw [hazard_calm h]; simp [begun_me h]

theorem getV_calm {s : State} (h : calm s = true) (len : Nat) (r : Reg) : getV (begun s len) r = rdV s r := by
  unfold getV rdV; rw [hazard_calm h]; simp [begun_me h]

theorem getM_calm {s : State} (h : calm s = true) (len : Nat) (r : MReg) : getM (begun s len) r = rdM s r := by
  unfold getM rdM; simp [begun_me h]

theorem modMe_congr {s : State} {f g : Cell → Cell} (h : f s.me = g s.me) : s.modMe f = s.modMe g := by
  have : ∀ f : Cell → Cell, Tab.adjust s.cells s.cur f = match Tab.find s.cells s.cur with | some _ => Tab.put s.cells s.cur (f s.me) | none => s.cells := by
    intro f
    unfold Tab.adjust
    cases hf : Tab.find s.cells s.cur with
    | none => rfl
    | some c => rw [me_of_find hf]
  simp only [State.modMe, State.modCell, this f, this g, h]

/-- With no early read open, closing one changes nothing. -/
theorem noEarly_nil {d : Dst} {c : Cell} (h : c.early = []) : noEarly d c = c := by
  cases c; simp_all [noEarly]

theorem setX_calm {s : State} (h : calm s = true) (len : Nat) (r : Reg) (v : Word) : setX (begun s len) r v = wrX (begun s len) r v := by
  obtain ⟨c, hc, hm, -, -, -, -, hq, he, -⟩ := calm_cell h
  have hb := begun_me h len
  unfold setX wrX
  split
  · rfl
  · rw [not_mapped (by rw [hb, hm]; exact hq)]
    simp only [Bool.false_eq_true, if_false]
    exact modMe_congr (noEarly_nil (by rw [hb, hm]; exact he))

theorem setF_calm {s : State} (h : calm s = true) (len : Nat) (r : Reg) (v : W32) : setF (begun s len) r v = wrF (begun s len) r v := by
  obtain ⟨c, hc, hm, -, -, -, -, -, he, -⟩ := calm_cell h
  have hb := begun_me h len
  exact modMe_congr (noEarly_nil (by rw [hb, hm]; exact he))

theorem setV_calm {s : State} (h : calm s = true) (len : Nat) (r : Reg) (v : VReg) : setV (begun s len) r v = wrV (begun s len) r v := by
  obtain ⟨c, hc, hm, -, -, -, -, -, he, -⟩ := calm_cell h
  have hb := begun_me h len
  exact modMe_congr (noEarly_nil (by rw [hb, hm]; exact he))

theorem setM_calm (s : State) (r : MReg) (v : VReg) : setM s r v = wrM s r v := rfl

theorem deferX_calm {s : State} (h : calm s = true) (len : Nat) (r : Reg) (v : Word) :
    defer (begun s len) (.x r) v.toNat = lateX (begun s len) r v := by
  obtain ⟨c, hc, hm, -, -, -, -, hq, -⟩ := calm_cell h
  have hb := begun_me h len
  unfold defer lateX
  by_cases hr : r = 0
  · simp [hr]
  · simp [not_mapped (show (begun s len).me.csr.hoqen = 0 by rw [hb, hm]; exact hq)]
    rfl

theorem deferF_calm {s : State} (len : Nat) (r : Reg) (v : W32) : defer (begun s len) (.f r) v.toNat = lateF (begun s len) r v := rfl

@[simp] theorem begun_cur (s : State) (len : Nat) : (begun s len).cur = s.cur := rfl

/-! ### Ends of an instruction -/

@[simp] theorem commit_ok (len : Nat) (t : State) : commit len (.ok t) = after t len := rfl
@[simp] theorem commit_jump (len : Nat) (t : State) (npc : Word) : commit len (.jump t npc) = jumped t npc := rfl
@[simp] theorem commit_trap (len : Nat) (t : State) (cause : Nat) (tval : Word) : commit len (.trap t cause tval) = trapped t len cause tval := rfl

theorem loopBack_spec (tlev : Nat) (ls : List Loop) (npc : Word) :
    ∃ popped rest, ls = popped ++ rest ∧ (∀ l ∈ popped, (l.lev = tlev ∧ l.stop = npc) ∧ ¬ (l.cnt - l.idx).toNat > 1)
      ∧ ((∃ l tail, rest = l :: tail ∧ (l.lev = tlev ∧ l.stop = npc) ∧ (l.cnt - l.idx).toNat > 1
            ∧ loopBack tlev ls npc = ({ l with idx := l.idx + 1 } :: tail, l.start, true))
        ∨ ((∀ l ∈ rest.head?, ¬ (l.lev = tlev ∧ l.stop = npc)) ∧ loopBack tlev ls npc = (rest, npc, false))) := by
  induction ls with
  | nil => exact ⟨[], [], rfl, by simp, .inr ⟨by simp, rfl⟩⟩
  | cons l t ih =>
    unfold loopBack
    by_cases h : l.lev = tlev ∧ npc = l.stop
    · rw [if_pos h]
      by_cases h2 : (l.cnt - l.idx).toNat > 1
      · rw [if_pos h2]
        exact ⟨[], l :: t, rfl, by simp, .inl ⟨l, t, rfl, ⟨h.1, h.2.symm⟩, h2, rfl⟩⟩
      · rw [if_neg h2]
        obtain ⟨p, r, e, hp, hr⟩ := ih
        refine ⟨l :: p, r, by rw [e]; rfl, ?_, hr⟩
        intro x hx
        rcases List.mem_cons.mp hx with rfl | hx
        · exact ⟨⟨h.1, h.2.symm⟩, h2⟩
        · exact hp x hx
    · rw [if_neg h]
      refine ⟨[], l :: t, rfl, by simp, .inr ⟨?_, rfl⟩⟩
      intro x hx
      simp at hx; subst hx
      exact fun hh => h ⟨hh.1, hh.2.symm⟩

theorem modMe_other (s : State) (f : Cell → Cell) {d : Nat} (h : d ≠ s.cur) : (s.modMe f).cell d = s.cell d := by
  simp only [State.cell, Tab.getD, State.modMe, State.modCell, Tab.find_adjust_ne _ _ h]

theorem unlatch_nil {s : State} {c : Cell} {k : Nat} (hc : Tab.find s.cells k = some c) (hl : c.latch = []) (hp : c.pushed = []) :
    unlatch s k = s.modCell k fun c => { c with latch := [] } := by
  have hl : (s.cell k).latch = [] := by simp [State.cell, Tab.getD, hc, hl]
  unfold unlatch unreserve
  simp only [hl, List.foldl_nil]
  rw [if_pos]
  simp [State.cell, Tab.getD, State.modCell, Tab.find_adjust_self, hc, hp]

end Sys2Proof.Machine
end

