-- ==== Sys2Proof/Laws/Scalar.lean ====
section
/-! SUPPORT. One lemma per shared operation of the scalar instructions: what it answers for a calm cell. -/

namespace Sys2Proof.Machine

variable {s : State}

/-! ### Integer -/

theorem aluRR_calm (h : calm s = true) (f : Word → Word → Word) (rd rs1 rs2 : Reg) :
    aluRR f rd rs1 rs2 s = .next (after (wrX (begun s 4) rd (f (rdX s rs1) (rdX s rs2))) 4) := by
  unfold aluRR
  rw [issue_calm h 4 _ _ _ _ rfl, getX_calm h, getX_calm h, setX_calm h]; rfl

theorem aluRI_calm (h : calm s = true) (f : Word → Word → Word) (rd rs1 : Reg) (imm : BitVec 12) :
    aluRI f rd rs1 imm s = .next (after (wrX (begun s 4) rd (f (rdX s rs1) (imm.signExtend 64))) 4) := by
  unfold aluRI
  rw [issue_calm h 4 _ _ _ _ rfl, getX_calm h, setX_calm h]; rfl

theorem aluSh_calm (h : calm s = true) (f : Word → Nat → Word) (rd rs1 : Reg) (n : Nat) :
    aluSh f rd rs1 n s = .next (after (wrX (begun s 4) rd (f (rdX s rs1) n)) 4) := by
  unfold aluSh
  rw [issue_calm h 4 _ _ _ _ rfl, getX_calm h, setX_calm h]; rfl

theorem divide_trap (h : calm s = true) (f : Word → Word → Word) (word : Bool) (rd rs1 rs2 : Reg)
    (hz : (if word then lo32 (rdX s rs2) == 0 else rdX s rs2 == 0) = true) (hd : bit s.me.csr.qfcsr.toNat 20 = true) :
    divide f word rd rs1 rs2 s = .next (trapped (begun s 4) 4 cINT_DIVZERO (rdX s rs1)) := by
  have hb : (begun s 4).me.csr = s.me.csr := by rw [begun_me h]
  unfold divide
  rw [issue_calm h 4 _ _ _ _ rfl]
  simp only [getX_calm h, hz, hb, hd, Bool.and_self, if_true, holding_trap, commit_trap]

theorem divide_ok (h : calm s = true) (f : Word → Word → Word) (word : Bool) (rd rs1 rs2 : Reg)
    (hz : ((if word then lo32 (rdX s rs2) == 0 else rdX s rs2 == 0) && bit s.me.csr.qfcsr.toNat 20) = false) :
    divide f word rd rs1 rs2 s = .next (after (lateX (begun s 4) rd (f (rdX s rs1) (rdX s rs2))) 4) := by
  have hb : (begun s 4).me.csr = s.me.csr := by rw [begun_me h]
  unfold divide
  rw [issue_calm h 4 _ _ _ _ rfl]
  simp only [getX_calm h, hb, hz, Bool.false_eq_true, if_false, deferX_calm h, holding_ok, commit_ok]

/-! ### Floating point -/

theorem begun_find (h : calm s = true) (n : Nat) : ∃ c, Tab.find (begun s n).cells (begun s n).cur = some c := by
  obtain ⟨c, hc, -⟩ := calm_cell h
  refine ⟨{ c with ilen := n }, ?_⟩
  show Tab.find (Tab.adjust s.cells s.cur _) s.cur = _
  rw [Tab.find_adjust_self, hc]; rfl

theorem setX_quiet {t : State} (he : t.me.early = []) (hq : t.me.csr.hoqen = 0) (r : Reg) (v : Word) : setX t r v = wrX t r v := by
  unfold setX wrX
  split
  · rfl
  · rw [not_mapped hq]
    simp only [Bool.false_eq_true, if_false]
    exact modMe_congr (noEarly_nil he)

theorem setF_quiet {t : State} (he : t.me.early = []) (r : Reg) (v : W32) : setF t r v = wrF t r v := modMe_congr (noEarly_nil he)

theorem flagged_me (h : calm s = true) (fl : Fl) : (flagged s fl).me.early = [] ∧ (flagged s fl).me.csr.hoqen = 0 := by
  obtain ⟨c, hc, hm, -, -, -, -, hho, hea, -⟩ := calm_cell h
  obtain ⟨c', hc'⟩ := begun_find h 4
  have e : c' = { s.me with ilen := 4 } := by rw [← begun_me h 4, me_of_find hc']
  have := modMe_me hc' (fun c => { c with csr := { c.csr with qfcsr := orFlags c.csr.qfcsr fl } })
  have e2 : (flagged s fl).me = _ := this
  rw [e2, e, hm]
  exact ⟨hea, hho⟩

theorem fpEnd_ok (h : calm s = true) {fl : Fl} (ht : fpTrap s.me.csr.qfcsr fl = none) (w : State → State) :
    fpEnd (begun s 4) fl w = .ok (w (flagged s fl)) := by
  have hb : (begun s 4).me.csr = s.me.csr := by rw [begun_me h]
  unfold fpEnd
  simp only [hb, ht]
  rfl

theorem fpEnd_trap (h : calm s = true) {fl : Fl} {cause : Nat} (ht : fpTrap s.me.csr.qfcsr fl = some cause) (w : State → State) :
    fpEnd (begun s 4) fl w = .trap (flagged s fl) cause 0 := by
  have hb : (begun s 4).me.csr = s.me.csr := by rw [begun_me h]
  unfold fpEnd
  simp only [hb, ht]
  rfl

theorem rm_begun (h : calm s = true) (rm : BitVec 3) : rmSelect (begun s 4) rm = rmSelect s rm := by
  unfold rmSelect; rw [begun_me h]

theorem rmCheck_ok (h : calm s = true) {rm : BitVec 3} {m : Rm} (hr : rmSelect s rm = some m) (w : W32) : rmCheck rm w (begun s 4) = none := by
  unfold rmCheck; rw [rm_begun h, hr]

theorem rmCheck_trap (h : calm s = true) {rm : BitVec 3} (hr : rmSelect s rm = none) (w : W32) :
    rmCheck rm w (begun s 4) = some (cILLEGAL, w.setWidth 64) := by
  unfold rmCheck; rw [rm_begun h, hr]

theorem rmOf_calm (h : calm s = true) {rm : BitVec 3} {m : Rm} (hr : rmSelect s rm = some m) : rmOf (begun s 4) rm = m := by
  unfold rmOf; rw [rm_begun h, hr]; rfl

section
variable (h : calm s = true) {rm : BitVec 3} {m : Rm} (hr : rmSelect s rm = some m)
include h

theorem fpSetF (ds : List Dst) (rd : Reg) (v : W32) (fl : Fl) (ht : fpTrap s.me.csr.qfcsr fl = none) :
    commit 4 ((fpEnd (begun s 4) fl fun s => setF s rd v).holding ds) = after (wrF (flagged s fl) rd v) 4 := by
  rw [fpEnd_ok h ht, setF_quiet (flagged_me h fl).1]; rfl

theorem fpSetX (ds : List Dst) (rd : Reg) (v : Word) (fl : Fl) (ht : fpTrap s.me.csr.qfcsr fl = none) :
    commit 4 ((fpEnd (begun s 4) fl fun s => setX s rd v).holding ds) = after (wrX (flagged s fl) rd v) 4 := by
  rw [fpEnd_ok h ht, setX_quiet (flagged_me h fl).1 (flagged_me h fl).2]; rfl

theorem fpCmp_calm (loud : Bool) (f : Fv → Fv → Bool) (rd rs1 rs2 : Reg) (a b : Fv) (ha : a = val32 (rdF s rs1)) (hb : b = val32 (rdF s rs2))
    (ht : fpTrap s.me.csr.qfcsr { nv := a.isSnan || b.isSnan || (loud && (a.isNan || b.isNan)) } = none) :
    fpCmp loud f rd rs1 rs2 s = .next (after (wrX (flagged s { nv := a.isSnan || b.isSnan || (loud && (a.isNan || b.isNan)) }) rd
      (if !(a.isNan || b.isNan) && f a b then 1 else 0)) 4) := by
  subst ha hb
  unfold fpCmp
  rw [issue_calm h 4 _ _ _ _ rfl]
  simp only [getF_calm h]
  rw [fpSetX h _ rd _ _ ht]

theorem fpMinMax_calm (isMax : Bool) (rd rs1 rs2 : Reg)
    (ht : fpTrap s.me.csr.qfcsr (minmaxCode fmt32 isMax (rdF s rs1).toNat (rdF s rs2).toNat).2 = none) :
    fpMinMax isMax rd rs1 rs2 s = .next (after (wrF (flagged s (minmaxCode fmt32 isMax (rdF s rs1).toNat (rdF s rs2).toNat).2) rd
      (BitVec.ofNat 32 (minmaxCode fmt32 isMax (rdF s rs1).toNat (rdF s rs2).toNat).1)) 4) := by
  unfold fpMinMax
  rw [issue_calm h 4 _ _ _ _ rfl]
  simp only [getF_calm h]
  rw [fpSetF h _ rd _ _ ht]

theorem fpSgn_calm (f : W32 → W32 → W32) (rd rs1 rs2 : Reg) : fpSgn f rd rs1 rs2 s
    = .next (after (wrF (begun s 4) rd ((rdF s rs1 &&& 0x7FFFFFFF) ||| (f (rdF s rs1) (rdF s rs2) &&& 0x80000000))) 4) := by
  unfold fpSgn
  rw [issue_calm h 4 _ _ _ _ rfl]
  simp only [getF_calm h, setF_calm h, holding_ok, commit_ok]

theorem fpToX_calm (f : W32 → Word) (rd rs1 : Reg) : fpToX f rd rs1 s = .next (after (wrX (begun s 4) rd (f (rdF s rs1))) 4) := by
  unfold fpToX
  rw [issue_calm h 4 _ _ _ _ rfl]
  simp only [getF_calm h, setX_calm h, holding_ok, commit_ok]

theorem fpOfX_calm (f : Word → W32) (rd rs1 : Reg) : fpOfX f rd rs1 s = .next (after (wrF (begun s 4) rd (f (rdX s rs1))) 4) := by
  unfold fpOfX
  rw [issue_calm h 4 _ _ _ _ rfl]
  simp only [getX_calm h, setF_calm h, holding_ok, commit_ok]

include hr

theorem fpRR_calm (f7 : BitVec 7) (f : Rm → Fv → Fv → Fv × Fl) (rd rs1 rs2 : Reg) (o : W32 × Fl)
    (ho : o = round32 m (f m (val32 (rdF s rs1)) (val32 (rdF s rs2)))) (ht : fpTrap s.me.csr.qfcsr o.2 = none) :
    fpRR f7 f rd rs1 rs2 rm s = .next (after (wrF (flagged s o.2) rd o.1) 4) := by
  subst ho
  unfold fpRR
  rw [issue_calm h 4 _ _ _ _ (rmCheck_ok h hr _)]
  simp only [rmOf_calm h hr, getF_calm h]
  rw [fpSetF h _ rd _ _ ht]

theorem fpRR_trap (f7 : BitVec 7) (f : Rm → Fv → Fv → Fv × Fl) (rd rs1 rs2 : Reg) (o : W32 × Fl) (cause : Nat)
    (ho : o = round32 m (f m (val32 (rdF s rs1)) (val32 (rdF s rs2)))) (ht : fpTrap s.me.csr.qfcsr o.2 = some cause) :
    fpRR f7 f rd rs1 rs2 rm s = .next (trapped (flagged s o.2) 4 cause 0) := by
  subst ho
  unfold fpRR
  rw [issue_calm h 4 _ _ _ _ (rmCheck_ok h hr _)]
  simp only [rmOf_calm h hr, getF_calm h]
  rw [fpEnd_trap h ht]; rfl

theorem fpFma_calm (op : BitVec 7) (negP negC : Bool) (rd rs1 rs2 rs3 : Reg) (o : W32 × Fl)
    (ho : o = round32 m (Fv.fma true m (if negP then (val32 (rdF s rs1)).flip else val32 (rdF s rs1)) (val32 (rdF s rs2))
      (if negC then (val32 (rdF s rs3)).flip else val32 (rdF s rs3)))) (ht : fpTrap s.me.csr.qfcsr o.2 = none) :
    fpFma op negP negC rd rs1 rs2 rs3 rm s = .next (after (wrF (flagged s o.2) rd o.1) 4) := by
  subst ho
  unfold fpFma
  rw [issue_calm h 4 _ _ _ _ (rmCheck_ok h hr _)]
  simp only [rmOf_calm h hr, getF_calm h]
  rw [fpSetF h _ rd _ _ ht]

theorem fpSlow_calm (f7 : BitVec 7) (srcs : List Reg) (f : State → Fv × Fl) (rd rs1 rs2 : Reg) (o : W32 × Fl)
    (ho : o = round32 m (f (begun s 4))) (ht : fpTrap s.me.csr.qfcsr o.2 = none) :
    fpSlow f7 srcs f rd rs1 rs2 rm s = .next (after (lateF (flagged s o.2) rd o.1) 4) := by
  subst ho
  unfold fpSlow
  rw [issue_calm h 4 _ _ _ _ (rmCheck_ok h hr _)]
  simp only [rmOf_calm h hr]
  rw [fpEnd_ok h ht]
  rfl

theorem fpToInt_calm (code : Reg) (w : Nat) (lo hi : Int) (rd rs1 : Reg) (o : Int × Fl)
    (ho : o = toIntegral m lo hi (val32 (rdF s rs1))) (ht : fpTrap s.me.csr.qfcsr o.2 = none) :
    fpToInt code w lo hi rd rs1 rm s = .next (after (wrX (flagged s o.2) rd (sextW (w / 8) (wrapInt w o.1))) 4) := by
  subst ho
  unfold fpToInt
  rw [issue_calm h 4 _ _ _ _ (rmCheck_ok h hr _)]
  simp only [rmOf_calm h hr, getF_calm h]
  rw [fpSetX h _ rd _ _ ht]

theorem fpOfInt_calm (code : Reg) (f : Word → Int) (rd rs1 : Reg) (o : W32 × Fl)
    (ho : o = round32 m (Fv.ofInt (f (rdX s rs1)) 0, .none)) (ht : fpTrap s.me.csr.qfcsr o.2 = none) :
    fpOfInt code f rd rs1 rm s = .next (after (wrF (flagged s o.2) rd o.1) 4) := by
  subst ho
  unfold fpOfInt
  rw [issue_calm h 4 _ _ _ _ (rmCheck_ok h hr _)]
  simp only [rmOf_calm h hr, getX_calm h]
  rw [fpSetF h _ rd _ _ ht]

end

/-! ### CSRs -/

theorem begun_tlev (h : calm s = true) : (begun s 4).me.tlev = s.me.tlev := by rw [begun_me h]

theorem begun_gang (h : calm s = true) (n) : (begun s n).myGang = s.myGang := by
  show (begun s n).gang (begun s n).me.gang = _
  rw [begun_me h]; rfl

theorem csrGet_begun (h : calm s = true) (a : Nat) : csrGet (begun s 4) a = csrGet s a := by
  unfold csrGet leasestOf
  rw [begun_gang h, begun_me h]; rfl

theorem wrX_hdr (h : calm s = true) (rd v) : (wrX (begun s 4) rd v).myGang.hdr = s.myGang.hdr := by
  unfold wrX
  split
  · rw [begun_gang h]
  · obtain ⟨c', hc'⟩ := begun_find h 4
    have hm := modMe_me hc' (fun c => { c with x := c.x.set rd.toNat v rd.isLt })
    show (State.gang _ (State.me _).gang).hdr = _
    rw [hm, ← me_of_find hc', begun_me h]
    rfl

theorem csrOp_ok (h : calm s = true) (f3 upd writes rd rs1 srcs operand) (csr : BitVec 12) (v : Word) (hv : operand (begun s 4) = v)
    (ha : csr.toNat ≠ 0xCC3) (he : csrExists csr.toNat = true) (hw : writes = true → csrWritable s.me.tlev csr.toNat = true) :
   csrOp f3 upd writes rd rs1 srcs operand csr s = .next (after (if writes then wrCsr (wrX (begun s 4) rd (csrGet s csr.toNat)) (csrPut s.myGang.hdr.hoq csr.toNat (upd (csrGet s csr.toNat) v)) else wrX (begun s 4) rd (csrGet s csr.toNat)) 4) := by
  unfold csrOp
  simp only
  rw [issue_calm h 4 _ _ _ _ ?_]
  · simp only [ha, if_false, csrGet_begun h, hv, setX_calm h, holding_ok, commit_ok, begun_gang h]
    rfl
  · have : (csrExists csr.toNat && (!writes || csrWritable (begun s 4).me.tlev csr.toNat)) = true := by
      rw [begun_tlev h, he]; cases writes <;> simp_all
    simp only [this, if_true]

theorem csrOp_trap (h : calm s = true) (f3 upd writes rd rs1 srcs operand) (csr : BitVec 12) 
    (he : csrExists csr.toNat = false ∨ writes = true ∧ csrWritable s.me.tlev csr.toNat = false) :
   ∃ w, csrOp f3 upd writes rd rs1 srcs operand csr s = .next (trapped (begun s 4) 4 0x01 w) := by
  have hi : canIssue s = true := by simp only [calm, Bool.and_eq_true] at h; exact h.1.1.1.1.1.1.1.1.1.1
  refine ⟨(encI 0x73 f3 rd rs1 csr).pack.setWidth 64, ?_⟩
  unfold csrOp
  refine issue_early hi 4 _ _ _ _ ?_
  · have : (csrExists csr.toNat && (!writes || csrWritable (begun s 4).me.tlev csr.toNat)) = false := by
      rw [begun_tlev h]; rcases he with h1 | ⟨h1, h2⟩ <;> simp_all
    simp only [this]; rfl

/-! ### Values -/

theorem sextW_ofNat (n : Nat) (hn : n = 2 ∨ n = 4 ∨ n = 8) (v : Nat) : sextW n v = (BitVec.ofNat (8 * n) v).signExtend 64 := by
  apply BitVec.eq_of_toInt_eq
  rw [BitVec.toInt_signExtend, sextW, BitVec.toInt_ofInt]
  simp only [signedOf, BitVec.toInt_eq_toNat_cond, BitVec.toNat_ofNat, Int.bmod_def]
  rcases hn with rfl | rfl | rfl <;> norm_num <;> split <;> split <;> split <;> omega

theorem ofNat_wrap (n : Nat) (z : Int) : BitVec.ofNat n (wrapInt n z) = BitVec.ofInt n z := by
  apply BitVec.eq_of_toNat_eq
  simp only [wrapInt, BitVec.toNat_ofInt, BitVec.toNat_ofNat]
  have : 0 ≤ z % 2 ^ n := Int.emod_nonneg _ (by positivity)
  have h2 : z % 2 ^ n < 2 ^ n := Int.emod_lt_of_pos _ (by positivity)
  have : ((2 ^ n : Nat) : Int) = 2 ^ n := by norm_num
  apply Nat.mod_eq_of_lt; omega

theorem unboxBf_eq (a : W32) : unboxBf a = if a.extractLsb' 16 16 = 0xFFFF then (a.setWidth 16).toNat else canonNan fmtBf := by
  unfold unboxBf
  have : (a.extractLsb' 16 16 = 0xFFFF) ↔ (a.toNat / 65536 = 0xFFFF) := by
    have := a.isLt
    rw [← BitVec.toNat_inj]; simp [BitVec.extractLsb'_toNat, Nat.shiftRight_eq_div_pow]; omega
  simp only [this, BitVec.toNat_setWidth]

theorem boxH_eq (v : Nat) : BitVec.ofNat 32 (boxH v) = 0xFFFF#16 ++ BitVec.ofNat 16 v := by
  apply BitVec.eq_of_toNat_eq
  have h : 65535 <<< 16 ||| v % 65536 = 65535 <<< 16 + v % 65536 := (Nat.shiftLeft_add_eq_or_of_lt (i := 16) (by omega) 65535).symm
  simp only [boxH, BitVec.toNat_append, BitVec.toNat_ofNat]
  norm_num
  omega

end Sys2Proof.Machine
end

