-- ==== Sys2Proof/Laws/Access.lean ====
section
/-! SUPPORT. Accesses: what a passed check leaves behind, and what reading and draining do where nothing is on its way. -/

namespace Sys2Proof.Machine

theorem heatUp_eq (s : State) (region die : Nat) : ∃ heat, heatUp s region die = { s with heat } := ⟨_, rfl⟩

theorem noteDie_seen (s : State) (die asid dva : Nat) : ∃ dies heat freeCtr, noteDie s die asid dva = { s with dies, heat, freeCtr } := by
  unfold noteDie
  split
  · exact ⟨s.dies, s.heat, s.freeCtr, rfl⟩
  · split
    · simp only
      split
      · exact ⟨_, _, _, rfl⟩
      · exact ⟨_, s.heat, _, rfl⟩
    · exact ⟨s.dies, s.heat, s.freeCtr, rfl⟩

theorem noteTlb_seen (s : State) (hive asid dva : Nat) : ∃ hives dies heat freeCtr, noteTlb s hive asid dva = { s with hives, dies, heat, freeCtr } := by
  unfold noteTlb
  split
  · exact ⟨s.hives, s.dies, s.heat, s.freeCtr, rfl⟩
  split
  · exact ⟨s.hives, s.dies, s.heat, s.freeCtr, rfl⟩
  · obtain ⟨dv, ht, fc, e⟩ := noteDie_seen s (hive / 16) asid dva
    simp only [e]
    split
    · exact ⟨_, _, _, _, rfl⟩
    · exact ⟨s.hives, _, _, _, rfl⟩

theorem seen_refl (s : State) : seen s s := ⟨s.hives, s.dies, s.heat, s.freeCtr, .inl rfl⟩

theorem faultPast_seen (s : State) (dva : Nat) : seen s (faultPast (translated s dva) dva) := by
  obtain ⟨hv, dv, ht, fc, e⟩ := noteTlb_seen s (hiveOf (s.gang s.me.gang).core) s.myLaunch.asid dva
  unfold faultPast faultPastOf translated
  rw [e]
  split
  · exact ⟨hv, dv, ht, fc, .inr rfl⟩
  · exact ⟨hv, dv, ht, fc, .inl rfl⟩

theorem resolveDva_seen {s s1 : State} {kind ea dva n idx stride t} (h : resolveDva s kind ea dva n idx stride = .ok (s1, t)) : seen s s1 := by
  unfold resolveDva at h
  simp only at h
  have hf := faultPast_seen s dva
  split at h
  · cases h
  · cases h
  · cases h
  · cases h
  · cases h; exact seen_refl s
  · split at h
    · cases h
    · split at h
      · cases h; exact seen_refl s
      · cases h; exact hf
      · cases h; exact hf
      · split at h
        · split at h
          · cases h
          · cases h; exact hf
        · cases h; exact hf
      · cases h

theorem resolve_seen {s s1 : State} {kind ea n need align idx stride t} (h : resolve s kind ea n need align idx stride = .ok (s1, t)) : seen s s1 := by
  unfold resolve at h
  split at h
  · cases h
  · split at h
    · cases h
    · exact resolveDva_seen h

theorem seen_me {s s1 : State} (hc : (Tab.find s.cells s.cur).isSome) (h : seen s s1) : s1.cur = s.cur ∧ (Tab.find s1.cells s1.cur).isSome ∧ s1.me.csr = s.me.csr ∧ s1.me.gang = s.me.gang ∧ s1.posted = s.posted ∧ s1.remotes = s.remotes ∧ s1.mem = s.mem ∧ s1.me.reply = s.me.reply ∧ s1.me.early = s.me.early
   ∧ s1.me.x = s.me.x ∧ s1.me.f = s.me.f := by
  obtain ⟨c, hc⟩ := Option.isSome_iff_exists.mp hc
  obtain ⟨hv, dv, ht, fc, rfl | rfl⟩ := h
  · exact ⟨rfl, by simp [hc], rfl, rfl, rfl, rfl, rfl, rfl, rfl, rfl, rfl⟩
  · have : ∀ (w : State), w = { s.modMe (fun c => { c with faultDva := none, refaults := 0 }) with hives := hv, dies := dv, heat := ht, freeCtr := fc } → w.me = { s.me with faultDva := none, refaults := 0 } := by
      rintro w rfl
      show (s.modMe _).me = _
      rw [modMe_me hc, me_of_find hc]
    have e := this _ rfl
    refine ⟨rfl, ?_, by rw [e], by rw [e], rfl, rfl, rfl, by rw [e], by rw [e], by rw [e], by rw [e]⟩
    show ((Tab.find (Tab.adjust s.cells s.cur _) s.cur)).isSome = true
    rw [Tab.find_adjust_self, hc]; rfl

/-- A read of bytes to which no write is unordered before it: the bytes as they stand, and the reader's note of them (spec 13 R288, R293). -/
theorem readBy_settled {s : State} {c k n : Nat} (h : (s.writesAfter (s.orderedTo c k n) k n).isEmpty = true) :
    s.readBy c k n = (s.noteRead c s.stamp k n, s.read k n) := by
  unfold State.readBy State.pickView
  simp only [h, if_true]

theorem drainOwn_none {s : State} (h : (s.posted.any fun p => p.cell == s.cur && p.gang == s.me.gang) = false) (k n : Nat) : drainOwn s k n = s := by
  have : s.posted.filter (fun p => p.cell == s.cur && p.gang == s.me.gang) = [] := by
    rw [List.filter_eq_nil_iff]; intro p hp; 
    rw [List.any_eq_false] at h; simpa using h p hp
  unfold drainOwn
  simp only [this]; rfl

theorem Post.covered_pod (p : Post) : p.covered true = true := by unfold Post.covered; split <;> rfl

theorem quiet_none {s : State} (h : quiet s = true) : (s.posted.any fun p => p.cell == s.cur && p.gang == s.me.gang) = false := by
  simp only [quiet, busy, outstandingTo, Bool.not_eq_true', Bool.or_eq_false_iff, Post.covered_pod, Bool.and_true] at h; exact h.1

theorem leNat_lt (l : List Byte) : leNat l < 2 ^ (8 * l.length) := by
  induction l with
  | nil => simp [leNat]
  | cons b l ih =>
    have := b.isLt
    simp only [leNat, List.length_cons]
    rw [show 8 * (l.length + 1) = 8 * l.length + 8 by ring, Nat.pow_add]
    omega

theorem readNat_lt (s : State) (k n : Nat) : s.readNat k n < 2 ^ (8 * n) := by
  have := leNat_lt (s.read k n)
  simpa [State.readNat, State.read, range] using this
variable {s s1 : State}

theorem quiet_begun (h : calm s = true) (hq : quiet s = true) : quiet (begun s 4) = true := by
  simp only [quiet, busy, begun_cur, begun_me h] at hq ⊢; exact hq

/-- What a passed check leaves of the cell. -/
theorem passed_me (h : calm s = true) {kind ea n need align idx stride t} (hr : resolve (begun s 4) kind ea n need align idx stride = .ok (s1, t)) :
    s1.cur = s.cur ∧ (∃ c, Tab.find s1.cells s1.cur = some c) ∧ s1.me.csr = s.me.csr ∧ s1.me.x = s.me.x ∧ s1.me.f = s.me.f ∧ s1.me.early = [] ∧ s1.me.csr.hoqen = 0
      ∧ s1.me.reply = none ∧ s1.mem = s.mem ∧ (quiet s = true → quiet s1 = true) ∧ s1.me.resv = s.me.resv := by
  obtain ⟨c', hc'⟩ := begun_find h 4
  obtain ⟨c, hc, hm, -, -, -, -, hho, hea, hla, -, hre, -⟩ := calm_cell h
  have hs := resolve_seen hr
  have hb := begun_me h 4
  obtain ⟨a1, a2, a3, a4, a5, a6, a7, a8, a9, a10, a11⟩ := seen_me (Option.isSome_iff_exists.mpr ⟨c', hc'⟩) hs
  refine ⟨a1, Option.isSome_iff_exists.mp a2, by rw [a3, hb], by rw [a10, hb], by rw [a11, hb], by rw [a9, hb, hm]; exact hea, by rw [a3, hb, hm]; exact hho,
    by rw [a8, hb, hm]; exact hre, a7, ?_, ?_⟩
  · intro hq
    have := quiet_begun h hq
    simp only [quiet, busy, outstandingTo, a1, a4, a5, a6] at this ⊢; exact this
  · obtain ⟨hv, dv, ht, fc, rfl | rfl⟩ := hs
    · show (begun s 4).me.resv = _; rw [hb]
    · have : ∀ w : State, w = { (begun s 4).modMe (fun c => { c with faultDva := none, refaults := 0 }) with hives := hv, dies := dv, heat := ht, freeCtr := fc } → w.me.resv = s.me.resv := by
        rintro w rfl
        show (State.modMe _ _).me.resv = _
        rw [modMe_me hc', ← me_of_find hc', hb]
      exact this _ rfl

theorem defer_x {t : State} (hq : t.me.csr.hoqen = 0) (r : Reg) (v : Word) : defer t (.x r) v.toNat = lateX t r v := by
  unfold defer lateX
  by_cases hr : r = 0
  · simp [hr]
  · simp [not_mapped hq]
    rfl

theorem busy_quiet {t : State} (hq : quiet t = true) (pod : Bool) : busy t pod = false := by
  cases pod
  · simp only [quiet, busy, outstandingTo, Bool.not_eq_true', Bool.or_eq_false_iff, Post.covered_pod, Bool.and_true] at hq ⊢
    refine ⟨?_, hq.2⟩
    rw [List.any_eq_false] at hq ⊢
    intro p hp
    have := hq.1 p hp
    simp only [Bool.and_eq_true, not_and] at this ⊢
    exact fun a _ => this a.1 a.2
  · simpa [quiet] using hq

theorem release_quiet {t : State} (hq : quiet t = true) (sc : Scope) : release t sc = .ok () := by
  unfold release; rw [busy_quiet hq]; rfl

theorem write_find (t : State) (who hive k d) (c : Nat) : Tab.find (t.write who hive k d).cells c = (Tab.find t.cells c).map (writeSeen who k d.length c) := by
  have hf : ∀ t : Tab Cell, Tab.find (t.map fun e => (e.1, writeSeen who k d.length e.1 e.2)) c = (Tab.find t c).map (writeSeen who k d.length c) := by
    intro t
    induction t with
    | nil => rfl
    | cons e t ih =>
      obtain ⟨k', v⟩ := e
      simp only [List.map_cons, Tab.find]
      split
      · subst_vars; rfl
      · exact ih
  have hc : (t.write who hive k d).cells = t.cells.map fun e => (e.1, writeSeen who k d.length e.1 e.2) := by
    unfold State.write; split <;> rfl
  rw [hc, hf]

theorem writeSeen_regs (who k n c) (v : Cell) : (writeSeen who k n c v).x = v.x ∧ (writeSeen who k n c v).f = v.f ∧ (writeSeen who k n c v).v = v.v
    ∧ (writeSeen who k n c v).csr = v.csr ∧ (writeSeen who k n c v).pc = v.pc ∧ (writeSeen who k n c v).early = v.early := by
  have h1 : (wakeSignal k n v).x = v.x ∧ (wakeSignal k n v).f = v.f ∧ (wakeSignal k n v).v = v.v ∧ (wakeSignal k n v).csr = v.csr ∧ (wakeSignal k n v).pc = v.pc ∧ (wakeSignal k n v).early = v.early := by
    unfold wakeSignal; split
    · split <;> simp
    · simp
  unfold writeSeen
  simp only
  split
  · split
    · exact h1
    · exact h1
  · exact h1

theorem write_me {t : State} {c : Cell} (hc : Tab.find t.cells t.cur = some c) (who hive k d) : (t.write who hive k d).me = writeSeen who k d.length t.cur c ∧ Tab.find (t.write who hive k d).cells (t.write who hive k d).cur = some (writeSeen who k d.length t.cur c) := by
  have hcur : (t.write who hive k d).cur = t.cur := by unfold State.write; split <;> rfl
  have h1 := write_find t who hive k d t.cur
  rw [hc, Option.map_some, ← hcur] at h1
  rw [hcur] at h1 ⊢
  refine ⟨?_, h1⟩
  rw [← hcur] at h1
  have := me_of_find h1
  rw [hcur] at this; exact this

theorem getX_quiet {t : State} (he : t.me.early = []) (hq : t.me.csr.hoqen = 0) (hx : t.me.x = s.me.x) (r : Reg) : getX t r = rdX s r := by
  unfold getX rdX
  split
  · rfl
  · simp only [not_mapped hq, Bool.false_eq_true, if_false, hazard, he, List.find?_nil, hx]
    simp

end Sys2Proof.Machine
end

