-- ==== Sys2Proof/Laws/Dispatch.lean ====
section
/-! SUPPORT. What `exec` is at each constructor: the meaning of that instruction. -/

namespace Sys2Proof.Machine

variable (s : State)

theorem exec_powerGood : exec .powerGood s = execPowerGood s := rfl
theorem exec_pcieFundamentalReset : exec .pcieFundamentalReset s = execPcieFundamentalReset s := rfl
theorem exec_stageDone (images : List FwImage) (eccDie : Option Nat) (lanes : List LaneFault) : exec (.stageDone images eccDie lanes) s = execStageDone images eccDie lanes s := rfl
theorem exec_stageTimeout (die : Option Nat) : exec (.stageTimeout die) s = execStageTimeout die s := rfl
theorem exec_getVersion (func : Nat) : exec (.getVersion func) s = execGetVersion func s := rfl
theorem exec_getCapabilities (func : Nat) : exec (.getCapabilities func) s = execGetCapabilities func s := rfl
theorem exec_negotiateAlgorithms (func : Nat) (sm2 sm3 : Bool) : exec (.negotiateAlgorithms func sm2 sm3) s = execNegotiateAlgorithms func sm2 sm3 s := rfl
theorem exec_getDigests (func : Nat) : exec (.getDigests func) s = execGetDigests func s := rfl
theorem exec_getCertificate (func : Nat) : exec (.getCertificate func) s = execGetCertificate func s := rfl
theorem exec_challenge (func : Nat) (nonce : List Byte) : exec (.challenge func nonce) s = execChallenge func nonce s := rfl
theorem exec_getMeasurements (func : Nat) : exec (.getMeasurements func) s = execGetMeasurements func s := rfl
theorem exec_registerWrite (func off size : Nat) (v : Word) : exec (.registerWrite func off size v) s = execRegisterWrite func off size v s := rfl
theorem exec_merrClear (v : Word) : exec (.merrClear v) s = execMerrClear v s := rfl
theorem exec_ferrClear (func : Nat) : exec (.ferrClear func) s = execFerrClear func s := rfl
theorem exec_partSetValid (n : Nat) (v : Word) : exec (.partSetValid n v) s = execPartSetValid n v s := rfl
theorem exec_partClearValid (n : Nat) (v : Word) : exec (.partClearValid n v) s = execPartClearValid n v s := rfl
theorem exec_hmoveMove (v : Word) : exec (.hmoveMove v) s = execHmoveMove v s := rfl
theorem exec_hmoveFree (v : Word) : exec (.hmoveFree v) s = execHmoveFree v s := rfl
theorem exec_hmoveComplete : exec .hmoveComplete s = execHmoveComplete s := rfl
theorem exec_budgetPeriod : exec .budgetPeriod s = execBudgetPeriod s := rfl
theorem exec_ckptQuiesce (v : Word) : exec (.ckptQuiesce v) s = execCkptQuiesce v s := rfl
theorem exec_quiesceDone : exec .quiesceDone s = execQuiesceDone s := rfl
theorem exec_ckptResume (v : Word) : exec (.ckptResume v) s = execCkptResume v s := rfl
theorem exec_ckptEngineGo (v : Word) : exec (.ckptEngineGo v) s = execCkptEngineGo v s := rfl
theorem exec_ckptRunEnd (err : Option CkErr) (done : Nat) : exec (.ckptRunEnd err done) s = execCkptRunEnd err done s := rfl
theorem exec_faultQuiesce (part : Nat) : exec (.faultQuiesce part) s = execFaultQuiesce part s := rfl
theorem exec_powerCapWrite (v : Word) : exec (.powerCapWrite v) s = execPowerCapWrite v s := rfl
theorem exec_doorbell (func q : Nat) (w : Word) : exec (.doorbell func q w) s = execDoorbell func q w s := rfl
theorem exec_bar0UnsupportedAccess (func off size : Nat) (write : Bool) : exec (.bar0UnsupportedAccess func off size write) s = execBar0UnsupportedAccess func off size write s := rfl
theorem exec_hostBar4Read (func off n : Nat) : exec (.hostBar4Read func off n) s = execHostBar4Read func off n s := rfl
theorem exec_hostBar4Write (func off : Nat) (data : List Byte) : exec (.hostBar4Write func off data) s = execHostBar4Write func off data s := rfl
theorem exec_bar4PagerTimeout (id : Nat) : exec (.bar4PagerTimeout id) s = execBar4PagerTimeout id s := rfl
theorem exec_functionLevelReset (func : Nat) : exec (.functionLevelReset func) s = execFunctionLevelReset func s := rfl
theorem exec_pf0FunctionLevelReset : exec .pf0FunctionLevelReset s = execPf0FunctionLevelReset s := rfl
theorem exec_queueEnable (func q : Nat) (v : Word) : exec (.queueEnable func q v) s = execQueueEnable func q v s := rfl
theorem exec_queueDisable (func q : Nat) (v : Word) : exec (.queueDisable func q v) s = execQueueDisable func q v s := rfl
theorem exec_queueResume (func q : Nat) (v : Word) : exec (.queueResume func q v) s = execQueueResume func q v s := rfl
theorem exec_queueResumeSkip (func q : Nat) (v : Word) : exec (.queueResumeSkip func q v) s = execQueueResumeSkip func q v s := rfl
theorem exec_launchPacket (part q : Nat) : exec (.launchPacket part q) s = execLaunchPacket part q s := rfl
theorem exec_waitsig (part q : Nat) : exec (.waitsig part q) s = execWaitsig part q s := rfl
theorem exec_waitsigSatisfied (part q : Nat) : exec (.waitsigSatisfied part q) s = execWaitsigSatisfied part q s := rfl
theorem exec_waitsigLimit (part q : Nat) : exec (.waitsigLimit part q) s = execWaitsigLimit part q s := rfl
theorem exec_setsig (part q : Nat) : exec (.setsig part q) s = execSetsig part q s := rfl
theorem exec_loadPacket (part q : Nat) : exec (.loadPacket part q) s = execLoadPacket part q s := rfl
theorem exec_unload (part q : Nat) : exec (.unload part q) s = execUnload part q s := rfl
theorem exec_fencePacket (part q : Nat) : exec (.fencePacket part q) s = execFencePacket part q s := rfl
theorem exec_launchComplete (launch : Nat) : exec (.launchComplete launch) s = execLaunchComplete launch s := rfl
theorem exec_placement (die : Nat) : exec (.placement die) s = execPlacement die s := rfl
theorem exec_placementPeriod (die : Nat) : exec (.placementPeriod die) s = execPlacementPeriod die s := rfl
theorem exec_icacheFillDone (cell : Nat) : exec (.icacheFillDone cell) s = execIcacheFillDone cell s := rfl
theorem exec_feWriteback (cell i : Nat) : exec (.feWriteback cell i) s = execFeWriteback cell i s := rfl
theorem exec_pagerWake (w : WakeTarget) (verdict : Verdict) : exec (.pagerWake w verdict) s = execPagerWake w verdict s := rfl
theorem exec_cowCopyDone (i : Nat) : exec (.cowCopyDone i) s = execCowCopyDone i s := rfl
theorem exec_pageMigration (asid dva pa : Nat) : exec (.pageMigration asid dva pa) s = execPageMigration asid dva pa s := rfl
theorem exec_remoteAccessArrival (id : Nat) : exec (.remoteAccessArrival id) s = execRemoteAccessArrival id s := rfl
theorem exec_remoteReply (id : Nat) : exec (.remoteReply id) s = execRemoteReply id s := rfl
theorem exec_asyncTrapDelivery (cell : Nat) : exec (.asyncTrapDelivery cell) s = execAsyncTrapDelivery cell s := rfl
theorem exec_copyStart (core i : Nat) : exec (.copyStart core i) s = execCopyStart core i s := rfl
theorem exec_frameSlotReserve (core i : Nat) : exec (.frameSlotReserve core i) s = execFrameSlotReserve core i s := rfl
theorem exec_copyComplete (core i : Nat) : exec (.copyComplete core i) s = execCopyComplete core i s := rfl
theorem exec_copyWaggleDelivered (core i : Nat) : exec (.copyWaggleDelivered core i) s = execCopyWaggleDelivered core i s := rfl
theorem exec_copyFailure (core i : Nat) (why : CopyFail) : exec (.copyFailure core i why) s = execCopyFailure core i why s := rfl
theorem exec_leaseAcquire (core : Nat) : exec (.leaseAcquire core) s = execLeaseAcquire core s := rfl
theorem exec_leaseQuantumExpiry (core : Nat) : exec (.leaseQuantumExpiry core) s = execLeaseQuantumExpiry core s := rfl
theorem exec_mopaOperandsConsumed (core : Nat) : exec (.mopaOperandsConsumed core) s = execMopaOperandsConsumed core s := rfl
theorem exec_laneFailure (core i group : Nat) : exec (.laneFailure core i group) s = execLaneFailure core i group s := rfl
theorem exec_coreRetire (core i group : Nat) : exec (.coreRetire core i group) s = execCoreRetire core i group s := rfl
theorem exec_waitReread (w : RereadTarget) : exec (.waitReread w) s = execWaitReread w s := rfl
theorem exec_swaitLimit (cell : Nat) : exec (.swaitLimit cell) s = execSwaitLimit cell s := rfl
theorem exec_vsetvlwLimit (cell : Nat) : exec (.vsetvlwLimit cell) s = execVsetvlwLimit cell s := rfl
theorem exec_frmwaitLimit (cell : Nat) : exec (.frmwaitLimit cell) s = execFrmwaitLimit cell s := rfl
theorem exec_ldfeLimit (cell : Nat) : exec (.ldfeLimit cell) s = execLdfeLimit cell s := rfl
theorem exec_barLimit (cell : Nat) : exec (.barLimit cell) s = execBarLimit cell s := rfl
theorem exec_wgsendLimit (cell : Nat) : exec (.wgsendLimit cell) s = execWgsendLimit cell s := rfl
theorem exec_wgrecvLimit (cell : Nat) : exec (.wgrecvLimit cell) s = execWgrecvLimit cell s := rfl
theorem exec_broodDeadline (handle : Nat) : exec (.broodDeadline handle) s = execBroodDeadline handle s := rfl
theorem exec_forcedLanding (cell : Nat) (stops : List Nat) (step : Nat) : exec (.forcedLanding cell stops step) s = execForcedLanding cell stops step s := rfl
theorem exec_gangSaveDone (gang : Nat) : exec (.gangSaveDone gang) s = execGangSaveDone gang s := rfl
theorem exec_correctableError (die cls : Nat) : exec (.correctableError die cls) s = execCorrectableError die cls s := rfl
theorem exec_uncorrectableError (e : HwError) : exec (.uncorrectableError e) s = execUncorrectableError e s := rfl
theorem exec_patrolScrub (die lines : Nat) : exec (.patrolScrub die lines) s = execPatrolScrub die lines s := rfl
theorem exec_flitReceive (fin seq : Nat) (crcGood : Bool) : exec (.flitReceive fin seq crcGood) s = execFlitReceive fin seq crcGood s := rfl
theorem exec_ucieReplay (fin last : Nat) : exec (.ucieReplay fin last) s = execUcieReplay fin last s := rfl
theorem exec_linkRetrain (fin : Nat) (why : RetrainCause) : exec (.linkRetrain fin why) s = execLinkRetrain fin why s := rfl
theorem exec_retrainDone (fin : Nat) (lanes : LaneOutcome) : exec (.retrainDone fin lanes) s = execRetrainDone fin lanes s := rfl
theorem exec_dieUnreachable (die : Option Nat) : exec (.dieUnreachable die) s = execDieUnreachable die s := rfl
theorem exec_ualinkTimeout (r : FabricReq) : exec (.ualinkTimeout r) s = execUalinkTimeout r s := rfl
theorem exec_ualinkStationLoss (station : Nat) : exec (.ualinkStationLoss station) s = execUalinkStationLoss station s := rfl
theorem exec_fabricReply (cell station : Nat) (ok : Bool) (data : Word) : exec (.fabricReply cell station ok data) s = execFabricReply cell station ok data s := rfl
theorem exec_heirHandover (gang : Nat) : exec (.heirHandover gang) s = execHeirHandover gang s := rfl
theorem exec_objectRangeRelease (handle : Nat) : exec (.objectRangeRelease handle) s = execObjectRangeRelease handle s := rfl
theorem exec_generationUnmap (handle : Nat) : exec (.generationUnmap handle) s = execGenerationUnmap handle s := rfl
theorem exec_lui (rd : Reg) (imm : BitVec 20) : exec (.lui rd imm) s = execLui rd imm s := rfl
theorem exec_auipc (rd : Reg) (imm : BitVec 20) : exec (.auipc rd imm) s = execAuipc rd imm s := rfl
theorem exec_jal (rd : Reg) (imm : BitVec 20) : exec (.jal rd imm) s = execJal rd imm s := rfl
theorem exec_jalr (rd rs1 : Reg) (imm : BitVec 12) : exec (.jalr rd rs1 imm) s = execJalr rd rs1 imm s := rfl
theorem exec_beq (rs1 rs2 : Reg) (imm : BitVec 12) : exec (.beq rs1 rs2 imm) s = execBeq rs1 rs2 imm s := rfl
theorem exec_bne (rs1 rs2 : Reg) (imm : BitVec 12) : exec (.bne rs1 rs2 imm) s = execBne rs1 rs2 imm s := rfl
theorem exec_blt (rs1 rs2 : Reg) (imm : BitVec 12) : exec (.blt rs1 rs2 imm) s = execBlt rs1 rs2 imm s := rfl
theorem exec_bge (rs1 rs2 : Reg) (imm : BitVec 12) : exec (.bge rs1 rs2 imm) s = execBge rs1 rs2 imm s := rfl
theorem exec_bltu (rs1 rs2 : Reg) (imm : BitVec 12) : exec (.bltu rs1 rs2 imm) s = execBltu rs1 rs2 imm s := rfl
theorem exec_bgeu (rs1 rs2 : Reg) (imm : BitVec 12) : exec (.bgeu rs1 rs2 imm) s = execBgeu rs1 rs2 imm s := rfl
theorem exec_lb (rd rs1 : Reg) (imm : BitVec 12) : exec (.lb rd rs1 imm) s = execLb rd rs1 imm s := rfl
theorem exec_lh (rd rs1 : Reg) (imm : BitVec 12) : exec (.lh rd rs1 imm) s = execLh rd rs1 imm s := rfl
theorem exec_lw (rd rs1 : Reg) (imm : BitVec 12) : exec (.lw rd rs1 imm) s = execLw rd rs1 imm s := rfl
theorem exec_ld (rd rs1 : Reg) (imm : BitVec 12) : exec (.ld rd rs1 imm) s = execLd rd rs1 imm s := rfl
theorem exec_lbu (rd rs1 : Reg) (imm : BitVec 12) : exec (.lbu rd rs1 imm) s = execLbu rd rs1 imm s := rfl
theorem exec_lhu (rd rs1 : Reg) (imm : BitVec 12) : exec (.lhu rd rs1 imm) s = execLhu rd rs1 imm s := rfl
theorem exec_lwu (rd rs1 : Reg) (imm : BitVec 12) : exec (.lwu rd rs1 imm) s = execLwu rd rs1 imm s := rfl
theorem exec_sb (rs1 rs2 : Reg) (imm : BitVec 12) : exec (.sb rs1 rs2 imm) s = execSb rs1 rs2 imm s := rfl
theorem exec_sh (rs1 rs2 : Reg) (imm : BitVec 12) : exec (.sh rs1 rs2 imm) s = execSh rs1 rs2 imm s := rfl
theorem exec_sw (rs1 rs2 : Reg) (imm : BitVec 12) : exec (.sw rs1 rs2 imm) s = execSw rs1 rs2 imm s := rfl
theorem exec_sd (rs1 rs2 : Reg) (imm : BitVec 12) : exec (.sd rs1 rs2 imm) s = execSd rs1 rs2 imm s := rfl
theorem exec_addi (rd rs1 : Reg) (imm : BitVec 12) : exec (.addi rd rs1 imm) s = execAddi rd rs1 imm s := rfl
theorem exec_slti (rd rs1 : Reg) (imm : BitVec 12) : exec (.slti rd rs1 imm) s = execSlti rd rs1 imm s := rfl
theorem exec_sltiu (rd rs1 : Reg) (imm : BitVec 12) : exec (.sltiu rd rs1 imm) s = execSltiu rd rs1 imm s := rfl
theorem exec_xori (rd rs1 : Reg) (imm : BitVec 12) : exec (.xori rd rs1 imm) s = execXori rd rs1 imm s := rfl
theorem exec_ori (rd rs1 : Reg) (imm : BitVec 12) : exec (.ori rd rs1 imm) s = execOri rd rs1 imm s := rfl
theorem exec_andi (rd rs1 : Reg) (imm : BitVec 12) : exec (.andi rd rs1 imm) s = execAndi rd rs1 imm s := rfl
theorem exec_slli (rd rs1 : Reg) (sh : BitVec 6) : exec (.slli rd rs1 sh) s = execSlli rd rs1 sh s := rfl
theorem exec_srli (rd rs1 : Reg) (sh : BitVec 6) : exec (.srli rd rs1 sh) s = execSrli rd rs1 sh s := rfl
theorem exec_srai (rd rs1 : Reg) (sh : BitVec 6) : exec (.srai rd rs1 sh) s = execSrai rd rs1 sh s := rfl
theorem exec_add (rd rs1 rs2 : Reg) : exec (.add rd rs1 rs2) s = execAdd rd rs1 rs2 s := rfl
theorem exec_sub (rd rs1 rs2 : Reg) : exec (.sub rd rs1 rs2) s = execSub rd rs1 rs2 s := rfl
theorem exec_sll (rd rs1 rs2 : Reg) : exec (.sll rd rs1 rs2) s = execSll rd rs1 rs2 s := rfl
theorem exec_slt (rd rs1 rs2 : Reg) : exec (.slt rd rs1 rs2) s = execSlt rd rs1 rs2 s := rfl
theorem exec_sltu (rd rs1 rs2 : Reg) : exec (.sltu rd rs1 rs2) s = execSltu rd rs1 rs2 s := rfl
theorem exec_xor (rd rs1 rs2 : Reg) : exec (.xor rd rs1 rs2) s = execXor rd rs1 rs2 s := rfl
theorem exec_srl (rd rs1 rs2 : Reg) : exec (.srl rd rs1 rs2) s = execSrl rd rs1 rs2 s := rfl
theorem exec_sra (rd rs1 rs2 : Reg) : exec (.sra rd rs1 rs2) s = execSra rd rs1 rs2 s := rfl
theorem exec_or (rd rs1 rs2 : Reg) : exec (.or rd rs1 rs2) s = execOr rd rs1 rs2 s := rfl
theorem exec_and (rd rs1 rs2 : Reg) : exec (.and rd rs1 rs2) s = execAnd rd rs1 rs2 s := rfl
theorem exec_addiw (rd rs1 : Reg) (imm : BitVec 12) : exec (.addiw rd rs1 imm) s = execAddiw rd rs1 imm s := rfl
theorem exec_slliw (rd rs1 : Reg) (sh : BitVec 5) : exec (.slliw rd rs1 sh) s = execSlliw rd rs1 sh s := rfl
theorem exec_srliw (rd rs1 : Reg) (sh : BitVec 5) : exec (.srliw rd rs1 sh) s = execSrliw rd rs1 sh s := rfl
theorem exec_sraiw (rd rs1 : Reg) (sh : BitVec 5) : exec (.sraiw rd rs1 sh) s = execSraiw rd rs1 sh s := rfl
theorem exec_addw (rd rs1 rs2 : Reg) : exec (.addw rd rs1 rs2) s = execAddw rd rs1 rs2 s := rfl
theorem exec_subw (rd rs1 rs2 : Reg) : exec (.subw rd rs1 rs2) s = execSubw rd rs1 rs2 s := rfl
theorem exec_sllw (rd rs1 rs2 : Reg) : exec (.sllw rd rs1 rs2) s = execSllw rd rs1 rs2 s := rfl
theorem exec_srlw (rd rs1 rs2 : Reg) : exec (.srlw rd rs1 rs2) s = execSrlw rd rs1 rs2 s := rfl
theorem exec_sraw (rd rs1 rs2 : Reg) : exec (.sraw rd rs1 rs2) s = execSraw rd rs1 rs2 s := rfl
theorem exec_mul (rd rs1 rs2 : Reg) : exec (.mul rd rs1 rs2) s = execMul rd rs1 rs2 s := rfl
theorem exec_mulh (rd rs1 rs2 : Reg) : exec (.mulh rd rs1 rs2) s = execMulh rd rs1 rs2 s := rfl
theorem exec_mulhsu (rd rs1 rs2 : Reg) : exec (.mulhsu rd rs1 rs2) s = execMulhsu rd rs1 rs2 s := rfl
theorem exec_mulhu (rd rs1 rs2 : Reg) : exec (.mulhu rd rs1 rs2) s = execMulhu rd rs1 rs2 s := rfl
theorem exec_div (rd rs1 rs2 : Reg) : exec (.div rd rs1 rs2) s = execDiv rd rs1 rs2 s := rfl
theorem exec_divu (rd rs1 rs2 : Reg) : exec (.divu rd rs1 rs2) s = execDivu rd rs1 rs2 s := rfl
theorem exec_rem (rd rs1 rs2 : Reg) : exec (.rem rd rs1 rs2) s = execRem rd rs1 rs2 s := rfl
theorem exec_remu (rd rs1 rs2 : Reg) : exec (.remu rd rs1 rs2) s = execRemu rd rs1 rs2 s := rfl
theorem exec_mulw (rd rs1 rs2 : Reg) : exec (.mulw rd rs1 rs2) s = execMulw rd rs1 rs2 s := rfl
theorem exec_divw (rd rs1 rs2 : Reg) : exec (.divw rd rs1 rs2) s = execDivw rd rs1 rs2 s := rfl
theorem exec_divuw (rd rs1 rs2 : Reg) : exec (.divuw rd rs1 rs2) s = execDivuw rd rs1 rs2 s := rfl
theorem exec_remw (rd rs1 rs2 : Reg) : exec (.remw rd rs1 rs2) s = execRemw rd rs1 rs2 s := rfl
theorem exec_remuw (rd rs1 rs2 : Reg) : exec (.remuw rd rs1 rs2) s = execRemuw rd rs1 rs2 s := rfl
theorem exec_fence (fm pred succ : BitVec 4) (rs1 rd : Reg) : exec (.fence fm pred succ rs1 rd) s = execFence fm pred succ rs1 rd s := rfl
theorem exec_fenceTso (pred succ : BitVec 4) (rs1 rd : Reg) : exec (.fenceTso pred succ rs1 rd) s = execFenceTso pred succ rs1 rd s := rfl
theorem exec_pause : exec .pause s = execPause s := rfl
theorem exec_fenceI (rd rs1 : Reg) (imm : BitVec 12) : exec (.fenceI rd rs1 imm) s = execFenceI rd rs1 imm s := rfl
theorem exec_ecall : exec .ecall s = execEcall s := rfl
theorem exec_ebreak : exec .ebreak s = execEbreak s := rfl
theorem exec_csrrw (rd rs1 : Reg) (csr : BitVec 12) : exec (.csrrw rd rs1 csr) s = execCsrrw rd rs1 csr s := rfl
theorem exec_csrrs (rd rs1 : Reg) (csr : BitVec 12) : exec (.csrrs rd rs1 csr) s = execCsrrs rd rs1 csr s := rfl
theorem exec_csrrc (rd rs1 : Reg) (csr : BitVec 12) : exec (.csrrc rd rs1 csr) s = execCsrrc rd rs1 csr s := rfl
theorem exec_csrrwi (rd uimm : Reg) (csr : BitVec 12) : exec (.csrrwi rd uimm csr) s = execCsrrwi rd uimm csr s := rfl
theorem exec_csrrsi (rd uimm : Reg) (csr : BitVec 12) : exec (.csrrsi rd uimm csr) s = execCsrrsi rd uimm csr s := rfl
theorem exec_csrrci (rd uimm : Reg) (csr : BitVec 12) : exec (.csrrci rd uimm csr) s = execCsrrci rd uimm csr s := rfl
theorem exec_lrW (rd rs1 : Reg) (aq rl : Bool) : exec (.lrW rd rs1 aq rl) s = execLrW rd rs1 aq rl s := rfl
theorem exec_scW (rd rs1 rs2 : Reg) (aq rl : Bool) : exec (.scW rd rs1 rs2 aq rl) s = execScW rd rs1 rs2 aq rl s := rfl
theorem exec_lrD (rd rs1 : Reg) (aq rl : Bool) : exec (.lrD rd rs1 aq rl) s = execLrD rd rs1 aq rl s := rfl
theorem exec_scD (rd rs1 rs2 : Reg) (aq rl : Bool) : exec (.scD rd rs1 rs2 aq rl) s = execScD rd rs1 rs2 aq rl s := rfl
theorem exec_amoswapW (rd rs1 rs2 : Reg) (aq rl : Bool) : exec (.amoswapW rd rs1 rs2 aq rl) s = execAmoswapW rd rs1 rs2 aq rl s := rfl
theorem exec_amoaddW (rd rs1 rs2 : Reg) (aq rl : Bool) : exec (.amoaddW rd rs1 rs2 aq rl) s = execAmoaddW rd rs1 rs2 aq rl s := rfl
theorem exec_amoxorW (rd rs1 rs2 : Reg) (aq rl : Bool) : exec (.amoxorW rd rs1 rs2 aq rl) s = execAmoxorW rd rs1 rs2 aq rl s := rfl
theorem exec_amoandW (rd rs1 rs2 : Reg) (aq rl : Bool) : exec (.amoandW rd rs1 rs2 aq rl) s = execAmoandW rd rs1 rs2 aq rl s := rfl
theorem exec_amoorW (rd rs1 rs2 : Reg) (aq rl : Bool) : exec (.amoorW rd rs1 rs2 aq rl) s = execAmoorW rd rs1 rs2 aq rl s := rfl
theorem exec_amominW (rd rs1 rs2 : Reg) (aq rl : Bool) : exec (.amominW rd rs1 rs2 aq rl) s = execAmominW rd rs1 rs2 aq rl s := rfl
theorem exec_amomaxW (rd rs1 rs2 : Reg) (aq rl : Bool) : exec (.amomaxW rd rs1 rs2 aq rl) s = execAmomaxW rd rs1 rs2 aq rl s := rfl
theorem exec_amominuW (rd rs1 rs2 : Reg) (aq rl : Bool) : exec (.amominuW rd rs1 rs2 aq rl) s = execAmominuW rd rs1 rs2 aq rl s := rfl
theorem exec_amomaxuW (rd rs1 rs2 : Reg) (aq rl : Bool) : exec (.amomaxuW rd rs1 rs2 aq rl) s = execAmomaxuW rd rs1 rs2 aq rl s := rfl
theorem exec_amoswapD (rd rs1 rs2 : Reg) (aq rl : Bool) : exec (.amoswapD rd rs1 rs2 aq rl) s = execAmoswapD rd rs1 rs2 aq rl s := rfl
theorem exec_amoaddD (rd rs1 rs2 : Reg) (aq rl : Bool) : exec (.amoaddD rd rs1 rs2 aq rl) s = execAmoaddD rd rs1 rs2 aq rl s := rfl
theorem exec_amoxorD (rd rs1 rs2 : Reg) (aq rl : Bool) : exec (.amoxorD rd rs1 rs2 aq rl) s = execAmoxorD rd rs1 rs2 aq rl s := rfl
theorem exec_amoandD (rd rs1 rs2 : Reg) (aq rl : Bool) : exec (.amoandD rd rs1 rs2 aq rl) s = execAmoandD rd rs1 rs2 aq rl s := rfl
theorem exec_amoorD (rd rs1 rs2 : Reg) (aq rl : Bool) : exec (.amoorD rd rs1 rs2 aq rl) s = execAmoorD rd rs1 rs2 aq rl s := rfl
theorem exec_amominD (rd rs1 rs2 : Reg) (aq rl : Bool) : exec (.amominD rd rs1 rs2 aq rl) s = execAmominD rd rs1 rs2 aq rl s := rfl
theorem exec_amomaxD (rd rs1 rs2 : Reg) (aq rl : Bool) : exec (.amomaxD rd rs1 rs2 aq rl) s = execAmomaxD rd rs1 rs2 aq rl s := rfl
theorem exec_amominuD (rd rs1 rs2 : Reg) (aq rl : Bool) : exec (.amominuD rd rs1 rs2 aq rl) s = execAmominuD rd rs1 rs2 aq rl s := rfl
theorem exec_amomaxuD (rd rs1 rs2 : Reg) (aq rl : Bool) : exec (.amomaxuD rd rs1 rs2 aq rl) s = execAmomaxuD rd rs1 rs2 aq rl s := rfl
theorem exec_flw (rd rs1 : Reg) (imm : BitVec 12) : exec (.flw rd rs1 imm) s = execFlw rd rs1 imm s := rfl
theorem exec_flh (rd rs1 : Reg) (imm : BitVec 12) : exec (.flh rd rs1 imm) s = execFlh rd rs1 imm s := rfl
theorem exec_fsw (rs1 rs2 : Reg) (imm : BitVec 12) : exec (.fsw rs1 rs2 imm) s = execFsw rs1 rs2 imm s := rfl
theorem exec_fsh (rs1 rs2 : Reg) (imm : BitVec 12) : exec (.fsh rs1 rs2 imm) s = execFsh rs1 rs2 imm s := rfl
theorem exec_fmaddS (rd rs1 rs2 rs3 : Reg) (rm : BitVec 3) : exec (.fmaddS rd rs1 rs2 rs3 rm) s = execFmaddS rd rs1 rs2 rs3 rm s := rfl
theorem exec_fmsubS (rd rs1 rs2 rs3 : Reg) (rm : BitVec 3) : exec (.fmsubS rd rs1 rs2 rs3 rm) s = execFmsubS rd rs1 rs2 rs3 rm s := rfl
theorem exec_fnmsubS (rd rs1 rs2 rs3 : Reg) (rm : BitVec 3) : exec (.fnmsubS rd rs1 rs2 rs3 rm) s = execFnmsubS rd rs1 rs2 rs3 rm s := rfl
theorem exec_fnmaddS (rd rs1 rs2 rs3 : Reg) (rm : BitVec 3) : exec (.fnmaddS rd rs1 rs2 rs3 rm) s = execFnmaddS rd rs1 rs2 rs3 rm s := rfl
theorem exec_faddS (rd rs1 rs2 : Reg) (rm : BitVec 3) : exec (.faddS rd rs1 rs2 rm) s = execFaddS rd rs1 rs2 rm s := rfl
theorem exec_fsubS (rd rs1 rs2 : Reg) (rm : BitVec 3) : exec (.fsubS rd rs1 rs2 rm) s = execFsubS rd rs1 rs2 rm s := rfl
theorem exec_fmulS (rd rs1 rs2 : Reg) (rm : BitVec 3) : exec (.fmulS rd rs1 rs2 rm) s = execFmulS rd rs1 rs2 rm s := rfl
theorem exec_fdivS (rd rs1 rs2 : Reg) (rm : BitVec 3) : exec (.fdivS rd rs1 rs2 rm) s = execFdivS rd rs1 rs2 rm s := rfl
theorem exec_fsqrtS (rd rs1 : Reg) (rm : BitVec 3) : exec (.fsqrtS rd rs1 rm) s = execFsqrtS rd rs1 rm s := rfl
theorem exec_fsgnjS (rd rs1 rs2 : Reg) : exec (.fsgnjS rd rs1 rs2) s = execFsgnjS rd rs1 rs2 s := rfl
theorem exec_fsgnjnS (rd rs1 rs2 : Reg) : exec (.fsgnjnS rd rs1 rs2) s = execFsgnjnS rd rs1 rs2 s := rfl
theorem exec_fsgnjxS (rd rs1 rs2 : Reg) : exec (.fsgnjxS rd rs1 rs2) s = execFsgnjxS rd rs1 rs2 s := rfl
theorem exec_fminS (rd rs1 rs2 : Reg) : exec (.fminS rd rs1 rs2) s = execFminS rd rs1 rs2 s := rfl
theorem exec_fmaxS (rd rs1 rs2 : Reg) : exec (.fmaxS rd rs1 rs2) s = execFmaxS rd rs1 rs2 s := rfl
theorem exec_fcvtWS (rd rs1 : Reg) (rm : BitVec 3) : exec (.fcvtWS rd rs1 rm) s = execFcvtWS rd rs1 rm s := rfl
theorem exec_fcvtWuS (rd rs1 : Reg) (rm : BitVec 3) : exec (.fcvtWuS rd rs1 rm) s = execFcvtWuS rd rs1 rm s := rfl
theorem exec_fcvtLS (rd rs1 : Reg) (rm : BitVec 3) : exec (.fcvtLS rd rs1 rm) s = execFcvtLS rd rs1 rm s := rfl
theorem exec_fcvtLuS (rd rs1 : Reg) (rm : BitVec 3) : exec (.fcvtLuS rd rs1 rm) s = execFcvtLuS rd rs1 rm s := rfl
theorem exec_fcvtSW (rd rs1 : Reg) (rm : BitVec 3) : exec (.fcvtSW rd rs1 rm) s = execFcvtSW rd rs1 rm s := rfl
theorem exec_fcvtSWu (rd rs1 : Reg) (rm : BitVec 3) : exec (.fcvtSWu rd rs1 rm) s = execFcvtSWu rd rs1 rm s := rfl
theorem exec_fcvtSL (rd rs1 : Reg) (rm : BitVec 3) : exec (.fcvtSL rd rs1 rm) s = execFcvtSL rd rs1 rm s := rfl
theorem exec_fcvtSLu (rd rs1 : Reg) (rm : BitVec 3) : exec (.fcvtSLu rd rs1 rm) s = execFcvtSLu rd rs1 rm s := rfl
theorem exec_fmvXW (rd rs1 : Reg) : exec (.fmvXW rd rs1) s = execFmvXW rd rs1 s := rfl
theorem exec_fclassS (rd rs1 : Reg) : exec (.fclassS rd rs1) s = execFclassS rd rs1 s := rfl
theorem exec_fmvWX (rd rs1 : Reg) : exec (.fmvWX rd rs1) s = execFmvWX rd rs1 s := rfl
theorem exec_feqS (rd rs1 rs2 : Reg) : exec (.feqS rd rs1 rs2) s = execFeqS rd rs1 rs2 s := rfl
theorem exec_fltS (rd rs1 rs2 : Reg) : exec (.fltS rd rs1 rs2) s = execFltS rd rs1 rs2 s := rfl
theorem exec_fleS (rd rs1 rs2 : Reg) : exec (.fleS rd rs1 rs2) s = execFleS rd rs1 rs2 s := rfl
theorem exec_fcvtSBf16 (rd rs1 : Reg) (rm : BitVec 3) : exec (.fcvtSBf16 rd rs1 rm) s = execFcvtSBf16 rd rs1 rm s := rfl
theorem exec_fcvtBf16S (rd rs1 : Reg) (rm : BitVec 3) : exec (.fcvtBf16S rd rs1 rm) s = execFcvtBf16S rd rs1 rm s := rfl
theorem exec_fmvXH (rd rs1 : Reg) : exec (.fmvXH rd rs1) s = execFmvXH rd rs1 s := rfl
theorem exec_fmvHX (rd rs1 : Reg) : exec (.fmvHX rd rs1) s = execFmvHX rd rs1 s := rfl
theorem exec_loop (rs1 : Reg) (imm : BitVec 12) : exec (.loop rs1 imm) s = execLoop rs1 imm s := rfl
theorem exec_loopi (cntm1 : BitVec 10) (imm : BitVec 12) : exec (.loopi cntm1 imm) s = execLoopi cntm1 imm s := rfl
theorem exec_lbrk (rs1 : Reg) (n : BitVec 12) : exec (.lbrk rs1 n) s = execLbrk rs1 n s := rfl
theorem exec_yield : exec .yield s = execYield s := rfl
theorem exec_widf (rd : Reg) (i : BitVec 3) : exec (.widf rd i) s = execWidf rd i s := rfl
theorem exec_widfExt (rd : Reg) (i : BitVec 3) : exec (.widfExt rd i) s = execWidfExt rd i s := rfl
theorem exec_widfLvl (rd : Reg) (i : BitVec 3) : exec (.widfLvl rd i) s = execWidfLvl rd i s := rfl
theorem exec_vintVadd (d a b : Reg) (xs : Bool) (p : Pred) (t : Ty) : exec (.vintVadd d a b xs p t) s = execVintVadd d a b xs p t s := rfl
theorem exec_vintVsub (d a b : Reg) (xs : Bool) (p : Pred) (t : Ty) : exec (.vintVsub d a b xs p t) s = execVintVsub d a b xs p t s := rfl
theorem exec_vintVmul (d a b : Reg) (xs : Bool) (p : Pred) (t : Ty) : exec (.vintVmul d a b xs p t) s = execVintVmul d a b xs p t s := rfl
theorem exec_vmulh (d a b : Reg) (xs : Bool) (p : Pred) (t : Ty) : exec (.vmulh d a b xs p t) s = execVmulh d a b xs p t s := rfl
theorem exec_vintVmin (d a b : Reg) (xs : Bool) (p : Pred) (t : Ty) : exec (.vintVmin d a b xs p t) s = execVintVmin d a b xs p t s := rfl
theorem exec_vintVmax (d a b : Reg) (xs : Bool) (p : Pred) (t : Ty) : exec (.vintVmax d a b xs p t) s = execVintVmax d a b xs p t s := rfl
theorem exec_vminu (d a b : Reg) (xs : Bool) (p : Pred) (t : Ty) : exec (.vminu d a b xs p t) s = execVminu d a b xs p t s := rfl
theorem exec_vmaxu (d a b : Reg) (xs : Bool) (p : Pred) (t : Ty) : exec (.vmaxu d a b xs p t) s = execVmaxu d a b xs p t s := rfl
theorem exec_vand (d a b : Reg) (xs : Bool) (p : Pred) (t : Ty) : exec (.vand d a b xs p t) s = execVand d a b xs p t s := rfl
theorem exec_vor (d a b : Reg) (xs : Bool) (p : Pred) (t : Ty) : exec (.vor d a b xs p t) s = execVor d a b xs p t s := rfl
theorem exec_vxor (d a b : Reg) (xs : Bool) (p : Pred) (t : Ty) : exec (.vxor d a b xs p t) s = execVxor d a b xs p t s := rfl
theorem exec_vsll (d a b : Reg) (xs : Bool) (p : Pred) (t : Ty) : exec (.vsll d a b xs p t) s = execVsll d a b xs p t s := rfl
theorem exec_vsrl (d a b : Reg) (xs : Bool) (p : Pred) (t : Ty) : exec (.vsrl d a b xs p t) s = execVsrl d a b xs p t s := rfl
theorem exec_vsra (d a b : Reg) (xs : Bool) (p : Pred) (t : Ty) : exec (.vsra d a b xs p t) s = execVsra d a b xs p t s := rfl
theorem exec_vintVabs (d a : Reg) (p : Pred) (t : Ty) : exec (.vintVabs d a p t) s = execVintVabs d a p t s := rfl
theorem exec_vintVneg (d a : Reg) (p : Pred) (t : Ty) : exec (.vintVneg d a p t) s = execVintVneg d a p t s := rfl
theorem exec_vsadd (d a b : Reg) (xs : Bool) (p : Pred) (t : Ty) : exec (.vsadd d a b xs p t) s = execVsadd d a b xs p t s := rfl
theorem exec_vssub (d a b : Reg) (xs : Bool) (p : Pred) (t : Ty) : exec (.vssub d a b xs p t) s = execVssub d a b xs p t s := rfl
theorem exec_vfltVadd (d a b : Reg) (xs : Bool) (p : Pred) (t : Ty) : exec (.vfltVadd d a b xs p t) s = execVfltVadd d a b xs p t s := rfl
theorem exec_vfltVsub (d a b : Reg) (xs : Bool) (p : Pred) (t : Ty) : exec (.vfltVsub d a b xs p t) s = execVfltVsub d a b xs p t s := rfl
theorem exec_vfltVmul (d a b : Reg) (xs : Bool) (p : Pred) (t : Ty) : exec (.vfltVmul d a b xs p t) s = execVfltVmul d a b xs p t s := rfl
theorem exec_vfma (d a b c : Reg) (xs : Bool) (p : Pred) (t : Ty) : exec (.vfma d a b c xs p t) s = execVfma d a b c xs p t s := rfl
theorem exec_vfms (d a b c : Reg) (xs : Bool) (p : Pred) (t : Ty) : exec (.vfms d a b c xs p t) s = execVfms d a b c xs p t s := rfl
theorem exec_vfnma (d a b c : Reg) (xs : Bool) (p : Pred) (t : Ty) : exec (.vfnma d a b c xs p t) s = execVfnma d a b c xs p t s := rfl
theorem exec_vfltVmin (d a b : Reg) (xs : Bool) (p : Pred) (t : Ty) : exec (.vfltVmin d a b xs p t) s = execVfltVmin d a b xs p t s := rfl
theorem exec_vfltVmax (d a b : Reg) (xs : Bool) (p : Pred) (t : Ty) : exec (.vfltVmax d a b xs p t) s = execVfltVmax d a b xs p t s := rfl
theorem exec_vfltVabs (d a : Reg) (p : Pred) (t : Ty) : exec (.vfltVabs d a p t) s = execVfltVabs d a p t s := rfl
theorem exec_vfltVneg (d a : Reg) (p : Pred) (t : Ty) : exec (.vfltVneg d a p t) s = execVfltVneg d a p t s := rfl
theorem exec_vdiv (d a b : Reg) (xs : Bool) (p : Pred) (t : Ty) : exec (.vdiv d a b xs p t) s = execVdiv d a b xs p t s := rfl
theorem exec_vsqrt (d a : Reg) (p : Pred) (t : Ty) : exec (.vsqrt d a p t) s = execVsqrt d a p t s := rfl
theorem exec_vrcp (d a : Reg) (p : Pred) (t : Ty) : exec (.vrcp d a p t) s = execVrcp d a p t s := rfl
theorem exec_vrsqrt (d a : Reg) (p : Pred) (t : Ty) : exec (.vrsqrt d a p t) s = execVrsqrt d a p t s := rfl
theorem exec_vexp2 (d a : Reg) (p : Pred) (t : Ty) : exec (.vexp2 d a p t) s = execVexp2 d a p t s := rfl
theorem exec_vlog2 (d a : Reg) (p : Pred) (t : Ty) : exec (.vlog2 d a p t) s = execVlog2 d a p t s := rfl
theorem exec_vsgnj (d a b : Reg) (xs : Bool) (p : Pred) (t : Ty) : exec (.vsgnj d a b xs p t) s = execVsgnj d a b xs p t s := rfl
theorem exec_vcmpeq (d : MReg) (a b : Reg) (xs : Bool) (p : Pred) (t : Ty) : exec (.vcmpeq d a b xs p t) s = execVcmpeq d a b xs p t s := rfl
theorem exec_vcmpne (d : MReg) (a b : Reg) (xs : Bool) (p : Pred) (t : Ty) : exec (.vcmpne d a b xs p t) s = execVcmpne d a b xs p t s := rfl
theorem exec_vcmplt (d : MReg) (a b : Reg) (xs : Bool) (p : Pred) (t : Ty) : exec (.vcmplt d a b xs p t) s = execVcmplt d a b xs p t s := rfl
theorem exec_vcmple (d : MReg) (a b : Reg) (xs : Bool) (p : Pred) (t : Ty) : exec (.vcmple d a b xs p t) s = execVcmple d a b xs p t s := rfl
theorem exec_vcmpgt (d : MReg) (a b : Reg) (xs : Bool) (p : Pred) (t : Ty) : exec (.vcmpgt d a b xs p t) s = execVcmpgt d a b xs p t s := rfl
theorem exec_vcmpge (d : MReg) (a b : Reg) (xs : Bool) (p : Pred) (t : Ty) : exec (.vcmpge d a b xs p t) s = execVcmpge d a b xs p t s := rfl
theorem exec_mand (d a b : MReg) (all : Bool) (p : Pred) : exec (.mand d a b all p) s = execMand d a b all p s := rfl
theorem exec_mor (d a b : MReg) (all : Bool) (p : Pred) : exec (.mor d a b all p) s = execMor d a b all p s := rfl
theorem exec_mxor (d a b : MReg) (all : Bool) (p : Pred) : exec (.mxor d a b all p) s = execMxor d a b all p s := rfl
theorem exec_mandn (d a b : MReg) (all : Bool) (p : Pred) : exec (.mandn d a b all p) s = execMandn d a b all p s := rfl
theorem exec_mnot (d a : MReg) (all : Bool) (p : Pred) : exec (.mnot d a all p) s = execMnot d a all p s := rfl
theorem exec_mpop (d : Reg) (a : MReg) (all : Bool) (p : Pred) : exec (.mpop d a all p) s = execMpop d a all p s := rfl
theorem exec_mfirst (d : Reg) (a : MReg) (all : Bool) (p : Pred) : exec (.mfirst d a all p) s = execMfirst d a all p s := rfl
theorem exec_mset (d : MReg) (all : Bool) (p : Pred) : exec (.mset d all p) s = execMset d all p s := rfl
theorem exec_mclr (d : MReg) (all : Bool) (p : Pred) : exec (.mclr d all p) s = execMclr d all p s := rfl
theorem exec_vslideup (d a b : Reg) (p : Pred) (t : Ty) : exec (.vslideup d a b p t) s = execVslideup d a b p t s := rfl
theorem exec_vslidedn (d a b : Reg) (p : Pred) (t : Ty) : exec (.vslidedn d a b p t) s = execVslidedn d a b p t s := rfl
theorem exec_vbcast (d a : Reg) (p : Pred) (t : Ty) : exec (.vbcast d a p t) s = execVbcast d a p t s := rfl
theorem exec_vperm (d a b : Reg) (p : Pred) (t : Ty) : exec (.vperm d a b p t) s = execVperm d a b p t s := rfl
theorem exec_vmvXv (d a : Reg) (ix : BitVec 10) (t : Ty) : exec (.vmvXv d a ix t) s = execVmvXv d a ix t s := rfl
theorem exec_vmvVx (d a : Reg) (ix : BitVec 10) (t : Ty) : exec (.vmvVx d a ix t) s = execVmvVx d a ix t s := rfl
theorem exec_vmvFv (d a : Reg) (ix : BitVec 10) (t : Ty) : exec (.vmvFv d a ix t) s = execVmvFv d a ix t s := rfl
theorem exec_vmvVf (d a : Reg) (ix : BitVec 10) (t : Ty) : exec (.vmvVf d a ix t) s = execVmvVf d a ix t s := rfl
theorem exec_vsel (d a b : Reg) (p : Pred) (t : Ty) : exec (.vsel d a b p t) s = execVsel d a b p t s := rfl
theorem exec_vcompress (d a : Reg) (p : Pred) (t : Ty) : exec (.vcompress d a p t) s = execVcompress d a p t s := rfl
theorem exec_vredsum (d a : Reg) (ix : BitVec 4) (p : Pred) (t : Ty) : exec (.vredsum d a ix p t) s = execVredsum d a ix p t s := rfl
theorem exec_vredmax (d a : Reg) (ix : BitVec 4) (p : Pred) (t : Ty) : exec (.vredmax d a ix p t) s = execVredmax d a ix p t s := rfl
theorem exec_vredmin (d a : Reg) (ix : BitVec 4) (p : Pred) (t : Ty) : exec (.vredmin d a ix p t) s = execVredmin d a ix p t s := rfl
theorem exec_vredamax (d a : Reg) (tm : Bool) (ix : BitVec 4) (p : Pred) (t : Ty) : exec (.vredamax d a tm ix p t) s = execVredamax d a tm ix p t s := rfl
theorem exec_vcvt (d a : Reg) (c : MReg) (p : Pred) (dst src : Ty) : exec (.vcvt d a c p dst src) s = execVcvt d a c p dst src s := rfl
theorem exec_vsrnd (d a b : Reg) (c : MReg) (w : BitVec 6) (p : Pred) (dst src : Ty) : exec (.vsrnd d a b c w p dst src) s = execVsrnd d a b c w p dst src s := rfl
theorem exec_vqnt (d a : Reg) (scale : Option Reg) (c : MReg) (src : Ty) : exec (.vqnt d a scale c src) s = execVqnt d a scale c src s := rfl
theorem exec_vld (d a : Reg) (imm : BitVec 16) (p : Pred) (t : Ty) : exec (.vld d a imm p t) s = execVld d a imm p t s := rfl
theorem exec_vlds (d a b : Reg) (imm : BitVec 16) (p : Pred) (t : Ty) : exec (.vlds d a b imm p t) s = execVlds d a b imm p t s := rfl
theorem exec_vld2d (d a b : Reg) (n1m1 : BitVec 10) (p : Pred) (t : Ty) : exec (.vld2d d a b n1m1 p t) s = execVld2d d a b n1m1 p t s := rfl
theorem exec_vldx (d a b : Reg) (p : Pred) (t : Ty) : exec (.vldx d a b p t) s = execVldx d a b p t s := rfl
theorem exec_vst (c a : Reg) (imm : BitVec 16) (p : Pred) (t : Ty) : exec (.vst c a imm p t) s = execVst c a imm p t s := rfl
theorem exec_vsts (c a b : Reg) (imm : BitVec 16) (p : Pred) (t : Ty) : exec (.vsts c a b imm p t) s = execVsts c a b imm p t s := rfl
theorem exec_vstx (c a b : Reg) (dup : Option MReg) (p : Pred) (t : Ty) : exec (.vstx c a b dup p t) s = execVstx c a b dup p t s := rfl
theorem exec_vsetvl (d a : Reg) (t : Ty) : exec (.vsetvl d a t) s = execVsetvl d a t s := rfl
theorem exec_vsetvlw (d a b c : Reg) (limit : BitVec 15) (full : Bool) (t : Ty) : exec (.vsetvlw d a b c limit full t) s = execVsetvlw d a b c limit full t s := rfl
theorem exec_vgrp (g : BitVec 2) : exec (.vgrp g) s = execVgrp g s := rfl
theorem exec_mop1 (d : Tile) (a b c : Reg) (p : Pred) (pair : Pair) : exec (.mop1 d a b c p pair) s = execMop1 d a b c p pair s := rfl
theorem exec_mopa (d : Tile) (a b c : Reg) (km1 : BitVec 12) (ocs : Bool) (p : Pred) (pair : Pair) : exec (.mopa d a b c km1 ocs p pair) s = execMopa d a b c km1 ocs p pair s := rfl
theorem exec_mzero (d : Tile) (p : Pred) : exec (.mzero d p) s = execMzero d p s := rfl
theorem exec_mrel : exec .mrel s = execMrel s := rfl
theorem exec_mrelDiscard : exec .mrelDiscard s = execMrelDiscard s := rfl
theorem exec_mdrain (f : Drain) : exec (.mdrain f) s = execMdrain f s := rfl
theorem exec_mdrainRow (f : Drain) (c : Reg) : exec (.mdrainRow f c) s = execMdrainRow f c s := rfl
theorem exec_mdrainDly (f : Drain) (c : Reg) : exec (.mdrainDly f c) s = execMdrainDly f c s := rfl
theorem exec_mrowRd (d : Reg) (a : Tile) (ix : RowIx) (col : Bool) (p : Pred) (t : Ty) : exec (.mrowRd d a ix col p t) s = execMrowRd d a ix col p t s := rfl
theorem exec_mrowWr (d : Tile) (a : Reg) (ix : RowIx) (col : Bool) (p : Pred) (t : Ty) : exec (.mrowWr d a ix col p t) s = execMrowWr d a ix col p t s := rfl
theorem exec_amxrd (d : Reg) (i : BitVec 4) : exec (.amxrd d i) s = execAmxrd d i s := rfl
theorem exec_amxswp (d : Reg) (i : BitVec 4) : exec (.amxswp d i) s = execAmxswp d i s := rfl
theorem exec_amxmax (a : Reg) (i : BitVec 4) : exec (.amxmax a i) s = execAmxmax a i s := rfl
theorem exec_tcopy (a b : Reg) (act : CopyAct) (ord : Bool) : exec (.tcopy a b act ord) s = execTcopy a b act ord s := rfl
theorem exec_tcopySt (a b : Reg) (act : CopyAct) (ord : Bool) : exec (.tcopySt a b act ord) s = execTcopySt a b act ord s := rfl
theorem exec_tcopyMc (a b c d : Reg) (sig : Option Scope) (ord : Bool) : exec (.tcopyMc a b c d sig ord) s = execTcopyMc a b c d sig ord s := rfl
theorem exec_frminit (a b : Reg) : exec (.frminit a b) s = execFrminit a b s := rfl
theorem exec_frmwait (d a : Reg) (limit : BitVec 15) : exec (.frmwait d a limit) s = execFrmwait d a limit s := rfl
theorem exec_frmfree (a : Reg) : exec (.frmfree a) s = execFrmfree a s := rfl
theorem exec_qfence (r w e : Bool) (sc : Scope) : exec (.qfence r w e sc) s = execQfence r w e sc s := rfl
theorem exec_qamoadd (d a b : Reg) (word : Bool) (acq rel : Bool) (sc : Scope) : exec (.qamoadd d a b word acq rel sc) s = execQamoadd d a b word acq rel sc s := rfl
theorem exec_qamoand (d a b : Reg) (word : Bool) (acq rel : Bool) (sc : Scope) : exec (.qamoand d a b word acq rel sc) s = execQamoand d a b word acq rel sc s := rfl
theorem exec_qamoor (d a b : Reg) (word : Bool) (acq rel : Bool) (sc : Scope) : exec (.qamoor d a b word acq rel sc) s = execQamoor d a b word acq rel sc s := rfl
theorem exec_qamoxor (d a b : Reg) (word : Bool) (acq rel : Bool) (sc : Scope) : exec (.qamoxor d a b word acq rel sc) s = execQamoxor d a b word acq rel sc s := rfl
theorem exec_qamomin (d a b : Reg) (word : Bool) (acq rel : Bool) (sc : Scope) : exec (.qamomin d a b word acq rel sc) s = execQamomin d a b word acq rel sc s := rfl
theorem exec_qamomax (d a b : Reg) (word : Bool) (acq rel : Bool) (sc : Scope) : exec (.qamomax d a b word acq rel sc) s = execQamomax d a b word acq rel sc s := rfl
theorem exec_qamominu (d a b : Reg) (word : Bool) (acq rel : Bool) (sc : Scope) : exec (.qamominu d a b word acq rel sc) s = execQamominu d a b word acq rel sc s := rfl
theorem exec_qamomaxu (d a b : Reg) (word : Bool) (acq rel : Bool) (sc : Scope) : exec (.qamomaxu d a b word acq rel sc) s = execQamomaxu d a b word acq rel sc s := rfl
theorem exec_qamoswap (d a b : Reg) (word : Bool) (acq rel : Bool) (sc : Scope) : exec (.qamoswap d a b word acq rel sc) s = execQamoswap d a b word acq rel sc s := rfl
theorem exec_qamocas (d a b c : Reg) (word : Bool) (acq rel : Bool) (sc : Scope) : exec (.qamocas d a b c word acq rel sc) s = execQamocas d a b c word acq rel sc s := rfl
theorem exec_ssig (a b : Reg) (sc : Scope) : exec (.ssig a b sc) s = execSsig a b sc s := rfl
theorem exec_sset (a b : Reg) (sc : Scope) : exec (.sset a b sc) s = execSset a b sc s := rfl
theorem exec_swait (d a b c : Reg) (cond : Cond) (sc : Scope) : exec (.swait d a b c cond sc) s = execSwait d a b c cond sc s := rfl
theorem exec_bar (level : BarLevel) (limit : BitVec 13) : exec (.bar level limit) s = execBar level limit s := rfl
theorem exec_ldfe (d a c : Reg) (off : BitVec 12) : exec (.ldfe d a c off) s = execLdfe d a c off s := rfl
theorem exec_ldfeK (d a c : Reg) (off : BitVec 12) : exec (.ldfeK d a c off) s = execLdfeK d a c off s := rfl
theorem exec_stfe (a b : Reg) (off : BitVec 12) : exec (.stfe a b off) s = execStfe a b off s := rfl
theorem exec_stfeF (a b : Reg) (off : BitVec 12) : exec (.stfeF a b off) s = execStfeF a b off s := rfl
theorem exec_feprobe (d a : Reg) (off : BitVec 12) : exec (.feprobe d a off) s = execFeprobe d a off s := rfl
theorem exec_fesetE (a : Reg) (off : BitVec 12) : exec (.fesetE a off) s = execFesetE a off s := rfl
theorem exec_fesetF (a : Reg) (off : BitVec 12) : exec (.fesetF a off) s = execFesetF a off s := rfl
theorem exec_wgsend (a b c : Reg) (limit : BitVec 15) : exec (.wgsend a b c limit) s = execWgsend a b c limit s := rfl
theorem exec_wgrecv (d : Reg) (limit : BitVec 15) : exec (.wgrecv d limit) s = execWgrecv d limit s := rfl
theorem exec_wgpeek (d : Reg) : exec (.wgpeek d) s = execWgpeek d s := rfl
theorem exec_launch (d a b : Reg) : exec (.launch d a b) s = execLaunch d a b s := rfl
theorem exec_launchNb (d a b : Reg) : exec (.launchNb d a b) s = execLaunchNb d a b s := rfl
theorem exec_retire : exec .retire s = execRetire s := rfl
theorem exec_retireH (a : Reg) : exec (.retireH a) s = execRetireH a s := rfl
theorem exec_bfork (d a : Reg) : exec (.bfork d a) s = execBfork d a s := rfl
theorem exec_bjoin (a : Reg) : exec (.bjoin a) s = execBjoin a s := rfl
theorem exec_bjoinW (d a : Reg) : exec (.bjoinW d a) s = execBjoinW d a s := rfl
theorem exec_bjoinAb : exec .bjoinAb s = execBjoinAb s := rfl
theorem exec_bjoinAbW (d : Reg) : exec (.bjoinAbW d) s = execBjoinAbW d s := rfl
theorem exec_bkill (d a b : Reg) : exec (.bkill d a b) s = execBkill d a b s := rfl
theorem exec_bkillAll (d a : Reg) : exec (.bkillAll d a) s = execBkillAll d a s := rfl
theorem exec_bstat (d a : Reg) : exec (.bstat d a) s = execBstat d a s := rfl
theorem exec_bstatSib (d a b : Reg) : exec (.bstatSib d a b) s = execBstatSib d a b s := rfl
theorem exec_tret : exec .tret s = execTret s := rfl
theorem exec_traise (a : Reg) : exec (.traise a) s = execTraise a s := rfl
theorem exec_msave (d : Tile) (a : Reg) : exec (.msave d a) s = execMsave d a s := rfl
theorem exec_mrstr (d : Tile) (a : Reg) : exec (.mrstr d a) s = execMrstr d a s := rfl
theorem exec_icinv (a b : Reg) : exec (.icinv a b) s = execIcinv a b s := rfl
theorem exec_illegalInstruction (len : Nat) (w : Word) : exec (.illegalInstruction len w) s = execIllegalInstruction len w s := rfl
theorem exec_rotationBoundary (core : Nat) : exec (.rotationBoundary core) s = execRotationBoundary core s := rfl
theorem exec_turnSpentWithoutIssue (cell : Nat) : exec (.turnSpentWithoutIssue cell) s = execTurnSpentWithoutIssue cell s := rfl
theorem exec_matrixInstructionComplete (core : Nat) : exec (.matrixInstructionComplete core) s = execMatrixInstructionComplete core s := rfl
theorem exec_vectorInstructionComplete (core i : Nat) : exec (.vectorInstructionComplete core i) s = execVectorInstructionComplete core i s := rfl
theorem exec_accessPerformedAtHome (cell i : Nat) : exec (.accessPerformedAtHome cell i) s = execAccessPerformedAtHome cell i s := rfl
theorem exec_icinvAcknowledged (cell : Nat) : exec (.icinvAcknowledged cell) s = execIcinvAcknowledged cell s := rfl
theorem exec_pcieCompletionTimeout (r : FabricReq) : exec (.pcieCompletionTimeout r) s = execPcieCompletionTimeout r s := rfl
theorem exec_postedWriteUndeliverable (cell : Nat) (dva : Word) : exec (.postedWriteUndeliverable cell dva) s = execPostedWriteUndeliverable cell dva s := rfl
theorem exec_ualinkReplay (station : Nat) : exec (.ualinkReplay station) s = execUalinkReplay station s := rfl
theorem exec_fabricPeerAccess (op : PeerOp) : exec (.fabricPeerAccess op) s = execFabricPeerAccess op s := rfl
theorem exec_tlbShootdown (asid dva : Nat) (entry : Word) : exec (.tlbShootdown asid dva entry) s = execTlbShootdown asid dva entry s := rfl
theorem exec_powerCapClockChange (lower : Bool) : exec (.powerCapClockChange lower) s = execPowerCapClockChange lower s := rfl
theorem exec_configurationRequest (func : Nat) (req : CfgReq) : exec (.configurationRequest func req) s = execConfigurationRequest func req s := rfl

end Sys2Proof.Machine
end

