-- ==== Sys2Proof/Laws/Vector.lean ====
section
/-! SUPPORT. What the shared operations of the vector instructions answer for a cell that may issue to the unit. -/

namespace Sys2Proof.Machine

variable {s : State}

theorem vready_calm (h : vready s = true) : calm s = true := by
  simp only [vready, Bool.and_eq_true] at h; exact h.1

theorem vecRoom_ok (h : vready s = true) : vecRoom (begun s 8) = .ok () := by
  simp only [vready, Bool.and_eq_true, decide_eq_true_eq] at h
  have h2 : ((begun s 8).core (coreOf (begun s 8).cur)).vec.length < 4 := h.2
  unfold vecRoom
  rw [if_neg (by omega)]

theorem begun_g (h : calm s = true) (n : Nat) : (begun s n).me.g = s.me.g := by rw [begun_me h]

/-- With aligned operands and no failed check, a vector instruction executes its body. -/
theorem vecIssue_calm (h : calm s = true) (early : Early) (fields : List (Nat × Reg)) (srcs dsts : List Dst) (body : State → Op Res)
    (he : early (begun s 8) = none) (ha : ∀ f ∈ fields, aligned s f.2 = true) :
    vecIssue early fields srcs dsts body s = .next (commit 8 ((Op.res (body (begun s 8))).holding (dsts.flatMap (groupDst s.me.g)))) := by
  unfold vecIssue
  simp only
  rw [issue_calm h 8 _ _ _ _ ?_]
  simp only [he]
  have hf : fields.find? (fun f => f.2.toNat % 2 ^ (begun s 8).me.g != 0) = none := by
    rw [List.find?_eq_none]
    intro f hf
    have := ha f hf
    simpa [aligned, begun_g h] using this
  unfold alignCheck
  rw [hf]

/-- The first misaligned operand field traps. -/
theorem vecIssue_misaligned (h : calm s = true) (early : Early) (fields : List (Nat × Reg)) (srcs dsts : List Dst) (body : State → Op Res)
    (he : early (begun s 8) = none) {k : Nat} {r : Reg} {pre post : List (Nat × Reg)} (hf : fields = pre ++ (k, r) :: post)
    (hp : ∀ f ∈ pre, aligned s f.2 = true) (hr : aligned s r = false) :
    vecIssue early fields srcs dsts body s = .next (trapped (begun s 8) 8 cVGRP_ALIGN (BitVec.ofNat 64 (r.toNat + 32 * k))) := by
  unfold vecIssue
  simp only
  refine issue_early (calm_issue h) 8 _ _ _ _ ?_
  simp only [he]
  unfold alignCheck
  have : fields.find? (fun f => f.2.toNat % 2 ^ (begun s 8).me.g != 0) = some (k, r) := by
    rw [hf, List.find?_append, List.find?_eq_none.mpr, List.find?_cons_of_pos]
    · rfl
    · simpa [aligned, begun_g h] using hr
    · intro f hf
      have := hp f hf
      simpa [aligned, begun_g h] using this
  rw [this]

theorem frmCheck_ok (h : calm s = true) {m : Rm} (hr : rmSelect s 7 = some m) (q : Q64) : frmCheck q (begun s 8) = none := by
  unfold frmCheck
  have : rmSelect (begun s 8) 7 = some m := by unfold rmSelect at *; rw [begun_me h]; exact hr
  rw [this]

theorem frmOf_calm (h : calm s = true) {m : Rm} (hr : rmSelect s 7 = some m) : frmOf (begun s 8) = m := by
  have : rmSelect (begun s 8) 7 = some m := by unfold rmSelect at *; rw [begun_me h]; exact hr
  unfold frmOf rmOf; rw [this]; rfl

/-- An element-wise instruction. -/
theorem vecMap_calm (h : vready s = true) (q : Q64) (early : Early) (w arity : Nat) (xs : Option Dst) (scalar : State → Nat) (raw : State → Word)
    (f : State → Nat → Nat → Nat → Nat × Fl) (he : early (begun s 8) = none) (hd : aligned s q.d = true) (ha : aligned s q.a = true)
    (hb : arity ≥ 2 → xs = none → aligned s q.b = true) (hc : arity = 3 → aligned s q.c = true) :
    let u := begun s 8
    let bv := decide (arity ≥ 2) && xs.isNone
    vecMap q early w arity xs scalar raw f s = .next (after (vecTo s q (selected u q.p) q.d w (vcount u.me w) 0 (raw u) fun i =>
      f u (elem (getGroup u u.me.g q.a) w i) (if bv then elem (getGroup u u.me.g q.b) w i else scalar u)
        (elem (if arity = 3 then getGroup u u.me.g q.c else 0) w i)) 8) := by
  intro u bv
  unfold vecMap
  simp only
  rw [vecIssue_calm (vready_calm h) _ _ _ _ _ he]
  · simp only [vecRoom_ok h, bind, Except.bind]
    show Host.Outcome.next (commit 8 ((Res.ok _).holding _)) = _
    rw [holding_ok, commit_ok]
    congr 2
    unfold vecTo
    have : ∀ i, (if (decide (arity ≥ 2) && xs.isNone) = true then elem (if (decide (arity ≥ 2) && xs.isNone) = true then getGroup (begun s 8) (begun s 8).me.g q.b else 0) w i else scalar (begun s 8))
        = if (decide (arity ≥ 2) && xs.isNone) = true then elem (getGroup (begun s 8) (begun s 8).me.g q.b) w i else scalar (begun s 8) := by
      intro i; split <;> rfl
    simp only [this]
    rfl
  · intro e he
    simp only [List.mem_append, List.mem_cons, List.not_mem_nil, or_false] at he
    rcases he with ((rfl | rfl) | he) | he
    · exact hd
    · exact ha
    · split at he
      · simp only [Bool.and_eq_true, decide_eq_true_eq, Option.isNone_iff_eq_none] at *
        simp only [List.mem_cons, List.not_mem_nil, or_false] at he
        subst he
        rename_i hh
        exact hb hh.1 hh.2
      · simp at he
    · split at he
      · simp only [List.mem_cons, List.not_mem_nil, or_false] at he
        subst he
        exact hc ‹_›
      · simp at he

theorem op_bind {α : Type} (x : α) (f : α → Op Res) : (Except.ok x >>= f) = f x := rfl

/-- A mask function. -/
theorem vmsk_calm (h : vready s = true) (q : Q64) (d : MReg) (all : Bool) (p : Pred) (f : State → Nat → Bool) :
    vmsk q d all p f s = .next (after (maskTo s q (fun i => all || selected (begun s 8) p i) d 1
      (if all then 1024 else (begun s 8).me.vl) 0 (f (begun s 8))) 8) := by
  unfold vmsk
  rw [vecIssue_calm (vready_calm h) _ _ _ _ _ rfl (by simp)]
  simp only [vecRoom_ok h, op_bind]
  rfl

/-- A mask function with a scalar result. -/
theorem vmskX_calm (h : vready s = true) (q : Q64) (d : Reg) (all : Bool) (p : Pred) (a : MReg) (f : List Nat → Word) :
    vmskX q d all p a f s = .next (after (setXLate (fly (begun s 8) q (if all then 1024 else (begun s 8).me.vl) 1
      (heldScalar (begun s 8) (.x d) (if all then 1024 else (begun s 8).me.vl)) 0 0 0) d
      (f ((List.range (if all then 1024 else (begun s 8).me.vl)).filter fun i => (all || selected (begun s 8) p i) && (rdM s a).getLsbD i)) 2) 8) := by
  unfold vmskX
  rw [vecIssue_calm (vready_calm h) _ _ _ _ _ rfl (by simp)]
  simp only [vecRoom_ok h, op_bind, getM_calm (vready_calm h)]
  rfl

/-- A permute. -/
theorem permute_calm (h : vready s = true) (q : Q64) (t : Ty) (srcs : List Dst) (fields : List (Nat × Reg)) (f : State → Nat → Nat → Option Nat)
    (hd : aligned s q.d = true) (hf : ∀ e ∈ fields, aligned s e.2 = true) :
    let u := begun s 8
    let n := vcount u.me t.width
    permute q t srcs fields f s = .next (after (setGroup (fly u q n t.width (heldGroup u u.me.g t.width q.d) (rawAt u srcs 0) (rawAt u srcs 1) 0) u.me.g q.d
      (mapElems (getGroup u u.me.g q.d) t.width n (fun _ => true) fun i => ((f u n i).getD (elem (getGroup u u.me.g q.d) t.width i), .none)).1) 8) := by
  intro u n
  unfold permute
  rw [vecIssue_calm (vready_calm h) _ _ _ _ _ rfl ?_]
  · simp only [vecRoom_ok h, op_bind]
    rfl
  · intro e he
    rcases List.mem_cons.mp he with rfl | he
    · exact hd
    · exact hf e he

/-- A move into one element. -/
theorem moveIn_calm (h : vready s = true) (q : Q64) (src : Dst) (t : Ty) (ix : Nat) (f : State → Nat) (raw : State → Word) (hd : aligned s q.d = true) :
    let u := begun s 8
    let u1 := fly u q 1 t.width (heldGroup u u.me.g t.width q.d) (raw u) 0 0
    moveIn q src t ix f raw s = .next (after (if ix < vlmaxOf u.me t.width then
      setGroup u1 u.me.g q.d (putElem (getGroup u u.me.g q.d) t.width ix (f u)) else u1) 8) := by
  intro u u1
  unfold moveIn
  rw [vecIssue_calm (vready_calm h) _ _ _ _ _ rfl (by simpa using hd)]
  simp only [vecRoom_ok h, op_bind]
  rfl

/-- A reduction. -/
theorem vred_calm (h : vready s = true) (q : Q64) (early : Early) (a d : Reg) (t : Ty) (isF : Bool) (r : State → Nat × Fl) (more : Nat → State → State)
    (he : early (begun s 8) = none) (ha : aligned s a = true) :
    let u := begun s 8
    let u1 := more (r u).1 (raiseFlags (fly u q (vcount u.me t.width) t.width (heldScalar u (if isF then .f d else .x d) (vcount u.me t.width)) 0 0 0) (r u).2)
    vred q early a d t isF r more s = .next (after (if isF then setFLate u1 d (BitVec.ofNat 32 (r u).1) (turnsOf u.me 4 5)
      else setXLate u1 d (BitVec.ofNat 64 (r u).1) (turnsOf u.me 4 5)) 8) := by
  intro u u1
  unfold vred
  rw [vecIssue_calm (vready_calm h) _ _ _ _ _ he (by simpa using ha)]
  simp only [vecRoom_ok h, op_bind]
  rfl

/-- A conversion. -/
theorem vconv_calm (h : vready s = true) (q : Q64) (early : Early) (ws wd wide : Nat) (bv : Bool) (c : MReg) (f : State → Nat → Nat → Nat × Bool × Fl)
    (he : early (begun s 8) = none) (hd : aligned s q.d = true) (ha : aligned s q.a = true) (hb : bv = true → aligned s q.b = true) :
    let u := begun s 8
    let g := u.me.g
    let n := vcount u.me wide
    let e (i : Nat) : Nat × Bool × Fl := f u (elem (getGroup u g q.a) ws i) (elem (getGroup u g q.b) 32 i)
    let r := mapElems (getGroup u g q.d) wd n (selected u q.p) fun i => ((e i).1, (e i).2.2)
    let k := mapMask (getM u c).toNat n (selected u q.p) fun i => (e i).2.1 || (getM u c).getLsbD i
    vconv q early ws wd wide bv c f s = .next (after (raiseFlags (setM (setGroup (fly u q n wide (heldGroup u g wd q.d ++ heldMask u c) 0 0 0) g q.d r.1) c
      (BitVec.ofNat 1024 k)) r.2) 8) := by
  intro u g n e r k
  unfold vconv
  rw [vecIssue_calm (vready_calm h) _ _ _ _ _ he ?_]
  · simp only [vecRoom_ok h, op_bind]
    rfl
  · intro e he
    cases bv
    · simp at he; rcases he with rfl | rfl
      · exact hd
      · exact ha
    · simp at he; rcases he with rfl | rfl | rfl
      · exact hd
      · exact ha
      · exact hb rfl

end Sys2Proof.Machine
end

