-- ==== Sys2Proof/Laws/Matrix.lean ====
section
/-! SUPPORT. What the matrix unit's shared checks answer where the gang holds the lease and the unit is free. -/

open Sys2Proof Sys2Proof.Machine

namespace Sys2Proof.Machine

/-- A cell that is ready for the matrix unit is calm. -/
theorem calm_of_mready {s : State} (h : mready s = true) : calm s = true := by
  simp only [mready, Bool.and_eq_true] at h; exact h.1.1.1.1.1

/-- The gang is as before when a turn begins. -/
theorem begun_myGang {s : State} (h : calm s = true) (n : Nat) : (begun s n).myGang = s.myGang := by
  show (begun s n).gang (begun s n).me.gang = s.gang s.me.gang
  rw [begun_me h]; rfl

/-- No matrix record is left. -/
theorem mrec_of_mready {s : State} (h : mready s = true) : s.myGang.mrec.isSome = false := by
  simp only [mready, Bool.and_eq_true] at h
  have := h.1.1.1.1.2
  cases hm : s.myGang.mrec with
  | none => rfl
  | some r => rw [hm] at this; cases this

/-- The gang is as before when the quantum has been looked at. -/
theorem leased_myGang {s : State} (h : mready s = true) : (leased s).myGang = s.myGang := by
  have hc := calm_of_mready h
  have : (leased s).myGang = (begun s 8).myGang := rfl
  rw [this, begun_myGang hc]

/-- No vector result is on its way. -/
theorem earlyV_of_mready {s : State} (h : mready s = true) : s.me.earlyV = [] := by
  simp only [mready, Bool.and_eq_true, List.isEmpty_iff] at h; exact h.1.1.1.2

/-- Where no vector result is on its way the unit reads what a vector instruction reads (spec 06 R133). -/
theorem mixV_settled {t : State} (he : t.me.earlyV = []) (r : Reg) : mixV t r = getV t r := by
  unfold mixV
  simp only [he, List.filter_nil, List.foldr_nil]
  simp

/-- The lease is held: the instruction acts in `leased s`. -/
theorem needLease_mready {s : State} (h : mready s = true) : needLease (begun s 8) = .ok (leased s) := by
  have h' := h
  have hc := calm_of_mready h
  simp only [mready, Bool.and_eq_true, beq_iff_eq] at h
  have h2 := h.2
  unfold needLease
  simp only [begun_myGang hc]
  have : (begun s 8).me.gang = s.me.gang := by rw [begun_me hc]
  simp only [this]
  have e : (begun s 8).modCore s.myGang.core expireLease = leased s := rfl
  have hm := mrec_of_mready h'
  rw [e, leased_myGang h', hm, h2]; simp

/-- The unit has room. -/
theorem matRoom_leased {s : State} (h : mready s = true) : matRoom (leased s) = .ok () := by
  have h1 := leased_myGang h
  simp only [mready, Bool.and_eq_true] at h
  unfold matRoom; rw [h1]
  have := h.1.2
  simp only [Option.isNone_iff_eq_none] at this
  rw [this]; rfl

/-- The cell as it is when the quantum has been looked at. -/
theorem leased_me {s : State} (h : mready s = true) : (leased s).me = { s.me with ilen := 8 } := by
  have : (leased s).me = (begun s 8).me := rfl
  rw [this, begun_me (calm_of_mready h)]

/-- The unit has room at the start of the turn. -/
theorem matRoom_begun {s : State} (h : mready s = true) : matRoom (begun s 8) = .ok () := by
  have h1 := begun_myGang (calm_of_mready h) 8
  simp only [mready, Bool.and_eq_true] at h
  unfold matRoom; rw [h1]
  have := h.1.1.2
  simp only [Option.isNone_iff_eq_none] at this
  have e : ((begun s 8).core s.myGang.core) = s.core s.myGang.core := rfl
  rw [e, this]; rfl

/-- A declared tile passes its check. -/
theorem tileCheck_declared {s : State} (h : mready s = true) {d : Tile} (hd : declared s d = true) : tileCheck d (begun s 8) = none := by
  unfold tileCheck; rw [begun_myGang (calm_of_mready h)]; rw [if_pos (show bit s.myGang.hdr.accm d.toNat = true from hd)]

/-- Aligned register numbers pass their check. -/
theorem alignCheck_aligned {s : State} (h : calm s = true) (fs : List (Nat × Reg)) (ha : ∀ f ∈ fs, aligned s f.2 = true) : alignCheck fs (begun s 8) = none := by
  unfold alignCheck
  have : fs.find? (fun f => f.2.toNat % 2 ^ (begun s 8).me.g != 0) = none := by
    rw [List.find?_eq_none]; intro f hf; have := ha f hf; simpa [aligned, begun_g h] using this
  rw [this]

/-- Binding a value that is there. -/
theorem bind_ok_res {α : Type} (x : α) (f : α → Op Res) : (Except.ok x >>= f) = f x := rfl

/-- Binding nothing. -/
theorem bind_pure_res (f : Unit → Op Res) : ((pure () : Op Unit) >>= f) = f () := rfl

/-- With no resume point set an instruction starts at its first step and row. -/
theorem resumePoint_none {s : State} (h : calm s = true) (hm : s.me.csr.mstate.getLsbD 63 = false) (n : Nat) : resumePoint (begun s 8) n = .ok (0, 0, false) := by
  unfold resumePoint
  rw [begun_me h]
  have : bit s.me.csr.mstate.toNat 63 = false := by
    simpa [bit, BitVec.getLsbD, Nat.testBit_eq_decide_div_mod_eq, Nat.shiftRight_eq_div_pow] using hm
  simp [this]


/-- A loop whose every turn passes passes. -/
theorem forIn_all_ok {l : List Word} {f : Word → PUnit → Op (ForInStep PUnit)} (h : ∀ x ∈ l, f x ⟨⟩ = .ok (.yield ⟨⟩)) : (forIn l PUnit.unit f : Op PUnit) = .ok ⟨⟩ := by
  induction l with
  | nil => rfl
  | cons x t ih =>
    rw [List.forIn_cons, h x (by simp)]
    exact ih fun y hy => h y (by simp [hy])

/-- Addresses of segment 7 pass the drain's check. -/
theorem drainSeg_own {s : State} (l : List Word) (h : ∀ x ∈ l, bits x.toNat 63 61 = 7) : drainSeg s l = .ok () := by
  induction l with
  | nil => rfl
  | cons x t ih => unfold drainSeg; rw [if_pos (h x (by simp))]; exact ih fun y hy => h y (by simp [hy])
end Sys2Proof.Machine
end

