-- ==== Sys2Proof/Certificates/Slice0/Obligations.lean ====
section
/-! DEFINITION. The statements for the provers. A `let` names what the spec names; an equality of states says at once what an instruction
does and, since every field not named is the old one, what it leaves alone. -/

open Sys2Proof Sys2Proof.Machine

/-- x(rd) of the register forms of RV64I and M (spec 06 R138; RISC-V unprivileged), with everything else the completion leaves:
the state is the one at the start of the turn with x(rd) written. The immediate forms of RV64I (spec 06 R138; RISC-V
unprivileged): LUI and AUIPC place the immediate in bits 31 to 12 and extend its sign, the others extend a 12-bit immediate's
sign or shift by an amount. -/
def Obligations.IntegerResults : Prop :=
  (∀ (s : State) (rd rs1 rs2 : Reg), calm s = true →
     let a := rdX s rs1
     let b := rdX s rs2
     let gives (i : Instr) (v : Word) : Prop := exec i s = .next (after (wrX (begun s 4) rd v) 4)
     let word (v : W32) : Word := v.signExtend 64
     gives (.add rd rs1 rs2) (a + b) ∧ gives (.sub rd rs1 rs2) (a - b)
     ∧ gives (.and rd rs1 rs2) (a &&& b) ∧ gives (.or rd rs1 rs2) (a ||| b) ∧ gives (.xor rd rs1 rs2) (a ^^^ b)
     ∧ gives (.slt rd rs1 rs2) (if a.toInt < b.toInt then 1 else 0) ∧ gives (.sltu rd rs1 rs2) (if a.toNat < b.toNat then 1 else 0)
     ∧ gives (.sll rd rs1 rs2) (a <<< (b.toNat % 64)) ∧ gives (.srl rd rs1 rs2) (a >>> (b.toNat % 64))
     ∧ gives (.sra rd rs1 rs2) (a.sshiftRight (b.toNat % 64))
     ∧ gives (.addw rd rs1 rs2) (word ((a + b).setWidth 32)) ∧ gives (.subw rd rs1 rs2) (word ((a - b).setWidth 32))
     ∧ gives (.sllw rd rs1 rs2) (word (a.setWidth 32 <<< (b.toNat % 32))) ∧ gives (.srlw rd rs1 rs2) (word (a.setWidth 32 >>> (b.toNat % 32)))
     ∧ gives (.sraw rd rs1 rs2) (word ((a.setWidth 32).sshiftRight (b.toNat % 32)))
     ∧ gives (.mul rd rs1 rs2) (a * b) ∧ gives (.mulw rd rs1 rs2) (word ((a * b).setWidth 32))
     ∧ gives (.mulh rd rs1 rs2) ((a.signExtend 128 * b.signExtend 128).extractLsb' 64 64)
     ∧ gives (.mulhsu rd rs1 rs2) ((a.signExtend 128 * b.setWidth 128).extractLsb' 64 64)
     ∧ gives (.mulhu rd rs1 rs2) ((a.setWidth 128 * b.setWidth 128).extractLsb' 64 64))
  ∧ (∀ (s : State) (rd rs1 : Reg) (imm : BitVec 12) (up : BitVec 20) (sh : BitVec 6) (shw : BitVec 5), calm s = true →
     let a := rdX s rs1
     let k : Word := imm.signExtend 64
     let gives (i : Instr) (v : Word) : Prop := exec i s = .next (after (wrX (begun s 4) rd v) 4)
     let word (v : W32) : Word := v.signExtend 64
     gives (.lui rd up) (word (up ++ 0#12)) ∧ gives (.auipc rd up) (s.me.pc + word (up ++ 0#12))
     ∧ gives (.addi rd rs1 imm) (a + k) ∧ gives (.andi rd rs1 imm) (a &&& k) ∧ gives (.ori rd rs1 imm) (a ||| k)
     ∧ gives (.xori rd rs1 imm) (a ^^^ k) ∧ gives (.slti rd rs1 imm) (if a.toInt < k.toInt then 1 else 0)
     ∧ gives (.sltiu rd rs1 imm) (if a.toNat < k.toNat then 1 else 0) ∧ gives (.addiw rd rs1 imm) (word ((a + k).setWidth 32))
     ∧ gives (.slli rd rs1 sh) (a <<< sh.toNat) ∧ gives (.srli rd rs1 sh) (a >>> sh.toNat) ∧ gives (.srai rd rs1 sh) (a.sshiftRight sh.toNat)
     ∧ gives (.slliw rd rs1 shw) (word (a.setWidth 32 <<< shw.toNat)) ∧ gives (.srliw rd rs1 shw) (word (a.setWidth 32 >>> shw.toNat))
     ∧ gives (.sraiw rd rs1 shw) (word ((a.setWidth 32).sshiftRight shw.toNat)))

/-- R140: the result of DIV, DIVU, REM, REMU and their word forms follows as a variable-latency result. A zero divisor gives a
quotient of all ones and a remainder equal to the dividend where qfcsr.DZE (bit 20) is 0; where it is 1 the instruction traps
INT_DIVZERO (0x06) at issue with tval x(rs1), and rd is neither marked nor written. Signed overflow gives the RISC-V result. -/
def Obligations.DivisionResults : Prop :=
  ∀ (s : State) (rd rs1 rs2 : Reg), calm s = true →
    let a := rdX s rs1
    let b := rdX s rs2
    let aw : W32 := a.setWidth 32
    let bw : W32 := b.setWidth 32
    let dze := s.me.csr.qfcsr.getLsbD 20
    let gives (i : Instr) (zero : Prop) (v : Word) : Prop :=
      (zero → dze = true → exec i s = .next (trapped (begun s 4) 4 0x06 a))
      ∧ (¬ zero ∨ dze = false → exec i s = .next (after (lateX (begun s 4) rd v) 4))
    let quot (w : Nat) (x y : BitVec w) : BitVec w := if y = 0 then BitVec.allOnes w else x.sdiv y
    let quotu (w : Nat) (x y : BitVec w) : BitVec w := if y = 0 then BitVec.allOnes w else x / y
    let rem (w : Nat) (x y : BitVec w) : BitVec w := if y = 0 then x else x.srem y
    let remu (w : Nat) (x y : BitVec w) : BitVec w := if y = 0 then x else x % y
    gives (.div rd rs1 rs2) (b = 0) (quot 64 a b) ∧ gives (.divu rd rs1 rs2) (b = 0) (quotu 64 a b)
    ∧ gives (.rem rd rs1 rs2) (b = 0) (rem 64 a b) ∧ gives (.remu rd rs1 rs2) (b = 0) (remu 64 a b)
    ∧ gives (.divw rd rs1 rs2) (bw = 0) ((quot 32 aw bw).signExtend 64) ∧ gives (.divuw rd rs1 rs2) (bw = 0) ((quotu 32 aw bw).signExtend 64)
    ∧ gives (.remw rd rs1 rs2) (bw = 0) ((rem 32 aw bw).signExtend 64) ∧ gives (.remuw rd rs1 rs2) (bw = 0) ((remu 32 aw bw).signExtend 64)

/-- Jumps and branches (spec 05 R106; 06 R138): the link register takes the sequential address and the pc the target; a branch
whose condition fails completes with the sequential pc. A taken target with bit 1 set traps MISALIGNED (0x02) at the branch,
with tval the target, and writes no register; JALR clears bit 0 of its target. -/
def Obligations.JumpsAndBranches : Prop :=
  ∀ (s : State) (rd rs1 rs2 : Reg) (off : BitVec 20) (imm : BitVec 12), calm s = true →
    let a := rdX s rs1
    let b := rdX s rs2
    let pc := s.me.pc
    let to_ (i : Instr) (t : State) (target : Word) : Prop :=
      (target.getLsbD 1 = false → exec i s = .next (jumped t target))
      ∧ (target.getLsbD 1 = true → exec i s = .next (trapped (begun s 4) 4 0x02 target))
    let target := pc + (imm ++ 0#1).signExtend 64
    let branch (i : Instr) (taken : Prop) : Prop :=
      (taken → to_ i (begun s 4) target) ∧ (¬ taken → exec i s = .next (after (begun s 4) 4))
    to_ (.jal rd off) (wrX (begun s 4) rd (pc + 4)) (pc + (off ++ 0#1).signExtend 64)
    ∧ to_ (.jalr rd rs1 imm) (wrX (begun s 4) rd (pc + 4)) ((a + imm.signExtend 64) &&& ~~~1#64)
    ∧ branch (.beq rs1 rs2 imm) (a = b) ∧ branch (.bne rs1 rs2 imm) (a ≠ b)
    ∧ branch (.blt rs1 rs2 imm) (a.toInt < b.toInt) ∧ branch (.bge rs1 rs2 imm) (b.toInt ≤ a.toInt)
    ∧ branch (.bltu rs1 rs2 imm) (a.toNat < b.toNat) ∧ branch (.bgeu rs1 rs2 imm) (b.toNat ≤ a.toNat)

/-- What an access does before it reaches memory (spec 07 R157, R168, R169; 05 R128): where it passes its checks, only what
translation leaves behind has changed, and the bytes, the registers and every other cell are as before. Where a scalar load, store, LR,
SC or AMO does not pass (06 R139, R142; 07 R157, R158, R168), it traps with its effective address as tval: SEG_LIMIT (0x03) outside
its segment's limit, then SEG_RIGHTS (0x04) without the access's right, then ACCESS_FAULT (0x05) above the DVA space, then MISALIGNED
(0x02) at an address that is no multiple of its size, then ACCESS_FAULT where the leaf or the window denies it, as a leaf of host memory
denies an SC or AMO, and for LR where the target is host memory; nothing is read or written, and only what translation leaves behind has changed. -/
def Obligations.PassedAccessLeavesOnlyTranslation : Prop :=
  (∀ (s s1 : State) (kind : Kind) (ea : Word) (n need align : Nat) (idx : Option Nat) (stride : Word) (t : Target),
    resolve s kind ea n need align idx stride = .ok (s1, t) →
      seen s s1 ∧ s1.mem = s.mem ∧ s1.gangs = s.gangs ∧ s1.posted = s.posted ∧ ea.toNat % align = 0
      ∧ ∀ c, c ≠ s.cur → s1.cell c = s.cell c)
  ∧ ∀ (s : State) (rd rs1 rs2 : Reg) (imm : BitVec 12) (aq rl : Bool), calm s = true →
     let u := begun s 4
     let checks (ea : Word) (kind : Kind) (right : Nat) (e : Instr × Nat) : Prop :=
       let n := e.2
       let trap (cause : Nat) : Prop := exec e.1 s = .next (trapped u 4 cause ea)
       let seg := s.myGang.segment (ea.toNat / 2 ^ 61)
       let o := ea.toNat % 2 ^ 61
       let beyond : Prop := seg.2.toNat / 16 * 16 < o + n
       let lacks : Prop := seg.2.toNat % 16 &&& right ≠ right
       let dva := (seg.1.toNat + o) % 2 ^ 64
       (beyond → trap 0x03) ∧ (¬ beyond → lacks → trap 0x04) ∧ (¬ beyond → ¬ lacks → 2 ^ 57 ≤ dva → trap 0x05)
       ∧ (¬ beyond → ¬ lacks → dva < 2 ^ 57 → (ea.toNat % n ≠ 0 → trap 0x02)
           ∧ (ea.toNat % n = 0 → look u s.me.gang kind dva n = .denied → ∃ t, seen u t ∧ exec e.1 s = .next (trapped t 4 0x05 ea)))
     let outside (ea : Word) (kind : Kind) (right : Nat) (e : Instr × Nat) : Prop :=
       ∀ t pa, (rl = true → quiet s = true) → resolve u kind ea e.2 right e.2 = .ok (t, .host pa) → exec e.1 s = .next (trapped t 4 0x05 ea)
     let a := rdX s rs1
     let loads : List (Instr × Nat) := [(.lb rd rs1 imm, 1), (.lbu rd rs1 imm, 1), (.lh rd rs1 imm, 2), (.lhu rd rs1 imm, 2), (.lw rd rs1 imm, 4), (.lwu rd rs1 imm, 4),
       (.ld rd rs1 imm, 8), (.flw rd rs1 imm, 4), (.flh rd rs1 imm, 2)]
     let stores : List (Instr × Nat) := [(.sb rs1 rs2 imm, 1), (.sh rs1 rs2 imm, 2), (.sw rs1 rs2 imm, 4), (.sd rs1 rs2 imm, 8), (.fsw rs1 rs2 imm, 4), (.fsh rs1 rs2 imm, 2)]
     let lrs : List (Instr × Nat) := [(.lrW rd rs1 aq rl, 4), (.lrD rd rs1 aq rl, 8)]
     let atomics : List (Instr × Nat) := [(.scW rd rs1 rs2 aq rl, 4), (.scD rd rs1 rs2 aq rl, 8), (.amoswapW rd rs1 rs2 aq rl, 4), (.amoswapD rd rs1 rs2 aq rl, 8),
       (.amoaddW rd rs1 rs2 aq rl, 4), (.amoaddD rd rs1 rs2 aq rl, 8), (.amoxorW rd rs1 rs2 aq rl, 4), (.amoxorD rd rs1 rs2 aq rl, 8),
       (.amoandW rd rs1 rs2 aq rl, 4), (.amoandD rd rs1 rs2 aq rl, 8), (.amoorW rd rs1 rs2 aq rl, 4), (.amoorD rd rs1 rs2 aq rl, 8),
       (.amominW rd rs1 rs2 aq rl, 4), (.amominD rd rs1 rs2 aq rl, 8), (.amomaxW rd rs1 rs2 aq rl, 4), (.amomaxD rd rs1 rs2 aq rl, 8),
       (.amominuW rd rs1 rs2 aq rl, 4), (.amominuD rd rs1 rs2 aq rl, 8), (.amomaxuW rd rs1 rs2 aq rl, 4), (.amomaxuD rd rs1 rs2 aq rl, 8)]
     (∀ e ∈ loads, checks (a + imm.signExtend 64) .load rRead e) ∧ (∀ e ∈ stores, checks (a + imm.signExtend 64) .store rWrite e)
     ∧ (∀ e ∈ lrs, checks a .load rRead e ∧ outside a .load rRead e) ∧ ∀ e ∈ atomics, checks a .atomic rAtomic e

/-- R139 and R133: a scalar load whose access reaches bytes at a home key completes; its register is empty until the value arrives,
and the value is the little-endian number that the read gives, sign-extended (LB, LH, LW), zero-extended (LBU, LHU, LWU), whole (LD,
FLW) or boxed (FLH). Where no write of the bytes is unordered before the read, it gives the bytes at the key, of which the cell takes
note (13 R288); otherwise what it gives is the model's free choice among what they held (13 R289, R293; log 7). Nothing is stored. A scalar
store whose access passes its checks completes, and its bytes go to the target of the address as `storeTo` says: little-endian, as
many as the form's width (spec 06 R139; 05 R121). -/
def Obligations.ScalarLoadsAndStores : Prop :=
  (∀ (s s1 : State) (rd rs1 : Reg) (imm : BitVec 12) (k : Nat), calm s = true → quiet s = true →
     let ea := rdX s rs1 + imm.signExtend 64
     let reaches (n : Nat) : Prop := resolve (begun s 4) .load ea n rRead n = .ok (s1, .key k)
     let got (n : Nat) : State × List Byte := s1.readBy s1.cur k n
     let noted (n : Nat) : State := s1.noteRead s1.cur s1.stamp k n
     let x (i : Instr) (n : Nat) (ext : Nat → Word) : Prop := reaches n →
       exec i s = .next (after (lateX (got n).1 rd (ext (leNat (got n).2))) 4) ∧ (settled s1 k n = true → exec i s = .next (after (lateX (noted n) rd (ext (s1.readNat k n))) 4))
     let f (i : Instr) (n : Nat) (ext : Nat → W32) : Prop := reaches n →
       exec i s = .next (after (lateF (got n).1 rd (ext (leNat (got n).2))) 4) ∧ (settled s1 k n = true → exec i s = .next (after (lateF (noted n) rd (ext (s1.readNat k n))) 4))
     x (.lb rd rs1 imm) 1 (fun v => (BitVec.ofNat 8 v).signExtend 64) ∧ x (.lbu rd rs1 imm) 1 (BitVec.ofNat 64)
     ∧ x (.lh rd rs1 imm) 2 (fun v => (BitVec.ofNat 16 v).signExtend 64) ∧ x (.lhu rd rs1 imm) 2 (BitVec.ofNat 64)
     ∧ x (.lw rd rs1 imm) 4 (fun v => (BitVec.ofNat 32 v).signExtend 64) ∧ x (.lwu rd rs1 imm) 4 (BitVec.ofNat 64)
     ∧ x (.ld rd rs1 imm) 8 (BitVec.ofNat 64)
     ∧ f (.flw rd rs1 imm) 4 (BitVec.ofNat 32) ∧ f (.flh rd rs1 imm) 2 (fun v => 0xFFFF#16 ++ BitVec.ofNat 16 v))
  ∧ (∀ (s s1 : State) (rs1 rs2 : Reg) (imm : BitVec 12) (t : Target), calm s = true →
     let ea := rdX s rs1 + imm.signExtend 64
     let gives (i : Instr) (n : Nat) (v : Nat) : Prop :=
       resolve (begun s 4) .store ea n rWrite n = .ok (s1, t) → exec i s = .next (after (storeTo s1 t ea (leBytes v n)) 4)
     gives (.sb rs1 rs2 imm) 1 (rdX s rs2).toNat ∧ gives (.sh rs1 rs2 imm) 2 (rdX s rs2).toNat
     ∧ gives (.sw rs1 rs2 imm) 4 (rdX s rs2).toNat ∧ gives (.sd rs1 rs2 imm) 8 (rdX s rs2).toNat
     ∧ gives (.fsw rs1 rs2 imm) 4 (rdF s rs2).toNat ∧ gives (.fsh rs1 rs2 imm) 2 (rdF s rs2).toNat)

/-- Where a store's bytes go. Own local store and hive scratchpad change at once, at the stored bytes only; bytes of HBM are
posted and no byte of memory changes until the home performs the write, which then changes the stored bytes only (spec 07 R165,
R168; 13 R288). The register files of every cell are unchanged. ACCESS_PERFORMED_AT_HOME: a store that a cell has on its way,
with no earlier one of the cell to a byte of its range before it, is performed at its home: its bytes stand there, every other
byte is as before, and it leaves the list (spec 13 R288, R301). That a posted store is performed once and for all at its home,
for every observer at once, is the model's choice (log 7). -/
def Obligations.StoresChangeTheirBytesOnly : Prop :=
  (∀ (s : State) (k : Nat) (ea : Word) (d : List Byte), memOk s = true →
     (isHbm k = false → stored s (storeTo s (.key k) ea d) k d)
     ∧ (isHbm k = true →
         (storeTo s (.key k) ea d).mem = s.mem
         ∧ (storeTo s (.key k) ea d).posted = s.posted ++ [{ id := s.nextId, cell := s.cur, gang := s.me.gang, launch := (s.gang s.me.gang).launch, pa := k, dva := eaDva (s.gang s.me.gang) ea, op := .write d, time := s.qtime }])
     ∧ (∀ p : Post, p.home = .hbm → p.op = .write d → stored s (performPost s p) p.pa d)
     ∧ (∀ c, ((storeTo s (.key k) ea d).cell c).x = (s.cell c).x ∧ ((storeTo s (.key k) ea d).cell c).f = (s.cell c).f
         ∧ ((storeTo s (.key k) ea d).cell c).v = (s.cell c).v ∧ ((storeTo s (.key k) ea d).cell c).csr = (s.cell c).csr
         ∧ ((storeTo s (.key k) ea d).cell c).pc = (s.cell c).pc))
  ∧ (∀ (s : State) (cell i n : Nat) (p : Post) (d : List Byte), memOk s = true →
     (s.posted.zipIdx.filter fun e => e.1.cell == cell)[i]? = some (p, n) →
     (∀ e ∈ (s.posted.zipIdx.filter fun e => e.1.cell == cell).take i, (e.1.home == p.home && overlap e.1.pa e.1.size p.pa p.size) = false) →
     p.home = .hbm → p.op = .write d →
     ∃ t, exec (.accessPerformedAtHome cell i) s = .next t ∧ stored s t p.pa d ∧ t.posted = s.posted.eraseIdx n)

/-- FENCE, FENCE.TSO, PAUSE and FENCE.I (spec 06 R141; 05 R112). A FENCE with two sets that are not empty waits, with the cell parked,
while an access of its predecessor set is on its way: any, where the set names stores (W or O), or an atomic whose reply is awaited,
where it names loads (R or I); FENCE.TSO waits as FENCE rw,rw does. Where it does not wait, a fence completes and changes nothing but
the pc and what the accesses of its successor set may not miss or come before (13 R295); one with an empty set, and PAUSE, wait for nothing and
order nothing. FENCE.I waits as FENCE rw,rw does, and then empties the instruction cache of the cell's core. LR and SC (spec 06 R142) at an address that reaches bytes at a home key. LR's value follows, sign-extended,
and the cell holds a reservation on the key's 64-byte granule (an LR that acquires orders what follows it, 13 R296; any takes note of
what it read, R288). SC, with
the reservation on the granule, stores its bytes and gives 0; without, it stores nothing and gives 1; either way the reservation is
gone. -/
def Obligations.FencesAndReservations : Prop :=
  (∀ (s : State) (fm pred succ : BitVec 4) (rs1 rd : Reg) (imm : BitVec 12), calm s = true →
     let u := begun s 4
     let loads (v : BitVec 4) : Bool := v.getLsbD 1 || v.getLsbD 3
     let stores (v : BitVec 4) : Bool := v.getLsbD 0 || v.getLsbD 2
     let waits (r w : Bool) : Bool := (w && busy s) || (r && busyReads s)
     let ordered (r w nr nw : Bool) : State :=
       let v := if nr then u.orderReads s.cur r w .pkg else u
       if w && nw then v.orderWrites s.cur .pkg else v
     let fence (i : Instr) (r w : Bool) (t : State) : Prop :=
       (waits r w = true → exec i s = .next (waiting u .performed)) ∧ (waits r w = false → exec i s = .next (after t 4))
     exec .pause s = .next (after u 4)
     ∧ (pred = 0 ∨ succ = 0 → exec (.fence fm pred succ rs1 rd) s = .next (after u 4))
     ∧ (pred ≠ 0 → succ ≠ 0 → fence (.fence fm pred succ rs1 rd) (loads pred) (stores pred) (ordered (loads pred) (stores pred) (loads succ) (stores succ)))
     ∧ fence (.fenceTso pred succ rs1 rd) true true (ordered true true true true)
     ∧ fence (.fenceI rd rs1 imm) true true (u.modCore (coreOf s.cur) fun k => { k with icache := [] }))
  ∧ (∀ (s s1 : State) (rd rs1 rs2 : Reg) (aq rl : Bool) (k : Nat), calm s = true → quiet s = true →
     let ea := rdX s rs1
     let held (n : Nat) : State := (if aq then s1.acquire s1.cur k n .pkg else s1.noteRead s1.cur s1.stamp k n).modMe fun c =>
       { c with resv := some (k / 64 * 64), resvDva := eaDva s1.myGang ea / 64 * 64 }
     let lr (i : Instr) (n : Nat) : Prop :=
       resolve (begun s 4) .load ea n rRead n = .ok (s1, .key k) →
       exec i s = .next (after (lateX (held n) rd ((BitVec.ofNat (8 * n) (s1.readNat k n)).signExtend 64)) 4)
     let sc (i : Instr) (n : Nat) : Prop :=
       resolve (begun s 4) .atomic ea n rAtomic n = .ok (s1, .key k) →
       (s.me.resv = some (k / 64 * 64) → ∃ t, exec i s = .next (after (lateX t rd 0) 4)
           ∧ t.mem = (s1.poke k (leBytes (rdX s rs2).toNat n)).mem ∧ t.me.resv = none ∧ t.me.x = s.me.x)
       ∧ (s.me.resv ≠ some (k / 64 * 64) → exec i s = .next (after (lateX (s1.modMe fun c => { c with resv := none }) rd 1) 4))
     lr (.lrW rd rs1 aq rl) 4 ∧ lr (.lrD rd rs1 aq rl) 8 ∧ sc (.scW rd rs1 rs2 aq rl) 4 ∧ sc (.scD rd rs1 rs2 aq rl) 8)

/-- The AMOs of the A extension (spec 06 R142). Where the address reaches own local store or hive scratchpad, the old value
follows, sign-extended from the access's size, and the bytes at the key take the operation's result; every other byte is as
before. Where it reaches HBM the atomic is on its way with its operation and operands, and the destination is empty; with aq the cell
waits for the reply. At its home it takes the word, changes its bytes alone, and brings the old value to the destination, or to the
cell that waits; an AMO whose reply has come, from whatever home, gives it, sign-extended. -/
def Obligations.AtomicsAtEveryHome : Prop :=
  (∀ (s s1 : State) (rd rs1 rs2 : Reg) (aq rl : Bool) (k : Nat), calm s = true → memOk s = true → (rl = true → quiet s = true) →
    let gives (n : Nat) (i : Instr) (op : AmoOp) (f : BitVec (8 * n) → BitVec (8 * n) → BitVec (8 * n)) : Prop :=
      resolve (begun s 4) .atomic (rdX s rs1) n rAtomic n = .ok (s1, .key k) →
      let old : BitVec (8 * n) := BitVec.ofNat (8 * n) (s1.readNat k n)
      (isHbm k = false → ∃ t, exec i s = .next (after (lateX t rd (old.signExtend 64)) 4)
        ∧ stored s t k (leBytes (f old ((rdX s rs2).setWidth (8 * n))).toNat n) ∧ t.me.x = s.me.x ∧ t.me.f = s.me.f ∧ t.me.csr = s.me.csr)
      ∧ (isHbm k = true → aq = false →
          exec i s = .next (after (post (reserve s1 (.x rd)).1 k (rdX s rs1) (.amo op n (rdX s rs2) 0 (reserve s1 (.x rd)).2) { rel := rl }) 4))
      ∧ (isHbm k = true → aq = true →
          exec i s = .next (waiting (post s1 k (rdX s rs1) (.amo op n (rdX s rs2) 0 .none) { acq := true, rel := rl }) (.remote 0)))
    let both (w d : Instr) (op : AmoOp) (f : (n : Nat) → BitVec n → BitVec n → BitVec n) : Prop := gives 4 w op (f 32) ∧ gives 8 d op (f 64)
    both (.amoswapW rd rs1 rs2 aq rl) (.amoswapD rd rs1 rs2 aq rl) .swap (fun _ _ b => b)
    ∧ both (.amoaddW rd rs1 rs2 aq rl) (.amoaddD rd rs1 rs2 aq rl) .add (fun _ a b => a + b)
    ∧ both (.amoxorW rd rs1 rs2 aq rl) (.amoxorD rd rs1 rs2 aq rl) .xor (fun _ a b => a ^^^ b)
    ∧ both (.amoandW rd rs1 rs2 aq rl) (.amoandD rd rs1 rs2 aq rl) .and (fun _ a b => a &&& b)
    ∧ both (.amoorW rd rs1 rs2 aq rl) (.amoorD rd rs1 rs2 aq rl) .or (fun _ a b => a ||| b)
    ∧ both (.amominW rd rs1 rs2 aq rl) (.amominD rd rs1 rs2 aq rl) .min (fun _ a b => if b.slt a then b else a)
    ∧ both (.amomaxW rd rs1 rs2 aq rl) (.amomaxD rd rs1 rs2 aq rl) .max (fun _ a b => if a.slt b then b else a)
    ∧ both (.amominuW rd rs1 rs2 aq rl) (.amominuD rd rs1 rs2 aq rl) .minu (fun _ a b => if b.ult a then b else a)
    ∧ both (.amomaxuW rd rs1 rs2 aq rl) (.amomaxuD rd rs1 rs2 aq rl) .maxu (fun _ a b => if a.ult b then b else a))
  ∧ (∀ (s : State) (p : Post) (op : AmoOp) (n : Nat) (src cmp : Word) (dst : Dst), memOk s = true → p.home = .hbm → p.op = .amo op n src cmp dst →
    let t := performPost s p
    let old := s.readNat p.pa n
    let new := amoApply op n old (src.toNat % 2 ^ (8 * n)) (cmp.toNat % 2 ^ (8 * n))
    (new.2 = true → stored s t p.pa (leBytes new.1 n)) ∧ (new.2 = false → t.mem = s.mem)
    ∧ (p.mine s = true → p.acq = false → dst ≠ .none → (t.cell p.cell).pend = (s.cell p.cell).pend ++ [{ dst, val := (sextW n old).toNat }])
    ∧ (p.mine s = true → p.acq = true → (t.cell p.cell).reply = some (sextW n old) ∧ (t.cell p.cell).run = .ready))
  ∧ ∀ (s : State) (rd rs1 rs2 : Reg) (aq rl : Bool) (v : Word), replied s v = true →
    let gives (i : Instr) (w : Word) : Prop := exec i s = .next (after (lateX (begun s 4) rd w) 4)
    let word (i : Instr) : Prop := gives i ((v.setWidth 32).signExtend 64)
    let double (i : Instr) : Prop := gives i v
    word (.amoswapW rd rs1 rs2 aq rl) ∧ word (.amoaddW rd rs1 rs2 aq rl) ∧ word (.amoxorW rd rs1 rs2 aq rl) ∧ word (.amoandW rd rs1 rs2 aq rl)
    ∧ word (.amoorW rd rs1 rs2 aq rl) ∧ word (.amominW rd rs1 rs2 aq rl) ∧ word (.amomaxW rd rs1 rs2 aq rl) ∧ word (.amominuW rd rs1 rs2 aq rl)
    ∧ word (.amomaxuW rd rs1 rs2 aq rl) ∧ double (.amoswapD rd rs1 rs2 aq rl) ∧ double (.amoaddD rd rs1 rs2 aq rl) ∧ double (.amoxorD rd rs1 rs2 aq rl)
    ∧ double (.amoandD rd rs1 rs2 aq rl) ∧ double (.amoorD rd rs1 rs2 aq rl) ∧ double (.amominD rd rs1 rs2 aq rl) ∧ double (.amomaxD rd rs1 rs2 aq rl)
    ∧ double (.amominuD rd rs1 rs2 aq rl) ∧ double (.amomaxuD rd rs1 rs2 aq rl)

/-- The F instructions that round (spec 06 R138, R143; 08 R178 to R187): with a rounding mode that names one, and no enabled exception
among the flags raised, the flags are accumulated in qfcsr and the rounded result is written (later for FDIV.S and FSQRT.S).
R143: one whose flags hold an enabled exception sets its flags and traps with tval 0, with the cause of the first of NV (0x07), DZ
(0x08) and OF (0x09) that is raised and enabled, and writes no register; a rounding mode that names none traps ILLEGAL with the
instruction's bits (05 R119). The product of infinity and zero in a fused operation is invalid, whatever the addend (RISC-V). -/
def Obligations.FloatingPointResultsAndTraps : Prop :=
  (∀ (s : State) (rd rs1 rs2 rs3 : Reg) (rm : BitVec 3) (m : Rm), calm s = true → rmSelect s rm = some m →
     let v (r : Reg) : Fv := val32 (rdF s r)
     let rounds (i : Instr) (r : Fv × Fl) : Prop :=
       let o := round32 m r
       flagsEnd s i o.2 (wrF (flagged s o.2) rd o.1)
     let late (i : Instr) (r : Fv × Fl) : Prop :=
       let o := round32 m r
       flagsEnd s i o.2 (lateF (flagged s o.2) rd o.1)
     let fma (a b c : Fv) : Fv × Fl := Fv.fma true m a b c
     let int (i : Instr) (n : Nat) (lo hi : Int) : Prop :=
       let o := toIntegral m lo hi (v rs1)
       flagsEnd s i o.2 (wrX (flagged s o.2) rd ((BitVec.ofInt n o.1).signExtend 64))
     let ofInt (i : Instr) (z : Int) : Prop := rounds i (Fv.ofInt z 0, .none)
     rounds (.faddS rd rs1 rs2 rm) (Fv.add m (v rs1) (v rs2)) ∧ rounds (.fsubS rd rs1 rs2 rm) (Fv.add m (v rs1) (v rs2).flip)
     ∧ rounds (.fmulS rd rs1 rs2 rm) (Fv.mul (v rs1) (v rs2))
     ∧ late (.fdivS rd rs1 rs2 rm) (Fv.div (v rs1) (v rs2)) ∧ late (.fsqrtS rd rs1 rm) (Fv.sqrt (v rs1))
     ∧ rounds (.fmaddS rd rs1 rs2 rs3 rm) (fma (v rs1) (v rs2) (v rs3)) ∧ rounds (.fmsubS rd rs1 rs2 rs3 rm) (fma (v rs1) (v rs2) (v rs3).flip)
     ∧ rounds (.fnmsubS rd rs1 rs2 rs3 rm) (fma (v rs1).flip (v rs2) (v rs3))
     ∧ rounds (.fnmaddS rd rs1 rs2 rs3 rm) (fma (v rs1).flip (v rs2) (v rs3).flip)
     ∧ int (.fcvtWS rd rs1 rm) 32 (-2 ^ 31) (2 ^ 31 - 1) ∧ int (.fcvtWuS rd rs1 rm) 32 0 (2 ^ 32 - 1)
     ∧ int (.fcvtLS rd rs1 rm) 64 (-2 ^ 63) (2 ^ 63 - 1) ∧ int (.fcvtLuS rd rs1 rm) 64 0 (2 ^ 64 - 1)
     ∧ ofInt (.fcvtSW rd rs1 rm) ((rdX s rs1).setWidth 32).toInt ∧ ofInt (.fcvtSWu rd rs1 rm) ((rdX s rs1).setWidth 32).toNat
     ∧ ofInt (.fcvtSL rd rs1 rm) (rdX s rs1).toInt ∧ ofInt (.fcvtSLu rd rs1 rm) (rdX s rs1).toNat)
  ∧ ∀ (s : State) (rd rs1 rs2 rs3 : Reg) (rm : BitVec 3), calm s = true → rmSelect s rm = none →
     ∀ i ∈ ([.faddS rd rs1 rs2 rm, .fsubS rd rs1 rs2 rm, .fmulS rd rs1 rs2 rm, .fdivS rd rs1 rs2 rm, .fsqrtS rd rs1 rm, .fmaddS rd rs1 rs2 rs3 rm,
         .fmsubS rd rs1 rs2 rs3 rm, .fnmsubS rd rs1 rs2 rs3 rm, .fnmaddS rd rs1 rs2 rs3 rm, .fcvtWS rd rs1 rm, .fcvtWuS rd rs1 rm, .fcvtLS rd rs1 rm,
         .fcvtLuS rd rs1 rm, .fcvtSW rd rs1 rm, .fcvtSWu rd rs1 rm, .fcvtSL rd rs1 rm, .fcvtSLu rd rs1 rm, .fcvtSBf16 rd rs1 rm, .fcvtBf16S rd rs1 rm] : List Instr),
       ∃ w, encode i = some w ∧ exec i s = .next (trapped (begun s 4) 4 0x01 w)

/-- Sign injection, moves, FCLASS.S, the comparisons and FMIN.S and FMAX.S (spec 06 R138, R143, R144), which round nothing. A
move of 16 bits boxes them: FMV.H.X sets bits 31 to 16 to ones, and FMV.X.H extends the sign of bit 15. A comparison, FMIN.S or
FMAX.S that raises NV traps FP_INVALID where NVE is set, with its flag set and no register written. -/
def Obligations.FloatingPointMoves : Prop :=
  ∀ (s : State) (rd rs1 rs2 : Reg), calm s = true →
    let a := rdF s rs1
    let b := rdF s rs2
    let av := val32 a
    let bv := val32 b
    let sign (a b : W32) : W32 := (a &&& 0x7FFFFFFF) ||| (b &&& 0x80000000)
    let f (i : Instr) (v : W32) : Prop := exec i s = .next (after (wrF (begun s 4) rd v) 4)
    let x (i : Instr) (v : Word) : Prop := exec i s = .next (after (wrX (begun s 4) rd v) 4)
    let cmp (i : Instr) (loud : Bool) (p : Bool) : Prop :=
      let nv := av.isSnan || bv.isSnan || (loud && (av.isNan || bv.isNan))
      flagsEnd s i { nv } (wrX (flagged s { nv }) rd (if !(av.isNan || bv.isNan) && p then 1 else 0))
    let mm (i : Instr) (isMax : Bool) : Prop :=
      let r := minmaxCode fmt32 isMax a.toNat b.toNat
      flagsEnd s i r.2 (wrF (flagged s r.2) rd (BitVec.ofNat 32 r.1))
    f (.fsgnjS rd rs1 rs2) (sign a b) ∧ f (.fsgnjnS rd rs1 rs2) (sign a (~~~b)) ∧ f (.fsgnjxS rd rs1 rs2) (sign a (a ^^^ b))
    ∧ f (.fmvWX rd rs1) ((rdX s rs1).setWidth 32) ∧ f (.fmvHX rd rs1) (0xFFFF#16 ++ (rdX s rs1).setWidth 16)
    ∧ x (.fmvXW rd rs1) (a.signExtend 64) ∧ x (.fmvXH rd rs1) ((a.setWidth 16).signExtend 64)
    ∧ x (.fclassS rd rs1) (BitVec.ofNat 64 (fclass fmt32 a.toNat))
    ∧ cmp (.feqS rd rs1 rs2) false (Fv.eqv av bv) ∧ cmp (.fltS rd rs1 rs2) true (Fv.lt av bv) ∧ cmp (.fleS rd rs1 rs2) true (!Fv.lt bv av)
    ∧ mm (.fminS rd rs1 rs2) false ∧ mm (.fmaxS rd rs1 rs2) true

/-- R144: FLH and FMV.H.X write a 16-bit value with bits 31 to 16 set to ones; FCVT.S.BF16 is exact and treats an operand that
is not properly boxed as the canonical NaN; FCVT.BF16.S rounds by its rm field and boxes its result. -/
def Obligations.Bf16Conversions : Prop :=
  ∀ (s : State) (rd rs1 : Reg), calm s = true →
    exec (.fmvHX rd rs1) s = .next (after (wrF (begun s 4) rd (0xFFFF#16 ++ (rdX s rs1).setWidth 16)) 4)
    ∧ (∀ (imm : BitVec 12) (s1 : State) (k : Nat), quiet s = true →
        resolve (begun s 4) .load (rdX s rs1 + imm.signExtend 64) 2 rRead 2 = .ok (s1, .key k) →
        settled s1 k 2 = true → exec (.flh rd rs1 imm) s = .next (after (lateF (s1.noteRead s1.cur s1.stamp k 2) rd (0xFFFF#16 ++ BitVec.ofNat 16 (s1.readNat k 2))) 4))
    ∧ ∀ (rm : BitVec 3) (m : Rm), rmSelect s rm = some m →
        let a := rdF s rs1
        let wide := round32 m (decodeIeee fmtBf (if a.extractLsb' 16 16 = 0xFFFF then (a.setWidth 16).toNat else canonNan fmtBf), .none)
        let narrow := roundFv fmtBf m (val32 a)
        flagsEnd s (.fcvtSBf16 rd rs1 rm) wide.2 (wrF (flagged s wide.2) rd wide.1)
        ∧ flagsEnd s (.fcvtBf16S rd rs1 rm) narrow.2 (wrF (flagged s narrow.2) rd (0xFFFF#16 ++ BitVec.ofNat 16 narrow.1))

/-- The CSR instructions (spec 06 R145, R154 to R156): where the CSR is implemented, and writable if the form writes, x(rd)
takes the old value, and the CSR takes the operand (CSRRW), the old value with the operand's bits set (CSRRS) or cleared
(CSRRC), kept to the bits of its map. CSRRS and CSRRC with x0, and their immediate forms with 0, only read. A CSR that does not
exist, and a write to one that is read-only at the cell's trap level, trap ILLEGAL. qtime is read as device time, which passes by
a free amount between two readings (log 6). -/
def Obligations.CsrInstructions : Prop :=
  ∀ (s : State) (rd rs1 u : Reg) (a : BitVec 12), calm s = true →
    let u0 : State := if a = 0xCC3 then (begun s 4).tick else begun s 4
    let old : Word := if a = 0xCC3 then BitVec.ofNat 64 (s.qtime + Config.elapsed s.freeCtr) else csrGet s a.toNat
    let t := wrX u0 rd old
    let put (v : Word) : State := wrCsr t (csrPut s.myGang.hdr.hoq a.toNat v)
    let ok (i : Instr) (writes : Bool) (v : Word) : Prop :=
      (csrExists a.toNat = true → (writes = true → csrWritable s.me.tlev a.toNat = true) → exec i s = .next (after (if writes then put v else t) 4))
      ∧ (csrExists a.toNat = false ∨ writes = true ∧ csrWritable s.me.tlev a.toNat = false →
          ∃ w, exec i s = .next (trapped (begun s 4) 4 0x01 w))
    let x := rdX s rs1
    let k : Word := u.setWidth 64
    ok (.csrrw rd rs1 a) true x ∧ ok (.csrrs rd rs1 a) (rs1 != 0) (old ||| x) ∧ ok (.csrrc rd rs1 a) (rs1 != 0) (old &&& ~~~x)
    ∧ ok (.csrrwi rd u a) true k ∧ ok (.csrrsi rd u a) (u != 0) (old ||| k) ∧ ok (.csrrci rd u a) (u != 0) (old &&& ~~~k)

/-- The end of an instruction (R148, the loop-back test; R149): some innermost entries that belong to the cell's level, end at
the next pc and have no iteration left are popped; then the next entry, where it belongs to the level, ends there and has one
left, counts it and gives its start as pc, and otherwise the next pc stands. Nothing of the machine but the cell changes (the
counter of free values apart), and of the cell only its loops, its pc, what it kept for the instruction, its early reads, and
its run state, which is ready, or landed at an iteration boundary where the gang has been ordered to land (18 R381). -/
def Obligations.TurnEnd : Prop :=
  ∀ (s : State) (c : Cell) (npc : Word), Tab.find s.cells s.cur = some c →
    let t := jumped s npc
    let done (l : Loop) : Prop := l.lev = c.tlev ∧ l.stop = npc
    (∃ popped rest, c.loops = popped ++ rest ∧ (∀ l ∈ popped, done l ∧ ¬ (l.cnt - l.idx).toNat > 1)
      ∧ ((∃ l tail, rest = l :: tail ∧ done l ∧ (l.cnt - l.idx).toNat > 1
            ∧ t.me = { c.clearInstr.tick with loops := { l with idx := l.idx + 1 } :: tail, pc := l.start, run := if s.myGang.st = .landing then .landed else .ready })
        ∨ ((∀ l ∈ rest.head?, ¬ done l) ∧ t.me = { c.clearInstr.tick with loops := rest, pc := npc, run := .ready })))
    ∧ t = { s with cells := t.cells, freeCtr := s.freeCtr + 1 } ∧ ∀ d, d ≠ s.cur → t.cell d = s.cell d

/-- LOOP, LOOPI and LBRK (spec 06 R146, R147). YIELD (spec 06 R150): only the word 0x0000300B is YIELD, and custom-0 funct3 011
with any other field set is illegal. Where no pre-emption of the gang has been ordered it only completes; where one has, the
cell also lands. -/
def Obligations.HardwareLoopsAndYield : Prop :=
  (∀ (s : State) (rs1 : Reg) (cm1 : BitVec 10) (L n : BitVec 12), calm s = true →
     let c := s.me
     let stop := c.pc + BitVec.ofNat 64 (4 * L.toNat)
     let push (i : Instr) (cnt : Word) : Prop :=
       (L.toNat < 2 → ∃ w, exec i s = .next (trapped (begun s 4) 4 0x01 w))
       ∧ (2 ≤ L.toNat → c.loops.length = 6 → exec i s = .next (trapped (begun s 4) 4 0x16 0))
       ∧ (2 ≤ L.toNat → c.loops.length ≠ 6 → cnt = 0 → exec i s = .next (jumped (begun s 4) stop))
       ∧ (2 ≤ L.toNat → c.loops.length ≠ 6 → cnt ≠ 0 → exec i s = .next (after ((begun s 4).modMe fun v =>
           { v with loops := { start := c.pc + 4, stop, cnt, idx := 0, lev := c.tlev } :: v.loops }) 4))
     push (.loop rs1 L) (rdX s rs1) ∧ push (.loopi cm1 L) (BitVec.ofNat 64 (cm1.toNat + 1))
     ∧ (n = 0 ∨ 6 < n.toNat → ∃ w, exec (.lbrk rs1 n) s = .next (trapped (begun s 4) 4 0x01 w))
     ∧ (1 ≤ n.toNat → n.toNat ≤ 6 → (c.loops.filter fun l => l.lev == c.tlev).length < n.toNat →
         exec (.lbrk rs1 n) s = .next (trapped (begun s 4) 4 0x16 0))
     ∧ (1 ≤ n.toNat → n.toNat ≤ 6 → n.toNat ≤ (c.loops.filter fun l => l.lev == c.tlev).length →
         (rs1 ≠ 0 ∧ rdX s rs1 = 0 → exec (.lbrk rs1 n) s = .next (after (begun s 4) 4))
         ∧ (¬ (rs1 ≠ 0 ∧ rdX s rs1 = 0) → ∀ e, c.loops[n.toNat - 1]? = some e →
             exec (.lbrk rs1 n) s = .next (jumped ((begun s 4).modMe fun v => { v with loops := v.loops.drop n.toNat }) e.stop))))
  ∧ ((∀ w hi : W32, w.extractLsb' 0 7 = 0x0B#7 → w.extractLsb' 12 3 = 3#3 →
       (w = 0x0000300B → decode w hi = .instr .yield 4) ∧ (w ≠ 0x0000300B → ∃ why, decode w hi = .illegal why 4 (w.setWidth 64)))
   ∧ ∀ s : State, calm s = true →
       (s.myGang.st ≠ .landing → exec .yield s = .next (after (begun s 4) 4))
       ∧ (s.myGang.st = .landing → exec .yield s = .next ((after (begun s 4) 4).modMe fun c => { c with run := .landed, resv := none })))

/-- WIDF in its three kinds (spec 06 R151; 02 R46): x(rd) takes the value of field i of the work identifier, its extent, or its
level after folding; an absent field has value 0, extent 1 and level 0. The field stands above the fields below it. R85: cellid holds
the die in bits 12 to 11, the hive in 10 to 7, the core in 6 to 3 and the cell in 2 to 0, and reads zero above bit 12; the package-wide
core number is die × 256 + hive × 16 + core, and the PHIVE bit number of a hive is die × 16 + hive. -/
def Obligations.IdentifierFields : Prop :=
  (∀ (s : State) (rd : Reg) (j : BitVec 3), calm s = true → j.toNat < 6 →
     let f0 := s.myGang.hdr.fmt0.toNat
     let f1 := s.myGang.hdr.fmt1.toNat
     let i := j.toNat
     let lvl := f0 / 2 ^ (10 * i + 1) % 8
     let width := f0 / 2 ^ (10 * i + 4) % 64 + 1
     let pos := ((List.range i).map fun k => if f0 / 2 ^ (10 * k + 1) % 8 = 0 then 0 else f0 / 2 ^ (10 * k + 4) % 64 + 1).sum
     let gives (i : Instr) (v : Nat) : Prop := exec i s = .next (after (wrX (begun s 4) rd (BitVec.ofNat 64 v)) 4)
     gives (.widf rd j) (if lvl = 0 then 0 else s.me.wid.toNat / 2 ^ pos % 2 ^ width)
     ∧ gives (.widfExt rd j) (if lvl = 0 then 1 else f1 / 2 ^ pos % 2 ^ width + 1) ∧ gives (.widfLvl rd j) lvl)
  ∧ ∀ (s : State) (die hive core cell : Nat), die < 4 → hive < 16 → core < 16 → cell < 8 →
     s.cur = die * 2 ^ 11 + hive * 2 ^ 7 + core * 2 ^ 3 + cell →
     let r := csrGet s 0xCC4
     r.extractLsb' 11 2 = BitVec.ofNat 2 die ∧ r.extractLsb' 7 4 = BitVec.ofNat 4 hive ∧ r.extractLsb' 3 4 = BitVec.ofNat 4 core
     ∧ r.extractLsb' 0 3 = BitVec.ofNat 3 cell ∧ r.extractLsb' 13 51 = 0
     ∧ coreOf s.cur = die * 256 + hive * 16 + core ∧ hiveOf (coreOf s.cur) = die * 16 + hive

/-- Which instructions trap as their effect (spec 06 R138, 18 R374, R376; 05 R118): ECALL, EBREAK and TRAISE with their causes
and tval, and an encoding that names no instruction with ILLEGAL and its bits. TRET (spec 18 R376): at level 0 it traps ILLEGAL;
at a higher level the entries of the level are discarded, the level falls by one, the pc is the level's tepc, its low two bits
read as zero (05 R106; log 35), with no loop-back test, and no register changes. -/
def Obligations.TrapsTakenAndReturned : Prop :=
  (∀ (s : State) (a : Reg) (len : Nat) (w : Word), calm s = true →
     exec .ecall s = .next (trapped (begun s 4) 4 0x13 0) ∧ exec .ebreak s = .next (trapped (begun s 4) 4 0x14 0)
     ∧ exec (.traise a) s = .next (trapped (begun s 8) 8 0x15 (rdX s a))
     ∧ exec (.illegalInstruction len w) s = .next (trapped (begun s len) len 0x01 w))
  ∧ (∀ s : State, calm s = true →
     (s.me.tlev = 0 → ∃ w, exec .tret s = .next (trapped (begun s 8) 8 0x01 w))
     ∧ (s.me.tlev ≠ 0 → ∃ t, exec .tret s = .next t
         ∧ t.me = { (begun s 8).me.clearInstr.tick with loops := s.me.loops.filter fun l => l.lev != s.me.tlev, tlev := s.me.tlev - 1,
                                                        pc := (if s.me.tlev = 1 then s.me.csr.tepc1 else s.me.csr.tepc2) &&& ~~~3 }
         ∧ t = { s with cells := t.cells, freeCtr := s.freeCtr + 1 } ∧ ∀ d, d ≠ s.cur → t.cell d = s.cell d))

/-- The entry of a precise trap (spec 18 R368 to R370, R372) at level 0 or 1 with a handler and no older vector instruction of
the cell in flight: the next level's bank holds cause, pc, value and status, the level rises by one and the pc is ttvec; the LR
reservation is gone. Registers, flags, loops, the other bank and every other part of the machine are as before. -/
def Obligations.TrapEntry : Prop :=
  ∀ (s : State) (c : Cell) (len cause : Nat) (tval : Word), Tab.find s.cells s.cur = some c → c.latch = [] →
    c.pushed = [] → c.tlev < 2 → c.csr.ttvec ≠ 0 → vecBusy s s.cur = false → len < 16 → c.loops.length ≤ 6 →
    let t := trapped s len cause tval
    let st : Word := BitVec.ofNat 64 (c.tlev + 2 ^ 8 * len + 2 ^ 16 * c.loops.length)
    t.me.csr = (if c.tlev = 0 then { c.csr with tcause1 := BitVec.ofNat 64 cause, tepc1 := c.pc, tval1 := tval, tstat1 := st }
                else { c.csr with tcause2 := BitVec.ofNat 64 cause, tepc2 := c.pc, tval2 := tval, tstat2 := st })
    ∧ t.me = { c.clearInstr.tick with csr := t.me.csr, tlev := c.tlev + 1, pc := c.csr.ttvec, resv := none, run := .ready, trapPend := none }
    ∧ t = { s with cells := t.cells, freeCtr := s.freeCtr + 1 } ∧ ∀ d, d ≠ s.cur → t.cell d = s.cell d

/-- R371: a trap that meets ttvec = 0 ends the gang: HEIR_SHAPE (0x10) without a kill, as a retirement, and any other cause by
the kill sequence with the cause code as KCODE and tval as KVAL. At level 2 any trap kills the gang with K_TRIPLE (R368, R370). -/
def Obligations.TrapWithoutHandler : Prop :=
  ∀ (s : State) (c : Cell) (len cause : Nat) (tval : Word), Tab.find s.cells s.cur = some c → c.latch = [] →
    c.pushed = [] →
    let s' := s.modMe fun c => { c with latch := [] }
    (c.tlev < 2 → c.csr.ttvec = 0 → cause = 0x10 →
        trapped s len cause tval = retireGang (s'.modLaunch (s.gang c.gang).launch fun l => { l with heirShape := some (l.heirShape.getD tval) }) c.gang)
    ∧ (c.tlev < 2 → c.csr.ttvec = 0 → cause ≠ 0x10 → ∃ b1 b2 b3, trapped s len cause tval = killGang s' c.gang cause tval s.cur b1 b2 b3)
    ∧ (2 ≤ c.tlev → ∃ b1 b2 b3, trapped s len cause tval = killGang s' c.gang 0x80 tval s.cur b1 b2 b3)

/-- The kill sequence (spec 18 R380, R393; 04 R99): a gang that has not ended is killed: it holds no cell, its launch counts one
more killed gang and keeps the first kill, and one report of kind 1 with the code, the launch's partition and record, the cell, the value and
the trap words is posted: to the fault ring where it is on and has room, with its number and the time, and lost and counted where not. -/
def Obligations.KillSequence : Prop :=
  ∀ (s : State) (gid code cell : Nat) (val b1 b2 b3 : Word) (g : Gang) (l : Launch), Tab.find s.gangs gid = some g →
    Tab.find s.launches g.launch = some l → g.st ≠ .retired → g.st ≠ .killed →
    let t := killGang s gid code val cell b1 b2 b3
    (t.gang gid).st = .killed ∧ (t.gang gid).cells = [] ∧ (t.gang gid).win = [0, 0, 0, 0]
    ∧ (t.launch g.launch).killed = l.killed + 1 ∧ (t.launch g.launch).first.isSome = true
    ∧ (l.first = none → (t.launch g.launch).first = some { code, cell, val })
    ∧ t.mem = s.mem
    ∧ (∃ u, u.mgmt = s.mgmt ∧ u.out = s.out ∧ u.qtime = s.qtime ∧ t = postReport u 1 code l.part cell val l.hdr.crec b1 b2 b3)
    ∧ (let wr := (s.mreg 0x710).toNat
       let size := 2 ^ ((s.mreg 0x708).toNat % 16 + 6)
       let room : Prop := (wr + 2 ^ 64 - (s.mreg 0x718).toNat) % 2 ^ 64 < size
       let r : Report := { kind := 1, code, part := l.part, cell, kval := val, time := s.qtime, crec := l.hdr.crec, cause := b1, tepc1 := b2, tepc2 := b3, seq := wr }
       ((s.mreg 0x708).getLsbD 63 = true → room → Out.report ((s.mreg 0x700).toNat + 64 * (wr % size)) r ∈ t.out ∧ t.mreg 0x710 = BitVec.ofNat 64 (wr + 1))
       ∧ ((s.mreg 0x708).getLsbD 63 = false ∨ ¬ room → t.out = s.out ∧ t.mreg 0x720 = s.mreg 0x720 + 1))

/-- ASYNC_TRAP_DELIVERY (spec 18 R373): a ready cell at level 0 with a trap pending takes the oldest one instead of its
instruction: tepc is that instruction's pc, tstat says ASYNC with ILEN 0, and bit 63 of tval is set where a refusal was
discarded (07 R165). That the carry of a discarded refusal goes to the next trap delivered, whatever its cause, is the model's
choice (log 58). -/
def Obligations.AsynchronousTraps : Prop :=
  ∀ (s : State) (k : Nat) (c : Cell) (a : Async) (rest : List Async), Tab.find s.cells k = some c → c.run = .ready → c.tlev = 0 →
    c.asyncs = a :: rest → c.latch = [] → c.pushed = [] → c.reply = none → c.csr.ttvec ≠ 0 → vecBusy s k = false → c.loops.length ≤ 6 →
    ∃ t, exec (.asyncTrapDelivery k) s = .next t ∧ (t.cell k).asyncs = rest ∧ (t.cell k).tlev = 1 ∧ (t.cell k).pc = c.csr.ttvec
      ∧ (t.cell k).csr = { c.csr with tcause1 := BitVec.ofNat 64 a.cause, tepc1 := c.pc, tval1 := a.tval ||| (if c.povf then 1 <<< 63 else 0), tstat1 := BitVec.ofNat 64 (4 + 2 ^ 16 * c.loops.length) }
      ∧ (t.cell k).x = c.x ∧ (t.cell k).f = c.f ∧ (t.cell k).v = c.v ∧ (∀ d, d ≠ k → t.cell d = s.cell d) ∧ t.mem = s.mem

/-- The registers of an instruction at its turn (spec 06 R135, R136): where a source register is empty and its trap bit is set, the first
such one, in the order of the operands and of a group's members, traps FE_EMPTY (0x0B) with its file and number as tval; where none is
and a source or a destination is empty, the cell parks until every one of them is full. Hand-off queues (spec 06 R152, R153): while
bit q of hoqen is set, an instruction that reads x(28 + q) takes the oldest entry of the queue, once where it names the register twice, and one that
writes it adds an entry at the end, after its own pop; the register itself keeps its value, and nothing else of the cell changes but what
its completion changes. An empty queue as a source traps FE_EMPTY where its trap bit is set and otherwise parks the cell, as an oldest
entry without its value does, and as a full queue of 16 entries does as a destination. The first push or pop of a gang binds its
queues' buffers, or parks the cell where too few of the core's four are free. A result that comes later has its entry
reserved at issue, which takes the value when the result is written. -/
def Obligations.HandoffQueues : Prop :=
  (∀ (s : State) (rd rs1 rs2 rs3 : Reg) (imm : BitVec 12) (imm16 : BitVec 16) (up : BitVec 20) (aq rl : Bool) (sc : Scope) (cond : Cond) (ix : BitVec 10) (i4 : BitVec 4)
     (p : Pred) (t : Ty) (rm : BitVec 3), canIssue s = true → s.me.csr.hoqen = 0 → (rmSelect s rm).isSome = true →
     let c := s.me
     let empty : Dst → Bool
       | .x r => r != 0 && c.xe.getLsbD r.toNat
       | .f r => c.fe.getLsbD r.toNat
       | .v r => c.ve.getLsbD r.toNat
       | _ => false
     let stops : Dst → Bool
       | .x r => empty (.x r) && c.csr.fetrap.getLsbD r.toNat
       | .f r => empty (.f r) && c.csr.fetrapf.getLsbD r.toNat
       | .v r => empty (.v r) && c.csr.fetrapv.getLsbD r.toNat
       | _ => false
     let file : Dst → Nat
       | .x r => r.toNat
       | .f r => 32 + r.toNat
       | .v r => 64 + r.toNat
       | _ => 0
     let group (r : Reg) : List Dst := (List.range (2 ^ c.g)).map fun k => .v (BitVec.ofNat 5 (r.toNat + k))
     let gate (e : Instr × Nat × List Dst × List Dst) : Prop :=
       (∀ before d rest, e.2.2.1 = before ++ d :: rest → (∀ x ∈ before, stops x = false) → stops d = true →
         exec e.1 s = .next (trapped (begun s e.2.1) e.2.1 0x0B (BitVec.ofNat 64 (file d))))
       ∧ ((∀ d ∈ e.2.2.1, stops d = false) → ∀ d rest, (e.2.2.1 ++ e.2.2.2).filter empty = d :: rest →
         exec e.1 s = .next (waiting (begun s e.2.1) (.regs (d :: rest))))
     let scalars : List (Instr × Nat × List Dst × List Dst) :=
       [(.add rd rs1 rs2, 4, [.x rs1, .x rs2], [.x rd]), (.addi rd rs1 imm, 4, [.x rs1], [.x rd]), (.lui rd up, 4, [], [.x rd]), (.div rd rs1 rs2, 4, [.x rs1, .x rs2], [.x rd]),
        (.beq rs1 rs2 imm, 4, [.x rs1, .x rs2], []), (.jalr rd rs1 imm, 4, [.x rs1], [.x rd]), (.ld rd rs1 imm, 4, [.x rs1], [.x rd]), (.flw rd rs1 imm, 4, [.x rs1], [.f rd]),
        (.sd rs1 rs2 imm, 4, [.x rs1, .x rs2], []), (.fsw rs1 rs2 imm, 4, [.x rs1, .f rs2], []), (.lrD rd rs1 aq rl, 4, [.x rs1], [.x rd]),
        (.scD rd rs1 rs2 aq rl, 4, [.x rs1, .x rs2], [.x rd]), (.amoaddD rd rs1 rs2 aq rl, 4, [.x rs1, .x rs2], [.x rd]), (.csrrw rd rs1 0x802, 4, [.x rs1], [.x rd])]
     let floats : List (Instr × Nat × List Dst × List Dst) :=
       [(.faddS rd rs1 rs2 rm, 4, [.f rs1, .f rs2], [.f rd]), (.fmaddS rd rs1 rs2 rs3 rm, 4, [.f rs1, .f rs2, .f rs3], [.f rd]), (.fsqrtS rd rs1 rm, 4, [.f rs1], [.f rd]),
        (.fcvtWS rd rs1 rm, 4, [.f rs1], [.x rd]), (.fcvtSW rd rs1 rm, 4, [.x rs1], [.f rd]), (.feqS rd rs1 rs2, 4, [.f rs1, .f rs2], [.x rd]),
        (.fminS rd rs1 rs2, 4, [.f rs1, .f rs2], [.f rd]), (.fmvXW rd rs1, 4, [.f rs1], [.x rd]), (.fmvWX rd rs1, 4, [.x rs1], [.f rd])]
     let longs : List (Instr × Nat × List Dst × List Dst) :=
       [(.traise rs1, 8, [.x rs1], []), (.vsetvl rd rs1 t, 8, [.x rs1], [.x rd]), (.amxrd rd i4, 8, [], [.f rd]), (.amxmax rs1 i4, 8, [.f rs1], []),
        (.ssig rs1 rs2 sc, 8, [.x rs1, .x rs2], []), (.swait rd rs1 rs2 rs3 cond sc, 8, [.x rs1, .x rs2, .x rs3], [.x rd]),
        (.qamoadd rd rs1 rs2 aq aq rl sc, 8, [.x rs1, .x rs2], [.x rd]), (.launch rd rs1 rs2, 8, [.x rs1, .x rs2], [.x rd]), (.bfork rd rs1, 8, [.x rs1], [.x rd])]
     (∀ e ∈ scalars ++ floats ++ longs, gate e)
     ∧ (aligned s rd = true → aligned s rs1 = true → aligned s rs2 = true →
         gate (.vintVadd rd rs1 rs2 false p t, 8, group rs1 ++ group rs2, group rd) ∧ gate (.vld rd rs1 imm16 p t, 8, [.x rs1], group rd)
         ∧ gate (.vst rs2 rs1 imm16 p t, 8, .x rs1 :: group rs2, []) ∧ gate (.vmvXv rd rs1 ix t, 8, group rs1, [.x rd]) ∧ gate (.vmvVx rd rs1 ix t, 8, [.x rs1], group rd)))
  ∧ (∀ (s : State) (c : Cell) (rd rs1 rs2 : Reg) (imm : BitVec 12), Tab.find s.cells s.cur = some c →
     calm (s.modMe fun c => { c with csr := { c.csr with hoqen := 0 } }) = true → (Tab.find s.gangs c.gang).isSome = true →
     let m (r : Reg) : Bool := decide (28 ≤ r.toNat) && bit c.csr.hoqen.toNat (r.toNat - 28)
     let q (r : Reg) : Nat := r.toNat - 28
     let trapsAt (r : Reg) : Bool := bit c.csr.fetrap.toNat r.toNat
     let same (u : State) : Prop := u.me.f = c.f ∧ u.me.v = c.v ∧ u.me.csr = c.csr ∧ u.mem = s.mem
     let park (i : Instr) : Prop := exec i s = .next (waiting (begun s 4) .hoq)
     let entry (v : Option Word) : HoqEntry := { id := s.nextId, by_ := s.cur, val := v }
     (∀ t, s.myGang.hoq = some t →
       let queue (r : Reg) : List HoqEntry := Tab.getD t (q r) []
       let value (r : Reg) : Word := if m r then (((queue r).head?.bind HoqEntry.val).getD 0) else rdX s r
       let does (i : Instr) (rs : List Reg) (v : Word) : Prop :=
         let blocked (r : Reg) : Bool := m r && (queue r).isEmpty && trapsAt r
         let unready (r : Reg) : Bool := m r && ((queue r).head?.bind HoqEntry.val).isNone
         let popped := (((rs.filter m).map q).eraseDups).foldl (fun t n => Tab.put t n (Tab.getD t n []).tail) t
         let full : Bool := m rd && decide (16 + b2n ((rs.filter m).contains rd) ≤ (queue rd).length)
         (∀ before r rest, rs = before ++ r :: rest → (∀ x ∈ before, blocked x = false) → blocked r = true →
             exec i s = .next (trapped (begun s 4) 4 0x0B (BitVec.ofNat 64 r.toNat)))
         ∧ (rs.all (fun r => !blocked r) = true → (rs.any unready = true ∨ full = true) → park i)
         ∧ (rs.any unready = false → full = false → ∃ u, exec i s = .next u ∧ same u
             ∧ u.myGang.hoq = some (if m rd then Tab.put popped (q rd) (Tab.getD popped (q rd) [] ++ [entry (some v)]) else popped)
             ∧ u.me.x = if m rd = true ∨ rd = 0 then c.x else c.x.set rd.toNat v rd.isLt)
       does (.add rd rs1 rs2) [rs1, rs2] (value rs1 + value rs2) ∧ does (.addi rd rs1 imm) [rs1] (value rs1 + imm.signExtend 64)
       ∧ (m rs1 = false → m rs2 = false → m rd = true → (queue rd).length < 16 → rdX s rs2 ≠ 0 →
           ∃ u, exec (.divu rd rs1 rs2) s = .next u ∧ same u ∧ u.me.x = c.x ∧ u.myGang.hoq = some (Tab.put t (q rd) (queue rd ++ [entry none]))
             ∧ u.me.pend = c.pend ++ [{ dst := .hoq (q rd) s.nextId, val := (rdX s rs1 / rdX s rs2).toNat }]))
     ∧ (s.myGang.hoq = none → m rs1 = false → m rd = true →
         let need := boundBuffers s s.myGang.core + popcount s.myGang.hdr.hoq 4
         (4 < need → park (.addi rd rs1 imm))
         ∧ (need ≤ 4 → (Tab.getD s.myGang.hoqSaved (q rd) []).length < 16 → ∃ u, exec (.addi rd rs1 imm) s = .next u ∧ same u ∧ u.me.x = c.x ∧ u.myGang.hoqSaved = []
             ∧ u.myGang.hoq = some (Tab.put s.myGang.hoqSaved (q rd) (Tab.getD s.myGang.hoqSaved (q rd) [] ++ [entry (some (rdX s rs1 + imm.signExtend 64))])))))
  ∧ ∀ (s : State) (k i q id : Nat) (c : Cell) (p : PendW) (t : Tab (List HoqEntry)), Tab.find s.cells k = some c → c.pend[i]? = some p → p.dst = .hoq q id →
     (Tab.find s.gangs c.gang).isSome = true → (s.gang c.gang).hoq = some t →
     ∃ u, exec (.feWriteback k i) s = .next u
       ∧ (u.gang c.gang).hoq = some (Tab.put t q ((Tab.getD t q []).map fun e => if e.id = id then { e with val := some (BitVec.ofNat 64 p.val) } else e))

/-- FE_WRITEBACK (spec 06 R133, R135): a result that is on its way to a register is written, the register becomes full and the
result is on its way no more; the cell's other registers, the memory and every other cell's registers are as before. Turns (spec 06
R129 to R134): where no member of a core's rotation has a turn left, the next rotation keeps the ready members of the last, admits
ready cells alone, and begins at its first member; the turn of a cell whose fetched instruction needs a unit that is busy passes
without an issue, keeps the instruction as it was fetched (05 R115), and changes no register of the cell, no memory and no other cell. Instruction lines and vector completions (spec
05 R109, R110; 09 R208): a cell that waits for a line which can be filled goes on with the line in its core's cache, and a vector
instruction that completes leaves its core's list with every older one of its cell, once the registers that they fill are full, so
that a cell which waited for the last of them goes on. Which line of a full set leaves is free (log 12), and when a unit that holds
others cannot accept one more is the model's choice (log 53). -/
def Obligations.ResultsTurnsAndCompletions : Prop :=
  (∀ (s : State) (k i : Nat) (c : Cell) (p : PendW), Tab.find s.cells k = some c → c.pend[i]? = some p → p.dst ≠ .none →
     ∃ t, exec (.feWriteback k i) s = .next t ∧ (t.cell k).pend = c.pend.eraseIdx i ∧ t.mem = s.mem ∧ (t.cell k).csr = c.csr ∧ (t.cell k).pc = c.pc
       ∧ (∀ r, p.dst = .x r → (t.cell k).x = c.x.set r.toNat (BitVec.ofNat 64 p.val) r.isLt ∧ (t.cell k).f = c.f ∧ (t.cell k).v = c.v
           ∧ (t.cell k).xe = c.xe &&& ~~~(1#32 <<< r.toNat))
       ∧ (∀ r, p.dst = .f r → (t.cell k).f = c.f.set r.toNat (BitVec.ofNat 32 p.val) r.isLt ∧ (t.cell k).x = c.x ∧ (t.cell k).v = c.v
           ∧ (t.cell k).fe = c.fe &&& ~~~(1#32 <<< r.toNat))
       ∧ (∀ r, p.dst = .v r → (t.cell k).v = c.v.set r.toNat (BitVec.ofNat 1024 p.val) r.isLt ∧ (t.cell k).x = c.x ∧ (t.cell k).f = c.f
           ∧ (t.cell k).ve = c.ve &&& ~~~(1#32 <<< r.toNat))
       ∧ (∀ q id, p.dst = .hoq q id → (t.cell k).x = c.x ∧ (t.cell k).f = c.f ∧ (t.cell k).v = c.v)
       ∧ ∀ d, d ≠ k → (t.cell d).x = (s.cell d).x ∧ (t.cell d).f = (s.cell d).f ∧ (t.cell d).v = (s.cell d).v)
  ∧ ((∀ (s : State) (core : Nat), nextSlot s core = none →
     let kept := (s.core core).barrel.set.filter (slotReady s core)
     ∃ set cycle, exec (.rotationBoundary core) s = .next (s.modCore core fun k => { k with barrel := { k.barrel with set, kept, cycle, pos := 0 } })
       ∧ (∀ sl ∈ kept, sl ∈ set) ∧ ∀ sl ∈ set, slotReady s core sl = true)
   ∧ ∀ (s : State) (cell : Nat) (c : Cell) (p hi : W32), Tab.find s.cells cell = some c → c.latch = [] → c.pushed = [] → nextSlot s (coreOf cell) = some (cell % 8) →
       let s1 := takeTurn s (coreOf cell) (cell % 8)
       turnForced s1 = false → turnTraps s1 = false → resumeStep s1 = none → fetch s1 = .got p hi → unitBusy s1 p hi = true →
       ∃ t, exec (.turnSpentWithoutIssue cell) s = .next t ∧ t.cur = cell
         ∧ t.cell cell = { c.tick with parcels := some (p, hi), turns := if (s.gang c.gang).st = .landing then c.turns + 1 else c.turns }
         ∧ t.mem = s.mem ∧ t.gangs = s.gangs ∧ ∀ d, d ≠ cell → t.cell d = s.cell d)
  ∧ ((∀ (s s1 : State) (cell line : Nat) (c : Cell) (l : ILine), Tab.find s.cells cell = some c →
     c.run = .parked (.icache line) → fillCut s cell line = none → fillLine s cell line = some (s1, l) → s.refusedIn l.pa 64 = none →
     ∃ t rest, exec (.icacheFillDone cell) s = .next t
       ∧ t = { s1.modCore (coreOf cell) (fun k => { k with icache := l :: rest }) with cells := t.cells, freeCtr := s1.freeCtr + 1 }
       ∧ t.cell cell = { c with run := .ready } ∧ t.mem = s.mem ∧ t.gangs = s.gangs)
   ∧ ∀ (s : State) (core i : Nat) (v : VFlight) (c : Cell), (s.core core).vec[i]? = some v → Tab.find s.cells v.cell = some c →
       (((s.core core).vec.take (i + 1)).any fun x => x.cell == v.cell && x.waits.any (isEmpty c)) = false →
       let u := s.modCore core fun k => { k with vec := (k.vec.zipIdx.filter fun e => decide (i < e.2) || e.1.cell != v.cell).map (·.1) }
       (vecBusy u v.cell = true → exec (.vectorInstructionComplete core i) s = .next u)
       ∧ (vecBusy u v.cell = false → c.run = .parked .vector → c.trapPend = none →
           exec (.vectorInstructionComplete core i) s = .next (u.modCell v.cell fun c => { c with run := .ready }))
       ∧ (c.run ≠ .parked .vector → exec (.vectorInstructionComplete core i) s = .next u))

/-- The VINT functions (spec 09 R203, R204, R209): modular arithmetic, signed and unsigned extremes, bit operations, shifts by b
mod w, saturating sums that set SAT when clamped; b is a group or the low bits of x(b). -/
def Obligations.VectorIntegerResults : Prop :=
  ∀ (s : State) (d a b : Reg) (xs : Bool) (p : Pred) (t : Ty), vready s = true → aligned s d = true → aligned s a = true →
    (xs = false → aligned s b = true) →
    let u := begun s 8
    let w := t.width
    let n := vcount u.me w
    let A (i : Nat) : Nat := elem (getGroup u u.me.g a) w i
    let B (i : Nat) : Nat := if xs then (rdX s b).toNat % 2 ^ w else elem (getGroup u u.me.g b) w i
    let sg (v : Nat) : Int := signedOf w v
    let lo : Int := -(2 ^ (w - 1) : Nat)
    let hi : Int := (2 ^ (w - 1) : Nat) - 1
    let gives (i : Instr) (f : Nat → Nat → Nat) : Prop :=
      ∃ q, exec i s = .next (after (vecTo s q (selected u p) d w n 0 (if xs then rdX s b else 0) fun e => (f (A e) (B e), .none)) 8)
    let sats (i : Instr) (f : Int → Int → Int) : Prop :=
      ∃ q, exec i s = .next (after (vecTo s q (selected u p) d w n 0 (if xs then rdX s b else 0) fun e =>
        let v := f (sg (A e)) (sg (B e))
        (wrapInt w (clampInt lo hi v), { sat := clampInt lo hi v != v })) 8)
    let un (i : Instr) (f : Nat → Nat) : Prop :=
      ∃ q, exec i s = .next (after (vecTo s q (selected u p) d w n 0 0 fun e => (f (A e), .none)) 8)
    gives (.vintVadd d a b xs p t) (fun x y => x + y) ∧ gives (.vintVsub d a b xs p t) (fun x y => wrapInt w ((x : Int) - y))
    ∧ gives (.vintVmul d a b xs p t) (fun x y => x * y) ∧ gives (.vmulh d a b xs p t) (fun x y => wrapInt w (sg x * sg y / (2 ^ w : Nat)))
    ∧ gives (.vintVmin d a b xs p t) (fun x y => if sg x < sg y then x else y) ∧ gives (.vintVmax d a b xs p t) (fun x y => if sg x < sg y then y else x)
    ∧ gives (.vminu d a b xs p t) (fun x y => min x y) ∧ gives (.vmaxu d a b xs p t) (fun x y => max x y)
    ∧ gives (.vand d a b xs p t) (fun x y => x &&& y) ∧ gives (.vor d a b xs p t) (fun x y => x ||| y) ∧ gives (.vxor d a b xs p t) (fun x y => x ^^^ y)
    ∧ gives (.vsll d a b xs p t) (fun x y => x * 2 ^ (y % w)) ∧ gives (.vsrl d a b xs p t) (fun x y => x / 2 ^ (y % w))
    ∧ gives (.vsra d a b xs p t) (fun x y => wrapInt w (sg x / (2 ^ (y % w) : Nat)))
    ∧ sats (.vsadd d a b xs p t) (· + ·) ∧ sats (.vssub d a b xs p t) (· - ·)
    ∧ un (.vintVabs d a p t) (fun x => (sg x).natAbs) ∧ un (.vintVneg d a p t) (fun x => wrapInt w (-(sg x)))

/-- The VFLT functions (spec 09 R210, R211; 08 R186, R200): one rounding by frm to the element type; the extremes, the sign
functions and their flags; flags are accumulated and never trap, whatever the enables say. -/
def Obligations.VectorFloatResults : Prop :=
  ∀ (s : State) (d a b c : Reg) (xs : Bool) (p : Pred) (t : Ty) (m : Rm), vready s = true → aligned s d = true → aligned s a = true →
    (xs = false → aligned s b = true) → aligned s c = true → rmSelect s 7 = some m →
    let u := begun s 8
    let w := t.width
    let n := vcount u.me w
    let A (i : Nat) : Nat := elem (getGroup u u.me.g a) w i
    let B (i : Nat) : Nat := if xs then unboxTo t (rdF s b) else elem (getGroup u u.me.g b) w i
    let C (i : Nat) : Nat := elem (getGroup u u.me.g c) w i
    let v (x : Nat) : Fv := valOf t x
    let gets (i : Instr) (x : Word) (f : Nat → Nat × Fl) : Prop := ∃ q, exec i s = .next (after (vecTo s q (selected u p) d w n 0 x f) 8)
    let bin (i : Instr) (f : Nat → Nat → Nat × Fl) : Prop := gets i (if xs then (rdF s b).setWidth 64 else 0) fun e => f (A e) (B e)
    let tri (i : Instr) (f : Fv → Fv → Fv → Fv × Fl) : Prop :=
      gets i (if xs then (rdF s b).setWidth 64 else 0) fun e => roundTo t m (f (v (A e)) (v (B e)) (v (C e)))
    let un (i : Instr) (f : Fv → Fv × Fl) : Prop := gets i 0 fun e => roundTo t m (f (v (A e)))
    let sign (x : Nat) (neg : Bool) : Nat × Fl := (x % 2 ^ (w - 1) + b2n neg * 2 ^ (w - 1), .none)
    let fma := Fv.fma Config.fmaQuietInvalid m
    bin (.vfltVadd d a b xs p t) (fun x y => roundTo t m (Fv.add m (v x) (v y))) ∧ bin (.vfltVsub d a b xs p t) (fun x y => roundTo t m (Fv.add m (v x) (v y).flip))
    ∧ bin (.vfltVmul d a b xs p t) (fun x y => roundTo t m (Fv.mul (v x) (v y))) ∧ bin (.vdiv d a b xs p t) (fun x y => roundTo t m (Fv.div (v x) (v y)))
    ∧ bin (.vfltVmin d a b xs p t) (fun x y => minmaxCode (fmtOf t) false x y) ∧ bin (.vfltVmax d a b xs p t) (fun x y => minmaxCode (fmtOf t) true x y)
    ∧ bin (.vsgnj d a b xs p t) (fun x y => sign x (bit y (w - 1)))
    ∧ tri (.vfma d a b c xs p t) (fun x y z => fma x y z) ∧ tri (.vfms d a b c xs p t) (fun x y z => fma x y z.flip)
    ∧ tri (.vfnma d a b c xs p t) (fun x y z => fma x.flip y z)
    ∧ un (.vsqrt d a p t) Fv.sqrt ∧ un (.vrcp d a p t) Fv.rcp ∧ un (.vrsqrt d a p t) Fv.rsqrt ∧ un (.vexp2 d a p t) Fv.exp2 ∧ un (.vlog2 d a p t) Fv.log2
    ∧ gets (.vfltVabs d a p t) 0 (fun e => sign (A e) false) ∧ gets (.vfltVneg d a p t) 0 (fun e => sign (A e) !bit (A e) (w - 1))

/-- VCMP (spec 09 R212): the bits of the mask for the active elements say whether the relation holds; integers compare as the
type says, floats by value; for a NaN only vcmpne holds, and NV is set by a signalling NaN, and for the ordered relations by
any. VMSK (spec 09 R213): the mask functions act on the positions below vl that the predicate selects, or on all 1,024; mpop and
mfirst give the number of hits, and the least or −1. -/
def Obligations.VectorComparesAndMasks : Prop :=
  (∀ (s : State) (d : MReg) (a b : Reg) (xs : Bool) (p : Pred) (t : Ty), vready s = true → aligned s a = true → (xs = false → aligned s b = true) →
     let u := begun s 8
     let w := t.width
     let n := vcount u.me w
     let x (i : Nat) : Nat := elem (getGroup u u.me.g a) w i
     let y (i : Nat) : Nat :=
       if xs then (if t.isInt then (rdX s b).toNat % 2 ^ w else unboxTo t (rdF s b)) else elem (getGroup u u.me.g b) w i
     let raw : Word := if xs then (if t.isInt then rdX s b else (rdF s b).setWidth 64) else 0
     let nan (i : Nat) : Bool := (valOf t (x i)).isNan || (valOf t (y i)).isNan
     let snan (i : Nat) : Bool := (valOf t (x i)).isSnan || (valOf t (y i)).isSnan
     let gives (i : Instr) (rel : Int → Int → Bool) (frel : Fv → Fv → Bool) (onNan loud : Bool) : Prop :=
       ∃ q, exec i s = .next (after (raiseFlags (maskTo s q (selected u p) d w n raw fun e =>
           if t.isInt then rel (intOf t (x e)) (intOf t (y e)) else if nan e then onNan else frel (valOf t (x e)) (valOf t (y e)))
         { nv := !t.isInt && (List.range n).any fun e => selected u p e && (snan e || (loud && nan e)) }) 8)
     gives (.vcmpeq d a b xs p t) (fun x y => x == y) Fv.eqv false false ∧ gives (.vcmpne d a b xs p t) (fun x y => x != y) (fun x y => !Fv.eqv x y) true false
     ∧ gives (.vcmplt d a b xs p t) (fun x y => decide (x < y)) Fv.lt false true ∧ gives (.vcmple d a b xs p t) (fun x y => decide (x ≤ y)) (fun x y => !Fv.lt y x) false true
     ∧ gives (.vcmpgt d a b xs p t) (fun x y => decide (y < x)) (fun x y => Fv.lt y x) false true ∧ gives (.vcmpge d a b xs p t) (fun x y => decide (y ≤ x)) (fun x y => !Fv.lt x y) false true)
  ∧ (∀ (s : State) (d a b : MReg) (x : Reg) (all : Bool) (p : Pred), vready s = true →
     let u := begun s 8
     let n := if all then 1024 else u.me.vl
     let act (i : Nat) : Bool := all || selected u p i
     let A (i : Nat) : Bool := (rdM s a).getLsbD i
     let B (i : Nat) : Bool := (rdM s b).getLsbD i
     let gives (i : Instr) (f : Nat → Bool) : Prop := ∃ q, exec i s = .next (after (maskTo s q act d 1 n 0 f) 8)
     let hits := (List.range n).filter fun i => act i && A i
     let scalar (i : Instr) (v : Word) : Prop := ∃ q, exec i s = .next (after (setXLate (fly u q n 1 (heldScalar u (.x x) n) 0 0 0) x v 2) 8)
     gives (.mand d a b all p) (fun i => A i && B i) ∧ gives (.mor d a b all p) (fun i => A i || B i) ∧ gives (.mxor d a b all p) (fun i => A i != B i)
     ∧ gives (.mandn d a b all p) (fun i => A i && !B i) ∧ gives (.mnot d a all p) (fun i => !A i)
     ∧ gives (.mset d all p) (fun _ => true) ∧ gives (.mclr d all p) (fun _ => false)
     ∧ scalar (.mpop x a all p) (BitVec.ofNat 64 hits.length)
     ∧ (∀ i rest, hits = i :: rest → scalar (.mfirst x a all p) (BitVec.ofNat 64 i)) ∧ (hits = [] → scalar (.mfirst x a all p) (BitVec.allOnes 64)))

/-- VPRM (spec 09 R214): slides, broadcast, gather, select and compress move the bits of the sources as they all stood before;
the moves between an element and a register take element ix, and 0 or nothing where the group has none. -/
def Obligations.VectorPermutes : Prop :=
  ∀ (s : State) (d a b : Reg) (ix : BitVec 10) (p : Pred) (t : Ty), vready s = true → aligned s d = true → aligned s a = true → aligned s b = true →
    let u := begun s 8
    let w := t.width
    let n := vcount u.me w
    let top := vlmaxOf u.me w
    let A (i : Nat) : Nat := elem (getGroup u u.me.g a) w i
    let B (i : Nat) : Nat := elem (getGroup u u.me.g b) w i
    let D (i : Nat) : Nat := elem (getGroup u u.me.g d) w i
    let k := (rdX s b).toNat
    let sel (i : Nat) : Bool := selected u p i
    let on := (List.range n).filter sel
    let moving (q : Q64) (x : Word) : State := fly u q 1 w (heldGroup u u.me.g w d) x 0 0
    let gives (i : Instr) (xa xb : Word) (f : Nat → Nat) : Prop :=
      ∃ q, exec i s = .next (after (setGroup (fly u q n w (heldGroup u u.me.g w d) xa xb 0) u.me.g d
        (mapElems (getGroup u u.me.g d) w n (fun _ => true) fun e => (f e, .none)).1) 8)
    gives (.vslideup d a b p t) 0 (rdX s b) (fun e => if sel e = true ∧ k ≤ e then A (e - k) else D e)
    ∧ gives (.vslidedn d a b p t) 0 (rdX s b) (fun e => if sel e then (if e + k < top then A (e + k) else 0) else D e)
    ∧ gives (.vbcast d a p t) (rdX s a) 0 (fun e => if sel e then (rdX s a).toNat else D e)
    ∧ gives (.vperm d a b p t) 0 0 (fun e => if sel e then (if B e < top then A (B e) else 0) else D e)
    ∧ gives (.vsel d a b p t) 0 0 (fun e => if sel e then A e else B e)
    ∧ gives (.vcompress d a p t) 0 0 (fun e => ((on[e]?).map A).getD (D e))
    ∧ (∃ q, exec (.vmvXv d a ix t) s = .next (after (setXLate (fly u q 1 w (heldScalar u (.x d) 1) 0 0 0) d
        (if ix.toNat < top then BitVec.ofInt 64 (signedOf w (A ix.toNat)) else 0) 2) 8))
    ∧ (∃ q, exec (.vmvFv d a ix t) s = .next (after (setFLate (fly u q 1 w (heldScalar u (.f d) 1) 0 0 0) d (if ix.toNat < top then boxFrom t (A ix.toNat) else 0) 2) 8))
    ∧ (∃ q, exec (.vmvVx d a ix t) s = .next (after (if ix.toNat < top then setGroup (moving q (rdX s a)) u.me.g d
        (putElem (getGroup u u.me.g d) w ix.toNat (rdX s a).toNat) else moving q (rdX s a)) 8))
    ∧ (∃ q, exec (.vmvVf d a ix t) s = .next (after (if ix.toNat < top then setGroup (moving q ((rdF s a).setWidth 64)) u.me.g d
        (putElem (getGroup u u.me.g d) w ix.toNat (unboxTo t (rdF s a))) else moving q ((rdF s a).setWidth 64)) 8))

/-- VRED (spec 08 R198, R199; 09 R215): the pairwise tree over the active elements of va, with the value for no active element; an
integer result goes to x(d), a float result to f(d) with its flags (and of VREDAMAX with TM to a tmax register of the gang too).
VCVT, VSRND and VQNT (spec 08 R187 to R191; 09 R216 to R218): each active element is converted, its saturation accumulates in the
mask, and the flags in qfcsr; vqnt writes one block-vector of 64 codes and 8 scales in v(d). -/
def Obligations.VectorReductionsAndConversions : Prop :=
  (∀ (s : State) (d a : Reg) (ix : BitVec 4) (p : Pred) (t : Ty) (m : Rm), vready s = true → aligned s a = true → rmSelect s 7 = some m →
     let u := begun s 8
     let w := t.width
     let n := vcount u.me w
     let turns := turnsOf u.me 4 5
     let red {α : Type} (leaf : Nat → Option α) (f : α → α → α) : Option α := reduce u a p w leaf f
     let ints (i : Instr) (v : Int) : Prop :=
       t.isInt = true → ∃ q, exec i s = .next (after (setXLate (raiseFlags (fly u q n w (heldScalar u (.x d) n) 0 0 0) .none) d (BitVec.ofNat 64 (wrapInt 64 v)) turns) 8)
     let flts (i : Instr) (v : Nat) (fl : Fl) : Prop :=
       t.isInt = false → ∃ q, exec i s = .next (after (setFLate (raiseFlags (fly u q n w (heldScalar u (.f d) n) 0 0 0) fl) d (BitVec.ofNat 32 v) turns) 8)
     let ext (isMax : Bool) : Nat := (red some fun x y => (minmaxCode (fmtOf t) isMax x y).1).getD (infCode (fmtOf t) isMax)
     let snan : Fl := { nv := anySnan u a p t }
     ints (.vredsum d a ix p t) ((red (fun x => some (intOf t x)) (· + ·)).getD 0)
     ∧ ints (.vredmax d a ix p t) ((red (fun x => some (intOf t x)) max).getD (intLo t))
     ∧ ints (.vredmin d a ix p t) ((red (fun x => some (intOf t x)) min).getD (intHi t))
     ∧ flts (.vredsum d a ix p t) (sumFloat u a p t).1 (sumFloat u a p t).2
     ∧ flts (.vredmax d a ix p t) (boxFrom t (ext true)).toNat snan ∧ flts (.vredmin d a ix p t) (boxFrom t (ext false)).toNat snan
     ∧ flts (.vredamax d a false ix p t) (boxFrom t (magFloat u a p t)).toNat snan
     ∧ (t.isInt = false →
         let v := (boxFrom t (magFloat u a p t)).toNat
         ∃ q, exec (.vredamax d a true ix p t) s = .next (after (setFLate (tmaxUp (raiseFlags (fly u q n w (heldScalar u (.f d) n) 0 0 0) snan) s.me.gang ix.toNat
           (BitVec.ofNat 32 (toF32 t (if t = .f32 then v else v % 65536)))) d (BitVec.ofNat 32 v) turns) 8))
     ∧ (t.isInt = true → ∀ tm, ∃ q, exec (.vredamax d a tm ix p t) s = .next (after (setXLate (raiseFlags (fly u q n w (heldScalar u (.x d) n) 0 0 0) .none) d
         (BitVec.ofNat 64 ((red (fun x => some (intOf t x).natAbs) max).getD 0)) turns) 8)))
  ∧ (∀ (s : State) (d a b : Reg) (c : MReg) (w : BitVec 6) (p : Pred) (dst src : Ty) (m : Rm), vready s = true → aligned s d = true → aligned s a = true →
     aligned s b = true → rmSelect s 7 = some m →
     let u := begun s 8
     let g := u.me.g
     let gets (i : Instr) (wide : Nat) (e : Nat → Nat × Bool × Fl) : Prop :=
       let n := vcount u.me wide
       let r := mapElems (getGroup u g d) dst.width n (selected u p) fun j => ((e j).1, (e j).2.2)
       let k := mapMask (getM u c).toNat n (selected u p) fun j => (e j).2.1 || (getM u c).getLsbD j
       ∃ q, exec i s = .next (after (raiseFlags (setM (setGroup (fly u q n wide (heldGroup u g dst.width d ++ heldMask u c) 0 0 0) g d r.1) c (BitVec.ofNat 1024 k)) r.2) 8)
     let A (i : Nat) : Nat := elem (getGroup u g a) src.width i
     gets (.vcvt d a c p dst src) (max src.width dst.width) (fun j => convElem dst src m (A j))
     ∧ gets (.vsrnd d a b c w p dst src) 32 (fun j => srnd (srDest dst) (fmtOf src) (valOf src (A j)) (elem (getGroup u g b) 32 j) w.toNat)
     ∧ ∀ scale : Option Reg, scale = none ∨ scale = some b →
         let x (i : Nat) : Fv := if i < vlmaxOf u.me src.width then valOf src (A i) else .zero
         let sc := (List.range 8).map fun j => match scale with
           | none => autoScale (maxMagOf ((List.range 8).map fun e => x (8 * j + e)))
           | some r => elem (rdV s r).toNat 8 j
         let rs := (List.range 64).map fun i => quantElem ((sc[i / 8]?).getD 0) (x i)
         let data := rs.foldr (fun r acc => acc * 16 + r.1) 0
         let mask := rs.foldr (fun r acc => acc * 2 + b2n r.2.1) 0
         let had := (getV u d).toNat
         let old : List Held := [{ dst := .v d, width := 4, count := 64, val := had }, { dst := .v d, at_ := 256, width := 1, count := 64, val := had }]
         ∃ q, exec (.vqnt d a scale c src) s = .next (after (raiseFlags (setM (setV (fly u q 64 src.width (old ++ heldMask u c) 0 0 0) d
             (BitVec.ofNat 1024 (data + sc.foldr (fun v acc => acc * 256 + v) 0 * 2 ^ 256))) c (rdM s c ||| BitVec.ofNat 1024 mask))
           (rs.foldl (fun f r => Fl.or f r.2.2) Fl.none)) 8))

/-- R205: an instruction that names a vector register number that is not a multiple of the grouping in a vector operand field
traps VGRP_ALIGN, with the number in tval[4:0] and the first such field, in the order d, a, b, c, in tval[6:5]: every family of
vector instructions, and the matrix instructions that name vector registers (of a tile that the gang declares). -/
def Obligations.VectorAlignment : Prop :=
  ∀ (s : State) (d a b c : Reg) (md : MReg) (td : Tile) (xs tm col : Bool) (p : Pred) (t src : Ty) (m : Rm) (imm : BitVec 16) (n1 ix : BitVec 10) (i4 : BitVec 4) (w6 : BitVec 6)
    (dup : Option MReg) (row : RowIx) (pair : Pair), calm s = true → rmSelect s 7 = some m →
    let first (i : Instr) (fields : List (Nat × Reg)) : Prop := ∀ before n r rest, fields = before ++ (n, r) :: rest →
      (∀ x ∈ before, aligned s x.2 = true) → aligned s r = false → exec i s = .next (trapped (begun s 8) 8 0x17 (BitVec.ofNat 64 (r.toNat + 32 * n)))
    let b? : List (Nat × Reg) := if xs then [] else [(2, b)]
    let ints : List (Reg → Reg → Reg → Bool → Pred → Ty → Instr) := [.vintVadd, .vintVsub, .vintVmul, .vmulh, .vintVmin, .vintVmax, .vminu, .vmaxu, .vand, .vor, .vxor, .vsll, .vsrl,
      .vsra, .vsadd, .vssub, .vfltVadd, .vfltVsub, .vfltVmul, .vfltVmin, .vfltVmax, .vdiv, .vsgnj]
    let ones : List (Reg → Reg → Pred → Ty → Instr) := [.vintVabs, .vintVneg, .vfltVabs, .vfltVneg, .vsqrt, .vrcp, .vrsqrt, .vexp2, .vlog2, .vcompress]
    let fused : List (Reg → Reg → Reg → Reg → Bool → Pred → Ty → Instr) := [.vfma, .vfms, .vfnma]
    let compares : List (MReg → Reg → Reg → Bool → Pred → Ty → Instr) := [.vcmpeq, .vcmpne, .vcmplt, .vcmple, .vcmpgt, .vcmpge]
    let only : List (Instr × List (Nat × Reg)) :=
      [(.vslideup d a b p t, [(0, d), (1, a)]), (.vslidedn d a b p t, [(0, d), (1, a)]), (.vbcast d a p t, [(0, d)]), (.vperm d a b p t, [(0, d), (1, a), (2, b)]),
       (.vsel d a b p t, [(0, d), (1, a), (2, b)]), (.vmvXv d a ix t, [(1, a)]), (.vmvFv d a ix t, [(1, a)]), (.vmvVx d a ix t, [(0, d)]), (.vmvVf d a ix t, [(0, d)]),
       (.vredsum d a i4 p t, [(1, a)]), (.vredmax d a i4 p t, [(1, a)]), (.vredmin d a i4 p t, [(1, a)]), (.vredamax d a tm i4 p t, [(1, a)]),
       (.vcvt d a md p t src, [(0, d), (1, a)]), (.vsrnd d a b md w6 p t src, [(0, d), (1, a), (2, b)]), (.vqnt d a none md src, [(0, d), (1, a)]),
       (.vqnt d a (some b) md src, [(0, d), (1, a), (2, b)]), (.vld d a imm p t, [(0, d)]), (.vlds d a b imm p t, [(0, d)]), (.vld2d d a b n1 p t, [(0, d)]),
       (.vldx d a b p t, [(0, d), (2, b)]), (.vst c a imm p t, [(3, c)]), (.vsts c a b imm p t, [(3, c)]), (.vstx c a b dup p t, [(2, b), (3, c)])]
    (∀ f ∈ ints, first (f d a b xs p t) ([(0, d), (1, a)] ++ b?)) ∧ (∀ f ∈ ones, first (f d a p t) [(0, d), (1, a)])
    ∧ (∀ f ∈ fused, first (f d a b c xs p t) ([(0, d), (1, a)] ++ b? ++ [(3, c)])) ∧ (∀ f ∈ compares, first (f md a b xs p t) ([(1, a)] ++ b?))
    ∧ (∀ e ∈ only, first e.1 e.2)
    ∧ (declared s td = true → first (.mop1 td a b c p pair) [(1, a), (2, b)] ∧ first (.mrowRd d td row col p t) [(0, d)] ∧ first (.mrowWr td a row col p t) [(1, a)])

/-- The elements of a vector result (spec 09 R201, R203, R204) under each of the four groupings: after a group is written with
an element map, its active elements below the count hold the map's values, its other elements are as before, and so is every
register outside the group; the flags are those of the active elements. A mask map does the same for bits. -/
def Obligations.VectorElements : Prop :=
  ∀ (s : State) (g : BitVec 2) (d : Reg) (w n : Nat) (act : Nat → Bool) (f : Nat → Nat × Fl), calm s = true → d.toNat % 2 ^ g.toNat = 0 →
    w ∈ [4, 8, 16, 32] → n ≤ 2 ^ g.toNat * 1024 / w →
    let old := getGroup (begun s 8) g.toNat d
    let r := mapElems old w n act f
    let t := setGroup (begun s 8) g.toNat d r.1
    (∀ i, i < n → elem (getGroup t g.toNat d) w i = if act i then (f i).1 % 2 ^ w else elem old w i)
    ∧ (∀ i, n ≤ i → i < 2 ^ g.toNat * 1024 / w → elem (getGroup t g.toNat d) w i = elem old w i)
    ∧ (∀ q : Reg, q.toNat < d.toNat ∨ d.toNat + 2 ^ g.toNat ≤ q.toNat → rdV t q = rdV s q)
    ∧ (r.2.nv = (List.range n).any fun i => act i && (f i).2.nv) ∧ (r.2.sat = (List.range n).any fun i => act i && (f i).2.sat)
    ∧ t = { begun s 8 with cells := t.cells } ∧ (∀ c, c ≠ s.cur → t.cell c = s.cell c)
    ∧ ∀ (m : Nat) (b : Nat → Bool) (i : Nat), bit (mapMask m n act b) i = if i < n ∧ act i = true then b i else bit m i

/-- The effective addresses of the vector loads and stores (spec 09 R219), and what they do where no record of an interrupted access
is held (spec 09 R220, R221; 18 R372): the active elements are visited in ascending order; where every one passes its checks a load
fills its group and the registers that hold an element are empty until the result is written, and a store has issued its elements;
where one does not, the turn ends as that element says. So an access whose active elements all lie in own local store or hive
scratchpad, aligned and with the right, completes. The cell keeps what it has noted of the access until its instruction ends. One
element of a vector access (spec 09 R220): a load element that reaches bytes at a home key, with no write of them unordered before
it (13 R289), takes its place in its register with the little-endian number there, no other element or register changes and nothing
is stored; a store element goes to its target; a trap names the element, so that its record restarts the access there. -/
def Obligations.VectorMemoryAccesses : Prop :=
  (∀ (s : State) (d a b c : Reg) (imm : BitVec 16) (n1 : BitVec 10) (dup : Option MReg) (p : Pred) (t : Ty), vready s = true →
     aligned s d = true → aligned s b = true → aligned s c = true → s.me.csr.vinflt = 0 →
     let u := begun s 8
     let w := t.width
     let els := (List.range (vcount u.me w)).filter (selected u p)
     let base (v : State) : Word := getX v a
     let unit (v : State) (i : Nat) : Word := base v + imm.signExtend 64 + BitVec.ofNat 64 (i * (w / 8))
     let strided (v : State) (i : Nat) : Word := base v + imm.signExtend 64 + BitVec.ofNat 64 i * getX v b
     let rows (v : State) (i : Nat) : Word := base v + BitVec.ofNat 64 (i % (n1.toNat + 1)) * ((getX v b).extractLsb' 0 32).signExtend 64
       + BitVec.ofNat 64 (i / (n1.toNat + 1)) * ((getX v b).extractLsb' 32 32).signExtend 64
     let indexed (v : State) (i : Nat) : Word := base v + BitVec.ofNat 64 (elem (getGroup v v.me.g b) w i * (w / 8))
     let own (right : Nat) (ea : Word) : Prop := ea.toNat % (w / 8) = 0
       ∧ ∃ dva key, segCheck s.myGang ea (w / 8) right = .ok dva ∧ bit dva 56 = true ∧ aperture s s.me.gang .vload dva (w / 8) = .key key
     let all (right : Nat) (ea : State → Nat → Word) : Prop := ∀ i ∈ els, own right (ea u i)
     let load (i : Instr) (ea : State → Nat → Word) (lies : Prop) : Prop := ∃ stride note,
       let visit := overElems (vloadElem d w ea stride) els (u.modMe fun v => { v with access := some note })
       (∀ s1, visit = .ok s1 → exec i s = .next (after (fillGroup s1 u.me.g d w els) 8))
       ∧ (lies → ∃ s1, exec i s = .next (after (fillGroup s1 u.me.g d w els) 8))
       ∧ ∀ r, visit = .error r → exec i s = .next (commit 8 r)
     let store (i : Instr) (ea : State → Nat → Word) (lies : Prop) (more : State → State) : Prop := ∃ stride note,
       let visit := overElems (vstoreElem (getGroup u u.me.g c) w ea stride) els (u.modMe fun v => { v with access := some note })
       (∀ s1, visit = .ok s1 → exec i s = .next (after (more (flyAccess s1 w [])) 8))
       ∧ (lies → ∃ s1, exec i s = .next (after (more (flyAccess s1 w [])) 8))
       ∧ ∀ r, visit = .error r → exec i s = .next (commit 8 r)
     load (.vld d a imm p t) unit (all rRead unit) ∧ load (.vlds d a b imm p t) strided (all rRead strided)
     ∧ load (.vld2d d a b n1 p t) rows (all rRead rows) ∧ load (.vldx d a b p t) indexed (all rRead indexed)
     ∧ store (.vst c a imm p t) unit (all rWrite unit) id ∧ store (.vsts c a b imm p t) strided (all rWrite strided) id
     ∧ store (.vstx c a b dup p t) indexed (all rWrite indexed) (fun v => match dup with | some m => dupMask v m b p t | none => v))
  ∧ (∀ (s s1 : State) (d : Reg) (w i data : Nat) (ea : State → Nat → Word) (stride : State → Word) (tg : Target), calm s = true → quiet s = true → w ∈ [8, 16, 32] →
     let u := begun s 8
     let r : Reg := BitVec.ofNat 5 (d.toNat + i * w / 1024)
     let e := i % (1024 / w)
     (∀ k, resolve u .vload (ea u i) (w / 8) rRead (w / 8) (some i) (stride u) = .ok (s1, .key k) → settled s1 k (w / 8) = true →
       ∃ t, vloadElem d w ea stride u i = .ok t ∧ t.mem = s.mem ∧ elem (rdV t r).toNat w e = s1.readNat k (w / 8)
         ∧ (∀ j, j ≠ e → elem (rdV t r).toNat w j = elem (rdV s r).toNat w j) ∧ (∀ q, q ≠ r → rdV t q = rdV s q) ∧ t.me.x = s.me.x ∧ t.me.csr = s.me.csr)
     ∧ (resolve u .vstore (ea u i) (w / 8) rWrite (w / 8) (some i) (stride u) = .ok (s1, tg) →
         ∃ noted : VRec → VRec, vstoreElem data w ea stride u i = .ok ((storeTo s1 tg (ea u i) (leBytes (elem data w i) (w / 8))).modMe fun v =>
           { v with access := v.access.map noted }))
     ∧ (∀ cause tval, segCheck u.myGang (ea u i) (w / 8) rRead = .error (cause, tval) → vloadElem d w ea stride u i = .error (.trap u cause tval (some i))))

/-- VSETVL, VSETVLW and VGRP (spec 09 R207, R208). VSETVL takes the lesser of x(a) and VLMAX. VSETVLW with x(a) = 0 gives 0;
otherwise it reads the watermark word, gives the elements that are there where there is one (with FULL: where there are enough),
and parks on the word where there is none. VGRP waits for the cell's vector instructions; vl becomes 0, and where the grouping
changes every bit of a vector register that is set was a set bit of some vector register before. Which bits the registers hold
after the grouping changes is free (log 9). -/
def Obligations.VectorConfiguration : Prop :=
  ∀ (s s1 : State) (d a b c : Reg) (limit : BitVec 15) (full : Bool) (ty : Ty) (g : BitVec 2) (k : Nat), calm s = true → quiet s = true → s.me.since = none →
    let top := 2 ^ s.me.g * 1024 / ty.width
    let len (t : State) (n : Nat) : State := t.modMe fun v => { v with sew := ty.width, vl := n }
    let want := min (rdX s a).toNat top
    let w := s1.readNat k 8
    let avail : Int := (BitVec.ofNat 64 w).toInt - (rdX s c).toInt
    exec (.vsetvl d a ty) s = .next (after (wrX (len (begun s 8) want) d (BitVec.ofNat 64 want)) 8)
    ∧ (rdX s a = 0 → exec (.vsetvlw d a b c limit full ty) s = .next (after (wrX (len (begun s 8) 0) d 0) 8))
    ∧ (rdX s a ≠ 0 → resolve (begun s 8) .load (rdX s b) 8 rRead 8 = .ok (s1, .key k) →
        ((if full then (want : Int) ≤ avail else 0 < avail) → ∃ t, exec (.vsetvlw d a b c limit full ty) s =
            .next (after (lateX (len t (min want avail.toNat)) d (BitVec.ofNat 64 (min want avail.toNat))) 8) ∧ t.mem = s.mem ∧ t.me.x = s.me.x ∧ t.me.v = s.me.v)
        ∧ (¬ (if full then (want : Int) ≤ avail else 0 < avail) → ∃ t, exec (.vsetvlw d a b c limit full ty) s = .next t
            ∧ t.me.pc = s.me.pc ∧ t.me.x = s.me.x ∧ t.mem = s.mem ∧ (s.myGang.st ≠ .landing → t.me.run = .parked (.signal k true))))
    ∧ (vecBusy s s.cur = true → exec (.vgrp g) s = .next (waiting (begun s 8) .vector))
    ∧ (vecBusy s s.cur = false → ∃ t, exec (.vgrp g) s = .next (after t 8) ∧ t.me.vl = 0 ∧ t.me.g = g.toNat ∧ t.me.sew = s.me.sew ∧ t.me.m = s.me.m ∧ t.me.x = s.me.x
        ∧ t.mem = s.mem ∧ (g.toNat = s.me.g → t.me.v = s.me.v)
        ∧ ∀ (r : Reg) (i : Nat), i < 1024 → (rdV t r).getLsbD i = true → ∃ (q : Reg) (j : Nat), (rdV s q).getLsbD j = true)

/-- One step of a matrix instruction (spec 08 R185; 11 R257, R258, R262, R263). Where it is not held nothing stops, and every
active element becomes its word accumulated with its row's and its column's operand, while the others are as before. Where it is
held and a row stops it, the rows below are applied, and that row and the rows above are as before. -/
def Obligations.MatrixStepElements : Prop :=
  ∀ (pair : Pair) (held : Bool) (qfcsr : Word) (k : BitVec 3) (n : Bool) (mask : Nat) (band : Fv) (a b : List Byte) (l : List W32) (i j : Nat),
    l.length = 4096 → i < 64 → j < 64 →
    let r := applyStep pair held qfcsr k n mask band a b 0 l
    let x := ((decodeRow (pairTypes pair).1 a none)[i]?).getD none
    let y := ((decodeRow (pairTypes pair).2 b (if pair.banded then some band else none))[j]?).getD none
    let applied : Prop := r.1[64 * i + j]? = if rowOn k n mask i && colOn k n mask j then
      some (accumulate (pairInt pair) x y ((l[64 * i + j]?).getD 0)).1 else l[64 * i + j]?
    r.1.length = 4096 ∧ (held = false → r.2.2 = none) ∧ (r.2.2 = none → applied)
    ∧ ∀ q f, r.2.2 = some (q, f) → q < 64 ∧ stops f = true ∧ (i < q → applied) ∧ (q ≤ i → r.1[64 * i + j]? = l[64 * i + j]?)

/-- MOP1, MOPA, MZERO and MREL (spec 11 R259 to R271) of a gang that holds the lease, with the unit free and no resume point
set. MOP1 has applied one step when it issues, and where it is held keeps its cell until it leaves the unit, or traps at the row
that stops it; MOPA enters the unit with its operands as they
stand, and where it is held keeps its cell; MZERO zeroes the active elements; MREL frees the lease. Operands that are written
after a MOPA's issue are read old or new by a free choice (log 10). -/
def Obligations.MatrixInstructions : Prop :=
  ∀ (s s' : State) (d : Tile) (a b c : Reg) (km1 : BitVec 12) (ocs : Bool) (p : Pred) (pair : Pair) (key : Option Nat), mready s = true →
    let u := leased s
    let core := s.myGang.core
    let gid := s.me.gang
    let held := isHeld s.me
    let ta := (pairTypes pair).1
    let tb := (pairTypes pair).2
    let n := km1.toNat + 1
    let q := qv 0x11 0 pair.code p (treg d) a b c ((0 : BitVec 3) ++ bit1 ocs ++ km1)
    let side (t : Ty) (x x1 : Word) (k : Nat) : Prop := checkPieces (begun s 8) rRead (sidePieces t x x1 n) = .ok () ∧ sideAlign (begun s 8) x x1 = .ok ()
      ∧ sideShape s' t x1 k = .ok () ∧ (s.me.csr.qfcsr.getLsbD 21 = true → sideTags s' t x x1 n = .ok ())
    let s1 := s'.modCore core expireLease
    let rec_ : MatRec := { enc := q.pack, pc := s.me.pc, xa := rdX s a, xa1 := rdX s (a + 1), xb := rdX s b, xb1 := rdX s (b + 1), mocsig := s.me.csr.mocsig, mask := maskBits u p.k, fc := if pair.banded then rdF s c else 0, step := 0, held, cell := s.me.j }
    let s2 := startMopa s1 core s.cur gid rec_ 0 key
    (declared s d = true → aligned s a = true → aligned s b = true → s.me.csr.mstate.getLsbD 63 = false →
      let r := applyStep pair held s.me.csr.qfcsr p.k p.n (maskBits u p.k) (if pair.banded then bandOf (rdF s c) else .zero)
        (sideBytes u ta a) (sideBytes u tb b) 0 (readTile u core d.toNat)
      let w := flagCell (writeTile u core gid d.toNat r.1) s.cur r.2.1
      (r.2.2 = none → held = false → exec (.mop1 d a b c p pair) s = .next (after (useUnit w true) 8))
      ∧ (r.2.2 = none → held = true → exec (.mop1 d a b c p pair) s = .next (waiting ((useUnit w true).modMe fun v => { v with stage := 1 }) .matrix))
      ∧ ∀ i f, r.2.2 = some (i, f) → exec (.mop1 d a b c p pair) s = .next (commit 8 (.trap
          (wrCsr (flagCell w s.cur f) fun v => { v with mstate := stopPoint s.me.pc 0 i }) (stopCause f) (stopPoint s.me.pc 0 i &&& 0xFFFFFFFF) none true)))
    ∧ (declared s d = true → s.me.csr.mstate.getLsbD 63 = false → (ocs = true → checkPieces (begun s 8) rAtomic [(s.me.csr.mocsig, 8)] = .ok ()) →
        ocsTarget (begun s 8) ocs = .ok (s', key) → side ta (rdX s a) (rdX s (a + 1)) 0 → side tb (rdX s b) (rdX s (b + 1)) 1 →
        (held = false → exec (.mopa d a b c km1 ocs p pair) s = .next (after s2 8))
        ∧ (held = true → exec (.mopa d a b c km1 ocs p pair) s = .next (waiting (s2.modMe fun v => { v with stage := 1 }) .matrix)))
    ∧ (declared s d = true → exec (.mzero d p) s = .next (after (useUnit (writeTile u core gid d.toNat ((readTile u core d.toNat).zipIdx.map fun e =>
        if rowOn p.k p.n (maskBits u p.k) (e.2 / 64) && colOn p.k p.n (maskBits u p.k) (e.2 % 64) then 0 else e.1)) true) 8))
    ∧ (s.myGang.hdr.accm ≠ 0 →
        exec .mrel s = .next (after (useUnit (releaseLease (begun s 8) false) false) 8)
        ∧ exec .mrelDiscard s = .next (after (useUnit (releaseLease (begun s 8) true) false) 8))

/-- MDRAIN in its three kinds (spec 08 R193 to R196; 11 R272 to R274), where the gang holds the lease, the rows (and the
exponents) lie in local store with the write right, base and pitch are multiples of 64 and the operand's reserved bits are zero:
the active elements of the rows are converted and stored in ascending order of rows, and then the flags, the mask bits of a
narrow type, the two counts and the tmax register follow. MROW, AMX, MSAVE and MRSTR (spec 11 R275, R276; 08 R196, R197; 18
R377). MROW moves one row or column, unchanged, between a tile and a pair of vector registers, active elements alone; AMXRD,
AMXSWP and AMXMAX read, read and reset, and raise a tmax register; MSAVE stores a tile row by row, each
word as a store of the cell; MRSTR loads it back, with the words that stand there where no write of them is unordered before its reads, which go on until the unit is
free (18 R377). -/
def Obligations.MatrixDrainsAndMoves : Prop :=
  (∀ (s : State) (f : Drain) (c : Reg), mready s = true → declared s f.d = true →
     let u := leased s
     let base := rdX s f.a
     let xb := rdX s f.b
     let pitch := bits xb.toNat 15 0
     let nr := f.nrm1.toNat + 1
     let ok (ea : Word) (n : Nat) : Prop := (∃ dva, segCheck s.myGang ea n rWrite = .ok dva) ∧ bits ea.toNat 63 61 = 7
     let done (by_ : DrainBy) : State :=
       let a := (List.range nr).foldl (drainRow s.myGang f by_ (maskBits u f.p.k) (readTile u s.myGang.core f.d.toNat) base pitch)
         { s := u, mask := 0, fl := .none, sat := 0, under := 0, top := 0 }
       let s1 := raiseFlags a.s a.fl
       let s2 := if f.t == .e4m3 || f.t == .e5m2 || f.t == .i8 then wrM s1 f.msat (rdM s1 f.msat ||| BitVec.ofNat 1024 a.mask) else s1
       let s3 := wrCsr s2 fun v => { v with qsatcnt := countUp v.qsatcnt a.sat, qufcnt := countUp v.qufcnt a.under }
       if f.tm then tmaxUp s3 s3.me.gang (bits xb.toNat 19 16) (BitVec.ofNat 32 a.top) else s3
     base.toNat % 64 = 0 → pitch % 64 = 0 → xb.toNat < 2 ^ 20 → (∀ r, r < nr → ok (base + BitVec.ofNat 64 (r * pitch)) (rowBytes f.t)) →
       exec (.mdrain f) s = .next (after (useUnit (done .plain) true) 8)
       ∧ exec (.mdrainDly f c) s = .next (after (useUnit (done (.delayed (rdF s c))) true) 8)
       ∧ (ok (rdX s c) nr → exec (.mdrainRow f c) s = .next (after (useUnit (done (.row (rdX s c))) true) 8)))
  ∧ (∀ (s : State) (d : Tile) (v a : Reg) (ix : RowIx) (col : Bool) (p : Pred) (t : Ty) (i : BitVec 4),
     let u := leased s
     let core := s.myGang.core
     let gid := s.me.gang
     let j := match ix with | .imm n => n.toNat | .reg r => (rdX s r).toNat
     let tile := readTile u core d.toNat
     let act := rowActive col p (maskBits u p.k)
     let old := (s.myGang.tmax[i.toNat]?).getD 0
     let late (s : State) (r : Reg) (w : W32) : State := setFLate s r w 2
     let reach (right : Nat) : Prop := (∃ dva, segCheck s.myGang (rdX s a) 16384 right = .ok dva) ∧ (rdX s a).toNat % 64 = 0 ∧ 6 ≤ bits (rdX s a).toNat 63 61
     (mready s = true → declared s d = true → j < 64 →
       (aligned s v = true →
         let take (old : VReg) (e0 : Nat) : VReg := BitVec.ofNat 1024 (mapElems old.toNat 32 32 (fun e => act (e0 + e)) fun e => (((tile[rowPlace col j (e0 + e)]?).getD 0).toNat, .none)).1
         exec (.mrowRd v d ix col p t) s = .next (after (soonV (soonV (useUnit u true) v (take (rdV s v) 0)) (v + 1) (take (rdV s (v + 1)) 32)) 8)
         ∧ exec (.mrowWr d v ix col p t) s = .next (after (useUnit (writeTile u core gid d.toNat (tile.zipIdx.map fun w =>
             let e := if col then w.2 / 64 else w.2 % 64
             if rowPlace col j e = w.2 && act e then BitVec.ofNat 32 (elem ((rdV s v).toNat + 2 ^ 1024 * (rdV s (v + 1)).toNat) 32 e) else w.1)) true) 8))
       ∧ (reach rWrite → exec (.msave d a) s = .next (after (useUnit (u.writeUnits (.cell s.cur) none 4 [(ownKey s.myGang (rdX s a), tile.flatMap fun w => leBytes w.toNat 4)] 0) true) 8))
       ∧ (reach rRead →
           let key := ownKey s.myGang (rdX s a)
           (∃ v l, exec (.mrstr d a) s = .next (after (loadUnit (writeTile v core gid d.toNat l) d.toNat key) 8) ∧ v.mem = s.mem ∧ l.length = 4096)
           ∧ ((u.writesAfter s.me.floor key 16384).isEmpty = true →
               exec (.mrstr d a) s = .next (after (loadUnit (writeTile u core gid d.toNat (wordsOf (u.span key 16384))) d.toNat key) 8))))
     ∧ (calm s = true →
         exec (.amxrd v i) s = .next (after (late (begun s 8) v old) 8)
         ∧ exec (.amxswp v i) s = .next (after ((late (begun s 8) v old).modGang gid fun g => { g with tmax := setAt g.tmax i.toNat 0 }) 8)
         ∧ exec (.amxmax v i) s = .next (after (if (val32 (rdF s v &&& 0x7FFFFFFF)).isNan then begun s 8 else tmaxUp (begun s 8) gid i.toNat (rdF s v &&& 0x7FFFFFFF)) 8)))

/-- The matrix unit and its lease (spec 11 R251 to R253, R263, R268, R270). While another gang holds the lease, an instruction that
needs it parks its cell, and its gang joins the wait list once; a free lease goes to the gang at the head of the list, whose cells
go on; a holder whose quantum is used up while others wait loses it. At its operands-consumed point a MOPA, whose OCS waits for what
its cell did before (13 R291), has applied its steps, or stops at a row and traps; of a gang that has retired only the decrement is
left (20 R400). When an instruction leaves the unit, the quantum counts it, and a cell that it kept goes on. Whose leaseq gives the
quantum is the model's choice (log 23). -/
def Obligations.MatrixUnitAndLease : Prop :=
  ∀ (s : State) (core : Nat) (d : Tile) (p : Pred),
    (∀ h, calm s = true → declared s d = true → s.myGang.mrec = none → ((leased s).core s.myGang.core).holder = some h → h ≠ s.me.gang →
      exec (.mzero d p) s = .next (waiting ((leased s).modCore s.myGang.core fun k =>
        if k.leaseQ.contains s.me.gang then k else { k with leaseQ := k.leaseQ ++ [s.me.gang] }) .lease))
    ∧ exec (.leaseQuantumExpiry core) s = .next (s.modCore core expireLease)
    ∧ (∀ h, (s.core core).holder = some h → (s.core core).qleft = 0 → (s.core core).leaseQ ≠ [] → unitOf (s.core core) h = false →
        expireLease (s.core core) = { s.core core with holder := none })
    ∧ (∀ gid rest, (s.core core).leaseQ = gid :: rest → (s.core core).holder = none → (s.core core).unit = none → (s.gang gid).mrec = none →
        imageRefused s core gid = none → ∀ c cs, (s.gang gid).cells.filter (fun c => (s.cell c).run == .parked .lease) = c :: cs →
        exec (.leaseAcquire core) s = .next (wakeLease (acquire s core gid (s.cell c).csr.leaseq.toNat) gid))
    ∧ (∀ u r, (s.core core).unit = some u → u.mopa = some r → u.consumed = false → (u.ocs.isSome = true → outstandingTo s u.cell u.gang false (some u.mark) = false) →
        let done (t : State) : State :=
          let s2 := t.modCore core fun c => { c with unit := some { u with consumed := true } }
          match u.ocs with | some key => decrementAt s2 u.cell u.gang r.mocsig key .pkg | none => s2
        ((s.gang u.gang).st = .retired → exec (.mopaOperandsConsumed core) s = .next (done s))
        ∧ ((s.gang u.gang).st ≠ .retired → (runMopa s core 4096 u r).2 = none → exec (.mopaOperandsConsumed core) s = .next (done (runMopa s core 4096 u r).1))
        ∧ ∀ k i h, (s.gang u.gang).st ≠ .retired → (runMopa s core 4096 u r).2 = some (k, i, h) → exec (.mopaOperandsConsumed core) s = .next (
            heldTrap (freeGang ((runMopa s core 4096 u r).1.modCore core fun c => { c with unit := none }) u.gang u.cell) u.cell r.pc k i h))
    ∧ (∀ u, (s.core core).unit = some u → u.consumed = true →
        let s1 := (endLoad s core u).modCore core fun k => { k with unit := none, qleft := if u.counts && k.holder == some u.gang then k.qleft - 1 else k.qleft }
        let mine := (s.cell u.cell).gang = u.gang
        (u.mopa.isSome = true → exec (.matrixInstructionComplete core) s = .next (
            if mine then freeHeld (freeGang s1 u.gang u.cell) u.cell else freeGang s1 u.gang u.cell))
        ∧ (u.mopa = none → exec (.matrixInstructionComplete core) s = .next (if mine ∧ (s.cell u.cell).stage = 1 then freeHeld s1 u.cell else s1)))

/-- QFENCE and QAMO (spec 14 R309 to R313). Beyond its cell QFENCE waits, with class w while an access of its cell is on its way that its
scope covers, with class r while an atomic's reply is awaited; otherwise it completes, at cell scope always; with engine order the cell's later copies follow it (13 R295,
R298), with class r its later reads, and with class w its later writes. A QAMO in local store or hive scratchpad gives the old value, sign-extended, and leaves the
result of its operation in its bytes alone (QAMOCAS writes only where the old value is the expected one); in HBM it is on its way,
and an acquiring one keeps its cell until the reply. A QAMO whose reply has come, from whatever home, gives it, sign-extended. -/
def Obligations.FencesAndQamo : Prop :=
  (∀ (s s1 : State) (r w e : Bool) (sc : Scope) (d a b c : Reg) (acq rel : Bool) (k : Nat), calm s = true →
    let held : State := if e then holdCopies (begun s 8) else begun s 8
    let waits : Bool := (w && busy s (sc == .pod)) || (r && busyReads s)
    let reads : State := if r then held.orderReads s.cur r w sc else held
    (sc = .cell → exec (.qfence r w e sc) s = .next (after held 8))
    ∧ (sc ≠ .cell → waits = true → exec (.qfence r w e sc) s = .next (waiting (begun s 8) .performed))
    ∧ (sc ≠ .cell → waits = false → exec (.qfence r w e sc) s = .next (after (if w then reads.orderWrites s.cur sc else reads) 8))
    ∧ (memOk s = true → (rel = true → quiet s = true) →
        let gives (n : Nat) (i : Instr) (op : AmoOp) (f : BitVec (8 * n) → BitVec (8 * n) → BitVec (8 * n)) (cmp : Word) : Prop :=
          resolve (begun s 8) .atomic (rdX s a) n rAtomic n = .ok (s1, .key k) →
          let old : BitVec (8 * n) := BitVec.ofNat (8 * n) (s1.readNat k n)
          (isHbm k = false → ∃ t, exec i s = .next (after (lateX t d (old.signExtend 64)) 8)
            ∧ stored s t k (leBytes (f old ((rdX s b).setWidth (8 * n))).toNat n) ∧ t.me.x = s.me.x ∧ t.me.f = s.me.f ∧ t.me.csr = s.me.csr)
          ∧ (isHbm k = true → acq = false → exec i s = .next (after (post (reserve s1 (.x d)).1 k (rdX s a) (.amo op n (rdX s b) cmp (reserve s1 (.x d)).2) { rel, sc }) 8))
          ∧ (isHbm k = true → acq = true → exec i s = .next (waiting (post s1 k (rdX s a) (.amo op n (rdX s b) cmp .none) { acq := true, rel, sc }) (.remote 0)))
        let both (i : Bool → Instr) (op : AmoOp) (f : (n : Nat) → BitVec n → BitVec n → BitVec n) (cmp : Word) : Prop :=
          gives 4 (i true) op (f 32) cmp ∧ gives 8 (i false) op (f 64) cmp
        both (fun w => .qamoswap d a b w acq rel sc) .swap (fun _ _ y => y) (rdX s 0)
        ∧ both (fun w => .qamoadd d a b w acq rel sc) .add (fun _ x y => x + y) (rdX s 0)
        ∧ both (fun w => .qamoxor d a b w acq rel sc) .xor (fun _ x y => x ^^^ y) (rdX s 0)
        ∧ both (fun w => .qamoand d a b w acq rel sc) .and (fun _ x y => x &&& y) (rdX s 0)
        ∧ both (fun w => .qamoor d a b w acq rel sc) .or (fun _ x y => x ||| y) (rdX s 0)
        ∧ both (fun w => .qamomin d a b w acq rel sc) .min (fun _ x y => if y.slt x then y else x) (rdX s 0)
        ∧ both (fun w => .qamomax d a b w acq rel sc) .max (fun _ x y => if x.slt y then y else x) (rdX s 0)
        ∧ both (fun w => .qamominu d a b w acq rel sc) .minu (fun _ x y => if y.ult x then y else x) (rdX s 0)
        ∧ both (fun w => .qamomaxu d a b w acq rel sc) .maxu (fun _ x y => if x.ult y then y else x) (rdX s 0)
        ∧ both (fun w => .qamocas d a b c w acq rel sc) .cas (fun n x y => if x = (rdX s c).setWidth n then y else x) (rdX s c)))
  ∧ ∀ (s : State) (d a b c : Reg) (w acq rel : Bool) (sc : Scope) (v : Word), replied s v = true →
    let gives (i : Instr) : Prop := exec i s = .next (after (lateX (begun s 8) d (if w then (v.setWidth 32).signExtend 64 else v)) 8)
    gives (.qamoswap d a b w acq rel sc) ∧ gives (.qamoadd d a b w acq rel sc) ∧ gives (.qamoxor d a b w acq rel sc) ∧ gives (.qamoand d a b w acq rel sc)
    ∧ gives (.qamoor d a b w acq rel sc) ∧ gives (.qamomin d a b w acq rel sc) ∧ gives (.qamomax d a b w acq rel sc) ∧ gives (.qamominu d a b w acq rel sc)
    ∧ gives (.qamomaxu d a b w acq rel sc) ∧ gives (.qamocas d a b c w acq rel sc)

/-- Signal words and barriers (spec 14 R314 to R319). SSIG adds and SSET stores, at once in local store or hive scratchpad and on
its way in HBM, as a release; SWAIT, an acquire, gives the word where its signed condition holds, and parks on the word where it
does not. A BAR arrives and parks (at the levels die and package only in a launch with COR, 14 R317); an episode completes when
every participant has arrived, and each then goes on past its BAR, with what all did before it ordered before (13 R305). A limit
that passes traps WAIT_LIMIT. -/
def Obligations.SignalsAndBarriers : Prop :=
  ∀ (s s1 : State) (d a b c : Reg) (cond : Cond) (sc : Scope) (level : BarLevel) (limit : BitVec 13) (k cell : Nat),
    (calm s = true → quiet s = true →
      let key (t : State) : Nat := barKey t level s.me.gang
      (resolve (begun s 8) .atomic (rdX s a) 8 rAtomic 8 = .ok (s1, .key k) →
        (isHbm k = false → exec (.ssig a b sc) s = .next (after (amoSync s1 (.cell s.cur) none k .add 8 (rdX s b) 0 false true sc).1 8)
          ∧ exec (.sset a b sc) s = .next (after (amoSync s1 (.cell s.cur) none k .swap 8 (rdX s b) 0 false true sc).1 8))
        ∧ (isHbm k = true → exec (.ssig a b sc) s = .next (after (post s1 k (rdX s a) (.amo .add 8 (rdX s b) 0 .none) { rel := true, sc }) 8)
          ∧ exec (.sset a b sc) s = .next (after (post s1 k (rdX s a) (.amo .swap 8 (rdX s b) 0 .none) { rel := true, sc }) 8)))
      ∧ (resolve (begun s 8) .load (rdX s a) 8 rRead 8 = .ok (s1, .key k) → s.me.since = none →
          let w : Word := BitVec.ofNat 64 (s1.readNat k 8)
          let v := rdX s b
          let holds : Bool := match cond with
            | .eq => w == v | .ne => w != v | .lt => w.slt v | .le => w.sle v | .gt => v.slt w | .ge => v.sle w
          let s2 := (s1.modMe fun v => { v with reply := none, stage := 0 }).acquire s1.cur k 8 sc
          (holds = true → exec (.swait d a b c cond sc) s = .next (after (lateX s2 d w) 8))
          ∧ (holds = false → (c = 0 ∨ rdX s c ≠ 0) → exec (.swait d a b c cond sc) s = .next
              (waiting (setLimit s2 (if c = 0 then none else some (rdX s c).toNat) (rdX s a)) (.signal k false))))
      ∧ (s.myLaunch.hdr.cor = false → level = .die ∨ level = .pkg → exec (.bar level limit) s = .next (trapped (begun s 8) 8 0x12 (BitVec.ofNat 64 (Machine.BarLevel.num level))))
      ∧ (s.myLaunch.hdr.cor = true ∨ level = .gang ∨ level = .hive →
          let u := parkCell (setLimit (barArrive (begun s 8) level (key s) (s.me.gang, s.me.j)) (limitUs limit.toNat) 0) s.cur (.bar level limit.toNat)
          exec (.bar level limit) s = .next (barCheck u level (key s))))
    ∧ (∀ (e : Episode) (n : Nat), (s.bars.find? fun e => e.level == level && e.key == n) = some e →
        ((participants s level n).all (fun p => e.arrived.contains p) = true → barCheck s level n =
          e.arrived.foldl (fun s p => barRelease s p level) { s with bars := s.bars.filter fun e => !(e.level == level && e.key == n) })
        ∧ ((participants s level n).all (fun p => e.arrived.contains p) = false → barCheck s level n = s))
    ∧ (∀ g j n, (s.gang g).saved = none → (s.gang g).cells[j]? = some cell → (s.cell cell).run = .parked (.bar level n) →
        barRelease s (g, j) level = (finishCell s cell ((s.cell cell).pc + 8)).modCell cell (Cell.orderAll s.stamp))
    ∧ (∀ cl x, Tab.find s.cells cell = some cl → cl.limit = some x →
        let t (u : State) : State := trapParked (u.timeTo (cl.since.getD u.qtime + x.1)) cell cWAIT_LIMIT x.2
        (∀ n, cl.run = .parked (.bar level n) → exec (.barLimit cell) s = .next (t (barWithdraw s (cl.gang, cl.j))))
        ∧ (cl.run = .parked (.signal k false) → exec (.swaitLimit cell) s = .next (t s))
        ∧ (cl.run = .parked (.signal k true) → exec (.vsetvlwLimit cell) s = .next (t s))
        ∧ (cl.run = .parked (.frame k) → exec (.frmwaitLimit cell) s = .next (t s))
        ∧ (cl.run = .parked (.word k) → exec (.ldfeLimit cell) s = .next (t { s with feq := s.feq.filter fun e => !(e.cell == cell && e.gang == cl.gang) }))
        ∧ (cl.run = .parked (.wgsend k) → exec (.wgsendLimit cell) s = .next (t { s with wgq := s.wgq.filter fun e => e.cell != cell }))
        ∧ (cl.run = .parked .wgrecv → exec (.wgrecvLimit cell) s = .next (t s)))

/-- Tagged words and waggles (spec 14 R320 to R326). LDFE of a full word gives it and empties it (LDFE.K leaves it full), and of
an empty one parks the cell at the word's home; STFE fills an empty word and is refused at a full one, which STFE.F overwrites;
FEPROBE and FESET read and set the tag. WGSEND puts a waggle at the end of a mailbox with room; WGRECV takes the oldest, or parks.
STFE and WGSEND release, LDFE and WGRECV acquire (13 R294); WGPEEK counts them. -/
def Obligations.TaggedWordsAndWaggles : Prop :=
  ∀ (s : State) (d a b c : Reg) (off : BitVec 12) (limit : BitVec 15) (k : Nat), calm s = true → quiet s = true → s.me.since = none →
    let u := begun s 8
    let ea := rdX s a + off.signExtend 64
    let lim : Option Nat := if c = 0 then none else some (rdX s c).toNat
    let home (need : Nat) : Prop := taggedWord u ea need = .ok (.key k)
    let acquired : State := u.acquire s.cur k 8 (homeScope s.cur k)
    let ldfe (i : Instr) (keep : Bool) : Prop := home rRead →
      (s.full k = true → exec i s = .next (after (lateX (if keep then acquired else acquired.writeTag (.cell s.cur) k false) d (BitVec.ofNat 64 (s.readNat k 8))) 8))
      ∧ (s.full k = false → exec i s = .next (waiting { setLimit u lim ea with feq := s.feq ++ [{ key := k, keep, cell := s.cur, gang := s.me.gang, remote := none }] } (.word k)))
    let filled : State := feSatisfy (((u.write (.cell s.cur) none k (leBytes (rdX s b).toNat 8)).released (.cell s.cur) k 8 (homeScope s.cur k)).setFull k true) k
    ldfe (.ldfe d a c off) false ∧ ldfe (.ldfeK d a c off) true
    ∧ (home rWrite →
        (s.full k = false → exec (.stfe a b off) s = .next (after filled 8))
        ∧ (s.full k = true → exec (.stfe a b off) s = .next (after (pendAsync u s.cur { cause := cREMOTE_NACK_ASYNC, tval := ea }) 8))
        ∧ exec (.stfeF a b off) s = .next (after filled 8)
        ∧ exec (.fesetE a off) s = .next (after (u.writeTag (.cell s.cur) k false) 8)
        ∧ exec (.fesetF a off) s = .next (after (feSatisfy (u.writeTag (.cell s.cur) k true) k) 8))
    ∧ (home rRead → exec (.feprobe d a off) s = .next (after (lateX u d (if s.full k then 1 else 0)) 8))
    ∧ (∀ (t : Cell) (w : Waggle), (rdX s a).toNat < 2 ^ 13 → Tab.find s.cells (rdX s a).toNat = some t → (s.launch (s.gang t.gang).launch).part = s.myLaunch.part →
        w = { lo := BitVec.ofNat 64 ((rdX s b).toNat % 2 ^ 32 + s.cur * 2 ^ 32), value := rdX s c, sync := u.syncFor (rdX s a).toNat (.cell s.cur) .pkg } →
        dieOfCell (rdX s a).toNat = dieOfCell s.cur ∨ s.lost.contains (dieOfCell (rdX s a).toNat) = false →
        (t.mbox.length < 16 → (∀ e ∈ s.wgq, e.target ≠ (rdX s a).toNat) → exec (.wgsend a b c limit) s = .next (after (deliverWaggle u (rdX s a).toNat w) 8))
        ∧ (16 ≤ t.mbox.length → exec (.wgsend a b c limit) s = .next (waiting { setLimit u (limitUs limit.toNat) (rdX s a) with
            wgq := s.wgq ++ [({ target := (rdX s a).toNat, cell := s.cur, gang := s.me.gang, wag := w } : WgWait)] } (.wgsend (rdX s a).toNat))))
    ∧ (∀ w rest, s.me.mbox = w :: rest → (∀ e ∈ s.wgq, e.target ≠ s.cur) →
        exec (.wgrecv d limit) s = .next (after (lateX (lateX (u.modMe fun v => w.acquire s.cur { v with mbox := rest }) d w.lo) (d + 1) w.value) 8))
    ∧ (s.me.mbox = [] → exec (.wgrecv d limit) s = .next (waiting (setLimit u (limitUs limit.toNat) 0) .wgrecv))
    ∧ exec (.wgpeek d) s = .next (after (setXLate u d (BitVec.ofNat 64 s.me.mbox.length) 1) 8)

/-- TCOPY, TCOPY.ST and TCOPY.MC at issue (spec 10 R233 to R239, R243, R245): a copy whose descriptor is valid and whose two
sides pass their checks enters its core's engine behind the copies already there, with the operands and the descriptor as they
stand, and its cell goes on; a frame copy at once reserves a slot where one is free. FRMINIT, FRMWAIT and FRMFREE (spec 10 R244)
at a header of a frame in local store. FRMINIT writes NSLOT, SLOTU and all slots free; FRMWAIT takes the oldest filled slot and
gives its address, or parks where none is filled; FRMFREE counts one more free slot unless every slot is accounted for. -/
def Obligations.TileCopiesAndFrames : Prop :=
  (∀ (s s1 : State) (a b cr d : Reg) (act : CopyAct) (sig : Option Scope) (ord : Bool) (dva k n : Nat) (bytes : List Byte), calm s = true → quiet s = true →
     let u := begun s 8
     let ea := rdX s a
     let core := coreOf s.cur
     segCheck s.myGang ea 64 rRead = .ok dva → ea.toNat % 64 = 0 →
     (dva % 65536 + 64 ≤ 65536 → resolveDva u .load ea dva 64 none 0 = .ok (s1, .key k) → (s1.writesAfter s1.me.floor k 64).isEmpty = true →
       ∃ t n, loadBlock u ea dva 64 0 = .ok (t, s1.read k 64, n))
     ∧ (loadBlock u ea dva 64 0 = .ok (s1, bytes, n) → (s.core core).copies.length < 32 →
     ((s.core core).copies.filter fun x => x.cell == s.cur && x.gang == s.me.gang).length < 16 →
     let enters (q : Q64) (i : Instr) : Prop :=
       let xd := rdX s q.d
       let xd1 := rdX s (q.d + 1)
       let held : Bool := q.imm.getLsbD 3 || s.me.copyFenced
       let c : Copy := { id := s.nextId, cell := s.cur, gang := s.me.gang, enc := q.pack, xa := ea, xb := rdX s b, xc := rdX s q.c, xd, xd1,
                         desc := bytes, asid := s.myLaunch.asid, launch := s.myGang.launch, held, hold := s.nextId
                         floor := if held then s.me.floor else s.me.start, known := if held then s.me.known else [] }
       let need := if c.out then rRead + rCopy else rWrite + rCopy
       c.td.ok = true → tensorSide s1 c.td (if c.out then rWrite + rCopy else rRead + rCopy) = .ok () →
       (c.act = 3 → ∃ key, frameHeader s1 xd = .ok key ∧ frameBad s1 key = false ∧ c.td.size ≤ frGet s1 key 2 * 64
         ∧ tileSide s1 (xd + 64) (frGet s1 key 0 * frGet s1 key 2 * 64) need c.td = .ok ()) →
       (c.act ≠ 3 → tileSide s1 c.xc c.td.size need c.td = .ok () ∧ (c.mc = true → multicastOperand s1 c.xc xd = .ok () ∧ (c.act = 1 → signalOperand s1 xd1 = .ok ()))
         ∧ (c.mc = false → (c.act = 1 → signalOperand s1 xd = .ok ()) ∧ (c.act = 2 → waggleOperand s1 xd = .ok ()))) →
       exec i s = .next (after (enterFrame { s1.modCore core fun v => { v with copies := v.copies ++ [c] } with nextId := s1.nextId + 1 } core c) 8)
     enters (copyQ a b act ord false) (.tcopy a b act ord) ∧ enters (copyQ a b act ord true) (.tcopySt a b act ord)
     ∧ enters (qs 0x18 1 d a b cr (match sig with | some sc => copyImm sc.code ord false 1 | none => copyImm 0 ord false 0)) (.tcopyMc a b cr d sig ord)))
  ∧ (∀ (s : State) (d a b : Reg) (limit : BitVec 15), calm s = true → quiet s = true →
     let u := begun s 8
     let ea := rdX s a
     let key := ls7Key s.myGang ea
     let n := bits (rdX s b).toNat 15 0
     let w := bits (rdX s b).toNat 31 16
     ea.toNat % 64 = 0 → bits ea.toNat 63 61 = 7 → bits ea.toNat 60 0 + 64 ≤ s.myGang.hdr.lsu * 4096 →
     (bits (rdX s b).toNat 63 32 = 0 → 1 ≤ n → n ≤ 256 → 1 ≤ w → w ≤ 4096 → (∃ dva, segCheck s.myGang ea (64 + n * w * 64) rWrite = .ok dva) →
       ((∀ c ∈ (s.core (coreOf s.cur)).copies, c.gang = s.me.gang → c.frame s ≠ some key) →
         exec (.frminit a b) s = .next (after (u.write (.cell s.cur) none key (leBytes n 2 ++ leBytes w 2 ++ leBytes n 2 ++ zeros 58)) 8))
       ∧ ((∃ c ∈ (s.core (coreOf s.cur)).copies, c.gang = s.me.gang ∧ c.frame s = some key) → exec (.frminit a b) s = .next (waiting u (.frame key))))
     ∧ (frameBad s key = false →
         (frGet s key 6 ≠ 0 → exec (.frmwait d a limit) s = .next (after
           (lateX (frSet (frSet (u.acquire s.cur key 64 .gang) (.cell s.cur) key 6 (frGet s key 6 - 1)) (.cell s.cur) key 0xA ((frGet s key 0xA + 1) % frGet s key 0)) d
             (ea + BitVec.ofNat 64 (64 + frGet s key 0xA * frGet s key 2 * 64))) 8))
         ∧ (frGet s key 6 = 0 → exec (.frmwait d a limit) s = .next (waiting (setLimit u (limitUs limit.toNat) ea) (.frame key)))
         ∧ (frGet s key 4 + frGet s key 6 < frGet s key 0 → exec (.frmfree a) s = .next (after ((frSet u (.cell s.cur) key 4 (frGet s key 4 + 1)).released (.cell s.cur) key 64 .gang) 8))
         ∧ (frGet s key 0 ≤ frGet s key 4 + frGet s key 6 → exec (.frmfree a) s = .next (after u 8))))

/-- The steps of a copy in the engine (spec 10 R237, R239, R240, R243, R245, R247). The first queued copy starts while fewer
than eight run, reading its rows, or waiting for its cell's accesses where ORD or a fence holds it; a running one has moved when
its rows stand at their destination, and completes once the accesses of its cell before it are performed (13 R291) and the
earlier fills of its frame are done: it leaves the engine and performs its action (a signal word loses 1, a waggle goes to a
mailbox with room, a frame has one more filled slot); the first copy that waits for a slot takes one that came free; one that
fails performs no action, gives its slot back and is reported to its cell, or kills its gang. Words that change while a copy
reads them are taken early or late by a free choice (log 22). -/
def Obligations.TileCopyEngine : Prop :=
  ∀ (s : State) (core i : Nat) (c : Copy), (s.core core).copies[i]? = some c →
    let run := (s.core core).copies.filter fun x => x.runs s (s.core core)
    let started : Copy := ({ c with st := 1 } : Copy).ready s
    let noted (c1 : Copy) (e : Option CopyStop) : State := if c.out then s else noteRows s c1 0 c1.data.length e
    (c.st = 0 → ((s.core core).copies.take i).all (fun x => x.st != 0) = true → run.length < 8 →
      (heldBack s c = true → exec (.copyStart core i) s = .next (setCopy s core { c with st := 1 }))
      ∧ (heldBack s c = false → ∀ c1 e, fetchRows s started (List.range c.td.rows) = (c1, e) → (∀ kind dva flags cow, e ≠ some (.wait kind dva flags cow)) →
          exec (.copyStart core i) s = .next { setCopy (noted c1 e) core c1 with freeCtr := (noted c1 e).freeCtr + 1 })
      ∧ (heldBack s c = false → ∀ c1 kind dva flags cow, fetchRows s started (List.range c.td.rows) = (c1, some (.wait kind dva flags cow)) →
          let t := noted c1 (some (.wait kind dva flags cow))
          exec (.copyStart core i) s = .next (parkCopy { t with freeCtr := t.freeCtr + 1 } core c1 kind dva flags cow)))
    ∧ (c.st = 1 → heldBack s c = false → behindEarlier s (s.core core) c = false → ∀ s1 c1, moveCopy s c = (s1, c1, none) →
        let s2 : State := { setCopy s1 core c1 with freeCtr := s1.freeCtr + 1 }
        (behindAction s2 (s2.core core) c1 = true → exec (.copyComplete core i) s = .next s2)
        ∧ (behindAction s2 (s2.core core) c1 = false → ∀ s3, completeAction (noteAction s2 core c1) core c1 = .ok s3 → exec (.copyComplete core i) s = .next s3))
    ∧ (c.act = 0 → completeAction s core c = .ok (dropCopy s core c))
    ∧ (∀ k, c.act = 1 → look s c.gang .atomic (eaDva (s.gang c.gang) (if c.mc then c.xd1 else c.xd)) 8 = .key k → s.cutOff (dieOf core) (.key k) = false →
        let less (hive : Option Nat) : State := (amoSync s (.engine c.cell) hive k .add 8 (BitVec.allOnes 64) 0 false true c.sc).1
        (isHbm k = true → s.refusedIn k 8 = none → completeAction s core c = .ok (dropCopy (less (some (hiveOf (s.gang c.gang).core))) core c))
        ∧ (isHbm k = false → isLs k = true → lsCore k = (s.gang c.gang).core → completeAction s core c = .ok (dropCopy (less none) core c)))
    ∧ (∀ t, c.act = 2 → Tab.find s.cells (bits c.xd.toNat 12 0) = some t →
        (t.mbox.length < 16 → behindWaggle (s.core core) c = false →
          completeAction s core c = .ok (dropCopy (deliverWaggle s (bits c.xd.toNat 12 0) (c.waggle s)) core c)
          ∧ (c.st = 3 → exec (.copyWaggleDelivered core i) s = .next (dropCopy (deliverWaggle s (bits c.xd.toNat 12 0) (c.waggle s)) core c)))
        ∧ (16 ≤ t.mbox.length → c.st ≠ 3 → completeAction s core c = .ok { setCopy s core { c with st := 3, acted := s.nextId } with nextId := s.nextId + 1 }))
    ∧ (∀ key, c.act = 3 → c.frame s = some key → completeAction s core c = .ok (dropCopy ((frSet s (.engine c.cell) key 6 (frGet s key 6 + 1)).released (.engine c.cell) key 64 c.sc) core c)
        ∧ (c.st = 2 → 0 < frGet s key 4 → earlierFill s (s.core core) c (fun x => x.st == 2) = false →
            exec (.frameSlotReserve core i) s = .next (reserveSlot s core key c)))
    ∧ (∀ why s1 c1, c.st = 1 → heldBack s c = false → behindEarlier s (s.core core) c = false → (∀ d n, why ≠ .fabric d n) → moveCopy s c = (s1, c1, some (.fail why)) →
        exec (.copyFailure core i why) s = .next (failCopy (setCopy s1 core c1) core c1 why))
    ∧ (∀ dva station home, c.st = 1 → heldBack s c = false → c.moved = false → fabricAt s c dva = some home →
        let t := match home with | .peer _ => stationError s station | _ => s
        s.cutOff (dieOf core) (look t c.gang (if c.out then .copyWrite else .copyRead) dva.toNat 1) = false →
        exec (.copyFailure core i (.fabric dva station)) s = .next (killPlain (dropCopy (returnSlot t c) core c) c.gang 0x84 dva c.cell))

/-- LAUNCH, LAUNCH.NB and ICINV (spec 03 R76 to R81; 05 R113 to R116), and the end of a launch (03 R73 to R75). With a queue that
the selector allows, a header that passes its checks and a free ring slot that can be written, a LAUNCH packet stands in the slot,
QWR rises by one and its old value is the result; on a full ring LAUNCH waits, and goes on with that when it is woken, its checks
made; LAUNCH.NB gives all ones. ICINV drops the lines of its range on the partition's hives, waits for the acknowledgements, and
then completes. A launch whose work has ended, with no signal of a MOPA left to perform (11 R268), completes with its record, CSIG and PSIG,
in that order; the record tells the time at which it is written. -/
def Obligations.LaunchAndInvalidate : Prop :=
  ∀ (s s1 : State) (d a b : Reg) (key dva lid cell : Nat),
    (calm s = true → quiet s = true →
      let u := begun s 8
      let past := u.modMe fun v => { v with stage := 1 }
      let q := s.queue key
      let start := (rdX s a).toNat
      let len := (rdX s b).toNat
      (launchTarget u (rdX s b) = some key → segCheck s.myGang (rdX s a) 256 rRead = .ok dva → dva % 64 = 0 → bit dva 56 = false → q.qwr < 2 ^ 64 →
        (q.qwr - q.qrd < q.ring → appendSlot past q (rdX s b) (launchPacketOf dva) = .ok s1 → s1.me.csr.hoqen = 0 →
          let t := lateX (s1.modQueue key fun q => { q with qwr := q.qwr + 1, floor := s1.stamp }) d (BitVec.ofNat 64 q.qwr)
          exec (.launch d a b) s = .next (after t 8) ∧ exec (.launchNb d a b) s = .next (after t 8))
        ∧ (q.ring ≤ q.qwr - q.qrd → exec (.launch d a b) s = .next (waiting past (.queue key))
            ∧ exec (.launchNb d a b) s = .next (after (lateX past d (BitVec.allOnes 64)) 8)))
      ∧ (start < 2 ^ 56 → start + len ≤ 2 ^ 57 →
          (len = 0 → exec (.icinv a b) s = .next (after u 8))
          ∧ (len ≠ 0 → exec (.icinv a b) s = .next (waiting (dropLines u (asidOf u s.myLaunch.part) (fun h => s.partOfHive h == some s.myLaunch.part)
              (start / 64 * 64) ((start + len - 1) / 64 * 64)) (.icinv (start / 64 * 64) ((start + len - 1) / 64 * 64))))))
    ∧ (calm (s.modMe fun v => { v with stage := 0 }) = true → quiet s = true → s.me.stage = 1 → key = selectedQueue s (rdX s b) →
      let u := (begun s 8).modMe fun v => { v with stage := 1 }
      let q := s.queue key
      q.qwr < 2 ^ 64 → q.qwr - q.qrd < q.ring → appendSlot u q (rdX s b) (launchPacketOf (eaDva s.myGang (rdX s a))) = .ok s1 → s1.me.csr.hoqen = 0 →
        exec (.launch d a b) s = .next (after (lateX (s1.modQueue key fun q => { q with qwr := q.qwr + 1, floor := s1.stamp }) d (BitVec.ofNat 64 q.qwr)) 8))
    ∧ (∀ x y, (s.cell cell).run = .parked (.icinv x y) → exec (.icinvAcknowledged cell) s = .next (finishCell s cell ((s.cell cell).pc + 8)))
    ∧ (∀ l : Launch, Tab.find s.launches lid = some l → l.st ≠ .complete → launchEnded s lid = true → launchRemotes s lid = false →
        let t := (performAll { s with posted := s.posted.filter fun p => p.launch != lid } (s.posted.filter fun p => p.launch == lid)).modLaunch lid fun l => { l with st := .complete }
        let word (d : Nat) (b : CompWord) : List (Nat × CompWord) := if d = 0 then [] else [(d, b)]
        (launchMopas s lid = true → exec (.launchComplete lid) s = .next s)
        ∧ (launchMopas s lid = false → exec (.launchComplete lid) s = .next (compRun compDone { t with nextId := t.nextId + 1 }
            { id := t.nextId, asid := l.asid, part := l.part, crec := l.hdr.crec, die := l.die s, irq := l.irq, launch := some lid
              writes := word l.hdr.crec.toNat .record ++ word l.hdr.csig.toNat .less ++ word l.psig.toNat .less })))
    ∧ ∀ (c : CompWrite) (at_ : Nat), c.launch = some lid →
        let t := noteUnit s.tick c.die c.asid at_ 64 .store
        oneWrite s c (at_, .record) = (t, unitWrite t c.die c.asid at_ (launchRecord (t.launch lid) t.qtime))
        ∧ (∀ now, (launchRecord (s.launch lid) now).length = 64 ∧ ((launchRecord (s.launch lid) now).drop 0x20).take 8 = leBytes now 8)

/-- RETIRE (spec 20 R398 to R400; 02 R51) of a cell with no copy left, no register empty and no trap pending: one more item is
counted. With SERIAL values left the cell starts its next item in the state of a fresh cell, keeping its mailbox, the count of its
faults and turns, and what orders its accesses; otherwise it
halts, and the gang retires when its last cell has ended. A cell with a copy left waits. -/
def Obligations.Retirement : Prop :=
  ∀ s : State, calm s = true →
    let u := begun s 8
    let t := countItem u
    let halted := (haltCell t).modGang s.me.gang fun g => { g with claim := none, plain := true }
    (copiesLeft u s.cur = true ∨ allFull u s.cur = false → exec .retire s = .next (waiting u .copies))
    ∧ (copiesLeft u s.cur = false → allFull u s.cur = true → s.me.asyncs = [] →
        (∀ w, nextWid t = some w → exec .retire s = .next { restart t w with freeCtr := (restart t w).freeCtr + 1 }
          ∧ (restart t w).me = s.me.keepView { cellAt s.me.gang s.me.j t.myGang.hdr (BitVec.ofNat 64 w) with mbox := s.me.mbox, faultSeq := s.me.faultSeq, turns := s.me.turns })
        ∧ (nextWid t = none → halted.me.run = .done
            ∧ (allEnded halted s.me.gang = false → exec .retire s = .next { barDepart halted s.me.gang with freeCtr := (barDepart halted s.me.gang).freeCtr + 1 })
            ∧ (allEnded halted s.me.gang = true → exec .retire s = .next { retireGang halted s.me.gang with freeCtr := (retireGang halted s.me.gang).freeCtr + 1 })))

/-- RETIRE.H and the hand-over to an heir (spec 20 R401 to R410), and the release of unloaded objects (20 R412 to R414). Until
the gang's last cell a RETIRE.H claims the heir and halts its cell; the last one, with a valid descriptor and header, orders the
hand-over, and one with an invalid descriptor traps HEIR_SHAPE with the field's place. The hand-over gives each cell of the heir
its predecessor's registers that the masks name. -/
def Obligations.HeirsAndObjects : Prop :=
  ∀ (s : State) (a : Reg) (dva gid handle : Nat),
    (calm s = true → 
      let u := begun s 8
      copiesLeft u s.cur = false → allFull u s.cur = true → s.me.asyncs = [] → segCheck s.myGang (rdX s a) 128 rRead = .ok dva → (rdX s a).toNat % 64 = 0 →
      nextWid u = none → (s.myGang.claim = none ∧ s.myGang.plain = false ∨ s.myGang.claim = some (BitVec.ofNat 64 dva)) →
      let v := u.modGang s.me.gang fun g => { g with claim := some (BitVec.ofNat 64 dva) }
      let ended (t : State) : State := { t with freeCtr := t.freeCtr + 1 }
      ((∃ c ∈ s.myGang.cells, c ≠ s.cur ∧ (s.cell c).run ≠ .done) → exec (.retireH a) s = .next (ended (haltCell (countItem v))))
      ∧ ((∀ c ∈ s.myGang.cells, c ≠ s.cur → (s.cell c).run = .done) → ∀ t d h, readHeir v (rdX s a) dva = .ok (t, d, h) →
          (∀ o, heirBad d = some o → exec (.retireH a) s = .next (commit 8 (heirFail t 1 o)))
          ∧ (heirBad d = none → ∀ code x, heirTest t s.me.gang d h = some (code, x) → exec (.retireH a) s = .next (commit 8 (heirFail t code x)))
          ∧ (heirBad d = none → heirTest t s.me.gang d h = none → exec (.retireH a) s = .next (ended ((haltCell (countItem t)).modGang s.me.gang fun g =>
              { g with ordered := g.st == .landing, st := .handover, heir := some (d, heirHdr g.hdr h) })))))
    ∧ (∀ d h, (s.gang gid).heir = some (d, h) → (s.gang gid).st = .handover → handoverBusy s gid = false → exec (.heirHandover gid) s = .next (handOver s gid d h))
    ∧ (∀ (d : List Byte) (h : Hdr) (c : Cell) (i : Fin 32),
        let n := cellAt gid c.j h (BitVec.ofNat 64 (heirWid h d c.wid))
        (heirCell gid d h c).x[i] = (if bit (dsc d 8 4) i then c.x[i] else n.x[i]) ∧ (heirCell gid d h c).f[i] = (if bit (dsc d 0xC 4) i then c.f[i] else n.f[i])
        ∧ (heirCell gid d h c).v[i] = (if bit (dsc d 0x10 4) i then c.v[i] else n.v[i]) ∧ (heirCell gid d h c).mbox = c.mbox ∧ (heirCell gid d h c).csr = n.csr)
    ∧ (∀ (o : Obj) (g : Nat), Tab.find s.objects handle = some o → o.ugen = some g → noOlder s o g = true →
        (o.unmapped = true → exec (.objectRangeRelease handle) s = .next { s with objects := Tab.del s.objects handle })
        ∧ (o.gen = true → o.unmapped = false → exec (.generationUnmap handle) s = .next ((unmapObject s o).modObj handle fun o => { o with unmapped := true })))

/-- BFORK (spec 16 R339 to R344): with a valid descriptor and template, a copy-on-write region that is present, views that are not,
and a free entry, it gives the handle of a new brood, which runs with one PENDING sibling for each of its group, and each sibling's
launch is taken. BJOIN, BKILL and BSTAT (spec 16 R348 to R357). A BJOIN of a sibling deposits its reward, or an abstention, once,
and the brood completes with the last deposit; a waiting one has its advantage then, an acquire (spec 13 R294), and parks before.
BKILL cancels the PENDING siblings it names and gives their number; BSTAT gives the brood's summary, as an acquire, or a sibling's
word; a stale handle reads as zero and cannot be killed. The deadline cancels every PENDING sibling with TIMEOUT. -/
def Obligations.Broods : Prop :=
  (∀ (s s1 s2 s3 : State) (d a : Reg) (dva n1 n2 e : Nat) (dsc tm : List Byte) (phys : List Nat), calm s = true → quiet s = true → s.cur < 8192 →
     let ea := rdX s a
     let u (o n : Nat) : Nat := leNat ((dsc.drop o).take n)
     let die := dieOfCell s.cur
     let slots := (List.range (u 2 2)).flatMap fun i => phys.zipIdx.map fun p => (level4At s3 s.myLaunch.asid (u 0x18 8 + i * u 0x20 8 + 65536 * p.2), p.1)
     let h := die * 2 ^ 30 + Tab.getD s.bgen (die * 4096 + e) 1 * 4096 + e
     segCheck s.myGang ea 256 rRead = .ok dva → ea.toNat % 64 = 0 → loadBlock (begun s 8) ea dva 256 0 = .ok (s1, dsc, n1) → broodBad dsc = none →
     loadBlock s1 (BitVec.ofNat 64 (u 0x68 8)) (u 0x68 8) 256 n1 = .ok (s2, tm, n2) →
     seen ((begun s 8).modMe fun c => { c with got := s2.me.got }) s2 → templateBad (u 2 2) (u 6 1) (hdrOf tm) = none →
     ((s.myGang.segment (u 7 1)).1.toNat + u 8 8) % 65536 = 0 → cowPieces s2 (u 7 1) (u 8 8) (List.range (u 0x10 8 / 65536)) = .ok (s3, phys) →
     (∀ v ∈ slots, ∃ k, v.1 = some k ∧ pteV (s3.readNat k 8) = false) → freeEntry s3 die = some e → Tab.getD s.bgen (die * 4096 + e) 1 < 2 ^ 18 →
     ∃ t b, exec (.bfork d a) s = .next (after (lateX t d (BitVec.ofNat 64 h)) 8) ∧ t.brood h = some b ∧ b.st = .running ∧ b.desc = dsc
       ∧ b.part = s.myLaunch.part ∧ b.asid = s.myLaunch.asid ∧ b.sibs.length = u 2 2 ∧ (∀ x ∈ b.sibs, x.status = 0 ∧ x.launch.isSome = true)
       ∧ t.me.x = s.me.x ∧ t.me.f = s.me.f)
  ∧ (∀ (s : State) (d a b : Reg) (h no : Nat), calm s = true → quiet s = true →
     let u := begun s 8
     (s.myLaunch.sib = some (h, no) →
       let t (r : Option W32) : State := deposit u h no r
       exec (.bjoin a) s = .next (after (t (some (rdF s a))) 8) ∧ exec .bjoinAb s = .next (after (t none) 8)
       ∧ ∀ r (i : Instr), (i = .bjoinW d a ∧ r = some (rdF s a)) ∨ (i = .bjoinAbW d ∧ r = none) →
           (∀ x, (t r).brood h = some x → x.st ≠ .complete → exec i s = .next (waiting (t r) (.bjoin h d)))
           ∧ (∀ x, (t r).brood h = some x → x.st = .complete → exec i s = .next (after (lateF ((t r).modMe (Cell.orderAll (t r).stamp)) d (x.sibAt no).adv) 8))
           ∧ ((t r).brood h = none → exec i s = .next (after (lateF (t r) d 0) 8)))
     ∧ (s.myLaunch.sib = none → exec (.bjoin a) s = .next (trapped u 8 0x11 7) ∧ exec .bjoinAb s = .next (trapped u 8 0x11 7))
     ∧ (∀ x : Brood, s.brood h = some x → x.st ≠ .complete → (x.sibAt no).status = 0 →
         let put (w : W32) (st : Nat) : State := s.modBrood h fun x => { x with sibs := x.sibs.modify no fun y => { y with status := st, reward := w } }
         ∀ r : W32, (bits r.toNat 30 23 ≠ 255 → deposit s h no (some r) = broodComplete (put r 1) h) ∧ (bits r.toNat 30 23 = 255 → deposit s h no (some r) = broodComplete (put r 5) h))
     ∧ (∀ x : Brood, s.brood h = some x → x.final = false → broodComplete s h = s)
     ∧ (∀ x : Brood, rdX s a = BitVec.ofNat 64 h → 0 < h → h < 2 ^ 32 → s.brood h = some x → x.part = s.myLaunch.part →
         let n := (rdX s b).toNat
         let all := cancelAll u h 7 (List.range x.sibs.length)
         let one := cancelAll u h 7 [n]
         exec (.bkillAll d a) s = .next (after (defer all.1 (.x d) all.2) 8)
         ∧ (n < x.g → exec (.bkill d a b) s = .next (after (defer one.1 (.x d) one.2) 8) ∧ exec (.bstatSib d a b) s = .next (after (defer u (.x d) (sibWord u (x.sibAt n))) 8))
         ∧ (x.g ≤ n → ∃ w, exec (.bkill d a b) s = .next (trapped u 8 0x11 w) ∧ exec (.bstatSib d a b) s = .next (trapped u 8 0x11 w))
         ∧ exec (.bstat d a) s = .next (after (defer (u.modMe (Cell.orderAll u.stamp)) (.x d) (broodSummary x)) 8))
     ∧ (rdX s a = BitVec.ofNat 64 h → 0 < h → h < 2 ^ 32 → s.brood h = none →
         exec (.bstat d a) s = .next (after (lateX u d 0) 8) ∧ ∃ w, exec (.bkillAll d a) s = .next (trapped u 8 0x11 w))
     ∧ (∀ (x : Brood) (t : Nat), s.brood h = some x → x.st = .running → x.clock = some t → x.u 0x38 8 ≠ 0 →
         exec (.broodDeadline h) s = .next (cancelAll (s.timeTo (t + (x.u 0x38 8 - x.time))) h 8 (List.range x.sibs.length)).1))

/-- Packets (spec 03 R62 to R71, R75; 20 R412). The dispatch unit takes the packet of the queue whose turn it is. A packet that
breaks R65 halts the queue with BADPKT, and one that the unit may not read with PKTFAULT. A packet that is taken and waits is the
one that was read then. A LAUNCH packet is past and its launch is taken, under a header each of whose words stood there at some moment since
the packet was produced (02 R44); SETSIG updates its word and completes; WAITSIG completes
where its condition holds and otherwise waits, is tested again, and halts the queue with WAITEXP when its limit passes; LOAD writes
its record; UNLOAD and FENCE wait for the queue's launches, and then complete. -/
def Obligations.Packets : Prop :=
  ∀ (s : State) (part q : Nat) (d h : List Byte),
    let key := queueKey part q
    let x := s.queue key
    let t0 := noteQueue (s.modDie x.die fun v => { v with qrr := key + 1 }) key (x.slot x.qrd) 128
    let t := t0.modQueue key fun v => { v with pkt := d }
    let due : Prop := q < 64 ∧ takeable s key = true ∧ dueQueue s x.die = some key ∧ readPacket s key = .ok d
    let arm (ty : Nat) : Instr := if ty = 1 then .launchPacket part q else if ty = 2 then .waitsig part q else if ty = 3 then .setsig part q
      else if ty = 4 then .loadPacket part q else if ty = 5 then .unload part q else .fencePacket part q
    let good (ty : Nat) : Prop := due ∧ badPacket d = false ∧ pkt d 0 1 = ty
    let noted (s : State) (n : Nat) : State := noteQueue s key (pkt d 0x10 8) n
    let word (s : State) (d : List Byte) : Except UStop (List Byte) := unitRead s x.die x.asid (pkt d 0x10 8) 8
    let holds (d w : List Byte) : Bool := sigCond (pkt d 0x18 1) (signedOf 64 (leNat w)) (signedOf 64 (pkt d 0x20 8))
    (∀ ty, due → badPacket d = true → exec (arm ty) s = .next (haltQueue t0 key 1))
    ∧ (∀ ty, q < 64 → takeable s key = true → dueQueue s x.die = some key → readPacket s key = .error .denied → exec (arm ty) s = .next (haltQueue t0 key 4))
    ∧ (good 1 → let u := noted t 256; unitRead u x.die x.asid (pkt d 0x10 8) 256 (some (t.queue key).floor) = .ok h →
        exec (.launchPacket part q) s = .next (takeLaunch (pastPacket { u with freeCtr := u.freeCtr + 1 } key) part key x.asid x.qrd
        (hdrOf h) (BitVec.ofNat 64 (pkt d 8 8)) (if pkt d 1 1 = 1 then some (pkt d 2 1) else none) none).1)
    ∧ (good 3 → ∀ s1, unitSignal (noteQueue t key (pkt d 0x10 8) 8 .atomic) x.die x.asid (pkt d 0x10 8) (pkt d 0x18 1 == 1) (BitVec.ofNat 64 (pkt d 0x20 8)) = .ok s1 →
        exec (.setsig part q) s = .next (packetDone s1 key d false []))
    ∧ (good 2 → ∀ w, word (noted t.tick 8) d = .ok w → (holds d w = true → exec (.waitsig part q) s = .next (packetDone (noted t.tick 8) key d true []))
        ∧ (holds d w = false → exec (.waitsig part q) s = .next ((noted t.tick 8).modQueue key fun v => { v with busy := .waitsig t.tick.qtime })))
    ∧ (∀ since w, let p := x.pkt; let u := noteQueue s key (pkt p 0x10 8) 8
        x.busy = .waitsig since → word u p = .ok w →
        (holds p w = true → exec (.waitsigSatisfied part q) s = .next (packetDone u key p true []) ∧ exec (.waitReread (.queue part q)) s = .next (packetDone u key p true []))
        ∧ (holds p w = false → exec (.waitReread (.queue part q)) s = .next (u.modQueue key fun v => { v with busy := .waitsig since })
            ∧ (pkt p 0x28 8 ≠ 0 → (Tab.find s.queues key).isSome = true → exec (.waitsigLimit part q) s =
                .next (haltQueue ((u.modQueue key fun v => { v with busy := .waitsig since }).timeTo (since + pkt p 0x28 8)) key 3))))
    ∧ (∀ cell k v, (s.cell cell).run = .parked (.signal k v) → exec (.waitReread (.cell cell)) s = .next (s.modCell cell fun v => { v with run := .ready }))
    ∧ (good 4 → (∀ o, pkt d 0x28 4 ≠ 0 → heldObject t part (pkt d 0x28 4) = some o → exec (.loadPacket part q) s =
            .next (packetDone (t.modObj (pkt d 0x28 4) fun o => { o with refs := o.refs + 1 }) key d true
              [(pkt d 0x20 8, .bytes (loadRecord (pkt d 0x28 4) { o with refs := o.refs + 1 }))]))
        ∧ (pkt d 0x28 4 ≠ 0 → heldObject t part (pkt d 0x28 4) = none → exec (.loadPacket part q) s = .next (haltQueue t key 2))
        ∧ (pkt d 0x28 4 = 0 → ∀ file s1 st r, let u := noted t (pkt d 0x18 8)
            unitRead u x.die x.asid (pkt d 0x10 8) (pkt d 0x18 8) = .ok file → loadObject u part x.asid (pkt d 0x2C 1 == 1) file = (s1, st, r) → exec (.loadPacket part q) s = .next (match r with
              | some (n, o) => packetDone s1 key d true [(pkt d 0x20 8, .bytes (loadRecord n o))]
              | none => packetDone { s1 with freeCtr := s1.freeCtr + 1 } key d true [(pkt d 0x20 8, .bytes (failRecord s1 st))])))
    ∧ (good 5 → (launchesLeft t key = true → exec (.unload part q) s = .next (t.modQueue key fun v => { v with busy := .waits }))
        ∧ (launchesLeft t key = false → heldObject t part (pkt d 0x10 4) = none → exec (.unload part q) s = .next (haltQueue t key 2))
        ∧ (launchesLeft t key = false → ∀ o, heldObject t part (pkt d 0x10 4) = some o → exec (.unload part q) s = .next (packetDone (dropRef t (pkt d 0x10 4)) key d true [])))
    ∧ (good 6 → (launchesLeft t key = true → exec (.fencePacket part q) s = .next (t.modQueue key fun v => { v with busy := .waits }))
        ∧ (launchesLeft t key = false → exec (.fencePacket part q) s = .next (packetDone t key d true [])))
    ∧ (x.busy = .waits → launchesLeft s key = false → let p := x.pkt
        (pkt p 0 1 = 6 → exec (.fencePacket part q) s = .next (packetDone s key p true []))
        ∧ ∀ o, pkt p 0 1 = 5 → heldObject s part (pkt p 0x10 4) = some o → exec (.unload part q) s = .next (packetDone (dropRef s (pkt p 0x10 4)) key p true []))

/-- Placement and landing (spec 04 R91 to R96; 18 R381, R382). A placement of a die commits the item that its choice names, counts
it for its partition and level, and gives the next turn to the partition after; nothing is placed outside READY or beyond 4,000
placements of a period; a new period starts the counts over. A cell that has had its 4,096 turns lands; a landed gang with nothing
under way is saved, holds no cell, keeps the images of its cells, and has its context block in HBM (18 R383; where it lies is the
model's choice, log 15). -/
def Obligations.PlacementAndLanding : Prop :=
  ∀ (s : State) (die cell gid step : Nat) (stops : List Nat),
    let s0 := (s.groups.map (·.1)).foldl rehome s
    let choice := (partOrder s0 die).findSome? fun p => (chooseIn s0 die p (candidates s0 (pending s0) p)).map fun e => (p, e)
    (bits (s.mreg 0).toNat 3 0 = 8 → (s.die die).total < 4000 →
      (∀ p i spots, choice = some (p, i, .fits spots) → exec (.placement die) s = .next (countPlacement (commitItem s0 i spots) die p (s0.launch (itemLaunch s0 i)).hdr.prio))
      ∧ (∀ p i gs, choice = some (p, i, .preempt gs) → exec (.placement die) s = .next ((preemptFor s0 i gs).modDie die fun d => { d with rr := (p + 1) % 16 }))
      ∧ (choice = none → exec (.placement die) s = .next (robOn s0 (pending s0) die)))
    ∧ (bits (s.mreg 0).toNat 3 0 ≠ 8 ∨ 4000 ≤ (s.die die).total → exec (.placement die) s = .next s)
    ∧ (∃ t, exec (.placementPeriod die) s = .next t ∧ t.dies = (s.modDie die fun d => { d with counts := [], total := 0 }).dies ∧ t.cells = s.cells ∧ t.gangs = s.gangs ∧ t.mem = s.mem
        ∧ t.share = (s.mgmt.filter fun e => decide (0x500 ≤ e.1) && decide (e.1 < 0x580)).map fun e => ((e.1 - 0x500) / 8, e.2))
    ∧ (∀ c, Tab.find s.cells cell = some c → c.run = .ready → (s.gang c.gang).st = .landing → 4096 ≤ c.turns → c.reply = none →
        exec (.forcedLanding cell stops step) s = .next (forceCell s cell stops step))
    ∧ (∀ g : Gang, Tab.find s.gangs gid = some g → g.st = .landing → allLanded s g = true → landingBusy s gid = false → moveRefused s gid = none →
        ∃ t v, exec (.gangSaveDone gid) s = .next t ∧ (t.gang gid).st = .saved ∧ (t.gang gid).cells = [] ∧ (t.gang gid).saved = some v
          ∧ v.cells = g.cells.map (fun c => { s.cell c with resv := none, early := [], earlyV := [] }) ∧ (t.gang gid).hdr = g.hdr
          ∧ t.mem = (writeContext s gid v).mem)

/-- The pager's answers and changes (spec 07 R169 to R174). RETRY lets a cell execute its instruction again, FATAL traps
ACCESS_FAULT, GONE kills its gang with K_CODE_GONE, and a wake of another sequence number, or with a verdict that the pager may not
give (20 R413: in a retired range a fetch gets GONE and another access FATAL, and no other access gets GONE), does nothing; an entry that changes is written and its translations are
dropped everywhere; a copy-on-write copy gives the page its own bytes, writable, and wakes the writers; a migrated page keeps
its bytes under its new address. That a migration is one step of the device is the model's choice (log 61). -/
def Obligations.PagerAndPages : Prop :=
  ∀ (s : State) (cell seq n dva asid at_ size i pa : Nat) (tval entry : Word) (idx : Option Nat) (c : Cell),
    (Tab.find s.cells cell = some c → c.run = .parked (.page dva n tval idx) →
      let may (v : Verdict) : Prop := pagerMay s (.cell cell seq) v = true
      (n = seq → (may .retry → exec (.pagerWake (.cell cell seq) .retry) s = .next ((abandonFaults s cell).modCell cell fun c => { c with run := .ready }))
        ∧ (may .gone → exec (.pagerWake (.cell cell seq) .gone) s = .next (killPlain (abandonFaults s cell) c.gang 0x82 c.pc cell))
        ∧ (may .fatal → c.latch = [] → c.pushed = [] → c.tlev < 2 → c.csr.ttvec ≠ 0 → vecBusy s cell = false →
            ∃ t, exec (.pagerWake (.cell cell seq) .fatal) s = .next t ∧ (t.cell cell).tlev = c.tlev + 1 ∧ (t.cell cell).pc = c.csr.ttvec ∧ (t.cell cell).x = c.x
              ∧ (c.tlev = 0 → (t.cell cell).csr.tcause1 = 0x05 ∧ (t.cell cell).csr.tepc1 = c.excPc ∧ (t.cell cell).csr.tval1 = tval) ∧ t.mem = s.mem))
      ∧ (n ≠ seq → ∀ v, exec (.pagerWake (.cell cell seq) v) s = .next s))
    ∧ (∀ w v, pagerMay s w v = false → exec (.pagerWake w v) s = .next s)
    ∧ (walkSlot s asid dva = some (at_, size) → exec (.tlbShootdown asid dva entry) s =
        .next (shootdown (s.writeEntry at_ entry) asid (dva / 2 ^ size * 2 ^ size) (2 ^ size)))
    ∧ (∀ x : Cow, s.cows[i]? = some x → s.refusedIn (pteAddr (s.readNat x.leafAt 8)) 65536 = none →
        let s1 : State := { s with cows := dropAt s.cows i }
        exec (.cowCopyDone i) s = .next (cowWake (shootdown ((copyRange s1 x.asid x.dva (pteAddr (s.readNat x.leafAt 8)) x.page 65536).write (.port x.hive) none x.leafAt
          (leBytes (cowLeaf (s.readNat x.leafAt 8) x.page).toNat 8)) x.asid x.dva 65536) x.asid x.dva))
    ∧ (∀ page src dst len, memOk s = true → s.refused = [] → s.posted = [] → src + len ≤ dst ∨ dst + len ≤ src → let t := copyRange s asid page src dst len
        (∀ j, j < len → t.byte (dst + j) = s.byte (src + j)) ∧ ∀ a, a < dst ∨ dst + len ≤ a → t.byte a = s.byte a)
    ∧ (∀ m, walk s asid dva = .leaf m at_ size → pteTgt m = 0 → pa % 2 ^ size = 0 → pa + 2 ^ size ≤ 2 ^ 39 → overlap (pteAddr m) (2 ^ size) pa (2 ^ size) = false →
        (∀ x ∈ s.cows, ¬ (x.asid = asid ∧ overlap x.dva 65536 (dva / 2 ^ size * 2 ^ size) (2 ^ size) = true)) → s.posted = [] →
        ∃ t, exec (.pageMigration asid dva pa) s = .next t ∧ t.objects = Tab.mapV s.objects (movePages asid (pteAddr m) pa (2 ^ size))
          ∧ t.mem = (setEntry (copyRange s asid (dva / 2 ^ size * 2 ^ size) (pteAddr m) pa (2 ^ size)) asid (dva / 2 ^ size * 2 ^ size) at_ size (setField (BitVec.ofNat 64 m) 43 12 (pa / 4096))).mem)

/-- Requests to remote ports and to the fabric (spec 07 R164, R165, R176; 13 R304). At the target's port a request is performed
under the windows that stand there, or refused; its reply lets the instruction that waits go on with the value, or traps
REMOTE_NACK, or makes the refusal of a posted one pending. A reply from host or peer memory lets its cell go on, an error traps
ACCESS_FAULT, counted at the station of a peer, and a posted write that cannot be delivered, or is answered with an error, kills the gang
that issued it with K_FABRIC; an update by a unit is reported. A load at the port reads what stands there where no write is unordered before
it, or where it is an acquire. -/
def Obligations.RemotePortsAndFabric : Prop :=
  ∀ (s : State) (id cell station : Nat) (r : Remote) (c : Cell) (data v : Word),
    (Tab.find s.remotes id = some r → r.arrived = false → streamOrder s id r (fun e => !e.arrived) = true →
      (remoteAllowed s r.gang r.key r.op.size r.op.right = false →
        exec (.remoteAccessArrival id) s = .next { s with remotes := Tab.put s.remotes id { r with arrived := true, reply := some (false, 0) } })
      ∧ (remoteAllowed s r.gang r.key r.op.size r.op.right = true →
        (∀ n, r.op = .load n → r.mine s = true → let got (t : State) (d : List Byte) : State :=
            { t with remotes := Tab.put s.remotes id { r with arrived := true, reply := some (true, BitVec.ofNat 64 (leNat d)) } }
          (r.acq = false → ∃ d, exec (.remoteAccessArrival id) s = .next (got (s.readBy r.cell r.key n).1 d)
            ∧ ((s.writesAfter (s.orderedTo r.cell r.key n) r.key n).isEmpty = true → d = s.read r.key n))
          ∧ (r.acq = true → exec (.remoteAccessArrival id) s = .next (got (s.acquire r.cell r.key n r.sc) (s.read r.key n))))
        ∧ (∀ op size src cmp, r.op = .amo op size src cmp → let a := amoSync s (agentOf r.eng r.cell) none r.key op size src cmp (r.acq && r.mine s) r.rel r.sc
            exec (.remoteAccessArrival id) s = .next { a.1 with remotes := Tab.put a.1.remotes id { r with arrived := true, reply := some (true, BitVec.ofNat 64 a.2) } })
        ∧ (∀ d, r.op = .store d → memOk s = true → ∃ t, exec (.remoteAccessArrival id) s = .next t ∧ stored s t r.key d
            ∧ t.remotes = Tab.put s.remotes id { r with arrived := true, reply := some (true, 0) })))
    ∧ (∀ w, Tab.find s.remotes id = some r → Tab.find s.cells r.cell = some c → c.gang = r.gang → c.run = .parked w →
        streamOrder s id r (fun _ => true) = true → let s1 : State := { s with remotes := Tab.del s.remotes id }
        (r.posted = false → w = .remote id →
          (r.reply = some (true, v) → exec (.remoteReply id) s = .next (s1.modCell r.cell fun c => { c with reply := some v, run := .ready }))
          ∧ (r.reply = some (false, v) → exec (.remoteReply id) s = .next (trapParked s1 r.cell 0x0C r.ea)))
        ∧ (r.posted = true → w ≠ .performed → (r.reply = some (true, v) → exec (.remoteReply id) s = .next s1)
          ∧ (r.reply = some (false, v) → exec (.remoteReply id) s = .next (pendAsync s1 r.cell { cause := 0x0D, tval := r.ea }))))
    ∧ (∀ home pa ea n acq, Tab.find s.cells cell = some c → c.run = .parked (.fabric home pa ea n acq) →
        let after (t : State) : State := t.modCell cell fun c => { c with reply := some data, run := .ready }
        (acq = none → exec (.fabricReply cell station true data) s = .next (after (s.modCell cell fun c => { c with sight := Known.add c.sight (s.upToNow cell) })))
        ∧ (∀ sc, acq = some sc → exec (.fabricReply cell station true data) s = .next (after (s.orderAfter cell sc [s.upToNow cell])))
        ∧ (home = .host ∨ 32 ≤ station → exec (.fabricReply cell station false data) s = .next (trapParked s cell 0x05 ea))
        ∧ (∀ acc, home = .peer acc → station < 32 → exec (.fabricReply cell station false data) s =
            .next (trapParked (s.modStation station fun r => { r with err := min (2 ^ 32 - 1) (r.err + 1) }) cell 0x05 ea)))
    ∧ (∀ p, postedOut s cell data = some p → exec (.postedWriteUndeliverable cell data) s = .next (killPlain { s with posted := s.posted.erase p } p.gang 0x84 data cell)
        ∧ (p.home = .host → cell ≠ noCell → (∀ home pa ea n acq, (s.cell cell).run ≠ .parked (.fabric home pa ea n acq)) →
            exec (.fabricReply cell station false data) s = .next (killPlain { s with posted := s.posted.erase p } p.gang 0x84 data cell))
        ∧ (∀ acc, p.home = .peer acc → (∀ home pa ea n acq, (s.cell cell).run ≠ .parked (.fabric home pa ea n acq)) →
            let t := stationError s station
            exec (.fabricReply cell station false data) s = .next (if cell = noCell then postReport { t with posted := s.posted.erase p } 5 station 0 noCell data 0 0 0 0
              else killPlain { t with posted := s.posted.erase p } p.gang 0x84 data cell)))

/-- Errors of the hardware (spec 09 R228; 18 R379, R388 to R393; 01 R27). Correctable errors are counted, and one of class 5 drops a
line of an instruction cache or an entry of a TLB, which is filled again; the first failed lane group of a core is replaced, and its
instructions keep their results; the second retires the core: the failing gang is killed, the core is live no more, its gangs are
pre-empted, with those of hive groups that no longer fit, and its partition quiesces; an uncorrectable error kills the gang that
lost state with K_DATA_ERR, naming the place: cell state, local store, HSP, a tile, the line of HBM that a cell read, the context block of a
saved gang, or an entry of a die's table, which is reported for its partitions; or it marks an HBM line refused; the patrol counts what it
rewrote. The core's retirement in detail is the model's choice (log 54). -/
def Obligations.HardwareErrors : Prop :=
  ∀ (s : State) (die cls core i group cell off n lines row col : Nat) (v : VFlight) (c : Cell),
    (die < 4 → cls < 7 → cls ≠ 5 → exec (.correctableError die cls) s = .next (countErr s die cls 1))
    ∧ (die < 4 → exec (.correctableError die 5) s = .next (parityDrop (countErr s die 5 1) die))
    ∧ (die < 4 → exec (.patrolScrub die lines) s = .next (countErr s die 4 lines))
    ∧ ((s.core core).vec[i]? = some v → (s.core core).laneFails = [] → group < 9 → ∃ t, exec (.laneFailure core i group) s = .next t
        ∧ t = postReport (countErr (s.modCore core fun k => { k with laneFails := [group] }) (dieOf core) 7 1) 3 0 (partOfGang s v.gang) v.cell 0 0 0 0 0
        ∧ t.cells = s.cells ∧ t.gangs = s.gangs ∧ t.mem = s.mem)
    ∧ (∀ g, (s.core core).vec[i]? = some v → (s.core core).laneFails = [g] → g ≠ group → group < 9 →
        let s1 := s.modCore core fun k => { k with laneFails := k.laneFails ++ [group] }
        let live := 0x600 + 8 * (core / 64)
        let s2 := killPlain (s1.setMreg live (s1.mreg live &&& ~~~BitVec.ofNat 64 (2 ^ (core % 64)))) v.gang 0x81 (dataErr 11 group 0) v.cell
        let done := (s.core core).vec.zipIdx.map fun e => (e.1.cell, if e.2 < i then e.1.count else 0)
        let s3 := orderHomeless <| evict (((s2.gangs.filter fun e => e.2.core == core && e.2.resident).map (·.1)).foldl (fun s g => retireLand s g done) s2) core
        exec (.coreRetire core i group) s = .next (quiesceFor (postReport s3 4 0 (partOfGang s v.gang) v.cell 0 0 0 0 0) (partOfGang s v.gang)))
    ∧ (∀ k, k ∈ [1, 2, 3, 4, 9, 10] → Tab.find s.cells cell = some c →
        exec (.uncorrectableError (.cellState cell k n)) s = .next (errKill s c.gang cell (dataErr k (cell % 8) n)))
    ∧ (∀ g, lsOwner s core off = some g → exec (.uncorrectableError (.ls core off)) s = .next (errKill s g (firstCell s g) (dataErr 5 (core % 256) (off / 8 * 8))))
    ∧ (∀ hive, hive < 64 → Tab.find s.cells cell = some c → exec (.uncorrectableError (.hsp hive off cell)) s = .next (errKill s c.gang cell (dataErr 6 0 (off / 8 * 8))))
    ∧ (∀ g t, (s.core core).occupant = some g → t < 4 → row < 64 → col < 64 →
        exec (.uncorrectableError (.tile core t row col)) s = .next (errKill s g (firstCell s g) (dataErr 7 t (row * 64 + col))))
    ∧ (off < 2 ^ 39 → let t : State := { s with refused := insertNat s.refused (off / 64 * 64) }
        exec (.uncorrectableError (.hbm off)) s = .next t
        ∧ (Tab.find s.cells cell = some c → exec (.uncorrectableError (.hbmRead off cell)) s = .next (errKill t c.gang cell (dataErr 8 0 (off / 64 * 64)))))
    ∧ (∀ g, (s.gang g).st = .saved → let l := s.launch (s.gang g).launch
        exec (.uncorrectableError (.context g n)) s = .next (quiesceFor (killPlain (refusalReport s l.part n l.hdr.crec) g 0x81 (dataErr 12 0 n) noCell) l.part))
    ∧ (∀ gs : List Nat, die < 4 → let parts := (gs.map (partOfGang s)).eraseDups
        exec (.uncorrectableError (.dieTable die n gs)) s = .next (quiesceOf
          (gs.foldl (fun s g => errKill s g (firstCell s g) (dataErr 13 0 n)) (postReport s 7 13 (parts.head?.getD 0) noCell (dataErr 13 0 n) 0 0 0 0)) parts))
    ∧ (∀ gid val, (s.gang gid).st ≠ .retired → (s.gang gid).st ≠ .killed → errKill s gid cell val = quiesceFor (killPlain s gid 0x81 val cell) (partOfGang s gid))

/-- The links (spec 14 R327 to R331; 18 R391; 07 R176; 00 R2). A good flit in order is accepted and acknowledged, and the other end
keeps only later ones; one that fails its CRC is counted and answered once, but for one out of sequence while the other end sends
again; a replay sends again what is not acknowledged, as one episode; a retraining leaves the module at full or half width, or
disabled with its flits moved; a die out of reach, or a request of a cell or copy, or a posted write, without an answer (to a peer
within UACTO microseconds), kills the gangs that had accesses there with K_FABRIC, and an update by a unit is reported; replays and
losses of a station are counted only; a peer's access to HBM is performed or refused. How ends are paired, that receiving a flit shows
it sent, and the report of a unit's update, are the model's choice (logs 33 and 34). -/
def Obligations.Links : Prop :=
  ∀ (s : State) (fin seq last station cell pa n core i : Nat) (dva : Word) (c : Cell) (d : List Byte),
    let far := farEnd fin
    let me := s.link fin
    let up (half : Bool) : State := (s.modLink fin (trainedEnd half (s.link far).rxNext)).modLink far (trainedEnd half me.rxNext)
    let late (sent : Nat) : State := (s.timeTo (sent + 1000 * (s.mreg 0x5A00).toNat)).modStation station fun x => { x with tmo := satInc 32 x.tmo }
    (fin < 40 → me.off = false →
      (me.retraining = false → seq < me.rxNext + 128 →
        (seq = me.rxNext → exec (.flitReceive fin seq true) s = .next ((((s.modLink far fun l => sentUpTo l seq).modLink fin fun l =>
            { l with rxNext := seq + 1, nak := none, naks := 0, again := false }).modLink far fun l => { l with replay := l.replay.filter fun n => decide (seq < n) }).emit (.ack fin seq true)))
        ∧ (me.again = false ∨ seq = me.rxNext → me.nak = none → exec (.flitReceive fin seq false) s = .next ((((s.modLink far fun l => sentUpTo l seq).modLink fin fun l =>
            { l with crcerr := satInc 32 l.crcerr }).modLink fin fun l => { l with nak := some l.rxNext, naks := l.naks + 1, again := false }).emit (.ack fin (me.rxNext - 1) false)))
        ∧ (∀ k, me.again = false ∨ seq = me.rxNext → me.nak = some k → exec (.flitReceive fin seq false) s = .next ((s.modLink far fun l => sentUpTo l seq).modLink fin fun l => { l with crcerr := satInc 32 l.crcerr }))
        ∧ (me.again = true → seq ≠ me.rxNext → exec (.flitReceive fin seq false) s = .next ((s.modLink far fun l => sentAgain l seq).modLink fin fun l => { l with crcerr := satInc 32 l.crcerr })))
      ∧ ((s.link far).nak = some (last + 1) → exec (.ucieReplay fin last) s =
          .next ((s.modLink fin fun l => resend { l with replay := l.replay.filter fun n => decide (last < n) }).modLink far fun l => { l with nak := none, again := true }))
      ∧ (me.retraining = false → exec (.linkRetrain fin .lock) s = .next ((s.modLink fin retrainEnd).modLink far retrainEnd)
          ∧ (8 ≤ (s.link far).naks → (s.link far).rxNext = seq → exec (.linkRetrain fin (.nak seq)) s = .next ((s.modLink fin retrainEnd).modLink far retrainEnd))))
    ∧ (fin < 40 → me.retraining = true →
        exec (.retrainDone fin .full) s = .next (up false) ∧ exec (.retrainDone fin .half) s = .next (postReport (up true) 5 fin 0 noCell 0 0 0 0 0)
        ∧ exec (.retrainDone fin .off) s = .next (postReport (disableEnd (disableEnd s fin) far) 5 fin 0 noCell 0 0 0 0 0))
    ∧ (∀ die : Option Nat, die.getD 4 ≤ 4 → die.getD 4 ∉ s.lost → exec (.dieUnreachable die) s =
        .next (quiesceOf ((outTo s die).foldl (fun s e => killPlain s e.1 0x84 e.2.2 e.2.1) { s with lost := insertNat s.lost (die.getD 4) })
          (((outTo s die).map fun e => partOfGang s e.1).eraseDups)))
    ∧ (∀ home a ea m acq, Tab.find s.cells cell = some c → c.run = .parked (.fabric home a ea m acq) → dva = BitVec.ofNat 64 (eaDva (s.gang c.gang) ea) →
        (∀ acc, home = .peer acc → station < 32 → exec (.ualinkTimeout (.cell cell dva station)) s = .next (killPlain (late c.asked) c.gang 0x84 dva cell))
        ∧ (home = .host → exec (.pcieCompletionTimeout (.cell cell dva station)) s = .next (killPlain s c.gang 0x84 dva cell)))
    ∧ (∀ w, fabricWait s cell dva Home.isPeer = false → peerPost s cell dva = some w → cell ≠ noCell → station < 32 →
        exec (.ualinkTimeout (.cell cell dva station)) s = .next (killPlain (forgetPost (late w.time) w) w.gang 0x84 dva cell))
    ∧ (∀ w die, peerPost s noCell dva = some w → station < 32 →
        exec (.ualinkTimeout (.unit die dva station)) s = .next (postReport (forgetPost (late w.time) w) 5 station 0 noCell dva 0 0 0 0))
    ∧ (∀ cp, (s.core core).copies[i]? = some cp → cp.moving s = true →
        (∀ acc, fabricAt s cp dva = some (.peer acc) → station < 32 →
          exec (.ualinkTimeout (.copy core i dva station)) s = .next (failCopy (late s.qtime) core cp (.fabric dva station)))
        ∧ (fabricAt s cp dva = some .host → exec (.pcieCompletionTimeout (.copy core i dva station)) s = .next (failCopy s core cp (.fabric dva station))))
    ∧ (station < 32 → exec (.ualinkStationLoss station) s = .next (s.modStation station fun x => { x with up := false })
        ∧ exec (.ualinkReplay station) s = .next (s.modStation station fun x => { x with rpl := satInc 32 x.rpl }))
    ∧ (s.ready = true →
        (pa + n ≤ 2 ^ 39 → s.refusedIn pa n = none → exec (.fabricPeerAccess (.load pa n)) s = .next (s.emit (.peerReply true (s.read pa n))))
        ∧ (pa + d.length ≤ 2 ^ 39 → exec (.fabricPeerAccess (.store pa d)) s = .next ((s.writeLong .peer none pa d).emit (.peerReply true [])))
        ∧ (2 ^ 39 < pa + n → exec (.fabricPeerAccess (.load pa n)) s = .next (s.emit (.peerReply false []))))

/-- Start-up and attestation (spec 01 R6 to R12). A reset starts over with every register at its reset value and memory empty. A
stage that is done moves DEVSTAT to the next, where its images verify, and with the HUB stage the UCIe modules are up; a stage that
fails or takes too long enters FAIL with the die or the hub. The responder answers over physical function 0 alone, and each request
after the ones it needs: the version, capabilities, algorithms, the digest and the certificates of the chain, a signature of the session's
transcript with the nonce in it, and the measurements. The codes and payloads of the SPDM messages are the model's choice (log 30), as is that dieHash joins the four
images' hashes (log 41), and what is signed of an image, the die that an image names, and the stages in which the responder answers
(log 73). -/
def Obligations.StartUpAndAttestation : Prop :=
  ∀ (s : State) (i : FwImage) (images : List FwImage) (lanes : List LaneFault) (d func : Nat) (nonce : List Byte),
    let restarted : State := { State.reset with freeCtr := s.freeCtr + 1, nextId := s.nextId, qtime := s.qtime, out := s.out, agenda := s.agenda }
    let stage := bits (s.mreg 0).toNat 3 0
    let ok (i : FwImage) : Bool := i.hash == sm3 i.body && decide (Config.antiRollback ≤ i.version) && Config.sm2Verifies Config.rootKeyHash (i.hash ++ leBytes i.version 4) i.signature
    let fail (n : Nat) : State := s.setMreg 0 (BitVec.ofNat 64 (15 + 16 * n))
    let chain := (List.range 3).map Config.certificate ++ [s.alias_]
    let measured := [Config.romVersion, s.hubHash, s.dieHash, sm3 ((List.range 32).flatMap fun i => leBytes (s.mreg (0x100 + 8 * i)).toNat 8)]
    exec .powerGood s = .next restarted ∧ exec .pcieFundamentalReset s = .next restarted
    ∧ (stage = 1 → exec (.stageDone [i] none lanes) s = .next (if ok i then { s with hubHash := i.hash }.setMreg 0 2 else fail 15))
    ∧ (stage = 2 → exec (.stageDone images none lanes) s = .next ((linksUp s).setMreg 0 3) ∧ ∀ e, e < 40 → ((linksUp s).link e).up = true)
    ∧ (stage = 3 → images.length = 4 → exec (.stageDone images none lanes) s =
        .next (match (List.range 4).find? fun d => match images[d]? with | some i => !ok i | none => true with
          | some d => fail d
          | none => { s with dieHash := images.flatMap (fun i : FwImage => i.hash)
                             alias_ := s.hubHash ++ images.flatMap (fun i : FwImage => i.hash) ++ Config.sm2Sign (s.hubHash ++ images.flatMap (fun i : FwImage => i.hash)) }.setMreg 0 4))
    ∧ (stage = 4 → exec (.stageDone images none []) s = .next (s.setMreg 0 8) ∧ exec (.stageDone images (some d) lanes) s = .next (fail d))
    ∧ (stage = 1 ∨ stage = 2 → exec (.stageTimeout none) s = .next (fail 15))
    ∧ (stage = 3 ∨ stage = 4 → d < 4 → exec (.stageTimeout (some d)) s = .next (fail d))
    ∧ (2 ≤ stage → stage ≠ 15 →
        let p := s.spdm
        let say (p : Spdm) (code : Nat) (d : List Byte) : Host.Outcome State Fault Refusal := .next ({ s with spdm := p }.emit (.spdm 0 code d))
        let digest := sm3 chain.flatten
        exec (.getVersion 0) s = say { version := true, vca := spdmPair 0x84 [] 0x04 [0x13] } 0x04 [0x13]
        ∧ (p.version = true → exec (.getCapabilities 0) s = say { p with caps := true, vca := p.vca ++ spdmPair 0xE1 [] 0x61 [] } 0x61 [])
        ∧ (p.version = false → exec (.getCapabilities 0) s = .next (s.emit (.spdm 0 0x7F [])))
        ∧ (p.caps = true → exec (.negotiateAlgorithms 0 true true) s = say { p with negotiated := true, vca := p.vca ++ spdmPair 0xE3 [] 0x63 [] } 0x63 [])
        ∧ (∀ a b, (a && b) = false → exec (.negotiateAlgorithms 0 a b) s = .next (s.emit (.spdm 0 0x7F [])))
        ∧ (p.negotiated = true → exec (.getDigests 0) s = say { p with certs := p.certs ++ spdmPair 0x81 [] 0x01 digest } 0x01 digest
            ∧ exec (.getCertificate 0) s = say { p with certs := p.certs ++ spdmPair 0x82 [] 0x02 chain.flatten } 0x02 chain.flatten
            ∧ exec (.challenge 0 nonce) s = say { p with certs := [] } 0x03 (digest ++ Config.sm2Sign (sm3 (p.vca ++ p.certs ++ spdmPair 0x83 nonce 0x03 digest)))
            ∧ exec (.getMeasurements 0) s = say { p with certs := [] } 0x60 measured.flatten))
    ∧ (func ≠ 0 → exec (.getVersion func) s = .next s ∧ exec (.getMeasurements func) s = .next s)

/-- What the host does to a function (spec 01 R8; 03 R56 to R63, R69, R419). QUEUE_ENABLE starts an accepted queue with QRD and QWR
zero, QUEUE_DISABLE stops one that is empty, and a resume lets a halted one go on, past its packet with SKIP; a doorbell moves QWR
forward within the ring or sets DBERR, and waits behind an earlier write that waits at the pager; a read of a register gives its
value, zero where the function does not reach the queue, or Unsupported Request; a write that a register does not allow is recorded
in FERR; any other access of BAR0 is unsupported; BAR4 reads and writes memory through WINBASE; a function reset ends its
partition's work; VF Enable brings up as many virtual functions as NumVFs says, at most 16 (the bound by NumVFs is SR-IOV's, log 29). -/
def Obligations.HostFunctions : Prop :=
  ∀ (s : State) (func p q off n id : Nat) (v w : Word) (data : List Byte) (keys : List (Nat × Nat × Nat)),
    let key := queueKey p q
    let x := s.queue key
    let ok : Prop := qctlBad s p x v = false
    let kept := setField v 62 61 0
    let done (f : Queue → Queue) : State := wakeQueue (s.modQueue key f) key
    let live : Prop := funcLive s func = true
    (s.ready = true → queueOf s func q = some p → (Tab.find s.queues key).isSome = true →
      (ok → x.en = false → v.getLsbD 63 = true → exec (.queueEnable func q v) s = .next (done fun r => { r with qctl := kept, qrd := 0, qwr := 0, state := 1, busy := .none }))
      ∧ (qctlBad s p x v = true → x.en = false → v.getLsbD 63 = true → exec (.queueEnable func q v) s = .next (s.modQueue key fun r => { r with werr := true }))
      ∧ (ok → x.en = true → v.getLsbD 63 = false → exec (.queueDisable func q v) s = .next (done fun r => { r with qctl := kept, state := 0, busy := .none }))
      ∧ (ok → x.en = true → v.getLsbD 63 = true → v.getLsbD 62 = true → x.state = 2 →
          (v.getLsbD 61 = false → exec (.queueResume func q v) s = .next (done fun r => { r with qctl := kept, state := 1 }))
          ∧ (v.getLsbD 61 = true → exec (.queueResumeSkip func q v) s = .next (done fun r => { r with qctl := kept, state := 1, qrd := r.qrd + 1 })))
      ∧ ((∀ e ∈ s.hostAccs, e.data.isSome = true → e.relaxed = true) → exec (.doorbell func q w) s = .next (s.modQueue key fun r =>
          if r.en && !r.prod && decide (r.qwr < w.toNat) && decide (w.toNat ≤ r.qrd + r.ring) then { r with qwr := w.toNat } else { r with dberr := true }))
      ∧ ((∃ e ∈ s.hostAccs, e.data.isSome = true ∧ e.relaxed = false ∧ e.id < s.nextId) → ∃ t, exec (.doorbell func q w) s = .next t
          ∧ t.queues = s.queues ∧ t.hostAccs.length = s.hostAccs.length + 1)
      ∧ (q < 64 → bar2Read s func (0x10000 + 64 * q) 8 = some x.qbase ∧ bar2Read s func (0x10008 + 64 * q) 8 = some x.qctl
          ∧ bar2Read s func (0x10018 + 64 * q) 8 = some (BitVec.ofNat 64 x.qrd) ∧ bar2Read s func (0x10020 + 64 * q) 8 = some (BitVec.ofNat 64 x.qwr)
          ∧ bar2Read s func (0x10028 + 64 * q) 8 = some x.qgrant ∧ bar2Read s func (0x10030 + 64 * q) 8 = some 0 ∧ bar2Read s func (0x10038 + 64 * q) 8 = some 0))
    ∧ (live → s.ready = true → queueOf s func q = none → q < 64 → ∀ r, r < 8 → bar2Read s func (0x10000 + 64 * q + 8 * r) 8 = some 0)
    ∧ (live → s.ready = true → bar2Read s func 0x11000 8 = some (s.func func).winbase ∧ bar2Read s func 0x11008 8 = some (s.func func).ferr
        ∧ (∀ o, 0x11010 ≤ o → o < 0x12000 → o % 8 = 0 → bar2Read s func o 8 = some 0))
    ∧ (off < 0x10000 → n ≠ 8 ∨ func ≠ 0 → bar2Read s func off n = none)
    ∧ (off < 0x10000 → off % 8 = 0 → bar2Read s 0 off 8 = some (mgmtRead s off))
    ∧ (∀ rest, s.agenda = .registerRead func off n :: rest → let u : State := { s with agenda := rest }
        (∀ r, bar2Read s func off n = some r → step s = .next (u.emit (.data func (leBytes r.toNat n)))) ∧ (bar2Read s func off n = none → step s = .next (u.emit (.unsupported func))))
    ∧ (∀ size write, (write && size == 8 && off % 4096 == 0 && decide (off < 0x40000)) = false → exec (.bar0UnsupportedAccess func off size write) s = .next (s.emit (.unsupported func)))
    ∧ (live → exec (.ferrClear func) s = .next (s.modFunc func fun f => { f with ferr := 0 }))
    ∧ (live → s.ready = true → setsReserved v [(56, 40)] = false → exec (.registerWrite func 0x11000 8 v) s = .next (s.modFunc func fun f => { f with winbase := v }))
    ∧ (live → s.ready = true → queueOf s func q = none → q < 64 →
        exec (.registerWrite func (0x10000 + 64 * q) 8 v) s = .next (s.modFunc func fun f => { f with ferr := BitVec.ofNat 64 (2 ^ 63 + 0x10000 + 64 * q) }))
    ∧ (s.ready = true → reach s func = some p →
        let u : State := { s with nextId := s.nextId + 1 }
        let dva := (s.func func).winbase.toNat + off
        let asid := bits (s.partReg p) 43 32
        dva < 2 ^ 56 →
        ((∀ e ∈ s.hostAccs, e.data = none) → hostKeys u asid dva n false = .ok keys → (∀ e ∈ keys, s.refusedIn e.2.1 e.2.2 = none) →
          exec (.hostBar4Read func off n) s = .next (u.emit (.data func (keys.flatMap fun e => s.read e.2.1 e.2.2))))
        ∧ ((∀ e ∈ s.hostAccs, e.data.isSome = true → e.relaxed = true) → hostKeys u asid dva data.length true = .ok keys → exec (.hostBar4Write func off data) s =
            .next (keys.foldl (fun s e => s.writeLong .host none e.2.1 ((data.drop e.1).take e.2.2)) u))
        ∧ (∀ a m, hostKeys u asid dva n false = .error (.wait a m) → ∃ t, exec (.hostBar4Read func off n) s = .next t ∧ t.hostAccs.length = s.hostAccs.length + 1 ∧ t.mem = s.mem ∧ t.out = s.out))
    ∧ (∀ a, s.hostAccs.find? (fun a => a.id == id && !a.held) = some a → a.data = none →
        exec (.bar4PagerTimeout id) s = .next (hostRelease ((dropHost s id).emit (.completerAbort a.func))))
    ∧ (live → func ≠ 0 → exec (.functionLevelReset func) s = .next (resetFunc s func))
    ∧ exec .pf0FunctionLevelReset s = .next (
        let s1 := resetFunc { (range 1 16).foldl resetFunc s with vfEnable := false } 0
        let s2 := s1.setMreg 0x708 (setField (s1.mreg 0x708) 63 63 0)
        let s3 := if (s2.mreg 0x328).getLsbD 63 then s2.setMreg 0x328 (setField (setField (s2.mreg 0x328) 63 63 0) 62 61 2) else s2
        { (s3.setMreg 0x300 (ckptReg (s3.mreg 0x300) (bits (s3.mreg 0x300).toNat 62 62) 0)).setMreg 0x308 0 with quiescing := [], numVfs := 0 })
    ∧ (2 ≤ s.stage → live →
        exec (.configurationRequest func (.read off)) s = .next (s.emit (.data func ((range off 4).map fun o => BitVec.ofNat 8 (Tab.getD s.cfg (func * 4096 + o) (Config.cfgReset func o)))))
        ∧ (func = 0 → exec (.configurationRequest func (.setVfEnable true)) s = .next { s with vfEnable := true }
            ∧ exec (.configurationRequest func .readTotalVfs) s = .next (s.emit (.data func [16, 0]))
            ∧ (s.vfEnable = false → n ≤ 16 → exec (.configurationRequest func (.setNumVfs n)) s = .next { s with numVfs := n })))
    ∧ (live ↔ func = 0 ∨ s.vfEnable = true ∧ func ≤ 16 ∧ func ≤ s.numVfs)

/-- The management block (spec 01 R6, R13 to R28; 04 R94, R103). A value that sets a reserved bit, or that a rule refuses, changes
nothing but MERR, which takes the register's offset. A valid partition takes its value, and one that is cleared gives its hives
cleaned; HMOVE starts, or answers REFUSED, and its end hands the hive over; CKPT stops dispatch and orders the pre-emptions, is done
when its partitions are still, and RESUME lets them go on; a fault quiesces its partition, one that a checkpoint quiesces too; the
checkpoint engine copies its range, or on an error lines of it that are not refused, and CKDONE counts their bytes; PWRCAP takes 500 to 2,000. A read gives the register's value: the link registers tell the peer,
OFF, DEG and UP, and the counts. -/
def Obligations.ManagementBlock : Prop :=
  ∀ (s : State) (n part : Nat) (v : Word),
    let err (off : Nat) : State := s.setMreg 8 (BitVec.ofNat 64 off)
    let reg := s.mreg
    (n < 16 → v.getLsbD 63 = true →
      (setsReserved v partFields = false → partOk s n v.toNat = true →
        (s.partValid n = true → partKeep s n v.toNat = true → exec (.partSetValid n v) s = .next (s.setMreg (0x100 + 8 * n) v))
        ∧ (s.partValid n = true → partKeep s n v.toNat = false → exec (.partSetValid n v) s = .next (err (0x100 + 8 * n)))
        ∧ (s.partValid n = false → ∃ t, exec (.partSetValid n v) s = .next t ∧ t.mgmt = (s.setMreg (0x100 + 8 * n) v).mgmt ∧ t.cells = s.cells ∧ t.mem = s.mem))
      ∧ (setsReserved v partFields = true ∨ partOk s n v.toNat = false → exec (.partSetValid n v) s = .next (err (0x100 + 8 * n))))
    ∧ (v.getLsbD 63 = false → s.partValid n = true →
        let busy : Bool := someQueue s n (fun _ q => q.en) || partBusy s n || s.broods.any fun e => e.2.part == n
        (setsReserved v partFields = false → busy = false → exec (.partClearValid n v) s = .next (((s.hivesOf n).foldl (fun s h => cleanHive s h (asidOf s n)) s).setMreg (0x100 + 8 * n) v))
        ∧ (n < 16 → busy = true → exec (.partClearValid n v) s = .next (err (0x100 + 8 * n))))
    ∧ exec (.merrClear v) s = .next (s.setMreg 8 0)
    ∧ (v.getLsbD 63 = true →
        let i : Instr := if v.getLsbD 14 then .hmoveFree v else .hmoveMove v
        let hive := bits v.toNat 5 0
        (setsReserved v hmoveFields = true ∨ (reg 0x200).getLsbD 63 = true → exec i s = .next (err 0x200))
        ∧ (setsReserved v hmoveFields = false → (reg 0x200).getLsbD 63 = false →
            (hmoveRefused s hive (hmoveDst v) = true → exec i s = .next (s.setMreg 0x200 (setField (setField v 63 63 0) 62 61 1)))
            ∧ (hmoveRefused s hive (hmoveDst v) = false → exec i s = .next (orderAll
                (({ s with move := some (hive, hmoveDst v) }.setMreg 0x200 (setField (setField v 63 63 1) 62 61 (bits (reg 0x200).toNat 62 61))).modHive hive fun h => { h with moving := true })
                fun _ g => hiveOf g.core == hive))))
    ∧ (∀ hive dst, s.move = some (hive, dst) → hiveHeld s hive = false → exec .hmoveComplete s = .next (hmoveFinish s hive dst))
    ∧ (∃ t, exec .budgetPeriod s = .next t ∧ t = { s with budget := t.budget, qtime := t.qtime, freeCtr := s.freeCtr + 1 }
        ∧ t.budget = (s.mgmt.filter fun e => decide (0x1000 ≤ e.1) && decide (e.1 < 0x2000)).map fun e => (((e.1 - 0x1000) / 64) * 8 + e.1 % 64 / 8, e.2))
    ∧ (v.getLsbD 63 = true → (ckptBad s v = true → exec (.ckptQuiesce v) s = .next (err 0x300))
        ∧ (ckptBad s v = false → exec (.ckptQuiesce v) s = .next (((ckptNames v).filter fun n => !bit s.ckq n).foldl orderPart
            ({ s.tick with quiescing := (ckptNames v).filter fun n => !bit s.ckq n }.setMreg 0x300 (ckptReg v 0 1)))))
    ∧ (v.getLsbD 63 = false → v.getLsbD 61 = true → ckptBad s v = false → exec (.ckptResume v) s = .next ((ckptNames v).foldl resumePart (s.tick.setMreg 0x300 (ckptReg v 0 0))))
    ∧ (s.faultQ = [] → (reg 0x300).getLsbD 60 = true → s.quiescing.all (partStill s.tick) = true → exec .quiesceDone s =
        .next ({ s.quiescing.foldl setCkq s.tick with quiescing := [] }.setMreg 0x300 (ckptReg (reg 0x300) 1 0)))
    ∧ (v.getLsbD 63 = true → s.ckRuns = false → setsReserved v ckctlFields = false →
        let src := (reg 0x310).toNat
        let len := (reg 0x318).toNat
        let tgt := bits v.toNat 33 32
        len ≠ 0 → len % 65536 = 0 → src + len ≤ 2 ^ 39 → tgt = 1 ∨ tgt = 2 →
        exec (.ckptEngineGo v) s = .next ((s.setMreg 0x328 (setField (setField v 63 63 1) 62 61 (bits (reg 0x328).toNat 62 61))).setMreg 0x330 0))
    ∧ (s.ckRuns = true → let restores : Prop := (reg 0x328).getLsbD 34 = true
        (restores ∨ s.refusedIn (reg 0x310).toNat (reg 0x318).toNat = none →
          exec (.ckptRunEnd none n) s = .next (ckptEnd (ckptLines s (List.range ((reg 0x318).toNat / 64))) 0)
          ∧ exec (.ckptRunEnd (some .pcie) n) s = .next (ckptEnd (postReport (ckptLines s (ckptDone s n)) 5 0 0 noCell 0 0 0 0 0) 1))
        ∧ ((ckptDone s n).length ≤ n / 64 ∧ ∀ i ∈ ckptDone s n, i < (reg 0x318).toNat / 64 ∧ (restores ∨ s.refusedIn ((reg 0x310).toNat + 64 * i) 64 = none))
        ∧ ∀ ls : List Nat, Tab.sorted s.mgmt = true → (ckptLines s ls).mreg 0x330 = BitVec.ofNat 64 (64 * ls.length))
    ∧ (s.partValid part = true → s.faultQ.contains part = false → exec (.faultQuiesce part) s = .next (orderPart { s.tick with faultQ := s.faultQ ++ [part] } part))
    ∧ (setsReserved v [(11, 0)] = false → 500 ≤ v.toNat → v.toNat ≤ 2000 → exec (.powerCapWrite v) s = .next (s.setMreg 0x400 v))
    ∧ (2000 < v.toNat ∨ v.toNat < 500 → exec (.powerCapWrite v) s = .next (err 0x400))
    ∧ (∀ lower, exec (.powerCapClockChange lower) s = .next { s with slow := lower })
    ∧ (n < 40 → let l := s.link n
        mgmtRead s (0x5000 + 32 * n) = BitVec.ofNat 64 (256 * peerDie n + 4 * b2n l.off + 2 * b2n l.deg + b2n (l.up && !l.off && !l.retraining))
        ∧ mgmtRead s (0x5008 + 32 * n) = BitVec.ofNat 64 l.crcerr ∧ mgmtRead s (0x5010 + 32 * n) = BitVec.ofNat 64 (2 ^ 32 * l.flits + l.epis)
        ∧ mgmtRead s (0x5018 + 32 * n) = BitVec.ofNat 64 (65536 * l.degs + l.trains))
    ∧ (n < 0x900 → mgmtRead s n = reg n)

/-- Decode and encode agree (spec 05 R108, R118 to R123; 06 R138; 14 R310 and every encoding table): the words of every
well-formed cell instruction, with every operand at every value the encoding admits, decode to that instruction with its length. -/
def Obligations.DecodeOfEncode : Prop :=
  ∀ (i : Instr) (w : Word), wellFormed i = true → encode i = some w → decode (w.setWidth 32) (w.extractLsb' 32 32) = .instr i i.len

/-- Each word has one meaning (spec 05 R118, R119): an instruction that the decoder reads is well formed and has the very words
it was read from, 4 bytes or 8 bytes long; no other field of the word is dropped. -/
def Obligations.EncodeOfDecode : Prop :=
  ∀ (p hi : W32) (i : Instr) (len : Nat), decode p hi = .instr i len →
    wellFormed i = true ∧ i.len = len ∧ (len = 4 ∧ parcelLength p = 4 ∧ encode i = some (p.setWidth 64) ∨ len = 8 ∧ parcelLength p = 8 ∧ encode i = some (hi ++ p))

/-- Words of the spec's own examples and tables decode to the instructions they stand for (spec 02 R50; 03 R76; 05 R117; 06 R146
to R151; 09 R219; 11 R269; 14 R310, R319; 16 R339): one of each major opcode family. -/
def Obligations.DecodeWords : Prop :=
  let q (w : Word) : Decoded := decode (w.setWidth 32) (w.extractLsb' 32 32)
  decode 0x00C58533 0 = .instr (.add 10 11 12) 4
  ∧ decode 0x00409F8B 0 = .instr (.loopi 63 4) 4
  ∧ decode 0x0072800B 0 = .instr (.loop 5 7) 4
  ∧ decode 0x0000300B 0 = .instr .yield 4
  ∧ decode 0x0030450B 0 = .instr (.widf 10 3) 4
  ∧ q 0x00000000062D543F = .instr (.launch 10 11 12) 8
  ∧ q 0x000000240821013F = .instr (.vfltVadd 8 8 16 false ⟨2, false⟩ .f32) 8
  ∧ q 0x004000200029043F = .instr (.vld 8 10 64 ⟨0, false⟩ .f32) 8
  ∧ q 0x001C00000000103F = .instr (.qfence true true false .pkg) 8
  ∧ q 0x000000000000183F = .instr .tret 8
  ∧ q 0x00000400002814BF = .instr (.retireH 10) 8

/-- A step runs the decoded instruction (spec 05 R108, R118; 18 R373, R382; the agenda, which says whose turn it is, is the model's
choice, log 1). Where the agenda gives a core a turn and its rotation has a ready member, that cell takes the turn; the parcels at
its pc, in its core's instruction cache, are read little-endian; what they decode to is executed, and where they decode to nothing
the illegal instruction is; an instruction that has issued completes as it was fetched (05 R115). Where the cell's gang has been
ordered to land, the turn is counted first. Where the agenda names a step of the device, the step is that instruction. -/
def Obligations.StepRunsTheDecodedInstruction : Prop :=
  ∀ (s : State) (rest : List Act),
    let s0 : State := { s with agenda := rest }
    (∀ i, s.agenda = .event i :: rest → step s = exec i s0)
    ∧ ∀ (core sl : Nat) (l : ILine) (p hi : W32), s.agenda = .turn core :: rest → nextSlot s0 core = some sl →
        let t := takeTurn s0 core sl
        let pc := t.me.pc.toNat
        let landing : Prop := t.myGang.st = .landing
        let u (p hi : W32) : State := (if t.myGang.st == .landing then t.modMe fun c => { c with turns := c.turns + 1 } else t).modMe fun c => { c with parcels := some (p, hi) }
        let cached (a : Nat) (l : ILine) : Prop := iFind (t.core core).icache t.myLaunch.asid (lineOf a) = some l
        sl < 8 → (¬ landing ∨ t.me.turns < 4096 ∨ t.me.reply.isSome = true) → (t.me.tlev ≠ 0 ∨ t.me.asyncs = [] ∨ t.me.reply.isSome = true) →
        t.me.vrecs = [] → t.me.barp = none →
        (t.me.parcels = some (p, hi) → ∀ i len, decode p hi = .instr i len → step s = exec i (u p hi))
        ∧ (∀ a, t.read (l.pa + a % 64 / 4 * 4) 4 = (l.data.drop (a % 64)).take 4 → cachedParcel t l a = BitVec.ofNat 32 (leNat ((l.data.drop (a % 64)).take 4)))
        ∧ (t.me.parcels = none → pc + 4 < 2 ^ 56 → (∀ a, codeGone t t.myLaunch a = false) → cached pc l → cachedParcel t l pc = p →
        (parcelLength p ≠ 8 →
          (∀ i len, decode p 0 = .instr i len → step s = exec i (u p 0))
          ∧ ∀ why len w, decode p 0 = .illegal why len w → step s = exec (.illegalInstruction len w) (u p 0))
        ∧ (parcelLength p = 8 → ∀ l2, cached (pc + 4) l2 → cachedParcel t l2 (pc + 4) = hi →
          (∀ i len, decode p hi = .instr i len → step s = exec i (u p hi))
          ∧ ∀ why len w, decode p hi = .illegal why len w → step s = exec (.illegalInstruction len w) (u p hi)))

/-- Nothing stops the machine: every instruction and every step of the device answers a next state, in every state (spec 05
R119, 18 R368: what cannot be executed traps or kills). A step of the device that is not due changes nothing: the model's
choice, log 2. -/
def Obligations.NothingStops : Prop :=
  (∀ (i : Instr) (s : State), ∃ t, exec i s = .next t) ∧ ∀ s : State, ∃ t, step s = .next t

/-- Memory keeps its form (spec 07 R159, R161: each byte of the address space holds one value). Every instruction and every step of the device
leaves memory in its canonical form where it was: the addresses that it lists rise, and none of them reads as an unlisted one, so that equal
memories are equal data. It has that form after reset. That an unlisted byte reads 0 is the model's choice (log 3). -/
def Obligations.MemoryKeepsItsForm : Prop :=
  memOk State.reset = true ∧ (∀ (i : Instr) (s t : State), memOk s = true → exec i s = .next t → memOk t = true)
  ∧ ∀ s t : State, memOk s = true → step s = .next t → memOk t = true

/-- The machine after reset and a cell at the start of an item (spec 01 R6, R7, R19; 02 R51). After reset no cell is resident
and no work is there, every hive is unassigned, and the management block's registers have their reset values. A cell at the
start of an item has pc ENTRY, a0 to a7 from ARGS, its other registers zero and full, an empty loop stack, trap level 0, and
hoqen, leaseq, ttvec and tsave from the header. -/
def Obligations.ResetAndItemStart : Prop :=
  (State.reset.cells = [] ∧ State.reset.gangs = [] ∧ State.reset.launches = [] ∧ State.reset.queues = [] ∧ State.reset.broods = []
    ∧ (∀ n, n < 16 → State.reset.partValid n = false) ∧ (∀ h, State.reset.partOfHive h = none)
    ∧ State.reset.mreg 0 = 1 ∧ State.reset.mreg 8 = 0 ∧ State.reset.mreg 0x400 = 2000 ∧ (∀ n, n < 16 → State.reset.mreg (0x500 + 8 * n) = 0x050A1428)
    ∧ memOk State.reset = true ∧ State.reset.vfEnable = false)
  ∧ ∀ (gid j : Nat) (h : Hdr) (wid : Word),
      let c := cellAt gid j h wid
      c.gang = gid ∧ c.j = j ∧ c.wid = wid ∧ c.pc = h.entry ∧ c.f = Vector.replicate 32 0 ∧ c.v = Vector.replicate 32 0 ∧ c.m = Vector.replicate 8 0
      ∧ (∀ i : Fin 32, c.x[i] = if 10 ≤ i.val ∧ i.val < 18 then (h.args[i.val - 10]?).getD 0 else 0)
      ∧ c.xe = 0 ∧ c.fe = 0 ∧ c.ve = 0 ∧ c.loops = [] ∧ c.tlev = 0 ∧ c.vl = 0 ∧ c.mbox = [] ∧ c.resv = none ∧ c.run = .ready
      ∧ c.csr.qfcsr = 0 ∧ c.csr.fetrap = 0 ∧ c.csr.fetrapf = 0 ∧ c.csr.fetrapv = 0 ∧ c.csr.qsatcnt = 0 ∧ c.csr.qufcnt = 0 ∧ c.csr.mocsig = 0
      ∧ c.csr.hoqen = BitVec.ofNat 64 h.hoq ∧ c.csr.ttvec = h.tvec ∧ c.csr.leaseq = BitVec.ofNat 64 h.quantum
      ∧ (h.tvec = 0 → c.csr.tsave = 0)
      ∧ (h.tvec ≠ 0 → h.cells ≤ h.lsu * 4 → j < h.cells → h.cells ≤ 8 → h.lsu ≤ 68 →
          c.csr.tsave = BitVec.ofNat 64 (7 * 2 ^ 61 + h.lsu * 4096 - 1024 * (h.cells - j)))
end

