-- ==== Sys2Proof/Laws/Encoding.lean ====
section
/-! SUPPORT. Lemmas about fields and words: packing and unpacking, codes and immediates are inverse, and one lemma for each
instruction length that turns a candidate into a decoded instruction. -/

namespace Sys2Proof

theorem extract_hi {a b n st : Nat} (x : BitVec a) (y : BitVec b) (h : b ≤ st) :
    (x ++ y).extractLsb' st n = x.extractLsb' (st - b) n := by
  ext j hj
  have : ¬ st + j < b := by omega
  simp only [BitVec.getElem_extractLsb', BitVec.getLsbD_append, this, if_false]
  congr 1; omega

theorem extract_self {a : Nat} (x : BitVec a) : x.extractLsb' 0 a = x := by ext j hj; simp

theorem extract_lo {a b : Nat} (x : BitVec a) (y : BitVec b) : (x ++ y).extractLsb' 0 b = y := by
  ext j hj; simp [BitVec.getLsbD_append, hj]

theorem extract_join {a b : Nat} (x : BitVec (a + b)) : x.extractLsb' b a ++ x.extractLsb' 0 b = x := by
  ext j hj
  simp only [BitVec.getElem_append, BitVec.getElem_extractLsb']
  split
  · simp [BitVec.getLsbD_eq_getElem, hj]
  · have : b + (j - b) = j := by omega
    rw [this]; simp [BitVec.getLsbD_eq_getElem, hj]

theorem F32.unpack_pack (f : F32) : F32.unpack f.pack = f := by
  cases f with | mk op rd f3 rs1 rs2 f7 =>
  simp only [F32.pack, F32.unpack, F32.mk.injEq]
  refine ⟨extract_lo _ _, (extract_hi (st := 7) _ op (by decide)).trans (extract_lo _ _),
    (extract_hi (st := 12) _ op (by decide)).trans ((extract_hi (st := 5) _ rd (by decide)).trans (extract_lo _ _)),
    (extract_hi (st := 15) _ op (by decide)).trans ((extract_hi (st := 8) _ rd (by decide)).trans
      ((extract_hi (st := 3) _ f3 (by decide)).trans (extract_lo _ _))), ?_, ?_⟩
  · exact (extract_hi (st := 20) _ op (by decide)).trans ((extract_hi (st := 13) _ rd (by decide)).trans
      ((extract_hi (st := 8) _ f3 (by decide)).trans ((extract_hi (st := 5) _ rs1 (by decide)).trans (extract_lo _ _))))
  · exact (extract_hi (st := 25) _ op (by decide)).trans ((extract_hi (st := 18) _ rd (by decide)).trans
      ((extract_hi (st := 13) _ f3 (by decide)).trans ((extract_hi (st := 10) _ rs1 (by decide)).trans
        ((extract_hi (st := 5) _ rs2 (by decide)).trans (extract_self _)))))

/-- The bits above a Q64 word's seven lowest. -/
def Q64.rest (q : Q64) : BitVec 57 := q.imm ++ q.fn ++ q.t ++ bit1 q.n ++ q.k ++ q.c ++ q.b ++ q.a ++ q.d ++ q.major

theorem bit1_get (n : Bool) : (bit1 n).getLsbD 0 = n := by cases n <;> rfl

theorem get_hi {a b st : Nat} (x : BitVec a) (y : BitVec b) (h : b ≤ st) : (x ++ y).getLsbD st = x.getLsbD (st - b) := by
  have : ¬ st < b := by omega
  simp [BitVec.getLsbD_append, this]

theorem get_lo {a b st : Nat} (x : BitVec a) (y : BitVec b) (h : st < b) : (x ++ y).getLsbD st = y.getLsbD st := by
  simp [BitVec.getLsbD_append, h]

theorem Q64.unpack_pack (q : Q64) : Q64.unpack q.pack = q := by
  cases q with | mk imm fn t n k c b a d major =>
  simp only [Q64.pack, Q64.unpack, Q64.mk.injEq]
  have h0 (st n : Nat) (h : 7 ≤ st) : (Q64.pack ⟨imm, fn, t, ‹Bool›, k, c, b, a, d, major⟩).extractLsb' st n
    = (Q64.rest ⟨imm, fn, t, ‹Bool›, k, c, b, a, d, major⟩).extractLsb' (st - 7) n := extract_hi (a := 57) (b := 7) _ _ h
  refine ⟨?_, ?_, ?_, ?_, ?_, ?_, ?_, ?_, ?_, ?_⟩
  · exact (h0 48 16 (by decide)).trans ((extract_hi (st := 41) _ major (by decide)).trans ((extract_hi (st := 35) _ d (by decide)).trans
      ((extract_hi (st := 30) _ a (by decide)).trans ((extract_hi (st := 25) _ b (by decide)).trans ((extract_hi (st := 20) _ c (by decide)).trans
      ((extract_hi (st := 15) _ k (by decide)).trans ((extract_hi (st := 12) _ (bit1 n) (by decide)).trans ((extract_hi (st := 11) _ t (by decide)).trans
      ((extract_hi (st := 6) _ fn (by decide)).trans (extract_self _))))))))))
  · exact (h0 42 6 (by decide)).trans ((extract_hi (st := 35) _ major (by decide)).trans ((extract_hi (st := 29) _ d (by decide)).trans
      ((extract_hi (st := 24) _ a (by decide)).trans ((extract_hi (st := 19) _ b (by decide)).trans ((extract_hi (st := 14) _ c (by decide)).trans
      ((extract_hi (st := 9) _ k (by decide)).trans ((extract_hi (st := 6) _ (bit1 n) (by decide)).trans ((extract_hi (st := 5) _ t (by decide)).trans
      (extract_lo _ _)))))))))
  · exact (h0 37 5 (by decide)).trans ((extract_hi (st := 30) _ major (by decide)).trans ((extract_hi (st := 24) _ d (by decide)).trans
      ((extract_hi (st := 19) _ a (by decide)).trans ((extract_hi (st := 14) _ b (by decide)).trans ((extract_hi (st := 9) _ c (by decide)).trans
      ((extract_hi (st := 4) _ k (by decide)).trans ((extract_hi (st := 1) _ (bit1 n) (by decide)).trans (extract_lo _ _))))))))
  · exact (get_hi (a := 57) (b := 7) (st := 36) _ _ (by decide)).trans ((get_hi (st := 29) _ major (by decide)).trans
      ((get_hi (st := 23) _ d (by decide)).trans ((get_hi (st := 18) _ a (by decide)).trans ((get_hi (st := 13) _ b (by decide)).trans
      ((get_hi (st := 8) _ c (by decide)).trans ((get_hi (st := 3) _ k (by decide)).trans
      ((get_lo (st := 0) _ (bit1 n) (by decide)).trans (bit1_get n))))))))
  · exact (h0 33 3 (by decide)).trans ((extract_hi (st := 26) _ major (by decide)).trans ((extract_hi (st := 20) _ d (by decide)).trans
      ((extract_hi (st := 15) _ a (by decide)).trans ((extract_hi (st := 10) _ b (by decide)).trans ((extract_hi (st := 5) _ c (by decide)).trans
      (extract_lo _ _))))))
  · exact (h0 28 5 (by decide)).trans ((extract_hi (st := 21) _ major (by decide)).trans ((extract_hi (st := 15) _ d (by decide)).trans
      ((extract_hi (st := 10) _ a (by decide)).trans ((extract_hi (st := 5) _ b (by decide)).trans (extract_lo _ _)))))
  · exact (h0 23 5 (by decide)).trans ((extract_hi (st := 16) _ major (by decide)).trans ((extract_hi (st := 10) _ d (by decide)).trans
      ((extract_hi (st := 5) _ a (by decide)).trans (extract_lo _ _))))
  · exact (h0 18 5 (by decide)).trans ((extract_hi (st := 11) _ major (by decide)).trans ((extract_hi (st := 5) _ d (by decide)).trans
      (extract_lo _ _)))
  · exact (h0 13 5 (by decide)).trans ((extract_hi (st := 6) _ major (by decide)).trans (extract_lo _ _))
  · exact (h0 7 6 (by decide)).trans (extract_lo _ _)

/-! ### Lengths -/

theorem append_toNat_mod {a b : Nat} (x : BitVec a) (y : BitVec b) : (x ++ y).toNat % 2 ^ b = y.toNat := by
  have h := y.isLt
  rw [BitVec.toNat_append, Nat.shiftLeft_eq, Nat.mul_comm, ← Nat.two_pow_add_eq_or_of_lt h, Nat.mul_add_mod, Nat.mod_eq_of_lt h]

theorem F32.pack_mod (f : F32) : f.pack.toNat % 128 = f.op.toNat := append_toNat_mod (b := 7) _ f.op

theorem Q64.pack_mod (q : Q64) : q.pack.toNat % 128 = 63 := append_toNat_mod (a := 57) (b := 7) _ (0x3F : BitVec 7)

/-- Decoding the words of an instruction gives it back. -/
def DecodesBack (i : Instr) (w : Word) : Prop := decode (w.setWidth 32) (w.extractLsb' 32 32) = .instr i i.len

theorem roundTrip32 {i : Instr} {f : F32} (op : BitVec 7) (hw : wellFormed i = true) (he : encode32 i = some f) (hc : cand32 f = some i)
    (ho : f.op = op) (h : op.toNat % 4 = 3 ∧ op.toNat / 4 % 8 ≠ 7) : ∀ w, encode i = some w → DecodesBack i w := by
  intro w hi
  obtain ⟨h4, h8⟩ := ho ▸ h
  have hw' : w = f.pack.setWidth 64 := by simp [encode, he] at hi; exact hi.symm
  subst hw'
  have hp : (f.pack.setWidth 64).setWidth 32 = f.pack := by simp
  have hm := F32.pack_mod f
  have hl : parcelLength f.pack = 4 := by
    unfold parcelLength
    have h1 : f.pack.toNat % 4 = 3 := by omega
    have h2 : f.pack.toNat / 4 % 8 ≠ 7 := by omega
    simp [h1, h2]
  have hlen : i.len = 4 := by simp [Instr.len, he]
  simp only [DecodesBack, hp, decode, hl, decode32, F32.unpack_pack, hc, hw, he, hlen, beq_self_eq_true, Bool.and_self, if_true]

theorem roundTripQ {i : Instr} {q : Q64} (hw : wellFormed i = true) (h0 : encode32 i = none) (he : encodeQ i = some q)
    (hc : candQ q = some i) : ∀ w, encode i = some w → DecodesBack i w := by
  intro w h
  have hw' : w = q.pack := by simp [encode, he, h0] at h; exact h.symm
  subst hw'
  have hp : q.pack.extractLsb' 32 32 ++ q.pack.setWidth 32 = q.pack := by
    have := extract_join (a := 32) (b := 32) q.pack
    rw [show q.pack.setWidth 32 = q.pack.extractLsb' 0 32 from by ext j hj; simp]
    exact this
  have hm := Q64.pack_mod q
  have hl : parcelLength (q.pack.setWidth 32) = 8 := by
    unfold parcelLength
    have h0 : (q.pack.setWidth 32).toNat = q.pack.toNat % 2 ^ 32 := by simp
    have h1 : (q.pack.setWidth 32).toNat % 4 = 3 := by omega
    have h2 : (q.pack.setWidth 32).toNat / 4 % 8 = 7 := by omega
    have h3 : (q.pack.setWidth 32).toNat % 64 = 63 := by omega
    have h4 : (q.pack.setWidth 32).toNat % 128 = 63 := by omega
    simp only [h1, h2, h3, h4]
    rfl
  have hlen : i.len = 8 := by simp [Instr.len, he, h0]
  simp only [DecodesBack, decode, hl, decodeQ, hp, Q64.unpack_pack, hc, hw, he, hlen, beq_self_eq_true, Bool.and_self, if_true]

/-! ### Immediates and codes -/

theorem immI_encI (op : BitVec 7) (f3 : BitVec 3) (rd rs1 : Reg) (imm : BitVec 12) : (encI op f3 rd rs1 imm).immI = imm :=
  extract_join (a := 7) (b := 5) imm

theorem immS_encS (op : BitVec 7) (f3 : BitVec 3) (rs1 rs2 : Reg) (imm : BitVec 12) : (encS op f3 rs1 rs2 imm).immS = imm :=
  extract_join (a := 7) (b := 5) imm

theorem extract_adj {w m n s : Nat} (x : BitVec w) : x.extractLsb' (s + n) m ++ x.extractLsb' s n = x.extractLsb' s (m + n) := by
  ext j hj
  simp only [BitVec.getElem_append, BitVec.getElem_extractLsb']
  split
  · rfl
  · congr 1; omega

theorem immU_encU (op : BitVec 7) (rd : Reg) (imm : BitVec 20) : (encU op rd imm).immU = imm := by
  have h1 := extract_adj (m := 7) (n := 5) (s := 8) imm
  have h2 := extract_adj (m := 12) (n := 5) (s := 3) imm
  have h3 := extract_adj (m := 17) (n := 3) (s := 0) imm
  have h4 := extract_self imm
  simp only [encU, F32.immU]
  exact (congrArg (fun v : BitVec 12 => v ++ imm.extractLsb' 3 5 ++ imm.extractLsb' 0 3) h1).trans
    ((congrArg (fun v : BitVec 17 => v ++ imm.extractLsb' 0 3) h2).trans (h3.trans h4))

theorem immB_encB (f3 : BitVec 3) (rs1 rs2 : Reg) (imm : BitVec 12) : (encB f3 rs1 rs2 imm).immB = imm := by
  have a1 : (imm.extractLsb' 11 1 ++ imm.extractLsb' 4 6).extractLsb' 6 1 = imm.extractLsb' 11 1 :=
    (extract_hi (st := 6) _ _ (by decide)).trans (extract_self _)
  have a2 : (imm.extractLsb' 11 1 ++ imm.extractLsb' 4 6).extractLsb' 0 6 = imm.extractLsb' 4 6 := extract_lo _ _
  have a3 : (imm.extractLsb' 0 4 ++ imm.extractLsb' 10 1).extractLsb' 1 4 = imm.extractLsb' 0 4 :=
    (extract_hi (st := 1) _ _ (by decide)).trans (extract_self _)
  have a4 : (imm.extractLsb' 0 4 ++ imm.extractLsb' 10 1).extractLsb' 0 1 = imm.extractLsb' 10 1 := extract_lo _ _
  have h1 := extract_adj (m := 1) (n := 1) (s := 10) imm
  have h2 := extract_adj (m := 2) (n := 6) (s := 4) imm
  have h3 := extract_adj (m := 8) (n := 4) (s := 0) imm
  have h4 := extract_self imm
  show (imm.extractLsb' 11 1 ++ imm.extractLsb' 4 6).extractLsb' 6 1 ++ (imm.extractLsb' 0 4 ++ imm.extractLsb' 10 1).extractLsb' 0 1
    ++ (imm.extractLsb' 11 1 ++ imm.extractLsb' 4 6).extractLsb' 0 6 ++ (imm.extractLsb' 0 4 ++ imm.extractLsb' 10 1).extractLsb' 1 4 = imm
  rw [a1, a2, a3, a4]
  exact (congrArg (fun v : BitVec 2 => v ++ imm.extractLsb' 4 6 ++ imm.extractLsb' 0 4) h1).trans
    ((congrArg (fun v : BitVec 8 => v ++ imm.extractLsb' 0 4) h2).trans (h3.trans h4))

theorem immJ_encJ (rd : Reg) (imm : BitVec 20) : (encJ rd imm).immJ = imm := by
  have hu : (encJ rd imm).immU = imm.extractLsb' 19 1 ++ imm.extractLsb' 0 10 ++ imm.extractLsb' 10 1 ++ imm.extractLsb' 11 8 :=
    immU_encU _ _ _
  have a1 : (imm.extractLsb' 19 1 ++ imm.extractLsb' 0 10 ++ imm.extractLsb' 10 1 ++ imm.extractLsb' 11 8).extractLsb' 19 1
      = imm.extractLsb' 19 1 :=
    (extract_hi (st := 19) _ _ (by decide)).trans ((extract_hi (st := 11) _ _ (by decide)).trans
      ((extract_hi (st := 10) _ _ (by decide)).trans (extract_self _)))
  have a2 : (imm.extractLsb' 19 1 ++ imm.extractLsb' 0 10 ++ imm.extractLsb' 10 1 ++ imm.extractLsb' 11 8).extractLsb' 0 8
      = imm.extractLsb' 11 8 := extract_lo _ _
  have a3 : (imm.extractLsb' 19 1 ++ imm.extractLsb' 0 10 ++ imm.extractLsb' 10 1 ++ imm.extractLsb' 11 8).extractLsb' 8 1
      = imm.extractLsb' 10 1 := (extract_hi (st := 8) _ _ (by decide)).trans (extract_lo _ _)
  have a4 : (imm.extractLsb' 19 1 ++ imm.extractLsb' 0 10 ++ imm.extractLsb' 10 1 ++ imm.extractLsb' 11 8).extractLsb' 9 10
      = imm.extractLsb' 0 10 :=
    (extract_hi (st := 9) _ _ (by decide)).trans ((extract_hi (st := 1) _ _ (by decide)).trans (extract_lo _ _))
  have h1 := extract_adj (m := 1) (n := 8) (s := 11) imm
  have h2 := extract_adj (m := 9) (n := 1) (s := 10) imm
  have h3 := extract_adj (m := 10) (n := 10) (s := 0) imm
  have h4 := extract_self imm
  show (encJ rd imm).immU.extractLsb' 19 1 ++ (encJ rd imm).immU.extractLsb' 0 8 ++ (encJ rd imm).immU.extractLsb' 8 1
    ++ (encJ rd imm).immU.extractLsb' 9 10 = imm
  rw [hu, a1, a2, a3, a4]
  exact (congrArg (fun v : BitVec 9 => v ++ imm.extractLsb' 10 1 ++ imm.extractLsb' 0 10) h1).trans
    ((congrArg (fun v : BitVec 10 => v ++ imm.extractLsb' 0 10) h2).trans (h3.trans h4))

theorem Ty.ofCode_code (t : Ty) : Ty.ofCode t.code = some t := by cases t <;> rfl
theorem Pair.ofCode_code (t : Pair) : Pair.ofCode t.code = some t := by cases t <;> rfl
theorem Scope.ofCode_code (t : Scope) : Scope.ofCode t.code = some t := by cases t <;> rfl
theorem Cond.ofCode_code (t : Cond) : Cond.ofCode t.code = some t := by cases t <;> rfl
theorem BarLevel.ofCode_code (t : BarLevel) : BarLevel.ofCode t.code = some t := by cases t <;> rfl

theorem mOf_mreg (m : MReg) : Q64.mOf (mreg m) = m := extract_lo (a := 2) (b := 3) _ m
theorem immBit_get (b : Bool) : (immBit b).getLsbD 0 = b := by cases b <;> rfl
theorem tOf_treg (t : Tile) : Q64.tOf (treg t) = t := extract_lo (a := 3) (b := 2) _ t

/-! ### Candidates whose fields are shared by two constructors -/

theorem amo_f5 (f : BitVec 5) (aq rl : Bool) : (amoF7 f aq rl).extractLsb' 2 5 = f := 
  (extract_hi (a := 6) (b := 1) (st := 2) (f ++ bit1 aq) (bit1 rl) (by decide)).trans ((extract_hi (st := 1) f (bit1 aq) (by decide)).trans (extract_self _))
theorem amo_aq (f : BitVec 5) (aq rl : Bool) : (amoF7 f aq rl).getLsbD 1 = aq := 
  (get_hi (a := 6) (b := 1) (st := 1) (f ++ bit1 aq) (bit1 rl) (by decide)).trans ((get_lo (st := 0) f (bit1 aq) (by decide)).trans (bit1_get _))
theorem amo_rl (f : BitVec 5) (aq rl : Bool) : (amoF7 f aq rl).getLsbD 0 = rl := 
  (get_lo (a := 6) (b := 1) (st := 0) (f ++ bit1 aq) (bit1 rl) (by decide)).trans (bit1_get _)
theorem cand_slli (rd rs1 sh) : cand32 (encI 0x13 1 rd rs1 ((0 : BitVec 6) ++ sh)) = some (.slli rd rs1 sh) :=
  (congrArg (fun v : BitVec 12 => some (Instr.slli rd rs1 (v.extractLsb' 0 6))) (immI_encI 0x13 1 rd rs1 _)).trans
    (congrArg (fun v => some (Instr.slli rd rs1 v)) (extract_lo (0 : BitVec 6) sh))
theorem sh_bit (k : BitVec 6) (sh : BitVec 6) : ((k ++ sh : BitVec 12).extractLsb' 5 7).getLsbD 5 = k.getLsbD 4 := by
  rw [BitVec.getLsbD_extractLsb']; exact congrArg (fun b => decide (5 < 7) && b) (get_hi (st := 10) k sh (by decide))
theorem cand_srli (rd rs1 sh) : cand32 (encI 0x13 5 rd rs1 ((0 : BitVec 6) ++ sh)) = some (.srli rd rs1 sh) :=
  (congrArg (fun b : Bool => some (if b then Instr.srai rd rs1 ((encI 0x13 5 rd rs1 ((0 : BitVec 6) ++ sh)).immI.extractLsb' 0 6) else Instr.srli rd rs1 ((encI 0x13 5 rd rs1 ((0 : BitVec 6) ++ sh)).immI.extractLsb' 0 6))) (sh_bit 0 sh)).trans
  ((congrArg (fun v : BitVec 12 => some (Instr.srli rd rs1 (v.extractLsb' 0 6))) (immI_encI 0x13 5 rd rs1 _)).trans
    (congrArg (fun v => some (Instr.srli rd rs1 v)) (extract_lo (0 : BitVec 6) sh)))
theorem cand_srai (rd rs1 sh) : cand32 (encI 0x13 5 rd rs1 ((16 : BitVec 6) ++ sh)) = some (.srai rd rs1 sh) :=
  (congrArg (fun b : Bool => some (if b then Instr.srai rd rs1 ((encI 0x13 5 rd rs1 ((16 : BitVec 6) ++ sh)).immI.extractLsb' 0 6) else Instr.srli rd rs1 ((encI 0x13 5 rd rs1 ((16 : BitVec 6) ++ sh)).immI.extractLsb' 0 6))) (sh_bit 16 sh)).trans
  ((congrArg (fun v : BitVec 12 => some (Instr.srai rd rs1 (v.extractLsb' 0 6))) (immI_encI 0x13 5 rd rs1 _)).trans
    (congrArg (fun v => some (Instr.srai rd rs1 v)) (extract_lo (16 : BitVec 6) sh)))
theorem cand_loopi (c : BitVec 10) (imm) : cand32 (encI 0x0b 1 (c.extractLsb' 0 5) (c.extractLsb' 5 5) imm) = some (.loopi c imm) :=
  (congrArg (fun v => some (Instr.loopi (c.extractLsb' 5 5 ++ c.extractLsb' 0 5) v)) (immI_encI _ _ _ _ _)).trans
   (congrArg (fun v => some (Instr.loopi v imm)) (extract_join (a := 5) (b := 5) c))
theorem cand_widf (k : BitVec 9) (rd i) : cand32 (encI 0x0b 4 rd 0 (k ++ i)) = some (if k.extractLsb' 0 2 = 0 then .widf rd i else if k.extractLsb' 0 2 = 1 then .widfExt rd i else .widfLvl rd i) := by
  have h : (k ++ i : BitVec 12).extractLsb' 3 2 = k.extractLsb' 0 2 := extract_hi (st := 3) k i (by decide)
  have h' : (k ++ i : BitVec 12).extractLsb' 0 3 = i := extract_lo k i
  have h2 := immI_encI 0x0b 4 rd 0 (k ++ i)
  show some (if (encI 0x0b 4 rd 0 (k ++ i)).immI.extractLsb' 3 2 = 0 then Instr.widf rd ((encI 0x0b 4 rd 0 (k ++ i)).immI.extractLsb' 0 3)
    else if (encI 0x0b 4 rd 0 (k ++ i)).immI.extractLsb' 3 2 = 1 then Instr.widfExt rd ((encI 0x0b 4 rd 0 (k ++ i)).immI.extractLsb' 0 3) else Instr.widfLvl rd ((encI 0x0b 4 rd 0 (k ++ i)).immI.extractLsb' 0 3)) = _
  rw [h2, h, h']
theorem f7_fm (fm pr su : BitVec 4) : ((fm ++ pr ++ su : BitVec 12).extractLsb' 5 7).extractLsb' 3 4 = fm := by
  have h : ((fm ++ pr ++ su : BitVec 12).extractLsb' 5 7).extractLsb' 3 4 = (fm ++ pr ++ su : BitVec 12).extractLsb' 8 4 := by
    ext j hj; simp only [BitVec.getElem_extractLsb', BitVec.getLsbD_extractLsb']
    have : 3 + j < 7 := by omega
    simp only [this, decide_true, Bool.true_and]; congr 1; omega
  exact h.trans ((extract_hi (st := 8) (fm ++ pr) su (by decide)).trans ((extract_hi (st := 4) fm pr (by decide)).trans (extract_self _)))
theorem pr_of (fm pr su : BitVec 4) : (fm ++ pr ++ su : BitVec 12).extractLsb' 4 4 = pr :=
  (extract_hi (st := 4) (fm ++ pr) su (by decide)).trans (extract_lo _ _)
theorem su_of (fm pr su : BitVec 4) : (fm ++ pr ++ su : BitVec 12).extractLsb' 0 4 = su := extract_lo _ _
theorem cand_fence (fm pr su : BitVec 4) (rs1 rd : Reg) (h : ¬ (encI 0x0f 0 rd rs1 (fm ++ pr ++ su)).pack = 0x0100000F) :
   cand32 (encI 0x0f 0 rd rs1 (fm ++ pr ++ su)) = some (if fm = 8 then .fenceTso pr su rs1 rd else .fence fm pr su rs1 rd) := by
  have h1 := immI_encI 0x0f 0 rd rs1 (fm ++ pr ++ su)
  have h2 := f7_fm fm pr su
  have h3 := pr_of fm pr su
  have h4 := su_of fm pr su
  show some (if (encI 0x0f 0 rd rs1 (fm ++ pr ++ su)).pack = 0x0100000F then Instr.pause else 
     if ((fm ++ pr ++ su : BitVec 12).extractLsb' 5 7).extractLsb' 3 4 = 8 then .fenceTso ((encI 0x0f 0 rd rs1 (fm ++ pr ++ su)).immI.extractLsb' 4 4) ((encI 0x0f 0 rd rs1 (fm ++ pr ++ su)).immI.extractLsb' 0 4) rs1 rd
     else .fence (((fm ++ pr ++ su : BitVec 12).extractLsb' 5 7).extractLsb' 3 4) ((encI 0x0f 0 rd rs1 (fm ++ pr ++ su)).immI.extractLsb' 4 4) ((encI 0x0f 0 rd rs1 (fm ++ pr ++ su)).immI.extractLsb' 0 4) rs1 rd) = _
  rw [if_neg h, h1, h2, h3, h4]
theorem fence_fields {fm pr su : BitVec 4} {rs1 rd : Reg} (h : (encI 0x0f 0 rd rs1 (fm ++ pr ++ su)).pack = 0x0100000F) :
    fm = 0 ∧ pr = 1 ∧ su = 0 ∧ rs1 = 0 ∧ rd = 0 := by
  have hu := congrArg F32.unpack h
  rw [F32.unpack_pack] at hu
  have hi := immI_encI 0x0f 0 rd rs1 (fm ++ pr ++ su)
  rw [hu] at hi
  have e : (fm ++ pr ++ su : BitVec 12) = 0x010 := hi.symm
  refine ⟨?_, ?_, ?_, congrArg F32.rs1 hu, congrArg F32.rd hu⟩
  · rw [← f7_fm fm pr su, e]; rfl
  · rw [← pr_of fm pr su, e]; rfl
  · rw [← su_of fm pr su, e]; rfl

theorem ext1 {a b c : Nat} (x : BitVec a) (y : BitVec b) (z : BitVec c) : (x ++ y ++ z).extractLsb' c b = y := by
  rw [extract_hi _ _ (Nat.le_refl _), Nat.sub_self]; exact extract_lo _ _
theorem ext2 {a b c d : Nat} (x : BitVec a) (y : BitVec b) (z : BitVec c) (u : BitVec d) : (x ++ y ++ z ++ u).extractLsb' (d + c) b = y := by
  rw [extract_hi _ _ (by omega), Nat.add_sub_cancel_left]; exact ext1 _ _ _
theorem ext3 {a b c d e : Nat} (x : BitVec a) (y : BitVec b) (z : BitVec c) (u : BitVec d) (v : BitVec e) :
    (x ++ y ++ z ++ u ++ v).extractLsb' (e + (d + c)) b = y := by
  rw [extract_hi _ _ (by omega), Nat.add_sub_cancel_left]; exact ext2 _ _ _ _
theorem bit_1 {a c : Nat} (x : BitVec a) (b : Bool) (z : BitVec c) : (x ++ bit1 b ++ z).getLsbD c = b := by
  rw [get_hi _ _ (Nat.le_refl _), Nat.sub_self]; exact (get_lo _ _ (by decide)).trans (bit1_get b)
theorem bit_2 {a c d : Nat} (x : BitVec a) (b : Bool) (z : BitVec c) (u : BitVec d) : (x ++ bit1 b ++ z ++ u).getLsbD (d + c) = b := by
  rw [get_hi _ _ (by omega), Nat.add_sub_cancel_left]; exact bit_1 _ _ _
theorem bit_3 {a c d e : Nat} (x : BitVec a) (b : Bool) (z : BitVec c) (u : BitVec d) (v : BitVec e) :
    (x ++ bit1 b ++ z ++ u ++ v).getLsbD (e + (d + c)) = b := by
  rw [get_hi _ _ (by omega), Nat.add_sub_cancel_left]; exact bit_2 _ _ _ _

theorem cand_vredamax (d a : Reg) (tm : Bool) (ix : BitVec 4) (p : Pred) (t : Ty) :
    candQ (qv 0x06 0x03 t.code p d a 0 0 ((0 : BitVec 10) ++ BitVec.ofBool tm ++ (0 : BitVec 1) ++ ix)) = some (.vredamax d a tm ix p t) := by
  have h1 : ((0 : BitVec 10) ++ BitVec.ofBool tm ++ (0 : BitVec 1) ++ ix : BitVec 16).getLsbD 5 = tm := by
    have e : BitVec.ofBool tm = bit1 tm := by cases tm <;> rfl
    rw [e]; exact bit_2 (0 : BitVec 10) tm (0 : BitVec 1) ix
  have h2 : ((0 : BitVec 10) ++ BitVec.ofBool tm ++ (0 : BitVec 1) ++ ix : BitVec 16).extractLsb' 0 4 = ix := extract_lo _ _
  show Option.bind (Ty.ofCode t.code) (fun v => some (Instr.vredamax d a (((0 : BitVec 10) ++ BitVec.ofBool tm ++ (0 : BitVec 1) ++ ix : BitVec 16).getLsbD 5)
    (((0 : BitVec 10) ++ BitVec.ofBool tm ++ (0 : BitVec 1) ++ ix : BitVec 16).extractLsb' 0 4) p v)) = _
  rw [Ty.ofCode_code, h1, h2]; rfl
theorem cand_vsrnd (d a b : Reg) (c : MReg) (w : BitVec 6) (p : Pred) (dst src : Ty) :
    candQ (qv 0x07 0x01 dst.code p d a b (mreg c) ((0 : BitVec 5) ++ w ++ src.code)) = some (.vsrnd d a b c w p dst src) := by
  have h1 : ((0 : BitVec 5) ++ w ++ src.code : BitVec 16).extractLsb' 5 6 = w := ext1 _ _ _
  have h2 : ((0 : BitVec 5) ++ w ++ src.code : BitVec 16).extractLsb' 0 5 = src.code := extract_lo _ _
  show Option.bind (Ty.ofCode dst.code) (fun v => Option.bind (Ty.ofCode (((0 : BitVec 5) ++ w ++ src.code : BitVec 16).extractLsb' 0 5)) (fun u =>
     some (Instr.vsrnd d a b (Q64.mOf (mreg c)) (((0 : BitVec 5) ++ w ++ src.code : BitVec 16).extractLsb' 5 6) p v u))) = _
  rw [Ty.ofCode_code, h1, h2, mOf_mreg, Ty.ofCode_code]; rfl
theorem cand_vqnt_flat (d a : Reg) (c : MReg) (src : Ty) :
    candQ (qv 0x07 0x02 Ty.e2m1.code Pred.all d a 0 (mreg c) ((0 : BitVec 4) ++ (1 : BitVec 1) ++ (0 : BitVec 6) ++ src.code)) = some (.vqnt d a none c src) := by
  have h1 : ((0 : BitVec 4) ++ (1 : BitVec 1) ++ (0 : BitVec 6) ++ src.code : BitVec 16).getLsbD 11 = true := bit_2 (0 : BitVec 4) true (0 : BitVec 6) _
  have h2 : ((0 : BitVec 4) ++ (1 : BitVec 1) ++ (0 : BitVec 6) ++ src.code : BitVec 16).extractLsb' 0 5 = src.code := extract_lo _ _
  show Option.bind (Ty.ofCode (((0 : BitVec 4) ++ (1 : BitVec 1) ++ (0 : BitVec 6) ++ src.code : BitVec 16).extractLsb' 0 5)) (fun u =>
     some (Instr.vqnt d a (if ((0 : BitVec 4) ++ (1 : BitVec 1) ++ (0 : BitVec 6) ++ src.code : BitVec 16).getLsbD 11 then none else some 0) (Q64.mOf (mreg c)) u)) = _
  rw [h1, h2, mOf_mreg, Ty.ofCode_code]; rfl
theorem cand_vqnt_reg (d a b : Reg) (c : MReg) (src : Ty) :
    candQ (qv 0x07 0x02 Ty.e2m1.code Pred.all d a b (mreg c) ((0 : BitVec 11) ++ src.code)) = some (.vqnt d a (some b) c src) := by
  have h1 : ((0 : BitVec 11) ++ src.code : BitVec 16).getLsbD 11 = false := (get_hi (st := 11) (0 : BitVec 11) src.code (by decide)).trans rfl
  have h2 : ((0 : BitVec 11) ++ src.code : BitVec 16).extractLsb' 0 5 = src.code := extract_lo _ _
  show Option.bind (Ty.ofCode (((0 : BitVec 11) ++ src.code : BitVec 16).extractLsb' 0 5)) (fun u =>
     some (Instr.vqnt d a (if ((0 : BitVec 11) ++ src.code : BitVec 16).getLsbD 11 then none else some b) (Q64.mOf (mreg c)) u)) = _
  rw [h1, h2, mOf_mreg, Ty.ofCode_code]; rfl
theorem cand_vstx (c a b : Reg) (m : MReg) (p : Pred) (t : Ty) :
    candQ (qv 0x09 0x02 t.code p (mreg m) a b c 1) = some (.vstx c a b (some m) p t) := by
  show Option.bind (Ty.ofCode t.code) (fun v => some (Instr.vstx c a b (if (1 : BitVec 16).getLsbD 0 then some (Q64.mOf (mreg m)) else none) p v)) = _
  rw [Ty.ofCode_code, mOf_mreg]; rfl
theorem cand_vstx_all (c a b : Reg) (p : Pred) (t : Ty) :
    candQ (qv 0x09 0x02 t.code p 0 a b c 0) = some (.vstx c a b none p t) := by
  show Option.bind (Ty.ofCode t.code) (fun v => some (Instr.vstx c a b (if (0 : BitVec 16).getLsbD 0 then some (Q64.mOf 0) else none) p v)) = _
  rw [Ty.ofCode_code]; rfl
theorem cand_vsetvlw (d a b c : Reg) (limit : BitVec 15) (full : Bool) (t : Ty) :
    candQ (qv 0x0A 0x01 t.code Pred.all d a b c (bit1 full ++ limit)) = some (.vsetvlw d a b c limit full t) := by
  have h1 : (bit1 full ++ limit : BitVec 16).getLsbD 15 = full := (get_hi (st := 15) (bit1 full) limit (by decide)).trans (bit1_get _)
  have h2 : (bit1 full ++ limit : BitVec 16).extractLsb' 0 15 = limit := extract_lo _ _
  show Option.bind (Ty.ofCode t.code) (fun v => some (Instr.vsetvlw d a b c ((bit1 full ++ limit : BitVec 16).extractLsb' 0 15) ((bit1 full ++ limit : BitVec 16).getLsbD 15) v)) = _
  rw [Ty.ofCode_code, h1, h2]; rfl
theorem cand_mopa (d : Tile) (a b c : Reg) (km1 : BitVec 12) (ocs : Bool) (p : Pred) (pair : Pair) :
    candQ (qv 0x11 0 pair.code p (treg d) a b c ((0 : BitVec 3) ++ bit1 ocs ++ km1)) = some (.mopa d a b c km1 ocs p pair) := by
  have h1 : ((0 : BitVec 3) ++ bit1 ocs ++ km1 : BitVec 16).getLsbD 12 = ocs := bit_1 _ _ _
  have h2 : ((0 : BitVec 3) ++ bit1 ocs ++ km1 : BitVec 16).extractLsb' 0 12 = km1 := extract_lo _ _
  show Option.bind (Pair.ofCode pair.code) (fun v => some (Instr.mopa (Q64.tOf (treg d)) a b c (((0 : BitVec 3) ++ bit1 ocs ++ km1 : BitVec 16).extractLsb' 0 12)
    (((0 : BitVec 3) ++ bit1 ocs ++ km1 : BitVec 16).getLsbD 12) p v)) = _
  rw [Pair.ofCode_code, h1, h2, tOf_treg]; rfl
theorem drain_back (f : Drain) : (⟨Q64.tOf (treg f.d), f.a, f.b, f.t, ⟨f.p.k, f.p.n⟩, f.imm.getLsbD 14, f.imm.getLsbD 13,
    f.imm.extractLsb' 10 3, f.imm.extractLsb' 6 4, f.imm.extractLsb' 0 6⟩ : Drain) = f := by
  cases f with | mk d a b t p si tm msat nrm1 fr =>
  have h1 : (Drain.imm ⟨d, a, b, t, p, si, tm, msat, nrm1, fr⟩).getLsbD 14 = si :=
    (get_hi (st := 14) ((0 : BitVec 1) ++ bit1 si ++ bit1 tm ++ msat ++ nrm1) fr (by decide)).trans (bit_3 (0 : BitVec 1) si (bit1 tm) msat nrm1)
  have h2 : (Drain.imm ⟨d, a, b, t, p, si, tm, msat, nrm1, fr⟩).getLsbD 13 = tm := bit_3 ((0 : BitVec 1) ++ bit1 si) tm msat nrm1 fr
  have h3 : (Drain.imm ⟨d, a, b, t, p, si, tm, msat, nrm1, fr⟩).extractLsb' 10 3 = msat := ext2 ((0 : BitVec 1) ++ bit1 si ++ bit1 tm) msat nrm1 fr
  have h4 : (Drain.imm ⟨d, a, b, t, p, si, tm, msat, nrm1, fr⟩).extractLsb' 6 4 = nrm1 := ext1 ((0 : BitVec 1) ++ bit1 si ++ bit1 tm ++ msat) nrm1 fr
  have h5 : (Drain.imm ⟨d, a, b, t, p, si, tm, msat, nrm1, fr⟩).extractLsb' 0 6 = fr := extract_lo ((0 : BitVec 1) ++ bit1 si ++ bit1 tm ++ msat ++ nrm1) fr
  simp only [h1, h2, h3, h4, h5, tOf_treg]
theorem cand_mdrain (f : Drain) : candQ (f.q 0x00 0) = some (.mdrain f) := by
  show Option.bind (Ty.ofCode f.t.code) (fun v => some (Instr.mdrain ⟨Q64.tOf (treg f.d), f.a, f.b, v, ⟨f.p.k, f.p.n⟩, f.imm.getLsbD 14, f.imm.getLsbD 13,
    f.imm.extractLsb' 10 3, f.imm.extractLsb' 6 4, f.imm.extractLsb' 0 6⟩)) = _
  rw [Ty.ofCode_code]; exact congrArg (fun v => some (Instr.mdrain v)) (drain_back f)
theorem cand_mdrainRow (f : Drain) (c : Reg) : candQ (f.q 0x01 c) = some (.mdrainRow f c) := by
  show Option.bind (Ty.ofCode f.t.code) (fun v => some (Instr.mdrainRow ⟨Q64.tOf (treg f.d), f.a, f.b, v, ⟨f.p.k, f.p.n⟩, f.imm.getLsbD 14, f.imm.getLsbD 13,
    f.imm.extractLsb' 10 3, f.imm.extractLsb' 6 4, f.imm.extractLsb' 0 6⟩ c)) = _
  rw [Ty.ofCode_code]; exact congrArg (fun v => some (Instr.mdrainRow v c)) (drain_back f)
theorem cand_mdrainDly (f : Drain) (c : Reg) : candQ (f.q 0x02 c) = some (.mdrainDly f c) := by
  show Option.bind (Ty.ofCode f.t.code) (fun v => some (Instr.mdrainDly ⟨Q64.tOf (treg f.d), f.a, f.b, v, ⟨f.p.k, f.p.n⟩, f.imm.getLsbD 14, f.imm.getLsbD 13,
    f.imm.extractLsb' 10 3, f.imm.extractLsb' 6 4, f.imm.extractLsb' 0 6⟩ c)) = _
  rw [Ty.ofCode_code]; exact congrArg (fun v => some (Instr.mdrainDly v c)) (drain_back f)
theorem row_back (ix : RowIx) (col : Bool) : (if (rowImm ix col).getLsbD 6 then RowIx.reg (rowReg ix) else .imm ((rowImm ix col).extractLsb' 0 6)) = ix
    ∧ (rowImm ix col).getLsbD 7 = col := by
  cases ix with
  | imm i =>
    have h1 : ((0 : BitVec 8) ++ bit1 col ++ (0 : BitVec 1) ++ i : BitVec 16).getLsbD 6 = false := bit_1 ((0 : BitVec 8) ++ bit1 col) false i
    have h2 : ((0 : BitVec 8) ++ bit1 col ++ (0 : BitVec 1) ++ i : BitVec 16).extractLsb' 0 6 = i := extract_lo _ _
    have h3 : ((0 : BitVec 8) ++ bit1 col ++ (0 : BitVec 1) ++ i : BitVec 16).getLsbD 7 = col := bit_2 (0 : BitVec 8) col (0 : BitVec 1) i
    exact ⟨by show (if ((0 : BitVec 8) ++ bit1 col ++ (0 : BitVec 1) ++ i : BitVec 16).getLsbD 6 then _ else RowIx.imm (((0 : BitVec 8) ++ bit1 col ++ (0 : BitVec 1) ++ i : BitVec 16).extractLsb' 0 6)) = _
              rw [h1, h2]; rfl, h3⟩
  | reg x =>
    have h1 : ((0 : BitVec 8) ++ bit1 col ++ (1 : BitVec 1) ++ (0 : BitVec 6) : BitVec 16).getLsbD 6 = true := bit_1 ((0 : BitVec 8) ++ bit1 col) true (0 : BitVec 6)
    have h3 : ((0 : BitVec 8) ++ bit1 col ++ (1 : BitVec 1) ++ (0 : BitVec 6) : BitVec 16).getLsbD 7 = col := bit_2 (0 : BitVec 8) col (1 : BitVec 1) (0 : BitVec 6)
    exact ⟨by show (if ((0 : BitVec 8) ++ bit1 col ++ (1 : BitVec 1) ++ (0 : BitVec 6) : BitVec 16).getLsbD 6 then RowIx.reg x else _) = _
              rw [h1]; rfl, h3⟩
theorem cand_mrowRd (d : Reg) (a : Tile) (ix : RowIx) (col : Bool) (p : Pred) (t : Ty) :
    candQ (qv 0x14 0x00 t.code p d (treg a) (rowReg ix) 0 (rowImm ix col)) = some (.mrowRd d a ix col p t) := by
  show Option.bind (Ty.ofCode t.code) (fun v => some (Instr.mrowRd d (Q64.tOf (treg a)) (if (rowImm ix col).getLsbD 6 then .reg (rowReg ix) else .imm ((rowImm ix col).extractLsb' 0 6))
    ((rowImm ix col).getLsbD 7) p v)) = _
  rw [Ty.ofCode_code, (row_back ix col).1, (row_back ix col).2, tOf_treg]; rfl
theorem cand_mrowWr (d : Tile) (a : Reg) (ix : RowIx) (col : Bool) (p : Pred) (t : Ty) :
    candQ (qv 0x14 0x01 t.code p (treg d) a (rowReg ix) 0 (rowImm ix col)) = some (.mrowWr d a ix col p t) := by
  show Option.bind (Ty.ofCode t.code) (fun v => some (Instr.mrowWr (Q64.tOf (treg d)) a (if (rowImm ix col).getLsbD 6 then .reg (rowReg ix) else .imm ((rowImm ix col).extractLsb' 0 6))
    ((rowImm ix col).getLsbD 7) p v)) = _
  rw [Ty.ofCode_code, (row_back ix col).1, (row_back ix col).2, tOf_treg]; rfl
theorem copy_ord (sc : BitVec 3) (ord dir : Bool) (act : BitVec 2) : (copyImm sc ord dir act).getLsbD 3 = ord := bit_2 ((0 : BitVec 9) ++ sc) ord (bit1 dir) act
theorem copy_dir (sc : BitVec 3) (ord dir : Bool) (act : BitVec 2) : (copyImm sc ord dir act).getLsbD 2 = dir := bit_1 ((0 : BitVec 9) ++ sc ++ bit1 ord) dir act
theorem copy_act (sc : BitVec 3) (ord dir : Bool) (act : BitVec 2) : (copyImm sc ord dir act).extractLsb' 0 2 = act := extract_lo _ _
theorem copy_sc (sc : BitVec 3) (ord dir : Bool) (act : BitVec 2) : (copyImm sc ord dir act).extractLsb' 4 3 = sc := ext3 (0 : BitVec 9) sc (bit1 ord) (bit1 dir) act
theorem copyAct_back (a b : Reg) (act : CopyAct) (ord dir : Bool) : (copyQ a b act ord dir).copyAct = some act := by
  cases act <;> simp only [copyQ, Q64.copyAct, qs, copy_act, copy_sc, Scope.ofCode_code] <;> rfl
theorem copyQ_bits (a b : Reg) (act : CopyAct) (ord dir : Bool) :
    (copyQ a b act ord dir).imm.getLsbD 3 = ord ∧ (copyQ a b act ord dir).imm.getLsbD 2 = dir ∧ (copyQ a b act ord dir).a = a
      ∧ (copyQ a b act ord dir).b = b ∧ (copyQ a b act ord dir).major = 0x18 ∧ (copyQ a b act ord dir).fn = 0 := by
  cases act <;> exact ⟨copy_ord _ _ _ _, copy_dir _ _ _ _, rfl, rfl, rfl, rfl⟩
theorem cand_tcopy (a b : Reg) (act : CopyAct) (ord : Bool) : candQ (copyQ a b act ord false) = some (.tcopy a b act ord) := by
  obtain ⟨h1, h2, h3, h4, h5, h6⟩ := copyQ_bits a b act ord false
  rw [BitVec.getLsbD_eq_getElem (by decide)] at h1 h2
  simp [candQ, candTcopy, h5, h6, Q64.ib, h1, h2, h3, h4, copyAct_back]
theorem cand_tcopySt (a b : Reg) (act : CopyAct) (ord : Bool) : candQ (copyQ a b act ord true) = some (.tcopySt a b act ord) := by
  obtain ⟨h1, h2, h3, h4, h5, h6⟩ := copyQ_bits a b act ord true
  rw [BitVec.getLsbD_eq_getElem (by decide)] at h1 h2
  simp [candQ, candTcopy, h5, h6, Q64.ib, h1, h2, h3, h4, copyAct_back]
theorem cand_tcopyMc (a b c d : Reg) (ord : Bool) : candQ (qs 0x18 1 d a b c (copyImm 0 ord false 0)) = some (.tcopyMc a b c d none ord) := by
  have h := copy_ord 0 ord false 0
  have h0 : (copyImm 0 ord false 0).getLsbD 0 = false := get_lo (st := 0) _ (0 : BitVec 2) (by decide)
  rw [BitVec.getLsbD_eq_getElem (by decide)] at h h0
  simp [candQ, candTcopy, qs, Q64.ib]; simp at h h0; simp [h, h0]
theorem cand_tcopyMcSig (a b c d : Reg) (sc : Scope) (ord : Bool) :
    candQ (qs 0x18 1 d a b c (copyImm sc.code ord false 1)) = some (.tcopyMc a b c d (some sc) ord) := by
  have h := copy_ord sc.code ord false 1
  have h0 : (copyImm sc.code ord false 1).getLsbD 0 = true := get_lo (st := 0) _ (1 : BitVec 2) (by decide)
  have h1 := copy_sc sc.code ord false 1
  rw [BitVec.getLsbD_eq_getElem (by decide)] at h h0
  simp [candQ, candTcopy, qs, Q64.ib]; simp at h h0 h1; simp [h, h0, h1, Scope.ofCode_code]
theorem cand_qfence (r w e : Bool) (sc : Scope) :
    candQ (qs 0x20 0 0 0 0 0 ((0 : BitVec 10) ++ bit1 e ++ bit1 w ++ bit1 r ++ sc.code)) = some (.qfence r w e sc) := by
  have h1 : ((0 : BitVec 10) ++ bit1 e ++ bit1 w ++ bit1 r ++ sc.code : BitVec 16).getLsbD 3 = r := bit_1 ((0 : BitVec 10) ++ bit1 e ++ bit1 w) r sc.code
  have h2 : ((0 : BitVec 10) ++ bit1 e ++ bit1 w ++ bit1 r ++ sc.code : BitVec 16).getLsbD 4 = w := bit_2 ((0 : BitVec 10) ++ bit1 e) w (bit1 r) sc.code
  have h3 : ((0 : BitVec 10) ++ bit1 e ++ bit1 w ++ bit1 r ++ sc.code : BitVec 16).getLsbD 5 = e := bit_3 (0 : BitVec 10) e (bit1 w) (bit1 r) sc.code
  have h4 : ((0 : BitVec 10) ++ bit1 e ++ bit1 w ++ bit1 r ++ sc.code : BitVec 16).extractLsb' 0 3 = sc.code := extract_lo _ _
  show Option.bind (Scope.ofCode (((0 : BitVec 10) ++ bit1 e ++ bit1 w ++ bit1 r ++ sc.code : BitVec 16).extractLsb' 0 3)) (fun v =>
    some (Instr.qfence (((0 : BitVec 10) ++ bit1 e ++ bit1 w ++ bit1 r ++ sc.code : BitVec 16).getLsbD 3) (((0 : BitVec 10) ++ bit1 e ++ bit1 w ++ bit1 r ++ sc.code : BitVec 16).getLsbD 4)
      (((0 : BitVec 10) ++ bit1 e ++ bit1 w ++ bit1 r ++ sc.code : BitVec 16).getLsbD 5) v)) = _
  rw [h4, Scope.ofCode_code, h1, h2, h3]; rfl
theorem amoQ_bits (fn : BitVec 6) (d a b c : Reg) (word acq rel : Bool) (sc : Scope) :
    (amoQ fn d a b c word acq rel sc).imm.getLsbD 3 = acq ∧ (amoQ fn d a b c word acq rel sc).imm.getLsbD 4 = rel
      ∧ Scope.ofCode ((amoQ fn d a b c word acq rel sc).imm.extractLsb' 0 3) = some sc ∧ ((amoQ fn d a b c word acq rel sc).t == 0x0C) = word := by
  refine ⟨bit_1 ((0 : BitVec 11) ++ bit1 rel) acq sc.code, bit_2 (0 : BitVec 11) rel (bit1 acq) sc.code, ?_, ?_⟩
  · exact (congrArg Scope.ofCode (extract_lo ((0 : BitVec 11) ++ bit1 rel ++ bit1 acq) sc.code)).trans (Scope.ofCode_code sc)
  · cases word <;> rfl
theorem cand_ssig (a b : Reg) (sc : Scope) : candQ (qs 0x22 0x00 0 a b 0 ((0 : BitVec 13) ++ sc.code)) = some (.ssig a b sc) :=
  (congrArg (fun o => Option.bind o fun v => some (Instr.ssig a b v)) ((congrArg Scope.ofCode (extract_lo (0 : BitVec 13) sc.code)).trans (Scope.ofCode_code sc)))
theorem cand_sset (a b : Reg) (sc : Scope) : candQ (qs 0x22 0x01 0 a b 0 ((0 : BitVec 13) ++ sc.code)) = some (.sset a b sc) :=
  (congrArg (fun o => Option.bind o fun v => some (Instr.sset a b v)) ((congrArg Scope.ofCode (extract_lo (0 : BitVec 13) sc.code)).trans (Scope.ofCode_code sc)))
theorem cand_swait (d a b c : Reg) (cond : Cond) (sc : Scope) :
    candQ (qs 0x22 0x02 d a b c ((0 : BitVec 10) ++ cond.code ++ sc.code)) = some (.swait d a b c cond sc) :=
  (congrArg (fun o => Option.bind o fun k => Option.bind (Scope.ofCode (((0 : BitVec 10) ++ cond.code ++ sc.code : BitVec 16).extractLsb' 0 3)) fun v => some (Instr.swait d a b c k v))
    ((congrArg Cond.ofCode (ext1 (0 : BitVec 10) cond.code sc.code)).trans (Cond.ofCode_code cond))).trans
  (congrArg (fun o => Option.bind o fun v => some (Instr.swait d a b c cond v)) ((congrArg Scope.ofCode (extract_lo ((0 : BitVec 10) ++ cond.code) sc.code)).trans (Scope.ofCode_code sc)))
theorem cand_bar (level : BarLevel) (limit : BitVec 13) : candQ (qs 0x23 0 0 0 0 0 (limit ++ level.code)) = some (.bar level limit) :=
  (congrArg (fun o => Option.bind o fun k => some (Instr.bar k ((limit ++ level.code : BitVec 16).extractLsb' 3 13)))
    ((congrArg BarLevel.ofCode (extract_lo limit level.code)).trans (BarLevel.ofCode_code level))).trans
  (congrArg (fun v => some (Instr.bar level v)) ((extract_hi (st := 3) limit level.code (by decide)).trans (extract_self _)))
theorem few_flag (fn : BitVec 6) (d a b c : Reg) (flag : Bool) (off : BitVec 12) : (fewQ fn d a b c flag off).imm.getLsbD 12 = flag := bit_1 (0 : BitVec 3) flag off
theorem few_off (fn : BitVec 6) (d a b c : Reg) (flag : Bool) (off : BitVec 12) : (fewQ fn d a b c flag off).imm.extractLsb' 0 12 = off := extract_lo _ off

theorem amo_cand {q : Q64} {word acq rel : Bool} {sc : Scope} (k : Bool → Bool → Bool → Scope → Instr)
    (h1 : q.imm.getLsbD 3 = acq) (h2 : q.imm.getLsbD 4 = rel) (h3 : Scope.ofCode (q.imm.extractLsb' 0 3) = some sc)
    (h4 : (q.t == 0x0C) = word) :
    Option.bind (Scope.ofCode (q.imm.extractLsb' 0 3)) (fun v => some (k (q.t == 0x0C) (q.imm.getLsbD 3) (q.imm.getLsbD 4) v))
      = some (k word acq rel sc) := by
  rw [h3, h1, h2, h4]; rfl

end Sys2Proof
end

