-- ==== Sys2Proof/Laws/PerInstr.lean ====
section
/-! SUPPORT. One lemma per instruction: a well-formed instruction is what its own words decode to. -/

namespace Sys2Proof.Laws.RoundTrip

/-- Decoding the words of an instruction that has an encoding gives the instruction back, with its length. -/
def Statement (i : Instr) : Prop := wellFormed i = true → ∀ w, encode i = some w → DecodesBack i w

theorem powerGood : Statement (.powerGood) := fun _ _ h => nomatch (show (none : Option Word) = some _ from h)
theorem pcieFundamentalReset : Statement (.pcieFundamentalReset) := fun _ _ h => nomatch (show (none : Option Word) = some _ from h)
theorem stageDone (images : List FwImage) (eccDie : Option Nat) (lanes : List LaneFault) : Statement (.stageDone images eccDie lanes) := fun _ _ h => nomatch (show (none : Option Word) = some _ from h)
theorem stageTimeout (die : Option Nat) : Statement (.stageTimeout die) := fun _ _ h => nomatch (show (none : Option Word) = some _ from h)
theorem getVersion (func : Nat) : Statement (.getVersion func) := fun _ _ h => nomatch (show (none : Option Word) = some _ from h)
theorem getCapabilities (func : Nat) : Statement (.getCapabilities func) := fun _ _ h => nomatch (show (none : Option Word) = some _ from h)
theorem negotiateAlgorithms (func : Nat) (sm2 : Bool) (sm3 : Bool) : Statement (.negotiateAlgorithms func sm2 sm3) := fun _ _ h => nomatch (show (none : Option Word) = some _ from h)
theorem getDigests (func : Nat) : Statement (.getDigests func) := fun _ _ h => nomatch (show (none : Option Word) = some _ from h)
theorem getCertificate (func : Nat) : Statement (.getCertificate func) := fun _ _ h => nomatch (show (none : Option Word) = some _ from h)
theorem challenge (func : Nat) (nonce : List Byte) : Statement (.challenge func nonce) := fun _ _ h => nomatch (show (none : Option Word) = some _ from h)
theorem getMeasurements (func : Nat) : Statement (.getMeasurements func) := fun _ _ h => nomatch (show (none : Option Word) = some _ from h)
theorem registerWrite (func : Nat) (off : Nat) (size : Nat) (v : Word) : Statement (.registerWrite func off size v) := fun _ _ h => nomatch (show (none : Option Word) = some _ from h)
theorem merrClear (v : Word) : Statement (.merrClear v) := fun _ _ h => nomatch (show (none : Option Word) = some _ from h)
theorem ferrClear (func : Nat) : Statement (.ferrClear func) := fun _ _ h => nomatch (show (none : Option Word) = some _ from h)
theorem partSetValid (n : Nat) (v : Word) : Statement (.partSetValid n v) := fun _ _ h => nomatch (show (none : Option Word) = some _ from h)
theorem partClearValid (n : Nat) (v : Word) : Statement (.partClearValid n v) := fun _ _ h => nomatch (show (none : Option Word) = some _ from h)
theorem hmoveMove (v : Word) : Statement (.hmoveMove v) := fun _ _ h => nomatch (show (none : Option Word) = some _ from h)
theorem hmoveFree (v : Word) : Statement (.hmoveFree v) := fun _ _ h => nomatch (show (none : Option Word) = some _ from h)
theorem hmoveComplete : Statement (.hmoveComplete) := fun _ _ h => nomatch (show (none : Option Word) = some _ from h)
theorem budgetPeriod : Statement (.budgetPeriod) := fun _ _ h => nomatch (show (none : Option Word) = some _ from h)
theorem ckptQuiesce (v : Word) : Statement (.ckptQuiesce v) := fun _ _ h => nomatch (show (none : Option Word) = some _ from h)
theorem quiesceDone : Statement (.quiesceDone) := fun _ _ h => nomatch (show (none : Option Word) = some _ from h)
theorem ckptResume (v : Word) : Statement (.ckptResume v) := fun _ _ h => nomatch (show (none : Option Word) = some _ from h)
theorem ckptEngineGo (v : Word) : Statement (.ckptEngineGo v) := fun _ _ h => nomatch (show (none : Option Word) = some _ from h)
theorem ckptRunEnd (err : Option CkErr) (done : Nat) : Statement (.ckptRunEnd err done) := fun _ _ h => nomatch (show (none : Option Word) = some _ from h)
theorem faultQuiesce (part : Nat) : Statement (.faultQuiesce part) := fun _ _ h => nomatch (show (none : Option Word) = some _ from h)
theorem powerCapWrite (v : Word) : Statement (.powerCapWrite v) := fun _ _ h => nomatch (show (none : Option Word) = some _ from h)
theorem doorbell (func : Nat) (q : Nat) (w : Word) : Statement (.doorbell func q w) := fun _ _ h => nomatch (show (none : Option Word) = some _ from h)
theorem bar0UnsupportedAccess (func : Nat) (off : Nat) (size : Nat) (write : Bool) : Statement (.bar0UnsupportedAccess func off size write) := fun _ _ h => nomatch (show (none : Option Word) = some _ from h)
theorem hostBar4Read (func : Nat) (off : Nat) (n : Nat) : Statement (.hostBar4Read func off n) := fun _ _ h => nomatch (show (none : Option Word) = some _ from h)
theorem hostBar4Write (func : Nat) (off : Nat) (data : List Byte) : Statement (.hostBar4Write func off data) := fun _ _ h => nomatch (show (none : Option Word) = some _ from h)
theorem bar4PagerTimeout (id : Nat) : Statement (.bar4PagerTimeout id) := fun _ _ h => nomatch (show (none : Option Word) = some _ from h)
theorem functionLevelReset (func : Nat) : Statement (.functionLevelReset func) := fun _ _ h => nomatch (show (none : Option Word) = some _ from h)
theorem pf0FunctionLevelReset : Statement (.pf0FunctionLevelReset) := fun _ _ h => nomatch (show (none : Option Word) = some _ from h)
theorem queueEnable (func : Nat) (q : Nat) (v : Word) : Statement (.queueEnable func q v) := fun _ _ h => nomatch (show (none : Option Word) = some _ from h)
theorem queueDisable (func : Nat) (q : Nat) (v : Word) : Statement (.queueDisable func q v) := fun _ _ h => nomatch (show (none : Option Word) = some _ from h)
theorem queueResume (func : Nat) (q : Nat) (v : Word) : Statement (.queueResume func q v) := fun _ _ h => nomatch (show (none : Option Word) = some _ from h)
theorem queueResumeSkip (func : Nat) (q : Nat) (v : Word) : Statement (.queueResumeSkip func q v) := fun _ _ h => nomatch (show (none : Option Word) = some _ from h)
theorem launchPacket (part : Nat) (q : Nat) : Statement (.launchPacket part q) := fun _ _ h => nomatch (show (none : Option Word) = some _ from h)
theorem waitsig (part : Nat) (q : Nat) : Statement (.waitsig part q) := fun _ _ h => nomatch (show (none : Option Word) = some _ from h)
theorem waitsigSatisfied (part : Nat) (q : Nat) : Statement (.waitsigSatisfied part q) := fun _ _ h => nomatch (show (none : Option Word) = some _ from h)
theorem waitsigLimit (part : Nat) (q : Nat) : Statement (.waitsigLimit part q) := fun _ _ h => nomatch (show (none : Option Word) = some _ from h)
theorem setsig (part : Nat) (q : Nat) : Statement (.setsig part q) := fun _ _ h => nomatch (show (none : Option Word) = some _ from h)
theorem loadPacket (part : Nat) (q : Nat) : Statement (.loadPacket part q) := fun _ _ h => nomatch (show (none : Option Word) = some _ from h)
theorem unload (part : Nat) (q : Nat) : Statement (.unload part q) := fun _ _ h => nomatch (show (none : Option Word) = some _ from h)
theorem fencePacket (part : Nat) (q : Nat) : Statement (.fencePacket part q) := fun _ _ h => nomatch (show (none : Option Word) = some _ from h)
theorem launchComplete (launch : Nat) : Statement (.launchComplete launch) := fun _ _ h => nomatch (show (none : Option Word) = some _ from h)
theorem placement (die : Nat) : Statement (.placement die) := fun _ _ h => nomatch (show (none : Option Word) = some _ from h)
theorem placementPeriod (die : Nat) : Statement (.placementPeriod die) := fun _ _ h => nomatch (show (none : Option Word) = some _ from h)
theorem icacheFillDone (cell : Nat) : Statement (.icacheFillDone cell) := fun _ _ h => nomatch (show (none : Option Word) = some _ from h)
theorem feWriteback (cell : Nat) (i : Nat) : Statement (.feWriteback cell i) := fun _ _ h => nomatch (show (none : Option Word) = some _ from h)
theorem pagerWake (w : WakeTarget) (verdict : Verdict) : Statement (.pagerWake w verdict) := fun _ _ h => nomatch (show (none : Option Word) = some _ from h)
theorem cowCopyDone (i : Nat) : Statement (.cowCopyDone i) := fun _ _ h => nomatch (show (none : Option Word) = some _ from h)
theorem pageMigration (asid : Nat) (dva : Nat) (pa : Nat) : Statement (.pageMigration asid dva pa) := fun _ _ h => nomatch (show (none : Option Word) = some _ from h)
theorem remoteAccessArrival (id : Nat) : Statement (.remoteAccessArrival id) := fun _ _ h => nomatch (show (none : Option Word) = some _ from h)
theorem remoteReply (id : Nat) : Statement (.remoteReply id) := fun _ _ h => nomatch (show (none : Option Word) = some _ from h)
theorem asyncTrapDelivery (cell : Nat) : Statement (.asyncTrapDelivery cell) := fun _ _ h => nomatch (show (none : Option Word) = some _ from h)
theorem copyStart (core : Nat) (i : Nat) : Statement (.copyStart core i) := fun _ _ h => nomatch (show (none : Option Word) = some _ from h)
theorem frameSlotReserve (core : Nat) (i : Nat) : Statement (.frameSlotReserve core i) := fun _ _ h => nomatch (show (none : Option Word) = some _ from h)
theorem copyComplete (core : Nat) (i : Nat) : Statement (.copyComplete core i) := fun _ _ h => nomatch (show (none : Option Word) = some _ from h)
theorem copyWaggleDelivered (core : Nat) (i : Nat) : Statement (.copyWaggleDelivered core i) := fun _ _ h => nomatch (show (none : Option Word) = some _ from h)
theorem copyFailure (core : Nat) (i : Nat) (why : CopyFail) : Statement (.copyFailure core i why) := fun _ _ h => nomatch (show (none : Option Word) = some _ from h)
theorem leaseAcquire (core : Nat) : Statement (.leaseAcquire core) := fun _ _ h => nomatch (show (none : Option Word) = some _ from h)
theorem leaseQuantumExpiry (core : Nat) : Statement (.leaseQuantumExpiry core) := fun _ _ h => nomatch (show (none : Option Word) = some _ from h)
theorem mopaOperandsConsumed (core : Nat) : Statement (.mopaOperandsConsumed core) := fun _ _ h => nomatch (show (none : Option Word) = some _ from h)
theorem laneFailure (core : Nat) (i : Nat) (group : Nat) : Statement (.laneFailure core i group) := fun _ _ h => nomatch (show (none : Option Word) = some _ from h)
theorem coreRetire (core : Nat) (i : Nat) (group : Nat) : Statement (.coreRetire core i group) := fun _ _ h => nomatch (show (none : Option Word) = some _ from h)
theorem waitReread (w : RereadTarget) : Statement (.waitReread w) := fun _ _ h => nomatch (show (none : Option Word) = some _ from h)
theorem swaitLimit (cell : Nat) : Statement (.swaitLimit cell) := fun _ _ h => nomatch (show (none : Option Word) = some _ from h)
theorem vsetvlwLimit (cell : Nat) : Statement (.vsetvlwLimit cell) := fun _ _ h => nomatch (show (none : Option Word) = some _ from h)
theorem frmwaitLimit (cell : Nat) : Statement (.frmwaitLimit cell) := fun _ _ h => nomatch (show (none : Option Word) = some _ from h)
theorem ldfeLimit (cell : Nat) : Statement (.ldfeLimit cell) := fun _ _ h => nomatch (show (none : Option Word) = some _ from h)
theorem barLimit (cell : Nat) : Statement (.barLimit cell) := fun _ _ h => nomatch (show (none : Option Word) = some _ from h)
theorem wgsendLimit (cell : Nat) : Statement (.wgsendLimit cell) := fun _ _ h => nomatch (show (none : Option Word) = some _ from h)
theorem wgrecvLimit (cell : Nat) : Statement (.wgrecvLimit cell) := fun _ _ h => nomatch (show (none : Option Word) = some _ from h)
theorem broodDeadline (handle : Nat) : Statement (.broodDeadline handle) := fun _ _ h => nomatch (show (none : Option Word) = some _ from h)
theorem forcedLanding (cell : Nat) (stops : List Nat) (step : Nat) : Statement (.forcedLanding cell stops step) := fun _ _ h => nomatch (show (none : Option Word) = some _ from h)
theorem gangSaveDone (gang : Nat) : Statement (.gangSaveDone gang) := fun _ _ h => nomatch (show (none : Option Word) = some _ from h)
theorem correctableError (die : Nat) (cls : Nat) : Statement (.correctableError die cls) := fun _ _ h => nomatch (show (none : Option Word) = some _ from h)
theorem uncorrectableError (e : HwError) : Statement (.uncorrectableError e) := fun _ _ h => nomatch (show (none : Option Word) = some _ from h)
theorem patrolScrub (die : Nat) (lines : Nat) : Statement (.patrolScrub die lines) := fun _ _ h => nomatch (show (none : Option Word) = some _ from h)
theorem flitReceive (fin : Nat) (seq : Nat) (crcGood : Bool) : Statement (.flitReceive fin seq crcGood) := fun _ _ h => nomatch (show (none : Option Word) = some _ from h)
theorem ucieReplay (fin : Nat) (last : Nat) : Statement (.ucieReplay fin last) := fun _ _ h => nomatch (show (none : Option Word) = some _ from h)
theorem linkRetrain (fin : Nat) (why : RetrainCause) : Statement (.linkRetrain fin why) := fun _ _ h => nomatch (show (none : Option Word) = some _ from h)
theorem retrainDone (fin : Nat) (lanes : LaneOutcome) : Statement (.retrainDone fin lanes) := fun _ _ h => nomatch (show (none : Option Word) = some _ from h)
theorem dieUnreachable (die : Option Nat) : Statement (.dieUnreachable die) := fun _ _ h => nomatch (show (none : Option Word) = some _ from h)
theorem ualinkTimeout (r : FabricReq) : Statement (.ualinkTimeout r) := fun _ _ h => nomatch (show (none : Option Word) = some _ from h)
theorem ualinkStationLoss (station : Nat) : Statement (.ualinkStationLoss station) := fun _ _ h => nomatch (show (none : Option Word) = some _ from h)
theorem fabricReply (cell : Nat) (station : Nat) (ok : Bool) (data : Word) : Statement (.fabricReply cell station ok data) := fun _ _ h => nomatch (show (none : Option Word) = some _ from h)
theorem heirHandover (gang : Nat) : Statement (.heirHandover gang) := fun _ _ h => nomatch (show (none : Option Word) = some _ from h)
theorem objectRangeRelease (handle : Nat) : Statement (.objectRangeRelease handle) := fun _ _ h => nomatch (show (none : Option Word) = some _ from h)
theorem generationUnmap (handle : Nat) : Statement (.generationUnmap handle) := fun _ _ h => nomatch (show (none : Option Word) = some _ from h)
theorem lui (rd : Reg) (imm : BitVec 20) : Statement (.lui rd imm) := fun h => roundTrip32 0x37 h rfl (congrArg (fun v => some (Instr.lui rd v)) (immU_encU _ _ _)) rfl (by decide)
theorem auipc (rd : Reg) (imm : BitVec 20) : Statement (.auipc rd imm) := fun h => roundTrip32 0x17 h rfl (congrArg (fun v => some (Instr.auipc rd v)) (immU_encU _ _ _)) rfl (by decide)
theorem jal (rd : Reg) (imm : BitVec 20) : Statement (.jal rd imm) := fun h => roundTrip32 0x6F h rfl (congrArg (fun v => some (Instr.jal rd v)) (immJ_encJ _ _)) rfl (by decide)
theorem jalr (rd : Reg) (rs1 : Reg) (imm : BitVec 12) : Statement (.jalr rd rs1 imm) := fun h => roundTrip32 0x67 h rfl (congrArg (fun v => some (Instr.jalr rd rs1 v)) (immI_encI _ _ _ _ _)) rfl (by decide)
theorem beq (rs1 : Reg) (rs2 : Reg) (imm : BitVec 12) : Statement (.beq rs1 rs2 imm) := fun h => roundTrip32 0x63 h rfl (congrArg (fun v => some (Instr.beq rs1 rs2 v)) (immB_encB _ _ _ _)) rfl (by decide)
theorem bne (rs1 : Reg) (rs2 : Reg) (imm : BitVec 12) : Statement (.bne rs1 rs2 imm) := fun h => roundTrip32 0x63 h rfl (congrArg (fun v => some (Instr.bne rs1 rs2 v)) (immB_encB _ _ _ _)) rfl (by decide)
theorem blt (rs1 : Reg) (rs2 : Reg) (imm : BitVec 12) : Statement (.blt rs1 rs2 imm) := fun h => roundTrip32 0x63 h rfl (congrArg (fun v => some (Instr.blt rs1 rs2 v)) (immB_encB _ _ _ _)) rfl (by decide)
theorem bge (rs1 : Reg) (rs2 : Reg) (imm : BitVec 12) : Statement (.bge rs1 rs2 imm) := fun h => roundTrip32 0x63 h rfl (congrArg (fun v => some (Instr.bge rs1 rs2 v)) (immB_encB _ _ _ _)) rfl (by decide)
theorem bltu (rs1 : Reg) (rs2 : Reg) (imm : BitVec 12) : Statement (.bltu rs1 rs2 imm) := fun h => roundTrip32 0x63 h rfl (congrArg (fun v => some (Instr.bltu rs1 rs2 v)) (immB_encB _ _ _ _)) rfl (by decide)
theorem bgeu (rs1 : Reg) (rs2 : Reg) (imm : BitVec 12) : Statement (.bgeu rs1 rs2 imm) := fun h => roundTrip32 0x63 h rfl (congrArg (fun v => some (Instr.bgeu rs1 rs2 v)) (immB_encB _ _ _ _)) rfl (by decide)
theorem lb (rd : Reg) (rs1 : Reg) (imm : BitVec 12) : Statement (.lb rd rs1 imm) := fun h => roundTrip32 0x03 h rfl (congrArg (fun v => some (Instr.lb rd rs1 v)) (immI_encI _ _ _ _ _)) rfl (by decide)
theorem lh (rd : Reg) (rs1 : Reg) (imm : BitVec 12) : Statement (.lh rd rs1 imm) := fun h => roundTrip32 0x03 h rfl (congrArg (fun v => some (Instr.lh rd rs1 v)) (immI_encI _ _ _ _ _)) rfl (by decide)
theorem lw (rd : Reg) (rs1 : Reg) (imm : BitVec 12) : Statement (.lw rd rs1 imm) := fun h => roundTrip32 0x03 h rfl (congrArg (fun v => some (Instr.lw rd rs1 v)) (immI_encI _ _ _ _ _)) rfl (by decide)
theorem ld (rd : Reg) (rs1 : Reg) (imm : BitVec 12) : Statement (.ld rd rs1 imm) := fun h => roundTrip32 0x03 h rfl (congrArg (fun v => some (Instr.ld rd rs1 v)) (immI_encI _ _ _ _ _)) rfl (by decide)
theorem lbu (rd : Reg) (rs1 : Reg) (imm : BitVec 12) : Statement (.lbu rd rs1 imm) := fun h => roundTrip32 0x03 h rfl (congrArg (fun v => some (Instr.lbu rd rs1 v)) (immI_encI _ _ _ _ _)) rfl (by decide)
theorem lhu (rd : Reg) (rs1 : Reg) (imm : BitVec 12) : Statement (.lhu rd rs1 imm) := fun h => roundTrip32 0x03 h rfl (congrArg (fun v => some (Instr.lhu rd rs1 v)) (immI_encI _ _ _ _ _)) rfl (by decide)
theorem lwu (rd : Reg) (rs1 : Reg) (imm : BitVec 12) : Statement (.lwu rd rs1 imm) := fun h => roundTrip32 0x03 h rfl (congrArg (fun v => some (Instr.lwu rd rs1 v)) (immI_encI _ _ _ _ _)) rfl (by decide)
theorem sb (rs1 : Reg) (rs2 : Reg) (imm : BitVec 12) : Statement (.sb rs1 rs2 imm) := fun h => roundTrip32 0x23 h rfl (congrArg (fun v => some (Instr.sb rs1 rs2 v)) (immS_encS _ _ _ _ _)) rfl (by decide)
theorem sh (rs1 : Reg) (rs2 : Reg) (imm : BitVec 12) : Statement (.sh rs1 rs2 imm) := fun h => roundTrip32 0x23 h rfl (congrArg (fun v => some (Instr.sh rs1 rs2 v)) (immS_encS _ _ _ _ _)) rfl (by decide)
theorem sw (rs1 : Reg) (rs2 : Reg) (imm : BitVec 12) : Statement (.sw rs1 rs2 imm) := fun h => roundTrip32 0x23 h rfl (congrArg (fun v => some (Instr.sw rs1 rs2 v)) (immS_encS _ _ _ _ _)) rfl (by decide)
theorem sd (rs1 : Reg) (rs2 : Reg) (imm : BitVec 12) : Statement (.sd rs1 rs2 imm) := fun h => roundTrip32 0x23 h rfl (congrArg (fun v => some (Instr.sd rs1 rs2 v)) (immS_encS _ _ _ _ _)) rfl (by decide)
theorem addi (rd : Reg) (rs1 : Reg) (imm : BitVec 12) : Statement (.addi rd rs1 imm) := fun h => roundTrip32 0x13 h rfl (congrArg (fun v => some (Instr.addi rd rs1 v)) (immI_encI _ _ _ _ _)) rfl (by decide)
theorem slti (rd : Reg) (rs1 : Reg) (imm : BitVec 12) : Statement (.slti rd rs1 imm) := fun h => roundTrip32 0x13 h rfl (congrArg (fun v => some (Instr.slti rd rs1 v)) (immI_encI _ _ _ _ _)) rfl (by decide)
theorem sltiu (rd : Reg) (rs1 : Reg) (imm : BitVec 12) : Statement (.sltiu rd rs1 imm) := fun h => roundTrip32 0x13 h rfl (congrArg (fun v => some (Instr.sltiu rd rs1 v)) (immI_encI _ _ _ _ _)) rfl (by decide)
theorem xori (rd : Reg) (rs1 : Reg) (imm : BitVec 12) : Statement (.xori rd rs1 imm) := fun h => roundTrip32 0x13 h rfl (congrArg (fun v => some (Instr.xori rd rs1 v)) (immI_encI _ _ _ _ _)) rfl (by decide)
theorem ori (rd : Reg) (rs1 : Reg) (imm : BitVec 12) : Statement (.ori rd rs1 imm) := fun h => roundTrip32 0x13 h rfl (congrArg (fun v => some (Instr.ori rd rs1 v)) (immI_encI _ _ _ _ _)) rfl (by decide)
theorem andi (rd : Reg) (rs1 : Reg) (imm : BitVec 12) : Statement (.andi rd rs1 imm) := fun h => roundTrip32 0x13 h rfl (congrArg (fun v => some (Instr.andi rd rs1 v)) (immI_encI _ _ _ _ _)) rfl (by decide)
theorem slli (rd : Reg) (rs1 : Reg) (sh : BitVec 6) : Statement (.slli rd rs1 sh) := fun h => roundTrip32 0x13 h rfl (cand_slli rd rs1 sh) rfl (by decide)
theorem srli (rd : Reg) (rs1 : Reg) (sh : BitVec 6) : Statement (.srli rd rs1 sh) := fun h => roundTrip32 0x13 h rfl (cand_srli rd rs1 sh) rfl (by decide)
theorem srai (rd : Reg) (rs1 : Reg) (sh : BitVec 6) : Statement (.srai rd rs1 sh) := fun h => roundTrip32 0x13 h rfl (cand_srai rd rs1 sh) rfl (by decide)
theorem add (rd : Reg) (rs1 : Reg) (rs2 : Reg) : Statement (.add rd rs1 rs2) := fun h => roundTrip32 0x33 h rfl (rfl) rfl (by decide)
theorem sub (rd : Reg) (rs1 : Reg) (rs2 : Reg) : Statement (.sub rd rs1 rs2) := fun h => roundTrip32 0x33 h rfl (rfl) rfl (by decide)
theorem sll (rd : Reg) (rs1 : Reg) (rs2 : Reg) : Statement (.sll rd rs1 rs2) := fun h => roundTrip32 0x33 h rfl (rfl) rfl (by decide)
theorem slt (rd : Reg) (rs1 : Reg) (rs2 : Reg) : Statement (.slt rd rs1 rs2) := fun h => roundTrip32 0x33 h rfl (rfl) rfl (by decide)
theorem sltu (rd : Reg) (rs1 : Reg) (rs2 : Reg) : Statement (.sltu rd rs1 rs2) := fun h => roundTrip32 0x33 h rfl (rfl) rfl (by decide)
theorem xor (rd : Reg) (rs1 : Reg) (rs2 : Reg) : Statement (.xor rd rs1 rs2) := fun h => roundTrip32 0x33 h rfl (rfl) rfl (by decide)
theorem srl (rd : Reg) (rs1 : Reg) (rs2 : Reg) : Statement (.srl rd rs1 rs2) := fun h => roundTrip32 0x33 h rfl (rfl) rfl (by decide)
theorem sra (rd : Reg) (rs1 : Reg) (rs2 : Reg) : Statement (.sra rd rs1 rs2) := fun h => roundTrip32 0x33 h rfl (rfl) rfl (by decide)
theorem or (rd : Reg) (rs1 : Reg) (rs2 : Reg) : Statement (.or rd rs1 rs2) := fun h => roundTrip32 0x33 h rfl (rfl) rfl (by decide)
theorem and (rd : Reg) (rs1 : Reg) (rs2 : Reg) : Statement (.and rd rs1 rs2) := fun h => roundTrip32 0x33 h rfl (rfl) rfl (by decide)
theorem addiw (rd : Reg) (rs1 : Reg) (imm : BitVec 12) : Statement (.addiw rd rs1 imm) := fun h => roundTrip32 0x1b h rfl (congrArg (fun v => some (Instr.addiw rd rs1 v)) (immI_encI _ _ _ _ _)) rfl (by decide)
theorem slliw (rd : Reg) (rs1 : Reg) (sh : BitVec 5) : Statement (.slliw rd rs1 sh) := fun h => roundTrip32 0x1b h rfl (rfl) rfl (by decide)
theorem srliw (rd : Reg) (rs1 : Reg) (sh : BitVec 5) : Statement (.srliw rd rs1 sh) := fun h => roundTrip32 0x1b h rfl (by simp [cand32, encR, candOpImm32]) rfl (by decide)
theorem sraiw (rd : Reg) (rs1 : Reg) (sh : BitVec 5) : Statement (.sraiw rd rs1 sh) := fun h => roundTrip32 0x1b h rfl (by simp [cand32, encR, candOpImm32]) rfl (by decide)
theorem addw (rd : Reg) (rs1 : Reg) (rs2 : Reg) : Statement (.addw rd rs1 rs2) := fun h => roundTrip32 0x3b h rfl (rfl) rfl (by decide)
theorem subw (rd : Reg) (rs1 : Reg) (rs2 : Reg) : Statement (.subw rd rs1 rs2) := fun h => roundTrip32 0x3b h rfl (rfl) rfl (by decide)
theorem sllw (rd : Reg) (rs1 : Reg) (rs2 : Reg) : Statement (.sllw rd rs1 rs2) := fun h => roundTrip32 0x3b h rfl (rfl) rfl (by decide)
theorem srlw (rd : Reg) (rs1 : Reg) (rs2 : Reg) : Statement (.srlw rd rs1 rs2) := fun h => roundTrip32 0x3b h rfl (rfl) rfl (by decide)
theorem sraw (rd : Reg) (rs1 : Reg) (rs2 : Reg) : Statement (.sraw rd rs1 rs2) := fun h => roundTrip32 0x3b h rfl (rfl) rfl (by decide)
theorem mul (rd : Reg) (rs1 : Reg) (rs2 : Reg) : Statement (.mul rd rs1 rs2) := fun h => roundTrip32 0x33 h rfl (rfl) rfl (by decide)
theorem mulh (rd : Reg) (rs1 : Reg) (rs2 : Reg) : Statement (.mulh rd rs1 rs2) := fun h => roundTrip32 0x33 h rfl (rfl) rfl (by decide)
theorem mulhsu (rd : Reg) (rs1 : Reg) (rs2 : Reg) : Statement (.mulhsu rd rs1 rs2) := fun h => roundTrip32 0x33 h rfl (rfl) rfl (by decide)
theorem mulhu (rd : Reg) (rs1 : Reg) (rs2 : Reg) : Statement (.mulhu rd rs1 rs2) := fun h => roundTrip32 0x33 h rfl (rfl) rfl (by decide)
theorem div (rd : Reg) (rs1 : Reg) (rs2 : Reg) : Statement (.div rd rs1 rs2) := fun h => roundTrip32 0x33 h rfl (rfl) rfl (by decide)
theorem divu (rd : Reg) (rs1 : Reg) (rs2 : Reg) : Statement (.divu rd rs1 rs2) := fun h => roundTrip32 0x33 h rfl (rfl) rfl (by decide)
theorem rem (rd : Reg) (rs1 : Reg) (rs2 : Reg) : Statement (.rem rd rs1 rs2) := fun h => roundTrip32 0x33 h rfl (rfl) rfl (by decide)
theorem remu (rd : Reg) (rs1 : Reg) (rs2 : Reg) : Statement (.remu rd rs1 rs2) := fun h => roundTrip32 0x33 h rfl (rfl) rfl (by decide)
theorem mulw (rd : Reg) (rs1 : Reg) (rs2 : Reg) : Statement (.mulw rd rs1 rs2) := fun h => roundTrip32 0x3b h rfl (rfl) rfl (by decide)
theorem divw (rd : Reg) (rs1 : Reg) (rs2 : Reg) : Statement (.divw rd rs1 rs2) := fun h => roundTrip32 0x3b h rfl (rfl) rfl (by decide)
theorem divuw (rd : Reg) (rs1 : Reg) (rs2 : Reg) : Statement (.divuw rd rs1 rs2) := fun h => roundTrip32 0x3b h rfl (rfl) rfl (by decide)
theorem remw (rd : Reg) (rs1 : Reg) (rs2 : Reg) : Statement (.remw rd rs1 rs2) := fun h => roundTrip32 0x3b h rfl (rfl) rfl (by decide)
theorem remuw (rd : Reg) (rs1 : Reg) (rs2 : Reg) : Statement (.remuw rd rs1 rs2) := fun h => roundTrip32 0x3b h rfl (rfl) rfl (by decide)
theorem fence (fm : BitVec 4) (pred : BitVec 4) (succ : BitVec 4) (rs1 : Reg) (rd : Reg) : Statement (.fence fm pred succ rs1 rd) := fun h => roundTrip32 0x0f h rfl ((cand_fence fm pred succ rs1 rd fun e => by
    obtain ⟨rfl, rfl, rfl, rfl, rfl⟩ := fence_fields e; exact absurd h (by decide)).trans (by
    have h8 : fm ≠ 8 := by intro e; subst e; exact absurd h (by simp [wellFormed])
    rw [if_neg h8])) rfl (by decide)
theorem fenceTso (pred : BitVec 4) (succ : BitVec 4) (rs1 : Reg) (rd : Reg) : Statement (.fenceTso pred succ rs1 rd) := fun h => roundTrip32 0x0f h rfl ((cand_fence 8 pred succ rs1 rd fun e => absurd (fence_fields e).1 (by decide)).trans
    (by rw [if_pos rfl])) rfl (by decide)
theorem pause : Statement (.pause) := fun h => roundTrip32 0x0f h rfl (rfl) rfl (by decide)
theorem fenceI (rd : Reg) (rs1 : Reg) (imm : BitVec 12) : Statement (.fenceI rd rs1 imm) := fun h => roundTrip32 0x0f h rfl (congrArg (fun v => some (Instr.fenceI rd rs1 v)) (immI_encI _ _ _ _ _)) rfl (by decide)
theorem ecall : Statement (.ecall) := fun h => roundTrip32 0x73 h rfl (rfl) rfl (by decide)
theorem ebreak : Statement (.ebreak) := fun h => roundTrip32 0x73 h rfl (rfl) rfl (by decide)
theorem csrrw (rd : Reg) (rs1 : Reg) (csr : BitVec 12) : Statement (.csrrw rd rs1 csr) := fun h => roundTrip32 0x73 h rfl (congrArg (fun v => some (Instr.csrrw rd rs1 v)) (immI_encI _ _ _ _ _)) rfl (by decide)
theorem csrrs (rd : Reg) (rs1 : Reg) (csr : BitVec 12) : Statement (.csrrs rd rs1 csr) := fun h => roundTrip32 0x73 h rfl (congrArg (fun v => some (Instr.csrrs rd rs1 v)) (immI_encI _ _ _ _ _)) rfl (by decide)
theorem csrrc (rd : Reg) (rs1 : Reg) (csr : BitVec 12) : Statement (.csrrc rd rs1 csr) := fun h => roundTrip32 0x73 h rfl (congrArg (fun v => some (Instr.csrrc rd rs1 v)) (immI_encI _ _ _ _ _)) rfl (by decide)
theorem csrrwi (rd : Reg) (uimm : Reg) (csr : BitVec 12) : Statement (.csrrwi rd uimm csr) := fun h => roundTrip32 0x73 h rfl (congrArg (fun v => some (Instr.csrrwi rd uimm v)) (immI_encI _ _ _ _ _)) rfl (by decide)
theorem csrrsi (rd : Reg) (uimm : Reg) (csr : BitVec 12) : Statement (.csrrsi rd uimm csr) := fun h => roundTrip32 0x73 h rfl (congrArg (fun v => some (Instr.csrrsi rd uimm v)) (immI_encI _ _ _ _ _)) rfl (by decide)
theorem csrrci (rd : Reg) (uimm : Reg) (csr : BitVec 12) : Statement (.csrrci rd uimm csr) := fun h => roundTrip32 0x73 h rfl (congrArg (fun v => some (Instr.csrrci rd uimm v)) (immI_encI _ _ _ _ _)) rfl (by decide)
theorem lrW (rd : Reg) (rs1 : Reg) (aq : Bool) (rl : Bool) : Statement (.lrW rd rs1 aq rl) := fun h => roundTrip32 0x2f h rfl (by simp [cand32, encR, candAmo, amo_f5, F32.aq, F32.rl]; exact ⟨amo_aq _ _ _, amo_rl _ _ _⟩) rfl (by decide)
theorem scW (rd : Reg) (rs1 : Reg) (rs2 : Reg) (aq : Bool) (rl : Bool) : Statement (.scW rd rs1 rs2 aq rl) := fun h => roundTrip32 0x2f h rfl (by simp [cand32, encR, candAmo, amo_f5, F32.aq, F32.rl]; exact ⟨amo_aq _ _ _, amo_rl _ _ _⟩) rfl (by decide)
theorem lrD (rd : Reg) (rs1 : Reg) (aq : Bool) (rl : Bool) : Statement (.lrD rd rs1 aq rl) := fun h => roundTrip32 0x2f h rfl (by simp [cand32, encR, candAmo, amo_f5, F32.aq, F32.rl]; exact ⟨amo_aq _ _ _, amo_rl _ _ _⟩) rfl (by decide)
theorem scD (rd : Reg) (rs1 : Reg) (rs2 : Reg) (aq : Bool) (rl : Bool) : Statement (.scD rd rs1 rs2 aq rl) := fun h => roundTrip32 0x2f h rfl (by simp [cand32, encR, candAmo, amo_f5, F32.aq, F32.rl]; exact ⟨amo_aq _ _ _, amo_rl _ _ _⟩) rfl (by decide)
theorem amoswapW (rd : Reg) (rs1 : Reg) (rs2 : Reg) (aq : Bool) (rl : Bool) : Statement (.amoswapW rd rs1 rs2 aq rl) := fun h => roundTrip32 0x2f h rfl (by simp [cand32, encR, candAmo, amo_f5, F32.aq, F32.rl]; exact ⟨amo_aq _ _ _, amo_rl _ _ _⟩) rfl (by decide)
theorem amoaddW (rd : Reg) (rs1 : Reg) (rs2 : Reg) (aq : Bool) (rl : Bool) : Statement (.amoaddW rd rs1 rs2 aq rl) := fun h => roundTrip32 0x2f h rfl (by simp [cand32, encR, candAmo, amo_f5, F32.aq, F32.rl]; exact ⟨amo_aq _ _ _, amo_rl _ _ _⟩) rfl (by decide)
theorem amoxorW (rd : Reg) (rs1 : Reg) (rs2 : Reg) (aq : Bool) (rl : Bool) : Statement (.amoxorW rd rs1 rs2 aq rl) := fun h => roundTrip32 0x2f h rfl (by simp [cand32, encR, candAmo, amo_f5, F32.aq, F32.rl]; exact ⟨amo_aq _ _ _, amo_rl _ _ _⟩) rfl (by decide)
theorem amoandW (rd : Reg) (rs1 : Reg) (rs2 : Reg) (aq : Bool) (rl : Bool) : Statement (.amoandW rd rs1 rs2 aq rl) := fun h => roundTrip32 0x2f h rfl (by simp [cand32, encR, candAmo, amo_f5, F32.aq, F32.rl]; exact ⟨amo_aq _ _ _, amo_rl _ _ _⟩) rfl (by decide)
theorem amoorW (rd : Reg) (rs1 : Reg) (rs2 : Reg) (aq : Bool) (rl : Bool) : Statement (.amoorW rd rs1 rs2 aq rl) := fun h => roundTrip32 0x2f h rfl (by simp [cand32, encR, candAmo, amo_f5, F32.aq, F32.rl]; exact ⟨amo_aq _ _ _, amo_rl _ _ _⟩) rfl (by decide)
theorem amominW (rd : Reg) (rs1 : Reg) (rs2 : Reg) (aq : Bool) (rl : Bool) : Statement (.amominW rd rs1 rs2 aq rl) := fun h => roundTrip32 0x2f h rfl (by simp [cand32, encR, candAmo, amo_f5, F32.aq, F32.rl]; exact ⟨amo_aq _ _ _, amo_rl _ _ _⟩) rfl (by decide)
theorem amomaxW (rd : Reg) (rs1 : Reg) (rs2 : Reg) (aq : Bool) (rl : Bool) : Statement (.amomaxW rd rs1 rs2 aq rl) := fun h => roundTrip32 0x2f h rfl (by simp [cand32, encR, candAmo, amo_f5, F32.aq, F32.rl]; exact ⟨amo_aq _ _ _, amo_rl _ _ _⟩) rfl (by decide)
theorem amominuW (rd : Reg) (rs1 : Reg) (rs2 : Reg) (aq : Bool) (rl : Bool) : Statement (.amominuW rd rs1 rs2 aq rl) := fun h => roundTrip32 0x2f h rfl (by simp [cand32, encR, candAmo, amo_f5, F32.aq, F32.rl]; exact ⟨amo_aq _ _ _, amo_rl _ _ _⟩) rfl (by decide)
theorem amomaxuW (rd : Reg) (rs1 : Reg) (rs2 : Reg) (aq : Bool) (rl : Bool) : Statement (.amomaxuW rd rs1 rs2 aq rl) := fun h => roundTrip32 0x2f h rfl (by simp [cand32, encR, candAmo, amo_f5, F32.aq, F32.rl]; exact ⟨amo_aq _ _ _, amo_rl _ _ _⟩) rfl (by decide)
theorem amoswapD (rd : Reg) (rs1 : Reg) (rs2 : Reg) (aq : Bool) (rl : Bool) : Statement (.amoswapD rd rs1 rs2 aq rl) := fun h => roundTrip32 0x2f h rfl (by simp [cand32, encR, candAmo, amo_f5, F32.aq, F32.rl]; exact ⟨amo_aq _ _ _, amo_rl _ _ _⟩) rfl (by decide)
theorem amoaddD (rd : Reg) (rs1 : Reg) (rs2 : Reg) (aq : Bool) (rl : Bool) : Statement (.amoaddD rd rs1 rs2 aq rl) := fun h => roundTrip32 0x2f h rfl (by simp [cand32, encR, candAmo, amo_f5, F32.aq, F32.rl]; exact ⟨amo_aq _ _ _, amo_rl _ _ _⟩) rfl (by decide)
theorem amoxorD (rd : Reg) (rs1 : Reg) (rs2 : Reg) (aq : Bool) (rl : Bool) : Statement (.amoxorD rd rs1 rs2 aq rl) := fun h => roundTrip32 0x2f h rfl (by simp [cand32, encR, candAmo, amo_f5, F32.aq, F32.rl]; exact ⟨amo_aq _ _ _, amo_rl _ _ _⟩) rfl (by decide)
theorem amoandD (rd : Reg) (rs1 : Reg) (rs2 : Reg) (aq : Bool) (rl : Bool) : Statement (.amoandD rd rs1 rs2 aq rl) := fun h => roundTrip32 0x2f h rfl (by simp [cand32, encR, candAmo, amo_f5, F32.aq, F32.rl]; exact ⟨amo_aq _ _ _, amo_rl _ _ _⟩) rfl (by decide)
theorem amoorD (rd : Reg) (rs1 : Reg) (rs2 : Reg) (aq : Bool) (rl : Bool) : Statement (.amoorD rd rs1 rs2 aq rl) := fun h => roundTrip32 0x2f h rfl (by simp [cand32, encR, candAmo, amo_f5, F32.aq, F32.rl]; exact ⟨amo_aq _ _ _, amo_rl _ _ _⟩) rfl (by decide)
theorem amominD (rd : Reg) (rs1 : Reg) (rs2 : Reg) (aq : Bool) (rl : Bool) : Statement (.amominD rd rs1 rs2 aq rl) := fun h => roundTrip32 0x2f h rfl (by simp [cand32, encR, candAmo, amo_f5, F32.aq, F32.rl]; exact ⟨amo_aq _ _ _, amo_rl _ _ _⟩) rfl (by decide)
theorem amomaxD (rd : Reg) (rs1 : Reg) (rs2 : Reg) (aq : Bool) (rl : Bool) : Statement (.amomaxD rd rs1 rs2 aq rl) := fun h => roundTrip32 0x2f h rfl (by simp [cand32, encR, candAmo, amo_f5, F32.aq, F32.rl]; exact ⟨amo_aq _ _ _, amo_rl _ _ _⟩) rfl (by decide)
theorem amominuD (rd : Reg) (rs1 : Reg) (rs2 : Reg) (aq : Bool) (rl : Bool) : Statement (.amominuD rd rs1 rs2 aq rl) := fun h => roundTrip32 0x2f h rfl (by simp [cand32, encR, candAmo, amo_f5, F32.aq, F32.rl]; exact ⟨amo_aq _ _ _, amo_rl _ _ _⟩) rfl (by decide)
theorem amomaxuD (rd : Reg) (rs1 : Reg) (rs2 : Reg) (aq : Bool) (rl : Bool) : Statement (.amomaxuD rd rs1 rs2 aq rl) := fun h => roundTrip32 0x2f h rfl (by simp [cand32, encR, candAmo, amo_f5, F32.aq, F32.rl]; exact ⟨amo_aq _ _ _, amo_rl _ _ _⟩) rfl (by decide)
theorem flw (rd : Reg) (rs1 : Reg) (imm : BitVec 12) : Statement (.flw rd rs1 imm) := fun h => roundTrip32 0x07 h rfl (congrArg (fun v => some (Instr.flw rd rs1 v)) (immI_encI _ _ _ _ _)) rfl (by decide)
theorem flh (rd : Reg) (rs1 : Reg) (imm : BitVec 12) : Statement (.flh rd rs1 imm) := fun h => roundTrip32 0x07 h rfl (congrArg (fun v => some (Instr.flh rd rs1 v)) (immI_encI _ _ _ _ _)) rfl (by decide)
theorem fsw (rs1 : Reg) (rs2 : Reg) (imm : BitVec 12) : Statement (.fsw rs1 rs2 imm) := fun h => roundTrip32 0x27 h rfl (congrArg (fun v => some (Instr.fsw rs1 rs2 v)) (immS_encS _ _ _ _ _)) rfl (by decide)
theorem fsh (rs1 : Reg) (rs2 : Reg) (imm : BitVec 12) : Statement (.fsh rs1 rs2 imm) := fun h => roundTrip32 0x27 h rfl (congrArg (fun v => some (Instr.fsh rs1 rs2 v)) (immS_encS _ _ _ _ _)) rfl (by decide)
theorem fmaddS (rd : Reg) (rs1 : Reg) (rs2 : Reg) (rs3 : Reg) (rm : BitVec 3) : Statement (.fmaddS rd rs1 rs2 rs3 rm) := fun h => roundTrip32 0x43 h rfl (congrArg (fun v => some (Instr.fmaddS rd rs1 rs2 v rm)) ((extract_hi (st := 2) _ _ (by decide)).trans (extract_self _))) rfl (by decide)
theorem fmsubS (rd : Reg) (rs1 : Reg) (rs2 : Reg) (rs3 : Reg) (rm : BitVec 3) : Statement (.fmsubS rd rs1 rs2 rs3 rm) := fun h => roundTrip32 0x47 h rfl (congrArg (fun v => some (Instr.fmsubS rd rs1 rs2 v rm)) ((extract_hi (st := 2) _ _ (by decide)).trans (extract_self _))) rfl (by decide)
theorem fnmsubS (rd : Reg) (rs1 : Reg) (rs2 : Reg) (rs3 : Reg) (rm : BitVec 3) : Statement (.fnmsubS rd rs1 rs2 rs3 rm) := fun h => roundTrip32 0x4b h rfl (congrArg (fun v => some (Instr.fnmsubS rd rs1 rs2 v rm)) ((extract_hi (st := 2) _ _ (by decide)).trans (extract_self _))) rfl (by decide)
theorem fnmaddS (rd : Reg) (rs1 : Reg) (rs2 : Reg) (rs3 : Reg) (rm : BitVec 3) : Statement (.fnmaddS rd rs1 rs2 rs3 rm) := fun h => roundTrip32 0x4f h rfl (congrArg (fun v => some (Instr.fnmaddS rd rs1 rs2 v rm)) ((extract_hi (st := 2) _ _ (by decide)).trans (extract_self _))) rfl (by decide)
theorem faddS (rd : Reg) (rs1 : Reg) (rs2 : Reg) (rm : BitVec 3) : Statement (.faddS rd rs1 rs2 rm) := fun h => roundTrip32 0x53 h rfl (rfl) rfl (by decide)
theorem fsubS (rd : Reg) (rs1 : Reg) (rs2 : Reg) (rm : BitVec 3) : Statement (.fsubS rd rs1 rs2 rm) := fun h => roundTrip32 0x53 h rfl (rfl) rfl (by decide)
theorem fmulS (rd : Reg) (rs1 : Reg) (rs2 : Reg) (rm : BitVec 3) : Statement (.fmulS rd rs1 rs2 rm) := fun h => roundTrip32 0x53 h rfl (rfl) rfl (by decide)
theorem fdivS (rd : Reg) (rs1 : Reg) (rs2 : Reg) (rm : BitVec 3) : Statement (.fdivS rd rs1 rs2 rm) := fun h => roundTrip32 0x53 h rfl (rfl) rfl (by decide)
theorem fsqrtS (rd : Reg) (rs1 : Reg) (rm : BitVec 3) : Statement (.fsqrtS rd rs1 rm) := fun h => roundTrip32 0x53 h rfl (rfl) rfl (by decide)
theorem fsgnjS (rd : Reg) (rs1 : Reg) (rs2 : Reg) : Statement (.fsgnjS rd rs1 rs2) := fun h => roundTrip32 0x53 h rfl (rfl) rfl (by decide)
theorem fsgnjnS (rd : Reg) (rs1 : Reg) (rs2 : Reg) : Statement (.fsgnjnS rd rs1 rs2) := fun h => roundTrip32 0x53 h rfl (rfl) rfl (by decide)
theorem fsgnjxS (rd : Reg) (rs1 : Reg) (rs2 : Reg) : Statement (.fsgnjxS rd rs1 rs2) := fun h => roundTrip32 0x53 h rfl (rfl) rfl (by decide)
theorem fminS (rd : Reg) (rs1 : Reg) (rs2 : Reg) : Statement (.fminS rd rs1 rs2) := fun h => roundTrip32 0x53 h rfl (rfl) rfl (by decide)
theorem fmaxS (rd : Reg) (rs1 : Reg) (rs2 : Reg) : Statement (.fmaxS rd rs1 rs2) := fun h => roundTrip32 0x53 h rfl (rfl) rfl (by decide)
theorem fcvtWS (rd : Reg) (rs1 : Reg) (rm : BitVec 3) : Statement (.fcvtWS rd rs1 rm) := fun h => roundTrip32 0x53 h rfl (rfl) rfl (by decide)
theorem fcvtWuS (rd : Reg) (rs1 : Reg) (rm : BitVec 3) : Statement (.fcvtWuS rd rs1 rm) := fun h => roundTrip32 0x53 h rfl (rfl) rfl (by decide)
theorem fcvtLS (rd : Reg) (rs1 : Reg) (rm : BitVec 3) : Statement (.fcvtLS rd rs1 rm) := fun h => roundTrip32 0x53 h rfl (rfl) rfl (by decide)
theorem fcvtLuS (rd : Reg) (rs1 : Reg) (rm : BitVec 3) : Statement (.fcvtLuS rd rs1 rm) := fun h => roundTrip32 0x53 h rfl (rfl) rfl (by decide)
theorem fcvtSW (rd : Reg) (rs1 : Reg) (rm : BitVec 3) : Statement (.fcvtSW rd rs1 rm) := fun h => roundTrip32 0x53 h rfl (rfl) rfl (by decide)
theorem fcvtSWu (rd : Reg) (rs1 : Reg) (rm : BitVec 3) : Statement (.fcvtSWu rd rs1 rm) := fun h => roundTrip32 0x53 h rfl (rfl) rfl (by decide)
theorem fcvtSL (rd : Reg) (rs1 : Reg) (rm : BitVec 3) : Statement (.fcvtSL rd rs1 rm) := fun h => roundTrip32 0x53 h rfl (rfl) rfl (by decide)
theorem fcvtSLu (rd : Reg) (rs1 : Reg) (rm : BitVec 3) : Statement (.fcvtSLu rd rs1 rm) := fun h => roundTrip32 0x53 h rfl (rfl) rfl (by decide)
theorem fmvXW (rd : Reg) (rs1 : Reg) : Statement (.fmvXW rd rs1) := fun h => roundTrip32 0x53 h rfl (rfl) rfl (by decide)
theorem fclassS (rd : Reg) (rs1 : Reg) : Statement (.fclassS rd rs1) := fun h => roundTrip32 0x53 h rfl (rfl) rfl (by decide)
theorem fmvWX (rd : Reg) (rs1 : Reg) : Statement (.fmvWX rd rs1) := fun h => roundTrip32 0x53 h rfl (rfl) rfl (by decide)
theorem feqS (rd : Reg) (rs1 : Reg) (rs2 : Reg) : Statement (.feqS rd rs1 rs2) := fun h => roundTrip32 0x53 h rfl (rfl) rfl (by decide)
theorem fltS (rd : Reg) (rs1 : Reg) (rs2 : Reg) : Statement (.fltS rd rs1 rs2) := fun h => roundTrip32 0x53 h rfl (rfl) rfl (by decide)
theorem fleS (rd : Reg) (rs1 : Reg) (rs2 : Reg) : Statement (.fleS rd rs1 rs2) := fun h => roundTrip32 0x53 h rfl (rfl) rfl (by decide)
theorem fcvtSBf16 (rd : Reg) (rs1 : Reg) (rm : BitVec 3) : Statement (.fcvtSBf16 rd rs1 rm) := fun h => roundTrip32 0x53 h rfl (rfl) rfl (by decide)
theorem fcvtBf16S (rd : Reg) (rs1 : Reg) (rm : BitVec 3) : Statement (.fcvtBf16S rd rs1 rm) := fun h => roundTrip32 0x53 h rfl (rfl) rfl (by decide)
theorem fmvXH (rd : Reg) (rs1 : Reg) : Statement (.fmvXH rd rs1) := fun h => roundTrip32 0x53 h rfl (rfl) rfl (by decide)
theorem fmvHX (rd : Reg) (rs1 : Reg) : Statement (.fmvHX rd rs1) := fun h => roundTrip32 0x53 h rfl (rfl) rfl (by decide)
theorem loop (rs1 : Reg) (imm : BitVec 12) : Statement (.loop rs1 imm) := fun h => roundTrip32 0x0b h rfl (congrArg (fun v => some (Instr.loop rs1 v)) (immI_encI _ _ _ _ _)) rfl (by decide)
theorem loopi (cntm1 : BitVec 10) (imm : BitVec 12) : Statement (.loopi cntm1 imm) := fun h => roundTrip32 0x0b h rfl (cand_loopi cntm1 imm) rfl (by decide)
theorem lbrk (rs1 : Reg) (n : BitVec 12) : Statement (.lbrk rs1 n) := fun h => roundTrip32 0x0b h rfl (congrArg (fun v => some (Instr.lbrk rs1 v)) (immI_encI _ _ _ _ _)) rfl (by decide)
theorem yield : Statement (.yield) := fun h => roundTrip32 0x0b h rfl (rfl) rfl (by decide)
theorem widf (rd : Reg) (i : BitVec 3) : Statement (.widf rd i) := fun h => roundTrip32 0x0b h rfl ((cand_widf 0 rd i).trans rfl) rfl (by decide)
theorem widfExt (rd : Reg) (i : BitVec 3) : Statement (.widfExt rd i) := fun h => roundTrip32 0x0b h rfl ((cand_widf 1 rd i).trans rfl) rfl (by decide)
theorem widfLvl (rd : Reg) (i : BitVec 3) : Statement (.widfLvl rd i) := fun h => roundTrip32 0x0b h rfl ((cand_widf 2 rd i).trans rfl) rfl (by decide)
theorem vintVadd (d : Reg) (a : Reg) (b : Reg) (xs : Bool) (p : Pred) (t : Ty) : Statement (.vintVadd d a b xs p t) := fun h => roundTripQ h rfl rfl ((congrArg (fun v => Option.bind (v) (fun b0 => some (Instr.vintVadd d a b ((immBit xs).getLsbD 0) p b0))) (Ty.ofCode_code t)).trans (congrArg (fun v => some (Instr.vintVadd d a b v p t)) (immBit_get xs)))
theorem vintVsub (d : Reg) (a : Reg) (b : Reg) (xs : Bool) (p : Pred) (t : Ty) : Statement (.vintVsub d a b xs p t) := fun h => roundTripQ h rfl rfl ((congrArg (fun v => Option.bind (v) (fun b0 => some (Instr.vintVsub d a b ((immBit xs).getLsbD 0) p b0))) (Ty.ofCode_code t)).trans (congrArg (fun v => some (Instr.vintVsub d a b v p t)) (immBit_get xs)))
theorem vintVmul (d : Reg) (a : Reg) (b : Reg) (xs : Bool) (p : Pred) (t : Ty) : Statement (.vintVmul d a b xs p t) := fun h => roundTripQ h rfl rfl ((congrArg (fun v => Option.bind (v) (fun b0 => some (Instr.vintVmul d a b ((immBit xs).getLsbD 0) p b0))) (Ty.ofCode_code t)).trans (congrArg (fun v => some (Instr.vintVmul d a b v p t)) (immBit_get xs)))
theorem vmulh (d : Reg) (a : Reg) (b : Reg) (xs : Bool) (p : Pred) (t : Ty) : Statement (.vmulh d a b xs p t) := fun h => roundTripQ h rfl rfl ((congrArg (fun v => Option.bind (v) (fun b0 => some (Instr.vmulh d a b ((immBit xs).getLsbD 0) p b0))) (Ty.ofCode_code t)).trans (congrArg (fun v => some (Instr.vmulh d a b v p t)) (immBit_get xs)))
theorem vintVmin (d : Reg) (a : Reg) (b : Reg) (xs : Bool) (p : Pred) (t : Ty) : Statement (.vintVmin d a b xs p t) := fun h => roundTripQ h rfl rfl ((congrArg (fun v => Option.bind (v) (fun b0 => some (Instr.vintVmin d a b ((immBit xs).getLsbD 0) p b0))) (Ty.ofCode_code t)).trans (congrArg (fun v => some (Instr.vintVmin d a b v p t)) (immBit_get xs)))
theorem vintVmax (d : Reg) (a : Reg) (b : Reg) (xs : Bool) (p : Pred) (t : Ty) : Statement (.vintVmax d a b xs p t) := fun h => roundTripQ h rfl rfl ((congrArg (fun v => Option.bind (v) (fun b0 => some (Instr.vintVmax d a b ((immBit xs).getLsbD 0) p b0))) (Ty.ofCode_code t)).trans (congrArg (fun v => some (Instr.vintVmax d a b v p t)) (immBit_get xs)))
theorem vminu (d : Reg) (a : Reg) (b : Reg) (xs : Bool) (p : Pred) (t : Ty) : Statement (.vminu d a b xs p t) := fun h => roundTripQ h rfl rfl ((congrArg (fun v => Option.bind (v) (fun b0 => some (Instr.vminu d a b ((immBit xs).getLsbD 0) p b0))) (Ty.ofCode_code t)).trans (congrArg (fun v => some (Instr.vminu d a b v p t)) (immBit_get xs)))
theorem vmaxu (d : Reg) (a : Reg) (b : Reg) (xs : Bool) (p : Pred) (t : Ty) : Statement (.vmaxu d a b xs p t) := fun h => roundTripQ h rfl rfl ((congrArg (fun v => Option.bind (v) (fun b0 => some (Instr.vmaxu d a b ((immBit xs).getLsbD 0) p b0))) (Ty.ofCode_code t)).trans (congrArg (fun v => some (Instr.vmaxu d a b v p t)) (immBit_get xs)))
theorem vand (d : Reg) (a : Reg) (b : Reg) (xs : Bool) (p : Pred) (t : Ty) : Statement (.vand d a b xs p t) := fun h => roundTripQ h rfl rfl ((congrArg (fun v => Option.bind (v) (fun b0 => some (Instr.vand d a b ((immBit xs).getLsbD 0) p b0))) (Ty.ofCode_code t)).trans (congrArg (fun v => some (Instr.vand d a b v p t)) (immBit_get xs)))
theorem vor (d : Reg) (a : Reg) (b : Reg) (xs : Bool) (p : Pred) (t : Ty) : Statement (.vor d a b xs p t) := fun h => roundTripQ h rfl rfl ((congrArg (fun v => Option.bind (v) (fun b0 => some (Instr.vor d a b ((immBit xs).getLsbD 0) p b0))) (Ty.ofCode_code t)).trans (congrArg (fun v => some (Instr.vor d a b v p t)) (immBit_get xs)))
theorem vxor (d : Reg) (a : Reg) (b : Reg) (xs : Bool) (p : Pred) (t : Ty) : Statement (.vxor d a b xs p t) := fun h => roundTripQ h rfl rfl ((congrArg (fun v => Option.bind (v) (fun b0 => some (Instr.vxor d a b ((immBit xs).getLsbD 0) p b0))) (Ty.ofCode_code t)).trans (congrArg (fun v => some (Instr.vxor d a b v p t)) (immBit_get xs)))
theorem vsll (d : Reg) (a : Reg) (b : Reg) (xs : Bool) (p : Pred) (t : Ty) : Statement (.vsll d a b xs p t) := fun h => roundTripQ h rfl rfl ((congrArg (fun v => Option.bind (v) (fun b0 => some (Instr.vsll d a b ((immBit xs).getLsbD 0) p b0))) (Ty.ofCode_code t)).trans (congrArg (fun v => some (Instr.vsll d a b v p t)) (immBit_get xs)))
theorem vsrl (d : Reg) (a : Reg) (b : Reg) (xs : Bool) (p : Pred) (t : Ty) : Statement (.vsrl d a b xs p t) := fun h => roundTripQ h rfl rfl ((congrArg (fun v => Option.bind (v) (fun b0 => some (Instr.vsrl d a b ((immBit xs).getLsbD 0) p b0))) (Ty.ofCode_code t)).trans (congrArg (fun v => some (Instr.vsrl d a b v p t)) (immBit_get xs)))
theorem vsra (d : Reg) (a : Reg) (b : Reg) (xs : Bool) (p : Pred) (t : Ty) : Statement (.vsra d a b xs p t) := fun h => roundTripQ h rfl rfl ((congrArg (fun v => Option.bind (v) (fun b0 => some (Instr.vsra d a b ((immBit xs).getLsbD 0) p b0))) (Ty.ofCode_code t)).trans (congrArg (fun v => some (Instr.vsra d a b v p t)) (immBit_get xs)))
theorem vintVabs (d : Reg) (a : Reg) (p : Pred) (t : Ty) : Statement (.vintVabs d a p t) := fun h => roundTripQ h rfl rfl (congrArg (fun v => Option.bind (v) (fun b0 => some (Instr.vintVabs d a p b0))) (Ty.ofCode_code t))
theorem vintVneg (d : Reg) (a : Reg) (p : Pred) (t : Ty) : Statement (.vintVneg d a p t) := fun h => roundTripQ h rfl rfl (congrArg (fun v => Option.bind (v) (fun b0 => some (Instr.vintVneg d a p b0))) (Ty.ofCode_code t))
theorem vsadd (d : Reg) (a : Reg) (b : Reg) (xs : Bool) (p : Pred) (t : Ty) : Statement (.vsadd d a b xs p t) := fun h => roundTripQ h rfl rfl ((congrArg (fun v => Option.bind (v) (fun b0 => some (Instr.vsadd d a b ((immBit xs).getLsbD 0) p b0))) (Ty.ofCode_code t)).trans (congrArg (fun v => some (Instr.vsadd d a b v p t)) (immBit_get xs)))
theorem vssub (d : Reg) (a : Reg) (b : Reg) (xs : Bool) (p : Pred) (t : Ty) : Statement (.vssub d a b xs p t) := fun h => roundTripQ h rfl rfl ((congrArg (fun v => Option.bind (v) (fun b0 => some (Instr.vssub d a b ((immBit xs).getLsbD 0) p b0))) (Ty.ofCode_code t)).trans (congrArg (fun v => some (Instr.vssub d a b v p t)) (immBit_get xs)))
theorem vfltVadd (d : Reg) (a : Reg) (b : Reg) (xs : Bool) (p : Pred) (t : Ty) : Statement (.vfltVadd d a b xs p t) := fun h => roundTripQ h rfl rfl ((congrArg (fun v => Option.bind (v) (fun b0 => some (Instr.vfltVadd d a b ((immBit xs).getLsbD 0) p b0))) (Ty.ofCode_code t)).trans (congrArg (fun v => some (Instr.vfltVadd d a b v p t)) (immBit_get xs)))
theorem vfltVsub (d : Reg) (a : Reg) (b : Reg) (xs : Bool) (p : Pred) (t : Ty) : Statement (.vfltVsub d a b xs p t) := fun h => roundTripQ h rfl rfl ((congrArg (fun v => Option.bind (v) (fun b0 => some (Instr.vfltVsub d a b ((immBit xs).getLsbD 0) p b0))) (Ty.ofCode_code t)).trans (congrArg (fun v => some (Instr.vfltVsub d a b v p t)) (immBit_get xs)))
theorem vfltVmul (d : Reg) (a : Reg) (b : Reg) (xs : Bool) (p : Pred) (t : Ty) : Statement (.vfltVmul d a b xs p t) := fun h => roundTripQ h rfl rfl ((congrArg (fun v => Option.bind (v) (fun b0 => some (Instr.vfltVmul d a b ((immBit xs).getLsbD 0) p b0))) (Ty.ofCode_code t)).trans (congrArg (fun v => some (Instr.vfltVmul d a b v p t)) (immBit_get xs)))
theorem vfma (d : Reg) (a : Reg) (b : Reg) (c : Reg) (xs : Bool) (p : Pred) (t : Ty) : Statement (.vfma d a b c xs p t) := fun h => roundTripQ h rfl rfl ((congrArg (fun v => Option.bind (v) (fun b0 => some (Instr.vfma d a b c ((immBit xs).getLsbD 0) p b0))) (Ty.ofCode_code t)).trans (congrArg (fun v => some (Instr.vfma d a b c v p t)) (immBit_get xs)))
theorem vfms (d : Reg) (a : Reg) (b : Reg) (c : Reg) (xs : Bool) (p : Pred) (t : Ty) : Statement (.vfms d a b c xs p t) := fun h => roundTripQ h rfl rfl ((congrArg (fun v => Option.bind (v) (fun b0 => some (Instr.vfms d a b c ((immBit xs).getLsbD 0) p b0))) (Ty.ofCode_code t)).trans (congrArg (fun v => some (Instr.vfms d a b c v p t)) (immBit_get xs)))
theorem vfnma (d : Reg) (a : Reg) (b : Reg) (c : Reg) (xs : Bool) (p : Pred) (t : Ty) : Statement (.vfnma d a b c xs p t) := fun h => roundTripQ h rfl rfl ((congrArg (fun v => Option.bind (v) (fun b0 => some (Instr.vfnma d a b c ((immBit xs).getLsbD 0) p b0))) (Ty.ofCode_code t)).trans (congrArg (fun v => some (Instr.vfnma d a b c v p t)) (immBit_get xs)))
theorem vfltVmin (d : Reg) (a : Reg) (b : Reg) (xs : Bool) (p : Pred) (t : Ty) : Statement (.vfltVmin d a b xs p t) := fun h => roundTripQ h rfl rfl ((congrArg (fun v => Option.bind (v) (fun b0 => some (Instr.vfltVmin d a b ((immBit xs).getLsbD 0) p b0))) (Ty.ofCode_code t)).trans (congrArg (fun v => some (Instr.vfltVmin d a b v p t)) (immBit_get xs)))
theorem vfltVmax (d : Reg) (a : Reg) (b : Reg) (xs : Bool) (p : Pred) (t : Ty) : Statement (.vfltVmax d a b xs p t) := fun h => roundTripQ h rfl rfl ((congrArg (fun v => Option.bind (v) (fun b0 => some (Instr.vfltVmax d a b ((immBit xs).getLsbD 0) p b0))) (Ty.ofCode_code t)).trans (congrArg (fun v => some (Instr.vfltVmax d a b v p t)) (immBit_get xs)))
theorem vfltVabs (d : Reg) (a : Reg) (p : Pred) (t : Ty) : Statement (.vfltVabs d a p t) := fun h => roundTripQ h rfl rfl (congrArg (fun v => Option.bind (v) (fun b0 => some (Instr.vfltVabs d a p b0))) (Ty.ofCode_code t))
theorem vfltVneg (d : Reg) (a : Reg) (p : Pred) (t : Ty) : Statement (.vfltVneg d a p t) := fun h => roundTripQ h rfl rfl (congrArg (fun v => Option.bind (v) (fun b0 => some (Instr.vfltVneg d a p b0))) (Ty.ofCode_code t))
theorem vdiv (d : Reg) (a : Reg) (b : Reg) (xs : Bool) (p : Pred) (t : Ty) : Statement (.vdiv d a b xs p t) := fun h => roundTripQ h rfl rfl ((congrArg (fun v => Option.bind (v) (fun b0 => some (Instr.vdiv d a b ((immBit xs).getLsbD 0) p b0))) (Ty.ofCode_code t)).trans (congrArg (fun v => some (Instr.vdiv d a b v p t)) (immBit_get xs)))
theorem vsqrt (d : Reg) (a : Reg) (p : Pred) (t : Ty) : Statement (.vsqrt d a p t) := fun h => roundTripQ h rfl rfl (congrArg (fun v => Option.bind (v) (fun b0 => some (Instr.vsqrt d a p b0))) (Ty.ofCode_code t))
theorem vrcp (d : Reg) (a : Reg) (p : Pred) (t : Ty) : Statement (.vrcp d a p t) := fun h => roundTripQ h rfl rfl (congrArg (fun v => Option.bind (v) (fun b0 => some (Instr.vrcp d a p b0))) (Ty.ofCode_code t))
theorem vrsqrt (d : Reg) (a : Reg) (p : Pred) (t : Ty) : Statement (.vrsqrt d a p t) := fun h => roundTripQ h rfl rfl (congrArg (fun v => Option.bind (v) (fun b0 => some (Instr.vrsqrt d a p b0))) (Ty.ofCode_code t))
theorem vexp2 (d : Reg) (a : Reg) (p : Pred) (t : Ty) : Statement (.vexp2 d a p t) := fun h => roundTripQ h rfl rfl (congrArg (fun v => Option.bind (v) (fun b0 => some (Instr.vexp2 d a p b0))) (Ty.ofCode_code t))
theorem vlog2 (d : Reg) (a : Reg) (p : Pred) (t : Ty) : Statement (.vlog2 d a p t) := fun h => roundTripQ h rfl rfl (congrArg (fun v => Option.bind (v) (fun b0 => some (Instr.vlog2 d a p b0))) (Ty.ofCode_code t))
theorem vsgnj (d : Reg) (a : Reg) (b : Reg) (xs : Bool) (p : Pred) (t : Ty) : Statement (.vsgnj d a b xs p t) := fun h => roundTripQ h rfl rfl ((congrArg (fun v => Option.bind (v) (fun b0 => some (Instr.vsgnj d a b ((immBit xs).getLsbD 0) p b0))) (Ty.ofCode_code t)).trans (congrArg (fun v => some (Instr.vsgnj d a b v p t)) (immBit_get xs)))
theorem vcmpeq (d : MReg) (a : Reg) (b : Reg) (xs : Bool) (p : Pred) (t : Ty) : Statement (.vcmpeq d a b xs p t) := fun h => roundTripQ h rfl rfl ((congrArg (fun v => Option.bind (v) (fun b0 => some (Instr.vcmpeq (Q64.mOf (mreg d)) a b ((immBit xs).getLsbD 0) p b0))) (Ty.ofCode_code t)).trans ((congrArg (fun v => some (Instr.vcmpeq v a b ((immBit xs).getLsbD 0) p t)) (mOf_mreg d)).trans (congrArg (fun v => some (Instr.vcmpeq d a b v p t)) (immBit_get xs))))
theorem vcmpne (d : MReg) (a : Reg) (b : Reg) (xs : Bool) (p : Pred) (t : Ty) : Statement (.vcmpne d a b xs p t) := fun h => roundTripQ h rfl rfl ((congrArg (fun v => Option.bind (v) (fun b0 => some (Instr.vcmpne (Q64.mOf (mreg d)) a b ((immBit xs).getLsbD 0) p b0))) (Ty.ofCode_code t)).trans ((congrArg (fun v => some (Instr.vcmpne v a b ((immBit xs).getLsbD 0) p t)) (mOf_mreg d)).trans (congrArg (fun v => some (Instr.vcmpne d a b v p t)) (immBit_get xs))))
theorem vcmplt (d : MReg) (a : Reg) (b : Reg) (xs : Bool) (p : Pred) (t : Ty) : Statement (.vcmplt d a b xs p t) := fun h => roundTripQ h rfl rfl ((congrArg (fun v => Option.bind (v) (fun b0 => some (Instr.vcmplt (Q64.mOf (mreg d)) a b ((immBit xs).getLsbD 0) p b0))) (Ty.ofCode_code t)).trans ((congrArg (fun v => some (Instr.vcmplt v a b ((immBit xs).getLsbD 0) p t)) (mOf_mreg d)).trans (congrArg (fun v => some (Instr.vcmplt d a b v p t)) (immBit_get xs))))
theorem vcmple (d : MReg) (a : Reg) (b : Reg) (xs : Bool) (p : Pred) (t : Ty) : Statement (.vcmple d a b xs p t) := fun h => roundTripQ h rfl rfl ((congrArg (fun v => Option.bind (v) (fun b0 => some (Instr.vcmple (Q64.mOf (mreg d)) a b ((immBit xs).getLsbD 0) p b0))) (Ty.ofCode_code t)).trans ((congrArg (fun v => some (Instr.vcmple v a b ((immBit xs).getLsbD 0) p t)) (mOf_mreg d)).trans (congrArg (fun v => some (Instr.vcmple d a b v p t)) (immBit_get xs))))
theorem vcmpgt (d : MReg) (a : Reg) (b : Reg) (xs : Bool) (p : Pred) (t : Ty) : Statement (.vcmpgt d a b xs p t) := fun h => roundTripQ h rfl rfl ((congrArg (fun v => Option.bind (v) (fun b0 => some (Instr.vcmpgt (Q64.mOf (mreg d)) a b ((immBit xs).getLsbD 0) p b0))) (Ty.ofCode_code t)).trans ((congrArg (fun v => some (Instr.vcmpgt v a b ((immBit xs).getLsbD 0) p t)) (mOf_mreg d)).trans (congrArg (fun v => some (Instr.vcmpgt d a b v p t)) (immBit_get xs))))
theorem vcmpge (d : MReg) (a : Reg) (b : Reg) (xs : Bool) (p : Pred) (t : Ty) : Statement (.vcmpge d a b xs p t) := fun h => roundTripQ h rfl rfl ((congrArg (fun v => Option.bind (v) (fun b0 => some (Instr.vcmpge (Q64.mOf (mreg d)) a b ((immBit xs).getLsbD 0) p b0))) (Ty.ofCode_code t)).trans ((congrArg (fun v => some (Instr.vcmpge v a b ((immBit xs).getLsbD 0) p t)) (mOf_mreg d)).trans (congrArg (fun v => some (Instr.vcmpge d a b v p t)) (immBit_get xs))))
theorem mand (d : MReg) (a : MReg) (b : MReg) (all : Bool) (p : Pred) : Statement (.mand d a b all p) := fun h => roundTripQ h rfl rfl ((congrArg (fun v => some (Instr.mand v (Q64.mOf (mreg a)) (Q64.mOf (mreg b)) ((immBit all).getLsbD 0) p)) (mOf_mreg d)).trans ((congrArg (fun v => some (Instr.mand d v (Q64.mOf (mreg b)) ((immBit all).getLsbD 0) p)) (mOf_mreg a)).trans ((congrArg (fun v => some (Instr.mand d a v ((immBit all).getLsbD 0) p)) (mOf_mreg b)).trans (congrArg (fun v => some (Instr.mand d a b v p)) (immBit_get all)))))
theorem mor (d : MReg) (a : MReg) (b : MReg) (all : Bool) (p : Pred) : Statement (.mor d a b all p) := fun h => roundTripQ h rfl rfl ((congrArg (fun v => some (Instr.mor v (Q64.mOf (mreg a)) (Q64.mOf (mreg b)) ((immBit all).getLsbD 0) p)) (mOf_mreg d)).trans ((congrArg (fun v => some (Instr.mor d v (Q64.mOf (mreg b)) ((immBit all).getLsbD 0) p)) (mOf_mreg a)).trans ((congrArg (fun v => some (Instr.mor d a v ((immBit all).getLsbD 0) p)) (mOf_mreg b)).trans (congrArg (fun v => some (Instr.mor d a b v p)) (immBit_get all)))))
theorem mxor (d : MReg) (a : MReg) (b : MReg) (all : Bool) (p : Pred) : Statement (.mxor d a b all p) := fun h => roundTripQ h rfl rfl ((congrArg (fun v => some (Instr.mxor v (Q64.mOf (mreg a)) (Q64.mOf (mreg b)) ((immBit all).getLsbD 0) p)) (mOf_mreg d)).trans ((congrArg (fun v => some (Instr.mxor d v (Q64.mOf (mreg b)) ((immBit all).getLsbD 0) p)) (mOf_mreg a)).trans ((congrArg (fun v => some (Instr.mxor d a v ((immBit all).getLsbD 0) p)) (mOf_mreg b)).trans (congrArg (fun v => some (Instr.mxor d a b v p)) (immBit_get all)))))
theorem mandn (d : MReg) (a : MReg) (b : MReg) (all : Bool) (p : Pred) : Statement (.mandn d a b all p) := fun h => roundTripQ h rfl rfl ((congrArg (fun v => some (Instr.mandn v (Q64.mOf (mreg a)) (Q64.mOf (mreg b)) ((immBit all).getLsbD 0) p)) (mOf_mreg d)).trans ((congrArg (fun v => some (Instr.mandn d v (Q64.mOf (mreg b)) ((immBit all).getLsbD 0) p)) (mOf_mreg a)).trans ((congrArg (fun v => some (Instr.mandn d a v ((immBit all).getLsbD 0) p)) (mOf_mreg b)).trans (congrArg (fun v => some (Instr.mandn d a b v p)) (immBit_get all)))))
theorem mnot (d : MReg) (a : MReg) (all : Bool) (p : Pred) : Statement (.mnot d a all p) := fun h => roundTripQ h rfl rfl ((congrArg (fun v => some (Instr.mnot v (Q64.mOf (mreg a)) ((immBit all).getLsbD 0) p)) (mOf_mreg d)).trans ((congrArg (fun v => some (Instr.mnot d v ((immBit all).getLsbD 0) p)) (mOf_mreg a)).trans (congrArg (fun v => some (Instr.mnot d a v p)) (immBit_get all))))
theorem mpop (d : Reg) (a : MReg) (all : Bool) (p : Pred) : Statement (.mpop d a all p) := fun h => roundTripQ h rfl rfl ((congrArg (fun v => some (Instr.mpop d v ((immBit all).getLsbD 0) p)) (mOf_mreg a)).trans (congrArg (fun v => some (Instr.mpop d a v p)) (immBit_get all)))
theorem mfirst (d : Reg) (a : MReg) (all : Bool) (p : Pred) : Statement (.mfirst d a all p) := fun h => roundTripQ h rfl rfl ((congrArg (fun v => some (Instr.mfirst d v ((immBit all).getLsbD 0) p)) (mOf_mreg a)).trans (congrArg (fun v => some (Instr.mfirst d a v p)) (immBit_get all)))
theorem mset (d : MReg) (all : Bool) (p : Pred) : Statement (.mset d all p) := fun h => roundTripQ h rfl rfl ((congrArg (fun v => some (Instr.mset v ((immBit all).getLsbD 0) p)) (mOf_mreg d)).trans (congrArg (fun v => some (Instr.mset d v p)) (immBit_get all)))
theorem mclr (d : MReg) (all : Bool) (p : Pred) : Statement (.mclr d all p) := fun h => roundTripQ h rfl rfl ((congrArg (fun v => some (Instr.mclr v ((immBit all).getLsbD 0) p)) (mOf_mreg d)).trans (congrArg (fun v => some (Instr.mclr d v p)) (immBit_get all)))
theorem vslideup (d : Reg) (a : Reg) (b : Reg) (p : Pred) (t : Ty) : Statement (.vslideup d a b p t) := fun h => roundTripQ h rfl rfl (congrArg (fun v => Option.bind (v) (fun b0 => some (Instr.vslideup d a b p b0))) (Ty.ofCode_code t))
theorem vslidedn (d : Reg) (a : Reg) (b : Reg) (p : Pred) (t : Ty) : Statement (.vslidedn d a b p t) := fun h => roundTripQ h rfl rfl (congrArg (fun v => Option.bind (v) (fun b0 => some (Instr.vslidedn d a b p b0))) (Ty.ofCode_code t))
theorem vbcast (d : Reg) (a : Reg) (p : Pred) (t : Ty) : Statement (.vbcast d a p t) := fun h => roundTripQ h rfl rfl (congrArg (fun v => Option.bind (v) (fun b0 => some (Instr.vbcast d a p b0))) (Ty.ofCode_code t))
theorem vperm (d : Reg) (a : Reg) (b : Reg) (p : Pred) (t : Ty) : Statement (.vperm d a b p t) := fun h => roundTripQ h rfl rfl (congrArg (fun v => Option.bind (v) (fun b0 => some (Instr.vperm d a b p b0))) (Ty.ofCode_code t))
theorem vmvXv (d : Reg) (a : Reg) (ix : BitVec 10) (t : Ty) : Statement (.vmvXv d a ix t) := fun h => roundTripQ h rfl rfl ((congrArg (fun v => Option.bind (v) (fun b0 => some (Instr.vmvXv d a ((((0 : BitVec 6)) ++ ix : BitVec 16).extractLsb' 0 10) b0))) (Ty.ofCode_code t)).trans (congrArg (fun v => some (Instr.vmvXv d a v t)) (extract_lo _ _)))
theorem vmvVx (d : Reg) (a : Reg) (ix : BitVec 10) (t : Ty) : Statement (.vmvVx d a ix t) := fun h => roundTripQ h rfl rfl ((congrArg (fun v => Option.bind (v) (fun b0 => some (Instr.vmvVx d a ((((0 : BitVec 6)) ++ ix : BitVec 16).extractLsb' 0 10) b0))) (Ty.ofCode_code t)).trans (congrArg (fun v => some (Instr.vmvVx d a v t)) (extract_lo _ _)))
theorem vmvFv (d : Reg) (a : Reg) (ix : BitVec 10) (t : Ty) : Statement (.vmvFv d a ix t) := fun h => roundTripQ h rfl rfl ((congrArg (fun v => Option.bind (v) (fun b0 => some (Instr.vmvFv d a ((((0 : BitVec 6)) ++ ix : BitVec 16).extractLsb' 0 10) b0))) (Ty.ofCode_code t)).trans (congrArg (fun v => some (Instr.vmvFv d a v t)) (extract_lo _ _)))
theorem vmvVf (d : Reg) (a : Reg) (ix : BitVec 10) (t : Ty) : Statement (.vmvVf d a ix t) := fun h => roundTripQ h rfl rfl ((congrArg (fun v => Option.bind (v) (fun b0 => some (Instr.vmvVf d a ((((0 : BitVec 6)) ++ ix : BitVec 16).extractLsb' 0 10) b0))) (Ty.ofCode_code t)).trans (congrArg (fun v => some (Instr.vmvVf d a v t)) (extract_lo _ _)))
theorem vsel (d : Reg) (a : Reg) (b : Reg) (p : Pred) (t : Ty) : Statement (.vsel d a b p t) := fun h => roundTripQ h rfl rfl (congrArg (fun v => Option.bind (v) (fun b0 => some (Instr.vsel d a b p b0))) (Ty.ofCode_code t))
theorem vcompress (d : Reg) (a : Reg) (p : Pred) (t : Ty) : Statement (.vcompress d a p t) := fun h => roundTripQ h rfl rfl (congrArg (fun v => Option.bind (v) (fun b0 => some (Instr.vcompress d a p b0))) (Ty.ofCode_code t))
theorem vredsum (d : Reg) (a : Reg) (ix : BitVec 4) (p : Pred) (t : Ty) : Statement (.vredsum d a ix p t) := fun h => roundTripQ h rfl rfl ((congrArg (fun v => Option.bind (v) (fun b0 => some (Instr.vredsum d a ((((0 : BitVec 12)) ++ ix : BitVec 16).extractLsb' 0 4) p b0))) (Ty.ofCode_code t)).trans (congrArg (fun v => some (Instr.vredsum d a v p t)) (extract_lo _ _)))
theorem vredmax (d : Reg) (a : Reg) (ix : BitVec 4) (p : Pred) (t : Ty) : Statement (.vredmax d a ix p t) := fun h => roundTripQ h rfl rfl ((congrArg (fun v => Option.bind (v) (fun b0 => some (Instr.vredmax d a ((((0 : BitVec 12)) ++ ix : BitVec 16).extractLsb' 0 4) p b0))) (Ty.ofCode_code t)).trans (congrArg (fun v => some (Instr.vredmax d a v p t)) (extract_lo _ _)))
theorem vredmin (d : Reg) (a : Reg) (ix : BitVec 4) (p : Pred) (t : Ty) : Statement (.vredmin d a ix p t) := fun h => roundTripQ h rfl rfl ((congrArg (fun v => Option.bind (v) (fun b0 => some (Instr.vredmin d a ((((0 : BitVec 12)) ++ ix : BitVec 16).extractLsb' 0 4) p b0))) (Ty.ofCode_code t)).trans (congrArg (fun v => some (Instr.vredmin d a v p t)) (extract_lo _ _)))
theorem vredamax (d : Reg) (a : Reg) (tm : Bool) (ix : BitVec 4) (p : Pred) (t : Ty) : Statement (.vredamax d a tm ix p t) := fun h => roundTripQ h rfl rfl (cand_vredamax d a tm ix p t)
theorem vcvt (d : Reg) (a : Reg) (c : MReg) (p : Pred) (dst : Ty) (src : Ty) : Statement (.vcvt d a c p dst src) := fun h => roundTripQ h rfl rfl ((congrArg (fun v => Option.bind (v) (fun b0 => Option.bind (Ty.ofCode (((0 : BitVec 11) ++ src.code : BitVec 16).extractLsb' 0 5)) (fun b1 => some (Instr.vcvt d a (Q64.mOf (mreg c)) p b0 b1)))) (Ty.ofCode_code dst)).trans ((congrArg (fun v => Option.bind (v) (fun b1 => some (Instr.vcvt d a (Q64.mOf (mreg c)) p dst b1))) (show Ty.ofCode (((0 : BitVec 11) ++ src.code : BitVec 16).extractLsb' 0 5) = some src from (congrArg Ty.ofCode (extract_lo _ _)).trans (Ty.ofCode_code src))).trans (congrArg (fun v => some (Instr.vcvt d a v p dst src)) (mOf_mreg c))))
theorem vsrnd (d : Reg) (a : Reg) (b : Reg) (c : MReg) (w : BitVec 6) (p : Pred) (dst : Ty) (src : Ty) : Statement (.vsrnd d a b c w p dst src) := fun h => roundTripQ h rfl rfl (cand_vsrnd d a b c w p dst src)
theorem vqnt (d : Reg) (a : Reg) (scale : Option Reg) (c : MReg) (src : Ty) : Statement (.vqnt d a scale c src) := match scale with
  | none => fun h => roundTripQ h rfl rfl (cand_vqnt_flat d a c src)
  | some b => fun h => roundTripQ h rfl rfl (cand_vqnt_reg d a b c src)
theorem vld (d : Reg) (a : Reg) (imm : BitVec 16) (p : Pred) (t : Ty) : Statement (.vld d a imm p t) := fun h => roundTripQ h rfl rfl (congrArg (fun v => Option.bind (v) (fun b0 => some (Instr.vld d a imm p b0))) (Ty.ofCode_code t))
theorem vlds (d : Reg) (a : Reg) (b : Reg) (imm : BitVec 16) (p : Pred) (t : Ty) : Statement (.vlds d a b imm p t) := fun h => roundTripQ h rfl rfl (congrArg (fun v => Option.bind (v) (fun b0 => some (Instr.vlds d a b imm p b0))) (Ty.ofCode_code t))
theorem vld2d (d : Reg) (a : Reg) (b : Reg) (n1m1 : BitVec 10) (p : Pred) (t : Ty) : Statement (.vld2d d a b n1m1 p t) := fun h => roundTripQ h rfl rfl ((congrArg (fun v => Option.bind (v) (fun b0 => some (Instr.vld2d d a b ((((0 : BitVec 6)) ++ n1m1 : BitVec 16).extractLsb' 0 10) p b0))) (Ty.ofCode_code t)).trans (congrArg (fun v => some (Instr.vld2d d a b v p t)) (extract_lo _ _)))
theorem vldx (d : Reg) (a : Reg) (b : Reg) (p : Pred) (t : Ty) : Statement (.vldx d a b p t) := fun h => roundTripQ h rfl rfl (congrArg (fun v => Option.bind (v) (fun b0 => some (Instr.vldx d a b p b0))) (Ty.ofCode_code t))
theorem vst (c : Reg) (a : Reg) (imm : BitVec 16) (p : Pred) (t : Ty) : Statement (.vst c a imm p t) := fun h => roundTripQ h rfl rfl (congrArg (fun v => Option.bind (v) (fun b0 => some (Instr.vst c a imm p b0))) (Ty.ofCode_code t))
theorem vsts (c : Reg) (a : Reg) (b : Reg) (imm : BitVec 16) (p : Pred) (t : Ty) : Statement (.vsts c a b imm p t) := fun h => roundTripQ h rfl rfl (congrArg (fun v => Option.bind (v) (fun b0 => some (Instr.vsts c a b imm p b0))) (Ty.ofCode_code t))
theorem vstx (c : Reg) (a : Reg) (b : Reg) (dup : Option MReg) (p : Pred) (t : Ty) : Statement (.vstx c a b dup p t) := match dup with
  | none => fun h => roundTripQ h rfl rfl (cand_vstx_all c a b p t)
  | some m => fun h => roundTripQ h rfl rfl (cand_vstx c a b m p t)
theorem vsetvl (d : Reg) (a : Reg) (t : Ty) : Statement (.vsetvl d a t) := fun h => roundTripQ h rfl rfl (congrArg (fun v => Option.bind (v) (fun b0 => some (Instr.vsetvl d a b0))) (Ty.ofCode_code t))
theorem vsetvlw (d : Reg) (a : Reg) (b : Reg) (c : Reg) (limit : BitVec 15) (full : Bool) (t : Ty) : Statement (.vsetvlw d a b c limit full t) := fun h => roundTripQ h rfl rfl (cand_vsetvlw d a b c limit full t)
theorem vgrp (g : BitVec 2) : Statement (.vgrp g) := fun h => roundTripQ h rfl rfl (congrArg (fun v => some (Instr.vgrp v)) (extract_lo _ _))
theorem mop1 (d : Tile) (a : Reg) (b : Reg) (c : Reg) (p : Pred) (pair : Pair) : Statement (.mop1 d a b c p pair) := fun h => roundTripQ h rfl rfl ((congrArg (fun v => Option.bind (v) (fun b0 => some (Instr.mop1 (Q64.tOf (treg d)) a b c p b0))) (Pair.ofCode_code pair)).trans (congrArg (fun v => some (Instr.mop1 v a b c p pair)) (tOf_treg d)))
theorem mopa (d : Tile) (a : Reg) (b : Reg) (c : Reg) (km1 : BitVec 12) (ocs : Bool) (p : Pred) (pair : Pair) : Statement (.mopa d a b c km1 ocs p pair) := fun h => roundTripQ h rfl rfl (cand_mopa d a b c km1 ocs p pair)
theorem mzero (d : Tile) (p : Pred) : Statement (.mzero d p) := fun h => roundTripQ h rfl rfl (congrArg (fun v => some (Instr.mzero v p)) (tOf_treg d))
theorem mrel : Statement (.mrel) := fun h => roundTripQ h rfl rfl (rfl)
theorem mrelDiscard : Statement (.mrelDiscard) := fun h => roundTripQ h rfl rfl (rfl)
theorem mdrain (f : Drain) : Statement (.mdrain f) := fun h => roundTripQ h rfl rfl (cand_mdrain f)
theorem mdrainRow (f : Drain) (c : Reg) : Statement (.mdrainRow f c) := fun h => roundTripQ h rfl rfl (cand_mdrainRow f c)
theorem mdrainDly (f : Drain) (c : Reg) : Statement (.mdrainDly f c) := fun h => roundTripQ h rfl rfl (cand_mdrainDly f c)
theorem mrowRd (d : Reg) (a : Tile) (ix : RowIx) (col : Bool) (p : Pred) (t : Ty) : Statement (.mrowRd d a ix col p t) := fun h => roundTripQ h rfl rfl (cand_mrowRd d a ix col p t)
theorem mrowWr (d : Tile) (a : Reg) (ix : RowIx) (col : Bool) (p : Pred) (t : Ty) : Statement (.mrowWr d a ix col p t) := fun h => roundTripQ h rfl rfl (cand_mrowWr d a ix col p t)
theorem amxrd (d : Reg) (i : BitVec 4) : Statement (.amxrd d i) := fun h => roundTripQ h rfl rfl (congrArg (fun v => some (Instr.amxrd d v)) (extract_lo _ _))
theorem amxswp (d : Reg) (i : BitVec 4) : Statement (.amxswp d i) := fun h => roundTripQ h rfl rfl (congrArg (fun v => some (Instr.amxswp d v)) (extract_lo _ _))
theorem amxmax (a : Reg) (i : BitVec 4) : Statement (.amxmax a i) := fun h => roundTripQ h rfl rfl (congrArg (fun v => some (Instr.amxmax a v)) (extract_lo _ _))
theorem tcopy (a : Reg) (b : Reg) (act : CopyAct) (ord : Bool) : Statement (.tcopy a b act ord) := fun h => roundTripQ h rfl rfl (cand_tcopy a b act ord)
theorem tcopySt (a : Reg) (b : Reg) (act : CopyAct) (ord : Bool) : Statement (.tcopySt a b act ord) := fun h => roundTripQ h rfl rfl (cand_tcopySt a b act ord)
theorem tcopyMc (a : Reg) (b : Reg) (c : Reg) (d : Reg) (sig : Option Scope) (ord : Bool) : Statement (.tcopyMc a b c d sig ord) := match sig with
  | none => fun h => roundTripQ h rfl rfl (cand_tcopyMc a b c d ord)
  | some sc => fun h => roundTripQ h rfl rfl (cand_tcopyMcSig a b c d sc ord)
theorem frminit (a : Reg) (b : Reg) : Statement (.frminit a b) := fun h => roundTripQ h rfl rfl (rfl)
theorem frmwait (d : Reg) (a : Reg) (limit : BitVec 15) : Statement (.frmwait d a limit) := fun h => roundTripQ h rfl rfl (congrArg (fun v => some (Instr.frmwait d a v)) (extract_lo _ _))
theorem frmfree (a : Reg) : Statement (.frmfree a) := fun h => roundTripQ h rfl rfl (rfl)
theorem qfence (r : Bool) (w : Bool) (e : Bool) (sc : Scope) : Statement (.qfence r w e sc) := fun h => roundTripQ h rfl rfl (cand_qfence r w e sc)
theorem qamoadd (d : Reg) (a : Reg) (b : Reg) (word : Bool) (acq : Bool) (rel : Bool) (sc : Scope) : Statement (.qamoadd d a b word acq rel sc) := fun h => roundTripQ h rfl rfl (by
    obtain ⟨h1, h2, h3, h4⟩ := amoQ_bits 0 d a b 0 word acq rel sc
    exact amo_cand (fun w x y v => .qamoadd d a b w x y v) h1 h2 h3 h4)
theorem qamoand (d : Reg) (a : Reg) (b : Reg) (word : Bool) (acq : Bool) (rel : Bool) (sc : Scope) : Statement (.qamoand d a b word acq rel sc) := fun h => roundTripQ h rfl rfl (by
    obtain ⟨h1, h2, h3, h4⟩ := amoQ_bits 1 d a b 0 word acq rel sc
    exact amo_cand (fun w x y v => .qamoand d a b w x y v) h1 h2 h3 h4)
theorem qamoor (d : Reg) (a : Reg) (b : Reg) (word : Bool) (acq : Bool) (rel : Bool) (sc : Scope) : Statement (.qamoor d a b word acq rel sc) := fun h => roundTripQ h rfl rfl (by
    obtain ⟨h1, h2, h3, h4⟩ := amoQ_bits 2 d a b 0 word acq rel sc
    exact amo_cand (fun w x y v => .qamoor d a b w x y v) h1 h2 h3 h4)
theorem qamoxor (d : Reg) (a : Reg) (b : Reg) (word : Bool) (acq : Bool) (rel : Bool) (sc : Scope) : Statement (.qamoxor d a b word acq rel sc) := fun h => roundTripQ h rfl rfl (by
    obtain ⟨h1, h2, h3, h4⟩ := amoQ_bits 3 d a b 0 word acq rel sc
    exact amo_cand (fun w x y v => .qamoxor d a b w x y v) h1 h2 h3 h4)
theorem qamomin (d : Reg) (a : Reg) (b : Reg) (word : Bool) (acq : Bool) (rel : Bool) (sc : Scope) : Statement (.qamomin d a b word acq rel sc) := fun h => roundTripQ h rfl rfl (by
    obtain ⟨h1, h2, h3, h4⟩ := amoQ_bits 4 d a b 0 word acq rel sc
    exact amo_cand (fun w x y v => .qamomin d a b w x y v) h1 h2 h3 h4)
theorem qamomax (d : Reg) (a : Reg) (b : Reg) (word : Bool) (acq : Bool) (rel : Bool) (sc : Scope) : Statement (.qamomax d a b word acq rel sc) := fun h => roundTripQ h rfl rfl (by
    obtain ⟨h1, h2, h3, h4⟩ := amoQ_bits 5 d a b 0 word acq rel sc
    exact amo_cand (fun w x y v => .qamomax d a b w x y v) h1 h2 h3 h4)
theorem qamominu (d : Reg) (a : Reg) (b : Reg) (word : Bool) (acq : Bool) (rel : Bool) (sc : Scope) : Statement (.qamominu d a b word acq rel sc) := fun h => roundTripQ h rfl rfl (by
    obtain ⟨h1, h2, h3, h4⟩ := amoQ_bits 6 d a b 0 word acq rel sc
    exact amo_cand (fun w x y v => .qamominu d a b w x y v) h1 h2 h3 h4)
theorem qamomaxu (d : Reg) (a : Reg) (b : Reg) (word : Bool) (acq : Bool) (rel : Bool) (sc : Scope) : Statement (.qamomaxu d a b word acq rel sc) := fun h => roundTripQ h rfl rfl (by
    obtain ⟨h1, h2, h3, h4⟩ := amoQ_bits 7 d a b 0 word acq rel sc
    exact amo_cand (fun w x y v => .qamomaxu d a b w x y v) h1 h2 h3 h4)
theorem qamoswap (d : Reg) (a : Reg) (b : Reg) (word : Bool) (acq : Bool) (rel : Bool) (sc : Scope) : Statement (.qamoswap d a b word acq rel sc) := fun h => roundTripQ h rfl rfl (by
    obtain ⟨h1, h2, h3, h4⟩ := amoQ_bits 8 d a b 0 word acq rel sc
    exact amo_cand (fun w x y v => .qamoswap d a b w x y v) h1 h2 h3 h4)
theorem qamocas (d : Reg) (a : Reg) (b : Reg) (c : Reg) (word : Bool) (acq : Bool) (rel : Bool) (sc : Scope) : Statement (.qamocas d a b c word acq rel sc) := fun h => roundTripQ h rfl rfl (by
    obtain ⟨h1, h2, h3, h4⟩ := amoQ_bits 9 d a b c word acq rel sc
    exact amo_cand (fun w x y v => .qamocas d a b c w x y v) h1 h2 h3 h4)
theorem ssig (a : Reg) (b : Reg) (sc : Scope) : Statement (.ssig a b sc) := fun h => roundTripQ h rfl rfl (cand_ssig a b sc)
theorem sset (a : Reg) (b : Reg) (sc : Scope) : Statement (.sset a b sc) := fun h => roundTripQ h rfl rfl (cand_sset a b sc)
theorem swait (d : Reg) (a : Reg) (b : Reg) (c : Reg) (cond : Cond) (sc : Scope) : Statement (.swait d a b c cond sc) := fun h => roundTripQ h rfl rfl (cand_swait d a b c cond sc)
theorem bar (level : BarLevel) (limit : BitVec 13) : Statement (.bar level limit) := fun h => roundTripQ h rfl rfl (cand_bar level limit)
theorem ldfe (d : Reg) (a : Reg) (c : Reg) (off : BitVec 12) : Statement (.ldfe d a c off) := fun h => roundTripQ h rfl rfl (by
    have h1 := few_flag 0 d a 0 c false off
    have h2 := few_off 0 d a 0 c false off
    rw [BitVec.getLsbD_eq_getElem (by decide)] at h1
    simp [candQ, candFew, Q64.ib, fewQ, qs] at h1 h2 ⊢
    simp [h1, h2])
theorem ldfeK (d : Reg) (a : Reg) (c : Reg) (off : BitVec 12) : Statement (.ldfeK d a c off) := fun h => roundTripQ h rfl rfl (by
    have h1 := few_flag 0 d a 0 c true off
    have h2 := few_off 0 d a 0 c true off
    rw [BitVec.getLsbD_eq_getElem (by decide)] at h1
    simp [candQ, candFew, Q64.ib, fewQ, qs] at h1 h2 ⊢
    simp [h1, h2])
theorem stfe (a : Reg) (b : Reg) (off : BitVec 12) : Statement (.stfe a b off) := fun h => roundTripQ h rfl rfl (by
    have h1 := few_flag 1 0 a b 0 false off
    have h2 := few_off 1 0 a b 0 false off
    rw [BitVec.getLsbD_eq_getElem (by decide)] at h1
    simp [candQ, candFew, Q64.ib, fewQ, qs] at h1 h2 ⊢
    simp [h1, h2])
theorem stfeF (a : Reg) (b : Reg) (off : BitVec 12) : Statement (.stfeF a b off) := fun h => roundTripQ h rfl rfl (by
    have h1 := few_flag 1 0 a b 0 true off
    have h2 := few_off 1 0 a b 0 true off
    rw [BitVec.getLsbD_eq_getElem (by decide)] at h1
    simp [candQ, candFew, Q64.ib, fewQ, qs] at h1 h2 ⊢
    simp [h1, h2])
theorem feprobe (d : Reg) (a : Reg) (off : BitVec 12) : Statement (.feprobe d a off) := fun h => roundTripQ h rfl rfl (congrArg (fun v => some (Instr.feprobe d a v)) (extract_lo _ _))
theorem fesetE (a : Reg) (off : BitVec 12) : Statement (.fesetE a off) := fun h => roundTripQ h rfl rfl (by
    have h1 := few_flag 3 0 a 0 0 false off
    have h2 := few_off 3 0 a 0 0 false off
    rw [BitVec.getLsbD_eq_getElem (by decide)] at h1
    simp [candQ, candFew, Q64.ib, fewQ, qs] at h1 h2 ⊢
    simp [h1, h2])
theorem fesetF (a : Reg) (off : BitVec 12) : Statement (.fesetF a off) := fun h => roundTripQ h rfl rfl (by
    have h1 := few_flag 3 0 a 0 0 true off
    have h2 := few_off 3 0 a 0 0 true off
    rw [BitVec.getLsbD_eq_getElem (by decide)] at h1
    simp [candQ, candFew, Q64.ib, fewQ, qs] at h1 h2 ⊢
    simp [h1, h2])
theorem wgsend (a : Reg) (b : Reg) (c : Reg) (limit : BitVec 15) : Statement (.wgsend a b c limit) := fun h => roundTripQ h rfl rfl (congrArg (fun v => some (Instr.wgsend a b c v)) (extract_lo _ _))
theorem wgrecv (d : Reg) (limit : BitVec 15) : Statement (.wgrecv d limit) := fun h => roundTripQ h rfl rfl (congrArg (fun v => some (Instr.wgrecv d v)) (extract_lo _ _))
theorem wgpeek (d : Reg) : Statement (.wgpeek d) := fun h => roundTripQ h rfl rfl (rfl)
theorem launch (d : Reg) (a : Reg) (b : Reg) : Statement (.launch d a b) := fun h => roundTripQ h rfl rfl (by simp [candQ, candLaunch, qs, Q64.ib])
theorem launchNb (d : Reg) (a : Reg) (b : Reg) : Statement (.launchNb d a b) := fun h => roundTripQ h rfl rfl (by simp [candQ, candLaunch, qs, Q64.ib])
theorem retire : Statement (.retire) := fun h => roundTripQ h rfl rfl (rfl)
theorem retireH (a : Reg) : Statement (.retireH a) := fun h => roundTripQ h rfl rfl (rfl)
theorem bfork (d : Reg) (a : Reg) : Statement (.bfork d a) := fun h => roundTripQ h rfl rfl (rfl)
theorem bjoin (a : Reg) : Statement (.bjoin a) := fun h => roundTripQ h rfl rfl (by simp [candQ, candBrood, qs, Q64.ib])
theorem bjoinW (d : Reg) (a : Reg) : Statement (.bjoinW d a) := fun h => roundTripQ h rfl rfl (by simp [candQ, candBrood, qs, Q64.ib])
theorem bjoinAb : Statement (.bjoinAb) := fun h => roundTripQ h rfl rfl (by simp [candQ, candBrood, qs, Q64.ib])
theorem bjoinAbW (d : Reg) : Statement (.bjoinAbW d) := fun h => roundTripQ h rfl rfl (by simp [candQ, candBrood, qs, Q64.ib])
theorem bkill (d : Reg) (a : Reg) (b : Reg) : Statement (.bkill d a b) := fun h => roundTripQ h rfl rfl (by simp [candQ, candBrood, qs, Q64.ib])
theorem bkillAll (d : Reg) (a : Reg) : Statement (.bkillAll d a) := fun h => roundTripQ h rfl rfl (by simp [candQ, candBrood, qs, Q64.ib])
theorem bstat (d : Reg) (a : Reg) : Statement (.bstat d a) := fun h => roundTripQ h rfl rfl (by simp [candQ, candBrood, qs, Q64.ib])
theorem bstatSib (d : Reg) (a : Reg) (b : Reg) : Statement (.bstatSib d a b) := fun h => roundTripQ h rfl rfl (by simp [candQ, candBrood, qs, Q64.ib])
theorem tret : Statement (.tret) := fun h => roundTripQ h rfl rfl (rfl)
theorem traise (a : Reg) : Statement (.traise a) := fun h => roundTripQ h rfl rfl (rfl)
theorem msave (d : Tile) (a : Reg) : Statement (.msave d a) := fun h => roundTripQ h rfl rfl (congrArg (fun v => some (Instr.msave v a)) (tOf_treg d))
theorem mrstr (d : Tile) (a : Reg) : Statement (.mrstr d a) := fun h => roundTripQ h rfl rfl (congrArg (fun v => some (Instr.mrstr v a)) (tOf_treg d))
theorem icinv (a : Reg) (b : Reg) : Statement (.icinv a b) := fun h => roundTripQ h rfl rfl (rfl)
theorem illegalInstruction (len : Nat) (w : Word) : Statement (.illegalInstruction len w) := fun _ _ h => nomatch (show (none : Option Word) = some _ from h)
theorem rotationBoundary (core : Nat) : Statement (.rotationBoundary core) := fun _ _ h => nomatch (show (none : Option Word) = some _ from h)
theorem turnSpentWithoutIssue (cell : Nat) : Statement (.turnSpentWithoutIssue cell) := fun _ _ h => nomatch (show (none : Option Word) = some _ from h)
theorem matrixInstructionComplete (core : Nat) : Statement (.matrixInstructionComplete core) := fun _ _ h => nomatch (show (none : Option Word) = some _ from h)
theorem vectorInstructionComplete (core : Nat) (i : Nat) : Statement (.vectorInstructionComplete core i) := fun _ _ h => nomatch (show (none : Option Word) = some _ from h)
theorem accessPerformedAtHome (cell : Nat) (i : Nat) : Statement (.accessPerformedAtHome cell i) := fun _ _ h => nomatch (show (none : Option Word) = some _ from h)
theorem icinvAcknowledged (cell : Nat) : Statement (.icinvAcknowledged cell) := fun _ _ h => nomatch (show (none : Option Word) = some _ from h)
theorem pcieCompletionTimeout (r : FabricReq) : Statement (.pcieCompletionTimeout r) := fun _ _ h => nomatch (show (none : Option Word) = some _ from h)
theorem postedWriteUndeliverable (cell : Nat) (dva : Word) : Statement (.postedWriteUndeliverable cell dva) := fun _ _ h => nomatch (show (none : Option Word) = some _ from h)
theorem ualinkReplay (station : Nat) : Statement (.ualinkReplay station) := fun _ _ h => nomatch (show (none : Option Word) = some _ from h)
theorem fabricPeerAccess (op : PeerOp) : Statement (.fabricPeerAccess op) := fun _ _ h => nomatch (show (none : Option Word) = some _ from h)
theorem tlbShootdown (asid : Nat) (dva : Nat) (entry : Word) : Statement (.tlbShootdown asid dva entry) := fun _ _ h => nomatch (show (none : Option Word) = some _ from h)
theorem powerCapClockChange (lower : Bool) : Statement (.powerCapClockChange lower) := fun _ _ h => nomatch (show (none : Option Word) = some _ from h)
theorem configurationRequest (func : Nat) (req : CfgReq) : Statement (.configurationRequest func req) := fun _ _ h => nomatch (show (none : Option Word) = some _ from h)

end Sys2Proof.Laws.RoundTrip
end

