-- ==== Sys2Proof/Tests/Slice0.lean ====
section
/-! SUPPORT. The model's own tests: the words of the spec's encodings decode to the instructions they stand for, ill-formed terms are
refused, the spec's worked examples come out, and every statement with hypotheses has states and operands that meet them. -/

namespace Sys2Proof.Tests
open Sys2Proof Sys2Proof.Machine
set_option maxRecDepth 20000

/-! ### Decoding: words written out from the spec's encodings, fields in the order of R118 and R121 -/

/-- Decode a word of 64 bits. -/
noncomputable def q64 (w : Nat) : Decoded := decode (BitVec.ofNat 32 w) (BitVec.ofNat 32 (w / 2 ^ 32))

theorem test_decode_int : ∀ e ∈ ([
    (0x12345537, .lui 10 0x12345), (0x12345517, .auipc 10 0x12345), (0x80B020EF, .jal 1 0x81405), (0x9A558567, .jalr 10 11 0x9A5),
    (0xA6C58563, .beq 11 12 0x935), (0xA6C59563, .bne 11 12 0x935), (0xA6C5C563, .blt 11 12 0x935), (0xA6C5D563, .bge 11 12 0x935),
    (0xA6C5E563, .bltu 11 12 0x935), (0xA6C5F563, .bgeu 11 12 0x935), (0x9A558503, .lb 10 11 0x9A5), (0x9A559503, .lh 10 11 0x9A5),
    (0x9A55A503, .lw 10 11 0x9A5), (0x9A55B503, .ld 10 11 0x9A5), (0x9A55C503, .lbu 10 11 0x9A5), (0x9A55D503, .lhu 10 11 0x9A5),
    (0x9A55E503, .lwu 10 11 0x9A5), (0x9AC582A3, .sb 11 12 0x9A5), (0x9AC592A3, .sh 11 12 0x9A5), (0x9AC5A2A3, .sw 11 12 0x9A5)] : List (Nat × Instr)),
    decode (BitVec.ofNat 32 e.1) 0 = .instr e.2 4 := by decide

theorem test_decode_intReg : ∀ e ∈ ([
    (0x9AC5B2A3, .sd 11 12 0x9A5), (0x9A558513, .addi 10 11 0x9A5), (0x9A55A513, .slti 10 11 0x9A5), (0x9A55B513, .sltiu 10 11 0x9A5),
    (0x9A55C513, .xori 10 11 0x9A5), (0x9A55E513, .ori 10 11 0x9A5), (0x9A55F513, .andi 10 11 0x9A5), (0x02559513, .slli 10 11 37),
    (0x0255D513, .srli 10 11 37), (0x4255D513, .srai 10 11 37), (0x00C58533, .add 10 11 12), (0x40C58533, .sub 10 11 12),
    (0x00C59533, .sll 10 11 12), (0x00C5A533, .slt 10 11 12), (0x00C5B533, .sltu 10 11 12), (0x00C5C533, .xor 10 11 12),
    (0x00C5D533, .srl 10 11 12), (0x40C5D533, .sra 10 11 12), (0x00C5E533, .or 10 11 12), (0x00C5F533, .and 10 11 12)] : List (Nat × Instr)),
    decode (BitVec.ofNat 32 e.1) 0 = .instr e.2 4 := by decide

theorem test_decode_system : ∀ e ∈ ([
    (0x9A55851B, .addiw 10 11 0x9A5), (0x0155951B, .slliw 10 11 21), (0x0155D51B, .srliw 10 11 21), (0x4155D51B, .sraiw 10 11 21),
    (0x00C5853B, .addw 10 11 12), (0x40C5853B, .subw 10 11 12), (0x00C5953B, .sllw 10 11 12), (0x00C5D53B, .srlw 10 11 12),
    (0x40C5D53B, .sraw 10 11 12), (0x02C58533, .mul 10 11 12), (0x02C59533, .mulh 10 11 12), (0x02C5A533, .mulhsu 10 11 12),
    (0x02C5B533, .mulhu 10 11 12), (0x02C5C533, .div 10 11 12), (0x02C5D533, .divu 10 11 12), (0x02C5E533, .rem 10 11 12),
    (0x02C5F533, .remu 10 11 12), (0x02C5853B, .mulw 10 11 12), (0x02C5C53B, .divw 10 11 12), (0x02C5D53B, .divuw 10 11 12)] : List (Nat × Instr)),
    decode (BitVec.ofNat 32 e.1) 0 = .instr e.2 4 := by decide

theorem test_decode_atomics : ∀ e ∈ ([
    (0x02C5E53B, .remw 10 11 12), (0x02C5F53B, .remuw 10 11 12), (0x0320000F, .fence 0 3 2 0 0), (0x8330000F, .fenceTso 3 3 0 0),
    (0x9A55950F, .fenceI 10 11 0x9A5), (0x00000073, .ecall), (0x00100073, .ebreak), (0xCC459573, .csrrw 10 11 0xCC4),
    (0xCC45A573, .csrrs 10 11 0xCC4), (0xCC45B573, .csrrc 10 11 0xCC4), (0xCC45D573, .csrrwi 10 11 0xCC4),
    (0xCC45E573, .csrrsi 10 11 0xCC4), (0xCC45F573, .csrrci 10 11 0xCC4), (0x1405A52F, .lrW 10 11 true false),
    (0x1AC5A52F, .scW 10 11 12 false true), (0x1405B52F, .lrD 10 11 true false), (0x1AC5B52F, .scD 10 11 12 false true),
    (0x0AC5A52F, .amoswapW 10 11 12 false true), (0x02C5A52F, .amoaddW 10 11 12 false true), (0x22C5A52F, .amoxorW 10 11 12 false true)] : List (Nat × Instr)),
    decode (BitVec.ofNat 32 e.1) 0 = .instr e.2 4 := by decide

theorem test_decode_float : ∀ e ∈ ([
    (0x62C5A52F, .amoandW 10 11 12 false true), (0x42C5A52F, .amoorW 10 11 12 false true), (0x82C5A52F, .amominW 10 11 12 false true),
    (0xA2C5A52F, .amomaxW 10 11 12 false true), (0xC2C5A52F, .amominuW 10 11 12 false true), (0xE2C5A52F, .amomaxuW 10 11 12 false true),
    (0x0AC5B52F, .amoswapD 10 11 12 false true), (0x02C5B52F, .amoaddD 10 11 12 false true), (0x22C5B52F, .amoxorD 10 11 12 false true),
    (0x62C5B52F, .amoandD 10 11 12 false true), (0x42C5B52F, .amoorD 10 11 12 false true), (0x82C5B52F, .amominD 10 11 12 false true),
    (0xA2C5B52F, .amomaxD 10 11 12 false true), (0xC2C5B52F, .amominuD 10 11 12 false true), (0xE2C5B52F, .amomaxuD 10 11 12 false true),
    (0x9A55A507, .flw 10 11 0x9A5), (0x9A559507, .flh 10 11 0x9A5), (0x9AC5A2A7, .fsw 11 12 0x9A5), (0x9AC592A7, .fsh 11 12 0x9A5),
    (0x68C5C543, .fmaddS 10 11 12 13 4)] : List (Nat × Instr)),
    decode (BitVec.ofNat 32 e.1) 0 = .instr e.2 4 := by decide

theorem test_decode_floatMove : ∀ e ∈ ([
    (0x68C5C547, .fmsubS 10 11 12 13 4), (0x68C5C54B, .fnmsubS 10 11 12 13 4), (0x68C5C54F, .fnmaddS 10 11 12 13 4),
    (0x00C5C553, .faddS 10 11 12 4), (0x08C5C553, .fsubS 10 11 12 4), (0x10C5C553, .fmulS 10 11 12 4), (0x18C5C553, .fdivS 10 11 12 4),
    (0x5805C553, .fsqrtS 10 11 4), (0x20C58553, .fsgnjS 10 11 12), (0x20C59553, .fsgnjnS 10 11 12), (0x20C5A553, .fsgnjxS 10 11 12),
    (0x28C58553, .fminS 10 11 12), (0x28C59553, .fmaxS 10 11 12), (0xC005C553, .fcvtWS 10 11 4), (0xC015C553, .fcvtWuS 10 11 4),
    (0xC025C553, .fcvtLS 10 11 4), (0xC035C553, .fcvtLuS 10 11 4), (0xD005C553, .fcvtSW 10 11 4), (0xD015C553, .fcvtSWu 10 11 4),
    (0xD025C553, .fcvtSL 10 11 4)] : List (Nat × Instr)),
    decode (BitVec.ofNat 32 e.1) 0 = .instr e.2 4 := by decide

theorem test_decode_loops : ∀ e ∈ ([
    (0xD035C553, .fcvtSLu 10 11 4), (0xE0058553, .fmvXW 10 11), (0xE0059553, .fclassS 10 11), (0xF0058553, .fmvWX 10 11),
    (0xA0C5A553, .feqS 10 11 12), (0xA0C59553, .fltS 10 11 12), (0xA0C58553, .fleS 10 11 12), (0x4065C553, .fcvtSBf16 10 11 4),
    (0x4485C553, .fcvtBf16S 10 11 4), (0xE4058553, .fmvXH 10 11), (0xF4058553, .fmvHX 10 11), (0x0072800B, .loop 5 7),
    (0x00409F8B, .loopi 63 4), (0x0023200B, .lbrk 6 2), (0x0000300B, .yield), (0x0030450B, .widf 10 3), (0x00B0450B, .widfExt 10 3),
    (0x0130450B, .widfLvl 10 3), (0x0100000F, .pause)] : List (Nat × Instr)),
    decode (BitVec.ofNat 32 e.1) 0 = .instr e.2 4 := by decide

theorem test_decode_vint : ∀ e ∈ ([
    (0x00010156062D40BF, .vintVadd 10 11 12 true ⟨3, true⟩ .i16), (0x00010556062D40BF, .vintVsub 10 11 12 true ⟨3, true⟩ .i16),
    (0x00010956062D40BF, .vintVmul 10 11 12 true ⟨3, true⟩ .i16), (0x00010D56062D40BF, .vmulh 10 11 12 true ⟨3, true⟩ .i16),
    (0x00011156062D40BF, .vintVmin 10 11 12 true ⟨3, true⟩ .i16), (0x00011556062D40BF, .vintVmax 10 11 12 true ⟨3, true⟩ .i16),
    (0x00011956062D40BF, .vminu 10 11 12 true ⟨3, true⟩ .i16), (0x00011D56062D40BF, .vmaxu 10 11 12 true ⟨3, true⟩ .i16),
    (0x00012156062D40BF, .vand 10 11 12 true ⟨3, true⟩ .i16), (0x00012556062D40BF, .vor 10 11 12 true ⟨3, true⟩ .i16),
    (0x00012956062D40BF, .vxor 10 11 12 true ⟨3, true⟩ .i16), (0x00012D56062D40BF, .vsll 10 11 12 true ⟨3, true⟩ .i16),
    (0x00013156062D40BF, .vsrl 10 11 12 true ⟨3, true⟩ .i16), (0x00013556062D40BF, .vsra 10 11 12 true ⟨3, true⟩ .i16),
    (0x00003956002D40BF, .vintVabs 10 11 ⟨3, true⟩ .i16), (0x00003D56002D40BF, .vintVneg 10 11 ⟨3, true⟩ .i16),
    (0x00014156062D40BF, .vsadd 10 11 12 true ⟨3, true⟩ .i16), (0x00014556062D40BF, .vssub 10 11 12 true ⟨3, true⟩ .i16),
    (0x00010036062D413F, .vfltVadd 10 11 12 true ⟨3, true⟩ .f32), (0x00010436062D413F, .vfltVsub 10 11 12 true ⟨3, true⟩ .f32)] : List (Nat × Instr)),
    q64 e.1 = .instr e.2 8 := by decide

theorem test_decode_vflt : ∀ e ∈ ([
    (0x00010836062D413F, .vfltVmul 10 11 12 true ⟨3, true⟩ .f32), (0x00000C56D62D413F, .vfma 10 11 12 13 false ⟨3, true⟩ .bf16),
    (0x00001056D62D413F, .vfms 10 11 12 13 false ⟨3, true⟩ .bf16), (0x00001456D62D413F, .vfnma 10 11 12 13 false ⟨3, true⟩ .bf16),
    (0x00011836062D413F, .vfltVmin 10 11 12 true ⟨3, true⟩ .f32), (0x00011C36062D413F, .vfltVmax 10 11 12 true ⟨3, true⟩ .f32),
    (0x00002076002D413F, .vfltVabs 10 11 ⟨3, true⟩ .f16), (0x00002476002D413F, .vfltVneg 10 11 ⟨3, true⟩ .f16),
    (0x00012836062D413F, .vdiv 10 11 12 true ⟨3, true⟩ .f32), (0x00002C76002D413F, .vsqrt 10 11 ⟨3, true⟩ .f16),
    (0x00003076002D413F, .vrcp 10 11 ⟨3, true⟩ .f16), (0x00003476002D413F, .vrsqrt 10 11 ⟨3, true⟩ .f16),
    (0x00003876002D413F, .vexp2 10 11 ⟨3, true⟩ .f16), (0x00003C76002D413F, .vlog2 10 11 ⟨3, true⟩ .f16),
    (0x00014036062D413F, .vsgnj 10 11 12 true ⟨3, true⟩ .f32), (0x00000136062CE1BF, .vcmpeq 7 11 12 false ⟨3, true⟩ .ui8),
    (0x00000536062CE1BF, .vcmpne 7 11 12 false ⟨3, true⟩ .ui8), (0x00000936062CE1BF, .vcmplt 7 11 12 false ⟨3, true⟩ .ui8),
    (0x00000D36062CE1BF, .vcmple 7 11 12 false ⟨3, true⟩ .ui8), (0x00001136062CE1BF, .vcmpgt 7 11 12 false ⟨3, true⟩ .ui8)] : List (Nat × Instr)),
    q64 e.1 = .instr e.2 8 := by decide

theorem test_decode_vperm : ∀ e ∈ ([
    (0x00001536062CE1BF, .vcmpge 7 11 12 false ⟨3, true⟩ .ui8), (0x000100000298E23F, .mand 7 6 5 true ⟨0, false⟩),
    (0x000104000298E23F, .mor 7 6 5 true ⟨0, false⟩), (0x000108000298E23F, .mxor 7 6 5 true ⟨0, false⟩),
    (0x00010C000298E23F, .mandn 7 6 5 true ⟨0, false⟩), (0x000010160018E23F, .mnot 7 6 false ⟨3, true⟩),
    (0x000014160019423F, .mpop 10 6 false ⟨3, true⟩), (0x000018160019423F, .mfirst 10 6 false ⟨3, true⟩),
    (0x00011C000000E23F, .mset 7 true ⟨0, false⟩), (0x000020160000E23F, .mclr 7 false ⟨3, true⟩),
    (0x00000096062D42BF, .vslideup 10 11 12 ⟨3, true⟩ .e4m3), (0x000004B6062D42BF, .vslidedn 10 11 12 ⟨3, true⟩ .e5m2),
    (0x000009B6002D42BF, .vbcast 10 11 ⟨3, true⟩ .ui32), (0x00000D76062D42BF, .vperm 10 11 12 ⟨3, true⟩ .ui16),
    (0x03091100002D42BF, .vmvXv 10 11 777 .i8), (0x03091580002D42BF, .vmvVx 10 11 777 .i32), (0x03091840002D42BF, .vmvFv 10 11 777 .bf16),
    (0x03091C20002D42BF, .vmvVf 10 11 777 .f32), (0x00002156062D42BF, .vsel 10 11 12 ⟨3, true⟩ .i16),
    (0x00002556002D42BF, .vcompress 10 11 ⟨3, true⟩ .i16)] : List (Nat × Instr)),
    q64 e.1 = .instr e.2 8 := by decide

theorem test_decode_vmem : ∀ e ∈ ([
    (0x00000116002D433F, .vredsum 10 11 0 ⟨3, true⟩ .i8), (0x00000536002D433F, .vredmax 10 11 0 ⟨3, true⟩ .ui8),
    (0x00000876002D433F, .vredmin 10 11 0 ⟨3, true⟩ .f16), (0x00290C36002D433F, .vredamax 10 11 true 9 ⟨3, true⟩ .f32),
    (0x000A0096502D43BF, .vcvt 10 11 5 ⟨3, true⟩ .e4m3 .i16), (0x02A104B6562D43BF, .vsrnd 10 11 12 5 21 ⟨3, true⟩ .e5m2 .f32),
    (0x000208C0562D43BF, .vqnt 10 11 (some 12) 5 .bf16), (0x080208C0502D43BF, .vqnt 10 11 none 5 .bf16),
    (0xFFC00156002D443F, .vld 10 11 0xFFC0 ⟨3, true⟩ .i16), (0xFFC00556062D443F, .vlds 10 11 12 0xFFC0 ⟨3, true⟩ .i16),
    (0x03090956062D443F, .vld2d 10 11 12 777 ⟨3, true⟩ .i16), (0x00000D56062D443F, .vldx 10 11 12 ⟨3, true⟩ .i16),
    (0xFFC00156D02C04BF, .vst 13 11 0xFFC0 ⟨3, true⟩ .i16), (0xFFC00556D62C04BF, .vsts 13 11 12 0xFFC0 ⟨3, true⟩ .i16),
    (0x00010956D62CC4BF, .vstx 13 11 12 (some 6) ⟨3, true⟩ .i16), (0x00000956D62C04BF, .vstx 13 11 12 none ⟨3, true⟩ .i16),
    (0x00000060002D453F, .vsetvl 10 11 .f16), (0x00640420D62D453F, .vsetvlw 10 11 12 13 100 false .f32),
    (0x80640420D62D453F, .vsetvlw 10 11 12 13 100 true .f32), (0x000308000000053F, .vgrp 3)] : List (Nat × Instr)),
    q64 e.1 = .instr e.2 8 := by decide

theorem test_decode_matrix : ∀ e ∈ ([
    (0x00000136D730683F, .mop1 3 12 14 13 ⟨3, true⟩ .bf16e2m1), (0x107F0196073028BF, .mopa 1 12 14 0 127 true ⟨3, true⟩ .ui8i8),
    (0x000000160000693F, .mzero 3 ⟨3, true⟩), (0x000004000000093F, .mrel), (0x000104000000093F, .mrelDiscard),
    (0x77F0009605A829BF, .mdrain ⟨1, 10, 11, .e4m3, ⟨3, true⟩, true, true, 5, 15, 48⟩),
    (0x77F00496D5A829BF, .mdrainRow ⟨1, 10, 11, .e4m3, ⟨3, true⟩, true, true, 5, 15, 48⟩ 13),
    (0x77F00896D5A829BF, .mdrainDly ⟨1, 10, 11, .e4m3, ⟨3, true⟩, true, true, 5, 15, 48⟩ 13),
    (0x00C00196060D4A3F, .mrowRd 10 3 (.reg 12) true ⟨3, true⟩ .i32), (0x003D043600286A3F, .mrowWr 3 10 (.imm 61) false ⟨3, true⟩ .f32),
    (0x0009000000014ABF, .amxrd 10 9), (0x0009040000014ABF, .amxswp 10 9), (0x00090800002C0ABF, .amxmax 11 9),
    (0x00390000C5A9AC3F, .tcopy 10 11 (.signal 12 13 .die) true), (0x0027000005A9AC3F, .tcopySt 10 11 (.frame 13 .hive) false),
    (0x00390400C5A9AC3F, .tcopyMc 10 11 12 13 (some .die) true), (0x00000000062C0CBF, .frminit 11 12),
    (0x00320400002D4CBF, .frmwait 10 11 50), (0x00000800002C0CBF, .frmfree 11), (0x002900000000103F, .qfence true false true .gang)] : List (Nat × Instr)),
    q64 e.1 = .instr e.2 8 := by decide

theorem test_decode_sync : ∀ e ∈ ([
    (0x000A0180062D50BF, .qamoadd 10 11 12 true true false .hive), (0x000A0580062D50BF, .qamoand 10 11 12 true true false .hive),
    (0x000A0980062D50BF, .qamoor 10 11 12 true true false .hive), (0x000A0D80062D50BF, .qamoxor 10 11 12 true true false .hive),
    (0x000A1180062D50BF, .qamomin 10 11 12 true true false .hive), (0x000A1580062D50BF, .qamomax 10 11 12 true true false .hive),
    (0x000A1980062D50BF, .qamominu 10 11 12 true true false .hive), (0x000A1D80062D50BF, .qamomaxu 10 11 12 true true false .hive),
    (0x000A2180062D50BF, .qamoswap 10 11 12 true true false .hive), (0x00152400D62D50BF, .qamocas 10 11 12 13 false false true .pod),
    (0x00040000062C113F, .ssig 11 12 .pkg), (0x00040400062C113F, .sset 11 12 .pkg), (0x002C0800C5A8F13F, .swait 7 10 11 12 .ge .pkg),
    (0xFFFC0000000011BF, .bar .pkg 8191), (0x00100000C028B23F, .ldfe 5 10 12 16), (0x1FF80000C028B23F, .ldfeK 5 10 12 0xFF8),
    (0x001004000628123F, .stfe 10 12 16), (0x101004000628123F, .stfeF 10 12 16), (0x001008000028B23F, .feprobe 5 10 16),
    (0x00100C000028123F, .fesetE 10 16)] : List (Nat × Instr)),
    q64 e.1 = .instr e.2 8 := by decide

theorem test_decode_agents : ∀ e ∈ ([
    (0x10100C000028123F, .fesetF 10 16), (0x01F40000D62C12BF, .wgsend 11 12 13 500), (0x01F40400000152BF, .wgrecv 10 500),
    (0x00000800000152BF, .wgpeek 10), (0x00000000062D543F, .launch 10 11 12), (0x00010000062D543F, .launchNb 10 11 12),
    (0x00000000000014BF, .retire), (0x00000400002814BF, .retireH 10), (0x00000000002D55BF, .bfork 10 11), (0x00000400002C15BF, .bjoin 11),
    (0x00010400002D55BF, .bjoinW 10 11), (0x00020400000015BF, .bjoinAb), (0x00030400000155BF, .bjoinAbW 10),
    (0x0000080005A8B5BF, .bkill 5 10 11), (0x000108000028B5BF, .bkillAll 5 10), (0x00000C000028B5BF, .bstat 5 10),
    (0x00010C0005A8B5BF, .bstatSib 5 10 11), (0x000000000000183F, .tret), (0x000004000028183F, .traise 10),
    (0x000008000028383F, .msave 1 10)] : List (Nat × Instr)),
    q64 e.1 = .instr e.2 8 := by decide

theorem test_decode_rest : ∀ e ∈ ([
    (0x00000C000028383F, .mrstr 1 10), (0x0000100005A8183F, .icinv 10 11)] : List (Nat × Instr)),
    q64 e.1 = .instr e.2 8 := by decide

/-! ### Ill-formed terms, one for each check -/

theorem test_refuse_vint : ∀ i ∈ ([
    .vintVadd 4 4 4 false ⟨0, true⟩ .i8, .vintVadd 4 4 4 false ⟨2, false⟩ .f32, .vintVsub 4 4 4 false ⟨0, true⟩ .i8,
    .vintVsub 4 4 4 false ⟨2, false⟩ .f32, .vintVmul 4 4 4 false ⟨0, true⟩ .i8, .vintVmul 4 4 4 false ⟨2, false⟩ .f32,
    .vmulh 4 4 4 false ⟨0, true⟩ .i8, .vmulh 4 4 4 false ⟨2, false⟩ .f32, .vintVmin 4 4 4 false ⟨0, true⟩ .i8, .vintVmin 4 4 4 false ⟨2, false⟩ .f32,
    .vintVmax 4 4 4 false ⟨0, true⟩ .i8, .vintVmax 4 4 4 false ⟨2, false⟩ .f32, .vminu 4 4 4 false ⟨0, true⟩ .i8, .vminu 4 4 4 false ⟨2, false⟩ .f32,
    .vmaxu 4 4 4 false ⟨0, true⟩ .i8, .vmaxu 4 4 4 false ⟨2, false⟩ .f32, .vand 4 4 4 false ⟨0, true⟩ .i8, .vand 4 4 4 false ⟨2, false⟩ .f32,
    .vor 4 4 4 false ⟨0, true⟩ .i8, .vor 4 4 4 false ⟨2, false⟩ .f32, .vxor 4 4 4 false ⟨0, true⟩ .i8, .vxor 4 4 4 false ⟨2, false⟩ .f32,
    .vsll 4 4 4 false ⟨0, true⟩ .i8, .vsll 4 4 4 false ⟨2, false⟩ .f32, .vsrl 4 4 4 false ⟨0, true⟩ .i8, .vsrl 4 4 4 false ⟨2, false⟩ .f32,
    .vsra 4 4 4 false ⟨0, true⟩ .i8, .vsra 4 4 4 false ⟨2, false⟩ .f32, .vintVabs 4 4 ⟨0, true⟩ .i8, .vintVabs 4 4 ⟨2, false⟩ .f32,
    .vintVneg 4 4 ⟨0, true⟩ .i8, .vintVneg 4 4 ⟨2, false⟩ .f32, .vsadd 4 4 4 false ⟨0, true⟩ .i8, .vsadd 4 4 4 false ⟨2, false⟩ .f32,
    .vssub 4 4 4 false ⟨0, true⟩ .i8, .vssub 4 4 4 false ⟨2, false⟩ .f32] : List Instr), wellFormed i = false := by decide

theorem test_refuse_vflt : ∀ i ∈ ([
    .vfltVadd 4 4 4 false ⟨0, true⟩ .f32, .vfltVadd 4 4 4 false ⟨2, false⟩ .i8, .vfltVsub 4 4 4 false ⟨0, true⟩ .f32,
    .vfltVsub 4 4 4 false ⟨2, false⟩ .i8, .vfltVmul 4 4 4 false ⟨0, true⟩ .f32, .vfltVmul 4 4 4 false ⟨2, false⟩ .i8,
    .vfma 4 4 4 4 false ⟨0, true⟩ .f32, .vfma 4 4 4 4 false ⟨2, false⟩ .i8, .vfms 4 4 4 4 false ⟨0, true⟩ .f32, .vfms 4 4 4 4 false ⟨2, false⟩ .i8,
    .vfnma 4 4 4 4 false ⟨0, true⟩ .f32, .vfnma 4 4 4 4 false ⟨2, false⟩ .i8, .vfltVmin 4 4 4 false ⟨0, true⟩ .f32,
    .vfltVmin 4 4 4 false ⟨2, false⟩ .i8, .vfltVmax 4 4 4 false ⟨0, true⟩ .f32, .vfltVmax 4 4 4 false ⟨2, false⟩ .i8, .vfltVabs 4 4 ⟨0, true⟩ .f32,
    .vfltVabs 4 4 ⟨2, false⟩ .i8, .vfltVneg 4 4 ⟨0, true⟩ .f32, .vfltVneg 4 4 ⟨2, false⟩ .i8, .vdiv 4 4 4 false ⟨0, true⟩ .f32,
    .vdiv 4 4 4 false ⟨2, false⟩ .i8, .vsqrt 4 4 ⟨0, true⟩ .f32, .vsqrt 4 4 ⟨2, false⟩ .i8, .vrcp 4 4 ⟨0, true⟩ .f32, .vrcp 4 4 ⟨2, false⟩ .i8,
    .vrsqrt 4 4 ⟨0, true⟩ .f32, .vrsqrt 4 4 ⟨2, false⟩ .i8, .vexp2 4 4 ⟨0, true⟩ .f32, .vexp2 4 4 ⟨2, false⟩ .i8, .vlog2 4 4 ⟨0, true⟩ .f32,
    .vlog2 4 4 ⟨2, false⟩ .i8, .vsgnj 4 4 4 false ⟨0, true⟩ .f32, .vsgnj 4 4 4 false ⟨2, false⟩ .i8] : List Instr), wellFormed i = false := by decide

theorem test_refuse_moves : ∀ i ∈ ([
    .vcmpeq 1 4 4 false ⟨0, true⟩ .f32, .vcmpeq 1 4 4 false ⟨2, false⟩ .e4m3, .vcmpne 1 4 4 false ⟨0, true⟩ .f32,
    .vcmpne 1 4 4 false ⟨2, false⟩ .e4m3, .vcmplt 1 4 4 false ⟨0, true⟩ .f32, .vcmplt 1 4 4 false ⟨2, false⟩ .e4m3,
    .vcmple 1 4 4 false ⟨0, true⟩ .f32, .vcmple 1 4 4 false ⟨2, false⟩ .e4m3, .vcmpgt 1 4 4 false ⟨0, true⟩ .f32,
    .vcmpgt 1 4 4 false ⟨2, false⟩ .e4m3, .vcmpge 1 4 4 false ⟨0, true⟩ .f32, .vcmpge 1 4 4 false ⟨2, false⟩ .e4m3, .vslideup 4 4 4 ⟨0, true⟩ .f32,
    .vslideup 4 4 4 ⟨2, false⟩ .e2m1, .vslidedn 4 4 4 ⟨0, true⟩ .f32, .vslidedn 4 4 4 ⟨2, false⟩ .e2m1, .vbcast 4 4 ⟨0, true⟩ .f32,
    .vbcast 4 4 ⟨2, false⟩ .e2m1, .vperm 4 4 4 ⟨0, true⟩ .f32, .vperm 4 4 4 ⟨2, false⟩ .e2m1, .vmvXv 4 4 1 .f32, .vmvVx 4 4 1 .f32, .vmvFv 4 4 1 .i8,
    .vmvVf 4 4 1 .i8, .vsel 4 4 4 ⟨0, false⟩ .f32, .vsel 4 4 4 ⟨2, false⟩ .e2m1, .vcompress 4 4 ⟨0, true⟩ .f32, .vcompress 4 4 ⟨2, false⟩ .e2m1,
    .vredsum 4 4 1 ⟨0, true⟩ .f32, .vredsum 4 4 1 ⟨2, false⟩ .ui8, .vredmax 4 4 1 ⟨0, true⟩ .f32, .vredmax 4 4 1 ⟨2, false⟩ .e4m3,
    .vredmin 4 4 1 ⟨0, true⟩ .f32, .vredmin 4 4 1 ⟨2, false⟩ .e4m3, .vredamax 4 4 false 1 ⟨0, true⟩ .f32, .vredamax 4 4 false 1 ⟨2, false⟩ .ui8,
    .vredamax 4 4 true 1 ⟨2, false⟩ .i8, .vld 4 4 1 ⟨0, true⟩ .f32, .vld 4 4 1 ⟨2, false⟩ .e2m1, .vlds 4 4 4 1 ⟨0, true⟩ .f32,
    .vlds 4 4 4 1 ⟨2, false⟩ .e2m1, .vld2d 4 4 4 1 ⟨0, true⟩ .f32, .vld2d 4 4 4 1 ⟨2, false⟩ .e2m1, .vldx 4 4 4 ⟨0, true⟩ .f32] : List Instr), wellFormed i = false := by decide

theorem test_refuse_moves2 : ∀ i ∈ ([
    .vldx 4 4 4 ⟨2, false⟩ .e2m1, .vst 4 4 1 ⟨0, true⟩ .f32, .vst 4 4 1 ⟨2, false⟩ .e2m1, .vsts 4 4 4 1 ⟨0, true⟩ .f32,
    .vsts 4 4 4 1 ⟨2, false⟩ .e2m1, .vstx 4 4 4 none ⟨0, true⟩ .f32, .vstx 4 4 4 none ⟨2, false⟩ .e2m1, .vsetvl 4 4 .e2m1,
    .vsetvlw 4 4 4 4 1 false .e2m1] : List Instr), wellFormed i = false := by decide

theorem test_refuse_masks : ∀ i ∈ ([
    .mand 1 1 1 false ⟨0, true⟩, .mand 1 1 1 true ⟨2, false⟩, .mor 1 1 1 false ⟨0, true⟩, .mor 1 1 1 true ⟨2, false⟩, .mxor 1 1 1 false ⟨0, true⟩,
    .mxor 1 1 1 true ⟨2, false⟩, .mandn 1 1 1 false ⟨0, true⟩, .mandn 1 1 1 true ⟨2, false⟩, .mnot 1 1 false ⟨0, true⟩, .mnot 1 1 true ⟨2, false⟩,
    .mpop 4 1 false ⟨0, true⟩, .mpop 4 1 true ⟨2, false⟩, .mfirst 4 1 false ⟨0, true⟩, .mfirst 4 1 true ⟨2, false⟩, .mset 1 false ⟨0, true⟩,
    .mset 1 true ⟨2, false⟩, .mclr 1 false ⟨0, true⟩, .mclr 1 true ⟨2, false⟩] : List Instr), wellFormed i = false := by decide

theorem test_refuse_scalar : ∀ i ∈ ([
    .widf 4 6, .widfExt 4 6, .widfLvl 4 6, .fence 8 1 1 4 4, .fence 0 1 0 0 0, .tcopyMc 4 4 4 0 none false, .tcopyMc 4 4 4 31 none false,
    .qfence false false false .gang, .wgrecv 5 1, .wgrecv 0 1] : List Instr), wellFormed i = false := by decide

theorem test_refuse_convert : ∀ i ∈ ([
    .vcvt 4 4 1 ⟨0, true⟩ .e4m3 .f32, .vcvt 4 4 0 ⟨0, false⟩ .f32 .f32, .vcvt 4 4 0 ⟨0, false⟩ .e2m1 .f32, .vcvt 4 4 1 ⟨0, false⟩ .bf16 .f32,
    .vsrnd 4 4 4 1 8 ⟨0, true⟩ .e4m3 .f32, .vsrnd 4 4 4 1 8 ⟨0, false⟩ .i8 .f32, .vsrnd 4 4 4 1 8 ⟨0, false⟩ .f16 .bf16,
    .vsrnd 4 4 4 1 33 ⟨0, false⟩ .e4m3 .f32, .vsrnd 4 4 4 1 17 ⟨0, false⟩ .e4m3 .bf16, .vqnt 4 4 none 1 .i8] : List Instr), wellFormed i = false := by decide

theorem test_refuse_matrix : ∀ i ∈ ([
    .mop1 1 4 4 0 ⟨0, true⟩ .bf16bf16, .mop1 1 4 4 5 ⟨0, false⟩ .bf16bf16, .mop1 1 5 4 0 ⟨0, false⟩ .f32f32, .mop1 1 4 5 0 ⟨0, false⟩ .f32f32,
    .mopa 1 4 6 0 7 false ⟨0, true⟩ .bf16bf16, .mopa 1 4 6 5 7 false ⟨0, false⟩ .bf16bf16, .mopa 1 5 6 0 7 false ⟨0, false⟩ .bf16bf16,
    .mopa 1 4 7 0 7 false ⟨0, false⟩ .bf16bf16, .mopa 1 0 6 0 7 false ⟨0, false⟩ .bf16bf16, .mopa 1 4 0 0 7 false ⟨0, false⟩ .bf16bf16,
    .mzero 1 ⟨0, true⟩, .mdrain ⟨1, 4, 4, .f32, ⟨0, true⟩, false, false, 0, 3, 0⟩, .mdrain ⟨1, 4, 4, .f16, ⟨0, false⟩, false, false, 0, 3, 0⟩,
    .mdrain ⟨1, 4, 4, .f32, ⟨0, false⟩, false, false, 2, 3, 0⟩, .mdrain ⟨1, 4, 4, .f32, ⟨0, false⟩, false, false, 0, 4, 60⟩,
    .mdrainRow ⟨1, 4, 4, .f32, ⟨0, true⟩, false, false, 0, 3, 0⟩ 4, .mdrainRow ⟨1, 4, 4, .f16, ⟨0, false⟩, false, false, 0, 3, 0⟩ 4,
    .mdrainRow ⟨1, 4, 4, .f32, ⟨0, false⟩, false, false, 2, 3, 0⟩ 4, .mdrainRow ⟨1, 4, 4, .f32, ⟨0, false⟩, false, false, 0, 4, 60⟩ 4,
    .mdrainDly ⟨1, 4, 4, .f32, ⟨0, true⟩, false, false, 0, 3, 0⟩ 4, .mdrainDly ⟨1, 4, 4, .f16, ⟨0, false⟩, false, false, 0, 3, 0⟩ 4,
    .mdrainDly ⟨1, 4, 4, .f32, ⟨0, false⟩, false, false, 2, 3, 0⟩ 4, .mdrainDly ⟨1, 4, 4, .f32, ⟨0, false⟩, false, false, 0, 4, 60⟩ 4,
    .mrowRd 4 1 (.imm 1) false ⟨0, true⟩ .f32, .mrowRd 5 1 (.imm 1) false ⟨2, false⟩ .f32, .mrowRd 4 1 (.imm 1) false ⟨2, false⟩ .bf16,
    .mrowWr 1 4 (.imm 1) false ⟨0, true⟩ .f32, .mrowWr 1 5 (.imm 1) false ⟨2, false⟩ .f32, .mrowWr 1 4 (.imm 1) false ⟨2, false⟩ .bf16] : List Instr), wellFormed i = false := by decide

/-! ### A small machine -/

/-- A machine with one launch, one gang and one calm cell (log 19). -/
def w0 : State := fixture State.reset
/-- Registers of its cell. -/
def wx (s : State) (l : List (Nat × Nat)) : State := l.foldl (fun s e => wrX s (BitVec.ofNat 5 e.1) (BitVec.ofNat 64 e.2)) s
/-- Float registers of its cell. -/
def wf (s : State) (l : List (Nat × Nat)) : State := l.foldl (fun s e => wrF s (BitVec.ofNat 5 e.1) (BitVec.ofNat 32 e.2)) s
/-- Its cell, gang and launch changed. -/
def wc (s : State) (f : Cell → Cell) : State := s.modCell 0 f
def wg (s : State) (f : Gang → Gang) : State := s.modGang 3 f
def wl (s : State) (f : Launch → Launch) : State := s.modLaunch 1 f
/-- A byte of its local store, as an effective address. -/
def ls (off : Nat) : Nat := 7 * 2 ^ 61 + off
/-- An access reaches the byte with this key. -/
def lands (r : Op (State × Target)) (k : Nat) : Bool := match r with | .ok (_, .key k') => k' == k | _ => false
def isOk {ε α : Type} (r : Except ε α) : Bool := match r with | .ok _ => true | .error _ => false
/-- A store of the cell on its way to 0x8000. -/
def wpost : State := { w0 with posted := [{ cell := 0, gang := 3, launch := 1, pa := 0x8000, op := .write [1, 2] }] }
def wcsr (s : State) (f : Csrs → Csrs) : State := wrCsr s f

/-! ### Results of the spec's worked examples -/

/-- Element `i` of `w` bits of a vector register. -/
def elemOf (v : VReg) (w i : Nat) : Nat := v.toNat / 2 ^ (w * i) % 2 ^ w
def nextOf (o : Host.Outcome State Fault Refusal) : State := match o with | .next s => s | _ => w0
/-- The value that an instruction leaves for a register, at once or when its result is written back. -/
def resultX (r : Reg) (s : State) : Word := match s.me.pend.reverse.find? (fun p => p.dst == .x r) with | some p => BitVec.ofNat 64 p.val | none => rdX s r
def f32 (w : Nat) : Fv := decodeIeee fmt32 w
-- Spec 08 R190: halfway and edge cases.
theorem test_satn_table : ∀ e ∈ ([
    (.e4m3, 0x41880000, 0x58, false), (.e4m3, 0x41980000, 0x5A, false), (.e4m3, 0x43E00000, 0x7E, false), (.e4m3, 0x43E04000, 0x7E, true), (.e4m3, 0xC47A0000, 0xFE, true),
    (.e4m3, 0x3B400000, 0x02, false), (.e4m3, 0x3A800000, 0x00, false), (.e5m2, 0x47700000, 0x7B, true), (.e5m2, 0x7F800000, 0x7B, true), (.e2m1, 0x40200000, 0x4, false),
    (.e2m1, 0x40A00000, 0x6, false), (.e2m1, 0x3F400000, 0x2, false), (.e2m1, 0xBE800000, 0x8, false), (.e2m1, 0x40C00000, 0x7, false), (.e2m1, 0x40C00035, 0x7, true),
    (.e2m1, 0x7FC00000, 0x0, true), (.e3m5, 0x41800000, 0xFF, true)] : List (Narrow × Nat × Nat × Bool)),
    let r := satn e.1 (f32 e.2.1); r.1 = e.2.2.1 ∧ r.2.1 = e.2.2.2 := by decide
-- Spec 08 R192: 2.3125 to e4m3 with w = 8.
theorem test_srnd_worked : (srnd .e4m3 fmt32 (f32 0x40140000) 0xC5 8).1 = 0x42 ∧ (srnd .e4m3 fmt32 (f32 0x40140000) 0x3A 8).1 = 0x41 := by decide
-- Spec 09 R218: quantising one block with AUTO.
def wquant : State := (wc w0 fun c => { c with v := c.v.set 5 (BitVec.ofNat 1024 (leNat ([0x3E99999A, 0xBFF33333, 0x40866666, 0, 0x3F400000, 0x40200000, 0xC0C33333, 0x3F800000].flatMap fun n => leBytes n 4))) })
theorem test_vqnt_worked : let v := (nextOf (execVqnt 4 5 none 1 .f32 wquant)).me.v[4]
    (List.range 4).map (elemOf v 8) = [0xC1, 0x06, 0x41, 0x2F] ∧ elemOf v 8 32 = 0x81 := by decide
-- Spec 08 R185: one rank-one step; 2^24 + 1.5 rounds to 16,777,218 and sets NX.
theorem test_accumulate_rounds : accumulate false (some (f32 0x3FC00000)) (some (f32 0x3F800000)) 0x4B800000 = (0x4B800001, { nx := true }) := by decide
-- Spec 11 R264: 2^127 + 2 × 2^127 overflows; the resume point of step 5, row 9 at pc 0x4000001230.
theorem test_mopa_stop : (accumulate false (some (f32 0x40000000)) (some (f32 0x7F000000)) 0x7F000000).2.of = true ∧ stopPoint 0x4000001230 5 9 = 0x8000048C00050009 := by decide
-- Spec 02 R50: the worked header folds F2, and the cell of F0 = 2, F1 = 5, F3 = 7 goes on from WID 0x716 to 0x756, and to 0x1716 after F2 = 3.
def wband : Hdr := { ctl0 := 0x0118030003010080, fmt0 := 0x00003A0DC150D012, fmt1 := 0x9FFE }
theorem test_wid_worked : ((foldHdr w0 0 0 wband).map fun h => (widNext h.fmt0.toNat h.fmt1.toNat 0x716, widNext h.fmt0.toNat h.fmt1.toNat 0x7D6)) = some (some 0x756, some 0x1716)
    ∧ gangsPerCore wband = 2 ∧ wband.cells = 3 ∧ wband.lsu = 24 ∧ wband.accm = 3 ∧ wband.prio = 2 ∧ wband.vgrp = 1 := by decide
-- Spec 16, a group of six.
def wsix : Brood := { handle := 0, part := 0, asid := 0, st := .running, desc := [1, 0, 6, 0, 4, 0] ++ zeros 46 ++ leBytes 0x3E800000 4 ++ zeros 200
                      sibs := [(1, 0x40000000), (1, 0), (4, 0), (1, 0), (5, 0x7FC00000), (1, 0x40000000)].map fun e => { status := e.1, reward := BitVec.ofNat 32 e.2 } }
theorem test_brood_worked : let b := broodJudge wsix
    b.sibs.map (fun x : Sib => (x.rewardWord, x.adv, x.status)) = [(0x40000000, 0x3F4CCCCD, 1), (0, 0xBF4CCCCD, 1), (0, 0, 4), (0, 0xBF4CCCCD, 1), (0x7FC00000, 0, 5), (0x40000000, 0x3F4CCCCD, 1)]
    ∧ broodSummary { b with st := .complete } = 0x6000802000000006 := by decide
-- The published SM3 digest of "abc" (spec 01 R9 names the hash).
theorem test_sm3_abc : leNat ((sm3 [0x61, 0x62, 0x63]).take 4) = 0xf4f0c766 := by decide
-- Spec 07, a store through a copy-on-write page: the new entry.
theorem test_cow_worked : cowLeaf 0x6A12300245 0x2100000000 = 0x000000210000004D := by decide
-- Spec 10 R231: granule 0 of row 3 of a 64 × 64 BF16 tile with code 1.
theorem test_rotation_worked : (tdescOf (zeros 8 ++ [2, 2, 1, 0] ++ zeros 4 ++ zeros 40 ++ [64, 0, 64, 0, 1, 0, 1, 0]) 0).place 3 0 = 448 := by decide
-- Spec 14, a flit lost between CD0 and CD1: the counters.
def wflits : State := [(0x44, false), (0x45, true), (0x46, true)].foldl (fun s e => nextOf (execFlitReceive 9 e.1 e.2 s)) ((w0.modLink 9 fun l => { l with rxNext := 0x44 }).modLink 1 fun l => { l with txNext := 0x44 })
-- The acknowledgement arrives at 8 ns, and flit 0x47, sent at 7 ns, out of sequence at 9 ns.
theorem test_replay_worked : let s := nextOf (execFlitReceive 9 0x47 true (nextOf (execUcieReplay 1 0x43 wflits)))
    (s.link 9).crcerr = 1 ∧ (s.link 1).epis = 1 ∧ (s.link 1).flits = 4 ∧ (s.link 9).naks = 1 ∧ (s.link 9).rxNext = 0x44 := by decide

/-! ### One instruction at a time -/

theorem test_div_by_zero : let s := wx w0 [(10, 7), (11, 0)]
    resultX 5 (nextOf (execDiv 5 10 11 s)) = BitVec.ofNat 64 (2 ^ 64 - 1) ∧ resultX 5 (nextOf (execRem 5 10 11 s)) = 7 := by decide
theorem test_div_overflow : let s := wx w0 [(10, 2 ^ 63), (11, 2 ^ 64 - 1)]
    resultX 5 (nextOf (execDiv 5 10 11 s)) = BitVec.ofNat 64 (2 ^ 63) ∧ resultX 5 (nextOf (execRem 5 10 11 s)) = 0 := by decide
theorem test_addw_wraps : resultX 5 (nextOf (execAddw 5 10 11 (wx w0 [(10, 0x7FFFFFFF), (11, 1)]))) = 0xFFFFFFFF80000000 := by decide
theorem test_mulh_signed : resultX 5 (nextOf (execMulh 5 10 11 (wx w0 [(10, 2 ^ 63), (11, 2 ^ 63)]))) = 0x4000000000000000 := by decide
theorem test_lw_sign : resultX 5 (nextOf (execLw 5 10 4 ((wx w0 [(10, ls 0x100)]).poke (lsKey 0 0x104) [0, 0, 0, 0x80]))) = 0xFFFFFFFF80000000 := by decide
theorem test_jalr_links : let s := nextOf (execJalr 1 1 4 (wx w0 [(1, 0x20001)]))
    s.me.pc = 0x20004 ∧ rdX s 1 = 0x10004 := by decide
theorem test_blt_signed : (nextOf (execBlt 10 11 8 (wx w0 [(10, 2 ^ 64 - 1), (11, 0)]))).me.pc = 0x10010 := by decide
theorem test_fadd_rounds : let s := nextOf (execFaddS 5 10 11 0 (wf w0 [(10, 0x3F800000), (11, 0x33800000)]))
    s.me.csr.qfcsr.getLsbD 0 = true ∧ (s.me.pend.any (fun p => p.val == 0x3F800000) || rdF s 5 == 0x3F800000) = true := by decide
theorem test_vadd_wraps : elemOf (nextOf (execVintVadd 4 5 6 false ⟨0, false⟩ .i8 (wc w0 fun c => { c with vl := 1, sew := 8, v := (c.v.set 5 0x7F).set 6 1 }))).me.v[4] 8 0 = 0x80 := by decide
theorem test_ecall_traps : let s := nextOf (execEcall (wcsr w0 fun r => { r with ttvec := 0x700 }))
    s.me.pc = 0x700 ∧ s.me.tlev = 1 ∧ s.me.csr.tepc1 = 0x10000 ∧ s.me.csr.tval1 = 0 := by decide
-- A step fetches, decodes and executes the word at the pc.
theorem test_step_runs : let s := nextOf (step (State.reset.withFetchWord 32 0x00A58593)); s.me.pc = 0x10004 ∧ rdX s 11 = 10 := by decide

/-! ### Witnesses: hypotheses of the statements that are met -/

theorem test_hyp_calm : calm w0 = true ∧ quiet w0 = true ∧ vready w0 = true ∧ memOk w0 = true := by decide
theorem test_hyp_division : let s := wcsr (wx w0 [(11, 7)]) fun c => { c with qfcsr := 0x100000 }
    calm s = true ∧ rdX s 12 = 0 ∧ s.me.csr.qfcsr.getLsbD 20 = true ∧ w0.me.csr.qfcsr.getLsbD 20 = false := by decide
theorem test_hyp_jumps : let s := wx w0 [(11, 0x10006), (12, 0x10008)]
    calm s = true ∧ ((rdX s 11 + 0) &&& ~~~1#64).getLsbD 1 = true ∧ ((rdX s 12 + 0) &&& ~~~1#64).getLsbD 1 = false ∧ rdX s 11 ≠ rdX s 12 := by decide
/-- The last bytes of the mapped gigabyte and of the gang's local store. -/
theorem test_hyp_loads : lands (resolve (begun w0 4) .load 0x3FFFFFF8 8 rRead 8) 0x3FFFFFF8 = true
    ∧ lands (resolve (begun w0 4) .load (BitVec.ofNat 64 (ls 0x10FFF)) 1 rRead 1) (lsKey 0 0x10FFF) = true
    ∧ lands (resolve (begun w0 4) .load 0x20002 2 rRead 2) 0x20002 = true ∧ lands (resolve (begun w0 4) .load 0x20004 4 rRead 4) 0x20004 = true := by decide
/-- Segment 1 may be read only, and segment 2 lies above the DVA space; the low gigabyte may be read only; the next one is in host memory. -/
def wtraps : State :=
  (wg (wx w0 [(11, ls 0x11000), (12, 2 ^ 61 + 0x100), (13, 2 * 2 ^ 61), (14, 0x20002), (15, 0x8000), (16, 2 ^ 30 + 0x8000)]) fun g =>
    { g with segs := [(1, (0, BitVec.ofNat 64 (2 ^ 20 + 1))), (2, (BitVec.ofNat 64 (2 ^ 57), 31))] }).poke 0x3000 (leBytes 0x55 8 ++ leBytes 0x46D 8)
def limitOf (s : State) (r : Reg) : Nat := (s.myGang.segment ((rdX s r).toNat / 2 ^ 61)).2.toNat
def dvaOf (s : State) (r : Reg) : Nat := ((s.myGang.segment ((rdX s r).toNat / 2 ^ 61)).1.toNat + (rdX s r).toNat % 2 ^ 61) % 2 ^ 64
def toHost (r : Op (State × Target)) : Bool := match r with | .ok (_, .host _) => true | _ => false
theorem test_hyp_accessTraps : let s := wtraps
    calm s = true ∧ limitOf s 11 / 16 * 16 < (rdX s 11).toNat % 2 ^ 61 + 1 ∧ (rdX s 12).toNat % 2 ^ 61 + 8 ≤ limitOf s 12 / 16 * 16 ∧ limitOf s 12 % 16 &&& rWrite ≠ rWrite
    ∧ limitOf s 12 % 16 &&& rAtomic ≠ rAtomic ∧ (rdX s 13).toNat % 2 ^ 61 + 8 ≤ limitOf s 13 / 16 * 16 ∧ limitOf s 13 % 16 &&& rRead = rRead ∧ 2 ^ 57 ≤ dvaOf s 13
    ∧ dvaOf s 14 < 2 ^ 57 ∧ (rdX s 14).toNat % 4 ≠ 0 ∧ (rdX s 15).toNat % 8 = 0 ∧ look (begun s 4) 3 .store (dvaOf s 15) 8 = .denied
    ∧ look (begun s 4) 3 .load (dvaOf s 15) 8 ≠ .denied ∧ toHost (resolve (begun s 4) .load (rdX s 16) 8 rRead 8) = true := by decide
theorem test_hyp_accessTraps_denied : look (begun wtraps 4) 3 .atomic 0x8000 8 = .denied ∧ look (begun (wtraps.poke 0x3000 (leBytes 0x51 8)) 4) 3 .load 0x8000 8 = .denied
    ∧ look (begun wtraps 4) 3 .atomic (2 ^ 30 + 0x8000) 8 = .denied := by decide
theorem test_hyp_settled : settled w0 0x3FFFFFF8 8 = true ∧ settled w0 (lsKey 0 0x10FFF) 1 = true := by decide
/-- A word of the first hive's memory that another cell has written since; the reader has not been ordered after it. -/
def wunset : State := { w0 with cur := 8 }.write (.cell 0) none 0x8000 [7]
theorem test_hyp_unsettled : settled wunset 0x8000 1 = false := by
  have h : (wunset.cell wunset.cur).looks = 0 := by decide
  have e : wunset.orderedTo wunset.cur 0x8000 1 = 0 := by
    simp only [State.orderedTo, h, Nat.zero_div]
    decide
  simp only [settled, e]
  decide
theorem test_hyp_replied : replied (wc w0 fun c => { c with reply := some 5 }) 5 = true := by decide
theorem test_hyp_stores : lands (resolve (begun w0 4) .store 0x3FFFFFF8 8 rWrite 8) 0x3FFFFFF8 = true
    ∧ lands (resolve (begun w0 4) .store (BitVec.ofNat 64 (ls 0)) 1 rWrite 1) (lsKey 0 0) = true
    ∧ lands (resolve (begun w0 4) .store 0x20002 2 rWrite 2) 0x20002 = true ∧ lands (resolve (begun w0 4) .store 0x20004 4 rWrite 4) 0x20004 = true := by decide
theorem test_hyp_storeHomes : isHbm (2 ^ 39 - 1) = true ∧ isHbm (2 ^ 39) = false ∧ isHbm (lsKey 0 0) = false ∧ memOk wpost = true
    ∧ (wpost.posted.zipIdx.filter fun e => e.1.cell == 0)[0]? = some ({ cell := 0, gang := 3, launch := 1, pa := 0x8000, op := .write [1, 2] }, 0) := by decide
theorem test_hyp_fences : calm wpost = true ∧ quiet wpost = false ∧ ((1 : BitVec 4)).getLsbD 0 = true ∧ (2 : BitVec 4) ≠ 0 := by decide
/-- An atomic of the cell on its way, with (or without) an acquire. -/
def wamo (acq : Bool) : State :=
  { wc w0 (fun c => { c with run := if acq then .parked (.remote 0) else .ready }) with
    posted := [{ cell := 0, gang := 3, launch := 1, pa := 0x8000, op := .amo .add 8 5 0 (if acq then .none else .x 7), acq }] }
theorem test_hyp_fences_atomic : busyReads (wamo false) = true ∧ busyReads wpost = false ∧ busy wpost = true ∧ calm (wamo false) = true := by decide
/-- Atomics in memory, and at their home. -/
theorem test_hyp_atomics : let s := wx w0 [(11, 0x8000), (12, ls 0x100)]
    lands (resolve (begun s 4) .atomic (rdX s 11) 4 rAtomic 4) 0x8000 = true ∧ lands (resolve (begun s 4) .atomic (rdX s 11) 8 rAtomic 8) 0x8000 = true ∧ isHbm 0x8000 = true
    ∧ lands (resolve (begun s 4) .atomic (rdX s 12) 4 rAtomic 4) (lsKey 0 0x100) = true ∧ isHbm (lsKey 0 0x100) = false ∧ calm s = true ∧ quiet s = true ∧ memOk s = true
    ∧ ((wamo false).posted.all fun p => p.mine (wamo false) && !p.acq && p.home == .hbm) = true ∧ ((wamo true).posted.all fun p => p.mine (wamo true) && p.acq) = true
    ∧ memOk (wamo true) = true ∧ (amoApply .cas 8 0 1 2).2 = false ∧ (amoApply .add 8 0 5 0).2 = true := by decide
theorem test_hyp_reservation : let s := wc (wx w0 [(11, ls 0x78)]) fun c => { c with resv := some (lsKey 0 0x78 / 64 * 64) }
    calm s = true ∧ quiet s = true ∧ lands (resolve (begun s 4) .load (rdX s 11) 8 rRead 8) (lsKey 0 0x78) = true
    ∧ lands (resolve (begun s 4) .atomic (rdX s 11) 8 rAtomic 8) (lsKey 0 0x78) = true ∧ s.me.resv = some (lsKey 0 0x78 / 64 * 64)
    ∧ lands (resolve (begun s 4) .load (rdX s 11) 4 rRead 4) (lsKey 0 0x78) = true
    ∧ lands (resolve (begun s 4) .atomic (rdX s 11) 4 rAtomic 4) (lsKey 0 0x78) = true ∧ w0.me.resv ≠ some (lsKey 0 0x78 / 64 * 64) := by decide
/-- 2 + 3 rounds to nearest even with no flag; infinity less itself is invalid, and the largest finite number doubled overflows. -/
theorem test_hyp_float : let s := wf w0 [(1, 0x40000000), (2, 0x40400000), (3, 0x7F800000), (4, 0xFF800000), (5, 0x7F7FFFFF)]
    rmSelect s 0 = some .rne ∧ rmSelect s 7 = some .rne ∧ rmSelect s 5 = none
    ∧ (let o := round32 .rne (Fv.add .rne (val32 (rdF s 1)) (val32 (rdF s 2))); o.1 = 0x40A00000 ∧ fpTrap s.me.csr.qfcsr o.2 = none)
    ∧ (round32 .rne (Fv.add .rne (val32 (rdF s 3)) (val32 (rdF s 4)))).2.nv = true
    ∧ (let o := round32 .rne (Fv.add .rne (val32 (rdF s 5)) (val32 (rdF s 5))); o.2.nv = false ∧ o.2.dz = false ∧ o.2.of = true)
    ∧ (0x50000 : Word).getLsbD 16 = true ∧ (0x50000 : Word).getLsbD 18 = true := by decide
/-- The cause of the first enabled exception; flags that raise none. -/
theorem test_hyp_float_traps : fpCause 0x70000 { nv := true, of := true } = some 0x07 ∧ fpCause 0x70000 { dz := true } = some 0x08 ∧ fpCause 0x60000 { nv := true, of := true } = some 0x09
    ∧ fpCause 0x10000 { dz := true } = none ∧ (Fv.div (f32 0x3F800000) (f32 0)).2.dz = true ∧ (Fv.fma true .rne (f32 0x7F800000) (f32 0) (f32 0x7FC00000)).2.nv = true
    ∧ (Fv.sqrt (f32 0xBF800000)).2.nv = true ∧ (toIntegral .rne (-2 ^ 31) (2 ^ 31 - 1) (f32 0x7FC00000)).2.nv = true ∧ (minmaxCode fmt32 false 0x7F800001 0).2.nv = true
    ∧ rmSelect w0 5 = none ∧ calm w0 = true := by decide
theorem test_hyp_csrs : csrExists 0xCC4 = true ∧ csrWritable 2 0xCC4 = false ∧ csrExists 0x800 = true ∧ csrWritable 0 0x800 = true ∧ csrExists 0x7C0 = false
    ∧ csrExists 0xCC3 = true ∧ csrWritable 0 0xCC3 = false := by decide
theorem test_hyp_cellid : let s : State := { w0 with cur := 3 * 2 ^ 11 + 15 * 2 ^ 7 + 15 * 2 ^ 3 + 7 }
    s.cur = 3 * 2 ^ 11 + 15 * 2 ^ 7 + 15 * 2 ^ 3 + 7 ∧ csrGet s 0xCC4 = 0x1FFF := by decide
def loopy (cnt idx : Nat) : Loop := { start := 0x10004, stop := 0x10010, cnt := BitVec.ofNat 64 cnt, idx := BitVec.ofNat 64 idx, lev := 0 }
theorem test_hyp_turnEnd : ∃ c, Tab.find w0.cells w0.cur = some c := ⟨_, rfl⟩
theorem test_hyp_loops : let s := wc w0 fun c => { c with loops := List.replicate 6 (loopy 2 0) }
    calm s = true ∧ s.me.loops.length = 6 ∧ rdX w0 5 = 0 ∧ (s.me.loops.filter fun l => l.lev == s.me.tlev).length = 6
    ∧ s.me.loops[6 - 1]? = some (loopy 2 0) ∧ (w0.me.loops.filter fun l => l.lev == w0.me.tlev).length < 1 := by decide
theorem test_hyp_yield : let s := wg w0 fun g => { g with st := .landing }
    calm s = true ∧ s.myGang.st = .landing ∧ w0.myGang.st ≠ .landing ∧ (0x0000300B : W32).extractLsb' 0 7 = 0x0B#7 ∧ (0x0000300B : W32).extractLsb' 12 3 = 3#3 := by decide
theorem test_hyp_trapEntry : let s := wc w0 fun c => { c with csr := { c.csr with ttvec := 0x10100 } }
    let t := wc s fun c => { c with tlev := 1, loops := List.replicate 6 (loopy 2 0) }
    s.me.latch = [] ∧ s.me.tlev = 0 ∧ s.me.csr.ttvec ≠ 0 ∧ vecBusy s s.cur = false ∧ t.me.tlev = 1 ∧ t.me.loops.length ≤ 6 ∧ calm t = true := by decide
theorem test_hyp_noHandler : w0.me.csr.ttvec = 0 ∧ w0.me.tlev < 2 ∧ w0.me.latch = [] ∧ 2 ≤ (wc w0 fun c => { c with tlev := 2 }).me.tlev := by decide
theorem test_hyp_kill : (w0.gang 3).st ≠ .retired ∧ (w0.gang 3).st ≠ .killed ∧ (Tab.find w0.gangs 3).isSome = true ∧ (Tab.find w0.launches 1).isSome = true
    ∧ (w0.launch 1).first = none := by decide
/-- The fault ring off, on with room, and full. -/
def wring (on : Bool) (wr rd : Nat) : State := ((w0.setMreg 0x708 (if on then BitVec.ofNat 64 (2 ^ 63) else 0)).setMreg 0x710 (BitVec.ofNat 64 wr)).setMreg 0x718 (BitVec.ofNat 64 rd)
theorem test_hyp_kill_ring : ((wring true 0 0).mreg 0x708).getLsbD 63 = true ∧ ((wring false 0 0).mreg 0x708).getLsbD 63 = false
    ∧ (((wring true 63 0).mreg 0x710).toNat + 2 ^ 64 - ((wring true 63 0).mreg 0x718).toNat) % 2 ^ 64 < 2 ^ (((wring true 63 0).mreg 0x708).toNat % 16 + 6)
    ∧ ¬ (((wring true 64 0).mreg 0x710).toNat + 2 ^ 64 - ((wring true 64 0).mreg 0x718).toNat) % 2 ^ 64 < 2 ^ (((wring true 64 0).mreg 0x708).toNat % 16 + 6) := by decide
theorem test_hyp_async : let s := wc w0 fun c => { c with csr := { c.csr with ttvec := 0x10100 }, asyncs := [{ cause := 0x0D, tval := 5 }], povf := true }
    s.me.run = .ready ∧ s.me.tlev = 0 ∧ s.me.asyncs = { cause := 0x0D, tval := 5 } :: [] ∧ s.me.latch = [] ∧ s.me.csr.ttvec ≠ 0 ∧ vecBusy s 0 = false := by decide
theorem test_hyp_handoff : let s := wg (wc w0 fun c => { c with csr := { c.csr with hoqen := 8 } }) fun g =>
      { g with hoq := some [(3, [{ id := 9, by_ := 0, val := some 5 }])] }
    calm (s.modMe fun c => { c with csr := { c.csr with hoqen := 0 } }) = true ∧ (Tab.find s.gangs s.me.gang).isSome = true
    ∧ s.myGang.hoq = some [(3, [{ id := 9, by_ := 0, val := some 5 }])] ∧ bit s.me.csr.hoqen.toNat 3 = true ∧ mapped s.me 10 = false
    ∧ Tab.getD [(3, [({ id := 9, by_ := 0, val := some 5 } : HoqEntry)])] 3 [] = { id := 9, by_ := 0, val := some 5 } :: []
    ∧ (Tab.getD [(3, [({ id := 9, by_ := 0, val := some 5 } : HoqEntry)])] 3 []).length < 16 := by decide
/-- An empty register of each file, with its trap bit (or without). -/
def wempty (traps : Bool) : State := wc w0 fun c =>
  let b (n : Nat) : Word := if traps then BitVec.ofNat 64 (2 ^ n) else 0
  { c with xe := 2 ^ 11, fe := 2, ve := 2 ^ 5, csr := { c.csr with fetrap := b 11, fetrapf := b 1, fetrapv := b 5 } }
theorem test_hyp_empty : ∀ t, canIssue (wempty t) = true ∧ (wempty t).me.csr.hoqen = 0 ∧ (rmSelect (wempty t) 0).isSome = true ∧ (wempty t).me.xe.getLsbD 11 = true
    ∧ (wempty t).me.fe.getLsbD 1 = true ∧ (wempty t).me.ve.getLsbD 5 = true ∧ (wempty t).me.csr.fetrap.getLsbD 11 = t ∧ (wempty t).me.csr.fetrapf.getLsbD 1 = t
    ∧ (wempty t).me.csr.fetrapv.getLsbD 5 = t ∧ aligned (wempty t) 5 = true := by decide
def hent (n : Nat) (v : Option Word) : HoqEntry := { id := n, by_ := 0, val := v }
/-- Queue 0 with two values, queue 1 with an entry whose value has not come, queue 2 empty, queue 3 full; or no buffers bound. -/
def whoq (bound : Bool) (need : Nat) : State :=
  wg (wx (wc w0 fun c => { c with csr := { c.csr with hoqen := 15, fetrap := BitVec.ofNat 64 (2 ^ 30) } }) [(10, 7), (11, 2)]) fun g =>
    { g with hoq := if bound then some [(0, [hent 1 (some 5), hent 2 (some 6)]), (1, [hent 3 none]), (3, List.replicate 16 (hent 9 (some 1)))] else none
             hdr := { g.hdr with ctl0 := g.hdr.ctl0 + BitVec.ofNat 64 (need * 2 ^ 32) } }
def hq (s : State) (q : Nat) : List HoqEntry := Tab.getD (s.myGang.hoq.getD []) q []
theorem test_hyp_queues : let s := whoq true 15
    calm (s.modMe fun c => { c with csr := { c.csr with hoqen := 0 } }) = true ∧ (Tab.find s.gangs s.me.gang).isSome = true ∧ s.myGang.hoq.isSome = true
    ∧ ((hq s 0).head?.bind HoqEntry.val).isSome = true ∧ ((hq s 1).head?.bind HoqEntry.val).isNone = true ∧ hq s 2 = [] ∧ bit s.me.csr.fetrap.toNat 30 = true
    ∧ (hq s 3).length = 16 ∧ 16 + b2n false ≤ (hq s 3).length ∧ ¬ 16 + b2n true ≤ (hq s 3).length ∧ (hq s 0).length < 16 ∧ rdX s 11 ≠ 0 := by decide
theorem test_hyp_queues_unbound : let s := whoq false 15
    s.myGang.hoq = none ∧ boundBuffers s s.myGang.core + popcount s.myGang.hdr.hoq 4 ≤ 4 ∧ (Tab.getD s.myGang.hoqSaved 0 []).length < 16
    ∧ (let t : State := { s with gangs := s.gangs ++ [(4, { (whoq true 1).gang 3 with cells := [1] })] }
       t.myGang.hoq = none ∧ 4 < boundBuffers t t.myGang.core + popcount t.myGang.hdr.hoq 4) := by decide
/-- A queue entry whose value arrives. -/
theorem test_hyp_queue_result : let s := wc (whoq true 15) fun c => { c with pend := [{ dst := .hoq 1 3, val := 8 }] }
    Tab.find s.cells 0 = some s.me ∧ s.me.pend[0]? = some { dst := .hoq 1 3, val := 8 } ∧ (Tab.find s.gangs s.me.gang).isSome = true ∧ (s.gang s.me.gang).hoq.isSome = true := by decide
theorem test_hyp_results : let s := wc w0 fun c => { c with pend := [{ dst := .x 31, val := 1 }, { dst := .f 0, val := 2 }, { dst := .v 31, val := 3 }, { dst := .hoq 3 9, val := 4 }] }
    s.me.pend[0]? = some { dst := .x 31, val := 1 } ∧ s.me.pend[1]? = some { dst := .f 0, val := 2 } ∧ s.me.pend[2]? = some { dst := .v 31, val := 3 }
    ∧ s.me.pend[3]? = some { dst := .hoq 3 9, val := 4 } := by decide
theorem test_hyp_rotation : nextSlot w0 0 = none ∧ (w0.modCore 0 fun k => { k with unit := some { cell := 0, gang := 3 } }).me.run = .ready
    ∧ ((w0.modCore 0 fun k => { k with unit := some { cell := 0, gang := 3 } }).core (coreOf 0)).unit.isSome = true := by decide
/-- A MOPA is the next instruction of the cell, and the unit is another's. -/
def wspent : State := (State.reset.withFetchWord 64 (qv 0x11 0 1 ⟨1, false⟩ 1 12 14 0 0).pack.toNat).modCore 0 fun k => { k with unit := some { cell := 0, gang := 3 } }
def busyFetch (s : State) : Bool := match fetch s with | .got p hi => unitBusy s p hi | .stop .. => false
theorem test_hyp_spent : let s1 := takeTurn wspent (coreOf 0) (0 % 8)
    nextSlot wspent 0 = some 0 ∧ (Tab.find wspent.cells 0).isSome = true ∧ (wspent.cell 0).latch = [] ∧ turnForced s1 = false ∧ turnTraps s1 = false ∧ (resumeStep s1).isNone = true
    ∧ busyFetch s1 = true := by decide
def vfl : VFlight := { cell := 0, gang := 3, enc := 0, pc := 0, count := 32, step := 32, xa := 0, xb := 0, xc := 0 }
theorem test_hyp_lines : let s := wc w0 fun c => { c with run := .parked (.icache 0x10000) }
    s.me.run = .parked (.icache 0x10000) ∧ (fillLine s 0 0x10000).isSome = true ∧ s.refusedIn 0x10000 64 = none
    ∧ (let t := (wc w0 fun c => { c with run := .parked .vector }).modCore 0 fun k => { k with vec := [vfl, vfl] }
       (t.core 0).vec[1]? = some vfl ∧ vecBusy (t.modCore 0 fun k => { k with vec := [vfl] }) 0 = true ∧ vecBusy (t.modCore 0 fun k => { k with vec := [] }) 0 = false
       ∧ t.me.run = .parked .vector ∧ t.me.trapPend = none ∧ w0.me.run ≠ .parked .vector) := by decide
/-- Grouping 8: 24 names a group, 25 does not. -/
def w8 : State := wc w0 fun c => { c with g := 3 }
theorem test_hyp_vectors : vready w8 = true ∧ aligned w8 24 = true ∧ aligned w8 25 = false ∧ aligned w0 31 = true ∧ rmSelect w8 7 = some .rne ∧ calm w8 = true
    ∧ (24 : Reg).toNat % 2 ^ (3 : BitVec 2).toNat = 0 ∧ 256 ≤ 2 ^ (3 : BitVec 2).toNat * 1024 / 32 ∧ Ty.isInt .i8 = true ∧ Ty.isInt .f32 = false := by decide
theorem test_hyp_firstHit : ((List.range 32).filter fun i => (5#1024 <<< 4).getLsbD i) = 4 :: [6] ∧ ((List.range 32).filter fun i => (0#1024).getLsbD i) = [] := by decide
/-- Four 16-bit elements; the last of the first load is the last of the mapped gigabyte, and the second load leaves it. -/
def wv (a : Nat) : State := wx (wc w0 fun c => { c with vl := 4, sew := 16 }) [(11, a), (12, 2)]
theorem test_hyp_vectorMemory : let s := wv 0x3FFFFFF8
    vready s = true ∧ s.me.csr.vinflt = 0 ∧ quiet s = true
    ∧ isOk (overElems (vloadElem 8 16 (fun v i => getX v 11 + BitVec.ofNat 64 (i * 2)) fun _ => 2) [0, 1, 2, 3] (begun s 8)) = true
    ∧ isOk (overElems (vstoreElem (getGroup (begun s 8) 0 13) 16 (fun v i => getX v 11 + BitVec.ofNat 64 (i * 2)) fun _ => 2) [0, 1, 2, 3] (begun s 8)) = true
    ∧ isOk (overElems (vloadElem 8 16 (fun v i => getX v 11 + BitVec.ofNat 64 (i * 2)) fun _ => 2) [0, 1, 2, 3] (begun (wv (ls 0x10FFC)) 8)) = false
    ∧ isOk (overElems (vstoreElem (getGroup (begun s 8) 0 13) 16 (fun v i => getX v 11 + BitVec.ofNat 64 (i * 2)) fun _ => 2) [0, 1, 2, 3] (begun (wv (ls 0x10FFC)) 8)) = false := by decide
theorem test_hyp_vectorElements : let s := wv 0x3FFFFFF8
    lands (resolve (begun s 8) .vload 0x3FFFFFFE 2 rRead 2 (some 3) 2) 0x3FFFFFFE = true ∧ lands (resolve (begun s 8) .vstore 0x3FFFFFFE 2 rWrite 2 (some 3) 2) 0x3FFFFFFE = true
    ∧ segCheck (begun s 8).myGang (BitVec.ofNat 64 (ls 0x11000)) 2 rRead = .error (cSEG_LIMIT, BitVec.ofNat 64 (ls 0x11000)) ∧ 16 ∈ [8, 16, 32] := by decide
/-- Elements in the cell's own local store, of each kind of address. -/
def wown : State := wv (ls 0x100)
def ownsElem (s : State) (w right : Nat) (ea : Word) : Bool :=
  ea.toNat % (w / 8) == 0 && match segCheck s.myGang ea (w / 8) right with
    | .ok dva => bit dva 56 && (match aperture s s.me.gang .vload dva (w / 8) with | .key _ => true | _ => false)
    | .error _ => false
theorem test_hyp_vectorOwn : vready wown = true ∧ wown.me.csr.vinflt = 0
    ∧ ([0, 1, 2, 3].all fun i => ownsElem wown 16 rRead (rdX wown 11 + BitVec.ofNat 64 (i * 2)) && ownsElem wown 16 rWrite (rdX wown 11 + BitVec.ofNat 64 (i * 2))
        && ownsElem wown 16 rRead (rdX wown 11 + BitVec.ofNat 64 (elem (getGroup wown wown.me.g 12) 16 i * 2))) = true := by decide
theorem test_hyp_vectorConfig : let s := wx w0 [(11, 40), (12, 0x8000), (13, 0)]
    let t := { s.poke 0x8000 [7] with cores := [] }
    let b := w0.modCore 0 fun k => { k with vec := [vfl] }
    calm t = true ∧ quiet t = true ∧ t.me.since = none ∧ rdX t 11 ≠ 0 ∧ rdX w0 11 = 0 ∧ lands (resolve (begun t 8) .load (rdX t 12) 8 rRead 8) 0x8000 = true
    ∧ t.readNat 0x8000 8 = 7 ∧ s.readNat 0x8000 8 = 0 ∧ calm s = true ∧ s.myGang.st ≠ .landing ∧ vecBusy b b.cur = true ∧ vecBusy w0 w0.cur = false ∧ calm b = true := by decide
/-- The gang holds its core's lease. -/
def wm : State := w0.modCore 0 fun k => { k with holder := some 3, occupant := some 3, qleft := 5 }
/-- Row 2 and column 0 active: infinity times zero stops a held step at row 2; with no element active nothing stops it. -/
theorem test_hyp_matrixSteps : (List.replicate 4096 (0 : W32)).length = 4096
    ∧ ((applyStep .bf16bf16 true 0x10000 1 false (4 + 2 ^ 64) .zero (zeros 4 ++ [0x80, 0x7F]) [] 0 (List.replicate 4096 0)).2.2.map (·.1)) = some 2
    ∧ (applyStep .bf16bf16 true 0x10000 1 false 0 .zero [] [] 0 []).2.2.isNone = true := by decide
theorem test_hyp_matrix : mready wm = true ∧ declared wm 3 = true ∧ aligned wm 8 = true ∧ wm.me.csr.mstate.getLsbD 63 = false ∧ wm.myGang.hdr.accm ≠ 0
    ∧ isHeld wm.me = false ∧ isHeld (wcsr wm fun c => { c with qfcsr := 0x10000 }).me = true := by decide
/-- Operands in local store, with the OCS word. -/
def wmx : State := wcsr (wx wm [(10, ls 0x1000), (11, 64 + 3 * 2 ^ 16), (12, ls 0), (13, 0), (14, ls 0x400), (15, 0), (16, ls 0x3000)]) fun c => { c with mocsig := BitVec.ofNat 64 (ls 0x800) }
theorem test_hyp_mopa : let s := wmx
    mready s = true ∧ declared s 1 = true ∧ isOk (checkPieces (begun s 8) rAtomic [(s.me.csr.mocsig, 8)]) = true
    ∧ (match ocsTarget (begun s 8) true with | .ok (_, k) => k == some (lsKey 0 0x800) | .error _ => false) = true
    ∧ [((12 : Reg), (0 : Nat)), (14, 1)].all (fun e => isOk (checkPieces (begun s 8) rRead (sidePieces .bf16 (rdX s e.1) (rdX s (e.1 + 1)) 1))
        && isOk (sideAlign (begun s 8) (rdX s e.1) (rdX s (e.1 + 1))) && isOk (sideShape (begun s 8) .bf16 (rdX s (e.1 + 1)) e.2)) = true
    ∧ s.me.csr.qfcsr.getLsbD 21 = false := by decide
theorem test_hyp_drain : let s := wmx
    (rdX s 10).toNat % 64 = 0 ∧ bits (rdX s 11).toNat 15 0 % 64 = 0 ∧ (rdX s 11).toNat < 2 ^ 20
    ∧ ((List.range 16).all fun r => isOk (segCheck s.myGang (rdX s 10 + BitVec.ofNat 64 (r * 64)) (rowBytes .e4m3) rWrite)
        && decide (bits (rdX s 10 + BitVec.ofNat 64 (r * 64)).toNat 63 61 = 7)) = true
    ∧ isOk (segCheck s.myGang (rdX s 12) 16 rWrite) = true ∧ bits (rdX s 12).toNat 63 61 = 7 := by decide
theorem test_hyp_matrixMoves : let s := wmx
    aligned s 8 = true ∧ (63 : BitVec 6).toNat < 64 ∧ isOk (segCheck s.myGang (rdX s 16) 16384 rWrite) = true ∧ isOk (segCheck s.myGang (rdX s 16) 16384 rRead) = true
    ∧ (rdX s 16).toNat % 64 = 0 ∧ 6 ≤ bits (rdX s 16).toNat 63 61 ∧ calm s = true := by decide
theorem test_hyp_mrstr : (((leased wmx).writesAfter wmx.me.floor (ownKey wmx.myGang (rdX wmx 16)) 16384).isEmpty) = true := by decide
/-- Another gang holds the lease; the gang of the cell waits for it. -/
def wlease : State := w0.modCore 0 fun k => { k with holder := some 7, leaseQ := [3], qleft := 1 }
def rec0 : MatRec := { enc := (qv 0x11 0 1 ⟨1, false⟩ 1 12 14 0 0).pack, pc := 0x10000, xa := BitVec.ofNat 64 (ls 0), xa1 := 0, xb := BitVec.ofNat 64 (ls 0x400), xb1 := 0, mocsig := 0, mask := 0, fc := 0, step := 0, held := false, cell := 0 }
def wunit (consumed : Bool) (r : MatRec) : State := wm.modCore 0 fun k => { k with unit := some { cell := 0, gang := 3, mopa := some r, consumed } }
/-- A MOPA with a signal word, behind a store of its cell (or not); a load in the unit; the wait list's head with its tile image refused. -/
theorem test_hyp_unit_ocs : let s := { wm.modCore 0 fun k => { k with unit := some { cell := 0, gang := 3, mopa := some rec0, ocs := some (lsKey 0 0x800), mark := 9 } } with posted := wpost.posted }
    (s.core 0).unit.isSome = true ∧ outstandingTo s 0 3 false (some 9) = true ∧ outstandingTo { s with posted := [] } 0 3 false (some 9) = false
    ∧ ((wm.modCore 0 fun k => { k with unit := some { cell := 0, gang := 3, consumed := true, load := some (1, 0) } }).core 0).unit.isSome = true := by decide
theorem test_hyp_lease_images : imageRefused w0 0 3 = none ∧ (w0.core 0).occupant = none := by decide
theorem test_hyp_lease : declared w0 3 = true ∧ ((leased wlease).core 0).holder = some 7 ∧ (7 ≠ w0.me.gang)
    ∧ (let k := { wlease.core 0 with qleft := 0 }; k.holder = some 7 ∧ k.qleft = 0 ∧ k.leaseQ ≠ [] ∧ unitOf k 7 = false)
    ∧ (let s := (w0.modCore 0 fun k => { k with leaseQ := [3] }).modCell 0 fun c => { c with run := .parked .lease }
       (s.core 0).leaseQ = 3 :: [] ∧ (s.core 0).holder = none ∧ (s.core 0).unit = none ∧ (s.gang 3).mrec = none
       ∧ (s.gang 3).cells.filter (fun c => (s.cell c).run == .parked .lease) = 0 :: []) := by decide
theorem test_hyp_unit : let s := wunit false rec0
    (s.core 0).unit = some { cell := 0, gang := 3, mopa := some rec0, consumed := false } ∧ (runMopa s 0 4096 { cell := 0, gang := 3, mopa := some rec0 } rec0).2 = none
    ∧ ((wunit true rec0).core 0).unit = some { cell := 0, gang := 3, mopa := some rec0, consumed := true }
    ∧ (s.gang 3).st ≠ .retired ∧ ((wg s fun g => { g with st := .retired }).gang 3).st = .retired ∧ outstandingTo s 0 3 false (some 0) = false
    ∧ ((wc s fun c => { c with stage := 1 }).cell 0).stage = 1 := by decide
/-- Words in local store and in memory. -/
def wsync : State := wx w0 [(10, ls 0x100), (11, 5), (12, 0x8000), (13, 1000)]
theorem test_hyp_qamo : let s := wsync
    calm s = true ∧ quiet s = true ∧ memOk s = true ∧ lands (resolve (begun s 8) .atomic (rdX s 10) 8 rAtomic 8) (lsKey 0 0x100) = true
    ∧ lands (resolve (begun s 8) .atomic (rdX s 12) 4 rAtomic 4) 0x8000 = true ∧ lands (resolve (begun s 8) .atomic (rdX s 12) 8 rAtomic 8) 0x8000 = true
    ∧ lands (resolve (begun s 8) .atomic (rdX s 10) 4 rAtomic 4) (lsKey 0 0x100) = true ∧ calm wpost = true ∧ quiet wpost = false := by decide
theorem test_hyp_signals : let s := wsync
    lands (resolve (begun s 8) .load (rdX s 10) 8 rRead 8) (lsKey 0 0x100) = true ∧ s.me.since = none ∧ rdX s 13 ≠ 0
    ∧ (BitVec.ofNat 64 (s.readNat (lsKey 0 0x100) 8)).slt (rdX s 11) = true ∧ s.myGang.hdr.cor = false := by decide
/-- A parked cell with a limit, for each kind of wait. -/
def wlim (w : Wait) : State := wc w0 fun c => { c with run := .parked w, limit := some (7, 0x55), since := some 3 }
theorem test_hyp_limits : (wlim .wgrecv).me.limit = some (7, 0x55) ∧ (wlim .wgrecv).me.run = .parked .wgrecv ∧ (wlim (.bar .gang 5)).me.run = .parked (.bar .gang 5)
    ∧ (wlim (.signal 8 true)).me.run = .parked (.signal 8 true) ∧ (wlim (.signal 8 false)).me.run = .parked (.signal 8 false)
    ∧ (wlim (.frame 8)).me.run = .parked (.frame 8) ∧ (wlim (.word 8)).me.run = .parked (.word 8) ∧ (wlim (.wgsend 8)).me.run = .parked (.wgsend 8) := by decide
/-- An episode at the gang's barrier, of two cells or of one. -/
def wbar (cells : List Nat) : State :=
  { wg w0 fun g => { g with cells } with bars := [{ level := .gang, key := 3, arrived := [(3, 0)] }], cells := cells.map fun k => (k, { (w0.cell 0) with j := k, run := if k = 0 then .parked (.bar .gang 0) else .ready }) }
theorem test_hyp_barriers : (wbar [0]).bars.find? (fun e => e.level == .gang && e.key == 3) = some { level := .gang, key := 3, arrived := [(3, 0)] }
    ∧ (participants (wbar [0]) .gang 3).all (fun p => [(3, 0)].contains p) = true ∧ (participants (wbar [0, 1]) .gang 3).all (fun p => [(3, 0)].contains p) = false
    ∧ ((wbar [0]).gang 3).saved = none ∧ ((wbar [0]).gang 3).cells[0]? = some 0 ∧ ((wbar [0]).cell 0).run = .parked (.bar .gang 0) := by decide
def full? (s : State) : Bool := s.full (lsKey 0 0x100)
def tagged (r : Op Target) (k : Nat) : Bool := match r with | .ok (.key k') => k' == k | _ => false
theorem test_hyp_tagged : let s := wsync
    let e := s.setFull (lsKey 0 0x100) false
    tagged (taggedWord (begun s 8) (rdX s 10) rRead) (lsKey 0 0x100) = true ∧ tagged (taggedWord (begun s 8) (rdX s 10) rWrite) (lsKey 0 0x100) = true
    ∧ full? s = true ∧ full? e = false ∧ calm e = true ∧ quiet e = true ∧ tagged (taggedWord (begun e 8) (rdX e 10) rRead) (lsKey 0 0x100) = true := by decide
def wmail (n : Nat) : State := wc (wx w0 [(13, 9)]) fun c => { c with mbox := List.replicate n { lo := 1, value := 2 } }
theorem test_hyp_waggles : (rdX (wmail 0) 11).toNat < 2 ^ 13 ∧ (Tab.find (wmail 0).cells (rdX (wmail 0) 11).toNat).isSome = true
    ∧ ((wmail 0).launch ((wmail 0).gang (wmail 0).me.gang).launch).part = (wmail 0).myLaunch.part ∧ (wmail 0).me.mbox = []
    ∧ (wmail 15).me.mbox.length < 16 ∧ 16 ≤ (wmail 16).me.mbox.length ∧ (wmail 1).me.mbox = { lo := 1, value := 2 } :: [] ∧ (wmail 1).wgq = [] := by decide
/-- A descriptor of a rank-1 tensor of f32 at 0x20000: 16 elements, a box of 16. -/
def wdesc : List Byte := leBytes 0x20000 8 ++ [1, 1, 0, 0] ++ zeros 4 ++ ([16, 1, 1, 1].map (leBytes · 4)).flatten ++ zeros 24 ++ ([16, 1, 1, 1].map (leBytes · 2)).flatten
/-- A cell about to issue a tile copy: the descriptor at 0x9000, the tile at LS 0x400, a signal word or frame header in x13. -/
def wcopy (x13 x14 : Nat) : State :=
  (wx w0 [(10, 0x9000), (11, 0), (12, ls 0x400), (13, x13), (14, x14)]).poke 0x9000 wdesc
/-- A frame at LS 0x1000: 4 slots of 1 unit, `free` free and `filled` filled. -/
def wframe (s : State) (free filled : Nat) : State :=
  s.poke (lsKey 0 0x1000) ((([4, 1, free, filled, 0, 0].map (leBytes · 2)).flatten) ++ zeros 52)
def copyOf (s : State) (q : Q64) : Copy :=
  let ord := q.imm.getLsbD 3 || s.me.copyFenced
  { id := s.nextId, cell := s.cur, gang := s.me.gang, enc := q.pack, xa := rdX s q.a, xb := rdX s q.b, xc := rdX s q.c, xd := rdX s q.d, xd1 := rdX s (q.d + 1)
    desc := s.read 0x9000 64, asid := s.myLaunch.asid, launch := s.myGang.launch, held := ord, hold := s.nextId, floor := if ord then s.me.floor else s.me.start
    known := if ord then s.me.known else [] }
def ok? {α : Type} (r : Op α) : Bool := match r with | .ok _ => true | _ => false
theorem test_hyp_copy_issue : let s := wcopy (ls 0x800) 0
    calm s = true ∧ quiet s = true ∧ segCheck s.myGang (rdX s 10) 64 rRead = .ok 0x9000 ∧ (rdX s 10).toNat % 64 = 0 ∧ 0x9000 % 65536 + 64 ≤ 65536
    ∧ lands (resolveDva (begun s 8) .load (rdX s 10) 0x9000 64 none 0) 0x9000 = true ∧ (s.core 0).copies.length < 32 := by decide
theorem test_hyp_copy_block : let s := wcopy (ls 0x800) 0
    ((s.writesAfter s.me.floor 0x9000 64).isEmpty) = true ∧ isOk (loadBlock (begun s 8) (rdX s 10) 0x9000 64 0) = true
    ∧ ((s.core 0).copies.filter fun x => x.cell == s.cur && x.gang == s.me.gang).length < 16 := by decide
theorem test_hyp_copy_plain : let s := wcopy (ls 0x800) 0
    let c := copyOf s (copyQ 10 11 (.signal 12 13 .die) false false)
    c.td.ok = true ∧ c.act = 1 ∧ c.mc = false ∧ ok? (tensorSide s c.td (rRead + rCopy)) = true ∧ ok? (tileSide s c.xc c.td.size (rWrite + rCopy) c.td) = true
    ∧ ok? (signalOperand s c.xd) = true := by decide
theorem test_hyp_copy_waggle : let s := wcopy 0 0
    let c := copyOf s (copyQ 10 11 (.waggle 12 13 .die) false true)
    c.td.ok = true ∧ c.act = 2 ∧ c.out = true ∧ ok? (tensorSide s c.td (rWrite + rCopy)) = true ∧ ok? (tileSide s c.xc c.td.size (rRead + rCopy) c.td) = true
    ∧ ok? (waggleOperand s c.xd) = true := by decide
theorem test_hyp_copy_multicast : let s := wcopy 1 (ls 0x800)
    let c := copyOf s (qs 0x18 1 13 10 11 12 (copyImm Scope.die.code false false 1))
    c.td.ok = true ∧ c.act = 1 ∧ c.mc = true ∧ c.out = false ∧ ok? (tensorSide s c.td (rRead + rCopy)) = true ∧ ok? (tileSide s c.xc c.td.size (rWrite + rCopy) c.td) = true
    ∧ ok? (multicastOperand s c.xc c.xd) = true ∧ ok? (signalOperand s c.xd1) = true := by decide
theorem test_hyp_copy_frame : let s := wframe (wcopy (ls 0x1000) 0) 4 0
    let c := copyOf s (copyQ 10 11 (.frame 13 .die) false false)
    c.td.ok = true ∧ c.act = 3 ∧ ok? (tensorSide s c.td (rRead + rCopy)) = true ∧ ok? (frameHeader s c.xd) = true ∧ frameBad s (lsKey 0 0x1000) = false
    ∧ c.td.size ≤ frGet s (lsKey 0 0x1000) 2 * 64 ∧ ok? (tileSide s (c.xd + 64) (4 * 1 * 64) (rWrite + rCopy) c.td) = true := by decide
def wq : Q64 := copyQ 10 11 (.signal 12 13 .die) false false
/-- A machine whose core's engine holds the given copies. -/
def weng (s : State) (l : List Copy) : State := s.modCore 0 fun k => { k with copies := l }
def wcp (s : State) (q : Q64) (st : Nat) : Copy := { copyOf s q with id := 77, st }
def stops (r : Copy × Option CopyStop) : Bool := r.2 == none
theorem test_hyp_copy_start : let s := wcopy (ls 0x800) 0
    let c := wcp s wq 0
    let t := weng s [c]
    (t.core 0).copies[0]? = some c ∧ ((t.core 0).copies.take 0).all (fun x => x.st != 0) = true ∧ heldBack t c = false
    ∧ (fetchRows t (({ c with st := 1 } : Copy).ready t) (List.range c.td.rows)).2 = none ∧ ((t.core 0).copies.filter fun x => x.runs t (t.core 0)).length < 8
    ∧ heldBack { weng wpost [{ c with held := true, hold := 1 }] with cur := 0 } { c with held := true, hold := 1 } = true := by decide
/-- A copy whose tensor is at a page that is not present. -/
def wfar : Copy := let s := wcopy (ls 0x800) 0; { wcp s wq 0 with desc := leBytes (2 ^ 50) 8 ++ wdesc.drop 8 }
def waits (r : Option CopyStop) : Bool := match r with | some (.wait ..) => true | _ => false
theorem test_hyp_copy_waits : waits (fetchRows (weng (wcopy (ls 0x800) 0) [wfar]) (({ wfar with st := 1 } : Copy).ready w0) (List.range wfar.td.rows)).2 = true := by decide
theorem test_hyp_copy_complete : let s := wcopy (ls 0x800) 0
    let c := wcp s wq 1
    let t := weng s [c]
    let s2 := setCopy (moveCopy t c).1 0 (moveCopy t c).2.1
    c.st = 1 ∧ heldBack t c = false ∧ behindEarlier t (t.core 0) c = false ∧ (moveCopy t c).2.2 = none
    ∧ behindAction s2 (s2.core 0) (moveCopy t c).2.1 = false ∧ behindAction { t with posted := wpost.posted } (t.core 0) c = true
    ∧ isOk (completeAction s2 0 (moveCopy t c).2.1) = true ∧ isHbm (lsKey 0 0x800) = false ∧ isLs (lsKey 0 0x800) = true ∧ lsCore (lsKey 0 0x800) = (t.gang 3).core ∧ look t 3 .atomic (eaDva (t.gang 3) c.xd) 8 = .key (lsKey 0 0x800) := by decide
def wfc (free filled st : Nat) : State × Copy :=
  let s := wframe (wcopy (ls 0x1000) 0) free filled
  let c := wcp s (copyQ 10 11 (.frame 13 .die) false false) st
  (weng s [c], c)
theorem test_hyp_copy_frame_slot : let t := (wfc 1 0 2).1
    let c := (wfc 1 0 2).2
    c.act = 3 ∧ c.frame t = some (lsKey 0 0x1000) ∧ c.st = 2 ∧ 0 < frGet t (lsKey 0 0x1000) 4 ∧ earlierFill t (t.core 0) c (fun x => x.st == 2) = false := by decide
/-- A copy whose tile side no gang may write any more. -/
def wdenied : Copy := let s := wcopy (ls 0x800) 0; { wcp s wq 1 with xc := BitVec.ofNat 64 (ls 0x7000000) }
def fails (r : Option CopyStop) : Bool := match r with | some (.fail (.denied _)) => true | _ => false
theorem test_hyp_copy_fails : fails (moveCopy (weng (wcopy (ls 0x800) 0) [wdenied]) wdenied).2.2 = true := by decide
/-- A copy whose tensor is in host memory. -/
def whost : State × Copy :=
  let s := (wcopy (ls 0x800) 0).poke 0x3008 (leBytes 0x46D 8)
  let c := { wcp s wq 1 with desc := leBytes (2 ^ 30 + 0x20000) 8 ++ wdesc.drop 8 }
  (weng s [c], c)
theorem test_hyp_copy_fabric : fabricAt whost.1 whost.2 (BitVec.ofNat 64 (2 ^ 30 + 0x20000)) = some .host ∧ whost.2.st = 1 ∧ heldBack whost.1 whost.2 = false ∧ whost.2.moved = false := by decide
theorem test_hyp_copy_waggle_room : behindWaggle ((wmail 3).core 0) { wfar with xd := 0 } = false ∧ Tab.find (wmail 3).cells (bits (0 : Word).toNat 12 0) = some ((wmail 3).cell 0) ∧ ((wmail 3).cell 0).mbox.length < 16 ∧ 16 ≤ ((wmail 16).cell 0).mbox.length := by decide
/-- The FRM group at the same frame. -/
def wfrm (free filled : Nat) : State := wframe (wx w0 [(10, ls 0x1000), (11, 65536 + 4)]) free filled
theorem test_hyp_frames : let s := wfrm 4 0
    calm s = true ∧ quiet s = true ∧ (rdX s 10).toNat % 64 = 0 ∧ bits (rdX s 10).toNat 63 61 = 7 ∧ bits (rdX s 10).toNat 60 0 + 64 ≤ s.myGang.hdr.lsu * 4096
    ∧ isOk (segCheck s.myGang (rdX s 10) (64 + 4 * 1 * 64) rWrite) = true ∧ frameBad s (lsKey 0 0x1000) = false ∧ frGet s (lsKey 0 0x1000) 6 = 0
    ∧ frGet s (lsKey 0 0x1000) 0 ≤ frGet s (lsKey 0 0x1000) 4 + frGet s (lsKey 0 0x1000) 6 ∧ frGet (wfrm 2 1) (lsKey 0 0x1000) 6 ≠ 0
    ∧ frGet (wfrm 2 1) (lsKey 0 0x1000) 4 + 1 < 4 := by decide
theorem test_hyp_frame_busy : ∃ c ∈ ((weng (wfrm 4 0) [(wfc 4 0 1).2]).core 0).copies, c.gang = 3 ∧ c.frame (wfrm 4 0) = some (lsKey 0 0x1000) := by decide
/-- A queue of the cell's own partition: enabled, PROD, ring of 16 at 0x40000; `n` packets on it. -/
def wqueue (n : Nat) : State := (wx w0 [(10, 0x9000), (11, 0)]).modQueue 0 fun q =>
  { q with qbase := 0x40000, qctl := BitVec.ofNat 64 (2 ^ 63 + 256), state := 1, qrd := 0, qwr := n }
theorem test_hyp_launch : let s := wqueue 3
    let q := s.queue 0
    calm s = true ∧ quiet s = true ∧ launchTarget (begun s 8) (rdX s 11) = some 0 ∧ segCheck s.myGang (rdX s 10) 256 rRead = .ok 0x9000 ∧ q.qwr < 2 ^ 64
    ∧ q.qwr - q.qrd < q.ring ∧ isOk (appendSlot ((begun s 8).modMe fun v => { v with stage := 1 }) q (rdX s 11) (launchPacketOf 0x9000)) = true ∧ bit 0x9000 56 = false ∧ s.me.csr.hoqen = 0 := by decide
theorem test_hyp_launch_full : launchTarget (begun (wqueue 16) 8) (rdX (wqueue 16) 11) = some 0 ∧ (wqueue 16 |>.queue 0).ring ≤ (wqueue 16 |>.queue 0).qwr - (wqueue 16 |>.queue 0).qrd := by decide
/-- A LAUNCH that waited for room and has been woken. -/
def wwoken : State := wc (wqueue 3) fun c => { c with stage := 1 }
theorem test_hyp_launch_woken : calm (wwoken.modMe fun v => { v with stage := 0 }) = true ∧ wwoken.me.stage = 1 ∧ selectedQueue wwoken (rdX wwoken 11) = 0
    ∧ isOk (appendSlot (begun wwoken 8) (wwoken.queue 0) (rdX wwoken 11) (launchPacketOf (eaDva wwoken.myGang (rdX wwoken 10)))) = true ∧ wwoken.me.csr.hoqen = 0 := by decide
theorem test_hyp_icinv : (rdX (wx w0 [(10, 0x9000), (11, 65)]) 10).toNat + (rdX (wx w0 [(10, 0x9000), (11, 65)]) 11).toNat ≤ 2 ^ 57 ∧ (rdX (wx w0 [(10, 0x9000), (11, 65)]) 11).toNat ≠ 0
    ∧ (wlim (.icinv 0x9000 0x9040)).me.run = .parked (.icinv 0x9000 0x9040) := by decide
/-- A launch whose one gang has retired, and whose posted store is still to land. -/
def wover : State := let s := wl wpost fun l => { l with items := 1, hdr := { l.hdr with crec := 0xA000, csig := 0xA040 } }
  { s with gangs := Tab.del s.gangs 3, groups := Tab.del s.groups 2, cells := [] }
theorem test_hyp_launch_mopas : launchMopas wover 1 = false
    ∧ (let s := (wg { wover with gangs := w0.gangs } fun g => { g with st := .retired, cells := [] }).modCore 0 fun k => { k with unit := some { cell := 0, gang := 3, mopa := some rec0, ocs := some 0x8000 } }
       launchMopas s 1 = true ∧ launchEnded s 1 = true ∧ launchRemotes s 1 = false)
    ∧ (wover.launch 1).st ≠ .complete := by decide
theorem test_hyp_launch_complete : (Tab.find wover.launches 1).isSome = true ∧ (wover.launch 1).st = .running ∧ launchEnded wover 1 = true ∧ launchRemotes wover 1 = false := by decide
/-- A cell with SERIAL values left: level 0 of two values. -/
def wserial : State := let h (h : Hdr) : Hdr := { h with fmt0 := 10, fmt1 := 1 }; wg (wl w0 fun l => { l with hdr := h l.hdr }) fun g => { g with hdr := h g.hdr }
theorem test_hyp_retire : calm w0 = true ∧ copiesLeft (begun w0 8) 0 = false ∧ allFull (begun w0 8) 0 = true ∧ w0.me.asyncs = [] ∧ nextWid (countItem (begun w0 8)) = none
    ∧ copiesLeft (begun (weng w0 [wcp w0 wq 0]) 8) 0 = true
    ∧ allEnded ((haltCell (countItem (begun w0 8))).modGang 3 fun g => { g with claim := none, plain := true }) 3 = true := by decide

theorem test_hyp_retire_serial : calm wserial = true ∧ nextWid (countItem (begun wserial 8)) = some 1 ∧ copiesLeft (begun wserial 8) 0 = false ∧ allFull (begun wserial 8) 0 = true := by decide
/-- An heir of full state in DELTA form: entry 0x20000, LS and tiles as before, x10 and x11 pass. -/
def wheirD : List Byte := [1, 1, 0, 0, 0, 0, 0, 0] ++ leBytes (2 ^ 10 + 2 ^ 11) 4 ++ zeros 12 ++ leBytes 0x20000 8 ++ zeros 8 ++ [0xFF, 0, 0, 0, 0, 0, 0, 0] ++ zeros 80
def wheir (d : List Byte) : State := (wx w0 [(10, 0x9000), (11, 77)]).poke 0x9000 d
def heirRead (s : State) : Option (State × List Byte × Hdr) :=
  match readHeir ((begun s 8).modGang 3 fun g => { g with claim := some 0x9000 }) (rdX s 10) 0x9000 with | .ok r => some r | .error _ => none
theorem test_hyp_retire_heir : let s := wheir wheirD
    calm s = true ∧ segCheck s.myGang (rdX s 10) 128 rRead = .ok 0x9000 ∧ (rdX s 10).toNat % 64 = 0 ∧ nextWid (begun s 8) = none ∧ s.myGang.claim = none ∧ s.myGang.plain = false
    ∧ (∀ c ∈ s.myGang.cells, c ≠ s.cur → (s.cell c).run = .done)
    ∧ ((heirRead s).map fun r => (heirBad r.2.1, heirTest r.1 3 r.2.1 r.2.2)) = some (none, none) := by decide
theorem test_hyp_retire_heir_bad : ((heirRead (wheir (2 :: wheirD.drop 1))).map fun r => heirBad r.2.1) = some (some 0)
    ∧ ((heirRead (wheir (wheirD.take 4 ++ [1] ++ wheirD.drop 5))).map fun r => heirBad r.2.1) = some none := by decide
/-- A withdrawn object whose older launches have gone. -/
def wobj (gen unm : Bool) : State :=
  { w0 with launches := [], objects := [(9, { part := 0, asid := 0, text := 0, textSz := 0, rd := 0, rdSz := 0, data := 0, dataSz := 0, ktab := 0, rev := 0, nkern := 0, refs := 0, gen, ugen := some 4, unmapped := unm })] }
theorem test_hyp_objects : ∀ g u, ((Tab.find (wobj g u).objects 9).map fun o => (o.ugen, noOlder (wobj g u) o 4, o.unmapped, o.gen)) = some (some 4, true, u, g) := by decide
theorem test_hyp_handover : (((w0.modGang 3 fun g => { g with st := .handover, heir := some (wheirD, {}) }).gang 3).st = .handover)
    ∧ handoverBusy (w0.modGang 3 fun g => { g with st := .handover, heir := some (wheirD, {}) }) 3 = false := by decide
/-- A brood descriptor: two siblings, quorum 1, a copy-on-write region of one page at 0x100000, views at 1 GiB. -/
def wbrd : List Byte := [1, 0, 2, 0, 1, 0, 0, 0] ++ leBytes 0x100000 8 ++ leBytes 0x10000 8 ++ leBytes (2 ^ 30) 8 ++ leBytes 0x10000 8 ++ zeros 64 ++ leBytes 0xA000 8 ++ zeros 144
def wfork : State := ((((wx w0 [(10, 0x9000)]).poke 0x3008 (leBytes 0x4001 8)).poke 0x4000 (leBytes 0x5001 8)).poke 0x9000 wbrd).poke 0xA000 (zeros 16 ++ [4] ++ zeros 239)
def forked : Option (State × State × List Nat) :=
  match loadBlock (begun wfork 8) (rdX wfork 10) 0x9000 256 0 with
  | .ok (s1, _, n1) => match loadBlock s1 0xA000 0xA000 256 n1 with
    | .ok (s2, _, _) => match cowPieces s2 0 0x100000 [0] with | .ok (s3, p) => some (s2, s3, p) | .error _ => none
    | .error _ => none
  | .error _ => none
theorem test_hyp_fork : calm wfork = true ∧ quiet wfork = true ∧ segCheck wfork.myGang (rdX wfork 10) 256 rRead = .ok 0x9000 ∧ broodBad (wfork.read 0x9000 256) = none
    ∧ templateBad 2 0 (hdrOf (wfork.read 0xA000 256)) = none ∧ ((wfork.myGang.segment 0).1.toNat + 0x100000) % 65536 = 0
    ∧ (forked.map fun r => r.2.2 == [0x100000] && level4At r.2.1 0 (2 ^ 30) == some 0x5000 && !pteV (r.2.1.readNat 0x5000 8) && level4At r.2.1 0 (2 ^ 30 + 0x10000) == some 0x5008
        && !pteV (r.2.1.readNat 0x5008 8) && freeEntry r.2.1 0 == some 0 && Tab.getD r.2.1.bgen 0 1 == 1) = some true := by decide
theorem test_hyp_fork_seen : (forked.map fun r => (r.1.me == { (begun wfork 8).me with got := r.1.me.got }, r.1.posted == (begun wfork 8).posted)) = some (true, true) := by decide
/-- Sibling 1 of a running brood of two, with handle 4096. -/
def wbrood (st0 st1 : Nat) : State := wl { wx (wf w0 [(10, 0x3F800000)]) [(10, 4096), (11, 1)] with
  broods := [(0, { handle := 4096, part := 0, asid := 0, st := .running, desc := wbrd.take 0x38 ++ leBytes 900 8 ++ wbrd.drop 0x40, sibs := [{ status := st0 }, { status := st1, launch := some 1 }], clock := some 7 })] }
  fun l => { l with sib := some (4096, 1) }
theorem test_hyp_broods : let s := wbrood 0 0
    calm s = true ∧ quiet s = true ∧ s.myLaunch.sib = some (4096, 1) ∧ rdX s 10 = 4096 ∧ rdX s 11 = 1
    ∧ ((s.brood 4096).map fun x => x.st == .running && x.part == s.myLaunch.part && (x.sibAt 1).status == 0 && decide ((rdX s 11).toNat < x.g) && !x.final && x.clock == some 7 && x.u 0x38 8 == 900) = some true := by decide
theorem test_hyp_broods_last : (((deposit (begun (wbrood 1 0) 8) 4096 1 (some 0x3F800000)).brood 4096).map fun x => x.st == .complete) = some true := by decide
theorem test_hyp_broods_waiting : (((deposit (begun (wbrood 0 0) 8) 4096 1 (some 0x3F800000)).brood 4096).map fun x => x.st == .complete) = some false := by decide
theorem test_hyp_broods_stale : (wx (wbrood 0 0) [(10, 8192)]).brood 8192 = none ∧ rdX (wx (wbrood 0 0) [(10, 8192)]) 10 = 8192 ∧ w0.myLaunch.sib = none := by decide
/-- A packet of 128 bytes: type and options, PSIG 0xA008, then its fields from 0x10 on. -/
def wpk (ty : Nat) (rest : List Byte) : List Byte := [BitVec.ofNat 8 ty, 0, 0] ++ zeros 5 ++ leBytes 0xA008 8 ++ rest ++ zeros (112 - rest.length)
/-- The packet at the head of queue 0, with no launch left. -/
def wpkt (d : List Byte) : State := { ((wqueue 1).poke 0x40000 d) with launches := [], objects := [(9, { part := 0, asid := 0, text := 0, textSz := 0, rd := 0, rdSz := 0, data := 0, dataSz := 0, ktab := 0, rev := 0, nkern := 0, refs := 2, gen := false })] }
def reads (r : Except UStop (List Byte)) (d : List Byte) : Bool := match r with | .ok b => b == d | .error _ => false
def deniedU {α : Type} (r : Except UStop α) : Bool := match r with | .error .denied => true | _ => false
/-- The queue's turn has come, and its packet is well formed (or not). -/
def duePk (d : List Byte) (ok : Bool) : Bool :=
  let s := wpkt d
  takeable s 0 && dueQueue s 0 == some 0 && reads (readPacket s 0) d && badPacket d == !ok
def pWaitsig (v : Nat) : List Byte := wpk 2 (leBytes 0x8000 8 ++ [0] ++ zeros 7 ++ leBytes v 8 ++ leBytes 500 8)
def pSetsig : List Byte := wpk 3 (leBytes 0x8000 8 ++ [1] ++ zeros 7 ++ leBytes 5 8)
def pLoad (h : Nat) : List Byte := wpk 4 (zeros 16 ++ leBytes 0xA040 8 ++ leBytes h 4)
def pFile : List Byte := wpk 4 (leBytes 0xB000 8 ++ leBytes 64 8 ++ leBytes 0xA040 8)
theorem test_hyp_packets_due : duePk (wpk 7 []) false = true ∧ duePk (wpk 1 (leBytes 0x9000 8)) true = true ∧ duePk (pWaitsig 0) true = true ∧ duePk pSetsig true = true
    ∧ duePk (pLoad 9) true = true ∧ duePk (pLoad 8) true = true ∧ duePk pFile true = true ∧ duePk (wpk 5 (leBytes 9 4)) true = true ∧ duePk (wpk 6 []) true = true := by decide
theorem test_hyp_packets_denied : let s := (wqueue 1).modQueue 0 fun q => { q with qbase := BitVec.ofNat 64 (2 ^ 56) }
    takeable s 0 = true ∧ dueQueue s 0 = some 0 ∧ deniedU (readPacket s 0) = true := by decide
theorem test_hyp_packets_operands : reads (unitRead (wpkt (pWaitsig 0)) 0 0 0x8000 8) (zeros 8) = true ∧ sigCond 0 0 0 = true ∧ sigCond 0 0 (signedOf 64 (pkt (pWaitsig 1) 0x20 8)) = false
    ∧ isOk (unitSignal (wpkt pSetsig) 0 0 0x8000 true 5) = true ∧ (heldObject (wpkt (pLoad 9)) 0 9).isSome = true ∧ heldObject (wpkt (pLoad 8)) 0 8 = none
    ∧ launchesLeft (wpkt (wpk 6 [])) 0 = false ∧ launchesLeft { wpkt (wpk 6 []) with launches := w0.launches } 0 = true
    ∧ reads (unitRead (wpkt (wpk 1 (leBytes 0x9000 8))) 0 0 0x9000 256) (zeros 256) = true ∧ reads (unitRead (wpkt pFile) 0 0 0xB000 64) (zeros 64) = true := by decide
theorem test_hyp_packets_header : let s := wpkt (wpk 1 (leBytes 0x9000 8))
    reads (unitRead s 0 0 0x9000 256 (some (s.queue 0).floor)) (zeros 256) = true ∧ isOk (unitSignal (noteQueue (wpkt pSetsig) 0 0x8000 8 .atomic) 0 0 0x8000 true 5) = true := by decide
/-- A queue that waits for a word, or for its launches. -/
def wbusy (d : List Byte) (b : QBusy) : State := (wpkt d).modQueue 0 fun q => { q with busy := b, pkt := d }
theorem test_hyp_packets_waiting : ((wbusy (pWaitsig 1) (.waitsig 3)).queue 0).busy = .waitsig 3 ∧ ((wbusy (pWaitsig 1) (.waitsig 3)).queue 0).pkt = pWaitsig 1
    ∧ (Tab.find (wbusy (pWaitsig 1) (.waitsig 3)).queues 0).isSome = true ∧ pkt (pWaitsig 1) 0x28 8 ≠ 0 ∧ ((wbusy (wpk 6 []) .waits).queue 0).busy = .waits
    ∧ ((wbusy (wpk 6 []) .waits).queue 0).pkt = wpk 6 [] ∧ launchesLeft (wbusy (wpk 6 []) .waits) 0 = false := by decide
/-- A placed launch's group back on the pending list: a pending hive group and no gang; or an older resident launch of lower priority fills the core. -/
def wpend : State := { w0 with groups := [(2, { launch := 1, num := 0, dieGroup := 0, hive := 0, st := .waiting })], gangs := [], cells := [] }
/-- A resident gang that takes all of its hive's LS, of priority 3, and a pending group of priority 0. -/
def wfull : State :=
  let low (h : Hdr) : Hdr := { h with ctl0 := h.ctl0 + BitVec.ofNat 64 (51 * 2 ^ 48) }
  let s := wg w0 fun g => { g with hdr := low g.hdr }
  let gs := (List.range 16).map fun k => (3 + k, { s.gang 3 with core := k, hdr := low fixtureHdr, cells := [8 * k] })
  { s with launches := s.launches ++ [(50, { w0.launch 1 with st := .assigned, hdr := { fixtureHdr with ctl0 := fixtureHdr.ctl0 - 128 } })], gangs := gs, nextId := 60
           cells := (List.range 16).map (fun k => (8 * k, { w0.cell 0 with gang := 3 + k }))
           groups := s.groups ++ [(51, { launch := 50, num := 0, dieGroup := 0, hive := 0, st := .waiting })] }
def choiceOf (s : State) (die : Nat) : Option (Nat × Item × Cand) :=
  let s0 := (s.groups.map (·.1)).foldl rehome s
  (partOrder s0 die).findSome? fun p => (chooseIn s0 die p (candidates s0 (pending s0) p)).map fun e => (p, e)
def choiceKind (s : State) : Nat := match choiceOf s 0 with | some (_, _, .fits _) => 1 | some (_, _, .preempt _) => 2 | some (_, _, .waits) => 3 | none => 0
theorem test_hyp_placement : bits (wpend.mreg 0).toNat 3 0 = 8 ∧ (wpend.die 0).total < 4000 ∧ choiceKind wpend = 1 ∧ choiceKind w0 = 0 := by decide
theorem test_hyp_placement_preempts : choiceKind wfull = 2 := by decide
/-- The gang that must land, its one cell having had 4,096 turns. -/
def wland : State := wg (wc w0 fun c => { c with turns := 4096 }) fun g => { g with st := .landing }
theorem test_hyp_landing : Tab.find wland.cells 0 = some wland.me ∧ wland.me.run = .ready ∧ (wland.gang wland.me.gang).st = .landing ∧ 4096 ≤ wland.me.turns ∧ wland.me.reply = none := by decide
def wlanded : State := wc wland fun c => { c with run := .landed }
theorem test_hyp_save : (Tab.find wlanded.gangs 3).isSome = true ∧ (wlanded.gang 3).st = .landing ∧ allLanded wlanded (wlanded.gang 3) = true ∧ landingBusy wlanded 3 = false ∧ moveRefused wlanded 3 = none := by decide
def wpage (seq : Nat) : State := wc (wcsr w0 fun r => { r with ttvec := 0x700 }) fun c => { c with run := .parked (.page 0x8000 seq 0x55 none) }
theorem test_hyp_pager : Tab.find (wpage 4).cells 0 = some (wpage 4).me ∧ (wpage 4).me.run = .parked (.page 0x8000 4 0x55 none) ∧ (wpage 4).me.latch = [] ∧ (wpage 4).me.tlev = 0
    ∧ (wpage 4).me.csr.ttvec ≠ 0 ∧ vecBusy (wpage 4) 0 = false ∧ walkSlot w0 0 0x8000 = some (0x3000, 30) := by decide
/-- The same fault, at a record of a kind, in a retired range where `gone` says so. -/
def wretired (kind : Kind) (gone : Bool) : State :=
  let f : FaultRec := { who := .cell 0 4, dva := 0x8000, asid := 0, kind, flags := 0, refaults := 0, seq := 4, remain := 0, stride := 0 }
  let o : Obj := { part := 0, asid := 0, text := 0, textSz := 0x100, rd := 0, rdSz := 0, data := 0, dataSz := 0, ktab := 0, rev := 0, nkern := 0, refs := 0, gen := false, ugen := some 1 }
  { wpage 4 with faults := [f], objects := if gone then [(9, o)] else [] }
/-- Spec 20 R413: in a retired range a fetch is answered GONE and another access FATAL. -/
theorem test_pager_verdicts : pagerMay (wretired .fetch true) (.cell 0 4) .gone = true ∧ pagerMay (wretired .fetch true) (.cell 0 4) .retry = false
    ∧ pagerMay (wretired .load true) (.cell 0 4) .fatal = true ∧ pagerMay (wretired .load true) (.cell 0 4) .gone = false
    ∧ pagerMay (wretired .load false) (.cell 0 4) .retry = true ∧ pagerMay (wretired .fetch false) (.cell 0 4) .gone = false := by decide
/-- A view page whose prompt page is to be copied to 0x200000. -/
def wcow : State := { (wfork.poke 0x5000 (leBytes (0x110000 + 0x245) 8)).poke 0x110000 [7, 8] with
  cows := [{ asid := 0, dva := 2 ^ 30, leafAt := 0x5000, page := 0x200000, brood := 4096, sib := 0, hive := 0 }] }
theorem test_hyp_cow : wcow.cows[0]? = some { asid := 0, dva := 2 ^ 30, leafAt := 0x5000, page := 0x200000, brood := 4096, sib := 0, hive := 0 }
    ∧ wcow.refusedIn (pteAddr (wcow.readNat 0x5000 8)) 65536 = none ∧ memOk wcow = true ∧ wcow.refused = [] ∧ 0x110000 + 65536 ≤ 0x200000 := by decide
def walked (w : Walk) (m a n : Nat) : Bool := match w with | .leaf m' a' n' => m' == m && a' == a && n' == n | _ => false
theorem test_hyp_migration : walked (walk w0 0 0x8000) 0x7D 0x3000 30 = true ∧ pteTgt 0x7D = 0 ∧ 2 ^ 31 % 2 ^ 30 = 0 ∧ 2 ^ 31 + 2 ^ 30 ≤ 2 ^ 39 ∧ overlap (pteAddr 0x7D) (2 ^ 30) (2 ^ 31) (2 ^ 30) = false
    ∧ w0.cows = [] ∧ w0.posted = [] := by decide
/-- A request of the cell to LS of core 1, whose gang opens its LS by window 0 with the rights given (or to none). -/
def wrem (op : PortOp) (posted opened : Bool) (reply : Option (Bool × Word)) : State :=
  let win := if opened then [BitVec.ofNat 64 (15 * 2 ^ 60 + 64 * 2 ^ 32), 0, 0, 0] else [0, 0, 0, 0]
  let s := wc w0 fun c => { c with run := .parked (if posted then .copies else .remote 9) }
  { s with
    gangs := s.gangs ++ [(8, { s.gang 3 with core := 1, cells := [8], win })], cells := s.cells ++ [(8, { gang := 8 })]
    remotes := [(9, { cell := 0, gang := 3, key := lsKey 1 0x40, ea := 0x77, op, posted, reply, arrived := reply.isSome })] }
theorem test_hyp_remote_arrival : let s := wrem (.load 8) false true none
    let r := (Tab.find s.remotes 9).getD default
    (Tab.find s.remotes 9).isSome = true ∧ r.arrived = false ∧ streamOrder s 9 r (fun e => !e.arrived) = true ∧ streamOrder s 9 r (fun _ => true) = true ∧ r.acq = false ∧ r.mine s = true
    ∧ (s.writesAfter (s.orderedTo r.cell r.key 8) r.key 8).isEmpty = true ∧ remoteAllowed s r.gang r.key r.op.size r.op.right = true ∧ r.op = .load 8 := by decide
theorem test_hyp_remote_store : let s := wrem (.store [1, 2]) true true none
    let r := (Tab.find s.remotes 9).getD default
    r.op = .store [1, 2] ∧ remoteAllowed s r.gang r.key r.op.size r.op.right = true ∧ memOk s = true
    ∧ remoteAllowed (wrem (.store [1, 2]) true false none) r.gang r.key r.op.size r.op.right = false := by decide
theorem test_hyp_remote_reply : let s := wrem (.load 8) false true (some (true, 5))
    let r := (Tab.find s.remotes 9).getD default
    Tab.find s.cells r.cell = some (s.cell 0) ∧ (s.cell 0).gang = r.gang ∧ (s.cell 0).run = .parked (.remote 9) ∧ r.posted = false ∧ r.reply = some (true, 5)
    ∧ ((wrem (.store [1]) true true (some (false, 0))).cell 0).run = .parked .copies := by decide
theorem test_hyp_remote_atomic : let r := (Tab.find (wrem (.amo .add 8 1 0) false true none).remotes 9).getD default
    r.op = .amo .add 8 1 0 ∧ remoteAllowed (wrem (.amo .add 8 1 0) false true none) r.gang r.key r.op.size r.op.right = true ∧ r.arrived = false := by decide
/-- An acquiring load at the port. -/
theorem test_hyp_remote_acquire : let s := wrem (.load 8) false true none
    let t : State := { s with remotes := Tab.mapV s.remotes fun r => { r with acq := true } }
    ((Tab.find t.remotes 9).map fun r => r.acq && r.mine t && remoteAllowed t r.gang r.key r.op.size r.op.right) = some true := by decide
def wfab (home : Home) (acq : Option Scope) : State := wlim (.fabric home 0x4000 0x9000 8 acq)
def isFab (home : Home) (acq : Option Scope) : Bool :=
  Tab.find (wfab home acq).cells 0 == some ((wfab home acq).cell 0) && ((wfab home acq).cell 0).run == .parked (.fabric home 0x4000 0x9000 8 acq)
theorem test_hyp_fabric : isFab .host none = true ∧ isFab (.peer 3) (some .pod) = true ∧ (BitVec.ofNat 64 (eaDva ((wfab .host none).gang 3) 0x9000) : Word) = 0x9000 := by decide
/-- A store to a peer that has been sent and is not acknowledged. -/
def wpeer : State := { w0 with posted := [{ id := 4, home := .peer 3, cell := 0, gang := 3, launch := 1, pa := 0x4000, dva := 0x9000, op := .write [1] }] }
theorem test_hyp_posted : postedOut wpeer 0 0x9000 = wpeer.posted.head? ∧ peerPost wpeer 0 0x9000 = wpeer.posted.head? ∧ fabricWait wpeer 0 0x9000 Home.isPeer = false ∧ 0 ≠ noCell := by decide
/-- A posted store to host memory. -/
def whostPost : State := { w0 with posted := [{ id := 4, home := .host, cell := 0, gang := 3, launch := 1, pa := 0x4000, dva := 0x9000, op := .write [1] }] }
theorem test_hyp_posted_errors : postedOut whostPost 0 0x9000 = whostPost.posted.head? ∧ (whostPost.cell 0).run = .ready ∧ (wpeer.cell 0).run = .ready := by decide
/-- An update by a unit that a peer has not acknowledged; a copy of the cell whose rows are in host memory, or a peer's. -/
def wunitPost : State := { w0 with posted := [{ id := 4, home := .peer 3, cell := noCell, gang := 0, launch := 0, pa := 0x4000, dva := 0x9000, op := .amo .add 8 1 0 .none }] }
def wpeerCopy : State × Copy := let s := whost.1.poke 0x3008 (leBytes (0x86D + 3 * 2 ^ 44) 8); (s, whost.2)
theorem test_hyp_timeouts : peerPost wunitPost noCell 0x9000 = wunitPost.posted.head? ∧ (whost.1.core 0).copies[0]? = some whost.2 ∧ whost.2.moving whost.1 = true
    ∧ fabricAt wpeerCopy.1 wpeerCopy.2 (BitVec.ofNat 64 (2 ^ 30 + 0x20000)) = some (.peer 3) ∧ wpeerCopy.2.moving wpeerCopy.1 = true
    ∧ whost.1.cutOff 0 (look whost.1 3 .copyRead (2 ^ 30 + 0x20000) 1) = false := by decide
/-- A vector instruction in flight on core 0, and the groups that have failed. -/
def wvfl (l : List Nat) : State := w0.modCore 0 fun k => { k with laneFails := l, vec := [{ cell := 0, gang := 3, enc := 0, pc := 0, count := 4, step := 0, xa := 0, xb := 0, xc := 0 }] }
theorem test_hyp_lanes : ((wvfl []).core 0).vec[0]?.isSome = true ∧ ((wvfl []).core 0).laneFails = [] ∧ ((wvfl [2]).core 0).laneFails = [2] ∧ ((wvfl [2]).core 0).vec[0]?.isSome = true := by decide
theorem test_hyp_errors : Tab.find w0.cells 0 = some (w0.cell 0) ∧ lsOwner w0 0 0x40 = some 3 ∧ (w0.gang 3).st ≠ .retired ∧ (w0.gang 3).st ≠ .killed := by decide
theorem test_hyp_errors_places : ((w0.modCore 0 fun k => { k with occupant := some 3 }).core 0).occupant = some 3 ∧ ((wg w0 fun g => { g with st := .saved }).gang 3).st = .saved
    ∧ (0x8000 : Nat) < 2 ^ 39 ∧ [3].map (partOfGang w0) = [0] := by decide
def wlink (a b : LinkEnd) : State := (w0.modLink 0 fun _ => a).modLink (farEnd 0) fun _ => b
theorem test_hyp_links : ((wlink { rxNext := 4 } { nak := some 8, naks := 8, rxNext := 8 }).link 0).off = false ∧ ((wlink { rxNext := 4 } { nak := some 8, naks := 8, rxNext := 8 }).link 0).retraining = false
    ∧ ((wlink { rxNext := 4 } { nak := some 8, naks := 8, rxNext := 8 }).link 0).nak = none ∧ ((wlink { rxNext := 4 } { nak := some 8, naks := 8, rxNext := 8 }).link (farEnd 0)).nak = some (7 + 1)
    ∧ 8 ≤ ((wlink { rxNext := 4 } { nak := some 8, naks := 8, rxNext := 8 }).link (farEnd 0)).naks ∧ ((wlink { nak := some 0 } {}).link 0).nak = some 0
    ∧ ((wlink { again := true } {}).link 0).again = true ∧ ((wlink { rxNext := 4 } {}).link 0).again = false
    ∧ ((wlink { retraining := true } {}).link 0).retraining = true ∧ w0.ready = true ∧ w0.refusedIn 0x8000 8 = none ∧ w0.lost = [] ∧ (none : Option Nat).getD 4 ∉ w0.lost := by decide
def wstage (n : Nat) : State := State.reset.setMreg 0 (BitVec.ofNat 64 n)
theorem test_hyp_stages : 2 ≤ bits ((wstage 2).mreg 0).toNat 3 0 ∧ bits ((wstage 2).mreg 0).toNat 3 0 ≠ 15 ∧ ({ wstage 2 with spdm := { version := true, caps := true } } : State).spdm.version = true
    ∧ ({ wstage 2 with spdm := { version := true, caps := true } } : State).spdm.caps = true ∧ (wstage 2).spdm.version = false := by decide
theorem test_hyp_startup : bits ((wstage 1).mreg 0).toNat 3 0 = 1 ∧ bits ((wstage 2).mreg 0).toNat 3 0 = 2 ∧ bits ((wstage 3).mreg 0).toNat 3 0 = 3 ∧ bits ((wstage 4).mreg 0).toNat 3 0 = 4
    ∧ (wstage 3).spdm.version = false ∧ ({ wstage 2 with spdm := { version := true, caps := true, negotiated := true } } : State).spdm.negotiated = true := by decide
/-- A queue of partition 0 through physical function 0, in the state given; its control word. -/
def wqf (en : Bool) (state : Nat) : State := (wqueue 3).modQueue 0 fun q => { q with qctl := BitVec.ofNat 64 (if en then 2 ^ 63 else 0), state, qrd := 3 }
def vEn : Word := BitVec.ofNat 64 (2 ^ 63)
theorem test_hyp_host_queues : let s := wqf false 0
    s.ready = true ∧ queueOf s 0 0 = some 0 ∧ (Tab.find s.queues 0).isSome = true ∧ qctlBad s 0 (s.queue 0) vEn = false ∧ (s.queue 0).en = false ∧ vEn.getLsbD 63 = true
    ∧ qctlBad s 0 (s.queue 0) (vEn + 9) = true ∧ ((wqf true 2).queue 0).en = true ∧ ((wqf true 2).queue 0).state = 2 ∧ qctlBad (wqf true 2) 0 ((wqf true 2).queue 0) 0 = false
    ∧ qctlBad (wqf true 2) 0 ((wqf true 2).queue 0) (vEn + BitVec.ofNat 64 (2 ^ 62)) = false ∧ qctlBad (wqf true 2) 0 ((wqf true 2).queue 0) (vEn + BitVec.ofNat 64 (2 ^ 62 + 2 ^ 61)) = false := by decide
theorem test_hyp_host_reads : bar2Read w0 0 0x11000 8 = some 0 ∧ bar2Read w0 0 0 4 = none ∧ bar2Read w0 1 0 8 = none ∧ bar2Read w0 0 0x3F8 8 = some 0
    ∧ w0.hostAccs = [] ∧ ({ w0 with agenda := [.registerRead 0 0 8] } : State).agenda = .registerRead 0 0 8 :: [] := by decide
theorem test_hyp_host_registers : funcLive w0 0 = true ∧ setsReserved 0x10000000000 [(56, 40)] = false ∧ queueOf w0 0 5 = none ∧ reach w0 0 = some 0
    ∧ (w0.func 0).winbase.toNat + 0x8000 < 2 ^ 56 ∧ funcLive { w0 with vfEnable := true, numVfs := 3 } 3 = true ∧ funcLive { w0 with vfEnable := true, numVfs := 3 } 4 = false ∧ w0.vfEnable = false ∧ 2 ≤ w0.stage := by decide
def whk (r : Except HostLook (List (Nat × Nat × Nat))) : Nat := match r with | .ok l => l.length | .error (.wait ..) => 100 | _ => 200
theorem test_hyp_host_bar4 : whk (hostKeys w0 0 0x8000 8 false) = 1 ∧ whk (hostKeys w0 0 0x8000 8 true) = 1 ∧ whk (hostKeys w0 0 (2 ^ 40) 8 false) = 100 ∧ w0.refused = [] := by decide
def whost4 (data : Option (List Byte)) : State := { w0 with nextId := 10, hostAccs := [{ id := 9, func := 0, asid := 0, dva := 2 ^ 40, n := 8, data }] }
theorem test_hyp_host_timeout : (whost4 none).hostAccs.find? (fun a => a.id == 9 && !a.held) = (whost4 none).hostAccs.head? ∧ (∀ e ∈ (whost4 none).hostAccs, e.data = none)
    ∧ ∃ e ∈ (whost4 (some [1])).hostAccs, e.data.isSome = true ∧ e.relaxed = false ∧ e.id < (whost4 none).nextId := by decide
/-- Values of PART0 that keep the rules, or do not; a machine whose partition 0 has no launch or queue. -/
def vPart (asidn qn : Nat) : Word := BitVec.ofNat 64 (2 ^ 63 + asidn * 2 ^ 16 + qn)
def widle : State := { w0 with launches := [], groups := [], gangs := [], cells := [] }
theorem test_hyp_partitions : setsReserved (vPart 2 3) partFields = false ∧ partOk widle 0 (vPart 2 3).toNat = true ∧ widle.partValid 0 = true ∧ partKeep widle 0 (vPart 2 3).toNat = true
    ∧ partKeep w0 0 (vPart 2 3).toNat = false ∧ partOk widle 0 (vPart 2 0).toNat = false ∧ partOk (State.reset.setMreg 0x188 3) 1 (vPart 2 3).toNat = true ∧ State.reset.partValid 1 = false
    ∧ partBusy widle 0 = false ∧ partBusy w0 0 = true ∧ setsReserved 0 partFields = false := by decide
def vHm (hive : Nat) (free : Bool) : Word := BitVec.ofNat 64 (2 ^ 63 + hive + if free then 2 ^ 14 else 0)
theorem test_hyp_hmove : (vHm 1 false).getLsbD 63 = true ∧ (vHm 1 true).getLsbD 14 = true ∧ setsReserved (vHm 1 false) hmoveFields = false ∧ (w0.mreg 0x200).getLsbD 63 = false
    ∧ hmoveRefused w0 1 (hmoveDst (vHm 1 false)) = false ∧ hmoveRefused w0 0 (hmoveDst (vHm 0 true)) = true ∧ (hmoveDst (vHm 1 false)) = some 0
    ∧ hmoveRefused (w0.setMreg 0x180 3) 0 (hmoveDst (vHm 0 true)) = false ∧ hiveHeld { w0 with move := some (1, some 0) } 1 = false := by decide
/-- A checkpoint engine run over two lines, the second refused; a restoring run. -/
def wckr (restore : Bool) : State :=
  { (((w0.setMreg 0x310 0x10000).setMreg 0x318 0x10000).setMreg 0x328 (BitVec.ofNat 64 (2 ^ 63 + 2 ^ 32 + if restore then 2 ^ 34 else 0))) with refused := [0x10040] }
theorem test_hyp_ckpt_refused : (wckr false).ckRuns = true ∧ (wckr false).refusedIn 0x10000 0x10000 = some 0x10040 ∧ (wckr true).refusedIn (0x10000 + 64 * 1) 64 = some 0x10040
    ∧ ((wckr true).mreg 0x328).getLsbD 34 = true ∧ ((wckr false).mreg 0x328).getLsbD 34 = false ∧ ({ wckr false with refused := [] } : State).refusedIn 0x10000 0x10000 = none
    ∧ Tab.sorted (wckr false).mgmt = true := by decide
def vCk : Word := BitVec.ofNat 64 (2 ^ 63 + 1)
def vRe : Word := BitVec.ofNat 64 (2 ^ 61 + 1)
theorem test_hyp_ckpt : ckptBad w0 vCk = false ∧ ckptBad w0 (vCk + 2) = true ∧ ckptBad w0 vRe = false ∧ vRe.getLsbD 61 = true
    ∧ (let s : State := { widle with quiescing := [0] }.setMreg 0x300 (ckptReg 1 0 1); s.faultQ = [] ∧ (s.mreg 0x300).getLsbD 60 = true ∧ s.quiescing.all (partStill s.tick) = true) := by decide
def wck (go : Bool) : State := ((w0.setMreg 0x310 0x10000).setMreg 0x318 0x10000).setMreg 0x328 (BitVec.ofNat 64 (if go then 2 ^ 63 + 2 ^ 34 + 2 ^ 32 else 0))
theorem test_hyp_ckpt_engine : (wck false).ckRuns = false ∧ setsReserved (vEn + BitVec.ofNat 64 (2 ^ 32)) ckctlFields = false ∧ ((wck false).mreg 0x318).toNat = 0x10000
    ∧ bits (vEn + BitVec.ofNat 64 (2 ^ 32)).toNat 33 32 = 1 ∧ (wck true).ckRuns = true ∧ ((wck true).mreg 0x328).getLsbD 34 = true
    ∧ w0.partValid 0 = true ∧ w0.quiet 0 = false ∧ w0.faultQ.contains 0 = false ∧ setsReserved 500 [(11, 0)] = false := by decide
/-- The machine about to run the instruction of these words as its first (log 19). -/
def wstep (w : Nat) : State := State.reset.withFetchWord 64 w
def wtaken (w : Nat) : State := takeTurn { wstep w with agenda := [] } 0 0
theorem test_hyp_step : (wstep 0x062D543F).agenda = [.turn 0] ∧ nextSlot { wstep 0x062D543F with agenda := [] } 0 = some 0 := by decide
theorem test_hyp_step_calm : (wtaken 0x062D543F).me.turns < 4096 ∧ (wtaken 0x062D543F).me.tlev = 0 ∧ (wtaken 0x062D543F).me.asyncs = [] ∧ (wtaken 0x062D543F).me.vrecs = []
    ∧ (wtaken 0x062D543F).me.barp = none ∧ (wtaken 0x062D543F).me.parcels = none ∧ (wtaken 0x062D543F).me.pc = 0x10000 := by decide
theorem test_hyp_step_code (a : Nat) : codeGone (wtaken 0x062D543F) (wtaken 0x062D543F).myLaunch a = false := by
  have h : (wtaken 0x062D543F).objects = [] := by decide
  simp [codeGone, h]
theorem test_hyp_step_cached : ((iFind ((wtaken 0x062D543F).core 0).icache (wtaken 0x062D543F).myLaunch.asid (lineOf 0x10000)).map fun l => leNat ((l.data.drop 0).take 8)) = some 0x062D543F
    ∧ parcelLength 0x062D543F = 8 ∧ parcelLength 0x00C58533 = 4 := by decide
theorem test_hyp_step_parcels : ((iFind ((wtaken 0x062D543F).core 0).icache (wtaken 0x062D543F).myLaunch.asid (lineOf 0x10000)).map fun l =>
    ((cachedParcel (wtaken 0x062D543F) l 0x10000).toNat, (cachedParcel (wtaken 0x062D543F) l 0x10004).toNat)) = some (0x062D543F, 0) := by decide
theorem test_hyp_item_start : fixtureHdr.tvec = 0 ∧ ({ fixtureHdr with tvec := 4 } : Hdr).tvec ≠ 0 ∧ ({ fixtureHdr with tvec := 4 } : Hdr).cells ≤ ({ fixtureHdr with tvec := 4 } : Hdr).lsu * 4
    ∧ 0 < fixtureHdr.cells ∧ fixtureHdr.cells ≤ 8 ∧ fixtureHdr.lsu ≤ 68 := by decide
theorem test_hyp_encode : wellFormed (.launch 10 11 12) = true ∧ encode (.launch 10 11 12) = some 0x062D543F := by decide

end Sys2Proof.Tests
end

section
/-! The machine after reset and a cell at the start of an item. -/

open Sys2Proof Sys2Proof.Machine

namespace Sys2Proof.Machine

/-- A register that nothing has written reads its reset value (spec 01 R6). -/
@[simp] theorem mreg_reset (off : Nat) : State.reset.mreg off = mgmtReset off := rfl

/-- PARTn and PHIVEn, and the registers up to PWRCAP, have the reset value 0 (spec 01 R13, R19). -/
theorem mgmtReset_partitions {off : Nat} (h : 0x100 ≤ off) (h' : off < 0x400) : mgmtReset off = 0 := by
  unfold mgmtReset
  rw [if_neg (by omega), if_neg (by omega), if_neg (by omega), if_neg (by omega), if_neg (by omega), if_neg (by omega), if_neg (by omega)]

/-- PSHAREn's reset value (spec 04 R94). -/
theorem mgmtReset_shares {off : Nat} (h : 0x500 ≤ off) (h' : off < 0x580) : mgmtReset off = 0x050A1428 := by
  unfold mgmtReset
  rw [if_neg (by omega), if_neg (by omega), if_pos ⟨h, h'⟩]

/-- After reset no partition is valid (spec 01 R19). -/
@[simp] theorem partValid_reset (n : Nat) : State.reset.partValid n = false := by
  by_cases hn : n < 16
  · have hz : State.reset.partReg n = 0 := by
      simp [State.partReg, mgmtReset_partitions (off := 0x100 + 8 * n) (by omega) (by omega)]
    simp [State.partValid, hz, bit]
  · simp [State.partValid, hn]

/-- After reset every hive is unassigned (spec 01 R19). -/
theorem partOfHive_reset (h : Nat) : State.reset.partOfHive h = none := by
  simp [State.partOfHive]

/-- a0 to a7 come from ARGS, and the other x registers are zero (spec 02 R51). -/
theorem xAt_getElem (h : Hdr) (i : Fin 32) : (xAt h)[i] = if 10 ≤ i.val ∧ i.val < 18 then (h.args[i.val - 10]?).getD 0 else 0 := by
  simp [xAt]

/-- With no trap vector there is no save area (spec 02 R51). -/
theorem tsaveOf_no_vector {h : Hdr} (ht : h.tvec = 0) (j : Nat) : tsaveOf h j = 0 := by
  rw [tsaveOf, if_pos ht]

/-- The save areas lie at the end of the gang's LS, the last cell's last (spec 02 R51): the sum that wraps in 64 bits is the address. -/
theorem tsaveOf_vector {h : Hdr} {j : Nat} (ht : h.tvec ≠ 0) (hroom : h.cells ≤ h.lsu * 4) :
    tsaveOf h j = BitVec.ofNat 64 (7 * 2 ^ 61 + h.lsu * 4096 - 1024 * (h.cells - j)) := by
  rw [tsaveOf, if_neg ht]
  have hwrap : 7 * 2 ^ 61 + h.lsu * 4096 + 2 ^ 64 - 1024 * (h.cells - j) = 7 * 2 ^ 61 + h.lsu * 4096 - 1024 * (h.cells - j) + 2 ^ 64 := by omega
  apply BitVec.eq_of_toNat_eq
  rw [hwrap, BitVec.toNat_ofNat, BitVec.toNat_ofNat, Nat.add_mod_right]

/-- Settles O60: the reset values register by register, and the cell field by field. -/
theorem resetAndItemStart : Obligations.ResetAndItemStart := by
  unfold Obligations.ResetAndItemStart
  refine ⟨?reset, ?item⟩
  case reset =>
    refine ⟨rfl, rfl, rfl, rfl, rfl, fun n _ => partValid_reset n, partOfHive_reset, rfl, rfl, rfl, ?_, reset_memOk, rfl⟩
    intro n hn
    exact mgmtReset_shares (by omega) (by omega)
  case item =>
    intro gid j h wid
    refine ⟨rfl, rfl, rfl, rfl, rfl, rfl, rfl, xAt_getElem h, rfl, rfl, rfl, rfl, rfl, rfl, rfl, rfl, rfl, rfl, rfl, rfl, rfl, rfl, rfl, rfl, rfl, rfl, rfl, ?_, ?_⟩
    · exact fun ht => tsaveOf_no_vector ht j
    · exact fun ht hroom _ _ _ => tsaveOf_vector ht hroom

end Sys2Proof.Machine
end

section
/-! Start-up and attestation. -/

open Sys2Proof Sys2Proof.Machine

namespace Sys2Proof.Machine

/-! ### Training of the UCIe modules -/

/-- A module that is changed to something other than an untouched one reads as changed. -/
theorem link_modLink_self (s : State) (e : Nat) {f : LinkEnd → LinkEnd} (h : f (s.link e) ≠ {}) : (s.modLink e f).link e = f (s.link e) := by
  change ((Tab.setD s.links e {} (f (s.link e))).find e).getD {} = _
  rw [Tab.setD, if_neg h, Tab.find_put_self, Option.getD_some]

/-- The other modules are as they were. -/
theorem link_modLink_ne (s : State) {e k : Nat} (f : LinkEnd → LinkEnd) (h : e ≠ k) : (s.modLink k f).link e = s.link e := by
  change Tab.getD (Tab.setD s.links k {} (f (s.link k))) e {} = _
  rw [Tab.getD_setD_ne _ _ _ h, State.link]

/-- A module that is trained is up. -/
theorem link_train_self (s : State) (e : Nat) : ((s.modLink e fun l => { l with up := true }).link e).up = true := by
  rw [link_modLink_self s e fun h => Bool.noConfusion (congrArg LinkEnd.up h)]

/-- The training of a module leaves up what is up. -/
theorem link_train_keeps {s : State} {e : Nat} (h : (s.link e).up = true) (k : Nat) :
    ((s.modLink k fun l => { l with up := true }).link e).up = true := by
  by_cases hk : e = k
  · subst hk; exact link_train_self s e
  · rw [link_modLink_ne s _ hk, h]

/-- Of a list of modules that are trained in turn, each is up in the end. -/
theorem link_trainAll (l : List Nat) {s : State} {e : Nat} (h : e ∈ l ∨ (s.link e).up = true) :
    ((l.foldl (fun s k => s.modLink k fun x => { x with up := true }) s).link e).up = true := by
  induction l generalizing s with
  | nil => simpa using h
  | cons k l ih =>
    apply ih
    rcases h with hmem | hup
    · rcases List.mem_cons.mp hmem with rfl | hmem
      · exact .inr (link_train_self s e)
      · exact .inl hmem
    · exact .inr (link_train_keeps hup k)

/-- The HUB stage brings every module up (spec 01 R7). -/
theorem linksUp_up (s : State) {e : Nat} (h : e < 40) : ((linksUp s).link e).up = true :=
  link_trainAll _ (.inl (List.mem_range.mpr h))

/-! ### The stages -/

section
variable {s : State}

/-- The end of the ROM stage (spec 01 R9). -/
theorem execStageDone_rom (h : s.stage = 1) (i : FwImage) (lanes : List LaneFault) :
    execStageDone [i] none lanes s = .next (if imageOk i then { s with hubHash := i.hash }.setMreg 0 2 else failAt s 15) := by
  simp only [execStageDone, h]

/-- The end of the HUB stage (spec 01 R7). -/
theorem execStageDone_hub (h : s.stage = 2) (images : List FwImage) (lanes : List LaneFault) :
    execStageDone images none lanes s = .next ((linksUp s).setMreg 0 3) := by
  simp only [execStageDone, h]

/-- The end of the DIE stage with its four images (spec 01 R9, R11). -/
theorem execStageDone_die (h : s.stage = 3) {images : List FwImage} (hn : images.length = 4) (lanes : List LaneFault) :
    execStageDone images none lanes s =
      .next (match (List.range 4).find? fun d => match images[d]? with | some i => !imageOk i | none => true with
        | some d => failAt s d
        | none => { s with dieHash := images.flatMap (fun i : FwImage => i.hash)
                           alias_ := s.hubHash ++ images.flatMap (fun i : FwImage => i.hash) ++ Config.sm2Sign (s.hubHash ++ images.flatMap (fun i : FwImage => i.hash)) }.setMreg 0 4) := by
  simp only [execStageDone, h, List.take_of_length_le (Nat.le_of_eq hn)] <;> rfl

/-- The end of the MEM stage where no lane has failed, and where a die's memory has (spec 01 R10). -/
theorem execStageDone_mem (h : s.stage = 4) (images : List FwImage) : execStageDone images none [] s = .next (s.setMreg 0 8) := by
  simp only [execStageDone, h, List.foldl_nil]

theorem execStageDone_mem_failed (h : s.stage = 4) (images : List FwImage) (d : Nat) (lanes : List LaneFault) :
    execStageDone images (some d) lanes s = .next (failAt s d) := by
  simp only [execStageDone, h]

/-- A late ROM or HUB stage names the hub (spec 01 R7). -/
theorem execStageTimeout_hub (h : s.stage = 1 ∨ s.stage = 2) : execStageTimeout none s = .next (failAt s 15) := by
  rcases h with h | h <;> simp only [execStageTimeout, h]

/-- A late DIE or MEM stage names the die (spec 01 R7). -/
theorem execStageTimeout_die (h : s.stage = 3 ∨ s.stage = 4) {d : Nat} (hd : d < 4) : execStageTimeout (some d) s = .next (failAt s d) := by
  rcases h with h | h <;> simp only [execStageTimeout, h, Nat.mod_eq_of_lt hd]

/-! ### The responder -/

/-- From the HUB stage on and not in FAIL the responder answers physical function 0. -/
theorem spdmLive_pf0 (h : 2 ≤ s.stage) (h' : s.stage ≠ 15) : spdmLive s 0 = true := by
  simp [spdmLive, h, h']

/-- A request whose turn it is takes its pair into the transcript and has its answer. -/
theorem spdmAnswer_inOrder {func : Nat} {ok : Bool} (hl : spdmLive s func = true) (hok : ok = true) (req : Nat) (ask : List Byte) (code : Nat) (d : List Byte)
    (f : Spdm → List Byte → Spdm) :
    spdmAnswer s func ok req ask code d f = ({ s with spdm := f s.spdm (spdmPair req ask code d) } : State).emit (.spdm func code d) := by
  simp [spdmAnswer, hl, hok]

/-- A request before the ones it needs has the error response. -/
theorem spdmAnswer_early {func : Nat} {ok : Bool} (hl : spdmLive s func = true) (hok : ok = false) (req : Nat) (ask : List Byte) (code : Nat) (d : List Byte)
    (f : Spdm → List Byte → Spdm) : spdmAnswer s func ok req ask code d f = s.emit (.spdm func 0x7F []) := by
  simp [spdmAnswer, hl, hok]

/-- Another function has no answer (spec 01 R12). -/
theorem spdmAnswer_elsewhere {func : Nat} (h : func ≠ 0) (ok : Bool) (req : Nat) (ask : List Byte) (code : Nat) (d : List Byte)
    (f : Spdm → List Byte → Spdm) : spdmAnswer s func ok req ask code d f = s := by
  simp [spdmAnswer, spdmLive, h]

end

/-- Settles O51: by the lemma of each stage's end, and the responder's three answers. -/
theorem startUpAndAttestation : Obligations.StartUpAndAttestation := by
  unfold Obligations.StartUpAndAttestation
  intro s i images lanes d func nonce restarted stage ok fail chain measured
  refine ⟨rfl, rfl, fun h => execStageDone_rom h i lanes, fun h => ⟨execStageDone_hub h images lanes, fun e he => linksUp_up s he⟩,
    fun h hn => execStageDone_die h hn lanes, fun h => ⟨execStageDone_mem h images, execStageDone_mem_failed h images d lanes⟩,
    execStageTimeout_hub, fun h hd => execStageTimeout_die h hd, ?responder, ?elsewhere⟩
  case responder =>
    intro h2 h15 p say digest
    have hl : spdmLive s 0 = true := spdmLive_pf0 h2 h15
    refine ⟨?version, ?caps, ?capsEarly, ?algorithms, ?algorithmsRefused, ?certificates⟩
    case version => exact congrArg Host.Outcome.next (spdmAnswer_inOrder hl rfl ..)
    case caps => exact fun hv => congrArg Host.Outcome.next (spdmAnswer_inOrder hl hv ..)
    case capsEarly => exact fun hv => congrArg Host.Outcome.next (spdmAnswer_early hl hv ..)
    case algorithms =>
      intro hc
      exact congrArg Host.Outcome.next (spdmAnswer_inOrder hl (by simp [show s.spdm.caps = true from hc]) ..)
    case algorithmsRefused =>
      intro a b hab
      exact congrArg Host.Outcome.next (spdmAnswer_early hl (by rw [Bool.and_assoc, hab, Bool.and_false]) ..)
    case certificates =>
      exact fun hn => ⟨congrArg Host.Outcome.next (spdmAnswer_inOrder hl hn ..), congrArg Host.Outcome.next (spdmAnswer_inOrder hl hn ..),
        congrArg Host.Outcome.next (spdmAnswer_inOrder hl hn ..), congrArg Host.Outcome.next (spdmAnswer_inOrder hl hn ..)⟩
  case elsewhere =>
    exact fun h => ⟨congrArg Host.Outcome.next (spdmAnswer_elsewhere h ..), congrArg Host.Outcome.next (spdmAnswer_elsewhere h ..)⟩

end Sys2Proof.Machine
end
section
/-! The doorbell, and why the statement about the host's functions fails: it leaves out what a doorbell orders. -/

open Sys2Proof Sys2Proof.Machine

namespace Sys2Proof.Machine

/-- A doorbell with nothing of the host before it rings at once (spec 03 R63, R64). -/
theorem execDoorbell_unheld {s : State} (h : s.hostAccs = []) (func q : Nat) (w : Word) :
    execDoorbell func q w s = .next (ringBell s func q w) := by
  simp [execDoorbell, hostArrive, hostBehind, hostStart, h]

/-- A doorbell moves QWR within the ring, and the packets that it gives away are read no older than now (spec 02 R44, 03 R63, R64); one that R63 does
not accept sets DBERR. -/
theorem ringBell_reached {s : State} {func q p : Nat} (hr : s.ready = true) (hq : queueOf s func q = some p) (w : Word) :
    ringBell s func q w = s.modQueue (queueKey p q) fun x =>
      if x.en && !x.prod && decide (x.qwr < w.toNat) && decide (w.toNat ≤ x.qrd + x.ring) then { x with qwr := w.toNat, floor := s.stamp }
      else { x with dberr := true } := by
  simp only [ringBell, hr, hq]; rfl

/-- A machine that is READY, with partition 0 of one queue reached by physical function 0; the queue is enabled, host-produced and empty, and one
write of memory has been performed since its last doorbell. -/
def unrungState : State :=
  { mgmt := [(0, 8), (0x100, BitVec.ofNat 64 (2 ^ 63 + 2 ^ 16 + 1))], queues := [(0, { qctl := BitVec.ofNat 64 (2 ^ 63), state := 1 })], stamp := 1 }

theorem unrungState_ready : unrungState.ready = true := by decide

theorem unrungState_queueOf : queueOf unrungState 0 0 = some 0 := by decide

/-- Its doorbell with write index 1 is accepted, and the queue's next take comes after the write. -/
theorem unrungState_doorbell : ∃ t, exec (.doorbell 0 0 1) unrungState = .next t ∧ (t.queue 0).qwr = 1 ∧ (t.queue 0).floor = 1 := by
  refine ⟨_, (execDoorbell_unheld rfl 0 0 1).trans (congrArg Host.Outcome.next (ringBell_reached unrungState_ready unrungState_queueOf 1)), ?_, ?_⟩ <;> decide

/-- Refutes O52: its clause for the doorbell gives the queue with QWR alone changed, and says that nothing else of it changes. An accepted doorbell also
sets the queue's `floor`, the moment from which its packets and headers are read (02 R44, 03 R64). In `unrungState` a write has been performed, the
doorbell with write index 1 is accepted, and the floor goes from 0 to 1. -/
theorem not_hostFunctions : ¬ Obligations.HostFunctions := by
  unfold Obligations.HostFunctions
  intro h
  obtain ⟨hqueue, -⟩ := h unrungState 0 0 0 0 0 0 0 1 [] []
  obtain ⟨-, -, -, -, hbell, -⟩ := hqueue unrungState_ready unrungState_queueOf (by decide)
  obtain ⟨t, ht, -, hfloor⟩ := unrungState_doorbell
  have hsaid := Host.Outcome.next.inj (ht.symm.trans (hbell (by intro e he; cases he)))
  rw [hsaid] at hfloor
  exact absurd hfloor (by decide)

end Sys2Proof.Machine
end
section
/-! The management block's operations: one lemma for what each write answers, and what the checkpoint engine leaves alone. -/

open Sys2Proof Sys2Proof.Machine

namespace Sys2Proof.Machine

/-! ### Registers -/

/-- A register reads back what was written. -/
theorem mreg_setMreg_self {s : State} (hs : Tab.sorted s.mgmt = true) (off : Nat) (v : Word) : (s.setMreg off v).mreg off = v :=
  Tab.getD_setD_self hs off (mgmtReset off) v

/-- A rejected write leaves the register's offset in MERR (spec 01 R6). -/
theorem rejectM_eq (s : State) {off : Nat} (h : off < 65536) : rejectM s off = s.setMreg 8 (BitVec.ofNat 64 off) := by
  rw [rejectM, Nat.mod_eq_of_lt h]

/-- A read below CODEGEN gives the register as it is kept. -/
theorem mgmtRead_kept (s : State) {off : Nat} (h : off < 0x900) : mgmtRead s off = s.mreg off := by
  rw [mgmtRead, if_neg (by omega), if_neg (by omega), if_neg (by omega)]

/-- A read of a UCIe link's block gives the link's register (spec 14 R330). -/
theorem mgmtRead_link (s : State) {n r off : Nat} (hn : n < 40) (hr : r < 32) (h : off = 0x5000 + 32 * n + r) : mgmtRead s off = linkRead s n r := by
  rw [mgmtRead, if_neg (by omega), if_pos (by omega), show (off - 0x5000) / 32 = n by omega, show off % 32 = r by omega]

/-! ### Partitions -/

/-- Only numbers below 16 are valid partitions. -/
theorem lt_of_partValid {s : State} {n : Nat} (h : s.partValid n = true) : n < 16 := by
  simp only [State.partValid, Bool.and_eq_true, decide_eq_true_eq] at h
  exact h.1

/-- A value that breaks R6 or R13, or changes what a partition in use must keep, is rejected. -/
theorem partSet_rejected {s : State} {n : Nat} {v : Word}
    (h : setsReserved v partFields = true ∨ partOk s n v.toNat = false ∨ (s.partValid n = true ∧ partKeep s n v.toNat = false)) :
    partSet s n v = rejectM s (0x100 + 8 * n) := by
  have hbad : (setsReserved v partFields || !partOk s n v.toNat || (s.partValid n && !partKeep s n v.toNat)) = true := by
    rcases h with h | h | ⟨h, hk⟩ <;> simp [*]
  rw [partSet, if_pos hbad]

/-- A valid partition takes the value. -/
theorem partSet_valid {s : State} {n : Nat} {v : Word} (hres : setsReserved v partFields = false) (hok : partOk s n v.toNat = true)
    (hv : s.partValid n = true) (hk : partKeep s n v.toNat = true) : partSet s n v = s.setMreg (0x100 + 8 * n) v := by
  simp [partSet, hres, hok, hv, hk]

/-- Changes of dies change the dies alone. -/
theorem foldl_modDie_frame (f : Nat → Die → Die) (l : List Nat) (s : State) : ∃ dies, l.foldl (fun s d => s.modDie d (f d)) s = { s with dies } := by
  induction l generalizing s with
  | nil => exact ⟨s.dies, rfl⟩
  | cons d l ih =>
    obtain ⟨dies, hd⟩ := ih (s.modDie d (f d))
    exact ⟨dies, hd⟩

/-- A partition that becomes valid takes its value, and its rotor on each die starts over (spec 04 R90). -/
theorem partSet_new {s : State} {n : Nat} {v : Word} (hres : setsReserved v partFields = false) (hok : partOk s n v.toNat = true)
    (hv : s.partValid n = false) : ∃ dies, partSet s n v = { s with dies }.setMreg (0x100 + 8 * n) v := by
  obtain ⟨dies, hd⟩ := foldl_modDie_frame (fun _ x => { x with rotor := Tab.del x.rotor n }) (List.range 4) s
  exact ⟨dies, by simp [partSet, hres, hok, hv, hd]⟩

/-- PART_SET_VALID writes V = 1. -/
theorem execPartSetValid_write {n : Nat} {v : Word} (hn : n < 16) (hv : v.getLsbD 63 = true) (s : State) :
    execPartSetValid n v s = .next (partSet s n v) := by
  rw [execPartSetValid, if_pos (by rw [hv, decide_eq_true hn]; rfl)]

/-- PART_CLEAR_VALID writes V = 0 to a valid partition. -/
theorem execPartClearValid_write {s : State} {n : Nat} {v : Word} (hv : v.getLsbD 63 = false) (hp : s.partValid n = true) :
    execPartClearValid n v s = .next (partClear s n v) := by
  rw [execPartClearValid, if_pos (by rw [hv, hp]; rfl)]

/-- A partition with an enabled queue, a launch or a brood is not cleared (spec 01 R14). -/
theorem partClear_busy {s : State} {n : Nat} (v : Word)
    (h : (someQueue s n (fun _ q => q.en) || partBusy s n || s.broods.any fun e => e.2.part == n) = true) :
    partClear s n v = rejectM s (0x100 + 8 * n) := by
  have hbad : (setsReserved v partFields || (someQueue s n fun _ q => q.en) || partBusy s n || (s.broods.any fun e => e.2.part == n)) = true := by
    rw [Bool.or_assoc, Bool.or_assoc, ← Bool.or_assoc (someQueue ..), h, Bool.or_true]
  rw [partClear, if_pos hbad]

/-- An idle partition gives its hives cleaned. -/
theorem partClear_idle {s : State} {n : Nat} {v : Word} (hres : setsReserved v partFields = false)
    (h : (someQueue s n (fun _ q => q.en) || partBusy s n || s.broods.any fun e => e.2.part == n) = false) :
    partClear s n v = ((s.hivesOf n).foldl (fun s h => cleanHive s h (asidOf s n)) s).setMreg (0x100 + 8 * n) v := by
  have hgood : ¬ (setsReserved v partFields || (someQueue s n fun _ q => q.en) || partBusy s n || (s.broods.any fun e => e.2.part == n)) = true := by
    rw [Bool.or_assoc, Bool.or_assoc, ← Bool.or_assoc (someQueue ..), h, hres]; decide
  rw [partClear, if_neg hgood]

/-! ### Hive moves -/

/-- A write of HMOVE with GO, to FREE or to a partition. -/
theorem exec_hmove {v : Word} (hgo : v.getLsbD 63 = true) (s : State) :
    exec (if v.getLsbD 14 then .hmoveFree v else .hmoveMove v) s = .next (hmoveGo s v) := by
  cases hfree : v.getLsbD 14 with
  | true => exact congrArg Host.Outcome.next (if_pos (by rw [hgo, hfree]; rfl))
  | false => exact congrArg Host.Outcome.next (if_pos (by rw [hgo, hfree]; rfl))

/-- A move that runs holds the register (spec 01 R15). -/
theorem hmoveGo_rejected {s : State} {v : Word} (h : setsReserved v hmoveFields = true ∨ (s.mreg 0x200).getLsbD 63 = true) :
    hmoveGo s v = rejectM s 0x200 := by
  rw [hmoveGo, if_pos (by simpa using h)]

section
variable {s : State} {v : Word} (hres : setsReserved v hmoveFields = false) (hgo : (s.mreg 0x200).getLsbD 63 = false)
include hres hgo

/-- A move that R17 refuses answers REFUSED. -/
theorem hmoveGo_refused (h : hmoveRefused s (bits v.toNat 5 0) (hmoveDst v) = true) : hmoveGo s v = s.setMreg 0x200 (hmoveReg v 0 1) := by
  rw [hmoveGo, if_neg (by rw [hres, hgo]; decide), if_pos h]

/-- Any other stops placement on the hive and lands its gangs (spec 01 R16). -/
theorem hmoveGo_starts (h : hmoveRefused s (bits v.toNat 5 0) (hmoveDst v) = false) :
    hmoveGo s v = orderAll (({ s with move := some (bits v.toNat 5 0, hmoveDst v) }.setMreg 0x200
      (hmoveReg v 1 (bits (s.mreg 0x200).toNat 62 61))).modHive (bits v.toNat 5 0) fun h => { h with moving := true })
      fun _ g => hiveOf g.core == bits v.toNat 5 0 := by
  rw [hmoveGo, if_neg (by rw [hres, hgo]; decide), if_neg (by rw [h]; decide)]

end

/-- A move whose gangs have left the hive ends. -/
theorem execHmoveComplete_empty {s : State} {hive : Nat} {dst : Option Nat} (hm : s.move = some (hive, dst)) (hh : hiveHeld s hive = false) :
    execHmoveComplete s = .next (hmoveFinish s hive dst) := by
  simp [execHmoveComplete, hm, hh]

/-! ### Quiesce and resume -/

/-- A write of CKPT with GO. -/
theorem execCkptQuiesce_go {v : Word} (h : v.getLsbD 63 = true) (s : State) : execCkptQuiesce v s = .next (ckptGo s v) := by
  rw [execCkptQuiesce, if_pos h]

/-- A write of CKPT with RESUME that R23 accepts. -/
theorem execCkptResume_accepted {s : State} {v : Word} (hgo : v.getLsbD 63 = false) (hres : v.getLsbD 61 = true) (hok : ckptBad s v = false) :
    execCkptResume v s = .next ((ckptNames v).foldl resumePart (s.tick.setMreg 0x300 (ckptReg v 0 0))) := by
  rw [execCkptResume, if_pos (by rw [hgo, hres]; rfl), ckptRes, if_neg (by rw [hok]; decide)]

/-- The quiesce that CKPT ordered is done when its partitions are still (spec 01 R24). -/
theorem execQuiesceDone_ckpt {s : State} (hf : s.faultQ = []) (hb : (s.mreg 0x300).getLsbD 60 = true)
    (hs : s.quiescing.all (partStill s.tick) = true) :
    execQuiesceDone s = .next ({ s.quiescing.foldl setCkq s.tick with quiescing := [] }.setMreg 0x300 (ckptReg (s.mreg 0x300) 1 0)) := by
  have hmreg : s.tick.mreg 0x300 = s.mreg 0x300 := rfl
  have hends : quiesceEnds s.tick = true := by simp [quiesceEnds, hmreg, hb, hs]
  simp [execQuiesceDone, hends, hf, hmreg, hb, hs]

/-- A fault quiesces its partition (spec 01 R27). -/
theorem quiesceFor_valid {s : State} {p : Nat} (hv : s.partValid p = true) (hq : s.faultQ.contains p = false) :
    quiesceFor s p = orderPart { s with faultQ := s.faultQ ++ [p] } p := by
  rw [quiesceFor, hv, hq]; rfl

/-! ### The checkpoint engine -/

/-- A run starts where R26 accepts its range and target. -/
theorem ckctlGo_accepted {s : State} {v : Word} (hrun : s.ckRuns = false) (hres : setsReserved v ckctlFields = false)
    (hlen : (s.mreg 0x318).toNat ≠ 0) (hmul : (s.mreg 0x318).toNat % 65536 = 0) (hend : (s.mreg 0x310).toNat + (s.mreg 0x318).toNat ≤ 2 ^ 39)
    (htgt : bits v.toNat 33 32 = 1 ∨ bits v.toNat 33 32 = 2) :
    ckctlGo s v = (s.setMreg 0x328 (ckctlReg v 1 (bits (s.mreg 0x328).toNat 62 61))).setMreg 0x330 0 := by
  rw [ckctlGo, if_neg]
  simp only [hrun, hres, Bool.or_eq_true, Bool.false_eq_true, false_or, beq_iff_eq, bne_iff_ne, decide_eq_true_eq]
  omega

/-- Nothing stops the run at a refused line: it restores memory, or no line of its range is refused. -/
def ckptClear (s : State) : Prop := (s.mreg 0x328).getLsbD 34 = true ∨ s.refusedIn (s.mreg 0x310).toNat (s.mreg 0x318).toNat = none

/-- A run that nothing stops copies its whole range. -/
theorem execCkptRunEnd_done {s : State} (hrun : s.ckRuns = true) (hc : ckptClear s) (n : Nat) :
    execCkptRunEnd none n s = .next (ckptEnd (ckptLines s (List.range ((s.mreg 0x318).toNat / 64))) 0) := by
  rcases hc with hc | hc <;> simp [execCkptRunEnd, hrun, hc]

/-- A PCIe error ends a run with some of its lines copied and a report of KIND 5. -/
theorem execCkptRunEnd_pcie {s : State} (hrun : s.ckRuns = true) (n : Nat) :
    execCkptRunEnd (some .pcie) n s = .next (ckptEnd (postReport (ckptLines s (ckptDone s n)) 5 0 0 noCell 0 0 0 0 0) 1) := by
  simp [execCkptRunEnd, hrun]

/-- The lines that a failed run has performed are no more than it counts. -/
theorem length_ckptDone (s : State) (n : Nat) : (ckptDone s n).length ≤ n / 64 := List.length_take_le ..

/-- They lie in its range, and are not refused where the run reads them (log 28). -/
theorem mem_ckptDone {s : State} {n i : Nat} (h : i ∈ ckptDone s n) :
    i < (s.mreg 0x318).toNat / 64 ∧ ((s.mreg 0x328).getLsbD 34 = true ∨ s.refusedIn ((s.mreg 0x310).toNat + 64 * i) 64 = none) := by
  obtain ⟨hi, hp⟩ := List.mem_filter.mp (List.mem_of_mem_take h)
  simp only [Bool.and_eq_true, Bool.or_eq_true, Option.isNone_iff_eq_none] at hp
  exact ⟨List.mem_range.mp hi, hp.1⟩

/-- A write of memory leaves the management block as it is. -/
@[simp] theorem write_mgmt (s : State) (who : Agent) (hive : Option Nat) (k : Nat) (d : List Byte) : (s.write who hive k d).mgmt = s.mgmt := by
  unfold State.write; split <;> rfl

@[simp] theorem writeLong_mgmt (s : State) (who : Agent) (hive : Option Nat) (k : Nat) (d : List Byte) :
    (s.writeLong who hive k d).mgmt = s.mgmt := write_mgmt s who hive k d

/-- A line of the run leaves the management block as it is. -/
@[simp] theorem ckptLine_mgmt (v : Word) (src dst : Nat) (s : State) (i : Nat) : (ckptLine v src dst s i).mgmt = s.mgmt := by
  unfold ckptLine
  split
  · exact writeLong_mgmt ..
  · split <;> rfl

theorem foldl_ckptLine_mgmt (v : Word) (src dst : Nat) (l : List Nat) (s : State) : (l.foldl (ckptLine v src dst) s).mgmt = s.mgmt := by
  induction l generalizing s with
  | nil => rfl
  | cons i l ih => rw [List.foldl_cons, ih, ckptLine_mgmt]

/-- CKDONE counts the bytes of the lines that a run has performed (spec 01 R26). -/
theorem ckdone_ckptLines {s : State} (hs : Tab.sorted s.mgmt = true) (l : List Nat) : (ckptLines s l).mreg 0x330 = BitVec.ofNat 64 (64 * l.length) := by
  apply mreg_setMreg_self
  change Tab.sorted (l.foldl (ckptLine (s.mreg 0x328) (s.mreg 0x310).toNat (s.mreg 0x320).toNat) s).mgmt = true
  rw [foldl_ckptLine_mgmt, hs]

/-! ### Power -/

/-- PWRCAP takes 500 to 2,000 (spec 01 R28). -/
theorem pwrcapWrite_inRange (s : State) {v : Word} (hres : setsReserved v [(11, 0)] = false) (h : 500 ≤ v.toNat) (h' : v.toNat ≤ 2000) :
    pwrcapWrite s v = s.setMreg 0x400 v := by
  simp [pwrcapWrite, hres, h, h']

theorem pwrcapWrite_outOfRange (s : State) {v : Word} (h : 2000 < v.toNat ∨ v.toNat < 500) : pwrcapWrite s v = rejectM s 0x400 := by
  rw [pwrcapWrite, if_pos]
  rcases h with h | h <;> simp [h]

/-! ### Port budgets -/

/-- The end of a budget period leaves the budgets written, and lets time pass. -/
theorem execBudgetPeriod_taken (s : State) : ∃ t, execBudgetPeriod s = .next t
    ∧ t = { s with budget := t.budget, qtime := t.qtime, freeCtr := s.freeCtr + 1 }
    ∧ t.budget = (s.mgmt.filter fun e => decide (0x1000 ≤ e.1) && decide (e.1 < 0x2000)).map fun e => (((e.1 - 0x1000) / 64) * 8 + e.1 % 64 / 8, e.2) :=
  ⟨_, rfl, rfl, rfl⟩

/-- Settles O53: by the lemma of each write, and of each end of what a write started. -/
theorem managementBlock : Obligations.ManagementBlock := by
  unfold Obligations.ManagementBlock
  intro s n part v err reg
  have herr {off : Nat} (h : off < 65536) {t : State} (ht : t = rejectM s off) : Host.Outcome.next (φ := Fault) (ρ := Refusal) t = .next (err off) :=
    congrArg _ (ht.trans (rejectM_eq s h))
  refine ⟨?set, ?clear, rfl, ?hmove, fun hive dst => execHmoveComplete_empty, execBudgetPeriod_taken s, ?quiesce, execCkptResume_accepted,
    execQuiesceDone_ckpt, ?engineGo, ?runEnd, ?fault, ?cap, ?capOut, fun lower => rfl, ?links, mgmtRead_kept s⟩
  case set =>
    intro hn hv
    have hwrite := execPartSetValid_write hn hv s
    refine ⟨fun hres hok => ⟨fun hp hk => ?_, fun hp hk => ?_, fun hp => ?_⟩, fun hbad => ?_⟩
    · exact hwrite.trans (congrArg _ (partSet_valid hres hok hp hk))
    · exact hwrite.trans (herr (by omega) (partSet_rejected (.inr (.inr ⟨hp, hk⟩))))
    · obtain ⟨dies, hnew⟩ := partSet_new hres hok hp
      exact ⟨_, hwrite.trans (congrArg _ hnew), rfl, rfl, rfl⟩
    · exact hwrite.trans (herr (by omega) (partSet_rejected (hbad.imp_right .inl)))
  case clear =>
    intro hv hp busy
    have hwrite := execPartClearValid_write hv hp
    refine ⟨fun hres hidle => ?_, fun hn hbusy => ?_⟩
    · exact hwrite.trans (congrArg _ (partClear_idle hres hidle))
    · exact hwrite.trans (herr (by omega) (partClear_busy v hbusy))
  case hmove =>
    intro hv i hive
    have hwrite := exec_hmove hv s
    refine ⟨fun hbad => ?_, fun hres hgo => ⟨fun hr => ?_, fun hr => ?_⟩⟩
    · exact hwrite.trans (herr (by omega) (hmoveGo_rejected hbad))
    · exact hwrite.trans (congrArg _ (hmoveGo_refused hres hgo hr))
    · exact hwrite.trans (congrArg _ (hmoveGo_starts hres hgo hr))
  case quiesce =>
    intro hv
    refine ⟨fun hbad => ?_, fun hok => ?_⟩
    · exact (execCkptQuiesce_go hv s).trans (herr (by omega) (if_pos hbad))
    · exact (execCkptQuiesce_go hv s).trans (congrArg _ (if_neg (by rw [hok]; decide)))
  case engineGo =>
    intro hv hrun hres src len tgt hlen hmul hend htgt
    exact congrArg _ ((if_pos hv).trans (ckctlGo_accepted hrun hres hlen hmul hend htgt))
  case runEnd =>
    intro hrun restores
    exact ⟨fun hc => ⟨execCkptRunEnd_done hrun hc n, execCkptRunEnd_pcie hrun n⟩, ⟨length_ckptDone s n, fun i => mem_ckptDone⟩,
      fun ls hs => ckdone_ckptLines hs ls⟩
  case fault => exact fun hp hq => congrArg _ (quiesceFor_valid (s := s.tick) hp hq)
  case cap => exact fun hres h h' => congrArg _ (pwrcapWrite_inRange s hres h h')
  case capOut => exact fun h => herr (by omega) (pwrcapWrite_outOfRange s h)
  case links =>
    intro hn l
    exact ⟨mgmtRead_link s (r := 0) hn (by omega) (by omega), mgmtRead_link s (r := 8) hn (by omega) (by omega),
      mgmtRead_link s (r := 16) hn (by omega) (by omega), mgmtRead_link s (r := 24) hn (by omega) (by omega)⟩

end Sys2Proof.Machine
end
section
/-! The fields of the work identifier and of `cellid`. -/

open Sys2Proof Sys2Proof.Machine

namespace Sys2Proof.Machine

/-- A field of `w` bits from bit `lo`, by its width. -/
theorem bits_of_width {hi lo w : Nat} (h : hi + 1 = lo + w) (v : Nat) : bits v hi lo = v / 2 ^ lo % 2 ^ w := by
  unfold bits
  rw [show hi + 1 - lo = w by omega]

/-! ### The work identifier (spec 02 R46) -/

theorem widLevel_eq (fmt0 i : Nat) : widLevel fmt0 i = fmt0 / 2 ^ (10 * i + 1) % 8 := bits_of_width (w := 3) (by omega) fmt0

theorem widWidth_eq (fmt0 i : Nat) : widWidth fmt0 i = fmt0 / 2 ^ (10 * i + 4) % 64 + 1 :=
  congrArg (· + 1) (bits_of_width (w := 6) (by omega) fmt0)

/-- One of the six fields is present where its level is not 0. -/
theorem widHas_iff {i : Nat} (hi : i < 6) (fmt0 : Nat) : widHas fmt0 i = true ↔ widLevel fmt0 i ≠ 0 := by
  simp [widHas, hi]

/-- A field that is present stands between the one below it and the one above. -/
theorem widPos_succ {i : Nat} (hi : i < 6) (fmt0 : Nat) :
    widPos fmt0 (i + 1) = widPos fmt0 i + if widLevel fmt0 i = 0 then 0 else widWidth fmt0 i := by
  have hstep : widPos fmt0 (i + 1) = if widHas fmt0 i then widPos fmt0 i + widWidth fmt0 i else widPos fmt0 i := by
    simp [widPos, foldN, List.range_succ]
  rw [hstep]
  by_cases hl : widLevel fmt0 i = 0 <;> simp [widHas_iff hi, hl]

/-- A field stands above the fields below it. -/
theorem widPos_eq_sum {i : Nat} (hi : i ≤ 6) (fmt0 : Nat) :
    widPos fmt0 i = ((List.range i).map fun k => if widLevel fmt0 k = 0 then 0 else widWidth fmt0 k).sum := by
  induction i with
  | zero => rfl
  | succ i ih => rw [widPos_succ hi, ih (by omega), List.range_succ, List.map_append, List.sum_append, List.map_singleton, List.sum_singleton]

/-- The bits of a field in the identifier or in the extents. -/
theorem bits_widPos (fmt0 v i : Nat) :
    bits v (widPos fmt0 i + widWidth fmt0 i - 1) (widPos fmt0 i) = v / 2 ^ widPos fmt0 i % 2 ^ widWidth fmt0 i :=
  bits_of_width (by simp [widWidth]; omega) v

theorem widValue_eq {i : Nat} (hi : i < 6) (fmt0 wid : Nat) :
    widValue fmt0 wid i = if widLevel fmt0 i = 0 then 0 else wid / 2 ^ widPos fmt0 i % 2 ^ widWidth fmt0 i := by
  by_cases hl : widLevel fmt0 i = 0 <;> simp [widValue, widHas_iff hi, hl, bits_widPos]

theorem widExtent_eq {i : Nat} (hi : i < 6) (fmt0 fmt1 : Nat) :
    widExtent fmt0 fmt1 i = if widLevel fmt0 i = 0 then 1 else fmt1 / 2 ^ widPos fmt0 i % 2 ^ widWidth fmt0 i + 1 := by
  by_cases hl : widLevel fmt0 i = 0 <;> simp [widExtent, widHas_iff hi, hl, bits_widPos]

/-! ### WIDF (spec 06 R151) -/

/-- What a WIDF writes: a number about the cell's work identifier and its gang's format. -/
theorem widRead_calm {s : State} (h : calm s = true) {f : Hdr → Cell → Nat} (hf : ∀ hdr c, f hdr { c with ilen := 4 } = f hdr c) (rd : Reg) :
    widRead f rd s = .next (after (wrX (begun s 4) rd (BitVec.ofNat 64 (f s.myGang.hdr s.me))) 4) := by
  unfold widRead
  rw [issue_calm h 4 _ _ _ _ rfl, begun_myGang h, begun_me h, hf, setX_calm h, holding_ok, commit_ok]

theorem execWidf_calm {s : State} (h : calm s = true) (rd : Reg) (j : BitVec 3) :
    execWidf rd j s = .next (after (wrX (begun s 4) rd (BitVec.ofNat 64 (widValue s.myGang.hdr.fmt0.toNat s.me.wid.toNat j.toNat))) 4) :=
  widRead_calm h (fun _ _ => rfl) rd

theorem execWidfExt_calm {s : State} (h : calm s = true) (rd : Reg) (j : BitVec 3) :
    execWidfExt rd j s
      = .next (after (wrX (begun s 4) rd (BitVec.ofNat 64 (widExtent s.myGang.hdr.fmt0.toNat s.myGang.hdr.fmt1.toNat j.toNat))) 4) :=
  widRead_calm h (fun _ _ => rfl) rd

theorem execWidfLvl_calm {s : State} (h : calm s = true) (rd : Reg) (j : BitVec 3) :
    execWidfLvl rd j s = .next (after (wrX (begun s 4) rd (BitVec.ofNat 64 (widLevel s.myGang.hdr.fmt0.toNat j.toNat))) 4) :=
  widRead_calm h (fun _ _ => rfl) rd

/-! ### Cell numbers (spec 04 R85) -/

/-- The `w` bits of a word from bit `lo` hold a field, where division finds it in the number. -/
theorem extractLsb'_ofNat_eq {lo w n m : Nat} (h : lo + w ≤ 64) (hm : n / 2 ^ lo % 2 ^ w = m) :
    (BitVec.ofNat 64 n).extractLsb' lo w = BitVec.ofNat w m := by
  apply BitVec.eq_of_toNat_eq
  simp only [BitVec.extractLsb'_toNat, BitVec.toNat_ofNat, Nat.shiftRight_eq_div_pow]
  rw [← hm, show 64 = lo + (64 - lo) by omega, pow_add, Nat.mod_mul_right_div_self, Nat.mod_mod_of_dvd _ (pow_dvd_pow 2 (by omega)), Nat.mod_mod]

theorem csrGet_cellid (s : State) : csrGet s 0xCC4 = BitVec.ofNat 64 s.cur := rfl

/-- Settles O15: WIDF by the value, extent and level of a field, `cellid` by division of the cell's number. -/
theorem identifierFields : Obligations.IdentifierFields := by
  unfold Obligations.IdentifierFields
  refine ⟨?widf, ?cellid⟩
  case widf =>
    intro s rd j h hj f0 f1 i lvl width pos gives
    have hlvl : widLevel f0 i = lvl := widLevel_eq f0 i
    have hwidth : widWidth f0 i = width := widWidth_eq f0 i
    have hpos : widPos f0 i = pos := by
      rw [widPos_eq_sum hj.le]; simp only [widLevel_eq, widWidth_eq]; rfl
    rw [← hlvl, ← hwidth, ← hpos, ← widValue_eq hj, ← widExtent_eq hj]
    exact ⟨(exec_widf s rd j).trans (execWidf_calm h rd j), (exec_widfExt s rd j).trans (execWidfExt_calm h rd j),
      (exec_widfLvl s rd j).trans (execWidfLvl_calm h rd j)⟩
  case cellid =>
    intro s die hive core cell hdie hhive hcore hcell hcur r
    have hfield {lo w m : Nat} (hw : lo + w ≤ 64) (hm : s.cur / 2 ^ lo % 2 ^ w = m) : r.extractLsb' lo w = BitVec.ofNat w m :=
      (congrArg (·.extractLsb' lo w) (csrGet_cellid s)).trans (extractLsb'_ofNat_eq hw hm)
    exact ⟨hfield (by decide) (by omega), hfield (by decide) (by omega), hfield (by decide) (by omega), hfield (by decide) (by omega),
      hfield (m := 0) (by decide) (by omega), by unfold coreOf; omega, by unfold hiveOf coreOf; omega⟩

end Sys2Proof.Machine
end
section
/-! LAUNCH, LAUNCH.NB and ICINV, and the completion of a launch (spec 03 R73 to R81; 05 R113 to R116). -/

open Sys2Proof Sys2Proof.Machine

namespace Sys2Proof.Machine

/-! ### A cell with nothing that holds its instruction

`calm` asks for an instruction at its first turn. One that was parked and is woken has its stage set, and is otherwise as free. -/

/-- The current cell may issue: no register of it is empty, none names a hand-off queue, and no early read is open. -/
structure Unheld (s : State) : Prop where
  issues : canIssue s = true
  xe : s.me.xe = 0
  fe : s.me.fe = 0
  ve : s.me.ve = 0
  hoqen : s.me.csr.hoqen = 0
  early : s.me.early = []

theorem Unheld.of_calm {s : State} (h : calm s = true) : Unheld s := by
  obtain ⟨c, -, rfl, -, hx, hf, hv, hq, he, -⟩ := calm_cell h
  exact ⟨calm_issue h, hx, hf, hv, hq, he⟩

/-- A cell that is calm but for its stage. -/
theorem Unheld.of_woken {s : State} (h : calm (s.modMe fun v => { v with stage := 0 }) = true) : Unheld s := by
  obtain ⟨c, hc, hm, hr, hx, hf, hv, hq, he, -⟩ := calm_cell h
  have hfind : (Tab.find s.cells s.cur).map (fun v => { v with stage := 0 }) = some c := (Tab.find_adjust_self s.cells s.cur _).symm.trans hc
  obtain ⟨c', hc', rfl⟩ := Option.map_eq_some_iff.mp hfind
  have hme := me_of_find hc'
  exact ⟨canIssue_iff.mpr ⟨c', hc', hr⟩, by rw [hme]; exact hx, by rw [hme]; exact hf, by rw [hme]; exact hv, by rw [hme]; exact hq, by rw [hme]; exact he⟩

namespace Unheld

variable {s : State}

theorem modMe_me (h : Unheld s) (f : Cell → Cell) : (s.modMe f).me = f s.me := by
  obtain ⟨c, hc, -⟩ := canIssue_iff.mp h.issues
  rw [me_of_find hc]; exact Machine.modMe_me hc f

/-- A change of the cell that none of its gates shows keeps it free to issue. -/
theorem modMe (h : Unheld s) {f : Cell → Cell} (hf : ∀ c, (f c).run = c.run ∧ (f c).xe = c.xe ∧ (f c).fe = c.fe ∧ (f c).ve = c.ve ∧ (f c).csr = c.csr
    ∧ (f c).early = c.early) : Unheld (s.modMe f) := by
  obtain ⟨c, hc, hr⟩ := canIssue_iff.mp h.issues
  obtain ⟨hrun, hxe, hfe, hve, hcsr, hearly⟩ := hf s.me
  have hme := h.modMe_me f
  refine ⟨canIssue_iff.mpr ⟨f c, ?_, (hf c).1.trans hr⟩, ?_, ?_, ?_, ?_, ?_⟩
  · exact (Tab.find_adjust_self s.cells s.cur f).trans (by rw [hc]; rfl)
  · rw [hme, hxe, h.xe]
  · rw [hme, hfe, h.fe]
  · rw [hme, hve, h.ve]
  · rw [hme, hcsr, h.hoqen]
  · rw [hme, hearly, h.early]

theorem begun (h : Unheld s) (len : Nat) : Unheld (begun s len) := h.modMe fun _ => ⟨rfl, rfl, rfl, rfl, rfl, rfl⟩

theorem operands (h : Unheld s) (srcs dsts : List Dst) : operands s srcs dsts = .ok s := by
  have hfull : ∀ d, isEmpty s.me d = false := isEmpty_full h.xe h.fe h.ve
  have hwait : (srcs ++ dsts).filter (isEmpty s.me) = [] := List.filter_eq_nil_iff.mpr fun d _ => by simp [hfull d]
  unfold Machine.operands
  simp only [queuesOf_nil h.hoqen, List.filter_nil, hfull, Bool.false_or, not_mapped h.hoqen, Bool.false_and, hwait]
  rw [List.find?_eq_none.mpr fun d _ => by cases d <;> simp]
  rfl

/-- An instruction of a free cell executes its body in the state where its turn has begun. -/
theorem issue (h : Unheld s) (len : Nat) (srcs dsts : List Dst) (body : State → Res) :
    issue len noEarlyCheck srcs dsts body s = .next (commit len ((body (Sys2Proof.begun s len)).holding dsts)) := by
  unfold Machine.issue
  rw [if_pos h.issues]
  show (match Machine.operands (Sys2Proof.begun s len) srcs dsts with
    | .error r => Host.Outcome.next (commit len r)
    | .ok s1 => .next (commit len ((body s1).holding dsts))) = _
  rw [(h.begun len).operands]

theorem getX_begun (h : Unheld s) (len : Nat) (r : Reg) : getX (Sys2Proof.begun s len) r = rdX s r :=
  getX_quiet (h.begun len).early (h.begun len).hoqen (by rw [show (Sys2Proof.begun s len).me = _ from h.modMe_me _]) r

theorem begun_myGang (h : Unheld s) (len : Nat) : (Sys2Proof.begun s len).myGang = s.myGang := by
  show s.gang (Sys2Proof.begun s len).me.gang = s.gang s.me.gang
  rw [show (Sys2Proof.begun s len).me = _ from h.modMe_me _]

theorem begun_myLaunch (h : Unheld s) (len : Nat) : (Sys2Proof.begun s len).myLaunch = s.myLaunch :=
  congrArg s.launch (congrArg Gang.launch (h.begun_myGang len))

/-- What the cell has on its way to its homes is as before, where a change keeps its gang. -/
theorem release_modMe (h : Unheld s) (hq : quiet s = true) {f : Cell → Cell} (hf : ∀ c, (f c).gang = c.gang) : release (s.modMe f) = .ok () := by
  refine release_quiet ?_ _
  simp only [quiet, busy, outstandingTo, h.modMe_me, hf, State.modMe_cur, State.modMe_posted, State.modMe_remotes] at hq ⊢
  exact hq

theorem quiet_begun (h : Unheld s) (hq : quiet s = true) (len : Nat) : quiet (Sys2Proof.begun s len) = true := by
  simp only [quiet, busy, outstandingTo, begun_cur, show (Sys2Proof.begun s len).me = _ from h.modMe_me _] at hq ⊢
  exact hq

end Unheld

/-! ### ICINV (spec 05 R113, R114) -/

/-- A start below 2^56 has no bit from bit 56 up. -/
theorem bits_high_of_lt {v : Nat} (h : v < 2 ^ 56) : bits v 63 56 = 0 := by
  rw [bits, Nat.div_eq_of_lt h, Nat.zero_mod]

theorem execIcinv_empty {s : State} (h : calm s = true) (hq : quiet s = true) {a b : Reg} (hstart : (rdX s a).toNat < 2 ^ 56) (hlen : (rdX s b).toNat = 0) :
    execIcinv a b s = .next (after (begun s 8) 8) := by
  have hu := Unheld.of_calm h
  unfold execIcinv
  rw [hu.issue]
  simp only [hu.getX_begun, hlen, bits_high_of_lt hstart, release_quiet (hu.quiet_begun hq 8)]
  rfl

theorem execIcinv_range {s : State} (h : calm s = true) (hq : quiet s = true) {a b : Reg} (hstart : (rdX s a).toNat < 2 ^ 56)
    (hlen : (rdX s b).toNat ≠ 0) (hend : (rdX s a).toNat + (rdX s b).toNat ≤ 2 ^ 57) :
    let first := (rdX s a).toNat / 64 * 64
    let last := ((rdX s a).toNat + (rdX s b).toNat - 1) / 64 * 64
    execIcinv a b s = .next (waiting (dropLines (begun s 8) (asidOf (begun s 8) s.myLaunch.part) (fun k => s.partOfHive k == some s.myLaunch.part) first last)
      (.icinv first last)) := by
  have hu := Unheld.of_calm h
  unfold execIcinv
  rw [hu.issue]
  have hin : ¬ 2 ^ 57 < (rdX s a).toNat + (rdX s b).toNat := Nat.not_lt.mpr hend
  simp only [hu.getX_begun, hu.begun_myLaunch, bits_high_of_lt hstart, release_quiet (hu.quiet_begun hq 8), holding_nil, bne_self_eq_false,
    decide_eq_false hin, Bool.and_false, Bool.or_self, Bool.false_eq_true, if_false, if_neg hlen]
  rfl

theorem execIcinvAcknowledged_waiting {s : State} {cell x y : Nat} (h : (s.cell cell).run = .parked (.icinv x y)) :
    execIcinvAcknowledged cell s = .next (finishCell s cell ((s.cell cell).pc + 8)) := by
  unfold execIcinvAcknowledged; rw [h]

/-! ### LAUNCH (spec 03 R76 to R79) -/

/-- LAUNCH with its checks made. -/
def launchPast (s : State) : State := (begun s 8).modMe fun v => { v with stage := 1 }

theorem Unheld.launchPast {s : State} (h : Unheld s) : Unheld (launchPast s) := (h.begun 8).modMe fun _ => ⟨rfl, rfl, rfl, rfl, rfl, rfl⟩

/-- A packet stands in the slot: QWR rises by one, and its old value is the result (spec 03 R78). -/
def appended (s1 : State) (key : Nat) (d : Reg) (n : Nat) : State :=
  lateX (s1.modQueue key fun q => { q with qwr := q.qwr + 1, floor := s1.stamp }) d (BitVec.ofNat 64 n)

theorem launchLoop_room {t s1 : State} {d : Reg} {sel : Word} {key dva : Nat} (nb : Bool) (hroom : (t.queue key).qwr - (t.queue key).qrd < (t.queue key).ring)
    (hslot : appendSlot t (t.queue key) sel (launchPacketOf dva) = .ok s1) (hfit : (t.queue key).qwr < 2 ^ 64) (hho : s1.me.csr.hoqen = 0) :
    launchLoop nb d sel key dva t = .ok (.ok (appended s1 key d (t.queue key).qwr)) := by
  have hdefer := defer_x (t := s1.modQueue key fun q => { q with qwr := q.qwr + 1, floor := s1.stamp }) hho d (BitVec.ofNat 64 (t.queue key).qwr)
  rw [BitVec.toNat_ofNat, Nat.mod_eq_of_lt hfit] at hdefer
  unfold launchLoop appended
  rw [if_neg (Nat.not_le.mpr hroom), hslot, ← hdefer]
  rfl

theorem launchLoop_full {t : State} {key : Nat} (hfull : (t.queue key).ring ≤ (t.queue key).qwr - (t.queue key).qrd) (d : Reg) (sel : Word) (dva : Nat) :
    launchLoop false d sel key dva t = .error (.park t (.queue key)) := by
  unfold launchLoop
  rw [if_pos hfull]; rfl

theorem launchLoop_full_nb {t : State} {key : Nat} (hfull : (t.queue key).ring ≤ (t.queue key).qwr - (t.queue key).qrd) (hho : t.me.csr.hoqen = 0)
    (d : Reg) (sel : Word) (dva : Nat) : launchLoop true d sel key dva t = .ok (.ok (lateX t d (BitVec.allOnes 64))) := by
  unfold launchLoop
  rw [if_pos hfull, ← defer_x hho]
  rfl

/-- A LAUNCH that passes its checks goes into its loop. -/
theorem launchOp_checked {s : State} (h : calm s = true) (hq : quiet s = true) {a b : Reg} {key dva : Nat} (htgt : launchTarget (begun s 8) (rdX s b) = some key)
    (hseg : segCheck s.myGang (rdX s a) 256 rRead = .ok dva) (hal : dva % 64 = 0) (hap : bit dva 56 = false) (nb : Bool) (d : Reg) :
    launchOp nb d a b s = .next (commit 8 ((Op.res (launchLoop nb d (rdX s b) key dva (launchPast s))).holding [.x d])) := by
  have hu := Unheld.of_calm h
  have hst : (begun s 8).me.stage ≠ 1 := by
    obtain ⟨c, -, rfl, -, -, -, -, -, -, -, -, -, -, hst⟩ := calm_cell h
    rw [begun_me h, hst]; decide
  have hrel := (hu.begun 8).release_modMe (hu.quiet_begun hq 8) (f := fun v => { v with stage := 1 }) fun _ => rfl
  unfold launchOp
  rw [hu.issue]
  simp only [hu.getX_begun, hu.begun_myGang, if_neg hst, htgt, hseg, hal, hap, hrel]
  rfl

/-- A LAUNCH that is woken goes on with its loop (spec 03 R78). -/
theorem launchOp_woken {s : State} (h : calm (s.modMe fun v => { v with stage := 0 }) = true) (hq : quiet s = true) (hst : s.me.stage = 1) (nb : Bool) (d a b : Reg) :
    launchOp nb d a b s
      = .next (commit 8 ((Op.res (launchLoop nb d (rdX s b) (selectedQueue s (rdX s b)) (eaDva s.myGang (rdX s a)) (launchPast s))).holding [.x d])) := by
  have hu := Unheld.of_woken h
  have hst' : (begun s 8).me.stage = 1 := (congrArg Cell.stage (hu.modMe_me _)).trans hst
  have hrel := (hu.begun 8).release_modMe (hu.quiet_begun hq 8) (f := fun v => { v with stage := 1 }) fun _ => rfl
  have hsel : selectedQueue (begun s 8) (rdX s b) = selectedQueue s (rdX s b) := by unfold selectedQueue; rw [hu.begun_myLaunch]
  unfold launchOp
  rw [hu.issue]
  simp only [hu.getX_begun, hu.begun_myGang, if_pos hst', hsel, hrel]
  rfl

/-! ### The completion of a launch (spec 03 R73 to R75) -/

/-- A launch with a signal of a MOPA left to perform is not complete (spec 11 R268). -/
theorem completeLaunch_mopas {s : State} {lid : Nat} (h : launchMopas s lid = true) : completeLaunch s lid = s := by
  unfold completeLaunch
  split
  · rfl
  · rw [if_pos (by rw [h, Bool.or_true])]

/-- A launch whose work has ended completes: its accesses are performed, and its writes follow in order. -/
theorem completeLaunch_ended {s : State} {lid : Nat} {l : Launch} (hl : Tab.find s.launches lid = some l) (hst : l.st ≠ .complete)
    (hend : launchEnded s lid = true) (hrem : launchRemotes s lid = false) (hmop : launchMopas s lid = false) :
    let t := (performAll { s with posted := s.posted.filter fun p => p.launch != lid } (s.posted.filter fun p => p.launch == lid)).modLaunch lid
      fun l => { l with st := .complete }
    let word (d : Nat) (b : CompWord) : List (Nat × CompWord) := if d = 0 then [] else [(d, b)]
    completeLaunch s lid = compRun compDone { t with nextId := t.nextId + 1 }
      { id := t.nextId, asid := l.asid, part := l.part, crec := l.hdr.crec, die := l.die s, irq := l.irq, launch := some lid
        writes := word l.hdr.crec.toNat .record ++ word l.hdr.csig.toNat .less ++ word l.psig.toNat .less } := by
  have hst' : (l.st == .complete) = false := beq_eq_false_iff_ne.mpr hst
  simp only [completeLaunch, hl, hst', hend, hrem, hmop, Bool.not_true, Bool.or_self, Bool.false_eq_true, if_false]

theorem oneWrite_record (s : State) {c : CompWrite} {lid : Nat} (h : c.launch = some lid) (at_ : Nat) :
    let t := noteUnit s.tick c.die c.asid at_ 64 .store
    oneWrite s c (at_, .record) = (t, unitWrite t c.die c.asid at_ (launchRecord (t.launch lid) t.qtime)) := by
  simp only [oneWrite, h, Option.getD_some]

@[simp] theorem length_leBytes (v n : Nat) : (leBytes v n).length = n := by
  induction n generalizing v with
  | zero => rfl
  | succ n ih => rw [leBytes, List.length_cons, ih]

@[simp] theorem length_zeros (n : Nat) : (zeros n).length = n := List.length_replicate

/-- The completion record has 64 bytes (spec 03 R73). -/
theorem length_launchRecord (l : Launch) (now : Nat) : (launchRecord l now).length = 64 := by
  simp [launchRecord]

/-- Its eight bytes at 0x20 hold the time at which it is written. -/
theorem launchRecord_time (l : Launch) (now : Nat) : ((launchRecord l now).drop 0x20).take 8 = leBytes now 8 := by
  rfl

/-- Settles O41: LAUNCH by its loop, from the first turn or when woken; the completion by what its test says. -/
theorem launchAndInvalidate : Obligations.LaunchAndInvalidate := by
  unfold Obligations.LaunchAndInvalidate
  intro s s1 d a b key dva lid cell
  refine ⟨?issued, ?woken, fun x y => execIcinvAcknowledged_waiting, ?complete, ?record⟩
  case issued =>
    intro h hq
    refine ⟨fun htgt hseg hal hap hfit => ⟨fun hroom hslot hho => ?_, fun hfull => ?_⟩, fun hstart hend => ⟨fun hlen => ?_, fun hlen => ?_⟩⟩
    · have hgo (nb : Bool) := (launchOp_checked h hq htgt hseg hal hap nb d).trans
        (congrArg (fun r => Host.Outcome.next (commit 8 ((Op.res r).holding [.x d]))) (launchLoop_room (t := launchPast s) nb hroom hslot hfit hho))
      exact ⟨hgo false, hgo true⟩
    · have hho := (Unheld.of_calm h).launchPast.hoqen
      have hgo (nb : Bool) := launchOp_checked h hq htgt hseg hal hap nb d
      have hwait := hgo false
      rw [launchLoop_full (t := launchPast s) hfull, show ∀ r, Op.res (.error r) = r from fun _ => rfl, holding_park _ _ (queuesOf_nil hho _)] at hwait
      have hfail := hgo true
      rw [launchLoop_full_nb (t := launchPast s) hfull hho] at hfail
      exact ⟨hwait, hfail⟩
    · exact execIcinv_empty h hq hstart hlen
    · exact execIcinv_range h hq hstart hlen hend
  case woken =>
    intro h hq hst hkey u q hfit hroom hslot hho
    subst hkey
    refine (launchOp_woken h hq hst false d a b).trans ?_
    rw [launchLoop_room (t := launchPast s) false hroom hslot hfit hho]
    rfl
  case complete =>
    intro l hl hst hend hrem
    exact ⟨fun hmop => congrArg _ (completeLaunch_mopas hmop), fun hmop => congrArg _ (completeLaunch_ended hl hst hend hrem hmop)⟩
  case record =>
    intro c at_ hc
    exact ⟨oneWrite_record s hc at_, fun now => ⟨length_launchRecord _ now, launchRecord_time _ now⟩⟩

end Sys2Proof.Machine
end
section
/-! The packets of a queue: what the dispatch unit does with the packet of the queue whose turn it is (spec 03 R62 to R71, R75; 20 R412). -/

open Sys2Proof Sys2Proof.Machine

namespace Sys2Proof.Machine

/-! ### The table of queues -/

theorem queue_modQueue_self (s : State) (key : Nat) {f : Queue → Queue} (h : f (s.queue key) ≠ {}) : (s.modQueue key f).queue key = f (s.queue key) := by
  show Tab.getD (Tab.setD s.queues key {} (f (s.queue key))) key {} = _
  rw [Tab.setD, if_neg h, Tab.getD, Tab.find_put_self, Option.getD_some]

/-- A translation on a die leaves the queues alone. -/
theorem noteDie_queues (s : State) (die asid dva : Nat) : (noteDie s die asid dva).queues = s.queues := by
  obtain ⟨dies, heat, freeCtr, h⟩ := noteDie_seen s die asid dva
  rw [h]

theorem noteUnit_queues (s : State) (die asid dva n : Nat) (kind : Kind) : (noteUnit s die asid dva n kind).queues = s.queues := by
  unfold noteUnit
  simp only
  split
  · rfl
  · exact List.foldlRecOn (motive := fun t : State => t.queues = s.queues) _ _ rfl fun t ht p _ => (noteDie_queues t die asid _).trans ht

@[simp] theorem queue_noteQueue (s : State) (key dva n : Nat) (kind : Kind) (k : Nat) : (noteQueue s key dva n kind).queue k = s.queue k := by
  unfold State.queue noteQueue
  rw [noteUnit_queues]

@[simp] theorem queue_tick (s : State) (k : Nat) : s.tick.queue k = s.queue k := rfl

/-! ### The queue whose turn it is -/

/-- The dispatch unit serves queue `q` of partition `part` next. -/
structure AtTurn (s : State) (part q : Nat) : Prop where
  small : q < 64
  takeable : takeable s (queueKey part q) = true
  due : dueQueue s (s.queue (queueKey part q)).die = some (queueKey part q)

/-- The unit has served a queue: the next one's turn follows it, and its packet's slot was translated. -/
def served (s : State) (key : Nat) : State :=
  noteQueue (s.modDie (s.queue key).die fun v => { v with qrr := key + 1 }) key ((s.queue key).slot (s.queue key).qrd) 128

/-- A packet that was read stands in its queue. -/
def taken (s : State) (key : Nat) (d : List Byte) : State := (served s key).modQueue key fun v => { v with pkt := d }

/-- A queue whose packet may be taken is enabled, and no packet holds it. -/
theorem free_of_takeable {s : State} {key : Nat} (h : takeable s key = true) : (s.queue key).en = true ∧ (s.queue key).busy = .none := by
  simp only [takeable, Bool.and_eq_true, beq_iff_eq] at h
  obtain ⟨⟨⟨⟨-, hen⟩, -⟩, hbusy⟩, -⟩ := h
  exact ⟨hen, hbusy⟩

/-- An enabled queue is listed, whatever packet stands in it. -/
theorem queue_ne_default {x : Queue} (h : x.en = true) (d : List Byte) : ({ x with pkt := d } : Queue) ≠ {} := by
  intro he
  have hen : ({ x with pkt := d } : Queue).en = ({} : Queue).en := congrArg Queue.en he
  rw [show ({ x with pkt := d } : Queue).en = x.en from rfl, h] at hen
  exact absurd hen (by decide)

@[simp] theorem queue_served (s : State) (key k : Nat) : (served s key).queue k = s.queue k := queue_noteQueue ..

namespace AtTurn

variable {s : State} {part q : Nat}

/-- The packet that was taken is all that changes of the queue. -/
theorem queue_taken (h : AtTurn s part q) (d : List Byte) : (taken s (queueKey part q) d).queue (queueKey part q) = { s.queue (queueKey part q) with pkt := d } := by
  have hne := queue_ne_default (free_of_takeable h.takeable).1 d
  rw [← queue_served s] at hne
  exact (queue_modQueue_self _ _ hne).trans (by rw [queue_served])

theorem taken_die (h : AtTurn s part q) (d : List Byte) : ((taken s (queueKey part q) d).queue (queueKey part q)).die = (s.queue (queueKey part q)).die :=
  (congrArg Queue.die (h.queue_taken d)).trans rfl

theorem taken_asid (h : AtTurn s part q) (d : List Byte) : ((taken s (queueKey part q) d).queue (queueKey part q)).asid = (s.queue (queueKey part q)).asid :=
  (congrArg Queue.asid (h.queue_taken d)).trans rfl

theorem taken_qrd (h : AtTurn s part q) (d : List Byte) : ((taken s (queueKey part q) d).queue (queueKey part q)).qrd = (s.queue (queueKey part q)).qrd :=
  (congrArg Queue.qrd (h.queue_taken d)).trans rfl

/-- Nothing keeps the unit from taking the packet. -/
theorem gate (h : AtTurn s part q) :
    (decide (64 ≤ q) || !Machine.takeable s (queueKey part q) || dueQueue s (s.queue (queueKey part q)).die != some (queueKey part q)) = false := by
  simp [h.small, h.takeable, h.due]

/-- The unit may not read the packet: the queue halts with PKTFAULT (spec 03 R69). -/
theorem takePacket_denied (h : AtTurn s part q) (hr : readPacket s (queueKey part q) = .error .denied) (ty : Nat) (f : State → Nat → List Byte → State) :
    takePacket ty s part q f = haltQueue (served s (queueKey part q)) (queueKey part q) hPKTFAULT := by
  simp only [takePacket, h.gate, hr, Bool.false_eq_true, if_false, packetStop, UStop.record, served]

/-- A packet that breaks R65 halts the queue with BADPKT. -/
theorem takePacket_bad (h : AtTurn s part q) {d : List Byte} (hr : readPacket s (queueKey part q) = .ok d) (hb : badPacket d = true) (ty : Nat)
    (f : State → Nat → List Byte → State) : takePacket ty s part q f = haltQueue (served s (queueKey part q)) (queueKey part q) hBADPKT := by
  simp only [takePacket, h.gate, hr, hb, Bool.false_eq_true, if_false, if_true, served]

end AtTurn

/-- The packet of the queue whose turn it is was read as `d`, well formed and of type `ty`. -/
structure Offers (s : State) (part q : Nat) (d : List Byte) (ty : Nat) : Prop extends AtTurn s part q where
  read : readPacket s (queueKey part q) = .ok d
  wellFormed : badPacket d = false
  type : pkt d 0 1 = ty

/-- A packet of the type that the step takes is taken. -/
theorem Offers.takePacket_eq {s : State} {part q : Nat} {d : List Byte} {ty : Nat} (h : Offers s part q d ty) (f : State → Nat → List Byte → State) :
    takePacket ty s part q f = f (taken s (queueKey part q) d) (queueKey part q) d := by
  simp only [takePacket, h.gate, h.read, h.wellFormed, h.type, Bool.false_eq_true, if_false, if_true, taken, served]

/-! ### UNLOAD and FENCE wait for the launches of their queue (spec 03 R67, R71) -/

/-- A packet goes on where no launch of its queue is left, and otherwise holds the queue. -/
def afterLaunches (f : State → Nat → List Byte → State) (s : State) (key : Nat) (d : List Byte) : State :=
  if launchesLeft s key then s.modQueue key fun v => { v with busy := .waits } else f s key d

/-- A queue that waits for nothing takes the packet. -/
theorem waitLaunches_takes {s : State} {part q : Nat} (h : takeable s (queueKey part q) = true) (ty : Nat) (f : State → Nat → List Byte → State) :
    waitLaunches ty s part q f = takePacket ty s part q (afterLaunches f) := by
  have hb : ((s.queue (queueKey part q)).busy == .waits) = false := by rw [(free_of_takeable h).2]; rfl
  unfold waitLaunches afterLaunches
  simp only [hb, Bool.false_eq_true, if_false]

/-- A packet that waited goes on when the last launch has gone. -/
theorem waitLaunches_resumes {s : State} {part q ty : Nat} (hb : (s.queue (queueKey part q)).busy = .waits)
    (hty : pkt (s.queue (queueKey part q)).pkt 0 1 = ty) (hl : launchesLeft s (queueKey part q) = false) (f : State → Nat → List Byte → State) :
    waitLaunches ty s part q f = f s (queueKey part q) (s.queue (queueKey part q)).pkt := by
  unfold waitLaunches
  simp only [hb, hty, hl, beq_self_eq_true, if_true, Bool.false_eq_true, if_false]

/-- A packet with launches of its queue left waits. -/
theorem Offers.waitLaunches_waits {s : State} {part q ty : Nat} {d : List Byte} (h : Offers s part q d ty)
    (hl : launchesLeft (taken s (queueKey part q) d) (queueKey part q) = true) (f : State → Nat → List Byte → State) :
    waitLaunches ty s part q f = (taken s (queueKey part q) d).modQueue (queueKey part q) fun v => { v with busy := .waits } := by
  rw [waitLaunches_takes h.takeable, h.takePacket_eq, afterLaunches, if_pos hl]

/-- One with none left goes on at once. -/
theorem Offers.waitLaunches_goes {s : State} {part q ty : Nat} {d : List Byte} (h : Offers s part q d ty)
    (hl : launchesLeft (taken s (queueKey part q) d) (queueKey part q) = false) (f : State → Nat → List Byte → State) :
    waitLaunches ty s part q f = f (taken s (queueKey part q) d) (queueKey part q) d := by
  rw [waitLaunches_takes h.takeable, h.takePacket_eq, afterLaunches, hl]
  rfl

/-! ### The step of each type of packet -/

/-- The step that takes a packet of a type. -/
def packetStep (part q ty : Nat) : Instr :=
  if ty = 1 then .launchPacket part q else if ty = 2 then .waitsig part q else if ty = 3 then .setsig part q
  else if ty = 4 then .loadPacket part q else if ty = 5 then .unload part q else .fencePacket part q

/-- At its queue's turn each of these steps is a take of a packet. -/
theorem exec_packetStep {s : State} {part q : Nat} (h : takeable s (queueKey part q) = true) (ty : Nat) :
    ∃ ty' f, exec (packetStep part q ty) s = .next (takePacket ty' s part q f) := by
  unfold packetStep
  split_ifs
  · exact ⟨1, _, rfl⟩
  · exact ⟨2, _, rfl⟩
  · exact ⟨3, _, rfl⟩
  · exact ⟨4, _, rfl⟩
  · exact ⟨5, _, congrArg _ (waitLaunches_takes h 5 _)⟩
  · exact ⟨6, _, congrArg _ (waitLaunches_takes h 6 _)⟩

/-- The word that a WAITSIG packet reads meets its condition. -/
def waitHolds (d w : List Byte) : Bool := sigCond (pkt d 0x18 1) (signedOf 64 (leNat w)) (signedOf 64 (pkt d 0x20 8))

/-- A WAITSIG packet completes where its condition holds, and otherwise waits (spec 03 R68). -/
theorem testWait_read {s : State} {key : Nat} {d w : List Byte}
    (hr : unitRead (noteQueue s key (pkt d 0x10 8) 8) (s.queue key).die (s.queue key).asid (pkt d 0x10 8) 8 = .ok w) (since : Nat) :
    testWait s key since d = if waitHolds d w then packetDone (noteQueue s key (pkt d 0x10 8) 8) key d true []
      else (noteQueue s key (pkt d 0x10 8) 8).modQueue key fun v => { v with busy := .waitsig since } := by
  rw [testWait, hr]
  rfl

theorem rereadQueue_waiting {s : State} {key since : Nat} (h : (s.queue key).busy = .waitsig since) :
    rereadQueue s key = testWait s key since (s.queue key).pkt := by
  unfold rereadQueue; rw [h]

/-- The limit passes with the condition false: the queue halts with WAITEXP (spec 03 R68, R69). -/
theorem execWaitsigLimit_expired {s t : State} {part q since : Nat} (h : (s.queue (queueKey part q)).busy = .waitsig since)
    (hlimit : pkt (s.queue (queueKey part q)).pkt 0x28 8 ≠ 0) (hreread : rereadQueue s (queueKey part q) = t)
    (hstill : (t.queue (queueKey part q)).busy = .waitsig since) :
    execWaitsigLimit part q s = .next (haltQueue (t.timeTo (since + pkt (s.queue (queueKey part q)).pkt 0x28 8)) (queueKey part q) hWAITEXP) := by
  unfold execWaitsigLimit
  simp only [h, hreread, hstill, bne_iff_ne.mpr hlimit, beq_self_eq_true, Bool.and_self, if_true]

theorem execWaitReread_cell {s : State} {cell k : Nat} {v : Bool} (h : (s.cell cell).run = .parked (.signal k v)) :
    execWaitReread (.cell cell) s = .next (s.modCell cell fun v => { v with run := .ready }) := by
  simp only [execWaitReread, h]

/-- A queue that waits for a word is listed. -/
theorem queue_ne_default_of_waitsig (x : Queue) (since : Nat) : ({ x with busy := .waitsig since } : Queue) ≠ {} :=
  fun he => QBusy.noConfusion (congrArg Queue.busy he)

section
variable {s : State} {part q : Nat} {d : List Byte}

/-- LAUNCH: the packet is past and its launch is taken (spec 03 R67; 02 R44). -/
theorem execLaunchPacket_taken (hp : Offers s part q d 1) {h : List Byte} :
    let key := queueKey part q
    let x := s.queue key
    let u := noteQueue (taken s key d) key (pkt d 0x10 8) 256
    unitRead u x.die x.asid (pkt d 0x10 8) 256 (some ((taken s key d).queue key).floor) = .ok h →
      execLaunchPacket part q s = .next (takeLaunch (pastPacket { u with freeCtr := u.freeCtr + 1 } key) part key x.asid x.qrd (hdrOf h)
        (BitVec.ofNat 64 (pkt d 8 8)) (if pkt d 1 1 = 1 then some (pkt d 2 1) else none) none).1 := by
  intro key x u hread
  unfold execLaunchPacket
  rw [hp.takePacket_eq]
  simp only [hp.taken_die, hp.taken_asid, hp.taken_qrd, hread, key, x, u]

/-- SETSIG: its word is updated, and it completes (spec 03 R66). -/
theorem execSetsig_done (hp : Offers s part q d 3) {s1 : State} :
    let key := queueKey part q
    let x := s.queue key
    unitSignal (noteQueue (taken s key d) key (pkt d 0x10 8) 8 .atomic) x.die x.asid (pkt d 0x10 8) (pkt d 0x18 1 == 1) (BitVec.ofNat 64 (pkt d 0x20 8))
        = .ok s1 → execSetsig part q s = .next (packetDone s1 key d false []) := by
  intro key x hupdate
  unfold execSetsig
  rw [hp.takePacket_eq]
  simp only [hp.taken_die, hp.taken_asid, hupdate, key, x]

/-- WAITSIG: its word is tested at once, and the time of the take counts for its limit (spec 03 R68). -/
theorem execWaitsig_tests (hp : Offers s part q d 2) :
    let t := (taken s (queueKey part q) d).tick
    execWaitsig part q s = .next (testWait t (queueKey part q) t.qtime d) := by
  unfold execWaitsig
  rw [hp.takePacket_eq]

/-- LOAD of a handle that is held: one more reference (spec 03 R70). -/
theorem execLoadPacket_held (hp : Offers s part q d 4) (hh : pkt d 0x28 4 ≠ 0) {o : Obj} (ho : heldObject (taken s (queueKey part q) d) part (pkt d 0x28 4) = some o) :
    execLoadPacket part q s = .next (packetDone ((taken s (queueKey part q) d).modObj (pkt d 0x28 4) fun o => { o with refs := o.refs + 1 }) (queueKey part q) d true
      [(pkt d 0x20 8, .bytes (loadRecord (pkt d 0x28 4) { o with refs := o.refs + 1 }))]) := by
  unfold execLoadPacket
  rw [hp.takePacket_eq]
  simp only [bne_iff_ne.mpr hh, if_true, ho]

/-- LOAD of a handle that is not held halts the queue with BADHANDLE. -/
theorem execLoadPacket_badHandle (hp : Offers s part q d 4) (hh : pkt d 0x28 4 ≠ 0)
    (ho : heldObject (taken s (queueKey part q) d) part (pkt d 0x28 4) = none) :
    execLoadPacket part q s = .next (haltQueue (taken s (queueKey part q) d) (queueKey part q) hBADHANDLE) := by
  unfold execLoadPacket
  rw [hp.takePacket_eq]
  simp only [bne_iff_ne.mpr hh, if_true, ho]

/-- LOAD of a file: the record tells of the object, or why there is none (spec 03 R70). -/
theorem execLoadPacket_file (hp : Offers s part q d 4) (hh : pkt d 0x28 4 = 0) {file : List Byte} {s1 : State} {st : Nat} {r : Option (Nat × Obj)} :
    let key := queueKey part q
    let x := s.queue key
    let u := noteQueue (taken s key d) key (pkt d 0x10 8) (pkt d 0x18 8)
    unitRead u x.die x.asid (pkt d 0x10 8) (pkt d 0x18 8) = .ok file → loadObject u part x.asid (pkt d 0x2C 1 == 1) file = (s1, st, r) →
      execLoadPacket part q s = .next (match r with
        | some (n, o) => packetDone s1 key d true [(pkt d 0x20 8, .bytes (loadRecord n o))]
        | none => packetDone { s1 with freeCtr := s1.freeCtr + 1 } key d true [(pkt d 0x20 8, .bytes (failRecord s1 st))]) := by
  intro key x u hread hload
  unfold execLoadPacket
  rw [hp.takePacket_eq]
  cases r <;> simp only [hh, bne_self_eq_false, Bool.false_eq_true, if_false, hp.taken_die, hp.taken_asid, hread, hload, key, x, u]

/-- What UNLOAD does once no launch of its queue is left: it drops a reference, or halts the queue (spec 03 R71). -/
def unloadNow (part : Nat) (s : State) (key : Nat) (d : List Byte) : State :=
  match heldObject s part (pkt d 0x10 4) with
  | none => haltQueue s key hBADHANDLE
  | some _ => packetDone (dropRef s (pkt d 0x10 4)) key d true []

theorem execUnload_eq (part q : Nat) (s : State) : execUnload part q s = .next (waitLaunches 5 s part q (unloadNow part)) := rfl

theorem unloadNow_held {key : Nat} {o : Obj} (h : heldObject s part (pkt d 0x10 4) = some o) :
    unloadNow part s key d = packetDone (dropRef s (pkt d 0x10 4)) key d true [] := by
  unfold unloadNow; rw [h]

theorem unloadNow_badHandle {key : Nat} (h : heldObject s part (pkt d 0x10 4) = none) : unloadNow part s key d = haltQueue s key hBADHANDLE := by
  unfold unloadNow; rw [h]

end

/-- Settles O45: each step by the lemma that says what it does with the packet that was taken, or with the one that waits. -/
theorem packets : Obligations.Packets := by
  unfold Obligations.Packets
  intro s part q d h key x t0 t due arm good noted word holds
  have offers {ty : Nat} (hg : good ty) : Offers s part q d ty := by
    obtain ⟨⟨hq, ht, hd, hr⟩, hb, hty⟩ := hg
    exact ⟨⟨hq, ht, hd⟩, hr, hb, hty⟩
  refine ⟨?bad, ?denied, fun hg => execLaunchPacket_taken (offers hg), fun hg s1 => execSetsig_done (offers hg), ?waitsig, ?waits,
    fun cell k v => execWaitReread_cell, ?load, ?unload, ?fence, ?resumes⟩
  case bad =>
    intro ty ⟨hq, ht, hd, hr⟩ hb
    obtain ⟨ty', f, hstep⟩ := exec_packetStep ht ty
    exact hstep.trans (congrArg _ (AtTurn.takePacket_bad ⟨hq, ht, hd⟩ hr hb ty' f))
  case denied =>
    intro ty hq ht hd hr
    obtain ⟨ty', f, hstep⟩ := exec_packetStep ht ty
    exact hstep.trans (congrArg _ (AtTurn.takePacket_denied ⟨hq, ht, hd⟩ hr ty' f))
  case waitsig =>
    intro hg w hw
    have hp := offers hg
    have hread : unitRead (noted t.tick 8) (t.tick.queue key).die (t.tick.queue key).asid (pkt d 0x10 8) 8 = .ok w := by
      rw [queue_tick, show (t.queue key).die = x.die from hp.taken_die d, show (t.queue key).asid = x.asid from hp.taken_asid d]; exact hw
    have htests := (execWaitsig_tests hp).trans (congrArg _ (testWait_read hread _))
    exact ⟨fun hh => htests.trans (congrArg _ (if_pos hh)), fun hh => htests.trans (congrArg _ (if_neg (Bool.eq_false_iff.mp hh)))⟩
  case waits =>
    intro since w p u hb hw
    have hreread := (rereadQueue_waiting hb).trans (testWait_read hw since)
    refine ⟨fun hh => ?_, fun hh => ?_⟩
    · have hdone := hreread.trans (if_pos hh)
      exact ⟨congrArg _ hdone, congrArg _ hdone⟩
    · have hstays := hreread.trans (if_neg (Bool.eq_false_iff.mp hh))
      exact ⟨congrArg _ hstays, fun hlimit _ => execWaitsigLimit_expired hb hlimit hstays
        (congrArg Queue.busy (queue_modQueue_self _ _ (queue_ne_default_of_waitsig _ since)))⟩
  case load =>
    intro hg
    have hp := offers hg
    exact ⟨fun o hh ho => execLoadPacket_held hp hh ho, fun hh ho => execLoadPacket_badHandle hp hh ho, fun hh file s1 st r => execLoadPacket_file hp hh⟩
  case unload =>
    intro hg
    have hp := offers hg
    have hstep := execUnload_eq part q s
    have hgo := fun hl => hp.waitLaunches_goes hl (unloadNow part)
    exact ⟨fun hl => hstep.trans (congrArg _ (hp.waitLaunches_waits hl _)), fun hl ho => hstep.trans (congrArg _ ((hgo hl).trans (unloadNow_badHandle ho))),
      fun hl o ho => hstep.trans (congrArg _ ((hgo hl).trans (unloadNow_held ho)))⟩
  case fence =>
    intro hg
    have hp := offers hg
    exact ⟨fun hl => congrArg _ (hp.waitLaunches_waits hl _), fun hl => congrArg _ (hp.waitLaunches_goes hl _)⟩
  case resumes =>
    intro hb hl p
    exact ⟨fun hty => congrArg _ (waitLaunches_resumes hb hty hl _),
      fun o hty ho => (execUnload_eq part q s).trans (congrArg _ ((waitLaunches_resumes hb hty hl (unloadNow part)).trans (unloadNow_held ho)))⟩

end Sys2Proof.Machine
end
section
/-! The placement of a die, its period, forced landings and the save of a landed gang (spec 04 R91 to R96; 18 R381 to R383). -/

open Sys2Proof Sys2Proof.Machine

namespace Sys2Proof.Machine

/-! ### One placement of a die (spec 04 R91 to R93) -/

/-- The state in which a placement chooses: homeless groups have been moved to hives that can hold them. -/
def rehomed (s : State) : State := (s.groups.map (·.1)).foldl rehome s

/-- What a die's dispatch unit serves next: the choice of the first partition, in the order of turns, that has one. -/
def dieChoice (s : State) (die : Nat) : Option (Nat × Item × Cand) :=
  (partOrder s die).findSome? fun p => (chooseIn s die p (candidates s (pending s) p)).map fun e => (p, e)

/-- What a die does with what it serves: it commits an item that fits and counts it, it has the gangs pre-empted whose capacity the item needs, and
with nothing to serve its hives may rob. -/
def serve (s : State) (die : Nat) : Option (Nat × Item × Cand) → State
  | some (p, i, .fits spots) => countPlacement (commitItem s i spots) die p (s.launch (itemLaunch s i)).hdr.prio
  | some (p, i, .preempt gs) => (preemptFor s i gs).modDie die fun d => { d with rr := (p + 1) % 16 }
  | some (_, _, .waits) | none => robOn s (pending s) die

section
variable {s : State} {die : Nat}

/-- In READY, and below 4,000 placements of its period, a die serves its choice. -/
theorem placeOne_open (hready : bits (s.mreg 0).toNat 3 0 = 8) (hroom : (s.die die).total < 4000) :
    placeOne s die = serve (rehomed s) die (dieChoice (rehomed s) die) :=
  if_neg (by simp [hready, hroom])

/-- Otherwise its dispatch unit does nothing, and moves no group. -/
theorem placeOne_closed (h : bits (s.mreg 0).toNat 3 0 ≠ 8 ∨ 4000 ≤ (s.die die).total) : placeOne s die = s :=
  if_pos (by simpa using h)

end

/-! ### A new period (spec 04 R93, R94) -/

/-- A new period begins: the die's counts start over, and the shares are those that are written now. -/
theorem execPlacementPeriod_starts (s : State) (die : Nat) :
    ∃ t, execPlacementPeriod die s = .next t ∧ t.dies = (s.modDie die fun d => { d with counts := [], total := 0 }).dies
      ∧ t.cells = s.cells ∧ t.gangs = s.gangs ∧ t.mem = s.mem
      ∧ t.share = (s.mgmt.filter fun e => decide (0x500 ≤ e.1) && decide (e.1 < 0x580)).map fun e => ((e.1 - 0x500) / 8, e.2) :=
  ⟨_, rfl, rfl, rfl, rfl, rfl, rfl⟩

/-! ### A forced landing (spec 18 R382) -/

/-- A cell of a landing gang that has had its turns, and holds no reply, lands without issuing. -/
theorem execForcedLanding_due {s : State} {cell : Nat} {c : Cell} (hc : Tab.find s.cells cell = some c) (hr : c.run = .ready)
    (hg : (s.gang c.gang).st = .landing) (ht : 4096 ≤ c.turns) (hp : c.reply = none) (stops : List Nat) (step : Nat) :
    execForcedLanding cell stops step s = .next (forceCell s cell stops step) := by
  simp [execForcedLanding, hc, hr, hg, ht, hp]

/-! ### What the save of a gang leaves alone -/

/-- The images of a gang move in memory: no gang changes. -/
@[simp] theorem moveImages_gangs (s : State) (g : Gang) (key : Nat) : (moveImages s g key).gangs = s.gangs := by
  unfold moveImages
  split
  · split
    · rfl
    · exact List.foldlRecOn (motive := fun t : State => t.gangs = s.gangs) _ _ rfl fun t ht _ _ => (State.writeBlock_gangs t _ _).trans ht
  · rfl

/-- The context block is memory: writing it changes no gang. -/
@[simp] theorem writeContext_gangs (s : State) (gid : Nat) (v : Saved) : (writeContext s gid v).gangs = s.gangs := by
  simp only [writeContext, State.writeBlock_gangs, moveImages_gangs]

/-- Capacity that comes free is reserved on its core, and nothing else changes. -/
theorem freed_frame (s : State) (gid : Nat) : ∃ cores, freed s gid = { s with cores } := by
  unfold freed freedPart
  simp only
  split
  · split
    · exact ⟨_, rfl⟩
    · exact ⟨_, rfl⟩
  · exact ⟨_, rfl⟩

/-- A cell leaves its slot, and its records at the pager are dropped. -/
def vacate (s : State) (c : Nat) : State :=
  { abandonFaults s c with cells := Tab.del s.cells c, slotSeq := Tab.setD s.slotSeq c 0 (s.cell c).faultSeq }

/-- Cells that leave their slots change no gang, and no memory. -/
theorem foldl_vacate_frame (l : List Nat) (s : State) : (l.foldl vacate s).gangs = s.gangs ∧ (l.foldl vacate s).mem = s.mem :=
  List.foldlRecOn (motive := fun t : State => t.gangs = s.gangs ∧ t.mem = s.mem) l vacate ⟨rfl, rfl⟩ fun _ ht _ _ => ht

/-- Freeing the slots of a gang leaves its entry, and memory, as they are. -/
theorem freeCells_frame (s : State) (gid : Nat) : (freeCells s gid).gangs = s.gangs ∧ (freeCells s gid).mem = s.mem := by
  obtain ⟨cores, hfreed⟩ := freed_frame s gid
  have hslots := foldl_vacate_frame ((freed s gid).gang gid).cells (freed s gid)
  rw [hfreed] at hslots
  unfold freeCells
  rw [hfreed]
  exact hslots

@[simp] theorem freeCells_gangs (s : State) (gid : Nat) : (freeCells s gid).gangs = s.gangs := (freeCells_frame s gid).1

@[simp] theorem freeCells_mem (s : State) (gid : Nat) : (freeCells s gid).mem = s.mem := (freeCells_frame s gid).2

@[simp] theorem wakeWhere_gangs (s : State) (p : Nat → Wait → Bool) : (wakeWhere s p).gangs = s.gangs := rfl

@[simp] theorem wakeWhere_mem (s : State) (p : Nat → Wait → Bool) : (wakeWhere s p).mem = s.mem := rfl

/-! ### The save (spec 18 R381, R383) -/

theorem gang_of_find {s : State} {gid : Nat} {g : Gang} (h : Tab.find s.gangs gid = some g) : s.gang gid = g := by
  rw [State.gang, Tab.getD, h, Option.getD_some]

theorem find_modGang_self (s : State) (gid : Nat) (f : Gang → Gang) : Tab.find (s.modGang gid f).gangs gid = (Tab.find s.gangs gid).map f :=
  Tab.find_adjust_self s.gangs gid f

/-- A gang as its save leaves it: it holds no cell, keeps the images of those it had, and its block stands on the die where it landed. -/
def Gang.savedAs (g : Gang) (gid : Nat) (v : Saved) : Gang :=
  { g with st := .saved, cells := [], saved := some v, victim := none, block := some (contextKey g gid) }

theorem gang_saveGang {s : State} {gid : Nat} {g : Gang} (h : Tab.find s.gangs gid = some g) :
    (saveGang s gid).gang gid = g.savedAs gid (savedOf s gid) := by
  apply gang_of_find
  unfold saveGang
  rw [wakeWhere_gangs, find_modGang_self, freeCells_gangs, State.modCore_gangs, writeContext_gangs, h]
  rfl

/-- The save writes the context block, and no other memory. -/
theorem saveGang_mem (s : State) (gid : Nat) : (saveGang s gid).mem = (writeContext s gid (savedOf s gid)).mem := by
  simp only [saveGang, wakeWhere_mem, State.modGang_mem, freeCells_mem, State.modCore_mem]

/-- A landed gang with nothing under way, and no refused line in what its block takes along, is saved. -/
theorem execGangSaveDone_saves {s : State} {gid : Nat} {g : Gang} (h : Tab.find s.gangs gid = some g) (hst : g.st = .landing) (hall : allLanded s g = true)
    (hbusy : landingBusy s gid = false) (hmove : moveRefused s gid = none) : execGangSaveDone gid s = .next (saveGang s gid) := by
  simp [execGangSaveDone, gang_of_find h, hst, hall, hbusy, hmove]

/-- Settles O46: a placement by the kind of its choice, a landing by its test, a save by the gang and the memory that it leaves. -/
theorem placementAndLanding : Obligations.PlacementAndLanding := by
  unfold Obligations.PlacementAndLanding
  intro s die cell gid step stops s0 choice
  refine ⟨?placement, fun hclosed => congrArg _ (placeOne_closed hclosed), execPlacementPeriod_starts s die,
    fun c hc hr hg ht hp => execForcedLanding_due hc hr hg ht hp stops step, ?save⟩
  case placement =>
    intro hready hroom
    have hserves {c : Option (Nat × Item × Cand)} (hc : choice = c) : exec (.placement die) s = .next (serve s0 die c) :=
      congrArg _ ((placeOne_open hready hroom).trans (congrArg _ hc))
    exact ⟨fun _ _ _ => hserves, fun _ _ _ => hserves, hserves⟩
  case save =>
    intro g hg hst hall hbusy hmove
    have hgang := gang_saveGang hg
    have himages : (savedOf s gid).cells = g.cells.map fun c => { s.cell c with resv := none, early := [], earlyV := [] } := by
      rw [savedOf, gang_of_find hg]
    exact ⟨saveGang s gid, savedOf s gid, execGangSaveDone_saves hg hst hall hbusy hmove, congrArg Gang.st hgang, congrArg Gang.cells hgang,
      congrArg Gang.saved hgang, himages, (congrArg Gang.hdr hgang).trans rfl, saveGang_mem s gid⟩

end Sys2Proof.Machine
end
section
/-! Decoding and encoding are inverse, on the words of well-formed instructions and on the words that decode (spec 05 R118 to R126). -/

open Sys2Proof Sys2Proof.Machine

namespace Sys2Proof.Laws.RoundTrip

/-- The round trip of every instruction: the lemma of its own. -/
theorem statement_all (i : Instr) : Statement i :=
  match i with
  | .powerGood => powerGood | .pcieFundamentalReset => pcieFundamentalReset | .stageDone images eccDie lanes => stageDone images eccDie lanes
  | .stageTimeout die => stageTimeout die | .getVersion func => getVersion func | .getCapabilities func => getCapabilities func
  | .negotiateAlgorithms func sm2 sm3 => negotiateAlgorithms func sm2 sm3 | .getDigests func => getDigests func
  | .getCertificate func => getCertificate func | .challenge func nonce => challenge func nonce | .getMeasurements func => getMeasurements func
  | .registerWrite func off size v => registerWrite func off size v | .merrClear v => merrClear v | .ferrClear func => ferrClear func
  | .partSetValid n v => partSetValid n v | .partClearValid n v => partClearValid n v | .hmoveMove v => hmoveMove v | .hmoveFree v => hmoveFree v
  | .hmoveComplete => hmoveComplete | .budgetPeriod => budgetPeriod | .ckptQuiesce v => ckptQuiesce v | .quiesceDone => quiesceDone
  | .ckptResume v => ckptResume v | .ckptEngineGo v => ckptEngineGo v | .ckptRunEnd err done => ckptRunEnd err done
  | .faultQuiesce part => faultQuiesce part | .powerCapWrite v => powerCapWrite v | .doorbell func q w => doorbell func q w
  | .bar0UnsupportedAccess func off size write => bar0UnsupportedAccess func off size write | .hostBar4Read func off n => hostBar4Read func off n
  | .hostBar4Write func off data => hostBar4Write func off data | .bar4PagerTimeout id => bar4PagerTimeout id
  | .functionLevelReset func => functionLevelReset func | .pf0FunctionLevelReset => pf0FunctionLevelReset
  | .queueEnable func q v => queueEnable func q v | .queueDisable func q v => queueDisable func q v | .queueResume func q v => queueResume func q v
  | .queueResumeSkip func q v => queueResumeSkip func q v | .launchPacket part q => launchPacket part q | .waitsig part q => waitsig part q
  | .waitsigSatisfied part q => waitsigSatisfied part q | .waitsigLimit part q => waitsigLimit part q | .setsig part q => setsig part q
  | .loadPacket part q => loadPacket part q | .unload part q => unload part q | .fencePacket part q => fencePacket part q
  | .launchComplete launch => launchComplete launch | .placement die => placement die | .placementPeriod die => placementPeriod die
  | .icacheFillDone cell => icacheFillDone cell | .feWriteback cell i => feWriteback cell i | .pagerWake w verdict => pagerWake w verdict
  | .cowCopyDone i => cowCopyDone i | .pageMigration asid dva pa => pageMigration asid dva pa | .remoteAccessArrival id => remoteAccessArrival id
  | .remoteReply id => remoteReply id | .asyncTrapDelivery cell => asyncTrapDelivery cell | .copyStart core i => copyStart core i
  | .frameSlotReserve core i => frameSlotReserve core i | .copyComplete core i => copyComplete core i
  | .copyWaggleDelivered core i => copyWaggleDelivered core i | .copyFailure core i why => copyFailure core i why
  | .leaseAcquire core => leaseAcquire core | .leaseQuantumExpiry core => leaseQuantumExpiry core
  | .mopaOperandsConsumed core => mopaOperandsConsumed core | .laneFailure core i group => laneFailure core i group
  | .coreRetire core i group => coreRetire core i group | .waitReread w => waitReread w | .swaitLimit cell => swaitLimit cell
  | .vsetvlwLimit cell => vsetvlwLimit cell | .frmwaitLimit cell => frmwaitLimit cell | .ldfeLimit cell => ldfeLimit cell
  | .barLimit cell => barLimit cell | .wgsendLimit cell => wgsendLimit cell | .wgrecvLimit cell => wgrecvLimit cell
  | .broodDeadline handle => broodDeadline handle | .forcedLanding cell stops step => forcedLanding cell stops step
  | .gangSaveDone gang => gangSaveDone gang | .correctableError die cls => correctableError die cls | .uncorrectableError e => uncorrectableError e
  | .patrolScrub die lines => patrolScrub die lines | .flitReceive fin seq crcGood => flitReceive fin seq crcGood
  | .ucieReplay fin last => ucieReplay fin last | .linkRetrain fin why => linkRetrain fin why | .retrainDone fin lanes => retrainDone fin lanes
  | .dieUnreachable die => dieUnreachable die | .ualinkTimeout r => ualinkTimeout r | .ualinkStationLoss station => ualinkStationLoss station
  | .fabricReply cell station ok data => fabricReply cell station ok data | .heirHandover gang => heirHandover gang
  | .objectRangeRelease handle => objectRangeRelease handle | .generationUnmap handle => generationUnmap handle | .lui rd imm => lui rd imm
  | .auipc rd imm => auipc rd imm | .jal rd imm => jal rd imm | .jalr rd rs1 imm => jalr rd rs1 imm | .beq rs1 rs2 imm => beq rs1 rs2 imm
  | .bne rs1 rs2 imm => bne rs1 rs2 imm | .blt rs1 rs2 imm => blt rs1 rs2 imm | .bge rs1 rs2 imm => bge rs1 rs2 imm
  | .bltu rs1 rs2 imm => bltu rs1 rs2 imm | .bgeu rs1 rs2 imm => bgeu rs1 rs2 imm | .lb rd rs1 imm => lb rd rs1 imm | .lh rd rs1 imm => lh rd rs1 imm
  | .lw rd rs1 imm => lw rd rs1 imm | .ld rd rs1 imm => ld rd rs1 imm | .lbu rd rs1 imm => lbu rd rs1 imm | .lhu rd rs1 imm => lhu rd rs1 imm
  | .lwu rd rs1 imm => lwu rd rs1 imm | .sb rs1 rs2 imm => sb rs1 rs2 imm | .sh rs1 rs2 imm => sh rs1 rs2 imm | .sw rs1 rs2 imm => sw rs1 rs2 imm
  | .sd rs1 rs2 imm => sd rs1 rs2 imm | .addi rd rs1 imm => addi rd rs1 imm | .slti rd rs1 imm => slti rd rs1 imm
  | .sltiu rd rs1 imm => sltiu rd rs1 imm | .xori rd rs1 imm => xori rd rs1 imm | .ori rd rs1 imm => ori rd rs1 imm
  | .andi rd rs1 imm => andi rd rs1 imm | .slli rd rs1 sh => slli rd rs1 sh | .srli rd rs1 sh => srli rd rs1 sh | .srai rd rs1 sh => srai rd rs1 sh
  | .add rd rs1 rs2 => add rd rs1 rs2 | .sub rd rs1 rs2 => sub rd rs1 rs2 | .sll rd rs1 rs2 => sll rd rs1 rs2 | .slt rd rs1 rs2 => slt rd rs1 rs2
  | .sltu rd rs1 rs2 => sltu rd rs1 rs2 | .xor rd rs1 rs2 => xor rd rs1 rs2 | .srl rd rs1 rs2 => srl rd rs1 rs2 | .sra rd rs1 rs2 => sra rd rs1 rs2
  | .or rd rs1 rs2 => or rd rs1 rs2 | .and rd rs1 rs2 => and rd rs1 rs2 | .addiw rd rs1 imm => addiw rd rs1 imm | .slliw rd rs1 sh => slliw rd rs1 sh
  | .srliw rd rs1 sh => srliw rd rs1 sh | .sraiw rd rs1 sh => sraiw rd rs1 sh | .addw rd rs1 rs2 => addw rd rs1 rs2
  | .subw rd rs1 rs2 => subw rd rs1 rs2 | .sllw rd rs1 rs2 => sllw rd rs1 rs2 | .srlw rd rs1 rs2 => srlw rd rs1 rs2
  | .sraw rd rs1 rs2 => sraw rd rs1 rs2 | .mul rd rs1 rs2 => mul rd rs1 rs2 | .mulh rd rs1 rs2 => mulh rd rs1 rs2
  | .mulhsu rd rs1 rs2 => mulhsu rd rs1 rs2 | .mulhu rd rs1 rs2 => mulhu rd rs1 rs2 | .div rd rs1 rs2 => div rd rs1 rs2
  | .divu rd rs1 rs2 => divu rd rs1 rs2 | .rem rd rs1 rs2 => rem rd rs1 rs2 | .remu rd rs1 rs2 => remu rd rs1 rs2 | .mulw rd rs1 rs2 => mulw rd rs1 rs2
  | .divw rd rs1 rs2 => divw rd rs1 rs2 | .divuw rd rs1 rs2 => divuw rd rs1 rs2 | .remw rd rs1 rs2 => remw rd rs1 rs2
  | .remuw rd rs1 rs2 => remuw rd rs1 rs2 | .fence fm pred succ rs1 rd => fence fm pred succ rs1 rd
  | .fenceTso pred succ rs1 rd => fenceTso pred succ rs1 rd | .pause => pause | .fenceI rd rs1 imm => fenceI rd rs1 imm | .ecall => ecall
  | .ebreak => ebreak | .csrrw rd rs1 csr => csrrw rd rs1 csr | .csrrs rd rs1 csr => csrrs rd rs1 csr | .csrrc rd rs1 csr => csrrc rd rs1 csr
  | .csrrwi rd uimm csr => csrrwi rd uimm csr | .csrrsi rd uimm csr => csrrsi rd uimm csr | .csrrci rd uimm csr => csrrci rd uimm csr
  | .lrW rd rs1 aq rl => lrW rd rs1 aq rl | .scW rd rs1 rs2 aq rl => scW rd rs1 rs2 aq rl | .lrD rd rs1 aq rl => lrD rd rs1 aq rl
  | .scD rd rs1 rs2 aq rl => scD rd rs1 rs2 aq rl | .amoswapW rd rs1 rs2 aq rl => amoswapW rd rs1 rs2 aq rl
  | .amoaddW rd rs1 rs2 aq rl => amoaddW rd rs1 rs2 aq rl | .amoxorW rd rs1 rs2 aq rl => amoxorW rd rs1 rs2 aq rl
  | .amoandW rd rs1 rs2 aq rl => amoandW rd rs1 rs2 aq rl | .amoorW rd rs1 rs2 aq rl => amoorW rd rs1 rs2 aq rl
  | .amominW rd rs1 rs2 aq rl => amominW rd rs1 rs2 aq rl | .amomaxW rd rs1 rs2 aq rl => amomaxW rd rs1 rs2 aq rl
  | .amominuW rd rs1 rs2 aq rl => amominuW rd rs1 rs2 aq rl | .amomaxuW rd rs1 rs2 aq rl => amomaxuW rd rs1 rs2 aq rl
  | .amoswapD rd rs1 rs2 aq rl => amoswapD rd rs1 rs2 aq rl | .amoaddD rd rs1 rs2 aq rl => amoaddD rd rs1 rs2 aq rl
  | .amoxorD rd rs1 rs2 aq rl => amoxorD rd rs1 rs2 aq rl | .amoandD rd rs1 rs2 aq rl => amoandD rd rs1 rs2 aq rl
  | .amoorD rd rs1 rs2 aq rl => amoorD rd rs1 rs2 aq rl | .amominD rd rs1 rs2 aq rl => amominD rd rs1 rs2 aq rl
  | .amomaxD rd rs1 rs2 aq rl => amomaxD rd rs1 rs2 aq rl | .amominuD rd rs1 rs2 aq rl => amominuD rd rs1 rs2 aq rl
  | .amomaxuD rd rs1 rs2 aq rl => amomaxuD rd rs1 rs2 aq rl | .flw rd rs1 imm => flw rd rs1 imm | .flh rd rs1 imm => flh rd rs1 imm
  | .fsw rs1 rs2 imm => fsw rs1 rs2 imm | .fsh rs1 rs2 imm => fsh rs1 rs2 imm | .fmaddS rd rs1 rs2 rs3 rm => fmaddS rd rs1 rs2 rs3 rm
  | .fmsubS rd rs1 rs2 rs3 rm => fmsubS rd rs1 rs2 rs3 rm | .fnmsubS rd rs1 rs2 rs3 rm => fnmsubS rd rs1 rs2 rs3 rm
  | .fnmaddS rd rs1 rs2 rs3 rm => fnmaddS rd rs1 rs2 rs3 rm | .faddS rd rs1 rs2 rm => faddS rd rs1 rs2 rm | .fsubS rd rs1 rs2 rm => fsubS rd rs1 rs2 rm
  | .fmulS rd rs1 rs2 rm => fmulS rd rs1 rs2 rm | .fdivS rd rs1 rs2 rm => fdivS rd rs1 rs2 rm | .fsqrtS rd rs1 rm => fsqrtS rd rs1 rm
  | .fsgnjS rd rs1 rs2 => fsgnjS rd rs1 rs2 | .fsgnjnS rd rs1 rs2 => fsgnjnS rd rs1 rs2 | .fsgnjxS rd rs1 rs2 => fsgnjxS rd rs1 rs2
  | .fminS rd rs1 rs2 => fminS rd rs1 rs2 | .fmaxS rd rs1 rs2 => fmaxS rd rs1 rs2 | .fcvtWS rd rs1 rm => fcvtWS rd rs1 rm
  | .fcvtWuS rd rs1 rm => fcvtWuS rd rs1 rm | .fcvtLS rd rs1 rm => fcvtLS rd rs1 rm | .fcvtLuS rd rs1 rm => fcvtLuS rd rs1 rm
  | .fcvtSW rd rs1 rm => fcvtSW rd rs1 rm | .fcvtSWu rd rs1 rm => fcvtSWu rd rs1 rm | .fcvtSL rd rs1 rm => fcvtSL rd rs1 rm
  | .fcvtSLu rd rs1 rm => fcvtSLu rd rs1 rm | .fmvXW rd rs1 => fmvXW rd rs1 | .fclassS rd rs1 => fclassS rd rs1 | .fmvWX rd rs1 => fmvWX rd rs1
  | .feqS rd rs1 rs2 => feqS rd rs1 rs2 | .fltS rd rs1 rs2 => fltS rd rs1 rs2 | .fleS rd rs1 rs2 => fleS rd rs1 rs2
  | .fcvtSBf16 rd rs1 rm => fcvtSBf16 rd rs1 rm | .fcvtBf16S rd rs1 rm => fcvtBf16S rd rs1 rm | .fmvXH rd rs1 => fmvXH rd rs1
  | .fmvHX rd rs1 => fmvHX rd rs1 | .loop rs1 imm => loop rs1 imm | .loopi cntm1 imm => loopi cntm1 imm | .lbrk rs1 n => lbrk rs1 n | .yield => yield
  | .widf rd i => widf rd i | .widfExt rd i => widfExt rd i | .widfLvl rd i => widfLvl rd i | .vintVadd d a b xs p t => vintVadd d a b xs p t
  | .vintVsub d a b xs p t => vintVsub d a b xs p t | .vintVmul d a b xs p t => vintVmul d a b xs p t | .vmulh d a b xs p t => vmulh d a b xs p t
  | .vintVmin d a b xs p t => vintVmin d a b xs p t | .vintVmax d a b xs p t => vintVmax d a b xs p t | .vminu d a b xs p t => vminu d a b xs p t
  | .vmaxu d a b xs p t => vmaxu d a b xs p t | .vand d a b xs p t => vand d a b xs p t | .vor d a b xs p t => vor d a b xs p t
  | .vxor d a b xs p t => vxor d a b xs p t | .vsll d a b xs p t => vsll d a b xs p t | .vsrl d a b xs p t => vsrl d a b xs p t
  | .vsra d a b xs p t => vsra d a b xs p t | .vintVabs d a p t => vintVabs d a p t | .vintVneg d a p t => vintVneg d a p t
  | .vsadd d a b xs p t => vsadd d a b xs p t | .vssub d a b xs p t => vssub d a b xs p t | .vfltVadd d a b xs p t => vfltVadd d a b xs p t
  | .vfltVsub d a b xs p t => vfltVsub d a b xs p t | .vfltVmul d a b xs p t => vfltVmul d a b xs p t | .vfma d a b c xs p t => vfma d a b c xs p t
  | .vfms d a b c xs p t => vfms d a b c xs p t | .vfnma d a b c xs p t => vfnma d a b c xs p t | .vfltVmin d a b xs p t => vfltVmin d a b xs p t
  | .vfltVmax d a b xs p t => vfltVmax d a b xs p t | .vfltVabs d a p t => vfltVabs d a p t | .vfltVneg d a p t => vfltVneg d a p t
  | .vdiv d a b xs p t => vdiv d a b xs p t | .vsqrt d a p t => vsqrt d a p t | .vrcp d a p t => vrcp d a p t | .vrsqrt d a p t => vrsqrt d a p t
  | .vexp2 d a p t => vexp2 d a p t | .vlog2 d a p t => vlog2 d a p t | .vsgnj d a b xs p t => vsgnj d a b xs p t
  | .vcmpeq d a b xs p t => vcmpeq d a b xs p t | .vcmpne d a b xs p t => vcmpne d a b xs p t | .vcmplt d a b xs p t => vcmplt d a b xs p t
  | .vcmple d a b xs p t => vcmple d a b xs p t | .vcmpgt d a b xs p t => vcmpgt d a b xs p t | .vcmpge d a b xs p t => vcmpge d a b xs p t
  | .mand d a b all p => mand d a b all p | .mor d a b all p => mor d a b all p | .mxor d a b all p => mxor d a b all p
  | .mandn d a b all p => mandn d a b all p | .mnot d a all p => mnot d a all p | .mpop d a all p => mpop d a all p
  | .mfirst d a all p => mfirst d a all p | .mset d all p => mset d all p | .mclr d all p => mclr d all p | .vslideup d a b p t => vslideup d a b p t
  | .vslidedn d a b p t => vslidedn d a b p t | .vbcast d a p t => vbcast d a p t | .vperm d a b p t => vperm d a b p t
  | .vmvXv d a ix t => vmvXv d a ix t | .vmvVx d a ix t => vmvVx d a ix t | .vmvFv d a ix t => vmvFv d a ix t | .vmvVf d a ix t => vmvVf d a ix t
  | .vsel d a b p t => vsel d a b p t | .vcompress d a p t => vcompress d a p t | .vredsum d a ix p t => vredsum d a ix p t
  | .vredmax d a ix p t => vredmax d a ix p t | .vredmin d a ix p t => vredmin d a ix p t | .vredamax d a tm ix p t => vredamax d a tm ix p t
  | .vcvt d a c p dst src => vcvt d a c p dst src | .vsrnd d a b c w p dst src => vsrnd d a b c w p dst src
  | .vqnt d a scale c src => vqnt d a scale c src | .vld d a imm p t => vld d a imm p t | .vlds d a b imm p t => vlds d a b imm p t
  | .vld2d d a b n1m1 p t => vld2d d a b n1m1 p t | .vldx d a b p t => vldx d a b p t | .vst c a imm p t => vst c a imm p t
  | .vsts c a b imm p t => vsts c a b imm p t | .vstx c a b dup p t => vstx c a b dup p t | .vsetvl d a t => vsetvl d a t
  | .vsetvlw d a b c limit full t => vsetvlw d a b c limit full t | .vgrp g => vgrp g | .mop1 d a b c p pair => mop1 d a b c p pair
  | .mopa d a b c km1 ocs p pair => mopa d a b c km1 ocs p pair | .mzero d p => mzero d p | .mrel => mrel | .mrelDiscard => mrelDiscard
  | .mdrain f => mdrain f | .mdrainRow f c => mdrainRow f c | .mdrainDly f c => mdrainDly f c | .mrowRd d a ix col p t => mrowRd d a ix col p t
  | .mrowWr d a ix col p t => mrowWr d a ix col p t | .amxrd d i => amxrd d i | .amxswp d i => amxswp d i | .amxmax a i => amxmax a i
  | .tcopy a b act ord => tcopy a b act ord | .tcopySt a b act ord => tcopySt a b act ord | .tcopyMc a b c d sig ord => tcopyMc a b c d sig ord
  | .frminit a b => frminit a b | .frmwait d a limit => frmwait d a limit | .frmfree a => frmfree a | .qfence r w e sc => qfence r w e sc
  | .qamoadd d a b word acq rel sc => qamoadd d a b word acq rel sc | .qamoand d a b word acq rel sc => qamoand d a b word acq rel sc
  | .qamoor d a b word acq rel sc => qamoor d a b word acq rel sc | .qamoxor d a b word acq rel sc => qamoxor d a b word acq rel sc
  | .qamomin d a b word acq rel sc => qamomin d a b word acq rel sc | .qamomax d a b word acq rel sc => qamomax d a b word acq rel sc
  | .qamominu d a b word acq rel sc => qamominu d a b word acq rel sc | .qamomaxu d a b word acq rel sc => qamomaxu d a b word acq rel sc
  | .qamoswap d a b word acq rel sc => qamoswap d a b word acq rel sc | .qamocas d a b c word acq rel sc => qamocas d a b c word acq rel sc
  | .ssig a b sc => ssig a b sc | .sset a b sc => sset a b sc | .swait d a b c cond sc => swait d a b c cond sc | .bar level limit => bar level limit
  | .ldfe d a c off => ldfe d a c off | .ldfeK d a c off => ldfeK d a c off | .stfe a b off => stfe a b off | .stfeF a b off => stfeF a b off
  | .feprobe d a off => feprobe d a off | .fesetE a off => fesetE a off | .fesetF a off => fesetF a off | .wgsend a b c limit => wgsend a b c limit
  | .wgrecv d limit => wgrecv d limit | .wgpeek d => wgpeek d | .launch d a b => launch d a b | .launchNb d a b => launchNb d a b | .retire => retire
  | .retireH a => retireH a | .bfork d a => bfork d a | .bjoin a => bjoin a | .bjoinW d a => bjoinW d a | .bjoinAb => bjoinAb
  | .bjoinAbW d => bjoinAbW d | .bkill d a b => bkill d a b | .bkillAll d a => bkillAll d a | .bstat d a => bstat d a
  | .bstatSib d a b => bstatSib d a b | .tret => tret | .traise a => traise a | .msave d a => msave d a | .mrstr d a => mrstr d a
  | .icinv a b => icinv a b | .illegalInstruction len w => illegalInstruction len w | .rotationBoundary core => rotationBoundary core
  | .turnSpentWithoutIssue cell => turnSpentWithoutIssue cell | .matrixInstructionComplete core => matrixInstructionComplete core
  | .vectorInstructionComplete core i => vectorInstructionComplete core i | .accessPerformedAtHome cell i => accessPerformedAtHome cell i
  | .icinvAcknowledged cell => icinvAcknowledged cell | .pcieCompletionTimeout r => pcieCompletionTimeout r
  | .postedWriteUndeliverable cell dva => postedWriteUndeliverable cell dva | .ualinkReplay station => ualinkReplay station
  | .fabricPeerAccess op => fabricPeerAccess op | .tlbShootdown asid dva entry => tlbShootdown asid dva entry
  | .powerCapClockChange lower => powerCapClockChange lower | .configurationRequest func req => configurationRequest func req

end Sys2Proof.Laws.RoundTrip

namespace Sys2Proof

/-- Settles O54: the round trip of each instruction. -/
theorem decodeOfEncode : Obligations.DecodeOfEncode := by
  unfold Obligations.DecodeOfEncode
  intro i w hw he
  exact Laws.RoundTrip.statement_all i hw w he

/-! ### From a word back to it -/

/-- A parcel is its fields put together again. -/
theorem F32.pack_unpack (w : W32) : (F32.unpack w).pack = w := by
  have h1 := extract_adj (m := 7) (n := 5) (s := 20) w
  have h2 := extract_adj (m := 12) (n := 5) (s := 15) w
  have h3 := extract_adj (m := 17) (n := 3) (s := 12) w
  have h4 := extract_adj (m := 20) (n := 5) (s := 7) w
  have h5 := extract_adj (m := 25) (n := 7) (s := 0) w
  simp only [F32.pack, F32.unpack]
  rw [h1, h2, h3, h4, h5]
  exact extract_self w

/-- One bit of a word as a field. -/
theorem extract_one {w : Nat} (x : BitVec w) (s : Nat) : bit1 (x.getLsbD s) = x.extractLsb' s 1 := by
  ext j hj
  obtain rfl : j = 0 := by omega
  cases h : x.getLsbD s <;> simp [bit1, h]

/-- A word of 64-bit length is its fields put together again. -/
theorem Q64.pack_unpack {w : Word} (h : w.extractLsb' 0 7 = 0x3F) : (Q64.unpack w).pack = w := by
  have h1 := extract_adj (m := 16) (n := 6) (s := 42) w
  have h2 := extract_adj (m := 22) (n := 5) (s := 37) w
  have h3 := extract_adj (m := 27) (n := 1) (s := 36) w
  have h4 := extract_adj (m := 28) (n := 3) (s := 33) w
  have h5 := extract_adj (m := 31) (n := 5) (s := 28) w
  have h6 := extract_adj (m := 36) (n := 5) (s := 23) w
  have h7 := extract_adj (m := 41) (n := 5) (s := 18) w
  have h8 := extract_adj (m := 46) (n := 5) (s := 13) w
  have h9 := extract_adj (m := 51) (n := 6) (s := 7) w
  have h10 := extract_adj (m := 57) (n := 7) (s := 0) w
  simp only [Q64.pack, Q64.unpack, extract_one]
  rw [h1, h2, h3, h4, h5, h6, h7, h8, h9, ← h, h10]
  exact extract_self w

/-- No instruction has words of both lengths. -/
theorem encodings_apart (i : Instr) : ((encode32 i).isSome && (encodeQ i).isSome) = false := by
  cases i <;> rfl

theorem encode32_none_of_encodeQ {i : Instr} {q : Q64} (h : encodeQ i = some q) : encode32 i = none := by
  simpa [h] using encodings_apart i

/-- What a 32-bit parcel decodes to is well formed, and the parcel's fields are its own. -/
theorem decode32_some {p : W32} {i : Instr} (h : decode32 p = some i) : wellFormed i = true ∧ encode32 i = some (F32.unpack p) := by
  unfold decode32 at h
  split at h
  · split at h
    · next j _ hj =>
      cases h
      simpa using hj
    · cases h
  · cases h

/-- What a Q64 word decodes to is well formed, and the word's fields are its own. -/
theorem decodeQ_some {w : Word} {i : Instr} (h : decodeQ w = some i) : wellFormed i = true ∧ encodeQ i = some (Q64.unpack w) := by
  unfold decodeQ at h
  split at h
  · split at h
    · next j _ hj =>
      cases h
      simpa using hj
    · cases h
  · cases h

/-- What is decoded was read from one parcel, or from two. -/
theorem decode_instr {p hi : W32} {i : Instr} {len : Nat} (h : decode p hi = .instr i len) :
    (len = 4 ∧ parcelLength p = 4 ∧ decode32 p = some i) ∨ (len = 8 ∧ parcelLength p = 8 ∧ decodeQ (hi ++ p) = some i) := by
  unfold decode at h
  split at h
  · next hl =>
    split at h
    · next j hj => cases h; exact .inl ⟨rfl, hl, hj⟩
    · cases h
  · next hl =>
    split at h
    · next j hj => cases h; exact .inr ⟨rfl, hl, hj⟩
    · cases h
  all_goals cases h

/-- The first parcel of 64-bit length ends in the seven bits of R121. -/
theorem low7_of_length8 {p : W32} (h : parcelLength p = 8) : p.extractLsb' 0 7 = 0x3F := by
  have hm : p.toNat % 128 = 63 := by
    unfold parcelLength at h
    grind
  apply BitVec.eq_of_toNat_eq
  simpa using hm

theorem encode_of_encode32 {i : Instr} {f : F32} (h : encode32 i = some f) : encode i = some (f.pack.setWidth 64) ∧ i.len = 4 := by
  simp [encode, Instr.len, h]

theorem encode_of_encodeQ {i : Instr} {q : Q64} (h : encodeQ i = some q) : encode i = some q.pack ∧ i.len = 8 := by
  simp [encode, Instr.len, h, encode32_none_of_encodeQ h]

/-- Settles O55: the decoder has checked the candidate's own fields against the word's, and a word is its fields put together. -/
theorem encodeOfDecode : Obligations.EncodeOfDecode := by
  unfold Obligations.EncodeOfDecode
  intro p hi i len h
  rcases decode_instr h with ⟨rfl, hl, hd⟩ | ⟨rfl, hl, hd⟩
  · obtain ⟨hw, he⟩ := decode32_some hd
    obtain ⟨henc, hlen⟩ := encode_of_encode32 he
    exact ⟨hw, hlen, .inl ⟨rfl, hl, by rw [henc, F32.pack_unpack]⟩⟩
  · obtain ⟨hw, he⟩ := decodeQ_some hd
    obtain ⟨henc, hlen⟩ := encode_of_encodeQ he
    have h7 : (hi ++ p).extractLsb' 0 7 = 0x3F := by
      rw [← low7_of_length8 hl]
      ext j hj
      have h32 : 0 + j < 32 := by omega
      simp only [BitVec.getElem_extractLsb', BitVec.getLsbD_append, h32, if_true]
    exact ⟨hw, hlen, .inr ⟨rfl, hl, by rw [henc, Q64.pack_unpack h7]⟩⟩

/-- Settles O56: the decoder runs on each word. -/
theorem decodeWords : Obligations.DecodeWords := by
  unfold Obligations.DecodeWords
  decide

end Sys2Proof
end
section
/-! Every meaning answers a next state: one lemma for each operation that instructions share, then the instructions by the operation
they are (spec 05 R119, 18 R368). -/

open Sys2Proof Sys2Proof.Machine

namespace Sys2Proof.Machine

theorem ite_next {p : Prop} [Decidable p] {a b : Host.Outcome State Fault Refusal} (ha : ∃ u, a = .next u) (hb : ∃ u, b = .next u) :
    ∃ u, (if p then a else b) = .next u := by
  split
  · exact ha
  · exact hb

section
variable (s : State)

theorem execMop1_next (d : Tile) (a b c : Reg) (p : Pred) (pair : Pair) : ∃ u, execMop1 d a b c p pair s = .next u := by
  unfold execMop1
  exact issue_next ..

theorem execMopa_next (d : Tile) (a b c : Reg) (km1 : BitVec 12) (ocs : Bool) (p : Pred) (pair : Pair) :
    ∃ u, execMopa d a b c km1 ocs p pair s = .next u := by
  unfold execMopa
  exact issue_next ..

theorem execLeaseAcquire_next (core : Nat) : ∃ u, execLeaseAcquire core s = .next u := by
  unfold execLeaseAcquire
  dsimp only
  repeat' split
  all_goals exact ⟨_, rfl⟩

theorem execMopaOperandsConsumed_next (core : Nat) : ∃ u, execMopaOperandsConsumed core s = .next u := by
  unfold execMopaOperandsConsumed
  repeat' split
  all_goals exact ⟨_, rfl⟩

theorem execMatrixInstructionComplete_next (core : Nat) : ∃ u, execMatrixInstructionComplete core s = .next u := by
  unfold execMatrixInstructionComplete
  repeat' split
  all_goals exact ⟨_, rfl⟩

/-! The operations that instructions share: each goes through `issue`. -/

theorem vecIssue_next (early fields srcs dsts body) : ∃ u, vecIssue early fields srcs dsts body s = .next u := by unfold vecIssue; exact issue_next ..
theorem vecMap_next (q early w arity xs scalar raw f) : ∃ u, vecMap q early w arity xs scalar raw f s = .next u := vecIssue_next ..
theorem vred_next (q early a d t isF r after) : ∃ u, vred q early a d t isF r after s = .next u := vecIssue_next ..
theorem vconv_next (q early ws wd wide bv c f) : ∃ u, vconv q early ws wd wide bv c f s = .next u := vecIssue_next ..
theorem branch_next (cond rs1 rs2 imm) : ∃ u, branch cond rs1 rs2 imm s = .next u := issue_next ..
theorem loadInto_next (d n ext rs1 imm) : ∃ u, loadInto d n ext rs1 imm s = .next u := issue_next ..
theorem storeX_next (n rs1 rs2 imm) : ∃ u, storeX n rs1 rs2 imm s = .next u := issue_next ..
theorem aluRI_next (f rd rs1 imm) : ∃ u, aluRI f rd rs1 imm s = .next u := issue_next ..
theorem aluSh_next (f rd rs1 n) : ∃ u, aluSh f rd rs1 n s = .next u := issue_next ..
theorem aluRR_next (f rd rs1 rs2) : ∃ u, aluRR f rd rs1 rs2 s = .next u := issue_next ..
theorem divide_next (f word rd rs1 rs2) : ∃ u, divide f word rd rs1 rs2 s = .next u := issue_next ..
theorem fenceOf_next (r w nr nw) : ∃ u, fenceOf r w nr nw s = .next u := issue_next ..
theorem csrOp_next (f3 upd writes rd rs1 srcs operand csr) :
    ∃ u, csrOp f3 upd writes rd rs1 srcs operand csr s = .next u := by unfold csrOp; exact issue_next ..
theorem loadReserved_next (size rd rs1 aq rl) : ∃ u, loadReserved size rd rs1 aq rl s = .next u := issue_next ..
theorem storeConditional_next (size rd rs1 rs2 aq rl) : ∃ u, storeConditional size rd rs1 rs2 aq rl s = .next u := issue_next ..
theorem amoRv_next (op size rd rs1 rs2 aq rl) : ∃ u, amoRv op size rd rs1 rs2 aq rl s = .next u := issue_next ..
theorem storeF_next (n rs1 rs2 imm) : ∃ u, storeF n rs1 rs2 imm s = .next u := issue_next ..
theorem fpFma_next (op negP negC rd rs1 rs2 rs3 rm) : ∃ u, fpFma op negP negC rd rs1 rs2 rs3 rm s = .next u := issue_next ..
theorem fpRR_next (f7 f rd rs1 rs2 rm) : ∃ u, fpRR f7 f rd rs1 rs2 rm s = .next u := issue_next ..
theorem fpSlow_next (f7 srcs f rd rs1 rs2 rm) : ∃ u, fpSlow f7 srcs f rd rs1 rs2 rm s = .next u := issue_next ..
theorem fpSgn_next (f rd rs1 rs2) : ∃ u, fpSgn f rd rs1 rs2 s = .next u := issue_next ..
theorem fpMinMax_next (isMax rd rs1 rs2) : ∃ u, fpMinMax isMax rd rs1 rs2 s = .next u := issue_next ..
theorem fpToInt_next (code w lo hi rd rs1 rm) : ∃ u, fpToInt code w lo hi rd rs1 rm s = .next u := issue_next ..
theorem fpOfInt_next (code f rd rs1 rm) : ∃ u, fpOfInt code f rd rs1 rm s = .next u := issue_next ..
theorem fpToX_next (f rd rs1) : ∃ u, fpToX f rd rs1 s = .next u := issue_next ..
theorem fpOfX_next (f rd rs1) : ∃ u, fpOfX f rd rs1 s = .next u := issue_next ..
theorem fpCmp_next (loud f rd rs1 rs2) : ∃ u, fpCmp loud f rd rs1 rs2 s = .next u := issue_next ..
theorem widRead_next (f rd) : ∃ u, widRead f rd s = .next u := issue_next ..
theorem vint_next (fn t p d a b xs f) : ∃ u, vint fn t p d a b xs f s = .next u := vecMap_next ..
theorem vintUn_next (fn t p d a f) : ∃ u, vintUn fn t p d a f s = .next u := vecMap_next ..
theorem vflt_next (fn t p d a b c arity xs uses f) : ∃ u, vflt fn t p d a b c arity xs uses f s = .next u := vecMap_next ..
theorem vcmp_next (fn d a b xs p t rel frel onNan loud) :
    ∃ u, vcmp fn d a b xs p t rel frel onNan loud s = .next u := by unfold vcmp; exact vecIssue_next ..
theorem vmsk_next (q d all p f) : ∃ u, vmsk q d all p f s = .next u := vecIssue_next ..
theorem vmskX_next (q d all p a f) : ∃ u, vmskX q d all p a f s = .next u := vecIssue_next ..
theorem permute_next (q t srcs fields f) : ∃ u, permute q t srcs fields f s = .next u := vecIssue_next ..
theorem moveIn_next (q src t ix f raw) : ∃ u, moveIn q src t ix f raw s = .next u := vecIssue_next ..
theorem vecLoad_next (q t srcs fields ea stride) : ∃ u, vecLoad q t srcs fields ea stride s = .next u := vecIssue_next ..
theorem vecStore_next (q t srcs fields ea stride after) : ∃ u, vecStore q t srcs fields ea stride after s = .next u := vecIssue_next ..
theorem drainOp_next (f src by_) : ∃ u, drainOp f src by_ s = .next u := issue_next ..
theorem qamo_next (op d a b c word acq rel sc) : ∃ u, qamo op d a b c word acq rel sc s = .next u := issue_next ..
theorem signalUpdate_next (op a b sc) : ∃ u, signalUpdate op a b sc s = .next u := issue_next ..
theorem ldfeOp_next (keep d a c off) : ∃ u, ldfeOp keep d a c off s = .next u := issue_next ..
theorem stfeOp_next (force a b off) : ∃ u, stfeOp force a b off s = .next u := issue_next ..
theorem fesetOp_next (full a off) : ∃ u, fesetOp full a off s = .next u := issue_next ..
theorem launchOp_next (nb d a b) : ∃ u, launchOp nb d a b s = .next u := issue_next ..
theorem joinOp_next (r wait) : ∃ u, joinOp r wait s = .next u := issue_next ..
theorem killOp_next (d a b) : ∃ u, killOp d a b s = .next u := issue_next ..

end

/-- The meaning of every constructor: a step of the device gives its next state outright, and an instruction goes through `issue`. -/
theorem exec_next (i : Instr) (s : State) : ∃ t, exec i s = .next t := by
  delta exec
  cases i with
  | powerGood | pcieFundamentalReset | stageDone | stageTimeout | getVersion | getCapabilities | negotiateAlgorithms | getDigests | getCertificate
    | challenge | getMeasurements | registerWrite | merrClear | ferrClear | partSetValid | partClearValid | hmoveMove | hmoveFree | hmoveComplete
    | budgetPeriod | ckptQuiesce | quiesceDone | ckptResume | ckptEngineGo | ckptRunEnd | faultQuiesce | powerCapWrite | doorbell
    | bar0UnsupportedAccess | hostBar4Read | hostBar4Write | bar4PagerTimeout | functionLevelReset | pf0FunctionLevelReset | queueEnable | queueDisable
    | queueResume | queueResumeSkip | launchPacket | waitsig | waitsigSatisfied | waitsigLimit | setsig | loadPacket | unload | fencePacket
    | launchComplete | placement | placementPeriod | icacheFillDone | feWriteback | pagerWake | cowCopyDone | pageMigration | remoteAccessArrival
    | remoteReply | asyncTrapDelivery | copyStart | frameSlotReserve | copyComplete | copyWaggleDelivered | copyFailure | leaseQuantumExpiry
    | laneFailure | coreRetire | waitReread | swaitLimit | vsetvlwLimit | frmwaitLimit | ldfeLimit | barLimit | wgsendLimit | wgrecvLimit
    | broodDeadline | forcedLanding | gangSaveDone | correctableError | uncorrectableError | patrolScrub | flitReceive | ucieReplay | linkRetrain
    | retrainDone | dieUnreachable | ualinkTimeout | ualinkStationLoss | fabricReply | heirHandover | objectRangeRelease | generationUnmap
    | rotationBoundary | turnSpentWithoutIssue | vectorInstructionComplete | accessPerformedAtHome | icinvAcknowledged | pcieCompletionTimeout
    | postedWriteUndeliverable | ualinkReplay | fabricPeerAccess | tlbShootdown | powerCapClockChange | configurationRequest =>
    exact ⟨_, rfl⟩
  | tcopyMc => delta execTcopyMc; exact issue_next ..
  | lui | auipc | jal | jalr | fenceI | ecall | ebreak | fcvtSBf16 | fcvtBf16S | loop | loopi | lbrk | yield | vsetvl | vsetvlw | vgrp | mzero | mrel
    | mrelDiscard | mrowRd | mrowWr | amxrd | amxswp | amxmax | tcopy | tcopySt | frminit | frmwait | frmfree | qfence | swait | bar | feprobe
    | wgsend | wgrecv | wgpeek | retire | retireH | bfork | bstat | bstatSib | tret | traise | msave | mrstr | icinv | illegalInstruction =>
    exact issue_next ..
  | vmvXv | vmvFv | vqnt => delta execVmvXv execVmvFv execVqnt; exact vecIssue_next ..
  | vcvt | vsrnd => delta execVcvt execVsrnd; exact vconv_next ..
  | vstx => delta execVstx; exact vecStore_next ..
  | beq | bne | blt | bge | bltu | bgeu => exact branch_next ..
  | lb | lh | lw | ld | lbu | lhu | lwu | flw | flh => exact loadInto_next ..
  | sb | sh | sw | sd => exact storeX_next ..
  | addi | slti | sltiu | xori | ori | andi | addiw => exact aluRI_next ..
  | slli | srli | srai | slliw | srliw | sraiw => exact aluSh_next ..
  | add | sub | sll | slt | sltu | xor | srl | sra | or | and | addw | subw | sllw | srlw | sraw | mul | mulh | mulhsu | mulhu | mulw =>
    exact aluRR_next ..
  | div | divu | rem | remu | divw | divuw | remw | remuw => exact divide_next ..
  | fenceTso | pause => exact fenceOf_next ..
  | csrrw | csrrs | csrrc | csrrwi | csrrsi | csrrci => exact csrOp_next ..
  | lrW | lrD => exact loadReserved_next ..
  | scW | scD => exact storeConditional_next ..
  | amoswapW | amoaddW | amoxorW | amoandW | amoorW | amominW | amomaxW | amominuW | amomaxuW | amoswapD | amoaddD | amoxorD | amoandD | amoorD
    | amominD | amomaxD | amominuD | amomaxuD =>
    exact amoRv_next ..
  | fsw | fsh => exact storeF_next ..
  | fmaddS | fmsubS | fnmsubS | fnmaddS => exact fpFma_next ..
  | faddS | fsubS | fmulS => exact fpRR_next ..
  | fdivS | fsqrtS => exact fpSlow_next ..
  | fsgnjS | fsgnjnS | fsgnjxS => exact fpSgn_next ..
  | fminS | fmaxS => exact fpMinMax_next ..
  | fcvtWS | fcvtWuS | fcvtLS | fcvtLuS => exact fpToInt_next ..
  | fcvtSW | fcvtSWu | fcvtSL | fcvtSLu => exact fpOfInt_next ..
  | fmvXW | fclassS | fmvXH => exact fpToX_next ..
  | fmvWX | fmvHX => exact fpOfX_next ..
  | feqS | fltS | fleS => exact fpCmp_next ..
  | widf | widfExt | widfLvl => exact widRead_next ..
  | vintVadd | vintVsub | vintVmul | vmulh | vintVmin | vintVmax | vminu | vmaxu | vand | vor | vxor | vsll | vsrl | vsra | vsadd | vssub =>
    exact vint_next ..
  | vintVabs | vintVneg => exact vintUn_next ..
  | vfltVadd | vfltVsub | vfltVmul | vfma | vfms | vfnma | vfltVmin | vfltVmax | vfltVabs | vfltVneg | vdiv | vsqrt | vrcp | vrsqrt | vexp2 | vlog2
    | vsgnj =>
    exact vflt_next ..
  | vcmpeq | vcmpne | vcmplt | vcmple | vcmpgt | vcmpge => exact vcmp_next ..
  | mand | mor | mxor | mandn | mnot | mset | mclr => exact vmsk_next ..
  | mpop | mfirst => exact vmskX_next ..
  | vslideup | vslidedn | vbcast | vperm | vsel | vcompress => exact permute_next ..
  | vmvVx | vmvVf => exact moveIn_next ..
  | vld | vlds | vld2d | vldx => exact vecLoad_next ..
  | vst | vsts => exact vecStore_next ..
  | mdrain | mdrainRow | mdrainDly => exact drainOp_next ..
  | qamoadd | qamoand | qamoor | qamoxor | qamomin | qamomax | qamominu | qamomaxu | qamoswap | qamocas => exact qamo_next ..
  | ssig | sset => exact signalUpdate_next ..
  | ldfe | ldfeK => exact ldfeOp_next ..
  | stfe | stfeF => exact stfeOp_next ..
  | fesetE | fesetF => exact fesetOp_next ..
  | launch | launchNb => exact launchOp_next ..
  | bjoin | bjoinW | bjoinAb | bjoinAbW => exact joinOp_next ..
  | bkill | bkillAll => exact killOp_next ..
  | mop1 => exact execMop1_next ..
  | mopa => exact execMopa_next ..
  | vredsum | vredmax | vredmin | vredamax =>
    delta execVredsum execVredmax execVredmin execVredamax; exact ite_next (vred_next ..) (vred_next ..)
  | fence => exact ite_next (fenceOf_next ..) (fenceOf_next ..)
  | leaseAcquire => exact execLeaseAcquire_next ..
  | mopaOperandsConsumed => exact execMopaOperandsConsumed_next ..
  | matrixInstructionComplete => exact execMatrixInstructionComplete_next ..

/-- A step that finds nothing to run is at its end. -/
theorem step_next (s : State) : ∃ t, step s = .next t := by
  unfold step
  split
  · exact exec_next _ _
  · exact ⟨_, rfl⟩

/-- Settles O58: `exec` by its constructors, and the plan of a step runs one of them or is at its end. -/
theorem nothingStops : Obligations.NothingStops := ⟨exec_next, step_next⟩

end Sys2Proof.Machine
end
section
/-! Jumps, branches, traps raised by instructions, and the return from a trap, for a calm cell (spec 05 R106, 06 R138, 18 R374, R376). -/

open Sys2Proof Sys2Proof.Machine

namespace Sys2Proof.Machine

variable {s : State}

theorem begun_pc (h : calm s = true) (len : Nat) : (begun s len).me.pc = s.me.pc := by rw [begun_me h]

theorem goTo_aligned {t : Word} (h : t.getLsbD 1 = false) (u v : State) : goTo u v t = .jump v t := by
  simp only [goTo, h, Bool.false_eq_true, if_false]

theorem goTo_misaligned {t : Word} (h : t.getLsbD 1 = true) (u v : State) : goTo u v t = .trap u cMISALIGNED t := by
  simp only [goTo, h, if_true]

/-- An instruction whose body goes to a target ends there, or traps in the state where its turn began (spec 05 R106). -/
theorem issue_goTo (h : calm s = true) {srcs dsts : List Dst} {body : State → Res} {v : State} {t : Word}
    (hb : body (begun s 4) = goTo (begun s 4) v t) :
    (t.getLsbD 1 = false → issue 4 noEarlyCheck srcs dsts body s = .next (jumped v t))
    ∧ (t.getLsbD 1 = true → issue 4 noEarlyCheck srcs dsts body s = .next (trapped (begun s 4) 4 0x02 t)) := by
  rw [issue_calm h 4 _ _ _ _ rfl, hb]
  refine ⟨fun ht => ?_, fun ht => ?_⟩
  · rw [goTo_aligned ht]; rfl
  · rw [goTo_misaligned ht]; rfl

/-- A branch whose condition holds goes to its target. -/
theorem branch_taken (h : calm s = true) {cond : Word → Word → Bool} {rs1 rs2 : Reg} (hc : cond (rdX s rs1) (rdX s rs2) = true) (imm : BitVec 12) :
    let t := s.me.pc + (imm ++ 0#1).signExtend 64
    (t.getLsbD 1 = false → branch cond rs1 rs2 imm s = .next (jumped (begun s 4) t))
    ∧ (t.getLsbD 1 = true → branch cond rs1 rs2 imm s = .next (trapped (begun s 4) 4 0x02 t)) := by
  refine issue_goTo h ?_
  simp only [getX_calm h, hc, if_true, begun_pc h]

/-- A branch whose condition fails completes. -/
theorem branch_untaken (h : calm s = true) {cond : Word → Word → Bool} {rs1 rs2 : Reg} (hc : cond (rdX s rs1) (rdX s rs2) = false) (imm : BitVec 12) :
    branch cond rs1 rs2 imm s = .next (after (begun s 4) 4) := by
  unfold branch
  rw [issue_calm h 4 _ _ _ _ rfl]
  simp only [getX_calm h, hc, Bool.false_eq_true, if_false, holding_ok, commit_ok]

/-- A branch decides by its condition on its two registers. -/
theorem branch_cases (h : calm s = true) {cond : Word → Word → Bool} {rs1 rs2 : Reg} {p : Prop} (hp : cond (rdX s rs1) (rdX s rs2) = true ↔ p)
    (imm : BitVec 12) :
    let t := s.me.pc + (imm ++ 0#1).signExtend 64
    (p → (t.getLsbD 1 = false → branch cond rs1 rs2 imm s = .next (jumped (begun s 4) t))
      ∧ (t.getLsbD 1 = true → branch cond rs1 rs2 imm s = .next (trapped (begun s 4) 4 0x02 t)))
    ∧ (¬ p → branch cond rs1 rs2 imm s = .next (after (begun s 4) 4)) :=
  ⟨fun h1 => branch_taken h (hp.mpr h1) imm, fun h1 => branch_untaken h (Bool.eq_false_iff.mpr (mt hp.mp h1)) imm⟩

/-- Settles O3: JAL and JALR go to their targets, and each branch goes by its condition. -/
theorem jumpsAndBranches : Obligations.JumpsAndBranches := by
  unfold Obligations.JumpsAndBranches
  intro s rd rs1 rs2 off imm h a b pc to_ target branch
  refine ⟨?jal, ?jalr, ?beq, ?bne, ?blt, ?bge, ?bltu, ?bgeu⟩
  case jal =>
    refine issue_goTo h ?_
    simp only [setX_calm h, begun_pc h, pc]
  case jalr =>
    refine issue_goTo h ?_
    simp only [setX_calm h, getX_calm h, begun_pc h, pc, a]
  case beq => exact branch_cases h (by simp [brEq, a, b]) imm
  case bne => exact branch_cases h (by simp [brNe, a, b]) imm
  case blt => exact branch_cases h (by simp [brLt, BitVec.slt, a, b]) imm
  case bge => exact branch_cases h (by simp [brGe, BitVec.slt, a, b]) imm
  case bltu => exact branch_cases h (by simp [brLtu, BitVec.ult, a, b]) imm
  case bgeu => exact branch_cases h (by simp [brGeu, BitVec.ult, a, b]) imm

/-! ### Traps raised, and the return from one -/

/-- An instruction that traps as its effect. -/
theorem issue_trap (h : calm s = true) (len : Nat) (srcs : List Dst) {body : State → Res} {cause : Nat} {tval : Word}
    (hb : body (begun s len) = .trap (begun s len) cause tval) :
    issue len noEarlyCheck srcs [] body s = .next (trapped (begun s len) len cause tval) := by
  rw [issue_calm h len _ _ _ _ rfl, hb]; rfl

theorem begun_tlev_len (h : calm s = true) (len : Nat) : (begun s len).me.tlev = s.me.tlev := by rw [begun_me h]

theorem execTret_level0 (h : calm s = true) (h0 : s.me.tlev = 0) : ∃ w, execTret s = .next (trapped (begun s 8) 8 0x01 w) :=
  ⟨_, issue_early (calm_issue h) 8 _ _ _ _ (by rw [if_pos (by rw [begun_tlev_len h, h0])]; rfl)⟩

theorem execTret_level (h : calm s = true) (h0 : s.me.tlev ≠ 0) :
    execTret s = .next { (begun s 8).modMe trapReturn with freeCtr := s.freeCtr + 1 } := by
  unfold execTret
  rw [issue_calm h 8 _ _ _ _ (if_neg (by rw [begun_tlev_len h]; exact h0))]
  rfl

theorem begun_cell_ne {d : Nat} (hd : d ≠ s.cur) (len : Nat) : (begun s len).cell d = s.cell d := modMe_other s _ hd

/-- Settles O16: each instruction that traps as its effect, and TRET at level 0 and above it. -/
theorem trapsTakenAndReturned : Obligations.TrapsTakenAndReturned := by
  unfold Obligations.TrapsTakenAndReturned
  refine ⟨fun s a len w h => ⟨?ecall, ?ebreak, ?traise, ?illegal⟩, fun s h => ⟨?level0, ?level⟩⟩
  case ecall => rw [exec_ecall]; exact issue_trap h 4 _ rfl
  case ebreak => rw [exec_ebreak]; exact issue_trap h 4 _ rfl
  case traise => exact issue_trap h 8 _ (by simp only [getX_calm h]; rfl)
  case illegal => rw [exec_illegalInstruction]; exact issue_early (calm_issue h) len _ _ _ _ rfl
  case level0 => exact execTret_level0 h
  case level =>
    intro h0
    obtain ⟨c, hc⟩ := begun_find h 8
    refine ⟨_, execTret_level h h0, (modMe_me hc trapReturn).trans ?_, rfl, fun d hd => ?_⟩
    · rw [← me_of_find hc, begun_me h]; rfl
    · exact (modMe_other (begun s 8) trapReturn hd).trans (begun_cell_ne hd 8)

end Sys2Proof.Machine
end
section
/-! A turn: the cell that takes it, the parcels that it fetches, and the instruction that it runs (spec 05 R108, R115; 18 R373, R382). -/

open Sys2Proof Sys2Proof.Machine

namespace Sys2Proof.Machine

variable {s : State} {p hi : W32} {i : Instr}

/-! ### What a change of the current cell leaves -/

/-- What a change of the current cell's entry leaves alone there. -/
theorem modMe_keeps {α : Type} {f : Cell → Cell} (g : Cell → α) (h : ∀ c, g (f c) = g c) (s : State) : g (s.modMe f).me = g s.me := by
  have hc : (s.modMe f).me = ((Tab.find s.cells s.cur).map f).getD {} := congrArg (·.getD {}) (Tab.find_adjust_self s.cells s.cur f)
  rw [hc]
  cases hs : Tab.find s.cells s.cur with
  | none => simp [State.me, State.cell, Tab.getD, hs]
  | some c => simp [me_of_find hs, h]

/-- A change that leaves the gang leaves the launch. -/
theorem myLaunch_modMe {f : Cell → Cell} (h : ∀ c, (f c).gang = c.gang) (s : State) : (s.modMe f).myLaunch = s.myLaunch :=
  congrArg (fun g => s.launch (s.gang g).launch) (modMe_keeps Cell.gang h s)

@[simp] theorem codeGone_modMe (s : State) (f : Cell → Cell) (l : Launch) (a : Nat) : codeGone (s.modMe f) l a = codeGone s l a := rfl

@[simp] theorem cachedParcel_modMe (s : State) (f : Cell → Cell) (l : ILine) (a : Nat) : cachedParcel (s.modMe f) l a = cachedParcel s l a := rfl

@[simp] theorem core_modMe (s : State) (f : Cell → Cell) (k : Nat) : (s.modMe f).core k = s.core k := rfl

/-- Where memory has not changed since the fill, a cached parcel is the line's (spec 05 R111). -/
theorem cachedParcel_unchanged {l : ILine} {a : Nat} (h : s.read (l.pa + a % 64 / 4 * 4) 4 = (l.data.drop (a % 64)).take 4) :
    cachedParcel s l a = BitVec.ofNat 32 (leNat ((l.data.drop (a % 64)).take 4)) := by
  simp [cachedParcel, h]

/-! ### Fetch -/

/-- A parcel in the core's instruction cache is fetched there. -/
theorem fetchParcel_cached {a : Word} {l : ILine} (ha : a.toNat < 2 ^ 56) (hg : codeGone s s.myLaunch a.toNat = false)
    (hl : iFind (s.core (coreOf s.cur)).icache s.myLaunch.asid (lineOf a.toNat) = some l) : fetchParcel s a = .got (cachedParcel s l a.toNat) := by
  unfold fetchParcel
  simpa [hg, hl] using ha

/-- The length that a trap of the fetch would record makes no difference to what is fetched. -/
theorem fetchParcel_cached_ilen {a : Word} {l : ILine} (ha : a.toNat < 2 ^ 56) (hg : codeGone s s.myLaunch a.toNat = false)
    (hl : iFind (s.core (coreOf s.cur)).icache s.myLaunch.asid (lineOf a.toNat) = some l) (len : Nat) :
    fetchParcel (s.modMe fun c => { c with ilen := len }) a = .got (cachedParcel s l a.toNat) := by
  have hm : (s.modMe fun c => { c with ilen := len }).myLaunch = s.myLaunch := myLaunch_modMe (by intro; rfl) s
  exact fetchParcel_cached ha (by rw [hm]; exact hg) (by rw [hm]; exact hl)

/-- An instruction that has issued completes as it was fetched (spec 05 R115). -/
theorem fetch_issued (h : s.me.parcels = some (p, hi)) : fetch s = .got p hi := by
  unfold fetch; rw [h]

theorem fetch_one (h : s.me.parcels = none) (h0 : ∀ len, fetchParcel (s.modMe fun c => { c with ilen := len }) s.me.pc = .got p)
    (hl : parcelLength p ≠ 8) : fetch s = .got p 0 := by
  unfold fetch; simp only [h, h0, hl, if_false]

theorem fetch_two (h : s.me.parcels = none) (h0 : ∀ len, fetchParcel (s.modMe fun c => { c with ilen := len }) s.me.pc = .got p)
    (hl : parcelLength p = 8) (h1 : fetchParcel (s.modMe fun c => { c with ilen := 8 }) (s.me.pc + 4) = .got hi) : fetch s = .got p hi := by
  unfold fetch; simp only [h, h0, hl, if_true, h1]

/-! ### The turn that is counted (spec 18 R382) -/

/-- The count of a turn changes no other field of the cell. -/
theorem countTurn_keeps {α : Type} (g : Cell → α) (h : ∀ (c : Cell) n, g { c with turns := n } = g c) (s : State) : g (countTurn s).me = g s.me := by
  unfold countTurn
  split
  · exact modMe_keeps g (fun c => h c _) s
  · rfl

theorem countTurn_myLaunch (s : State) : (countTurn s).myLaunch = s.myLaunch := by
  unfold countTurn
  split
  · exact myLaunch_modMe (by intro; rfl) s
  · rfl

theorem countTurn_cur (s : State) : (countTurn s).cur = s.cur := by
  unfold countTurn; split <;> rfl

theorem countTurn_core (s : State) (k : Nat) : (countTurn s).core k = s.core k := by
  unfold countTurn; split <;> rfl

theorem codeGone_countTurn (s : State) (l : Launch) (a : Nat) : codeGone (countTurn s) l a = codeGone s l a := by
  unfold countTurn; split <;> rfl

theorem cachedParcel_countTurn (s : State) (l : ILine) (a : Nat) : cachedParcel (countTurn s) l a = cachedParcel s l a := by
  unfold countTurn; split <;> rfl

/-- A parcel that is cached is fetched by a turn that has been counted. -/
theorem fetchParcel_countTurn {a : Word} {l : ILine} (ha : a.toNat < 2 ^ 56) (hg : codeGone s s.myLaunch a.toNat = false)
    (hl : iFind (s.core (coreOf s.cur)).icache s.myLaunch.asid (lineOf a.toNat) = some l) (len : Nat) :
    fetchParcel ((countTurn s).modMe fun c => { c with ilen := len }) a = .got (cachedParcel s l a.toNat) := by
  rw [← cachedParcel_countTurn]
  refine fetchParcel_cached_ilen ha ?_ ?_ len
  · rw [codeGone_countTurn, countTurn_myLaunch, hg]
  · rw [countTurn_core, countTurn_cur, countTurn_myLaunch, hl]

/-! ### The plan of a turn -/

/-- Nothing comes before the instruction of the cell's turn. -/
def Unhindered (s : State) : Prop := turnForced s = false ∧ resumeStep (countTurn s) = none ∧ turnTraps (countTurn s) = false

theorem unhindered_of (hl : s.myGang.st ≠ .landing ∨ s.me.turns < 4096 ∨ s.me.reply.isSome = true)
    (ha : s.me.tlev ≠ 0 ∨ s.me.asyncs = [] ∨ s.me.reply.isSome = true) (hv : s.me.vrecs = []) (hb : s.me.barp = none) : Unhindered s := by
  refine ⟨?_, ?_, ?_⟩
  · unfold turnForced
    rcases hl with h | h | h <;> simp [h]
  · have hv' := countTurn_keeps Cell.vrecs (fun _ _ => rfl) s
    have hb' := countTurn_keeps Cell.barp (fun _ _ => rfl) s
    simp [resumeStep, hv', hb', hv, hb]
  · have ht := countTurn_keeps Cell.tlev (fun _ _ => rfl) s
    have hq := countTurn_keeps Cell.asyncs (fun _ _ => rfl) s
    have hr := countTurn_keeps Cell.reply (fun _ _ => rfl) s
    unfold turnTraps
    rw [ht, hq, hr]
    rcases ha with h | h | h <;> simp [h]

/-- The state in which the fetched instruction runs: the turn counted, and the parcels kept with the cell. -/
def fetchedState (s : State) (p hi : W32) : State := (countTurn s).modMe fun c => { c with parcels := some (p, hi) }

theorem planCell_instr (hu : Unhindered s) (hf : fetch (countTurn s) = .got p hi) {len : Nat} (hd : decode p hi = .instr i len) :
    planCell s = .run i (fetchedState s p hi) := by
  obtain ⟨h1, h2, h3⟩ := hu
  simp [planCell, h1, h2, h3, hf, hd, fetchedState]

theorem planCell_illegal (hu : Unhindered s) (hf : fetch (countTurn s) = .got p hi) {why : Reject} {len : Nat} {w : Word}
    (hd : decode p hi = .illegal why len w) : planCell s = .run (.illegalInstruction len w) (fetchedState s p hi) := by
  obtain ⟨h1, h2, h3⟩ := hu
  simp [planCell, h1, h2, h3, hf, hd, fetchedState]

theorem step_event {rest : List Act} (h : s.agenda = .event i :: rest) : step s = exec i { s with agenda := rest } := by
  simp [step, plan, h]

/-- A turn on the agenda runs what the cell of the rotation's next ready slot has planned. -/
theorem step_turn {rest : List Act} {core sl : Nat} {u : State} (h : s.agenda = .turn core :: rest)
    (hn : nextSlot { s with agenda := rest } core = some sl) (hp : planCell (takeTurn { s with agenda := rest } core sl) = .run i u) : step s = exec i u := by
  simp [step, plan, planTurn, h, hn, hp]

theorem takeTurn_coreOf (s : State) (core : Nat) {sl : Nat} (h : sl < 8) : coreOf (takeTurn s core sl).cur = core := by
  show (core * 8 + sl) / 8 = core
  omega

/-- Settles O57: the agenda gives the turn, the parcels come from the cell or its core's cache, and the plan of the turn runs what they decode to. -/
theorem stepRunsTheDecodedInstruction : Obligations.StepRunsTheDecodedInstruction := by
  unfold Obligations.StepRunsTheDecodedInstruction
  intro s rest s0
  refine ⟨fun i h => step_event h, ?_⟩
  intro core sl l p hi hag hn t pc landing u cached hsl hland hasync hvrecs hbarp
  have hu : Unhindered t := unhindered_of hland hasync hvrecs hbarp
  have runs {p hi : W32} (hf : fetch (countTurn t) = .got p hi) :
      (∀ i len, decode p hi = .instr i len → step s = exec i (u p hi))
        ∧ ∀ why len w, decode p hi = .illegal why len w → step s = exec (.illegalInstruction len w) (u p hi) :=
    ⟨fun i len hd => step_turn hag hn (planCell_instr hu hf hd), fun why len w hd => step_turn hag hn (planCell_illegal hu hf hd)⟩
  have hparcels := countTurn_keeps Cell.parcels (fun _ _ => rfl) t
  have hpc := countTurn_keeps Cell.pc (fun _ _ => rfl) t
  refine ⟨?issued, fun a h => cachedParcel_unchanged h, ?cached⟩
  case issued => exact fun h => (runs (fetch_issued (hparcels.trans h))).1
  case cached =>
    intro hnone hlow hgone hl hp
    have hcore : coreOf t.cur = core := takeTurn_coreOf s0 core hsl
    have hfirst (len : Nat) : fetchParcel ((countTurn t).modMe fun c => { c with ilen := len }) (countTurn t).me.pc = .got p := by
      rw [hpc, ← hp]
      exact fetchParcel_countTurn (by omega) (hgone _) (by rw [hcore]; exact hl) len
    refine ⟨fun hlen => runs (fetch_one (hparcels.trans hnone) hfirst hlen), fun hlen l2 hl2 hhi => runs (fetch_two (hparcels.trans hnone) hfirst hlen ?_)⟩
    have hnext : (t.me.pc + 4).toNat = pc + 4 := by
      rw [BitVec.toNat_add]
      exact Nat.mod_eq_of_lt (by simp; omega)
    rw [hpc, ← hhi, ← hnext]
    exact fetchParcel_countTurn (by omega) (hgone _) (by rw [hcore, hnext]; exact hl2) 8

end Sys2Proof.Machine
end
section
/-! Results that arrive, rotations, turns that pass, lines that are filled, and vector instructions that complete (spec 05 R109, R110, R115; 06 R129 to
R135; 09 R208). -/

open Sys2Proof Sys2Proof.Machine

namespace Sys2Proof.Machine

variable {s : State}

/-! ### Cells after a change of one, and after a waking -/

theorem cell_of_find {k : Nat} {c : Cell} (h : Tab.find s.cells k = some c) : s.cell k = c := by
  simp [State.cell, Tab.getD, h]

theorem find_modCell_self {k : Nat} {c : Cell} (h : Tab.find s.cells k = some c) (f : Cell → Cell) :
    Tab.find (s.modCell k f).cells k = some (f c) := by
  simp [State.modCell, Tab.find_adjust_self, h]

theorem cell_modCell_ne {k d : Nat} (h : d ≠ k) (f : Cell → Cell) : (s.modCell k f).cell d = s.cell d :=
  congrArg (·.getD {}) (Tab.find_adjust_ne s.cells f h)

/-- What a waking does to the cell in a slot. -/
def woken (p : Nat → Wait → Bool) (k : Nat) (c : Cell) : Cell :=
  match c.run with
  | .parked w => if p k w then { c with run := .ready } else c
  | _ => c

theorem find_wakeWhere (s : State) (p : Nat → Wait → Bool) (k : Nat) :
    Tab.find (wakeWhere s p).cells k = (Tab.find s.cells k).map (woken p k) := by
  show Tab.find (s.cells.map fun e => (e.1, woken p e.1 e.2)) k = _
  induction s.cells with
  | nil => rfl
  | cons e t ih =>
    obtain ⟨k', c⟩ := e
    by_cases h : k = k'
    · subst h; simp [Tab.find]
    · simp [Tab.find, h, ih]

theorem find_woken {p : Nat → Wait → Bool} {k : Nat} {c : Cell} (h : Tab.find s.cells k = some c) :
    Tab.find (wakeWhere s p).cells k = some (woken p k c) := by
  rw [find_wakeWhere, h, Option.map_some]

theorem woken_ready {p : Nat → Wait → Bool} {k : Nat} {c : Cell} {w : Wait} (hr : c.run = .parked w) (hp : p k w = true) :
    woken p k c = { c with run := .ready } := by
  unfold woken
  rw [hr]
  exact if_pos hp

/-- A waking changes no more of a cell than how it runs. -/
theorem cell_wakeWhere (s : State) (p : Nat → Wait → Bool) (k : Nat) : ∃ run, (wakeWhere s p).cell k = { s.cell k with run } := by
  have hw (c : Cell) : ∃ run, woken p k c = { c with run } := by
    unfold woken
    split
    · split
      · exact ⟨_, rfl⟩
      · exact ⟨c.run, rfl⟩
    · exact ⟨c.run, rfl⟩
  simp only [State.cell, Tab.getD, find_wakeWhere]
  cases Tab.find s.cells k with
  | none => exact ⟨_, rfl⟩
  | some c => exact hw c

/-! ### FE_WRITEBACK (spec 06 R133, R135) -/

/-- A cell when a result has arrived in its register. -/
def withResult (p : PendW) (c : Cell) : Cell :=
  match p.dst with
  | .x r => markEmpty { c with x := c.x.set r.toNat (BitVec.ofNat 64 p.val) r.isLt } (.x r) false
  | .f r => markEmpty { c with f := c.f.set r.toNat (BitVec.ofNat 32 p.val) r.isLt } (.f r) false
  | .v r => markEmpty { c with v := c.v.set r.toNat (BitVec.ofNat 1024 p.val) r.isLt } (.v r) false
  | _ => c

theorem cell_writeBack {k : Nat} {c : Cell} (h : Tab.find s.cells k = some c) (p : PendW) : (writeBack s k p).cell k = withResult p c := by
  unfold writeBack withResult
  cases p.dst with
  | x r | f r | v r => exact cell_of_find (find_modCell_self h _)
  | hoq q id | m r | none => exact cell_of_find h

theorem cell_writeBack_ne {k d : Nat} (h : d ≠ k) (p : PendW) : (writeBack s k p).cell d = s.cell d := by
  unfold writeBack
  cases p.dst with
  | x r | f r | v r => exact cell_modCell_ne h _
  | hoq q id | m r | none => rfl

theorem writeBack_mem (k : Nat) (p : PendW) : (writeBack s k p).mem = s.mem := by
  unfold writeBack
  cases p.dst <;> rfl

/-- The state after a result has arrived. -/
def writtenBack (s : State) (k i : Nat) (p : PendW) : State :=
  wakeFull (writeBack (s.modCell k fun c => { c with pend := dropAt c.pend i }) k p) k

theorem execFeWriteback_eq {k i : Nat} {c : Cell} {p : PendW} (h : Tab.find s.cells k = some c) (hp : c.pend[i]? = some p) :
    execFeWriteback k i s = .next (writtenBack s k i p) := by
  unfold execFeWriteback
  simp [h, hp, writtenBack]

theorem cell_wakeFull (s : State) (k d : Nat) : ∃ run, (wakeFull s k).cell d = { s.cell d with run } := cell_wakeWhere ..

theorem cell_writtenBack {k : Nat} {c : Cell} (h : Tab.find s.cells k = some c) (i : Nat) (p : PendW) :
    ∃ run, (writtenBack s k i p).cell k = { withResult p { c with pend := c.pend.eraseIdx i } with run } := by
  obtain ⟨run, hrun⟩ := cell_wakeFull (writeBack (s.modCell k fun c => { c with pend := dropAt c.pend i }) k p) k k
  exact ⟨run, by rw [writtenBack, hrun, cell_writeBack (find_modCell_self h _)]; rfl⟩

theorem cell_writtenBack_ne {k d : Nat} (h : d ≠ k) (i : Nat) (p : PendW) : ∃ run, (writtenBack s k i p).cell d = { s.cell d with run } := by
  obtain ⟨run, hrun⟩ := cell_wakeFull (writeBack (s.modCell k fun c => { c with pend := dropAt c.pend i }) k p) k d
  exact ⟨run, by rw [writtenBack, hrun, cell_writeBack_ne h, cell_modCell_ne h]⟩

theorem writtenBack_mem (k i : Nat) (p : PendW) : (writtenBack s k i p).mem = s.mem :=
  writeBack_mem (s := s.modCell k fun c => { c with pend := dropAt c.pend i }) k p

/-- A result changes its register and that register's bit alone. -/
theorem withResult_frame (p : PendW) (c : Cell) : (withResult p c).pend = c.pend ∧ (withResult p c).csr = c.csr ∧ (withResult p c).pc = c.pc := by
  unfold withResult
  split <;> exact ⟨rfl, rfl, rfl⟩

/-! ### Rotations (spec 06 R129 to R131) -/

theorem mem_insertNat {l : List Nat} {k x : Nat} : x ∈ insertNat l k ↔ x = k ∨ x ∈ l := by
  induction l with
  | nil => simp [insertNat]
  | cons a l ih =>
    unfold insertNat
    split
    · simp
    · split
      · subst_vars; simp
      · simp only [List.mem_cons, ih]; tauto

/-- What is admitted was in the rotation or waits, and what was in the rotation stays. -/
theorem mem_admitAll (last : Tab Nat) (t : Nat) (kept : List Nat) (waiting : List Nat) (set : List Nat) {x : Nat} :
    (x ∈ set → x ∈ admitAll last t kept set waiting) ∧ (x ∈ admitAll last t kept set waiting → x ∈ set ∨ x ∈ waiting) := by
  induction waiting generalizing set with
  | nil => exact ⟨id, .inl⟩
  | cons sl rest ih =>
    unfold admitAll
    dsimp only
    split
    · obtain ⟨h1, h2⟩ := ih (insertNat set sl)
      refine ⟨fun h => h1 (mem_insertNat.mpr (.inr h)), fun h => ?_⟩
      rcases h2 h with h | h
      · rcases mem_insertNat.mp h with rfl | h
        · exact .inr (by simp)
        · exact .inl h
      · exact .inr (by simp [h])
    · exact ⟨id, .inl⟩

theorem execRotationBoundary_eq {core : Nat} (h : nextSlot s core = none) : execRotationBoundary core s = .next (rotate s core) := by
  simp [execRotationBoundary, h]

/-! ### A turn that passes (spec 06 R134, 05 R115) -/

theorem takeTurn_cur (s : State) (cell : Nat) : (takeTurn s (coreOf cell) (cell % 8)).cur = cell := by
  show cell / 8 * 8 + cell % 8 = cell
  omega

theorem find_countTurn {c : Cell} (h : Tab.find s.cells s.cur = some c) :
    Tab.find (countTurn s).cells (countTurn s).cur = some { c with turns := if (s.gang c.gang).st = .landing then c.turns + 1 else c.turns } := by
  have hg : s.myGang = s.gang c.gang := by rw [State.myGang, me_of_find h]
  unfold countTurn
  rw [hg]
  by_cases hl : (s.gang c.gang).st = .landing
  · rw [if_pos (beq_iff_eq.mpr hl), if_pos hl]; exact find_modCell_self h _
  · rw [if_neg (mt beq_iff_eq.mp hl), if_neg hl]; exact h

theorem turnPassed_eq {c : Cell} (h : Tab.find s.cells s.cur = some c) (hl : c.latch = []) (hp : c.pushed = []) :
    turnPassed s = { s.modMe Cell.tick with freeCtr := s.freeCtr + 1 } := by
  have hn : ({ c with latch := [] } : Cell) = c := by rw [← hl]
  have hm : (s.modMe fun c => { c with latch := [] }).modMe Cell.tick = s.modMe Cell.tick := by
    show ({ s with cells := Tab.adjust (Tab.adjust s.cells s.cur _) s.cur _ } : State) = { s with cells := Tab.adjust s.cells s.cur _ }
    rw [Tab.adjust_adjust, Tab.adjust_of_find h, Tab.adjust_of_find h, Function.comp, hn]
  unfold turnPassed
  rw [unlatch_nil h hl hp]
  exact congrArg (fun u : State => { u with freeCtr := s.freeCtr + 1 }) hm

section
variable {p hi : W32}

@[simp] theorem fetchedState_cur (s : State) (p hi : W32) : (fetchedState s p hi).cur = s.cur := countTurn_cur s

@[simp] theorem fetchedState_mem (s : State) (p hi : W32) : (fetchedState s p hi).mem = s.mem := by
  unfold fetchedState countTurn; split <;> rfl

@[simp] theorem fetchedState_gangs (s : State) (p hi : W32) : (fetchedState s p hi).gangs = s.gangs := by
  unfold fetchedState countTurn; split <;> rfl

theorem find_fetchedState {c : Cell} (h : Tab.find s.cells s.cur = some c) : Tab.find (fetchedState s p hi).cells (fetchedState s p hi).cur
    = some { c with parcels := some (p, hi), turns := if (s.gang c.gang).st = .landing then c.turns + 1 else c.turns } :=
  find_modCell_self (find_countTurn h) fun c => { c with parcels := some (p, hi) }

theorem cell_fetchedState_ne {d : Nat} (h : d ≠ s.cur) : (fetchedState s p hi).cell d = s.cell d := by
  have hm : (fetchedState s p hi).cell d = (countTurn s).cell d := modMe_other _ _ (by rw [countTurn_cur]; exact h)
  rw [hm]
  unfold countTurn
  split
  · exact modMe_other s _ h
  · rfl

/-- A turn that passes keeps what was fetched, and changes nothing else that the program sees (spec 05 R115, 06 R134). -/
theorem turnPassed_fetched {c : Cell} (h : Tab.find s.cells s.cur = some c) (hl : c.latch = []) (hp : c.pushed = []) :
    let t := turnPassed (fetchedState s p hi)
    t.cur = s.cur
      ∧ t.cell s.cur = { c.tick with parcels := some (p, hi), turns := if (s.gang c.gang).st = .landing then c.turns + 1 else c.turns }
      ∧ t.mem = s.mem ∧ t.gangs = s.gangs ∧ ∀ d, d ≠ s.cur → t.cell d = s.cell d := by
  intro t
  have hf := find_fetchedState (p := p) (hi := hi) h
  have ht : t = { (fetchedState s p hi).modMe Cell.tick with freeCtr := (fetchedState s p hi).freeCtr + 1 } :=
    turnPassed_eq hf hl hp
  rw [ht]
  refine ⟨fetchedState_cur s p hi, ?_, fetchedState_mem s p hi, fetchedState_gangs s p hi, fun d hd => ?_⟩
  · have hme := modMe_me hf Cell.tick
    rw [State.me, State.modMe_cur, fetchedState_cur] at hme
    exact hme
  · exact (modMe_other (fetchedState s p hi) Cell.tick (by rw [fetchedState_cur]; exact hd)).trans (cell_fetchedState_ne hd)

end

theorem execTurnSpentWithoutIssue_eq {cell : Nat} {p hi : W32} {s1 : State} (hn : nextSlot s (coreOf cell) = some (cell % 8))
    (h1 : takeTurn s (coreOf cell) (cell % 8) = s1) (hforced : turnForced s1 = false) (htraps : turnTraps s1 = false) (hresume : resumeStep s1 = none)
    (hfetch : fetch s1 = .got p hi) (hbusy : unitBusy s1 p hi = true) :
    execTurnSpentWithoutIssue cell s = .next (turnPassed (fetchedState s1 p hi)) := by
  simp [execTurnSpentWithoutIssue, hn, h1, hforced, htraps, hresume, hfetch, hbusy, fetchedState]

/-! ### Lines (spec 05 R109, R110) -/

theorem iFind_asid {l : List ILine} {asid line : Nat} {e : ILine} (h : iFind l asid line = some e) : e.asid = asid := by
  have := List.find?_some h
  simp only [Bool.and_eq_true, beq_iff_eq] at this
  exact this.1

/-- A fill finds a line of the cell's address space, and changes the caches and counters of its way there. -/
theorem fillLine_frame {s1 : State} {cell line : Nat} {l : ILine} (h : fillLine s cell line = some (s1, l)) :
    l.asid = (s.launchOf cell).asid ∧ ∃ hives dies heat freeCtr, s1 = { s with hives, dies, heat, freeCtr } := by
  unfold fillLine at h
  dsimp only at h
  split at h
  · next e he =>
    cases h
    exact ⟨iFind_asid he, _, _, _, _, rfl⟩
  · split at h
    · split at h
      · cases h
        obtain ⟨hives, dies, heat, freeCtr, hn⟩ := noteTlb_seen s (hiveOf (coreOf cell)) (s.launchOf cell).asid line
        exact ⟨rfl, _, dies, heat, _, by rw [hn]; rfl⟩
      · cases h
    · cases h

/-- A line that has been read for a core is in its cache. -/
def lineCached (s1 : State) (core : Nat) (l : ILine) : State :=
  { s1.modCore core fun k => { k with icache := iAdd 64 8 s1.freeCtr k.icache l } with freeCtr := s1.freeCtr + 1 }

/-- ICACHE_FILL_DONE of a line that can be filled: the line is in the core's cache, and the cells of its address space that wait for it go on. -/
def lineFilled (s1 : State) (core line : Nat) (l : ILine) : State :=
  wakeWhere (lineCached s1 core l) fun c w => coreOf c == core && w == .icache line && ((lineCached s1 core l).launchOf c).asid == l.asid

theorem execIcacheFillDone_fills {s1 : State} {cell line : Nat} {c : Cell} {l : ILine} (hc : Tab.find s.cells cell = some c)
    (hr : c.run = .parked (.icache line)) (hcut : fillCut s cell line = none) (hfill : fillLine s cell line = some (s1, l))
    (hm : s.refusedIn l.pa 64 = none) : execIcacheFillDone cell s = .next (lineFilled s1 (coreOf cell) line l) := by
  simp [execIcacheFillDone, hc, hr, hcut, hfill, hm, lineFilled, lineCached]

/-- The cell that waited for the line goes on. -/
theorem cell_lineFilled {s1 : State} {cell line : Nat} {c : Cell} {l : ILine} (hc : Tab.find s1.cells cell = some c) (hr : c.run = .parked (.icache line))
    (ha : l.asid = (s1.launchOf cell).asid) : (lineFilled s1 (coreOf cell) line l).cell cell = { c with run := .ready } := by
  refine (cell_of_find (find_woken (s := lineCached s1 (coreOf cell) l) hc)).trans (woken_ready hr ?_)
  simp only [beq_self_eq_true, Bool.true_and]
  exact beq_iff_eq.mpr ha.symm

/-- A line that is added stands first in its cache. -/
theorem iAdd_head (sets ways pick : Nat) (l : List ILine) (e : ILine) : ∃ rest, iAdd sets ways pick l e = e :: rest := by
  unfold iAdd
  dsimp only
  split
  · exact ⟨_, rfl⟩
  · split <;> exact ⟨_, rfl⟩

/-! ### Vector completions (spec 09 R208) -/

theorem vecReleased_busy {cell : Nat} (h : vecBusy s cell = true) : vecReleased s cell = s := by
  unfold vecReleased; rw [if_pos h]

theorem vecReleased_waiting {cell : Nat} (h : vecBusy s cell = false) (hr : (s.cell cell).run = .parked .vector) (ht : (s.cell cell).trapPend = none) :
    vecReleased s cell = s.modCell cell fun c => { c with run := .ready } := by
  unfold vecReleased
  simp [h, hr, ht]

theorem vecReleased_other {cell : Nat} (hr : (s.cell cell).run ≠ .parked .vector) : vecReleased s cell = s := by
  unfold vecReleased
  split
  · rfl
  · split
    · next h _ => exact absurd h hr
    · next h _ => exact absurd h hr
    · rfl

theorem execVectorInstructionComplete_eq {core i : Nat} {v : VFlight} (hv : (s.core core).vec[i]? = some v)
    (hw : (((s.core core).vec.take (i + 1)).any fun x => x.cell == v.cell && x.waits.any (isEmpty (s.cell v.cell))) = false) :
    execVectorInstructionComplete core i s
      = .next (vecReleased (s.modCore core fun k =>
          { k with vec := (k.vec.zipIdx.filter fun e => decide (i < e.2) || e.1.cell != v.cell).map (·.1) }) v.cell) := by
  simp only [execVectorInstructionComplete, hv, hw, Bool.false_eq_true, if_false]

/-- Settles O22: what `writtenBack`, the next rotation, a passed turn, a filled line and a released cell are, step by step. -/
theorem resultsTurnsAndCompletions : Obligations.ResultsTurnsAndCompletions := by
  unfold Obligations.ResultsTurnsAndCompletions
  refine ⟨?results, ⟨?rotation, ?passes⟩, ?lines, ?vectors⟩
  case results =>
    intro s k i c p hc hp _
    obtain ⟨run, hrun⟩ := cell_writtenBack hc i p
    obtain ⟨hpend, hcsr, hpc⟩ := withResult_frame p { c with pend := c.pend.eraseIdx i }
    refine ⟨_, execFeWriteback_eq hc hp, ?_, writtenBack_mem k i p, ?_, ?_, ?_, ?_, ?_, ?_, ?_⟩
    · rw [hrun]; exact hpend
    · rw [hrun]; exact hcsr
    · rw [hrun]; exact hpc
    · intro r hr; rw [hrun, withResult, hr]; exact ⟨rfl, rfl, rfl, rfl⟩
    · intro r hr; rw [hrun, withResult, hr]; exact ⟨rfl, rfl, rfl, rfl⟩
    · intro r hr; rw [hrun, withResult, hr]; exact ⟨rfl, rfl, rfl, rfl⟩
    · intro q id hq; rw [hrun, withResult, hq]; exact ⟨rfl, rfl, rfl⟩
    · intro d hd
      obtain ⟨run, hrun⟩ := cell_writtenBack_ne (s := s) hd i p
      rw [hrun]
      exact ⟨rfl, rfl, rfl⟩
  case rotation =>
    intro s core h kept
    refine ⟨_, _, execRotationBoundary_eq h, fun sl hsl => (mem_admitAll ..).1 hsl, fun sl hsl => ?_⟩
    rcases (mem_admitAll ..).2 hsl with hk | hw
    · exact (List.mem_filter.mp hk).2
    · have hready := (List.mem_filter.mp hw).2
      simp only [Bool.and_eq_true] at hready
      exact hready.1
  case passes =>
    intro s cell c p hi hc hlatch hpushed hn s1 hforced htraps hresume hfetch hbusy
    have hcur : s1.cur = cell := takeTurn_cur s cell
    have hfind : Tab.find s1.cells s1.cur = some c := by rw [hcur]; exact hc
    refine ⟨_, execTurnSpentWithoutIssue_eq hn rfl hforced htraps hresume hfetch hbusy, ?_⟩
    have hpassed := turnPassed_fetched (p := p) (hi := hi) hfind hlatch hpushed
    rw [hcur] at hpassed
    exact hpassed
  case lines =>
    intro s s1 cell line c l hc hpark hcut hfill hrefused
    obtain ⟨hasid, hives, dies, heat, freeCtr, rfl⟩ := fillLine_frame hfill
    obtain ⟨rest, hrest⟩ := iAdd_head 64 8 freeCtr (s.core (coreOf cell)).icache l
    refine ⟨_, rest, execIcacheFillDone_fills hc hpark hcut hfill hrefused, ?_, cell_lineFilled hc hpark hasid, rfl, rfl⟩
    rw [← hrest]; rfl
  case vectors =>
    intro s core i v c hv hc hwaits u
    obtain rfl : s.cell v.cell = c := cell_of_find hc
    have heq := execVectorInstructionComplete_eq hv hwaits
    refine ⟨fun hb => ?_, fun hb hr ht => ?_, fun hr => ?_⟩
    · exact heq.trans (congrArg _ (vecReleased_busy hb))
    · exact heq.trans (congrArg _ (vecReleased_waiting hb hr ht))
    · exact heq.trans (congrArg _ (vecReleased_other hr))

end Sys2Proof.Machine
end
section
/-! The integer instructions and the divisions, for a calm cell (spec 06 R138, R140). -/

open Sys2Proof Sys2Proof.Machine

namespace Sys2Proof.Machine

variable {s : State}

/-! ### Results of the integer instructions (spec 06 R138) -/

theorem wordOf_slt (a b : Word) : wordOf (a.slt b) = if a.toInt < b.toInt then 1 else 0 := by simp [wordOf, BitVec.slt]

theorem wordOf_ult (a b : Word) : wordOf (a.ult b) = if a.toNat < b.toNat then 1 else 0 := by simp [wordOf, BitVec.ult]

/-- The high word of a product of 128 bits is the product's quotient by 2 to the 64. -/
theorem ofInt_high (z : Int) : (BitVec.ofInt 128 z).extractLsb' 64 64 = BitVec.ofInt 64 (z / 2 ^ 64) := by
  apply BitVec.eq_of_toNat_eq
  simp only [BitVec.extractLsb'_toNat, BitVec.toNat_ofInt, Nat.shiftRight_eq_div_pow]
  omega

theorem opMulh_high (a b : Word) : opMulh a b = (a.signExtend 128 * b.signExtend 128).extractLsb' 64 64 := by
  have hp : a.signExtend 128 * b.signExtend 128 = BitVec.ofInt 128 (a.toInt * b.toInt) := by
    rw [BitVec.ofInt_mul, BitVec.signExtend, BitVec.signExtend]
  rw [hp, ofInt_high, opMulh]

theorem opMulhsu_high (a b : Word) : opMulhsu a b = (a.signExtend 128 * b.setWidth 128).extractLsb' 64 64 := by
  have hp : a.signExtend 128 * b.setWidth 128 = BitVec.ofInt 128 (a.toInt * (b.toNat : Int)) := by
    rw [BitVec.ofInt_mul, BitVec.signExtend, BitVec.ofInt_natCast, BitVec.ofNat_toNat]
  rw [hp, ofInt_high, opMulhsu]

theorem opMulhu_high (a b : Word) : opMulhu a b = (a.setWidth 128 * b.setWidth 128).extractLsb' 64 64 := by
  have hp : a.setWidth 128 * b.setWidth 128 = BitVec.ofInt 128 ((a.toNat * b.toNat : Nat) : Int) := by
    rw [BitVec.ofInt_natCast, BitVec.ofNat_mul, BitVec.ofNat_toNat, BitVec.ofNat_toNat]
  rw [hp, ofInt_high, opMulhu]
  norm_cast

theorem opAddw_low (a b : Word) : opAddw a b = ((a + b).setWidth 32).signExtend 64 := by
  rw [BitVec.setWidth_add _ _ (by omega)]; rfl

theorem setWidth_sub32 (a b : Word) : (a - b).setWidth 32 = a.setWidth 32 - b.setWidth 32 := by
  apply BitVec.eq_of_toNat_eq
  simp only [BitVec.toNat_setWidth, BitVec.toNat_sub]
  omega

theorem opSubw_low (a b : Word) : opSubw a b = ((a - b).setWidth 32).signExtend 64 := by
  rw [setWidth_sub32]; rfl

theorem opMulw_low (a b : Word) : opMulw a b = ((a * b).setWidth 32).signExtend 64 := by
  rw [BitVec.setWidth_mul _ _ (by omega)]; rfl

/-- What an instruction on two registers gives. -/
theorem aluRR_gives (h : calm s = true) {f : Word → Word → Word} {rd rs1 rs2 : Reg} {v : Word} (hv : f (rdX s rs1) (rdX s rs2) = v) :
    aluRR f rd rs1 rs2 s = .next (after (wrX (begun s 4) rd v) 4) := by rw [aluRR_calm h, hv]

/-- What an instruction on a register and an immediate gives. -/
theorem aluRI_gives (h : calm s = true) {f : Word → Word → Word} {rd rs1 : Reg} {imm : BitVec 12} {v : Word}
    (hv : f (rdX s rs1) (imm.signExtend 64) = v) : aluRI f rd rs1 imm s = .next (after (wrX (begun s 4) rd v) 4) := by rw [aluRI_calm h, hv]

theorem execLui_calm (h : calm s = true) (rd : Reg) (imm : BitVec 20) :
    execLui rd imm s = .next (after (wrX (begun s 4) rd ((imm ++ 0#12).signExtend 64)) 4) := by
  unfold execLui
  rw [issue_calm h 4 _ _ _ _ rfl, setX_calm h]; rfl

theorem execAuipc_calm (h : calm s = true) (rd : Reg) (imm : BitVec 20) :
    execAuipc rd imm s = .next (after (wrX (begun s 4) rd (s.me.pc + (imm ++ 0#12).signExtend 64)) 4) := by
  unfold execAuipc
  rw [issue_calm h 4 _ _ _ _ rfl, setX_calm h, begun_pc h]; rfl

/-- Settles O1: each form is its shared operation on its own function of the operands. -/
theorem integerResults : Obligations.IntegerResults := by
  unfold Obligations.IntegerResults
  refine ⟨fun s rd rs1 rs2 h => ?registers, fun s rd rs1 imm up sh shw h => ?immediates⟩
  case registers =>
    refine ⟨aluRR_calm h .., aluRR_calm h .., aluRR_calm h .., aluRR_calm h .., aluRR_calm h .., ?slt, ?sltu, aluRR_calm h .., aluRR_calm h ..,
      aluRR_calm h .., ?addw, ?subw, aluRR_calm h .., aluRR_calm h .., aluRR_calm h .., aluRR_calm h .., ?mulw, ?mulh, ?mulhsu, ?mulhu⟩
    case slt => exact aluRR_gives h (wordOf_slt ..)
    case sltu => exact aluRR_gives h (wordOf_ult ..)
    case addw => exact aluRR_gives h (opAddw_low ..)
    case subw => exact aluRR_gives h (opSubw_low ..)
    case mulw => exact aluRR_gives h (opMulw_low ..)
    case mulh => exact aluRR_gives h (opMulh_high ..)
    case mulhsu => exact aluRR_gives h (opMulhsu_high ..)
    case mulhu => exact aluRR_gives h (opMulhu_high ..)
  case immediates =>
    refine ⟨execLui_calm h .., execAuipc_calm h .., aluRI_calm h .., aluRI_calm h .., aluRI_calm h .., aluRI_calm h .., ?slti, ?sltiu, ?addiw,
      aluSh_calm h .., aluSh_calm h .., aluSh_calm h .., aluSh_calm h .., aluSh_calm h .., aluSh_calm h ..⟩
    case slti => exact aluRI_gives h (wordOf_slt ..)
    case sltiu => exact aluRI_gives h (wordOf_ult ..)
    case addiw => exact aluRI_gives h (opAddw_low ..)

/-! ### Divisions (spec 06 R140) -/

theorem divS_eq {w : Nat} (a b : BitVec w) : divS a b = if b = 0 then BitVec.allOnes w else a.sdiv b := by
  unfold divS
  split
  · rfl
  · apply BitVec.eq_of_toInt_eq
    rw [BitVec.toInt_ofInt, BitVec.toInt_sdiv]

theorem divU_eq {w : Nat} (a b : BitVec w) : divU a b = if b = 0 then BitVec.allOnes w else a / b := by
  unfold divU
  rw [← BitVec.toNat_udiv, BitVec.ofNat_toNat, BitVec.setWidth_eq]

theorem remS_eq {w : Nat} (a b : BitVec w) : remS a b = if b = 0 then a else a.srem b := by
  unfold remS
  rw [← BitVec.toInt_srem, BitVec.ofInt_toInt]

theorem remU_eq {w : Nat} (a b : BitVec w) : remU a b = if b = 0 then a else a % b := by
  unfold remU
  rw [← BitVec.toNat_umod, BitVec.ofNat_toNat, BitVec.setWidth_eq]

theorem bit_getLsbD {w : Nat} (v : BitVec w) (i : Nat) : bit v.toNat i = v.getLsbD i := by
  rw [bit, BitVec.getLsbD, Nat.testBit_eq_decide_div_mod_eq]
  rfl

/-- A division traps for a zero divisor where DZE is set, and gives its result otherwise. -/
theorem divide_gives (h : calm s = true) {f : Word → Word → Word} {word : Bool} {rd rs1 rs2 : Reg} {zero : Prop} {v : Word}
    (hz : (if word then lo32 (rdX s rs2) == 0 else rdX s rs2 == 0) = true ↔ zero) (hv : f (rdX s rs1) (rdX s rs2) = v) :
    (zero → s.me.csr.qfcsr.getLsbD 20 = true → divide f word rd rs1 rs2 s = .next (trapped (begun s 4) 4 0x06 (rdX s rs1)))
    ∧ (¬ zero ∨ s.me.csr.qfcsr.getLsbD 20 = false → divide f word rd rs1 rs2 s = .next (after (lateX (begun s 4) rd v) 4)) := by
  rw [← bit_getLsbD, ← hv]
  refine ⟨fun h0 hd => divide_trap h f word rd rs1 rs2 (hz.mpr h0) hd, fun h0 => divide_ok h f word rd rs1 rs2 ?_⟩
  rcases h0 with h0 | hd
  · rw [Bool.eq_false_iff.mpr (mt hz.mp h0), Bool.false_and]
  · rw [hd, Bool.and_false]

/-- Settles O2: each form is the shared division on its own quotient or remainder. -/
theorem divisionResults : Obligations.DivisionResults := by
  unfold Obligations.DivisionResults
  intro s rd rs1 rs2 h a b aw bw dze gives quot quotu rem remu
  have hb : (if false then lo32 b == 0 else b == 0) = true ↔ b = 0 := by simp
  have hbw : (if true then lo32 b == 0 else b == 0) = true ↔ bw = 0 := by simp [lo32, bw]
  refine ⟨?div, ?divu, ?rem, ?remu, ?divw, ?divuw, ?remw, ?remuw⟩
  case div => exact divide_gives h hb (divS_eq a b)
  case divu => exact divide_gives h hb (divU_eq a b)
  case rem => exact divide_gives h hb (remS_eq a b)
  case remu => exact divide_gives h hb (remU_eq a b)
  case divw => exact divide_gives h hbw (congrArg sx32 (divS_eq aw bw))
  case divuw => exact divide_gives h hbw (congrArg sx32 (divU_eq aw bw))
  case remw => exact divide_gives h hbw (congrArg sx32 (remS_eq aw bw))
  case remuw => exact divide_gives h hbw (congrArg sx32 (remU_eq aw bw))

end Sys2Proof.Machine
end
section
/-! The end of an instruction, hardware loops and YIELD, for a calm cell (spec 06 R146 to R150). -/

open Sys2Proof Sys2Proof.Machine

namespace Sys2Proof.Machine

variable {s : State}

/-! ### The end of an instruction (spec 06 R148, R149) -/

/-- The cell whose instruction has completed. -/
def endedCell (c : Cell) (landing : Bool) (npc : Word) : Cell :=
  let e := loopBack c.tlev c.loops npc
  { c.clearInstr.tick with loops := e.1, pc := e.2.1, run := if landing && e.2.2 then .landed else .ready }

/-- The end of an instruction changes its cell alone. -/
theorem jumped_eq (s : State) (npc : Word) :
    jumped s npc = { s.modMe fun c => endedCell c (s.myGang.st == .landing) npc with freeCtr := s.freeCtr + 1 } := rfl

theorem jumped_me {c : Cell} (hc : Tab.find s.cells s.cur = some c) (npc : Word) :
    (jumped s npc).me = endedCell c (s.myGang.st == .landing) npc := modMe_me hc _

/-- Settles O13: `loopBack_spec`, read off the cell that `endedCell` leaves. -/
theorem turnEnd : Obligations.TurnEnd := by
  unfold Obligations.TurnEnd
  intro s c npc hc t done
  have hme : t.me = endedCell c (s.myGang.st == .landing) npc := jumped_me hc npc
  obtain ⟨popped, rest, hloops, hpopped, hrest⟩ := loopBack_spec c.tlev c.loops npc
  refine ⟨⟨popped, rest, hloops, hpopped, ?_⟩, rfl, fun d hd => modMe_other s _ hd⟩
  rcases hrest with ⟨l, tail, hl, hdone, hmore, hback⟩ | ⟨hhead, hback⟩
  · refine .inl ⟨l, tail, hl, hdone, hmore, ?_⟩
    rw [hme, endedCell, hback]
    simp
  · refine .inr ⟨hhead, ?_⟩
    rw [hme, endedCell, hback]
    simp

/-! ### Hardware loops and YIELD (spec 06 R146, R147, R150) -/

theorem begun_loops (h : calm s = true) (len : Nat) : (begun s len).me.loops = s.me.loops := by rw [begun_me h]

theorem loopCheck_short {imm : BitVec 12} (hi : imm.toNat < 2) (w : W32) (u : State) : loopCheck imm w u = some (cILLEGAL, w.setWidth 64) := if_pos hi

theorem loopCheck_full {imm : BitVec 12} (hi : 2 ≤ imm.toNat) (w : W32) {u : State} (hl : u.me.loops.length = 6) :
    loopCheck imm w u = some (cLOOP_DEPTH, 0) := by
  rw [loopCheck, if_neg (by omega), if_pos hl]

theorem loopCheck_room {imm : BitVec 12} (hi : 2 ≤ imm.toNat) (w : W32) {u : State} (hl : u.me.loops.length ≠ 6) : loopCheck imm w u = none := by
  rw [loopCheck, if_neg (by omega), if_neg hl]

/-- A loop instruction traps by its offset, then by the stack, skips the loop for a count of 0, and pushes its entry otherwise. -/
theorem pushLoop_cases (h : calm s = true) (srcs : List Dst) (w : W32) (L : BitVec 12) {count : State → Word} {cnt : Word} (hcnt : count (begun s 4) = cnt) :
    let stop := s.me.pc + BitVec.ofNat 64 (4 * L.toNat)
    let i := issue 4 (loopCheck L w) srcs [] (fun u => pushLoop u (count u) L) s
    (L.toNat < 2 → ∃ w, i = .next (trapped (begun s 4) 4 0x01 w))
    ∧ (2 ≤ L.toNat → s.me.loops.length = 6 → i = .next (trapped (begun s 4) 4 0x16 0))
    ∧ (2 ≤ L.toNat → s.me.loops.length ≠ 6 → cnt = 0 → i = .next (jumped (begun s 4) stop))
    ∧ (2 ≤ L.toNat → s.me.loops.length ≠ 6 → cnt ≠ 0 → i = .next (after ((begun s 4).modMe fun v =>
        { v with loops := { start := s.me.pc + 4, stop, cnt, idx := 0, lev := s.me.tlev } :: v.loops }) 4)) := by
  have hl := begun_loops h 4
  refine ⟨fun hs => ?short, fun hs h6 => ?full, fun hs h6 h0 => ?zero, fun hs h6 h0 => ?push⟩
  case short => exact ⟨_, issue_early (calm_issue h) 4 _ _ _ _ (loopCheck_short hs w _)⟩
  case full => exact issue_early (calm_issue h) 4 _ _ _ _ (loopCheck_full hs w (by rw [hl, h6]))
  case zero =>
    rw [issue_calm h 4 _ _ _ _ (loopCheck_room hs w (by rwa [hl])), holding_nil, hcnt, pushLoop, if_pos h0, begun_pc h]
    rfl
  case push =>
    rw [issue_calm h 4 _ _ _ _ (loopCheck_room hs w (by rwa [hl])), holding_nil, hcnt, pushLoop, if_neg h0, commit_ok, begun_pc h]
    refine congrArg (fun u => Host.Outcome.next (after u 4)) (modMe_congr ?_)
    rw [begun_me h]

theorem lbrkCheck_number {n : BitVec 12} (hn : n = 0 ∨ 6 < n.toNat) (rs1 : Reg) (u : State) :
    lbrkCheck rs1 n u = some (cILLEGAL, (encI 0x0B 2 0 rs1 n).pack.setWidth 64) := if_pos hn

theorem lbrkCheck_level {n : BitVec 12} (h1 : 1 ≤ n.toNat) (h6 : n.toNat ≤ 6) (rs1 : Reg) (u : State) :
    lbrkCheck rs1 n u = if n.toNat > (u.me.loops.filter fun l => l.lev == u.me.tlev).length then some (cLOOP_DEPTH, 0) else none := by
  refine if_neg ?_
  rintro (rfl | h)
  · simp at h1
  · omega

theorem lbrk_cond (u : State) (rs1 : Reg) : (rs1 != 0 && getX u rs1 == 0) = true ↔ rs1 ≠ 0 ∧ getX u rs1 = 0 := by simp

/-- A parcel of custom-0 has a length of 4 bytes. -/
theorem parcelLength_custom0 {w : W32} (hop : w.extractLsb' 0 7 = 0x0B#7) : parcelLength w = 4 := by
  have hm : w.toNat % 128 = 11 := by simpa using congrArg BitVec.toNat hop
  unfold parcelLength
  grind

/-- Only the word of YIELD names an instruction in custom-0 with funct3 011. -/
theorem decode32_yield {w : W32} (hop : w.extractLsb' 0 7 = 0x0B#7) (hf3 : w.extractLsb' 12 3 = 3#3) :
    decode32 w = if w = 0x0000300B then some .yield else none := by
  have hop' : (F32.unpack w).op = 0x0B#7 := hop
  have hf3' : (F32.unpack w).f3 = 3#3 := hf3
  have hcand : cand32 (F32.unpack w) = some .yield := by
    simp [cand32, hop', candCustom0, hf3']
  have hword : (encode32 .yield == some (F32.unpack w)) = true ↔ w = 0x0000300B := by
    rw [beq_iff_eq]
    refine ⟨fun he => ?_, fun hw => by rw [hw]; decide⟩
    rw [← F32.pack_unpack w, ← Option.some.inj he]
    decide
  have hwf : wellFormed .yield = true := by decide
  simp only [decode32, hcand, hwf, Bool.true_and, hword]

theorem decode_yield {w : W32} (hop : w.extractLsb' 0 7 = 0x0B#7) (hf3 : w.extractLsb' 12 3 = 3#3) (hi : W32) :
    (w = 0x0000300B → decode w hi = .instr .yield 4) ∧ (w ≠ 0x0000300B → ∃ why, decode w hi = .illegal why 4 (w.setWidth 64)) := by
  have hd := decode32_yield hop hf3
  have hl := parcelLength_custom0 hop
  refine ⟨fun hw => ?_, fun hw => ⟨.opcode32, ?_⟩⟩
  · rw [if_pos hw] at hd; simp only [decode, hl, hd]
  · rw [if_neg hw] at hd; simp only [decode, hl, hd]

/-- Settles O14: the range checks of the loop instructions and what their bodies do, the one word of YIELD, and the landing at it. -/
theorem hardwareLoopsAndYield : Obligations.HardwareLoopsAndYield := by
  unfold Obligations.HardwareLoopsAndYield
  refine ⟨fun s rs1 cm1 L n h => ?loops, fun w hi hop hf3 => decode_yield hop hf3 hi, fun s h => ?yield⟩
  case loops =>
    intro c stop push
    refine ⟨pushLoop_cases h _ _ L (getX_calm h 4 rs1), pushLoop_cases h [] (encI 0x0B 1 (cm1.extractLsb' 0 5) (cm1.extractLsb' 5 5) L).pack L (count := fun _ => BitVec.ofNat 64 (cm1.toNat + 1)) rfl,
       fun hn => ?number, fun h1 h6 hl => ?depth, fun h1 h6 hl => ?breaks⟩
    case number => exact ⟨_, issue_early (calm_issue h) 4 _ _ _ _ (lbrkCheck_number hn rs1 _)⟩
    case depth =>
      refine issue_early (calm_issue h) 4 _ _ _ _ ((lbrkCheck_level h1 h6 rs1 _).trans (if_pos ?_))
      rw [begun_me h]; exact hl
    case breaks =>
      have hcheck : lbrkCheck rs1 n (begun s 4) = none := by
        refine (lbrkCheck_level h1 h6 rs1 _).trans (if_neg ?_)
        rw [begun_me h]; exact Nat.not_lt.mpr hl
      refine ⟨fun h0 => ?stays, fun h0 e he => ?leaves⟩
      case stays =>
        rw [exec_lbrk, execLbrk, issue_calm h 4 _ _ _ _ hcheck, holding_nil, if_pos ((lbrk_cond _ rs1).mpr (by rwa [getX_calm h]))]
        rfl
      case leaves =>
        rw [exec_lbrk, execLbrk, issue_calm h 4 _ _ _ _ hcheck, holding_nil, if_neg (mt (lbrk_cond _ rs1).mp (by rwa [getX_calm h]))]
        have he : s.me.loops[n.toNat - 1]? = some e := he
        simp only [begun_loops h, he, commit_jump]
  case yield =>
    rw [exec_yield, execYield, issue_calm h 4 _ _ _ _ rfl, holding_nil, begun_gang h]
    refine ⟨fun hst => ?_, fun hst => ?_⟩
    · rw [if_neg (mt beq_iff_eq.mp hst)]; rfl
    · rw [if_pos (beq_iff_eq.mpr hst)]; rfl

end Sys2Proof.Machine
end
section
/-! The CSR instructions, for a calm cell (spec 06 R145, R154 to R156). -/

open Sys2Proof Sys2Proof.Machine

namespace Sys2Proof.Machine

variable {s : State}

/-- What a CSR instruction gives: its register takes the old value of the CSR, read in `u0`, and the CSR its update. -/
def csrDone (s u0 : State) (rd : Reg) (a : BitVec 12) (old : Word) (writes : Bool) (v : Word) : State :=
  if writes then wrCsr (wrX u0 rd old) (csrPut s.myGang.hdr.hoq a.toNat v) else wrX u0 rd old

/-- qtime is implemented, and read-only at every level. -/
theorem time_readonly (tlev : Nat) : csrExists 0xCC3 = true ∧ csrWritable tlev 0xCC3 = false := ⟨rfl, rfl⟩

/-- A CSR instruction that reads qtime. -/
theorem csrOp_time (h : calm s = true) (f3 upd) (rd rs1 : Reg) (srcs operand) :
    csrOp f3 upd false rd rs1 srcs operand 0xCC3 s
      = .next (after (wrX (begun s 4).tick rd (BitVec.ofNat 64 (s.qtime + Config.elapsed s.freeCtr))) 4) := by
  have hme : (begun s 4).tick.me = (begun s 4).me := rfl
  obtain ⟨c, -, hm, -, -, -, -, hhoq, hearly, -⟩ := calm_cell h
  unfold csrOp
  rw [issue_calm h 4 _ _ _ _ rfl]
  show Host.Outcome.next (after (setX (begun s 4).tick rd _) 4) = _
  rw [setX_quiet (by rw [hme, begun_me h, hm]; exact hearly) (by rw [hme, begun_me h, hm]; exact hhoq)]
  rfl

/-- A CSR instruction completes where its CSR is there for it, and traps ILLEGAL otherwise. -/
theorem csrOp_cases (h : calm s = true) (f3) (upd : Word → Word → Word) (writes : Bool) (rd rs1 : Reg) (srcs) {operand : State → Word} (a : BitVec 12)
    {x : Word} (hx : operand (begun s 4) = x) :
    let u0 := if a = 0xCC3 then (begun s 4).tick else begun s 4
    let old := if a = 0xCC3 then BitVec.ofNat 64 (s.qtime + Config.elapsed s.freeCtr) else csrGet s a.toNat
    let i := csrOp f3 upd writes rd rs1 srcs operand a s
    (csrExists a.toNat = true → (writes = true → csrWritable s.me.tlev a.toNat = true) →
      i = .next (after (csrDone s u0 rd a old writes (upd old x)) 4))
    ∧ (csrExists a.toNat = false ∨ writes = true ∧ csrWritable s.me.tlev a.toNat = false → ∃ w, i = .next (trapped (begun s 4) 4 0x01 w)) := by
  intro u0 old i
  refine ⟨fun he hw => ?_, csrOp_trap h f3 upd writes rd rs1 srcs operand a⟩
  by_cases ha : a = 0xCC3
  · have hread : writes = false := by
      cases writes with
      | false => rfl
      | true => rw [ha] at hw; exact absurd (hw rfl) (Bool.eq_false_iff.mp (time_readonly _).2)
    simp only [i, u0, old, if_pos ha, hread]
    rw [ha, csrOp_time h]; rfl
  · have hnat : a.toNat ≠ 0xCC3 := fun hn => ha (BitVec.eq_of_toNat_eq hn)
    simp only [i, u0, old, if_neg ha]
    rw [csrOp_ok h f3 upd writes rd rs1 srcs operand a x hx hnat he hw]; rfl

/-- Settles O12: the three updates, from a register and from an immediate. -/
theorem csrInstructions : Obligations.CsrInstructions := by
  unfold Obligations.CsrInstructions
  intro s rd rs1 u a h u0 old t put ok x k
  let operand (u : State) : Word := getX u rs1
  have hx : operand (begun s 4) = x := getX_calm h 4 rs1
  refine ⟨?rw, ?rs, ?rc, ?rwi, ?rsi, ?rci⟩
  case rw => exact csrOp_cases h 1 updSwap true rd rs1 _ a (operand := operand) hx
  case rs => exact csrOp_cases h 2 updSet (rs1 != 0) rd rs1 _ a (operand := operand) hx
  case rc => exact csrOp_cases h 3 updClear (rs1 != 0) rd rs1 _ a (operand := operand) hx
  case rwi => exact csrOp_cases h 5 updSwap true rd u [] a (operand := fun _ => k) rfl
  case rsi => exact csrOp_cases h 6 updSet (u != 0) rd u [] a (operand := fun _ => k) rfl
  case rci => exact csrOp_cases h 7 updClear (u != 0) rd u [] a (operand := fun _ => k) rfl

end Sys2Proof.Machine
end
section
/-! The F and Zfbfmin instructions, for a calm cell (spec 06 R138, R143, R144). -/

open Sys2Proof Sys2Proof.Machine

namespace Sys2Proof.Machine

variable {s : State}

/-! ### What raises flags, and what then completes or traps (spec 06 R143) -/

theorem fpTrap_eq_fpCause (q : Word) (fl : Fl) : fpTrap q fl = fpCause q fl := rfl

/-- An F instruction, as `exec` runs it, whose body ends with its flags and its write. -/
theorem flagsEnd_of_fpEnd (h : calm s = true) {i : Instr} {early : Early} {srcs dsts : List Dst} {body : State → Res} (hi : exec i s = issue 4 early srcs dsts body s)
    {fl : Fl} {write : State → State} (he : early (begun s 4) = none) (hb : body (begun s 4) = fpEnd (begun s 4) fl write) {t : State}
    (ht : write (flagged s fl) = t) : flagsEnd s i fl t := by
  have hx : exec i s = .next (commit 4 ((fpEnd (begun s 4) fl write).holding dsts)) := by rw [hi, issue_calm h 4 _ _ _ _ he, hb]
  refine ⟨fun hc => ?_, fun cause hc => ?_⟩
  · rw [hx, fpEnd_ok h hc, ht]; rfl
  · rw [hx, fpEnd_trap h hc]; rfl

section
variable (h : calm s = true) {i : Instr} {early : Early} {srcs dsts : List Dst} {body : State → Res} (hi : exec i s = issue 4 early srcs dsts body s)
  (he : early (begun s 4) = none) {fl : Fl}
include h hi he

/-- One that writes an f register. -/
theorem flagsEnd_setF {rd : Reg} {v : W32} (hb : body (begun s 4) = fpEnd (begun s 4) fl fun u => setF u rd v) :
    flagsEnd s i fl (wrF (flagged s fl) rd v) := flagsEnd_of_fpEnd h hi he hb (setF_quiet (flagged_me h fl).1 rd v)

/-- One that writes an x register. -/
theorem flagsEnd_setX {rd : Reg} {v : Word} (hb : body (begun s 4) = fpEnd (begun s 4) fl fun u => setX u rd v) :
    flagsEnd s i fl (wrX (flagged s fl) rd v) := flagsEnd_of_fpEnd h hi he hb (setX_quiet (flagged_me h fl).1 (flagged_me h fl).2 rd v)

/-- One whose result for an f register follows. -/
theorem flagsEnd_deferF {rd : Reg} {v : W32} (hb : body (begun s 4) = fpEnd (begun s 4) fl fun u => defer u (.f rd) v.toNat) :
    flagsEnd s i fl (lateF (flagged s fl) rd v) := flagsEnd_of_fpEnd h hi he hb rfl

end

section
variable (h : calm s = true) {i : Instr} {rm : BitVec 3} {m : Rm} (hr : rmSelect s rm = some m)
include h

theorem fpCmp_flags (loud : Bool) (f : Fv → Fv → Bool) {rd rs1 rs2 : Reg} (hi : exec i s = fpCmp loud f rd rs1 rs2 s) :
    let a := val32 (rdF s rs1)
    let b := val32 (rdF s rs2)
    let fl : Fl := { nv := a.isSnan || b.isSnan || (loud && (a.isNan || b.isNan)) }
    flagsEnd s i fl (wrX (flagged s fl) rd (if !(a.isNan || b.isNan) && f a b then 1 else 0)) :=
  flagsEnd_setX h hi rfl (by simp only [getF_calm h])

theorem fpMinMax_flags (isMax : Bool) {rd rs1 rs2 : Reg} (hi : exec i s = fpMinMax isMax rd rs1 rs2 s) :
    let r := minmaxCode fmt32 isMax (rdF s rs1).toNat (rdF s rs2).toNat
    flagsEnd s i r.2 (wrF (flagged s r.2) rd (BitVec.ofNat 32 r.1)) :=
  flagsEnd_setF h hi rfl (by simp only [getF_calm h])

include hr

theorem fpRR_flags (f7 : BitVec 7) (f : Rm → Fv → Fv → Fv × Fl) {rd rs1 rs2 : Reg} (hi : exec i s = fpRR f7 f rd rs1 rs2 rm s) :
    let o := round32 m (f m (val32 (rdF s rs1)) (val32 (rdF s rs2)))
    flagsEnd s i o.2 (wrF (flagged s o.2) rd o.1) :=
  flagsEnd_setF h hi (rmCheck_ok h hr _) (by simp only [rmOf_calm h hr, getF_calm h])

theorem fpFma_flags (op : BitVec 7) (negP negC : Bool) {rd rs1 rs2 rs3 : Reg} (hi : exec i s = fpFma op negP negC rd rs1 rs2 rs3 rm s) :
    let a := val32 (rdF s rs1)
    let c := val32 (rdF s rs3)
    let o := round32 m (Fv.fma true m (if negP then a.flip else a) (val32 (rdF s rs2)) (if negC then c.flip else c))
    flagsEnd s i o.2 (wrF (flagged s o.2) rd o.1) :=
  flagsEnd_setF h hi (rmCheck_ok h hr _) (by simp only [rmOf_calm h hr, getF_calm h])

theorem fpSlow_flags (f7 : BitVec 7) (srcs : List Reg) (f : State → Fv × Fl) {rd rs1 rs2 : Reg} (hi : exec i s = fpSlow f7 srcs f rd rs1 rs2 rm s)
    {r : Fv × Fl} (hf : f (begun s 4) = r) :
    let o := round32 m r
    flagsEnd s i o.2 (lateF (flagged s o.2) rd o.1) :=
  flagsEnd_deferF h hi (rmCheck_ok h hr _) (by simp only [rmOf_calm h hr, hf])

theorem fpOfInt_flags (code : Reg) (f : Word → Int) {rd rs1 : Reg} (hi : exec i s = fpOfInt code f rd rs1 rm s) :
    let o := round32 m (Fv.ofInt (f (rdX s rs1)) 0, .none)
    flagsEnd s i o.2 (wrF (flagged s o.2) rd o.1) :=
  flagsEnd_setF h hi (rmCheck_ok h hr _) (by simp only [rmOf_calm h hr, getX_calm h])

/-- An integer of 4 or 8 bytes reaches its register sign-extended. -/
theorem fpToInt_flags (code : Reg) (n : Nat) (hn : n = 4 ∨ n = 8) (lo hi : Int) {rd rs1 : Reg} (hx : exec i s = fpToInt code (8 * n) lo hi rd rs1 rm s) :
    let o := toIntegral m lo hi (val32 (rdF s rs1))
    flagsEnd s i o.2 (wrX (flagged s o.2) rd ((BitVec.ofInt (8 * n) o.1).signExtend 64)) := by
  have hv (z : Int) : sextW (8 * n / 8) (wrapInt (8 * n) z) = (BitVec.ofInt (8 * n) z).signExtend 64 := by
    rw [Nat.mul_div_cancel_left n (by omega), sextW_ofNat n (by omega), ofNat_wrap]
  exact flagsEnd_setX h hx (rmCheck_ok h hr _) (by simp only [rmOf_calm h hr, getF_calm h, hv])

end

/-- A rounding field that names no mode traps, with the bits of the instruction. -/
theorem rounding_traps (h : calm s = true) {rm : BitVec 3} (hr : rmSelect s rm = none) {i : Instr} {f : F32} (he : encode32 i = some f)
    {srcs dsts : List Dst} {body : State → Res} (hi : exec i s = issue 4 (rmCheck rm f.pack) srcs dsts body s) :
    ∃ w, encode i = some w ∧ exec i s = .next (trapped (begun s 4) 4 0x01 w) :=
  ⟨_, (encode_of_encode32 he).1, hi.trans (issue_early (calm_issue h) 4 _ _ _ _ (rmCheck_trap h hr _))⟩

/-- Settles O9: each instruction is its shared operation on its own exact result, and its rounding field is checked first. -/
theorem floatingPointResultsAndTraps : Obligations.FloatingPointResultsAndTraps := by
  unfold Obligations.FloatingPointResultsAndTraps
  refine ⟨fun s rd rs1 rs2 rs3 rm m h hr => ?results, fun s rd rs1 rs2 rs3 rm h hr => ?traps⟩
  case results =>
    intro v rounds late fma int ofInt
    have four : 4 = 4 ∨ 4 = 8 := .inl rfl
    have eight : 8 = 4 ∨ 8 = 8 := .inr rfl
    refine ⟨fpRR_flags h hr 0x00 Fv.add rfl, fpRR_flags h hr 0x04 (fun m a b => Fv.add m a b.flip) rfl, fpRR_flags h hr 0x08 (fun _ a b => Fv.mul a b) rfl,
      fpSlow_flags h hr 0x0C [rs1, rs2] (fun s => Fv.div (val32 (getF s rs1)) (val32 (getF s rs2))) rfl ?div,
      fpSlow_flags h hr 0x2C [rs1] (fun s => Fv.sqrt (val32 (getF s rs1))) rfl ?sqrt,
      fpFma_flags h hr 0x43 false false rfl, fpFma_flags h hr 0x47 false true rfl, fpFma_flags h hr 0x4B true false rfl, fpFma_flags h hr 0x4F true true rfl,
      fpToInt_flags h hr 0 4 four _ _ rfl, fpToInt_flags h hr 1 4 four _ _ rfl, fpToInt_flags h hr 2 8 eight _ _ rfl, fpToInt_flags h hr 3 8 eight _ _ rfl,
      fpOfInt_flags h hr 0 (fun v => (lo32 v).toInt) rfl, fpOfInt_flags h hr 1 (fun v => (lo32 v).toNat) rfl, fpOfInt_flags h hr 2 BitVec.toInt rfl,
      fpOfInt_flags h hr 3 (fun v => v.toNat) rfl⟩
    case div => simp only [getF_calm h, v]
    case sqrt => simp only [getF_calm h, v]
  case traps =>
    simp only [List.forall_mem_cons, List.not_mem_nil, false_implies, implies_true, and_true]
    exact ⟨rounding_traps h hr rfl rfl, rounding_traps h hr rfl rfl, rounding_traps h hr rfl rfl, rounding_traps h hr rfl rfl,
      rounding_traps h hr rfl rfl, rounding_traps h hr rfl rfl, rounding_traps h hr rfl rfl, rounding_traps h hr rfl rfl,
      rounding_traps h hr rfl rfl, rounding_traps h hr rfl rfl, rounding_traps h hr rfl rfl, rounding_traps h hr rfl rfl,
      rounding_traps h hr rfl rfl, rounding_traps h hr rfl rfl, rounding_traps h hr rfl rfl, rounding_traps h hr rfl rfl,
      rounding_traps h hr rfl rfl, rounding_traps h hr rfl rfl, rounding_traps h hr rfl rfl⟩

/-! ### Moves, comparisons and extremes (spec 06 R138, R144) -/

theorem boxH_low (v : Word) : BitVec.ofNat 32 (boxH v.toNat) = 0xFFFF#16 ++ v.setWidth 16 := by
  rw [boxH_eq]; rfl

theorem sextW_low16 (v : W32) : sextW 2 (v.toNat % 65536) = (v.setWidth 16).signExtend 64 := by
  rw [sextW_ofNat 2 (by omega)]
  congr 1
  apply BitVec.eq_of_toNat_eq
  simp

theorem execFmvHX_calm (h : calm s = true) (rd rs1 : Reg) :
    execFmvHX rd rs1 s = .next (after (wrF (begun s 4) rd (0xFFFF#16 ++ (rdX s rs1).setWidth 16)) 4) := by
  rw [execFmvHX, fpOfX_calm h, boxH_low]

theorem execFmvXH_calm (h : calm s = true) (rd rs1 : Reg) :
    execFmvXH rd rs1 s = .next (after (wrX (begun s 4) rd (((rdF s rs1).setWidth 16).signExtend 64)) 4) := by
  rw [execFmvXH, fpToX_calm h, sextW_low16]

/-- Settles O10: the moves write bits, and the comparisons and extremes end with their flags. -/
theorem floatingPointMoves : Obligations.FloatingPointMoves := by
  unfold Obligations.FloatingPointMoves
  intro s rd rs1 rs2 h
  exact ⟨fpSgn_calm h (fun _ b => b) rd rs1 rs2, fpSgn_calm h (fun _ b => ~~~b) rd rs1 rs2, fpSgn_calm h (fun a b => a ^^^ b) rd rs1 rs2,
    fpOfX_calm h lo32 rd rs1, execFmvHX_calm h rd rs1, fpToX_calm h sx32 rd rs1, execFmvXH_calm h rd rs1,
    fpToX_calm h (fun v => BitVec.ofNat 64 (fclass fmt32 v.toNat)) rd rs1,
    fpCmp_flags h false Fv.eqv rfl, fpCmp_flags h true Fv.lt rfl, fpCmp_flags h true (fun a b => !Fv.lt b a) rfl,
    fpMinMax_flags h false rfl, fpMinMax_flags h true rfl⟩

end Sys2Proof.Machine
end
section
/-! Loads and stores, for a calm cell whose access reaches its bytes (spec 06 R139; 13 R288, R289, R293), and what reads, acquires and writes leave of a
cell. -/

open Sys2Proof Sys2Proof.Machine

namespace Sys2Proof.Machine

variable {s t u : State}

/-! ### What an access leaves of the cells -/

/-- The same cells are resident in both states, and agree in what `g` gives. -/
structure Keeps {α : Type} (g : Cell → α) (s t : State) : Prop where
  find : ∀ d, (Tab.find t.cells d).map g = (Tab.find s.cells d).map g

/-- `g` does not look at what a cell has seen of other agents' writes, nor at how it runs or at its reservation. -/
def Unseeing {α : Type} (g : Cell → α) : Prop :=
  ∀ (c : Cell) floor saw known sight looks run resv, g { c with floor, saw, known, sight, looks, run, resv } = g c

section
variable {α : Type} {g : Cell → α}

theorem Keeps.refl (s : State) : Keeps g s s := ⟨fun _ => rfl⟩

theorem Keeps.trans (h1 : Keeps g s t) (h2 : Keeps g t u) : Keeps g s u := ⟨fun d => (h2.find d).trans (h1.find d)⟩

theorem Keeps.cell (h : Keeps g s t) (d : Nat) : g (t.cell d) = g (s.cell d) := by
  have hc (v : State) : g (v.cell d) = ((Tab.find v.cells d).map g).getD (g {}) := by
    rw [State.cell, Tab.getD]; cases Tab.find v.cells d <;> rfl
  rw [hc, hc, h.find d]

theorem Keeps.me (h : Keeps g s t) (hcur : t.cur = s.cur) : g t.me = g s.me := by
  rw [State.me, hcur]; exact h.cell s.cur

theorem Keeps.isSome (h : Keeps g s t) (d : Nat) : (Tab.find t.cells d).isSome = (Tab.find s.cells d).isSome := by
  simpa using congrArg Option.isSome (h.find d)

theorem keeps_modCell {f : Cell → Cell} (hf : ∀ c, g (f c) = g c) (s : State) (k : Nat) : Keeps g s (s.modCell k f) := by
  refine ⟨fun d => ?_⟩
  show (Tab.find (Tab.adjust s.cells k f) d).map g = _
  by_cases hd : d = k
  · subst hd
    rw [Tab.find_adjust_self, Option.map_map]
    exact congrArg (Option.map · _) (funext hf)
  · rw [Tab.find_adjust_ne _ _ hd]

theorem writeSeen_unseen (hg : Unseeing g) (who : Agent) (key n d : Nat) (c : Cell) : g (writeSeen who key n d c) = g c := by
  have hw : g (wakeSignal key n c) = g c := by
    unfold wakeSignal
    split
    · split
      · exact hg c c.floor c.saw c.known c.sight c.looks .ready c.resv
      · rfl
    · rfl
  unfold writeSeen
  dsimp only
  split
  · split
    · exact (hg (wakeSignal key n c) _ _ _ _ _ (wakeSignal key n c).run none).trans hw
    · exact hw
  · exact hw

theorem keeps_write (hg : Unseeing g) (s : State) (who : Agent) (hive : Option Nat) (key : Nat) (d : List Byte) : Keeps g s (s.write who hive key d) := by
  refine ⟨fun c => ?_⟩
  rw [write_find, Option.map_map]
  exact congrArg (Option.map · _) (funext (writeSeen_unseen hg who key d.length c))

theorem keeps_noteRead (hg : Unseeing g) (s : State) (c n key size : Nat) : Keeps g s (s.noteRead c n key size) := by
  unfold State.noteRead
  dsimp only
  split
  · exact Keeps.refl s
  · exact keeps_modCell (fun v => hg v v.floor _ v.known _ v.looks v.run v.resv) s c

theorem keeps_readBy (hg : Unseeing g) (s : State) (c key n : Nat) : Keeps g s (s.readBy c key n).1 := by
  unfold State.readBy
  dsimp only
  split
  · exact keeps_noteRead hg ..
  · exact (keeps_noteRead hg ..).trans (keeps_modCell (fun v => hg v v.floor v.saw v.known v.sight _ v.run v.resv) _ c)

theorem learn_unseen (hg : Unseeing g) (c : Nat) (v : Cell) (r : Rel) : g (v.learn c r) = g v := by
  unfold Cell.learn Cell.orderAll
  dsimp only
  exact hg v _ _ _ _ v.looks v.run v.resv

theorem keeps_orderAfter (hg : Unseeing g) (s : State) (c : Nat) (sc : Scope) (l : List Known) : Keeps g s (s.orderAfter c sc l) :=
  keeps_modCell (fun v => hg v v.floor v.saw _ v.sight v.looks v.run v.resv) s c

theorem keeps_acquire (hg : Unseeing g) (s : State) (c key n : Nat) (sc : Scope) : Keeps g s (s.acquire c key n sc) := by
  have hl (l : List Rel) (v : Cell) : g (l.foldl (fun v r => v.learn c r) v) = g v := by
    induction l generalizing v with
    | nil => rfl
    | cons r l ih => exact (ih _).trans (learn_unseen hg c v r)
  unfold State.acquire
  exact ((keeps_noteRead hg s c s.stamp key n).trans (keeps_modCell (hl _) _ c)).trans (keeps_orderAfter hg _ c sc _)

end

@[simp] theorem noteRead_cur (s : State) (c n key size : Nat) : (s.noteRead c n key size).cur = s.cur := by
  unfold State.noteRead; dsimp only; split <;> rfl

@[simp] theorem readBy_cur (s : State) (c key n : Nat) : (s.readBy c key n).1.cur = s.cur := by
  unfold State.readBy; dsimp only; split <;> simp

@[simp] theorem acquire_cur (s : State) (c key n : Nat) (sc : Scope) : (s.acquire c key n sc).cur = s.cur := by
  unfold State.acquire State.orderAfter; simp

@[simp] theorem write_cur (s : State) (who : Agent) (hive : Option Nat) (key : Nat) (d : List Byte) : (s.write who hive key d).cur = s.cur := by
  unfold State.write; split <;> rfl

theorem unseeing_x : Unseeing Cell.x := fun _ _ _ _ _ _ _ _ => rfl
theorem unseeing_f : Unseeing Cell.f := fun _ _ _ _ _ _ _ _ => rfl
theorem unseeing_csr : Unseeing Cell.csr := fun _ _ _ _ _ _ _ _ => rfl
theorem unseeing_pend : Unseeing Cell.pend := fun _ _ _ _ _ _ _ _ => rfl

/-! ### Reads -/

theorem readAt_length (s : State) (n key size : Nat) : (s.readAt n key size).length = size := by
  have hundo (l : List OldBytes) (d : List Byte) : (l.foldl (OldBytes.undo key) d).length = d.length := by
    induction l generalizing d with
    | nil => rfl
    | cons o l ih => exact (ih _).trans (by simp [OldBytes.undo])
  rw [State.readAt, hundo]
  simp [State.read, range]

theorem readBy_length (s : State) (c key n : Nat) : (s.readBy c key n).2.length = n := by
  unfold State.readBy State.pickView
  dsimp only
  split
  · simp [State.read, range]
  · exact readAt_length ..

theorem readBy_lt (s : State) (c key n : Nat) : leNat (s.readBy c key n).2 < 2 ^ (8 * n) := by
  simpa only [readBy_length] using leNat_lt (s.readBy c key n).2

/-- A load of bytes at a home reads them as a plain read of the cell (spec 13 R289). -/
theorem loadVal_key {s1 : State} {ea : Word} {n k : Nat} (hreply : s.me.reply = none) (hr : resolve s .load ea n rRead n = .ok (s1, .key k))
    (hq : quiet s1 = true) : loadVal s ea n = .ok ((s1.readBy s1.cur k n).1, leNat (s1.readBy s1.cur k n).2) := by
  have hread : readSeen s1 k n = ((s1.readBy s1.cur k n).1, leNat (s1.readBy s1.cur k n).2) := by
    rw [readSeen, drainOwn_none (quiet_none hq)]
  rw [← hread]
  unfold loadVal
  rw [hreply]
  show (resolve s .load ea n rRead n >>= _) = _
  rw [hr]
  rfl

section
variable {s1 : State} {rs1 : Reg} {imm : BitVec 12} {k n : Nat} (h : calm s = true) (hq : quiet s = true)
  (hr : resolve (begun s 4) .load (rdX s rs1 + imm.signExtend 64) n rRead n = .ok (s1, .key k))
include h hq hr

theorem loadInto_key (d : Dst) (ext : Nat → Nat) :
    loadInto d n ext rs1 imm s = .next (after (defer (s1.readBy s1.cur k n).1 d (ext (leNat (s1.readBy s1.cur k n).2))) 4) := by
  obtain ⟨-, -, -, -, -, -, -, -, -, hquiet, -⟩ := passed_me h hr
  have hreply : (begun s 4).me.reply = none := by
    obtain ⟨c, -, hm, -, -, -, -, -, -, -, -, hre, -⟩ := calm_cell h
    rw [begun_me h, hm]; exact hre
  unfold loadInto
  rw [issue_calm h 4 _ _ _ _ rfl]
  simp only [eaOf, getX_calm h, loadVal_key hreply hr (hquiet hq)]
  rfl

/-- A load into an x register. -/
theorem loadInto_x (rd : Reg) (ext : Nat → Nat) (val : Nat → Word) (hv : ∀ v, v < 2 ^ (8 * n) → ext v = (val v).toNat) :
    loadInto (.x rd) n ext rs1 imm s = .next (after (lateX (s1.readBy s1.cur k n).1 rd (val (leNat (s1.readBy s1.cur k n).2))) 4)
    ∧ (settled s1 k n = true → loadInto (.x rd) n ext rs1 imm s = .next (after (lateX (s1.noteRead s1.cur s1.stamp k n) rd (val (s1.readNat k n))) 4)) := by
  obtain ⟨-, -, -, -, -, -, hhoq, -⟩ := passed_me h hr
  have hhoq' : (s1.readBy s1.cur k n).1.me.csr.hoqen = 0 := by rw [(keeps_readBy unseeing_csr ..).me (readBy_cur ..), hhoq]
  have hload := loadInto_key h hq hr (.x rd) ext
  rw [hv _ (readBy_lt ..), defer_x hhoq'] at hload
  refine ⟨hload, fun hs => ?_⟩
  rw [hload, readBy_settled hs]; rfl

/-- A load into an f register. -/
theorem loadInto_f (rd : Reg) (ext : Nat → Nat) (val : Nat → W32) (hv : ∀ v, v < 2 ^ (8 * n) → ext v = (val v).toNat) :
    loadInto (.f rd) n ext rs1 imm s = .next (after (lateF (s1.readBy s1.cur k n).1 rd (val (leNat (s1.readBy s1.cur k n).2))) 4)
    ∧ (settled s1 k n = true → loadInto (.f rd) n ext rs1 imm s = .next (after (lateF (s1.noteRead s1.cur s1.stamp k n) rd (val (s1.readNat k n))) 4)) := by
  have hload := loadInto_key h hq hr (.f rd) ext
  rw [hv _ (readBy_lt ..)] at hload
  refine ⟨hload, fun hs => ?_⟩
  rw [hload, readBy_settled hs]; rfl

end

/-! ### The values loaded -/

theorem id_eq_ofNat {w n : Nat} (hw : 8 * n ≤ w) (v : Nat) (hv : v < 2 ^ (8 * n)) : id v = (BitVec.ofNat w v).toNat := by
  have hle : 2 ^ (8 * n) ≤ 2 ^ w := Nat.pow_le_pow_right (by omega) hw
  rw [BitVec.toNat_ofNat, Nat.mod_eq_of_lt (by omega)]; rfl

theorem sextW_byte (v : Nat) : sextW 1 v = (BitVec.ofNat 8 v).signExtend 64 := by
  apply BitVec.eq_of_toInt_eq
  rw [BitVec.toInt_signExtend, sextW, BitVec.toInt_ofInt]
  simp only [signedOf, BitVec.toInt_eq_toNat_cond, BitVec.toNat_ofNat, Int.bmod_def]
  norm_num
  split <;> split <;> omega

theorem boxH_toNat (v : Nat) : boxH v = (0xFFFF#16 ++ BitVec.ofNat 16 v).toNat := by
  rw [← boxH_eq, BitVec.toNat_ofNat, Nat.mod_eq_of_lt]
  unfold boxH; omega

/-! ### Stores -/

theorem storeVal_passed {s1 : State} {ea : Word} {n : Nat} {tgt : Target} (hr : resolve s .store ea n rWrite n = .ok (s1, tgt)) (v : Nat) :
    storeVal s ea n v = .ok (storeTo s1 tgt ea (leBytes v n)) := by
  show (resolve s .store ea n rWrite n >>= _) = _
  rw [hr]
  rfl

section
variable {s1 : State} {rs1 : Reg} {imm : BitVec 12} {n : Nat} {tgt : Target} (h : calm s = true)
  (hr : resolve (begun s 4) .store (rdX s rs1 + imm.signExtend 64) n rWrite n = .ok (s1, tgt)) (rs2 : Reg)
include h hr

theorem storeX_passed :
    storeX n rs1 rs2 imm s = .next (after (storeTo s1 tgt (rdX s rs1 + imm.signExtend 64) (leBytes (rdX s rs2).toNat n)) 4) := by
  unfold storeX
  rw [issue_calm h 4 _ _ _ _ rfl]
  simp only [eaOf, getX_calm h, storeVal_passed hr]
  rfl

theorem storeF_passed :
    storeF n rs1 rs2 imm s = .next (after (storeTo s1 tgt (rdX s rs1 + imm.signExtend 64) (leBytes (rdF s rs2).toNat n)) 4) := by
  unfold storeF
  rw [issue_calm h 4 _ _ _ _ rfl]
  simp only [eaOf, getX_calm h, getF_calm h, storeVal_passed hr]
  rfl

end

/-- Settles O5: each load forms its value from what the read gives, and each store's bytes go to its target. -/
theorem scalarLoadsAndStores : Obligations.ScalarLoadsAndStores := by
  unfold Obligations.ScalarLoadsAndStores
  refine ⟨fun s s1 rd rs1 imm k h hq => ?loads, fun s s1 rs1 rs2 imm t h => ?stores⟩
  case loads =>
    intro ea reaches got noted x f
    refine ⟨?lb, ?lbu, ?lh, ?lhu, ?lw, ?lwu, ?ld, ?flw, ?flh⟩
    case lb => exact fun hr => loadInto_x h hq hr rd (extS 1) (fun v => (BitVec.ofNat 8 v).signExtend 64) fun v _ => congrArg BitVec.toNat (sextW_byte v)
    case lbu => exact fun hr => loadInto_x h hq hr rd id (BitVec.ofNat 64) (id_eq_ofNat (by omega))
    case lh =>
      exact fun hr => loadInto_x h hq hr rd (extS 2) (fun v => (BitVec.ofNat 16 v).signExtend 64) fun v _ => congrArg BitVec.toNat (sextW_ofNat 2 (by omega) v)
    case lhu => exact fun hr => loadInto_x h hq hr rd id (BitVec.ofNat 64) (id_eq_ofNat (by omega))
    case lw =>
      exact fun hr => loadInto_x h hq hr rd (extS 4) (fun v => (BitVec.ofNat 32 v).signExtend 64) fun v _ => congrArg BitVec.toNat (sextW_ofNat 4 (by omega) v)
    case lwu => exact fun hr => loadInto_x h hq hr rd id (BitVec.ofNat 64) (id_eq_ofNat (by omega))
    case ld => exact fun hr => loadInto_x h hq hr rd id (BitVec.ofNat 64) (id_eq_ofNat (by omega))
    case flw => exact fun hr => loadInto_f h hq hr rd id (BitVec.ofNat 32) (id_eq_ofNat (by omega))
    case flh => exact fun hr => loadInto_f h hq hr rd boxH (fun v => 0xFFFF#16 ++ BitVec.ofNat 16 v) fun v _ => boxH_toNat v
  case stores =>
    exact ⟨fun hr => storeX_passed h hr rs2, fun hr => storeX_passed h hr rs2, fun hr => storeX_passed h hr rs2, fun hr => storeX_passed h hr rs2,
      fun hr => storeF_passed h hr rs2, fun hr => storeF_passed h hr rs2⟩

/-! ### 16-bit values and BF16 (spec 06 R144) -/

/-- Settles O11: FMV.H.X and FLH box, and the conversions round exact values. -/
theorem bf16Conversions : Obligations.Bf16Conversions := by
  unfold Obligations.Bf16Conversions
  intro s rd rs1 h
  refine ⟨execFmvHX_calm h rd rs1, fun imm s1 k hq hr hs => ?flh, fun rm m hm => ⟨?wide, ?narrow⟩⟩
  case flh => exact (loadInto_f h hq hr rd boxH (fun v => 0xFFFF#16 ++ BitVec.ofNat 16 v) fun v _ => boxH_toNat v).2 hs
  case wide => exact flagsEnd_setF h rfl (rmCheck_ok h hm _) (by simp only [rmOf_calm h hm, getF_calm h, unboxBf_eq])
  case narrow => exact flagsEnd_setF h rfl (rmCheck_ok h hm _) (by simp only [rmOf_calm h hm, getF_calm h, boxH_eq])

end Sys2Proof.Machine
end
section
/-! Fences, LR and SC, and the AMOs (spec 06 R141, R142; 13 R288, R294 to R296, R301). -/

open Sys2Proof Sys2Proof.Machine

namespace Sys2Proof.Machine

variable {s t : State}

/-! ### Fences (spec 05 R112, 06 R141) -/

theorem busy_begun (h : calm s = true) : busy (begun s 4) = busy s := by
  unfold busy; rw [begun_cur, begun_me h]; rfl

theorem busyReads_begun (h : calm s = true) : busyReads (begun s 4) = busyReads s := by
  unfold busyReads; rw [begun_cur, begun_me h]; rfl

/-- A fence of these classes waits for an access of the cell. -/
def fenceHeld (s : State) (r w : Bool) : Bool := (w && busy s) || (r && busyReads s)

theorem fenceWait_begun (h : calm s = true) (r w : Bool) :
    fenceWait (begun s 4) r w = if fenceHeld s r w then .error (.park (begun s 4) .performed) else .ok () := by
  unfold fenceWait fenceHeld; rw [busy_begun h, busyReads_begun h]

/-- An instruction that waits as a fence does, and then has an effect. -/
theorem issue_fence (h : calm s = true) (r w : Bool) (effect : State → State) :
    let i := issue 4 noEarlyCheck [] [] (fun u => Op.res do fenceWait u r w; .ok (.ok (effect u))) s
    (fenceHeld s r w = true → i = .next (waiting (begun s 4) .performed))
    ∧ (fenceHeld s r w = false → i = .next (after (effect (begun s 4)) 4)) := by
  intro i
  have hi : i = .next (commit 4 (Op.res do fenceWait (begun s 4) r w; .ok (.ok (effect (begun s 4))))) := by
    simp only [i, issue_calm h 4 noEarlyCheck [] [] _ rfl, holding_nil]
  refine ⟨fun hw => ?_, fun hw => ?_⟩
  · rw [hi, fenceWait_begun h, hw]; rfl
  · rw [hi, fenceWait_begun h, hw]; rfl

/-- A fence of no class waits for nothing and orders nothing. -/
theorem fenceOf_none (h : calm s = true) : fenceOf false false false false s = .next (after (begun s 4) 4) :=
  (issue_fence h false false (fenceOrders false false false false .pkg)).2 rfl

/-! ### LR and SC (spec 06 R142) -/

theorem holdGranule_eq (s : State) (key dva : Nat) :
    holdGranule s s.cur key dva = s.modMe fun c => { c with resv := some (key / 64 * 64), resvDva := dva / 64 * 64 } := rfl

theorem keeps_lrRead {α : Type} {g : Cell → α} (hg : Unseeing g) (s : State) (c : Nat) (aq : Bool) (key n : Nat) :
    Keeps g s (lrRead s c aq key n) := by
  unfold lrRead
  split
  · exact keeps_acquire hg ..
  · exact keeps_noteRead hg ..

@[simp] theorem lrRead_cur (s : State) (c : Nat) (aq : Bool) (key n : Nat) : (lrRead s c aq key n).cur = s.cur := by
  unfold lrRead; split <;> simp

@[simp] theorem lrRead_mem (s : State) (c : Nat) (aq : Bool) (key n : Nat) : (lrRead s c aq key n).mem = s.mem := by
  unfold lrRead; split <;> simp

/-- What is read depends on the memory alone. -/
theorem readNat_congr (h : t.mem = s.mem) (key n : Nat) : t.readNat key n = s.readNat key n := by
  unfold State.readNat State.read State.byte; rw [h]

/-- A result of 0 or 1, or any word, that follows for a cell with no hand-off queue. -/
theorem defer_word {v : Word} {n : Nat} (hv : v.toNat = n) (hq : t.me.csr.hoqen = 0) (rd : Reg) : defer t (.x rd) n = lateX t rd v := by
  rw [← hv, defer_x hq]

/-- The cell's reservation is gone. -/
def unreserved (s : State) : State := s.modMe fun c => { c with resv := none }

/-- What an SC that has its reservation leaves, before the reservation goes. -/
def scWritten (s : State) (aq rl : Bool) (k n : Nat) (d : List Byte) : State :=
  let s1 := s.write (.cell s.cur) (some (hiveOfCell s.cur)) k d
  scAcquire (if rl then s1.released (.cell s.cur) k n .pkg else s1) s.cur aq

theorem scAcquire_frame {α : Type} {g : Cell → α} (hg : Unseeing g) (s : State) (c : Nat) (aq : Bool) :
    Keeps g s (scAcquire s c aq) ∧ (scAcquire s c aq).cur = s.cur ∧ (scAcquire s c aq).mem = s.mem := by
  unfold scAcquire
  split
  · exact ⟨keeps_orderAfter hg .., rfl, rfl⟩
  · exact ⟨Keeps.refl s, rfl, rfl⟩

/-- An SC that writes changes its bytes, and of the cells what an access leaves. -/
theorem scWritten_frame {α : Type} {g : Cell → α} (hg : Unseeing g) (s : State) (aq rl : Bool) (k n : Nat) (d : List Byte) :
    Keeps g s (scWritten s aq rl k n d) ∧ (scWritten s aq rl k n d).cur = s.cur ∧ (scWritten s aq rl k n d).mem = (s.poke k d).mem := by
  have hw := keeps_write hg s (.cell s.cur) (some (hiveOfCell s.cur)) k d
  obtain ⟨hk, hcur, hmem⟩ := scAcquire_frame hg (if rl then (s.write (.cell s.cur) (some (hiveOfCell s.cur)) k d).released (.cell s.cur) k n .pkg
    else s.write (.cell s.cur) (some (hiveOfCell s.cur)) k d) s.cur aq
  refine ⟨Keeps.trans ?_ hk, hcur.trans ?_, hmem.trans ?_⟩
  · split
    · exact ⟨hw.find⟩
    · exact hw
  · split <;> exact write_cur ..
  · split <;> exact write_mem ..

/-- A change of a resident cell that leaves its CSRs leaves it without hand-off queues. -/
theorem hoqen_modMe {f : Cell → Cell} (hf : ∀ c, (f c).csr = c.csr) (h : s.me.csr.hoqen = 0) : (s.modMe f).me.csr.hoqen = 0 := by
  rw [modMe_keeps Cell.csr hf, h]

/-- A release with nothing on its way goes on. -/
theorem release_bind {α : Type} {rl : Bool} (hq : rl = true → quiet t = true) (sc : Scope) (f : Op α) : (if rl then (do release t sc; f) else f) = f := by
  cases rl with
  | false => rfl
  | true => rw [release_quiet (hq rfl)]; rfl

theorem op_bind_ok {α β : Type} (x : α) (f : α → Op β) : (Except.ok x >>= f) = f x := rfl

theorem begun_reply (h : calm s = true) (len : Nat) : (begun s len).me.reply = none := by
  obtain ⟨c, -, hm, -, -, -, -, -, -, -, -, hre, -⟩ := calm_cell h
  rw [begun_me h, hm]; exact hre

section
variable {s1 : State} {rd rs1 rs2 : Reg} {aq rl : Bool} {k n : Nat} (h : calm s = true) (hq : quiet s = true)
include h hq

/-- LR where its address reaches bytes at a home. -/
theorem loadReserved_key (hn : n = 4 ∨ n = 8) (hr : resolve (begun s 4) .load (rdX s rs1) n rRead n = .ok (s1, .key k)) :
    loadReserved n rd rs1 aq rl s = .next (after (lateX ((lrRead s1 s1.cur aq k n).modMe fun c =>
      { c with resv := some (k / 64 * 64), resvDva := eaDva s1.myGang (rdX s rs1) / 64 * 64 }) rd ((BitVec.ofNat (8 * n) (s1.readNat k n)).signExtend 64)) 4) := by
  obtain ⟨-, -, -, -, -, -, hhoq, -, -, hquiet, -⟩ := passed_me h hr
  have hq1 := hquiet hq
  have hheld : ((lrRead s1 s1.cur aq k n).modMe fun c => { c with resv := some (k / 64 * 64), resvDva := eaDva s1.myGang (rdX s rs1) / 64 * 64 }).me.csr.hoqen = 0 := by
    rw [modMe_keeps Cell.csr (by intro; rfl), (keeps_lrRead unseeing_csr ..).me (lrRead_cur ..), hhoq]
  unfold loadReserved
  rw [issue_calm h 4 _ _ _ _ rfl]
  simp only [getX_calm h, begun_reply h, hr, op_bind_ok, release_bind fun _ => hq1, drainOwn_none (quiet_none hq1)]
  rw [readNat_congr (lrRead_mem ..), sextW_ofNat n (by omega), ← defer_x hheld, holdGranule_eq]
  rfl

/-- SC where its address reaches bytes at a home, with its reservation and without. -/
theorem storeConditional_key (hr : resolve (begun s 4) .atomic (rdX s rs1) n rAtomic n = .ok (s1, .key k)) :
    (s.me.resv = some (k / 64 * 64) →
      storeConditional n rd rs1 rs2 aq rl s = .next (after (lateX (unreserved (scWritten s1 aq rl k n (leBytes (rdX s rs2).toNat n))) rd 0) 4))
    ∧ (s.me.resv ≠ some (k / 64 * 64) → storeConditional n rd rs1 rs2 aq rl s = .next (after (lateX (unreserved s1) rd 1) 4)) := by
  obtain ⟨hcur, -, -, hx, -, hearly, hhoq, -, -, hquiet, hresv⟩ := passed_me h hr
  have hq1 := hquiet hq
  have hcond : (s1.me.resv = some (granule k)) = (s.me.resv = some (k / 64 * 64)) := by rw [hresv]; rfl
  obtain ⟨hkeep, hcur', -⟩ := scWritten_frame unseeing_csr s1 aq rl k n (leBytes (rdX s rs2).toNat n)
  have hundone : (unreserved s1).me.csr.hoqen = 0 := hoqen_modMe (by intro; rfl) hhoq
  have hdone : (unreserved (scWritten s1 aq rl k n (leBytes (rdX s rs2).toNat n))).me.csr.hoqen = 0 :=
    hoqen_modMe (by intro; rfl) (by rw [hkeep.me hcur', hhoq])
  unfold storeConditional
  rw [issue_calm h 4 _ _ _ _ rfl]
  simp only [getX_calm h, begun_reply h, hr, op_bind_ok, release_bind fun _ => hq1, drainOwn_none (quiet_none hq1), hcond, getX_quiet hearly hhoq hx]
  refine ⟨fun hres => ?_, fun hres => ?_⟩
  · rw [if_pos hres, ← defer_word (v := 0) rfl hdone]; rfl
  · rw [if_neg hres, ← defer_word (v := 1) rfl hundone]; rfl

end

/-- Settles O7: the waits of `issue_fence`, LR as it reads, and SC by its reservation. -/
theorem fencesAndReservations : Obligations.FencesAndReservations := by
  unfold Obligations.FencesAndReservations
  refine ⟨fun s fm pred succ rs1 rd imm h => ?fences, fun s s1 rd rs1 rs2 aq rl k h hq => ?reservations⟩
  case fences =>
    intro u loads stores waits ordered fence
    refine ⟨fenceOf_none h, fun h0 => ?none, fun hp hs => ?some, ?tso, ?instructions⟩
    case none => exact (if_pos h0).trans (fenceOf_none h)
    case some =>
      have hx : exec (.fence fm pred succ rs1 rd) s = fenceOf (setReads pred) (setWrites pred) (setReads succ) (setWrites succ) s :=
        if_neg (not_or.mpr ⟨hp, hs⟩)
      simp only [fence, hx]
      exact issue_fence h (loads pred) (stores pred) (fenceOrders (loads pred) (stores pred) (loads succ) (stores succ) .pkg)
    case tso => exact issue_fence h true true (fenceOrders true true true true .pkg)
    case instructions => exact issue_fence h true true fun u => u.modCore (coreOf u.cur) fun k => { k with icache := [] }
  case reservations =>
    intro ea held lr sc
    have hsc (i : Instr) (n : Nat) (hi : exec i s = storeConditional n rd rs1 rs2 aq rl s) : sc i n := by
      intro hr
      obtain ⟨hcur, ⟨c, hc⟩, -, hx, -⟩ := passed_me h hr
      obtain ⟨hkeep, hcur', hmem⟩ := scWritten_frame unseeing_x s1 aq rl k n (leBytes (rdX s rs2).toNat n)
      obtain ⟨hwith, hwithout⟩ := storeConditional_key h hq (rd := rd) (rs2 := rs2) (aq := aq) (rl := rl) hr
      refine ⟨fun hres => ⟨_, hi.trans (hwith hres), hmem, ?gone, ?kept⟩, fun hres => hi.trans (hwithout hres)⟩
      case gone =>
        have hsome := hkeep.isSome s1.cur
        rw [hc, ← hcur'] at hsome
        obtain ⟨c', hc'⟩ := Option.isSome_iff_exists.mp hsome
        exact congrArg Cell.resv (modMe_me hc' _)
      case kept => exact (modMe_keeps Cell.x (by intro; rfl) _).trans ((hkeep.me hcur').trans hx)
    exact ⟨loadReserved_key h hq (.inl rfl), loadReserved_key h hq (.inr rfl), hsc _ 4 rfl, hsc _ 8 rfl⟩

/-! ### AMOs (spec 06 R142) -/

theorem signedOf_toNat {w : Nat} (a : BitVec w) : signedOf w a.toNat = a.toInt := by
  rw [signedOf, BitVec.toInt_eq_toNat_cond, Nat.mod_eq_of_lt a.isLt]

/-- The operation of an AMO on two words (spec 06 R138, R142). -/
def amoWord (op : AmoOp) {w : Nat} (a b : BitVec w) : BitVec w :=
  match op with
  | .add => a + b
  | .and => a &&& b
  | .or => a ||| b
  | .xor => a ^^^ b
  | .min => if b.slt a then b else a
  | .max => if a.slt b then b else a
  | .minu => if b.ult a then b else a
  | .maxu => if a.ult b then b else a
  | .swap | .cas => b

/-- An AMO writes the word of its operation. -/
theorem amoApply_word {op : AmoOp} (hop : op ≠ .cas) (n : Nat) (a b : BitVec (8 * n)) (cmp : Nat) :
    amoApply op n a.toNat b.toNat cmp = ((amoWord op a b).toNat, true) := by
  cases op with
  | add => simp [amoApply, amoWord, BitVec.toNat_add]
  | and => simp [amoApply, amoWord]
  | or => simp [amoApply, amoWord]
  | xor => simp [amoApply, amoWord]
  | min => simp only [amoApply, amoWord, signedOf_toNat, BitVec.slt, decide_eq_true_eq]; split <;> rfl
  | max => simp only [amoApply, amoWord, signedOf_toNat, BitVec.slt, decide_eq_true_eq]; split <;> rfl
  | minu => simp only [amoApply, amoWord, BitVec.ult, decide_eq_true_eq]; split <;> simp <;> omega
  | maxu => simp only [amoApply, amoWord, BitVec.ult, decide_eq_true_eq]; split <;> simp <;> omega
  | swap => rfl
  | cas => exact absurd rfl hop

theorem amoAt_frame {α : Type} {g : Cell → α} (hg : Unseeing g) (s : State) (who : Agent) (hive : Option Nat) (k : Nat) (op : AmoOp) (n : Nat)
    (src cmp : Word) : Keeps g s (amoAt s who hive k op n src cmp).1 ∧ (amoAt s who hive k op n src cmp).1.cur = s.cur := by
  unfold amoAt
  dsimp only
  split
  · exact ⟨⟨(keeps_write hg s who hive k _).find⟩, write_cur ..⟩
  · exact ⟨Keeps.refl s, rfl⟩

/-- What an atomic at its home has written of memory, and the old value that it gives. -/
theorem amoAt_mem (s : State) (who : Agent) (hive : Option Nat) (k : Nat) (op : AmoOp) (n : Nat) (src cmp : Word) :
    let new := amoApply op n (s.readNat k n) (src.toNat % 2 ^ (8 * n)) (cmp.toNat % 2 ^ (8 * n))
    (amoAt s who hive k op n src cmp).1.mem = (if new.2 then (s.poke k (leBytes new.1 n)).mem else s.mem)
    ∧ (amoAt s who hive k op n src cmp).2 = s.readNat k n := by
  unfold amoAt
  dsimp only
  split
  · exact ⟨write_mem .., rfl⟩
  · exact ⟨rfl, rfl⟩

/-- The read of an atomic's word that its agent takes note of. -/
def amoRead (s : State) (who : Agent) (k n : Nat) (acq : Bool) (sc : Scope) : State :=
  match who with
  | .cell c => if acq then s.acquire c k n sc else s.noteRead c s.stamp k n
  | _ => s

theorem amoRead_frame {α : Type} {g : Cell → α} (hg : Unseeing g) (s : State) (who : Agent) (k n : Nat) (acq : Bool) (sc : Scope) :
    Keeps g s (amoRead s who k n acq sc) ∧ (amoRead s who k n acq sc).cur = s.cur ∧ (amoRead s who k n acq sc).mem = s.mem := by
  cases who with
  | cell c =>
    cases acq with
    | true => exact ⟨keeps_acquire hg .., acquire_cur .., acquire_mem ..⟩
    | false => exact ⟨keeps_noteRead hg .., noteRead_cur .., noteRead_mem ..⟩
  | _ => exact ⟨Keeps.refl s, rfl, rfl⟩

/-- An atomic is its read, its word, and its release where it makes one. -/
theorem amoSync_eq (s : State) (who : Agent) (hive : Option Nat) (k : Nat) (op : AmoOp) (n : Nat) (src cmp : Word) (acq rel : Bool) (sc : Scope) :
    let r := amoAt (amoRead s who k n acq sc) who hive k op n src cmp
    amoSync s who hive k op n src cmp acq rel sc
      = (if rel && decide (r.1.stamp ≠ (amoRead s who k n acq sc).stamp) then r.1.released who k n sc else r.1, r.2) := by
  unfold amoSync amoRead
  rfl

theorem amoSync_frame {α : Type} {g : Cell → α} (hg : Unseeing g) (s : State) (who : Agent) (hive : Option Nat) (k : Nat) (op : AmoOp) (n : Nat)
    (src cmp : Word) (acq rel : Bool) (sc : Scope) :
    Keeps g s (amoSync s who hive k op n src cmp acq rel sc).1 ∧ (amoSync s who hive k op n src cmp acq rel sc).1.cur = s.cur := by
  obtain ⟨hk, hcur, -⟩ := amoRead_frame hg s who k n acq sc
  obtain ⟨hk', hcur'⟩ := amoAt_frame hg (amoRead s who k n acq sc) who hive k op n src cmp
  rw [amoSync_eq]
  dsimp only
  split
  · exact ⟨hk.trans ⟨hk'.find⟩, hcur'.trans hcur⟩
  · exact ⟨hk.trans hk', hcur'.trans hcur⟩

/-- What an atomic has written of memory at its home, and the old value that it gives (spec 06 R142). -/
theorem amoSync_mem (s : State) (who : Agent) (hive : Option Nat) (k : Nat) (op : AmoOp) (n : Nat) (src cmp : Word) (acq rel : Bool) (sc : Scope) :
    let new := amoApply op n (s.readNat k n) (src.toNat % 2 ^ (8 * n)) (cmp.toNat % 2 ^ (8 * n))
    (amoSync s who hive k op n src cmp acq rel sc).1.mem = (if new.2 then (s.poke k (leBytes new.1 n)).mem else s.mem)
    ∧ (amoSync s who hive k op n src cmp acq rel sc).2 = s.readNat k n := by
  obtain ⟨-, -, hmem⟩ := amoRead_frame unseeing_x s who k n acq sc
  obtain ⟨h1, h2⟩ := amoAt_mem (amoRead s who k n acq sc) who hive k op n src cmp
  have hpoke (d : List Byte) : ((amoRead s who k n acq sc).poke k d).mem = (s.poke k d).mem := by
    show memPut _ k d = memPut _ k d
    rw [hmem]
  rw [readNat_congr hmem] at h1 h2
  rw [hpoke, hmem] at h1
  rw [amoSync_eq]
  dsimp only
  refine ⟨?_, h2⟩
  split <;> exact h1

/-- Memory in which bytes have been put holds them, and every other byte as before. -/
theorem stored_of_poke {k : Nat} {d : List Byte} (h : t.mem = (s.poke k d).mem) : stored s t k d := by
  have hbyte (a : Nat) : t.byte a = (s.poke k d).byte a := by rw [State.byte, h]; rfl
  exact ⟨fun j hj => (hbyte _).trans (getD_memPut_in _ k d j hj), fun a ha => (hbyte a).trans (byte_poke_out s k d ha)⟩

/-- An atomic whose address reaches bytes at a home. -/
theorem atomic_key {s1 : State} {ea : Word} {n k : Nat} {aq rl : Bool} (hreply : s.me.reply = none) (hr : resolve s .atomic ea n rAtomic n = .ok (s1, .key k))
    (hq : rl = true → quiet s1 = true) (op : AmoOp) (src cmp : Word) (d : Dst) :
    atomic s ea n op src cmp d aq rl =
      if isHbm k then
        if aq then .error (.park (post s1 k ea (.amo op n src cmp .none) { acq := aq, rel := rl }) (.remote 0))
        else .ok (post (reserve s1 d).1 k ea (.amo op n src cmp (reserve s1 d).2) { rel := rl })
      else
        let r := amoSync s1 (.cell s1.cur) none k op n src cmp aq rl .pkg
        .ok (defer r.1 d (sextW n r.2).toNat) := by
  unfold atomic
  rw [hreply]
  simp only [hr, op_bind_ok, release_bind hq]

section
variable {s1 : State} {rd rs1 rs2 : Reg} {aq rl : Bool} {k n : Nat} (h : calm s = true) (hq : rl = true → quiet s = true)
  (hr : resolve (begun s 4) .atomic (rdX s rs1) n rAtomic n = .ok (s1, .key k)) (op : AmoOp)
include h hq hr

/-- How an AMO ends whose address reaches bytes at a home. -/
theorem amoRv_key : amoRv op n rd rs1 rs2 aq rl s = .next (commit 4 (Res.holding [.x rd]
      (if isHbm k then
        if aq then .park (post s1 k (rdX s rs1) (.amo op n (rdX s rs2) 0 .none) { acq := aq, rel := rl }) (.remote 0)
        else .ok (post (reserve s1 (.x rd)).1 k (rdX s rs1) (.amo op n (rdX s rs2) 0 (reserve s1 (.x rd)).2) { rel := rl })
      else
        let r := amoSync s1 (.cell s1.cur) none k op n (rdX s rs2) 0 aq rl .pkg
        .ok (defer r.1 (.x rd) (sextW n r.2).toNat)))) := by
  obtain ⟨-, -, -, -, -, -, -, -, -, hquiet, -⟩ := passed_me h hr
  unfold amoRv
  rw [issue_calm h 4 _ _ _ _ rfl]
  simp only [getX_calm h, atomic_key (begun_reply h 4) hr (fun hrl => hquiet (hq hrl))]
  cases isHbm k <;> cases aq <;> rfl

/-- In own local store or scratchpad, the atomic is performed at once. -/
theorem amoRv_own (hn : n = 4 ∨ n = 8) (hop : op ≠ .cas) (hk : isHbm k = false) :
    let old := BitVec.ofNat (8 * n) (s1.readNat k n)
    ∃ t, amoRv op n rd rs1 rs2 aq rl s = .next (after (lateX t rd (old.signExtend 64)) 4)
      ∧ stored s t k (leBytes (amoWord op old ((rdX s rs2).setWidth (8 * n))).toNat n) ∧ t.me.x = s.me.x ∧ t.me.f = s.me.f ∧ t.me.csr = s.me.csr := by
  intro old
  obtain ⟨-, -, hcsr, hx, hf, -, hhoq, -, hmem1, -, -⟩ := passed_me h hr
  obtain ⟨hkeepx, hcur⟩ := amoSync_frame unseeing_x s1 (.cell s1.cur) none k op n (rdX s rs2) 0 aq rl .pkg
  obtain ⟨hkeepf, -⟩ := amoSync_frame unseeing_f s1 (.cell s1.cur) none k op n (rdX s rs2) 0 aq rl .pkg
  obtain ⟨hkeepc, -⟩ := amoSync_frame unseeing_csr s1 (.cell s1.cur) none k op n (rdX s rs2) 0 aq rl .pkg
  obtain ⟨hmem, hold⟩ := amoSync_mem s1 (.cell s1.cur) none k op n (rdX s rs2) 0 aq rl .pkg
  have hword : old.toNat = s1.readNat k n := by rw [BitVec.toNat_ofNat, Nat.mod_eq_of_lt (readNat_lt ..)]
  have hnew := amoApply_word hop n old ((rdX s rs2).setWidth (8 * n)) ((0 : Word).toNat % 2 ^ (8 * n))
  rw [hword, BitVec.toNat_setWidth] at hnew
  rw [hnew] at hmem
  refine ⟨_, ?_, stored_of_poke (hmem.trans ?_), (hkeepx.me hcur).trans hx, (hkeepf.me hcur).trans hf, (hkeepc.me hcur).trans hcsr⟩
  · rw [amoRv_key h hq hr op, hk, ← sextW_ofNat n (by omega), ← defer_x (by rw [hkeepc.me hcur, hhoq]), ← hold]; rfl
  · show memPut s1.mem _ _ = memPut s.mem _ _
    rw [hmem1]

/-- To HBM the atomic is on its way, and the destination is empty. -/
theorem amoRv_hbm (hk : isHbm k = true) (haq : aq = false) : amoRv op n rd rs1 rs2 aq rl s
    = .next (after (post (reserve s1 (.x rd)).1 k (rdX s rs1) (.amo op n (rdX s rs2) 0 (reserve s1 (.x rd)).2) { rel := rl }) 4) := by
  rw [amoRv_key h hq hr op, hk, haq]; rfl

/-- With aq, the cell waits for the reply. -/
theorem amoRv_acquire (hk : isHbm k = true) (haq : aq = true) : amoRv op n rd rs1 rs2 aq rl s
    = .next (waiting (post s1 k (rdX s rs1) (.amo op n (rdX s rs2) 0 .none) { acq := true, rel := rl }) (.remote 0)) := by
  obtain ⟨-, -, -, -, -, -, hhoq, -⟩ := passed_me h hr
  have hpark : Res.holding [.x rd] (.park (post s1 k (rdX s rs1) (.amo op n (rdX s rs2) 0 .none) { acq := true, rel := rl }) (.remote 0)) = _ :=
    holding_park _ _ (queuesOf_nil hhoq _)
  rw [amoRv_key h hq hr op, hk, haq, if_pos rfl, if_pos rfl, hpark]; rfl

end

/-! At the home (spec 13 R288, R301). -/

/-- What an atomic that is performed at its home in HBM does to the memory, and the old value that it gives. -/
def homeAmo (s : State) (p : Post) (op : AmoOp) (n : Nat) (src cmp : Word) : State × Nat :=
  amoSync s (agentOf p.eng p.cell) (some (hiveOfCell p.cell)) p.pa op n src cmp (p.acq && p.mine s) p.rel p.sc

theorem performPost_amo {p : Post} {op : AmoOp} {n : Nat} {src cmp : Word} {dst : Dst} (hhome : p.home = .hbm) (hop : p.op = .amo op n src cmp dst) :
    performPost s p =
      let r := homeAmo s p op n src cmp
      if !p.mine s then r.1
      else if p.acq then r.1.modCell p.cell fun c => { c with reply := some (sextW n r.2), run := .ready }
      else bringTo r.1 p.cell dst (sextW n r.2).toNat := by
  unfold performPost homeAmo
  rw [hhome, hop]

theorem bringTo_mem (s : State) (c : Nat) (d : Dst) (v : Nat) : (bringTo s c d v).mem = s.mem := by
  unfold bringTo; split <;> rfl

theorem performPost_amo_mem {p : Post} {op : AmoOp} {n : Nat} {src cmp : Word} {dst : Dst} (hhome : p.home = .hbm) (hop : p.op = .amo op n src cmp dst) :
    (performPost s p).mem = (homeAmo s p op n src cmp).1.mem := by
  rw [performPost_amo hhome hop]
  dsimp only
  split
  · rfl
  · split
    · rfl
    · exact bringTo_mem ..

/-- The cell of an access that is still its own is there after the atomic, with what was on its way to it. -/
theorem homeAmo_cell {p : Post} (hmine : p.mine s = true) (op : AmoOp) (n : Nat) (src cmp : Word) :
    ∃ c, Tab.find (homeAmo s p op n src cmp).1.cells p.cell = some c ∧ c.pend = (s.cell p.cell).pend := by
  have hk : Keeps Cell.pend s (homeAmo s p op n src cmp).1 := (amoSync_frame unseeing_pend ..).1
  have hsome : (Tab.find s.cells p.cell).isSome = true := (Bool.and_eq_true_iff.mp hmine).2
  obtain ⟨c, hc⟩ := Option.isSome_iff_exists.mp ((hk.isSome p.cell).trans hsome)
  refine ⟨c, hc, ?_⟩
  rw [← hk.cell p.cell, cell_of_find hc]

/-! With its reply (spec 07 R165, R175). -/

/-- The cell of an instruction whose reply has come, as it was without. -/
theorem replied_cell {v : Word} (h : replied s v = true) : ∃ c, Tab.find s.cells s.cur = some c ∧ c.run = .ready ∧ c.xe = 0 ∧ c.fe = 0 ∧ c.ve = 0
    ∧ c.csr.hoqen = 0 ∧ c.reply = some v := by
  simp only [replied, Bool.and_eq_true, beq_iff_eq] at h
  obtain ⟨hcalm, hreply⟩ := h
  obtain ⟨c', hc', -, hrun, hx, hf, hv, hhoq, -⟩ := calm_cell hcalm
  have hf' : (Tab.find s.cells s.cur).map (fun c => { c with reply := none }) = some c' := (Tab.find_adjust_self s.cells s.cur _).symm.trans hc'
  obtain ⟨c, hc, rfl⟩ := Option.map_eq_some_iff.mp hf'
  exact ⟨c, hc, hrun, hx, hf, hv, hhoq, by rw [← me_of_find hc, hreply]⟩

/-- The operands of an instruction are there where no register of the cell is empty or names a queue. -/
theorem operands_full {c : Cell} (hc : s.me = c) (hx : c.xe = 0) (hf : c.fe = 0) (hv : c.ve = 0) (hq : c.csr.hoqen = 0) (srcs dsts : List Dst) :
    operands s srcs dsts = .ok s := by
  subst hc
  have he (d : Dst) : isEmpty s.me d = false := isEmpty_full hx hf hv d
  unfold operands
  simp only [queuesOf_nil hq, List.filter_nil, he, Bool.false_or, not_mapped hq, Bool.false_and]
  rw [List.find?_eq_none.mpr (by intro d _; cases d <;> simp)]
  have hw : (srcs ++ dsts).filter (isEmpty s.me) = [] := List.filter_eq_nil_iff.mpr fun d _ => by simp [he d]
  simp [hw]

/-- An instruction whose operands are there runs its body on them. -/
theorem issue_operands {len : Nat} {early : Early} {srcs dsts : List Dst} {s1 : State} (hi : canIssue s = true) (he : early (begun s len) = none)
    (ho : operands (begun s len) srcs dsts = .ok s1) (body : State → Res) :
    issue len early srcs dsts body s = .next (commit len ((body s1).holding dsts)) := by
  unfold begun at he ho
  unfold issue
  simp only [hi, if_true, he, ho]

/-- An AMO whose reply has come gives it. -/
theorem amoRv_replied {v : Word} (h : replied s v = true) {n : Nat} (op : AmoOp) (rd rs1 rs2 : Reg) (aq rl : Bool) :
    amoRv op n rd rs1 rs2 aq rl s = .next (after (lateX (begun s 4) rd (sextW n v.toNat)) 4) := by
  obtain ⟨c, hc, hrun, hx, hf, hv, hhoq, hreply⟩ := replied_cell h
  have hme : (begun s 4).me = { c with ilen := 4 } := modMe_me hc _
  have hatomic (ea src cmp : Word) (d : Dst) : atomic (begun s 4) ea n op src cmp d aq rl = .ok (defer (begun s 4) d (sextW n v.toNat).toNat) := by
    unfold atomic; rw [hme]; simp only [hreply]
  unfold amoRv
  rw [issue_operands (canIssue_iff.mpr ⟨c, hc, hrun⟩) rfl (operands_full hme hx hf hv hhoq _ _)]
  simp only [hatomic]
  rw [← defer_x (by rw [hme]; exact hhoq)]
  rfl

/-- Settles O8: an AMO by where its address reaches, at its home, and with its reply. -/
theorem atomicsAtEveryHome : Obligations.AtomicsAtEveryHome := by
  unfold Obligations.AtomicsAtEveryHome
  refine ⟨fun s s1 rd rs1 rs2 aq rl k h _ hq => ?issue, fun s p op n src cmp dst _ hhome hop => ?home, fun s rd rs1 rs2 aq rl v h => ?reply⟩
  case issue =>
    intro gives both
    have h1 (n : Nat) (hn : n = 4 ∨ n = 8) (i : Instr) (op : AmoOp) (hop : op ≠ .cas) (hi : exec i s = amoRv op n rd rs1 rs2 aq rl s) :
        gives n i op (amoWord op) := by
      intro hr old
      rw [hi]
      exact ⟨amoRv_own h hq hr op hn hop, amoRv_hbm h hq hr op, amoRv_acquire h hq hr op⟩
    have h2 (w d : Instr) (op : AmoOp) (hop : op ≠ .cas) (hw : exec w s = amoRv op 4 rd rs1 rs2 aq rl s) (hd : exec d s = amoRv op 8 rd rs1 rs2 aq rl s) :
        both w d op fun _ => amoWord op := ⟨h1 4 (.inl rfl) w op hop hw, h1 8 (.inr rfl) d op hop hd⟩
    exact ⟨h2 _ _ .swap nofun rfl rfl, h2 _ _ .add nofun rfl rfl, h2 _ _ .xor nofun rfl rfl, h2 _ _ .and nofun rfl rfl, h2 _ _ .or nofun rfl rfl,
      h2 _ _ .min nofun rfl rfl, h2 _ _ .max nofun rfl rfl, h2 _ _ .minu nofun rfl rfl, h2 _ _ .maxu nofun rfl rfl⟩
  case home =>
    intro t old new
    have hmem : t.mem = (if new.2 then (s.poke p.pa (leBytes new.1 n)).mem else s.mem) := (performPost_amo_mem hhome hop).trans (amoSync_mem ..).1
    have hold : (homeAmo s p op n src cmp).2 = old := (amoSync_mem ..).2
    have ht : t = _ := performPost_amo hhome hop
    refine ⟨fun hw => stored_of_poke (by rw [hmem, if_pos hw]), fun hw => by rw [hmem, hw]; rfl, fun hm hacq hd => ?brings, fun hm hacq => ?replies⟩
    case brings =>
      obtain ⟨c, hc, hpend⟩ := homeAmo_cell hm op n src cmp
      simp only [hm, hacq, hold, Bool.not_true, Bool.false_eq_true, if_false, bringTo, beq_false_of_ne hd] at ht
      rw [ht, cell_of_find (find_modCell_self hc _), ← hpend]
    case replies =>
      obtain ⟨c, hc, -⟩ := homeAmo_cell hm op n src cmp
      simp only [hm, hacq, hold, Bool.not_true, Bool.false_eq_true, if_false, if_true] at ht
      rw [ht, cell_of_find (find_modCell_self hc _)]
      exact ⟨rfl, rfl⟩
  case reply =>
    intro gives word double
    have hw (i : Instr) (op : AmoOp) (hi : exec i s = amoRv op 4 rd rs1 rs2 aq rl s) : word i := by
      show exec i s = _
      rw [hi, amoRv_replied h, sextW_ofNat 4 (by omega)]; rfl
    have hd (i : Instr) (op : AmoOp) (hi : exec i s = amoRv op 8 rd rs1 rs2 aq rl s) : double i := by
      show exec i s = _
      rw [hi, amoRv_replied h, sextW_ofNat 8 (by omega), BitVec.ofNat_toNat, BitVec.setWidth_eq, BitVec.signExtend_eq]
    exact ⟨hw _ .swap rfl, hw _ .add rfl, hw _ .xor rfl, hw _ .and rfl, hw _ .or rfl, hw _ .min rfl, hw _ .max rfl, hw _ .minu rfl, hw _ .maxu rfl,
      hd _ .swap rfl, hd _ .add rfl, hd _ .xor rfl, hd _ .and rfl, hd _ .or rfl, hd _ .min rfl, hd _ .max rfl, hd _ .minu rfl, hd _ .maxu rfl⟩

end Sys2Proof.Machine
end
section
/-! Empty registers at issue, and hand-off queues (spec 06 R135, R136, R152, R153). -/

open Sys2Proof Sys2Proof.Machine

namespace Sys2Proof.Machine

variable {s : State}

/-! ### Operands that stop an instruction (spec 06 R136) -/

theorem begun_me_of (hi : canIssue s = true) (len : Nat) : (begun s len).me = { s.me with ilen := len } := by
  obtain ⟨c, hc, -⟩ := canIssue_iff.mp hi
  rw [me_of_find hc]
  exact modMe_me hc _

/-- An instruction whose operands are not there ends with what they end in. -/
theorem issue_stopped {len : Nat} {early : Early} {srcs dsts : List Dst} {r : Res} (hi : canIssue s = true) (he : early (begun s len) = none)
    (ho : operands (begun s len) srcs dsts = .error r) (body : State → Res) : issue len early srcs dsts body s = .next (commit len r) := by
  unfold begun at he ho
  unfold issue
  simp only [hi, if_true, he, ho]

/-- The queues that an instruction pops: those of its sources that it has not popped before. -/
def popQueues (s : State) (srcs : List Dst) : List Nat := (queuesOf s.me srcs).filter fun q => (Tab.find s.me.latch q).isNone

/-- The queues that it pushes and has not reserved before. -/
def pushQueues (s : State) (dsts : List Dst) : List Nat := (queuesOf s.me dsts).filter fun q => (Tab.find s.me.pushed q).isNone

/-- A source names a queue that holds nothing for it. -/
def emptyQueue (s : State) (srcs : List Dst) : Dst → Bool
  | .x r => mapped s.me r && (popQueues s srcs).contains (hoqOf r) && (hoqEntries s (hoqOf r)).isEmpty
  | _ => false

/-- A source traps: it is empty, or its queue is, and its trap bit is set. -/
def stopsAt (s : State) (srcs : List Dst) (d : Dst) : Bool := (isEmpty s.me d || emptyQueue s srcs d) && trapBit s.me d

/-- A queue's oldest entry has no value, or there is none. -/
def headMissing : List HoqEntry → Bool
  | e :: _ => e.val.isNone
  | [] => true

/-- The gang's queues have their buffers. -/
def bindQueues (s : State) : State :=
  if s.myGang.hoq.isNone then s.modGang s.me.gang fun g => { g with hoq := some g.hoqSaved, hoqSaved := [] } else s

/-- The waits for queues, where every register is full. -/
def queueOperands (s : State) (popq pushq : List Nat) : Op State :=
  if popq.isEmpty && pushq.isEmpty then .ok s
  else if s.myGang.hoq.isNone && decide (boundBuffers s s.myGang.core + popcount s.myGang.hdr.hoq 4 > 4) then .error (.park s .hoq)
  else if popq.any fun q => headMissing (hoqEntries (bindQueues s) q) then .error (.park (bindQueues s) .hoq)
  else if pushq.any fun q => decide ((hoqEntries (bindQueues s) q).length ≥ 16 + b2n (popq.contains q)) then .error (.park (bindQueues s) .hoq)
  else .ok (popq.foldl hoqPop (bindQueues s))

/-- The waits for the queues of a gang that has bound them: for an oldest value of each that is popped, and for room in each that is pushed. -/
theorem queueOperands_bound {t : Tab (List HoqEntry)} (ht : s.myGang.hoq = some t) (popq pushq : List Nat) :
    queueOperands s popq pushq =
      if (popq.any fun q => headMissing (hoqEntries s q)) || pushq.any fun q => decide ((hoqEntries s q).length ≥ 16 + b2n (popq.contains q)) then
        .error (.park s .hoq)
      else .ok (popq.foldl hoqPop s) := by
  have hbind : bindQueues s = s := by rw [bindQueues, ht]; rfl
  unfold queueOperands
  rw [hbind, ht]
  cases popq with
  | nil => cases pushq <;> simp
  | cons q popq => simp only [List.isEmpty_cons, Option.isNone_some, Bool.false_and, Bool.false_eq_true, if_false, Bool.or_eq_true, ite_or]

theorem operands_stop {srcs : List Dst} {d : Dst} (h : srcs.find? (stopsAt s srcs) = some d) (dsts : List Dst) :
    operands s srcs dsts = .error (.trap s cFE_EMPTY (feVal d)) := by
  unfold operands
  dsimp only
  split
  · next d' heq =>
    obtain rfl : d' = d := Option.some.inj (heq.symm.trans h)
    rfl
  · next heq => exact absurd (heq.symm.trans h) nofun

theorem operands_wait {srcs dsts : List Dst} (h : srcs.find? (stopsAt s srcs) = none) {d : Dst} {rest : List Dst}
    (hw : (srcs ++ dsts).filter (isEmpty s.me) = d :: rest) : operands s srcs dsts = .error (.park s (.regs (d :: rest))) := by
  unfold operands
  dsimp only
  split
  · next d' heq => exact absurd (heq.symm.trans h) nofun
  · rw [hw]; rfl

theorem operands_queues {srcs dsts : List Dst} (h : srcs.find? (stopsAt s srcs) = none) (hw : (srcs ++ dsts).filter (isEmpty s.me) = []) :
    operands s srcs dsts = queueOperands s (popQueues s srcs) (pushQueues s dsts) := by
  unfold operands
  dsimp only
  split
  · next d' heq => exact absurd (heq.symm.trans h) nofun
  · rw [hw]; rfl

/-! ### Empty registers (spec 06 R135, R136) -/

/-- Where no register names a queue, a source stops an instruction by its register alone. -/
theorem stopsAt_register (hq : s.me.csr.hoqen = 0) (srcs : List Dst) (d : Dst) : stopsAt s srcs d = (isEmpty s.me d && trapBit s.me d) := by
  have hd : emptyQueue s srcs d = false := by cases d <;> simp [emptyQueue, not_mapped hq]
  rw [stopsAt, hd, Bool.or_false]

/-- How an instruction's turn ends by its registers alone: at the first source that is empty with its trap bit set, or in a wait for what is empty. -/
def Gated (s : State) (i : Instr) (len : Nat) (srcs dsts : List Dst) : Prop :=
  (∀ before d rest, srcs = before ++ d :: rest → (∀ x ∈ before, (isEmpty s.me x && trapBit s.me x) = false) → (isEmpty s.me d && trapBit s.me d) = true →
    exec i s = .next (trapped (begun s len) len 0x0B (feVal d)))
  ∧ ((∀ d ∈ srcs, (isEmpty s.me d && trapBit s.me d) = false) → ∀ d rest, (srcs ++ dsts).filter (isEmpty s.me) = d :: rest →
    exec i s = .next (waiting (begun s len) (.regs (d :: rest))))

/-- An instruction whose checks before its operands pass is gated by them. -/
theorem gated_of_issue (hi : canIssue s = true) (hq : s.me.csr.hoqen = 0) {i : Instr} {len : Nat} {early : Early} {srcs dsts : List Dst} {body : State → Res}
    (hx : exec i s = issue len early srcs dsts body s) (he : early (begun s len) = none) : Gated s i len srcs dsts := by
  have hme := begun_me_of hi len
  have hempty : isEmpty (begun s len).me = isEmpty s.me := by rw [hme]; funext d; cases d <;> rfl
  have htrap : trapBit (begun s len).me = trapBit s.me := by rw [hme]; funext d; cases d <;> rfl
  have hq' : (begun s len).me.csr.hoqen = 0 := by rw [hme]; exact hq
  have hstop (d : Dst) : stopsAt (begun s len) srcs d = (isEmpty s.me d && trapBit s.me d) := by rw [stopsAt_register hq', hempty, htrap]
  rw [Gated, hx]
  refine ⟨fun before d rest hs hb hd => ?_, fun hs d rest hw => ?_⟩
  · refine issue_stopped hi he (operands_stop (List.find?_eq_some_iff_append.mpr ⟨?_, before, rest, hs, fun x hx => ?_⟩) dsts) body
    · rw [hstop, hd]
    · rw [hstop, hb x hx]; rfl
  · refine issue_stopped hi he (operands_wait (List.find?_eq_none.mpr fun x hx => ?_) (by rw [hempty, hw])) body
    rw [hstop, hs x hx]
    exact Bool.false_ne_true

/-- A vector instruction whose operands name groups is gated by the registers of the groups. -/
theorem gated_of_vecIssue (hi : canIssue s = true) (hq : s.me.csr.hoqen = 0) {i : Instr} {fields : List (Nat × Reg)} {srcs dsts : List Dst}
    {body : State → Op Res} (hx : exec i s = vecIssue noEarlyCheck fields srcs dsts body s) (hf : ∀ f ∈ fields, aligned s f.2 = true) {srcs' dsts' : List Dst}
    (hs : srcs.flatMap (groupDst s.me.g) = srcs') (hd : dsts.flatMap (groupDst s.me.g) = dsts') : Gated s i 8 srcs' dsts' := by
  subst hs hd
  have hme := begun_me_of hi 8
  refine gated_of_issue hi hq (early := fun s => match noEarlyCheck s with | some t => some t | none => alignCheck fields s)
    (body := fun s => Op.res (body s)) hx ?_
  have hnone : fields.find? (fun f => f.2.toNat % 2 ^ (begun s 8).me.g != 0) = none := by
    rw [hme]
    exact List.find?_eq_none.mpr fun f hm => by simpa [aligned] using hf f hm
  simp [noEarlyCheck, alignCheck, hnone]

/-- A rounding field that names a mode passes the check at the issue. -/
theorem rmCheck_none (hi : canIssue s = true) {rm : BitVec 3} (h : (rmSelect s rm).isSome = true) (w : W32) : rmCheck rm w (begun s 4) = none := by
  have hme := begun_me_of hi 4
  have hr : rmSelect (begun s 4) rm = rmSelect s rm := by unfold rmSelect; rw [hme]
  obtain ⟨m, hm⟩ := Option.isSome_iff_exists.mp h
  simp [rmCheck, hr, hm]

/-- The members of a vector group. -/
theorem groupDst_v (g : Nat) (r : Reg) : groupDst g (.v r) = (List.range (2 ^ g)).map fun k => .v (BitVec.ofNat 5 (r.toNat + k)) := by
  simp [groupDst, groupRegs]

/-- An instruction with no check before its operands is gated by them. -/
theorem gated_unchecked (hi : canIssue s = true) (hq : s.me.csr.hoqen = 0) {i : Instr} {len : Nat} {srcs dsts : List Dst} {body : State → Res}
    (hx : exec i s = issue len noEarlyCheck srcs dsts body s) : Gated s i len srcs dsts := gated_of_issue hi hq hx rfl

/-- An instruction that rounds in a mode that its rm names is gated by its registers. -/
theorem gated_rounding (hi : canIssue s = true) (hq : s.me.csr.hoqen = 0) {rm : BitVec 3} (hm : (rmSelect s rm).isSome = true) {i : Instr} {w : W32}
    {srcs dsts : List Dst} {body : State → Res} (hx : exec i s = issue 4 (rmCheck rm w) srcs dsts body s) : Gated s i 4 srcs dsts :=
  gated_of_issue hi hq hx (rmCheck_none hi hm w)

section
variable (hi : canIssue s = true) (hq : s.me.csr.hoqen = 0)
include hi hq

/-- The integer instructions, loads, stores and atomics are gated by their registers. -/
theorem gated_scalars (rd rs1 rs2 : Reg) (imm : BitVec 12) (up : BitVec 20) (aq rl : Bool) :
    ∀ e ∈ [(.add rd rs1 rs2, 4, [.x rs1, .x rs2], [.x rd]), (.addi rd rs1 imm, 4, [.x rs1], [.x rd]), (.lui rd up, 4, [], [.x rd]),
      (.div rd rs1 rs2, 4, [.x rs1, .x rs2], [.x rd]), (.beq rs1 rs2 imm, 4, [.x rs1, .x rs2], []), (.jalr rd rs1 imm, 4, [.x rs1], [.x rd]),
      (.ld rd rs1 imm, 4, [.x rs1], [.x rd]), (.flw rd rs1 imm, 4, [.x rs1], [.f rd]), (.sd rs1 rs2 imm, 4, [.x rs1, .x rs2], []),
      (.fsw rs1 rs2 imm, 4, [.x rs1, .f rs2], []), (.lrD rd rs1 aq rl, 4, [.x rs1], [.x rd]), (.scD rd rs1 rs2 aq rl, 4, [.x rs1, .x rs2], [.x rd]),
      (.amoaddD rd rs1 rs2 aq rl, 4, [.x rs1, .x rs2], [.x rd]), (.csrrw rd rs1 0x802, 4, [.x rs1], [.x rd])],
      Gated s e.1 e.2.1 e.2.2.1 e.2.2.2 := by
  have hcsr : exec (.csrrw rd rs1 0x802) s = csrOp 1 updSwap true rd rs1 [.x rs1] (fun s => getX s rs1) 0x802 s := rfl
  unfold csrOp at hcsr
  simp only [List.forall_mem_cons, List.not_mem_nil, IsEmpty.forall_iff, implies_true, and_true]
  refine ⟨gated_unchecked hi hq rfl, gated_unchecked hi hq rfl, gated_unchecked hi hq rfl, gated_unchecked hi hq rfl,
    gated_unchecked hi hq rfl, gated_unchecked hi hq rfl, gated_unchecked hi hq rfl, gated_unchecked hi hq rfl,
    gated_unchecked hi hq rfl, gated_unchecked hi hq rfl, gated_unchecked hi hq rfl, gated_unchecked hi hq rfl,
    gated_unchecked hi hq rfl, gated_of_issue hi hq hcsr (if_pos ?_)⟩
  simp [csrExists, csrWritable, csrTrap]

/-- The F instructions are gated by their registers. -/
theorem gated_floats (rd rs1 rs2 rs3 : Reg) {rm : BitVec 3} (hm : (rmSelect s rm).isSome = true) :
    ∀ e ∈ [(.faddS rd rs1 rs2 rm, 4, [.f rs1, .f rs2], [.f rd]), (.fmaddS rd rs1 rs2 rs3 rm, 4, [.f rs1, .f rs2, .f rs3], [.f rd]),
      (.fsqrtS rd rs1 rm, 4, [.f rs1], [.f rd]), (.fcvtWS rd rs1 rm, 4, [.f rs1], [.x rd]), (.fcvtSW rd rs1 rm, 4, [.x rs1], [.f rd]),
      (.feqS rd rs1 rs2, 4, [.f rs1, .f rs2], [.x rd]), (.fminS rd rs1 rs2, 4, [.f rs1, .f rs2], [.f rd]), (.fmvXW rd rs1, 4, [.f rs1], [.x rd]),
      (.fmvWX rd rs1, 4, [.x rs1], [.f rd])],
      Gated s e.1 e.2.1 e.2.2.1 e.2.2.2 := by
  simp only [List.forall_mem_cons, List.not_mem_nil, IsEmpty.forall_iff, implies_true, and_true]
  refine ⟨gated_rounding hi hq hm rfl, gated_rounding hi hq hm rfl, gated_rounding hi hq hm rfl, gated_rounding hi hq hm rfl,
    gated_rounding hi hq hm rfl, gated_unchecked hi hq rfl, gated_unchecked hi hq rfl, gated_unchecked hi hq rfl,
    gated_unchecked hi hq rfl⟩

/-- The 64-bit instructions on scalar registers are gated by them. -/
theorem gated_longs (rd rs1 rs2 rs3 : Reg) (aq rl : Bool) (sc : Scope) (cond : Cond) (i4 : BitVec 4) (t : Ty) :
    ∀ e ∈ [(.traise rs1, 8, [.x rs1], []), (.vsetvl rd rs1 t, 8, [.x rs1], [.x rd]), (.amxrd rd i4, 8, [], [.f rd]), (.amxmax rs1 i4, 8, [.f rs1], []),
      (.ssig rs1 rs2 sc, 8, [.x rs1, .x rs2], []), (.swait rd rs1 rs2 rs3 cond sc, 8, [.x rs1, .x rs2, .x rs3], [.x rd]),
      (.qamoadd rd rs1 rs2 aq aq rl sc, 8, [.x rs1, .x rs2], [.x rd]), (.launch rd rs1 rs2, 8, [.x rs1, .x rs2], [.x rd]),
      (.bfork rd rs1, 8, [.x rs1], [.x rd])],
      Gated s e.1 e.2.1 e.2.2.1 e.2.2.2 := by
  simp only [List.forall_mem_cons, List.not_mem_nil, IsEmpty.forall_iff, implies_true, and_true]
  refine ⟨gated_unchecked hi hq rfl, gated_unchecked hi hq rfl, gated_unchecked hi hq rfl, gated_unchecked hi hq rfl,
    gated_unchecked hi hq rfl, gated_unchecked hi hq rfl, gated_unchecked hi hq rfl, gated_unchecked hi hq rfl,
    gated_unchecked hi hq rfl⟩

/-- The vector instructions are gated by the registers of their groups. -/
theorem gated_vectors (rd rs1 rs2 : Reg) (imm16 : BitVec 16) (ix : BitVec 10) (p : Pred) (t : Ty) (hd : aligned s rd = true) (h1 : aligned s rs1 = true)
    (h2 : aligned s rs2 = true) :
    Gated s (.vintVadd rd rs1 rs2 false p t) 8 (groupDst s.me.g (.v rs1) ++ groupDst s.me.g (.v rs2)) (groupDst s.me.g (.v rd))
    ∧ Gated s (.vld rd rs1 imm16 p t) 8 [.x rs1] (groupDst s.me.g (.v rd)) ∧ Gated s (.vst rs2 rs1 imm16 p t) 8 (.x rs1 :: groupDst s.me.g (.v rs2)) []
    ∧ Gated s (.vmvXv rd rs1 ix t) 8 (groupDst s.me.g (.v rs1)) [.x rd] ∧ Gated s (.vmvVx rd rs1 ix t) 8 [.x rs1] (groupDst s.me.g (.v rd)) := by
  refine ⟨gated_of_vecIssue hi hq (fields := [(0, rd), (1, rs1), (2, rs2)]) (srcs := [.v rs1, .v rs2]) (dsts := [.v rd]) rfl ?_ ?_ ?_,
    gated_of_vecIssue hi hq (fields := [(0, rd)]) (srcs := [.x rs1]) (dsts := [.v rd]) rfl ?_ ?_ ?_,
    gated_of_vecIssue hi hq (fields := [(3, rs2)]) (srcs := [.x rs1, .v rs2]) (dsts := []) rfl ?_ ?_ ?_,
    gated_of_vecIssue hi hq (fields := [(1, rs1)]) (srcs := [.v rs1]) (dsts := [.x rd]) rfl ?_ ?_ ?_,
    gated_of_vecIssue hi hq (fields := [(0, rd)]) (srcs := [.x rs1]) (dsts := [.v rd]) rfl ?_ ?_ ?_⟩ <;>
    simp [groupDst, hd, h1, h2]
end

/-! ### Hand-off queues (spec 06 R152, R153) -/

/-- What the turn of `s` has made of the current cell and its gang, with the memory as it was. -/
structure Serves (s u : State) (c : Cell) (g : Gang) : Prop where
  cur : u.cur = s.cur
  mem : u.mem = s.mem
  cell : Tab.find u.cells s.cur = some c
  gang : Tab.find u.gangs c.gang = some g

/-- What a turn leaves that ends in `u`: no f or v register, CSR or byte of memory has changed. -/
def Kept (s : State) (c : Cell) (u : State) : Prop := u.me.f = c.f ∧ u.me.v = c.v ∧ u.me.csr = c.csr ∧ u.mem = s.mem

theorem hoqPop_nextId (s : State) (q : Nat) : (hoqPop s q).nextId = s.nextId := by
  unfold hoqPop
  split <;> rfl

namespace Serves
variable {u : State} {c : Cell} {g : Gang}

theorem me (h : Serves s u c g) : u.me = c := by
  rw [State.me, h.cur]
  exact cell_of_find h.cell

theorem myGang (h : Serves s u c g) : u.myGang = g := by
  rw [State.myGang, h.me]
  exact congrArg (·.getD Gang.empty) h.gang

theorem find (h : Serves s u c g) : Tab.find u.cells u.cur = some c := h.cur.symm ▸ h.cell

theorem modMe (h : Serves s u c g) {f : Cell → Cell} (hf : (f c).gang = c.gang) : Serves s (u.modMe f) (f c) g :=
  ⟨h.cur, h.mem, h.cur ▸ find_modCell_self h.find f, hf.symm ▸ h.gang⟩

theorem modGang (h : Serves s u c g) (f : Gang → Gang) : Serves s (u.modGang u.me.gang f) c (f g) := by
  refine ⟨h.cur, h.mem, h.cell, ?_⟩
  rw [h.me, find_modGang_self, h.gang]
  rfl

/-- A waking leaves the cell whose turn it is, which runs. -/
theorem wake (h : Serves s u c g) (hr : c.run = .ready) (p : Nat → Wait → Bool) : Serves s (wakeWhere u p) c g := by
  refine ⟨h.cur, h.mem, ?_, h.gang⟩
  rw [find_woken h.cell, woken, hr]

theorem nextId (h : Serves s u c g) (n : Nat) : Serves s { u with nextId := n } c g := ⟨h.cur, h.mem, h.cell, h.gang⟩

/-- A pop takes the oldest entry of a queue into the cell's latch. -/
theorem hoqPop (h : Serves s u c g) (hr : c.run = .ready) {t : Tab (List HoqEntry)} (ht : g.hoq = some t) {q : Nat} {e : HoqEntry} {rest : List HoqEntry}
    (hq : Tab.getD t q [] = e :: rest) :
    Serves s (Machine.hoqPop u q) { c with latch := Tab.put c.latch q (e.val.getD 0) } { g with hoq := some (Tab.put t q rest) } := by
  have he : hoqEntries u q = e :: rest := by rw [hoqEntries, h.myGang, ht]; exact hq
  unfold Machine.hoqPop
  rw [he]
  have hg := h.modGang fun g => { g with hoq := g.hoq.map fun t => Tab.put t q rest }
  rw [ht] at hg
  exact (hg.modMe (f := fun c => { c with latch := Tab.put c.latch q (e.val.getD 0) }) rfl).wake hr _

/-- A push adds an entry at the end of a queue. -/
theorem hoqPush (h : Serves s u c g) (hr : c.run = .ready) {t : Tab (List HoqEntry)} (ht : g.hoq = some t) (q : Nat) (v : Option Word) :
    Serves s (Machine.hoqPush u q v) c { g with hoq := some (Tab.put t q (Tab.getD t q [] ++ [{ id := u.nextId, by_ := s.cur, val := v }])) } := by
  have hg := h.modGang fun g => { g with hoq := g.hoq.map fun t => Tab.put t q (Tab.getD t q [] ++ [{ id := u.nextId, by_ := u.cur, val := v }]) }
  rw [ht, h.cur] at hg
  unfold Machine.hoqPush
  rw [h.cur]
  exact (hg.nextId _).wake hr _

/-- A register that names no queue is read itself. -/
theorem getX_unmapped (h : Serves s u c g) (hx : c.x = s.me.x) (he : c.early = []) {r : Reg} (hm : mapped c r = false) : getX u r = rdX s r := by
  rw [getX, rdX, h.me, hm, if_neg Bool.false_ne_true, hazard, h.me, he]
  simp [hx]

/-- A register that names a queue is written by a push. -/
theorem setX_mapped (h : Serves s u c g) (hr : c.run = .ready) (hp : c.pushed = []) {t : Tab (List HoqEntry)} (ht : g.hoq = some t) {r : Reg}
    (hm : mapped c r = true) (v : Word) :
    Serves s (setX u r v) c
      { g with hoq := some (Tab.put t (hoqOf r) (Tab.getD t (hoqOf r) [] ++ [{ id := u.nextId, by_ := s.cur, val := some v }])) } := by
  have h0 : r ≠ 0 := by rintro rfl; simp [mapped] at hm
  rw [setX, if_neg h0, h.me, if_pos hm, pushValue, h.me, hp]
  exact h.hoqPush hr ht _ _

/-- A result that comes later reserves its entry. -/
theorem defer_mapped (h : Serves s u c g) (hr : c.run = .ready) (hp : c.pushed = []) {t : Tab (List HoqEntry)} (ht : g.hoq = some t) {r : Reg}
    (hm : mapped c r = true) (v : Nat) :
    Serves s (defer u (.x r) v) { c with pend := c.pend ++ [{ dst := .hoq (hoqOf r) u.nextId, val := v }] }
      { g with hoq := some (Tab.put t (hoqOf r) (Tab.getD t (hoqOf r) [] ++ [{ id := u.nextId, by_ := s.cur, val := none }])) } := by
  have h0 : r ≠ 0 := by rintro rfl; simp [mapped] at hm
  have hpe : pushEntry u (hoqOf r) = (Machine.hoqPush u (hoqOf r) none, u.nextId) := by rw [pushEntry, h.me, hp]; rfl
  rw [defer, if_neg h0, h.me, if_pos hm, hpe]
  exact (h.hoqPush hr ht _ _).modMe (f := fun c => { c with pend := c.pend ++ [{ dst := .hoq (hoqOf r) u.nextId, val := v }] }) rfl

/-- Any other register is written itself. -/
theorem setX_unmapped (h : Serves s u c g) {r : Reg} (hm : mapped c r = false) (he : c.early = []) (v : Word) :
    Serves s (setX u r v) (if r = 0 then c else { c with x := c.x.set r.toNat v r.isLt }) g := by
  unfold setX
  split
  · exact h
  · rw [h.me, hm, if_neg Bool.false_ne_true]
    have hx := h.modMe (f := fun c => noEarly (.x r) { c with x := c.x.set r.toNat v r.isLt }) rfl
    simpa only [noEarly, he, List.filter_nil] using hx

/-- The end of the instruction leaves the registers, the results on their way and the gang. -/
theorem finish (h : Serves s u c g) (len : Nat) :
    Kept s c (commit len (.ok u)) ∧ (commit len (.ok u)).myGang = g ∧ (commit len (.ok u)).me.x = c.x ∧ (commit len (.ok u)).me.pend = c.pend := by
  obtain ⟨hcur, hmem, hcell, hgang⟩ :=
    h.modMe (f := fun v => endedCell v ((u.gangOf u.cur).st == .landing) (u.me.pc + BitVec.ofNat 64 len)) rfl
  have hend : Serves s (commit len (.ok u)) _ g := ⟨hcur, hmem, hcell, hgang⟩
  rw [Kept, hend.me, hend.myGang]
  exact ⟨⟨rfl, rfl, rfl, hmem⟩, rfl, rfl, rfl⟩

/-- The pops of different queues that hold entries put their oldest values into the latch, and take them from the queues. -/
theorem pops {qs : List Nat} (hn : qs.Nodup) : ∀ {u : State} {c : Cell} {g : Gang} {t : Tab (List HoqEntry)}, Serves s u c g → c.run = .ready → g.hoq = some t →
    (∀ q ∈ qs, Tab.getD t q [] ≠ []) → ∃ L, Serves s (qs.foldl Machine.hoqPop u) { c with latch := L }
      { g with hoq := some (qs.foldl (fun t n => Tab.put t n (Tab.getD t n []).tail) t) } ∧ (qs.foldl Machine.hoqPop u).nextId = u.nextId
      ∧ (∀ q ∈ qs, Tab.find L q = some (((Tab.getD t q []).head?.bind HoqEntry.val).getD 0)) ∧ ∀ q, q ∉ qs → Tab.find L q = Tab.find c.latch q := by
  induction qs with
  | nil =>
    intro u c g t h hr ht he
    obtain ⟨⟩ := g
    subst ht
    exact ⟨c.latch, h, rfl, nofun, fun _ _ => rfl⟩
  | cons q qs ih =>
    intro u c g t h hr ht he
    obtain ⟨hq, hn⟩ := List.nodup_cons.mp hn
    obtain ⟨e, rest, hqe⟩ := List.exists_cons_of_ne_nil (he q (.head _))
    have hother {n : Nat} (hm : n ∈ qs) : Tab.getD (Tab.put t q rest) n [] = Tab.getD t n [] := by
      rw [Tab.getD, Tab.find_put_ne _ _ (ne_of_mem_of_not_mem hm hq)]
      rfl
    obtain ⟨L, hs, hid, hin, hout⟩ := ih hn (h.hoqPop hr ht hqe) hr rfl (fun n hm => by rw [hother hm]; exact he n (.tail _ hm))
    refine ⟨L, ?_, ?_, ?_, ?_⟩
    · rw [List.foldl_cons, List.foldl_cons, hqe]
      exact hs
    · rw [List.foldl_cons, hid, hoqPop_nextId]
    · intro n hm
      rcases List.mem_cons.mp hm with rfl | hm
      · rw [hout n hq, hqe]
        exact Tab.find_put_self ..
      · rw [hin n hm, hother hm]
    · intro n hm
      obtain ⟨hne, hm⟩ := not_or.mp (mt List.mem_cons.mpr hm)
      rw [hout n hm]
      exact Tab.find_put_ne _ _ hne

end Serves

/-- Each element once: the list has no duplicates. -/
theorem nodup_eraseDups : ∀ l : List Nat, l.eraseDups.Nodup
  | [] => by simp
  | a :: l => by
    rw [List.eraseDups_cons]
    refine List.nodup_cons.mpr ⟨fun h => ?_, nodup_eraseDups _⟩
    simp at h
termination_by l => l.length
decreasing_by
  have := List.length_filter_le (fun b => !b == a) l
  simp only [List.length_cons]
  omega

/-- The queues that a list of registers names, each once. -/
theorem queuesOf_regs (c : Cell) (rs : List Reg) : queuesOf c (rs.map .x) = ((rs.filter (mapped c)).map hoqOf).eraseDups := by
  unfold queuesOf
  congr 1
  induction rs with
  | nil => rfl
  | cons r rs ih =>
    cases h : mapped c r <;> simp [h] at ih ⊢ <;> exact ih

/-- A register that names a queue is known by it. -/
theorem hoqOf_inj {c : Cell} {a b : Reg} (ha : mapped c a = true) (hb : mapped c b = true) (h : hoqOf a = hoqOf b) : a = b := by
  have ha' : 28 ≤ a.toNat := of_decide_eq_true (Bool.and_eq_true_iff.mp ha).1
  have hb' : 28 ≤ b.toNat := of_decide_eq_true (Bool.and_eq_true_iff.mp hb).1
  unfold hoqOf at h
  exact BitVec.eq_of_toNat_eq (by omega)

/-- The queue that a register names. -/
def handoffOf (t : Tab (List HoqEntry)) (r : Reg) : List HoqEntry := Tab.getD t (hoqOf r) []

/-- A source traps: its queue is empty and its trap bit is set. -/
def blockedAt (c : Cell) (t : Tab (List HoqEntry)) (r : Reg) : Bool := mapped c r && (handoffOf t r).isEmpty && bit c.csr.fetrap.toNat r.toNat

/-- A source waits: its queue has no oldest entry with a value. -/
def unreadyAt (c : Cell) (t : Tab (List HoqEntry)) (r : Reg) : Bool := mapped c r && ((handoffOf t r).head?.bind HoqEntry.val).isNone

/-- A destination waits: its queue is full, its own pop aside. -/
def fullAt (c : Cell) (t : Tab (List HoqEntry)) (rs : List Reg) (rd : Reg) : Bool :=
  mapped c rd && decide (16 + b2n ((rs.filter (mapped c)).contains rd) ≤ (handoffOf t rd).length)

/-- The queues that sources pop, each once. -/
def poppedBy (c : Cell) (rs : List Reg) : List Nat := ((rs.filter (mapped c)).map hoqOf).eraseDups

/-- What a source gives: the oldest value of its queue, or the register. -/
def sourceValue (s : State) (c : Cell) (t : Tab (List HoqEntry)) (r : Reg) : Word :=
  if mapped c r then ((handoffOf t r).head?.bind HoqEntry.val).getD 0 else rdX s r

/-- A ready cell with every register full and no instruction under way, whose registers may name queues. -/
structure QueueReady (s : State) (c : Cell) (g : Gang) : Prop where
  cell : Tab.find s.cells s.cur = some c
  gang : Tab.find s.gangs c.gang = some g
  run : c.run = .ready
  full : ∀ d, isEmpty c d = false
  early : c.early = []
  latch : c.latch = []
  pushed : c.pushed = []

theorem headMissing_eq (l : List HoqEntry) : headMissing l = (l.head?.bind HoqEntry.val).isNone := by
  cases l <;> rfl

theorem blockedAt_of_ready {c : Cell} {t : Tab (List HoqEntry)} {r : Reg} (h : unreadyAt c t r = false) : blockedAt c t r = false := by
  unfold unreadyAt at h
  unfold blockedAt
  cases hq : handoffOf t r with
  | nil =>
    have hm : mapped c r = false := by simpa [hq] using h
    rw [hm]
    rfl
  | cons e rest => simp

theorem mem_poppedBy {c : Cell} {rs : List Reg} {q : Nat} : q ∈ poppedBy c rs ↔ ∃ r ∈ rs, mapped c r = true ∧ hoqOf r = q := by
  simp [poppedBy, and_assoc]

/-- Sources that name no queue pop nothing. -/
theorem poppedBy_nil {c : Cell} {rs : List Reg} (hm : ∀ r ∈ rs, mapped c r = false) : poppedBy c rs = [] :=
  List.eq_nil_iff_forall_not_mem.mpr fun _ hq => by
    obtain ⟨r, hr, hmr, -⟩ := mem_poppedBy.mp hq
    exact Bool.false_ne_true ((hm r hr).symm.trans hmr)

/-- A destination's queue is popped where it is one of the sources. -/
theorem contains_poppedBy {c : Cell} (rs : List Reg) {rd : Reg} (hm : mapped c rd = true) :
    (poppedBy c rs).contains (hoqOf rd) = (rs.filter (mapped c)).contains rd := by
  rw [Bool.eq_iff_iff, List.contains_iff_mem, List.contains_iff_mem, mem_poppedBy, List.mem_filter]
  refine ⟨fun ⟨r, hr, hmr, hq⟩ => ?_, fun ⟨hr, _⟩ => ⟨rd, hr, hm, rfl⟩⟩
  obtain rfl := hoqOf_inj hmr hm hq
  exact ⟨hr, hm⟩

namespace QueueReady
variable {c : Cell} {g : Gang} {t : Tab (List HoqEntry)}

theorem of_calm (hc : Tab.find s.cells s.cur = some c) (h : calm (s.modMe fun c => { c with csr := { c.csr with hoqen := 0 } }) = true)
    (hg : Tab.find s.gangs c.gang = some g) : QueueReady s c g := by
  obtain ⟨z, hz, -, hr, hx, hf, hv, -, he, hl, hp, -⟩ := calm_cell h
  obtain rfl := Option.some.inj (hz.symm.trans (find_modCell_self hc _))
  refine ⟨hc, hg, hr, fun d => ?_, he, hl, hp⟩
  exact isEmpty_full (c := c) hx hf hv d

variable (h : QueueReady s c g)
include h

theorem canIssue : canIssue s = true := canIssue_iff.mpr ⟨c, h.cell, h.run⟩

theorem begun (len : Nat) : Serves s (begun s len) { c with ilen := len } g := ⟨rfl, rfl, find_modCell_self h.cell _, h.gang⟩

theorem popQueues (rs : List Reg) (len : Nat) : popQueues (Sys2Proof.begun s len) (rs.map .x) = poppedBy c rs := by
  rw [Machine.popQueues, (h.begun len).me]
  simp only [h.latch]
  exact (List.filter_eq_self.mpr fun _ _ => rfl).trans (queuesOf_regs c rs)

theorem pushQueues (rd : Reg) (len : Nat) : pushQueues (Sys2Proof.begun s len) [.x rd] = if mapped c rd then [hoqOf rd] else [] := by
  rw [Machine.pushQueues, (h.begun len).me]
  simp only [h.pushed]
  refine (List.filter_eq_self.mpr fun _ _ => rfl).trans ((queuesOf_regs c [rd]).trans ?_)
  cases hm : mapped c rd <;> simp [hm, List.eraseDups_cons]

theorem hoqEntries (ht : g.hoq = some t) (len q : Nat) : hoqEntries (Sys2Proof.begun s len) q = Tab.getD t q [] := by
  rw [Machine.hoqEntries, (h.begun len).myGang, ht]
  rfl

theorem stopsAt (ht : g.hoq = some t) (len : Nat) {rs : List Reg} {r : Reg} (hr : r ∈ rs) :
    stopsAt (Sys2Proof.begun s len) (rs.map .x) (.x r) = blockedAt c t r := by
  have hfull : isEmpty (Sys2Proof.begun s len).me (.x r) = false := by rw [(h.begun len).me]; exact h.full (.x r)
  rw [Machine.stopsAt, hfull, Bool.false_or, emptyQueue, h.popQueues, h.hoqEntries ht, (h.begun len).me]
  show (mapped c r && _ && _ && bit c.csr.fetrap.toNat r.toNat) = _
  unfold blockedAt handoffOf
  cases hm : mapped c r
  · rfl
  · rw [List.contains_iff_mem.mpr (mem_poppedBy.mpr ⟨r, hr, hm, rfl⟩)]
    rfl

theorem no_waits (len : Nat) (ds : List Dst) : ds.filter (isEmpty (Sys2Proof.begun s len).me) = [] := by
  rw [(h.begun len).me]
  exact List.filter_eq_nil_iff.mpr fun d _ => by
    rw [show isEmpty { c with ilen := len } d = isEmpty c d by cases d <;> rfl, h.full d]
    exact Bool.false_ne_true

/-- The waits for queues of a gang that has bound them. -/
theorem operands_bound (ht : g.hoq = some t) (len : Nat) {rs : List Reg} (hb : ∀ r ∈ rs, blockedAt c t r = false) (rd : Reg) :
    operands (Sys2Proof.begun s len) (rs.map .x) [.x rd] =
      if rs.any (unreadyAt c t) || fullAt c t rs rd then .error (.park (Sys2Proof.begun s len) .hoq)
      else .ok ((poppedBy c rs).foldl hoqPop (Sys2Proof.begun s len)) := by
  have hstop : (rs.map Dst.x).find? (Machine.stopsAt (Sys2Proof.begun s len) (rs.map .x)) = none := by
    rw [List.find?_eq_none]
    rintro d hd
    obtain ⟨r, hr, rfl⟩ := List.mem_map.mp hd
    rw [h.stopsAt ht len hr, hb r hr]
    exact Bool.false_ne_true
  rw [operands_queues hstop (h.no_waits len _), h.popQueues, h.pushQueues]
  have hhead : ((poppedBy c rs).any fun q => headMissing (Tab.getD t q [])) = rs.any (unreadyAt c t) := by
    rw [Bool.eq_iff_iff, List.any_eq_true, List.any_eq_true]
    simp only [mem_poppedBy, unreadyAt, handoffOf, headMissing_eq, Bool.and_eq_true]
    exact ⟨fun ⟨q, ⟨r, hr, hm, hq⟩, hn⟩ => ⟨r, hr, hm, hq ▸ hn⟩, fun ⟨r, hr, hm, hn⟩ => ⟨hoqOf r, ⟨r, hr, hm, rfl⟩, hn⟩⟩
  have hfull : ((if mapped c rd then [hoqOf rd] else []).any fun q => decide ((Tab.getD t q []).length ≥ 16 + b2n ((poppedBy c rs).contains q)))
      = fullAt c t rs rd := by
    unfold fullAt handoffOf
    cases hm : mapped c rd
    · rfl
    · rw [← contains_poppedBy rs hm]
      simp
  rw [queueOperands_bound (by rw [(h.begun len).myGang, ht])]
  simp only [h.hoqEntries ht, hhead, hfull]

/-- The sources of an instruction whose queues have their values, once it has popped them. -/
theorem popped (ht : g.hoq = some t) (len : Nat) {rs : List Reg} (hv : ∀ r ∈ rs, unreadyAt c t r = false) :
    ∃ L, Serves s ((poppedBy c rs).foldl hoqPop (Sys2Proof.begun s len)) { c with ilen := len, latch := L }
        { g with hoq := some ((poppedBy c rs).foldl (fun t n => Tab.put t n (Tab.getD t n []).tail) t) }
      ∧ ((poppedBy c rs).foldl hoqPop (Sys2Proof.begun s len)).nextId = s.nextId
      ∧ ∀ r ∈ rs, getX ((poppedBy c rs).foldl hoqPop (Sys2Proof.begun s len)) r = sourceValue s c t r := by
  have hn : (poppedBy c rs).Nodup := nodup_eraseDups _
  obtain ⟨L, hs, hid, hin, -⟩ := Serves.pops hn (h.begun len) h.run ht (fun q hq => by
    obtain ⟨r, hr, hm, rfl⟩ := mem_poppedBy.mp hq
    intro hnil
    simpa [unreadyAt, hm, handoffOf, hnil] using hv r hr)
  refine ⟨L, hs, hid, fun r hr => ?_⟩
  have hme : s.me = c := me_of_find h.cell
  rw [sourceValue]
  cases hm : mapped c r
  · exact hs.getX_unmapped (hme ▸ rfl) h.early hm
  · have h0 : r ≠ 0 := by rintro rfl; simp [mapped] at hm
    rw [getX, if_neg h0, hs.me]
    refine (if_pos hm).trans ?_
    rw [hin _ (mem_poppedBy.mpr ⟨r, hr, hm, rfl⟩)]
    rfl

/-- A source whose queue is empty and whose trap bit is set ends the instruction. -/
theorem trap (ht : g.hoq = some t) {i : Instr} {len : Nat} {rs : List Reg} {dsts : List Dst} {body : State → Res}
    (hx : exec i s = issue len noEarlyCheck (rs.map .x) dsts body s) {before rest : List Reg} {r : Reg} (hs : rs = before ++ r :: rest)
    (hb : ∀ x ∈ before, blockedAt c t x = false) (hr : blockedAt c t r = true) :
    exec i s = .next (trapped (Sys2Proof.begun s len) len 0x0B (BitVec.ofNat 64 r.toNat)) := by
  have hfind : (rs.map Dst.x).find? (Machine.stopsAt (Sys2Proof.begun s len) (rs.map .x)) = some (.x r) := by
    refine List.find?_eq_some_iff_append.mpr ⟨?_, before.map .x, rest.map .x, by simp [hs], fun d hd => ?_⟩
    · rw [h.stopsAt ht len (by simp [hs]), hr]
    · obtain ⟨x, hx, rfl⟩ := List.mem_map.mp hd
      rw [h.stopsAt ht len (by simp [hs, hx]), hb x hx]
      rfl
  have ho := operands_stop hfind dsts
  rw [hx]
  exact issue_stopped h.canIssue rfl ho body

/-- An instruction waits for the value of a source's queue, and for room in its destination's. -/
theorem park (ht : g.hoq = some t) {i : Instr} {len : Nat} {rs : List Reg} {rd : Reg} {body : State → Res}
    (hx : exec i s = issue len noEarlyCheck (rs.map .x) [.x rd] body s) (hb : ∀ r ∈ rs, blockedAt c t r = false)
    (hw : rs.any (unreadyAt c t) = true ∨ fullAt c t rs rd = true) : exec i s = .next (waiting (Sys2Proof.begun s len) .hoq) := by
  have ho := h.operands_bound ht len hb rd
  rw [if_pos (Bool.or_eq_true_iff.mpr hw)] at ho
  rw [hx]
  exact issue_stopped h.canIssue rfl ho body

/-- Otherwise it goes on with its sources popped. -/
theorem goes (ht : g.hoq = some t) {i : Instr} {len : Nat} {rs : List Reg} {rd : Reg} {body : State → Res}
    (hx : exec i s = issue len noEarlyCheck (rs.map .x) [.x rd] body s) (hv : rs.any (unreadyAt c t) = false) (hf : fullAt c t rs rd = false) :
    exec i s = .next (commit len ((body ((poppedBy c rs).foldl hoqPop (Sys2Proof.begun s len))).holding [.x rd])) := by
  have ho := h.operands_bound ht len (rs := rs) (fun r hr => ?_) rd
  · rw [hv, hf] at ho
    rw [hx]
    exact issue_operands h.canIssue rfl ho body
  · exact blockedAt_of_ready (Bool.eq_false_iff.mpr (List.any_eq_false.mp hv r hr))

/-- An instruction that goes on pops its sources' queues, and pushes its result or writes its register. -/
theorem writes (ht : g.hoq = some t) {i : Instr} {rs : List Reg} {rd : Reg} {body : State → Res} {v : Word}
    (hx : exec i s = issue 4 noEarlyCheck (rs.map .x) [.x rd] body s)
    (hbody : ∀ u, (∀ r ∈ rs, getX u r = sourceValue s c t r) → body u = .ok (setX u rd v))
    (hv : rs.any (unreadyAt c t) = false) (hf : fullAt c t rs rd = false) :
    let popped := (poppedBy c rs).foldl (fun t n => Tab.put t n (Tab.getD t n []).tail) t
    ∃ u, exec i s = .next u ∧ Kept s c u
      ∧ u.myGang.hoq = some (if mapped c rd then
          Tab.put popped (hoqOf rd) (Tab.getD popped (hoqOf rd) [] ++ [{ id := s.nextId, by_ := s.cur, val := some v }]) else popped)
      ∧ u.me.x = if mapped c rd = true ∨ rd = 0 then c.x else c.x.set rd.toNat v rd.isLt := by
  intro popped
  obtain ⟨L, hs, hid, hval⟩ := h.popped ht 4 (rs := rs) fun r hr => Bool.eq_false_iff.mpr (List.any_eq_false.mp hv r hr)
  rw [h.goes ht hx hv hf, hbody _ hval]
  refine ⟨commit 4 (.ok (setX ((poppedBy c rs).foldl hoqPop (Sys2Proof.begun s 4)) rd v)), rfl, ?_⟩
  cases hm : mapped c rd
  · obtain ⟨hkept, hgang, hxs, -⟩ := (hs.setX_unmapped hm h.early v).finish 4
    refine ⟨?_, congrArg Gang.hoq hgang, ?_⟩
    · split at hkept <;> exact hkept
    · rw [hxs]
      split <;> simp_all
  · obtain ⟨hkept, hgang, hxs, -⟩ := (hs.setX_mapped h.run h.pushed rfl hm v).finish 4
    rw [hid] at hgang
    exact ⟨hkept, congrArg Gang.hoq hgang, hxs.trans (if_pos (.inl rfl)).symm⟩

theorem getX_begun (len : Nat) {r : Reg} (hm : mapped c r = false) : getX (Sys2Proof.begun s len) r = rdX s r :=
  (h.begun len).getX_unmapped (me_of_find h.cell ▸ rfl) h.early hm

/-- A DIVU into a queue reserves the entry that its quotient will fill. -/
theorem divu (ht : g.hoq = some t) {rd rs1 rs2 : Reg} (h1 : mapped c rs1 = false) (h2 : mapped c rs2 = false) (hd : mapped c rd = true)
    (hlen : (handoffOf t rd).length < 16) (hz : rdX s rs2 ≠ 0) :
    ∃ u, exec (.divu rd rs1 rs2) s = .next u ∧ Kept s c u ∧ u.me.x = c.x
      ∧ u.myGang.hoq = some (Tab.put t (hoqOf rd) (handoffOf t rd ++ [{ id := s.nextId, by_ := s.cur, val := none }]))
      ∧ u.me.pend = c.pend ++ [{ dst := .hoq (hoqOf rd) s.nextId, val := (rdX s rs1 / rdX s rs2).toNat }] := by
  have hp : poppedBy c [rs1, rs2] = [] := poppedBy_nil (by simp [h1, h2])
  have hv : [rs1, rs2].any (unreadyAt c t) = false := by simp [unreadyAt, h1, h2]
  have hf : fullAt c t [rs1, rs2] rd = false := by simp [fullAt, h1, h2, hd, b2n, hlen]
  have hx : exec (.divu rd rs1 rs2) s = divide opDivu false rd rs1 rs2 s := rfl
  unfold divide at hx
  have hgo := h.goes ht (rs := [rs1, rs2]) hx hv hf
  rw [hp] at hgo
  simp only [List.foldl_nil, h.getX_begun 4 h1, h.getX_begun 4 h2, Bool.false_eq_true, if_false, beq_eq_false_iff_ne.mpr hz, Bool.false_and] at hgo
  rw [show opDivu (rdX s rs1) (rdX s rs2) = rdX s rs1 / rdX s rs2 from (divU_eq _ _).trans (if_neg hz)] at hgo
  obtain ⟨hkept, hgang, hxs, hpend⟩ := ((h.begun 4).defer_mapped h.run h.pushed ht hd (rdX s rs1 / rdX s rs2).toNat).finish 4
  exact ⟨_, hgo, hkept, hxs, congrArg Gang.hoq hgang, hpend⟩

/-- A gang that has not bound its queues binds them at its first push or pop. -/
theorem bind (hn : g.hoq = none) (len : Nat) :
    Serves s (bindQueues (Sys2Proof.begun s len)) { c with ilen := len } { g with hoq := some g.hoqSaved, hoqSaved := [] }
      ∧ (bindQueues (Sys2Proof.begun s len)).nextId = s.nextId := by
  have hb := h.begun len
  rw [bindQueues, hb.myGang, hn]
  exact ⟨hb.modGang fun g => { g with hoq := some g.hoqSaved, hoqSaved := [] }, rfl⟩

/-- The first push of a gang waits for the core's buffers, then for room. -/
theorem operands_unbound (hn : g.hoq = none) (len : Nat) {r rd : Reg} (hm : mapped c r = false) (hd : mapped c rd = true) :
    operands (Sys2Proof.begun s len) [.x r] [.x rd] =
      if boundBuffers s g.core + popcount g.hdr.hoq 4 > 4 then .error (.park (Sys2Proof.begun s len) .hoq)
      else if (handoffOf g.hoqSaved rd).length ≥ 16 then .error (.park (bindQueues (Sys2Proof.begun s len)) .hoq)
      else .ok (bindQueues (Sys2Proof.begun s len)) := by
  have hb := h.begun len
  have hpop : Machine.popQueues (Sys2Proof.begun s len) [.x r] = [] := by
    rw [show [Dst.x r] = [r].map .x from rfl, h.popQueues]
    exact poppedBy_nil (by simp [hm])
  have hstop : Machine.stopsAt (Sys2Proof.begun s len) [.x r] (.x r) = false := by
    have hfull : isEmpty (Sys2Proof.begun s len).me (.x r) = false := by rw [hb.me]; exact h.full (.x r)
    rw [Machine.stopsAt, hfull, emptyQueue, hpop]
    simp
  have hroom : Machine.hoqEntries (bindQueues (Sys2Proof.begun s len)) (hoqOf rd) = handoffOf g.hoqSaved rd := by
    rw [Machine.hoqEntries, (h.bind hn len).1.myGang]
    rfl
  rw [operands_queues (by rw [List.find?_cons, hstop]; rfl) (h.no_waits len _), hpop, h.pushQueues, if_pos hd, queueOperands, hb.myGang, hn]
  have hbound : boundBuffers (Sys2Proof.begun s len) g.core = boundBuffers s g.core := rfl
  simp [hroom, b2n, hbound]

/-- The first push of a gang parks the cell where too few of the core's buffers are free, and binds them otherwise. -/
theorem addi_unbound (hn : g.hoq = none) {rd rs1 : Reg} (imm : BitVec 12) (hm : mapped c rs1 = false) (hd : mapped c rd = true) :
    (4 < boundBuffers s g.core + popcount g.hdr.hoq 4 → exec (.addi rd rs1 imm) s = .next (waiting (Sys2Proof.begun s 4) .hoq))
    ∧ (boundBuffers s g.core + popcount g.hdr.hoq 4 ≤ 4 → (handoffOf g.hoqSaved rd).length < 16 →
      ∃ u, exec (.addi rd rs1 imm) s = .next u ∧ Kept s c u ∧ u.me.x = c.x ∧ u.myGang.hoqSaved = []
        ∧ u.myGang.hoq = some (Tab.put g.hoqSaved (hoqOf rd)
            (handoffOf g.hoqSaved rd ++ [{ id := s.nextId, by_ := s.cur, val := some (rdX s rs1 + imm.signExtend 64) }]))) := by
  have hx : exec (.addi rd rs1 imm) s = issue 4 noEarlyCheck [.x rs1] [.x rd] (fun u => .ok (setX u rd (opAdd (getX u rs1) (imm.signExtend 64)))) s := rfl
  have ho := h.operands_unbound hn 4 hm hd
  refine ⟨fun hneed => ?_, fun hneed hlen => ?_⟩
  · rw [if_pos hneed] at ho
    exact hx.trans (issue_stopped h.canIssue rfl ho _)
  · rw [if_neg (by omega), if_neg (by omega)] at ho
    have hgo := hx.trans (issue_operands h.canIssue rfl ho _)
    obtain ⟨hb, hid⟩ := h.bind hn 4
    have hval : getX (bindQueues (Sys2Proof.begun s 4)) rs1 = rdX s rs1 := hb.getX_unmapped (me_of_find h.cell ▸ rfl) h.early hm
    obtain ⟨hkept, hgang, hxs, -⟩ := (hb.setX_mapped h.run h.pushed rfl hd (rdX s rs1 + imm.signExtend 64)).finish 4
    rw [hval] at hgo
    rw [hid] at hgang
    exact ⟨_, hgo, hkept, hxs, congrArg Gang.hoqSaved hgang, congrArg Gang.hoq hgang⟩

end QueueReady

/-- A result that arrives for a queue fills the entry that it had reserved. -/
theorem writtenBack_hoq {k i q id : Nat} {c : Cell} {p : PendW} {t : Tab (List HoqEntry)} (hc : Tab.find s.cells k = some c) (hd : p.dst = .hoq q id)
    (hg : (Tab.find s.gangs c.gang).isSome = true) (ht : (s.gang c.gang).hoq = some t) :
    ((writtenBack s k i p).gang c.gang).hoq
      = some (Tab.put t q ((Tab.getD t q []).map fun e => if e.id = id then { e with val := some (BitVec.ofNat 64 p.val) } else e)) := by
  obtain ⟨g, hg⟩ := Option.isSome_iff_exists.mp hg
  have hs : s.gang c.gang = g := congrArg (·.getD Gang.empty) hg
  have hcell : ((s.modCell k fun c => { c with pend := dropAt c.pend i }).cell k).gang = c.gang := by rw [cell_of_find (find_modCell_self hc _)]
  rw [hs] at ht
  unfold writtenBack writeBack
  rw [hd]
  dsimp only
  rw [hcell]
  show (Tab.getD (Tab.adjust s.gangs c.gang _) c.gang Gang.empty).hoq = _
  rw [Tab.getD, Tab.find_adjust_self, hg]
  simp [ht]

/-- Settles O21: `Gated` for registers, `QueueReady` for queues, and `writtenBack_hoq` for a result that comes later. -/
theorem handoffQueues : Obligations.HandoffQueues := by
  unfold Obligations.HandoffQueues
  refine ⟨?_, ?_, ?_⟩
  · intro s rd rs1 rs2 rs3 imm imm16 up aq rl sc cond ix i4 p t rm hi hq hm c empty stops file group gate scalars floats longs
    have hnot : ∀ r, mapped c r = false := not_mapped hq
    have hempty : empty = isEmpty c := by
      funext d
      cases d <;> simp [empty, isEmpty, hnot]
    have hstops (d : Dst) : stops d = (isEmpty c d && trapBit c d) := by
      cases d <;> simp [stops, hempty, trapBit, bit_getLsbD, isEmpty]
    have hfile (d : Dst) : feVal d = BitVec.ofNat 64 (file d) := by cases d <;> rfl
    have hgate {e : Instr × Nat × List Dst × List Dst} (h : Gated s e.1 e.2.1 e.2.2.1 e.2.2.2) : gate e := by
      obtain ⟨hstop, hwait⟩ := h
      refine ⟨fun before d rest hs hb hd => ?_, fun hs => ?_⟩
      · rw [hstops] at hd
        rw [← hfile d]
        exact hstop before d rest hs (fun x hx => (hstops x).symm.trans (hb x hx)) hd
      · rw [hempty]
        exact hwait fun d hd => (hstops d).symm.trans (hs d hd)
    refine ⟨fun e he => hgate ?_, fun hd h1 h2 => ?_⟩
    · rcases List.mem_append.mp he with he | he
      · rcases List.mem_append.mp he with he | he
        · exact gated_scalars hi hq rd rs1 rs2 imm up aq rl e he
        · exact gated_floats hi hq rd rs1 rs2 rs3 hm e he
      · exact gated_longs hi hq rd rs1 rs2 rs3 aq rl sc cond i4 t e he
    · have hv := gated_vectors hi hq rd rs1 rs2 imm16 ix p t hd h1 h2
      simp only [groupDst_v] at hv
      obtain ⟨hadd, hld, hst, hout, hin⟩ := hv
      exact ⟨hgate hadd, hgate hld, hgate hst, hgate hout, hgate hin⟩
  · intro s c rd rs1 rs2 imm hc hcalm hsome m q trapsAt same park entry
    obtain ⟨g, hg⟩ := Option.isSome_iff_exists.mp hsome
    have h : QueueReady s c g := .of_calm hc hcalm hg
    have hmine : s.myGang = g := Serves.myGang ⟨rfl, rfl, hc, hg⟩
    rw [hmine]
    refine ⟨fun t ht => ?_, fun hn hm hd => h.addi_unbound hn imm hm hd⟩
    intro queue value does
    have hdoes {i : Instr} {rs : List Reg} {v : Word} {body : State → Res} (hx : exec i s = issue 4 noEarlyCheck (rs.map .x) [.x rd] body s)
        (hbody : ∀ u, (∀ r ∈ rs, getX u r = sourceValue s c t r) → body u = .ok (setX u rd v)) : does i rs v := by
      refine ⟨fun before r rest hs hb hr => h.trap ht hx hs hb hr, fun hb hw => h.park ht hx (fun r hr => ?_) hw, fun hv hf => h.writes ht hx hbody hv hf⟩
      exact Bool.not_eq_eq_eq_not.mp (List.all_eq_true.mp hb r hr)
    refine ⟨hdoes (rs := [rs1, rs2]) (body := fun u => .ok (setX u rd (opAdd (getX u rs1) (getX u rs2)))) rfl fun u hu => ?_,
      hdoes (rs := [rs1]) (body := fun u => .ok (setX u rd (opAdd (getX u rs1) (imm.signExtend 64)))) rfl fun u hu => ?_,
      fun h1 h2 hd hlen hz => h.divu ht h1 h2 hd hlen hz⟩
    · rw [hu rs1 (by simp), hu rs2 (by simp)]
      rfl
    · rw [hu rs1 (by simp)]
      rfl
  · intro s k i q id c p t hc hp hd hg ht
    exact ⟨_, execFeWriteback_eq hc hp, writtenBack_hoq hc hd hg ht⟩

end Sys2Proof.Machine
end
section
/-! What does not write memory: one lemma for each operation of the model that leaves the bytes as they are (spec 07 R159). -/

open Sys2Proof Sys2Proof.Machine

namespace Sys2Proof.Machine

@[simp] theorem State.mem_ite (c : Prop) [Decidable c] (a b : State) : (if c then a else b).mem = if c then a.mem else b.mem := apply_ite ..

theorem foldl_keeps {α β : Type} {P : β → Prop} {f : β → α → β} (hf : ∀ b a, P b → P (f b a)) (l : List α) {b : β} (h : P b) : P (l.foldl f b) :=
  List.foldlRecOn l f h fun b hb a _ => hf b a hb

theorem foldl_mem {α : Type} {f : State → α → State} (hf : ∀ s a, (f s a).mem = s.mem) (l : List α) (s : State) : (l.foldl f s).mem = s.mem :=
  foldl_keeps (P := fun t => t.mem = s.mem) (fun t a h => (hf t a).trans h) l rfl

theorem foldN_mem {f : State → Nat → State} (hf : ∀ s i, (f s i).mem = s.mem) (n : Nat) (s : State) : (foldN n f s).mem = s.mem :=
  foldl_mem hf _ s

theorem foldl_fst_mem {α β : Type} {f : State × β → α → State × β} (hf : ∀ a x, (f a x).1.mem = a.1.mem) (l : List α) (a : State × β) :
    (l.foldl f a).1.mem = a.1.mem :=
  foldl_keeps (P := fun b => b.1.mem = a.1.mem) (fun b x h => (hf b x).trans h) l rfl

theorem ite_mem {c : Prop} [Decidable c] {a b : State} {m : List Host.Cell} (ha : a.mem = m) (hb : b.mem = m) : (if c then a else b).mem = m := by
  split <;> assumption

theorem fst_mem {α : Type} {r : State × α} {u : State} {x : α} {m : List Host.Cell} (e : r = (u, x)) (h : r.1.mem = m) : u.mem = m := by
  subst e
  exact h

theorem pair_mem {α β : Type} {r : State × α} {m : List Host.Cell} (h : r.1.mem = m) (x : β) : (r.1, x).1.mem = m := h

section
variable (s : State)

/-! ### Mem -/

@[simp] theorem State.msix_mem (f vec) : (State.msix s f vec).mem = s.mem := by unfold State.msix; split <;> rfl
@[simp] theorem State.readBy_mem (c key n) : (State.readBy s c key n).1.mem = s.mem := by simp [State.readBy]
@[simp] theorem State.orderAfter_mem (c sc l) : (State.orderAfter s c sc l).mem = s.mem := (rfl)
@[simp] theorem State.orderWrites_mem (c sc) : (State.orderWrites s c sc).mem = s.mem := (rfl)

/-! ### Trans -/

@[simp] theorem noteDie_mem (die asid dva) : (noteDie s die asid dva).mem = s.mem := by
  obtain ⟨_, _, _, h⟩ := noteDie_seen s die asid dva
  rw [h]
@[simp] theorem noteTlb_mem (hive asid dva) : (noteTlb s hive asid dva).mem = s.mem := by
  obtain ⟨_, _, _, _, h⟩ := noteTlb_seen s hive asid dva
  rw [h]
@[simp] theorem shootdown_mem (asid dva size) : (shootdown s asid dva size).mem = s.mem := (rfl)
@[simp] theorem dropLines_mem (asids inHive first last) : (dropLines s asids inHive first last).mem = s.mem := (rfl)

/-! ### Gangs -/

@[simp] theorem postReport_mem (kind code part cell kval crec cause tepc1 tepc2) : (postReport s kind code part cell kval crec cause tepc1 tepc2).mem = s.mem := by simp [postReport]
@[simp] theorem refusalReport_mem (part pa crec) : (refusalReport s part pa crec).mem = s.mem := postReport_mem ..
@[simp] theorem finishCell_mem (c npc) : (finishCell s c npc).mem = s.mem := (rfl)
@[simp] theorem pushFront_mem (g c q v) : (pushFront s g c q v).mem = s.mem := (rfl)
@[simp] theorem unreserve_mem (c) : (unreserve s c).mem = s.mem := by simp [unreserve]
@[simp] theorem unlatch_mem (c) : (unlatch s c).mem = s.mem := by simp [unlatch, foldl_mem (fun _ _ => pushFront_mem ..)]
@[simp] theorem abandonFaults_mem (c) : (abandonFaults s c).mem = s.mem := (rfl)
@[simp] theorem landParked_mem (c) : (landParked s c).mem = s.mem := by
  unfold landParked
  dsimp only
  repeat' split
  all_goals simp
@[simp] theorem parkCell_mem (c w) : (parkCell s c w).mem = s.mem := by simp [parkCell]
@[simp] theorem orderGang_mem (gid) : (orderGang s gid).mem = s.mem := by
  unfold orderGang
  repeat' split
  all_goals simp [foldl_mem]
@[simp] theorem orderPreempt_mem (gid) : (orderPreempt s gid).mem = s.mem := by
  unfold orderPreempt
  dsimp only
  repeat' split
  all_goals simp [foldl_mem]
@[simp] theorem orderAll_mem (p) : (orderAll s p).mem = s.mem := by simp [orderAll, foldl_mem]
@[simp] theorem orderPart_mem (n) : (orderPart s n).mem = s.mem := by simp [orderPart]
@[simp] theorem quiesceFor_mem (p) : (quiesceFor s p).mem = s.mem := by simp [quiesceFor]
@[simp] theorem quiesceOf_mem (parts) : (quiesceOf s parts).mem = s.mem := by simp [quiesceOf, foldl_mem]
@[simp] theorem barRelease_mem (gj level) : (barRelease s gj level).mem = s.mem := by
  unfold barRelease
  dsimp only
  repeat' split
  all_goals simp
@[simp] theorem barCheck_mem (level key) : (barCheck s level key).mem = s.mem := by
  unfold barCheck
  repeat' split
  all_goals simp [foldl_mem]
@[simp] theorem barArrive_mem (level key gj) : (barArrive s level key gj).mem = s.mem := by unfold barArrive; split <;> rfl
@[simp] theorem barWithdraw_mem (gj) : (barWithdraw s gj).mem = s.mem := (rfl)
@[simp] theorem barLeave_mem (gid) : (barLeave s gid).mem = s.mem := (rfl)
@[simp] theorem barDepart_mem (gid) : (barDepart s gid).mem = s.mem := by simp [barDepart]
@[simp] theorem dropLease_mem (gid goes) : (dropLease s gid goes).mem = s.mem := (rfl)
@[simp] theorem groupCheck_mem (grp) : (groupCheck s grp).mem = s.mem := by unfold groupCheck; split <;> rfl
@[simp] theorem freedPart_mem (gid slots units tiles) : (freedPart s gid slots units tiles).mem = s.mem := by simp [freedPart]
@[simp] theorem settlePosts_mem (gid) : (settlePosts s gid).mem = s.mem := (rfl)
@[simp] theorem killGang_mem (gid code val cell cause tepc1 tepc2) : (killGang s gid code val cell cause tepc1 tepc2).mem = s.mem := by simp [killGang]
@[simp] theorem killPlain_mem (gid code val cell) : (killPlain s gid code val cell).mem = s.mem := by simp [killPlain]
@[simp] theorem retireGang_mem (gid) : (retireGang s gid).mem = s.mem := by simp [retireGang]

/-! ### Ops -/

@[simp] theorem takeTrap_mem (cid t) : (takeTrap s cid t).mem = s.mem := by simp [takeTrap]
@[simp] theorem pendAsync_mem (cid a) : (pendAsync s cid a).mem = s.mem := (rfl)
@[simp] theorem hoqPush_mem (q v) : (hoqPush s q v).mem = s.mem := (rfl)
@[simp] theorem pushEntry_mem (q) : (pushEntry s q).1.mem = s.mem := by unfold pushEntry; split <;> rfl
@[simp] theorem reserveAll_mem (qs) : (reserveAll s qs).mem = s.mem := by
  unfold reserveAll
  exact foldl_mem (fun _ _ => (State.modMe_mem ..).trans (hoqPush_mem ..)) ..
@[simp] theorem pushValue_mem (q v) : (pushValue s q v).mem = s.mem := by unfold pushValue; split <;> rfl
@[simp] theorem setX_mem (r v) : (setX s r v).mem = s.mem := by simp [setX]
@[simp] theorem setF_mem (r v) : (setF s r v).mem = s.mem := (rfl)
@[simp] theorem setV_mem (r v) : (setV s r v).mem = s.mem := (rfl)
@[simp] theorem setM_mem (r v) : (setM s r v).mem = s.mem := (rfl)
@[simp] theorem setXLate_mem (r v turns) : (setXLate s r v turns).mem = s.mem := by simp [setXLate]
@[simp] theorem setFLate_mem (r v turns) : (setFLate s r v turns).mem = s.mem := (rfl)
@[simp] theorem setVLate_mem (r v turns) : (setVLate s r v turns).mem = s.mem := (rfl)
@[simp] theorem defer_mem (d v) : (defer s d v).mem = s.mem := by
  unfold defer
  dsimp only
  repeat' split
  all_goals simp
@[simp] theorem reserve_mem (d) : (reserve s d).1.mem = s.mem := by
  unfold reserve
  dsimp only
  repeat' split
  all_goals simp
@[simp] theorem hoqPop_mem (q) : (hoqPop s q).mem = s.mem := by unfold hoqPop; split <;> rfl
@[simp] theorem turnPassed_mem : (turnPassed s).mem = s.mem := by simp [turnPassed]
@[simp] theorem killFor_mem (gid code val cell) : (killFor s gid code val cell).mem = s.mem := by simp [killFor]
@[simp] theorem setLimit_mem (ns tval) : (setLimit s ns tval).mem = s.mem := (rfl)
@[simp] theorem postFault_mem (cid asid kind dva flags stride) : (postFault s cid asid kind dva flags stride).1.mem = s.mem := (rfl)
@[simp] theorem poolEntry_mem (hive asid at_) : (poolEntry s hive asid at_).1.mem = s.mem := by
  unfold poolEntry
  dsimp only
  repeat' split
  all_goals simp
@[simp] theorem poolTake_mem (hive b) : ∀ n j bad, (poolTake s hive b j n bad).1.mem = s.mem := by
  intro n
  induction n generalizing s with
  | zero => exact fun _ _ => rfl
  | succ n ih =>
    intro j bad
    unfold poolTake
    have he := poolEntry_mem s hive b.asid (leNat ((b.desc.drop 0x28).take 8) + 8 * j)
    split
    · exact ih ..
    · split <;> simp_all
@[simp] theorem cowBegin_mem (gid asid dva leafAt) : (cowBegin s gid asid dva leafAt).1.mem = s.mem := by
  unfold cowBegin
  dsimp only
  repeat' split
  all_goals simp
@[simp] theorem translated_mem (dva) : (translated s dva).mem = s.mem := by simp [translated]
@[simp] theorem faultPastOf_mem (cid dva) : (faultPastOf s cid dva).mem = s.mem := by unfold faultPastOf; split <;> rfl
@[simp] theorem faultPast_mem (dva) : (faultPast s dva).mem = s.mem := by simp [faultPast]
@[simp] theorem wakePerformed_mem (cid) : (wakePerformed s cid).mem = s.mem := by unfold wakePerformed; split <;> rfl
@[simp] theorem sendPost_mem (p o) : (sendPost s p o).mem = s.mem := by unfold sendPost; split <;> rfl
@[simp] theorem postTo_mem (home pa ea op y) : (postTo s home pa ea op y).mem = s.mem := rfl
@[simp] theorem post_mem (pa ea op y) : (post s pa ea op y).mem = s.mem := rfl
@[simp] theorem sendRemote_mem (key ea op posted y) : (sendRemote s key ea op posted y).1.mem = s.mem := rfl
@[simp] theorem getWords_mem (key n) : (getWords s key n).mem = s.mem := by simp [getWords, foldl_mem]

/-! ### Access -/

@[simp] theorem fenceOrders_mem (r w nr nw sc) : (fenceOrders r w nr nw sc s).mem = s.mem := by simp [fenceOrders]
@[simp] theorem holdGranule_mem (c key dva) : (holdGranule s c key dva).mem = s.mem := (rfl)
@[simp] theorem lrRead_scoped_mem (c aq k n sc) : (lrRead s c aq k n sc).mem = s.mem := by
  unfold lrRead
  split
  · exact acquire_mem ..
  · exact noteRead_mem ..
@[simp] theorem scAcquire_mem (c aq) : (scAcquire s c aq).mem = s.mem := by unfold scAcquire; split <;> rfl

/-! ### Remote -/

@[simp] theorem feServe_mem (key) : ∀ fuel, (feServe s key fuel).mem = s.mem := by
  intro fuel
  induction fuel generalizing s with
  | zero => rfl
  | succ fuel ih =>
    unfold feServe
    split
    · split
      · dsimp only
        split <;> simp [ih]
      · rfl
    · rfl
@[simp] theorem feSatisfy_mem (key) : (feSatisfy s key).mem = s.mem := feServe_mem s key _
@[simp] theorem ldfeAt_mem (who key keep) : (ldfeAt s who key keep).1.mem = s.mem := by simp [ldfeAt]
@[simp] theorem fesetAt_mem (who key full) : (fesetAt s who key full).mem = s.mem := by simp [fesetAt]
@[simp] theorem trapParked_mem (cid cause tval) : (trapParked s cid cause tval).mem = s.mem := by simp [trapParked]
@[simp] theorem limitTrap_mem (cid) : (limitTrap s cid).mem = s.mem := by
  unfold limitTrap
  dsimp only
  repeat' split
  all_goals simp
@[simp] theorem limitIn_mem (cid p) : (limitIn s cid p).mem = s.mem := by
  unfold limitIn
  repeat' split
  all_goals simp
@[simp] theorem stationError_mem (station) : (stationError s station).mem = s.mem := by unfold stationError; split <;> rfl
@[simp] theorem stationTimeout_mem (station) : (stationTimeout s station).mem = s.mem := by unfold stationTimeout; split <;> rfl
@[simp] theorem postedError_mem (cell station dva) : (postedError s cell station dva).mem = s.mem := by
  unfold postedError
  repeat' split
  all_goals simp

/-! ### Copies -/

@[simp] theorem tagUnits_mem (key n tag) : (tagUnits s key n tag).mem = s.mem := by
  unfold tagUnits
  dsimp only
  split
  · exact foldl_mem (by intros; rfl) ..
  · rfl
@[simp] theorem noteRows_mem (c lo hi stop) : (noteRows s c lo hi stop).mem = s.mem := by simp [noteRows, foldl_mem]
@[simp] theorem setCopy_mem (core c) : (setCopy s core c).mem = s.mem := (rfl)
@[simp] theorem dropCopy_mem (core c) : (dropCopy s core c).mem = s.mem := (rfl)
@[simp] theorem parkCopy_mem (core c kind dva flags cow) : (parkCopy s core c kind dva flags cow).mem = s.mem := by
  unfold parkCopy
  dsimp only
  repeat' split
  all_goals simp
@[simp] theorem deliverWaggle_mem (target w) : (deliverWaggle s target w).mem = s.mem := (rfl)
@[simp] theorem noteAction_mem (core c) : (noteAction s core c).mem = s.mem := by simp [noteAction]

/-! ### Fpu -/

@[simp] theorem raiseFlags_mem (fl) : (raiseFlags s fl).mem = s.mem := (rfl)

/-! ### Vec -/

@[simp] theorem setGroup_mem (g r v) : (setGroup s g r v).mem = s.mem := foldN_mem (fun _ _ => by simp) _ s
@[simp] theorem fly_mem (q n w old xa xb xc) : (fly s q n w old xa xb xc).mem = s.mem := (rfl)
@[simp] theorem tmaxUp_mem (gid i v) : (tmaxUp s gid i v).mem = s.mem := (rfl)

/-! ### VecMem -/

@[simp] theorem startElem_mem : (startElem s).1.mem = s.mem := by
  unfold startElem
  dsimp only
  repeat' split
  all_goals simp
@[simp] theorem beginAccess_mem (q n xa xb) : (beginAccess s q n xa xb).mem = s.mem := (rfl)
@[simp] theorem flyAccess_mem (w waits) : (flyAccess s w waits).mem = s.mem := by unfold flyAccess; split <;> rfl
@[simp] theorem fillGroup_mem (g d w els) : (fillGroup s g d w els).mem = s.mem := by simp [fillGroup, foldl_mem]
@[simp] theorem dupMask_mem (m b p t) : (dupMask s m b p t).mem = s.mem := (rfl)
@[simp] theorem setLen_mem (t n) : (setLen s t n).mem = s.mem := (rfl)

/-! ### Mat -/

@[simp] theorem occupy_mem (core gid) : (occupy s core gid).mem = s.mem := (rfl)
@[simp] theorem blockRefused_mem (gid pa) : (blockRefused s gid pa).mem = s.mem := by simp [blockRefused]
@[simp] theorem wakeLease_mem (gid) : (wakeLease s gid).mem = s.mem := (rfl)
@[simp] theorem useUnit_mem (counts) : (useUnit s counts).mem = s.mem := (rfl)
@[simp] theorem loadUnit_mem (tile key) : (loadUnit s tile key).mem = s.mem := (rfl)
@[simp] theorem writeTile_mem (core gid tile l) : (writeTile s core gid tile l).mem = s.mem := (rfl)
@[simp] theorem clearResume_mem (hit) : (clearResume s hit).mem = s.mem := by unfold clearResume; split <;> rfl
@[simp] theorem flagCell_mem (cid f) : (flagCell s cid f).mem = s.mem := (rfl)
@[simp] theorem runMopa_mem (core upto u r) : (runMopa s core upto u r).1.mem = s.mem := (rfl)
@[simp] theorem startMopa_mem (core cid gid r row ocs) : (startMopa s core cid gid r row ocs).mem = s.mem := (rfl)
@[simp] theorem matrixTrap_mem (cid cause pc step row tval) : (matrixTrap s cid cause pc step row tval).mem = s.mem := by simp [matrixTrap]
@[simp] theorem heldTrap_mem (cid pc step row f) : (heldTrap s cid pc step row f).mem = s.mem := by simp [heldTrap]

/-! ### Matrix -/

@[simp] theorem freeHeld_mem (cid) : (freeHeld s cid).mem = s.mem := by simp [freeHeld]
@[simp] theorem freeGang_mem (gid but) : (freeGang s gid but).mem = s.mem := by simp [freeGang, foldl_mem]
@[simp] theorem reloadWord_mem (core u tile key i) : (reloadWord core u tile key s i).mem = s.mem := by
  unfold reloadWord
  dsimp only
  repeat' split
  all_goals simp
@[simp] theorem endLoad_mem (core u) : (endLoad s core u).mem = s.mem := by
  unfold endLoad
  repeat' split
  all_goals simp [foldl_mem]
@[simp] theorem recordDenied_mem (gid cid r) : (recordDenied s gid cid r).mem = s.mem := by simp [recordDenied]
@[simp] theorem recordKey_mem (gid cid r) : (recordKey s gid cid r).1.mem = s.mem := by
  unfold recordKey
  dsimp only
  split
  · rfl
  split
  · rfl
  split
  case h_5 leafAt _ =>
    split
    · next h => exact fst_mem h (by simp)
    · next h => simpa using fst_mem h (by simp)
  all_goals repeat' split
  all_goals simp
@[simp] theorem releaseLease_mem (discard) : (releaseLease s discard).mem = s.mem := by unfold releaseLease; split <;> rfl
@[simp] theorem loadTile_mem (key) : (loadTile s key).1.mem = s.mem := by
  unfold loadTile
  generalize List.range 4096 = words
  split
  · rfl
  · exact pair_mem (foldl_fst_mem (by intros; exact State.readBy_mem ..) ..) _

/-! ### Sync -/

@[simp] theorem holdCopies_mem : (holdCopies s).mem = s.mem := (rfl)
@[simp] theorem wgServe_mem (target) : (wgServe s target).mem = s.mem := by
  unfold wgServe
  dsimp only
  repeat' split
  all_goals simp

/-! ### Unit -/

@[simp] theorem noteUnit_mem (die asid dva n kind) : (noteUnit s die asid dva n kind).mem = s.mem := by
  unfold noteUnit
  repeat' split
  all_goals simp [foldl_mem]
@[simp] theorem dropWrite_mem (c dva e) : (dropWrite s c dva e).mem = s.mem := by
  unfold dropWrite
  dsimp only
  repeat' split
  all_goals simp
@[simp] theorem State.modObj_mem (h f) : (State.modObj s h f).mem = s.mem := (rfl)
@[simp] theorem takeRef_mem (lid entry) : (takeRef s lid entry).mem = s.mem := by
  unfold takeRef
  dsimp only
  repeat' split
  all_goals simp

/-! ### Assign -/

@[simp] theorem dealGroup_mem (lid part die num dieGroup h) : (dealGroup s lid part die num dieGroup h).mem = s.mem := by unfold dealGroup; split <;> rfl
@[simp] theorem dealAll_mem (lid part die h) : (dealAll s lid part die h).mem = s.mem := by simp [dealAll, foldl_mem]
@[simp] theorem takeLaunch_mem (part queue asid seq h psig irq sib) : (takeLaunch s part queue asid seq h psig irq sib).1.mem = s.mem := by
  unfold takeLaunch
  dsimp only
  repeat' split
  all_goals simp

/-! ### BroodUnit -/

@[simp] theorem broodRelease_mem (h) : (broodRelease s h).mem = s.mem := by
  unfold broodRelease
  dsimp only
  repeat' split
  all_goals simp
@[simp] theorem broodDone_mem (h) : (broodDone s h).mem = s.mem := by simp [broodDone]
@[simp] theorem discardUnplaced_mem (lid h) : (discardUnplaced s lid h).mem = s.mem := by unfold discardUnplaced; split <;> rfl
@[simp] theorem killLaunch_mem (lid code val) : (killLaunch s lid code val).mem = s.mem := by simp [killLaunch, foldl_mem]

/-! ### Retire -/

@[simp] theorem takeAsync_mem (cid) : (takeAsync s cid).mem = s.mem := by
  unfold takeAsync
  dsimp only
  repeat' split
  all_goals simp
@[simp] theorem countItem_mem : (countItem s).mem = s.mem := (rfl)
@[simp] theorem restart_mem (wid) : (restart s wid).mem = s.mem := (rfl)
@[simp] theorem haltCell_mem : (haltCell s).mem = s.mem := (rfl)
@[simp] theorem heirTiles_mem (gid d h) : (heirTiles s gid d h).mem = s.mem := by simp [heirTiles]

/-! ### Landing -/

@[simp] theorem undo_mem (v n) : (undo s v n).mem = s.mem := (rfl)
@[simp] theorem stopVec_mem (cid stops) : (stopVec s cid stops).mem = s.mem := by
  unfold stopVec
  dsimp only
  split
  · rfl
  · exact (foldl_mem (fun _ _ => undo_mem ..) ..).trans rfl
@[simp] theorem stopMopa_mem (gid upto) : (stopMopa s gid upto).mem = s.mem := by
  unfold stopMopa
  dsimp only
  split
  · split
    · split
      · rfl
      · split
        · next h => simp [fst_mem h (runMopa_mem ..)]
        · next h => split <;> simp [fst_mem h (runMopa_mem ..)]
    · rfl
  · rfl
@[simp] theorem forceCell_mem (cid stops step) : (forceCell s cid stops step).mem = s.mem := by simp [forceCell]
@[simp] theorem recordTrap_mem (cause tval vrec) : (recordTrap s cause tval vrec).mem = s.mem := by simp [recordTrap]

/-! ### Barrel -/

@[simp] theorem rotate_mem (core) : (rotate s core).mem = s.mem := (rfl)
@[simp] theorem takeTurn_mem (core slot) : (takeTurn s core slot).mem = s.mem := (rfl)
@[simp] theorem wakeFull_mem (cell) : (wakeFull s cell).mem = s.mem := (rfl)
@[simp] theorem countTurn_mem : (countTurn s).mem = s.mem := by unfold countTurn; split <;> rfl
@[simp] theorem vecReleased_mem (cell) : (vecReleased s cell).mem = s.mem := by
  unfold vecReleased
  repeat' split
  all_goals simp

/-! ### Mgmt -/

@[simp] theorem rejectM_mem (off) : (rejectM s off).mem = s.mem := (rfl)
@[simp] theorem partSet_mem (n v) : (partSet s n v).mem = s.mem := by
  unfold partSet
  dsimp only
  split
  · exact rejectM_mem ..
  · refine (State.setMreg_mem ..).trans ?_
    split
    · rfl
    · exact foldl_mem (fun _ _ => State.modDie_mem ..) ..
@[simp] theorem hmoveGo_mem (v) : (hmoveGo s v).mem = s.mem := by
  unfold hmoveGo
  refine ite_mem (rejectM_mem ..) (ite_mem (State.setMreg_mem ..) ?_)
  exact (orderAll_mem ..).trans ((State.modHive_mem ..).trans (State.setMreg_mem ..))
@[simp] theorem hmoveWrite_mem (v) : (hmoveWrite s v).mem = s.mem := by simp [hmoveWrite]
@[simp] theorem regroupHive_mem (grp k) : (regroupHive s grp k).mem = s.mem := by
  unfold regroupHive
  split
  · rfl
  · dsimp only
    split <;> rfl
@[simp] theorem ckptGo_mem (v) : (ckptGo s v).mem = s.mem := by
  unfold ckptGo
  repeat' split
  all_goals simp [foldl_mem]
@[simp] theorem resumePart_mem (n) : (resumePart s n).mem = s.mem := by unfold resumePart; split <;> rfl
@[simp] theorem ckptRes_mem (v) : (ckptRes s v).mem = s.mem := by simp [ckptRes, foldl_mem]
@[simp] theorem ckptWrite_mem (v) : (ckptWrite s v).mem = s.mem := by simp [ckptWrite]
@[simp] theorem setCkq_mem (n) : (setCkq s n).mem = s.mem := (rfl)
@[simp] theorem faultQuiesced_mem (n) : (faultQuiesced s n).mem = s.mem := by simp [faultQuiesced]
@[simp] theorem ckctlGo_mem (v) : (ckctlGo s v).mem = s.mem := by
  unfold ckctlGo
  exact ite_mem (rejectM_mem ..) ((State.setMreg_mem ..).trans (State.setMreg_mem ..))
@[simp] theorem ckctlWrite_mem (v) : (ckctlWrite s v).mem = s.mem := by simp [ckctlWrite]
@[simp] theorem ckptEnd_mem (res) : (ckptEnd s res).mem = s.mem := by
  unfold ckptEnd
  exact ite_mem ((State.msix_mem ..).trans (State.setMreg_mem ..)) (State.setMreg_mem ..)
@[simp] theorem pwrcapWrite_mem (v) : (pwrcapWrite s v).mem = s.mem := by unfold pwrcapWrite; split <;> rfl
@[simp] theorem plainReg_mem (off v ok) : (plainReg s off v ok).mem = s.mem := by unfold plainReg; split <;> rfl
theorem clearReg_mem (off v) {clear : State → State} (hc : ∀ u, (clear u).mem = u.mem) : (clearReg s off v clear).mem = s.mem :=
  ite_mem (hc s) (rejectM_mem ..)

@[simp] theorem clearReg_setMreg_mem (off v) : (clearReg s off v fun u => u.setMreg off 0).mem = s.mem := clearReg_mem _ _ _ fun _ => State.setMreg_mem ..
@[simp] theorem linkWrite_mem (off v) : (linkWrite s off v).mem = s.mem := by
  unfold linkWrite
  split
  case h_4 => exact rejectM_mem ..
  all_goals exact clearReg_mem _ _ _ fun _ => State.modLink_mem ..
@[simp] theorem stationWrite_mem (off v) : (stationWrite s off v).mem = s.mem := by
  unfold stationWrite
  split
  case h_4 => exact rejectM_mem ..
  all_goals exact clearReg_mem _ _ _ fun _ => State.modStation_mem ..

/-! ### Host -/

@[simp] theorem failAt_mem (die) : (failAt s die).mem = s.mem := (rfl)
@[simp] theorem memLanes_mem (f) : (memLanes s f).mem = s.mem := by simp [memLanes]
@[simp] theorem linksUp_mem : (linksUp s).mem = s.mem := by
  unfold linksUp
  exact foldl_mem (fun _ _ => State.modLink_mem ..) ..
@[simp] theorem spdmAnswer_mem (func ok req ask code d f) : (spdmAnswer s func ok req ask code d f).mem = s.mem := by simp [spdmAnswer]
@[simp] theorem rejectQ_mem (key) : (rejectQ s key).mem = s.mem := (rfl)
@[simp] theorem wakeQueue_mem (key) : (wakeQueue s key).mem = s.mem := (rfl)
@[simp] theorem qctlWrite_mem (part q v) : (qctlWrite s part q v).mem = s.mem := by simp [qctlWrite]
@[simp] theorem queueWrite_mem (part q r v) : (queueWrite s part q r v).mem = s.mem := by
  unfold queueWrite
  dsimp only
  repeat' split
  all_goals simp
@[simp] theorem rejectF_mem (func off) : (rejectF s func off).mem = s.mem := (rfl)
@[simp] theorem qctlOf_mem (func q v kind) : (qctlOf s func q v kind).mem = s.mem := by
  unfold qctlOf
  repeat' split
  all_goals simp
@[simp] theorem msixFlush_mem (func vec) : (msixFlush s func vec).mem = s.mem := by simp [msixFlush]
@[simp] theorem msixControl_mem (func on mask) : (msixControl s func on mask).mem = s.mem := by simp [msixControl, foldl_mem]
@[simp] theorem msixWrite_mem (func off size v) : (msixWrite s func off size v).mem = s.mem := by
  unfold msixWrite
  exact ite_mem rfl ((msixFlush_mem ..).trans (State.modFunc_mem ..))
@[simp] theorem ferrWrite_mem (func v) : (ferrWrite s func v).mem = s.mem := by simp [ferrWrite]
@[simp] theorem readRegister_mem (func off size) : (readRegister func off size s).mem = s.mem := by unfold readRegister; split <;> rfl
@[simp] theorem ringBell_mem (func q w) : (ringBell s func q w).mem = s.mem := by
  unfold ringBell
  repeat' split
  all_goals simp
@[simp] theorem hostFail_mem (func data) : (hostFail s func data).mem = s.mem := by unfold hostFail; split <;> rfl
@[simp] theorem dropHost_mem (id) : (dropHost s id).mem = s.mem := (rfl)

/-! ### Packets -/

@[simp] theorem haltQueue_mem (key code) : (haltQueue s key code).mem = s.mem := by simp [haltQueue]
@[simp] theorem packetStop_mem (key since e) : (packetStop s key since e).mem = s.mem := by
  unfold packetStop
  repeat' split
  all_goals simp
@[simp] theorem noteQueue_mem (key dva n kind) : (noteQueue s key dva n kind).mem = s.mem := noteUnit_mem ..
@[simp] theorem pastPacket_mem (key) : (pastPacket s key).mem = s.mem := (rfl)

/-! ### Pager -/

@[simp] theorem cowWake_mem (asid dva) : (cowWake s asid dva).mem = s.mem := (rfl)
@[simp] theorem heatRead_mem (region die) : (heatRead region die s).mem = s.mem := (rfl)
@[simp] theorem heatClear_mem (region die) : (heatClear region die s).mem = s.mem := (rfl)
@[simp] theorem wakeCell_mem (cid seq v) : (wakeCell s cid seq v).mem = s.mem := by
  unfold wakeCell
  dsimp only
  repeat' split
  all_goals simp

/-! ### Links -/

@[simp] theorem disableEnd_mem (e) : (disableEnd s e).mem = s.mem := by
  unfold disableEnd
  dsimp only
  repeat' split
  all_goals simp

/-! ### Errors -/

@[simp] theorem countErr_mem (die cls k) : (countErr s die cls k).mem = s.mem := (rfl)
@[simp] theorem retireLand_mem (gid done) : (retireLand s gid done).mem = s.mem := by
  unfold retireLand
  dsimp only
  repeat' split
  all_goals simp [foldl_mem]
@[simp] theorem orderHomeless_mem : (orderHomeless s).mem = s.mem := by simp [orderHomeless]
@[simp] theorem parityDrop_mem (die) : (parityDrop s die).mem = s.mem := by
  unfold parityDrop
  dsimp only
  repeat' split
  all_goals simp
@[simp] theorem errKill_mem (gid cell val) : (errKill s gid cell val).mem = s.mem := by
  unfold errKill
  repeat' split
  all_goals simp

/-! ### Place -/

@[simp] theorem broodRuns_mem (lid) : (broodRuns s lid).mem = s.mem := by unfold broodRuns; split <;> rfl
@[simp] theorem startGang_mem (grp r idx sp) : (startGang s grp r idx sp).mem = s.mem := (rfl)
@[simp] theorem startGroup_mem (grp spots) : (startGroup s grp spots).mem = s.mem := by
  unfold startGroup
  split
  · rfl
  · exact foldl_mem (fun _ _ => startGang_mem ..) ..
@[simp] theorem startGroups_mem (n) : ∀ (s : State) (gs : List Nat) (spots : List Spot), (startGroups n s gs spots).mem = s.mem
  | _, [], _ => rfl
  | s, g :: gs, spots => (startGroups_mem n _ gs _).trans (startGroup_mem s g _)
@[simp] theorem preemptFor_mem (i gs) : (preemptFor s i gs).mem = s.mem := by simp [preemptFor, foldl_mem]
@[simp] theorem countPlacement_mem (die part prio) : (countPlacement s die part prio).mem = s.mem := (rfl)
@[simp] theorem rehome_mem (grp) : (rehome s grp).mem = s.mem := by
  unfold rehome
  dsimp only
  repeat' split
  all_goals simp

end

end Sys2Proof.Machine
end
section
/-! What writes memory keeps its form: one lemma for each operation of the model that may write, from the lemmas of Laws/Memory
(spec 07 R159, R161). -/

open Sys2Proof Sys2Proof.Machine

namespace Sys2Proof.Machine

/-! ### Writes and what performs them keep the form

The lemmas of Laws/Memory on `memOk`, stated of the bytes themselves: `simp` then rewrites with the equations on what leaves the bytes. -/

section
variable {s : State}

@[simp] theorem poke_wf (h : Memory.wf s.mem = true) (k d) : Memory.wf (memPut s.mem k d) = true := memPut_wf h k d
@[simp] theorem scrub_wf (h : Memory.wf s.mem = true) (k n) : Memory.wf (s.scrub k n).mem = true := scrub_memOk h k n
@[simp] theorem write_wf (h : Memory.wf s.mem = true) (who hive k d) : Memory.wf (s.write who hive k d).mem = true := write_memOk h who hive k d
@[simp] theorem writeBlock_wf (h : Memory.wf s.mem = true) (k d) : Memory.wf (s.writeBlock k d).mem = true := writeBlock_memOk h k d
@[simp] theorem writeLong_wf (h : Memory.wf s.mem = true) (who hive k d) : Memory.wf (s.writeLong who hive k d).mem = true := writeLong_memOk h who hive k d
@[simp] theorem writeUnits_wf (h : Memory.wf s.mem = true) (who hive u ps turn) : Memory.wf (s.writeUnits who hive u ps turn).mem = true :=
  writeUnits_memOk h who hive u ps turn
@[simp] theorem amoSync_wf (h : Memory.wf s.mem = true) (who hive k op n src cmp acq rel sc) :
    Memory.wf (amoSync s who hive k op n src cmp acq rel sc).1.mem = true := amoSync_memOk h who hive k op n src cmp acq rel sc
@[simp] theorem performPost_wf (h : Memory.wf s.mem = true) (p) : Memory.wf (performPost s p).mem = true := performPost_memOk h p
@[simp] theorem performAll_wf (h : Memory.wf s.mem = true) (ps) : Memory.wf (performAll s ps).mem = true := performAll_memOk h ps
@[simp] theorem copyRange_wf (h : Memory.wf s.mem = true) (asid page src dst n) : Memory.wf (copyRange s asid page src dst n).mem = true :=
  copyRange_memOk h asid page src dst n

/-- A fold of steps that keep the form keeps it. -/
theorem foldl_wf {α : Type} {f : State → α → State} (hf : ∀ s a, Memory.wf s.mem = true → Memory.wf (f s a).mem = true) (l : List α) (h : Memory.wf s.mem = true) :
    Memory.wf (l.foldl f s).mem = true := foldl_memOk hf l h

theorem withObjects_mem (s : State) (objects : Tab Obj) : ({ s with objects }).mem = s.mem := rfl

theorem except_bind_ok {ε α β : Type} {x : Except ε α} {f : α → Except ε β} {b : β} (e : x >>= f = .ok b) : ∃ a, x = .ok a ∧ f a = .ok b := by
  cases x with
  | error => cases e
  | ok a => exact ⟨a, rfl, e⟩

theorem foldlM_ok {ε α : Type} {P : State → Prop} {f : State → α → Except ε State} (hf : ∀ s a t, P s → f s a = .ok t → P t) :
    ∀ (l : List α) {s t : State}, P s → l.foldlM f s = .ok t → P t
  | [], s, t, h, e => by cases e; exact h
  | a :: l, s, t, h, e => by
    rw [List.foldlM_cons] at e
    cases hu : f s a with
    | error => rw [hu] at e; cases e
    | ok u => rw [hu] at e; exact foldlM_ok hf l (hf s a u h hu) e

theorem fst_wf {α : Type} {r : State × α} {u : State} {x : α} (e : r = (u, x)) (h : Memory.wf r.1.mem = true) : Memory.wf u.mem = true := by
  subst e
  exact h

end

section
variable {s : State}

/-! ### Ops -/

@[simp] theorem drainOwn_wf (hm : Memory.wf s.mem = true) (key n) : Memory.wf (drainOwn s key n).mem = true := by
  unfold drainOwn
  dsimp only
  repeat' split
  all_goals simp [hm]
@[simp] theorem drainTo_wf (hm : Memory.wf s.mem = true) (home) : Memory.wf (drainTo s home).mem = true := by
  unfold drainTo
  repeat' split
  all_goals simp [hm]
@[simp] theorem readSeen_wf (hm : Memory.wf s.mem = true) (k n) : Memory.wf (readSeen s k n).1.mem = true := by
  unfold readSeen
  dsimp only
  repeat' split
  all_goals simp [hm]
@[simp] theorem storeTo_wf (hm : Memory.wf s.mem = true) (t ea d) : Memory.wf (storeTo s t ea d).mem = true := by
  unfold storeTo
  repeat' split
  all_goals simp [hm]

/-! ### Remote -/

@[simp] theorem stfeAt_wf (hm : Memory.wf s.mem = true) (who key v force) : Memory.wf (stfeAt s who key v force).1.mem = true := by
  unfold stfeAt
  repeat' split
  all_goals simp [hm]
@[simp] theorem portPerform_wf (hm : Memory.wf s.mem = true) (r) : Memory.wf (portPerform s r).1.mem = true := by
  unfold portPerform
  dsimp only
  split
  · split
    · exact (acquire_mem ..).symm ▸ hm
    · split <;> simp [hm]
  · split <;> simp [hm]
  · split <;> simp [hm]
  · split
    · split <;> simp [hm]
    · exact hm
  · simp [hm]
  · split <;> simp [hm]
  · simp [hm]
  · exact hm
  · simp [hm]
@[simp] theorem decrementAt_wf (hm : Memory.wf s.mem = true) (cid gid ea key sc) : Memory.wf (decrementAt s cid gid ea key sc).mem = true := by
  unfold decrementAt
  dsimp only
  repeat' split
  all_goals simp [hm]

/-! ### Copies -/

@[simp] theorem landPieces_wf (hm : Memory.wf s.mem = true) (c l) : Memory.wf (landPieces s c l).mem = true := by
  unfold landPieces
  dsimp only
  rw [foldl_mem (by intros; rfl)]
  refine foldl_wf (fun s a hm => ?_) _ hm
  split
  · exact writeUnits_wf hm ..
  · rw [foldl_mem (fun _ _ => tagUnits_mem ..)]
    exact writeUnits_wf hm ..
@[simp] theorem landRows_wf : ∀ (ls : List (List Nat)) {s : State} (_ : Memory.wf s.mem = true) (c), Memory.wf (landRows s c ls).1.mem = true
  | [], _, h, _ => h
  | l :: ls, s, hm, c => by
    unfold landRows
    split
    · exact landRows_wf ls (landPieces_wf hm ..) _
    · exact hm
@[simp] theorem moveCopy_wf (hm : Memory.wf s.mem = true) (c) : Memory.wf (moveCopy s c).1.mem = true := by
  unfold moveCopy
  extract_lets c n
  split
  · dsimp only
    split <;> simp [hm]
  · extract_lets s0
    have h0 : Memory.wf s0.mem = true := by
      unfold s0
      split <;> simp [hm]
    split
    · next e =>
      have h1 := fst_wf e (landRows_wf _ h0 _)
      dsimp only
      split <;> simp [h1]
    · next e =>
      have h1 := fst_wf e (landRows_wf _ h0 _)
      extract_lets s2
      have h2 : Memory.wf s2.mem = true := by
        unfold s2
        split <;> simp [h1]
      split <;> exact h2
@[simp] theorem frSet_wf (hm : Memory.wf s.mem = true) (who key off v) : Memory.wf (frSet s who key off v).mem = true := by
  unfold frSet
  repeat' split
  all_goals simp [hm]
@[simp] theorem reserveSlot_wf (hm : Memory.wf s.mem = true) (core key c) : Memory.wf (reserveSlot s core key c).mem = true := by
  unfold reserveSlot
  repeat' split
  all_goals simp [hm]
@[simp] theorem enterFrame_wf (hm : Memory.wf s.mem = true) (core c) : Memory.wf (enterFrame s core c).mem = true := by
  unfold enterFrame
  repeat' split
  all_goals simp [hm]
@[simp] theorem returnSlot_wf (hm : Memory.wf s.mem = true) (c) : Memory.wf (returnSlot s c).mem = true := by
  unfold returnSlot
  repeat' split
  all_goals simp [hm]
theorem completeAction_wf {t : State} (hm : Memory.wf s.mem = true) {core c} (e : completeAction s core c = .ok t) : Memory.wf t.mem = true := by
  unfold completeAction at e
  extract_lets ea at e
  split at e
  · cases e
    exact hm
  · split at e
    · cases e
    · clear_value *
      repeat' split at e
      all_goals cases e
      all_goals simp [hm]
  · split at e
    · cases e
    · split at e
      · cases e
        simp [hm]
      · split at e
        · cases e
          exact hm
        · cases e
          exact hm
  · split at e
    all_goals cases e
    all_goals simp [hm]
@[simp] theorem failCopy_wf (hm : Memory.wf s.mem = true) (core c why) : Memory.wf (failCopy s core c why).mem = true := by
  unfold failCopy
  repeat' split
  all_goals simp [hm]
@[simp] theorem stopCopy_wf (hm : Memory.wf s.mem = true) (core c why) : Memory.wf (stopCopy s core c why).mem = true := by
  unfold stopCopy
  split
  · exact hm
  · have h1 := moveCopy_wf hm c
    split
    · next e =>
      split
      · simp [fst_wf e h1]
      · exact hm
    · next e =>
      split
      · exact hm
      · have h2 := fst_wf e h1
        dsimp only
        split
        · split
          · simp [h2]
          · exact hm
        · exact hm
    · exact hm

/-! ### Mat -/

@[simp] theorem evict_wf (hm : Memory.wf s.mem = true) (core) : Memory.wf (evict s core).mem = true := by
  unfold evict
  dsimp only
  split
  · have h1 {u : State} (hu : Memory.wf u.mem = true) (ts : List Nat) (f : Nat → Nat) (i : Nat → List Byte) :
        Memory.wf (ts.foldl (fun s t => s.writeBlock (f t) (i t)) u).mem = true := foldl_wf (fun _ _ h => writeBlock_wf h ..) ts hu
    rw [State.modCore_mem]
    split
    · exact writeBlock_wf (h1 (by exact hm) ..) ..
    · exact h1 (by exact hm) ..
  · exact hm
@[simp] theorem acquire_wf (hm : Memory.wf s.mem = true) (core gid quantum) : Memory.wf (acquire s core gid quantum).mem = true := by
  unfold acquire
  repeat' split
  all_goals simp [hm]

/-! ### Matrix -/

@[simp] theorem mopaConsumed_wf (hm : Memory.wf s.mem = true) (core u r) : Memory.wf (mopaConsumed s core u r).mem = true := by
  unfold mopaConsumed
  repeat' split
  all_goals simp [hm]

/-! ### Unit -/

theorem unitWrite_wf {t : State} (hm : Memory.wf s.mem = true) {die asid dva d} (e : unitWrite s die asid dva d = .ok t) : Memory.wf t.mem = true := by
  refine foldlM_ok (P := fun s => Memory.wf s.mem = true) (fun s p t hm e => ?_) _ hm e
  obtain ⟨u, -, e⟩ := except_bind_ok e
  split at e
  · split at e
    · cases e
    · cases e
      exact writeLong_wf hm ..
  · cases e
    exact hm
  · cases e
    exact hm
  · cases e
theorem unitSignal_wf {t : State} (hm : Memory.wf s.mem = true) {die asid dva add v} (e : unitSignal s die asid dva add v = .ok t) : Memory.wf t.mem = true := by
  obtain ⟨u, -, e⟩ := except_bind_ok e
  dsimp only at e
  split at e
  · split at e
    · cases e
    · cases e
      exact amoSync_wf hm ..
  · cases e
    exact hm
  · cases e
/-- What one completion write leaves, done or not. -/
@[simp] theorem oneWrite_wf (hm : Memory.wf s.mem = true) (c w) : Memory.wf (oneWrite s c w).1.mem = true := by
  unfold oneWrite
  split <;> simp [hm]

theorem oneWrite_ok {t u : State} (hm : Memory.wf s.mem = true) {c w} (e : oneWrite s c w = (u, .ok t)) : Memory.wf t.mem = true := by
  unfold oneWrite at e
  split at e
  · exact unitWrite_wf (by simp [hm]) (congrArg Prod.snd e)
  · exact unitWrite_wf (by simp [hm]) (congrArg Prod.snd e)
  · exact unitSignal_wf (by simp [hm]) (congrArg Prod.snd e)

@[simp] theorem compWrites_wf (c) : ∀ (ws : List (Nat × CompWord)) {s : State}, Memory.wf s.mem = true → Memory.wf (compWrites s c ws).1.mem = true
  | [], _, h => h
  | w :: ws, s, hm => by
    have hw := oneWrite_wf hm c w
    unfold compWrites
    split
    · next e => exact compWrites_wf c ws (oneWrite_ok hm e)
    · next e =>
      have h1 := fst_wf e hw
      split
      · exact h1
      · exact compWrites_wf c ws (by simp [h1])
@[simp] theorem compRun_wf (hm : Memory.wf s.mem = true) (done c) (hd : ∀ u c, Memory.wf u.mem = true → Memory.wf (done u c).mem = true) : Memory.wf (compRun done s c).mem = true := by
  unfold compRun
  split
  · next e =>
    have h1 := fst_wf e (compWrites_wf c c.writes hm)
    exact hd _ _ h1
  · next e =>
    have h1 := fst_wf e (compWrites_wf c c.writes hm)
    exact h1
@[simp] theorem State.writeEntry_wf (hm : Memory.wf s.mem = true) (at_ w) : Memory.wf (State.writeEntry s at_ w).mem = true := by
  unfold State.writeEntry
  repeat' split
  all_goals simp [hm]
@[simp] theorem unmapRange_wf (hm : Memory.wf s.mem = true) (asid base n) : Memory.wf (unmapRange s asid base n).mem = true := by
  unfold unmapRange
  refine (shootdown_mem ..).symm ▸ foldl_wf (fun s i h => ?_) _ hm
  split
  · exact write_wf h ..
  · exact h
@[simp] theorem unmapObject_wf (hm : Memory.wf s.mem = true) (o) : Memory.wf (unmapObject s o).mem = true := foldl_wf (fun _ _ h => unmapRange_wf h ..) _ hm
@[simp] theorem retireObject_wf (hm : Memory.wf s.mem = true) (h) : Memory.wf (retireObject s h).mem = true := by
  unfold retireObject
  split
  · exact hm
  · rw [State.mem_ite, State.modObj_mem, State.modObj_mem]
    split
    · exact hm
    · exact unmapObject_wf (by exact hm) _
@[simp] theorem dropRef_wf (hm : Memory.wf s.mem = true) (h) : Memory.wf (dropRef s h).mem = true := by
  unfold dropRef
  repeat' split
  all_goals simp [hm]

/-! ### BroodUnit -/

@[simp] theorem broodStamp_wf (hm : Memory.wf s.mem = true) (h) : Memory.wf (broodStamp s h).mem = true := by
  unfold broodStamp
  split
  · exact hm
  · exact compRun_wf (by simp [hm]) _ _ fun u _ h => by simp [h]
@[simp] theorem broodComplete_wf (hm : Memory.wf s.mem = true) (h) : Memory.wf (broodComplete s h).mem = true := by
  unfold broodComplete
  split
  · exact hm
  · split
    · exact hm
    · exact compRun_wf (by simp [hm]) _ _ fun u _ h => by simp [h]
@[simp] theorem returnPages_wf (hm : Memory.wf s.mem = true) (h i) : Memory.wf (returnPages s h i).mem = true := by
  unfold returnPages
  split
  · exact hm
  · simp only [State.modBrood_mem, shootdown_mem]
    exact foldl_wf (fun _ _ h => write_wf h ..) _ hm
@[simp] theorem cancelSib_wf (hm : Memory.wf s.mem = true) (h i status) : Memory.wf (cancelSib s h i status).mem = true := by
  unfold cancelSib
  repeat' split
  all_goals simp [hm]
@[simp] theorem cancelAll_wf (hm : Memory.wf s.mem = true) (h status which) : Memory.wf (cancelAll s h status which).1.mem = true := by
  unfold cancelAll
  split
  · exact hm
  · split
    · exact hm
    · exact broodComplete_wf (foldl_wf (fun _ _ h => cancelSib_wf h ..) _ hm) _
@[simp] theorem launchGone_wf (hm : Memory.wf s.mem = true) (lid) : Memory.wf (launchGone s lid).mem = true := by
  unfold launchGone
  split
  · exact hm
  · split
    · exact foldl_wf (fun _ _ h => dropRef_wf h _) _ (by exact hm)
    · rw [broodRelease_mem]
      refine broodComplete_wf ?_ _
      rw [State.modBrood_mem]
      exact foldl_wf (fun _ _ h => dropRef_wf h _) _ (by exact hm)
@[simp] theorem compDone_wf (hm : Memory.wf s.mem = true) (c) : Memory.wf (compDone s c).mem = true := by
  unfold compDone
  dsimp only
  repeat' split
  all_goals simp [hm]
@[simp] theorem completeLaunch_wf (hm : Memory.wf s.mem = true) (lid) : Memory.wf (completeLaunch s lid).mem = true := by
  unfold completeLaunch
  split
  · exact hm
  · split
    · exact hm
    · refine compRun_wf ?_ _ _ fun _ _ h => compDone_wf h _
      exact performAll_wf (by exact hm) _

/-! ### Retire -/

@[simp] theorem scrubUnit_wf (hm : Memory.wf s.mem = true) (core u) : Memory.wf (scrubUnit s core u).mem = true := by
  unfold scrubUnit
  repeat' split
  all_goals simp [hm]
@[simp] theorem handOver_wf (hm : Memory.wf s.mem = true) (gid d h) : Memory.wf (handOver s gid d h).mem = true := by
  unfold handOver
  simp only [wakeWhere_mem, State.modLaunch_mem, takeRef_mem, foldl_mem (fun _ _ => State.modCell_mem ..), State.modGang_mem, freedPart_mem, heirTiles_mem]
  refine foldl_wf (fun s u h => ?_) _ (performAll_wf (by exact hm) _)
  split
  · exact h
  · exact scrubUnit_wf h ..

/-! ### Landing -/

@[simp] theorem moveImages_wf (hm : Memory.wf s.mem = true) (g key) : Memory.wf (moveImages s g key).mem = true := by
  unfold moveImages
  split
  · split
    · exact hm
    · exact foldl_wf (fun _ _ h => writeBlock_wf h ..) _ hm
  · exact hm
@[simp] theorem writeContext_wf (hm : Memory.wf s.mem = true) (gid v) : Memory.wf (writeContext s gid v).mem = true := writeBlock_wf (writeBlock_wf (moveImages_wf hm ..) ..) ..
@[simp] theorem saveGang_wf (hm : Memory.wf s.mem = true) (gid) : Memory.wf (saveGang s gid).mem = true := by
  unfold saveGang
  repeat' split
  all_goals simp [hm]
@[simp] theorem restoreLs_wf (hm : Memory.wf s.mem = true) (g key core unit) : Memory.wf (restoreLs s g key core unit).mem = true := by
  unfold restoreLs
  dsimp only
  rw [foldl_mem (by intros; rfl)]
  exact poke_wf (scrub_wf hm ..) ..
@[simp] theorem resumeGang_wf (hm : Memory.wf s.mem = true) (gid core slots unit) : Memory.wf (resumeGang s gid core slots unit).mem = true := by
  unfold resumeGang
  dsimp only
  repeat' split
  all_goals simp [hm]

/-! ### Broods -/

@[simp] theorem writeViews_wf (hm : Memory.wf s.mem = true) (hive views) : Memory.wf (writeViews s hive views).mem = true := foldl_wf (fun _ _ h => write_wf h ..) _ hm
@[simp] theorem deposit_wf (hm : Memory.wf s.mem = true) (h i r) : Memory.wf (deposit s h i r).mem = true := by
  unfold deposit
  repeat' split
  all_goals simp [hm]

/-! ### Mgmt -/

@[simp] theorem cleanHive_wf (hm : Memory.wf s.mem = true) (hive asids) : Memory.wf (cleanHive s hive asids).mem = true := by
  unfold cleanHive
  refine scrub_wf (foldl_wf (fun s c h => ?_) _ ?_) ..
  · exact scrub_wf h ..
  · rwa [State.modHive_mem]
@[simp] theorem partClear_wf (hm : Memory.wf s.mem = true) (n v) : Memory.wf (partClear s n v).mem = true := by
  unfold partClear
  split
  · exact hm
  · exact foldl_wf (fun _ _ h => cleanHive_wf h ..) _ hm
@[simp] theorem partWrite_wf (hm : Memory.wf s.mem = true) (n v) : Memory.wf (partWrite s n v).mem = true := by
  unfold partWrite
  repeat' split
  all_goals simp [hm]
@[simp] theorem hmoveFinish_wf (hm : Memory.wf s.mem = true) (hive dst) : Memory.wf (hmoveFinish s hive dst).mem = true := by
  unfold hmoveFinish
  dsimp only
  rw [foldl_mem (fun _ _ => regroupHive_mem ..)]
  have h0 := foldl_wf (f := evict) (fun _ _ h => evict_wf h _) (range (hive * 16) 16) hm
  simp only [State.setMreg_mem, State.modHive_mem]
  repeat' split
  all_goals simp [h0]
@[simp] theorem ckptLine_wf (hm : Memory.wf s.mem = true) (v src dst i) : Memory.wf (ckptLine v src dst s i).mem = true := by
  unfold ckptLine
  repeat' split
  all_goals simp [hm]
@[simp] theorem ckptLines_wf (hm : Memory.wf s.mem = true) (lines) : Memory.wf (ckptLines s lines).mem = true := foldl_wf (fun _ _ h => ckptLine_wf h ..) _ hm
@[simp] theorem mgmtWrite_wf (hm : Memory.wf s.mem = true) (off v) : Memory.wf (mgmtWrite s off v).mem = true := by
  have hp := partWrite_wf hm ((off - 0x100) / 8) v
  unfold mgmtWrite
  simp only [State.mem_ite, plainReg_mem, hmoveWrite_mem, ckptWrite_mem, ckctlWrite_mem, pwrcapWrite_mem, clearReg_setMreg_mem, linkWrite_mem,
    stationWrite_mem, rejectM_mem, State.setMreg_mem, ite_self]
  split
  · exact hm
  · split <;> assumption

/-! ### Host -/

@[simp] theorem bar2Write_wf (hm : Memory.wf s.mem = true) (func off size v) : Memory.wf (bar2Write s func off size v).mem = true := by
  unfold bar2Write
  repeat' split
  all_goals simp [hm]
@[simp] theorem hostDo_wf (hm : Memory.wf s.mem = true) (a) : Memory.wf (hostDo s a).mem = true := by
  unfold hostDo
  dsimp only
  split
  · exact hm
  · simp [hm]
  · simp [hm]
  · split
    · exact foldl_wf (fun _ _ h => writeLong_wf h ..) _ hm
    · split <;> simp [hm]
@[simp] theorem hostStart_wf (hm : Memory.wf s.mem = true) (a) : Memory.wf (hostStart s a).mem = true := by
  unfold hostStart
  repeat' split
  all_goals simp [hm]
@[simp] theorem hostArrive_wf (hm : Memory.wf s.mem = true) (a) : Memory.wf (hostArrive s a).mem = true := by
  unfold hostArrive
  repeat' split
  all_goals simp [hm]
@[simp] theorem hostRelease_wf (hm : Memory.wf s.mem = true) : Memory.wf (hostRelease s).mem = true := by
  unfold hostRelease
  refine foldl_wf (fun s a h => ?_) _ hm
  split
  · exact h
  · exact hostStart_wf (by exact h) _
@[simp] theorem bar4_wf (hm : Memory.wf s.mem = true) (func off n data relaxed) : Memory.wf (bar4 s func off n data relaxed).mem = true := by
  unfold bar4
  dsimp only
  repeat' split
  all_goals simp [hm]
@[simp] theorem relaxedWrite_wf (hm : Memory.wf s.mem = true) (func off data) : Memory.wf (relaxedWrite func off data s).mem = true := by
  unfold relaxedWrite
  repeat' split
  all_goals simp [hm]
@[simp] theorem hostWake_wf (hm : Memory.wf s.mem = true) (id retry) : Memory.wf (hostWake s id retry).mem = true := by
  unfold hostWake
  repeat' split
  all_goals simp [hm]
@[simp] theorem partitionKill_wf (hm : Memory.wf s.mem = true) (lid func) : Memory.wf (partitionKill s lid func).mem = true := by
  unfold partitionKill
  repeat' split
  all_goals simp [hm]
@[simp] theorem resetFunc_wf (hm : Memory.wf s.mem = true) (func) : Memory.wf (resetFunc s func).mem = true := by
  unfold resetFunc
  dsimp only
  refine hostRelease_wf ?_
  split
  · exact hm
  · exact foldl_wf (fun _ _ h => partitionKill_wf h ..) _ hm
@[simp] theorem resetVfs_wf (hm : Memory.wf s.mem = true) : Memory.wf (resetVfs s).mem = true := by
  unfold resetVfs
  exact foldl_wf (fun _ _ h => resetFunc_wf h _) _ hm

/-! ### Load -/

theorem mapPage_wf {t : State} {asid dva pa perm b} (e : mapPage s asid dva pa perm b = some t) (hm : Memory.wf s.mem = true) : Memory.wf t.mem = true := by
  unfold mapPage at e
  obtain ⟨table, -, e⟩ := Option.bind_eq_some_iff.mp e
  cases e
  simp [hm]
theorem mapSections_wf {r : State × List Nat} {asid n secs} (e : mapSections s asid n secs = some r) (hm : Memory.wf s.mem = true) : Memory.wf r.1.mem = true := by
  revert r
  unfold mapSections
  dsimp only
  refine foldl_keeps (P := fun o : Option (State × List Nat) => ∀ {r}, o = some r → Memory.wf r.1.mem = true) (fun o x ih r e => ?_) _ ?_
  · obtain ⟨a, ha, e⟩ := Option.bind_eq_some_iff.mp e
    obtain ⟨p, -, e⟩ := Option.bind_eq_some_iff.mp e
    obtain ⟨u, hu, e⟩ := Option.bind_eq_some_iff.mp e
    cases e
    exact mapPage_wf hu (ih ha)
  · intro r e
    cases e
    exact hm
@[simp] theorem loadObject_wf (hm : Memory.wf s.mem = true) (part asid gen d) : Memory.wf (loadObject s part asid gen d).1.mem = true := by
  unfold loadObject
  split
  · exact hm
  split
  · exact hm
  split
  · exact hm
  extract_lets
  split
  · exact hm
  split
  · exact hm
  split
  · exact hm
  next e =>
  extract_lets o s2
  have h2 : s2.mem = _ := dropLines_mem ..
  have h3 : Memory.wf s2.mem = true := h2 ▸ mapSections_wf e hm
  exact (withObjects_mem s2 _).symm ▸ h3

/-! ### Packets -/

@[simp] theorem packetDone_wf (hm : Memory.wf s.mem = true) (key d blocks writes) : Memory.wf (packetDone s key d blocks writes).mem = true := compRun_wf (by simp [hm]) _ _ fun _ _ h => compDone_wf h _
@[simp] theorem testWait_wf (hm : Memory.wf s.mem = true) (key since d) : Memory.wf (testWait s key since d).mem = true := by
  unfold testWait
  extract_lets x u
  have hu : u.mem = s.mem := noteQueue_mem ..
  rw [← hu] at hm
  split
  · rwa [packetStop_mem]
  · split
    · exact packetDone_wf hm ..
    · rwa [State.modQueue_mem]
@[simp] theorem rereadQueue_wf (hm : Memory.wf s.mem = true) (key) : Memory.wf (rereadQueue s key).mem = true := by
  unfold rereadQueue
  repeat' split
  all_goals simp [hm]

/-! ### Pager -/

@[simp] theorem setEntry_wf (hm : Memory.wf s.mem = true) (asid dva at_ size w) : Memory.wf (setEntry s asid dva at_ size w).mem = true := by
  unfold setEntry
  repeat' split
  all_goals simp [hm]
@[simp] theorem performRange_wf (hm : Memory.wf s.mem = true) (key n) : Memory.wf (performRange s key n).mem = true := by
  unfold performRange
  dsimp only
  rw [foldl_mem (fun _ _ => wakePerformed_mem ..)]
  exact performAll_wf (by exact hm) _
@[simp] theorem wakeCopy_wf (hm : Memory.wf s.mem = true) (core seq v) : Memory.wf (wakeCopy s core seq v).mem = true := by
  unfold wakeCopy
  dsimp only
  repeat' split
  all_goals simp [hm]
@[simp] theorem wakeUnit_wf (hm : Memory.wf s.mem = true) (id v) : Memory.wf (wakeUnit s id v).mem = true := by
  unfold wakeUnit
  dsimp only
  have hd (u c) (h : Memory.wf (State.mem u) = true) := compDone_wf h c
  split
  · split
    · exact compRun_wf (by exact hm) _ _ hd
    · split
      · exact compRun_wf (by simp [hm]) _ _ hd
      · exact hm
  · split
    · split <;> simp [hm]
    · exact hm

/-! ### Links -/

@[simp] theorem forgetPost_wf (hm : Memory.wf s.mem = true) (p) : Memory.wf (forgetPost s p).mem = true := by
  unfold forgetPost
  repeat' split
  all_goals simp [hm]
theorem noAnswer_wf {t : State} (hm : Memory.wf s.mem = true) {p r} (e : noAnswer s p r = some t) : Memory.wf t.mem = true := by
  unfold noAnswer at e
  repeat' split at e
  all_goals cases e
  all_goals simp [hm]

/-! ### Place -/

@[simp] theorem commitItem_wf (hm : Memory.wf s.mem = true) (i spots) : Memory.wf (commitItem s i spots).mem = true := by
  unfold commitItem
  repeat' split
  all_goals simp [hm]
@[simp] theorem robOn_wf (hm : Memory.wf s.mem = true) (pend die) : Memory.wf (robOn s pend die).mem = true := by
  unfold robOn
  dsimp only
  repeat' split
  all_goals simp [hm]
@[simp] theorem placeOne_wf (hm : Memory.wf s.mem = true) (die) : Memory.wf (placeOne s die).mem = true := by
  unfold placeOne
  dsimp only
  split
  · exact hm
  · have h0 := foldl_wf (f := rehome) (fun _ _ h => by simp [h]) (s.groups.map (·.1)) hm
    split <;> simp [h0]

end

end Sys2Proof.Machine
end
section
/-! However an operation that may end early ends, memory has its form (spec 07 R159, R161). -/

open Sys2Proof Sys2Proof.Machine

namespace Sys2Proof.Machine

/-! ### What an instruction's turn comes to -/

/-- The state that a result carries. -/
def Res.state : Res → State
  | .ok s | .jump s _ | .trap s .. | .park s _ | .spent s | .kill s .. | .fin s => s

section
variable (s : State)

@[simp] theorem Res.state_ok : (Res.ok s).state = s := rfl
@[simp] theorem Res.state_jump (npc) : (Res.jump s npc).state = s := rfl
@[simp] theorem Res.state_trap (cause tval vrec mrec) : (Res.trap s cause tval vrec mrec).state = s := rfl
@[simp] theorem Res.state_park (w) : (Res.park s w).state = s := rfl
@[simp] theorem Res.state_spent : (Res.spent s).state = s := rfl
@[simp] theorem Res.state_kill (code val) : (Res.kill s code val).state = s := rfl
@[simp] theorem Res.state_fin : (Res.fin s).state = s := rfl

end

@[simp] theorem commit_mem (len : Nat) (r : Res) : (commit len r).mem = r.state.mem := by
  cases r with
  | park s w =>
    unfold commit
    dsimp only
    split <;> simp
  | _ => simp [commit]

@[simp] theorem Res.holding_mem (dsts : List Dst) (r : Res) : (r.holding dsts).state.mem = r.state.mem := by
  cases r with
  | park s w =>
    unfold Res.holding
    simp only [Res.state_park]
    split <;> simp
  | _ => rfl

/-- However a computation ends, memory has its form: in the result of an early end, and as `P` says of its value. -/
def Op.Formed {α : Type} (P : α → Prop) : Op α → Prop
  | .ok a => P a
  | .error r => Memory.wf r.state.mem = true

section
variable {α β : Type} {P : α → Prop} {Q : β → Prop}

@[simp] theorem Op.formed_ok (a : α) : Op.Formed P (.ok a) ↔ P a := Iff.rfl
@[simp] theorem Op.formed_error (r : Res) : Op.Formed P (.error r) ↔ Memory.wf r.state.mem = true := Iff.rfl

theorem Op.Formed.bind {x : Op α} {f : α → Op β} (hx : x.Formed P) (hf : ∀ a, P a → (f a).Formed Q) : (x >>= f).Formed Q := by
  cases x with
  | ok a => exact hf a hx
  | error r => exact hx

/-- A check that only some instructions make, before what follows for all. -/
theorem Op.Formed.guard {c : Prop} [Decidable c] {x : Op Unit} {f : Unit → Op β} (hx : c → x.Formed fun _ => True) (hf : ∀ a, (f a).Formed Q) :
    (if c then x >>= f else f ()).Formed Q := by
  split
  · exact (hx ‹c›).bind fun a _ => hf a
  · exact hf ()

theorem Op.Formed.res {x : Op Res} (hx : x.Formed fun r => Memory.wf r.state.mem = true) : Memory.wf x.res.state.mem = true := by
  cases x <;> exact hx

theorem Op.Formed.forIn {γ : Type} {f : γ → PUnit → Op (ForInStep PUnit)} (hf : ∀ c u, (f c u).Formed fun _ => True) (l : List γ) :
    (forIn l PUnit.unit f : Op PUnit).Formed fun _ => True := by
  induction l with
  | nil => trivial
  | cons c l ih =>
    rw [List.forIn_cons]
    refine (hf c _).bind fun a _ => ?_
    cases a with
    | done => trivial
    | yield => exact ih

end

section
variable {s : State}

/-! ### The checks of an access -/

@[simp] theorem pageFault_mem (asid kind dva flags tval idx stride) : (pageFault s asid kind dva flags tval idx stride).state.mem = s.mem :=
  postFault_mem ..

@[simp] theorem cowPark_mem (asid dva leafAt tval idx stride) : (cowPark s asid dva leafAt tval idx stride).state.mem = s.mem := by
  have h := cowBegin_mem s s.me.gang asid dva leafAt
  unfold cowPark
  split
  · next e => exact fst_mem e h
  · next e => exact (pageFault_mem ..).trans (fst_mem e h)

@[simp] theorem walkRefused_mem (pa) : (walkRefused s pa).state.mem = s.mem := refusalReport_mem ..
@[simp] theorem cutKill_mem (val) : (cutKill s val).state.mem = s.mem := (quiesceFor_mem ..).trans (killPlain_mem ..)
@[simp] theorem waitRemote_mem (key ea op y) : (waitRemote s key ea op y).state.mem = s.mem := rfl
@[simp] theorem waitFabric_wf (hm : Memory.wf s.mem = true) (home pa n ea op acq) : Memory.wf (waitFabric s home pa n ea op acq).state.mem = true :=
  drainTo_wf hm home

theorem resolveDva_formed (hm : Memory.wf s.mem = true) (kind ea dva n idx stride) :
    (resolveDva s kind ea dva n idx stride).Formed fun r => Memory.wf r.1.mem = true := by
  unfold resolveDva
  dsimp only
  split
  · split <;> simp [hm]
  · simp [hm]
  · simp [hm]
  · simp [hm]
  · simp [hm]
  · split
    · simp [hm]
    · split
      · simp [hm]
      · simp [hm]
      · simp [hm]
      · split
        · split <;> simp [hm]
        · simp [hm]
      · exact hm

theorem resolve_formed (hm : Memory.wf s.mem = true) (kind ea n need align idx stride) :
    (resolve s kind ea n need align idx stride).Formed fun r => Memory.wf r.1.mem = true := by
  unfold resolve
  split
  · exact hm
  · split
    · exact hm
    · exact resolveDva_formed hm ..

theorem release_formed (hm : Memory.wf s.mem = true) (sc) : (release s sc).Formed fun _ => True := by
  unfold release
  split
  · exact hm
  · trivial

theorem operands_formed (hm : Memory.wf s.mem = true) (srcs dsts) : (operands s srcs dsts).Formed fun t => Memory.wf t.mem = true := by
  unfold operands
  dsimp only
  repeat' split
  all_goals simp [hm, foldl_mem hoqPop_mem]

/-! ### Outcomes -/

/-- The next state, where there is one, has memory in its form. -/
def Outcome.Formed (o : Host.Outcome State Fault Refusal) : Prop := ∀ t, o = .next t → Memory.wf t.mem = true

@[simp] theorem formed_next (t : State) : Outcome.Formed (.next t) ↔ Memory.wf t.mem = true :=
  ⟨fun h => h t rfl, fun h _ e => by cases e; exact h⟩

/-- An instruction keeps the form where its body does. -/
theorem issue_formed (hm : Memory.wf s.mem = true) {len early srcs dsts} {body : State → Res}
    (hb : ∀ u, Memory.wf u.mem = true → Memory.wf (body u).state.mem = true) : Outcome.Formed (issue len early srcs dsts body s) := by
  unfold issue
  split
  · have h0 := (State.modMe_mem s fun c => { c with ilen := len }).symm ▸ hm
    dsimp only
    split
    · rw [formed_next, commit_mem]
      exact h0
    · have ho := operands_formed h0 srcs dsts
      split
      · next e =>
        rw [formed_next, commit_mem]
        rw [e] at ho
        exact ho
      · next e =>
        rw [e] at ho
        rw [formed_next, commit_mem, Res.holding_mem]
        exact hb _ ho
  · exact (formed_next s).mpr hm

theorem issue_op_formed (hm : Memory.wf s.mem = true) {len early srcs dsts} {body : State → Op Res}
    (hb : ∀ u, Memory.wf u.mem = true → (body u).Formed fun r => Memory.wf r.state.mem = true) :
    Outcome.Formed (issue len early srcs dsts (fun u => (body u).res) s) := issue_formed hm fun u hu => (hb u hu).res

theorem vecIssue_formed (hm : Memory.wf s.mem = true) {early fields srcs dsts} {body : State → Op Res}
    (hb : ∀ u, Memory.wf u.mem = true → (body u).Formed fun r => Memory.wf r.state.mem = true) :
    Outcome.Formed (vecIssue early fields srcs dsts body s) := by
  unfold vecIssue
  exact issue_op_formed hm hb
end

section
variable {s : State}

/-! ### Checks that read and do not change -/

theorem vecRoom_formed (hm : Memory.wf s.mem = true) : (vecRoom s).Formed fun _ => True := by
  unfold vecRoom
  split
  · exact hm
  · trivial

theorem matRoom_formed (hm : Memory.wf s.mem = true) : (matRoom s).Formed fun _ => True := by
  unfold matRoom
  split
  · exact hm
  · trivial

theorem resumePoint_formed (hm : Memory.wf s.mem = true) (steps) : (resumePoint s steps).Formed fun _ => True := by
  unfold resumePoint
  dsimp only
  split
  · split
    · exact hm
    · trivial
  · trivial

theorem checkPiece_formed (hm : Memory.wf s.mem = true) (ea n need) : (checkPiece s ea n need).Formed fun _ => True := by
  unfold checkPiece
  split
  · trivial
  · split
    · exact hm
    · trivial

theorem checkPieces_formed (hm : Memory.wf s.mem = true) (need) : ∀ ps, (checkPieces s need ps).Formed fun _ => True
  | [] => trivial
  | p :: ps => by
    have h := checkPiece_formed hm p.1 p.2 need
    unfold checkPieces
    split
    · exact checkPieces_formed hm need ps
    · next e => rw [e] at h; exact h

theorem sideAlign_formed (hm : Memory.wf s.mem = true) (base desc) : (sideAlign s base desc).Formed fun _ => True := by
  unfold sideAlign
  dsimp only
  repeat' split
  all_goals simp [hm]

theorem sideShape_formed (hm : Memory.wf s.mem = true) (t desc side) : (sideShape s t desc side).Formed fun _ => True := by
  unfold sideShape
  split
  · exact hm
  · trivial

theorem sideTags_formed (hm : Memory.wf s.mem = true) (t base desc steps) : (sideTags s t base desc steps).Formed fun _ => True := by
  unfold sideTags
  dsimp only
  split
  · trivial
  · split
    · exact hm
    · trivial

theorem drainSeg_formed (hm : Memory.wf s.mem = true) : ∀ eas, (drainSeg s eas).Formed fun _ => True
  | [] => trivial
  | ea :: eas => by
    unfold drainSeg
    split
    · exact drainSeg_formed hm eas
    · exact hm

theorem rowIndex_formed (hm : Memory.wf s.mem = true) (ix) : (rowIndex s ix).Formed fun _ => True := by
  unfold rowIndex
  split
  · trivial
  · dsimp only
    split
    · exact hm
    · trivial

theorem tensorSide_formed (hm : Memory.wf s.mem = true) (d need) : (tensorSide s d need).Formed fun _ => True := by
  unfold tensorSide
  dsimp only
  repeat' split
  all_goals simp [hm]

theorem frameHeader_formed (hm : Memory.wf s.mem = true) (ea) : (frameHeader s ea).Formed fun _ => True := by
  unfold frameHeader
  repeat' split
  all_goals simp [hm]

theorem tileSide_formed (hm : Memory.wf s.mem = true) (te n need d) : (tileSide s te n need d).Formed fun _ => True := by
  unfold tileSide
  repeat' split
  all_goals simp [hm]

theorem multicastOperand_formed (hm : Memory.wf s.mem = true) (te mask) : (multicastOperand s te mask).Formed fun _ => True := by
  unfold multicastOperand
  dsimp only
  repeat' split
  all_goals simp [hm]

theorem signalOperand_formed (hm : Memory.wf s.mem = true) (ea) : (signalOperand s ea).Formed fun _ => True := by
  unfold signalOperand
  repeat' split
  all_goals simp [hm]

theorem waggleOperand_formed (hm : Memory.wf s.mem = true) (x) : (waggleOperand s x).Formed fun _ => True := by
  unfold waggleOperand
  split
  · exact hm
  · trivial

theorem taggedWord_formed (hm : Memory.wf s.mem = true) (ea need) : (taggedWord s ea need).Formed fun _ => True := by
  unfold taggedWord
  repeat' split
  all_goals simp [hm]

theorem tileMove_formed (hm : Memory.wf s.mem = true) (ea need) : (tileMove s ea need).Formed fun _ => True := by
  unfold tileMove
  repeat' split
  all_goals simp [hm]

theorem namedBrood_formed (hm : Memory.wf s.mem = true) (x) : (namedBrood s x).Formed fun _ => True := by
  unfold namedBrood
  dsimp only
  repeat' split
  all_goals simp [hm]

theorem retireWaits_formed (hm : Memory.wf s.mem = true) : (retireWaits s).Formed fun _ => True := by
  unfold retireWaits
  dsimp only
  repeat' split
  all_goals simp [hm]

/-! ### Loads, stores and atomics -/

theorem loadVal_formed (hm : Memory.wf s.mem = true) (ea n) : (loadVal s ea n).Formed fun r => Memory.wf r.1.mem = true := by
  unfold loadVal
  split
  · exact hm
  · refine (resolve_formed hm ..).bind fun ⟨u, t⟩ hu => ?_
    cases t <;> simp [hu]

theorem bringPieces_formed (ea dva skip) : ∀ (ps : List (Nat × Nat)) {s : State}, Memory.wf s.mem = true →
    (bringPieces ea dva skip ps s).Formed fun t => Memory.wf t.mem = true
  | [], _, hm => hm
  | p :: ps, s, hm => by
    unfold bringPieces
    dsimp only
    split
    · exact bringPieces_formed ea dva skip ps hm
    · refine (resolveDva_formed hm ..).bind fun ⟨u, t⟩ hu => ?_
      cases t with
      | key k => exact bringPieces_formed ea dva skip ps (by simp [hu])
      | _ => simp [hu]

theorem loadBlock_formed (hm : Memory.wf s.mem = true) (ea dva n skip) : (loadBlock s ea dva n skip).Formed fun r => Memory.wf r.1.mem = true := by
  unfold loadBlock
  refine (bringPieces_formed _ _ _ _ ?_).bind fun u hu => hu
  split
  · simp [hm]
  · exact hm

theorem storeVal_formed (hm : Memory.wf s.mem = true) (ea n v) : (storeVal s ea n v).Formed fun t => Memory.wf t.mem = true :=
  (resolve_formed hm ..).bind fun ⟨_, _⟩ hu => storeTo_wf hu ..

theorem atomic_formed (hm : Memory.wf s.mem = true) (ea size op src cmp d acq rel sc) :
    (atomic s ea size op src cmp d acq rel sc).Formed fun t => Memory.wf t.mem = true := by
  unfold atomic
  split
  · simp [hm]
  · refine (resolve_formed hm ..).bind fun ⟨u, t⟩ hu => ?_
    dsimp only
    refine .guard (fun _ => release_formed hu sc) fun _ => ?_
    cases t with
    | key k =>
      dsimp only
      split
      · split <;> simp [hu]
      · simp [hu]
    | _ => simp [hu]

theorem atElem_formed {α : Type} {P : α → Prop} (i) {x : Op α} (hx : x.Formed P) : (atElem i x).Formed P := by
  unfold atElem
  split
  · simpa using hx
  · exact hx

theorem loadElem_formed (hm : Memory.wf s.mem = true) (ea w i stride) : (loadElem s ea w i stride).Formed fun r => Memory.wf r.1.mem = true := by
  unfold loadElem
  split
  · simp [hm]
  · refine atElem_formed i ((resolve_formed hm ..).bind fun ⟨u, t⟩ hu => ?_)
    cases t <;> simp [hu]

theorem storeElem_formed (hm : Memory.wf s.mem = true) (ea w i v stride) : (storeElem s ea w i v stride).Formed fun t => Memory.wf t.mem = true :=
  atElem_formed i ((resolve_formed hm ..).bind fun ⟨_, _⟩ hu => storeTo_wf hu ..)

theorem vloadElem_formed (hm : Memory.wf s.mem = true) (d w ea stride i) : (vloadElem d w ea stride s i).Formed fun t => Memory.wf t.mem = true :=
  (loadElem_formed hm ..).bind fun ⟨_, _⟩ hu => by simpa using hu

theorem vstoreElem_formed (hm : Memory.wf s.mem = true) (data w ea stride i) : (vstoreElem data w ea stride s i).Formed fun t => Memory.wf t.mem = true :=
  (storeElem_formed hm ..).bind fun _ hu => by simpa using hu

theorem overElems_formed {f : State → Nat → Op State} (hf : ∀ u i, Memory.wf u.mem = true → (f u i).Formed fun t => Memory.wf t.mem = true) :
    ∀ (l : List Nat) {s : State}, Memory.wf s.mem = true → (overElems f l s).Formed fun t => Memory.wf t.mem = true
  | [], _, hm => hm
  | i :: l, s, hm => by
    have h := hf s i hm
    unfold overElems
    split
    · next e => rw [e] at h; exact overElems_formed hf l h
    · next e => rw [e] at h; exact h

theorem issueElems_formed : ∀ (l : List VStore) {s : State}, Memory.wf s.mem = true → (issueElems l s).Formed fun t => Memory.wf t.mem = true
  | [], _, hm => hm
  | e :: l, s, hm => (resolveDva_formed hm ..).bind fun ⟨u, t⟩ hu => issueElems_formed l (by simp [hu])

theorem signalRead_formed (hm : Memory.wf s.mem = true) (ea sc) : (signalRead s ea sc).Formed fun r => Memory.wf r.1.mem = true := by
  unfold signalRead
  refine (resolve_formed hm ..).bind fun ⟨u, t⟩ hu => ?_
  cases t with
  | key k => simp [hu]
  | window w => exact hu
  | _ =>
    dsimp only
    split <;> simp [hu]

theorem ocsTarget_formed (hm : Memory.wf s.mem = true) (ocs) : (ocsTarget s ocs).Formed fun r => Memory.wf r.1.mem = true := by
  unfold ocsTarget
  split
  · dsimp only
    refine .guard (fun _ => hm) fun _ => (resolveDva_formed hm ..).bind fun ⟨u, t⟩ hu => ?_
    cases t <;> simp [hu]
  · exact hm

theorem needLease_formed (hm : Memory.wf s.mem = true) : (needLease s).Formed fun t => Memory.wf t.mem = true := by
  unfold needLease
  dsimp only
  repeat' split
  all_goals simp [hm]

/-! ### Launches, heirs and broods -/

theorem appendSlot_formed (hm : Memory.wf s.mem = true) (q sel d) : (appendSlot s q sel d).Formed fun t => Memory.wf t.mem = true := by
  unfold appendSlot
  dsimp only
  split
  · simp [hm]
  · simp [hm]
  · simp [hm]
  · simp [hm]
  · rw [Op.formed_ok]
    split <;> simp [hm]

theorem launchLoop_formed (hm : Memory.wf s.mem = true) (nb d sel key dva) :
    (launchLoop nb d sel key dva s).Formed fun r => Memory.wf r.state.mem = true := by
  unfold launchLoop
  dsimp only
  split
  · split <;> simp [hm]
  · exact (appendSlot_formed hm ..).bind fun u hu => by simp [hu]

theorem readHeir_formed (hm : Memory.wf s.mem = true) (ea dva) : (readHeir s ea dva).Formed fun r => Memory.wf r.1.mem = true := by
  unfold readHeir
  refine (loadBlock_formed hm ..).bind fun ⟨u, d, skip⟩ hu => ?_
  dsimp only
  split
  · split
    · exact hu
    · exact (loadBlock_formed hu ..).bind fun _ h => h
  · exact hu

theorem cowPieces_formed (seg off) : ∀ (ps : List Nat) {s : State}, Memory.wf s.mem = true → (cowPieces s seg off ps).Formed fun r => Memory.wf r.1.mem = true
  | [], _, hm => hm
  | p :: ps, s, hm => by
    unfold cowPieces
    dsimp only
    split
    · exact hm
    · split
      · exact hm
      · split
        · simp [hm]
        · simp [hm]
        · split
          · simp [hm]
          · next dva _ _ _ _ _ _ _ _ =>
            have ih := cowPieces_formed seg off ps (s := faultPast (translated s dva) dva) (by simp [hm])
            split
            · next e => rw [e] at ih; exact ih
            · next e => rw [e] at ih; exact ih

theorem resumeStep_wf {t : State} (hm : Memory.wf s.mem = true) (e : resumeStep s = some t) : Memory.wf t.mem = true := by
  have h := issueElems_formed (s.me.vrecs.flatMap VRec.stores) (s := s.modMe fun c => { c with ilen := 8 }) (by simp [hm])
  unfold resumeStep at e
  dsimp only at e
  split at e
  · split at e
    all_goals cases e
    · next e => rw [e] at h; simpa using h
    · next e => rw [e] at h; simpa using h
    · next e => rw [e] at h; simpa using h
    · next e => rw [e] at h; simpa using h
    · exact hm
  · split at e
    · cases e
      split <;> simp [hm]
    · cases e

end

end Sys2Proof.Machine
end
section
/-! Instructions keep memory in its form: one lemma for each operation that instructions share, and one for each instruction with a body
of its own (spec 07 R159, R161). -/

open Sys2Proof Sys2Proof.Machine

namespace Sys2Proof.Machine

section
variable {s : State}

@[simp] theorem Res.state_ite (c : Prop) [Decidable c] (a b : Res) : (if c then a else b).state = if c then a.state else b.state := apply_ite ..

theorem Op.Formed.ite {α : Type} {P : α → Prop} {c : Prop} [Decidable c] {x y : Op α} (hx : x.Formed P) (hy : y.Formed P) : (if c then x else y).Formed P := by
  split
  · exact hx
  · exact hy

/-! ### The ends of a body that several instructions share -/

theorem fpEnd_wf (hm : Memory.wf s.mem = true) (fl) {write : State → State} (hw : ∀ u, (write u).mem = u.mem) :
    Memory.wf (fpEnd s fl write).state.mem = true := by
  unfold fpEnd
  split <;> simp [hm, hw]

theorem goTo_wf {t : State} (hm : Memory.wf s.mem = true) (ht : Memory.wf t.mem = true) (target) : Memory.wf (goTo s t target).state.mem = true := by
  unfold goTo
  split
  · exact hm
  · exact ht

theorem pushLoop_wf (hm : Memory.wf s.mem = true) (cnt imm) : Memory.wf (pushLoop s cnt imm).state.mem = true := by
  unfold pushLoop
  dsimp only
  split <;> simp [hm]

theorem heirFail_wf (hm : Memory.wf s.mem = true) (code detail) : Memory.wf (heirFail s code detail).state.mem = true := by simp [heirFail, hm]

/-! ### The operations that instructions share -/

theorem aluRR_formed (hm : Memory.wf s.mem = true) {f rd rs1 rs2} : Outcome.Formed (aluRR f rd rs1 rs2 s) := issue_formed hm fun u hu => by simp [hu]
theorem aluRI_formed (hm : Memory.wf s.mem = true) {f rd rs1 imm} : Outcome.Formed (aluRI f rd rs1 imm s) := issue_formed hm fun u hu => by simp [hu]
theorem aluSh_formed (hm : Memory.wf s.mem = true) {f rd rs1 n} : Outcome.Formed (aluSh f rd rs1 n s) := issue_formed hm fun u hu => by simp [hu]

theorem divide_formed (hm : Memory.wf s.mem = true) {f word rd rs1 rs2} : Outcome.Formed (divide f word rd rs1 rs2 s) :=
  issue_formed hm fun u hu => by simp [hu]

theorem branch_formed (hm : Memory.wf s.mem = true) {cond rs1 rs2 imm} : Outcome.Formed (branch cond rs1 rs2 imm s) :=
  issue_formed hm fun u hu => by
    split
    · exact goTo_wf hu hu _
    · exact hu

theorem loadInto_formed (hm : Memory.wf s.mem = true) {d n ext rs1 imm} : Outcome.Formed (loadInto d n ext rs1 imm s) :=
  issue_op_formed hm fun _ hu => (loadVal_formed hu ..).bind fun ⟨t, v⟩ ht => by simpa using ht

theorem storeX_formed (hm : Memory.wf s.mem = true) {n rs1 rs2 imm} : Outcome.Formed (storeX n rs1 rs2 imm s) :=
  issue_op_formed hm fun _ hu => (storeVal_formed hu ..).bind fun _ ht => ht

theorem storeF_formed (hm : Memory.wf s.mem = true) {n rs1 rs2 imm} : Outcome.Formed (storeF n rs1 rs2 imm s) :=
  issue_op_formed hm fun _ hu => (storeVal_formed hu ..).bind fun _ ht => ht

theorem fenceWait_formed (hm : Memory.wf s.mem = true) (r w pod) : (fenceWait s r w pod).Formed fun _ => True := by
  unfold fenceWait
  split
  · exact hm
  · trivial

theorem fenceOf_formed (hm : Memory.wf s.mem = true) {r w nr nw} : Outcome.Formed (fenceOf r w nr nw s) :=
  issue_op_formed hm fun _ hu => (fenceWait_formed hu r w false).bind fun _ _ => by simp [hu]

theorem amoRv_formed (hm : Memory.wf s.mem = true) {op size rd rs1 rs2 aq rl} : Outcome.Formed (amoRv op size rd rs1 rs2 aq rl s) :=
  issue_op_formed hm fun _ hu => (atomic_formed hu ..).bind fun _ ht => ht

theorem loadReserved_formed (hm : Memory.wf s.mem = true) {size rd rs1 aq rl} : Outcome.Formed (loadReserved size rd rs1 aq rl s) :=
  issue_op_formed hm fun u hu => by
    dsimp only
    split
    · simp [hu]
    · refine (resolve_formed hu ..).bind fun ⟨v, t⟩ hv => ?_
      dsimp only
      refine .guard (fun _ => release_formed hv _) fun _ => ?_
      cases t <;> simp [hv]

theorem storeConditional_formed (hm : Memory.wf s.mem = true) {size rd rs1 rs2 aq rl} : Outcome.Formed (storeConditional size rd rs1 rs2 aq rl s) :=
  issue_op_formed hm fun u hu => by
    dsimp only
    split
    · simp [hu]
    · refine (resolve_formed hu ..).bind fun ⟨v, t⟩ hv => ?_
      dsimp only
      refine .guard (fun _ => release_formed hv _) fun _ => ?_
      cases t with
      | key k =>
        dsimp only
        split
        · split <;> simp [hv]
        · simp [hv]
      | peer acc pa =>
        dsimp only
        split <;> simp [hv]
      | _ => simp [hv]

theorem fpRR_formed (hm : Memory.wf s.mem = true) {f7 f rd rs1 rs2 rm} : Outcome.Formed (fpRR f7 f rd rs1 rs2 rm s) :=
  issue_formed hm fun _ hu => fpEnd_wf hu _ fun _ => by simp

theorem fpFma_formed (hm : Memory.wf s.mem = true) {op negP negC rd rs1 rs2 rs3 rm} : Outcome.Formed (fpFma op negP negC rd rs1 rs2 rs3 rm s) :=
  issue_formed hm fun _ hu => fpEnd_wf hu _ fun _ => by simp

theorem fpSlow_formed (hm : Memory.wf s.mem = true) {f7 srcs f rd rs1 rs2 rm} : Outcome.Formed (fpSlow f7 srcs f rd rs1 rs2 rm s) :=
  issue_formed hm fun _ hu => fpEnd_wf hu _ fun _ => by simp

theorem fpCmp_formed (hm : Memory.wf s.mem = true) {loud f rd rs1 rs2} : Outcome.Formed (fpCmp loud f rd rs1 rs2 s) :=
  issue_formed hm fun _ hu => fpEnd_wf hu _ fun _ => by simp

theorem fpSgn_formed (hm : Memory.wf s.mem = true) {f rd rs1 rs2} : Outcome.Formed (fpSgn f rd rs1 rs2 s) := issue_formed hm fun u hu => by simp [hu]

theorem fpMinMax_formed (hm : Memory.wf s.mem = true) {isMax rd rs1 rs2} : Outcome.Formed (fpMinMax isMax rd rs1 rs2 s) :=
  issue_formed hm fun _ hu => fpEnd_wf hu _ fun _ => by simp

theorem fpToInt_formed (hm : Memory.wf s.mem = true) {code w lo hi rd rs1 rm} : Outcome.Formed (fpToInt code w lo hi rd rs1 rm s) :=
  issue_formed hm fun _ hu => fpEnd_wf hu _ fun _ => by simp

theorem fpOfInt_formed (hm : Memory.wf s.mem = true) {code f rd rs1 rm} : Outcome.Formed (fpOfInt code f rd rs1 rm s) :=
  issue_formed hm fun _ hu => fpEnd_wf hu _ fun _ => by simp

theorem fpToX_formed (hm : Memory.wf s.mem = true) {f rd rs1} : Outcome.Formed (fpToX f rd rs1 s) := issue_formed hm fun u hu => by simp [hu]
theorem fpOfX_formed (hm : Memory.wf s.mem = true) {f rd rs1} : Outcome.Formed (fpOfX f rd rs1 s) := issue_formed hm fun u hu => by simp [hu]

theorem csrOp_formed (hm : Memory.wf s.mem = true) {f3 upd writes rd rs1 srcs operand csr} :
    Outcome.Formed (csrOp f3 upd writes rd rs1 srcs operand csr s) := by
  unfold csrOp
  exact issue_formed hm fun u hu => by
    dsimp only
    rw [Res.state_ok]
    split
    · split <;> simp [hu]
    · split <;> simp [hu]

theorem widRead_formed (hm : Memory.wf s.mem = true) {f rd} : Outcome.Formed (widRead f rd s) := issue_formed hm fun u hu => by simp [hu]

/-- A vector body goes on where it has its cell's place in the vector unit. -/
theorem vecRoom_bind_formed {β : Type} {Q : β → Prop} {f : Unit → Op β} (hm : Memory.wf s.mem = true) (hf : (f ()).Formed Q) :
    (vecRoom s >>= f).Formed Q :=
  (vecRoom_formed hm).bind fun _ _ => hf

theorem vecMap_formed (hm : Memory.wf s.mem = true) {q early w arity xs scalar raw f} : Outcome.Formed (vecMap q early w arity xs scalar raw f s) :=
  vecIssue_formed hm fun u hu => vecRoom_bind_formed hu (by simp [hu])

theorem vint_formed (hm : Memory.wf s.mem = true) {fn t p d a b xs f} : Outcome.Formed (vint fn t p d a b xs f s) := vecMap_formed hm
theorem vintUn_formed (hm : Memory.wf s.mem = true) {fn t p d a f} : Outcome.Formed (vintUn fn t p d a f s) := vecMap_formed hm
theorem vflt_formed (hm : Memory.wf s.mem = true) {fn t p d a b c arity xs uses f} : Outcome.Formed (vflt fn t p d a b c arity xs uses f s) :=
  vecMap_formed hm

theorem vcmp_formed (hm : Memory.wf s.mem = true) {fn d a b xs p t rel frel onNan loud} :
    Outcome.Formed (vcmp fn d a b xs p t rel frel onNan loud s) := by
  unfold vcmp
  exact vecIssue_formed hm fun u hu => vecRoom_bind_formed hu (by simp [hu])

theorem vmsk_formed (hm : Memory.wf s.mem = true) {q d all p f} : Outcome.Formed (vmsk q d all p f s) :=
  vecIssue_formed hm fun u hu => vecRoom_bind_formed hu (by simp [hu])

theorem vmskX_formed (hm : Memory.wf s.mem = true) {q d all p a f} : Outcome.Formed (vmskX q d all p a f s) :=
  vecIssue_formed hm fun u hu => vecRoom_bind_formed hu (by simp [hu])

theorem vred_formed (hm : Memory.wf s.mem = true) {q early a d t isF r} {after : Nat → State → State} (ha : ∀ n u, (after n u).mem = u.mem) :
    Outcome.Formed (vred q early a d t isF r after s) :=
  vecIssue_formed hm fun u hu => vecRoom_bind_formed hu (by
    dsimp only
    rw [Op.formed_ok, Res.state_ok]
    split <;> simp [hu, ha])

theorem vconv_formed (hm : Memory.wf s.mem = true) {q early ws wd wide bv c f} : Outcome.Formed (vconv q early ws wd wide bv c f s) :=
  vecIssue_formed hm fun u hu => vecRoom_bind_formed hu (by simp [hu])

theorem permute_formed (hm : Memory.wf s.mem = true) {q t srcs fields f} : Outcome.Formed (permute q t srcs fields f s) :=
  vecIssue_formed hm fun u hu => vecRoom_bind_formed hu (by simp [hu])

theorem moveIn_formed (hm : Memory.wf s.mem = true) {q src t ix f raw} : Outcome.Formed (moveIn q src t ix f raw s) :=
  vecIssue_formed hm fun u hu => vecRoom_bind_formed hu (by
    dsimp only
    rw [Op.formed_ok, Res.state_ok]
    split <;> simp [hu])

theorem vecLoad_formed (hm : Memory.wf s.mem = true) {q t srcs fields ea stride} : Outcome.Formed (vecLoad q t srcs fields ea stride s) :=
  vecIssue_formed hm fun u hu => vecRoom_bind_formed hu <| by
    rcases e : startElem u with ⟨v, start⟩
    have hv := fst_mem e (startElem_mem u)
    exact (overElems_formed (fun _ _ h => vloadElem_formed h ..) _ (by simp [hu, hv])).bind fun _ ht => by simp [ht]

theorem vecStore_formed (hm : Memory.wf s.mem = true) {q t srcs fields ea stride} {after : State → State} (ha : ∀ u, (after u).mem = u.mem) :
    Outcome.Formed (vecStore q t srcs fields ea stride after s) :=
  vecIssue_formed hm fun u hu => vecRoom_bind_formed hu <| by
    rcases e : startElem u with ⟨v, start⟩
    have hv := fst_mem e (startElem_mem u)
    exact (overElems_formed (fun _ _ h => vstoreElem_formed h ..) _ (by simp [hu, hv])).bind fun _ ht => by simp [ht, ha]

theorem drainElem_wf {a : Drained} (hm : Memory.wf a.s.mem = true) (f kind e r c key v) : Memory.wf (drainElem f kind e r c key v a).s.mem = true := by
  unfold drainElem
  simp [hm]

theorem drainElems_wf {a : Drained} (hm : Memory.wf a.s.mem = true) (f kind e r) (on : Nat → Bool) (key) (l : List (W32 × Nat)) :
    Memory.wf (l.foldl (fun a w => if on w.2 then drainElem f kind e r w.2 key w.1 a else a) a).s.mem = true :=
  foldl_keeps (P := fun a : Drained => Memory.wf a.s.mem = true) (fun b w hb => by
    split
    · exact drainElem_wf hb ..
    · exact hb) l hm

theorem drainRow_wf {a : Drained} (hm : Memory.wf a.s.mem = true) (g f kind m tile base pitch r) :
    Memory.wf (drainRow g f kind m tile base pitch a r).s.mem = true := by
  unfold drainRow
  dsimp only
  split
  · have he := fun e key => drainElems_wf hm f kind e r (colOn f.p.k f.p.n m) key (rowOf tile (f.fr.toNat + r)).zipIdx
    cases kind with
    | row ea => exact write_wf (he ..) ..
    | plain => exact he ..
    | delayed sc => exact he ..
  · exact hm

theorem drainRows_wf {a : Drained} (hm : Memory.wf a.s.mem = true) (g f kind m tile base pitch) (rows : List Nat) :
    Memory.wf (rows.foldl (drainRow g f kind m tile base pitch) a).s.mem = true :=
  foldl_keeps (P := fun a : Drained => Memory.wf a.s.mem = true) (fun _ _ hb => drainRow_wf hb ..) rows hm

theorem drainOp_formed (hm : Memory.wf s.mem = true) {f src by_} : Outcome.Formed (drainOp f src by_ s) :=
  issue_op_formed hm fun u hu => by
    dsimp only
    refine (Op.Formed.forIn (fun ea _ => ?_) _).bind fun _ _ => (Op.Formed.forIn (fun ea _ => ?_) _).bind fun _ _ => ?_
    · split
      · exact hu
      · trivial
    · split
      · exact hu
      · trivial
    · refine .guard (fun _ => hu) fun _ => (drainSeg_formed hu _).bind fun _ _ => .guard (fun _ => hu) fun _ => ?_
      refine (needLease_formed hu).bind fun v hv => (matRoom_formed hv).bind fun _ _ => ?_
      have ha (kind m tile base pitch rows) :=
        drainRows_wf (a := { s := v, mask := 0, fl := .none, sat := 0, under := 0, top := 0 }) hv v.myGang f kind m tile base pitch rows
      rw [Op.formed_ok, Res.state_ok]
      split
      · split <;> simp [ha]
      · split <;> simp [ha]

theorem qamo_formed (hm : Memory.wf s.mem = true) {op d a b c word acq rel sc} : Outcome.Formed (qamo op d a b c word acq rel sc s) :=
  issue_op_formed hm fun _ hu => (atomic_formed hu ..).bind fun _ ht => ht

theorem signalUpdate_formed (hm : Memory.wf s.mem = true) {op a b sc} : Outcome.Formed (signalUpdate op a b sc s) :=
  issue_op_formed hm fun u hu => by
    dsimp only
    split
    · exact hu
    · refine (resolve_formed hu ..).bind fun ⟨v, t⟩ hv => ?_
      refine (release_formed hv _).bind fun _ _ => ?_
      cases t with
      | key k =>
        dsimp only
        rw [Op.formed_ok, Res.state_ok]
        split <;> simp [hv]
      | _ => simp [hv]

theorem ldfeOp_formed (hm : Memory.wf s.mem = true) {keep d a c off} : Outcome.Formed (ldfeOp keep d a c off s) :=
  issue_op_formed hm fun u hu => by
    dsimp only
    split
    · simp [hu]
    · refine (taggedWord_formed hu ..).bind fun t _ => ?_
      cases t with
      | key k =>
        dsimp only
        split
        · simp [hu]
        · simp [hu]
      | _ => simp [hu]

theorem stfeOp_formed (hm : Memory.wf s.mem = true) {force a b off} : Outcome.Formed (stfeOp force a b off s) :=
  issue_op_formed hm fun u hu => (taggedWord_formed hu ..).bind fun t _ => (release_formed hu _).bind fun _ _ => by
    cases t with
    | key k =>
      dsimp only
      rw [Op.formed_ok, Res.state_ok]
      split <;> simp [hu]
    | _ => simp [hu]

theorem fesetOp_formed (hm : Memory.wf s.mem = true) {full a off} : Outcome.Formed (fesetOp full a off s) :=
  issue_op_formed hm fun u hu => (taggedWord_formed hu ..).bind fun t _ => by cases t <;> simp [hu]

theorem joinOp_formed (hm : Memory.wf s.mem = true) {r wait} : Outcome.Formed (joinOp r wait s) :=
  issue_op_formed hm fun u hu => by
    split
    · exact hu
    · refine (release_formed hu _).bind fun _ _ => ?_
      dsimp only
      split
      · simp [hu]
      · split
        · simp [hu]
        · split <;> simp [hu]

theorem killOp_formed (hm : Memory.wf s.mem = true) {d a b} : Outcome.Formed (killOp d a b s) :=
  issue_op_formed hm fun u hu => (namedBrood_formed hu _).bind fun ⟨h, br⟩ _ => by
    dsimp only
    split
    · exact hu
    · split
      · simp [hu]
      · split
        · exact hu
        · simp [hu]

theorem launchOp_formed (hm : Memory.wf s.mem = true) {nb d a b} : Outcome.Formed (launchOp nb d a b s) :=
  issue_op_formed hm fun u hu => by
    have past (key dva) := (release_formed (s := u.modMe fun c => { c with stage := 1 }) (by simp [hu]) .pkg).bind
      (f := fun _ => launchLoop nb d (getX u b) key dva (u.modMe fun c => { c with stage := 1 })) fun _ _ => launchLoop_formed (by simp [hu]) ..
    dsimp only
    split
    · exact past ..
    · split
      · exact hu
      · split
        · exact hu
        · split
          · exact hu
          · split
            · exact hu
            · exact past ..

end

section
variable {s : State}

/-! ### Instructions with a body of their own -/

theorem execLui_formed (hm : Memory.wf s.mem = true) {rd imm} : Outcome.Formed (execLui rd imm s) := issue_formed hm fun u hu => by simp [hu]
theorem execAuipc_formed (hm : Memory.wf s.mem = true) {rd imm} : Outcome.Formed (execAuipc rd imm s) := issue_formed hm fun u hu => by simp [hu]

theorem execJal_formed (hm : Memory.wf s.mem = true) {rd imm} : Outcome.Formed (execJal rd imm s) :=
  issue_formed hm fun _ hu => goTo_wf hu (by simp [hu]) _

theorem execJalr_formed (hm : Memory.wf s.mem = true) {rd rs1 imm} : Outcome.Formed (execJalr rd rs1 imm s) :=
  issue_formed hm fun _ hu => goTo_wf hu (by simp [hu]) _

theorem execFenceI_formed (hm : Memory.wf s.mem = true) {rd rs1 imm} : Outcome.Formed (execFenceI rd rs1 imm s) :=
  issue_op_formed hm fun _ hu => (fenceWait_formed hu ..).bind fun _ _ => by simp [hu]

theorem execFcvtSBf16_formed (hm : Memory.wf s.mem = true) {rd rs1 rm} : Outcome.Formed (execFcvtSBf16 rd rs1 rm s) :=
  issue_formed hm fun _ hu => fpEnd_wf hu _ fun _ => by simp

theorem execFcvtBf16S_formed (hm : Memory.wf s.mem = true) {rd rs1 rm} : Outcome.Formed (execFcvtBf16S rd rs1 rm s) :=
  issue_formed hm fun _ hu => fpEnd_wf hu _ fun _ => by simp

theorem execEcall_formed (hm : Memory.wf s.mem = true) : Outcome.Formed (execEcall s) := issue_formed hm fun _ hu => hu
theorem execEbreak_formed (hm : Memory.wf s.mem = true) : Outcome.Formed (execEbreak s) := issue_formed hm fun _ hu => hu
theorem execIllegalInstruction_formed (hm : Memory.wf s.mem = true) {len w} : Outcome.Formed (execIllegalInstruction len w s) :=
  issue_formed hm fun _ hu => hu
theorem execTraise_formed (hm : Memory.wf s.mem = true) {a} : Outcome.Formed (execTraise a s) := issue_formed hm fun _ hu => hu
theorem execTret_formed (hm : Memory.wf s.mem = true) : Outcome.Formed (execTret s) := issue_formed hm fun u hu => by simp [hu]
theorem execLoop_formed (hm : Memory.wf s.mem = true) {rs1 imm} : Outcome.Formed (execLoop rs1 imm s) := issue_formed hm fun _ hu => pushLoop_wf hu ..
theorem execLoopi_formed (hm : Memory.wf s.mem = true) {cntm1 imm} : Outcome.Formed (execLoopi cntm1 imm s) :=
  issue_formed hm fun _ hu => pushLoop_wf hu ..

theorem execLbrk_formed (hm : Memory.wf s.mem = true) {rs1 n} : Outcome.Formed (execLbrk rs1 n s) :=
  issue_formed hm fun u hu => by
    dsimp only
    split
    · exact hu
    · split <;> simp [hu]

theorem execYield_formed (hm : Memory.wf s.mem = true) : Outcome.Formed (execYield s) := issue_formed hm fun u hu => by simp [hu]

/-! #### Copies and frames -/

/-- A copy joins the copies of its core, where there is room for it. -/
theorem enterCopy_formed (hm : Memory.wf s.mem = true) {p : Prop} [Decidable p] (core : Nat) (c : Copy) :
    Op.Formed (fun r : Res => Memory.wf r.state.mem = true) (if p then .error (.spent s)
      else .ok (.ok (enterFrame { s.modCore core fun k => { k with copies := k.copies ++ [c] } with nextId := s.nextId + 1 } core c))) :=
  .ite hm (by simp [hm])

theorem copyIssue_wf (hm : Memory.wf s.mem = true) (q) : Memory.wf (copyIssue q s).state.mem = true := by
  unfold copyIssue
  apply Op.Formed.res
  extract_lets ea xd xd1 ord c0
  rcases segCheck s.myGang ea 64 rRead with ⟨cause, tval⟩ | dva
  · exact hm
  · refine .ite hm ((loadBlock_formed hm ..).bind fun ⟨u, bytes, skip⟩ hu => .ite hu ((tensorSide_formed hu ..).bind fun _ _ => .ite ?_ ?_))
    · exact (frameHeader_formed hu _).bind fun key _ => .ite hu ((tileSide_formed hu ..).bind fun _ _ => enterCopy_formed hu ..)
    · refine (tileSide_formed hu ..).bind fun _ _ => .ite ((multicastOperand_formed hu ..).bind fun _ _ => .ite ?_ ?_) (.ite ?_ (.ite ?_ ?_))
      · exact (signalOperand_formed hu _).bind fun _ _ => enterCopy_formed hu ..
      · exact enterCopy_formed hu ..
      · exact (signalOperand_formed hu _).bind fun _ _ => enterCopy_formed hu ..
      · exact (waggleOperand_formed hu _).bind fun _ _ => enterCopy_formed hu ..
      · exact enterCopy_formed hu ..

theorem execTcopy_formed (hm : Memory.wf s.mem = true) {a b act ord} : Outcome.Formed (execTcopy a b act ord s) := issue_formed hm fun _ hu => copyIssue_wf hu _
theorem execTcopySt_formed (hm : Memory.wf s.mem = true) {a b act ord} : Outcome.Formed (execTcopySt a b act ord s) :=
  issue_formed hm fun _ hu => copyIssue_wf hu _

theorem execTcopyMc_formed (hm : Memory.wf s.mem = true) {a b c d sig ord} : Outcome.Formed (execTcopyMc a b c d sig ord s) := by
  unfold execTcopyMc
  exact issue_formed hm fun _ hu => copyIssue_wf hu _

theorem execFrminit_formed (hm : Memory.wf s.mem = true) {a b} : Outcome.Formed (execFrminit a b s) :=
  issue_op_formed hm fun u hu => (frameHeader_formed hu _).bind fun key _ => by
    dsimp only
    split
    · exact hu
    · split
      · exact hu
      · split <;> simp [hu]

theorem execFrmwait_formed (hm : Memory.wf s.mem = true) {d a limit} : Outcome.Formed (execFrmwait d a limit s) :=
  issue_op_formed hm fun u hu => (frameHeader_formed hu _).bind fun key _ => by
    dsimp only
    split
    · exact hu
    · split <;> simp [hu]

theorem execFrmfree_formed (hm : Memory.wf s.mem = true) {a} : Outcome.Formed (execFrmfree a s) :=
  issue_op_formed hm fun u hu => (frameHeader_formed hu _).bind fun key _ => by
    exact .ite hu ((release_formed hu _).bind fun _ _ => .ite (by simp [hu]) hu)

/-! #### Vectors -/

theorem execVsetvl_formed (hm : Memory.wf s.mem = true) {d a t} : Outcome.Formed (execVsetvl d a t s) := issue_formed hm fun u hu => by simp [hu]

theorem execVsetvlw_formed (hm : Memory.wf s.mem = true) {d a b c limit full t} : Outcome.Formed (execVsetvlw d a b c limit full t s) :=
  issue_formed hm fun u hu => by
    split
    · simp [hu]
    · refine ((signalRead_formed hu ..).bind fun ⟨v, w, key⟩ hv => ?_).res
      exact .ite (by simp [hv]) (.ite hv (by simp [hv]))

theorem execVgrp_formed (hm : Memory.wf s.mem = true) {g} : Outcome.Formed (execVgrp g s) := issue_formed hm fun u hu => by simp [hu]

theorem execVmvXv_formed (hm : Memory.wf s.mem = true) {d a ix t} : Outcome.Formed (execVmvXv d a ix t s) := by
  unfold execVmvXv
  exact vecIssue_formed hm fun u hu => vecRoom_bind_formed hu (by simp [hu])

theorem execVmvFv_formed (hm : Memory.wf s.mem = true) {d a ix t} : Outcome.Formed (execVmvFv d a ix t s) := by
  unfold execVmvFv
  exact vecIssue_formed hm fun u hu => vecRoom_bind_formed hu (by simp [hu])

theorem execVqnt_formed (hm : Memory.wf s.mem = true) {d a scale c src} : Outcome.Formed (execVqnt d a scale c src s) := by
  unfold execVqnt
  exact vecIssue_formed hm fun u hu => vecRoom_bind_formed hu (by simp [hu])

theorem formed_ite {p : Prop} [Decidable p] {a b : Host.Outcome State Fault Refusal} (ha : Outcome.Formed a) (hb : Outcome.Formed b) :
    Outcome.Formed (if p then a else b) := by
  split
  · exact ha
  · exact hb

theorem execVredsum_formed (hm : Memory.wf s.mem = true) {d a ix p t} : Outcome.Formed (execVredsum d a ix p t s) := by
  unfold execVredsum
  exact formed_ite (vred_formed hm fun _ _ => rfl) (vred_formed hm fun _ _ => rfl)

theorem execVredmax_formed (hm : Memory.wf s.mem = true) {d a ix p t} : Outcome.Formed (execVredmax d a ix p t s) := by
  unfold execVredmax
  exact formed_ite (vred_formed hm fun _ _ => rfl) (vred_formed hm fun _ _ => rfl)

theorem execVredmin_formed (hm : Memory.wf s.mem = true) {d a ix p t} : Outcome.Formed (execVredmin d a ix p t s) := by
  unfold execVredmin
  exact formed_ite (vred_formed hm fun _ _ => rfl) (vred_formed hm fun _ _ => rfl)

theorem execVredamax_formed (hm : Memory.wf s.mem = true) {d a tm ix p t} : Outcome.Formed (execVredamax d a tm ix p t s) := by
  unfold execVredamax
  exact formed_ite (vred_formed hm fun _ _ => rfl) (vred_formed hm fun _ _ => by simp)

theorem execVstx_formed (hm : Memory.wf s.mem = true) {c a b dup p t} : Outcome.Formed (execVstx c a b dup p t s) := by
  unfold execVstx
  exact vecStore_formed hm fun u => by
    split
    · exact dupMask_mem ..
    · rfl

/-! #### The matrix unit -/

theorem execMop1_formed (hm : Memory.wf s.mem = true) {d a b c p pair} : Outcome.Formed (execMop1 d a b c p pair s) := by
  unfold execMop1
  refine issue_op_formed hm fun u hu => (resumePoint_formed hu _).bind fun ⟨k, i0, hit⟩ _ => (needLease_formed hu).bind fun v hv =>
    (matRoom_formed hv).bind fun _ _ => ?_
  dsimp only
  split
  · split <;> simp [hv]
  · simp [hv]

theorem execMopa_formed (hm : Memory.wf s.mem = true) {d a b c km1 ocs p pair} : Outcome.Formed (execMopa d a b c km1 ocs p pair s) := by
  unfold execMopa
  refine issue_op_formed hm fun u hu => (checkPieces_formed hu _ _).bind fun _ _ => (checkPieces_formed hu _ _).bind fun _ _ => ?_
  extract_lets checked
  have hc : ∀ r, (checked r).Formed fun r => Memory.wf r.state.mem = true := fun _ =>
    (sideAlign_formed hu _ _).bind fun _ _ => (sideAlign_formed hu _ _).bind fun _ _ => (ocsTarget_formed hu ocs).bind fun ⟨v, key⟩ hv =>
      (sideShape_formed hv ..).bind fun _ _ => (sideShape_formed hv ..).bind fun _ _ => by
        extract_lets tagged
        have ht : ∀ r, (tagged r).Formed fun r => Memory.wf r.state.mem = true := fun _ =>
          (resumePoint_formed hv _).bind fun ⟨_, _, _⟩ _ => (needLease_formed hv).bind fun w hw => (matRoom_formed hw).bind fun _ _ =>
            .ite (by simp [hw]) (by simp [hw])
        exact .ite ((sideTags_formed hv ..).bind fun _ _ => (sideTags_formed hv ..).bind fun _ _ => ht ()) (ht ())
  refine .ite ?_ (hc ())
  split
  · exact hu
  · exact hc ()

theorem execMzero_formed (hm : Memory.wf s.mem = true) {d p} : Outcome.Formed (execMzero d p s) :=
  issue_op_formed hm fun _ hu => (needLease_formed hu).bind fun v hv => (matRoom_formed hv).bind fun _ _ => by simp [hv]

theorem execMrel_formed (hm : Memory.wf s.mem = true) : Outcome.Formed (execMrel s) :=
  issue_op_formed hm fun u hu => (matRoom_formed hu).bind fun _ _ => by simp [hu]

theorem execMrelDiscard_formed (hm : Memory.wf s.mem = true) : Outcome.Formed (execMrelDiscard s) :=
  issue_op_formed hm fun u hu => (matRoom_formed hu).bind fun _ _ => by simp [hu]

theorem execMrowRd_formed (hm : Memory.wf s.mem = true) {d a ix col p t} : Outcome.Formed (execMrowRd d a ix col p t s) :=
  issue_op_formed hm fun _ hu => (rowIndex_formed hu _).bind fun _ _ => (needLease_formed hu).bind fun v hv => (matRoom_formed hv).bind fun _ _ => by
    rw [Op.formed_ok, Res.state_ok, setVLate_mem, setVLate_mem, useUnit_mem]
    exact hv

theorem execMrowWr_formed (hm : Memory.wf s.mem = true) {d a ix col p t} : Outcome.Formed (execMrowWr d a ix col p t s) :=
  issue_op_formed hm fun _ hu => (rowIndex_formed hu _).bind fun _ _ => (needLease_formed hu).bind fun v hv => (matRoom_formed hv).bind fun _ _ => by
    simp [hv]

theorem execAmxrd_formed (hm : Memory.wf s.mem = true) {d i} : Outcome.Formed (execAmxrd d i s) := issue_formed hm fun u hu => by simp [hu]
theorem execAmxswp_formed (hm : Memory.wf s.mem = true) {d i} : Outcome.Formed (execAmxswp d i s) := issue_formed hm fun u hu => by simp [hu]
theorem execAmxmax_formed (hm : Memory.wf s.mem = true) {a i} : Outcome.Formed (execAmxmax a i s) := issue_formed hm fun u hu => by simp [hu]

theorem execMsave_formed (hm : Memory.wf s.mem = true) {d a} : Outcome.Formed (execMsave d a s) :=
  issue_op_formed hm fun _ hu => (tileMove_formed hu ..).bind fun _ _ => (needLease_formed hu).bind fun v hv => (matRoom_formed hv).bind fun _ _ => by
    simp [hv]

theorem execMrstr_formed (hm : Memory.wf s.mem = true) {d a} : Outcome.Formed (execMrstr d a s) :=
  issue_op_formed hm fun _ hu => (tileMove_formed hu ..).bind fun _ _ => (needLease_formed hu).bind fun v hv => (matRoom_formed hv).bind fun _ _ => by
    simp [hv]

/-! #### Order, signals, barriers and waggles -/

theorem execQfence_formed (hm : Memory.wf s.mem = true) {r w e sc} : Outcome.Formed (execQfence r w e sc s) :=
  issue_op_formed hm fun u hu => by
    have h1 : Memory.wf (if e then holdCopies u else u).mem = true := by split <;> simp [hu]
    exact .ite h1 ((fenceWait_formed hu r w (sc == .pod)).bind fun _ _ => (congrArg Memory.wf (fenceOrders_mem ..)).trans h1)

theorem execSwait_formed (hm : Memory.wf s.mem = true) {d a b c cond sc} : Outcome.Formed (execSwait d a b c cond sc s) :=
  issue_op_formed hm fun u hu => (signalRead_formed hu ..).bind fun ⟨v, w, key⟩ hv => by
    exact .ite (by simp [hv]) (.ite hv (by simp [hv]))

theorem execBar_formed (hm : Memory.wf s.mem = true) {level limit} : Outcome.Formed (execBar level limit s) :=
  issue_op_formed hm fun u hu => by
    split
    · exact hu
    · exact (release_formed hu _).bind fun _ _ => by simp [hu]

theorem execFeprobe_formed (hm : Memory.wf s.mem = true) {d a off} : Outcome.Formed (execFeprobe d a off s) :=
  issue_op_formed hm fun u hu => by
    dsimp only
    split
    · simp [hu]
    · exact (taggedWord_formed hu ..).bind fun t _ => by cases t <;> simp [hu]

theorem execWgsend_formed (hm : Memory.wf s.mem = true) {a b c limit} : Outcome.Formed (execWgsend a b c limit s) :=
  issue_op_formed hm fun u hu => by
    dsimp only
    split
    · exact hu
    · refine (release_formed hu _).bind fun _ _ => ?_
      split
      · exact hu
      · split
        · exact hu
        · split
          · simp [hu]
          · split <;> simp [hu]

theorem execWgrecv_formed (hm : Memory.wf s.mem = true) {d limit} : Outcome.Formed (execWgrecv d limit s) :=
  issue_formed hm fun u hu => by
    split <;> simp [hu]

theorem execWgpeek_formed (hm : Memory.wf s.mem = true) {d} : Outcome.Formed (execWgpeek d s) := issue_formed hm fun u hu => by simp [hu]

theorem execIcinv_formed (hm : Memory.wf s.mem = true) {a b} : Outcome.Formed (execIcinv a b s) :=
  issue_op_formed hm fun u hu => by
    dsimp only
    split
    · exact hu
    · refine (release_formed hu _).bind fun _ _ => ?_
      split
      · exact hu
      · simp [hu]

/-! #### The end of an item, and broods -/

theorem execRetire_formed (hm : Memory.wf s.mem = true) : Outcome.Formed (execRetire s) :=
  issue_op_formed hm fun u hu => (retireWaits_formed hu).bind fun _ _ => by
    dsimp only
    split
    · simp [ended, hu]
    · simp [ended, hu]

theorem execRetireH_formed (hm : Memory.wf s.mem = true) {a} : Outcome.Formed (execRetireH a s) :=
  issue_op_formed hm fun u hu => (retireWaits_formed hu).bind fun _ _ => by
    dsimp only
    split
    · exact hu
    · split
      · exact hu
      · split
        · exact hu
        · split
          · exact hu
          · split
            · simp [ended, hu]
            · refine (readHeir_formed (by simp [hu]) ..).bind fun ⟨v, d, h⟩ hv => ?_
              dsimp only
              split
              · exact heirFail_wf hv ..
              · split
                · exact heirFail_wf hv ..
                · simp [ended, hv]

theorem execBfork_formed (hm : Memory.wf s.mem = true) {d a} : Outcome.Formed (execBfork d a s) :=
  issue_op_formed hm fun u hu => by
    extract_lets ea
    split
    · exact hu
    · refine .ite hu ((loadBlock_formed hu ..).bind fun ⟨v, dsc, skip⟩ hv => ?_)
      dsimp -zeta only
      extract_lets field tmpl g n checked
      have hc : ∀ r : State × List Byte × Nat, Memory.wf r.1.mem = true → (checked r).Formed fun r => Memory.wf r.state.mem = true := fun ⟨w, tm, _⟩ hw => by
        dsimp only [checked]
        split
        · exact hw
        · split
          · exact hw
          · refine .ite hw ((cowPieces_formed _ _ _ hw).bind fun ⟨x, phys⟩ hx => .ite hx ?_)
            split
            · exact hx
            · refine (release_formed hx _).bind fun _ _ => ?_
              rw [Op.formed_ok, Res.state_ok, defer_mem]
              exact foldl_wf (fun t i ht => by simp [ht]) _ (by simp [hx])
      exact .ite ((loadBlock_formed hv ..).bind fun _ hr => hc _ hr) (hc _ hv)

theorem execBstat_formed (hm : Memory.wf s.mem = true) {d a} : Outcome.Formed (execBstat d a s) :=
  issue_op_formed hm fun u hu => (namedBrood_formed hu _).bind fun ⟨h, br⟩ _ => by
    dsimp only
    rw [Op.formed_ok, Res.state_ok]
    split <;> simp [hu]

theorem execBstatSib_formed (hm : Memory.wf s.mem = true) {d a b} : Outcome.Formed (execBstatSib d a b s) :=
  issue_op_formed hm fun u hu => (namedBrood_formed hu _).bind fun ⟨h, br⟩ _ => by
    dsimp only
    split
    · simp [hu]
    · split
      · exact hu
      · simp [hu]

end

end Sys2Proof.Machine
end
section
/-! The steps of the device keep memory in its form, and so does each step (spec 07 R159, R161). -/

open Sys2Proof Sys2Proof.Machine

namespace Sys2Proof.Machine

section
variable {s : State}

theorem ite_wf {c : Prop} [Decidable c] {a b : State} (ha : Memory.wf a.mem = true) (hb : Memory.wf b.mem = true) :
    Memory.wf (if c then a else b).mem = true := by
  split
  · exact ha
  · exact hb

theorem execFence_formed (hm : Memory.wf s.mem = true) {fm pred succ rs1 rd} : Outcome.Formed (execFence fm pred succ rs1 rd s) :=
  formed_ite (fenceOf_formed hm) (fenceOf_formed hm)

theorem execVcvt_formed (hm : Memory.wf s.mem = true) {d a c p dst src} : Outcome.Formed (execVcvt d a c p dst src s) := by
  unfold execVcvt
  exact vconv_formed hm

theorem execVsrnd_formed (hm : Memory.wf s.mem = true) {d a b c w p dst src} : Outcome.Formed (execVsrnd d a b c w p dst src s) := by
  unfold execVsrnd
  exact vconv_formed hm

/-! ### The steps of the device -/

theorem execRemoteReply_formed (hm : Memory.wf s.mem = true) {id} : Outcome.Formed (execRemoteReply id s) := by
  unfold execRemoteReply
  repeat' split
  all_goals simp [hm]

theorem execFabricReply_formed (hm : Memory.wf s.mem = true) {cell station ok data} : Outcome.Formed (execFabricReply cell station ok data s) := by
  unfold execFabricReply
  repeat' split
  all_goals simp [hm]

theorem execPostedWriteUndeliverable_formed (hm : Memory.wf s.mem = true) {cell dva} : Outcome.Formed (execPostedWriteUndeliverable cell dva s) := by
  unfold execPostedWriteUndeliverable
  split <;> simp [hm]

theorem execAccessPerformedAtHome_formed (hm : Memory.wf s.mem = true) {cell i} : Outcome.Formed (execAccessPerformedAtHome cell i s) := by
  unfold execAccessPerformedAtHome
  dsimp only
  repeat' split
  all_goals simp [hm]

theorem execCopyStart_formed (hm : Memory.wf s.mem = true) {core i} : Outcome.Formed (execCopyStart core i s) := by
  unfold execCopyStart
  dsimp only
  repeat' split
  all_goals simp [hm]

theorem execFrameSlotReserve_formed (hm : Memory.wf s.mem = true) {core i} : Outcome.Formed (execFrameSlotReserve core i s) := by
  unfold execFrameSlotReserve
  dsimp only
  repeat' split
  all_goals simp [hm]

theorem execCopyFailure_formed (hm : Memory.wf s.mem = true) {core i why} : Outcome.Formed (execCopyFailure core i why s) := by
  unfold execCopyFailure
  repeat' split
  all_goals simp [hm]

theorem execMatrixInstructionComplete_formed (hm : Memory.wf s.mem = true) {core} : Outcome.Formed (execMatrixInstructionComplete core s) := by
  unfold execMatrixInstructionComplete
  repeat' split
  all_goals simp [hm]

theorem execBarLimit_formed (hm : Memory.wf s.mem = true) {cell} : Outcome.Formed (execBarLimit cell s) := by
  unfold execBarLimit
  repeat' split
  all_goals simp [hm]

theorem execLdfeLimit_formed (hm : Memory.wf s.mem = true) {cell} : Outcome.Formed (execLdfeLimit cell s) := by
  unfold execLdfeLimit
  repeat' split
  all_goals simp [hm]

theorem execWgsendLimit_formed (hm : Memory.wf s.mem = true) {cell} : Outcome.Formed (execWgsendLimit cell s) := by
  unfold execWgsendLimit
  split <;> simp [hm]

theorem execHeirHandover_formed (hm : Memory.wf s.mem = true) {gang} : Outcome.Formed (execHeirHandover gang s) := by
  unfold execHeirHandover
  dsimp only
  repeat' split
  all_goals simp [hm]

theorem execObjectRangeRelease_formed (hm : Memory.wf s.mem = true) {handle} : Outcome.Formed (execObjectRangeRelease handle s) := by
  unfold execObjectRangeRelease
  repeat' split
  all_goals simp [hm]

theorem execGenerationUnmap_formed (hm : Memory.wf s.mem = true) {handle} : Outcome.Formed (execGenerationUnmap handle s) := by
  unfold execGenerationUnmap
  repeat' split
  all_goals simp [hm]

theorem execForcedLanding_formed (hm : Memory.wf s.mem = true) {cell stops step} : Outcome.Formed (execForcedLanding cell stops step s) := by
  unfold execForcedLanding
  split <;> simp [hm]

theorem execGangSaveDone_formed (hm : Memory.wf s.mem = true) {gang} : Outcome.Formed (execGangSaveDone gang s) := by
  unfold execGangSaveDone
  dsimp only
  repeat' split
  all_goals simp [hm]

theorem execAsyncTrapDelivery_formed (hm : Memory.wf s.mem = true) {cell} : Outcome.Formed (execAsyncTrapDelivery cell s) := by
  unfold execAsyncTrapDelivery
  split <;> simp [hm]

theorem execTurnSpentWithoutIssue_formed (hm : Memory.wf s.mem = true) {cell} : Outcome.Formed (execTurnSpentWithoutIssue cell s) := by
  unfold execTurnSpentWithoutIssue
  dsimp only
  repeat' split
  all_goals simp [hm]

theorem execVectorInstructionComplete_formed (hm : Memory.wf s.mem = true) {core i} : Outcome.Formed (execVectorInstructionComplete core i s) := by
  unfold execVectorInstructionComplete
  split <;> simp [hm]

theorem execBroodDeadline_formed (hm : Memory.wf s.mem = true) {handle} : Outcome.Formed (execBroodDeadline handle s) := by
  unfold execBroodDeadline
  dsimp only
  repeat' split
  all_goals simp [hm]

theorem execIcinvAcknowledged_formed (hm : Memory.wf s.mem = true) {cell} : Outcome.Formed (execIcinvAcknowledged cell s) := by
  unfold execIcinvAcknowledged
  split <;> simp [hm]

theorem execPartClearValid_formed (hm : Memory.wf s.mem = true) {n v} : Outcome.Formed (execPartClearValid n v s) := by
  unfold execPartClearValid
  split <;> simp [hm]

theorem execHmoveComplete_formed (hm : Memory.wf s.mem = true) : Outcome.Formed (execHmoveComplete s) := by
  unfold execHmoveComplete
  repeat' split
  all_goals simp [hm]

theorem execCkptRunEnd_formed (hm : Memory.wf s.mem = true) {err done} : Outcome.Formed (execCkptRunEnd err done s) := by
  unfold execCkptRunEnd
  dsimp only
  repeat' split
  all_goals simp [hm]

theorem execStageTimeout_formed (hm : Memory.wf s.mem = true) {die} : Outcome.Formed (execStageTimeout die s) := by
  unfold execStageTimeout
  split <;> simp [hm]

theorem execFunctionLevelReset_formed (hm : Memory.wf s.mem = true) {func} : Outcome.Formed (execFunctionLevelReset func s) := by
  unfold execFunctionLevelReset
  split <;> simp [hm]

theorem execConfigurationRequest_formed (hm : Memory.wf s.mem = true) {func req} : Outcome.Formed (execConfigurationRequest func req s) := by
  unfold execConfigurationRequest
  repeat' split
  all_goals simp [hm]

theorem execWaitsigLimit_formed (hm : Memory.wf s.mem = true) {part q} : Outcome.Formed (execWaitsigLimit part q s) := by
  unfold execWaitsigLimit
  dsimp only
  repeat' split
  all_goals simp [hm]

theorem execWaitReread_formed (hm : Memory.wf s.mem = true) {w} : Outcome.Formed (execWaitReread w s) := by
  unfold execWaitReread
  repeat' split
  all_goals simp [hm]

theorem execTlbShootdown_formed (hm : Memory.wf s.mem = true) {asid dva entry} : Outcome.Formed (execTlbShootdown asid dva entry s) := by
  unfold execTlbShootdown
  split <;> simp [hm]

theorem execPagerWake_formed (hm : Memory.wf s.mem = true) {w verdict} : Outcome.Formed (execPagerWake w verdict s) := by
  unfold execPagerWake
  repeat' split
  all_goals simp [hm]

theorem execRetrainDone_formed (hm : Memory.wf s.mem = true) {fin lanes} : Outcome.Formed (execRetrainDone fin lanes s) := by
  unfold execRetrainDone
  repeat' split
  all_goals simp [hm]

theorem execLaneFailure_formed (hm : Memory.wf s.mem = true) {core i group} : Outcome.Formed (execLaneFailure core i group s) := by
  unfold execLaneFailure
  dsimp only
  repeat' split
  all_goals simp [hm]

theorem execRemoteAccessArrival_formed (hm : Memory.wf s.mem = true) {id} : Outcome.Formed (execRemoteAccessArrival id s) := by
  rw [execRemoteAccessArrival, formed_next]
  split
  · exact hm
  · next r _ =>
    have hp := portPerform_wf hm r
    refine (ite_wf hm (ite_wf hm ?_))
    split
    · next e =>
      have h1 := fst_wf e hp
      exact h1
    · next e =>
      have h1 := fst_wf e hp
      dsimp only
      split <;> simp [h1]

theorem execCopyComplete_formed (hm : Memory.wf s.mem = true) {core i} : Outcome.Formed (execCopyComplete core i s) := by
  rw [execCopyComplete, formed_next]
  dsimp only
  split
  · exact hm
  · next c _ =>
    have hp := moveCopy_wf hm c
    refine ite_wf hm ?_
    split
    · next e => simp [fst_wf e hp]
    · exact hm
    · next e =>
      have h1 := fst_wf e hp
      refine ite_wf (by simp [h1]) ?_
      split
      · next e => exact completeAction_wf (by simp [h1]) e
      · simp [h1]
      · exact hm

theorem execCopyWaggleDelivered_formed (hm : Memory.wf s.mem = true) {core i} : Outcome.Formed (execCopyWaggleDelivered core i s) := by
  rw [execCopyWaggleDelivered, formed_next]
  split
  · refine ite_wf ?_ hm
    split
    · next e => exact completeAction_wf hm e
    · exact hm
  · exact hm

theorem execMopaOperandsConsumed_formed (hm : Memory.wf s.mem = true) {core} : Outcome.Formed (execMopaOperandsConsumed core s) := by
  unfold execMopaOperandsConsumed
  split
  · split
    · refine formed_ite ((formed_next s).mpr hm) (formed_ite ((formed_next _).mpr (mopaConsumed_wf hm ..)) ?_)
      split
      · next e => simp [fst_mem e (runMopa_mem ..), hm]
      · next e => simp [fst_mem e (runMopa_mem ..), hm]
    · exact (formed_next s).mpr hm
  · exact (formed_next s).mpr hm

theorem execLeaseAcquire_formed (hm : Memory.wf s.mem = true) {core} : Outcome.Formed (execLeaseAcquire core s) := by
  unfold execLeaseAcquire
  dsimp only
  split
  · refine formed_ite ?_ ((formed_next s).mpr hm)
    split
    · simp [hm]
    · split
      · split
        · next e => simp [acquire_wf (s := _) ((fst_mem e (recordKey_mem ..)).symm ▸ hm)]
        · next e => simp [fst_mem e (recordKey_mem ..), hm]
      · simp [hm]
  · exact (formed_next s).mpr hm

theorem fillLine_mem {t : State} {cell line l} (e : fillLine s cell line = some (t, l)) : t.mem = s.mem := by
  unfold fillLine at e
  dsimp only at e
  split at e
  · cases e
    rfl
  · split at e
    · split at e
      · cases e
        simp
      · cases e
    · cases e

theorem execIcacheFillDone_formed (hm : Memory.wf s.mem = true) {cell} : Outcome.Formed (execIcacheFillDone cell s) := by
  rw [execIcacheFillDone, formed_next]
  split
  · refine ite_wf (by simp [hm]) ?_
    split
    · simp [hm]
    · next e =>
      dsimp only
      split
      · simp [hm]
      · simp [fillLine_mem e, hm]
  · exact hm

theorem execFeWriteback_formed (hm : Memory.wf s.mem = true) {cell i} : Outcome.Formed (execFeWriteback cell i s) := by
  rw [execFeWriteback, formed_next]
  split
  · rw [wakeFull_mem, writeBack_mem, State.modCell_mem]
    exact hm
  · exact hm

theorem execQuiesceDone_formed (hm : Memory.wf s.mem = true) : Outcome.Formed (execQuiesceDone s) := by
  have h1 (l : List Nat) : Memory.wf (l.foldl faultQuiesced s.tick).mem = true := foldl_wf (fun _ _ h => by simp [h]) _ (by simp [hm])
  rw [execQuiesceDone, formed_next]
  refine ite_wf hm (ite_wf ?_ (h1 _))
  rw [State.setMreg_mem]
  exact foldl_wf (fun _ _ h => by simp [h]) _ (h1 _)

theorem startOver_wf : Memory.wf (startOver s).mem = true := reset_memOk

theorem execPowerGood_formed : Outcome.Formed (execPowerGood s) := (formed_next _).mpr startOver_wf
theorem execPcieFundamentalReset_formed : Outcome.Formed (execPcieFundamentalReset s) := (formed_next _).mpr startOver_wf

theorem execStageDone_formed (hm : Memory.wf s.mem = true) {images eccDie lanes} : Outcome.Formed (execStageDone images eccDie lanes s) := by
  rw [execStageDone.eq_def, formed_next]
  split
  · split
    · refine ite_wf ?_ ?_
      · rwa [State.setMreg_mem]
      · simp [hm]
    · simp [hm]
  · rw [State.setMreg_mem]
    simp [hm]
  · split
    · simp [hm]
    · rwa [State.setMreg_mem]
  · split
    · simp [hm]
    · rw [State.setMreg_mem]
      exact foldl_wf (fun _ _ h => by simp [h]) _ hm
  · exact hm

theorem setMreg_wf (hm : Memory.wf s.mem = true) (off v) : Memory.wf (s.setMreg off v).mem = true := by rwa [State.setMreg_mem]

theorem stopRun_wf (hm : Memory.wf s.mem = true) : Memory.wf (if s.ckRuns then s.setMreg 0x328 (ckctlReg (s.mreg 0x328) 0 2) else s).mem = true :=
  ite_wf (setMreg_wf hm ..) hm

theorem noQuiesce_wf (hm : Memory.wf s.mem = true) (quiescing numVfs) : Memory.wf { s with quiescing, numVfs }.mem = true := hm

theorem execPf0FunctionLevelReset_formed (hm : Memory.wf s.mem = true) : Outcome.Formed (execPf0FunctionLevelReset s) := by
  rw [execPf0FunctionLevelReset, formed_next]
  exact noQuiesce_wf (setMreg_wf (setMreg_wf (stopRun_wf (setMreg_wf (resetFunc_wf (resetVfs_wf hm) 0) 0x708 _)) ..) ..) ..

/-! #### Packets of a queue -/

theorem takePacket_wf (hm : Memory.wf s.mem = true) (ty part q) {f : State → Nat → List Byte → State}
    (hf : ∀ u k d, Memory.wf u.mem = true → Memory.wf (f u k d).mem = true) : Memory.wf (takePacket ty s part q f).mem = true := by
  unfold takePacket
  dsimp only
  refine ite_wf hm ?_
  split
  · simp [hm]
  · exact ite_wf (by simp [hm]) (ite_wf (hf _ _ _ (by simp [hm])) hm)

theorem waitLaunches_wf (hm : Memory.wf s.mem = true) (ty part q) {f : State → Nat → List Byte → State}
    (hf : ∀ u k d, Memory.wf u.mem = true → Memory.wf (f u k d).mem = true) : Memory.wf (waitLaunches ty s part q f).mem = true := by
  have go (u k d) (hu : Memory.wf u.mem = true) :
      Memory.wf (if launchesLeft u k then u.modQueue k fun q => { q with busy := .waits } else f u k d).mem = true :=
    ite_wf (by simp [hu]) (hf _ _ _ hu)
  unfold waitLaunches
  exact ite_wf (ite_wf (go _ _ _ hm) hm) (takePacket_wf hm _ _ _ go)

theorem execLaunchPacket_formed (hm : Memory.wf s.mem = true) {part q} : Outcome.Formed (execLaunchPacket part q s) :=
  (formed_next _).mpr <| takePacket_wf hm _ _ _ fun u k d hu => by
    dsimp only
    split <;> simp [hu]

theorem execWaitsig_formed (hm : Memory.wf s.mem = true) {part q} : Outcome.Formed (execWaitsig part q s) :=
  (formed_next _).mpr <| takePacket_wf hm _ _ _ fun u k d hu => testWait_wf (by simp [hu]) ..

theorem execSetsig_formed (hm : Memory.wf s.mem = true) {part q} : Outcome.Formed (execSetsig part q s) :=
  (formed_next _).mpr <| takePacket_wf hm _ _ _ fun u k d hu => by
    dsimp only
    split
    · simp [hu]
    · next e => exact packetDone_wf (unitSignal_wf (by simp [hu]) e) ..

theorem execLoadPacket_formed (hm : Memory.wf s.mem = true) {part q} : Outcome.Formed (execLoadPacket part q s) :=
  (formed_next _).mpr <| takePacket_wf hm _ _ _ fun u k d hu => by
    dsimp only
    refine ite_wf ?_ ?_
    · split <;> simp [hu]
    · split
      · simp [hu]
      · next file _ =>
        have hl := loadObject_wf (s := noteQueue u k (pkt d 0x10 8) (pkt d 0x18 8)) (by simp [hu]) part (u.queue k).asid (pkt d 0x2C 1 == 1) file
        split
        · next e => exact packetDone_wf (fst_wf e hl) ..
        · next e =>
          have h1 := fst_wf e hl
          exact packetDone_wf (by exact h1) ..

theorem execUnload_formed (hm : Memory.wf s.mem = true) {part q} : Outcome.Formed (execUnload part q s) :=
  (formed_next _).mpr <| waitLaunches_wf hm _ _ _ fun u k d hu => by split <;> simp [hu]

theorem execFencePacket_formed (hm : Memory.wf s.mem = true) {part q} : Outcome.Formed (execFencePacket part q s) :=
  (formed_next _).mpr <| waitLaunches_wf hm _ _ _ fun u k d hu => packetDone_wf hu ..

/-! #### Pages, ports and errors -/

theorem execCowCopyDone_formed (hm : Memory.wf s.mem = true) {i} : Outcome.Formed (execCowCopyDone i s) := by
  rw [execCowCopyDone, formed_next]
  split
  · exact hm
  · dsimp only
    split
    · rw [cowWake_mem, foldl_mem fun _ _ => killFor_mem ..]
      simp [hm]
    · simp [hm]

theorem execPageMigration_formed (hm : Memory.wf s.mem = true) {asid dva pa} : Outcome.Formed (execPageMigration asid dva pa s) := by
  rw [execPageMigration, formed_next]
  split
  · next w at_ size _ =>
    extract_lets n page old s1
    have h1 : Memory.wf s1.mem = true := copyRange_wf (performRange_wf hm ..) ..
    exact ite_wf hm (setEntry_wf h1 asid page _ size _)
  · exact hm

theorem execDieUnreachable_formed (hm : Memory.wf s.mem = true) {die} : Outcome.Formed (execDieUnreachable die s) := by
  rw [execDieUnreachable, formed_next]
  refine ite_wf hm ?_
  rw [quiesceOf_mem, foldl_mem fun _ _ => killPlain_mem ..]
  exact hm

theorem getD_noAnswer_wf {u : State} (hm : Memory.wf s.mem = true) (hu : Memory.wf u.mem = true) (p r) : Memory.wf ((noAnswer u p r).getD s).mem = true := by
  rcases e : noAnswer u p r with _ | t
  · exact hm
  · exact noAnswer_wf hu e

theorem execUalinkTimeout_formed (hm : Memory.wf s.mem = true) {r} : Outcome.Formed (execUalinkTimeout r s) := by
  rw [execUalinkTimeout, formed_next]
  exact ite_wf (getD_noAnswer_wf hm (by simp [hm]) ..) hm

theorem execPcieCompletionTimeout_formed (hm : Memory.wf s.mem = true) {r} : Outcome.Formed (execPcieCompletionTimeout r s) :=
  (formed_next _).mpr (getD_noAnswer_wf hm hm ..)

theorem amoAt_wf (hm : Memory.wf s.mem = true) (who hive key op size src cmp) : Memory.wf (amoAt s who hive key op size src cmp).1.mem = true := by
  unfold amoAt
  dsimp only
  refine ite_wf ?_ hm
  exact write_wf hm ..

theorem peerAt_wf (hm : Memory.wf s.mem = true) (pa n reads) {f : State → State × List Byte} (hf : Memory.wf (f s).1.mem = true) :
    Memory.wf (peerAt s pa n reads f).mem = true := by
  unfold peerAt
  refine ite_wf (by simp [hm]) ?_
  split <;> simp [hm, hf]

theorem execFabricPeerAccess_formed (hm : Memory.wf s.mem = true) {op} : Outcome.Formed (execFabricPeerAccess op s) := by
  rw [execFabricPeerAccess.eq_def, formed_next]
  have store (pa d) : Memory.wf (peerAt s pa d.length false fun s => (s.writeLong .peer none pa d, [])).mem = true :=
    peerAt_wf hm _ _ _ (writeLong_wf hm ..)
  split
  · exact peerAt_wf hm _ _ _ hm
  · exact peerAt_wf hm _ _ _ hm
  · exact store ..
  · exact store ..
  · split
    · exact ite_wf (peerAt_wf hm _ _ _ (amoAt_wf hm ..)) (by simp [hm])
    · simp [hm]

theorem execCoreRetire_formed (hm : Memory.wf s.mem = true) {core i group} : Outcome.Formed (execCoreRetire core i group s) := by
  rw [execCoreRetire, formed_next]
  split
  · refine ite_wf hm ?_
    rw [quiesceFor_mem, postReport_mem, orderHomeless_mem]
    refine evict_wf ?_ _
    rw [foldl_mem fun _ _ => retireLand_mem .., killPlain_mem, State.setMreg_mem, State.modCore_mem]
    exact hm
  · exact hm

theorem execUncorrectableError_formed (hm : Memory.wf s.mem = true) {e} : Outcome.Formed (execUncorrectableError e s) := by
  rw [execUncorrectableError.eq_def, formed_next]
  cases e with
  | dieTable die index gangs =>
    refine ite_wf ?_ hm
    rw [quiesceOf_mem, foldl_mem fun _ _ => errKill_mem .., postReport_mem]
    exact hm
  | hbm line => exact ite_wf hm hm
  | hbmRead line cell =>
    refine ite_wf ?_ hm
    rwa [errKill_mem]
  | context gang index => exact ite_wf (by simp [hm]) hm
  | cellState | ls | hsp | tile =>
    dsimp only
    repeat' split
    all_goals simp [hm]

end

/-- Each instruction and each step of the device keeps memory in its form. -/
theorem exec_formed {s : State} (hm : Memory.wf s.mem = true) (i : Instr) : Outcome.Formed (exec i s) := by
  delta exec
  cases i with
  | getVersion | getCapabilities | negotiateAlgorithms | getDigests | getCertificate | challenge | getMeasurements | registerWrite | merrClear |
    ferrClear | partSetValid | hmoveMove | hmoveFree | budgetPeriod | ckptQuiesce | ckptResume | ckptEngineGo | faultQuiesce | powerCapWrite |
    doorbell | bar0UnsupportedAccess | hostBar4Read | hostBar4Write | bar4PagerTimeout | queueEnable | queueDisable | queueResume |
    queueResumeSkip | waitsigSatisfied | launchComplete | placement | placementPeriod | leaseQuantumExpiry | swaitLimit | vsetvlwLimit |
    frmwaitLimit | wgrecvLimit | correctableError | patrolScrub | flitReceive | ucieReplay | linkRetrain | ualinkStationLoss | rotationBoundary |
    ualinkReplay | powerCapClockChange =>
    exact (formed_next _).mpr (by simp [hm])
  | beq | bne | blt | bge | bltu | bgeu => exact branch_formed hm
  | lb | lh | lw | ld | lbu | lhu | lwu | flw | flh => exact loadInto_formed hm
  | sb | sh | sw | sd => exact storeX_formed hm
  | addi | slti | sltiu | xori | ori | andi | addiw => exact aluRI_formed hm
  | slli | srli | srai | slliw | srliw | sraiw => exact aluSh_formed hm
  | add | sub | sll | slt | sltu | xor | srl | sra | or | and | addw | subw | sllw | srlw | sraw | mul | mulh | mulhsu | mulhu | mulw =>
    exact aluRR_formed hm
  | div | divu | rem | remu | divw | divuw | remw | remuw => exact divide_formed hm
  | fenceTso | pause => exact fenceOf_formed hm
  | csrrw | csrrs | csrrc | csrrwi | csrrsi | csrrci => exact csrOp_formed hm
  | lrW | lrD => exact loadReserved_formed hm
  | scW | scD => exact storeConditional_formed hm
  | amoswapW | amoaddW | amoxorW | amoandW | amoorW | amominW | amomaxW | amominuW | amomaxuW | amoswapD | amoaddD | amoxorD | amoandD | amoorD |
    amominD | amomaxD | amominuD | amomaxuD =>
    exact amoRv_formed hm
  | fsw | fsh => exact storeF_formed hm
  | fmaddS | fmsubS | fnmsubS | fnmaddS => exact fpFma_formed hm
  | faddS | fsubS | fmulS => exact fpRR_formed hm
  | fdivS | fsqrtS => exact fpSlow_formed hm
  | fsgnjS | fsgnjnS | fsgnjxS => exact fpSgn_formed hm
  | fminS | fmaxS => exact fpMinMax_formed hm
  | fcvtWS | fcvtWuS | fcvtLS | fcvtLuS => exact fpToInt_formed hm
  | fcvtSW | fcvtSWu | fcvtSL | fcvtSLu => exact fpOfInt_formed hm
  | fmvXW | fclassS | fmvXH => exact fpToX_formed hm
  | fmvWX | fmvHX => exact fpOfX_formed hm
  | feqS | fltS | fleS => exact fpCmp_formed hm
  | widf | widfExt | widfLvl => exact widRead_formed hm
  | vintVadd | vintVsub | vintVmul | vmulh | vintVmin | vintVmax | vminu | vmaxu | vand | vor | vxor | vsll | vsrl | vsra | vsadd | vssub =>
    exact vint_formed hm
  | vintVabs | vintVneg => exact vintUn_formed hm
  | vfltVadd | vfltVsub | vfltVmul | vfma | vfms | vfnma | vfltVmin | vfltVmax | vfltVabs | vfltVneg | vdiv | vsqrt | vrcp | vrsqrt | vexp2 |
    vlog2 | vsgnj =>
    exact vflt_formed hm
  | vcmpeq | vcmpne | vcmplt | vcmple | vcmpgt | vcmpge => exact vcmp_formed hm
  | mand | mor | mxor | mandn | mnot | mset | mclr => exact vmsk_formed hm
  | mpop | mfirst => exact vmskX_formed hm
  | vslideup | vslidedn | vbcast | vperm | vsel | vcompress => exact permute_formed hm
  | vmvVx | vmvVf => exact moveIn_formed hm
  | vld | vlds | vld2d | vldx => exact vecLoad_formed hm
  | vst | vsts => exact vecStore_formed hm fun _ => rfl
  | mdrain | mdrainRow | mdrainDly => exact drainOp_formed hm
  | qamoadd | qamoand | qamoor | qamoxor | qamomin | qamomax | qamominu | qamomaxu | qamoswap | qamocas => exact qamo_formed hm
  | ssig | sset => exact signalUpdate_formed hm
  | ldfe | ldfeK => exact ldfeOp_formed hm
  | stfe | stfeF => exact stfeOp_formed hm
  | fesetE | fesetF => exact fesetOp_formed hm
  | launch | launchNb => exact launchOp_formed hm
  | bjoin | bjoinW | bjoinAb | bjoinAbW => exact joinOp_formed hm
  | bkill | bkillAll => exact killOp_formed hm
  | powerGood => exact execPowerGood_formed
  | pcieFundamentalReset => exact execPcieFundamentalReset_formed
  | stageDone => exact execStageDone_formed hm
  | stageTimeout => exact execStageTimeout_formed hm
  | partClearValid => exact execPartClearValid_formed hm
  | hmoveComplete => exact execHmoveComplete_formed hm
  | quiesceDone => exact execQuiesceDone_formed hm
  | ckptRunEnd => exact execCkptRunEnd_formed hm
  | functionLevelReset => exact execFunctionLevelReset_formed hm
  | pf0FunctionLevelReset => exact execPf0FunctionLevelReset_formed hm
  | launchPacket => exact execLaunchPacket_formed hm
  | waitsig => exact execWaitsig_formed hm
  | waitsigLimit => exact execWaitsigLimit_formed hm
  | setsig => exact execSetsig_formed hm
  | loadPacket => exact execLoadPacket_formed hm
  | unload => exact execUnload_formed hm
  | fencePacket => exact execFencePacket_formed hm
  | icacheFillDone => exact execIcacheFillDone_formed hm
  | feWriteback => exact execFeWriteback_formed hm
  | pagerWake => exact execPagerWake_formed hm
  | cowCopyDone => exact execCowCopyDone_formed hm
  | pageMigration => exact execPageMigration_formed hm
  | remoteAccessArrival => exact execRemoteAccessArrival_formed hm
  | remoteReply => exact execRemoteReply_formed hm
  | asyncTrapDelivery => exact execAsyncTrapDelivery_formed hm
  | copyStart => exact execCopyStart_formed hm
  | frameSlotReserve => exact execFrameSlotReserve_formed hm
  | copyComplete => exact execCopyComplete_formed hm
  | copyWaggleDelivered => exact execCopyWaggleDelivered_formed hm
  | copyFailure => exact execCopyFailure_formed hm
  | laneFailure => exact execLaneFailure_formed hm
  | coreRetire => exact execCoreRetire_formed hm
  | waitReread => exact execWaitReread_formed hm
  | ldfeLimit => exact execLdfeLimit_formed hm
  | barLimit => exact execBarLimit_formed hm
  | wgsendLimit => exact execWgsendLimit_formed hm
  | broodDeadline => exact execBroodDeadline_formed hm
  | forcedLanding => exact execForcedLanding_formed hm
  | gangSaveDone => exact execGangSaveDone_formed hm
  | uncorrectableError => exact execUncorrectableError_formed hm
  | retrainDone => exact execRetrainDone_formed hm
  | dieUnreachable => exact execDieUnreachable_formed hm
  | ualinkTimeout => exact execUalinkTimeout_formed hm
  | fabricReply => exact execFabricReply_formed hm
  | heirHandover => exact execHeirHandover_formed hm
  | objectRangeRelease => exact execObjectRangeRelease_formed hm
  | generationUnmap => exact execGenerationUnmap_formed hm
  | turnSpentWithoutIssue => exact execTurnSpentWithoutIssue_formed hm
  | vectorInstructionComplete => exact execVectorInstructionComplete_formed hm
  | accessPerformedAtHome => exact execAccessPerformedAtHome_formed hm
  | icinvAcknowledged => exact execIcinvAcknowledged_formed hm
  | pcieCompletionTimeout => exact execPcieCompletionTimeout_formed hm
  | postedWriteUndeliverable => exact execPostedWriteUndeliverable_formed hm
  | fabricPeerAccess => exact execFabricPeerAccess_formed hm
  | tlbShootdown => exact execTlbShootdown_formed hm
  | configurationRequest => exact execConfigurationRequest_formed hm
  | tcopyMc => exact execTcopyMc_formed hm
  | lui => exact execLui_formed hm
  | auipc => exact execAuipc_formed hm
  | jal => exact execJal_formed hm
  | jalr => exact execJalr_formed hm
  | fenceI => exact execFenceI_formed hm
  | ecall => exact execEcall_formed hm
  | ebreak => exact execEbreak_formed hm
  | fcvtSBf16 => exact execFcvtSBf16_formed hm
  | fcvtBf16S => exact execFcvtBf16S_formed hm
  | loop => exact execLoop_formed hm
  | loopi => exact execLoopi_formed hm
  | lbrk => exact execLbrk_formed hm
  | yield => exact execYield_formed hm
  | vsetvl => exact execVsetvl_formed hm
  | vsetvlw => exact execVsetvlw_formed hm
  | vgrp => exact execVgrp_formed hm
  | mzero => exact execMzero_formed hm
  | mrel => exact execMrel_formed hm
  | mrelDiscard => exact execMrelDiscard_formed hm
  | mrowRd => exact execMrowRd_formed hm
  | mrowWr => exact execMrowWr_formed hm
  | amxrd => exact execAmxrd_formed hm
  | amxswp => exact execAmxswp_formed hm
  | amxmax => exact execAmxmax_formed hm
  | tcopy => exact execTcopy_formed hm
  | tcopySt => exact execTcopySt_formed hm
  | frminit => exact execFrminit_formed hm
  | frmwait => exact execFrmwait_formed hm
  | frmfree => exact execFrmfree_formed hm
  | qfence => exact execQfence_formed hm
  | swait => exact execSwait_formed hm
  | bar => exact execBar_formed hm
  | feprobe => exact execFeprobe_formed hm
  | wgsend => exact execWgsend_formed hm
  | wgrecv => exact execWgrecv_formed hm
  | wgpeek => exact execWgpeek_formed hm
  | retire => exact execRetire_formed hm
  | retireH => exact execRetireH_formed hm
  | bfork => exact execBfork_formed hm
  | bstat => exact execBstat_formed hm
  | bstatSib => exact execBstatSib_formed hm
  | tret => exact execTret_formed hm
  | traise => exact execTraise_formed hm
  | msave => exact execMsave_formed hm
  | mrstr => exact execMrstr_formed hm
  | icinv => exact execIcinv_formed hm
  | illegalInstruction => exact execIllegalInstruction_formed hm
  | vmvXv => exact execVmvXv_formed hm
  | vmvFv => exact execVmvFv_formed hm
  | vqnt => exact execVqnt_formed hm
  | vcvt => exact execVcvt_formed hm
  | vsrnd => exact execVsrnd_formed hm
  | vstx => exact execVstx_formed hm
  | mop1 => exact execMop1_formed hm
  | mopa => exact execMopa_formed hm
  | vredsum => exact execVredsum_formed hm
  | vredmax => exact execVredmax_formed hm
  | vredmin => exact execVredmin_formed hm
  | vredamax => exact execVredamax_formed hm
  | fence => exact execFence_formed hm
  | leaseAcquire => exact execLeaseAcquire_formed hm
  | mopaOperandsConsumed => exact execMopaOperandsConsumed_formed hm
  | matrixInstructionComplete => exact execMatrixInstructionComplete_formed hm

section
variable {s : State}

theorem fetchParcel_stop_mem {r : Res} {p} (e : fetchParcel s p = .stop r) : r.state.mem = s.mem := by
  unfold fetchParcel at e
  dsimp only at e
  repeat' split at e
  all_goals cases e
  all_goals simp

theorem fetch_stop_mem {r : Res} {len} (e : fetch s = .stop r len) : r.state.mem = s.mem := by
  unfold fetch at e
  dsimp only at e
  split at e
  · cases e
  · split at e
    · next e0 =>
      cases e
      exact (fetchParcel_stop_mem e0).trans (State.modMe_mem ..)
    · split at e
      · split at e
        · next e0 =>
          cases e
          exact (fetchParcel_stop_mem e0).trans (State.modMe_mem ..)
        · cases e
      · cases e

/-- The state that a step runs its instruction in, or is at its end in. -/
def Plan.state : Plan → State
  | .run _ s => s
  | .idle s => s

theorem planCell_wf (hm : Memory.wf s.mem = true) : Memory.wf (planCell s).state.mem = true := by
  have h1 : Memory.wf (countTurn s).mem = true := by rwa [countTurn_mem]
  unfold planCell
  dsimp only
  split
  · exact h1
  · split
    · next e => exact resumeStep_wf h1 e
    · split
      · exact h1
      · split
        · split <;> simp [Plan.state, hm]
        · next e =>
          rw [Plan.state, commit_mem, fetch_stop_mem e]
          exact h1

theorem planTurn_wf (hm : Memory.wf s.mem = true) (core) : Memory.wf (planTurn s core).state.mem = true := by
  unfold planTurn
  dsimp only
  split
  · exact planCell_wf (by rwa [takeTurn_mem])
  · split
    · exact planCell_wf (by rwa [takeTurn_mem, rotate_mem])
    · rwa [Plan.state, rotate_mem]

theorem plan_wf (hm : Memory.wf s.mem = true) : Memory.wf (plan s).state.mem = true := by
  unfold plan
  split
  · exact hm
  · exact planTurn_wf (by exact hm) _
  · simp [Plan.state, hm]
  · simp [Plan.state, hm]
  · simp [Plan.state, hm]
  · simp [Plan.state, hm]
  · split
    · exact hm
    · exact planTurn_wf hm _

theorem step_formed (hm : Memory.wf s.mem = true) : Outcome.Formed (step s) := by
  have hp := plan_wf hm
  unfold step
  split
  · next e =>
    rw [e] at hp
    exact exec_formed hp _
  · next e =>
    rw [e] at hp
    exact (formed_next _).mpr hp

end

/-- Settles O59: the form is kept by every operation that writes memory, so by each meaning of `exec`, and by the plan of a step. -/
theorem memoryKeepsItsForm : Obligations.MemoryKeepsItsForm :=
  ⟨reset_memOk, fun i _ t hm e => exec_formed hm i t e, fun _ t hm e => step_formed hm t e⟩

end Sys2Proof.Machine
end

section
/-! How an access is checked, and what is left where it does not pass (spec 07 R157, R158, R168; 05 R128; 06 R139, R142). -/

open Sys2Proof Sys2Proof.Machine

namespace Sys2Proof.Machine

/-! ### The outcomes of a check -/

section
variable {ea : Word} {n need : Nat}

theorem bits_segment (ea : Word) : bits ea.toNat 63 61 = ea.toNat / 2 ^ 61 := by
  have := ea.isLt
  rw [bits_of_width (w := 3) rfl]
  omega

theorem bits_offset (ea : Word) : bits ea.toNat 60 0 = ea.toNat % 2 ^ 61 := by
  rw [bits_of_width (w := 61) rfl, Nat.pow_zero, Nat.div_one]

/-- The checks of a segment in their order: its limit, its rights, and the space of device virtual addresses. -/
theorem segCheck_eq (g : Gang) : segCheck g ea n need =
    if (g.segment (ea.toNat / 2 ^ 61)).2.toNat / 16 * 16 < ea.toNat % 2 ^ 61 + n then .error (0x03, ea)
    else if (g.segment (ea.toNat / 2 ^ 61)).2.toNat % 16 &&& need ≠ need then .error (0x04, ea)
    else if 2 ^ 57 ≤ ((g.segment (ea.toNat / 2 ^ 61)).1.toNat + ea.toNat % 2 ^ 61) % 2 ^ 64 then .error (0x05, ea)
    else .ok (((g.segment (ea.toNat / 2 ^ 61)).1.toNat + ea.toNat % 2 ^ 61) % 2 ^ 64) := by
  have hspace (a : Nat) : (a / 2 ^ 57 != 0) = decide (2 ^ 57 ≤ a) := by
    rw [Bool.eq_iff_iff]
    simp only [bne_iff_ne, decide_eq_true_eq]
    omega
  unfold segCheck
  simp only [bits_segment, bits_offset, hspace, decide_eq_true_eq, bne_iff_ne]
  rfl

end

section
variable {s t : State} {kind : Kind} {ea : Word} {n right : Nat}

/-- An instruction that checks an access traps where the check does. -/
def Refuses (s : State) (ea : Word) (kind : Kind) (right n : Nat) (i : Instr) : Prop :=
  ∀ t cause, resolve (begun s 4) kind ea n right n = .error (.trap t cause ea) → exec i s = .next (trapped t 4 cause ea)

theorem resolve_trap {cause : Nat} (h : segCheck s.myGang ea n right = .error (cause, ea)) : resolve s kind ea n right n = .error (.trap s cause ea) := by
  rw [resolve, h]

theorem resolve_misaligned {dva : Nat} (h : segCheck s.myGang ea n right = .ok dva) (ha : ea.toNat % n ≠ 0) :
    resolve s kind ea n right n = .error (.trap s 0x02 ea) := by
  rw [resolve, h]
  simp only [bne_iff_ne, ne_eq, ha, not_false_eq_true, if_true]
  rfl

theorem resolve_denied {dva : Nat} (h : segCheck s.myGang ea n right = .ok dva) (ha : ea.toNat % n = 0) (hl : look s s.me.gang kind dva n = .denied) :
    ∃ t, seen s t ∧ resolve s kind ea n right n = .error (.trap t 0x05 ea) := by
  rw [resolve, h]
  simp only [bne_iff_ne, ne_eq, ha, not_true_eq_false, if_false]
  unfold resolveDva
  simp only [hl]
  split
  · exact ⟨s, seen_refl s, rfl⟩
  · exact ⟨_, faultPast_seen s dva, rfl⟩

end

/-- What a failed check of an access of a calm cell comes to (spec 07 R157, R158, R168). -/
def TrapsInOrder (s : State) (ea : Word) (kind : Kind) (right n : Nat) (i : Instr) : Prop :=
  let u := begun s 4
  let trap (cause : Nat) : Prop := exec i s = .next (trapped u 4 cause ea)
  let seg := s.myGang.segment (ea.toNat / 2 ^ 61)
  let o := ea.toNat % 2 ^ 61
  let beyond : Prop := seg.2.toNat / 16 * 16 < o + n
  let lacks : Prop := seg.2.toNat % 16 &&& right ≠ right
  let dva := (seg.1.toNat + o) % 2 ^ 64
  (beyond → trap 0x03) ∧ (¬ beyond → lacks → trap 0x04) ∧ (¬ beyond → ¬ lacks → 2 ^ 57 ≤ dva → trap 0x05)
  ∧ (¬ beyond → ¬ lacks → dva < 2 ^ 57 → (ea.toNat % n ≠ 0 → trap 0x02)
      ∧ (ea.toNat % n = 0 → look u s.me.gang kind dva n = .denied → ∃ t, seen u t ∧ exec i s = .next (trapped t 4 0x05 ea)))

section
variable {s : State} (h : calm s = true)
include h

theorem trapsInOrder {ea : Word} {kind : Kind} {right n : Nat} {i : Instr} (hi : Refuses s ea kind right n i) : TrapsInOrder s ea kind right n i := by
  unfold TrapsInOrder
  intro u trap seg o beyond lacks dva
  have hseg := (congrArg (segCheck · ea n right) (begun_gang h 4)).trans (segCheck_eq s.myGang)
  have hgang : u.me.gang = s.me.gang := by rw [begun_me h]
  refine ⟨fun hb => ?limit, fun hb hl => ?rights, fun hb hl hd => ?space, fun hb hl hd => ⟨fun ha => ?align, fun ha hk => ?denied⟩⟩
  case limit => exact hi _ _ (resolve_trap (by rw [hseg, if_pos hb]))
  case rights => exact hi _ _ (resolve_trap (by rw [hseg, if_neg hb, if_pos hl]))
  case space => exact hi _ _ (resolve_trap (by rw [hseg, if_neg hb, if_neg hl, if_pos hd]))
  case align => exact hi _ _ (resolve_misaligned (by rw [hseg, if_neg hb, if_neg hl, if_neg (Nat.not_le.mpr hd)]) ha)
  case denied =>
    obtain ⟨t, ht, e⟩ := resolve_denied (by rw [hseg, if_neg hb, if_neg hl, if_neg (Nat.not_le.mpr hd)]) ha (hgang ▸ hk)
    exact ⟨t, ht, hi _ _ e⟩

/-! ### The instructions that check an access -/

variable {rd rs1 rs2 : Reg} {imm : BitVec 12} {aq rl : Bool} {n cause : Nat} {t : State} {ea : Word}

theorem loadInto_refused {d : Dst} {ext : Nat → Nat}
    (e : resolve (begun s 4) .load (rdX s rs1 + imm.signExtend 64) n rRead n = .error (.trap t cause ea)) :
    loadInto d n ext rs1 imm s = .next (trapped t 4 cause ea) := by
  unfold loadInto
  rw [issue_calm h 4 _ _ _ _ rfl, loadVal, begun_reply h, eaOf, getX_calm h, e]
  rfl

theorem storeX_refused (e : resolve (begun s 4) .store (rdX s rs1 + imm.signExtend 64) n rWrite n = .error (.trap t cause ea)) :
    storeX n rs1 rs2 imm s = .next (trapped t 4 cause ea) := by
  unfold storeX
  rw [issue_calm h 4 _ _ _ _ rfl, storeVal, eaOf, getX_calm h, e]
  rfl

theorem storeF_refused (e : resolve (begun s 4) .store (rdX s rs1 + imm.signExtend 64) n rWrite n = .error (.trap t cause ea)) :
    storeF n rs1 rs2 imm s = .next (trapped t 4 cause ea) := by
  unfold storeF
  rw [issue_calm h 4 _ _ _ _ rfl, storeVal, eaOf, getX_calm h, e]
  rfl

theorem loadReserved_refused (e : resolve (begun s 4) .load (rdX s rs1) n rRead n = .error (.trap t cause ea)) :
    loadReserved n rd rs1 aq rl s = .next (trapped t 4 cause ea) := by
  unfold loadReserved
  rw [issue_calm h 4 _ _ _ _ rfl]
  simp only [begun_reply h, getX_calm h, e]
  rfl

theorem loadReserved_outside {pa : Nat} (hq : rl = true → quiet s = true) (e : resolve (begun s 4) .load (rdX s rs1) n rRead n = .ok (t, .host pa)) :
    loadReserved n rd rs1 aq rl s = .next (trapped t 4 0x05 (rdX s rs1)) := by
  obtain ⟨-, -, -, -, -, -, -, -, -, hquiet, -⟩ := passed_me h e
  unfold loadReserved
  rw [issue_calm h 4 _ _ _ _ rfl]
  simp only [begun_reply h, getX_calm h, e, op_bind_ok, release_bind fun hr => hquiet (hq hr)]
  rfl

theorem storeConditional_refused (e : resolve (begun s 4) .atomic (rdX s rs1) n rAtomic n = .error (.trap t cause ea)) :
    storeConditional n rd rs1 rs2 aq rl s = .next (trapped t 4 cause ea) := by
  unfold storeConditional
  rw [issue_calm h 4 _ _ _ _ rfl]
  simp only [begun_reply h, getX_calm h, e]
  rfl

theorem amoRv_refused {op : AmoOp} (e : resolve (begun s 4) .atomic (rdX s rs1) n rAtomic n = .error (.trap t cause ea)) :
    amoRv op n rd rs1 rs2 aq rl s = .next (trapped t 4 cause ea) := by
  unfold amoRv
  rw [issue_calm h 4 _ _ _ _ rfl, atomic, begun_reply h, getX_calm h, e]
  rfl

end

/-- What translation leaves behind is of no other cell. -/
theorem seen_other {s t : State} (h : seen s t) : t.gangs = s.gangs ∧ ∀ c, c ≠ s.cur → t.cell c = s.cell c := by
  obtain ⟨hv, dv, ht, fc, rfl | rfl⟩ := h
  · exact ⟨rfl, fun _ _ => rfl⟩
  · exact ⟨rfl, fun _ hc => modMe_other s _ hc⟩

/-- A passed access is aligned. -/
theorem resolve_aligned {s t : State} {kind : Kind} {ea : Word} {n need align : Nat} {idx : Option Nat} {stride : Word} {g : Target}
    (h : resolve s kind ea n need align idx stride = .ok (t, g)) : ea.toNat % align = 0 := by
  unfold resolve at h
  split at h
  · cases h
  · split at h
    · cases h
    · next ha => simpa using ha

/-- Settles O4: what a passed check leaves behind, and the traps of a failed one, for each family of accesses. -/
theorem passedAccessLeavesOnlyTranslation : Obligations.PassedAccessLeavesOnlyTranslation := by
  refine ⟨fun s s1 kind ea n need align idx stride t hr => ?passed, fun s rd rs1 rs2 imm aq rl h => ?checked⟩
  case passed =>
    have hs := resolve_seen hr
    have hmem : s1.mem = s.mem ∧ s1.posted = s.posted := by
      obtain ⟨_, _, _, _, rfl | rfl⟩ := hs <;> exact ⟨rfl, rfl⟩
    exact ⟨hs, hmem.1, (seen_other hs).1, hmem.2, resolve_aligned hr, (seen_other hs).2⟩
  case checked =>
    intro u checks outside a loads stores lrs atomics
    refine ⟨?loads, ?stores, ?lrs, ?atomics⟩
    case loads =>
      have load {d : Dst} {n : Nat} {ext : Nat → Nat} {i : Instr} (hi : exec i s = loadInto d n ext rs1 imm s) :
          TrapsInOrder s (a + imm.signExtend 64) .load rRead n i := trapsInOrder h fun t cause e => hi.trans (loadInto_refused h e)
      simp only [loads, List.forall_mem_cons]
      exact ⟨load rfl, load rfl, load rfl, load rfl, load rfl, load rfl, load rfl, load rfl, load rfl, fun _ he => nomatch he⟩
    case stores =>
      have store {n : Nat} {i : Instr} (hi : exec i s = storeX n rs1 rs2 imm s) : TrapsInOrder s (a + imm.signExtend 64) .store rWrite n i :=
        trapsInOrder h fun t cause e => hi.trans (storeX_refused h e)
      have storeF {n : Nat} {i : Instr} (hi : exec i s = storeF n rs1 rs2 imm s) : TrapsInOrder s (a + imm.signExtend 64) .store rWrite n i :=
        trapsInOrder h fun t cause e => hi.trans (storeF_refused h e)
      simp only [stores, List.forall_mem_cons]
      exact ⟨store rfl, store rfl, store rfl, store rfl, storeF rfl, storeF rfl, fun _ he => nomatch he⟩
    case lrs =>
      have lr {n : Nat} {i : Instr} (hi : exec i s = loadReserved n rd rs1 aq rl s) :
          TrapsInOrder s a .load rRead n i ∧ ∀ t pa, (rl = true → quiet s = true) → resolve u .load a n rRead n = .ok (t, .host pa) →
            exec i s = .next (trapped t 4 0x05 a) :=
        ⟨trapsInOrder h fun t cause e => hi.trans (loadReserved_refused h e), fun t pa hq e => hi.trans (loadReserved_outside h hq e)⟩
      simp only [lrs, List.forall_mem_cons]
      exact ⟨lr rfl, lr rfl, fun _ he => nomatch he⟩
    case atomics =>
      have sc {n : Nat} {i : Instr} (hi : exec i s = storeConditional n rd rs1 rs2 aq rl s) : TrapsInOrder s a .atomic rAtomic n i :=
        trapsInOrder h fun t cause e => hi.trans (storeConditional_refused h e)
      have amo {n : Nat} {op : AmoOp} {i : Instr} (hi : exec i s = amoRv op n rd rs1 rs2 aq rl s) : TrapsInOrder s a .atomic rAtomic n i :=
        trapsInOrder h fun t cause e => hi.trans (amoRv_refused h e)
      simp only [atomics, List.forall_mem_cons]
      exact ⟨sc rfl, sc rfl, amo rfl, amo rfl, amo rfl, amo rfl, amo rfl, amo rfl, amo rfl, amo rfl, amo rfl, amo rfl, amo rfl, amo rfl, amo rfl, amo rfl,
        amo rfl, amo rfl, amo rfl, amo rfl, fun _ he => nomatch he⟩

end Sys2Proof.Machine
end

section
/-! A store on its way, and the bytes that change where it is performed (spec 07 R165, R168; 13 R288, R301). -/

open Sys2Proof Sys2Proof.Machine

namespace Sys2Proof.Machine

/-! ### A write at its home -/

section
variable {s : State}

@[simp] theorem write_posted (who hive k d) : (s.write who hive k d).posted = s.posted := by
  unfold State.write
  split <;> rfl

/-- A store that its home performs is a write of its bytes, and a release where it is one. -/
theorem performPost_write {p : Post} {d : List Byte} (hhome : p.home = .hbm) (hop : p.op = .write d) :
    performPost s p =
      let t := s.write (.cell p.cell) (some (hiveOfCell p.cell)) p.pa d
      if p.rel then t.released (.cell p.cell) p.pa d.length p.sc else t := by
  unfold performPost
  rw [hhome, hop]

theorem stored_performPost {p : Post} {d : List Byte} (hhome : p.home = .hbm) (hop : p.op = .write d) : stored s (performPost s p) p.pa d := by
  apply stored_of_poke
  rw [performPost_write hhome hop]
  dsimp only
  split
  · exact write_mem ..
  · rw [write_mem]

/-- What memory holds does not depend on the rest of the state. -/
theorem stored_mem {t u : State} {k : Nat} {d : List Byte} (h : u.mem = t.mem) (hs : stored s t k d) : stored s u k d := by
  have hbyte (a : Nat) : u.byte a = t.byte a := by rw [State.byte, h]; rfl
  exact ⟨fun j hj => (hbyte _).trans (hs.1 j hj), fun a ha => (hbyte a).trans (hs.2 a ha)⟩

theorem performPost_write_posted {p : Post} {d : List Byte} (hhome : p.home = .hbm) (hop : p.op = .write d) : (performPost s p).posted = s.posted := by
  rw [performPost_write hhome hop]
  dsimp only
  split <;> simp

theorem wakePerformed_posted (c) : (wakePerformed s c).posted = s.posted := by
  unfold wakePerformed
  split <;> rfl

/-- A post that no earlier one of its cell holds back is performed. -/
theorem accessPerformedAtHome_first {cell i n : Nat} {p : Post} (hp : (s.posted.zipIdx.filter fun e => e.1.cell == cell)[i]? = some (p, n))
    (h : ¬ (((s.posted.zipIdx.filter fun e => e.1.cell == cell).take i).any
      fun e => e.1.home == p.home && (p.home != .hbm || overlap e.1.pa e.1.size p.pa p.size)) = true) :
    exec (.accessPerformedAtHome cell i) s = .next (wakePerformed (performPost { s with posted := dropAt s.posted n } p) cell) := by
  rw [exec_accessPerformedAtHome, execAccessPerformedAtHome]
  simp only [hp, if_neg h]

/-- What a write leaves of the cells' registers. -/
theorem write_regs (who hive k d c) : ((s.write who hive k d).cell c).x = (s.cell c).x ∧ ((s.write who hive k d).cell c).f = (s.cell c).f
    ∧ ((s.write who hive k d).cell c).v = (s.cell c).v ∧ ((s.write who hive k d).cell c).csr = (s.cell c).csr
    ∧ ((s.write who hive k d).cell c).pc = (s.cell c).pc := by
  simp only [State.cell, Tab.getD, write_find]
  cases Tab.find s.cells c with
  | none => exact ⟨rfl, rfl, rfl, rfl, rfl⟩
  | some v =>
    obtain ⟨hx, hf, hv, hcsr, hpc, -⟩ := writeSeen_regs who k d.length c v
    exact ⟨hx, hf, hv, hcsr, hpc⟩

theorem storeTo_hbm {k : Nat} (hk : isHbm k = true) (ea : Word) (d : List Byte) : storeTo s (.key k) ea d = post s k ea (.write d) := if_pos hk

theorem storeTo_own {k : Nat} (hk : isHbm k = false) (ea : Word) (d : List Byte) : storeTo s (.key k) ea d = s.write (.cell s.cur) none k d :=
  if_neg (by simp [hk])

end

/-- Settles O6: a store writes its bytes at once or posts them, and its home performs it as a write. -/
theorem storesChangeTheirBytesOnly : Obligations.StoresChangeTheirBytesOnly := by
  refine ⟨fun s k ea d _ => ⟨fun hk => ?own, fun hk => ?hbm, fun p => stored_performPost, fun c => ?registers⟩, fun s cell i n p d _ hp hearlier hhome hop => ?home⟩
  case own =>
    rw [storeTo_own hk]
    exact stored_of_poke (write_mem ..)
  case hbm =>
    rw [storeTo_hbm hk]
    exact ⟨rfl, rfl⟩
  case registers =>
    rcases hk : isHbm k
    · rw [storeTo_own hk]
      exact write_regs ..
    · rw [storeTo_hbm hk]
      exact ⟨rfl, rfl, rfl, rfl, rfl⟩
  case home =>
    have hfirst : ¬ (((s.posted.zipIdx.filter fun e => e.1.cell == cell).take i).any
        fun e => e.1.home == p.home && (p.home != .hbm || overlap e.1.pa e.1.size p.pa p.size)) = true := by
      rw [Bool.not_eq_true, List.any_eq_false]
      intro e he
      simpa [hhome] using hearlier e he
    refine ⟨_, accessPerformedAtHome_first hp hfirst, ?_, ?_⟩
    · exact stored_mem (wakePerformed_mem ..) (stored_performPost (s := { s with posted := dropAt s.posted n }) hhome hop)
    · rw [wakePerformed_posted, performPost_write_posted hhome hop]
      rfl

end Sys2Proof.Machine
end

section
/-! The pager's answers, changes of the table, copies of pages and migrations (spec 07 R169 to R174; 20 R413). -/

open Sys2Proof Sys2Proof.Machine

namespace Sys2Proof.Machine

/-! ### The bytes of a copied range -/

section
variable {s : State} {src dst n : Nat}

theorem performRange_none (h : s.posted = []) (k n : Nat) : performRange s k n = s := by
  unfold performRange performAll
  simp only [h, List.filter_nil, List.foldl_nil]
  rw [← h]

/-- Bytes put one after the other at their places in a copy: the place of a byte holds it. -/
theorem getD_copied (j : Nat) : ∀ {l : List Host.Cell} {m : List Host.Cell}, l.Pairwise (fun a b => a.1 < b.1) → (∀ e ∈ l, src ≤ e.1) → Memory.wf m = true →
    Tab.getD (l.foldl (fun (m : List Host.Cell) e => Tab.setD m (e.1 - src + dst) memDefault e.2) m) (dst + j) memDefault
      = (Tab.find l (src + j)).getD (Tab.getD m (dst + j) memDefault)
  | [], _, _, _, _ => rfl
  | e :: l, m, hl, hsrc, hm => by
    obtain ⟨hfirst, hrest⟩ := List.pairwise_cons.mp hl
    have he : src ≤ e.1 := hsrc e (List.mem_cons_self ..)
    rw [List.foldl_cons, getD_copied j hrest (fun x hx => hsrc x (List.mem_cons_of_mem _ hx)) (Tab.wf_setD hm ..)]
    by_cases hj : e.1 = src + j
    · have hplace : e.1 - src + dst = dst + j := by omega
      have hnone : Tab.find l (src + j) = none := Tab.find_above fun x hx => hj ▸ hfirst x hx
      rw [hnone, Option.getD_none, hplace, Tab.getD_setD_self (Tab.wf_sorted hm), Tab.find, if_pos hj.symm, Option.getD_some]
    · have hplace : dst + j ≠ e.1 - src + dst := by omega
      rw [Tab.getD_setD_ne _ _ _ hplace, Tab.find, if_neg fun h => hj h.symm]

/-- Bytes put at their places in a copy change no other. -/
theorem getD_copied_out {a : Nat} : ∀ (l : List Host.Cell) (m : List Host.Cell), (∀ e ∈ l, a ≠ e.1 - src + dst) →
    Tab.getD (l.foldl (fun (m : List Host.Cell) e => Tab.setD m (e.1 - src + dst) memDefault e.2) m) a memDefault = Tab.getD m a memDefault
  | [], _, _ => rfl
  | e :: l, m, h => by
    rw [List.foldl_cons, getD_copied_out l _ fun x hx => h x (List.mem_cons_of_mem _ hx), Tab.getD_setD_ne _ _ _ (h e (List.mem_cons_self ..))]

theorem getD_wipe_in (m : List Host.Cell) {a : Nat} (h : dst ≤ a ∧ a < dst + n) : Tab.getD (wipe m dst n) a memDefault = memDefault := by
  rw [Tab.getD, wipe, Tab.find_filter m fun k => !(decide (dst ≤ k) && decide (k < dst + n)), if_neg (by simp [h])]
  rfl

theorem getD_wipe_out (m : List Host.Cell) {a : Nat} (h : a < dst ∨ dst + n ≤ a) : Tab.getD (wipe m dst n) a memDefault = Tab.getD m a memDefault := by
  rw [Tab.getD, wipe, Tab.find_filter m fun k => !(decide (dst ≤ k) && decide (k < dst + n)), if_pos (by simp; omega)]
  rfl

/-- Where no write is on its way and no line is refused, a copied range is the bytes of its source put at their places. -/
theorem copyRange_mem (hp : s.posted = []) (hr : s.refused = []) (asid page : Nat) : (copyRange s asid page src dst n).mem =
    (s.mem.filter fun e => decide (src ≤ e.1) && decide (e.1 < src + n)).foldl
      (fun (m : List Host.Cell) e => Tab.setD m (e.1 - src + dst) memDefault e.2) (wipe s.mem dst n) := by
  unfold copyRange
  simp only [performRange_none hp, hr, List.filter_nil, List.foldl_nil]

theorem copyRange_byte_in (hm : memOk s = true) (hp : s.posted = []) (hr : s.refused = []) (asid page : Nat) {j : Nat} (hj : j < n) :
    (copyRange s asid page src dst n).byte (dst + j) = s.byte (src + j) := by
  have hsorted : (s.mem.filter fun e => decide (src ≤ e.1) && decide (e.1 < src + n)).Pairwise fun a b => a.1 < b.1 :=
    (Tab.sorted_iff.mp (Tab.wf_sorted hm)).filter _
  have hsrc : ∀ e ∈ s.mem.filter fun e => decide (src ≤ e.1) && decide (e.1 < src + n), src ≤ e.1 := fun e he => by
    simp only [List.mem_filter, Bool.and_eq_true, decide_eq_true_eq] at he
    exact he.2.1
  rw [State.byte, copyRange_mem hp hr, getD_copied j hsorted hsrc (m := wipe s.mem dst n) (Tab.wf_filter hm _), getD_wipe_in _ (by omega),
    Tab.find_filter s.mem fun k => decide (src ≤ k) && decide (k < src + n), if_pos (by simp; omega)]
  rfl

theorem copyRange_byte_out (hp : s.posted = []) (hr : s.refused = []) (asid page : Nat) {a : Nat} (ha : a < dst ∨ dst + n ≤ a) :
    (copyRange s asid page src dst n).byte a = s.byte a := by
  have hplace : ∀ e ∈ s.mem.filter fun e => decide (src ≤ e.1) && decide (e.1 < src + n), a ≠ e.1 - src + dst := fun e he => by
    simp only [List.mem_filter, Bool.and_eq_true, decide_eq_true_eq] at he
    omega
  rw [State.byte, copyRange_mem hp hr, getD_copied_out _ _ hplace, getD_wipe_out _ ha]
  rfl

end

/-! ### What the pager answers -/

section
variable {s : State} {k : Nat} {c : Cell}

/-- A trap that its handler takes at once (spec 18 R371). -/
theorem takeTrap_enters {t : TrapInfo} (hc : Tab.find s.cells k = some c) (hlev : c.tlev < 2) (hvec : c.csr.ttvec ≠ 0) (hbusy : vecBusy s k = false) :
    takeTrap s k t = { s.modCell k fun c => enterTrap c t with freeCtr := s.freeCtr + 1 } := by
  unfold takeTrap
  simp only [cell_of_find hc, ge_iff_le, Nat.not_le.mpr hlev, if_false, hvec, hbusy, Bool.false_eq_true]

@[simp] theorem leaveRecords_x (c : Cell) : c.leaveRecords.x = c.x := by unfold Cell.leaveRecords; split <;> rfl
@[simp] theorem leaveRecords_tlev (c : Cell) : c.leaveRecords.tlev = c.tlev := by unfold Cell.leaveRecords; split <;> rfl
@[simp] theorem leaveRecords_csr (c : Cell) : c.leaveRecords.csr = c.csr := by unfold Cell.leaveRecords; split <;> rfl

/-- A trap's entry (spec 18 R371 to R373). -/
theorem enterTrap_entry (c : Cell) (t : TrapInfo) : (enterTrap c t).tlev = c.tlev + 1 ∧ (enterTrap c t).pc = c.csr.ttvec ∧ (enterTrap c t).x = c.x :=
  ⟨rfl, rfl, rfl⟩

theorem enterTrap_first {c : Cell} {t : TrapInfo} (h : c.tlev = 0) : (enterTrap c t).csr.tcause1 = BitVec.ofNat 64 t.cause
    ∧ (enterTrap c t).csr.tepc1 = t.epc ∧ (enterTrap c t).csr.tval1 = t.tval := by
  unfold enterTrap
  simp only [h, if_true]
  split <;> exact ⟨rfl, rfl, rfl⟩

theorem pagerWake_cell {seq : Nat} {v : Verdict} (h : pagerMay s (.cell k seq) v = true) :
    exec (.pagerWake (.cell k seq) v) s = .next (wakeCell s k seq v) := by
  rw [exec_pagerWake, execPagerWake.eq_def, h]
  rfl

theorem pagerWake_unable {w : WakeTarget} {v : Verdict} (h : pagerMay s w v = false) : exec (.pagerWake w v) s = .next s := by
  rw [exec_pagerWake, execPagerWake.eq_def, h]
  rfl

section
variable {dva n : Nat} {tval : Word} {idx : Option Nat} (hc : Tab.find s.cells k = some c) (hr : c.run = .parked (.page dva n tval idx))
include hc hr

theorem wakeCell_other {seq : Nat} (hn : n ≠ seq) (v : Verdict) : wakeCell s k seq v = s := by
  unfold wakeCell
  simp only [hc, Option.map_some, hr, bne_iff_ne, ne_eq, hn, not_false_eq_true, if_true]

/-- A waiting cell whose page the pager answers for. -/
theorem wakeCell_page (v : Verdict) : wakeCell s k n v =
    match v with
    | .retry => (abandonFaults s k).modCell k fun c => { c with run := .ready }
    | .fatal => takeTrap ((unlatch (abandonFaults s k) k).modCell k Cell.leaveRecords) k
        { cause := 0x05, tval, epc := c.excPc, ilen := c.ilen, async := false, vrec := idx, mrec := false }
    | .gone => killPlain (abandonFaults s k) c.gang 0x82 c.pc k := by
  unfold wakeCell
  simp only [hc, Option.map_some, hr, bne_self_eq_false, Bool.false_eq_true, if_false, cell_of_find hc]
  rfl

/-- A cell whose access the pager denies, with no result held back, enters its handler. -/
theorem wakeCell_fatal (hl : c.latch = []) (hp : c.pushed = []) (hlev : c.tlev < 2) (hvec : c.csr.ttvec ≠ 0) (hbusy : vecBusy s k = false) :
    (wakeCell s k n .fatal).mem = s.mem ∧ (wakeCell s k n .fatal).cell k = enterTrap ({ c with latch := [] } : Cell).leaveRecords
      { cause := 0x05, tval, epc := c.excPc, ilen := c.ilen, async := false, vrec := idx, mrec := false } := by
  have hfind : Tab.find (abandonFaults s k).cells k = some c := hc
  have hleft := find_modCell_self (find_modCell_self hfind fun c => { c with latch := [] }) Cell.leaveRecords
  rw [wakeCell_page hc hr]
  dsimp only
  rw [unlatch_nil hfind hl hp, takeTrap_enters hleft (by simpa using hlev) (by simpa using hvec) hbusy]
  exact ⟨rfl, cell_of_find (find_modCell_self hleft _)⟩

end
end

section
variable {s : State} {asid dva at_ size m pa : Nat}

theorem setEntry_mem (w : Word) : (setEntry s asid dva at_ size w).mem = memPut s.mem at_ (leBytes w.toNat 8) := rfl

theorem setEntry_objects (w : Word) : (setEntry s asid dva at_ size w).objects = s.objects := rfl

theorem copyRange_objects (hp : s.posted = []) (asid page src dst n : Nat) : (copyRange s asid page src dst n).objects = s.objects := by
  unfold copyRange
  rw [performRange_none hp]

/-- A migration with no write on its way (spec 07 R174). -/
theorem pageMigration_moves (hw : walk s asid dva = .leaf m at_ size) (htgt : pteTgt m = 0) (hpa : pa % 2 ^ size = 0) (hend : pa + 2 ^ size ≤ 2 ^ 39)
    (hover : overlap (pteAddr m) (2 ^ size) pa (2 ^ size) = false)
    (hcow : (s.cows.any fun c => c.asid == asid && overlap c.dva 65536 (dva / 2 ^ size * 2 ^ size) (2 ^ size)) = false) (hp : s.posted = []) :
    exec (.pageMigration asid dva pa) s =
      let t := copyRange s asid (dva / 2 ^ size * 2 ^ size) (pteAddr m) pa (2 ^ size)
      .next (setEntry { t with objects := Tab.mapV t.objects (movePages asid (pteAddr m) pa (2 ^ size)) } asid (dva / 2 ^ size * 2 ^ size) at_ size
        (setField (BitVec.ofNat 64 m) 43 12 (pa / 4096))) := by
  rw [exec_pageMigration, execPageMigration, hw]
  simp only [htgt, hpa, hover, hcow, performRange_none hp, Nat.not_lt.mpr hend, bne_self_eq_false, decide_false, Bool.or_self, Bool.false_eq_true, if_false]

end

/-- Settles O47: the pager's answers by `wakeCell_page`, and copies and migrations by the bytes of a copied range. -/
theorem pagerAndPages : Obligations.PagerAndPages := by
  intro s cell seq n dva asid at_ size i pa tval entry idx c
  refine ⟨fun hc hr => ⟨?answers, ?other⟩, fun w v => pagerWake_unable, ?entry, ?cow, ?copied, ?migrated⟩
  case answers =>
    rintro rfl
    refine ⟨fun h => ?_, fun h => ?_, fun h hl hp hlev hvec hbusy => ?_⟩
    · rw [pagerWake_cell h, wakeCell_page hc hr]
    · rw [pagerWake_cell h, wakeCell_page hc hr]
    · obtain ⟨hmem, hcell⟩ := wakeCell_fatal hc hr hl hp hlev hvec hbusy
      refine ⟨_, pagerWake_cell h, ?_, ?_, ?_, fun h0 => ?_, hmem⟩
      · simp [hcell, (enterTrap_entry ..).1]
      · simp [hcell, (enterTrap_entry ..).2.1]
      · simp [hcell, (enterTrap_entry ..).2.2]
      · rw [hcell]
        exact enterTrap_first (by simpa using h0)
  case other =>
    intro hn v
    rcases h : pagerMay s (.cell cell seq) v
    · exact pagerWake_unable h
    · rw [pagerWake_cell h, wakeCell_other hc hr hn]
  case entry =>
    intro hw
    rw [exec_tlbShootdown, execTlbShootdown, hw]
    rfl
  case cow =>
    intro x hx hr
    rw [exec_cowCopyDone, execCowCopyDone, hx]
    simp only [hr]
  case copied =>
    exact fun page src dst len hm hr hp _ => ⟨fun j hj => copyRange_byte_in hm hp hr asid page hj, fun a ha => copyRange_byte_out hp hr asid page ha⟩
  case migrated =>
    intro m hw htgt hpa hend hover hcows hp
    have hcow : (s.cows.any fun c => c.asid == asid && overlap c.dva 65536 (dva / 2 ^ size * 2 ^ size) (2 ^ size)) = false := by
      rw [List.any_eq_false]
      intro x hx
      simpa using hcows x hx
    refine ⟨_, pageMigration_moves hw htgt hpa hend hover hcow hp, ?_, ?_⟩
    · rw [setEntry_objects, copyRange_objects hp]
    · rw [setEntry_mem, setEntry_mem]

end Sys2Proof.Machine
end

section
/-! Requests to remote ports and to the fabric, and their replies (spec 07 R164, R165, R176; 13 R304). -/

open Sys2Proof Sys2Proof.Machine

namespace Sys2Proof.Machine

/-! ### At the target's port -/

section
variable {s : State} {id : Nat} {r : Remote}

@[simp] theorem noteRead_remotes (c t k n) : (s.noteRead c t k n).remotes = s.remotes := by
  unfold State.noteRead
  dsimp only
  split <;> rfl

@[simp] theorem readBy_remotes (c k n) : (s.readBy c k n).1.remotes = s.remotes := by
  unfold State.readBy
  dsimp only
  split
  · exact noteRead_remotes ..
  · exact noteRead_remotes ..

@[simp] theorem acquire_remotes (c k n sc) : (s.acquire c k n sc).remotes = s.remotes := noteRead_remotes ..

@[simp] theorem write_remotes (who hive k d) : (s.write who hive k d).remotes = s.remotes := by
  unfold State.write
  split <;> rfl

/-- A request that is next in its stream arrives (spec 13 R304). -/
theorem arrival_eq (hf : Tab.find s.remotes id = some r) (ha : r.arrived = false) (ho : streamOrder s id r (fun e => !e.arrived) = true)
    (hok : remoteAllowed s r.gang r.key r.op.size r.op.right = true) {t : State} {v : Bool × Word} (hp : portPerform s r = (t, some v)) :
    exec (.remoteAccessArrival id) s = .next { t with remotes := Tab.put t.remotes id { r with arrived := true, reply := some v } } := by
  rw [exec_remoteAccessArrival, execRemoteAccessArrival]
  simp only [hf, ha, ho, hok, hp, Bool.not_true, Bool.or_self, Bool.false_eq_true, if_false]

theorem arrival_refused (hf : Tab.find s.remotes id = some r) (ha : r.arrived = false) (ho : streamOrder s id r (fun e => !e.arrived) = true)
    (hok : remoteAllowed s r.gang r.key r.op.size r.op.right = false) :
    exec (.remoteAccessArrival id) s = .next { s with remotes := Tab.put s.remotes id { r with arrived := true, reply := some (false, 0) } } := by
  rw [exec_remoteAccessArrival, execRemoteAccessArrival]
  simp only [hf, ha, ho, hok, Bool.not_true, Bool.not_false, Bool.or_self, Bool.false_eq_true, if_false, if_true]

theorem portPerform_load {n : Nat} (hop : r.op = .load n) (hmine : r.mine s = true) (hacq : r.acq = false) :
    portPerform s r = ((s.readBy r.cell r.key n).1, some (true, BitVec.ofNat 64 (leNat (s.readBy r.cell r.key n).2))) := by
  unfold portPerform
  simp only [hop, hmine, hacq, Bool.false_and, Bool.false_eq_true, if_false, if_true]

theorem portPerform_acquire {n : Nat} (hop : r.op = .load n) (hmine : r.mine s = true) (hacq : r.acq = true) :
    portPerform s r = (s.acquire r.cell r.key n r.sc, some (true, BitVec.ofNat 64 (s.readNat r.key n))) := by
  unfold portPerform
  simp only [hop, hmine, hacq, Bool.and_self, if_true]

theorem portPerform_amo {op : AmoOp} {n : Nat} {src cmp : Word} (hop : r.op = .amo op n src cmp) :
    portPerform s r = ((amoSync s (agentOf r.eng r.cell) none r.key op n src cmp (r.acq && r.mine s) r.rel r.sc).1,
      some (true, BitVec.ofNat 64 (amoSync s (agentOf r.eng r.cell) none r.key op n src cmp (r.acq && r.mine s) r.rel r.sc).2)) := by
  unfold portPerform
  simp only [hop]

theorem portPerform_store {d : List Byte} (hop : r.op = .store d) : ∃ t, portPerform s r = (t, some (true, 0)) ∧ stored s t r.key d ∧ t.remotes = s.remotes := by
  have hw : stored s (s.write (.cell r.cell) none r.key d) r.key d := stored_of_poke (write_mem ..)
  unfold portPerform
  simp only [hop]
  refine ⟨_, rfl, ?_, ?_⟩
  · split
    · exact stored_mem (State.released_mem ..) hw
    · exact hw
  · split
    · exact write_remotes ..
    · exact write_remotes ..

end

/-! ### Replies -/

section
variable {s : State} {id : Nat} {r : Remote} {c : Cell} {w : Wait} {v : Word}

theorem mine_of_find (hc : Tab.find s.cells r.cell = some c) (hg : c.gang = r.gang) : r.mine s = true := by
  simp [Remote.mine, cell_of_find hc, hc, hg]

theorem wakePerformed_of_run (h : (s.cell id).run ≠ .parked .performed) : wakePerformed s id = s := by
  unfold wakePerformed
  split
  · contradiction
  · rfl

/-- A cell that gets a pending trap waits as before, or not at all. -/
theorem pendAsync_run {k : Nat} {a : Async} (hc : Tab.find s.cells k = some c) (hr : c.run = .parked w) :
    ((pendAsync s k a).cell k).run = .parked w ∨ ((pendAsync s k a).cell k).run = .ready := by
  let told : Cell := if c.asyncs.length < 4 then { c with asyncs := c.asyncs ++ [a] } else if a.cause = 0x0D then { c with povf := true } else c
  have hrun : told.run = .parked w := by
    dsimp only [told]
    repeat' split
    all_goals exact hr
  have hready (p : Bool) : (if p then { told with run := .ready } else told).run = .parked w ∨ (if p then { told with run := .ready } else told).run = .ready := by
    cases p
    · exact .inl hrun
    · exact .inr rfl
  have hcell : (pendAsync s k a).cell k = (match told.run with
      | .parked w => if told.tlev = 0 && w.landsNow && (match w with | .bar .. | .word _ | .wgsend _ => false | _ => true) then { told with run := .ready } else told
      | _ => told) := cell_of_find (find_modCell_self hc _)
  rw [hcell, hrun]
  exact hready _

/-- The reply of a request is the first of its stream, and its instruction still waits. -/
theorem remoteReply_eq (hf : Tab.find s.remotes id = some r) {ok : Bool} (hv : r.reply = some (ok, v)) (ho : streamOrder s id r (fun _ => true) = true)
    (hm : r.mine s = true) : exec (.remoteReply id) s =
      let s1 : State := { s with remotes := Tab.del s.remotes id }
      .next (if r.posted then wakePerformed (if ok then s1 else pendAsync s1 r.cell { cause := 0x0D, tval := r.ea }) r.cell
        else if (s1.cell r.cell).run != .parked (.remote id) then s1
        else if ok then s1.modCell r.cell fun c => { c with reply := some v, run := .ready }
        else trapParked s1 r.cell 0x0C r.ea) := by
  rw [exec_remoteReply, execRemoteReply]
  simp only [hf, hv, ho, hm, Bool.not_true, Bool.false_eq_true, if_false]
  rfl

/-- The reply of the request that a cell waits for. -/
theorem remoteReply_awaited (hf : Tab.find s.remotes id = some r) {ok : Bool} (hv : r.reply = some (ok, v))
    (ho : streamOrder s id r (fun _ => true) = true) (hc : Tab.find s.cells r.cell = some c) (hg : c.gang = r.gang) (hp : r.posted = false)
    (hr : c.run = .parked (.remote id)) : exec (.remoteReply id) s =
      let s1 : State := { s with remotes := Tab.del s.remotes id }
      .next (if ok then s1.modCell r.cell fun c => { c with reply := some v, run := .ready } else trapParked s1 r.cell 0x0C r.ea) := by
  have hrun : (State.cell { s with remotes := Tab.del s.remotes id } r.cell).run = .parked (.remote id) := (congrArg Cell.run (cell_of_find hc)).trans hr
  rw [remoteReply_eq hf hv ho (mine_of_find hc hg)]
  simp only [hp, hrun, bne_self_eq_false, Bool.false_eq_true, if_false]

/-- The reply of a posted request: its refusal is left pending. -/
theorem remoteReply_posted (hf : Tab.find s.remotes id = some r) {ok : Bool} (hv : r.reply = some (ok, v))
    (ho : streamOrder s id r (fun _ => true) = true) (hc : Tab.find s.cells r.cell = some c) (hg : c.gang = r.gang) (hp : r.posted = true)
    (hr : c.run = .parked w) (hw : w ≠ .performed) : exec (.remoteReply id) s =
      let s1 : State := { s with remotes := Tab.del s.remotes id }
      .next (if ok then s1 else pendAsync s1 r.cell { cause := 0x0D, tval := r.ea }) := by
  rw [remoteReply_eq hf hv ho (mine_of_find hc hg)]
  simp only [hp, if_true]
  rw [wakePerformed_of_run]
  have hfind : Tab.find (State.cells { s with remotes := Tab.del s.remotes id }) r.cell = some c := hc
  split
  · rw [cell_of_find hfind, hr]
    simpa using hw
  · rcases pendAsync_run (a := { cause := 0x0D, tval := r.ea }) hfind hr with h | h
    · rw [h]
      simpa using hw
    · rw [h]
      simp

end

/-! ### Replies from the fabric -/

section
variable {s : State} {cell station : Nat} {c : Cell} {data : Word}

theorem fabricReply_ok {home pa ea n acq} (hc : Tab.find s.cells cell = some c) (hr : c.run = .parked (.fabric home pa ea n acq)) :
    exec (.fabricReply cell station true data) s =
      let s1 := match acq with
        | some sc => s.orderAfter cell sc [s.upToNow cell]
        | none => s.modCell cell fun c => { c with sight := Known.add c.sight (s.upToNow cell) }
      .next (s1.modCell cell fun c => { c with reply := some data, run := .ready }) := by
  rw [exec_fabricReply, execFabricReply]
  simp only [hc, Option.map_some, hr, if_true] <;> rfl

theorem fabricReply_error {home pa ea n acq} (hc : Tab.find s.cells cell = some c) (hr : c.run = .parked (.fabric home pa ea n acq)) :
    exec (.fabricReply cell station false data) s =
      .next (trapParked (match (generalizing := false) home with | .peer _ => stationError s station | _ => s) cell 0x05 ea) := by
  rw [exec_fabricReply, execFabricReply]
  simp only [hc, Option.map_some, hr, Bool.false_eq_true, if_false]
  rfl

/-- An error that answers no cell's wait is a posted write's. -/
theorem fabricReply_posted (h : ∀ home pa ea n acq, (s.cell cell).run ≠ .parked (.fabric home pa ea n acq)) :
    exec (.fabricReply cell station false data) s = .next (postedError s cell station data) := by
  rw [exec_fabricReply, execFabricReply]
  split
  · next home pa ea n acq e =>
    obtain ⟨c, hc, hr⟩ := Option.map_eq_some_iff.mp e
    exact absurd ((congrArg Cell.run (cell_of_find hc)).trans hr) (h home pa ea n acq)
  · rfl

theorem stationError_posted (station) : (stationError s station).posted = s.posted := by
  unfold stationError
  split <;> rfl

end

/-- Settles O48: requests at the port by `portPerform`, and replies by what they answer. -/
theorem remotePortsAndFabric : Obligations.RemotePortsAndFabric := by
  intro s id cell station r c data v
  refine ⟨fun hf ha ho => ⟨arrival_refused hf ha ho, fun hok => ⟨fun n hop hmine => ⟨fun hacq => ?load, fun hacq => ?acquire⟩, fun op size src cmp hop => ?amo,
    fun d hop _ => ?store⟩⟩, fun w hf hc hg hr ho => ⟨fun hp hw => ?awaited, fun hp hw => ?posted⟩, fun home pa ea n acq hc hr => ?fabric, fun p hp => ?undelivered⟩
  case load =>
    refine ⟨_, (arrival_eq hf ha ho hok (portPerform_load hop hmine hacq)).trans (by rw [readBy_remotes]), fun h => ?_⟩
    rw [readBy_settled h]
  case acquire => exact (arrival_eq hf ha ho hok (portPerform_acquire hop hmine hacq)).trans (by rw [acquire_remotes]; rfl)
  case amo => exact arrival_eq hf ha ho hok (portPerform_amo hop)
  case store =>
    obtain ⟨t, hp, hst, hrem⟩ := portPerform_store hop
    exact ⟨_, arrival_eq hf ha ho hok hp, hst, congrArg (Tab.put · id _) hrem⟩
  case awaited =>
    subst hw
    exact ⟨fun hv => remoteReply_awaited hf hv ho hc hg hp hr, fun hv => remoteReply_awaited hf hv ho hc hg hp hr⟩
  case posted => exact ⟨fun hv => remoteReply_posted hf hv ho hc hg hp hr hw, fun hv => remoteReply_posted hf hv ho hc hg hp hr hw⟩
  case fabric =>
    refine ⟨?_, ?_, fun h => ?_, ?_⟩
    · rintro rfl
      exact fabricReply_ok hc hr
    · rintro sc rfl
      exact fabricReply_ok hc hr
    · rw [fabricReply_error hc hr]
      congr 2
      cases home with
      | peer _ => exact if_neg (Nat.not_lt.mpr (h.resolve_left nofun))
      | _ => rfl
    · rintro acc rfl hs
      rw [fabricReply_error hc hr]
      simp only [stationError, if_pos hs]
  case undelivered =>
    refine ⟨?_, fun hhome hcell hrun => ?_, fun acc hhome hrun => ?_⟩
    · rw [exec_postedWriteUndeliverable, execPostedWriteUndeliverable, hp]
    · rw [fabricReply_posted hrun, postedError, hp]
      simp only [hhome, if_neg hcell]
    · rw [fabricReply_posted hrun, postedError, hp]
      simp only [hhome, stationError_posted]

end Sys2Proof.Machine
end

section
/-! The VFLT functions: the element function of each, under the rounding mode in frm (spec 09 R210, R211; 08 R186, R200). -/

open Sys2Proof Sys2Proof.Machine

namespace Sys2Proof.Machine

variable {s : State}

/-- A class 2 check that depends on the instruction's form passes where either form's does. -/
theorem early_ite {c : Prop} [Decidable c] {e1 e2 : Early} (h1 : e1 s = none) (h2 : e2 s = none) : (if c then e1 else e2) s = none := by
  split
  · exact h1
  · exact h2

section
variable (h : vready s = true) {m : Rm} (hm : rmSelect s 7 = some m) (fn : BitVec 6) (t : Ty) (p : Pred) {d a : Reg}
  (hd : aligned s d = true) (ha : aligned s a = true)
include h hm hd ha

/-- A VFLT instruction of one operand. -/
theorem vflt_unary (uses : Bool) {f : Rm → Nat → Nat → Nat → Nat × Fl} {g : Nat → Nat × Fl} (hf : ∀ x y z, f m x y z = g x) :
    let u := begun s 8
    ∃ q, vflt fn t p d a 0 0 1 false uses f s = .next (after (vecTo s q (selected u p) d t.width (vcount u.me t.width) 0 0
      fun i => g (elem (getGroup u u.me.g a) t.width i)) 8) := by
  let q := qv 0x02 fn t.code p d a 0 0 (immBit false)
  refine ⟨q, (vecMap_calm h q _ t.width 1 none _ _ _ (early_ite (frmCheck_ok (vready_calm h) hm q) rfl) hd ha nofun nofun).trans ?_⟩
  simp only [frmOf_calm (vready_calm h) hm, hf]
  rfl

variable {b : Reg} {xs : Bool} (hb : xs = false → aligned s b = true)
include hb

/-- The operands of a VFLT instruction of two or three, of which b is a group or a scalar. -/
theorem vflt_several (c : Reg) (arity : Nat) (uses : Bool) (f : Rm → Nat → Nat → Nat → Nat × Fl) (h2 : 2 ≤ arity)
    (hc : arity = 3 → aligned s c = true) :
    let u := begun s 8
    ∃ q, vflt fn t p d a b c arity xs uses f s = .next (after (vecTo s q (selected u p) d t.width (vcount u.me t.width) 0
      (if xs then (rdF s b).setWidth 64 else 0) fun i => f m (elem (getGroup u u.me.g a) t.width i)
        (if xs then unboxTo t (rdF s b) else elem (getGroup u u.me.g b) t.width i) (elem (if arity = 3 then getGroup u u.me.g c else 0) t.width i)) 8) := by
  let q := qv 0x02 fn t.code p d a b c (immBit xs)
  refine ⟨q, (vecMap_calm h q _ t.width arity _ _ _ _ (early_ite (frmCheck_ok (vready_calm h) hm q) rfl) hd ha (fun _ hx => hb ?_) hc).trans ?_⟩
  · cases xs
    · rfl
    · cases hx
  · simp only [frmOf_calm (vready_calm h) hm, getF_calm (vready_calm h), decide_eq_true h2]
    cases xs <;> rfl

/-- A VFLT instruction of two operands. -/
theorem vflt_binary (uses : Bool) {f : Rm → Nat → Nat → Nat → Nat × Fl} {g : Nat → Nat → Nat × Fl} (hf : ∀ x y z, f m x y z = g x y) :
    let u := begun s 8
    ∃ q, vflt fn t p d a b 0 2 xs uses f s = .next (after (vecTo s q (selected u p) d t.width (vcount u.me t.width) 0
      (if xs then (rdF s b).setWidth 64 else 0) fun i => g (elem (getGroup u u.me.g a) t.width i)
        (if xs then unboxTo t (rdF s b) else elem (getGroup u u.me.g b) t.width i)) 8) := by
  obtain ⟨q, hq⟩ := vflt_several h hm fn t p hd ha hb 0 2 uses f (Nat.le_refl 2) nofun
  exact ⟨q, hq.trans (by simp only [hf])⟩

/-- A VFLT instruction of three operands. -/
theorem vflt_ternary {c : Reg} (hc : aligned s c = true) (f : Rm → Nat → Nat → Nat → Nat × Fl) :
    let u := begun s 8
    ∃ q, vflt fn t p d a b c 3 xs true f s = .next (after (vecTo s q (selected u p) d t.width (vcount u.me t.width) 0
      (if xs then (rdF s b).setWidth 64 else 0) fun i => f m (elem (getGroup u u.me.g a) t.width i)
        (if xs then unboxTo t (rdF s b) else elem (getGroup u u.me.g b) t.width i) (elem (getGroup u u.me.g c) t.width i)) 8) :=
  vflt_several h hm fn t p hd ha hb c 3 true f (by omega) fun _ => hc

end

/-- Settles O24: each instruction is VFLT of its operands on its own element function, rounded by the mode in frm. That a fused function of zero
and infinity with a quiet NaN sets NV as `Config.fmaQuietInvalid` says is the model's choice (log 13). -/
theorem vectorFloatResults : Obligations.VectorFloatResults := by
  unfold Obligations.VectorFloatResults
  intro s d a b c xs p t m h hd ha hb hc hm u w n A B C v gets bin tri un sign fma
  have one (fn : BitVec 6) (uses : Bool) (g : Nat → Nat × Fl) {f : Rm → Nat → Nat → Nat → Nat × Fl} (hf : ∀ x y z, f m x y z = g x) :=
    vflt_unary h hm fn t p hd ha uses hf
  have two (fn : BitVec 6) (uses : Bool) (g : Nat → Nat → Nat × Fl) {f : Rm → Nat → Nat → Nat → Nat × Fl} (hf : ∀ x y z, f m x y z = g x y) :=
    vflt_binary h hm fn t p hd ha hb uses hf
  have three (fn : BitVec 6) (f : Rm → Nat → Nat → Nat → Nat × Fl) := vflt_ternary h hm fn t p hd ha hb hc f
  refine ⟨?vadd, ?vsub, ?vmul, ?vdiv, ?vmin, ?vmax, ?vsgnj, ?vfma, ?vfms, ?vfnma, ?vsqrt, ?vrcp, ?vrsqrt, ?vexp2, ?vlog2, ?vabs, ?vneg⟩
  case vadd => exact two 0x00 true (fun x y => roundTo t m (Fv.add m (v x) (v y))) fun _ _ _ => rfl
  case vsub => exact two 0x01 true (fun x y => roundTo t m (Fv.add m (v x) (v y).flip)) fun _ _ _ => rfl
  case vmul => exact two 0x02 true (fun x y => roundTo t m (Fv.mul (v x) (v y))) fun _ _ _ => rfl
  case vdiv => exact two 0x0A true (fun x y => roundTo t m (Fv.div (v x) (v y))) fun _ _ _ => rfl
  case vmin => exact two 0x06 false (minmaxCode (fmtOf t) false) fun _ _ _ => rfl
  case vmax => exact two 0x07 false (minmaxCode (fmtOf t) true) fun _ _ _ => rfl
  case vsgnj => exact two 0x10 false (fun x y => sign x (bit y (w - 1))) fun _ _ _ => rfl
  case vfma => exact three 0x03 (fl3 t false false)
  case vfms => exact three 0x04 (fl3 t false true)
  case vfnma => exact three 0x05 (fl3 t true false)
  case vsqrt => exact one 0x0B true (fun x => roundTo t m (v x).sqrt) fun _ _ _ => rfl
  case vrcp => exact one 0x0C true (fun x => roundTo t m (v x).rcp) fun _ _ _ => rfl
  case vrsqrt => exact one 0x0D true (fun x => roundTo t m (v x).rsqrt) fun _ _ _ => rfl
  case vexp2 => exact one 0x0E true (fun x => roundTo t m (v x).exp2) fun _ _ _ => rfl
  case vlog2 => exact one 0x0F true (fun x => roundTo t m (v x).log2) fun _ _ _ => rfl
  case vabs => exact one 0x08 false (fun x => sign x false) fun _ _ _ => rfl
  case vneg => exact one 0x09 false (fun x => sign x !bit x (w - 1)) fun _ _ _ => rfl

end Sys2Proof.Machine
end

section
/-! Reductions, conversions, stochastic rounding and quantisation (spec 08 R187 to R192, R198, R199; 09 R215 to R218). -/

open Sys2Proof Sys2Proof.Machine

namespace Sys2Proof.Machine

/-- A change of the current cell leaves what it does not look at. -/
theorem me_modMe {α : Type} {g : Cell → α} {f : Cell → Cell} (hf : ∀ c, g (f c) = g c) (s : State) : g (s.modMe f).me = g s.me :=
  (keeps_modCell hf s s.cur).me rfl

/-- An instruction that goes into the vector unit and its flags leave its cell in its gang. -/
theorem raiseFlags_fly_gang (s : State) (q : Q64) (n w : Nat) (old : List Held) (xa xb xc : Word) (fl : Fl) :
    (raiseFlags (fly (begun s 8) q n w old xa xb xc) fl).me.gang = s.me.gang :=
  calc (raiseFlags (fly (begun s 8) q n w old xa xb xc) fl).me.gang
    _ = (fly (begun s 8) q n w old xa xb xc).me.gang := me_modMe (g := Cell.gang) (by exact fun _ => rfl) _
    _ = (begun s 8).me.gang := me_modMe (g := Cell.gang) (by exact fun _ => rfl) (begun s 8)
    _ = s.me.gang := me_modMe (g := Cell.gang) (by exact fun _ => rfl) s

section
variable {s : State} (h : vready s = true)
include h

/-! ### Reductions -/

section
variable {a : Reg} (ha : aligned s a = true) {d : Reg} {t : Ty} {i : Instr}
include ha

/-- A reduction with a result in x(d), which raises no flag. -/
theorem vred_intResult {r : State → Nat} (hi : ∃ q, exec i s = vred q noEarlyCheck a d t false (fun s => (r s, .none)) (fun _ s => s) s) :
    let u := begun s 8
    let n := vcount u.me t.width
    ∃ q, exec i s = .next (after (setXLate (raiseFlags (fly u q n t.width (heldScalar u (.x d) n) 0 0 0) .none) d (BitVec.ofNat 64 (r u))
      (turnsOf u.me 4 5)) 8) := by
  obtain ⟨q, hq⟩ := hi
  exact ⟨q, hq.trans (vred_calm h q _ a d t false _ _ rfl ha)⟩

/-- A reduction with a result in f(d), and what more it does with its result. -/
theorem vred_floatResult {early : Early} {r : State → Nat × Fl} {more : Nat → State → State} {q : Q64}
    (hi : exec i s = vred q early a d t true r more s) (he : early (begun s 8) = none) :
    exec i s = .next (after (setFLate (more (r (begun s 8)).1 (raiseFlags (fly (begun s 8) q (vcount (begun s 8).me t.width) t.width
      (heldScalar (begun s 8) (.f d) (vcount (begun s 8).me t.width)) 0 0 0) (r (begun s 8)).2)) d (BitVec.ofNat 32 (r (begun s 8)).1)
      (turnsOf (begun s 8).me 4 5)) 8) :=
  hi.trans (vred_calm h q early a d t true r more he ha)

end

/-- A vector instruction with aligned operands, whose class 2 check passes and for which the unit has room, completes as its body does. -/
theorem vecIssue_room {early : Early} {fields : List (Nat × Reg)} {srcs dsts : List Dst} {body : State → Op Res} {t : State}
    (he : early (begun s 8) = none) (ha : ∀ f ∈ fields, aligned s f.2 = true) (hb : body (begun s 8) = .ok (.ok t)) :
    vecIssue early fields srcs dsts (fun s => vecRoom s >>= fun _ => body s) s = .next (after t 8) := by
  rw [vecIssue_calm (vready_calm h) _ _ _ _ _ he ha, vecRoom_ok h, op_bind, hb]
  rfl

end

/-- Settles O27: a reduction by the type of its result, a conversion by its element function, and VQNT by its body, whose scales are the block's
own or those in v(b). -/
theorem vectorReductionsAndConversions : Obligations.VectorReductionsAndConversions := by
  unfold Obligations.VectorReductionsAndConversions
  refine ⟨?reductions, ?conversions⟩
  case reductions =>
    intro s d a ix p t m h ha hm u w n turns red ints flts ext snan
    have notInt (ht : t.isInt = false) : ¬ t.isInt = true := Bool.eq_false_iff.mp ht
    refine ⟨fun ht => ?sumInt, fun ht => ?maxInt, fun ht => ?minInt, fun ht => ?sumFloat, fun ht => ?maxFloat, fun ht => ?minFloat, fun ht => ?magFloat,
      fun ht => ?magTmax, fun ht tm => ?magInt⟩
    case sumInt => exact vred_intResult h ha (r := fun s => sumInt s a p t) ⟨_, if_pos ht⟩
    case maxInt => exact vred_intResult h ha (r := fun s => extInt true s a p t) ⟨_, if_pos ht⟩
    case minInt => exact vred_intResult h ha (r := fun s => extInt false s a p t) ⟨_, if_pos ht⟩
    case magInt => exact vred_intResult h ha (r := fun s => magInt s a p t) ⟨_, if_pos ht⟩
    case sumFloat => exact ⟨_, vred_floatResult h ha (i := .vredsum d a ix p t) (if_neg (notInt ht)) (frmCheck_ok (vready_calm h) hm _)⟩
    case maxFloat => exact ⟨_, vred_floatResult h ha (i := .vredmax d a ix p t) (if_neg (notInt ht)) rfl⟩
    case minFloat => exact ⟨_, vred_floatResult h ha (i := .vredmin d a ix p t) (if_neg (notInt ht)) rfl⟩
    case magFloat => exact ⟨_, vred_floatResult h ha (i := .vredamax d a false ix p t) (if_neg (notInt ht)) rfl⟩
    case magTmax =>
      have hx := vred_floatResult h ha (i := .vredamax d a true ix p t) (if_neg (notInt ht)) rfl
      rw [if_pos rfl, raiseFlags_fly_gang] at hx
      exact ⟨_, hx⟩
  case conversions =>
    intro s d a b c w p dst src m h hd ha hb hm u g gets A
    refine ⟨?vcvt, ?vsrnd, ?vqnt⟩
    case vcvt =>
      let q := qv 0x07 0x00 dst.code p d a 0 (mreg c) ((0 : BitVec 11) ++ src.code)
      have he : (if dst.isNarrow then noEarlyCheck else frmCheck q) (begun s 8) = none := early_ite rfl (frmCheck_ok (vready_calm h) hm q)
      have hx := vconv_calm h q _ src.width dst.width (max src.width dst.width) false c (fun s x _ => convElem dst src (frmOf s) x) he hd ha nofun
      simp only [frmOf_calm (vready_calm h) hm] at hx
      exact ⟨q, hx⟩
    case vsrnd =>
      exact ⟨_, vconv_calm h (qv 0x07 0x01 dst.code p d a b (mreg c) ((0 : BitVec 5) ++ w ++ src.code)) noEarlyCheck src.width dst.width 32 true c
        (fun _ x r => srnd (srDest dst) (fmtOf src) (valOf src x) r w.toNat) rfl hd ha fun _ => hb⟩
    case vqnt =>
      simp -zeta only [← getM_calm (vready_calm h) 8, ← getV_calm (vready_calm h) 8]
      rintro scale (rfl | rfl)
      · exact ⟨qv 0x07 0x02 Ty.e2m1.code Pred.all d a 0 (mreg c) ((0 : BitVec 4) ++ (1 : BitVec 1) ++ (0 : BitVec 6) ++ src.code),
          vecIssue_room h (early := noEarlyCheck) (fields := [(0, d), (1, a)]) rfl (by simp [hd, ha]) rfl⟩
      · exact ⟨qv 0x07 0x02 Ty.e2m1.code Pred.all d a b (mreg c) ((0 : BitVec 11) ++ src.code),
          vecIssue_room h (early := noEarlyCheck) (fields := [(0, d), (1, a), (2, b)]) rfl (by simp [hd, ha, hb]) rfl⟩

end Sys2Proof.Machine
end

section
/-! One step of a matrix instruction, by rows and then by elements (spec 08 R185; 11 R257, R258, R262, R263). -/

open Sys2Proof Sys2Proof.Machine

namespace Sys2Proof.Machine

/-! ### The words of a row -/

theorem decodeRow_length (t : Ty) (d : List Byte) (band : Option Fv) : (decodeRow t d band).length = 64 := by simp [decodeRow]

theorem rowOf_getElem? {l : List W32} {i j : Nat} (hj : j < 64) : (rowOf l i)[j]? = l[64 * i + j]? := by
  rw [rowOf, List.getElem?_take_of_lt hj, List.getElem?_drop]

theorem rowOf_length {l : List W32} {i : Nat} (hl : l.length = 4096) (hi : i < 64) : (rowOf l i).length = 64 := by
  rw [rowOf, List.length_take, List.length_drop]
  omega

/-- A row's step forms each word on its own. -/
theorem stepRow_words (int : Bool) (a : Option Fv) (bs : List (Option Fv)) (on : Nat → Bool) (row : List W32) :
    (stepRow int a bs on row).1 = (row.zip bs).zipIdx.map fun e => if on e.2 then (accumulate int a e.1.2 e.1.1).1 else e.1.1 := by
  unfold stepRow
  induction (row.zip bs).zipIdx with
  | nil => rfl
  | cons e l ih =>
    rw [List.foldr_cons, List.map_cons, ← ih]
    split <;> rfl

section
variable {int : Bool} {a : Option Fv} {bs : List (Option Fv)} {on : Nat → Bool} {row : List W32} (hbs : bs.length = 64) (hrow : row.length = 64)
include hbs hrow

theorem stepRow_length : (stepRow int a bs on row).1.length = 64 := by
  rw [stepRow_words, List.length_map, List.length_zipIdx, List.length_zip, hbs, hrow, Nat.min_self]

theorem stepRow_getElem? {j : Nat} (hj : j < 64) : (stepRow int a bs on row).1[j]? =
    if on j then some (accumulate int a ((bs[j]?).getD none) ((row[j]?).getD 0)).1 else row[j]? := by
  have hb := List.getElem?_eq_getElem (hbs ▸ hj)
  have hr := List.getElem?_eq_getElem (hrow ▸ hj)
  have hz : (row.zip bs)[j]? = some (row[j], bs[j]) := List.getElem?_zip_eq_some.mpr ⟨hr, hb⟩
  rw [stepRow_words, List.getElem?_map, List.getElem?_zipIdx, hz, hb, hr, Nat.zero_add]
  split <;> simp_all

end

/-! ### The rows of a tile -/

/-- A tile's words with one row replaced. -/
def putRow (l : List W32) (i : Nat) (row : List W32) : List W32 := l.take (64 * i) ++ row ++ l.drop (64 * i + 64)

section
variable {l row : List W32} {i : Nat} (hl : l.length = 4096) (hi : i < 64) (hrow : row.length = 64)
include hl hi hrow

theorem putRow_length : (putRow l i row).length = 4096 := by
  simp only [putRow, List.length_append, List.length_take, List.length_drop]
  omega

theorem putRow_getElem? {i' j : Nat} (hj : j < 64) : (putRow l i row)[64 * i' + j]? = if i' = i then row[j]? else l[64 * i' + j]? := by
  have htake : (l.take (64 * i)).length = 64 * i := by rw [List.length_take]; omega
  have hhead : (l.take (64 * i) ++ row).length = 64 * i + 64 := by rw [List.length_append, htake, hrow]
  unfold putRow
  rcases Nat.lt_trichotomy i' i with h | h | h
  · rw [List.getElem?_append_left (by omega), List.getElem?_append_left (by omega), List.getElem?_take_of_lt (by omega), if_neg (by omega)]
  · rw [List.getElem?_append_left (by omega), List.getElem?_append_right (by omega), if_pos h, htake, h, Nat.add_sub_cancel_left]
  · rw [List.getElem?_append_right (by omega), List.getElem?_drop, hhead, if_neg (by omega)]
    congr 1; omega

end

/-! ### The rows of a step -/

section
variable {int held : Bool} {qfcsr : Word} {as bs : List (Option Fv)} {rows cols : Nat → Bool}

/-- The step of row `i` of a tile's words. -/
def tileRow (int : Bool) (as bs : List (Option Fv)) (cols : Nat → Bool) (l : List W32) (i : Nat) : List W32 × Fl :=
  stepRow int ((as[i]?).getD none) bs cols (rowOf l i)

/-- A word of a tile after a step that has reached its row. -/
def stepWord (int : Bool) (as bs : List (Option Fv)) (rows cols : Nat → Bool) (l : List W32) (i j : Nat) : Option W32 :=
  if rows i && cols j then some (accumulate int ((as[i]?).getD none) ((bs[j]?).getD none) ((l[64 * i + j]?).getD 0)).1 else l[64 * i + j]?

/-- The flags that would stop a held instruction at row `i`. -/
def rowStop (int : Bool) (qfcsr : Word) (as bs : List (Option Fv)) (cols : Nat → Bool) (l : List W32) (i : Nat) : Fl :=
  heldFlags qfcsr (tileRow int as bs cols l i).2

theorem tileRow_length {l : List W32} {i : Nat} (hbs : bs.length = 64) (hl : l.length = 4096) (hi : i < 64) : (tileRow int as bs cols l i).1.length = 64 :=
  stepRow_length hbs (rowOf_length hl hi)

theorem tileRow_getElem? {l : List W32} {i j : Nat} (hbs : bs.length = 64) (hl : l.length = 4096) (hi : i < 64) (hj : j < 64) (hr : rows i = true) :
    (tileRow int as bs cols l i).1[j]? = stepWord int as bs rows cols l i j := by
  rw [tileRow, stepRow_getElem? hbs (rowOf_length hl hi) hj, rowOf_getElem? hj, stepWord, hr, Bool.true_and]

theorem stepRows_inactive {n i : Nat} {l : List W32} {f : Fl} (hr : rows i = false) :
    stepRows int held qfcsr as bs rows cols (n + 1) i l f = stepRows int held qfcsr as bs rows cols n (i + 1) l f := by
  rw [stepRows, hr]; rfl

theorem stepRows_stopped {n i : Nat} {l : List W32} {f : Fl} (hr : rows i = true) (hs : (held && stops (rowStop int qfcsr as bs cols l i)) = true) :
    stepRows int held qfcsr as bs rows cols (n + 1) i l f = (l, f, some (i, rowStop int qfcsr as bs cols l i)) := by
  rw [stepRows, if_pos hr]; exact if_pos hs

theorem stepRows_applied {n i : Nat} {l : List W32} {f : Fl} (hr : rows i = true) (hs : (held && stops (rowStop int qfcsr as bs cols l i)) = false) :
    stepRows int held qfcsr as bs rows cols (n + 1) i l f = stepRows int held qfcsr as bs rows cols n (i + 1)
      (putRow l i (tileRow int as bs cols l i).1) (Fl.or f (tileRow int as bs cols l i).2) := by
  rw [stepRows, if_pos hr]; exact if_neg (Bool.eq_false_iff.mp hs)

/-- What the rows of a step leave: where a held instruction stops, at which row and with which flags; and the words, stepped up to that row
or, where none stops it, up to the last. -/
structure StepResult (int held : Bool) (as bs : List (Option Fv)) (rows cols : Nat → Bool) (n i0 : Nat) (l : List W32)
    (r : List W32 × Fl × Option (Nat × Fl)) : Prop where
  length : r.1.length = 4096
  free : held = false → r.2.2 = none
  stop : ∀ q f, r.2.2 = some (q, f) → i0 ≤ q ∧ q < i0 + n ∧ stops f = true
  word : ∀ i j, i < 64 → j < 64 → r.1[64 * i + j]? =
    if i0 ≤ i ∧ i < (r.2.2.map Prod.fst).getD (i0 + n) then stepWord int as bs rows cols l i j else l[64 * i + j]?

theorem StepResult.end_le {n i0 : Nat} {l : List W32} {r : List W32 × Fl × Option (Nat × Fl)} (h : StepResult int held as bs rows cols n i0 l r) :
    i0 ≤ (r.2.2.map Prod.fst).getD (i0 + n) := by
  cases hr : r.2.2 with
  | none => simp
  | some x => exact (h.stop x.1 x.2 hr).1

theorem StepResult.stopped {n i0 : Nat} {l : List W32} {f g : Fl} (hl : l.length = 4096) (hh : held = true) (hg : stops g = true) :
    StepResult int held as bs rows cols (n + 1) i0 l (l, f, some (i0, g)) := by
  refine ⟨hl, fun h => absurd (hh.symm.trans h) nofun, fun q g' hq => ?_, fun i j _ _ => (if_neg fun h => absurd h.2 (Nat.not_lt.mpr h.1)).symm⟩
  cases hq
  exact ⟨Nat.le_refl _, by omega, hg⟩

/-- A step goes on from the words that its first row has left. -/
theorem StepResult.of_row {n i0 : Nat} {l l1 : List W32} {r : List W32 × Fl × Option (Nat × Fl)}
    (hrow : ∀ i j, i < 64 → j < 64 → l1[64 * i + j]? = if i = i0 then stepWord int as bs rows cols l i j else l[64 * i + j]?)
    (h : StepResult int held as bs rows cols n (i0 + 1) l1 r) : StepResult int held as bs rows cols (n + 1) i0 l r := by
  have hcount : i0 + 1 + n = i0 + (n + 1) := by omega
  have hend := h.end_le
  obtain ⟨hlen, hfree, hstop, hword⟩ := h
  rw [hcount] at hend
  refine ⟨hlen, hfree, fun q g hq => ?stop, fun i j hi hj => ?word⟩
  case stop =>
    obtain ⟨h1, h2, h3⟩ := hstop q g hq
    exact ⟨by omega, by omega, h3⟩
  case word =>
    rw [hword i j hi hj, hcount]
    by_cases he : i = i0
    · rw [if_neg (by omega), if_pos (by omega), hrow i j hi hj, if_pos he]
    · have hsame := (hrow i j hi hj).trans (if_neg he)
      refine if_congr (by omega) ?_ hsame
      rw [stepWord, hsame, stepWord]

/-- The rows of a step from `i0` on leave what `StepResult` says. -/
theorem stepRows_result (hbs : bs.length = 64) {n i0 : Nat} {l : List W32} {f : Fl} (hl : l.length = 4096) (hn : i0 + n ≤ 64) :
    StepResult int held as bs rows cols n i0 l (stepRows int held qfcsr as bs rows cols n i0 l f) := by
  induction n generalizing i0 l f with
  | zero => exact ⟨hl, fun _ => rfl, nofun, fun i j _ _ => (if_neg fun h => absurd h.2 (Nat.not_lt.mpr h.1)).symm⟩
  | succ n ih =>
    cases hr : rows i0 with
    | false =>
      rw [stepRows_inactive hr]
      refine (ih hl (by omega)).of_row fun i j _ _ => ?_
      split
      · next he => rw [stepWord, he, hr]; rfl
      · rfl
    | true =>
      cases hs : held && stops (rowStop int qfcsr as bs cols l i0) with
      | true =>
        rw [stepRows_stopped hr hs]
        rw [Bool.and_eq_true] at hs
        exact .stopped hl hs.1 hs.2
      | false =>
        have hi0 : i0 < 64 := by omega
        have hrow := tileRow_length (int := int) (as := as) (cols := cols) hbs hl hi0
        rw [stepRows_applied hr hs]
        refine (ih (putRow_length hl hi0 hrow) (by omega)).of_row fun i j _ hj => ?_
        rw [putRow_getElem? hl hi0 hrow hj]
        split
        · next he => rw [he]; exact tileRow_getElem? hbs hl hi0 hj hr
        · rfl

end

/-- Settles O32: a step is its 64 rows, and `stepRows_result` says what each word of them becomes. -/
theorem matrixStepElements : Obligations.MatrixStepElements := by
  unfold Obligations.MatrixStepElements
  intro pair held qfcsr k n mask band a b l i j hl hi hj r x y applied
  obtain ⟨hlen, hfree, hstop, hword⟩ : StepResult (pairInt pair) held (decodeRow (pairTypes pair).1 a none)
      (decodeRow (pairTypes pair).2 b (if pair.banded then some band else none)) (rowOn k n mask) (colOn k n mask) 64 0 l r :=
    stepRows_result (decodeRow_length ..) hl (by omega)
  have hij := hword i j hi hj
  refine ⟨hlen, hfree, fun hn => ?all, fun q f hq => ?upTo⟩
  case all =>
    rw [hn] at hij
    exact hij.trans (if_pos ⟨Nat.zero_le i, by simpa using hi⟩)
  case upTo =>
    obtain ⟨-, hq64, hstops⟩ := hstop q f hq
    rw [hq] at hij
    exact ⟨by omega, hstops, fun h => hij.trans (if_pos ⟨Nat.zero_le i, h⟩), fun h => hij.trans (if_neg fun hh => absurd hh.2 (Nat.not_lt.mpr h))⟩

end Sys2Proof.Machine
end

section
/-! MDRAIN, MROW, AMX, MSAVE and MRSTR, for a cell whose gang holds the lease (spec 08 R193 to R197; 11 R272 to R276; 18 R377). -/

open Sys2Proof Sys2Proof.Machine

namespace Sys2Proof.Machine

variable {s : State}

/-! ### A cell whose gang holds the lease -/

/-- A computation goes on with what its first part answers. -/
theorem op_bind_of {α β : Type} {x : Op α} {v : α} {f : α → Op β} (hx : x = .ok v) : (x >>= f) = f v := by rw [hx]; rfl

/-- An instruction of a calm cell whose check passes completes as its body does. -/
theorem issue_op (h : calm s = true) {early : Early} {srcs dsts : List Dst} {body : State → Op Res} {t : State} (he : early (begun s 8) = none)
    (hb : body (begun s 8) = .ok (.ok t)) : issue 8 early srcs dsts (fun s => Op.res (body s)) s = .next (after t 8) := by
  rw [issue_calm h 8 _ _ _ _ he, hb]
  rfl

section
variable (h : mready s = true)
include h

/-- A body goes on where the lease has been looked at, with the unit free. -/
theorem leased_unit {body : State → Op Res} : (needLease (begun s 8) >>= fun u => matRoom u >>= fun _ => body u) = body (leased s) :=
  (op_bind_of (needLease_mready h)).trans (op_bind_of (matRoom_leased h))

theorem leased_gang : (leased s).me.gang = s.me.gang := by rw [leased_me h]

theorem leased_v : (leased s).me.v = s.me.v := by rw [leased_me h]

theorem leased_mixV (r : Reg) : mixV (leased s) r = rdV s r := by
  have hv : getV (leased s) r = rdV s r := getV_calm (calm_of_mready h) 8 r
  have he : (leased s).me.earlyV = [] := by rw [leased_me h]; exact earlyV_of_mready h
  rw [mixV_settled he, hv]

/-- A tile's check, then a register's alignment. -/
theorem tileCheck_alignCheck {d : Tile} (hd : declared s d = true) {r : Reg} (hr : aligned s r = true) (n : Nat) :
    (match tileCheck d (begun s 8) with | some t => some t | none => alignCheck [(n, r)] (begun s 8)) = none := by
  rw [tileCheck_declared h hd]
  exact alignCheck_aligned (calm_of_mready h) _ (by simpa using hr)

end

/-! ### MDRAIN (spec 08 R193 to R196; 11 R272 to R274) -/

/-- The state that the rows of a drain leave, and then the flags, the mask bits of a narrow type, the counts and the tmax register. -/
def drained (s : State) (f : Drain) (kind : DrainBy) (base xb : Word) : State :=
  let g := s.myGang
  let a := (List.range (f.nrm1.toNat + 1)).foldl (drainRow g f kind (maskBits s f.p.k) (readTile s g.core f.d.toNat) base (bits xb.toNat 15 0))
    { s, mask := 0, fl := .none, sat := 0, under := 0, top := 0 }
  let s1 := raiseFlags a.s a.fl
  let s2 := if f.t == .e4m3 || f.t == .e5m2 || f.t == .i8 then setM s1 f.msat (getM s1 f.msat ||| BitVec.ofNat 1024 a.mask) else s1
  let s3 := wrCsr s2 fun v => { v with qsatcnt := countUp v.qsatcnt a.sat, qufcnt := countUp v.qufcnt a.under }
  if f.tm then tmaxUp s3 s3.me.gang (bits xb.toNat 19 16) (BitVec.ofNat 32 a.top) else s3

/-- The cell may write `n` bytes at an address, which lies in local store. -/
def drainsTo (s : State) (ea : Word) (n : Nat) : Prop := (∃ dva, segCheck s.myGang ea n rWrite = .ok dva) ∧ bits ea.toNat 63 61 = 7

/-- Where a drain of a kind writes exponents. -/
def DrainBy.exps : DrainBy → List Word
  | .row ea => [ea]
  | _ => []

theorem drainOp_mready (h : mready s = true) {f : Drain} (hd : declared s f.d = true) {src : List Dst} {by_ : State → DrainBy} {kind : DrainBy}
    (hk : by_ (begun s 8) = kind) {base xb : Word} (ha : getX (begun s 8) f.a = base) (hb : getX (begun s 8) f.b = xb)
    (hbase : base.toNat % 64 = 0) (hpitch : bits xb.toNat 15 0 % 64 = 0) (hxb : xb.toNat < 2 ^ 20)
    (hrows : ∀ r, r < f.nrm1.toNat + 1 → drainsTo s (base + BitVec.ofNat 64 (r * bits xb.toNat 15 0)) (rowBytes f.t))
    (hexps : ∀ ea ∈ kind.exps, drainsTo s ea (f.nrm1.toNat + 1)) :
    drainOp f src by_ s = .next (after (useUnit (drained (leased s) f kind base xb) true) 8) := by
  subst ha hb hk
  have hg := begun_myGang (calm_of_mready h) 8
  refine issue_op (calm_of_mready h) (tileCheck_declared h hd) ?_
  refine (op_bind_of (forIn_all_ok fun ea hea => ?rows)).trans ?_
  case rows =>
    obtain ⟨r, hr, rfl⟩ := List.mem_map.mp hea
    obtain ⟨⟨dva, hseg⟩, -⟩ := hrows r (List.mem_range.mp hr)
    rw [hg, hseg]
    rfl
  refine (op_bind_of (forIn_all_ok fun ea hea => ?exps)).trans ?_
  case exps =>
    obtain ⟨⟨dva, hseg⟩, -⟩ := hexps ea hea
    rw [hg, hseg]
    rfl
  refine (if_neg (by simp [hbase, hpitch])).trans ?_
  refine (op_bind_of (drainSeg_own _ fun ea hea => ?segments)).trans ?_
  case segments =>
    rcases List.mem_append.mp hea with hea | hea
    · obtain ⟨r, hr, rfl⟩ := List.mem_map.mp hea
      exact (hrows r (List.mem_range.mp hr)).2
    · exact (hexps ea hea).2
  refine (if_neg (by rw [Nat.div_eq_of_lt hxb]; simp)).trans ?_
  exact leased_unit h

/-! ### MROW (spec 11 R275) -/

/-- The number of a row or column. -/
def rowNumber (s : State) : RowIx → Nat
  | .imm i => i.toNat
  | .reg x => (rdX s x).toNat

theorem rowIndex_ok (h : calm s = true) {ix : RowIx} (hj : rowNumber s ix < 64) : rowIndex (begun s 8) ix = .ok (rowNumber s ix) := by
  cases ix with
  | imm i => rfl
  | reg x =>
    rw [rowIndex, getX_calm h]
    exact if_neg (by rw [Nat.div_eq_of_lt (show (rdX s x).toNat < 64 from hj)]; simp)

/-- A register's half of row or column `j` of a tile: its active elements are the tile's words, from element `e0` on. -/
def rowTaken (tile : List W32) (col : Bool) (j : Nat) (act : Nat → Bool) (old : VReg) (e0 : Nat) : VReg :=
  BitVec.ofNat 1024 (mapElems old.toNat 32 32 (fun e => act (e0 + e)) fun e => (((tile[rowPlace col j (e0 + e)]?).getD 0).toNat, .none)).1

/-- A tile's words when the active elements of row or column `j` have been written from two registers. -/
def rowPut (tile : List W32) (col : Bool) (j : Nat) (act : Nat → Bool) (lo hi : VReg) : List W32 :=
  tile.zipIdx.map fun w =>
    let e := if col then w.2 / 64 else w.2 % 64
    if rowPlace col j e = w.2 && act e then BitVec.ofNat 32 (elem (lo.toNat + 2 ^ 1024 * hi.toNat) 32 e) else w.1

section
variable (h : mready s = true) {d : Tile} (hd : declared s d = true) {v : Reg} (hv : aligned s v = true) {ix : RowIx} {j : Nat} (hix : rowNumber s ix = j)
  (hj : j < 64) (col : Bool) (p : Pred) (t : Ty)
include h hd hv hix hj

theorem execMrowRd_mready :
    let tile := readTile (leased s) s.myGang.core d.toNat
    let act := rowActive col p (maskBits (leased s) p.k)
    execMrowRd v d ix col p t s = .next (after (soonV (soonV (useUnit (leased s) true) v (rowTaken tile col j act (rdV s v) 0)) (v + 1)
      (rowTaken tile col j act (rdV s (v + 1)) 32)) 8) := by
  subst hix
  have hold (r : Reg) : rdV s r = (leased s).me.v[r.toNat]'r.isLt := by rw [rdV]; simp only [leased_v h]
  rw [hold, hold, ← leased_myGang h]
  exact issue_op (calm_of_mready h) (tileCheck_alignCheck h hd hv 0) ((op_bind_of (rowIndex_ok (calm_of_mready h) hj)).trans (leased_unit h))

theorem execMrowWr_mready :
    let tile := readTile (leased s) s.myGang.core d.toNat
    let act := rowActive col p (maskBits (leased s) p.k)
    execMrowWr d v ix col p t s = .next (after (useUnit (writeTile (leased s) s.myGang.core s.me.gang d.toNat
      (rowPut tile col j act (rdV s v) (rdV s (v + 1)))) true) 8) := by
  subst hix
  rw [← leased_mixV h, ← leased_mixV h, ← leased_myGang h, ← leased_gang h]
  exact issue_op (calm_of_mready h) (tileCheck_alignCheck h hd hv 1) ((op_bind_of (rowIndex_ok (calm_of_mready h) hj)).trans (leased_unit h))

end

/-! ### MSAVE and MRSTR (spec 18 R377) -/

theorem tileMove_ok (h : calm s = true) {ea : Word} {need : Nat} (hs : ∃ dva, segCheck s.myGang ea 16384 need = .ok dva) (ha : ea.toNat % 64 = 0)
    (h6 : 6 ≤ bits ea.toNat 63 61) : tileMove (begun s 8) ea need = .ok () := by
  obtain ⟨dva, hseg⟩ := hs
  unfold tileMove
  rw [begun_myGang h, hseg]
  simp [ha, Nat.not_lt.mpr h6]

theorem denseBytes_length (m : List Host.Cell) (k n : Nat) : (denseBytes m k n).length = n := by
  induction n generalizing m k with
  | zero => cases m <;> rfl
  | succ n ih =>
    match m with
    | [] => simp [denseBytes, ih]
    | (k', b) :: t =>
      rw [denseBytes]
      split <;> simp [ih]

theorem wordsOf_length {d : List Byte} {n : Nat} (hd : d.length = 4 * n) : (wordsOf d).length = n := by
  induction n generalizing d with
  | zero => rw [List.length_eq_zero_iff.mp hd]; rfl
  | succ n ih =>
    match d, hd with
    | a :: b :: c :: e :: t, hd => exact congrArg (· + 1) (ih (by simp only [List.length_cons] at hd; omega))

/-- One word of a tile in memory, read as a plain load of the cell. -/
def loadWord (key : Nat) (a : State × List W32) (i : Nat) : State × List W32 :=
  let (s1, d) := a.1.readBy a.1.cur (key + 4 * i) 4
  (s1, BitVec.ofNat 32 (leNat d) :: a.2)

theorem loadWords_keeps (key : Nat) (l : List Nat) (a : State × List W32) :
    (l.foldl (loadWord key) a).1.me.gang = a.1.me.gang ∧ (l.foldl (loadWord key) a).2.length = a.2.length + l.length := by
  induction l generalizing a with
  | nil => exact ⟨rfl, rfl⟩
  | cons i l ih =>
    obtain ⟨hgang, hlen⟩ := ih (loadWord key a i)
    have hread : (loadWord key a i).1.me.gang = a.1.me.gang :=
      (keeps_readBy (g := Cell.gang) (fun _ _ _ _ _ _ _ _ => rfl) ..).me (readBy_cur ..)
    refine ⟨hgang.trans hread, hlen.trans ?_⟩
    simp only [loadWord, List.length_cons]
    omega

/-- With no write unordered before its reads a tile is loaded as it stands. -/
theorem loadTile_settled {key : Nat} (h : (s.writesAfter s.me.floor key 16384).isEmpty = true) : loadTile s key = (s, wordsOf (s.span key 16384)) :=
  if_pos h

/-- Otherwise it is read word by word. -/
theorem loadTile_words {key : Nat} (h : ¬ (s.writesAfter s.me.floor key 16384).isEmpty = true) : ∃ words : List Nat, words.length = 4096 ∧
    loadTile s key = ((words.foldl (loadWord key) (s, [])).1, (words.foldl (loadWord key) (s, [])).2.reverse) :=
  ⟨List.range 4096, List.length_range, if_neg h⟩

theorem loadTile_gang (s : State) (key : Nat) : (loadTile s key).1.me.gang = s.me.gang := by
  by_cases h : (s.writesAfter s.me.floor key 16384).isEmpty = true
  · rw [loadTile_settled h]
  · obtain ⟨words, -, hl⟩ := loadTile_words h
    rw [hl]
    exact (loadWords_keeps key words (s, [])).1

theorem loadTile_length (s : State) (key : Nat) : (loadTile s key).2.length = 4096 := by
  by_cases h : (s.writesAfter s.me.floor key 16384).isEmpty = true
  · rw [loadTile_settled h]
    exact wordsOf_length (denseBytes_length ..)
  · obtain ⟨words, hwords, hl⟩ := loadTile_words h
    rw [hl, List.length_reverse, (loadWords_keeps key words (s, [])).2, hwords]
    rfl

section
variable (h : mready s = true) {d : Tile} (hd : declared s d = true) {a : Reg}
include h hd

theorem execMsave_mready (hs : ∃ dva, segCheck s.myGang (rdX s a) 16384 rWrite = .ok dva) (ha : (rdX s a).toNat % 64 = 0)
    (h6 : 6 ≤ bits (rdX s a).toNat 63 61) : execMsave d a s = .next (after (useUnit ((leased s).writeUnits (.cell s.cur) none 4
      [(ownKey s.myGang (rdX s a), (readTile (leased s) s.myGang.core d.toNat).flatMap fun w => leBytes w.toNat 4)] 0) true) 8) := by
  have hc := calm_of_mready h
  have hmove := tileMove_ok hc hs ha h6
  rw [← getX_calm hc 8] at hmove ⊢
  rw [← leased_myGang h]
  exact issue_op hc (tileCheck_declared h hd) ((op_bind_of hmove).trans (leased_unit h))

theorem execMrstr_mready (hs : ∃ dva, segCheck s.myGang (rdX s a) 16384 rRead = .ok dva) (ha : (rdX s a).toNat % 64 = 0)
    (h6 : 6 ≤ bits (rdX s a).toNat 63 61) {key : Nat} (hk : ownKey s.myGang (rdX s a) = key) : execMrstr d a s = .next (after
      (loadUnit (writeTile (loadTile (leased s) key).1 s.myGang.core s.me.gang d.toNat (loadTile (leased s) key).2) d.toNat key) 8) := by
  have hc := calm_of_mready h
  have hmove := tileMove_ok hc hs ha h6
  rw [← getX_calm hc 8] at hmove hk
  rw [← leased_myGang h] at hk ⊢
  rw [← leased_gang h, ← loadTile_gang (leased s) key, ← hk]
  exact issue_op hc (tileCheck_declared h hd) ((op_bind_of hmove).trans (leased_unit h))

end

/-! ### AMX (spec 08 R196, R197; 11 R276) -/

section
variable (h : calm s = true) (r : Reg) (i : BitVec 4)
include h

theorem tmaxOf_begun : tmaxOf (begun s 8) i = (s.myGang.tmax[i.toNat]?).getD 0 := by rw [tmaxOf, begun_myGang h]

theorem execAmxrd_calm : execAmxrd r i s = .next (after (setFLate (begun s 8) r ((s.myGang.tmax[i.toNat]?).getD 0) 2) 8) := by
  rw [← tmaxOf_begun h]
  exact issue_calm h 8 _ _ _ _ rfl

theorem execAmxswp_calm : execAmxswp r i s = .next (after ((setFLate (begun s 8) r ((s.myGang.tmax[i.toNat]?).getD 0) 2).modGang s.me.gang
    fun g => { g with tmax := setAt g.tmax i.toNat 0 }) 8) := by
  have hg : (begun s 8).me.gang = s.me.gang := by rw [begun_me h]
  rw [← tmaxOf_begun h, ← hg]
  exact issue_calm h 8 _ _ _ _ rfl

theorem execAmxmax_calm : execAmxmax r i s = .next (after (if (val32 (rdF s r &&& 0x7FFFFFFF)).isNan then begun s 8
    else tmaxUp (begun s 8) s.me.gang i.toNat (rdF s r &&& 0x7FFFFFFF)) 8) := by
  have hg : (begun s 8).me.gang = s.me.gang := by rw [begun_me h]
  rw [← getF_calm h 8, ← hg]
  exact issue_calm h 8 _ _ _ _ rfl

end

/-- Settles O34: the three kinds of drain are one operation, and the moves go by the lease, the row's number and the tile as it is loaded. -/
theorem matrixDrainsAndMoves : Obligations.MatrixDrainsAndMoves := by
  unfold Obligations.MatrixDrainsAndMoves
  refine ⟨?drains, ?moves⟩
  case drains =>
    intro s f c h hd u base xb pitch nr ok done hbase hpitch hxb hrows
    have hc := calm_of_mready h
    have hg : u.myGang = s.myGang := leased_myGang h
    have hdone (kind : DrainBy) : drained u f kind base xb = done kind := by rw [drained, hg]; rfl
    have drain (src : List Dst) (by_ : State → DrainBy) {kind : DrainBy} (hk : by_ (begun s 8) = kind) (he : ∀ ea ∈ kind.exps, ok ea nr) :
        drainOp f src by_ s = .next (after (useUnit (done kind) true) 8) := by
      rw [← hdone]
      exact drainOp_mready h hd hk (getX_calm hc 8 f.a) (getX_calm hc 8 f.b) hbase hpitch hxb hrows he
    refine ⟨?plain, ?delayed, fun hexps => ?row⟩
    case plain => exact drain [] (fun _ => .plain) rfl nofun
    case delayed => exact drain [.f c] (fun s => .delayed (getF s c)) (congrArg DrainBy.delayed (getF_calm hc 8 c)) nofun
    case row =>
      refine drain [.x c] (fun s => .row (getX s c)) (congrArg DrainBy.row (getX_calm hc 8 c)) fun ea hea => ?_
      rw [List.mem_singleton.mp hea]
      exact hexps
  case moves =>
    intro s d v a ix col p t i u core gid j tile act old late reach
    have hix : rowNumber s ix = j := by cases ix <;> rfl
    refine ⟨fun h hd hj => ⟨fun hv => ⟨?rowRd, ?rowWr⟩, fun hr => ?save, fun hr => ⟨?restore, fun hw => ?settled⟩⟩,
      fun h => ⟨execAmxrd_calm h v i, execAmxswp_calm h v i, execAmxmax_calm h v i⟩⟩
    case rowRd => exact execMrowRd_mready h hd hv hix hj col p t
    case rowWr => exact execMrowWr_mready h hd hv hix hj col p t
    case save =>
      obtain ⟨hs, ha, h6⟩ := hr
      exact execMsave_mready h hd hs ha h6
    case restore =>
      obtain ⟨hs, ha, h6⟩ := hr
      exact ⟨_, _, execMrstr_mready h hd hs ha h6 rfl, loadTile_mem .., loadTile_length ..⟩
    case settled =>
      obtain ⟨hs, ha, h6⟩ := hr
      have hload : loadTile u (ownKey s.myGang (rdX s a)) = (u, wordsOf (u.span (ownKey s.myGang (rdX s a)) 16384)) :=
        loadTile_settled (by rw [leased_me h]; exact hw)
      have hrun := execMrstr_mready h hd hs ha h6 rfl
      rw [hload] at hrun
      exact hrun

end Sys2Proof.Machine
end

section
/-! The VINT functions: the element function of each (spec 09 R203, R204, R209). -/

open Sys2Proof Sys2Proof.Machine

namespace Sys2Proof.Machine

section
variable {s : State} (h : vready s = true) (fn : BitVec 6) (t : Ty) (p : Pred) {d a : Reg} (hd : aligned s d = true) (ha : aligned s a = true)
include h hd ha

/-- A VINT instruction of two operands, of which b is a group or the low bits of x(b). -/
theorem vint_binary {b : Reg} {xs : Bool} (hb : xs = false → aligned s b = true) (f : Nat → Nat → Nat → Nat × Fl) :
    let u := begun s 8
    ∃ q, vint fn t p d a b xs f s = .next (after (vecTo s q (selected u p) d t.width (vcount u.me t.width) 0 (if xs then rdX s b else 0)
      fun i => f t.width (elem (getGroup u u.me.g a) t.width i)
        (if xs then (rdX s b).toNat % 2 ^ t.width else elem (getGroup u u.me.g b) t.width i)) 8) := by
  let q := qv 0x01 fn t.code p d a b 0 (immBit xs)
  refine ⟨q, (vecMap_calm h q _ t.width 2 _ _ _ _ rfl hd ha (fun _ hx => hb ?_) nofun).trans ?_⟩
  · cases xs
    · rfl
    · cases hx
  · simp only [getX_calm (vready_calm h)]
    cases xs <;> rfl

/-- A VINT instruction of one operand. -/
theorem vint_unary (f : Nat → Nat → Nat) :
    let u := begun s 8
    ∃ q, vintUn fn t p d a f s = .next (after (vecTo s q (selected u p) d t.width (vcount u.me t.width) 0 0
      fun i => (f t.width (elem (getGroup u u.me.g a) t.width i), .none)) 8) :=
  ⟨_, vecMap_calm h (qv 0x01 fn t.code p d a 0 0 0) noEarlyCheck t.width 1 none _ _ (fun _ x _ _ => (f t.width x, .none)) rfl hd ha nofun nofun⟩

end

/-- Settles O23: each instruction is VINT of its operands on its own element function. -/
theorem vectorIntegerResults : Obligations.VectorIntegerResults := by
  unfold Obligations.VectorIntegerResults
  intro s d a b xs p t h hd ha hb u w n A B sg lo hi gives sats un
  have two (fn : BitVec 6) (f : Nat → Nat → Nat → Nat × Fl) := vint_binary h fn t p hd ha hb f
  have one (fn : BitVec 6) (f : Nat → Nat → Nat) := vint_unary h fn t p hd ha f
  refine ⟨?vadd, ?vsub, ?vmul, ?vmulh, ?vmin, ?vmax, ?vminu, ?vmaxu, ?vand, ?vor, ?vxor, ?vsll, ?vsrl, ?vsra, ?vsadd, ?vssub, ?vabs, ?vneg⟩
  case vadd => exact two 0x00 (plain eAdd)
  case vsub => exact two 0x01 (plain eSub)
  case vmul => exact two 0x02 (plain eMul)
  case vmulh => exact two 0x03 (plain eMulh)
  case vmin => exact two 0x04 (plain eMin)
  case vmax => exact two 0x05 (plain eMax)
  case vminu => exact two 0x06 (plain eMinu)
  case vmaxu => exact two 0x07 (plain eMaxu)
  case vand => exact two 0x08 (plain eAnd)
  case vor => exact two 0x09 (plain eOr)
  case vxor => exact two 0x0A (plain eXor)
  case vsll => exact two 0x0B (plain eSll)
  case vsrl => exact two 0x0C (plain eSrl)
  case vsra => exact two 0x0D (plain eSra)
  case vsadd => exact two 0x10 (sat (· + ·))
  case vssub => exact two 0x11 (sat (· - ·))
  case vabs => exact one 0x0E eAbs
  case vneg => exact one 0x0F eNeg

end Sys2Proof.Machine
end

section
/-! Vector comparisons and the mask functions (spec 09 R212, R213). -/

open Sys2Proof Sys2Proof.Machine

namespace Sys2Proof.Machine

/-- A VCMP instruction: its mask says where the relation holds, and its NV is that of the active elements. -/
theorem vcmp_calm {s : State} (h : vready s = true) (fn : BitVec 6) (d : MReg) {a b : Reg} {xs : Bool} (p : Pred) (t : Ty) (ha : aligned s a = true)
    (hb : xs = false → aligned s b = true) (rel : Int → Int → Bool) (frel : Fv → Fv → Bool) (onNan loud : Bool) :
    let u := begun s 8
    let w := t.width
    let n := vcount u.me w
    let x (i : Nat) : Nat := elem (getGroup u u.me.g a) w i
    let y (i : Nat) : Nat :=
      if xs then (if t.isInt then (rdX s b).toNat % 2 ^ w else unboxTo t (rdF s b)) else elem (getGroup u u.me.g b) w i
    let nan (i : Nat) : Bool := (valOf t (x i)).isNan || (valOf t (y i)).isNan
    let snan (i : Nat) : Bool := (valOf t (x i)).isSnan || (valOf t (y i)).isSnan
    ∃ q, vcmp fn d a b xs p t rel frel onNan loud s = .next (after (raiseFlags (maskTo s q (selected u p) d w n
        (if xs then (if t.isInt then rdX s b else (rdF s b).setWidth 64) else 0) fun e =>
          if t.isInt then rel (intOf t (x e)) (intOf t (y e)) else if nan e then onNan else frel (valOf t (x e)) (valOf t (y e)))
      { nv := !t.isInt && (List.range n).any fun e => selected u p e && (snan e || (loud && nan e)) }) 8) := by
  intro u w n x y nan snan
  have hfields : ∀ f ∈ [(1, a)] ++ (if xs then [] else [(2, b)]), aligned s f.2 = true := by
    cases xs
    · simpa using ⟨ha, hb rfl⟩
    · simpa using ha
  refine ⟨qv 0x03 fn t.code p (mreg d) a b 0 (immBit xs), (vecIssue_room h (early := noEarlyCheck) rfl hfields rfl).trans ?_⟩
  simp only [getX_calm (vready_calm h), getF_calm (vready_calm h)]
  rfl

/-- A mask function of a given bit function. -/
theorem vmsk_gives {s : State} (h : vready s = true) (q : Q64) (d : MReg) (all : Bool) (p : Pred) (f : State → Nat → Bool) {g : Nat → Bool}
    (hf : ∀ i, f (begun s 8) i = g i) :
    let u := begun s 8
    ∃ r, vmsk q d all p f s = .next (after (maskTo s r (fun i => all || selected u p i) d 1 (if all then 1024 else u.me.vl) 0 g) 8) :=
  ⟨q, (funext hf : f (begun s 8) = g) ▸ vmsk_calm h q d all p f⟩

/-- A mask function of a given count of its hits. -/
theorem vmskX_gives {s : State} (h : vready s = true) (q : Q64) (x : Reg) (all : Bool) (p : Pred) (a : MReg) (f : List Nat → Word) {v : Word} :
    let u := begun s 8
    let n := if all then 1024 else u.me.vl
    f ((List.range n).filter fun i => (all || selected u p i) && (rdM s a).getLsbD i) = v →
      ∃ r, vmskX q x all p a f s = .next (after (setXLate (fly u r n 1 (heldScalar u (.x x) n) 0 0 0) x v 2) 8) := by
  rintro u n rfl
  exact ⟨q, vmskX_calm h q x all p a f⟩

/-- What MFIRST gives: the first of its hits, or −1 (spec 09 R213). -/
def firstHit : List Nat → Word
  | i :: _ => BitVec.ofNat 64 i
  | [] => BitVec.allOnes 64

/-- Settles O25: a comparison by its relations, a mask function by its bit function or by what it counts. -/
theorem vectorComparesAndMasks : Obligations.VectorComparesAndMasks := by
  unfold Obligations.VectorComparesAndMasks
  refine ⟨?compares, ?masks⟩
  case compares =>
    intro s d a b xs p t h ha hb u w n x y raw nan snan gives
    have cmp (fn : BitVec 6) := vcmp_calm h fn d p t ha hb
    refine ⟨?eq, ?ne, ?lt, ?le, ?gt, ?ge⟩
    case eq => exact cmp 0 (fun x y => x == y) Fv.eqv false false
    case ne => exact cmp 1 (fun x y => x != y) (fun x y => !Fv.eqv x y) true false
    case lt => exact cmp 2 (fun x y => decide (x < y)) Fv.lt false true
    case le => exact cmp 3 (fun x y => decide (x ≤ y)) (fun x y => !Fv.lt y x) false true
    case gt => exact cmp 4 (fun x y => decide (y < x)) (fun x y => Fv.lt y x) false true
    case ge => exact cmp 5 (fun x y => decide (y ≤ x)) (fun x y => !Fv.lt x y) false true
  case masks =>
    intro s d a b x all p h u n act A B gives hits scalar
    have mask (fn : BitVec 6) (x y : Reg) (f : State → Nat → Bool) {g : Nat → Bool} (hf : ∀ i, f u i = g i) :=
      vmsk_gives h (qv 0x04 fn 0 p (mreg d) x y 0 (immBit all)) d all p f hf
    have count (fn : BitVec 6) (f : List Nat → Word) {v : Word} (hv : f hits = v) :=
      vmskX_gives h (qv 0x04 fn 0 p x (mreg a) 0 0 (immBit all)) x all p a f hv
    have hM (r : MReg) : getM u r = rdM s r := getM_calm (vready_calm h) 8 r
    refine ⟨?mand, ?mor, ?mxor, ?mandn, ?mnot, ?mset, ?mclr, ?mpop, ?mfirst, ?mfirstNone⟩
    case mand => exact mask 0x00 (mreg a) (mreg b) (fun s i => (getM s a).getLsbD i && (getM s b).getLsbD i) fun i => by rw [hM, hM]
    case mor => exact mask 0x01 (mreg a) (mreg b) (fun s i => (getM s a).getLsbD i || (getM s b).getLsbD i) fun i => by rw [hM, hM]
    case mxor => exact mask 0x02 (mreg a) (mreg b) (fun s i => (getM s a).getLsbD i != (getM s b).getLsbD i) fun i => by rw [hM, hM]
    case mandn => exact mask 0x03 (mreg a) (mreg b) (fun s i => (getM s a).getLsbD i && !(getM s b).getLsbD i) fun i => by rw [hM, hM]
    case mnot => exact mask 0x04 (mreg a) 0 (fun s i => !(getM s a).getLsbD i) fun i => by rw [hM]
    case mset => exact mask 0x07 0 0 (fun _ _ => true) fun _ => rfl
    case mclr => exact mask 0x08 0 0 (fun _ _ => false) fun _ => rfl
    case mpop => exact count 0x05 (fun l => BitVec.ofNat 64 l.length) rfl
    case mfirst => exact fun i rest hi => count 0x06 firstHit (by rw [hi]; rfl)
    case mfirstNone => exact fun hi => count 0x06 firstHit (by rw [hi]; rfl)

end Sys2Proof.Machine
end

section
/-! Slides, gathers, selections, compressions and the moves between elements and registers (spec 09 R214). -/

open Sys2Proof Sys2Proof.Machine

namespace Sys2Proof.Machine

/-- An integer wrapped to 64 bits is its word. -/
theorem ofNat_wrapInt_64 (v : Int) : BitVec.ofNat 64 (wrapInt 64 v) = BitVec.ofInt 64 v := by
  apply BitVec.eq_of_toNat_eq
  rw [BitVec.toNat_ofNat, BitVec.toNat_ofInt, wrapInt]
  omega

/-- A value for the elements that are selected, where the others keep theirs. -/
theorem ite_some_getD {c : Prop} [Decidable c] (x d : Nat) : (if c then some x else none).getD d = if c then x else d := by
  split <;> rfl

section
variable {s : State} (h : vready s = true) {d : Reg} (t : Ty) (hd : aligned s d = true)
include h hd

/-- A permute of a given element function, whose scalar operands are recorded as `xa` and `xb`. -/
theorem permute_gives {q : Q64} (hq : q.d = d) (srcs : List Dst) {fields : List (Nat × Reg)} (hf : ∀ e ∈ fields, aligned s e.2 = true) {xa xb : Word}
    (hxa : rawAt (begun s 8) srcs 0 = xa) (hxb : rawAt (begun s 8) srcs 1 = xb) (f : State → Nat → Nat → Option Nat) {g : Nat → Nat}
    (hg : ∀ e, (f (begun s 8) (vcount (begun s 8).me t.width) e).getD (elem (getGroup (begun s 8) (begun s 8).me.g d) t.width e) = g e) :
    let u := begun s 8
    let w := t.width
    let n := vcount u.me w
    ∃ r, permute q t srcs fields f s = .next (after (setGroup (fly u r n w (heldGroup u u.me.g w d) xa xb 0) u.me.g d
      (mapElems (getGroup u u.me.g d) w n (fun _ => true) fun e => (g e, .none)).1) 8) := by
  subst hq hxa hxb
  refine ⟨q, (permute_calm h q t srcs fields f hd hf).trans ?_⟩
  simp only [hg]

end

/-- Settles O26: a permute by its element function, a move by its element. -/
theorem vectorPermutes : Obligations.VectorPermutes := by
  unfold Obligations.VectorPermutes
  intro s d a b ix p t h hd ha hb u w n top A B D k sel on moving gives
  have hc : calm s = true := vready_calm h
  refine ⟨?slideup, ?slidedn, ?bcast, ?perm, ?sel, ?compress, ?xv, ?fv, ?vx, ?vf⟩
  case slideup =>
    refine permute_gives h t hd rfl [.v a, .x b] (fields := [(1, a)]) (by simpa using ha) rfl (getX_calm hc 8 b) _ fun e => ?_
    simp only [ite_some_getD, getX_calm hc, Bool.and_eq_true, decide_eq_true_eq]
    rfl
  case slidedn =>
    refine permute_gives h t hd rfl [.v a, .x b] (fields := [(1, a)]) (by simpa using ha) rfl (getX_calm hc 8 b) _ fun e => ?_
    simp only [ite_some_getD, getX_calm hc]
    rfl
  case bcast =>
    refine permute_gives h t hd rfl [.x a] (fields := []) nofun (getX_calm hc 8 a) rfl _ fun e => ?_
    simp only [ite_some_getD, getX_calm hc]
    rfl
  case perm =>
    exact permute_gives h t hd rfl [.v a, .v b] (fields := [(1, a), (2, b)]) (by simpa using ⟨ha, hb⟩) rfl rfl _ fun e => ite_some_getD _ _
  case sel =>
    exact permute_gives h t hd rfl [.v a, .v b] (fields := [(1, a), (2, b)]) (by simpa using ⟨ha, hb⟩) rfl rfl _ fun e => rfl
  case compress =>
    exact permute_gives h t hd rfl [.v a] (fields := [(1, a)]) (by simpa using ha) rfl rfl _ fun e => rfl
  case xv =>
    refine ⟨qv 0x05 0x04 t.code Pred.all d a 0 0 ((0 : BitVec 6) ++ ix), ?_⟩
    rw [← ofNat_wrapInt_64, show (0 : Word) = BitVec.ofNat 64 0 from rfl, ← apply_ite (BitVec.ofNat 64)]
    exact vecIssue_room h (early := noEarlyCheck) (fields := [(1, a)]) rfl (by simpa using ha) rfl
  case fv =>
    exact ⟨qv 0x05 0x06 t.code Pred.all d a 0 0 ((0 : BitVec 6) ++ ix),
      vecIssue_room h (early := noEarlyCheck) (fields := [(1, a)]) rfl (by simpa using ha) rfl⟩
  case vx =>
    have hx := moveIn_calm h (qv 0x05 0x05 t.code Pred.all d a 0 0 ((0 : BitVec 6) ++ ix)) (.x a) t ix.toNat (fun s => (getX s a).toNat)
      (fun s => getX s a) hd
    simp only [getX_calm hc] at hx
    exact ⟨_, hx⟩
  case vf =>
    have hx := moveIn_calm h (qv 0x05 0x07 t.code Pred.all d a 0 0 ((0 : BitVec 6) ++ ix)) (.f a) t ix.toNat (fun s => unboxTo t (getF s a))
      (fun s => (getF s a).setWidth 64) hd
    simp only [getF_calm hc] at hx
    exact ⟨_, hx⟩

end Sys2Proof.Machine
end

section
/-! VGRP_ALIGN: the first operand field that names no group (spec 09 R205; 05 R128). -/

open Sys2Proof Sys2Proof.Machine

namespace Sys2Proof.Machine

/-- An instruction traps VGRP_ALIGN for the first of its vector operand fields, in their order, that names no group. -/
def TrapsFirst (s : State) (i : Instr) (fields : List (Nat × Reg)) : Prop :=
  ∀ before n r rest, fields = before ++ (n, r) :: rest → (∀ x ∈ before, aligned s x.2 = true) → aligned s r = false →
    exec i s = .next (trapped (begun s 8) 8 cVGRP_ALIGN (BitVec.ofNat 64 (r.toNat + 32 * n)))

section
variable {s : State} (h : calm s = true)
include h

/-- The check finds the first field that names no group. -/
theorem alignCheck_first {before : List (Nat × Reg)} {n : Nat} {r : Reg} {rest : List (Nat × Reg)} (hb : ∀ x ∈ before, aligned s x.2 = true)
    (hr : aligned s r = false) : alignCheck (before ++ (n, r) :: rest) (begun s 8) = some (cVGRP_ALIGN, BitVec.ofNat 64 (r.toNat + 32 * n)) := by
  have hne {x : Reg} : (x.toNat % 2 ^ (begun s 8).me.g != 0) = !aligned s x := by rw [begun_g h]; rfl
  unfold alignCheck
  rw [List.find?_append, List.find?_eq_none.mpr fun x hx => by simp [hne, hb x hx], Option.none_or, List.find?_cons_of_pos (by simp [hne, hr])]

/-- A vector instruction whose class 2 check passes. -/
theorem trapsFirst_vecIssue {i : Instr} {early : Early} {fields : List (Nat × Reg)} {srcs dsts : List Dst} {body : State → Op Res}
    (hi : exec i s = vecIssue early fields srcs dsts body s) (he : early (begun s 8) = none) : TrapsFirst s i fields :=
  fun _ _ _ _ hf hb hr => hi.trans (vecIssue_misaligned h early fields srcs dsts body he hf hb hr)

/-- A vector instruction with no class 2 check. -/
theorem trapsFirst_plain {i : Instr} {fields : List (Nat × Reg)} {srcs dsts : List Dst} {body : State → Op Res}
    (hi : exec i s = vecIssue noEarlyCheck fields srcs dsts body s) : TrapsFirst s i fields := trapsFirst_vecIssue h hi rfl

/-- A matrix instruction of a tile that its gang declares. -/
theorem trapsFirst_tile {i : Instr} {td : Tile} (ht : declared s td = true) {fields : List (Nat × Reg)} {srcs dsts : List Dst} {body : State → Res}
    (hi : exec i s = issue 8 (fun s => match tileCheck td s with | some t => some t | none => alignCheck fields s) srcs dsts body s) :
    TrapsFirst s i fields := by
  rintro before n r rest rfl hb hr
  rw [hi]
  refine issue_early (calm_issue h) 8 _ srcs dsts body ?_
  have htile : tileCheck td (begun s 8) = none := by rw [tileCheck, begun_myGang h]; exact if_pos ht
  simp only [htile]
  exact alignCheck_first h hb hr

/-- A class 2 check of the rounding mode in frm passes. -/
theorem frmCheck_uses {m : Rm} (hm : rmSelect s 7 = some m) (uses : Bool) (q : Q64) : (if uses then frmCheck q else noEarlyCheck) (begun s 8) = none :=
  early_ite (frmCheck_ok h hm q) rfl

section
variable {i : Instr} {fn : BitVec 6} {t : Ty} {p : Pred} {d a b c : Reg} {xs : Bool}

/-- A VINT instruction of two operands. -/
theorem trapsFirst_vint {f : Nat → Nat → Nat → Nat × Fl} (hi : exec i s = vint fn t p d a b xs f s) :
    TrapsFirst s i ([(0, d), (1, a)] ++ if xs then [] else [(2, b)]) := by
  cases xs <;> exact trapsFirst_plain h hi

/-- A VINT instruction of one operand. -/
theorem trapsFirst_vintUn {f : Nat → Nat → Nat} (hi : exec i s = vintUn fn t p d a f s) : TrapsFirst s i [(0, d), (1, a)] :=
  trapsFirst_plain h hi

variable {uses : Bool} {f : Rm → Nat → Nat → Nat → Nat × Fl} {m : Rm} (hm : rmSelect s 7 = some m)
include hm

/-- A VFLT instruction of two operands. -/
theorem trapsFirst_vflt (hi : exec i s = vflt fn t p d a b 0 2 xs uses f s) : TrapsFirst s i ([(0, d), (1, a)] ++ if xs then [] else [(2, b)]) := by
  cases xs <;> exact trapsFirst_vecIssue h hi (frmCheck_uses h hm uses _)

/-- A VFLT instruction of one operand. -/
theorem trapsFirst_vfltUn (hi : exec i s = vflt fn t p d a 0 0 1 false uses f s) : TrapsFirst s i [(0, d), (1, a)] :=
  trapsFirst_vecIssue h hi (frmCheck_uses h hm uses _)

/-- A VFLT instruction of three operands. -/
theorem trapsFirst_vfltFused (hi : exec i s = vflt fn t p d a b c 3 xs uses f s) :
    TrapsFirst s i ([(0, d), (1, a)] ++ (if xs then [] else [(2, b)]) ++ [(3, c)]) := by
  cases xs <;> exact trapsFirst_vecIssue h hi (frmCheck_uses h hm uses _)

end

/-- A reduction, whose check of frm is that of floats alone. -/
theorem trapsFirst_vred {i : Instr} {q : Q64} {early1 early2 : Early} {a d : Reg} {t : Ty} {r1 r2 : State → Nat × Fl} {more1 more2 : Nat → State → State}
    (hi : exec i s = if t.isInt then vred q early1 a d t false r1 more1 s else vred q early2 a d t true r2 more2 s)
    (h1 : early1 (begun s 8) = none) (h2 : early2 (begun s 8) = none) : TrapsFirst s i [(1, a)] := by
  split at hi
  · exact trapsFirst_vecIssue h hi h1
  · exact trapsFirst_vecIssue h hi h2

/-- A comparison. -/
theorem trapsFirst_vcmp {i : Instr} {fn : BitVec 6} {d : MReg} {a b : Reg} {xs : Bool} {p : Pred} {t : Ty} {rel : Int → Int → Bool}
    {frel : Fv → Fv → Bool} {onNan loud : Bool} (hi : exec i s = vcmp fn d a b xs p t rel frel onNan loud s) :
    TrapsFirst s i ([(1, a)] ++ if xs then [] else [(2, b)]) :=
  trapsFirst_plain h hi

end

/-- Settles O28: each family checks its fields in order, and the check finds the first that names no group. -/
theorem vectorAlignment : Obligations.VectorAlignment := by
  unfold Obligations.VectorAlignment
  intro s d a b c md td xs tm col p t src m imm n1 ix i4 w6 dup row pair h hm first b? ints ones fused compares only
  refine ⟨?ints, ?ones, ?fused, ?compares, ?only, ?matrix⟩
  case ints =>
    have int {i : Instr} {fn : BitVec 6} {f : Nat → Nat → Nat → Nat × Fl} (hi : exec i s = vint fn t p d a b xs f s) := trapsFirst_vint h hi
    have flt {i : Instr} {fn : BitVec 6} {uses : Bool} {f : Rm → Nat → Nat → Nat → Nat × Fl} (hi : exec i s = vflt fn t p d a b 0 2 xs uses f s) :=
      trapsFirst_vflt h hm hi
    simp only [ints, List.forall_mem_cons]
    exact ⟨int (exec_vintVadd ..), int (exec_vintVsub ..), int (exec_vintVmul ..), int (exec_vmulh ..), int (exec_vintVmin ..), int (exec_vintVmax ..),
      int (exec_vminu ..), int (exec_vmaxu ..), int (exec_vand ..), int (exec_vor ..), int (exec_vxor ..), int (exec_vsll ..), int (exec_vsrl ..),
      int (exec_vsra ..), int (exec_vsadd ..), int (exec_vssub ..), flt (exec_vfltVadd ..), flt (exec_vfltVsub ..), flt (exec_vfltVmul ..),
      flt (exec_vfltVmin ..), flt (exec_vfltVmax ..), flt (exec_vdiv ..), flt (exec_vsgnj ..), nofun⟩
  case ones =>
    have int {i : Instr} {fn : BitVec 6} {f : Nat → Nat → Nat} (hi : exec i s = vintUn fn t p d a f s) := trapsFirst_vintUn h hi
    have flt {i : Instr} {fn : BitVec 6} {uses : Bool} {f : Rm → Nat → Nat → Nat → Nat × Fl} (hi : exec i s = vflt fn t p d a 0 0 1 false uses f s) :=
      trapsFirst_vfltUn h hm hi
    simp only [ones, List.forall_mem_cons]
    exact ⟨int (exec_vintVabs ..), int (exec_vintVneg ..), flt (exec_vfltVabs ..), flt (exec_vfltVneg ..), flt (exec_vsqrt ..), flt (exec_vrcp ..),
      flt (exec_vrsqrt ..), flt (exec_vexp2 ..), flt (exec_vlog2 ..), trapsFirst_plain h (exec_vcompress ..), nofun⟩
  case fused =>
    simp only [fused, List.forall_mem_cons]
    exact ⟨trapsFirst_vfltFused h hm (exec_vfma ..), trapsFirst_vfltFused h hm (exec_vfms ..), trapsFirst_vfltFused h hm (exec_vfnma ..), nofun⟩
  case compares =>
    simp only [compares, List.forall_mem_cons]
    exact ⟨trapsFirst_vcmp h (exec_vcmpeq ..), trapsFirst_vcmp h (exec_vcmpne ..), trapsFirst_vcmp h (exec_vcmplt ..),
      trapsFirst_vcmp h (exec_vcmple ..), trapsFirst_vcmp h (exec_vcmpgt ..), trapsFirst_vcmp h (exec_vcmpge ..), nofun⟩
  case only =>
    have vec {i : Instr} {fields : List (Nat × Reg)} {srcs dsts : List Dst} {body : State → Op Res}
        (hi : exec i s = vecIssue noEarlyCheck fields srcs dsts body s) := trapsFirst_plain h hi
    have vstx : TrapsFirst s (.vstx c a b dup p t) [(2, b), (3, c)] := by cases dup <;> exact vec (exec_vstx ..)
    simp only [only, List.forall_mem_cons]
    exact ⟨vec (exec_vslideup ..), vec (exec_vslidedn ..), vec (exec_vbcast ..), vec (exec_vperm ..), vec (exec_vsel ..), vec (exec_vmvXv ..),
      vec (exec_vmvFv ..), vec (exec_vmvVx ..), vec (exec_vmvVf ..), trapsFirst_vred h (exec_vredsum ..) rfl (frmCheck_ok h hm _),
      trapsFirst_vred h (exec_vredmax ..) rfl rfl, trapsFirst_vred h (exec_vredmin ..) rfl rfl, trapsFirst_vred h (exec_vredamax ..) rfl rfl,
      trapsFirst_vecIssue h (exec_vcvt ..) (early_ite rfl (frmCheck_ok h hm _)), vec (exec_vsrnd ..), vec (exec_vqnt ..), vec (exec_vqnt ..),
      vec (exec_vld ..), vec (exec_vlds ..), vec (exec_vld2d ..), vec (exec_vldx ..), vec (exec_vst ..), vec (exec_vsts ..), vstx, List.forall_mem_nil _⟩
  case matrix => exact fun ht => ⟨trapsFirst_tile h ht (exec_mop1 ..), trapsFirst_tile h ht (exec_mrowRd ..), trapsFirst_tile h ht (exec_mrowWr ..)⟩

end Sys2Proof.Machine
end

section
/-! Errors of the hardware: what is counted, what is replaced, and what is killed (spec 09 R228; 18 R379, R388 to R393; 01 R27). -/

open Sys2Proof Sys2Proof.Machine

namespace Sys2Proof.Machine

variable {s : State}

/-- A report leaves cells, gangs and launches. -/
theorem postReport_keeps (s : State) (kind code part cell : Nat) (kval crec cause tepc1 tepc2 : Word) :
    (postReport s kind code part cell kval crec cause tepc1 tepc2).cells = s.cells
      ∧ (postReport s kind code part cell kval crec cause tepc1 tepc2).gangs = s.gangs
      ∧ (postReport s kind code part cell kval crec cause tepc1 tepc2).launches = s.launches := by
  unfold postReport State.msix
  dsimp only
  split
  · split <;> exact ⟨rfl, rfl, rfl⟩
  · exact ⟨rfl, rfl, rfl⟩

/-- A report leaves each gang in its partition. -/
theorem partOfGang_postReport (s : State) (kind code part cell : Nat) (kval crec cause tepc1 tepc2 : Word) (gid : Nat) :
    partOfGang (postReport s kind code part cell kval crec cause tepc1 tepc2) gid = partOfGang s gid := by
  obtain ⟨-, hgangs, hlaunches⟩ := postReport_keeps s kind code part cell kval crec cause tepc1 tepc2
  simp only [partOfGang, State.gang, State.launch, hgangs, hlaunches]

/-! ### Lanes (spec 09 R228; 18 R390) -/

/-- The first failed lane group of a core. -/
theorem laneFailure_first {core i group : Nat} {v : VFlight} (hv : (s.core core).vec[i]? = some v) (hl : (s.core core).laneFails = []) (hg : group < 9) :
    exec (.laneFailure core i group) s = .next (postReport (countErr (s.modCore core fun k => { k with laneFails := [group] }) (dieOf core) 7 1)
      3 0 (partOfGang s v.gang) v.cell 0 0 0 0 0) := by
  simp only [exec_laneFailure, execLaneFailure, hv, hl, List.isEmpty_nil, hg, decide_true, Bool.and_self, if_true]

/-- The second failed lane group of a core. -/
theorem coreRetire_second {core i group g : Nat} {v : VFlight} (hv : (s.core core).vec[i]? = some v) (hl : (s.core core).laneFails = [g]) (hne : g ≠ group)
    (hg : group < 9) :
    let s1 := s.modCore core fun k => { k with laneFails := k.laneFails ++ [group] }
    let live := 0x600 + 8 * (core / 64)
    let s2 := killPlain (s1.setMreg live (s1.mreg live &&& ~~~BitVec.ofNat 64 (2 ^ (core % 64)))) v.gang 0x81 (dataErr 11 group 0) v.cell
    let done := (s.core core).vec.zipIdx.map fun e => (e.1.cell, if e.2 < i then e.1.count else 0)
    let s3 := orderHomeless <| evict (((s2.gangs.filter fun e => e.2.core == core && e.2.resident).map (·.1)).foldl (fun s g => retireLand s g done) s2) core
    exec (.coreRetire core i group) s = .next (quiesceFor (postReport s3 4 0 (partOfGang s v.gang) v.cell 0 0 0 0 0) (partOfGang s v.gang)) := by
  intro s1 live s2 done s3
  have hgo : ¬ ((s.core core).laneFails.isEmpty || (s.core core).laneFails.contains group || decide (9 ≤ group)) = true := by
    simp [hl, hne.symm, hg]
  rw [exec_coreRetire, execCoreRetire]
  simp only [hv, if_neg hgo]
  rfl

/-! ### What an error kills (spec 18 R379, R388; 01 R27) -/

/-- A gang that has not ended is killed, and its partition quiesces. -/
theorem errKill_live {gid : Nat} (hr : (s.gang gid).st ≠ .retired) (hk : (s.gang gid).st ≠ .killed) (cell : Nat) (val : Word) :
    errKill s gid cell val = quiesceFor (killPlain s gid 0x81 val cell) (partOfGang s gid) := by
  unfold errKill
  split
  · exact absurd ‹_› hr
  · exact absurd ‹_› hk
  · rfl

/-- A refused line of the context block of a saved gang. -/
theorem blockRefused_eq (gid pa : Nat) :
    let l := s.launch (s.gang gid).launch
    blockRefused s gid pa = quiesceFor (killPlain (refusalReport s l.part pa l.hdr.crec) gid 0x81 (dataErr 12 0 pa) noCell) l.part := by
  intro l
  show quiesceFor _ (partOfGang (refusalReport s l.part pa l.hdr.crec) gid) = _
  rw [refusalReport, partOfGang_postReport]
  rfl

/-- Settles O49: each error by the test of its step; a core's retirement in detail is the model's choice (log 54). -/
theorem hardwareErrors : Obligations.HardwareErrors := by
  unfold Obligations.HardwareErrors
  intro s die cls core i group cell off n lines row col v c
  refine ⟨?counted, ?parity, ?patrol, ?lane, ?retire, ?cellState, ?ls, ?hsp, ?tile, ?hbm, ?context, ?dieTable, ?kill⟩
  case counted =>
    intro hd hcls hne
    simp only [exec_correctableError, execCorrectableError, hd, hcls, hne, and_self, if_true, if_false]
  case parity =>
    intro hd
    simp only [exec_correctableError, execCorrectableError, hd, true_and, Nat.reduceLT, if_true]
  case patrol =>
    intro hd
    simp only [exec_patrolScrub, execPatrolScrub, hd, if_true]
  case lane =>
    intro hv hl hg
    obtain ⟨hcells, hgangs, -⟩ := postReport_keeps (countErr (s.modCore core fun k => { k with laneFails := [group] }) (dieOf core) 7 1)
      3 0 (partOfGang s v.gang) v.cell 0 0 0 0 0
    exact ⟨_, laneFailure_first hv hl hg, rfl, hcells, hgangs, by simp⟩
  case retire => exact fun g hv hl hne hg => coreRetire_second hv hl hne hg
  case cellState =>
    intro k hk hc
    have hgo : ([1, 2, 3, 4, 9, 10].contains k && (Tab.find s.cells cell).isSome) = true := by simpa [hc] using hk
    simp only [exec_uncorrectableError, execUncorrectableError, if_pos hgo, cell_of_find hc]
  case ls =>
    intro g hg
    simp only [exec_uncorrectableError, execUncorrectableError, hg]
  case hsp =>
    intro hive hh hc
    simp only [exec_uncorrectableError, execUncorrectableError, hc, cell_of_find hc, hh, Option.isSome_some, decide_true, Bool.and_self, if_true]
  case tile =>
    intro g t ho ht hr hcol
    simp only [exec_uncorrectableError, execUncorrectableError, ho, ht, hr, hcol, and_self, if_true]
  case hbm =>
    intro hoff t
    refine ⟨?line, fun hc => ?read⟩
    case line => simp only [exec_uncorrectableError, execUncorrectableError, if_pos hoff]; rfl
    case read =>
      have hgo : off < 2 ^ 39 ∧ (Tab.find s.cells cell).isSome = true := ⟨hoff, by simp [hc]⟩
      simp only [exec_uncorrectableError, execUncorrectableError, if_pos hgo, cell_of_find hc]; rfl
  case context =>
    intro g hg l
    have hgo : ((s.gang g).st == .saved) = true := by simp [hg]
    simp only [exec_uncorrectableError, execUncorrectableError, if_pos hgo, blockRefused_eq]
    rfl
  case dieTable =>
    intro gs hd parts
    simp only [exec_uncorrectableError, execUncorrectableError, if_pos hd]
    rfl
  case kill => exact fun gid val hr hk => errKill_live hr hk cell val

end Sys2Proof.Machine
end

section
/-! A vector access to a scratchpad on a die that is lost to its cell (spec 09 R219, R220; 18 R391). -/

open Sys2Proof Sys2Proof.Machine

namespace Sys2Proof.Machine

/-- A cell notes no access once its instruction has ended (spec 09 R220). -/
theorem after_access (t : State) (len : Nat) : (after t len).me.access = none := by
  show ((finishCell t t.cur (t.me.pc + BitVec.ofNat 64 len)).cell t.cur).access = none
  unfold finishCell State.cell Tab.getD State.modCell
  rw [Tab.find_adjust_self]
  cases Tab.find t.cells t.cur <;> rfl

/-- A machine whose cell 0, on die 0, belongs to a gang placed on core 256, the first of die 1; hive 16 of that die is in the gang's partition, and
segment 0 is the first 16 bytes of the hive's scratchpad. Die 1 is lost. The cell is ready, with one element of 8 bits. -/
def cutOffState : State :=
  { cells := [(0, { vl := 1, sew := 8 })]
    gangs := [(0, { launch := 0, group := 0, idx := 0, st := .running, core := 256, cells := [], lsBase := 0, hdr := { seg := [(BitVec.ofNat 64 (hspDva 16 0), 31)] } })]
    mgmt := [(0x100, BitVec.ofNat 64 (2 ^ 63)), (0x180, BitVec.ofNat 64 (2 ^ 16))]
    lost := [1] }

theorem cutOffState_vready : vready cutOffState = true := by decide

/-- The one element of VLD from address 0 lies in the scratchpad of the gang's own hive, with the right. -/
theorem cutOffState_own : segCheck cutOffState.myGang 0 1 rRead = .ok (hspDva 16 0) ∧ bit (hspDva 16 0) 56 = true
    ∧ aperture cutOffState cutOffState.me.gang .vload (hspDva 16 0) 1 = .key (hspKey 16 0) := by decide

/-- VLD does not complete: the gang is killed because die 1 is lost, and the cell, which the gang does not list, still notes the access. -/
theorem cutOffState_vld : ∃ t, exec (.vld 0 0 0 Pred.all .i8) cutOffState = .next t ∧ t.me.access ≠ none := by
  refine ⟨_, rfl, ?_⟩
  decide

/-- Refutes O30: it says that an access whose active elements all lie in own local store or hive scratchpad completes, and does not ask that the cell's
core is its gang's. In `cutOffState` the two are on different dies and the gang's is lost (18 R391): the element lies in own scratchpad with the right,
the access kills the gang, and the cell still notes it, where a cell whose instruction has completed notes none. -/
theorem not_vectorMemoryAccesses : ¬ Obligations.VectorMemoryAccesses := by
  unfold Obligations.VectorMemoryAccesses
  rintro ⟨haccess, -⟩
  obtain ⟨⟨stride, note, -, hcompletes, -⟩, -⟩ :=
    haccess cutOffState 0 0 0 0 0 0 none Pred.all .i8 cutOffState_vready (by decide) (by decide) (by decide) (by decide)
  obtain ⟨hseg, hbit, hkey⟩ := cutOffState_own
  obtain ⟨t, ht, hnoted⟩ := cutOffState_vld
  have hels : (List.range (vcount (begun cutOffState 8).me Ty.i8.width)).filter (selected (begun cutOffState 8) Pred.all) = [0] := by decide
  obtain ⟨s1, hs1⟩ := hcompletes fun i hi => by
    rw [hels, List.mem_singleton] at hi
    subst hi
    exact ⟨rfl, _, _, hseg, hbit, hkey⟩
  have hsaid := Host.Outcome.next.inj (ht.symm.trans hs1)
  exact hnoted (hsaid ▸ after_access ..)

end Sys2Proof.Machine
end

section
/-! The elements of a group and the bits of a mask, as digits of a number (spec 09 R201, R203, R204). -/

open Sys2Proof Sys2Proof.Machine

namespace Sys2Proof.Machine

/-! ### Numbers from digits -/

/-- The number with digits `e 0` to `e (n - 1)` in base `B`, the first lowest. -/
def packed (B n : Nat) (e : Nat → Nat) : Nat := (List.range n).foldr (fun i acc => acc * B + e i) 0

section
variable {B n : Nat} {e : Nat → Nat}

theorem foldr_digits (B : Nat) (e : Nat → Nat) (n a : Nat) : (List.range n).foldr (fun i acc => acc * B + e i) a = packed B n e + B ^ n * a := by
  induction n generalizing a with
  | zero => simp [packed]
  | succ n ih =>
    rw [packed, List.range_succ, List.foldr_append, List.foldr_append, List.foldr_cons, List.foldr_nil, List.foldr_cons, List.foldr_nil, ih, ih, pow_succ]
    ring

theorem packed_succ (B n : Nat) (e : Nat → Nat) : packed B (n + 1) e = packed B n e + B ^ n * e n := by
  rw [packed, List.range_succ, List.foldr_append, List.foldr_cons, List.foldr_nil, foldr_digits, Nat.zero_mul, Nat.zero_add]

theorem packed_lt (he : ∀ i, i < n → e i < B) : packed B n e < B ^ n := by
  induction n with
  | zero => simp [packed]
  | succ n ih =>
    have hlow := ih fun i hi => he i (by omega)
    calc packed B (n + 1) e
      _ = packed B n e + B ^ n * e n := packed_succ B n e
      _ < B ^ n * (e n + 1) := by rw [Nat.mul_succ]; omega
      _ ≤ B ^ (n + 1) := by rw [pow_succ]; exact Nat.mul_le_mul_left _ (he n (by omega))

/-- A digit below the others' end, whatever stands above it. -/
theorem digit_low (q : Nat) {i : Nat} (he : ∀ i, i < n → e i < B) (hi : i < n) : (q * B ^ n + packed B n e) / B ^ i % B = e i := by
  have hB : 0 < B := Nat.zero_lt_of_lt (he i hi)
  induction n generalizing q with
  | zero => omega
  | succ n ih =>
    have hassoc : q * B ^ (n + 1) + packed B (n + 1) e = (q * B + e n) * B ^ n + packed B n e := by rw [packed_succ, pow_succ]; ring
    rw [hassoc]
    rcases Nat.lt_succ_iff_lt_or_eq.mp hi with hlt | rfl
    · exact ih _ (fun i hi => he i (by omega)) hlt
    · have hlow : packed B i e < B ^ i := packed_lt fun j hj => he j (by omega)
      rw [Nat.add_comm, Nat.add_mul_div_right _ _ (Nat.pow_pos hB), Nat.div_eq_of_lt hlow, Nat.zero_add, Nat.mul_add_mod_self_right,
        Nat.mod_eq_of_lt (he i hi)]

/-- What stands above the digits. -/
theorem digit_high (q : Nat) {i : Nat} (he : ∀ i, i < n → e i < B) (hB : 0 < B) (hi : n ≤ i) : (q * B ^ n + packed B n e) / B ^ i = q / B ^ (i - n) := by
  rw [show B ^ i = B ^ n * B ^ (i - n) by rw [← pow_add]; congr 1; omega, ← Nat.div_div_eq_div_mul, Nat.add_comm,
    Nat.add_mul_div_right _ _ (Nat.pow_pos hB), Nat.div_eq_of_lt (packed_lt he), Nat.zero_add]

/-- The digits of a number make its low part. -/
theorem packed_of_digits (v : Nat) : packed B n (fun i => v / B ^ i % B) = v % B ^ n := by
  induction n with
  | zero => simp [packed, Nat.mod_one]
  | succ n ih => rw [packed_succ, ih, Nat.mod_pow_succ]

theorem packed_congr {e' : Nat → Nat} (h : ∀ i, i < n → e i = e' i) : packed B n e = packed B n e' := by
  induction n with
  | zero => rfl
  | succ n ih => rw [packed_succ, packed_succ, ih fun i hi => h i (by omega), h n (by omega)]

end

/-! ### Elements of a written group (spec 09 R201, R203, R204) -/

theorem elem_eq_digit (v w i : Nat) : elem v w i = v / (2 ^ w) ^ i % 2 ^ w := by rw [elem, pow_mul]

/-- The number that an element map makes: its flags apart, the old number with its lower elements replaced. -/
theorem mapElems_fst (old w n : Nat) (act : Nat → Bool) (f : Nat → Nat × Fl) : (mapElems old w n act f).1 =
    old / (2 ^ w) ^ n * (2 ^ w) ^ n + packed (2 ^ w) n fun i => (if act i then (f i).1 else elem old w i) % 2 ^ w := by
  have hfold (l : List Nat) : (l.foldr (fun i (acc : Nat × Fl) => (acc.1 * 2 ^ w + (if act i then f i else (elem old w i, Fl.none)).1 % 2 ^ w,
      Fl.or (if act i then f i else (elem old w i, Fl.none)).2 acc.2)) (0, Fl.none)).1
      = l.foldr (fun i acc => acc * 2 ^ w + (if act i then (f i).1 else elem old w i) % 2 ^ w) 0 := by
    induction l with
    | nil => rfl
    | cons i l ih => simp only [List.foldr_cons, ih]; cases act i <;> rfl
  rw [mapElems, pow_mul]
  exact congrArg _ (hfold _)

/-- An element below the count. -/
theorem elem_mapElems_low (old : Nat) {w n i : Nat} (act : Nat → Bool) (f : Nat → Nat × Fl) (hi : i < n) :
    elem (mapElems old w n act f).1 w i = if act i then (f i).1 % 2 ^ w else elem old w i := by
  rw [elem_eq_digit, mapElems_fst, digit_low _ (fun i _ => Nat.mod_lt _ (Nat.two_pow_pos w)) hi]
  split
  · rfl
  · exact Nat.mod_mod ..

/-- An element from the count on. -/
theorem elem_mapElems_high (old : Nat) {w n i : Nat} (act : Nat → Bool) (f : Nat → Nat × Fl) (hi : n ≤ i) :
    elem (mapElems old w n act f).1 w i = elem old w i := by
  have hpow : (2 ^ w) ^ i = (2 ^ w) ^ n * (2 ^ w) ^ (i - n) := by rw [← pow_add, Nat.add_sub_cancel' hi]
  rw [elem_eq_digit, elem_eq_digit, mapElems_fst, digit_high _ (fun i _ => Nat.mod_lt _ (Nat.two_pow_pos w)) (Nat.two_pow_pos w) hi, Nat.div_div_eq_div_mul,
    ← hpow]

/-- A flag that the active elements raise, for a flag that `Fl.or` takes from either side. -/
theorem mapElems_flag {flag : Fl → Bool} (hor : ∀ a b, flag (Fl.or a b) = (flag a || flag b)) (hnone : flag .none = false) (old w n : Nat)
    (act : Nat → Bool) (f : Nat → Nat × Fl) : flag (mapElems old w n act f).2 = (List.range n).any fun i => act i && flag (f i).2 := by
  rw [mapElems]
  dsimp only
  induction List.range n with
  | nil => exact hnone
  | cons i l ih =>
    rw [List.foldr_cons, List.any_cons, ← ih, hor]
    cases act i
    · rw [if_neg Bool.false_ne_true, hnone]; rfl
    · rfl

/-- A bit of a mask after a mask map. -/
theorem bit_mapMask (m n : Nat) (act b : Nat → Bool) (i : Nat) : bit (mapMask m n act b) i = if i < n ∧ act i = true then b i else bit m i := by
  have hlt (c : Bool) : b2n c < 2 := by cases c <;> decide
  have hone (c : Bool) : (b2n c == 1) = c := by cases c <;> rfl
  have hmap : mapMask m n act b = m / 2 ^ n * 2 ^ n + packed 2 n fun i => b2n (if act i then b i else bit m i) := rfl
  rw [hmap, bit]
  rcases Nat.lt_or_ge i n with hi | hi
  · rw [digit_low _ (fun i _ => hlt _) hi, hone]
    simp only [hi, true_and]
  · have hpow : 2 ^ i = 2 ^ n * 2 ^ (i - n) := by rw [← pow_add, Nat.add_sub_cancel' hi]
    rw [digit_high _ (fun i _ => hlt _) Nat.zero_lt_two hi, Nat.div_div_eq_div_mul, ← hpow, if_neg (by omega), bit]

/-! ### Groups -/

/-- A register after a register is written. -/
theorem rdV_setV {s : State} {c : Cell} (hc : Tab.find s.cells s.cur = some c) (r q : Reg) (v : VReg) :
    rdV (setV s r v) q = if q = r then v else rdV s q := by
  have hme : (setV s r v).me = noEarly (.v r) { c with v := c.v.set r.toNat v r.isLt } := modMe_me hc _
  rw [rdV, rdV, hme, me_of_find hc]
  show (c.v.set r.toNat v r.isLt)[q.toNat] = _
  rw [Vector.getElem_set]
  simp only [BitVec.toNat_inj, eq_comm]

/-- What the writes of the first `n` registers of a group leave: a resident cell with no early read open, with those registers written. -/
structure GroupWritten (s : State) (d : Reg) (val : Nat → VReg) (n : Nat) (t : State) : Prop where
  cells : t = { s with cells := t.cells }
  find : ∃ c, Tab.find t.cells t.cur = some c
  early : t.me.early = []
  others : ∀ c, c ≠ s.cur → t.cell c = s.cell c
  inside : ∀ i, i < n → rdV t (BitVec.ofNat 5 (d.toNat + i)) = val i
  outside : ∀ q : Reg, q.toNat < d.toNat ∨ d.toNat + n ≤ q.toNat → rdV t q = rdV s q

theorem foldN_succ {α : Type} (n : Nat) (f : α → Nat → α) (a : α) : foldN (n + 1) f a = f (foldN n f a) n := by
  simp [foldN, List.range_succ]

theorem groupWritten {s : State} {c : Cell} (hc : Tab.find s.cells s.cur = some c) (he : c.early = []) (d : Reg) (val : Nat → VReg) {n : Nat}
    (hn : d.toNat + n ≤ 32) : GroupWritten s d val n (foldN n (fun s i => setV s (BitVec.ofNat 5 (d.toNat + i)) (val i)) s) := by
  induction n with
  | zero => exact ⟨rfl, ⟨c, hc⟩, by rw [show foldN 0 _ s = s from rfl, me_of_find hc, he], fun _ _ => rfl, fun _ h => absurd h (by omega), fun _ _ => rfl⟩
  | succ n ih =>
    obtain ⟨hcells, ⟨c, hc⟩, hearly, hothers, hinside, houtside⟩ := ih (by omega)
    rw [foldN_succ]
    generalize foldN n (fun s i => setV s (BitVec.ofNat 5 (d.toNat + i)) (val i)) s = t at *
    have hcur : t.cur = s.cur := by rw [hcells]
    have hreg {i : Nat} (hi : d.toNat + i < 32) : (BitVec.ofNat 5 (d.toNat + i)).toNat = d.toNat + i := Nat.mod_eq_of_lt hi
    have hme : (setV t (BitVec.ofNat 5 (d.toNat + n)) (val n)).me = noEarly _ _ := modMe_me hc _
    refine ⟨by rw [hcells]; rfl, ?find, ?early, fun k hk => (modMe_other _ _ (by rwa [hcur])).trans (hothers k hk), fun i hi => ?inside, fun q hq => ?outside⟩
    case find => exact ⟨_, by show Tab.find (Tab.adjust t.cells t.cur _) t.cur = _; rw [Tab.find_adjust_self, hc]; rfl⟩
    case early => rw [hme]; show (c.early).filter _ = []; rw [← me_of_find hc, hearly]; rfl
    case inside =>
      rw [rdV_setV hc]
      rcases Nat.lt_succ_iff_lt_or_eq.mp hi with hlt | rfl
      · rw [if_neg, hinside i hlt]
        intro h
        have := congrArg BitVec.toNat h
        rw [hreg (by omega), hreg (by omega)] at this
        omega
      · rw [if_pos rfl]
    case outside =>
      rw [rdV_setV hc, if_neg, houtside q (by omega)]
      rintro rfl
      rw [hreg (by omega)] at hq
      omega

/-- With no early read open a group is the number whose digits are its registers. -/
theorem getGroup_eq {s : State} (he : s.me.early = []) (g : Nat) (d : Reg) :
    getGroup s g d = packed (2 ^ 1024) (2 ^ g) fun i => (rdV s (BitVec.ofNat 5 (d.toNat + i))).toNat := by
  have hget (r : Reg) : getV s r = rdV s r := by rw [getV, hazard, he]; exact BitVec.ofNat_toNat ..
  rw [getGroup, groupRegs, List.foldr_map, packed]
  exact List.foldr_ext _ _ _ fun i _ acc => by rw [hget, Nat.mul_comm, Nat.add_comm]

/-- What a register group reads after a number is written to it: the number's low part. -/
theorem GroupWritten.getGroup {s t : State} {d : Reg} {g v : Nat} (h : GroupWritten s d (fun i => BitVec.ofNat 1024 (v / 2 ^ (1024 * i))) (2 ^ g) t) :
    getGroup t g d = v % (2 ^ 1024) ^ 2 ^ g := by
  rw [getGroup_eq h.early, ← packed_of_digits]
  refine packed_congr fun i hi => ?_
  rw [h.inside i hi, BitVec.toNat_ofNat, pow_mul]

/-- An element of the low part of a number that holds the whole of it. -/
theorem elem_mod {v w i m : Nat} (h : w * (i + 1) ≤ m) : elem (v % 2 ^ m) w i = elem v w i := by
  have hsplit : 2 ^ m = 2 ^ (w * i) * 2 ^ (m - w * i) := by rw [← pow_add]; congr 1; rw [Nat.mul_succ] at h; omega
  rw [elem, elem, hsplit, Nat.mod_mul_right_div_self]
  exact Nat.mod_mod_of_dvd _ (pow_dvd_pow 2 (by rw [Nat.mul_succ] at h; omega))

/-- A group that a multiple of its length names ends within the register file. -/
theorem group_fits {d : Reg} {g : BitVec 2} (hd : d.toNat % 2 ^ g.toNat = 0) : d.toNat + 2 ^ g.toNat ≤ 32 := by
  have hg : 2 ^ g.toNat ∣ 32 := pow_dvd_pow 2 (n := 5) (by omega)
  obtain ⟨k, hk⟩ := hg
  obtain ⟨j, hj⟩ := Nat.dvd_of_mod_eq_zero hd
  have hlt : 2 ^ g.toNat * j < 2 ^ g.toNat * k := by rw [← hj, ← hk]; exact d.isLt
  have hjk : j + 1 ≤ k := Nat.lt_of_mul_lt_mul_left hlt
  calc d.toNat + 2 ^ g.toNat
    _ = 2 ^ g.toNat * (j + 1) := by rw [hj, Nat.mul_succ]
    _ ≤ 32 := hk ▸ Nat.mul_le_mul_left _ hjk

/-- Settles O29: a group holds the low part of the number that an element map made of it, and the map's elements are its digits. -/
theorem vectorElements : Obligations.VectorElements := by
  unfold Obligations.VectorElements
  intro s g d w n act f h hd hw hn old r t
  obtain ⟨c, hc⟩ := begun_find h 8
  have hearly : c.early = [] := by
    obtain ⟨c', -, hm, -, -, -, -, -, he, -⟩ := calm_cell h
    rw [← me_of_find hc, begun_me h, hm, he]
  have hfits : d.toNat + 2 ^ g.toNat ≤ 32 := group_fits hd
  have hwritten : GroupWritten (begun s 8) d (fun i => BitVec.ofNat 1024 (r.1 / 2 ^ (1024 * i))) (2 ^ g.toNat) t := groupWritten hc hearly d _ hfits
  have helem {i : Nat} (hi : i < 2 ^ g.toNat * 1024 / w) : elem (getGroup t g.toNat d) w i = elem r.1 w i := by
    rw [hwritten.getGroup, ← pow_mul]
    refine elem_mod ?_
    have := Nat.mul_le_of_le_div _ _ _ (Nat.succ_le_of_lt hi)
    rw [Nat.mul_comm w, Nat.mul_comm 1024]
    exact this
  refine ⟨fun i hi => ?low, fun i hi hlt => ?high, fun q hq => ?outside, ?nv, ?sat, hwritten.cells, fun k hk => ?others, fun m b i => bit_mapMask ..⟩
  case low => exact (helem (by omega)).trans (elem_mapElems_low old act f hi)
  case high => exact (helem hlt).trans (elem_mapElems_high old act f hi)
  case outside => exact (hwritten.outside q hq).trans (by rw [rdV, rdV, begun_me h])
  case nv => exact mapElems_flag (flag := Fl.nv) (fun _ _ => rfl) rfl old w n act f
  case sat => exact mapElems_flag (flag := Fl.sat) (fun _ _ => rfl) rfl old w n act f
  case others => exact (hwritten.others k hk).trans (modMe_other _ _ hk)

end Sys2Proof.Machine
end

section
/-! VSETVL, VSETVLW and VGRP, for a calm cell with nothing on its way (spec 09 R202, R207, R208). -/

open Sys2Proof Sys2Proof.Machine

namespace Sys2Proof.Machine

variable {s s1 s2 t : State}

/-! ### A signal word that is read (spec 09 R207; 14 R316) -/

/-- What a read of a signal word leaves of its cell. -/
structure SignalView where
  pc : Word
  x : Vector Word 32
  v : Vector VReg 32
  csr : Csrs
  gang : Nat
  early : List (Dst × Nat × Nat)
  latch : List (Nat × Word)
  pushed : Tab Nat
  since : Option Nat

def signalView (c : Cell) : SignalView :=
  { pc := c.pc, x := c.x, v := c.v, csr := c.csr, gang := c.gang, early := c.early, latch := c.latch, pushed := c.pushed, since := c.since }

theorem unseeing_signalView : Unseeing signalView := fun _ _ _ _ _ _ _ _ => rfl

theorem keeps_seen {α : Type} {g : Cell → α} (hg : ∀ c, g { c with faultDva := none, refaults := 0 } = g c) (h : seen s t) : Keeps g s t := by
  obtain ⟨hives, dies, heat, freeCtr, rfl | rfl⟩ := h
  · exact ⟨fun _ => rfl⟩
  · exact ⟨(keeps_modCell hg s s.cur).find⟩

@[simp] theorem noteRead_gangs (c n key size : Nat) : (s.noteRead c n key size).gangs = s.gangs := by
  unfold State.noteRead; dsimp only; split <;> rfl

@[simp] theorem acquire_gangs (c key n : Nat) (sc : Scope) : (s.acquire c key n sc).gangs = s.gangs := noteRead_gangs ..

/-- A signal word at a home key gives the number that stands there, to a cell with nothing on its way. -/
theorem signalRead_key {ea : Word} {k : Nat} (hq : quiet s = true) (hr : resolve s .load ea 8 rRead 8 = .ok (s1, .key k)) (sc : Scope) :
    ∃ s2, signalRead s ea sc = .ok (s2, s1.readNat k 8, k) ∧ Keeps signalView s s2 ∧ s2.cur = s.cur ∧ s2.gangs = s.gangs ∧ s2.mem = s.mem := by
  have hs := resolve_seen hr
  have hcur : s1.cur = s.cur := by obtain ⟨_, _, _, _, rfl | rfl⟩ := hs <;> rfl
  have hmem : s1.mem = s.mem := by obtain ⟨_, _, _, _, rfl | rfl⟩ := hs <;> rfl
  let u := s1.modMe fun c => { c with reply := none, stage := 0 }
  have hu : Keeps signalView s u := (keeps_seen (fun _ => rfl) hs).trans (keeps_modCell (by exact fun _ => rfl) s1 s1.cur)
  have hquiet : (u.posted.any fun p => p.cell == u.cur && p.gang == u.me.gang) = false := by
    have hgang : u.me.gang = s.me.gang := congrArg SignalView.gang (hu.me (t := u) hcur)
    have hposted : u.posted = s.posted := by obtain ⟨_, _, _, _, h | h⟩ := hs <;> subst h <;> rfl
    rw [hgang, hposted, show u.cur = s.cur from hcur]
    exact quiet_none hq
  refine ⟨u.acquire s1.cur k 8 sc, ?_, hu.trans (keeps_acquire unseeing_signalView ..), (acquire_cur ..).trans hcur, ?_, (acquire_mem ..).trans hmem⟩
  · unfold signalRead
    rw [hr]
    show Except.ok ((drainOwn u k 8).acquire u.cur k 8 sc, ((drainOwn u k 8).acquire u.cur k 8 sc).readNat k 8, k) = _
    rw [drainOwn_none hquiet, readNat_congr (t := u.acquire u.cur k 8 sc) (s := s1) (acquire_mem ..)]
    rfl
  · rw [acquire_gangs]; exact (seen_other hs).1

/-! ### A wait on a signal word -/

/-- A cell that waits on a signal word lands there where its gang lands (spec 18 R384). -/
theorem landParked_signal {k key : Nat} {vset : Bool} {c : Cell} (hc : Tab.find s.cells k = some c) (hr : c.run = .parked (.signal key vset))
    (hl : c.latch = []) (hp : c.pushed = []) :
    (landParked s k).cur = s.cur ∧ Tab.find (landParked s k).cells k = some { c.clearInstr with run := .landed, resv := none } := by
  unfold landParked
  simp only [cell_of_find hc, hr, Wait.landsNow, Bool.true_or, if_true, unlatch_nil hc hl hp]
  refine ⟨rfl, ?_⟩
  show Tab.find (Tab.adjust (Tab.adjust s.cells k _) k _) k = _
  rw [Tab.find_adjust_self, Tab.find_adjust_self, hc]
  rfl

/-- A cell that parks on a signal word, or lands there, keeps its pc and its registers. -/
theorem parkCell_signal {k : Nat} (key : Nat) (vset : Bool) {c : Cell} (hc : Tab.find s.cells k = some c) (hl : c.latch = []) (hp : c.pushed = []) :
    ∃ r v, parkCell s k (.signal key vset) = r ∧ r.cur = s.cur ∧ Tab.find r.cells k = some v ∧ v.pc = c.pc ∧ v.x = c.x
      ∧ ((s.gang c.gang).st ≠ .landing → v.run = .parked (.signal key vset)) := by
  let p : Cell := { c with run := .parked (.signal key vset), since := some (c.since.getD s.qtime) }
  let s1 := s.modCell k fun v => { v with run := .parked (.signal key vset), since := some (v.since.getD s.qtime) }
  have hfind : Tab.find s1.cells k = some p := by
    show Tab.find (Tab.adjust s.cells k _) k = _
    rw [Tab.find_adjust_self, hc]; rfl
  have hpark : parkCell s k (.signal key vset) = if (s.gang c.gang).st == .landing then landParked s1 k else s1 := by
    have hgang : s1.gangOf k = s.gang c.gang := by
      show s1.gang (s1.cell k).gang = _
      rw [cell_of_find hfind]; rfl
    rw [← hgang]; rfl
  rw [hpark]
  split
  case isTrue hland =>
    obtain ⟨hcur, hlanded⟩ := landParked_signal hfind rfl hl hp
    exact ⟨_, _, rfl, hcur, hlanded, rfl, rfl, fun h => absurd (eq_of_beq hland) h⟩
  case isFalse => exact ⟨_, _, rfl, rfl, hfind, rfl, rfl, fun _ => rfl⟩

/-- What a cell that parks on a signal word with its limit set keeps. -/
theorem park_signal {c : Cell} (hc : Tab.find s.cells s.cur = some c) (hl : c.latch = []) (hp : c.pushed = []) (limit : Option Nat) (tval : Word) (key : Nat) :
    let r := parkCell ((setLimit s limit tval).modMe Cell.tick) s.cur (.signal key true)
    r.me.pc = c.pc ∧ r.me.x = c.x ∧ r.mem = s.mem ∧ ((s.gang c.gang).st ≠ .landing → r.me.run = .parked (.signal key true)) := by
  intro r
  have hfind : Tab.find ((setLimit s limit tval).modMe Cell.tick).cells s.cur = some (Cell.tick { c with limit := limit.map fun n => (n, tval) }) := by
    show Tab.find (Tab.adjust (Tab.adjust s.cells s.cur _) s.cur _) s.cur = _
    rw [Tab.find_adjust_self, Tab.find_adjust_self, hc]
    rfl
  obtain ⟨t, v, ht, hcur, hv, hpc, hx, hrun⟩ := parkCell_signal key true hfind hl hp
  have hme : r.me = v := by
    show (parkCell _ _ _).me = v
    rw [ht]
    exact me_of_find (by rw [hcur]; exact hv)
  rw [hme]
  exact ⟨hpc, hx, parkCell_mem .., hrun⟩

/-! ### The registers after the grouping changes (spec 09 R208; log 9) -/

/-- A bit of a packed register. -/
theorem getLsbD_packed {i : Nat} (hi : i < 1024) (b : Nat → Bool) : (BitVec.ofNat 1024 (packed 2 1024 fun i => b2n (b i))).getLsbD i = b i := by
  have hlt (c : Bool) : b2n c < 2 := by cases c <;> decide
  have hdigit := digit_low (B := 2) (n := 1024) (e := fun i => b2n (b i)) 0 (fun i _ => hlt _) hi
  rw [Nat.zero_mul, Nat.zero_add] at hdigit
  rw [BitVec.getLsbD_ofNat, Nat.testBit_eq_decide_div_mod_eq, hdigit]
  cases b i <;> simp [hi, b2n]

/-- Bit `i` of register `r` after a change of grouping: zero, or a bit that some register held. -/
def scrambledBit (draw : Nat) (v : Vector VReg 32) (r i : Nat) : Bool :=
  match Config.vgrpBit draw r i with
  | 0 => false
  | n + 1 => ((v.toList[n % 32768 / 1024]?).getD 0).getLsbD (n % 32768 % 1024)

theorem getLsbD_scramble (draw : Nat) (v : Vector VReg 32) (r : Reg) {i : Nat} (hi : i < 1024) :
    ((scramble draw v)[r.toNat]'r.isLt).getLsbD i = scrambledBit draw v r.toNat i := by
  rw [scramble, Vector.getElem_ofFn]
  exact getLsbD_packed hi (scrambledBit draw v r.toNat)

/-- A bit that a change of grouping sets was set in some register. -/
theorem scrambledBit_held {draw r i : Nat} {v : Vector VReg 32} (h : scrambledBit draw v r i = true) :
    ∃ (q : Reg) (j : Nat), (v[q.toNat]'q.isLt).getLsbD j = true := by
  unfold scrambledBit at h
  split at h
  · cases h
  · rename_i n _
    have hq : n % 32768 / 1024 < 32 := by omega
    rw [List.getElem?_eq_getElem (by simpa using hq), Option.getD_some] at h
    refine ⟨BitVec.ofNat 5 (n % 32768 / 1024), n % 32768 % 1024, ?_⟩
    have hreg : (BitVec.ofNat 5 (n % 32768 / 1024)).toNat = n % 32768 / 1024 := Nat.mod_eq_of_lt hq
    simpa only [hreg, Vector.getElem_toList] using h

/-! ### The three instructions (spec 09 R207, R208) -/

/-- Setting the length changes nothing that a signal read keeps. -/
theorem setLen_me (t : State) (ty : Ty) (n : Nat) : signalView (setLen t ty n).me = signalView t.me :=
  me_modMe (g := signalView) (by exact fun _ => rfl) t

/-- A limit is not over at the first turn of a wait (spec 09 R207). -/
theorem limitOver_first (h : s.me.since = none) (us : Nat) : limitOver s (limitUs us) = false := by
  unfold limitOver limitUs
  split
  · rename_i n hn
    rw [h, Option.getD_none, Nat.sub_self, decide_eq_false_iff_not]
    split at hn
    · cases hn
    · cases hn; omega
  · rfl

section
variable (h : calm s = true) (d a b c : Reg) (limit : BitVec 15) (full : Bool) (ty : Ty)
include h

theorem begun_quiet (hq : quiet s = true) (len : Nat) : quiet (begun s len) = true := by
  simp only [quiet, busy, begun_cur, begun_me h] at hq ⊢; exact hq

/-- What a calm cell shows at the start of its turn. -/
theorem signalView_begun (len : Nat) : signalView (begun s len).me = signalView s.me := by rw [begun_me h]; rfl

/-- A calm cell has no early read open, no queue, nothing popped and nothing reserved. -/
theorem signalView_calm : (signalView s.me).early = [] ∧ (signalView s.me).csr.hoqen = 0 ∧ (signalView s.me).latch = [] ∧ (signalView s.me).pushed = [] := by
  obtain ⟨c, -, hm, -, -, -, -, hho, he, hl, hp, -⟩ := calm_cell h
  rw [hm]
  exact ⟨he, hho, hl, hp⟩

/-- A length is set and given in x(d). -/
theorem setX_setLen (n : Nat) (v : Word) : setX (setLen (begun s 8) ty n) d v = wrX (setLen (begun s 8) ty n) d v := by
  have hview := (setLen_me (begun s 8) ty n).trans (signalView_begun h 8)
  obtain ⟨he, hho, -⟩ := signalView_calm h
  exact setX_quiet ((congrArg SignalView.early hview).trans he) (congrArg (fun w => w.csr.hoqen) hview |>.trans hho) d v

theorem vsetvl_calm :
    let n := min (rdX s a).toNat (vlmaxOf s.me ty.width)
    exec (.vsetvl d a ty) s = .next (after (wrX (setLen (begun s 8) ty n) d (BitVec.ofNat 64 n)) 8) := by
  rw [exec_vsetvl, execVsetvl, issue_calm h 8 _ _ _ _ rfl]
  simp only [getX_calm h, vlmaxOf, begun_g h, setX_setLen h, holding_ok, commit_ok]

theorem vsetvlw_zero (ha : rdX s a = 0) :
    exec (.vsetvlw d a b c limit full ty) s = .next (after (wrX (setLen (begun s 8) ty 0) d 0) 8) := by
  rw [exec_vsetvlw, execVsetvlw, issue_calm h 8 _ _ _ _ rfl]
  simp only [getX_calm h, if_pos ha, setX_setLen h, holding_ok, commit_ok]

/-- VSETVLW where its word is at a home key: it takes the elements that are there, or parks on the word. -/
theorem vsetvlw_reads (hq : quiet s = true) (hsince : s.me.since = none) (ha : rdX s a ≠ 0) {k : Nat}
    (hr : resolve (begun s 8) .load (rdX s b) 8 rRead 8 = .ok (s1, .key k)) :
    let want := min (rdX s a).toNat (vlmaxOf s.me ty.width)
    let avail : Int := (BitVec.ofNat 64 (s1.readNat k 8)).toInt - (rdX s c).toInt
    ∃ s2, signalView s2.me = signalView s.me ∧ s2.cur = s.cur ∧ (∃ v, Tab.find s2.cells s2.cur = some v) ∧ s2.gangs = s.gangs ∧ s2.mem = s.mem
      ∧ exec (.vsetvlw d a b c limit full ty) s = .next (if (if full then (want : Int) ≤ avail else 0 < avail)
          then after (lateX (setLen s2 ty (min want avail.toNat)) d (BitVec.ofNat 64 (min want avail.toNat))) 8
          else parkCell ((setLimit s2 (limitUs limit.toNat) (rdX s b)).modMe Cell.tick) s2.cur (.signal k true)) := by
  intro want avail
  obtain ⟨s2, hread, hkeeps, hcur, hgangs, hmem⟩ := signalRead_key (begun_quiet h hq 8) hr .pkg
  have hview : signalView s2.me = signalView s.me := (hkeeps.me hcur).trans (signalView_begun h 8)
  obtain ⟨he, hho, -, -⟩ := signalView_calm h
  have he2 : s2.me.early = [] := (congrArg SignalView.early hview).trans he
  have hho2 : s2.me.csr.hoqen = 0 := (congrArg (fun w => w.csr.hoqen) hview).trans hho
  have hx2 : s2.me.x = s.me.x := congrArg SignalView.x hview
  have hsince2 : s2.me.since = none := (congrArg SignalView.since hview).trans hsince
  have hfind : ∃ v, Tab.find s2.cells s2.cur = some v := by
    obtain ⟨v, hv⟩ := begun_find h 8
    have := hkeeps.isSome (begun s 8).cur
    rw [hv, ← hcur] at this
    exact Option.isSome_iff_exists.mp this
  have hword : signedOf 64 (s1.readNat k 8) = (BitVec.ofNat 64 (s1.readNat k 8)).toInt := by
    rw [← signedOf_toNat, BitVec.toNat_ofNat, Nat.mod_eq_of_lt (readNat_lt s1 k 8)]
  refine ⟨s2, hview, hcur, hfind, hgangs, hmem, ?_⟩
  rw [exec_vsetvlw, execVsetvlw, issue_calm h 8 _ _ _ _ rfl]
  simp only [getX_calm h, if_neg ha, hread, op_bind, hword, getX_quiet he2 hho2 hx2, limitOver_first hsince2, Bool.false_eq_true, if_false, ge_iff_le,
    gt_iff_lt, vlmaxOf, begun_g h]
  have hlen : (BitVec.ofNat 64 (min want avail.toNat)).toNat = min want avail.toNat := Nat.mod_eq_of_lt (by omega)
  have hhoLen : (setLen s2 ty (min want avail.toNat)).me.csr.hoqen = 0 := (congrArg (fun w => w.csr.hoqen) (setLen_me s2 ty _)).trans hho2
  have hhoLimit : (setLimit s2 (limitUs limit.toNat) (rdX s b)).me.csr.hoqen = 0 :=
    (me_modMe (g := fun c => c.csr.hoqen) (by exact fun _ => rfl) s2).trans hho2
  refine congrArg Host.Outcome.next ((apply_ite (fun r => commit 8 (Res.holding [.x d] (Op.res r))) _ _ _).trans (if_congr Iff.rfl ?given ?parks))
  case given => exact congrArg (after · 8) (defer_word hlen hhoLen d)
  case parks => exact congrArg (commit 8) (holding_park [.x d] (.signal k true) (queuesOf_nil hhoLimit _))

/-- VGRP waits for the cell's vector instructions; then vl is 0, and a new grouping leaves the bits of the registers free. -/
theorem vgrp_calm (g : BitVec 2) : exec (.vgrp g) s = .next (if vecBusy s s.cur then waiting (begun s 8) .vector
    else after ((begun s 8).modMe fun v => { v with vl := 0, g := g.toNat, v := if g.toNat = s.me.g then v.v else scramble s.freeCtr v.v }) 8) := by
  have hbusy : vecBusy (begun s 8) (begun s 8).cur = vecBusy s s.cur := rfl
  rw [exec_vgrp, execVgrp, issue_calm h 8 _ _ _ _ rfl, holding_nil, hbusy, begun_g h]
  refine congrArg Host.Outcome.next ((apply_ite (commit 8) _ _ _).trans (if_congr Iff.rfl rfl ?_))
  split
  case isTrue hg => exact congrArg (after · 8) (modMe_congr (by rw [begun_me h, hg]))
  case isFalse => rfl

end

/-- Settles O31: VSETVL as its length, VSETVLW by the word that it reads, and VGRP by the vector instructions under way. -/
theorem vectorConfiguration : Obligations.VectorConfiguration := by
  unfold Obligations.VectorConfiguration
  intro s s1 d a b c limit full ty g k h hq hsince top len want w avail
  refine ⟨vsetvl_calm h d a ty, fun ha => vsetvlw_zero h d a b c limit full ty ha, fun ha hr => ?reads, fun hbusy => ?busy, fun hidle => ?idle⟩
  case reads =>
    obtain ⟨s2, hview, hcur, ⟨v, hv⟩, hgangs, hmem, hx⟩ := vsetvlw_reads h d a b c limit full ty hq hsince ha hr
    have hme : s2.me = v := me_of_find hv
    rw [hme] at hview
    refine ⟨fun hgo => ⟨s2, hx.trans (congrArg Host.Outcome.next (if_pos hgo)), hmem, ?_, ?_⟩, fun hwait => ?_⟩
    · rw [hme]; exact congrArg SignalView.x hview
    · rw [hme]; exact congrArg SignalView.v hview
    · obtain ⟨-, -, hl, hp⟩ := signalView_calm h
      obtain ⟨hpc, hxs, hmems, hrun⟩ := park_signal hv ((congrArg SignalView.latch hview).trans hl) ((congrArg SignalView.pushed hview).trans hp)
        (limitUs limit.toNat) (rdX s b) k
      refine ⟨_, hx.trans (congrArg Host.Outcome.next (if_neg hwait)), hpc.trans (congrArg SignalView.pc hview), hxs.trans (congrArg SignalView.x hview),
        hmems.trans hmem, fun hst => hrun ?_⟩
      rw [show v.gang = s.me.gang from congrArg SignalView.gang hview, State.gang, hgangs]
      exact hst
  case busy => rw [vgrp_calm h, if_pos hbusy]
  case idle =>
    obtain ⟨v, hv⟩ := begun_find h 8
    have hv8 : v = { s.me with ilen := 8 } := by rw [← me_of_find hv, begun_me h]
    refine ⟨_, (vgrp_calm h g).trans (congrArg Host.Outcome.next (if_neg (by rw [hidle]; exact Bool.false_ne_true))), ?_⟩
    simp only [rdV, modMe_me hv, hv8]
    refine ⟨trivial, trivial, trivial, trivial, trivial, rfl, fun hg => if_pos hg, fun r i hi hbit => ?_⟩
    split at hbit
    case isTrue => exact ⟨r, i, hbit⟩
    case isFalse =>
      rw [getLsbD_scramble _ _ _ hi] at hbit
      exact scrambledBit_held hbit

end Sys2Proof.Machine
end

section
/-! The steps of a tile copy in its core's engine (spec 10 R237, R239, R240, R243, R245, R247; 13 R291, R298). -/

open Sys2Proof Sys2Proof.Machine

namespace Sys2Proof.Machine

variable {s s1 t : State} {core i : Nat} {c c1 : Copy}

/-! ### COPY_START (spec 10 R245) -/

/-- The copy is the first one queued of its core's engine, and fewer than eight run. -/
structure Startable (s : State) (core i : Nat) (c : Copy) : Prop where
  here : (s.core core).copies[i]? = some c
  queued : c.st = 0
  first : ((s.core core).copies.take i).all (fun x => x.st != 0) = true
  room : ((s.core core).copies.filter fun x => x.runs s (s.core core)).length < 8

/-- The copy as it begins to read its rows. -/
def Copy.started (s : State) (c : Copy) : Copy := ({ c with st := 1 } : Copy).ready s

/-- What the walks of the rows read at a start leave behind: those of a copy to the tensor side read the tile side, which is not walked. -/
def notedStart (s : State) (c c1 : Copy) (e : Option CopyStop) : State := if c.out then s else noteRows s c1 0 c1.data.length e

/-- A startable copy passes the tests of its step. -/
theorem Startable.passes (h : Startable s core i c) : (c.st != 0 || ((s.core core).copies.take i).any (fun x => x.st == 0)
    || decide (((s.core core).copies.filter fun x => x.runs s (s.core core)).length ≥ 8)) = false := by
  have hfirst : ((s.core core).copies.take i).any (fun x => x.st == 0) = false := by
    rw [List.any_eq_not_all_not]
    exact congrArg (! ·) h.first
  rw [hfirst, h.queued, decide_eq_false (Nat.not_le.mpr h.room)]
  rfl

/-- A copy that ORD or a fence holds back starts without reading. -/
theorem execCopyStart_held (h : Startable s core i c) (hb : heldBack s c = true) : execCopyStart core i s = .next (setCopy s core { c with st := 1 }) := by
  unfold execCopyStart
  simp only [h.here, h.passes, hb, Bool.false_eq_true, if_true, if_false]

/-- A copy that meets a page which is not present waits for it. -/
theorem execCopyStart_waits (h : Startable s core i c) (hb : heldBack s c = false) {kind : Kind} {dva flags : Nat} {cow : Option Nat}
    (hf : fetchRows s (c.started s) (List.range c.td.rows) = (c1, some (.wait kind dva flags cow))) :
    execCopyStart core i s = .next (parkCopy { notedStart s c c1 (some (.wait kind dva flags cow)) with
      freeCtr := (notedStart s c c1 (some (.wait kind dva flags cow))).freeCtr + 1 } core c1 kind dva flags cow) := by
  unfold Copy.started at hf
  unfold execCopyStart
  simp only [h.here, h.passes, hb, hf, Bool.false_eq_true, if_false]
  rfl

/-- Otherwise the copy runs with the rows that it has read. -/
theorem execCopyStart_reads (h : Startable s core i c) (hb : heldBack s c = false) {e : Option CopyStop}
    (hf : fetchRows s (c.started s) (List.range c.td.rows) = (c1, e)) (hw : ∀ kind dva flags cow, e ≠ some (.wait kind dva flags cow)) :
    execCopyStart core i s = .next { setCopy (notedStart s c c1 e) core c1 with freeCtr := (notedStart s c c1 e).freeCtr + 1 } := by
  unfold Copy.started at hf
  unfold execCopyStart
  simp only [h.here, h.passes, hb, hf, Bool.false_eq_true, if_false]
  match e, hw with
  | none, _ => rfl
  | some (.fail _), _ => rfl
  | some (.wait kind dva flags cow), hw => exact absurd rfl (hw kind dva flags cow)

/-! ### COPY_COMPLETE (spec 10 R237, R239) -/

/-- The copy runs, and nothing of its cell that it follows is still on its way. -/
structure Movable (s : State) (core i : Nat) (c : Copy) : Prop where
  here : (s.core core).copies[i]? = some c
  running : c.st = 1
  unheld : heldBack s c = false
  clear : behindEarlier s (s.core core) c = false

/-- The state in which a copy has moved its last row. -/
def movedState (s1 : State) (core : Nat) (c1 : Copy) : State := { setCopy s1 core c1 with freeCtr := s1.freeCtr + 1 }

section
variable (h : Movable s core i c) (hm : moveCopy s c = (s1, c1, none))
include h hm

/-- A copy whose rows stand at their destination waits with its action for what comes before it. -/
theorem execCopyComplete_waits (ha : behindAction (movedState s1 core c1) ((movedState s1 core c1).core core) c1 = true) :
    execCopyComplete core i s = .next (movedState s1 core c1) := by
  unfold movedState at ha
  unfold execCopyComplete
  simp only [h.here, h.running, h.unheld, h.clear, hm, ha, bne_self_eq_false, Bool.or_self, Bool.false_eq_true, if_true, if_false]
  rfl

/-- Where nothing comes before its action, it performs it. -/
theorem execCopyComplete_acts (ha : behindAction (movedState s1 core c1) ((movedState s1 core c1).core core) c1 = false)
    (hc : completeAction (noteAction (movedState s1 core c1) core c1) core c1 = .ok t) : execCopyComplete core i s = .next t := by
  unfold movedState at ha hc
  unfold execCopyComplete
  simp only [h.here, h.running, h.unheld, h.clear, hm, ha, hc, bne_self_eq_false, Bool.or_self, Bool.false_eq_true, if_false]

end

/-! ### Completion actions (spec 10 R239) -/

theorem completeAction_none (ha : c.act = 0) : completeAction s core c = .ok (dropCopy s core c) := by
  unfold completeAction
  simp only [ha]

/-- The operand that names the signal word of a copy. -/
def Copy.signalEa (c : Copy) : Word := if c.mc then c.xd1 else c.xd

/-- A signal word at a home key loses 1, where its line is not refused. -/
theorem completeAction_signal {k : Nat} (ha : c.act = 1) (hl : look s c.gang .atomic (eaDva (s.gang c.gang) c.signalEa) 8 = .key k)
    (hcut : s.cutOff (dieOf core) (.key k) = false) (hr : isHbm k = true → s.refusedIn k 8 = none) :
    completeAction s core c = .ok (dropCopy (decrementAt s c.cell c.gang c.signalEa k c.sc) core c) := by
  have hline : (if isHbm k then s.refusedIn k 8 else none) = none := by
    split
    case isTrue hk => exact hr hk
    case isFalse => rfl
  unfold Copy.signalEa at hl ⊢
  unfold completeAction
  simp only [ha, hl, hcut, hline, Bool.false_eq_true, if_false]

/-- The decrement at a word of HBM, by the gang's hive. -/
theorem decrementAt_hbm {k : Nat} (hk : isHbm k = true) (cell gid : Nat) (ea : Word) (sc : Scope) : decrementAt s cell gid ea k sc =
    (amoSync s (.engine cell) (some (hiveOf (s.gang gid).core)) k .add 8 (BitVec.allOnes 64) 0 false true sc).1 := if_pos hk

/-- The decrement at a word of the core's own local store. -/
theorem decrementAt_own {k gid : Nat} (hk : isHbm k = false) (hls : isLs k = true) (hcore : lsCore k = (s.gang gid).core) (cell : Nat) (ea : Word) (sc : Scope) :
    decrementAt s cell gid ea k sc = (amoSync s (.engine cell) none k .add 8 (BitVec.allOnes 64) 0 false true sc).1 := by
  unfold decrementAt
  simp only [hk, hls, hcore, beq_self_eq_true, Bool.and_self, Bool.true_or, Bool.false_eq_true, if_true, if_false]

section
variable {cell : Cell} (ha : c.act = 2) (ht : Tab.find s.cells (bits c.xd.toNat 12 0) = some cell)
include ha ht

/-- A waggle goes to a mailbox with room. -/
theorem completeAction_waggle (hroom : cell.mbox.length < 16) (hw : behindWaggle (s.core core) c = false) :
    completeAction s core c = .ok (dropCopy (deliverWaggle s (bits c.xd.toNat 12 0) (c.waggle s)) core c) := by
  unfold completeAction
  simp only [ha, ht, hw, decide_eq_true hroom, Bool.not_false, Bool.and_self, if_true]

/-- At a full mailbox the copy has landed and waits for room. -/
theorem completeAction_full (hfull : 16 ≤ cell.mbox.length) (hst : c.st ≠ 3) :
    completeAction s core c = .ok { setCopy s core { c with st := 3, acted := s.nextId } with nextId := s.nextId + 1 } := by
  unfold completeAction
  simp only [ha, ht, decide_eq_false (Nat.not_lt.mpr hfull), hst, Bool.false_and, Bool.false_eq_true, if_false]

end

/-- A frame has one more filled slot. -/
theorem completeAction_frame {key : Nat} (ha : c.act = 3) (hf : c.frame s = some key) : completeAction s core c
    = .ok (dropCopy ((frSet s (.engine c.cell) key 6 (frGet s key 6 + 1)).released (.engine c.cell) key 64 c.sc) core c) := by
  unfold completeAction
  simp only [ha, hf]

/-! ### The steps of a copy that waits (spec 10 R239, R243) -/

/-- Where room has come, a landed copy's action is performed. -/
theorem execCopyWaggleDelivered_room (hi : (s.core core).copies[i]? = some c) (hst : c.st = 3) (ha : completeAction s core c = .ok t) :
    execCopyWaggleDelivered core i s = .next t := by
  unfold execCopyWaggleDelivered
  simp only [hi, hst, ha, if_true]

/-- The first copy that waits for a slot of its frame takes one that came free. -/
theorem execFrameSlotReserve_free {key : Nat} (hi : (s.core core).copies[i]? = some c) (hf : c.frame s = some key) (hst : c.st = 2)
    (hfree : 0 < frGet s key 4) (hfirst : earlierFill s (s.core core) c (fun x => x.st == 2) = false) :
    execFrameSlotReserve core i s = .next (reserveSlot s core key c) := by
  unfold execFrameSlotReserve
  simp only [hi, hf, hst, decide_eq_true hfree, hfirst, decide_true, Bool.not_false, Bool.and_self, if_true]

/-! ### COPY_FAILURE (spec 10 R240; 14 R331; 18 R389, R391) -/

/-- A copy whose engine can let it go on fails where what it meets next refuses it. -/
theorem execCopyFailure_stops (h : Movable s core i c) {why : CopyFail} (hwhy : ∀ d n, why ≠ .fabric d n)
    (hm : moveCopy s c = (s1, c1, some (.fail why))) : execCopyFailure core i why s = .next (failCopy (setCopy s1 core c1) core c1 why) := by
  have hstop : stopCopy s core c why = failCopy (setCopy s1 core c1) core c1 why := by
    unfold stopCopy
    simp only [h.clear, hm, Bool.false_eq_true, if_true, if_false]
  rw [← hstop]
  unfold execCopyFailure
  simp only [h.here, h.running, h.unheld, bne_self_eq_false, Bool.false_and, Bool.or_self, Bool.false_eq_true, if_false]

/-- The state in which a failed link of the fabric is counted: an error response from a peer is counted at its station. -/
def fabricCounted (s : State) (station : Nat) : Home → State
  | .peer _ => stationError s station
  | _ => s

/-- The count changes nothing of which dies can be reached. -/
theorem fabricCounted_cutOff (station : Nat) (home : Home) (die : Nat) (l : Look) : (fabricCounted s station home).cutOff die l = s.cutOff die l := by
  have hlost : (fabricCounted s station home).lost = s.lost := by
    cases home
    case peer =>
      show (stationError s station).lost = s.lost
      unfold stationError
      split <;> rfl
    all_goals rfl
  unfold State.cutOff
  rw [hlost]

/-- A copy that is under way fails with the link that its engine uses. -/
theorem execCopyFailure_fabric (hi : (s.core core).copies[i]? = some c) (hst : c.st = 1) (hb : heldBack s c = false) (hmv : c.moved = false)
    {dva : Word} {home : Home} (hf : fabricAt s c dva = some home) (station : Nat) :
    execCopyFailure core i (.fabric dva station) s = .next (failCopy (fabricCounted s station home) core c (.fabric dva station)) := by
  have hmoving : c.moving s = true := by
    unfold Copy.moving
    rw [hst, hb, hmv]
    rfl
  unfold execCopyFailure
  simp only [hi, hst, hb, hmoving, hf, bne_self_eq_false, Bool.false_and, Bool.or_self, Bool.false_eq_true, if_true, if_false]
  cases home <;> rfl

/-- Where its die can reach the place that it goes to, a copy whose link fails kills its gang, and no partition is quiesced. -/
theorem failCopy_fabric {dva : Word} (hcut : s.cutOff (dieOf core) (look s c.gang (if c.out then .copyWrite else .copyRead) dva.toNat 1) = false)
    (station : Nat) : failCopy s core c (.fabric dva station) = killPlain (dropCopy (returnSlot s c) core c) c.gang 0x84 dva c.cell := by
  unfold failCopy
  simp only [hcut, Bool.false_eq_true, if_false]

/-- Settles O40: each step of the engine by the tests that it makes, and each completion action by what its operand names. -/
theorem tileCopyEngine : Obligations.TileCopyEngine := by
  unfold Obligations.TileCopyEngine
  intro s core i c hi run started noted
  refine ⟨fun hst hfirst hroom => ?start, fun hst hb hclear s1 c1 hm => ?complete, completeAction_none, fun k ha hl hcut => ?signal, fun t ha ht => ?waggle,
    fun key ha hf => ?frame, fun why s1 c1 hst hb hclear hwhy hm => ?stops, fun dva station home hst hb hmv hf => ?fabric⟩
  case start =>
    have h : Startable s core i c := ⟨hi, hst, hfirst, hroom⟩
    exact ⟨execCopyStart_held h, fun hb c1 e hf hw => execCopyStart_reads h hb hf hw, fun hb c1 kind dva flags cow hf => execCopyStart_waits h hb hf⟩
  case complete =>
    have h : Movable s core i c := ⟨hi, hst, hb, hclear⟩
    exact ⟨execCopyComplete_waits h hm, fun ha s3 hc => execCopyComplete_acts h hm ha hc⟩
  case signal =>
    refine ⟨fun hk hr => ?_, fun hk hls hcore => ?_⟩
    · exact (completeAction_signal ha hl hcut fun _ => hr).trans (by rw [decrementAt_hbm hk])
    · exact (completeAction_signal ha hl hcut fun hk' => absurd (hk'.symm.trans hk) (by decide)).trans (by rw [decrementAt_own hk hls hcore])
  case waggle =>
    refine ⟨fun hroom hw => ?_, completeAction_full ha ht⟩
    have hdone := completeAction_waggle ha ht hroom hw
    exact ⟨hdone, fun hst => execCopyWaggleDelivered_room hi hst hdone⟩
  case frame => exact ⟨completeAction_frame ha hf, fun hst hfree hearly => execFrameSlotReserve_free hi hf hst hfree hearly⟩
  case stops => exact execCopyFailure_stops ⟨hi, hst, hb, hclear⟩ hwhy hm
  case fabric =>
    intro t hcut
    have ht : t = fabricCounted s station home := by cases home <;> rfl
    rw [ht, ← fabricCounted_cutOff station home] at hcut
    rw [ht]
    exact (execCopyFailure_fabric hi hst hb hmv hf station).trans (congrArg Host.Outcome.next (failCopy_fabric hcut station))

end Sys2Proof.Machine
end

section
/-! TCOPY at issue, and frames, for a calm cell with nothing on its way (spec 10 R233 to R239, R242 to R245). -/

open Sys2Proof Sys2Proof.Machine

namespace Sys2Proof.Machine

variable {s s1 t u : State}

/-! ### A block of memory that is read word by word (spec 07 R166; 13 R287, R288) -/

/-- Reading `m` bytes and then the `n` that follow is reading them all. -/
theorem read_add (s : State) (key m n : Nat) : s.read key (m + n) = s.read key m ++ s.read (key + m) n := by
  simp only [State.read, Sys2Proof.range, List.range_add, List.map_append, List.map_map]
  congr 2
  funext i
  simp only [Function.comp]
  congr 1
  omega

theorem read_length (s : State) (key n : Nat) : (s.read key n).length = n := by simp [State.read, Sys2Proof.range]

/-- The words of a block are its bytes. -/
theorem read_words (s : State) (key m : Nat) : ((List.range m).flatMap fun i => s.read (key + 8 * i) 8) = s.read key (8 * m) := by
  induction m with
  | zero => rfl
  | succ m ih => rw [List.range_succ, List.flatMap_append, ih, List.flatMap_singleton, Nat.mul_succ, read_add]

/-- A number's bytes are the bytes that gave it. -/
theorem leBytes_leNat (d : List Byte) : leBytes (leNat d) d.length = d := by
  induction d with
  | nil => rfl
  | cons b d ih =>
    have hb := b.isLt
    have hdiv : (b.toNat + 256 * leNat d) / 256 = leNat d := by omega
    have hlow : BitVec.ofNat 8 (b.toNat + 256 * leNat d) = b := by
      apply BitVec.eq_of_toNat_eq
      rw [BitVec.toNat_ofNat]
      omega
    rw [leNat, List.length_cons, leBytes, hdiv, hlow, ih]

/-- A word got from eight bytes gives them back. -/
theorem leBytes_word {d : List Byte} (hd : d.length = 8) : leBytes (BitVec.ofNat 64 (leNat d)).toNat 8 = d := by
  have hlt : leNat d < 2 ^ 64 := by simpa [hd] using leNat_lt d
  rw [BitVec.toNat_ofNat, Nat.mod_eq_of_lt hlt, ← hd, leBytes_leNat]

theorem newest_ge (a : Nat) (l : List OldBytes) : a ≤ newest a l := by
  unfold newest
  induction l generalizing a with
  | nil => exact le_rfl
  | cons o l ih => exact (le_max_left a o.n).trans (ih _)

/-- A read misses nothing that happens before it. -/
theorem floor_le_orderedTo (s : State) (c key n : Nat) : (s.cell c).floor ≤ s.orderedTo c key n := by
  have hsaw (l : List (Nat × Nat)) (a : Nat) : a ≤ l.foldl (fun a e => max a e.2) a := by
    induction l generalizing a with
    | nil => exact le_rfl
    | cons e l ih => exact (le_max_left a e.2).trans (ih _)
  exact ((le_max_left _ _).trans (newest_ge _ _)).trans (hsaw _ _)

/-- Where no write follows number `a` in a range, none follows a later number in a part of it. -/
theorem writesAfter_part {a b key key' n n' : Nat} (h : (s.writesAfter a key n).isEmpty = true) (hab : a ≤ b) (hlo : key ≤ key') (hhi : key' + n' ≤ key + n) :
    (s.writesAfter b key' n').isEmpty = true := by
  simp only [State.writesAfter, List.isEmpty_iff, List.filter_eq_nil_iff, overlap, Bool.and_eq_true, decide_eq_true_eq, not_and] at h ⊢
  intro o ho hb hov
  have := h o ho
  omega

/-- The current cell reads a word of a block. -/
def gotWord (key : Nat) (s : State) (i : Nat) : State :=
  let (s1, d) := s.readBy s.cur (key + 8 * i) 8
  s1.modMe fun c => { c with got := c.got ++ [BitVec.ofNat 64 (leNat d)] }

theorem getWords_eq (s : State) (key n : Nat) : getWords s key n = (List.range (n / 8)).foldl (gotWord key) s := rfl

/-- A note of what was read changes only what the reader has seen. -/
theorem noteRead_modCell (s : State) (c at_ key n : Nat) : s.noteRead c at_ key n = s
    ∨ ∃ (saw : Cell → Tab Nat) (sight : Cell → List Known), s.noteRead c at_ key n = s.modCell c fun v => { v with saw := saw v, sight := sight v } := by
  unfold State.noteRead
  dsimp only
  split
  · exact .inl rfl
  · exact .inr ⟨_, _, rfl⟩

theorem noteRead_cells (s : State) (c at_ key n : Nat) : ∃ cells, s.noteRead c at_ key n = { s with cells } := by
  obtain h | ⟨saw, sight, h⟩ := noteRead_modCell s c at_ key n <;> rw [h]
  · exact ⟨_, rfl⟩
  · exact ⟨_, rfl⟩

theorem readBy_cells (s : State) (c key n : Nat) : ∃ cells, (s.readBy c key n).1 = { s with cells } := by
  unfold State.readBy
  dsimp only
  obtain ⟨cells, h⟩ := noteRead_cells s c (s.pickView (s.orderedTo c key n) key n).2 key n
  rw [h]
  split
  · exact ⟨_, rfl⟩
  · exact ⟨_, rfl⟩

theorem gotWord_cells (key : Nat) (s : State) (i : Nat) : ∃ cells, gotWord key s i = { s with cells } := by
  obtain ⟨cells, h⟩ := readBy_cells s s.cur (key + 8 * i) 8
  unfold gotWord
  dsimp only
  rw [h]
  exact ⟨_, rfl⟩

/-- The current cell's words of a block: the cells alone have changed, and of the current cell what it has seen and the words `ws` that it has got. -/
structure GotWords (s t : State) (ws : List Word) : Prop where
  cells : ∃ cells, t = { s with cells }
  cell : ∃ c, Tab.find t.cells t.cur = some c ∧ c.floor = s.me.floor ∧ c.got = s.me.got ++ ws

/-- Where nothing is unordered before it, a word is read as it stands. -/
theorem gotWord_settled {key i : Nat} (hc : ∃ c, Tab.find s.cells s.cur = some c) (h : (s.writesAfter s.me.floor (key + 8 * i) 8).isEmpty = true) :
    GotWords s (gotWord key s i) [BitVec.ofNat 64 (leNat (s.read (key + 8 * i) 8))] := by
  refine ⟨gotWord_cells key s i, ?_⟩
  obtain ⟨c, hc⟩ := hc
  have hread := readBy_settled (writesAfter_part h (floor_le_orderedTo s s.cur (key + 8 * i) 8) le_rfl le_rfl)
  have hnoted : ∃ v, Tab.find (s.noteRead s.cur s.stamp (key + 8 * i) 8).cells s.cur = some v ∧ v.floor = c.floor ∧ v.got = c.got := by
    obtain hn | ⟨saw, sight, hn⟩ := noteRead_modCell s s.cur s.stamp (key + 8 * i) 8 <;> rw [hn]
    · exact ⟨c, hc, rfl, rfl⟩
    · exact ⟨_, find_modCell_self hc _, rfl, rfl⟩
  obtain ⟨v, hv, hfloor, hgot⟩ := hnoted
  have hfind : Tab.find (s.noteRead s.cur s.stamp (key + 8 * i) 8).cells (s.noteRead s.cur s.stamp (key + 8 * i) 8).cur = some v :=
    (congrArg (Tab.find _) (noteRead_cur ..)).trans hv
  unfold gotWord
  rw [hread]
  dsimp only
  refine ⟨_, find_modCell_self hfind _, ?_, ?_⟩
  · exact hfloor.trans (congrArg Cell.floor (me_of_find hc).symm)
  · exact congrArg (· ++ _) (hgot.trans (congrArg Cell.got (me_of_find hc).symm))

/-- So are all words of a block. -/
theorem gotWords_settled {key n : Nat} {l : List Nat} (hl : ∀ i ∈ l, 8 * i + 8 ≤ n) (hc : ∃ c, Tab.find s.cells s.cur = some c)
    (h : (s.writesAfter s.me.floor key n).isEmpty = true) :
    GotWords s (l.foldl (gotWord key) s) (l.map fun i => BitVec.ofNat 64 (leNat (s.read (key + 8 * i) 8))) := by
  induction l generalizing s with
  | nil =>
    obtain ⟨c, hc⟩ := hc
    have hme := me_of_find hc
    exact ⟨⟨s.cells, rfl⟩, c, hc, by rw [hme], by rw [hme]; simp⟩
  | cons i l ih =>
    have hi := hl i (List.mem_cons_self ..)
    obtain ⟨⟨cells, hcells⟩, c, hfind, hfloor, hgot⟩ := gotWord_settled hc (writesAfter_part h le_rfl (Nat.le_add_right key (8 * i)) (by omega))
    have hme := me_of_find hfind
    have hnext : ((gotWord key s i).writesAfter (gotWord key s i).me.floor key n).isEmpty = true := by
      rw [hme, hfloor, hcells]
      exact h
    obtain ⟨⟨cells', hcells'⟩, v, hfind', hfloor', hgot'⟩ := ih (fun j hj => hl j (List.mem_cons_of_mem i hj)) ⟨c, hfind⟩ hnext
    refine ⟨⟨cells', ?_⟩, v, hfind', ?_, ?_⟩
    · rw [List.foldl_cons, hcells', hcells]
    · rw [hfloor', hme, hfloor]
    · rw [hgot', hme, hgot, hcells, List.append_assoc]
      rfl

/-! ### A block that a calm cell reads (spec 07 R166; 10 R235) -/

/-- A range that does not leave its page is one piece. -/
theorem pagePieces_one {dva n : Nat} (hn : 0 < n) (hlt : n < 65536) (hpage : dva % 65536 + n ≤ 65536) : pagePieces dva n = [(0, n)] := by
  have hhigh : dva + n ≤ (dva / 65536 + 1) * 65536 := by omega
  have hlow : dva / 65536 * 65536 ≤ dva := by omega
  have hmid : dva ≤ (dva / 65536 + 1) * 65536 := by omega
  have hpast : dva + n ≤ (dva / 65536 + 1 + 1) * 65536 := hhigh.trans (Nat.mul_le_mul_right _ (Nat.le_succ _))
  unfold pagePieces chunks
  rw [Nat.div_eq_of_lt hlt]
  simp only [List.range_succ, List.range_zero, List.nil_append, List.cons_append, List.map_cons, List.map_nil, Nat.add_zero, max_eq_left hlow, max_eq_right hmid,
    min_eq_left hhigh, min_eq_left hpast, List.filter_cons, List.filter_nil]
  simp [Nat.sub_eq_zero_of_le hhigh, hn, hn.ne']

/-- What reading a block leaves as it is. -/
structure Brought (s t : State) : Prop where
  cur : t.cur = s.cur
  cores : t.cores = s.cores
  posted : t.posted = s.posted
  gang : Keeps Cell.gang s t

theorem Brought.trans (h1 : Brought s t) (h2 : Brought t u) : Brought s u :=
  ⟨h2.cur.trans h1.cur, h2.cores.trans h1.cores, h2.posted.trans h1.posted, h1.gang.trans h2.gang⟩

theorem Brought.me_gang (h : Brought s t) : t.me.gang = s.me.gang := h.gang.me h.cur

/-- A cell with nothing on its way has nothing on its way after reading a block. -/
theorem Brought.nothing_posted (h : Brought s t) (hq : (s.posted.any fun p => p.cell == s.cur && p.gang == s.me.gang) = false) :
    (t.posted.any fun p => p.cell == t.cur && p.gang == t.me.gang) = false := by
  rw [h.cur, h.posted, h.me_gang]
  exact hq

theorem brought_seen (h : seen s t) : Brought s t := by
  have hgang : Keeps Cell.gang s t := keeps_seen (fun _ => rfl) h
  obtain ⟨_, _, _, _, rfl | rfl⟩ := h
  · exact ⟨rfl, rfl, rfl, hgang⟩
  · exact ⟨rfl, rfl, rfl, hgang⟩

theorem brought_gotWord (key : Nat) (s : State) (i : Nat) : Brought s (gotWord key s i) := by
  have hgang : Keeps Cell.gang s (gotWord key s i) :=
    (keeps_readBy (fun _ _ _ _ _ _ _ _ => rfl) s s.cur (key + 8 * i) 8).trans (keeps_modCell (by exact fun _ => rfl) _ _)
  obtain ⟨cells, h⟩ := gotWord_cells key s i
  rw [h] at hgang ⊢
  exact ⟨rfl, rfl, rfl, hgang⟩

theorem brought_getWords (s : State) (key n : Nat) : Brought s (getWords s key n) := by
  rw [getWords_eq]
  induction List.range (n / 8) generalizing s with
  | nil => exact ⟨rfl, rfl, rfl, .refl s⟩
  | cons i l ih => exact (brought_gotWord key s i).trans (ih _)

/-- A block that a cell with nothing on its way has read. -/
theorem brought_bringPieces {ea : Word} {dva skip : Nat} : ∀ {ps : List (Nat × Nat)} {s : State},
    (s.posted.any fun p => p.cell == s.cur && p.gang == s.me.gang) = false → bringPieces ea dva skip ps s = .ok t → Brought s t
  | [], s, _, h => by
    cases h
    exact ⟨rfl, rfl, rfl, .refl t⟩
  | p :: ps, s, hq, h => by
    unfold bringPieces at h
    dsimp only at h
    split at h
    case isTrue => exact brought_bringPieces hq h
    case isFalse =>
      obtain ⟨⟨s1, tgt⟩, hr, h⟩ := except_bind_ok h
      have hs := brought_seen (resolveDva_seen hr)
      cases tgt with
      | key k =>
        dsimp only at h
        rw [drainOwn_none (hs.nothing_posted hq)] at h
        have hw := brought_getWords s1 (k + (8 * (s.me.got.length - skip) - p.1)) (p.2 - (8 * (s.me.got.length - skip) - p.1))
        exact (hs.trans hw).trans (brought_bringPieces ((hs.trans hw).nothing_posted hq) h)
      | window w => cases h
      | remote k => cases h
      | host pa => cases h
      | peer acc pa => cases h

section
variable (h : calm s = true) {ea : Word} {dva : Nat}
include h

/-- A calm cell's block is what its pieces bring. -/
theorem loadBlock_calm (n : Nat) : loadBlock (begun s 8) ea dva n 0 = bringPieces ea dva 0 (pagePieces dva n) (begun s 8) >>= fun t =>
    .ok (t, ((t.me.got.drop 0).flatMap fun v => leBytes v.toNat 8).take n, 0 + n / 8) := by
  unfold loadBlock
  rw [begun_reply h]

variable (hq : quiet s = true)
include hq

/-- What a block that has been read leaves of the core and of the cell. -/
theorem loadBlock_brought {n m : Nat} {d : List Byte} (hl : loadBlock (begun s 8) ea dva n 0 = .ok (t, d, m)) :
    t.cur = s.cur ∧ t.cores = s.cores ∧ t.me.gang = s.me.gang := by
  rw [loadBlock_calm h] at hl
  obtain ⟨v, hv, hl⟩ := except_bind_ok hl
  cases hl
  have hb := brought_bringPieces (quiet_none (begun_quiet h hq 8)) hv
  exact ⟨hb.cur, hb.cores, hb.me_gang.trans (by rw [begun_me h])⟩

/-- A block in one page, with nothing unordered before it, is read as it stands. -/
theorem loadBlock_page {k : Nat} (hpage : dva % 65536 + 64 ≤ 65536) (hr : resolveDva (begun s 8) .load ea dva 64 none 0 = .ok (s1, .key k))
    (hw : (s1.writesAfter s1.me.floor k 64).isEmpty = true) : ∃ t n, loadBlock (begun s 8) ea dva 64 0 = .ok (t, s1.read k 64, n) := by
  have hs := resolveDva_seen hr
  have hgot0 : (begun s 8).me.got = [] := by
    obtain ⟨c, -, hm, -, -, -, -, -, -, -, -, -, hgot, -⟩ := calm_cell h
    rw [begun_me h, hm]
    exact hgot
  have hgot1 : s1.me.got = [] := ((keeps_seen (g := Cell.got) (fun _ => rfl) hs).me (brought_seen hs).cur).trans hgot0
  have hfind : ∃ c, Tab.find s1.cells s1.cur = some c := by
    have hsome := (keeps_seen (g := Cell.got) (fun _ => rfl) hs).isSome (begun s 8).cur
    obtain ⟨v, hv⟩ := begun_find h 8
    rw [hv, ← (brought_seen hs).cur] at hsome
    exact Option.isSome_iff_exists.mp hsome
  obtain ⟨-, c, hc, -, hwords⟩ := gotWords_settled (l := List.range 8) (fun i hi => by rw [List.mem_range] at hi; omega) hfind hw
  have hbring : bringPieces ea dva 0 [(0, 64)] (begun s 8) = .ok (getWords s1 k 64) := by
    unfold bringPieces
    simp only [hgot0, List.length_nil, Nat.sub_zero, Nat.mul_zero, Nat.add_zero, Nat.zero_add, hr, op_bind_ok,
      drainOwn_none ((brought_seen hs).nothing_posted (quiet_none (begun_quiet h hq 8)))]
    rfl
  refine ⟨getWords s1 k 64, 0 + 64 / 8, ?_⟩
  rw [loadBlock_calm h, pagePieces_one (by omega) (by omega) hpage, hbring]
  have hbytes : ((getWords s1 k 64).me.got.flatMap fun v => leBytes v.toNat 8) = s1.read k 64 := by
    rw [getWords_eq, me_of_find hc, hwords, hgot1, List.nil_append, List.flatMap_map]
    simp only [leBytes_word (read_length s1 _ 8)]
    exact read_words s1 k 8
  show Except.ok (_, ((getWords s1 k 64).me.got.flatMap fun v => leBytes v.toNat 8).take 64, _) = _
  rw [hbytes, List.take_of_length_le (read_length s1 k 64).le]

end

/-! ### TCOPY at issue (spec 10 R233 to R239, R243, R245) -/

/-- The copy that an instruction issues, once its descriptor is known. -/
def issuedCopy (u : State) (q : Q64) (desc : List Byte) : Copy :=
  let held := q.imm.getLsbD 3 || u.me.copyFenced
  { id := u.nextId, cell := u.cur, gang := u.me.gang, enc := q.pack, xa := getX u q.a, xb := getX u q.b, xc := getX u q.c, xd := getX u q.d
    xd1 := getX u (q.d + 1), desc, asid := u.myLaunch.asid, launch := u.myGang.launch, held, hold := u.nextId
    floor := if held then u.me.floor else u.me.start, known := if held then u.me.known else [] }

/-- The rights that a copy needs at its two sides (spec 10 R235, R236). -/
def Copy.tensorNeed (c : Copy) : Nat := if c.out then rWrite + rCopy else rRead + rCopy
def Copy.tileNeed (c : Copy) : Nat := if c.out then rRead + rCopy else rWrite + rCopy

/-- The tile side of a frame copy passes: the header, and all slots of the frame (spec 10 R243). -/
def FrameSide (s : State) (c : Copy) : Prop := ∃ key, frameHeader s c.xd = .ok key ∧ frameBad s key = false ∧ c.td.size ≤ frGet s key 2 * 64
  ∧ tileSide s (c.xd + 64) (frGet s key 0 * frGet s key 2 * 64) c.tileNeed c.td = .ok ()

/-- The tile side and the operands of any other copy pass (spec 10 R236, R238, R239). -/
def PlainSide (s : State) (c : Copy) : Prop := tileSide s c.xc c.td.size c.tileNeed c.td = .ok ()
  ∧ (c.mc = true → multicastOperand s c.xc c.xd = .ok () ∧ (c.act = 1 → signalOperand s c.xd1 = .ok ()))
  ∧ (c.mc = false → (c.act = 1 → signalOperand s c.xd = .ok ()) ∧ (c.act = 2 → waggleOperand s c.xd = .ok ()))

/-- The descriptor of a copy and its two sides pass their checks (spec 10 R234 to R239). -/
structure CopyPasses (s : State) (c : Copy) : Prop where
  descriptor : c.td.ok = true
  tensor : tensorSide s c.td c.tensorNeed = .ok ()
  frame : c.act = 3 → FrameSide s c
  plain : c.act ≠ 3 → PlainSide s c

/-- The engine of the current cell's core has room for one more copy of the cell (spec 10 R245). -/
structure EngineRoom (s : State) : Prop where
  core : (s.core (coreOf s.cur)).copies.length < 32
  cell : ((s.core (coreOf s.cur)).copies.filter fun x => x.cell == s.cur && x.gang == s.me.gang).length < 16

/-- A copy behind the copies of the current cell's core; a frame copy takes a slot where one is free. -/
def enteredCopy (s : State) (c : Copy) : State :=
  enterFrame { s.modCore (coreOf s.cur) fun k => { k with copies := k.copies ++ [c] } with nextId := s.nextId + 1 } (coreOf s.cur) c

/-- A copy whose checks pass enters an engine with room. -/
theorem copyIssue_enters {q : Q64} {dva n : Nat} {desc : List Byte} (hseg : segCheck u.myGang (getX u q.a) 64 rRead = .ok dva)
    (halign : (getX u q.a).toNat % 64 = 0) (hload : loadBlock u (getX u q.a) dva 64 0 = .ok (s, desc, n)) (hpass : CopyPasses s (issuedCopy u q desc))
    (hroom : EngineRoom s) : copyIssue q u = .ok (enteredCopy s (issuedCopy u q desc)) := by
  obtain ⟨hok, htensor, hframe, hplain⟩ := hpass
  unfold copyIssue
  extract_lets ea xd xd1 ord c0
  rw [show segCheck u.myGang ea 64 rRead = .ok dva from hseg]
  dsimp -zeta only
  rw [if_neg (by simpa using halign)]
  refine (congrArg Op.res ((op_bind_of hload).trans ?_) : _ = Op.res (.ok (.ok _)))
  dsimp -zeta only
  extract_lets c d need core mine joined entered enter
  rw [if_neg (by rw [show d.ok = true from hok]; decide)]
  refine (op_bind_of htensor).trans ?_
  have henter : enter () = .ok (.ok (enteredCopy s c)) := if_neg (by simpa using ⟨hroom.core, hroom.cell⟩)
  by_cases ha : c.act = 3
  case pos =>
    obtain ⟨key, hkey, hbad, hsize, htile⟩ := hframe ha
    rw [if_pos ha]
    refine (op_bind_of hkey).trans ?_
    have hfits : (frameBad s key || decide (d.size > frGet s key 2 * 64)) = false := by
      rw [hbad]
      exact decide_eq_false (Nat.not_lt.mpr hsize)
    rw [if_neg (by rw [hfits]; decide)]
    exact (op_bind_of htile).trans henter
  case neg =>
    obtain ⟨htile, hmulti, hsingle⟩ := hplain ha
    rw [if_neg ha]
    refine (op_bind_of htile).trans ?_
    by_cases hmc : c.mc = true
    case pos =>
      obtain ⟨htargets, hsignal⟩ := hmulti hmc
      rw [if_pos hmc]
      refine (op_bind_of htargets).trans ?_
      split
      case isTrue h1 => exact (op_bind_of (hsignal h1)).trans henter
      case isFalse => exact henter
    case neg =>
      obtain ⟨hsignal, hwaggle⟩ := hsingle (Bool.eq_false_of_not_eq_true hmc)
      rw [if_neg hmc]
      split
      case isTrue h1 => exact (op_bind_of (hsignal h1)).trans henter
      case isFalse =>
        split
        case isTrue h2 => exact (op_bind_of (hwaggle h2)).trans henter
        case isFalse => exact henter

section
variable (h : calm s = true) (hq : quiet s = true)
include h

/-- The copy that a calm cell issues, by its registers at the start of its turn. -/
theorem issuedCopy_calm (q : Q64) (desc : List Byte) : issuedCopy (begun s 8) q desc =
    { id := s.nextId, cell := s.cur, gang := s.me.gang, enc := q.pack, xa := rdX s q.a, xb := rdX s q.b, xc := rdX s q.c, xd := rdX s q.d
      xd1 := rdX s (q.d + 1), desc, asid := s.myLaunch.asid, launch := s.myGang.launch, held := q.imm.getLsbD 3 || s.me.copyFenced, hold := s.nextId
      floor := if q.imm.getLsbD 3 || s.me.copyFenced then s.me.floor else s.me.start
      known := if q.imm.getLsbD 3 || s.me.copyFenced then s.me.known else [] } := by
  unfold issuedCopy
  simp only [getX_calm h, begun_myGang h, (Unheld.of_calm h).begun_myLaunch, begun_me h]
  rfl

include hq

/-- The cell that issued it goes on. -/
theorem tcopy_enters {q : Q64} {i : Instr} {srcs : List Dst} {dva n : Nat} {desc : List Byte} (hi : exec i s = issue 8 noEarlyCheck srcs [] (copyIssue q) s)
    (hseg : segCheck s.myGang (rdX s q.a) 64 rRead = .ok dva) (halign : (rdX s q.a).toNat % 64 = 0)
    (hload : loadBlock (begun s 8) (rdX s q.a) dva 64 0 = .ok (s1, desc, n)) (hcore : (s.core (coreOf s.cur)).copies.length < 32)
    (hcell : ((s.core (coreOf s.cur)).copies.filter fun x => x.cell == s.cur && x.gang == s.me.gang).length < 16) {c : Copy}
    (hc : issuedCopy (begun s 8) q desc = c) (hpass : CopyPasses s1 c) :
    exec i s = .next (after (enterFrame { s1.modCore (coreOf s.cur) fun k => { k with copies := k.copies ++ [c] } with nextId := s1.nextId + 1 }
      (coreOf s.cur) c) 8) := by
  subst hc
  obtain ⟨hcur, hcores, hgang⟩ := loadBlock_brought h hq hload
  have hroom : EngineRoom s1 :=
    ⟨by rw [hcur, State.core, hcores]; exact hcore, by rw [hcur, hgang, State.core, hcores]; exact hcell⟩
  have hx := getX_calm h 8 q.a
  have hbody := copyIssue_enters (u := begun s 8) (q := q) (by rw [begun_myGang h, hx]; exact hseg) (by rw [hx]; exact halign) (by rw [hx]; exact hload)
    hpass hroom
  rw [hi, issue_calm h 8 _ _ _ _ rfl, hbody, enteredCopy, hcur]
  rfl

end

/-! ### Frames (spec 10 R242 to R244) -/

/-- An effective address names the header of a frame in the local store of the current cell's gang, at this key. -/
structure FrameAt (s : State) (ea : Word) (key : Nat) : Prop where
  aligned : ea.toNat % 64 = 0
  localStore : bits ea.toNat 63 61 = 7
  inside : bits ea.toNat 60 0 + 64 ≤ s.myGang.hdr.lsu * 4096
  key_eq : ls7Key s.myGang ea = key

/-- A register's number of slots and of units of a slot that a frame can have. -/
structure FrameShape (xb : Nat) : Prop where
  high : bits xb 63 32 = 0
  slots : 1 ≤ bits xb 15 0 ∧ bits xb 15 0 ≤ 256
  units : 1 ≤ bits xb 31 16 ∧ bits xb 31 16 ≤ 4096

theorem FrameShape.passes {xb : Nat} (h : FrameShape xb) : (bits xb 63 32 != 0 || bits xb 15 0 == 0 || decide (bits xb 15 0 > 256) || bits xb 31 16 == 0
    || decide (bits xb 31 16 > 4096)) = false := by
  obtain ⟨hhigh, ⟨hn0, hn⟩, hw0, hw⟩ := h
  rw [hhigh, decide_eq_false (Nat.not_lt.mpr hn), decide_eq_false (Nat.not_lt.mpr hw), beq_false_of_ne (Nat.ne_of_gt hn0), beq_false_of_ne (Nat.ne_of_gt hw0)]
  rfl

/-- A change of a frame's header keeps what an access keeps of the cells. -/
theorem keeps_frSet {α : Type} {g : Cell → α} (hg : Unseeing g) (s : State) (who : Agent) (key off v : Nat) : Keeps g s (frSet s who key off v) :=
  ⟨(keeps_write hg s who none (key + off) (leBytes v 2)).find⟩

@[simp] theorem frSet_cur (s : State) (who : Agent) (key off v : Nat) : (frSet s who key off v).cur = s.cur := write_cur ..

/-- The current cell has acquired the header and taken the oldest filled slot. -/
def slotTaken (s : State) (key : Nat) : State :=
  frSet (frSet (s.acquire s.cur key 64 .gang) (.cell s.cur) key 6 (frGet s key 6 - 1)) (.cell s.cur) key 0xA ((frGet s key 0xA + 1) % frGet s key 0)

theorem slotTaken_csr (s : State) (key : Nat) : (slotTaken s key).me.csr = s.me.csr := by
  have hkeeps : Keeps Cell.csr s (slotTaken s key) :=
    ((keeps_acquire unseeing_csr ..).trans (keeps_frSet unseeing_csr ..)).trans (keeps_frSet unseeing_csr ..)
  exact hkeeps.me (by simp only [slotTaken, frSet_cur, acquire_cur])

/-- A calm cell maps no register to a queue. -/
theorem begun_hoqen (h : calm s = true) (len : Nat) : (begun s len).me.csr.hoqen = 0 := by
  rw [begun_me h]
  exact (signalView_calm h).2.1

section
variable (h : calm s = true) {a : Reg} {key : Nat} (hf : FrameAt s (rdX s a) key)
include h hf

theorem frameHeader_calm : frameHeader (begun s 8) (rdX s a) = .ok key := by
  unfold frameHeader
  rw [begun_myGang h, if_neg (by simpa using hf.aligned), if_neg (by simp [hf.localStore, hf.inside]), hf.key_eq]

/-- FRMINIT of a frame in its segment: it writes the header once no copy of the gang holds or awaits a slot of it. -/
theorem execFrminit_calm {b : Reg} {dva : Nat} (hb : FrameShape (rdX s b).toNat)
    (hseg : segCheck s.myGang (rdX s a) (64 + bits (rdX s b).toNat 15 0 * bits (rdX s b).toNat 31 16 * 64) rWrite = .ok dva) : execFrminit a b s = .next (
      if (s.core (coreOf s.cur)).copies.any fun c => c.gang == s.me.gang && c.frame s == some key then waiting (begun s 8) (.frame key)
      else after ((begun s 8).write (.cell s.cur) none key
        (leBytes (bits (rdX s b).toNat 15 0) 2 ++ leBytes (bits (rdX s b).toNat 31 16) 2 ++ leBytes (bits (rdX s b).toNat 15 0) 2 ++ zeros 58)) 8) := by
  have hcopies : ((begun s 8).core (coreOf (begun s 8).cur)).copies.any (fun c => c.gang == (begun s 8).me.gang && c.frame (begun s 8) == some key)
      = (s.core (coreOf s.cur)).copies.any fun c => c.gang == s.me.gang && c.frame s == some key := by
    rw [begun_me h]
    rfl
  unfold execFrminit
  rw [issue_calm h 8 _ _ _ _ rfl]
  simp only [getX_calm h, frameHeader_calm h hf, op_bind_ok, hb.passes, begun_myGang h, hseg, hcopies, holding_nil, Bool.false_eq_true, if_false]
  split <;> rfl

/-- FRMWAIT takes the oldest filled slot and gives its address. -/
theorem execFrmwait_filled (hbad : frameBad s key = false) (hfill : frGet s key 6 ≠ 0) (d : Reg) (limit : BitVec 15) :
    execFrmwait d a limit s = .next (after (lateX (slotTaken (begun s 8) key) d (rdX s a + BitVec.ofNat 64 (64 + frGet s key 0xA * frGet s key 2 * 64))) 8) := by
  have hget (off : Nat) : frGet (begun s 8) key off = frGet s key off := rfl
  have hbad' : frameBad (begun s 8) key = false := hbad
  have hho : (slotTaken (begun s 8) key).me.csr.hoqen = 0 := by
    rw [slotTaken_csr]
    exact begun_hoqen h 8
  unfold execFrmwait
  rw [issue_calm h 8 _ _ _ _ rfl]
  simp only [getX_calm h, frameHeader_calm h hf, op_bind_ok, hbad', hget, hfill, Bool.false_eq_true, if_false]
  rw [← defer_x hho]
  rfl

/-- Where no slot is filled FRMWAIT parks its cell. -/
theorem execFrmwait_empty (hbad : frameBad s key = false) (hfill : frGet s key 6 = 0) (d : Reg) (limit : BitVec 15) :
    execFrmwait d a limit s = .next (waiting (setLimit (begun s 8) (limitUs limit.toNat) (rdX s a)) (.frame key)) := by
  have hget (off : Nat) : frGet (begun s 8) key off = frGet s key off := rfl
  have hbad' : frameBad (begun s 8) key = false := hbad
  have hho : (setLimit (begun s 8) (limitUs limit.toNat) (rdX s a)).me.csr.hoqen = 0 :=
    (me_modMe (g := fun c => c.csr.hoqen) (by exact fun _ => rfl) (begun s 8)).trans (begun_hoqen h 8)
  unfold execFrmwait
  rw [issue_calm h 8 _ _ _ _ rfl]
  simp only [getX_calm h, frameHeader_calm h hf, op_bind_ok, hbad', hget, hfill, Bool.false_eq_true, if_true, if_false]
  exact congrArg (fun r => Host.Outcome.next (commit 8 r)) (holding_park [.x d] (.frame key) (queuesOf_nil hho _))

/-- FRMFREE, a release, counts one more free slot unless every slot is accounted for. -/
theorem execFrmfree_calm (hq : quiet s = true) (hbad : frameBad s key = false) : execFrmfree a s = .next (after
    (if frGet s key 4 + frGet s key 6 < frGet s key 0 then (frSet (begun s 8) (.cell s.cur) key 4 (frGet s key 4 + 1)).released (.cell s.cur) key 64 .gang
      else begun s 8) 8) := by
  have hget (off : Nat) : frGet (begun s 8) key off = frGet s key off := rfl
  have hbad' : frameBad (begun s 8) key = false := hbad
  unfold execFrmfree
  rw [issue_calm h 8 _ _ _ _ rfl]
  simp only [getX_calm h, frameHeader_calm h hf, op_bind_ok, hbad', release_quiet (begun_quiet h hq 8), hget, holding_nil, Bool.false_eq_true, if_false]
  split <;> rfl

end

/-- Settles O39: a copy that is issued by the checks of its descriptor and of its sides, and the FRM group by the header of its frame. -/
theorem tileCopiesAndFrames : Obligations.TileCopiesAndFrames := by
  unfold Obligations.TileCopiesAndFrames
  constructor
  case left =>
    intro s s1 a b cr d act sig ord dva k n bytes h hq u ea core hseg halign
    refine ⟨loadBlock_page h hq, ?_⟩
    intro hload hcore hcell enters
    have henters {q : Q64} {i : Instr} {srcs : List Dst} (hi : exec i s = issue 8 noEarlyCheck srcs [] (copyIssue q) s) (ha : q.a = a) (hb : q.b = b) :
        enters q i := by
      intro hok htensor hframe hplain
      subst ha hb
      exact tcopy_enters h hq hi hseg halign hload hcore hcell (issuedCopy_calm h q bytes) ⟨hok, htensor, hframe, hplain⟩
    refine ⟨henters (exec_tcopy ..) ?_ ?_, henters (exec_tcopySt ..) ?_ ?_, henters (exec_tcopyMc ..) rfl rfl⟩
    all_goals cases act <;> rfl
  case right =>
    intro s d a b limit h hq u ea key n w halign hls hend
    have hf : FrameAt s (rdX s a) key := ⟨halign, hls, hend, rfl⟩
    refine ⟨fun hhigh hn0 hn hw0 hw ⟨dva, hseg⟩ => ?init, fun hbad => ⟨fun hfill => ?filled, fun hfill => ?empty, fun hfree => ?free, fun hall => ?all⟩⟩
    case init =>
      have hinit := execFrminit_calm h hf ⟨hhigh, ⟨hn0, hn⟩, hw0, hw⟩ hseg
      refine ⟨fun hnone => hinit.trans (congrArg Host.Outcome.next (if_neg ?_)), fun ⟨c, hc, hg, hk⟩ => hinit.trans (congrArg Host.Outcome.next (if_pos ?_))⟩
      · simpa using hnone
      · exact List.any_eq_true.mpr ⟨c, hc, by rw [hg, hk]; simp⟩
    case filled => exact execFrmwait_filled h hf hbad hfill d limit
    case empty => exact execFrmwait_empty h hf hbad hfill d limit
    case free => exact (execFrmfree_calm h hf hq hbad).trans (by rw [if_pos hfree])
    case all => exact (execFrmfree_calm h hf hq hbad).trans (by rw [if_neg (Nat.not_lt.mpr hall)])

end Sys2Proof.Machine
end

section
/-! MOP1, MOPA, MZERO and MREL, for a cell whose gang holds the lease (spec 11 R259 to R271). -/

open Sys2Proof Sys2Proof.Machine

namespace Sys2Proof.Machine

variable {s s1 t : State}

/-! ### The lease that the gang holds (spec 11 R252) -/

/-- The quantum of a cell's core has been looked at. -/
def quantumSeen (t : State) : State := t.modCore t.myGang.core expireLease

theorem quantumSeen_myGang (t : State) : (quantumSeen t).myGang = t.myGang := rfl

theorem needLease_held (hm : t.myGang.mrec = none) (hh : ((quantumSeen t).core t.myGang.core).holder = some t.me.gang) : needLease t = .ok (quantumSeen t) := by
  have hrec : ¬ (quantumSeen t).myGang.mrec.isSome = true := by rw [quantumSeen_myGang, hm]; nofun
  exact (if_neg hrec).trans (if_pos (beq_iff_eq.mpr hh))

theorem leased_holder (h : mready s = true) : ((leased s).core s.myGang.core).holder = some s.me.gang := by
  simp only [mready, Bool.and_eq_true, beq_iff_eq] at h
  exact h.2

/-- A register of a cell that is ready for the unit reads the same when the quantum has been looked at. -/
theorem leased_getF (h : mready s = true) (r : Reg) : getF (leased s) r = rdF s r := getF_calm (calm_of_mready h) 8 r

theorem leased_csr (h : mready s = true) : (leased s).me.csr = s.me.csr := by rw [leased_me h]

theorem leased_pc (h : mready s = true) : (leased s).me.pc = s.me.pc := by rw [leased_me h]

theorem leased_held (h : mready s = true) : isHeld (leased s).me = isHeld s.me := by rw [isHeld, leased_csr h, isHeld]

/-! ### MOP1 (spec 11 R259, R263 to R265) -/

section
variable (s : State) (d : Tile) (a b c : Reg) (p : Pred) (pair : Pair)

/-- The one step of a MOP1, with its operands as its registers hold them. -/
def mop1Step : List W32 × Fl × Option (Nat × Fl) :=
  applyStep pair (isHeld s.me) s.me.csr.qfcsr p.k p.n (maskBits (leased s) p.k) (if pair.banded then bandOf (rdF s c) else .zero)
    (sideBytes (leased s) (pairTypes pair).1 a) (sideBytes (leased s) (pairTypes pair).2 b) 0 (readTile (leased s) s.myGang.core d.toNat)

/-- The tile and the flags as a step leaves them. -/
def stepWritten (r : List W32 × Fl × Option (Nat × Fl)) : State :=
  flagCell (writeTile (leased s) s.myGang.core s.me.gang d.toNat r.1) s.cur r.2.1

/-- How a MOP1 ends: a stop traps at its row; a held one waits until it leaves the unit. -/
def mop1End (r : List W32 × Fl × Option (Nat × Fl)) : Res :=
  match r.2.2 with
  | some (i, f) => .trap (wrCsr (flagCell (stepWritten s d r) s.cur f) fun v => { v with mstate := stopPoint s.me.pc 0 i }) (stopCause f)
      (stopPoint s.me.pc 0 i &&& 0xFFFFFFFF) none true
  | none => if isHeld s.me then .park ((useUnit (stepWritten s d r) true).modMe fun v => { v with stage := 1 }) .matrix
      else .ok (useUnit (stepWritten s d r) true)

end

section
variable (h : mready s = true) {d : Tile} (hd : declared s d = true)
include h hd

theorem execMop1_mready {a b : Reg} (ha : aligned s a = true) (hb : aligned s b = true) (hv : s.me.csr.mstate.getLsbD 63 = false) (c : Reg)
    (p : Pred) (pair : Pair) : execMop1 d a b c p pair s = .next (commit 8 (mop1End s d (mop1Step s d a b c p pair))) := by
  have hc := calm_of_mready h
  have hcheck : (match tileCheck d (begun s 8) with | some t => some t | none => alignCheck [(1, a), (2, b)] (begun s 8)) = none := by
    rw [tileCheck_declared h hd]
    exact alignCheck_aligned hc _ (by simp [ha, hb])
  unfold execMop1
  dsimp only
  rw [issue_calm hc 8 _ _ _ _ hcheck, holding_nil, resumePoint_none hc hv 1, op_bind_ok]
  dsimp only
  rw [leased_unit h]
  simp only [leased_gang h, leased_myGang h, leased_getF h, leased_csr h, leased_pc h, leased_held h]
  rw [← mop1Step]
  obtain ⟨l, f, _ | ⟨i, g⟩⟩ := mop1Step s d a b c p pair
  · cases hh : isHeld s.me <;> simp only [mop1End, hh] <;> rfl
  · rfl

theorem execMzero_mready (p : Pred) : execMzero d p s = .next (after (useUnit (writeTile (leased s) s.myGang.core s.me.gang d.toNat
    ((readTile (leased s) s.myGang.core d.toNat).zipIdx.map fun e =>
      if rowOn p.k p.n (maskBits (leased s) p.k) (e.2 / 64) && colOn p.k p.n (maskBits (leased s) p.k) (e.2 % 64) then 0 else e.1)) true) 8) := by
  rw [← leased_myGang h, ← leased_gang h]
  exact issue_op (calm_of_mready h) (tileCheck_declared h hd) (leased_unit h)

end

/-! ### MREL (spec 11 R271) -/

section
variable (h : mready s = true) (ht : s.myGang.hdr.accm ≠ 0)
include h ht

theorem anyTile_declared : anyTile (begun s 8) = none := by
  rw [anyTile, begun_myGang (calm_of_mready h)]
  exact if_neg ht

theorem execMrel_mready : execMrel s = .next (after (useUnit (releaseLease (begun s 8) false) false) 8) :=
  issue_op (calm_of_mready h) (anyTile_declared h ht) (op_bind_of (matRoom_begun h))

theorem execMrelDiscard_mready : execMrelDiscard s = .next (after (useUnit (releaseLease (begun s 8) true) false) 8) :=
  issue_op (calm_of_mready h) (anyTile_declared h ht) (op_bind_of (matRoom_begun h))

end

/-! ### The signal word of a MOPA (spec 11 R268) -/

/-- A word's segment check passes where that of its first byte and that of its last do. -/
theorem segCheck_word {g : Gang} {ea : Word} {need lo hi : Nat} (ha : ea.toNat % 8 = 0) (hlo : segCheck g (ea + BitVec.ofNat 64 0) 1 need = .ok lo)
    (hhi : segCheck g (ea + BitVec.ofNat 64 7) 1 need = .ok hi) : ∃ dva, segCheck g ea 8 need = .ok dva := by
  have hlt := ea.isLt
  have hlast : (ea + BitVec.ofNat 64 7).toNat = ea.toNat + 7 := by
    rw [BitVec.toNat_add, BitVec.toNat_ofNat]
    omega
  have hseg : (ea.toNat + 7) / 2 ^ 61 = ea.toNat / 2 ^ 61 := by omega
  have hoff : (ea.toNat + 7) % 2 ^ 61 = ea.toNat % 2 ^ 61 + 7 := by omega
  rw [show ea + BitVec.ofNat 64 0 = ea from BitVec.add_zero ea, segCheck_eq] at hlo
  rw [segCheck_eq, hlast, hseg, hoff] at hhi
  rw [segCheck_eq]
  split at hhi
  case isTrue => cases hhi
  case isFalse hlimit =>
    rw [if_neg (by omega)] at hlo ⊢
    split at hlo
    case isTrue => cases hlo
    case isFalse hright =>
      rw [if_neg hright]
      split at hlo
      case isTrue => cases hlo
      case isFalse hspace => exact ⟨_, if_neg hspace⟩

/-- Where a range passes its check byte by byte, its segment check passes as a whole or at each of its bytes. -/
theorem checkPiece_ok {ea : Word} {n need : Nat} (h : checkPiece t ea n need = .ok ()) :
    (∃ dva, segCheck t.myGang ea n need = .ok dva) ∨ ∀ i < n, ∃ dva, segCheck t.myGang (ea + BitVec.ofNat 64 i) 1 need = .ok dva := by
  unfold checkPiece at h
  split at h
  case h_1 dva hdva => exact .inl ⟨dva, hdva⟩
  case h_2 =>
    split at h
    case h_1 => cases h
    case h_2 hnone =>
      refine .inr fun i hi => ?_
      have hbyte := List.findSome?_eq_none_iff.mp hnone i (List.mem_range.mpr hi)
      split at hbyte
      case h_1 => cases hbyte
      case h_2 dva hdva => exact ⟨dva, hdva⟩

theorem checkPieces_one {ea : Word} {n need : Nat} (h : checkPieces t need [(ea, n)] = .ok ()) : checkPiece t ea n need = .ok () := by
  unfold checkPieces at h
  split at h
  case h_1 hok => exact hok
  case h_2 => cases h

/-- An aligned signal word that passes byte by byte passes as a word. -/
theorem signalWord_passes {ea : Word} {need : Nat} (ha : ea.toNat % 8 = 0) (h : checkPieces t need [(ea, 8)] = .ok ()) :
    ∃ dva, segCheck t.myGang ea 8 need = .ok dva := by
  rcases checkPiece_ok (checkPieces_one h) with hword | hbytes
  · exact hword
  · obtain ⟨lo, hlo⟩ := hbytes 0 (by decide)
    obtain ⟨hi, hhi⟩ := hbytes 7 (by decide)
    exact segCheck_word ha hlo hhi

/-- A MOPA's target is found at an aligned word, and only what a translation leaves behind changes. -/
theorem ocsTarget_ok {ocs : Bool} {key : Option Nat} (h : ocsTarget t ocs = .ok (s1, key)) :
    seen t s1 ∧ (ocs = true → t.me.csr.mocsig.toNat % 8 = 0) := by
  unfold ocsTarget at h
  cases ocs with
  | false =>
    cases h
    exact ⟨seen_refl _, nofun⟩
  | true =>
    rw [if_pos rfl] at h
    dsimp only at h
    split at h
    case isTrue => cases h
    case isFalse ha =>
      obtain ⟨⟨v, target⟩, hv, h⟩ := except_bind_ok h
      have hseen := resolveDva_seen hv
      refine ⟨?_, fun _ => by simpa using ha⟩
      cases target <;> cases h <;> exact hseen

/-! ### What a translation leaves for the unit (spec 07 R169; 11 R252) -/

/-- With no early read open a register reads as it stands. -/
theorem getF_settled (he : t.me.early = []) (r : Reg) : getF t r = rdF t r := by
  rw [getF, hazard, he]
  exact BitVec.ofNat_toNat ..

theorem resumePoint_clear (hv : t.me.csr.mstate.getLsbD 63 = false) (n : Nat) : resumePoint t n = .ok (0, 0, false) := by
  have hbit : bit t.me.csr.mstate.toNat 63 = false := (bit_getLsbD ..).trans hv
  exact if_neg (by rw [hbit]; nofun)

section
variable (h : mready s = true) (hs : seen (begun s 8) t)
include h hs

/-- The current cell is as before its turn but for its note of its last fault and the length of its instruction. -/
theorem seen_begun_me {α : Type} {g : Cell → α} (hg : ∀ c, g { c with faultDva := none, refaults := 0 } = g c) (hl : ∀ c, g { c with ilen := 8 } = g c) :
    g t.me = g s.me := by
  have hkeep : g t.me = g (begun s 8).me := (keeps_seen hg hs).me (brought_seen hs).cur
  rw [hkeep, begun_me (calm_of_mready h)]
  exact hl s.me

theorem seen_begun_gang : t.me.gang = s.me.gang := seen_begun_me h hs (fun _ => rfl) fun _ => rfl

theorem seen_begun_csr : t.me.csr = s.me.csr := seen_begun_me h hs (fun _ => rfl) fun _ => rfl

theorem seen_begun_myGang : t.myGang = s.myGang := by
  rw [State.myGang, seen_begun_gang h hs, State.gang, (seen_other hs).1]
  rfl

theorem seen_begun_core : (quantumSeen t).core s.myGang.core = (leased s).core s.myGang.core := by
  have hcores : t.cores = s.cores := (brought_seen hs).cores
  unfold quantumSeen leased State.modCore State.core
  rw [seen_begun_myGang h hs, hcores]
  rfl

theorem needLease_seen : needLease t = .ok (quantumSeen t) := by
  have hmg := seen_begun_myGang h hs
  refine needLease_held (by simpa [hmg] using mrec_of_mready h) ?_
  rw [hmg, seen_begun_core h hs, seen_begun_gang h hs]
  exact leased_holder h

theorem matRoom_seen : matRoom (quantumSeen t) = .ok () := by
  have hroom := matRoom_leased h
  rw [matRoom, leased_myGang h] at hroom
  rw [matRoom, quantumSeen_myGang, seen_begun_myGang h hs, seen_begun_core h hs]
  by_cases hu : ((leased s).core s.myGang.core).unit.isSome = true
  · rw [if_pos hu] at hroom
    cases hroom
  · exact if_neg hu

theorem getF_seen (r : Reg) : getF (quantumSeen t) r = rdF s r := by
  have hearly : t.me.early = [] := by
    obtain ⟨c, -, hm, -, -, -, -, -, he, -⟩ := calm_cell (calm_of_mready h)
    rw [seen_begun_me (g := Cell.early) h hs (fun _ => rfl) fun _ => rfl, hm]
    exact he
  exact (getF_settled (t := quantumSeen t) hearly r).trans (seen_begun_me (g := fun c => c.f[r.toNat]'r.isLt) h hs (fun _ => rfl) fun _ => rfl)

theorem maskBits_seen (k : BitVec 3) : maskBits (quantumSeen t) k = maskBits (leased s) k := by
  have hreg : getM (quantumSeen t) k = getM (leased s) k :=
    (seen_begun_me (g := fun c => c.m[k.toNat]'k.isLt) h hs (fun _ => rfl) fun _ => rfl).trans (by rw [getM]; simp only [leased_me h])
  rw [maskBits, hreg, maskBits]

end

/-! ### MOPA (spec 11 R260, R261, R267 to R269) -/

/-- What the unit keeps of a MOPA that a cell issues at its first step. -/
def issuedMopa (q : Q64) (xa xa1 xb xb1 : Word) (mask : Nat) (fc : W32) (c : Cell) : MatRec :=
  { enc := q.pack, pc := c.pc, xa, xa1, xb, xb1, mocsig := c.csr.mocsig, mask, fc, step := 0, held := isHeld c, cell := c.j }

/-- A side of `n` steps passes its checks, those of its place in `u` and those of its shape in `t` (spec 11 R260, R261). -/
structure SidePasses (u t : State) (ty : Ty) (x x1 : Word) (n side : Nat) : Prop where
  pieces : checkPieces u rRead (sidePieces ty x x1 n) = .ok ()
  align : sideAlign u x x1 = .ok ()
  shape : sideShape t ty x1 side = .ok ()
  tags : t.me.csr.qfcsr.getLsbD 21 = true → sideTags t ty x x1 n = .ok ()

/-- A MOPA that has entered the unit ends its cell's turn, or keeps the cell where it is held. -/
def mopaIssued (held : Bool) (t : State) : Op Res :=
  if held then .error (.park (t.modMe fun c => { c with stage := 1 }) .matrix) else .ok (.ok t)

/-- A MOPA of the cell of `s` enters the unit in `v`. -/
def mopaEntered (s v : State) (q : Q64) (xa xa1 xb xb1 : Word) (k : BitVec 3) (fc : W32) (key : Option Nat) : State :=
  startMopa v s.myGang.core s.cur s.me.gang (issuedMopa q xa xa1 xb xb1 (maskBits (leased s) k) fc s.me) 0 key

/-- A translation changes nothing that a MOPA takes into the unit. -/
theorem mopaIssued_seen (h : mready s = true) (hs : seen (begun s 8) t) (q : Q64) (xa xa1 xb xb1 : Word) (k : BitVec 3) (banded : Bool) (c : Reg)
    (key : Option Nat) :
    let u := quantumSeen t
    mopaIssued (isHeld u.me) (startMopa u u.myGang.core u.cur u.me.gang (issuedMopa q xa xa1 xb xb1 (maskBits u k) (if banded then getF u c else 0) u.me) 0 key)
      = mopaIssued (isHeld s.me) (mopaEntered s (t.modCore s.myGang.core expireLease) q xa xa1 xb xb1 k (if banded then rdF s c else 0) key) := by
  intro u
  have hmg := seen_begun_myGang h hs
  have hu : u = t.modCore s.myGang.core expireLease := congrArg (fun g : Gang => t.modCore g.core expireLease) hmg
  have humg : u.myGang = s.myGang := hmg
  have hcur : u.cur = s.cur := (brought_seen hs).cur
  have hgang : u.me.gang = s.me.gang := seen_begun_gang (t := t) h hs
  have hheld : isHeld u.me = isHeld s.me := seen_begun_me (g := isHeld) h hs (fun _ => rfl) fun _ => rfl
  have hrec (mask : Nat) (fc : W32) : issuedMopa q xa xa1 xb xb1 mask fc u.me = issuedMopa q xa xa1 xb xb1 mask fc s.me :=
    seen_begun_me (g := issuedMopa q xa xa1 xb xb1 mask fc) h hs (fun _ => rfl) fun _ => rfl
  rw [mopaEntered, ← hu, hheld, humg, hcur, hgang, hrec, maskBits_seen h hs, getF_seen h hs]

theorem execMopa_mready (h : mready s = true) {d : Tile} (hd : declared s d = true) (hv : s.me.csr.mstate.getLsbD 63 = false) {a b : Reg}
    {xa xa1 xb xb1 : Word} (hxa : getX (begun s 8) a = xa) (hxa1 : getX (begun s 8) (a + 1) = xa1) (hxb : getX (begun s 8) b = xb)
    (hxb1 : getX (begun s 8) (b + 1) = xb1) {pair : Pair} {km1 : BitVec 12} {ocs : Bool} {key : Option Nat}
    (ha : SidePasses (begun s 8) t (pairTypes pair).1 xa xa1 (km1.toNat + 1) 0) (hb : SidePasses (begun s 8) t (pairTypes pair).2 xb xb1 (km1.toNat + 1) 1)
    (hword : ocs = true → ∃ dva, segCheck (begun s 8).myGang (begun s 8).me.csr.mocsig 8 rAtomic = .ok dva)
    (hocs : ocsTarget (begun s 8) ocs = .ok (t, key)) (c : Reg) (p : Pred) :
    execMopa d a b c km1 ocs p pair s = .next (commit 8 (Op.res (mopaIssued (isHeld s.me) (mopaEntered s (t.modCore s.myGang.core expireLease)
      (qv 0x11 0 pair.code p (treg d) a b c ((0 : BitVec 3) ++ bit1 ocs ++ km1)) xa xa1 xb xb1 p.k (if pair.banded then rdF s c else 0) key)))) := by
  subst hxa hxa1 hxb hxb1
  have hc := calm_of_mready h
  have hs := (ocsTarget_ok hocs).1
  unfold execMopa
  dsimp -zeta only
  extract_lets q n
  rw [issue_calm hc 8 _ _ _ _ (tileCheck_declared h hd), holding_nil]
  extract_lets xa xa1 xb xb1 checked
  have hchecked : checked () = mopaIssued (isHeld s.me) (mopaEntered s (t.modCore s.myGang.core expireLease) q xa xa1 xb xb1 p.k
      (if pair.banded then rdF s c else 0) key) := by
    refine (op_bind_of ha.align).trans ((op_bind_of hb.align).trans ((op_bind_of hocs).trans ((op_bind_of ha.shape).trans ((op_bind_of hb.shape).trans ?_))))
    extract_lets entered
    have hentered : entered () = mopaIssued (isHeld s.me) (mopaEntered s (t.modCore s.myGang.core expireLease) q xa xa1 xb xb1 p.k
        (if pair.banded then rdF s c else 0) key) := by
      rw [← mopaIssued_seen h hs]
      exact (op_bind_of (resumePoint_clear (by rw [seen_begun_csr h hs]; exact hv) n)).trans ((op_bind_of (needLease_seen h hs)).trans (op_bind_of (matRoom_seen h hs)))
    by_cases htags : t.me.csr.qfcsr.getLsbD 21 = true
    · exact (if_pos htags).trans ((op_bind_of (ha.tags htags)).trans ((op_bind_of (hb.tags htags)).trans hentered))
    · exact (if_neg htags).trans hentered
  refine congrArg (fun r => Host.Outcome.next (commit 8 (Op.res r))) ((op_bind_of ha.pieces).trans ((op_bind_of hb.pieces).trans ?_))
  by_cases ho : ocs = true
  · obtain ⟨dva, hdva⟩ := hword ho
    rw [if_pos ho, hdva]
    exact hchecked
  · rw [if_neg ho]
    exact hchecked

/-- Settles O33: MOP1 by its one step, MOPA by its checks and what its signal's translation leaves, MZERO and MREL by the lease that is held. -/
theorem matrixInstructions : Obligations.MatrixInstructions := by
  unfold Obligations.MatrixInstructions
  intro s s' d a b c km1 ocs p pair key h u core gid held ta tb n q side s1 rec_ s2
  have hc := calm_of_mready h
  refine ⟨fun hd ha hb hv => ?mop1, fun hd hv hpieces hocs hsa hsb => ?mopa, fun hd => execMzero_mready h hd p,
    fun ht => ⟨execMrel_mready h ht, execMrelDiscard_mready h ht⟩⟩
  case mop1 =>
    intro r w
    have hrun : exec (.mop1 d a b c p pair) s = .next (commit 8 (mop1End s d r)) := execMop1_mready h hd ha hb hv c p pair
    refine ⟨fun hn hh => ?done, fun hn hh => ?kept, fun i f hf => ?stopped⟩
    case done => rw [hrun, mop1End, hn]; exact congrArg (fun r => Host.Outcome.next (commit 8 r)) (if_neg (Bool.eq_false_iff.mp hh))
    case kept => rw [hrun, mop1End, hn]; exact congrArg (fun r => Host.Outcome.next (commit 8 r)) (if_pos hh)
    case stopped => rw [hrun, mop1End, hf]; rfl
  case mopa =>
    have hside {t : Ty} {x x1 : Word} {k : Nat} (hx : side t x x1 k) : SidePasses (begun s 8) s' t x x1 n k := by
      obtain ⟨hp, hal, hsh, htg⟩ := hx
      refine ⟨hp, hal, hsh, fun h21 => htg ?_⟩
      rwa [← seen_begun_csr h (ocsTarget_ok hocs).1]
    have hcsr : (begun s 8).me.csr = s.me.csr := by rw [begun_me hc]
    have hword (ho : ocs = true) : ∃ dva, segCheck (begun s 8).myGang (begun s 8).me.csr.mocsig 8 rAtomic = .ok dva :=
      signalWord_passes ((ocsTarget_ok hocs).2 ho) (by rw [hcsr]; exact hpieces ho)
    have hrun : exec (.mopa d a b c km1 ocs p pair) s = .next (commit 8 (Op.res (mopaIssued held s2))) :=
      execMopa_mready h hd hv (getX_calm hc 8 a) (getX_calm hc 8 (a + 1)) (getX_calm hc 8 b) (getX_calm hc 8 (b + 1)) (hside hsa) (hside hsb) hword hocs c p
    refine ⟨fun hh => ?done, fun hh => ?kept⟩
    case done => rw [hrun, hh]; rfl
    case kept => rw [hrun, hh]; rfl

end Sys2Proof.Machine
end

section
/-! The matrix unit and its lease: the lease that another gang holds, the wait list, and the steps of the unit (spec 11 R251 to R253, R263, R268,
R270; 13 R291; 20 R400). -/

open Sys2Proof Sys2Proof.Machine

namespace Sys2Proof.Machine

variable {s t : State}

/-! ### The lease (spec 11 R252, R253) -/

theorem quantumSeen_begun (h : calm s = true) : quantumSeen (begun s 8) = leased s := by
  rw [quantumSeen, begun_myGang h, leased]

/-- A gang waits for the lease of a core, once. -/
def joinLease (gid : Nat) (k : Core) : Core := if k.leaseQ.contains gid then k else { k with leaseQ := k.leaseQ ++ [gid] }

theorem needLease_other (hm : t.myGang.mrec = none) {gid : Nat} (hh : ((quantumSeen t).core t.myGang.core).holder = some gid) (hg : gid ≠ t.me.gang) :
    needLease t = .error (.park ((quantumSeen t).modCore t.myGang.core (joinLease t.me.gang)) .lease) := by
  have hrec : ¬ (quantumSeen t).myGang.mrec.isSome = true := by rw [quantumSeen_myGang, hm]; nofun
  unfold quantumSeen at hh
  refine (if_neg hrec).trans ((if_neg ?holder).trans (if_neg ?free))
  case holder =>
    rw [hh, beq_iff_eq, Option.some_inj]
    exact hg
  case free =>
    rw [hh]
    nofun

/-- A holder whose quantum is used up while others wait, with none of its instructions in the unit, loses the lease. -/
theorem expireLease_used {k : Core} {gid : Nat} (hh : k.holder = some gid) (hq : k.qleft = 0) (hw : k.leaseQ ≠ []) (hu : unitOf k gid = false) :
    expireLease k = { k with holder := none } := by
  have hsome : k.leaseQ.isEmpty = false := by simpa using hw
  rw [expireLease, hh]
  exact if_pos (by rw [hq, hsome, hu]; decide)

/-- An instruction whose body parks leaves its cell waiting. -/
theorem issue_parks (h : calm s = true) {early : Early} {srcs : List Dst} {body : State → Op Res} {w : Wait} (he : early (begun s 8) = none)
    (hb : body (begun s 8) = .error (.park t w)) : issue 8 early srcs [] (fun s => Op.res (body s)) s = .next (waiting t w) := by
  rw [issue_calm h 8 _ _ _ _ he, holding_nil, hb]
  rfl

/-- A declared tile passes its check in a calm cell. -/
theorem tileCheck_calm (h : calm s = true) {d : Tile} (hd : declared s d = true) : tileCheck d (begun s 8) = none := by
  rw [tileCheck, begun_myGang h]
  exact if_pos hd

theorem execMzero_other (h : calm s = true) {d : Tile} (hd : declared s d = true) (p : Pred) (hm : s.myGang.mrec = none) {gid : Nat}
    (hh : ((leased s).core s.myGang.core).holder = some gid) (hg : gid ≠ s.me.gang) :
    execMzero d p s = .next (waiting ((leased s).modCore s.myGang.core (joinLease s.me.gang)) .lease) := by
  have hme : (begun s 8).me.gang = s.me.gang := by rw [begun_me h]
  have hlease := needLease_other (t := begun s 8) (by rw [begun_myGang h]; exact hm) (by rw [quantumSeen_begun h, begun_myGang h]; exact hh) (by rw [hme]; exact hg)
  rw [quantumSeen_begun h, begun_myGang h, hme] at hlease
  refine issue_parks h (tileCheck_calm h hd) ?_
  rw [hlease]
  rfl

/-- The gang at the head of the wait list takes the free lease with the quantum of its first cell that waits. -/
theorem execLeaseAcquire_head {core gid c : Nat} {rest cs : List Nat} (hq : (s.core core).leaseQ = gid :: rest) (hh : (s.core core).holder = none)
    (hu : (s.core core).unit = none) (hm : (s.gang gid).mrec = none) (hi : imageRefused s core gid = none)
    (hw : (s.gang gid).cells.filter (fun c => (s.cell c).run == .parked .lease) = c :: cs) :
    execLeaseAcquire core s = .next (wakeLease (acquire s core gid (s.cell c).csr.leaseq.toNat) gid) := by
  unfold execLeaseAcquire
  dsimp only
  rw [hq]
  dsimp only
  rw [hh, hu, hi, hm, hw]
  rfl

/-! ### The operands-consumed point (spec 11 R263, R268; 13 R291; 20 R400) -/

/-- What the steps of a MOPA come to: a stop traps at its row and frees the unit, or the operands are consumed. -/
def mopaEnd (core : Nat) (u : MUnit) (r : MatRec) (run : State × Option (Nat × Nat × Fl)) : State :=
  match run.2 with
  | some (k, i, h) => heldTrap (freeGang (run.1.modCore core fun c => { c with unit := none }) u.gang u.cell) u.cell r.pc k i h
  | none => mopaConsumed run.1 core u r

/-- A MOPA whose signal nothing holds up has consumed its operands; of a retired gang it is the decrement alone. -/
theorem execMopaOperandsConsumed_ready {core : Nat} {u : MUnit} {r : MatRec} (hu : (s.core core).unit = some u) (hr : u.mopa = some r)
    (hc : u.consumed = false) (hw : u.ocs.isSome = true → outstandingTo s u.cell u.gang false (some u.mark) = false) :
    execMopaOperandsConsumed core s = .next (if (s.gang u.gang).st = .retired then mopaConsumed s core u r
      else mopaEnd core u r (runMopa s core 4096 u r)) := by
  have hready : ¬ (u.ocs.isSome && outstandingTo s u.cell u.gang false (some u.mark)) = true := by
    rw [Bool.and_eq_true]
    exact fun ⟨ho, hout⟩ => absurd ((hw ho).symm.trans hout) nofun
  unfold execMopaOperandsConsumed
  rw [hu]
  dsimp only
  rw [hr, hc]
  dsimp only
  rw [if_neg hready]
  by_cases hg : (s.gang u.gang).st = .retired
  · rw [if_pos hg, if_pos (beq_iff_eq.mpr hg)]
  · rw [if_neg hg, if_neg (by rwa [beq_iff_eq])]
    obtain ⟨t, _ | ⟨k, i, f⟩⟩ := runMopa s core 4096 u r <;> rfl

/-! ### An instruction leaves the unit (spec 11 R253, R270) -/

/-- The unit is free again, and the quantum counts the instruction. -/
def unitLeft (s : State) (core : Nat) (u : MUnit) : State :=
  (endLoad s core u).modCore core fun k => { k with unit := none, qleft := if u.counts && k.holder == some u.gang then k.qleft - 1 else k.qleft }

/-- An instruction that leaves the unit lets the cells that it kept go on. -/
theorem execMatrixInstructionComplete_consumed {core : Nat} {u : MUnit} (hu : (s.core core).unit = some u) (hc : u.consumed = true) :
    execMatrixInstructionComplete core s = .next (
      if u.mopa.isSome then
        if (s.cell u.cell).gang == u.gang then freeHeld (freeGang (unitLeft s core u) u.gang u.cell) u.cell else freeGang (unitLeft s core u) u.gang u.cell
      else if (s.cell u.cell).gang == u.gang && (s.cell u.cell).stage == 1 then freeHeld (unitLeft s core u) u.cell else unitLeft s core u) := by
  unfold execMatrixInstructionComplete
  rw [hu]
  exact if_pos hc

/-- Settles O35: the lease by its holder and its wait list, and the unit by what it holds. -/
theorem matrixUnitAndLease : Obligations.MatrixUnitAndLease := by
  unfold Obligations.MatrixUnitAndLease
  intro s core d p
  refine ⟨fun gid h hd hm hh hg => execMzero_other h hd p hm hh hg, rfl, fun gid => expireLease_used, fun gid rest hq hh hu hm hi c cs hw =>
    execLeaseAcquire_head hq hh hu hm hi hw, fun u r hu hr hc hw => ?consumed, fun u hu hc => ?complete⟩
  case consumed =>
    have hready := execMopaOperandsConsumed_ready hu hr hc hw
    refine ⟨fun hg => ?retired, fun hg hn => ?applied, fun k i h hg hs => ?stopped⟩
    case retired => exact hready.trans (by rw [if_pos hg]; rfl)
    case applied => exact hready.trans (by rw [if_neg hg, mopaEnd, hn]; rfl)
    case stopped => exact hready.trans (by rw [if_neg hg, mopaEnd, hs])
  case complete =>
    have hleft := execMatrixInstructionComplete_consumed hu hc
    refine ⟨fun hm => ?mopa, fun hm => ?other⟩
    case mopa => exact hleft.trans (congrArg Host.Outcome.next ((if_pos hm).trans (if_congr beq_iff_eq rfl rfl)))
    case other =>
      have hnone : ¬ u.mopa.isSome = true := by rw [hm]; nofun
      have hmine : ((s.cell u.cell).gang == u.gang && (s.cell u.cell).stage == 1) = true ↔ (s.cell u.cell).gang = u.gang ∧ (s.cell u.cell).stage = 1 := by
        rw [Bool.and_eq_true, beq_iff_eq, beq_iff_eq]
      exact hleft.trans (congrArg Host.Outcome.next ((if_neg hnone).trans (if_congr hmine rfl rfl)))

end Sys2Proof.Machine
end

section
/-! Taking a trap (spec 18 R368 to R373). -/

open Sys2Proof Sys2Proof.Machine

namespace Sys2Proof.Machine

/-- A trap of an instruction that popped and reserved nothing. -/
theorem trapped_of_find {s : State} {c : Cell} (hc : Tab.find s.cells s.cur = some c) (hl : c.latch = []) (hp : c.pushed = [])
    (len cause : Nat) (tval : Word) :
    trapped s len cause tval = takeTrap (s.modMe fun c => { c with latch := [] }) s.cur
      { cause, tval, epc := c.pc, ilen := len, async := false, vrec := none, mrec := false } := by
  show takeTrap (unlatch s s.cur) (unlatch s s.cur).cur { cause, tval, epc := (unlatch s s.cur).me.pc, .. } = _
  rw [unlatch_nil hc hl hp]
  show takeTrap (s.modMe _) s.cur { cause, tval, epc := (s.modMe _).me.pc, .. } = _
  rw [modMe_me hc]

/-- A trap at level 2 kills the gang with K_TRIPLE. -/
theorem takeTrap_triple {s : State} {k : Nat} {c : Cell} (hc : Tab.find s.cells k = some c) (hlev : 2 ≤ c.tlev) (t : TrapInfo) :
    ∃ b1 b2 b3, takeTrap s k t = killGang s c.gang 0x80 t.tval k b1 b2 b3 := by
  unfold takeTrap
  simp only [cell_of_find hc, ge_iff_le, hlev, if_true]
  exact ⟨_, _, _, rfl⟩

/-- HEIR_SHAPE without a handler retires the gang. -/
theorem takeTrap_heirShape {s : State} {k : Nat} {c : Cell} (hc : Tab.find s.cells k = some c) (hlev : c.tlev < 2) (htv : c.csr.ttvec = 0)
    {t : TrapInfo} (ht : t.cause = cHEIR_SHAPE) :
    takeTrap s k t
      = retireGang (s.modLaunch (s.gang c.gang).launch fun l => { l with heirShape := some (l.heirShape.getD t.tval) }) c.gang := by
  unfold takeTrap
  simp only [cell_of_find hc, ge_iff_le, Nat.not_le.mpr hlev, if_false, htv, ht, if_true]

/-- Any other trap without a handler kills the gang with its cause and value. -/
theorem takeTrap_unhandled {s : State} {k : Nat} {c : Cell} (hc : Tab.find s.cells k = some c) (hlev : c.tlev < 2) (htv : c.csr.ttvec = 0)
    {t : TrapInfo} (ht : t.cause ≠ cHEIR_SHAPE) :
    ∃ b1 b2 b3, takeTrap s k t = killGang s c.gang t.cause t.tval k b1 b2 b3 := by
  unfold takeTrap
  simp only [cell_of_find hc, ge_iff_le, Nat.not_le.mpr hlev, if_false, htv, ht, if_true]
  exact ⟨_, _, _, rfl⟩

/-- Settles O17: the trap is entered from the cell with nothing popped, whose other parts `enterTrap` reads as they were. -/
theorem trapEntry : Obligations.TrapEntry := by
  intro s c len cause tval hc hl hp hlev htv hv hlen hloops t st
  let s' := s.modMe fun c => { c with latch := [] }
  let info : TrapInfo := { cause, tval, epc := c.pc, ilen := len, async := false, vrec := none, mrec := false }
  have hs' : Tab.find s'.cells s'.cur = some { c with latch := [] } := find_modCell_self hc _
  have ht : t = { s'.modMe fun c => enterTrap c info with freeCtr := s.freeCtr + 1 } :=
    (trapped_of_find hc hl hp len cause tval).trans (takeTrap_enters hs' hlev htv hv)
  have hme : t.me = enterTrap { c with latch := [] } info := by rw [ht]; exact modMe_me hs' _
  have hst : tstatOf c.tlev c.loops.length info = st := by
    simp only [tstatOf, info, st, b2n, Option.isSome_none, Bool.false_eq_true, if_false]
    congr 1
  refine ⟨?_, ?_, ?_, ?_⟩
  · rw [hme, ← hst]; rfl
  · rw [hme]; rfl
  · rw [ht]; rfl
  · intro d hd
    rw [ht]
    exact (modMe_other s' _ hd).trans (modMe_other s _ hd)

/-- Settles O18: the cases of a trap that has no handler to go to. -/
theorem trapWithoutHandler : Obligations.TrapWithoutHandler := by
  intro s c len cause tval hc hl hp s'
  have hme : Tab.find s'.cells s.cur = some { c with latch := [] } := find_modCell_self hc _
  have ht := trapped_of_find hc hl hp len cause tval
  refine ⟨fun hlev htv hcause => ?_, fun hlev htv hcause => ?_, fun hlev => ?_⟩
  · exact ht.trans (takeTrap_heirShape hme hlev htv hcause)
  · obtain ⟨b1, b2, b3, h⟩ := takeTrap_unhandled (t := { cause, tval, epc := c.pc, ilen := len, async := false, vrec := none, mrec := false }) hme hlev htv hcause
    exact ⟨b1, b2, b3, ht.trans h⟩
  · obtain ⟨b1, b2, b3, h⟩ := takeTrap_triple hme hlev { cause, tval, epc := c.pc, ilen := len, async := false, vrec := none, mrec := false }
    exact ⟨b1, b2, b3, ht.trans h⟩

/-- The carry of a discarded refusal is bit 63 of the value. -/
theorem carry_bit (p : Bool) : (BitVec.ofNat 64 (b2n p * 2 ^ 63) : Word) = if p then 1 <<< 63 else 0 := by
  cases p <;> rfl

/-- Settles O20: the pending trap is entered from the cell with nothing popped and its oldest trap taken. -/
theorem asynchronousTraps : Obligations.AsynchronousTraps := by
  intro s k c a rest hc hrun hlev has hl hp hrep htv hv hloops
  let c1 : Cell := { c with latch := [], asyncs := rest, povf := false }
  let info : TrapInfo := { cause := a.cause, tval := a.tval ||| BitVec.ofNat 64 (b2n c.povf * 2 ^ 63), epc := c.pc, ilen := 0, async := true, vrec := none, mrec := false }
  let s1 := s.modCell k fun c => { c with latch := [] }
  let s2 := s1.modCell k fun c => { c with asyncs := rest, povf := false }
  have hf1 : Tab.find s1.cells k = some { c with latch := [] } := find_modCell_self hc _
  have hf2 : Tab.find s2.cells k = some c1 := find_modCell_self hf1 _
  have hexec : exec (.asyncTrapDelivery k) s = .next (takeAsync s1 k) := by
    show execAsyncTrapDelivery k s = _
    unfold execAsyncTrapDelivery
    rw [unlatch_nil hc hl hp]
    simp only [hc]
    simp [hrun, hlev, has, hrep, s1]
  have htake : takeAsync s1 k = takeTrap s2 k info := by
    unfold takeAsync
    simp only [cell_of_find hf1, has]; rfl
  have henter : takeTrap s2 k info = { s2.modCell k fun c => enterTrap c info with freeCtr := s2.freeCtr + 1 } :=
    takeTrap_enters hf2 (by show c.tlev < 2; omega) htv hv
  have hcell : (takeTrap s2 k info).cell k = enterTrap c1 info := by
    rw [henter]
    exact cell_of_find (find_modCell_self hf2 _)
  have hst : tstatOf c.tlev c.loops.length info = BitVec.ofNat 64 (4 + 2 ^ 16 * c.loops.length) := by
    simp only [tstatOf, info, b2n, hlev, Option.isSome_none, Bool.false_eq_true, if_false, if_true]
    congr 1
  refine ⟨takeAsync s1 k, hexec, ?_⟩
  rw [htake]
  refine ⟨?_, ?_, ?_, ?_, ?_, ?_, ?_, ?_, ?_⟩
  · rw [hcell]; rfl
  · rw [hcell]; show c.tlev + 1 = 1; omega
  · rw [hcell]; rfl
  · rw [hcell, ← carry_bit, ← hst]
    show (if c.tlev = 0 then _ else _) = _
    rw [if_pos hlev]
  · rw [hcell]; rfl
  · rw [hcell]; rfl
  · rw [hcell]; rfl
  · intro d hd
    rw [henter]
    show Tab.getD (Tab.adjust (Tab.adjust (Tab.adjust s.cells k _) k _) k _) d _ = _
    simp only [Tab.getD, Tab.find_adjust_ne _ _ hd]
    rfl
  · rw [henter]; rfl

end Sys2Proof.Machine
end

section
/-! The kill sequence of a state whose management registers list one twice (spec 18 R380, R393). -/

open Sys2Proof Sys2Proof.Machine

namespace Sys2Proof.Machine

/-- A running gang of a launch, the fault ring off, and the count of lost reports listed twice: at its largest value, and at 1. -/
def lostTwice : State :=
  { gangs := [(0, { Gang.empty with st := .running })], launches := [(0, default)], mgmt := [(0x720, BitVec.allOnes 64), (0x720, 1)] }

/-- The gang of `lostTwice`, killed. -/
def lostTwiceKilled : State := killGang lostTwice 0 0x80 0 0 0 0 0

theorem lostTwice_ring_off : (lostTwice.mreg 0x708).getLsbD 63 = false := by decide

/-- The count wraps to its reset value, which is not listed: the first entry goes, and the second one shows. -/
theorem lostTwiceKilled_count : lostTwiceKilled.mreg 0x720 ≠ lostTwice.mreg 0x720 + 1 := by decide

/-- Refutes O19: no hypothesis lets each management register stand once in its table, and the count of lost reports that wraps to its reset
value shows the entry behind it. A table in the canonical form lists no register twice. -/
theorem not_killSequence : ¬ Obligations.KillSequence := by
  intro h
  obtain ⟨-, -, -, -, -, -, -, -, -, hlost⟩ := h lostTwice 0 0x80 0 0 0 0 0 _ _ rfl rfl (by decide) (by decide)
  exact lostTwiceKilled_count (hlost (.inl lostTwice_ring_off)).2

end Sys2Proof.Machine
end

section
/-! RETIRE, RETIRE.H and the hand-over to an heir (spec 20). -/

open Sys2Proof Sys2Proof.Machine

namespace Sys2Proof.Machine

theorem begun_asyncs {s : State} (h : calm s = true) (n : Nat) : (begun s n).me.asyncs = s.me.asyncs := by rw [begun_me h]

theorem begun_me_gang {s : State} (h : calm s = true) (n : Nat) : (begun s n).me.gang = s.me.gang := by rw [begun_me h]

/-- A RETIRE waits for its copies and its registers. -/
theorem retireWaits_parks {t : State} (hw : copiesLeft t t.cur = true ∨ allFull t t.cur = false) : retireWaits t = .error (.park t .copies) := by
  unfold retireWaits
  rw [if_pos]
  rcases hw with hw | hw <;> simp [hw]

/-- A RETIRE with nothing to wait for and no trap pending goes on. -/
theorem retireWaits_passes {t : State} (hc : copiesLeft t t.cur = false) (hf : allFull t t.cur = true) (ha : t.me.asyncs = []) :
    retireWaits t = .ok () := by
  unfold retireWaits
  rw [if_neg (by simp [hc, hf]), if_neg (by simp [ha])]

section
variable {s : State} (h : calm s = true)
include h

theorem exec_retire_waits (hw : copiesLeft (begun s 8) s.cur = true ∨ allFull (begun s 8) s.cur = false) :
    exec .retire s = .next (waiting (begun s 8) .copies) := by
  rw [exec_retire]
  unfold execRetire
  rw [issue_calm h 8 noEarlyCheck [] [] _ rfl, holding_nil, retireWaits_parks hw]
  rfl

variable (hc : copiesLeft (begun s 8) s.cur = false) (hf : allFull (begun s 8) s.cur = true) (ha : s.me.asyncs = [])
include hc hf ha

/-- The turn of a RETIRE that starts the cell's next item. -/
theorem exec_retire_restarts {w : Nat} (hn : nextWid (countItem (begun s 8)) = some w) :
    exec .retire s = .next (commit 8 (ended (restart (countItem (begun s 8)) w))) := by
  rw [exec_retire]
  unfold execRetire
  rw [issue_calm h 8 noEarlyCheck [] [] _ rfl, holding_nil, retireWaits_passes hc hf ((begun_asyncs h 8).trans ha)]
  simp only [op_bind_ok, hn]
  rfl

/-- The turn of a RETIRE that ends its cell. -/
theorem exec_retire_ends {t : State} (hn : nextWid (countItem (begun s 8)) = none)
    (ht : t = (haltCell (countItem (begun s 8))).modGang s.me.gang fun g => { g with claim := none, plain := true }) :
    exec .retire s = .next (commit 8 (ended (if allEnded t s.me.gang then retireGang t s.me.gang else barDepart t s.me.gang))) := by
  have hg : (countItem (begun s 8)).me.gang = s.me.gang := begun_me_gang h 8
  subst ht
  rw [exec_retire]
  unfold execRetire
  rw [issue_calm h 8 noEarlyCheck [] [] _ rfl, holding_nil, retireWaits_passes hc hf ((begun_asyncs h 8).trans ha)]
  simp only [op_bind_ok, hn, hg]
  rfl

end

/-- Settles O42: the branches of RETIRE in the state where its turn has begun. -/
theorem retirement : Obligations.Retirement := by
  intro s h u t halted
  refine ⟨exec_retire_waits h, fun hc hf ha => ⟨fun w hn => ⟨exec_retire_restarts h hc hf ha hn, ?_⟩, fun hn => ⟨?_, ?_, ?_⟩⟩⟩
  · show Tab.getD (Tab.put t.cells s.cur (t.me.keepView _)) s.cur _ = _
    rw [show t.me = { s.me with ilen := 8 } from begun_me h 8]
    simp only [Tab.getD, Tab.find_put_self]
    rfl
  · obtain ⟨c, hcell⟩ := begun_find h 8
    show (haltCell t).me.run = .done
    unfold haltCell
    rw [modMe_me (s := t) hcell]
  · intro he
    rw [exec_retire_ends h hc hf ha hn rfl, if_neg (by rw [he]; decide)]
    rfl
  · intro he
    rw [exec_retire_ends h hc hf ha hn rfl, if_pos he]
    rfl

/-- What makes a RETIRE.H of a calm cell claim the heir: nothing is left to wait for, its descriptor's address is good, no item of its cell
is left, and no other end of its gang's cells stands against it. -/
structure Claims (s : State) (a : Reg) (dva : Nat) : Prop where
  calm : calm s = true
  copies : copiesLeft (begun s 8) s.cur = false
  full : allFull (begun s 8) s.cur = true
  asyncs : s.me.asyncs = []
  place : segCheck s.myGang (rdX s a) 128 rRead = .ok dva
  aligned : (rdX s a).toNat % 64 = 0
  last : nextWid (begun s 8) = none
  free : s.myGang.claim = none ∧ s.myGang.plain = false ∨ s.myGang.claim = some (BitVec.ofNat 64 dva)

/-- The state in which the gang of the current cell has claimed the heir of a descriptor. -/
def claimed (s : State) (dva : Nat) : State := (begun s 8).modGang s.me.gang fun g => { g with claim := some (BitVec.ofNat 64 dva) }

/-- The other cells of a gang are as they were when one of them claims its heir. -/
theorem claimed_others {s : State} {dva : Nat} : (s.myGang.cells.any fun c => c != s.cur && ((claimed s dva).cell c).run != .done) = true
    ↔ ∃ c ∈ s.myGang.cells, c ≠ s.cur ∧ (s.cell c).run ≠ .done := by
  have hcell : ∀ c, c ≠ s.cur → (claimed s dva).cell c = s.cell c := fun c hc => modMe_other s _ hc
  simp only [List.any_eq_true, Bool.and_eq_true, bne_iff_ne]
  constructor
  · rintro ⟨c, hm, hc, hr⟩
    exact ⟨c, hm, hc, hcell c hc ▸ hr⟩
  · rintro ⟨c, hm, hc, hr⟩
    exact ⟨c, hm, hc, (hcell c hc).symm ▸ hr⟩

section
variable {s : State} {a : Reg} {dva : Nat} (h : Claims s a dva)
include h

theorem claim_stands :
    ((s.myGang.claim.isNone && s.myGang.plain) || (s.myGang.claim.isSome && s.myGang.claim != some (BitVec.ofNat 64 dva))) = false := by
  rcases h.free with ⟨hc, hp⟩ | hc
  · simp [hc, hp]
  · simp [hc]

/-- Where another cell of its gang has not ended, a RETIRE.H ends its own cell. -/
theorem exec_retireH_claims (ho : ∃ c ∈ s.myGang.cells, c ≠ s.cur ∧ (s.cell c).run ≠ .done) :
    exec (.retireH a) s = .next (commit 8 (ended (haltCell (countItem (claimed s dva))))) := by
  rw [exec_retireH]
  unfold execRetireH
  rw [issue_calm h.calm 8 noEarlyCheck [.x a] [] _ rfl, holding_nil,
    retireWaits_passes h.copies h.full ((begun_asyncs h.calm 8).trans h.asyncs)]
  simp only [op_bind_ok, getX_calm h.calm, begun_gang h.calm, h.place, h.aligned, h.last, begun_me_gang h.calm, claim_stands h, bne_self_eq_false,
    Bool.false_eq_true, if_false, Option.isSome_none]
  split
  case isTrue => rfl
  case isFalse hno => exact absurd (claimed_others.mpr ho) hno

/-- The gang's last cell goes on with its heir's descriptor and header. -/
theorem exec_retireH_last (ho : ∀ c ∈ s.myGang.cells, c ≠ s.cur → (s.cell c).run = .done) {t : State} {d : List Byte} {hd : Hdr}
    (hr : readHeir (claimed s dva) (rdX s a) dva = .ok (t, d, hd)) :
    (∀ o, heirBad d = some o → exec (.retireH a) s = .next (commit 8 (heirFail t 1 o)))
    ∧ (heirBad d = none → ∀ code x, heirTest t s.me.gang d hd = some (code, x) → exec (.retireH a) s = .next (commit 8 (heirFail t code x)))
    ∧ (heirBad d = none → heirTest t s.me.gang d hd = none → exec (.retireH a) s = .next (commit 8 (ended ((haltCell (countItem t)).modGang s.me.gang
        fun g => { g with ordered := g.st == .landing, st := .handover, heir := some (d, heirHdr g.hdr hd) })))) := by
  have hno : ¬ ∃ c ∈ s.myGang.cells, c ≠ s.cur ∧ (s.cell c).run ≠ .done := fun ⟨c, hm, hc, hne⟩ => hne (ho c hm hc)
  rw [exec_retireH]
  unfold execRetireH
  rw [issue_calm h.calm 8 noEarlyCheck [.x a] [] _ rfl, holding_nil,
    retireWaits_passes h.copies h.full ((begun_asyncs h.calm 8).trans h.asyncs)]
  simp only [op_bind_ok, getX_calm h.calm, begun_gang h.calm, h.place, h.aligned, h.last, begun_me_gang h.calm, claim_stands h, bne_self_eq_false,
    Bool.false_eq_true, if_false, Option.isSome_none]
  split
  case isTrue hyes => exact absurd (claimed_others.mp hyes) hno
  case isFalse =>
    unfold claimed at hr
    rw [hr]
    refine ⟨fun o hb => ?_, fun hb code x ht => ?_, fun hb ht => ?_⟩
    · simp only [op_bind_ok, hb]; rfl
    · simp only [op_bind_ok, hb, ht]; rfl
    · simp only [op_bind_ok, hb, ht]; rfl

end

/-- The hand-over is performed where it is ordered and the predecessor's work is done. -/
theorem execHeirHandover_ordered {s : State} {gid : Nat} {d : List Byte} {hd : Hdr} (hh : (s.gang gid).heir = some (d, hd)) (hst : (s.gang gid).st = .handover)
    (hb : handoverBusy s gid = false) : exec (.heirHandover gid) s = .next (handOver s gid d hd) := by
  show execHeirHandover gid s = _
  unfold execHeirHandover
  simp only [hh, hst, hb, beq_self_eq_true, Bool.not_false, Bool.and_self, if_true]

theorem passed_get {n w : Nat} (mask : Nat) (old new : Vector (BitVec w) n) (i : Fin n) :
    (passed mask old new)[i] = if bit mask i then old[i] else new[i] := by
  unfold passed
  simp

section
variable {s : State} {handle : Nat} {o : Obj} {g : Nat} (ho : Tab.find s.objects handle = some o) (hg : o.ugen = some g) (hn : noOlder s o g = true)
include ho hg hn

/-- The range of an object that is unmapped and has no older launch left is released. -/
theorem execObjectRangeRelease_last (hu : o.unmapped = true) :
    exec (.objectRangeRelease handle) s = .next { s with objects := Tab.del s.objects handle } := by
  show execObjectRangeRelease handle s = _
  unfold execObjectRangeRelease
  simp only [ho, hg, hn, hu, Bool.and_self, if_true]

/-- In generation mode an object with no older launch left is unmapped, once. -/
theorem execGenerationUnmap_last (hgen : o.gen = true) (hu : o.unmapped = false) :
    exec (.generationUnmap handle) s = .next ((unmapObject s o).modObj handle fun o => { o with unmapped := true }) := by
  show execGenerationUnmap handle s = _
  unfold execGenerationUnmap
  simp only [ho, hg, hn, hgen, hu, Bool.not_false, Bool.and_self, if_true]

end

/-- Settles O43: RETIRE.H by whether its cell is the gang's last, the hand-over by its registers, the objects by their states. -/
theorem heirsAndObjects : Obligations.HeirsAndObjects := by
  intro s a dva gid handle
  refine ⟨fun hcalm => ?_, fun d h hh hst hb => execHeirHandover_ordered hh hst hb, fun d h c i => ?_,
    fun o g ho hg hn => ⟨execObjectRangeRelease_last ho hg hn, execGenerationUnmap_last ho hg hn⟩⟩
  · intro u hc hf ha hseg hal hn hcl v ended
    have claims : Claims s a dva := ⟨hcalm, hc, hf, ha, hseg, hal, hn, hcl⟩
    exact ⟨exec_retireH_claims claims, fun hothers t d h hr => exec_retireH_last claims hothers hr⟩
  · intro n
    exact ⟨passed_get .., passed_get .., passed_get .., rfl, rfl⟩

end Sys2Proof.Machine
end

section
/-! The links, requests to host and peer memory without an answer, and the accesses of peers (spec 14 R327 to R331; 07 R176; 00 R2). -/

open Sys2Proof Sys2Proof.Machine

namespace Sys2Proof.Machine

variable {s : State} {fin seq last station cell core i : Nat} {dva : Word}

/-! ### UCIe ends -/

/-- A flit reaches an end that is in use, and is not more than the 128 kept flits ahead. -/
structure Receives (s : State) (fin seq : Nat) : Prop where
  isEnd : fin < 40
  on : (s.link fin).off = false
  trained : (s.link fin).retraining = false
  kept : seq < (s.link fin).rxNext + 128

/-- What a flit does at an end that can receive it. -/
theorem execFlitReceive_of (h : Receives s fin seq) (good : Bool) {again : Bool}
    (ha : again = ((s.link fin).again && seq != (s.link fin).rxNext)) :
    execFlitReceive fin seq good s = .next (
      let far := farEnd fin
      let s1 := s.modLink far fun l => if again then sentAgain l seq else sentUpTo l seq
      if good && seq == (s.link fin).rxNext then
        ((s1.modLink fin fun l => { l with rxNext := seq + 1, nak := none, naks := 0, again := false }).modLink far fun l =>
          { l with replay := l.replay.filter fun n => decide (seq < n) }).emit (.ack fin seq true)
      else
        let s2 := if good then s1 else s1.modLink fin fun l => { l with crcerr := satInc 32 l.crcerr }
        if (s.link fin).nak.isNone && !again then
          (s2.modLink fin fun l => { l with nak := some l.rxNext, naks := l.naks + 1, again := false }).emit (.ack fin ((s.link fin).rxNext - 1) false)
        else s2) := by
  subst ha
  unfold execFlitReceive isEnd
  simp only [decide_eq_true h.isEnd, h.on, h.trained, decide_eq_false (Nat.not_le.mpr h.kept), Bool.not_true, Bool.or_self, Bool.false_eq_true, if_false]

/-- A flit that is due, or that no replay sends again, is no late one. -/
theorem not_late {again : Bool} {n : Nat} (h : again = false ∨ seq = n) : false = (again && seq != n) := by
  rcases h with h | h <;> simp [h]

/-- A retraining starts where its cause is there and none is under way. -/
theorem execLinkRetrain_of (h : fin < 40) (hon : (s.link fin).off = false) (ht : (s.link fin).retraining = false) {why : RetrainCause}
    (hw : ∀ n, why = .nak n → 8 ≤ (s.link (farEnd fin)).naks ∧ (s.link (farEnd fin)).rxNext = n) :
    execLinkRetrain fin why s = .next ((s.modLink fin retrainEnd).modLink (farEnd fin) retrainEnd) := by
  unfold execLinkRetrain isEnd
  cases why with
  | lock => simp [h, hon, ht]
  | nak n =>
    obtain ⟨h8, hn⟩ := hw n rfl
    simp [h, hon, ht, h8, hn]

/-- A retraining ends with all the lanes, with half of them, or with the module disabled; the latter two are reported. -/
theorem execRetrainDone_of (h : fin < 40) (ht : (s.link fin).retraining = true) {up : Bool → State}
    (hup : ∀ half, up half = (s.modLink fin (trainedEnd half (s.link (farEnd fin)).rxNext)).modLink (farEnd fin) (trainedEnd half (s.link fin).rxNext)) :
    execRetrainDone fin .full s = .next (up false)
    ∧ execRetrainDone fin .half s = .next (postReport (up true) 5 fin 0 noCell 0 0 0 0 0)
    ∧ execRetrainDone fin .off s = .next (postReport (disableEnd (disableEnd s fin) (farEnd fin)) 5 fin 0 noCell 0 0 0 0 0) := by
  have hgo : (!isEnd fin || !(s.link fin).retraining) = false := by simp [isEnd, h, ht]
  unfold execRetrainDone
  simp only [hgo, hup, Bool.false_eq_true, if_false, and_self]

/-! ### Requests without an answer -/

/-- The state in which a request to a peer, sent at `sent`, has its limit passed and is counted at its station. -/
def overdue (s : State) (station sent : Nat) : State :=
  (s.timeTo (sent + 1000 * (s.mreg 0x5A00).toNat)).modStation station fun x => { x with tmo := satInc 32 x.tmo }

theorem execUalinkTimeout_of {r : FabricReq} (hs : stationOf r < 32) {t : State} (h : noAnswer (overdue s (stationOf r) (sentAt s r)) Home.isPeer r = some t) :
    execUalinkTimeout r s = .next t := by
  unfold execUalinkTimeout
  rw [if_pos hs]
  show Host.Outcome.next ((noAnswer (overdue s (stationOf r) (sentAt s r)) Home.isPeer r).getD s) = _
  rw [h]; rfl

theorem execPcieCompletionTimeout_of {r : FabricReq} {t : State} (h : noAnswer s Home.isHost r = some t) :
    execPcieCompletionTimeout r s = .next t := by
  unfold execPcieCompletionTimeout
  rw [h]; rfl

/-- A cell that is parked at host or peer memory waits there, at its access's DVA. -/
theorem fabricWait_parked {c : Cell} {home : Home} {a m : Nat} {ea : Word} {acq : Option Scope} (hc : Tab.find s.cells cell = some c)
    (hr : c.run = .parked (.fabric home a ea m acq)) (hd : dva = BitVec.ofNat 64 (eaDva (s.gang c.gang) ea)) (p : Home → Bool) :
    fabricWait s cell dva p = p home := by
  unfold fabricWait State.gangOf
  rw [hc, Option.map_some, hr, cell_of_find hc]
  simp [hd]

/-- A cell's request that ends without an answer kills its gang. -/
theorem noAnswer_parked {c : Cell} {p : Home → Bool} (hc : Tab.find s.cells cell = some c) (hw : fabricWait s cell dva p = true) :
    noAnswer s p (.cell cell dva station) = some (killPlain s c.gang 0x84 dva cell) := by
  unfold noAnswer
  simp only [hw, if_true, cell_of_find hc]

/-- What is sent to a peer for a cell or a unit goes to a peer. -/
theorem peerPost_isPeer {w : Post} (h : peerPost s cell dva = some w) : w.home.isPeer = true := by
  have := List.find?_some h
  simp only [Bool.and_eq_true] at this
  exact this.1.2

theorem fabricWait_overdue (sent : Nat) (p : Home → Bool) : fabricWait (overdue s station sent) cell dva p = fabricWait s cell dva p := rfl

theorem peerPost_overdue (sent : Nat) : peerPost (overdue s station sent) cell dva = peerPost s cell dva := rfl

theorem tensorPieces_overdue (sent : Nat) (c : Copy) : tensorPieces (overdue s station sent) c = tensorPieces s c := rfl

theorem fabricAt_overdue (sent : Nat) (c : Copy) : fabricAt (overdue s station sent) c dva = fabricAt s c dva := by
  unfold fabricAt
  rw [tensorPieces_overdue]

theorem moving_overdue (sent : Nat) (c : Copy) : c.moving (overdue s station sent) = c.moving s := rfl

/-- A copy's request that ends without an answer fails the copy. -/
theorem noAnswer_copy {c : Copy} {p : Home → Bool} {home : Home} (hi : (s.core core).copies[i]? = some c) (hm : c.moving s = true)
    (hf : fabricAt s c dva = some home) (hp : p home = true) :
    noAnswer s p (.copy core i dva station) = some (failCopy s core c (.fabric dva station)) := by
  unfold noAnswer
  simp only [hi, hm, hf, hp, if_true]

/-! ### Fabric peers -/

/-- A peer's request within memory that meets no refused line is performed. -/
theorem peerAt_performed {pa n : Nat} (hr : s.ready = true) (hn : pa + n ≤ 2 ^ 39) {reads : Bool} (hl : reads = true → s.refusedIn pa n = none)
    (f : State → State × List Byte) : peerAt s pa n reads f = (f s).1.emit (.peerReply true (f s).2) := by
  have hline : (if reads = true then s.refusedIn pa n else none) = none := by
    split
    case isTrue h => exact hl h
    case isFalse => rfl
  unfold peerAt
  rw [if_neg (by simp [hr]; omega), hline]

/-- One that leaves memory is refused. -/
theorem peerAt_beyond {pa n : Nat} (hn : 2 ^ 39 < pa + n) (reads : Bool) (f : State → State × List Byte) :
    peerAt s pa n reads f = s.emit (.peerReply false []) := by
  unfold peerAt
  rw [if_pos (by rw [decide_eq_true hn, Bool.or_true])]

/-- Settles O50: each event of a link by the branch of it that its premises choose. -/
theorem links : Obligations.Links := by
  intro s fin seq last station cell pa n core i dva c d far me up late
  refine ⟨fun hfin hon => ⟨fun htr hkept => ?flit, fun hnak => ?replay, fun htr => ?retrain⟩, fun hfin htr => ?trained, fun die hdie hlost => ?die,
    fun home a ea m acq hc hr hd => ?waits, fun w hw hp hcell hs => ?post, fun w die hp hs => ?unit, fun cp hi hm => ?copy, fun hs => ?station, fun hready => ?peer⟩
  case flit =>
    have h : Receives s fin seq := ⟨hfin, hon, htr, hkept⟩
    refine ⟨fun he => ?_, fun hl hn => ?_, fun k hl hn => ?_, fun ha hne => ?_⟩
    · refine (execFlitReceive_of h true (not_late (.inr he))).trans ?_
      rw [if_pos (by simp [he, me])]; rfl
    · refine (execFlitReceive_of h false (not_late hl)).trans ?_
      rw [show (s.link fin).nak = none from hn]; rfl
    · refine (execFlitReceive_of h false (not_late hl)).trans ?_
      rw [show (s.link fin).nak = some k from hn]; rfl
    · refine (execFlitReceive_of h false (again := true) (by simp [show (s.link fin).again = true from ha, show seq ≠ (s.link fin).rxNext from hne])).trans ?_
      cases (s.link fin).nak <;> rfl
  case replay =>
    show execUcieReplay fin last s = _
    unfold execUcieReplay isEnd
    exact congrArg Host.Outcome.next (if_pos (by simp [hfin, show (s.link fin).off = false from hon, show (s.link (farEnd fin)).nak = _ from hnak]))
  case retrain =>
    refine ⟨execLinkRetrain_of (why := .lock) hfin hon htr ?_, fun h8 hn => execLinkRetrain_of (why := .nak seq) hfin hon htr ?_⟩
    · intro n hwhy; cases hwhy
    · rintro n ⟨⟩; exact ⟨h8, hn⟩
  case trained =>
    exact execRetrainDone_of hfin htr fun _ => rfl
  case die =>
    show execDieUnreachable die s = _
    unfold execDieUnreachable
    exact congrArg Host.Outcome.next (if_neg (by simp [hlost, Nat.not_lt.mpr hdie]))
  case waits =>
    refine ⟨fun acc hh hs => ?_, fun hh => ?_⟩
    · have hw : fabricWait s cell dva Home.isPeer = true := (fabricWait_parked hc hr hd _).trans (by rw [hh]; rfl)
      have hsent : sentAt s (.cell cell dva station) = c.asked := by
        unfold sentAt
        simp only [hw, if_true, cell_of_find hc]
      refine execUalinkTimeout_of (r := .cell cell dva station) hs ?_
      rw [hsent]
      exact noAnswer_parked hc hw
    · exact execPcieCompletionTimeout_of (noAnswer_parked hc ((fabricWait_parked hc hr hd _).trans (by rw [hh]; rfl)))
  case post =>
    have hsent : sentAt s (.cell cell dva station) = w.time := by
      unfold sentAt
      simp only [hw, hp, Bool.false_eq_true, if_false, Option.map_some, Option.getD_some]
    refine execUalinkTimeout_of (r := .cell cell dva station) hs ?_
    rw [hsent]
    unfold noAnswer
    simp only [fabricWait_overdue, peerPost_overdue, hw, hp, peerPost_isPeer hp, bne_iff_ne.mpr hcell, Bool.and_self, Bool.false_eq_true, if_false, if_true]
    rfl
  case unit =>
    have hsent : sentAt s (.unit die dva station) = w.time := by
      unfold sentAt
      simp only [hp, Option.map_some, Option.getD_some]
    refine execUalinkTimeout_of (r := .unit die dva station) hs ?_
    rw [hsent]
    unfold noAnswer
    simp only [peerPost_overdue, hp, peerPost_isPeer hp, if_true]
    rfl
  case copy =>
    refine ⟨fun acc hf hs => execUalinkTimeout_of (r := .copy core i dva station) hs ?_, fun hf => execPcieCompletionTimeout_of (noAnswer_copy hi hm hf rfl)⟩
    exact noAnswer_copy (s := overdue s station s.qtime) hi ((moving_overdue _ _).trans hm) ((fabricAt_overdue _ _).trans hf) rfl
  case station =>
    refine ⟨?_, ?_⟩
    · show execUalinkStationLoss station s = _
      unfold execUalinkStationLoss
      rw [if_pos hs]
    · show execUalinkReplay station s = _
      unfold execUalinkReplay
      rw [if_pos hs]
  case peer =>
    exact ⟨fun hn hl => congrArg Host.Outcome.next (peerAt_performed hready hn (fun _ => hl) _),
      fun hn => congrArg Host.Outcome.next (peerAt_performed (reads := false) hready hn Bool.noConfusion _),
      fun hn => congrArg Host.Outcome.next (peerAt_beyond hn true _)⟩

end Sys2Proof.Machine
end

section
/-! Signal words, barriers, and the limits of waits (spec 14 R314 to R319). -/

open Sys2Proof Sys2Proof.Machine

namespace Sys2Proof.Machine

variable {s s1 : State}

/-! ### Signal words (spec 14 R314 to R316) -/

/-- A cell that a check has passed has as little on its way as before. -/
theorem seen_quiet (hc : (Tab.find s.cells s.cur).isSome) (h : seen s s1) (hq : quiet s = true) : quiet s1 = true := by
  obtain ⟨hcur, -, -, hgang, hposted, hremotes, -⟩ := seen_me hc h
  simp only [quiet, busy, outstandingTo, hcur, hgang, hposted, hremotes] at hq ⊢
  exact hq

/-- The state in which a cell that waits on a signal word has read it. -/
def signalTaken (s1 : State) (k : Nat) (sc : Scope) : State := (s1.modMe fun v => { v with reply := none, stage := 0 }).acquire s1.cur k 8 sc

/-- A signal word at a home key is read with an acquire, and the cell shows what it showed before. -/
theorem signalRead_taken {ea : Word} {k : Nat} (hq : quiet s = true) (hc : (Tab.find s.cells s.cur).isSome)
    (hr : resolve s .load ea 8 rRead 8 = .ok (s1, .key k)) (sc : Scope) :
    signalRead s ea sc = .ok (signalTaken s1 k sc, s1.readNat k 8, k) ∧ signalView (signalTaken s1 k sc).me = signalView s.me := by
  obtain ⟨s2, hread, hkeeps, hcur, -, -⟩ := signalRead_key hq hr sc
  have hquiet : (s1.posted.any fun p => p.cell == s1.cur && p.gang == (s1.modMe fun v => { v with reply := none, stage := 0 }).me.gang) = false := by
    rw [me_modMe (g := Cell.gang) (by exact fun _ => rfl)]
    exact quiet_none (seen_quiet hc (resolve_seen hr) hq)
  have htaken : s2 = signalTaken s1 k sc := by
    unfold signalRead at hread
    rw [hr] at hread
    simp only [op_bind_ok] at hread
    rw [drainOwn_none (s := s1.modMe fun v => { v with reply := none, stage := 0 }) hquiet] at hread
    injection hread with hread
    exact (congrArg Prod.fst hread).symm
  rw [← htaken]
  exact ⟨hread, hkeeps.me hcur⟩

/-- A limit that is not zero is not over at the first turn of a wait. -/
theorem limitOver_unstarted (h : s.me.since = none) {limit : Option Nat} (hl : limit ≠ some 0) : limitOver s limit = false := by
  unfold limitOver
  split
  · next n =>
    rw [h, Option.getD_none, Nat.sub_self, decide_eq_false_iff_not]
    intro hn
    exact hl (congrArg some (Nat.le_zero.mp hn))
  · rfl

section
variable (h : calm s = true) (a b : Reg) (sc : Scope)
include h

theorem begun_isSome (len : Nat) : (Tab.find (begun s len).cells (begun s len).cur).isSome :=
  Option.isSome_iff_exists.mpr (begun_find h len)

/-- An update of a signal word at a home key: at once in local store or scratchpad, and on its way in HBM. -/
theorem signalUpdate_key (hq : quiet s = true) {k : Nat} (hr : resolve (begun s 8) .atomic (rdX s a) 8 rAtomic 8 = .ok (s1, .key k)) (op : AmoOp) :
    signalUpdate op a b sc s = .next (after (if isHbm k then post s1 k (rdX s a) (.amo op 8 (rdX s b) 0 .none) { rel := true, sc }
      else (amoSync s1 (.cell s1.cur) none k op 8 (rdX s b) 0 false true sc).1) 8) := by
  have hq1 : quiet s1 = true := seen_quiet (begun_isSome h 8) (resolve_seen hr) (begun_quiet h hq 8)
  unfold signalUpdate
  rw [issue_calm h 8 _ _ _ _ rfl, holding_nil]
  simp only [getX_calm h, begun_reply h, hr, op_bind_ok, release_quiet hq1]
  rfl

/-- A wait on a signal word at a home key, at its first turn: it gives the word, or parks on it. -/
theorem exec_swait_key (d c : Reg) (cond : Cond) (hq : quiet s = true) (hsince : s.me.since = none) {k : Nat}
    (hr : resolve (begun s 8) .load (rdX s a) 8 rRead 8 = .ok (s1, .key k)) :
    let w : Word := BitVec.ofNat 64 (s1.readNat k 8)
    (condHolds cond w (rdX s b) = true → exec (.swait d a b c cond sc) s = .next (after (lateX (signalTaken s1 k sc) d w) 8))
    ∧ (condHolds cond w (rdX s b) = false → (c = 0 ∨ rdX s c ≠ 0) → exec (.swait d a b c cond sc) s = .next
        (waiting (setLimit (signalTaken s1 k sc) (if c = 0 then none else some (rdX s c).toNat) (rdX s a)) (.signal k false))) := by
  intro w
  obtain ⟨hread, hview⟩ := signalRead_taken (begun_quiet h hq 8) (begun_isSome h 8) hr sc
  have hview := hview.trans (signalView_begun h 8)
  obtain ⟨he, hho, -, -⟩ := signalView_calm h
  have he2 : (signalTaken s1 k sc).me.early = [] := (congrArg SignalView.early hview).trans he
  have hho2 : (signalTaken s1 k sc).me.csr.hoqen = 0 := (congrArg (fun w => w.csr.hoqen) hview).trans hho
  have hx2 : (signalTaken s1 k sc).me.x = s.me.x := congrArg SignalView.x hview
  have hsince2 : (signalTaken s1 k sc).me.since = none := (congrArg SignalView.since hview).trans hsince
  have hw : w.toNat = s1.readNat k 8 := Nat.mod_eq_of_lt (readNat_lt s1 k 8)
  rw [exec_swait, execSwait, issue_calm h 8 _ _ _ _ rfl]
  simp only [getX_calm h, hread, op_bind_ok, getX_quiet he2 hho2 hx2]
  refine ⟨fun hc => ?_, fun hc hl => ?_⟩
  · rw [if_pos hc, ← defer_word hw hho2]
    rfl
  · have hlimit : (if c = 0 then none else some (rdX s c).toNat) ≠ some 0 := by
      split
      · exact fun hn => nomatch hn
      · next hc0 =>
        intro hn
        exact (hl.resolve_left hc0) (BitVec.eq_of_toNat_eq (Option.some.inj hn))
    have hhoLimit : (setLimit (signalTaken s1 k sc) (if c = 0 then none else some (rdX s c).toNat) (rdX s a)).me.csr.hoqen = 0 :=
      (me_modMe (g := fun c => c.csr.hoqen) (by exact fun _ => rfl) _).trans hho2
    rw [if_neg (by rw [hc]; exact Bool.false_ne_true), limitOver_unstarted hsince2 hlimit, if_neg Bool.false_ne_true]
    exact congrArg (Host.Outcome.next <| commit 8 ·) (holding_park [.x d] (.signal k false) (queuesOf_nil hhoLimit _))

/-! ### Barriers (spec 14 R317 to R319) -/

/-- A BAR of the levels of a COR launch traps in another one. -/
theorem exec_bar_scope (level : BarLevel) (limit : BitVec 13) (hcor : s.myLaunch.hdr.cor = false) (hl : level = .die ∨ level = .pkg) :
    exec (.bar level limit) s = .next (trapped (begun s 8) 8 0x12 (BitVec.ofNat 64 (Machine.BarLevel.num level))) := by
  have hbad : (!(begun s 8).myLaunch.hdr.cor && (level == .die || level == .pkg)) = true := by
    rw [(Unheld.of_calm h).begun_myLaunch, hcor]
    rcases hl with rfl | rfl <;> rfl
  rw [exec_bar, execBar, issue_calm h 8 _ _ _ _ rfl, holding_nil]
  simp only [hbad, if_true]
  rfl

/-- Any other BAR arrives and parks, and its episode may complete. -/
theorem exec_bar_arrives (level : BarLevel) (limit : BitVec 13) (hq : quiet s = true) (hl : s.myLaunch.hdr.cor = true ∨ level = .gang ∨ level = .hive) :
    exec (.bar level limit) s = .next (barCheck (parkCell (setLimit (barArrive (begun s 8) level (barKey s level s.me.gang) (s.me.gang, s.me.j))
      (limitUs limit.toNat) 0) s.cur (.bar level limit.toNat)) level (barKey s level s.me.gang)) := by
  have hgood : (!(begun s 8).myLaunch.hdr.cor && (level == .die || level == .pkg)) = false := by
    rw [(Unheld.of_calm h).begun_myLaunch]
    rcases hl with hcor | rfl | rfl
    · rw [hcor]; rfl
    · exact Bool.and_false _
    · exact Bool.and_false _
  rw [exec_bar, execBar, issue_calm h 8 _ _ _ _ rfl, holding_nil]
  simp only [hgood, Bool.false_eq_true, if_false, release_quiet (begun_quiet h hq 8), op_bind_ok, begun_me h]
  rfl

end

/-- The check of an episode: it completes when every participant has arrived. -/
theorem barCheck_of_find {level : BarLevel} {n : Nat} {e : Episode} (he : (s.bars.find? fun e => e.level == level && e.key == n) = some e) :
    barCheck s level n = if (participants s level n).all (fun p => e.arrived.contains p) then
        e.arrived.foldl (fun s p => barRelease s p level) { s with bars := s.bars.filter fun e => !(e.level == level && e.key == n) }
      else s := by
  unfold barCheck
  simp only [he]

/-- A cell that is parked at its BAR goes on past it. -/
theorem barRelease_parked {g j n cell : Nat} {level : BarLevel} (hs : (s.gang g).saved = none) (hc : (s.gang g).cells[j]? = some cell)
    (hr : (s.cell cell).run = .parked (.bar level n)) :
    barRelease s (g, j) level = (finishCell s cell ((s.cell cell).pc + 8)).modCell cell (Cell.orderAll s.stamp) := by
  unfold barRelease
  simp only [hs, hc, hr, beq_self_eq_true, if_true]

/-! ### Limits of waits (spec 14 R316, R319, R323, R325, R326; 09 R207; 10 R244) -/

/-- The state in which the limit `x` of a cell's wait has passed: the cell traps WAIT_LIMIT. -/
def limitPassed (cell : Nat) (cl : Cell) (x : Nat × Word) (u : State) : State :=
  trapParked (u.timeTo (cl.since.getD u.qtime + x.1)) cell cWAIT_LIMIT x.2

section
variable {cell : Nat} {cl : Cell} {x : Nat × Word} (hc : Tab.find s.cells cell = some cl) (hx : cl.limit = some x)
include hc hx

theorem limitTrap_passed : limitTrap s cell = limitPassed cell cl x s := by
  obtain ⟨ns, tval⟩ := x
  unfold limitTrap
  rw [cell_of_find hc]
  simp only [hx]
  rfl

/-- A limit of a wait that its event names. -/
theorem limitIn_passed {w : Wait} {p : Wait → Bool} (hr : cl.run = .parked w) (hp : p w = true) : limitIn s cell p = limitPassed cell cl x s := by
  unfold limitIn
  simp only [hc, Option.map_some, hr, hp, if_true]
  exact limitTrap_passed hc hx

theorem execBarLimit_passed {level : BarLevel} {n : Nat} (hr : cl.run = .parked (.bar level n)) :
    execBarLimit cell s = .next (limitPassed cell cl x (barWithdraw s (cl.gang, cl.j))) := by
  unfold execBarLimit
  simp only [hc, hr, hx]
  exact congrArg Host.Outcome.next (limitTrap_passed (s := barWithdraw s (cl.gang, cl.j)) hc hx)

theorem execLdfeLimit_passed {k : Nat} (hr : cl.run = .parked (.word k)) :
    execLdfeLimit cell s = .next (limitPassed cell cl x { s with feq := s.feq.filter fun e => !(e.cell == cell && e.gang == cl.gang) }) := by
  unfold execLdfeLimit
  simp only [hc, hr, hx]
  exact congrArg Host.Outcome.next (limitTrap_passed (s := { s with feq := s.feq.filter fun e => !(e.cell == cell && e.gang == cl.gang) }) hc hx)

theorem execWgsendLimit_passed {k : Nat} (hr : cl.run = .parked (.wgsend k)) :
    execWgsendLimit cell s = .next (limitPassed cell cl x { s with wgq := s.wgq.filter fun e => e.cell != cell }) := by
  unfold execWgsendLimit
  simp only [hc, cell_of_find hc, Option.map_some, hr, hx]
  exact congrArg Host.Outcome.next (limitTrap_passed (s := { s with wgq := s.wgq.filter fun e => e.cell != cell }) hc hx)

end

/-- Settles O37: the update, the read and the arrival of a calm cell, the episode by its participants, and each limit by the wait it ends. -/
theorem signalsAndBarriers : Obligations.SignalsAndBarriers := by
  intro s s1 d a b c cond sc level limit k cell
  refine ⟨fun h hq => ?first, fun e n he => ⟨fun hall => ?complete, fun hall => ?incomplete⟩, fun g j n hs hc hr => barRelease_parked hs hc hr,
    fun cl x hc hx => ?limits⟩
  case first =>
    refine ⟨fun hr => ?_, fun hr hsince => ?_, exec_bar_scope h level limit, exec_bar_arrives h level limit hq⟩
    · have hcur : s1.cur = s.cur := (seen_me (begun_isSome h 8) (resolve_seen hr)).1
      have hadd := signalUpdate_key h a b sc hq hr .add
      have hset := signalUpdate_key h a b sc hq hr .swap
      rw [hcur] at hadd hset
      refine ⟨fun hk => ?_, fun hk => ?_⟩
      · rw [hk] at hadd hset
        exact ⟨hadd, hset⟩
      · rw [hk] at hadd hset
        exact ⟨hadd, hset⟩
    · obtain ⟨hgives, hparks⟩ := exec_swait_key h a b sc d c cond hq hsince hr
      cases cond <;> exact ⟨hgives, hparks⟩
  case complete => rw [barCheck_of_find he, if_pos hall]
  case incomplete => rw [barCheck_of_find he, hall]; rfl
  case limits =>
    exact ⟨fun n hr => execBarLimit_passed hc hx hr, fun hr => congrArg Host.Outcome.next (limitIn_passed hc hx hr rfl),
      fun hr => congrArg Host.Outcome.next (limitIn_passed hc hx hr rfl), fun hr => congrArg Host.Outcome.next (limitIn_passed hc hx hr rfl),
      fun hr => execLdfeLimit_passed hc hx hr, fun hr => execWgsendLimit_passed hc hx hr, fun hr => congrArg Host.Outcome.next (limitIn_passed hc hx hr rfl)⟩

end Sys2Proof.Machine
end

section
/-! Tagged words and waggles, for a calm cell with nothing on its way (spec 14 R320 to R326; 13 R294). -/

open Sys2Proof Sys2Proof.Machine

namespace Sys2Proof.Machine

variable {s t : State}

/-! ### Tags (spec 14 R320) -/

theorem find_map_cells (t : Tab Cell) (f : Nat → Cell → Cell) (k : Nat) : Tab.find (t.map fun e => (e.1, f e.1 e.2)) k = (Tab.find t k).map (f k) := by
  induction t with
  | nil => rfl
  | cons e t ih =>
    obtain ⟨k', c⟩ := e
    by_cases hk : k = k'
    · subst hk; simp [Tab.find]
    · simp [Tab.find, hk, ih]

theorem keeps_writeTag {α : Type} {g : Cell → α} (hg : Unseeing g) (s : State) (who : Agent) (key : Nat) (full : Bool) :
    Keeps g s (s.writeTag who key full) := by
  refine ⟨fun d => ?_⟩
  show (Tab.find (s.cells.map fun e => (e.1, writeSeen who (key / 8 * 8) 8 e.1 e.2)) d).map g = _
  rw [find_map_cells s.cells fun d => writeSeen who (key / 8 * 8) 8 d, Option.map_map]
  exact congrArg (Option.map · _) (funext (writeSeen_unseen hg who (key / 8 * 8) 8 d))

/-! ### Tagged words (spec 14 R321 to R323) -/

/-- The state in which an LDFE has taken its word. -/
def tagTaken (u : State) (k : Nat) (keep : Bool) : State :=
  if keep then u.acquire u.cur k 8 (homeScope u.cur k) else (u.acquire u.cur k 8 (homeScope u.cur k)).writeTag (.cell u.cur) k false

theorem tagTaken_hoqen (k : Nat) (keep : Bool) (h : t.me.csr.hoqen = 0) : (tagTaken t k keep).me.csr.hoqen = 0 := by
  have hacquired : (t.acquire t.cur k 8 (homeScope t.cur k)).me.csr = t.me.csr := (keeps_acquire unseeing_csr ..).me (acquire_cur ..)
  unfold tagTaken
  split
  · rw [hacquired, h]
  · rw [(keeps_writeTag unseeing_csr ..).me rfl, hacquired, h]

/-- The state in which an LDFE waits for its word, with its limit. -/
def tagAwaited (s : State) (k : Nat) (keep : Bool) (limit : Option Nat) (ea : Word) : State :=
  { setLimit (begun s 8) limit ea with feq := s.feq ++ [{ key := k, keep, cell := s.cur, gang := s.me.gang, remote := none }] }

/-- The state in which an STFE of a word has filled it, and its waiters have been served. -/
def tagFilled (u : State) (k : Nat) (v : Word) : State :=
  feSatisfy (((u.write (.cell u.cur) none k (leBytes v.toNat 8)).released (.cell u.cur) k 8 (homeScope u.cur k)).setFull k true) k

section
variable (h : calm s = true) {a : Reg} (off : BitVec 12) {k : Nat}
include h

section
variable (hr : taggedWord (begun s 8) (rdX s a + off.signExtend 64) rRead = .ok (.key k))
include hr

/-- LDFE and LDFE.K of a full word give it; of an empty one they wait at its home. -/
theorem ldfeOp_home (keep : Bool) (d c : Reg) :
    (s.full k = true → ldfeOp keep d a c off s = .next (after (lateX (tagTaken (begun s 8) k keep) d (BitVec.ofNat 64 (s.readNat k 8))) 8))
    ∧ (s.full k = false → ldfeOp keep d a c off s = .next (waiting
        (tagAwaited s k keep (if c = 0 then none else some (rdX s c).toNat) (rdX s a + off.signExtend 64)) (.word k))) := by
  have hfull : (begun s 8).full k = s.full k := rfl
  unfold ldfeOp
  rw [issue_calm h 8 _ _ _ _ rfl]
  simp only [feEa, getX_calm h, begun_reply h, hr, op_bind_ok, hfull]
  refine ⟨fun hf => ?_, fun hf => ?_⟩
  · rw [if_pos hf, ← defer_x (tagTaken_hoqen k keep (begun_hoqen h 8))]
    rfl
  · rw [if_neg (by rw [hf]; exact Bool.false_ne_true), begun_me_gang h]
    have hhoq : (tagAwaited s k keep (if c = 0 then none else some (rdX s c).toNat) (rdX s a + off.signExtend 64)).me.csr.hoqen = 0 :=
      hoqen_modMe (s := begun s 8) (by exact fun _ => rfl) (begun_hoqen h 8)
    exact congrArg (Host.Outcome.next <| commit 8 ·) (holding_park [.x d] (.word k) (queuesOf_nil hhoq _))

/-- FEPROBE gives the tag. -/
theorem execFeprobe_home (d : Reg) : execFeprobe d a off s = .next (after (lateX (begun s 8) d (if s.full k then 1 else 0)) 8) := by
  have htag : (if s.full k then 1 else 0 : Word).toNat = b2n (s.full k) := by cases s.full k <;> rfl
  unfold execFeprobe
  rw [issue_calm h 8 _ _ _ _ rfl]
  simp only [feEa, getX_calm h, begun_reply h, hr, op_bind_ok]
  rw [← defer_word htag (begun_hoqen h 8)]
  rfl

end

section
variable (hr : taggedWord (begun s 8) (rdX s a + off.signExtend 64) rWrite = .ok (.key k))
include hr

/-- STFE and STFE.F at a word's home. -/
theorem stfeOp_home (hq : quiet s = true) (force : Bool) (b : Reg) : stfeOp force a b off s = .next (after
    (if s.full k && !force then pendAsync (begun s 8) s.cur { cause := cREMOTE_NACK_ASYNC, tval := rdX s a + off.signExtend 64 }
      else tagFilled (begun s 8) k (rdX s b)) 8) := by
  have hfull : (begun s 8).full k = s.full k := rfl
  unfold stfeOp
  rw [issue_calm h 8 _ _ _ _ rfl, holding_nil]
  simp only [feEa, getX_calm h, hr, op_bind_ok, release_quiet (begun_quiet h hq 8)]
  unfold stfeAt
  rw [hfull]
  split
  · rfl
  · rfl

/-- FESET sets the tag. -/
theorem fesetOp_home (full : Bool) : fesetOp full a off s = .next (after (fesetAt (begun s 8) (.cell s.cur) k full) 8) := by
  unfold fesetOp
  rw [issue_calm h 8 _ _ _ _ rfl, holding_nil]
  simp only [feEa, getX_calm h, hr, op_bind_ok]
  rfl

end

end

/-! ### Waggles (spec 14 R324 to R326) -/

/-- A cell at the start of another's turn has its gang and its mailbox. -/
theorem begun_find_cell {d : Nat} {c : Cell} (hc : Tab.find s.cells d = some c) (len : Nat) :
    ∃ v, Tab.find (begun s len).cells d = some v ∧ v.gang = c.gang ∧ v.mbox = c.mbox := by
  by_cases hd : d = s.cur
  · exact ⟨{ c with ilen := len }, hd ▸ find_modCell_self (hd ▸ hc) _, rfl, rfl⟩
  · exact ⟨c, (Tab.find_adjust_ne s.cells _ hd).trans hc, rfl, rfl⟩

/-- The waggle of a WGSEND. -/
def sentWaggle (s : State) (dest lo value : Word) : Waggle :=
  { lo := BitVec.ofNat 64 (lo.toNat % 2 ^ 32 + s.cur * 2 ^ 32), value, sync := (begun s 8).syncFor dest.toNat (.cell s.cur) .pkg }

/-- The cell that a WGSEND names is resident, in the sender's partition, and within reach. -/
structure Reaches (s : State) (dest : Word) (c : Cell) : Prop where
  id : dest.toNat < 2 ^ 13
  find : Tab.find s.cells dest.toNat = some c
  part : (s.launch (s.gang c.gang).launch).part = s.myLaunch.part
  die : dieOfCell dest.toNat = dieOfCell s.cur ∨ s.lost.contains (dieOfCell dest.toNat) = false

/-- A WGSEND to such a cell. -/
theorem execWgsend_reaches (h : calm s = true) (hq : quiet s = true) (a b c : Reg) (limit : BitVec 15) {v : Cell} (hv : Reaches s (rdX s a) v) :
    execWgsend a b c limit s = .next (if v.mbox.length < 16 ∧ ∀ e ∈ s.wgq, e.target ≠ (rdX s a).toNat
      then after (deliverWaggle (begun s 8) (rdX s a).toNat (sentWaggle s (rdX s a) (rdX s b) (rdX s c))) 8
      else waiting { setLimit (begun s 8) (limitUs limit.toNat) (rdX s a) with wgq := s.wgq ++
        [{ target := (rdX s a).toNat, cell := s.cur, gang := s.me.gang, wag := sentWaggle s (rdX s a) (rdX s b) (rdX s c) }] } (.wgsend (rdX s a).toNat)) := by
  obtain ⟨t, ht, hgang, hmbox⟩ := begun_find_cell hv.find 8
  have hlow (n : Nat) : bits n 31 0 = n % 2 ^ 32 := by rw [bits, pow_zero, Nat.div_one]
  have hid : (bits (rdX s a).toNat 63 13 != 0) = false := by
    rw [bits, Nat.div_eq_of_lt hv.id]; rfl
  have hpart : (((begun s 8).launch ((begun s 8).gang t.gang).launch).part != (begun s 8).myLaunch.part) = false := by
    rw [hgang, (Unheld.of_calm h).begun_myLaunch]
    exact bne_eq_false_iff_eq.mpr hv.part
  have hdie : (dieOfCell (rdX s a).toNat != dieOfCell (begun s 8).cur && (begun s 8).lost.contains (dieOfCell (rdX s a).toNat)) = false := by
    rcases hv.die with hd | hd
    · rw [hd, begun_cur, bne_self_eq_false, Bool.false_and]
    · exact (congrArg (_ && ·) hd).trans (Bool.and_false _)
  have hroom : (decide (v.mbox.length < 16) && !((begun s 8).wgq.any fun e => e.target == (rdX s a).toNat)) = true
      ↔ v.mbox.length < 16 ∧ ∀ e ∈ s.wgq, e.target ≠ (rdX s a).toNat := by
    have hwgq : (begun s 8).wgq = s.wgq := rfl
    rw [hwgq]
    simp
  unfold execWgsend
  rw [issue_calm h 8 _ _ _ _ rfl, holding_nil]
  simp only [getX_calm h, hid, hpart, hdie, Bool.false_eq_true, if_false, release_quiet (begun_quiet h hq 8), op_bind_ok, ht, hmbox, begun_me_gang h, hlow]
  by_cases hr : v.mbox.length < 16 ∧ ∀ e ∈ s.wgq, e.target ≠ (rdX s a).toNat
  · rw [if_pos hr, if_pos (hroom.mpr hr)]
    rfl
  · rw [if_neg hr, if_neg (mt hroom.mp hr)]
    rfl

/-- Room in a mailbox for which nothing waits. -/
theorem wgServe_idle {target : Nat} (hw : ∀ e ∈ t.wgq, e.target ≠ target) : wgServe t target = t := by
  have hnone : (t.wgq.find? fun e => e.target == target) = none := List.find?_eq_none.mpr fun e he => by simpa using hw e he
  unfold wgServe
  simp only [hnone]

theorem lateX_hoqen (h : t.me.csr.hoqen = 0) (r : Reg) (v : Word) : (lateX t r v).me.csr.hoqen = 0 := by
  unfold lateX
  split
  · exact h
  · exact hoqen_modMe (by exact fun _ => rfl) h

@[simp] theorem lateX_wgq (t : State) (r : Reg) (v : Word) : (lateX t r v).wgq = t.wgq := by
  unfold lateX
  split <;> rfl

theorem waggle_acquire_csr (cid : Nat) (w : Waggle) (c : Cell) : (w.acquire cid c).csr = c.csr := by
  unfold Waggle.acquire
  split
  · exact learn_unseen unseeing_csr ..
  · rfl

section
variable (h : calm s = true) (d : Reg) (limit : BitVec 15)
include h

/-- WGRECV of an empty mailbox parks. -/
theorem execWgrecv_empty (hm : s.me.mbox = []) : execWgrecv d limit s = .next (waiting (setLimit (begun s 8) (limitUs limit.toNat) 0) .wgrecv) := by
  have hm8 : (begun s 8).me.mbox = [] := by rw [begun_me h]; exact hm
  have hhoq : (setLimit (begun s 8) (limitUs limit.toNat) 0).me.csr.hoqen = 0 := hoqen_modMe (by exact fun _ => rfl) (begun_hoqen h 8)
  unfold execWgrecv
  rw [issue_calm h 8 _ _ _ _ rfl]
  simp only [hm8]
  exact congrArg (Host.Outcome.next <| commit 8 ·) (holding_park [.x d, .x (d + 1)] .wgrecv (queuesOf_nil hhoq _))

/-- WGRECV takes the oldest waggle, with its acquire. -/
theorem execWgrecv_takes {w : Waggle} {rest : List Waggle} (hm : s.me.mbox = w :: rest) (hw : ∀ e ∈ s.wgq, e.target ≠ s.cur) :
    execWgrecv d limit s = .next (after (lateX (lateX ((begun s 8).modMe fun v => w.acquire s.cur { v with mbox := rest }) d w.lo) (d + 1) w.value) 8) := by
  have hm8 : (begun s 8).me.mbox = w :: rest := by rw [begun_me h]; exact hm
  have hhoq : ((begun s 8).modMe fun v => w.acquire s.cur { v with mbox := rest }).me.csr.hoqen = 0 :=
    hoqen_modMe (fun c => waggle_acquire_csr s.cur w { c with mbox := rest }) (begun_hoqen h 8)
  unfold execWgrecv
  rw [issue_calm h 8 _ _ _ _ rfl]
  simp only [hm8, begun_cur, defer_x hhoq, defer_x (lateX_hoqen hhoq d w.lo)]
  rw [wgServe_idle (by rw [lateX_wgq, lateX_wgq]; exact hw)]
  rfl

theorem execWgpeek_calm : execWgpeek d s = .next (after (setXLate (begun s 8) d (BitVec.ofNat 64 s.me.mbox.length) 1) 8) := by
  unfold execWgpeek
  rw [issue_calm h 8 _ _ _ _ rfl, begun_me h]
  rfl

end

/-- Settles O38: each function of a tagged word at its home by the word's tag, and the waggles by the room in the mailbox. -/
theorem taggedWordsAndWaggles : Obligations.TaggedWordsAndWaggles := by
  intro s d a b c off limit k h hq hsince u ea lim home acquired ldfe filled
  refine ⟨fun hr => ldfeOp_home h off hr false d c, fun hr => ldfeOp_home h off hr true d c, fun hr => ⟨fun hf => ?stfe, fun hf => ?refused, ?stfeF, ?feset, ?fesetF⟩,
    fun hr => execFeprobe_home h off hr d, fun t w hid ht hpart hw hdie => ?wgsend, fun w rest hm hnone => execWgrecv_takes h d limit hm hnone,
    fun hm => execWgrecv_empty h d limit hm, execWgpeek_calm h d⟩
  case stfe => exact (stfeOp_home h off hr hq false b).trans (by rw [hf]; rfl)
  case refused => exact (stfeOp_home h off hr hq false b).trans (by rw [hf]; rfl)
  case stfeF => exact (stfeOp_home h off hr hq true b).trans (by rw [Bool.not_true, Bool.and_false]; rfl)
  case feset => exact fesetOp_home h off hr false
  case fesetF => exact fesetOp_home h off hr true
  case wgsend =>
    have hreach : Reaches s (rdX s a) t := ⟨hid, ht, hpart, hdie⟩
    have hx := execWgsend_reaches h hq a b c limit hreach
    subst hw
    refine ⟨fun hroom hnone => hx.trans ?_, fun hfull => hx.trans ?_⟩
    · rw [if_pos ⟨hroom, hnone⟩]; rfl
    · rw [if_neg fun hroom => absurd hroom.1 (Nat.not_lt.mpr hfull)]; rfl

end Sys2Proof.Machine
end

section
/-! QFENCE and the QAMOs, for a calm cell (spec 14 R309 to R313; 13 R295, R298). -/

open Sys2Proof Sys2Proof.Machine

namespace Sys2Proof.Machine

variable {s s1 t : State}

/-! ### QFENCE (spec 14 R309, R310) -/

/-- The start of a QFENCE: with engine order, the cell's later copies follow it. -/
def fenceHolds (s : State) (e : Bool) : State := if e then holdCopies (begun s 8) else begun s 8

/-- A QFENCE of these classes waits for an access of the cell. -/
def qfenceHeld (s : State) (r w : Bool) (sc : Scope) : Bool := (w && busy s (sc == .pod)) || (r && busyReads s)

section
variable (h : calm s = true) (r w e : Bool) {sc : Scope}
include h

theorem exec_qfence_cell : exec (.qfence r w e .cell) s = .next (after (fenceHolds s e) 8) := by
  rw [exec_qfence, execQfence, issue_calm h 8 _ _ _ _ rfl, holding_nil]
  rfl

theorem fenceWait_begun_scope : fenceWait (begun s 8) r w (sc == .pod) =
    if qfenceHeld s r w sc then .error (.park (begun s 8) .performed) else .ok () := by
  unfold fenceWait qfenceHeld busy busyReads
  rw [begun_cur, begun_me h]
  rfl

variable (hsc : sc ≠ .cell)
include hsc

theorem exec_qfence_waits (hw : qfenceHeld s r w sc = true) : exec (.qfence r w e sc) s = .next (waiting (begun s 8) .performed) := by
  rw [exec_qfence, execQfence, issue_calm h 8 _ _ _ _ rfl, holding_nil]
  simp only [beq_false_of_ne hsc, Bool.false_eq_true, if_false, fenceWait_begun_scope h, hw, if_true]
  rfl

theorem exec_qfence_orders (hw : qfenceHeld s r w sc = false) :
    exec (.qfence r w e sc) s = .next (after (fenceOrders r w r w sc (fenceHolds s e)) 8) := by
  rw [exec_qfence, execQfence, issue_calm h 8 _ _ _ _ rfl, holding_nil]
  simp only [beq_false_of_ne hsc, Bool.false_eq_true, if_false, fenceWait_begun_scope h, hw]
  rfl

end

theorem fenceHolds_cur (e : Bool) : (fenceHolds s e).cur = s.cur := by cases e <;> rfl

/-- What a fence of the classes `r` and `w` orders: with class r the later reads, with class w the later writes. -/
theorem fenceOrders_classes (r w : Bool) (sc : Scope) (ht : t.cur = s.cur) :
    fenceOrders r w r w sc t = if w then (if r then t.orderReads s.cur r w sc else t).orderWrites s.cur sc
      else if r then t.orderReads s.cur r w sc else t := by
  unfold fenceOrders
  rw [ht, Bool.and_self]

/-! ### What an atomic writes (spec 14 R311, R312) -/

/-- The word that an atomic leaves: a compare-and-swap leaves the old one where it is not the expected one. -/
def amoLeft (op : AmoOp) {w : Nat} (cmp old src : BitVec w) : BitVec w :=
  match op with
  | .cas => if old = cmp then src else old
  | op => amoWord op old src

theorem amoLeft_word {op : AmoOp} (hop : op ≠ .cas) {w : Nat} (cmp old src : BitVec w) : amoLeft op cmp old src = amoWord op old src := by
  cases op with
  | cas => exact absurd rfl hop
  | _ => rfl

/-- Memory in which nothing has changed holds what it held. -/
theorem stored_unchanged (h : t.mem = s.mem) (k n : Nat) : stored s t k (leBytes (s.readNat k n) n) := by
  have hbyte (a : Nat) : t.byte a = s.byte a := by unfold State.byte; rw [h]
  have hread : leBytes (s.readNat k n) n = s.read k n := by
    have := leBytes_leNat (s.read k n)
    rw [read_length] at this
    exact this
  rw [hread]
  refine ⟨fun j hj => ?_, fun a _ => hbyte a⟩
  rw [hbyte]
  simp [State.read, Sys2Proof.range, Nat.add_comm]

/-- An atomic at its home leaves its word in its bytes alone, and gives the old one. -/
theorem amoSync_stored (s : State) (who : Agent) (hive : Option Nat) (k : Nat) (op : AmoOp) (n : Nat) (src cmp : Word) (acq rel : Bool) (sc : Scope) :
    stored s (amoSync s who hive k op n src cmp acq rel sc).1 k
      (leBytes (amoLeft op (cmp.setWidth (8 * n)) (BitVec.ofNat (8 * n) (s.readNat k n)) (src.setWidth (8 * n))).toNat n) := by
  obtain ⟨hmem, -⟩ := amoSync_mem s who hive k op n src cmp acq rel sc
  have hold : (BitVec.ofNat (8 * n) (s.readNat k n)).toNat = s.readNat k n := by rw [BitVec.toNat_ofNat, Nat.mod_eq_of_lt (readNat_lt ..)]
  by_cases hop : op = .cas
  · subst hop
    have hiff : BitVec.ofNat (8 * n) (s.readNat k n) = cmp.setWidth (8 * n) ↔ s.readNat k n = cmp.toNat % 2 ^ (8 * n) := by
      rw [← BitVec.toNat_inj, hold, BitVec.toNat_setWidth]
    unfold amoLeft
    by_cases heq : s.readNat k n = cmp.toNat % 2 ^ (8 * n)
    · rw [if_pos (hiff.mpr heq), BitVec.toNat_setWidth]
      rw [show amoApply .cas n _ _ _ = _ from if_pos heq] at hmem
      exact stored_of_poke hmem
    · rw [if_neg (mt hiff.mp heq), hold]
      rw [show amoApply .cas n _ _ _ = _ from if_neg heq] at hmem
      exact stored_unchanged hmem k n
  · have hnew := amoApply_word hop n (BitVec.ofNat (8 * n) (s.readNat k n)) (src.setWidth (8 * n)) (cmp.toNat % 2 ^ (8 * n))
    rw [hold, BitVec.toNat_setWidth] at hnew
    rw [hnew] at hmem
    rw [amoLeft_word hop]
    exact stored_of_poke hmem

/-! ### The QAMOs (spec 14 R311 to R313) -/

/-- An atomic of any scope whose address reaches bytes at a home. -/
theorem atomic_home {ea : Word} {n k : Nat} {acq rel : Bool} (hreply : s.me.reply = none) (hr : resolve s .atomic ea n rAtomic n = .ok (s1, .key k))
    (hq : rel = true → quiet s1 = true) (op : AmoOp) (src cmp : Word) (d : Dst) (sc : Scope) :
    atomic s ea n op src cmp d acq rel sc =
      if isHbm k then
        if acq then .error (.park (post s1 k ea (.amo op n src cmp .none) { acq := acq, rel, sc }) (.remote 0))
        else .ok (post (reserve s1 d).1 k ea (.amo op n src cmp (reserve s1 d).2) { rel, sc })
      else
        let r := amoSync s1 (.cell s1.cur) none k op n src cmp acq rel sc
        .ok (defer r.1 d (sextW n r.2).toNat) := by
  unfold atomic
  rw [hreply]
  simp only [hr, op_bind_ok, release_bind hq]

section
variable {d a b c : Reg} {word acq rel : Bool} {sc : Scope} {k n : Nat} (h : calm s = true) (hq : rel = true → quiet s = true)
  (hn : n = if word then 4 else 8) (hr : resolve (begun s 8) .atomic (rdX s a) n rAtomic n = .ok (s1, .key k)) (op : AmoOp)
include h hq hn hr

/-- How a QAMO ends whose address reaches bytes at a home. -/
theorem qamo_key : qamo op d a b c word acq rel sc s = .next (commit 8 (Res.holding [.x d]
      (if isHbm k then
        if acq then .park (post s1 k (rdX s a) (.amo op n (rdX s b) (rdX s c) .none) { acq := acq, rel, sc }) (.remote 0)
        else .ok (post (reserve s1 (.x d)).1 k (rdX s a) (.amo op n (rdX s b) (rdX s c) (reserve s1 (.x d)).2) { rel, sc })
      else
        let r := amoSync s1 (.cell s1.cur) none k op n (rdX s b) (rdX s c) acq rel sc
        .ok (defer r.1 (.x d) (sextW n r.2).toNat)))) := by
  have hquiet (hrel : rel = true) : quiet s1 = true := seen_quiet (begun_isSome h 8) (resolve_seen hr) (begun_quiet h (hq hrel) 8)
  unfold qamo
  rw [issue_calm h 8 _ _ _ _ rfl]
  simp only [getX_calm h, ← hn, atomic_home (begun_reply h 8) hr hquiet]
  cases isHbm k <;> cases acq <;> rfl

/-- In local store or scratchpad, the atomic is performed at once. -/
theorem qamo_own (hk : isHbm k = false) :
    let old := BitVec.ofNat (8 * n) (s1.readNat k n)
    ∃ t, qamo op d a b c word acq rel sc s = .next (after (lateX t d (old.signExtend 64)) 8)
      ∧ stored s t k (leBytes (amoLeft op ((rdX s c).setWidth (8 * n)) old ((rdX s b).setWidth (8 * n))).toNat n)
      ∧ t.me.x = s.me.x ∧ t.me.f = s.me.f ∧ t.me.csr = s.me.csr := by
  intro old
  obtain ⟨-, -, hcsr, -, -, -, hmem, -, -, hx, hf⟩ := seen_me (begun_isSome h 8) (resolve_seen hr)
  have hb := begun_me h 8
  obtain ⟨hkeepx, hcur⟩ := amoSync_frame unseeing_x s1 (.cell s1.cur) none k op n (rdX s b) (rdX s c) acq rel sc
  obtain ⟨hkeepf, -⟩ := amoSync_frame unseeing_f s1 (.cell s1.cur) none k op n (rdX s b) (rdX s c) acq rel sc
  obtain ⟨hkeepc, -⟩ := amoSync_frame unseeing_csr s1 (.cell s1.cur) none k op n (rdX s b) (rdX s c) acq rel sc
  obtain ⟨-, hold⟩ := amoSync_mem s1 (.cell s1.cur) none k op n (rdX s b) (rdX s c) acq rel sc
  have hstored := amoSync_stored s1 (.cell s1.cur) none k op n (rdX s b) (rdX s c) acq rel sc
  have hn' : n = 2 ∨ n = 4 ∨ n = 8 := by cases word <;> simp_all
  have hhoq : s1.me.csr.hoqen = 0 := by rw [hcsr]; exact begun_hoqen h 8
  refine ⟨_, ?_, ⟨hstored.1, fun i hi => (hstored.2 i hi).trans ?_⟩, (hkeepx.me hcur).trans (hx.trans (by rw [hb])),
    (hkeepf.me hcur).trans (hf.trans (by rw [hb])), (hkeepc.me hcur).trans (hcsr.trans (by rw [hb]))⟩
  · rw [qamo_key h hq hn hr op, hk, ← sextW_ofNat n hn', ← defer_x (by rw [hkeepc.me hcur, hhoq]), ← hold]
    rfl
  · unfold State.byte
    rw [hmem]
    rfl

/-- To HBM the atomic is on its way, and the destination is empty. -/
theorem qamo_hbm (hk : isHbm k = true) (hacq : acq = false) : qamo op d a b c word acq rel sc s
    = .next (after (post (reserve s1 (.x d)).1 k (rdX s a) (.amo op n (rdX s b) (rdX s c) (reserve s1 (.x d)).2) { rel, sc }) 8) := by
  rw [qamo_key h hq hn hr op, hk, hacq]
  rfl

/-- An acquiring one keeps its cell until the reply. -/
theorem qamo_acquire (hk : isHbm k = true) (hacq : acq = true) : qamo op d a b c word acq rel sc s
    = .next (waiting (post s1 k (rdX s a) (.amo op n (rdX s b) (rdX s c) .none) { acq := true, rel, sc }) (.remote 0)) := by
  obtain ⟨-, -, hcsr, -⟩ := seen_me (begun_isSome h 8) (resolve_seen hr)
  have hhoq : s1.me.csr.hoqen = 0 := by rw [hcsr]; exact begun_hoqen h 8
  have hpark : Res.holding [.x d] (.park (post s1 k (rdX s a) (.amo op n (rdX s b) (rdX s c) .none) { acq := true, rel, sc }) (.remote 0)) = _ :=
    holding_park _ _ (queuesOf_nil hhoq _)
  rw [qamo_key h hq hn hr op, hk, hacq, if_pos rfl, if_pos rfl, hpark]
  rfl

end

/-- A QAMO whose reply has come gives it, sign-extended. -/
theorem qamo_replied {v : Word} (h : replied s v = true) (op : AmoOp) (d a b c : Reg) (word acq rel : Bool) (sc : Scope) :
    qamo op d a b c word acq rel sc s = .next (after (lateX (begun s 8) d (if word then (v.setWidth 32).signExtend 64 else v)) 8) := by
  obtain ⟨cl, hc, hrun, hx, hf, hv, hhoq, hreply⟩ := replied_cell h
  have hme : (begun s 8).me = { cl with ilen := 8 } := modMe_me hc _
  have hvalue : sextW (if word then 4 else 8) v.toNat = if word then (v.setWidth 32).signExtend 64 else v := by
    cases word
    · exact (sextW_ofNat 8 (by omega) _).trans (by simp)
    · exact sextW_ofNat 4 (by omega) _
  have hatomic (ea src cmp : Word) (d : Dst) : atomic (begun s 8) ea (if word then 4 else 8) op src cmp d acq rel sc
      = .ok (defer (begun s 8) d (sextW (if word then 4 else 8) v.toNat).toNat) := by
    unfold atomic; rw [hme]; simp only [hreply]
  unfold qamo
  rw [issue_operands (canIssue_iff.mpr ⟨cl, hc, hrun⟩) rfl (operands_full hme hx hf hv hhoq _ _)]
  simp only [hatomic]
  rw [← hvalue, ← defer_x (by rw [hme]; exact hhoq)]
  rfl

/-- Settles O36: QFENCE by its scope and what it waits for, and each QAMO by where its address reaches, and with its reply. -/
theorem fencesAndQamo : Obligations.FencesAndQamo := by
  refine ⟨fun s s1 r w e sc d a b c acq rel k h => ?first, fun s d a b c w acq rel sc v h => ?reply⟩
  case first =>
    intro held waits reads
    refine ⟨fun hsc => ?_, exec_qfence_waits h r w e, fun hsc hw => ?_, fun _ hq => ?qamos⟩
    · rw [hsc]; exact exec_qfence_cell h r w e
    · exact (exec_qfence_orders h r w e hsc hw).trans (congrArg (fun t => Host.Outcome.next (after t 8)) (fenceOrders_classes r w sc (fenceHolds_cur e)))
    case qamos =>
      intro gives both
      have hgives (n : Nat) (word : Bool) (hn : n = if word then 4 else 8) (i : Instr) (op : AmoOp) (x : Reg)
          (hi : exec i s = qamo op d a b x word acq rel sc s) : gives n i op (amoLeft op ((rdX s x).setWidth (8 * n))) (rdX s x) := by
        intro hr old
        rw [hi]
        exact ⟨qamo_own h hq hn hr op, qamo_hbm h hq hn hr op, qamo_acquire h hq hn hr op⟩
      have hboth (i : Bool → Instr) (op : AmoOp) (x : Reg) (hi : ∀ word, exec (i word) s = qamo op d a b x word acq rel sc s) :
          both i op (fun n => amoLeft op ((rdX s x).setWidth n)) (rdX s x) :=
        ⟨hgives 4 true rfl _ op x (hi true), hgives 8 false rfl _ op x (hi false)⟩
      exact ⟨hboth (fun w => .qamoswap d a b w acq rel sc) .swap 0 fun _ => rfl,
        hboth (fun w => .qamoadd d a b w acq rel sc) .add 0 fun _ => rfl,
        hboth (fun w => .qamoxor d a b w acq rel sc) .xor 0 fun _ => rfl,
        hboth (fun w => .qamoand d a b w acq rel sc) .and 0 fun _ => rfl,
        hboth (fun w => .qamoor d a b w acq rel sc) .or 0 fun _ => rfl,
        hboth (fun w => .qamomin d a b w acq rel sc) .min 0 fun _ => rfl,
        hboth (fun w => .qamomax d a b w acq rel sc) .max 0 fun _ => rfl,
        hboth (fun w => .qamominu d a b w acq rel sc) .minu 0 fun _ => rfl,
        hboth (fun w => .qamomaxu d a b w acq rel sc) .maxu 0 fun _ => rfl,
        hboth (fun w => .qamocas d a b c w acq rel sc) .cas c fun _ => rfl⟩
  case reply =>
    exact ⟨qamo_replied h .swap .., qamo_replied h .add .., qamo_replied h .xor .., qamo_replied h .and .., qamo_replied h .or ..,
      qamo_replied h .min .., qamo_replied h .max .., qamo_replied h .minu .., qamo_replied h .maxu .., qamo_replied h .cas ..⟩

end Sys2Proof.Machine
end

section
/-! BJOIN, BKILL, BSTAT and the deadline, for a calm cell with nothing on its way (spec 16 R348 to R357). -/

open Sys2Proof Sys2Proof.Machine

namespace Sys2Proof.Machine

variable {s t : State}

/-! ### BJOIN (spec 16 R348 to R350) -/

/-- An f register names no hand-off queue. -/
theorem queuesOf_f (c : Cell) (r : Reg) : queuesOf c [.f r] = [] := rfl

section
variable (h : calm s = true)
include h

/-- A cell of no sibling's launch has no brood to join. -/
theorem joinOp_unsibling (hs : s.myLaunch.sib = none) (r wait : Option Reg) : joinOp r wait s = .next (trapped (begun s 8) 8 0x11 7) := by
  unfold joinOp
  rw [issue_calm h 8 _ _ _ _ rfl]
  simp only [(Unheld.of_calm h).begun_myLaunch, hs]
  rfl

variable (hq : quiet s = true) {b no : Nat} (hs : s.myLaunch.sib = some (b, no))
include hq hs

/-- A BJOIN that does not wait deposits, and its cell goes on. -/
theorem joinOp_deposits (r : Option Reg) : joinOp r none s = .next (after (deposit (begun s 8) b no (r.map (rdF s))) 8) := by
  have hr : r.map (getF (begun s 8)) = r.map (rdF s) := congrArg (r.map ·) (funext (getF_calm h 8))
  unfold joinOp
  rw [issue_calm h 8 _ _ _ _ rfl]
  simp only [(Unheld.of_calm h).begun_myLaunch, hs, release_quiet (begun_quiet h hq 8), op_bind_ok, hr]
  rfl

/-- A waiting BJOIN whose deposit leaves its brood running parks. -/
theorem joinOp_waits {r : Option Reg} {x : Brood} {d : Reg} (hx : (deposit (begun s 8) b no (r.map (rdF s))).brood b = some x) (hst : x.st ≠ .complete) :
    joinOp r (some d) s = .next (waiting (deposit (begun s 8) b no (r.map (rdF s))) (.bjoin b d)) := by
  have hr : r.map (getF (begun s 8)) = r.map (rdF s) := congrArg (r.map ·) (funext (getF_calm h 8))
  unfold joinOp
  rw [issue_calm h 8 _ _ _ _ rfl]
  simp only [(Unheld.of_calm h).begun_myLaunch, hs, release_quiet (begun_quiet h hq 8), op_bind_ok, hr, hx, beq_false_of_ne hst, Bool.false_eq_true, if_false]
  exact congrArg (Host.Outcome.next <| commit 8 ·) (holding_park [.f d] (.bjoin b d) (queuesOf_f _ d))

/-- With the last deposit of its brood, it has its advantage, as an acquire. -/
theorem joinOp_completes {r : Option Reg} {x : Brood} {d : Reg} (hx : (deposit (begun s 8) b no (r.map (rdF s))).brood b = some x) (hst : x.st = .complete) :
    joinOp r (some d) s = .next (after (lateF ((deposit (begun s 8) b no (r.map (rdF s))).modMe
      (Cell.orderAll (deposit (begun s 8) b no (r.map (rdF s))).stamp)) d (x.sibAt no).adv) 8) := by
  have hr : r.map (getF (begun s 8)) = r.map (rdF s) := congrArg (r.map ·) (funext (getF_calm h 8))
  unfold joinOp
  rw [issue_calm h 8 _ _ _ _ rfl]
  simp only [(Unheld.of_calm h).begun_myLaunch, hs, release_quiet (begun_quiet h hq 8), op_bind_ok, hr, hx, hst, beq_self_eq_true, if_true]
  rfl

/-- Where the brood is gone with it, its advantage is zero. -/
theorem joinOp_gone {r : Option Reg} {d : Reg} (hx : (deposit (begun s 8) b no (r.map (rdF s))).brood b = none) :
    joinOp r (some d) s = .next (after (lateF (deposit (begun s 8) b no (r.map (rdF s))) d 0) 8) := by
  have hr : r.map (getF (begun s 8)) = r.map (rdF s) := congrArg (r.map ·) (funext (getF_calm h 8))
  unfold joinOp
  rw [issue_calm h 8 _ _ _ _ rfl]
  simp only [(Unheld.of_calm h).begun_myLaunch, hs, release_quiet (begun_quiet h hq 8), op_bind_ok, hr, hx]
  rfl

end

/-- The reward of a PENDING sibling of a running brood is deposited: JOINED, or ABSTAINED where it is no finite number. -/
theorem deposit_pending {b no : Nat} {x : Brood} (hx : s.brood b = some x) (hst : x.st ≠ .complete) (hp : (x.sibAt no).status = 0) (r : W32) :
    deposit s b no (some r) = broodComplete (s.modBrood b fun x => { x with sibs := x.sibs.modify no fun y =>
      { y with status := if bits r.toNat 30 23 = 255 then 5 else 1, reward := r } }) b := by
  unfold deposit
  simp only [hx, hp, beq_false_of_ne hst, bne_self_eq_false, Bool.or_self, Bool.false_eq_true, if_false]

/-- A brood with a sibling that is not final does not complete. -/
theorem broodComplete_unfinal {b : Nat} {x : Brood} (hx : s.brood b = some x) (hf : x.final = false) : broodComplete s b = s := by
  unfold broodComplete
  simp only [hx, hf, Bool.not_false, Bool.or_true, Bool.true_or, if_true]

/-! ### BKILL and BSTAT (spec 16 R351 to R353) -/

/-- A register names a brood by its handle. -/
structure Names (s : State) (a : Reg) (b : Nat) : Prop where
  handle : rdX s a = BitVec.ofNat 64 b
  pos : 0 < b
  lt : b < 2 ^ 32

theorem Names.toNat {a : Reg} {b : Nat} (hb : Names s a b) : (rdX s a).toNat = b := by
  rw [hb.handle, BitVec.toNat_ofNat, Nat.mod_eq_of_lt (hb.lt.trans (by decide))]

section
variable {d a ix : Reg} {b : Nat} (hb : Names s a b)
include hb

/-- A stale handle names no brood. -/
theorem namedBrood_stale (hx : s.brood b = none) : namedBrood (begun s 8) (rdX s a) = .ok (b, none) := by
  have hn := hb.toNat
  have hne : rdX s a ≠ 0 := fun h0 => by rw [h0] at hn; exact absurd hn.symm (Nat.ne_of_gt hb.pos)
  unfold namedBrood
  simp only [hn, Nat.div_eq_of_lt hb.lt, bne_self_eq_false, Bool.false_eq_true, if_false, hne, show (begun s 8).brood b = none from hx]

variable (h : calm s = true)
include h

/-- A handle of the cell's partition names its brood. -/
theorem namedBrood_live {x : Brood} (hx : s.brood b = some x) (hp : x.part = s.myLaunch.part) : namedBrood (begun s 8) (rdX s a) = .ok (b, some x) := by
  have hn := hb.toNat
  have hne : rdX s a ≠ 0 := fun h0 => by rw [h0] at hn; exact absurd hn.symm (Nat.ne_of_gt hb.pos)
  unfold namedBrood
  simp only [hn, Nat.div_eq_of_lt hb.lt, bne_self_eq_false, Bool.false_eq_true, if_false, hne, show (begun s 8).brood b = some x from hx,
    (Unheld.of_calm h).begun_myLaunch, hp, if_true]

theorem execBkillAll_stale (hx : s.brood b = none) : ∃ w, execBkillAll d a s = .next (trapped (begun s 8) 8 0x11 w) := by
  refine ⟨broodVal 6 0 b, ?_⟩
  unfold execBkillAll killOp
  rw [issue_calm h 8 _ _ _ _ rfl]
  simp only [getX_calm h, namedBrood_stale hb hx, op_bind_ok]
  rfl

theorem execBstat_stale (hx : s.brood b = none) : execBstat d a s = .next (after (lateX (begun s 8) d 0) 8) := by
  unfold execBstat
  rw [issue_calm h 8 _ _ _ _ rfl]
  simp only [getX_calm h, namedBrood_stale hb hx, op_bind_ok]
  rw [← defer_word (n := 0) rfl (begun_hoqen h 8)]
  rfl

variable {x : Brood} (hx : s.brood b = some x) (hp : x.part = s.myLaunch.part)
include hx hp

/-- BKILL.ALL cancels the PENDING siblings, and gives how many. -/
theorem execBkillAll_live : execBkillAll d a s = .next (after (defer (cancelAll (begun s 8) b 7 (List.range x.sibs.length)).1 (.x d)
    (cancelAll (begun s 8) b 7 (List.range x.sibs.length)).2) 8) := by
  unfold execBkillAll killOp
  rw [issue_calm h 8 _ _ _ _ rfl]
  simp only [getX_calm h, namedBrood_live hb h hx hp, op_bind_ok]
  rfl

theorem execBkill_live (hn : (rdX s ix).toNat < x.g) : execBkill d a ix s = .next (after (defer (cancelAll (begun s 8) b 7 [(rdX s ix).toNat]).1 (.x d)
    (cancelAll (begun s 8) b 7 [(rdX s ix).toNat]).2) 8) := by
  unfold execBkill killOp
  rw [issue_calm h 8 _ _ _ _ rfl]
  simp only [getX_calm h, namedBrood_live hb h hx hp, op_bind_ok, ge_iff_le, Nat.not_le.mpr hn, if_false]
  rfl

/-- A BKILL of a sibling that the group does not have traps, and so does a BSTAT. -/
theorem execBkill_beyond (hn : x.g ≤ (rdX s ix).toNat) : execBkill d a ix s = .next (trapped (begun s 8) 8 0x11 (broodVal 8 0 b)) := by
  unfold execBkill killOp
  rw [issue_calm h 8 _ _ _ _ rfl]
  simp only [getX_calm h, namedBrood_live hb h hx hp, op_bind_ok, ge_iff_le, hn, if_true]
  rfl

theorem execBstatSib_live (hn : (rdX s ix).toNat < x.g) :
    execBstatSib d a ix s = .next (after (defer (begun s 8) (.x d) (sibWord (begun s 8) (x.sibAt (rdX s ix).toNat))) 8) := by
  unfold execBstatSib
  rw [issue_calm h 8 _ _ _ _ rfl]
  simp only [getX_calm h, namedBrood_live hb h hx hp, op_bind_ok, ge_iff_le, Nat.not_le.mpr hn, if_false]
  rfl

theorem execBstatSib_beyond (hn : x.g ≤ (rdX s ix).toNat) : execBstatSib d a ix s = .next (trapped (begun s 8) 8 0x11 (broodVal 8 0 b)) := by
  unfold execBstatSib
  rw [issue_calm h 8 _ _ _ _ rfl]
  simp only [getX_calm h, namedBrood_live hb h hx hp, op_bind_ok, ge_iff_le, hn, if_true]
  rfl

/-- BSTAT gives the summary, as an acquire. -/
theorem execBstat_live : execBstat d a s = .next (after (defer ((begun s 8).modMe (Cell.orderAll (begun s 8).stamp)) (.x d) (broodSummary x)) 8) := by
  unfold execBstat
  rw [issue_calm h 8 _ _ _ _ rfl]
  simp only [getX_calm h, namedBrood_live hb h hx hp, op_bind_ok]
  rfl

end

/-- The deadline of a running brood cancels its PENDING siblings with TIMEOUT. -/
theorem execBroodDeadline_running {b t : Nat} {x : Brood} (hx : s.brood b = some x) (hst : x.st = .running) (hc : x.clock = some t) (hd : x.u 0x38 8 ≠ 0) :
    execBroodDeadline b s = .next (cancelAll (s.timeTo (t + (x.u 0x38 8 - x.time))) b 8 (List.range x.sibs.length)).1 := by
  unfold execBroodDeadline
  simp only [hx, hst, hc, hd, decide_false, bne_self_eq_false, Bool.or_self, Bool.false_eq_true, if_false]

end Sys2Proof.Machine
end

section
/-! BFORK, for a calm cell with nothing on its way (spec 16 R339 to R344). -/

open Sys2Proof Sys2Proof.Machine

namespace Sys2Proof.Machine

variable {s t u : State}

/-! ### What a BFORK leaves of its cell -/

/-- What a BFORK leaves of its cell until its handle is on its way. -/
structure ForkView where
  gang : Nat
  csr : Csrs
  x : Vector Word 32
  f : Vector W32 32

def forkView (c : Cell) : ForkView := { gang := c.gang, csr := c.csr, x := c.x, f := c.f }

theorem unseeing_forkView : Unseeing forkView := fun _ _ _ _ _ _ _ _ => rfl

/-- What the reads and the writes of a BFORK leave as it is. -/
structure Forking (s t : State) : Prop where
  cur : t.cur = s.cur
  gangs : t.gangs = s.gangs
  launches : t.launches = s.launches
  broods : t.broods = s.broods
  bgen : t.bgen = s.bgen
  posted : t.posted = s.posted
  remotes : t.remotes = s.remotes
  view : Keeps forkView s t

theorem Forking.refl (s : State) : Forking s s := ⟨rfl, rfl, rfl, rfl, rfl, rfl, rfl, .refl s⟩

theorem Forking.trans (h1 : Forking s t) (h2 : Forking t u) : Forking s u :=
  ⟨h2.cur.trans h1.cur, h2.gangs.trans h1.gangs, h2.launches.trans h1.launches, h2.broods.trans h1.broods, h2.bgen.trans h1.bgen,
    h2.posted.trans h1.posted, h2.remotes.trans h1.remotes, h1.view.trans h2.view⟩

theorem Forking.me (h : Forking s t) : forkView t.me = forkView s.me := h.view.me h.cur

theorem Forking.myGang (h : Forking s t) : t.myGang = s.myGang := by
  have hg : t.me.gang = s.me.gang := congrArg ForkView.gang h.me
  unfold State.myGang State.gang
  rw [hg, h.gangs]

theorem Forking.myLaunch (h : Forking s t) : t.myLaunch = s.myLaunch := by
  show t.launch t.myGang.launch = s.launch s.myGang.launch
  rw [h.myGang]
  unfold State.launch
  rw [h.launches]

/-- A cell with nothing on its way still has nothing on its way. -/
theorem Forking.quiet (h : Forking s t) (hq : quiet s = true) : quiet t = true := by
  have hg : t.me.gang = s.me.gang := congrArg ForkView.gang h.me
  simp only [Sys2Proof.quiet, busy, outstandingTo, h.cur, h.posted, h.remotes, hg] at hq ⊢
  exact hq

theorem forking_modMe {f : Cell → Cell} (hf : ∀ c, forkView (f c) = forkView c) (s : State) : Forking s (s.modMe f) :=
  ⟨rfl, rfl, rfl, rfl, rfl, rfl, rfl, keeps_modCell hf s s.cur⟩

theorem forking_seen (h : seen s t) : Forking s t := by
  have hview : Keeps forkView s t := keeps_seen (fun _ => rfl) h
  obtain ⟨_, _, _, _, rfl | rfl⟩ := h
  · exact ⟨rfl, rfl, rfl, rfl, rfl, rfl, rfl, hview⟩
  · exact ⟨rfl, rfl, rfl, rfl, rfl, rfl, rfl, hview⟩

theorem forking_write (s : State) (who : Agent) (hive : Option Nat) (key : Nat) (d : List Byte) : Forking s (s.write who hive key d) := by
  have hview : Keeps forkView s (s.write who hive key d) := keeps_write unseeing_forkView s who hive key d
  cases hive with
  | none => exact ⟨rfl, rfl, rfl, rfl, rfl, rfl, rfl, hview⟩
  | some h => exact ⟨rfl, rfl, rfl, rfl, rfl, rfl, rfl, hview⟩

theorem forking_writeViews (s : State) (hive : Nat) (views : List (Nat × Nat)) : Forking s (writeViews s hive views) := by
  unfold writeViews
  induction views generalizing s with
  | nil => exact .refl s
  | cons v views ih => exact (forking_write s _ _ v.1 _).trans (ih _)

theorem forking_tick (s : State) : Forking s s.tick := ⟨rfl, rfl, rfl, rfl, rfl, rfl, rfl, ⟨fun _ => rfl⟩⟩

/-- The walks of the copy-on-write region leave translations behind, and nothing else. -/
theorem forking_cowPieces {seg off : Nat} : ∀ {l : List Nat} {s : State} {phys : List Nat}, cowPieces s seg off l = .ok (t, phys) → Forking s t
  | [], s, phys, h => by
    cases h
    exact .refl t
  | p :: rest, s, phys, h => by
    unfold cowPieces at h
    dsimp only at h
    split at h
    · cases h
    · split at h
      · cases h
      · split at h
        · cases h
        · cases h
        · split at h
          · cases h
          · split at h
            · next hrest =>
              cases h
              exact (forking_seen (faultPast_seen s _)).trans (forking_cowPieces hrest)
            · cases h

/-! ### The brood's entry (spec 16 R337, R342) -/

theorem brood_modBrood {h : Nat} {b : Brood} (hb : s.brood h = some b) {f : Brood → Brood} (hf : (f b).handle = h) : (s.modBrood h f).brood h = some (f b) := by
  unfold State.brood at hb ⊢
  split at hb
  · next c hc =>
    split at hb
    · cases hb
      show (match Tab.find (Tab.adjust s.broods (broodKey h) f) (broodKey h) with | some b => if b.handle = h then some b else none | none => none) = _
      rw [Tab.find_adjust_self, hc]
      exact if_pos hf
    · cases hb
  · cases hb

theorem brood_put {h : Nat} {b : Brood} (hb : b.handle = h) : { s with broods := Tab.put s.broods (broodKey h) b }.brood h = some b := by
  unfold State.brood
  simp only [Tab.find_put_self, hb, if_true]

/-- The handle of a free entry of a die's brood table. -/
def forkHandle (s : State) (e : Nat) : Nat := dieOfCell s.cur * 2 ^ 30 + Tab.getD s.bgen (dieOfCell s.cur * 4096 + e) 1 * 4096 + e

theorem freeEntry_lt {die e : Nat} (h : freeEntry s die = some e) : e < 4096 := by
  unfold freeEntry at h
  have hmem := List.mem_of_find?_eq_some h
  rwa [List.mem_range] at hmem

/-- A handle gives its entry's place back. -/
theorem broodKey_handle {die gen e : Nat} (hd : die < 4) (hg : gen < 2 ^ 18) (he : e < 4096) : broodKey (die * 2 ^ 30 + gen * 4096 + e) = die * 4096 + e := by
  unfold broodKey broodDie bits
  omega

/-! ### Taking the siblings' launches (spec 16 R343; 04 R98) -/

/-- The cells, whose turn it is, and the broods, as a launch that is taken leaves them. -/
structure SameCells (s t : State) : Prop where
  cells : t.cells = s.cells
  cur : t.cur = s.cur
  broods : t.broods = s.broods

theorem SameCells.trans (h1 : SameCells s t) (h2 : SameCells t u) : SameCells s u :=
  ⟨h2.cells.trans h1.cells, h2.cur.trans h1.cur, h2.broods.trans h1.broods⟩

theorem sameCells_foldl {α : Type} {f : State → α → State} (hf : ∀ s a, SameCells s (f s a)) (l : List α) (s : State) : SameCells s (l.foldl f s) := by
  induction l generalizing s with
  | nil => exact ⟨rfl, rfl, rfl⟩
  | cons a l ih => exact (hf s a).trans (ih _)

theorem sameCells_takeRef (s : State) (lid : Nat) (entry : Word) : SameCells s (takeRef s lid entry) := by
  unfold takeRef
  dsimp only
  split <;> exact ⟨rfl, rfl, rfl⟩

theorem sameCells_dealGroup (s : State) (lid part die num dieGroup : Nat) (h : Hdr) : SameCells s (dealGroup s lid part die num dieGroup h) := by
  unfold dealGroup
  split <;> exact ⟨rfl, rfl, rfl⟩

theorem sameCells_dealAll (s : State) (lid part die : Nat) (h : Hdr) : SameCells s (dealAll s lid part die h) := by
  unfold dealAll
  exact sameCells_foldl (fun _ _ => sameCells_foldl (fun _ _ => sameCells_dealGroup ..) ..) ..

theorem sameCells_takeLaunch (s : State) (part queue asid seq : Nat) (h : Hdr) (psig : Word) (irq : Option Nat) (sib : Option (Nat × Nat)) :
    SameCells s (takeLaunch s part queue asid seq h psig irq sib).1 := by
  unfold takeLaunch
  extract_lets lid die shape l0 l s1
  have h1 : SameCells s s1 := by
    have href := sameCells_takeRef { s with launches := Tab.put s.launches lid l, nextId := lid + 1 } lid h.entry
    exact ⟨href.cells, href.cur, href.broods⟩
  clear_value shape
  cases shape with
  | none => exact h1
  | some h' => exact h1.trans (sameCells_dealAll ..)

/-- The launches of a brood's siblings: their partition, queue and address space, the template, and the views' places. -/
structure ForkArgs where
  part : Nat
  queue : Nat
  asid : Nat
  handle : Nat
  template : Hdr
  viewb : Nat
  vstride : Nat
  cowlen : Nat

/-- The launches of the siblings of a brood with a descriptor, which a cell of the launch `l` forks. -/
def forkArgs (l : Launch) (asid handle : Nat) (desc : List Byte) (template : Hdr) : ForkArgs :=
  { part := l.part, queue := l.queue, asid, handle, template, viewb := dsc desc 0x18 8, vstride := dsc desc 0x20 8, cowlen := dsc desc 0x10 8 }

/-- Sibling `i` joins its brood with its launch, which is taken. -/
def forkSib (p : ForkArgs) (s : State) (i : Nat) : State :=
  let r := takeLaunch s p.part p.queue p.asid i (sibHdr p.template p.handle i p.viewb p.vstride p.cowlen) 0 none (some (p.handle, i))
  r.1.modBrood p.handle fun b => { b with sibs := b.sibs ++ [{ launch := some r.2 }] }

/-- The first `n` siblings of a brood are PENDING, each with its launch. -/
structure SibsTaken (s t : State) (h n : Nat) (b : Brood) : Prop where
  cells : t.cells = s.cells
  cur : t.cur = s.cur
  brood : ∃ sibs : List Sib, t.brood h = some { b with sibs } ∧ sibs.length = n ∧ ∀ x ∈ sibs, x.status = 0 ∧ x.launch.isSome = true

theorem forkSib_taken {p : ForkArgs} {n : Nat} {b : Brood} (hb : b.handle = p.handle) (h : SibsTaken s t p.handle n b) (i : Nat) :
    SibsTaken s (forkSib p t i) p.handle (n + 1) b := by
  obtain ⟨hcells, hcur, sibs, hbrood, hlen, hall⟩ := h
  have hs := sameCells_takeLaunch t p.part p.queue p.asid i (sibHdr p.template p.handle i p.viewb p.vstride p.cowlen) 0 none (some (p.handle, i))
  have hkept : (takeLaunch t p.part p.queue p.asid i (sibHdr p.template p.handle i p.viewb p.vstride p.cowlen) 0 none (some (p.handle, i))).1.brood p.handle
      = some { b with sibs } := by
    unfold State.brood at hbrood ⊢
    rw [hs.broods]
    exact hbrood
  have hnext := brood_modBrood hkept (f := fun b => { b with sibs := b.sibs ++ [{ launch := some (takeLaunch t p.part p.queue p.asid i
    (sibHdr p.template p.handle i p.viewb p.vstride p.cowlen) 0 none (some (p.handle, i))).2 }] }) hb
  refine ⟨hs.cells.trans hcells, hs.cur.trans hcur, _, hnext, ?_, fun x hx => ?_⟩
  · rw [List.length_append, hlen]
    rfl
  · rcases List.mem_append.mp hx with hx | hx
    · exact hall x hx
    · rw [List.mem_singleton.mp hx]
      exact ⟨rfl, rfl⟩

theorem forkSibs_taken {p : ForkArgs} {b : Brood} (hb : b.handle = p.handle) (l : List Nat) {n : Nat} (h : SibsTaken s t p.handle n b) :
    SibsTaken s (l.foldl (forkSib p) t) p.handle (n + l.length) b := by
  induction l generalizing t n with
  | nil => exact h
  | cons i l ih =>
    have := ih (forkSib_taken hb h i)
    rw [List.length_cons, ← Nat.add_assoc, Nat.add_right_comm]
    exact this

/-! ### BFORK (spec 16 R339 to R344) -/

/-- The state in which the views of a BFORK have been written. -/
def forkViews (s : State) (slots : List (Option Nat × Nat)) : State := writeViews s (hiveOfCell s.cur) (slots.map fun v => (v.1.getD 0, v.2))

/-- The brood of a BFORK before its siblings. -/
def forkBrood (s : State) (asid e : Nat) (desc : List Byte) (slots : List (Option Nat × Nat)) : Brood :=
  { handle := forkHandle s e, part := (forkViews s slots).myLaunch.part, asid, st := .running, desc, sibs := [], clock := some (forkViews s slots).tick.qtime }

/-- The state in which it stands in its entry. -/
def forkOpened (s : State) (asid e : Nat) (desc : List Byte) (slots : List (Option Nat × Nat)) : State :=
  { (forkViews s slots).tick with
    broods := Tab.put (forkViews s slots).tick.broods (dieOfCell s.cur * 4096 + e) (forkBrood s asid e desc slots) }

/-- The state in which its siblings have their launches. -/
def forkDone (s : State) (asid e : Nat) (desc : List Byte) (template : Hdr) (slots : List (Option Nat × Nat)) : State :=
  (List.range (dsc desc 2 2)).foldl (forkSib (forkArgs (forkViews s slots).myLaunch asid (forkHandle s e) desc template)) (forkOpened s asid e desc slots)

/-- The brood of a BFORK runs, with one PENDING sibling for each of its group; of its cell, what a BFORK leaves is as before. -/
theorem forkDone_brood (hcur : s.cur < 8192) {e : Nat} (hfree : freeEntry s (dieOfCell s.cur) = some e)
    (hgen : Tab.getD s.bgen (dieOfCell s.cur * 4096 + e) 1 < 2 ^ 18) (asid : Nat) (desc : List Byte) (template : Hdr) (slots : List (Option Nat × Nat)) :
    ∃ b, (forkDone s asid e desc template slots).brood (forkHandle s e) = some b ∧ b.st = .running ∧ b.desc = desc ∧ b.part = s.myLaunch.part
      ∧ b.asid = asid ∧ b.sibs.length = dsc desc 2 2 ∧ (∀ x ∈ b.sibs, x.status = 0 ∧ x.launch.isSome = true)
      ∧ forkView (forkDone s asid e desc template slots).me = forkView s.me := by
  have hdie : dieOfCell s.cur < 4 := by unfold dieOfCell; omega
  have hkey : broodKey (forkHandle s e) = dieOfCell s.cur * 4096 + e := broodKey_handle hdie hgen (freeEntry_lt hfree)
  have hviews : Forking s (forkViews s slots) := forking_writeViews ..
  have hopen : SibsTaken (forkOpened s asid e desc slots) (forkOpened s asid e desc slots) (forkHandle s e) 0 (forkBrood s asid e desc slots) := by
    refine ⟨rfl, rfl, [], ?_, rfl, fun x hx => absurd hx List.not_mem_nil⟩
    unfold forkOpened
    rw [← hkey]
    exact brood_put rfl
  obtain ⟨hcells, hcur', sibs, hbrood, hlen, hall⟩ := forkSibs_taken (p := forkArgs _ asid (forkHandle s e) desc template) (b := forkBrood s asid e desc slots) rfl
    (List.range (dsc desc 2 2)) hopen
  refine ⟨{ forkBrood s asid e desc slots with sibs }, hbrood, rfl, rfl, congrArg Launch.part hviews.myLaunch, rfl, hlen.trans ?_, hall, ?_⟩
  · rw [Nat.zero_add, List.length_range]
  · have hme : (forkDone s asid e desc template slots).me = (forkOpened s asid e desc slots).me :=
      congrArg₂ (fun (cells : Tab Cell) k => Tab.getD cells k ({} : Cell)) hcells hcur'
    rw [hme]
    exact hviews.me

/-- A check of a list that finds no fault finds none in each of its entries. -/
theorem firstBad_none {l : List (Bool × Nat)} (h : firstBad l = none) {e : Bool × Nat} (he : e ∈ l) : e.1 = false := by
  unfold firstBad at h
  exact Bool.eq_false_of_not_eq_true (List.find?_eq_none.mp (Option.map_eq_none_iff.mp h) e he)

/-- A valid descriptor names a template that can be read. -/
theorem templateNamed_of_valid {desc : List Byte} (h : broodBad desc = none) : templateNamed desc = true := by
  unfold broodBad at h
  have hbad := firstBad_none h (e := (leNat ((desc.drop 0x68).take 8) == 0 || leNat ((desc.drop 0x68).take 8) % 64 != 0
    || leNat ((desc.drop 0x68).take 8) / 2 ^ 56 != 0, 0x68)) (by simp)
  simp only [Bool.or_eq_false_iff, beq_eq_false_iff_ne, bne_eq_false_iff_eq] at hbad
  obtain ⟨⟨hne, hal⟩, hhigh⟩ := hbad
  unfold templateNamed
  simp only [bne_iff_ne.mpr hne, hal, hhigh, beq_self_eq_true, Bool.and_self]

/-- A BFORK finds its descriptor and template valid, its copy-on-write region present, its views not present, and an entry free. -/
structure Forks (s s1 s2 s3 : State) (a : Reg) (dva n1 n2 e : Nat) (desc tm : List Byte) (phys : List Nat) (slots : List (Option Nat × Nat)) : Prop where
  place : segCheck s.myGang (rdX s a) 256 rRead = .ok dva
  aligned : (rdX s a).toNat % 64 = 0
  descriptor : loadBlock (begun s 8) (rdX s a) dva 256 0 = .ok (s1, desc, n1)
  valid : broodBad desc = none
  template : loadBlock s1 (BitVec.ofNat 64 (dsc desc 0x68 8)) (dsc desc 0x68 8) 256 n1 = .ok (s2, tm, n2)
  templateValid : templateBad (dsc desc 2 2) (dsc desc 6 1) (hdrOf tm) = none
  pages : ((s2.myGang.segment (dsc desc 7 1)).1.toNat + dsc desc 8 8) % 65536 = 0
  region : cowPieces s2 (dsc desc 7 1) (dsc desc 8 8) (List.range (dsc desc 0x10 8 / 65536)) = .ok (s3, phys)
  slots_eq : slots = (List.range (dsc desc 2 2)).flatMap fun i => phys.zipIdx.map fun p =>
    (level4At s3 s2.myLaunch.asid (dsc desc 0x18 8 + i * dsc desc 0x20 8 + 65536 * p.2), p.1)
  views : ∀ v ∈ slots, ∃ k, v.1 = some k ∧ pteV (s3.readNat k 8) = false
  entry : freeEntry s3 (dieOfCell s3.cur) = some e
  quiet : quiet s3 = true

/-- Such a BFORK gives its handle. -/
theorem exec_bfork_forks (h : calm s = true) {s1 s2 s3 : State} {d a : Reg} {dva n1 n2 e : Nat} {desc tm : List Byte} {phys : List Nat}
    {slots : List (Option Nat × Nat)} (hf : Forks s s1 s2 s3 a dva n1 n2 e desc tm phys slots)
    (hlt : forkHandle s3 e < 2 ^ 64) (hhoq : (forkDone s3 s2.myLaunch.asid e desc (hdrOf tm) slots).me.csr.hoqen = 0) :
    exec (.bfork d a) s = .next (after (lateX (forkDone s3 s2.myLaunch.asid e desc (hdrOf tm) slots) d (BitVec.ofNat 64 (forkHandle s3 e))) 8) := by
  obtain ⟨hplace, hal, hdesc, hvalid, htm, htemplate, hpages, hregion, hslots, hviews, hentry, hquiet⟩ := hf
  unfold dsc at htm htemplate hpages hregion hslots
  rw [exec_bfork, execBfork, issue_calm h 8 _ _ _ _ rfl]
  simp only [getX_calm h, begun_gang h, hplace, hal, hdesc, templateNamed_of_valid hvalid, htm, hvalid, htemplate, hpages, hregion, op_bind_ok, bne_self_eq_false,
    Bool.false_eq_true, if_false, if_true]
  rw [← hslots, if_neg ?present]
  case present =>
    rw [List.any_eq_true]
    rintro ⟨v, hv, hp⟩
    obtain ⟨k, hk, hpte⟩ := hviews v hv
    rw [hk] at hp
    exact absurd (hp.symm.trans hpte) (by decide)
  simp only [hentry, release_quiet hquiet, op_bind_ok]
  rw [← defer_word (n := forkHandle s3 e) (by rw [BitVec.toNat_ofNat, Nat.mod_eq_of_lt hlt]) hhoq]
  rfl

/-- Settles O44: BFORK as it leaves its brood, and the other instructions of a brood by what they find of it. -/
theorem broods : Obligations.Broods := by
  refine ⟨fun s s1 s2 s3 d a dva n1 n2 e desc tm phys h hq hcur => ?fork, fun s d a b hd no h hq => ?joins⟩
  case fork =>
    intro ea u die slots handle hplace hal hdesc hvalid htm hseen htemplate hpages hregion hviews hfree hgen
    have h2 : Forking s s2 :=
      ((forking_modMe (by exact fun _ => rfl) s).trans (forking_modMe (by exact fun _ => rfl) (begun s 8))).trans (forking_seen hseen)
    have h3 : Forking s s3 := h2.trans (forking_cowPieces hregion)
    have hlaunch : s2.myLaunch = s.myLaunch := h2.myLaunch
    have hfork : Forks s s1 s2 s3 a dva n1 n2 e desc tm phys slots :=
      ⟨hplace, hal, hdesc, hvalid, htm, htemplate, by rw [h2.myGang]; exact hpages, hregion, by rw [hlaunch]; rfl, hviews, by rw [h3.cur]; exact hfree,
        h3.quiet hq⟩
    have hgen3 : Tab.getD s3.bgen (dieOfCell s3.cur * 4096 + e) 1 < 2 ^ 18 := by rw [h3.cur, h3.bgen]; exact hgen
    have hhandle : forkHandle s3 e = handle := by
      unfold forkHandle
      rw [h3.cur, h3.bgen]
    obtain ⟨x, hx, hst, hxdesc, hpart, hasid, hlen, hall, hview⟩ := forkDone_brood (h3.cur ▸ hcur) hfork.entry hgen3 s2.myLaunch.asid desc (hdrOf tm) slots
    have hview := hview.trans h3.me
    have hlt : forkHandle s3 e < 2 ^ 64 := by
      have hd : dieOfCell s3.cur < 4 := by rw [h3.cur]; unfold dieOfCell; omega
      have he := freeEntry_lt hfree
      unfold forkHandle
      omega
    have hhoq := (congrArg (fun v => v.csr.hoqen) hview).trans (signalView_calm h).2.1
    refine ⟨_, x, (exec_bfork_forks h hfork hlt hhoq).trans (by rw [hhandle]), hhandle ▸ hx, hst, hxdesc, hpart.trans (congrArg Launch.part h3.myLaunch),
      hasid.trans (congrArg Launch.asid hlaunch), hlen, hall, congrArg ForkView.x hview, congrArg ForkView.f hview⟩
  case joins =>
    intro u
    refine ⟨fun hs => ⟨joinOp_deposits h hq hs (some a), joinOp_deposits h hq hs none, fun r i hi => ?waiting⟩,
      fun hs => ⟨joinOp_unsibling h hs (some a) none, joinOp_unsibling h hs none none⟩, fun x hx hst hp => ?deposit, fun x hx hf => broodComplete_unfinal hx hf,
      fun x ha hpos hlt hx hp => ?live, fun ha hpos hlt hx => ?stale, fun x t hx hst hc hd => execBroodDeadline_running hx hst hc hd⟩
    case waiting =>
      have hjoin : ∃ f : Option Reg, exec i s = joinOp f (some d) s ∧ r = f.map (rdF s) := by
        rcases hi with ⟨rfl, rfl⟩ | ⟨rfl, rfl⟩
        · exact ⟨some a, rfl, rfl⟩
        · exact ⟨none, rfl, rfl⟩
      obtain ⟨f, hx, rfl⟩ := hjoin
      rw [hx]
      exact ⟨fun x hb hst => joinOp_waits h hq hs hb hst, fun x hb hst => joinOp_completes h hq hs hb hst, fun hb => joinOp_gone h hq hs hb⟩
    case deposit =>
      intro put r
      have hput := deposit_pending hx hst hp r
      refine ⟨fun hr => hput.trans ?_, fun hr => hput.trans ?_⟩
      · rw [if_neg hr]
      · rw [if_pos hr]
    case live =>
      intro n all one
      have hb : Names s a hd := ⟨ha, hpos, hlt⟩
      exact ⟨execBkillAll_live hb h hx hp, fun hn => ⟨execBkill_live hb h hx hp hn, execBstatSib_live hb h hx hp hn⟩,
        fun hn => ⟨_, execBkill_beyond hb h hx hp hn, execBstatSib_beyond hb h hx hp hn⟩, execBstat_live hb h hx hp⟩
    case stale =>
      have hb : Names s a hd := ⟨ha, hpos, hlt⟩
      exact ⟨execBstat_stale hb h hx, execBkillAll_stale hb h hx⟩

end Sys2Proof.Machine
end
